-- ==== Sys2Proof/Word.lean ====
section
/-! DEFINITION. The word types, the unit numbers and the small operand types of the commands. -/

namespace Sys2Proof

abbrev Byte := BitVec 8
abbrev Word := BitVec 32
abbrev DWord := BitVec 64

/-- A physical core, 0–207 on every variant (R5). -/
abbrev CoreId := Fin 208
/-- A context, 0–15 (R184). -/
abbrev CtxId := Fin 16
/-- An Ikinum port, 0–15 (R245). -/
abbrev PortId := Fin 16
/-- A PCIe function: 0 the physical function, n + 1 the virtual function of context n (R289). -/
abbrev FnId := Fin 17
/-- A submission or completion ring of a function (R298); the physical function has ring 0 alone. -/
abbrev RingId := Fin 4
/-- A virtual lane of a port (R256). -/
abbrev VlId := Fin 4
/-- A belay-engine slot (R380). -/
abbrev SlotId := Fin 32
/-- A coolant bus interface: 0 is A, 1 is B (R436). -/
abbrev IfId := Fin 2
/-- A lease group (R454). -/
abbrev GroupId := Fin 4
/-- A management principal's index in the MGMT entry (R500); `none` is a requester that is not listed. -/
abbrev Principal := Option (Fin 8)

/-- The three variants of R1. -/
inductive Variant where
  | m740 | m724 | m712
  deriving DecidableEq, Repr

/-- The completion statuses of R12. -/
inductive Status where
  | ok | inexact | saturated | overrun | aborted | footprint | residue | crc
  | undeliverable | denied | scrubbing
  deriving DecidableEq, Repr

/-- The 4-bit code of a status (R12). -/
def Status.code : Status → BitVec 4
  | .ok => 0x0 | .inexact => 0x1 | .saturated => 0x2 | .overrun => 0x3 | .aborted => 0x4
  | .footprint => 0x5 | .residue => 0x6 | .crc => 0x7 | .undeliverable => 0x8
  | .denied => 0x9 | .scrubbing => 0xA

/-- Who accesses a register: a function's BAR0, the physical function's BAR4 with its MSI-X table (R289), the
camp cores inside the compute die, or Cairn on its own bus (R528). -/
inductive Party where
  | host (fn : FnId)
  | bar4
  | camp
  | cairn
  deriving DecidableEq, Repr

/-- An arbiter instance of R179: a Ledge slice port, an HBM pseudo-channel, a mesh link egress,
an Ikinum port egress, or the power-token grant. -/
inductive ArbId where
  | ledgeLocal (slice : CoreId)
  | ledgeMesh (slice : CoreId)
  | hbm (pc : BitVec 8)
  | mesh (router : CoreId) (dir : Fin 5)
  | fab (p : PortId)
  | pwr
  deriving DecidableEq, Repr

/-- One number per arbiter instance, the key under which the state keeps it. -/
def ArbId.key : ArbId → Nat
  | .ledgeLocal n => n.val
  | .ledgeMesh n => 208 + n.val
  | .hbm pc => 416 + pc.toNat
  | .mesh r d => 672 + r.val * 5 + d.val
  | .fab p => 1712 + p.val
  | .pwr => 1728

/-- A memory unit that a failed transfer or a scrub failure is counted against (R160, R225). -/
inductive MemUnit where
  | ledgeBank (g : BitVec 12)
  | hbmPc (pc : BitVec 8)
  deriving DecidableEq, Repr

/-- A sensor that the thermal block or the coolant supervisor can mark (R354–R359). -/
inductive SensorId where
  | core (n : CoreId)
  | edge (i : Fin 32)
  | ledge (k : Fin 4)
  | stack (s : Fin 8)
  | therm (i : Fin 8)
  | flow (i : Fin 4)
  | dp (ain : Fin 16)
  deriving DecidableEq, Repr

/-- The firmware domains of R505. -/
inductive FwDomain where
  | cairn | camp
  deriving DecidableEq, Repr

/-- What a READ request asks for (R500): a register of a mirror page, the hut book, the ledger or the fault list. -/
inductive ReadWhat where
  | reg (off : BitVec 26)
  | hut | ledger | faults
  deriving DecidableEq, Repr

/-- Where a submission command came from: its function, ring, ring index and TAG (R303, R307). -/
structure CmdSrc where
  fn : FnId
  sq : RingId
  index : BitVec 16
  tag : Word
  deriving DecidableEq, Repr

/-- A fabric block: the header fields of R249 and its payload bytes. -/
structure FabBlock where
  dst : BitVec 16
  src : BitVec 16
  job : BitVec 12
  type : BitVec 4
  vl : VlId
  len : BitVec 2
  ke : Bool
  poison : Bool
  lseq : BitVec 12
  addr : BitVec 26
  ch : BitVec 4
  crc : Word
  payload : List Byte
  deriving DecidableEq, Repr

/-- A fabric key message as received (R474): its chain, its body, its signature, the index-4 digest
it reports, whether the partner is an external switch (R475), and the partner's node and port. -/
structure KeyMsg where
  chain : List Byte
  body : List Byte
  sig : List Byte
  digest : List Byte
  switch : Bool
  node : BitVec 16
  port : BitVec 4
  deriving DecidableEq, Repr

/-- A frame on the coolant bus as an interface receives it (R436, R441): extended format or not,
remote or not, its identifier, payload, and the timestamp of its start-of-frame bit.
`own` says that the module sent it itself. -/
structure CanFrame where
  extended : Bool
  remote : Bool
  id : BitVec 29
  payload : List Byte
  sof : DWord
  own : Bool
  deriving DecidableEq, Repr

end Sys2Proof
end

