-- ==== Sys2Proof/Syntax.lean ====
section
/-! DEFINITION. The commands of the module: one constructor per row of the opcode table. -/

namespace Sys2Proof

/-- A command: a request, a register access or an event that one row of the opcode table names.
Each constructor cites the rule that the table gives its row. -/
inductive Instr where
  /-- STANDBY_RESET (R31). The 54 V input rising into its standby range restarts everything, including Cairn and the module timestamp, and activates staged images. -/
  | standbyReset 
  /-- STANDBY_FALLING_THRESHOLD (R549). The input falls below the standby falling threshold; drive channels go to their safe state and the power-fail flush of the hut book begins. -/
  | standbyFallingThreshold 
  /-- INPUT_OUT_OF_RANGE (R549). The input stays above 60 V or below 46 V for 100 µs with the rails on; Cairn shuts down the rails and asserts MOD_FAULT_N. -/
  | inputOutOfRange (deciVolts : Nat)
  /-- INPUT_BACK_IN_RANGE (R549). The input has been within 46–58 V for 1 s with POWER_EN asserted; Cairn begins an automatic flow proof if the hourly limit allows. -/
  | inputBackInRange (deciVolts : Nat)
  /-- POWER_EN_ASSERTED (R554). POWER_EN is asserted after its 1 ms filter, or acted on 100 ms after a recent release, and arms the flow proof. -/
  | powerEnAsserted 
  /-- POWER_EN_RELEASED (R558). POWER_EN released: the coolant state goes OFF, Cairn commits a coolant cap of zero and turns the compute rails off, which is a module reset. -/
  | powerEnReleased 
  /-- POWER_DOWN_PUMP_SAFE (R558). 30 s after the rails turn off at power-down, pump channels that are not LEASED return to their safe state. -/
  | powerDownPumpSafe 
  /-- REFERENCE_LOSS (R21). No module-reference edge for 1 µs; Cairn holds over on its internal oscillator, shuts down the rails, asserts MOD_FAULT_N and records the event. -/
  | referenceLoss 
  /-- REFERENCE_RETURN (R22). The reference has stayed within tolerance for 1 s; Cairn switches back at a base period boundary, releases MOD_FAULT_N and may restart the flow proof. -/
  | referenceReturn 
  /-- CAIRN_WATCHDOG_EXPIRY (R495). The Cairn hardware watchdog expires; drives go safe, rails shut down, MOD_FAULT_N is asserted, the hut book flushes and a standby reset starts. -/
  | cairnWatchdogExpiry 
  /-- HOST_LINK_RESET (R315). PERST_N, PCIe hot reset, link loss or a physical-function FLR resets rings, doorbells, MSI-X state, IDE keys and interrupt routing. -/
  | hostLinkReset (flr : Bool)
  /-- PCIE_LINK_UP (R287). The host link finishes training to the highest common rate and width and HOST_LINK reports it. -/
  | pcieLinkUp (rate : Fin 3) (width : BitVec 5)
  /-- THROTTLE_N_ASSERTED (R345). THROTTLE_N asserted after its 200 ns filter; the arbiter stops installments within 1 µs and the throttle cap applies from the next boundary. -/
  | throttleNAsserted 
  /-- THROTTLE_N_RELEASED (R345). THROTTLE_N has been released for 100 µs continuously; installments resume and the throttle cap leaves force at the next boundary. -/
  | throttleNReleased 
  /-- CAIRN_IMAGE_VERIFIED (R554). The Cairn boot ROM finishes verifying the active image and starts Cairn firmware, which starts the heartbeat, I3C target and belay engine. -/
  | cairnImageVerified 
  /-- STARTUP_SENSOR_CHECK (R555). Cairn checks the assigned inputs and leak ropes at start-up, every 1 s until they pass, and releases MOD_FAULT_N when they do. -/
  | startupSensorCheck 
  /-- FLOW_PROOF_START (R369). 1 ms after the later of the sensor checks passing and POWER_EN asserted, Cairn starts the assigned pump channels and enters PROVING. -/
  | flowProofStart 
  /-- FLOW_PROOF_PASS (R369). A flow window reaches PROOF_TIME unbroken; Cairn writes the coolant cap and enables the compute rails. -/
  | flowProofPass 
  /-- FLOW_PROOF_TIMEOUT (R369). No unbroken window by PROOF_TIMEOUT; the proof fails, rails stay off, unleased pumps go safe and MOD_FAULT_N is asserted. -/
  | flowProofTimeout 
  /-- COMPUTE_DIE_RESET_RELEASE (R554). The compute rails reach regulation and the compute die leaves reset, loading the timestamp copy and starting core storage initialisation. -/
  | computeDieResetRelease 
  /-- CAMP_CORES_START (R554). The compute boot ROM verifies the camp-core image and starts the camp cores, or posts a failure and stays in recovery. -/
  | campCoresStart 
  /-- TRAINING_COMPLETE (R240). Die, Ledge and HBM are trained and the camp cores restore the core map and retirements from the fault list. -/
  | trainingComplete 
  /-- AK_X_GENERATED (R466). The compute die generates and certifies its per-boot attestation key and sets AK_VALID. -/
  | akXGenerated 
  /-- ZERO_FILL_DONE (R483). Camp-core firmware finishes zero-filling all usable HBM and every Ledge granule and sets ZEROED. -/
  | zeroFillDone 
  /-- STARTUP_STEP_TIMEOUT (R556). A start-up step misses its maximum; Cairn resets and repeats from the flow proof once, or enters recovery for early steps. -/
  | startupStepTimeout (stepNo : Fin 14)
  /-- MOD_HEARTBEAT_TOGGLE (R501). After a full service loop Cairn firmware toggles MOD_HEARTBEAT every 50 ms, or the boot ROM toggles it at 1 Hz in recovery. -/
  | modHeartbeatToggle 
  /-- WLD (R117). Loads one weight set from pitch memory or an input region into the IDLE bank chosen when it starts. -/
  | wld (c : CoreId)
  /-- WLD_COMPLETE (R118). The last entry of a weight load is written, the bank's VALID bit sets and a waiting WSW may take effect. -/
  | wldComplete (c : CoreId)
  /-- WSW (R119). Activates the IDLE bank with VALID set at a pass boundary and moves the active bank to DRAINING, or fails with DENIED. -/
  | wsw (c : CoreId)
  /-- BANK_DRAIN_DONE (R85). A DRAINING bank becomes IDLE 127 cycles after its last token's last input cycle and its VALID clears. -/
  | bankDrainDone (c : CoreId)
  /-- STR (R120). Streams an activation tile through the grid from its first input cycle, accumulating each token's passes into anchor entries. -/
  | str (c : CoreId)
  /-- STR_COMPLETE (R121). The last pass of an STR lands in the anchors. -/
  | strComplete (c : CoreId)
  /-- ANC_CLR (R122). Clears N entry rows over all 64 columns and sets their window exponent. -/
  | ancClr (c : CoreId)
  /-- ANC_RD (R123). Reads out entry rows with conversion and residue check into pitch memory or vector registers, optionally clearing them. -/
  | ancRd (c : CoreId)
  /-- ANC_EXP (R124). Exports anchor entries as 32-byte raw records with a residue check. -/
  | ancExp (c : CoreId)
  /-- ANC_MRG (R62). Merges raw records into anchor entries by exact aligned addition, carrying residue and flags. -/
  | ancMrg (c : CoreId)
  /-- VEC_ADD (R125). Lane-wise addition of two vector registers. -/
  | vecAdd (c : CoreId)
  /-- VEC_SUB (R125). Lane-wise subtraction of two vector registers. -/
  | vecSub (c : CoreId)
  /-- VEC_MUL (R125). Lane-wise multiplication of two vector registers. -/
  | vecMul (c : CoreId)
  /-- VEC_FMA (R125). Lane-wise fused multiply-add rounded once. -/
  | vecFma (c : CoreId)
  /-- VEC_MIN (R125). Lane-wise minimum with −0 ordered below +0. -/
  | vecMin (c : CoreId)
  /-- VEC_MAX (R125). Lane-wise maximum with −0 ordered below +0. -/
  | vecMax (c : CoreId)
  /-- VEC_CLT (R125). Lane-wise less-than compare giving all ones or zero. -/
  | vecClt (c : CoreId)
  /-- VEC_CEQ (R125). Lane-wise equality compare giving all ones or zero. -/
  | vecCeq (c : CoreId)
  /-- VEC_SEL (R125). Lane-wise select between two sources by a third. -/
  | vecSel (c : CoreId)
  /-- VEC_ABS (R125). Clears the sign of each lane. -/
  | vecAbs (c : CoreId)
  /-- VEC_NEG (R125). Inverts the sign of each lane. -/
  | vecNeg (c : CoreId)
  /-- VEC_EXP (R94). Computes e^x per lane within the stated ulp bounds. -/
  | vecExp (c : CoreId)
  /-- VEC_RCP (R94). Computes 1/x per lane within the stated ulp bounds. -/
  | vecRcp (c : CoreId)
  /-- VEC_RSQ (R94). Computes 1/√x per lane within the stated ulp bounds. -/
  | vecRsq (c : CoreId)
  /-- VEC_RSUM (R95). Sums registers VA to VA + VC by the fixed pairwise tree into lane 0. -/
  | vecRsum (c : CoreId)
  /-- VEC_RMAX (R95). Takes the maximum over registers VA to VA + VC by the fixed pairwise tree into lane 0. -/
  | vecRmax (c : CoreId)
  /-- VEC_BCAST (R125). Copies lane 0 of a register into every lane of the destination. -/
  | vecBcast (c : CoreId)
  /-- VEC_CVTH (R67). Converts FP32 lanes to BF16 with the selected rounding mode. -/
  | vecCvth (c : CoreId)
  /-- VEC_CVT4 (R67). Converts FP32 lanes to eight BS4 blocks in pitch memory. -/
  | vecCvt4 (c : CoreId)
  /-- VEC_CVT6 (R67). Converts FP32 lanes to eight BS6 blocks in pitch memory. -/
  | vecCvt6 (c : CoreId)
  /-- VEC_CVT8 (R67). Converts FP32 lanes to eight BS8 blocks in pitch memory. -/
  | vecCvt8 (c : CoreId)
  /-- VEC_VLD (R125). Loads 512 bytes from pitch memory into a vector register. -/
  | vecVld (c : CoreId)
  /-- VEC_VST (R125). Stores a vector register as 512 bytes in pitch memory. -/
  | vecVst (c : CoreId)
  /-- MOV_IN (R126). Copies lines from an input region into pitch memory. -/
  | movIn (c : CoreId)
  /-- MOV_OUT (R126). Stages a publishing copy of pitch-memory lines to an output region, carried out at commit. -/
  | movOut (c : CoreId)
  /-- MOV_LOCAL (R126). Copies lines within pitch memory. -/
  | movLocal (c : CoreId)
  /-- SND (R128). Stages pitch-memory lines for a remote receive channel, handed to the port at commit. -/
  | snd (c : CoreId)
  /-- RCV (R128). Takes lines from a receive channel of the pitch's context, waiting until enough lines have arrived. -/
  | rcv (c : CoreId)
  /-- SIG (R130). Stages an increment of a barrier counter that is sent at commit. -/
  | sig (c : CoreId)
  /-- WAT_BARRIER (R130). Holds issue until a barrier counter reaches its target by modular difference. -/
  | watBarrier (c : CoreId)
  /-- WAT_BARRIER_RELEASE (R130). A visible counter increment satisfies a held barrier WAT and issue continues. -/
  | watBarrierRelease (c : CoreId)
  /-- WAT_LOCAL (R131). Holds issue until earlier instructions of the named units have completed. -/
  | watLocal (c : CoreId)
  /-- WAT_LOCAL_RELEASE (R131). The last awaited unit instruction completes and the local WAT releases issue in the next cycle. -/
  | watLocalRelease (c : CoreId)
  /-- WIPE (R132). In a firmware pitch, scrubs the core to the state of R104 in 2,112 cycles. -/
  | wipe (c : CoreId)
  /-- END (R133). Ends the program and begins the drain that leads to commit. -/
  | pitchEnd (c : CoreId)
  /-- PROGRAM_FETCH (R114). The core fetches the whole program segment into its instruction buffer, refusing a segment without END or failing with CRC. -/
  | programFetch (c : CoreId) (crcFail : Bool)
  /-- PITCH_DISPATCH (R194). The camp cores dispatch a pitch to its logical core once the core belongs to its context and no HOST page overlaps it. -/
  | pitchDispatch (l : CoreId)
  /-- TOKEN_INSTALLMENT (R331). The grant arbiter grants an eligible core request an installment limited by want, room, tenant cap and free tokens. -/
  | tokenInstallment (c : CoreId)
  /-- METER_DEBIT (R341). Every 64 cycles a core's meter debits its counted events times METER_K from its balance. -/
  | meterDebit (c : CoreId) (events : BitVec 24)
  /-- COMMIT (R134). When every issued instruction has completed, the pitch decides publication and copies outputs, sends SNDs, advances read points and sends SIGs. -/
  | commit (c : CoreId)
  /-- CYCLE_BUDGET_CUTOFF (R140). The cycle count reaches twice the budget before the drain ends; the pitch stops with OVERRUN and the context's OVR is set. -/
  | cycleBudgetCutoff (c : CoreId)
  /-- SEQUENCER_WATCHDOG (R102). 65,536 counted cycles pass without progress; the watchdog fires and the pitch stops without commit. -/
  | sequencerWatchdog (c : CoreId)
  /-- PARITY_ERROR (R103). A parity error in a core's storage stops the pitch at once, records the location and raises CORE_ERR. -/
  | parityError (c : CoreId) (unit : Fin 6) (index : BitVec 20)
  /-- CORE_ABORT (R107). A write of BLK_CTL.ABORT stops the running pitch without commit and completes it with ABORTED. -/
  | coreAbort (c : CoreId)
  /-- CORE_HALT (R107). A write of BLK_CTL.HALT holds or releases the sequencer at an instruction boundary. -/
  | coreHalt (c : CoreId) (on : Bool)
  /-- HALT_BOUNDARY_REACHED (R107). The sequencer reaches the next instruction boundary under HALT, sets HALTED and raises HALT_ACK. -/
  | haltBoundaryReached (c : CoreId)
  /-- STOP_RECORD (R229). The camp cores take a stop record or held RESIDUE completion, count it against the core and re-issue the pitch or complete it. -/
  | stopRecord (c : CoreId)
  /-- FENCE_WIPE_DONE (R232). The fence WIPE completes; the core reads FENCED, its clocks are gated and GLOBAL_CORES changes. -/
  | fenceWipeDone (c : CoreId)
  /-- FENCE_WIPE_TIMEOUT (R232). A fence WIPE not finished within 4,224 cycles is abandoned and the core is fenced all the same. -/
  | fenceWipeTimeout (c : CoreId)
  /-- EPOCH_BOUNDARY (R325). Every 16,000 core cycles the arbiter computes the budget and divides it into fixed and standing reservations and scaled carries. -/
  | epochBoundary 
  /-- SLOT_BOUNDARY (R196). At the end of a slot the next slot-table entry starts, remaps and promotions apply, and cores whose owner changes switch. -/
  | slotBoundary 
  /-- CORE_SWITCH_RESUME (R201). The switch's drain, save and restore finish and the incoming pitch resumes or the next pitch starts. -/
  | coreSwitchResume (c : CoreId)
  /-- RESTORE_BLOCK_FAIL (R207). A save-record block fails after all re-fetches during restore, so the restored pitch is stopped with a stop record. -/
  | restoreBlockFail (c : CoreId) (unit : MemUnit)
  /-- MESH_BLOCK_FORWARD (R159). A router receives a mesh block, checks its CRC, counts a mismatch against the link and forwards it by dimension-order routing. -/
  | meshBlockForward (router : CoreId) (dir : Fin 5) (hdr : BitVec 128) (payload : List Byte)
  /-- MESH_READ_DATA_RX (R160). A consumer receives read data and accepts it or discards it on CRC mismatch or POISON and re-fetches, failing after the fourth attempt. -/
  | meshReadDataRx (hdr : BitVec 128) (payload : List Byte) (hopErr : Option (CoreId × Fin 5))
  /-- MESH_READ_REQUEST_RX (R157). A slice, HBM port or other target receives a read request and returns the block as read data. -/
  | meshReadRequestRx (hdr : BitVec 128)
  /-- MESH_WRITE_RX (R161). A target receives a write, discarding it with a negative acknowledgement on CRC mismatch or acknowledging it. -/
  | meshWriteRx (hdr : BitVec 128) (payload : List Byte)
  /-- MESH_WRITE_ACK_RX (R162). A sender receives a write acknowledgement and the block counts as delivered. -/
  | meshWriteAckRx (hdr : BitVec 128)
  /-- MESH_NAK_RX (R161). A sender receives a negative acknowledgement and re-sends, failing the write after the fourth attempt. -/
  | meshNakRx (hdr : BitVec 128) (hopErr : Option (CoreId × Fin 5))
  /-- LEDGE_SPARE_COPY_DONE (R151). The spare copy of a retired Ledge bank ends and the spare serves the granule. -/
  | ledgeSpareCopyDone (g : BitVec 12)
  /-- HBM_CORRECTED_ERROR (R166). The stack reports a corrected error, counted against the pseudo-channel toward its 24 h threshold. -/
  | hbmCorrectedError (pc : BitVec 8)
  /-- HBM_RETIRE_COPY_DONE (R169). The copier finishes moving a retired pseudo-channel's blocks into their remapped places and raises COPY_DONE. -/
  | hbmRetireCopyDone (pc : BitVec 8)
  /-- ARB_REQUEST (R172). A request reaches an arbiter instance and is granted by age, priority and round-robin, or parked in the pending queue. -/
  | arbRequest (a : ArbId) (req : BitVec 8)
  /-- ARB_RELEASE (R177). A holder releases its grant and a pending request may be granted in the same cycle. -/
  | arbRelease (a : ArbId)
  /-- ARB_AGED (R174). A queued request waits AGE_LIMIT cycles at the head of its queue and becomes aged. -/
  | arbAged (a : ArbId) (req : BitVec 8)
  /-- ARB_CUTOFF (R175). A grant held for MAX_HOLD cycles is withdrawn and its request returns to the head of its queue. -/
  | arbCutoff (a : ArbId)
  /-- ENABLE (R188). Moves a DISABLED context to ENABLED after zeroing its barrier counters and receive channels. -/
  | enable (x : CtxId)
  /-- DISABLE (R214). Moves an ENABLED context to DRAINING, records the drain start and aborts its unstarted pitches. -/
  | disable (x : CtxId)
  /-- DRAIN_TIMEOUT (R215). 200 µs after the drain start the camp cores stop remaining started pitches as ABORTED and raise DRAIN_TIMEOUT. -/
  | drainTimeout (x : CtxId)
  /-- SCRUB_READBACK_FAIL (R218). A sampled block reads non-zero; firmware refills and re-verifies it, and a second failure counts a permanent fault and sets VERIFY_FAIL. -/
  | scrubReadbackFail (x : CtxId) (unit : MemUnit) (again : Bool)
  /-- SCRUB_DONE (R217). The zero-fill and read-back finish; the context becomes DISABLED and SCRUB_DONE is raised. -/
  | scrubDone (x : CtxId)
  /-- CTX_PARTITION_WRITE (R185). A write to a context's HBM, Ledge map, save area, quota, tenant cap, fabric or priority field is checked and refused or taken at the next boundary. -/
  | ctxPartitionWrite (x : CtxId) (off : BitVec 12) (v : Word)
  /-- CTX_TEAM_WRITE (R195). A rope-team write is checked for overlap and at the next boundary aborts or re-issues pitches of removed cores. -/
  | ctxTeamWrite (x : CtxId) (i : Fin 6) (v : Word)
  /-- CTX_SLOT_LIVE_WRITE (R198). A live slot-table entry write is checked and takes effect when that entry's slot next begins. -/
  | ctxSlotLiveWrite (i : Fin 64) (v : Word)
  /-- CTX_SLOT_SHADOW_WRITE (R192). A shadow slot-table entry write is checked for overlapping teams and a short LEN. -/
  | ctxSlotShadowWrite (i : Fin 64) (v : Word)
  /-- CTX_SLOT_CNT_WRITE (R199). A write of the live or shadow entry count is refused outside 1–64 or takes effect at the next boundary. -/
  | ctxSlotCntWrite (v : Word)
  /-- CTX_SLOT_SWAP (R200). Setting SWAP requests an atomic exchange of the live and shadow tables at the next slot boundary. -/
  | ctxSlotSwap 
  /-- CTX_BAR_VAL_WRITE (R212). Writes a barrier counter of a context when no pitch of it is in flight, or is refused with reason 4. -/
  | ctxBarValWrite (x : CtxId) (ctr : Fin 64) (v : Word)
  /-- PITCH (R111). A submission command naming a pitch descriptor, checked and queued for its logical core or refused with a completion. -/
  | pitch (src : CmdSrc) (lcore : Byte) (desc : DWord)
  /-- COLL (R271). A submission command requesting a collective over the job's binomial tree. -/
  | coll (src : CmdSrc) (d : List Byte)
  /-- WCOPY (R274). A submission command copying between local memory and a remote rank's fabric window. -/
  | wcopy (src : CmdSrc) (op : Byte) (rank : BitVec 16) (addr off len : DWord)
  /-- BIND (R210). Binds the lowest-numbered FREE sequence slot to the context, or completes with DENIED. -/
  | bind (src : CmdSrc)
  /-- UNBIND (R211). Makes a BOUND sequence slot of the context RELEASING, or completes with DENIED. -/
  | unbind (src : CmdSrc) (slot : BitVec 16)
  /-- ADMIT (R181). Compares a model's declared HBM and Ledge footprints with the context's partitions. -/
  | admitCmd (src : CmdSrc) (hbm : DWord) (ledge : Word)
  /-- WPAGE (R296). Requests state changes of a range of window pages, checking every page before changing any. -/
  | wpage (src : CmdSrc) (first count : BitVec 16) (st : Byte) (target : Word)
  /-- WPAGE_TRANSITION (R296). A pending window page transition takes effect once earlier writes have landed or overlapping pitches have completed. -/
  | wpageTransition (page : BitVec 13)
  /-- NOP (R304). Completes after every earlier descriptor of its ring. -/
  | nop (src : CmdSrc)
  /-- CTXRD (R304). An admin command that reads a CTX page register for a named context. -/
  | ctxrd (src : CmdSrc) (ctx : Byte) (off : BitVec 16)
  /-- CTXWR (R304). An admin command that writes a CTX page register for a named context, subject to the camp cores' refusals. -/
  | ctxwr (src : CmdSrc) (ctx : Byte) (off : BitVec 16) (v : Word)
  /-- SQ_DOORBELL (R301). A TAIL write hands submission entries to the device or is discarded as invalid. -/
  | sqDoorbell (f : FnId) (i : RingId) (v : Word)
  /-- CQ_DOORBELL (R301). A LIMIT write hands completion entries to the device or is discarded as invalid. -/
  | cqDoorbell (f : FnId) (i : RingId) (v : Word)
  /-- SQ_ENABLE (R298). Setting SQ_CFG.EN zeroes the ring indices, or is refused with ERR 4 for an invalid size. -/
  | sqEnable (f : FnId) (i : RingId) (v : Word)
  /-- CQ_ENABLE (R298). Setting CQ_CFG.EN zeroes the ring indices, or is refused with CQ_STAT.ERR for an invalid size. -/
  | cqEnable (f : FnId) (i : RingId) (v : Word)
  /-- DESCRIPTOR_CONSUME (R302). The host interface consumes the next submission descriptor round-robin when a holding record can be reserved, or stops the ring on O clear. -/
  | descriptorConsume (f : FnId) (i : RingId) (entry : Option (List Byte))
  /-- COMPLETION_POST (R309). A waiting completion record is posted into a device-owned completion entry when one is available. -/
  | completionPost (f : FnId) (i : RingId)
  /-- COAL_TIME_EXPIRY (R310). COAL_TIME µs after the first unsignalled entry, the completion ring signals its vector. -/
  | coalTimeExpiry (f : FnId) (i : RingId)
  /-- WINDOW_ACCESS (R292). A host read or write through BAR2 reaches HBM if the page is HOST and the TDI allows it, else is refused and counted. -/
  | windowAccess (f : FnId) (tee : Bool) (off : BitVec 34) (len : Nat) (data : Option (List Byte))
  /-- VF_FLR (R316). A Function Level Reset of a virtual function resets its rings and disables its context, completing at DISABLED. -/
  | vfFlr (x : CtxId)
  /-- IDE_INTEGRITY_FAILURE (R311). An IDE stream integrity failure makes the stream insecure, reports fatal AER and moves bound TDIs to ERROR. -/
  | ideIntegrityFailure (stream : Fin 5) (bound : BitVec 16)
  /-- IDE_KM (R311). IDE keys are programmed through IDE_KM inside a secured SPDM session. -/
  | ideKm (sess : Fin 4) (stream : Fin 5)
  /-- TDISP_GET_VERSION (R312). Answers the TDISP GET_VERSION request. -/
  | tdispGetVersion (x : CtxId)
  /-- TDISP_GET_CAPABILITIES (R312). Answers the TDISP GET_CAPABILITIES request. -/
  | tdispGetCapabilities (x : CtxId)
  /-- LOCK_INTERFACE (R313). Moves a virtual function's TDI to CONFIG_LOCKED and locks its context fields. -/
  | lockInterface (x : CtxId)
  /-- GET_DEVICE_INTERFACE_REPORT (R312). Returns the interface report with BAR ranges, vector count, context digest and measurements. -/
  | getDeviceInterfaceReport (x : CtxId)
  /-- GET_DEVICE_INTERFACE_STATE (R312). Returns the TDI state of a virtual function. -/
  | getDeviceInterfaceState (x : CtxId)
  /-- START_INTERFACE (R313). Moves a locked TDI to RUN. -/
  | startInterface (x : CtxId)
  /-- STOP_INTERFACE (R314). Causes a DISABLE of the context; the TDI unlocks when the context reaches DISABLED. -/
  | stopInterface (x : CtxId)
  /-- FAB_PORT_ENABLE (R248). Setting a port's EN starts TRAINING if the node identifier is valid. -/
  | fabPortEnable (p : PortId)
  /-- LANE_SET_AGREED (R248). Lane adaptation ends with an agreed lane set and the port enters KEYING, retiring lanes that failed to train. -/
  | laneSetAgreed (p : PortId) (lanes failed : BitVec 4)
  /-- KEY_HELLO_RX (R474). A HELLO key message with chain, measurements and encapsulation key is verified and answered with a CT. -/
  | keyHelloRx (p : PortId) (m : KeyMsg)
  /-- KEY_CT_RX (R474). A CT key message is verified and the direction's key and salt are derived. -/
  | keyCtRx (p : PortId) (m : KeyMsg)
  /-- KEYS_ESTABLISHED (R248). Session keys for both directions are established and the port enters UP or DEGRADED with credits set. -/
  | keysEstablished (p : PortId)
  /-- TRAINING_TIMEOUT (R248). Lane agreement or keying misses its maximum; the port retrains, or enters DOWN after three attempts. -/
  | trainingTimeout (p : PortId)
  /-- FAB_PORT_DISABLE (R279). Clearing EN runs the reset handshake and moves or returns queued and unacknowledged blocks before the port enters DOWN. -/
  | fabPortDisable (p : PortId)
  /-- FAB_RETRAIN (R254). Setting RETRAIN, or a retrain cause, begins a fabric port reset through TRAINING and KEYING. -/
  | fabRetrain (p : PortId)
  /-- FAB_KEY_ROTATE (R276). Setting ROTATE starts a key rotation of the transmit direction. -/
  | fabKeyRotate (p : PortId)
  /-- KEY_ROTATION_DUE (R276). After 2^32 runs or 1 h of module timestamp the transmitter starts a key rotation. -/
  | keyRotationDue (p : PortId)
  /-- KEY_ROTATION_TIMEOUT (R276). A rotation not complete within 10 ms is abandoned and the port retrains. -/
  | keyRotationTimeout (p : PortId)
  /-- FAB_TAG_RX (R253). A run's TAG arrives; the receiver accepts the run in LSEQ order or discards it and sends a NAK. -/
  | fabTagRx (p : PortId) (blocks : List FabBlock) (tag : BitVec 128) (lanes : BitVec 4)
  /-- FAB_ACKCR_RX (R252). An ACKCR frees covered retry-buffer entries and returns credits to the sender. -/
  | fabAckcrRx (p : PortId) (last : BitVec 12) (cr0 cr1 cr2 cr3 : BitVec 6)
  /-- FAB_NAK_RX (R253). A NAK makes the sender resend from the named run, retraining after eight resends. -/
  | fabNakRx (p : PortId) (lseq : BitVec 12) (lanes : BitVec 4)
  /-- FAB_ACK_TIMEOUT (R253). No ACKCR covers the oldest run 1 µs after it was sent, so the sender resends from it. -/
  | fabAckTimeout (p : PortId)
  /-- AUDIT_DUE (R259). Every 1 ms each sender sends an AUDIT word for each virtual lane. -/
  | auditDue (p : PortId)
  /-- AUDIT (R259). The receiver evaluates an AUDIT when it accepts the run it follows, resetting the port on a mismatch. -/
  | audit (p : PortId) (vl : VlId) (k sSent sCred : Word) (lseq : BitVec 12)
  /-- RESET (R260). A RESET word from the partner is answered with RESET_ACK and the fabric port reset proceeds. -/
  | resetWord (p : PortId) (cause : Byte) (last : BitVec 12) (o0 o1 o2 o3 : BitVec 10)
  /-- RESET_ACK (R260). A RESET_ACK lets the sender drop accepted retry entries, restart its counters and re-enter UP or DEGRADED. -/
  | resetAck (p : PortId) (last : BitVec 12) (o0 o1 o2 o3 : BitVec 10)
  /-- FAB_BLOCK_ROUTE (R262). A block for another node is routed to a candidate port by hash, waits for a training port, or is returned with reason 1. -/
  | fabBlockRoute (b : FabBlock) (origin : Option CtxId) (inPort : Option PortId)
  /-- DATA (R266). An arriving DATA block is delivered into its receive channel ring, waits for space, or is returned. -/
  | dataBlock (b : FabBlock) (inPort : Option PortId)
  /-- CHANNEL_SPACE_TIMEOUT (R268). A block waits 10 ms for channel space; it is returned and the channel is set BROKEN. -/
  | channelSpaceTimeout (x : CtxId) (ch : Fin 16)
  /-- RETURN (R269). A RETURN block reaches the originating module and is coalesced into a delivery record. -/
  | returnBlock (b : FabBlock) (inPort : Option PortId)
  /-- DELIVERY_RECORD_POST (R269). After the 1 ms coalescing window a delivery record is posted to the originating context's CQ 0. -/
  | deliveryRecordPost (x : CtxId)
  /-- ROUTE_HOLD_EXPIRY (R263). FAB_ROUTE_HOLD µs after a candidate set change, new blocks for the route entry are released. -/
  | routeHoldExpiry (node : BitVec 16)
  /-- FAB_RT_WRITE (R263). A route table write changes an entry's candidate set and starts its hold. -/
  | fabRtWrite (node ports : BitVec 16)
  /-- COLL_BLOCK_RX (R272). A collective block is combined or forwarded by the collective engine, or returned with reason 6 for an aborted slot. -/
  | collBlockRx (b : FabBlock) (inPort : Option PortId)
  /-- COLL_COMPLETE (R273). A collective finishes and writes DST if its status is OK, INEXACT or SATURATED. -/
  | collComplete (x : CtxId) (slot : Fin 16)
  /-- COLL_TIMEOUT (R273). A collective not complete within TIMEOUT completes with ABORTED. -/
  | collTimeout (x : CtxId) (slot : Fin 16)
  /-- WIN_WR (R274). A window write block is written into the target's HBM partition and answered with WIN_ACK, or returned. -/
  | winWr (b : FabBlock) (inPort : Option PortId)
  /-- WIN_RD (R274). A window read request is answered with a WIN_RDD block, or returned. -/
  | winRd (b : FabBlock) (inPort : Option PortId)
  /-- WIN_RDD (R274). Window read data is written to the local address of the copy. -/
  | winRdd (b : FabBlock) (inPort : Option PortId)
  /-- WIN_ACK (R274). A window write acknowledgement counts toward completing the copy. -/
  | winAck (b : FabBlock) (inPort : Option PortId)
  /-- CHANNEL_BROKEN_CLEAR (R285). Clearing BROKEN of a channel zeroes its write and read points. -/
  | channelBrokenClear (x : CtxId) (ch : Fin 16)
  /-- FALLBACK_TIMEOUT (R343). More than 2 ms without a PWR_HB write puts the fallback cap in force from the next boundary. -/
  | fallbackTimeout 
  /-- PWR_HB_WRITE (R323). Cairn's write of PWR_HB commits its cap update, updates METER_K and can end the fallback. -/
  | pwrHbWrite (seq : BitVec 16)
  /-- CAIRN_CAP_UPDATE (R323). Every 100 µs Cairn writes its caps, measured energy and coolant readings and commits them with PWR_HB. -/
  | cairnCapUpdate (meas : BitVec 24)
  /-- HARDWARE_TRIP (R346). A diode comparator reaches 110 °C; within 2 µs all balances and reservations return and grants stop. -/
  | hardwareTrip (diode : Fin 240)
  /-- TRIP_END (R347). Every diode has read 100 °C or below for 1 ms and the trip ends at the next boundary. -/
  | tripEnd 
  /-- DIODE_SAMPLE (R342). A core diode reading is taken, guarding the core at GUARD_T and releasing it at GUARD_REL. -/
  | diodeSample (diode : Fin 240) (temp : BitVec 12)
  /-- THERMAL_UPDATE (R361). Every 100 µs the thermal block steps the model, forecasts sites 5 ms ahead and delivers new core and stack allowances. -/
  | thermalUpdate (ledgeT hbmT : List (BitVec 12))
  /-- ALLOWANCE_SILENCE (R363). The arbiter receives no allowances for 1 ms and applies the fixed fallback allowances. -/
  | allowanceSilence 
  /-- THM_RUN (R360). Setting the thermal block's RUN bit starts updates with the loaded model. -/
  | thmRun (on : Bool)
  /-- THM_MODEL_DATA_WRITE (R360). A coefficient word write stores the word and advances THM_MODEL_IDX, or is discarded while RUN is set. -/
  | thmModelDataWrite (v : Word)
  /-- SENSOR_SUSPECT (R357). Two readings of a pair diverge beyond the limit for 1 s and the less conservative sensor is marked SUSPECT. -/
  | sensorSuspect (sensor : SensorId)
  /-- SENSOR_SUSPECT_CLEAR (R358). A SUSPECT sensor stays within the limit of the used value for 1 s and its mark clears. -/
  | sensorSuspectClear (sensor : SensorId)
  /-- SENSOR_FAULT (R359). A sensor SUSPECT for 10 s is marked FAULT; a faulty core diode leads to its core being fenced. -/
  | sensorFault (sensor : SensorId)
  /-- INPUT_FAULT (R428). A supervised input returns three consecutive end-of-range conversions and is marked FAULT. -/
  | inputFault (kind : Fin 3) (idx : Fin 16)
  /-- COOLANT_SAMPLE (R367). Every 1 ms Cairn forms T_in, Q_dp and Q_eff, checks flow pairs and detects sudden stop and recovery. -/
  | coolantSample (th : List (BitVec 16)) (flow : List (BitVec 16))
  /-- SUDDEN_STOP_TIMEOUT (R373). 2 s after a sudden stop without recovery, the rails are shut down for coolant. -/
  | suddenStopTimeout 
  /-- LOW_FLOW_TIMEOUT (R372). Q_cap stays below FLOW_MIN for 2 s and the rails are shut down for coolant. -/
  | lowFlowTimeout 
  /-- STANDBY_PUMP_START (R372). The duty pump has stood at its limit for 1 s with flow below set-point, so Cairn starts the standby pump. -/
  | standbyPumpStart 
  /-- SHUTDOWN_PUMP_RELEASE (R375). 60 s after a coolant shutdown the pumps return to their loops. -/
  | shutdownPumpRelease 
  /-- AUTO_FLOW_PROOF (R375). 10 s after a coolant shutdown with POWER_EN asserted, Cairn begins an automatic proof if fewer than three ran in the last hour. -/
  | autoFlowProof 
  /-- IMPLAUS_SET (R367). The energy balance gap exceeds 30 % for 10 s above 500 W and IMPLAUS is set and recorded. -/
  | implausSet 
  /-- IMPLAUS_CLEAR (R367). The energy balance gap stays within 30 % for 10 s above 500 W and IMPLAUS clears. -/
  | implausClear 
  /-- SLOT_LATCH (R380). At PHASE − 64 of a computing period a belay slot captures its inputs and registers and computes the loop equation. -/
  | slotLatch (i : SlotId)
  /-- SLOT_OUTPUT_WRITE (R380). At PHASE the slot writes its output to its destination and LOOP_OUT. -/
  | slotOutputWrite (i : SlotId)
  /-- FOLLOWING_ERROR_TRIP (R391). FE_COUNT reaches FE_TIME; the slot sets FE_TRIP and flags, holds or disables itself per FE_ACT. -/
  | followingErrorTrip (i : SlotId)
  /-- LOOP_RUN (R389). Setting or clearing the belay engine's RUN bit starts all enabled slots or stops them at the next period boundary. -/
  | loopRun (on : Bool)
  /-- LOOP_SLOT_ENABLE (R381). A write of a slot's EN enables it at its next latch with LOOP_INT loaded, or disables it and sends its destination the safe value. -/
  | loopSlotEnable (i : SlotId) (on : Bool)
  /-- HOLD_SET (R399). Setting HOLD freezes the slot's output and states from its next latch. -/
  | holdSet (i : SlotId)
  /-- HOLD_CLEAR (R400). Clearing HOLD resumes computing at the next latch, bumplessly if BUMPLESS is set. -/
  | holdClear (i : SlotId)
  /-- LOOP_SLOT_REGISTER_WRITE (R397). A slot register write takes effect at the next latch or is refused and recorded in LOOP_REFUSE. -/
  | loopSlotRegisterWrite (i : SlotId) (off : BitVec 6) (v : Word)
  /-- INJECT_GO (R392). Setting GO on an authorised request starts test-signal injection and capture on the bound slot, or is refused. -/
  | injectGo (v : Word)
  /-- VALVE_ON_EDGE (R410). A 0-to-1 change of VLV_CMD.ON starts the valve program at ON_ENTRY. -/
  | valveOnEdge (v : Fin 4)
  /-- VALVE_OFF_EDGE (R410). A 1-to-0 change of VLV_CMD.ON starts the valve program at OFF_ENTRY. -/
  | valveOffEdge (v : Fin 4)
  /-- VALVE_WORD_TIMER (R409). A timed PEAK, HOLD, PWM or OFF word's duration ends and the next word starts. -/
  | valveWordTimer (v : Fin 4)
  /-- BOOST_CURRENT_REACHED (R409). The coil current reaches a BOOST word's end current and the next word starts. -/
  | boostCurrentReached (v : Fin 4)
  /-- BOOST_TIMEOUT (R409). A BOOST word's T runs out before the current is reached and the channel enters FAULT. -/
  | boostTimeout (v : Fin 4)
  /-- DEFERRED_BOOST_START (R413). A deferred BOOST starts when the other channel of its high side leaves BOOST and PEAK, and the deferral is recorded. -/
  | deferredBoostStart (v : Fin 4)
  /-- COIL_MODEL_UPDATE (R414). Every 1 ms a valve channel updates its coil temperature, setting or clearing REDUCED or going safe with COIL_OT. -/
  | coilModelUpdate (v : Fin 4) (irms : BitVec 16)
  /-- VALVE_CONFIG_WRITE (R415). A write of a valve channel's microcode or VLV_CFG is taken only while IDLE with ON clear, else discarded with REFUSED. -/
  | valveConfigWrite (v : Fin 4) (off : BitVec 12) (w : Word)
  /-- MOTOR_MODE_OFF (R419). MODE OFF puts the motor channel in its safe state from the next PWM period. -/
  | motorModeOff (m : Fin 6)
  /-- MOTOR_MODE_START (R420). MODE START makes a start request with the open-loop kick. -/
  | motorModeStart (m : Fin 6)
  /-- MOTOR_MODE_LOOP (R419). MODE LOOP drives the channel from its belay destinations and the observer angle. -/
  | motorModeLoop (m : Fin 6)
  /-- MOTOR_MODE_MAX (R419). MODE MAX drives at VMAX, first running a start if the channel is not RUNNING. -/
  | motorModeMax (m : Fin 6)
  /-- START_RESPONSE (R420). The motor speed responds to the kick and hands over to LOOP or MAX at the next base-period boundary. -/
  | startResponse (m : Fin 6) (byEst : Bool)
  /-- START_ATTEMPT_TIMEOUT (R420). No response within 2 s turns the gates off for 1 s, or after the fourth attempt makes the channel BLOCKED. -/
  | startAttemptTimeout (m : Fin 6)
  /-- START_RETRY (R420). After the 1 s off time the motor start attempt repeats. -/
  | startRetry (m : Fin 6)
  /-- MOTOR_DRIVER_FAULT (R417). Mn_FLT_N stays asserted for 1 µs and the channel reaches its safe state as DRIVER_FAULT. -/
  | motorDriverFault (m : Fin 6)
  /-- TACH_BROKEN (R421). A tachometer and estimate gap above 25 % for 500 ms sets TACH_BROKEN and switches the speed source to EST. -/
  | tachBroken (m : Fin 6)
  /-- AGE_MEASUREMENT (R422). After 10 s in LOOP near REF, at most hourly, the channel computes RATIO and may set AGE_WARN. -/
  | ageMeasurement (m : Fin 6) (meanIq : BitVec 16)
  /-- ACOUSTIC_CAP_UPDATE (R425). Every 100 ms in APPLIANCE Cairn steps the acoustic cap down when the fan slot is clamped or up when cool. -/
  | acousticCapUpdate 
  /-- ROPE_BAND_CHANGE (R429). A leak rope's loop resistance enters a new band, raising ROPE_OPEN or recording MARGINAL. -/
  | ropeBandChange (r : Fin 4) (ohms : Nat)
  /-- LEAK_LATCH (R430). Four consecutive LEAK samples set the rope's LATCH, assert LEAK_ALARM_N, apply valve leak entries and LEAK_STOP, and queue a LEAK message. -/
  | leakLatch (r : Fin 4)
  /-- LEAK_REPEAT (R449). Every 1 s while any LATCH is set the module sends LEAK again. -/
  | leakRepeat 
  /-- FRAME_RX (R441). A received CAN FD frame is stored in its matching receive object or shadow, or discarded as unmatched. -/
  | frameRx (i : IfId) (f : CanFrame)
  /-- OBJ_LOCK_READ (R442). A Cairn read of CBUS_OBJ_DATA 0 locks the selected receive object. -/
  | objLockRead (i : IfId) (k : Fin 64)
  /-- OBJ_RELEASE (R442). Writing 1 to FULL releases the object and moves a shadow frame into it in the next cycle. -/
  | objRelease (i : IfId) (k : Fin 64)
  /-- FRAME_TX_DONE (R443). A queued frame wins arbitration and is sent, or is retransmitted after an error. -/
  | frameTxDone (i : IfId)
  /-- FRAME_TX_EXPIRY (R443). A frame not sent 500 ms after queuing is discarded and counted. -/
  | frameTxExpiry (i : IfId)
  /-- BUS_OFF (R444). An interface enters bus-off, discarding its queue, and starts recovery or enters HALTED. -/
  | busOff (i : IfId)
  /-- BUS_OFF_RECOVERY_DONE (R445). Bus-off recovery completes in error-active with zero counters and RECOVERED is raised. -/
  | busOffRecoveryDone (i : IfId)
  /-- CBUS_BIT_TIMING_WRITE (R439). A write of CBUS_NBT or CBUS_DBT is taken only in INIT and within bounds, else refused and recorded. -/
  | cbusBitTimingWrite (i : IfId) (dbt : Bool) (v : Word)
  /-- LEAK (R453). A LEAK from a plant peer makes the module apply leak entries and LEAK_STOP on channels whose lease it holds. -/
  | leak (src : BitVec 6)
  /-- PEER_LEAK_HOLD_END (R453). 2 s after the last accepted peer LEAK, leased channels leave their leak entry. -/
  | peerLeakHoldEnd 
  /-- TREF (R447). A TREF updates the interface's offset for bus-local time and stops a BACKUP time master. -/
  | tref (i : IfId) (src : BitVec 6) (role : Byte) (carried start : DWord)
  /-- TREF_SEND_DUE (R446). Every 10 ms a PRIMARY, or a BACKUP after 30 ms without the PRIMARY, sends TREF. -/
  | trefSendDue 
  /-- LEASE (R457). A partner LEASE renews, claims or releases a group and may make this module yield or return to STANDBY. -/
  | lease (src : BitVec 6) (g : GroupId) (claim release primary : Bool) (epoch : Word)
  /-- MIRROR (R449). A partner MIRROR is stored for loading leased slots' integrators and set-points. -/
  | mirror (src : BitVec 6) (g : GroupId) (part : Byte) (epoch : Word) (entries : List (SlotId × BitVec 24 × BitVec 24))
  /-- HEALTH (R459). A partner HEALTH message updates the partner's reported self-test bits. -/
  | health (src : BitVec 6) (bits leaseStates cool : Byte)
  /-- LEASE_RENEWAL_DUE (R455). Every 100 ms a lease holder sends LEASE and the group's MIRROR parts. -/
  | leaseRenewalDue (g : GroupId)
  /-- LEASE_HOLDER_TIMEOUT (R455). A holder that has sent no renewal for 250 ms puts its channels in the safe state and enters STANDBY. -/
  | leaseHolderTimeout (g : GroupId)
  /-- LEASE_EXPIRY (R456). No partner LEASE for 300 ms; the module evaluates READY and claims, after 200 ms if SECONDARY. -/
  | leaseExpiry (g : GroupId)
  /-- LEASE_CLAIM_SEND (R456). A claiming module sends LEASE with CLAIM and the next epoch and enters CLAIMING. -/
  | leaseClaimSend (g : GroupId)
  /-- LEASE_CLAIM_WAIT_END (R456). 10 ms after a claim without a stronger partner LEASE, the module loads mirrors, enables slots, starts motors and enters HOLDING. -/
  | leaseClaimWaitEnd (g : GroupId)
  /-- SELF_TEST (R459). Every 1 s the module tests itself, sends HEALTH and enters or leaves BARRED. -/
  | selfTest (readBackA readBackB drivers slots : Bool)
  /-- SENDER_STATE_EXPIRY (R451). A sender's duplicate-detection state is dropped after 5 s without an accepted message. -/
  | senderStateExpiry (src : BitVec 6)
  /-- SEAL_OPEN (R478). Makes a context SEALED with a sealed range and writes the signed epoch-0 offer. -/
  | sealOpen (src : CmdSrc) (offer : DWord) (base size : Word)
  /-- SEAL_ROTATE (R478). Writes a signed offer for the next seal epoch. -/
  | sealRotate (src : CmdSrc) (offer : DWord)
  /-- SEAL_KEY (R479). Accepts a vendor key package, derives the page key and makes the epoch current. -/
  | sealKey (src : CmdSrc) (pkg : DWord) (epoch : Byte)
  /-- SEAL_PAGE (R480). Decrypts one staged page into the sealed range and marks it LOADED, or refuses it. -/
  | sealPage (src : CmdSrc) (page : Word) (epoch : Byte) (staging : DWord)
  /-- TRNG_HEALTH_FAILURE (R468). A TRNG health test fails and the die sets TRNG_FAIL and generates no key. -/
  | trngHealthFailure (die : Bool)
  /-- TRNG_HEALTH_RECOVER (R468). The TRNG tests pass for 1,024 consecutive samples and key generation resumes. -/
  | trngHealthRecover (die : Bool)
  /-- SPDM_GET_VERSION (R470). Answers the SPDM GET_VERSION request. -/
  | spdmGetVersion (doe : Bool)
  /-- SPDM_GET_CAPABILITIES (R470). Answers the SPDM GET_CAPABILITIES request. -/
  | spdmGetCapabilities (doe : Bool)
  /-- NEGOTIATE_ALGORITHMS (R470). Answers with the single supported algorithm selection. -/
  | negotiateAlgorithms (doe : Bool)
  /-- GET_DIGESTS (R470). Returns the digest of the slot-0 certificate chain. -/
  | getDigests (doe : Bool)
  /-- GET_CERTIFICATE (R470). Returns the answering die's certificate chain. -/
  | getCertificate (doe : Bool)
  /-- CHALLENGE (R470). Answers an SPDM challenge with a signature of the per-boot key. -/
  | challenge (doe : Bool)
  /-- GET_MEASUREMENTS (R471). Returns the signed measurement blocks of both dies and every context. -/
  | getMeasurements (doe : Bool)
  /-- KEY_EXCHANGE (R470). Starts a secured session by ML-KEM-1024 key exchange. -/
  | keyExchange (doe : Bool)
  /-- FINISH (R470). Completes a secured session handshake, with mutual authentication on I3C. -/
  | finish (doe : Bool) (sess : Fin 4) (cert : List Byte)
  /-- KEY_UPDATE (R470). Updates the keys of a secured session. -/
  | keyUpdate (doe : Bool) (sess : Fin 4)
  /-- HEARTBEAT (R470). An SPDM heartbeat keeps a secured session alive. -/
  | heartbeat (doe : Bool) (sess : Fin 4)
  /-- END_SESSION (R470). Ends a secured session and erases its keys. -/
  | endSession (doe : Bool) (sess : Fin 4)
  /-- SPDM_HEARTBEAT_LOSS (R470). Three missed heartbeats end a secured session. -/
  | spdmHeartbeatLoss (doe : Bool) (sess : Fin 4)
  /-- DBG_HALT (R491). DBG_CTL.HALT holds or releases the selected core's sequencer. -/
  | dbgHalt (on : Bool)
  /-- DBG_STEP (R491). STEP with HALTED set issues one instruction and halts at the next boundary. -/
  | dbgStep 
  /-- DBG_TRACE (R487). DBG_CTL.TRACE turns tracing of the selected core into its 2,048-record ring on or off. -/
  | dbgTrace (on : Bool)
  /-- DBG_TRACE_CLR (R491). TRACE_CLR empties the selected core's trace ring. -/
  | dbgTraceClr 
  /-- DBG_DATA_READ (R486). A read of DBG_DATA_LO fetches 8 bytes at DBG_ADDR, returning zero for masked or protected memory. -/
  | dbgDataRead 
  /-- FAULT (R497). Camp mailbox request that records a fence, promotion, count reduction or retirement in the fault list. -/
  | campFault (kind : Byte) (unit unit2 : BitVec 16)
  /-- TRIP (R497). Camp mailbox request reporting a hardware trip entered or ended. -/
  | campTrip (ended : Byte) (diode : BitVec 16)
  /-- READY (R497). Camp mailbox request that makes the module report ready, sets GLOBAL READY and raises floors if AUTO_FLOOR is set. -/
  | campReady (svn : Byte)
  /-- SEEK (R497). Camp mailbox request that sets CFGL_IDX to a word of the in-force generation. -/
  | campSeek (idx : Word)
  /-- EVENT (R497). Host mailbox request that records a host event code in the hut book. -/
  | hostEvent (code value : BitVec 16) (arg : DWord)
  /-- FLUSH (R497). Host mailbox request that flushes the hut book to flash. -/
  | hostFlush 
  /-- STATUS (R497). Host mailbox request returning coolant state, management mode, lifecycle, ledger generations and staged images. -/
  | hostStatus 
  /-- EVENT_PORT_WRITE (R498). An 8-byte write to the event port queues a timestamped event entry, or is discarded into MBOX_EVT_OVF. -/
  | eventPortWrite (lo hi : Word)
  /-- EVT_OVF_POLL (R498). At least every 10 ms Cairn reads MBOX_EVT_OVF and adds the discarded writes to the drop counter. -/
  | evtOvfPoll 
  /-- HUT_BOOK_FLUSH_TIMER (R516). Every 10 s Cairn writes the histograms and pending records to flash. -/
  | hutBookFlushTimer 
  /-- RECORD_ALLOWANCE_TICK (R515). Each second every code's record allowance grows by one up to 16. -/
  | recordAllowanceTick 
  /-- BOARD_ACTIVITY (R502). An I3C transfer addressed to Cairn completes without error and restarts the board-silence timers. -/
  | boardActivity 
  /-- BMC_LATE (R502). After 1 s without board activity Cairn sets BMC_LATE and records 0xA001. -/
  | bmcLate 
  /-- AUTONOMOUS_MODE_ENTER (R502). After 5 s without board activity Cairn writes AUTO_BOARD as the board cap and records 0xA002. -/
  | autonomousModeEnter 
  /-- READ (R500). Management command returning a mirror register, the hut book, the ledger or the fault list. -/
  | mgmtRead (who : Principal) (what : ReadWhat)
  /-- SET_BOARD_CAP (R503). Management command writing the board cap at the next update and ending autonomous mode. -/
  | setBoardCap (who : Principal) (cap : BitVec 12)
  /-- MODULE_RESET (R500). Management command causing a module reset. -/
  | moduleReset (who : Principal)
  /-- LEDGER_STAGE (R509). Management command writing entries into the pending ledger generation. -/
  | ledgerStage (who : Principal) (tag : BitVec 16) (bytes : List Byte)
  /-- LEDGER_COMMIT (R510). Management command that checks the pending generation and atomically makes it current, or completes with DENIED. -/
  | ledgerCommit (who : Principal)
  /-- LEDGER_REVERT (R512). Management command copying the previous generation into current and discarding any pending one. -/
  | ledgerRevert (who : Principal)
  /-- FW_STAGE (R505). Management command writing a chunk into a staging area and clearing VERIFIED. -/
  | fwStage (who : Principal) (dom : FwDomain) (off : BitVec 24) (bytes : List Byte)
  /-- FW_VERIFY (R505). Management command verifying a staged image and setting VERIFIED, or completing with DENIED. -/
  | fwVerify (who : Principal) (dom : FwDomain)
  /-- FW_DISCARD (R505). Management command erasing a staging area. -/
  | fwDiscard (who : Principal) (dom : FwDomain)
  /-- LATCH_CLEAR (R432). Management command clearing every leak LATCH whose rope has been out of LEAK for 10 s. -/
  | latchClear (who : Principal)
  /-- RECOVER (R445). Management command taking a HALTED coolant bus interface into bus-off recovery. -/
  | mgmtRecover (who : Principal) (i : IfId)
  /-- FLOW_RESTART (R375). Management command beginning a flow proof after a coolant shutdown or failed proof. -/
  | flowRestart (who : Principal)
  /-- LEASE_RELEASE (R458). Management command making a holder put its group's channels safe and send LEASE with RELEASE. -/
  | leaseRelease (who : Principal) (g : GroupId)
  /-- INJECT (R392). Management command authorising LOOP_INJ_CTL.GO. -/
  | mgmtInject (who : Principal)
  /-- FLOOR_RAISE (R472). Management command raising an SVN floor to the running SVN. -/
  | floorRaise (who : Principal) (dom : FwDomain)
  /-- FAULT_CLEAR (R241). Management command clearing the fault list and recording it. -/
  | faultClear (who : Principal)
  /-- LOG_CLEAR (R519). Management command zeroing the histograms, drop counter, total and ring and writing the 0xA102 record. -/
  | logClear (who : Principal)
  /-- BLK_INT_SET_WRITE (R531). A write of 1 to BLK_INT_SET sets the interrupt status bit as its event would, without counting an error. -/
  | blkIntSetWrite (who : Party) (page : BitVec 14) (bits : Word)
  /-- GLOBAL_IRQ_PEND_CLEAR (R539). A write clearing PEND bits, which stay set and send a message if an event sets them in the same cycle. -/
  | globalIrqPendClear (bits events : Word)
  /-- GLOBAL_IRQ_ROUTE_WRITE (R539). A route write changes a source's vector or enable, sending one message if EN is set while PEND is set. -/
  | globalIrqRouteWrite (src : Fin 26) (v : Word)
  /-- PWR_FREE_READ (R348). A read of PWR_FREE latches PWR_GRANTED in the same cycle for auditing. -/
  | pwrFreeRead 
  /-- CFGL_DATA_READ (R524). A camp-core read of CFGL_DATA returns the selected ledger word and advances CFGL_IDX. -/
  | cfglDataRead 
  /-- REGISTER_WRITE (R8). A write to any register without a row of its own acts by the access type of each field. -/
  | registerWrite (who : Party) (off : BitVec 26) (size : Nat) (v : DWord)
  /-- MOTOR_PWM_PERIOD (R417). At each PWM period a motor channel samples its phase currents, updates id, iq, the observer angle and EST, applies cycle-by-cycle ILIM limiting and takes a new MODE into effect. -/
  | motorPwmPeriod (m : Fin 6) (ia ib ic id iq est angle : BitVec 16)
  /-- VALVE_SHUNT_SAMPLE (R411). Every 0.5 µs a valve channel samples its shunt current and switches its low side off at I + HYST and on at I − HYST while regulating. -/
  | valveShuntSample (v : Fin 4) (code : BitVec 12)
  /-- AIN_CONVERSION (R426). The shared analogue converter completes a conversion of one AIN channel, updating the raw code that source 0x00 + k reads. -/
  | ainConversion (k : Fin 16) (code : BitVec 16)
  /-- PULSE_INPUT_EDGE (R418). An edge on a tachometer or pulse-mode flow input records the pulse interval from which TACH or the pulse flow is computed. -/
  | pulseInputEdge (input : Fin 10)
  /-- CBUS_BUS_ERROR (R444). A coolant bus interface detects a bus error, changing TEC or REC and raising EWARN or EPASS, or leaving error-passive. -/
  | cbusBusError (i : IfId) (tec : BitVec 9) (rec : BitVec 8)
  /-- TREF_AGE_TIMEOUT (R447). An interface's offset ages past 30 ms without a TREF, so bus-local time switches to interface B's offset or BTIME_VALID clears. -/
  | trefAgeTimeout (i : IfId)
  /-- TELEMETRY_INTERVAL (R484). At each 1 s boundary of the module timestamp the coarsened readings of COARSE and HIDDEN contexts are refreshed and a pending TELEM change takes effect. -/
  | telemetryInterval 
  /-- FAB_RESET_EXCHANGE_TIMEOUT (R260). RESET and RESET_ACK are not carried within 1 ms, so they are tried over another UP port to the partner or the reset proceeds without the exchange. -/
  | fabResetExchangeTimeout (p : PortId)
  /-- STANDBY_POWER_LOST (R549). Cairn's hold-up below the falling threshold is spent and Cairn stops. -/
  | standbyPowerLost 
  /-- REGISTER_READ (R8). A read of an RC counter clears it, and a read of a low word latches its partner high word. -/
  | registerRead (who : Party) (off : BitVec 26) (size : Nat)
  /-- INSTRUCTION_COMPLETE (R131). An anchor, vector or block-move instruction completes when its last write lands, retiring scoreboard entries and counting toward the commit drain. -/
  | instructionComplete (c : CoreId) (unit : Fin 6)
  deriving DecidableEq, Repr

end Sys2Proof
end

