-- ==== Sys2Proof/Decode.lean ====
section
/-! DEFINITION. The decoder of command words and of pitch instruction words.

The opcode table gives no row any bits, so no number spells a command. The 64-bit instruction words that a
core's sequencer reads from its own instruction buffer (R114–R133) are decoded here, and encoded again. -/

namespace Sys2Proof

/-- The command that a word spells by the opcode table's bits: the table gives no row any. -/
def decodeTableWord (_nbits _w : Nat) : Option Instr := none

/-- The vector operations of R125. -/
inductive VOp where
  | add | sub | mul | fma | min | max | clt | ceq | sel | abs | neg
  | exp | rcp | rsq | rsum | rmax | bcast | cvth | cvt4 | cvt6 | cvt8 | vld | vst
  deriving DecidableEq, Repr

def VOp.code : VOp → BitVec 6
  | .add => 0x01 | .sub => 0x02 | .mul => 0x03 | .fma => 0x04 | .min => 0x05 | .max => 0x06
  | .clt => 0x07 | .ceq => 0x08 | .sel => 0x09 | .abs => 0x0A | .neg => 0x0B
  | .exp => 0x10 | .rcp => 0x11 | .rsq => 0x12 | .rsum => 0x18 | .rmax => 0x19 | .bcast => 0x1A
  | .cvth => 0x20 | .cvt4 => 0x21 | .cvt6 => 0x22 | .cvt8 => 0x23 | .vld => 0x28 | .vst => 0x29

def VOp.all : List VOp :=
  [.add, .sub, .mul, .fma, .min, .max, .clt, .ceq, .sel, .abs, .neg,
   .exp, .rcp, .rsq, .rsum, .rmax, .bcast, .cvth, .cvt4, .cvt6, .cvt8, .vld, .vst]

/-- The operation of a VOP code; every other code is reserved (R125). -/
def VOp.ofCode (c : BitVec 6) : Option VOp := VOp.all.find? (fun o => o.code == c)

/-- A decoded pitch instruction word (R115–R133). -/
inductive PitchInstr where
  /-- R117: `src` true loads from region `reg` at line `off`; false from pitch-memory line `off`. -/
  | wld (src : Bool) (pair : BitVec 4) (reg : BitVec 3) (off : BitVec 26)
  /-- R119. -/
  | wsw
  /-- R120. -/
  | str (pair : BitVec 4) (act : BitVec 15) (e0 : BitVec 8) (t : BitVec 9) (b : BitVec 2)
      (stride : BitVec 14)
  /-- R122. -/
  | ancClr (l : BitVec 10) (e0 : BitVec 8) (n : BitVec 9)
  /-- R123. -/
  | ancRd (fmt : BitVec 4) (rmode : BitVec 3) (clr vr : Bool) (e0 : BitVec 8) (n : BitVec 9)
      (dst : BitVec 21) (cstart ccnt : BitVec 2)
  /-- R124. -/
  | ancExp (e0 : BitVec 8) (n : BitVec 9) (dst : BitVec 21) (cstart ccnt : BitVec 2)
  /-- R124. -/
  | ancMrg (e0 : BitVec 8) (n : BitVec 9) (src : BitVec 21) (cstart ccnt : BitVec 2)
  /-- R125: `bf16` is TY = 1. -/
  | vec (op : VOp) (bf16 : Bool) (vd va vb vc : BitVec 5) (rmode : BitVec 3) (addr : BitVec 21)
  /-- R126, DIR = 0. -/
  | movIn (reg : BitVec 3) (roff : BitVec 26) (pml : BitVec 15) (len : BitVec 12)
  /-- R126, DIR = 1. -/
  | movOut (reg : BitVec 3) (roff : BitVec 26) (pml : BitVec 15) (len : BitVec 12)
  /-- R126, DIR = 2. -/
  | movLocal (src dst : BitVec 15) (len : BitVec 12)
  /-- R128. -/
  | snd (node : BitVec 16) (vl : BitVec 2) (ch : BitVec 4) (pml : BitVec 15) (len : BitVec 12)
  /-- R128. -/
  | rcv (ch : BitVec 4) (pml : BitVec 15) (len : BitVec 12)
  /-- R129. -/
  | sig (ctr : BitVec 6) (inc : BitVec 16)
  /-- R129, MODE = 0. -/
  | watBar (ctr : BitVec 6) (target : Word)
  /-- R129, MODE = 1: bit i names unit i in the order of R129. -/
  | watLocal (units : BitVec 5)
  /-- R132. -/
  | wipe
  /-- R133. -/
  | fin
  deriving DecidableEq, Repr

namespace PitchInstr

/-- A LEN of 0 means 4,096 lines (R126, R128). -/
def lines (len : BitVec 12) : Nat := if len = 0 then 4096 else len.toNat

/-- The bytes of pitch memory (R97). -/
def pmBytes : Nat := 0x200000

/-- R127: a pitch-memory range does not run past 0x1F_FFFF. -/
def inPm (lo n : Nat) : Bool := decide (lo + n ≤ pmBytes)

/-- Bytes of a block entry, or of 16 BF16 elements, by the activation format of a pairing row (R74, R78). -/
def actBytes (p : BitVec 4) : Nat :=
  match p.toNat with
  | 0 | 3 | 6 => 9
  | 1 | 4 | 7 => 13
  | 2 | 5 | 8 => 17
  | _ => 32

/-- The G of a pairing row (R74). -/
def groupOf (p : BitVec 4) : Nat :=
  match p.toNat with
  | 0 | 1 | 2 => 1
  | 3 | 4 | 5 | 6 | 7 | 8 => 2
  | _ => 4

/-- The bytes of a weight set of a pairing row (R74, R77). -/
def setBytes (p : BitVec 4) : Nat :=
  64 * (64 / groupOf p) * (match p.toNat with | 0 | 1 | 2 => 9 | 3 | 4 | 5 => 13 | 6 | 7 | 8 => 17 | _ => 32)

/-- R87: the column offset 16 × B that a pairing's G allows. -/
def offsetOk (p : BitVec 4) (b : BitVec 2) : Bool :=
  match groupOf p with
  | 1 => b == 0
  | 2 => b == 0 || b == 2
  | _ => true

/-- The bytes of one record of an ANC.RD (R123). -/
def recBytes (fmt : BitVec 4) (ccnt : BitVec 2) : Nat :=
  (ccnt.toNat + 1) * (match fmt.toNat with | 0 => 64 | 1 => 32 | 2 => 9 | 3 => 13 | _ => 17)

/-- The entry rows of an instruction: 1–256 of them, ending at row 255 at most (R87, R122, R123). -/
def rowsOk (e0 : BitVec 8) (n : BitVec 9) : Bool :=
  decide (1 ≤ n.toNat ∧ e0.toNat + n.toNat ≤ 256)

/-- Which operand fields an operation uses (R125). -/
def uses : VOp → Bool × Bool × Bool × Bool × Bool × Bool
  -- (VD, VA, VB, VC, RMODE, ADDR)
  | .add | .sub | .mul | .min | .max | .clt | .ceq => (true, true, true, false, false, false)
  | .fma | .sel => (true, true, true, true, false, false)
  | .abs | .neg | .exp | .rcp | .rsq | .bcast => (true, true, false, false, false, false)
  | .rsum | .rmax => (true, true, false, true, false, false)
  | .cvth => (true, true, false, false, true, false)
  | .cvt4 | .cvt6 | .cvt8 => (false, true, false, false, true, true)
  | .vld => (true, false, false, false, false, true)
  | .vst => (false, true, false, false, false, true)

/-- The pitch-memory bytes at ADDR that an operation touches (R125, R127). -/
def vecSpan : VOp → Nat
  | .cvt4 => 8 * 9
  | .cvt6 => 8 * 13
  | .cvt8 => 8 * 17
  | .vld | .vst => 512
  | _ => 0

/-- TY must be 0 for the conversions, VLD and VST (R125). -/
def fp32Only : VOp → Bool
  | .cvth | .cvt4 | .cvt6 | .cvt8 | .vld | .vst => true
  | _ => false

def vecOk (op : VOp) (bf16 : Bool) (vd va vb vc : BitVec 5) (rmode : BitVec 3) (addr : BitVec 21) : Bool :=
  let (d, a, b, c, r, m) := uses op
  (d || vd == 0) && (a || va == 0) && (b || vb == 0) && (c || vc == 0) &&
  (if r then decide (rmode.toNat ≤ 4) else rmode == 0) && (m || addr == 0) &&
  !(fp32Only op && bf16) && inPm addr.toNat (vecSpan op) &&
  (match op with
   | .vld | .vst => addr.toNat % 64 == 0
   | .rsum | .rmax => decide (va.toNat + vc.toNat ≤ 31)
   | _ => true)

/-- Every limit of an instruction that its own word shows (R63, R87, R116–R129). -/
def ok : PitchInstr → Bool
  | .wld src p reg off =>
    decide (p.toNat ≤ 9) &&
    (if src then decide (reg.toNat ≤ 5)
     else reg == 0 && decide (off.toNat < 2 ^ 15) && inPm (off.toNat * 64) (setBytes p))
  | .wsw => true
  | .str p act e0 t b stride =>
    decide (p.toNat ≤ 9) && rowsOk e0 t && offsetOk p b && decide (1 ≤ stride.toNat) &&
    inPm ((act.toNat + (t.toNat - 1) * stride.toNat) * 64) (64 * actBytes p)
  | .ancClr _ e0 n => rowsOk e0 n
  | .ancRd fmt rmode _ vr e0 n dst cs cc =>
    decide (fmt.toNat ≤ 4) && decide (rmode.toNat ≤ 4) && rowsOk e0 n && decide (cs.toNat + cc.toNat ≤ 3) &&
    (if vr then
       fmt == 0 && n.toNat % 2 == 0 && decide (dst.toNat / 32 = 0) &&
       decide (dst.toNat + n.toNat / 2 - 1 ≤ 31)
     else
       (decide (2 ≤ fmt.toNat) || dst.toNat % 64 == 0) && inPm dst.toNat (n.toNat * recBytes fmt cc))
  | .ancExp e0 n a cs cc | .ancMrg e0 n a cs cc =>
    rowsOk e0 n && decide (cs.toNat + cc.toNat ≤ 3) && a.toNat % 32 == 0 &&
    inPm a.toNat (n.toNat * (16 * (cc.toNat + 1) * 32))
  | .vec op bf vd va vb vc rm addr => vecOk op bf vd va vb vc rm addr
  | .movIn reg _ pml len | .movOut reg _ pml len =>
    decide (reg.toNat ≤ 5) && inPm (pml.toNat * 64) (lines len * 64)
  | .movLocal s d len => inPm (s.toNat * 64) (lines len * 64) && inPm (d.toNat * 64) (lines len * 64)
  | .snd _ _ _ pml len => inPm (pml.toNat * 64) (lines len * 64)
  | .rcv _ pml len => inPm (pml.toNat * 64) (lines len * 64)
  | .sig _ inc => inc != 0
  | .watBar _ _ => true
  | .watLocal _ => true
  | .wipe => true
  | .fin => true

/-- `v` at bit `lo` of a 64-bit word. -/
def at64 (n : Nat) (v : BitVec n) (lo : Nat) : DWord := v.setWidth 64 <<< lo

/-- The word of an instruction, by the encoding tables of R115–R133. -/
def encode : PitchInstr → DWord
  | .wld src p reg off =>
    at64 6 0x01 58 ||| at64 1 (BitVec.ofBool src) 57 ||| at64 4 p 53 ||| at64 3 reg 50 ||| at64 26 off 24
  | .wsw => at64 6 0x02 58
  | .str p act e0 t b stride =>
    at64 6 0x03 58 ||| at64 4 p 54 ||| at64 15 act 39 ||| at64 8 e0 31 ||| at64 9 t 22 ||| at64 2 b 20
      ||| at64 14 stride 6
  | .ancClr l e0 n => at64 6 0x08 58 ||| at64 10 l 48 ||| at64 8 e0 40 ||| at64 9 n 31
  | .ancRd fmt rm clr vr e0 n dst cs cc =>
    at64 6 0x09 58 ||| at64 4 fmt 54 ||| at64 3 rm 51 ||| at64 1 (BitVec.ofBool clr) 50
      ||| at64 1 (BitVec.ofBool vr) 49 ||| at64 8 e0 41 ||| at64 9 n 32 ||| at64 21 dst 11
      ||| at64 2 cs 9 ||| at64 2 cc 7
  | .ancExp e0 n a cs cc =>
    at64 6 0x0A 58 ||| at64 8 e0 41 ||| at64 9 n 32 ||| at64 21 a 11 ||| at64 2 cs 9 ||| at64 2 cc 7
  | .ancMrg e0 n a cs cc =>
    at64 6 0x0B 58 ||| at64 8 e0 41 ||| at64 9 n 32 ||| at64 21 a 11 ||| at64 2 cs 9 ||| at64 2 cc 7
  | .vec op bf vd va vb vc rm addr =>
    at64 6 0x10 58 ||| at64 6 op.code 52 ||| at64 1 (BitVec.ofBool bf) 50 ||| at64 5 vd 45 ||| at64 5 va 40
      ||| at64 5 vb 35 ||| at64 5 vc 30 ||| at64 3 rm 27 ||| at64 21 addr 0
  | .movIn reg roff pml len =>
    at64 6 0x18 58 ||| at64 3 reg 53 ||| at64 26 roff 27 ||| at64 15 pml 12 ||| at64 12 len 0
  | .movOut reg roff pml len =>
    at64 6 0x18 58 ||| at64 2 1 56 ||| at64 3 reg 53 ||| at64 26 roff 27 ||| at64 15 pml 12 ||| at64 12 len 0
  | .movLocal s d len => at64 6 0x18 58 ||| at64 2 2 56 ||| at64 15 s 41 ||| at64 15 d 12 ||| at64 12 len 0
  | .sig ctr inc => at64 6 0x20 58 ||| at64 6 ctr 52 ||| at64 16 inc 36
  | .watBar ctr target => at64 6 0x21 58 ||| at64 6 ctr 51 ||| at64 32 target 0
  | .watLocal units => at64 6 0x21 58 ||| at64 1 1 57 ||| at64 5 units 51
  | .snd node vl ch pml len =>
    at64 6 0x28 58 ||| at64 16 node 42 ||| at64 2 vl 40 ||| at64 4 ch 36 ||| at64 15 pml 21 ||| at64 12 len 9
  | .rcv ch pml len => at64 6 0x29 58 ||| at64 4 ch 54 ||| at64 15 pml 39 ||| at64 12 len 27
  | .wipe => at64 6 0x30 58
  | .fin => at64 6 0x3F 58

/-- The fields of a word read by the class its opcode names; `none` for a reserved opcode or code. -/
def fields (w : DWord) : Option PitchInstr :=
  match (w.extractLsb' 58 6).toNat with
  | 0x01 => some (.wld (w.getLsbD 57) (w.extractLsb' 53 4) (w.extractLsb' 50 3) (w.extractLsb' 24 26))
  | 0x02 => some .wsw
  | 0x03 => some (.str (w.extractLsb' 54 4) (w.extractLsb' 39 15) (w.extractLsb' 31 8) (w.extractLsb' 22 9)
      (w.extractLsb' 20 2) (w.extractLsb' 6 14))
  | 0x08 => some (.ancClr (w.extractLsb' 48 10) (w.extractLsb' 40 8) (w.extractLsb' 31 9))
  | 0x09 => some (.ancRd (w.extractLsb' 54 4) (w.extractLsb' 51 3) (w.getLsbD 50) (w.getLsbD 49)
      (w.extractLsb' 41 8) (w.extractLsb' 32 9) (w.extractLsb' 11 21) (w.extractLsb' 9 2)
      (w.extractLsb' 7 2))
  | 0x0A => some (.ancExp (w.extractLsb' 41 8) (w.extractLsb' 32 9) (w.extractLsb' 11 21)
      (w.extractLsb' 9 2) (w.extractLsb' 7 2))
  | 0x0B => some (.ancMrg (w.extractLsb' 41 8) (w.extractLsb' 32 9) (w.extractLsb' 11 21)
      (w.extractLsb' 9 2) (w.extractLsb' 7 2))
  | 0x10 => (VOp.ofCode (w.extractLsb' 52 6)).map (fun op =>
      .vec op (w.getLsbD 50) (w.extractLsb' 45 5) (w.extractLsb' 40 5) (w.extractLsb' 35 5)
        (w.extractLsb' 30 5) (w.extractLsb' 27 3) (w.extractLsb' 0 21))
  | 0x18 =>
    match (w.extractLsb' 56 2).toNat with
    | 0 => some (.movIn (w.extractLsb' 53 3) (w.extractLsb' 27 26) (w.extractLsb' 12 15)
        (w.extractLsb' 0 12))
    | 1 => some (.movOut (w.extractLsb' 53 3) (w.extractLsb' 27 26) (w.extractLsb' 12 15)
        (w.extractLsb' 0 12))
    | 2 => some (.movLocal (w.extractLsb' 41 15) (w.extractLsb' 12 15) (w.extractLsb' 0 12))
    | _ => none
  | 0x20 => some (.sig (w.extractLsb' 52 6) (w.extractLsb' 36 16))
  | 0x21 =>
    if w.getLsbD 57 then some (.watLocal (w.extractLsb' 51 5))
    else some (.watBar (w.extractLsb' 51 6) (w.extractLsb' 0 32))
  | 0x28 => some (.snd (w.extractLsb' 42 16) (w.extractLsb' 40 2) (w.extractLsb' 36 4)
      (w.extractLsb' 21 15) (w.extractLsb' 9 12))
  | 0x29 => some (.rcv (w.extractLsb' 54 4) (w.extractLsb' 39 15) (w.extractLsb' 27 12))
  | 0x30 => some .wipe
  | 0x3F => some .fin
  | _ => none

/-- R116: a word is decoded where its codes are defined, no reserved bit is set (the fields spell the whole
word) and no limit of its class is broken. -/
def decode (w : DWord) : Option PitchInstr :=
  match fields w with
  | some i => if encode i = w ∧ ok i then some i else none
  | none => none

end PitchInstr

end Sys2Proof
end

