-- ==== Sys2Proof/Config.lean ====
section
/-! DEFINITION. What an implementation fixes, and the free values: constants without a body, of which
nothing can be proved but what their users check. -/

namespace Sys2Proof.Config

/-- The FP32 result an implementation's table gives EXP; R94 states only a bound. -/
opaque expPick : BitVec 32 → BitVec 32
/-- As `expPick`, for RCP. -/
opaque rcpPick : BitVec 32 → BitVec 32
/-- As `expPick`, for RSQ. -/
opaque rsqPick : BitVec 32 → BitVec 32

/-- The router to which an Ikinum port, the host interface or a camp core attaches, and the side of that
router: R155 leaves both to MESH_STOP of the part. -/
opaque stopRouter : Nat → Nat
opaque stopSide : Nat → Nat

/-- The key stream byte of a port, direction (true: transmit), key number, run counter and byte (R275). No register or
path shows a key, so nothing is known of it. -/
opaque fabStream : Nat → Bool → Nat → Nat → Nat → BitVec 8
/-- The GCM tag of a run: port, direction, key number, run counter, additional data and ciphertext (R275). -/
opaque fabTag : Nat → Bool → Nat → Nat → List (BitVec 8) → List (BitVec 8) → BitVec 128

/-- The cause byte of a RESET word, for an audit, a retrain and a disable: R251 gives the field no coding. -/
opaque resetCause : Nat → BitVec 8
/-- The virtual lane in the delivery record of a block that another node returned: a RETURN does not carry it. -/
opaque returnVl : Nat → Nat → Nat → BitVec 2

/-- The energy that a class unit debits for one grant unit, in 1/256 token: 0 HBM, 1 Ledge, 2 mesh, 3 fabric (R327 names
no coefficient). -/
opaque unitEnergy : Nat → Nat

/-- Whether a value whose rounding no rule states is rounded up: the site of the rounding and its argument. -/
opaque roundsUp : Nat → Nat → Bool

/-- A value that no rule states, by its site and argument. The sites are named where they are used. -/
opaque openNat : Nat → Nat → Nat

/-- A signed value that no rule states, by its site and argument. -/
opaque openInt : Nat → Nat → Int

/-- A field of a configuration ledger entry's value: tag, value and field. R511 names the entries' contents and gives no
layout; `ledgerStr` gives the fields that are byte strings. -/
opaque ledgerNat : Nat → List (BitVec 8) → Nat → Nat
opaque ledgerStr : Nat → List (BitVec 8) → Nat → List (BitVec 8)

/-- Byte `i` of the SHA3-384 digest of a byte string. -/
opaque sha3Byte : List (BitVec 8) → Nat → BitVec 8

/-- A coefficient of the thermal model (R360): the words loaded, the matrix (0 A, 1 B, 2 c, 3 A50, 4 H50, 5 c50), the flow
band 0–7, the row and the column. The rule gives the words no layout. -/
opaque thermCoef : List (Nat × BitVec 32) → Nat → Nat → Nat → Nat → Rat

/-- A fact of a firmware image's bytes: 0 whether its signature verifies (odd), 1 its domain, 2 its variant, 3 its SVN.
R505 names them and gives the image no layout. -/
opaque imgField : List (Nat × BitVec 8) → Nat → Nat

/-- Whether a certificate chain verifies to a root (odd); an empty root is the Hjelov root. R469 and R475 name the check;
the bytes of a certificate are not laid out. -/
opaque chainOk : List (BitVec 8) → List (BitVec 8) → Nat
/-- Whether a signature over a message verifies under the key that ends a chain (odd). -/
opaque sigOk : List (BitVec 8) → List (BitVec 8) → List (BitVec 8) → Nat
/-- The body of a fabric key message that the module sends: port, whether it is a CT, and the draw from its TRNG (R474). -/
opaque keyBody : Nat → Bool → Nat → List (BitVec 8)

/-- The bytes that answer an SPDM or TDISP request, by request and the facts that it reports: the standards lay them
out. -/
opaque spdmBytes : Nat → List (BitVec 8) → List (BitVec 8)

/-- A signed seal offer (R478), from the draw of its key pair and nonce and the facts it carries. -/
opaque offerBytes : Nat → List (BitVec 8) → List (BitVec 8)
/-- The length of a key package, and its parts (R479): numbers 0 whether the vendor's signature verifies (odd) and 1 the
page count; byte strings 0 the vendor's public key, 1 the model digest, 2 the digest of the offer, 3 the KEM ciphertext. -/
opaque packageSize : Nat
opaque packageNat : List (BitVec 8) → Nat → Nat
opaque packageStr : List (BitVec 8) → Nat → List (BitVec 8)
/-- The page key that an offer's private key and a ciphertext give (R479). No register or path shows it. -/
opaque pageKey : List (BitVec 8) → List (BitVec 8) → List (BitVec 8)
/-- The plaintext and the tag of a sealed page: key, epoch, page index, model digest and ciphertext (R480). -/
opaque pagePlain : List (BitVec 8) → Nat → Nat → List (BitVec 8) → List (BitVec 8) → List (BitVec 8)
opaque pageTag : List (BitVec 8) → Nat → Nat → List (BitVec 8) → List (BitVec 8) → List (BitVec 8)

/-- The table sine of R393: amplitude and phase. -/
opaque sinePick : Nat → Nat → Int

end Sys2Proof.Config
end

