-- ==== Sys2Proof/Machine/Numbers.lean ====
section
/-! DEFINITION. Block-scaled numbers, FP32 and BF16, rounding, and the anchor arithmetic
(spec/02_block_scaled_arithmetic.md, R36–R71, and R93–R95 of spec/03_cores.md). -/

namespace Sys2Proof.Machine

/-- A dyadic value `m × 2^e`. -/
structure Dy where
  m : Int
  e : Int
  deriving DecidableEq, Repr

/-- The numerators of two dyadic values over the smaller of their exponents. -/
def Dy.align (a b : Dy) : Int × Int × Int :=
  let e := min a.e b.e
  (a.m * 2 ^ (a.e - e).toNat, b.m * 2 ^ (b.e - e).toNat, e)

def Dy.add (a b : Dy) : Dy :=
  let (x, y, e) := a.align b
  ⟨x + y, e⟩

def Dy.mul (a b : Dy) : Dy := ⟨a.m * b.m, a.e + b.e⟩

def Dy.neg (a : Dy) : Dy := ⟨-a.m, a.e⟩

def Dy.lt (a b : Dy) : Bool :=
  let (x, y, _) := a.align b
  x < y

def Dy.eqv (a b : Dy) : Bool :=
  let (x, y, _) := a.align b
  x == y

def Dy.abs (a : Dy) : Dy := ⟨a.m.natAbs, a.e⟩

/-- ⌊log2 |v|⌋ of a non-zero dyadic value. -/
def Dy.log2 (a : Dy) : Int := (Nat.log2 a.m.natAbs : Int) + a.e

/-- The rounding modes of R63. -/
inductive RMode where
  | rne | rtz | rdn | rup | sr
  deriving DecidableEq, Repr

/-- The mode a RMODE code names; the codes 0b101–0b111 are reserved (R63). -/
def RMode.ofCode : Nat → Option RMode
  | 0 => some .rne
  | 1 => some .rtz
  | 2 => some .rdn
  | 3 => some .rup
  | 4 => some .sr
  | _ => none

/-- `v / 2^q` rounded to an integer under a mode; `u` is the 24-bit random value of SR (R63, R64). -/
def roundAt (md : RMode) (u : Nat) (v : Dy) (q : Int) : Int :=
  let sh := v.e - q
  if 0 ≤ sh then v.m * 2 ^ sh.toNat
  else
    let d : Int := 2 ^ (-sh).toNat
    let g := v.m / d
    let r := v.m % d
    match md with
    | .rdn => g
    | .rup => if r = 0 then g else g + 1
    | .rtz => if r = 0 ∨ 0 ≤ v.m then g else g + 1
    | .rne => if 2 * r < d ∨ (2 * r = d ∧ g % 2 = 0) then g else g + 1
    | .sr => if (u : Int) < r * 2 ^ 24 / d then g + 1 else g

/-- FP32 (23 fraction bits) or BF16 (7 fraction bits): both have an 8-bit exponent (R41). -/
inductive FpFmt where
  | fp32 | bf16
  deriving DecidableEq, Repr

def FpFmt.frac : FpFmt → Nat
  | .fp32 => 23
  | .bf16 => 7

/-- The canonical NaN of R42. -/
def FpFmt.nan : FpFmt → Nat
  | .fp32 => 0x7FC00000
  | .bf16 => 0x7FC0

def FpFmt.sign (f : FpFmt) (neg : Bool) : Nat := if neg then 2 ^ (f.frac + 8) else 0

def FpFmt.inf (f : FpFmt) (neg : Bool) : Nat := f.sign neg + 255 * 2 ^ f.frac

/-- The largest finite value of a sign. -/
def FpFmt.maxFin (f : FpFmt) (neg : Bool) : Nat := f.inf neg - 1

/-- The spacing exponent of a format at a value's binade, the subnormal spacing included (R41, R65). -/
def FpFmt.spacing (f : FpFmt) (v : Dy) : Int := max (v.log2 - f.frac) (-126 - f.frac)

/-- The encoding of `k × 2^q` where |k| ≤ 2^(frac+1) and `q` is a spacing exponent;
`none` where it lies above the largest finite value. -/
def FpFmt.encode (f : FpFmt) (neg : Bool) (k : Nat) (q : Int) : Option Nat :=
  let one := 2 ^ f.frac
  let body : Nat :=
    if k < one then k
    else (q + 126 + f.frac).toNat * one + k
  if body ≥ 255 * one then none else some (f.sign neg + body)

/-- What a floating-point encoding stands for (R41). -/
inductive Fp where
  | nan
  | inf (neg : Bool)
  | fin (neg : Bool) (v : Dy)
  deriving DecidableEq, Repr

def FpFmt.decode (f : FpFmt) (w : Nat) : Fp :=
  let one := 2 ^ f.frac
  let fr := w % one
  let ex := w / one % 256
  let neg := w / (one * 256) % 2 == 1
  let sg : Int := if neg then -1 else 1
  if ex = 255 then (if fr = 0 then .inf neg else .nan)
  else if ex = 0 then .fin neg ⟨sg * fr, -126 - f.frac⟩
  else .fin neg ⟨sg * (one + fr), ex - 127 - f.frac⟩

/-- A conversion's result with the conditions it reports (R69). -/
structure Conv where
  bits : Nat
  inx : Bool
  sat : Bool
  nan : Bool
  deriving DecidableEq, Repr

/-- R65: the conversion of an exact value to FP32 or BF16, rounding once and never giving an infinity. -/
def convFp (f : FpFmt) (md : RMode) (u : Nat) (v : Dy) : Conv :=
  if v.m = 0 then ⟨0, false, false, false⟩
  else
    let neg := decide (v.m < 0)
    let q := f.spacing v
    let k := roundAt md u v q
    let above : Bool := md == .sr &&
      (match f.decode (f.maxFin false) with
       | .fin _ mx => mx.lt v.abs
       | _ => false)
    match f.encode neg k.natAbs q, above with
    | some b, false => ⟨b, !(Dy.eqv ⟨k, q⟩ v), false, false⟩
    | _, _ => ⟨f.maxFin neg, true, true, false⟩

/-- Round to nearest even with infinities on overflow: the rounding of the vector arithmetic (R93).
`zneg` is the sign of an exact zero. -/
def fpRne (f : FpFmt) (zneg : Bool) (v : Dy) : Nat :=
  if v.m = 0 then f.sign zneg
  else
    let neg := decide (v.m < 0)
    let q := f.spacing v
    match f.encode neg (roundAt .rne 0 v q).natAbs q with
    | some b => b
    | none => f.inf neg

/-- R67: FP32 to BF16. -/
def cvtBf16 (md : RMode) (u : Nat) (w : Nat) : Conv :=
  match FpFmt.fp32.decode w with
  | .nan => ⟨FpFmt.bf16.nan, false, false, true⟩
  | .inf neg => ⟨FpFmt.bf16.inf neg, false, false, false⟩
  | .fin neg v => if v.m = 0 then ⟨FpFmt.bf16.sign neg, false, false, false⟩ else convFp .bf16 md u v

/-! ### Blocks (R36–R40, R66) -/

/-- The exponent code and the mantissas that a conversion to a block of width `w` produces (R66).
An entry is `none` where it is not a number; `us` gives each element its random value. -/
structure BlockConv where
  code : Nat
  mants : List Int
  inx : Bool
  sat : Bool
  nan : Bool
  deriving DecidableEq, Repr

def maxDy : List Dy → Dy
  | [] => ⟨0, 0⟩
  | v :: vs => let m := maxDy vs; if m.lt v.abs then v.abs else m

/-- The mantissas of one trial of R66 at the shared exponent `e`. -/
def trialMants (md : RMode) (us : List Nat) (vs : List Dy) (e : Int) : List Int :=
  List.zipWith (fun u v => roundAt md u v e) us vs

def convBlock (w : Nat) (md : RMode) (us : List Nat) (vs : List (Option Dy)) : BlockConv :=
  if vs.any (·.isNone) then ⟨0xFF, vs.map (fun _ => 0), false, false, true⟩
  else
    let xs := vs.filterMap id
    let mx := maxDy xs
    if mx.m = 0 then ⟨0, xs.map (fun _ => 0), false, false, false⟩
    else
      let lim : Int := 2 ^ (w - 1) - 1
      let clampE := fun (e : Int) => min (max e (-127)) 127
      let fits := fun (ms : List Int) => ms.all (fun m => decide (m.natAbs ≤ lim.toNat))
      let e0 := clampE (mx.log2 - ((w : Int) - 2))
      let m0 := trialMants md us xs e0
      let (e, ms) := if fits m0 || e0 == 127 then (e0, m0)
        else (clampE (e0 + 1), trialMants md us xs (clampE (e0 + 1)))
      let cl := fun (m : Int) => max (-lim) (min lim m)
      let out := ms.map cl
      let changed := (List.zipWith (fun m v => !(Dy.eqv ⟨m, e⟩ v)) out xs).any id
      ⟨(e + 127).toNat, out, changed, !(fits ms), false⟩

/-- The bytes of a block (R37): bits [7:0] hold E and element i stands at bit 8 + w·i. -/
def packBlock (w : Nat) (code : Nat) (ms : List Int) : List Byte :=
  let n := ms.foldr (fun m acc => acc * 2 ^ w + (m % (2 ^ w : Int)).toNat) 0
  (List.range (1 + 2 * w)).map (fun k => BitVec.ofNat 8 ((code + 256 * n) / 2 ^ (8 * k)))

/-- The little-endian number that a list of bytes spells. -/
def leNat : List Byte → Nat
  | [] => 0
  | b :: bs => b.toNat + 256 * leNat bs

/-- `n` bytes of a number, little-endian. -/
def leBytes : Nat → Nat → List Byte
  | 0, _ => []
  | n + 1, v => BitVec.ofNat 8 v :: leBytes n (v / 256)

/-- The two's-complement value of the low `w` bits. -/
def signedOf (w : Nat) (n : Nat) : Int :=
  let m := n % 2 ^ w
  if m < 2 ^ (w - 1) then (m : Int) else (m : Int) - 2 ^ w

/-- The exponent code and the 16 mantissas of a stored block (R37). -/
def unpackBlock (w : Nat) (bs : List Byte) : Nat × List Int :=
  let n := leNat bs
  (n % 256, (List.range 16).map (fun i => signedOf w (n / 2 ^ (8 + w * i))))

/-! ### The pass and its window (R43–R49, R58) -/

/-- The operand formats of the pairing table (R74). -/
inductive OpFmt where
  | bs4 | bs6 | bs8 | bf16
  deriving DecidableEq, Repr

/-- Bytes of one entry: a block, or 16 BF16 elements (R36, R77). -/
def OpFmt.bytes : OpFmt → Nat
  | .bs4 => 9
  | .bs6 => 13
  | .bs8 => 17
  | .bf16 => 32

def OpFmt.width : OpFmt → Nat
  | .bs4 => 4
  | .bs6 => 6
  | .bs8 => 8
  | .bf16 => 9

/-- The ten rows of the pairing table (R74): activation, weight, G. -/
def pairing : Nat → Option (OpFmt × OpFmt × Nat)
  | 0 => some (.bs4, .bs4, 1)
  | 1 => some (.bs6, .bs4, 1)
  | 2 => some (.bs8, .bs4, 1)
  | 3 => some (.bs4, .bs6, 2)
  | 4 => some (.bs6, .bs6, 2)
  | 5 => some (.bs8, .bs6, 2)
  | 6 => some (.bs4, .bs8, 2)
  | 7 => some (.bs6, .bs8, 2)
  | 8 => some (.bs8, .bs8, 2)
  | 9 => some (.bf16, .bf16, 4)
  | _ => none

/-- The size in bytes of the weight set of a pairing: 64 × (64 / G) entries (R77). -/
def weightSetBytes (p : Nat) : Nat :=
  match pairing p with
  | some (_, w, g) => 64 * (64 / g) * w.bytes
  | none => 0

/-- One pair of a pass: its exact product sum S, its exponent p, and S mod 7 as the residue path forms
it from the reduced mantissas; `none` where the pair is not a number (R43, R44, R49, R58). -/
structure Pair where
  s : Int
  p : Int
  r : Nat
  deriving DecidableEq, Repr

def mod7 (x : Int) : Nat := (x % 7).toNat

/-- The mantissa and exponent of a BF16 element (R43). -/
def bf16Cell (w : Nat) : Option (Int × Int) :=
  let e := w / 128 % 256
  let f := w % 128
  let sg : Int := if w / 32768 % 2 = 1 then -1 else 1
  if e = 255 then none
  else if e = 0 then some (sg * f, -133)
  else some (sg * (128 + f), (e : Int) - 134)

/-- The pairs of one grid row: one block pair, or 16 element pairs (R44). -/
def rowPairs (fa fw : OpFmt) (a w : List Byte) : Option (List Pair) :=
  match fa, fw with
  | .bf16, _ =>
    (List.range 16).mapM (fun i =>
      match bf16Cell (leNat ((a.drop (2 * i)).take 2)), bf16Cell (leNat ((w.drop (2 * i)).take 2)) with
      | some (ma, xa), some (mb, xb) => some ⟨ma * mb, xa + xb, mod7 ma * mod7 mb % 7⟩
      | _, _ => none)
  | _, _ =>
    let (ea, ma) := unpackBlock fa.width a
    let (eb, mb) := unpackBlock fw.width w
    if ea = 0xFF ∨ eb = 0xFF then none
    else
      some [⟨(List.zipWith (· * ·) ma mb).sum, (ea : Int) - 127 + ((eb : Int) - 127),
        (List.zipWith (fun x y => mod7 x * mod7 y) ma mb).sum % 7⟩]

/-- A shifted integer with what the shifter reports: the kept value, whether a non-zero bit was
dropped, and the residue carried along by R58. -/
structure Shifted where
  v : Int
  inx : Bool
  r : Nat
  deriving DecidableEq, Repr

/-- 2^k mod 7: 1, 2, 4, with period 3 (R58). -/
def pow2mod7 (k : Nat) : Nat := match k % 3 with | 0 => 1 | 1 => 2 | _ => 4

/-- The inverse of 2^j mod 7: 1, 4, 2, with period 3 (R58). -/
def inv2mod7 (j : Nat) : Nat := match j % 3 with | 0 => 1 | 1 => 4 | _ => 2

/-- Shift by `k` bits, left where `k ≥ 0`, else right with the dropped bits reported (R47, R52, R58). -/
def shiftRes (v : Int) (r : Nat) (k : Int) : Shifted :=
  if 0 ≤ k then ⟨v * 2 ^ k.toNat, false, r * pow2mod7 k.toNat % 7⟩
  else
    let j := (-k).toNat
    let t := v % (2 ^ j : Int)
    ⟨v / (2 ^ j : Int), t != 0, ((r : Int) - t) % 7 |>.toNat |> (· * inv2mod7 j % 7)⟩

/-- The window of a pass: W at exponent P − 28, its inexact flag and its residue (R45–R48). -/
structure Window where
  w : Int
  p : Int
  inx : Bool
  r : Nat
  deriving DecidableEq, Repr

def maxExp : List Pair → Int → Int
  | [], m => m
  | q :: qs, m => maxExp qs (max m q.p)

def window (ps : List Pair) : Window :=
  match ps with
  | [] => ⟨0, 0, false, 0⟩
  | q :: qs =>
    let p := maxExp qs q.p
    let cs := ps.map (fun x => shiftRes x.s x.r (28 - (p - x.p)))
    ⟨(cs.map (·.v)).sum, p, cs.any (·.inx), (cs.map (·.r)).sum % 7⟩

/-! ### The anchor (R50–R62) -/

/-- An anchor entry (R50, R86): the 128-bit value, the window exponent and the side word's flags. -/
structure Anchor where
  a : BitVec 128 := 0
  l : BitVec 10 := 0
  res : BitVec 3 := 0
  inx : Bool := false
  sat : Bool := false
  nan : Bool := false
  deriving DecidableEq, Repr

/-- The cleared entry of R51 with window exponent `l`. -/
def Anchor.cleared (l : BitVec 10) : Anchor := { l := l }

/-- R54: the addition of an exact addend with saturation; `r` goes into the residue. While SAT is set
the entry absorbs every addend. -/
def Anchor.addExact (e : Anchor) (x : Shifted) : Anchor :=
  let e1 := { e with inx := e.inx || x.inx, res := BitVec.ofNat 3 ((e.res.toNat + x.r) % 7) }
  if e.sat then e1
  else
    let y := e.a.toInt + x.v
    if y > 2 ^ 127 - 1 then { e1 with a := BitVec.ofInt 128 (2 ^ 127 - 1), sat := true }
    else if y < -2 ^ 127 then { e1 with a := BitVec.ofInt 128 (-2 ^ 127), sat := true }
    else { e1 with a := BitVec.ofInt 128 y }

/-- R52, R53: a pass into an entry. -/
def Anchor.addPass (e : Anchor) (w : Window) : Anchor :=
  let x := shiftRes w.w w.r (w.p - 28 - e.l.toInt)
  e.addExact { x with inx := x.inx || w.inx }

/-- R49: a pass that is not a number sets NAN alone. -/
def Anchor.pass (e : Anchor) (ps : Option (List Pair)) : Anchor :=
  match ps with
  | none => { e with nan := true }
  | some ps => e.addPass (window ps)

/-- R59, R60: a read-out or merge checks the residue unless SAT or NAN is set. -/
def Anchor.checked (e : Anchor) : Bool := !(e.sat || e.nan)

/-- R59: A mod 7 differs from the stored residue, or the stored residue is 7. -/
def Anchor.residueFails (e : Anchor) : Bool :=
  e.checked && (e.res.toNat == 7 || mod7 e.a.toInt != e.res.toNat)

/-- The exact value A × 2^L of an entry. -/
def Anchor.value (e : Anchor) : Dy := ⟨e.a.toInt, e.l.toInt⟩

/-- The raw record of R61. -/
def Anchor.record (e : Anchor) : List Byte :=
  leBytes 16 e.a.toNat ++ leBytes 2 (e.l.signExtend 16).toNat ++
  [BitVec.ofNat 8 (e.res.toNat + (if e.inx then 8 else 0) + (if e.sat then 16 else 0)
    + (if e.nan then 32 else 0))] ++ List.replicate 13 0

/-- A raw record as it is read back; its WEXP keeps all 16 bits (R61, R62). -/
structure RawRec where
  a : BitVec 128
  wexp : Int
  res : BitVec 3
  inx : Bool
  sat : Bool
  nan : Bool
  deriving DecidableEq, Repr

def RawRec.ofBytes (bs : List Byte) : RawRec :=
  let fl := leNat ((bs.drop 18).take 1)
  { a := BitVec.ofNat 128 (leNat (bs.take 16))
    wexp := signedOf 16 (leNat ((bs.drop 16).take 2))
    res := BitVec.ofNat 3 fl
    inx := fl / 8 % 2 == 1
    sat := fl / 16 % 2 == 1
    nan := fl / 32 % 2 == 1 }

/-- R62: a WEXP outside −512 to +511 is a residue failure. -/
def RawRec.badExp (r : RawRec) : Bool := decide (r.wexp < -512 ∨ r.wexp > 511)

def RawRec.residueFails (r : RawRec) : Bool :=
  r.badExp || (!(r.sat || r.nan) && (r.res.toNat == 7 || mod7 r.a.toInt != r.res.toNat))

/-- R62: a merge, in the five steps of the rule. -/
def Anchor.merge (e : Anchor) (r : RawRec) : Anchor :=
  let e1 := e.addExact (shiftRes r.a.toInt r.res.toNat (r.wexp - e.l.toInt))
  { e1 with inx := e1.inx || r.inx, sat := e1.sat || r.sat, nan := e1.nan || r.nan }

/-! ### The stochastic generator (R68) -/

def srU (id : BitVec 64) (n : Nat) (j : Nat) : Nat :=
  let k : BitVec 64 := (BitVec.ofNat 64 n <<< 48) ||| BitVec.ofNat 64 (j % 2 ^ 48)
  let z := id + k * 0x9E3779B97F4A7C15#64
  let z := (z ^^^ (z >>> 30)) * 0xBF58476D1CE4E5B9#64
  let z := (z ^^^ (z >>> 27)) * 0x94D049BB133111EB#64
  let z := z ^^^ (z >>> 31)
  (z >>> 40).toNat

/-! ### Vector arithmetic (R93–R95, R125), on FP32 bits -/

def fpAdd (a b : Nat) : Nat :=
  let f := FpFmt.fp32
  match f.decode a, f.decode b with
  | .nan, _ => f.nan
  | _, .nan => f.nan
  | .inf x, .inf y => if x = y then f.inf x else f.nan
  | .inf x, _ => f.inf x
  | _, .inf y => f.inf y
  | .fin x u, .fin y v => fpRne f (x && y) (u.add v)

/-- The bits with the sign inverted. -/
def fpFlip (f : FpFmt) (a : Nat) : Nat :=
  let top := 2 ^ (f.frac + 8)
  if a / top % 2 = 1 then a - top else a + top

def fpSub (a b : Nat) : Nat := fpAdd a (fpFlip .fp32 b)

def fpMul (a b : Nat) : Nat :=
  let f := FpFmt.fp32
  match f.decode a, f.decode b with
  | .nan, _ => f.nan
  | _, .nan => f.nan
  | .inf x, .inf y => f.inf (x != y)
  | .inf x, .fin y v => if v.m = 0 then f.nan else f.inf (x != y)
  | .fin x u, .inf y => if u.m = 0 then f.nan else f.inf (x != y)
  | .fin x u, .fin y v => fpRne f (x != y) (u.mul v)

def fpFma (a b c : Nat) : Nat :=
  let f := FpFmt.fp32
  match f.decode a, f.decode b, f.decode c with
  | .fin x u, .fin y v, .fin z w =>
    fpRne f ((x != y) && z) ((u.mul v).add w)
  | .fin _ _, .fin _ _, .inf z => f.inf z
  | .nan, _, _ => f.nan
  | _, .nan, _ => f.nan
  | _, _, .nan => f.nan
  | _, _, _ => fpAdd (fpMul a b) c

/-- The order key of MIN and MAX: −0 is below +0 (R125). -/
def fpLess (f : FpFmt) (a b : Nat) : Bool :=
  match f.decode a, f.decode b with
  | .nan, _ => false
  | _, .nan => false
  | .inf x, .inf y => x && !y
  | .inf x, .fin _ _ => x
  | .fin _ _, .inf y => !y
  | .fin x u, .fin y v => u.lt v || (u.m == 0 && v.m == 0 && x && !y)

def fpIsNan (f : FpFmt) (a : Nat) : Bool := f.decode a == .nan

def fpMin (f : FpFmt) (a b : Nat) : Nat :=
  if fpIsNan f a || fpIsNan f b then f.nan else if fpLess f b a then b else a

def fpMax (f : FpFmt) (a b : Nat) : Nat :=
  if fpIsNan f a || fpIsNan f b then f.nan else if fpLess f a b then b else a

def fpEq (f : FpFmt) (a b : Nat) : Bool :=
  match f.decode a, f.decode b with
  | .inf x, .inf y => x == y
  | .fin _ u, .fin _ v => u.eqv v
  | _, _ => false

def fpLtIeee (f : FpFmt) (a b : Nat) : Bool :=
  fpLess f a b && !(fpEq f a b)

def fpAbs (f : FpFmt) (a : Nat) : Nat :=
  if fpIsNan f a then f.nan else a % 2 ^ (f.frac + 8)

def fpNeg (f : FpFmt) (a : Nat) : Nat :=
  if fpIsNan f a then f.nan else fpFlip f a

/-- A BF16 lane as the FP32 value it stands for (R41). -/
def widen (a : Nat) : Nat := a * 65536

/-- R93: the FP32 result rounded once to BF16 under round-to-nearest-even. -/
def narrow (w : Nat) : Nat :=
  match FpFmt.fp32.decode w with
  | .nan => FpFmt.bf16.nan
  | .inf neg => FpFmt.bf16.inf neg
  | .fin neg v => fpRne .bf16 neg v

/-! ### EXP, RCP and RSQ within the bounds of R94 -/

/-- The free choice where it lies within the bound, else the nearest value: a free value keeps the
limit that R94 sets. -/
def chosen (pick : Nat) (ok : Nat → Bool) (nearest : Nat) : Nat :=
  if ok pick then pick else nearest

/-- A finite FP32 value, or nothing. -/
def finOf (w : Nat) : Option Dy :=
  match FpFmt.fp32.decode w with
  | .fin _ v => if w < 2 ^ 32 then some v else none
  | _ => none

/-- 2^q as a dyadic value. -/
def ulpAt (q : Int) : Dy := ⟨1, q⟩

/-- e^x in units of 2^−512: Taylor terms of x / 256, squared eight times. -/
def expFix (x : Dy) : Int :=
  let one : Int := 2 ^ 512
  let r : Int := if 0 ≤ x.e + 504 then x.m * 2 ^ (x.e + 504).toNat else x.m / 2 ^ (-(x.e + 504)).toNat
  let t := (List.range 60).foldl (fun (st : Int × Int) k =>
    let term := st.2 * r / one / ((k : Int) + 1)
    (st.1 + term, term)) (one, one)
  (List.range 8).foldl (fun y _ => y * y / one) t.1

/-- |y − v| ≤ n units of 2^q, up to the width of the enclosure of v. -/
def within (n : Nat) (y v slack : Dy) (q : Int) : Bool :=
  let d := (y.add v.neg).abs
  let lim := (Dy.mul ⟨n, 0⟩ (ulpAt q)).add slack
  !(lim.lt d)

/-- FP32 EXP (R94). -/
def fpExp (a : Nat) : Nat :=
  let f := FpFmt.fp32
  match f.decode a with
  | .nan => f.nan
  | .inf neg => if neg then 0 else f.inf false
  | .fin _ v =>
    if Dy.lt ⟨88722839, 0⟩ (Dy.mul ⟨1000000, 0⟩ v) then f.inf false
    else if Dy.lt (Dy.mul ⟨1000000, 0⟩ v) ⟨-103972084, 0⟩ then 0
    else
      let y : Dy := ⟨expFix v, -512⟩
      let q := f.spacing y
      let ok := fun w => match finOf w with
        | some z => within 2 z y ⟨1, -400⟩ q
        | none => false
      chosen (Config.expPick (BitVec.ofNat 32 a)).toNat ok (fpRne f false y)

/-- FP32 RCP (R94). The bound |y − 1/x| ≤ 2^q is tested as |y·x − 1| ≤ 2^q·|x|. -/
def fpRcp (a : Nat) : Nat :=
  let f := FpFmt.fp32
  match f.decode a with
  | .nan => f.nan
  | .inf neg => f.sign neg
  | .fin neg v =>
    if v.m = 0 then f.inf neg
    else
      let k : Int := Nat.log2 v.m.natAbs
      let y : Dy := ⟨(2 ^ (k.toNat + 400)) / (v.m.natAbs : Int) * (if neg then -1 else 1),
        -v.e - k - 400⟩
      let q := f.spacing y
      let ok := fun w => match finOf w with
        | some z => !((Dy.mul (ulpAt q) v.abs).lt ((z.mul v).add ⟨-1, 0⟩).abs)
        | none => false
      let near := match f.encode neg (roundAt .rne 0 y q).natAbs q with
        | some b => b
        | none => f.inf neg
      let ok' := fun w => ok w || (w == f.inf neg && near == f.inf neg)
      chosen (Config.rcpPick (BitVec.ofNat 32 a)).toNat ok' near

/-- FP32 RSQ (R94). The bound is tested as (y − 2^q)² x ≤ 1 ≤ (y + 2^q)² x. -/
def fpRsq (a : Nat) : Nat :=
  let f := FpFmt.fp32
  match f.decode a with
  | .nan => f.nan
  | .inf neg => if neg then f.nan else 0
  | .fin neg v =>
    if v.m = 0 then f.inf neg
    else if neg then f.nan
    else
      -- x = m·2^e with e even; 1/√x = √(2^800 / m) · 2^(−400 − e/2)
      let (m, e) := if v.e % 2 = 0 then (v.m.natAbs, v.e) else (2 * v.m.natAbs, v.e - 1)
      let y : Dy := ⟨Nat.sqrt (2 ^ 800 / m), -400 - e / 2⟩
      let q := f.spacing y
      let ok := fun w => match finOf w with
        | some z =>
          let lo := z.add (ulpAt q).neg
          let hi := z.add (ulpAt q)
          !(hi.lt ⟨0, 0⟩) && (lo.lt ⟨0, 0⟩ || !(Dy.lt ⟨1, 0⟩ ((lo.mul lo).mul v)))
            && !(((hi.mul hi).mul v).lt ⟨1, 0⟩)
        | none => false
      chosen (Config.rsqPick (BitVec.ofNat 32 a)).toNat ok (fpRne f false y)

/-- R95: one level of the pairwise tree; an odd last value passes unchanged. -/
def treeLevel (op : Nat → Nat → Nat) : List Nat → List Nat
  | a :: b :: xs => op a b :: treeLevel op xs
  | xs => xs

def treeReduce (op : Nat → Nat → Nat) : Nat → List Nat → Nat
  | 0, xs => xs.headD 0
  | n + 1, xs => match xs with
    | [] => 0
    | [a] => a
    | _ => treeReduce op n (treeLevel op xs)

end Sys2Proof.Machine
end

