-- ==== Sys2Proof/Machine/State.lean ====
section
/-! DEFINITION. The state of the module: plain data, one structure per block of the manual, the waiting
commands first. Every field's default is its value at reset. -/

namespace Sys2Proof.Machine

/-- A sparse table: keys strictly rising, and no entry equal to the table's default. -/
abbrev FMap (β : Type) := List (Nat × β)

/-! ### Common parts -/

/-- Interrupt and error words of one page's common header (R529). -/
structure Hdr where
  stat : Word := 0
  en : Word := 0
  trans : Word := 0
  perm : Word := 0
  deriving DecidableEq, Repr

/-- What the module last answered on the interface that a command came in on: a register read's value, a
refusal of the access (Unsupported Request), the status and result of a request, or bytes sent back. -/
structure Reply where
  unsupported : Bool := false
  status : Option Status := none
  value : DWord := 0
  bytes : List Byte := []
  deriving DecidableEq, Repr

/-! ### Cores (chapters 03 and 04) -/

/-- The states of a weight bank (R82). -/
inductive BankSt where
  | idle | active | draining
  deriving DecidableEq, Repr

/-- A weight bank: its state, VALID, pairing row, weight set as it was loaded (empty: all registers zero),
and its place in the order of loads (R82, R118). -/
structure Bank where
  st : BankSt := .idle
  valid : Bool := false
  pair : BitVec 4 := 0
  set : List Byte := []
  order : Nat := 0
  deriving DecidableEq, Repr

/-- PSTATE of CORE_SEQ_STAT (R107). -/
inductive PState where
  | idle | run | waitBarrier | waitTokens | waitArb | halted | commit | wipe
  deriving DecidableEq, Repr

/-- An instruction that has issued and not completed: its word index, its unit (0 weight load engine, 1 grid,
2 anchor file, 3 vector unit, 4 block move engine, 5 barrier unit), its word, whether its unit has carried it
out, the bank a WLD loads, and the pitch-memory bytes it writes (R100, R101). -/
structure Flight where
  pc : Nat
  unit : Fin 6
  word : DWord
  done : Bool := false
  bank : Option Bool := none
  wr : Option (Nat × Nat) := none
  deriving DecidableEq, Repr

/-- A region entry of a descriptor (R110). -/
structure Region where
  base : DWord
  len : Word
  kind : BitVec 2
  deriving DecidableEq, Repr

/-- A pitch descriptor (R108). -/
structure PitchDesc where
  id : DWord
  progBase : DWord
  progLen : BitVec 16
  fw : Bool
  budget : Word
  energy : Word
  regions : List Region
  deriving DecidableEq, Repr

/-- A submitted pitch: its descriptor, context, logical core, command (none for a firmware pitch of the camp
cores), the runs made and the energy debited over them (R143, R336). -/
structure PitchJob where
  desc : PitchDesc
  ctx : CtxId
  lcore : Byte
  src : Option CmdSrc
  runs : Nat := 0
  tokens : Nat := 0
  reissue : Bool := false
  deriving DecidableEq, Repr

/-- A staged MOV OUT: region, line offset, pitch-memory line, lines (R126). -/
structure OutMove where
  reg : BitVec 3
  roff : BitVec 26
  pml : BitVec 15
  lines : Nat
  deriving DecidableEq, Repr

/-- A staged SND (R128). -/
structure SndMove where
  node : BitVec 16
  vl : BitVec 2
  ch : BitVec 4
  pml : BitVec 15
  lines : Nat
  deriving DecidableEq, Repr

/-- The pitch in flight on a core. -/
structure Run where
  job : PitchJob
  fetched : Bool := false
  granted : Bool := false
  started : Bool := false
  ended : Bool := false
  /-- The ordinal of the next conversion instruction (R68). -/
  ord : BitVec 16 := 0
  inx : Bool := false
  sat : Bool := false
  nan : Bool := false
  residue : Bool := false
  /-- Energy the run has debited, D of R330, and the top-ups of R333. -/
  debited : Nat := 0
  extra : Nat := 0
  flights : List Flight := []
  /-- A local WAT holds issue for these units (R131). -/
  waitUnits : Option (BitVec 5) := none
  outs : List OutMove := []
  snds : List SndMove := []
  sigs : List (BitVec 6 × BitVec 16) := []
  /-- Lines taken so far from each channel (R128). -/
  taken : FMap Nat := []
  /-- The 1 KiB units of pitch memory written (R203). -/
  wrote : List Nat := []
  deriving DecidableEq, Repr

/-- CORE_MAP.STATE (R107). -/
inductive CoreSt where
  | reserve | active | fenced | wiping
  deriving DecidableEq, Repr

/-- One physical core. -/
structure Core where
  pm : List Host.Cell := []
  bankA : Bank := {}
  bankB : Bank := {}
  loads : Nat := 0
  anc : FMap Anchor := []
  vec : FMap (List Word) := []
  ibuf : List DWord := []
  nextBuf : List DWord := []
  pstate : PState := .idle
  lastStatus : Status := .ok
  pc : BitVec 16 := 0
  pitchId : DWord := 0
  idHi : Word := 0
  cycles : Word := 0
  wdog : BitVec 17 := 0
  run : Option Run := none
  next : Option PitchJob := none
  nextFetched : Bool := false
  ancStat : BitVec 4 := 0
  unchk : Word := 0
  nanres : Word := 0
  pmStall : Word := 0
  errCause : Byte := 0
  parAddr : BitVec 24 := 0
  parV : Bool := false
  deriving DecidableEq, Repr

/-- What the camp cores, the arbiter and the thermal block hold of a core beside its datapath: its map entry,
the sequencer holds, its token balance, its allowance and its error history. -/
structure CoreCtl where
  st : CoreSt := .reserve
  logical : Byte := 0xFF
  owner : Option CtxId := none
  /-- BLK_CTL.HALT, DBG_CTL.HALT, and the hold reached (R107, R491). -/
  halt : Bool := false
  dbgHalt : Bool := false
  halted : Bool := false
  busyInit : Bool := false
  wiping : Bool := false
  wiped : Bool := false
  switching : Bool := false
  /-- GRANT_LEFT, and the carry and installments of this epoch (R325, R331). -/
  bal : Nat := 0
  epochGrants : Nat := 0
  /-- The grants of the epoch before (R339). -/
  lastGrants : Nat := 0
  /-- The core awaits the first installment of a run. -/
  firstReq : Bool := false
  allow : BitVec 12 := 0
  guarded : Bool := false
  /-- Timestamps of the last events counted against the core (R224). -/
  events : List DWord := []
  diodeFault : Bool := false
  stepping : Bool := false
  deriving DecidableEq, Repr

/-! ### Ledge, mesh and HBM (chapter 05) -/

/-- A Ledge bank (LEDGE_BANK, R151, R225). -/
structure LBank where
  st : Fin 4 := 0
  ce : BitVec 16 := 0
  ceTs : List DWord := []
  failTs : List DWord := []
  ptr : BitVec 15 := 0
  deriving DecidableEq, Repr

structure LedgeBlk where
  mem : List Host.Cell := []
  poison : List Nat := []
  banks : FMap LBank := []
  /-- Spares in use, by slice × 2 + die. -/
  sparesUsed : List Nat := []
  sel : BitVec 12 := 0
  deriving DecidableEq, Repr

/-- One direction of a mesh link (MESH_LINK, R225). -/
structure Link where
  retired : Bool := false
  hopErr : BitVec 16 := 0
  hopTs : List DWord := []
  failTs : List DWord := []
  deriving DecidableEq, Repr

/-- A block on the mesh (R157). -/
structure MeshBlk where
  hdr : BitVec 128
  payload : List Byte
  deriving DecidableEq, Repr

structure MeshState where
  links : FMap Link := []
  refetch : Word := 0
  failed : Word := 0
  noRoute : Bool := false
  selStop : BitVec 9 := 0
  selDir : BitVec 3 := 0
  /-- The blocks that the last mesh command sent on, with the direction each left by. -/
  sent : List (Fin 5 × MeshBlk) := []
  deriving DecidableEq, Repr

/-- An HBM pseudo-channel (HBM_PC_STAT, R166–R170). -/
structure PChan where
  st : Fin 4 := 0
  failTs : List DWord := []
  ceTs : List DWord := []
  ptr : BitVec 23 := 0
  /-- Runs of HBM space blocks written whole since the pseudo-channel was poisoned in place (R170, R171). -/
  mended : List (Nat × Nat) := []
  deriving DecidableEq, Repr

structure HbmBlk where
  mem : List Host.Cell := []
  poison : List Nat := []
  pcs : FMap PChan := []
  /-- The pseudo-channels remapped, in the order of their retirement (R167, R168). -/
  retOrder : List Nat := []
  sel : FMap (BitVec 5) := []
  deriving DecidableEq, Repr

/-- A request in an arbiter's pending queue: its arrival number at the head and whether it is aged. -/
structure ArbReq where
  t : Nat
  aged : Bool := false
  deriving DecidableEq, Repr

/-- An arbiter instance (R172–R176, R183). `none` in a control field is the default of R179. -/
structure ArbInst where
  maxHold : Option (BitVec 16) := none
  ageLimit : Option (BitVec 16) := none
  /-- Priorities by requester, as written. -/
  prio : FMap (Option (BitVec 3)) := []
  queues : FMap (List ArbReq) := []
  holder : Option Nat := none
  heldPrio : Option (BitVec 3) := none
  last : FMap Nat := []
  clock : Nat := 0
  cut : Bool := false
  cuts : Word := 0
  aged : Word := 0
  deriving DecidableEq, Repr

/-- The arbiter group's select register and last cut-off of one page (R183). -/
structure ArbSel where
  inst : BitVec 12 := 0
  req : Byte := 0
  lastReq : Byte := 0
  lastInst : BitVec 12 := 0
  deriving DecidableEq, Repr

/-! ### Contexts (chapter 06) -/

/-- The states of a context (R187). -/
inductive CtxSt where
  | disabled | enabled | draining | scrubbing
  deriving DecidableEq, Repr

structure Ctx where
  st : CtxSt := .disabled
  ovr : Bool := false
  vfail : Bool := false
  drainStart : DWord := 0
  hbmBase : BitVec 13 := 0
  hbmSize : BitVec 13 := 0
  /-- Ledge map entries: bit 15 VALID, bits [11:0] the granule (R148), with the values that wait (R186). -/
  lmap : FMap (BitVec 16) := []
  lmapPend : FMap (Option (BitVec 16)) := []
  lmapIdx : BitVec 11 := 0
  saveEntry : BitVec 11 := 0
  savev : Bool := false
  quota : BitVec 9 := 0
  cap : BitVec 16 := 0
  capPend : Option (BitVec 16) := none
  ports : BitVec 16 := 0
  prio : BitVec 3 := 3
  prioPend : Option (BitVec 3) := none
  team : BitVec 192 := 0
  teamPend : Option (BitVec 192) := none
  bars : FMap Word := []
  barIdx : BitVec 6 := 0
  progress : BitVec 10 := 0
  scrubActive : Bool := false
  /-- Pitches submitted and not started, in submission order (R194). -/
  queue : List PitchJob := []
  /-- Switched-out pitches, by logical core, with the core's storage that the save record holds (R203). -/
  saved : FMap (Option Core) := []
  /-- Sequence slots of a disabled context that become free at the next boundary (R34). -/
  freeing : Bool := false
  deriving DecidableEq, Repr

/-- A slot-table entry (R191). -/
structure SlotEnt where
  mask : BitVec 16 := 0
  len : BitVec 16 := 5
  deriving DecidableEq, Repr

/-- A sequence slot: FREE (none), or held by a context, RELEASING or BOUND (R210). -/
structure SeqSlot where
  ctx : Option CtxId := none
  releasing : Bool := false
  deriving DecidableEq, Repr

structure CtxBlk where
  ctxs : FMap Ctx := []
  sel : BitVec 4 := 0
  refReason : BitVec 4 := 0
  refCtx : BitVec 4 := 0
  live : FMap SlotEnt := []
  shadow : FMap SlotEnt := []
  liveCnt : BitVec 7 := 1
  shadowCnt : BitVec 7 := 1
  livePend : Option (BitVec 7) := none
  cur : BitVec 6 := 0
  curEnt : SlotEnt := {}
  left : BitVec 24 := 0
  swap : Bool := false
  sqs : FMap SeqSlot := []
  sqSel : Byte := 0
  deriving DecidableEq, Repr

/-! ### Fencing (chapter 07) -/

/-- A stop record, or a RESIDUE completion held back (R142, R228). -/
structure StopRec where
  core : Nat
  job : PitchJob
  residue : Bool
  /-- Whether it counts against the core (a stop under R195, R207 or R238 does not). -/
  counted : Bool
  record : List Byte
  /-- The source that detected it, a bit number of CORE_ERR_CAUSE (R226). -/
  source : Nat := 0
  deriving DecidableEq, Repr

structure FenceBlk where
  stops : List StopRec := []
  /-- Re-issues that await a core (R229, rule 3). -/
  waiting : List PitchJob := []
  /-- Fenced logical numbers that have no physical core (R235), with the core that was fenced. -/
  unbacked : List (Nat × Nat) := []
  logicalCount : Nat := 0
  deriving DecidableEq, Repr

/-! ### Ikinum fabric (chapter 08) -/

/-- The states of a port, in the coding of BLK_STAT (R247, R284). -/
inductive PortSt where
  | down | training | keying | up | degraded | failed | reset
  deriving DecidableEq, Repr

/-- The counters of one virtual lane of a port (R258). -/
structure VlState where
  k : Word := 0
  sSent : Word := 0
  sCred : Word := 0
  rRecv : Word := 0
  rFreed : Word := 0
  rRet : Word := 0
  deriving DecidableEq, Repr

/-- A block that waits for its virtual lane's credit, with the context it originates from, if local. -/
structure TxBlk where
  blk : FabBlock
  origin : Option CtxId
  deriving DecidableEq, Repr

/-- A run in the retry buffer (R252–R254): its first LSEQ, its blocks as they were sent, the same blocks before
encryption, its tag, and how often it was resent. -/
structure FabRun where
  first : BitVec 12
  blocks : List FabBlock
  plain : List TxBlk
  tag : BitVec 128
  resent : Nat := 0
  deriving DecidableEq, Repr

/-- A link control word as it was sent (R251). -/
inductive Lcw where
  | ackcr (last : BitVec 12) (credits : List Nat)
  | nak (lseq : BitVec 12)
  | tag (lseq : BitVec 12) (len : Nat) (tag : BitVec 128)
  | audit (vl : Nat) (k sSent sCred : Word) (lseq : BitVec 12)
  | reset (cause : Byte) (last : BitVec 12) (occ : List Nat)
  | resetAck (last : BitVec 12) (occ : List Nat)
  | lanes (mask : BitVec 4)
  | key (ct : Bool) (body : List Byte)
  deriving DecidableEq, Repr

structure Port where
  st : PortSt := .down
  en : Bool := false
  retrain : Bool := false
  rotate : Bool := false
  dateline : Bool := false
  lanesUp : BitVec 4 := 0
  lanesRet : BitVec 4 := 0
  ke : Bool := false
  rxKe : Bool := false
  attempts : Nat := 0
  partnerNode : BitVec 16 := 0
  partnerPort : BitVec 4 := 0
  partnerV : Bool := false
  credits : FMap (BitVec 10) := []
  vls : FMap VlState := []
  retries : Word := 0
  laneUnc : FMap (BitVec 16) := []
  laneTs : FMap (List DWord) := []
  mismatch : BitVec 16 := 0
  lastVl : BitVec 2 := 0
  audits : Word := 0
  rotations : Word := 0
  tagFail : Word := 0
  tagTs : List DWord := []
  returned : Word := 0
  /-- Sender: the next LSEQ, the retry buffer in runs, the blocks queued for credit. -/
  nextLseq : BitVec 12 := 0
  retry : List FabRun := []
  txq : List TxBlk := []
  /-- Receiver: the next LSEQ expected, and the accepted blocks that hold buffers. -/
  rxExp : BitVec 12 := 0
  rxBuf : List FabBlock := []
  /-- An AUDIT that waits for the run that ends with its LSEQ: VL, K, S_sent, S_cred, LSEQ (R259). -/
  auditWait : List (Nat × Word × Word × Word × BitVec 12) := []
  /-- Per direction: the key is established, how many keys came before it, and the runs under it (R275). -/
  txReady : Bool := false
  rxReady : Bool := false
  txGen : Nat := 0
  rxGen : Nat := 0
  txRuns : DWord := 0
  rxRuns : DWord := 0
  /-- A rotation of the transmit direction: in progress, the new key derived, and the first LSEQ sent under it;
  and the new key of the receive direction held (R276). -/
  rotating : Bool := false
  txNext : Bool := false
  newFirst : Option (BitVec 12) := none
  rxNext : Bool := false
  /-- A reset of the port (R260): whether RESET was exchanged, was sent by another port, and whether the port
  retrains or is disabled after it. -/
  exchanged : Bool := false
  viaOther : Bool := false
  retrainAfter : Bool := false
  disabling : Bool := false
  /-- The partner's occupied buffers as the exchange reported them. -/
  partnerOcc : FMap Nat := []
  /-- The last control words the port sent. -/
  lcws : List Lcw := []
  deriving DecidableEq, Repr

/-- A receive channel (R266). -/
structure Chan where
  addr : DWord := 0
  size : BitVec 16 := 0
  broken : Bool := false
  en : Bool := false
  wp : Word := 0
  rp : Word := 0
  /-- Blocks that wait for space, with the port whose buffer each holds. -/
  waiting : List (FabBlock × Option PortId) := []
  deriving DecidableEq, Repr

/-- A collective in flight (R271–R273): its descriptor, its command, the bytes received so far by source rank and
block index (for ALLGATHER by origin rank), what it combined or received, and the status that gives. -/
structure Coll where
  op : Nat
  dtype : Nat
  root : Nat
  src : DWord
  dst : DWord
  count : Nat
  cmd : CmdSrc
  own : List Byte := []
  up : FMap (FMap (List Byte)) := []
  down : FMap (FMap (List Byte)) := []
  combined : Option (List Byte) := none
  result : FMap (Option (List Byte)) := []
  status : Status := .ok
  deriving DecidableEq, Repr

/-- A window copy in flight (R274). -/
structure WinCopy where
  cmd : CmdSrc
  ctx : CtxId
  write : Bool
  node : BitVec 16
  addr : DWord
  /-- The first window block, and the blocks not yet answered. -/
  first : Nat
  left : List Nat
  deriving DecidableEq, Repr

/-- A delivery record being gathered (R269). -/
structure DlvRec where
  ctx : CtxId
  node : BitVec 16
  job : BitVec 12
  ch : BitVec 4
  vl : BitVec 2
  reason : BitVec 4
  unknown : Bool
  count : Word
  first : DWord
  deriving DecidableEq, Repr

/-- Per context fabric registers (R285). -/
structure FabCtx where
  job : BitVec 12 := 0
  rank : BitVec 15 := 0
  valid : Bool := false
  grp : BitVec 23 := 0
  grpN : BitVec 16 := 0
  winBase : BitVec 12 := 0
  winSize : BitVec 13 := 0
  winEn : Bool := false
  chans : FMap Chan := []
  colls : FMap (Option Coll) := []
  /-- Slots whose last collective was aborted (R273). -/
  abortedSlots : List Nat := []
  deriving DecidableEq, Repr

/-- A block that a route hold keeps back, with the context or the port it came from (R263). -/
structure HeldBlk where
  node : BitVec 16
  blk : FabBlock
  origin : Option CtxId
  inPort : Option PortId
  deriving DecidableEq, Repr

structure FabState where
  ports : FMap Port := []
  node : BitVec 16 := 0
  nodeV : Bool := false
  torus : Bool := false
  hold : BitVec 20 := 100
  rtIdx : BitVec 16 := 0
  routes : FMap (BitVec 16) := []
  /-- Route entries whose new blocks are held, and the blocks held (R263). -/
  holding : List Nat := []
  held : List HeldBlk := []
  cselCtx : BitVec 4 := 0
  cselCh : BitVec 4 := 0
  ctxs : FMap FabCtx := []
  undeliv : Word := 0
  copies : List WinCopy := []
  dlv : List DlvRec := []
  deriving DecidableEq, Repr

/-! ### Host attachment (chapter 09) -/

/-- A submission ring (R298–R301). -/
structure SqRing where
  base : DWord := 0
  log2 : BitVec 5 := 0
  cq : BitVec 2 := 0
  en : Bool := false
  head : BitVec 16 := 0
  tail : BitVec 16 := 0
  st : BitVec 2 := 0
  err : BitVec 4 := 0
  /-- Ring indices of commands consumed and not completed. -/
  inFlight : List (BitVec 16) := []
  deriving DecidableEq, Repr

/-- A completion ring. -/
structure CqRing where
  base : DWord := 0
  log2 : BitVec 5 := 0
  vec : BitVec 7 := 0
  coalCnt : Byte := 0
  en : Bool := false
  limit : BitVec 16 := 0
  tail : BitVec 16 := 0
  err : Bool := false
  coalTime : BitVec 10 := 0
  since : Nat := 0
  deriving DecidableEq, Repr

/-- A completion record in a holding queue (R307, R309). -/
structure HoldRec where
  cq : BitVec 2
  kind : Byte
  sq : Byte
  index : BitVec 16
  tag : Word
  record : List Byte
  deriving DecidableEq, Repr

/-- The states of a TDI (R312, R319). -/
inductive Tdi where
  | unlocked | locked | run | error
  deriving DecidableEq, Repr

/-- An MSI-X vector: address, data, mask and pending bits, and the messages sent (R289, R310). -/
structure MsixVec where
  addr : DWord := 0
  data : Word := 0
  masked : Bool := true
  pending : Bool := false
  sent : Nat := 0
  deriving DecidableEq, Repr

structure FnHost where
  sqs : FMap SqRing := []
  cqs : FMap CqRing := []
  hold : List HoldRec := []
  reserved : Nat := 0
  tdi : Tdi := .unlocked
  dlvLost : Word := 0
  winRefused : Word := 0
  vecs : FMap MsixVec := []
  flr : Bool := false
  /-- NOPs that wait for every earlier descriptor of their ring: ring, index and tag. -/
  nops : List CmdSrc := []
  deriving DecidableEq, Repr

/-- The states of a window page (R291). -/
inductive PageSt where
  | none | host | device
  deriving DecidableEq, Repr

structure WinPage where
  st : PageSt := .none
  target : BitVec 18 := 0
  pend : Option PageSt := Option.none
  deriving DecidableEq, Repr

/-- A WPAGE command whose pages have not all changed. -/
structure WPageCmd where
  cmd : CmdSrc
  pages : List Nat
  deriving DecidableEq, Repr

structure HostBlk where
  fns : FMap FnHost := []
  pages : FMap WinPage := []
  wcmds : List WPageCmd := []
  mem : List Host.Cell := []
  up : Bool := false
  rate : BitVec 2 := 0
  width : BitVec 5 := 0
  flit : Bool := false
  linkRst : Word := 0
  ideLink : Bool := false
  ideSel : BitVec 4 := 0
  ideKeys : List Nat := []
  /-- Fatal AER errors reported (R311). -/
  aerFatal : Nat := 0
  winIdx : BitVec 13 := 0
  deriving DecidableEq, Repr

/-- The GLOBAL page and the interrupt routes (R533, R537–R541). A route is bit 7 EN and bits [6:0] VEC. -/
structure GlobBlk where
  ready : Bool := false
  capGen : Word := 0
  tsHi : Word := 0
  pend : BitVec 26 := 0
  /-- Route values written, where they differ from the reset value (VEC = s + 1, EN = 1). -/
  routes : FMap (Option Byte) := []
  deriving DecidableEq, Repr

/-! ### Power tokens (chapter 10) -/

/-- The five cap registers (R322, R353). -/
structure Caps where
  board : BitVec 12 := 4095
  cool : BitVec 12 := 0
  socket : BitVec 12 := 4095
  acoust : BitVec 12 := 4095
  thr : BitVec 12 := 4095
  deriving DecidableEq, Repr

/-- The class reservations left in the epoch, in 1/256 token (R327). -/
structure ClassRes where
  hbm : FMap Nat := []
  ledge : FMap Nat := []
  mesh : Nat := 0
  fab : FMap Nat := []
  hostl : Nat := 0
  deriving DecidableEq, Repr

structure PwrBlk where
  b : BitVec 12 := 0
  free : Nat := 0
  granted : Nat := 0
  latched : BitVec 24 := 0
  epoch : Word := 0
  bind : BitVec 3 := 0
  fallback : Bool := false
  fallbackNext : Bool := false
  trip : Bool := false
  throttle : Bool := false
  throttlePin : Bool := false
  tripEnd : Bool := false
  /-- Caps as written and not committed, as committed, and as in force at the last boundary. -/
  caps : Caps := {}
  committed : Caps := {}
  hbSeq : BitVec 16 := 0
  hbTs : Option DWord := none
  hbGood : Nat := 0
  meas : BitVec 24 := 0
  fixedBase : Option (BitVec 12) := none
  lossPm : BitVec 10 := 65
  resHbm : Byte := 35
  resLedge : Byte := 125
  resMesh : Option (BitVec 10) := none
  resFab : Byte := 12
  resHostl : Byte := 25
  srMax : BitVec 10 := 500
  epochMax : Byte := 8
  minInst : Byte := 64
  reserve : Byte := 128
  guardT : Byte := 105
  guardRel : Byte := 102
  /-- METER_K × 1024 and the last r of R341 while METER_SAT is set, as a numerator over a denominator. -/
  meterK : BitVec 11 := 1024
  meterSat : Bool := false
  lastR : Nat × Nat := (1, 1)
  /-- Measured energies of the last ten updates, and debits and F since each (R341). -/
  measHist : List Nat := []
  debitHist : List Nat := []
  debitNow : Nat := 0
  trips : Word := 0
  overest : Word := 0
  thermRef : Word := 0
  selCtx : BitVec 4 := 0
  selCore : Byte := 0
  ctxE : FMap DWord := []
  sysE : DWord := 0
  ctxHi : Word := 0
  sysHi : Word := 0
  /-- B of the preceding epochs, run-length coded, newest first: value and count (R322). -/
  hist : List (Nat × Nat) := []
  resv : ClassRes := {}
  /-- Grants to each context's cores in the epoch. -/
  ctxGrants : FMap Nat := []
  stackAllow : FMap (Option Nat) := []
  deriving DecidableEq, Repr

/-! ### Security and debug (chapter 15) -/

/-- What the module keeps of a sealed context (R477–R483): the range in 2 MiB units, the epochs whose keys are
present, the offer that waits for its package, the manifest's facts, and the epoch of each loaded page. -/
structure SecCtx where
  telem : Option (BitVec 2) := none
  telemPend : Option (BitVec 2) := none
  sealedCtx : Bool := false
  base : BitVec 18 := 0
  size : BitVec 18 := 0
  cur : Option Byte := none
  prev : Option Byte := none
  /-- The page keys of the current and the previous epoch. -/
  curKey : List Byte := []
  prevKey : List Byte := []
  offered : Option Byte := none
  offer : List Byte := []
  vendorKey : List Byte := []
  model : List Byte := []
  pageCount : Nat := 0
  loaded : FMap (Option Byte) := []
  perEpoch : FMap Nat := []
  complete : Bool := false
  /-- The context has started a pitch since it was enabled (R478). -/
  started : Bool := false
  deriving DecidableEq, Repr

/-- An SPDM session (R470): whether it is open, its handshake is finished, and how often its keys were updated. -/
structure Session where
  isOpen : Bool := false
  authed : Bool := false
  keyGen : Nat := 0
  deriving DecidableEq, Repr

/-- The readings of a core as they stood at the last 1 s boundary (R484). -/
structure Snapshot where
  pitchId : DWord := 0
  cycles : Word := 0
  gridStat : Word := 0
  token : Word := 0
  ancStat : Word := 0
  unchk : Word := 0
  nanres : Word := 0
  pmStall : Word := 0
  deriving DecidableEq, Repr

structure SecBlk where
  ctxs : FMap SecCtx := []
  fuseLock : Bool := false
  akValid : Bool := false
  trngFailX : Bool := false
  trngFailC : Bool := false
  zeroed : Bool := false
  life : BitVec 3 := 2
  profileRow : Bool := false
  cairnFloor : BitVec 6 := 0
  campFloor : BitVec 6 := 0
  cairnRun : BitVec 6 := 0
  campRun : BitVec 6 := 0
  telemU : BitVec 2 := 1
  telemP : BitVec 1 := 1
  fabAttest : Bool := false
  autoFloor : Bool := true
  dbgMem : Bool := false
  ctxSel : BitVec 4 := 0
  tagFail : Word := 0
  doe : FMap Session := []
  i3c : FMap Session := []
  snaps : FMap Snapshot := []
  /-- Sums over the running interval with their counts, by quantity × 256 + core: 0 TEMP, 1 USED, 2 REF, 3 the forecast,
  4 the margin, 5 the allowance; and the means of the last completed interval (R484). -/
  sums : FMap (Int × Nat) := []
  means : FMap Int := []
  /-- Energy of completed intervals as COARSE shows it, and the counter at the last boundary. -/
  ctxCoarse : FMap DWord := []
  ctxMark : FMap DWord := []
  deriving DecidableEq, Repr

/-- A trace ring of 2,048 records (R487). -/
structure TraceRing where
  wr : BitVec 11 := 0
  recs : FMap (List Byte) := []
  deriving DecidableEq, Repr

structure DbgBlk where
  sel : Byte := 0
  tracing : List Nat := []
  rings : FMap TraceRing := []
  addrLo : Word := 0
  addrHi : BitVec 16 := 0
  space : BitVec 4 := 0
  dataHi : Word := 0
  zeroed : Bool := false
  traceIdx : BitVec 11 := 0
  deriving DecidableEq, Repr

/-! ### Time, pins and the module as a whole (chapters 00, 01 and 18) -/

/-- Time, the module's variant, and the conditions of its supply. -/
structure Env where
  variant : Variant := .m740
  /-- The module timestamp and the compute die's copy (R23, R24). -/
  ts : DWord := 0
  tsCopy : DWord := 0
  holdover : Bool := false
  /-- The compute rails are enabled, and the compute die is out of reset (R15, R554). -/
  rails : Bool := false
  dieUp : Bool := false
  deriving DecidableEq, Repr

/-- An event entry in the mailbox's event port (R498, R513). -/
structure Evt where
  code : BitVec 16
  value : BitVec 16
  arg : DWord
  ts : DWord
  holdover : Bool
  deriving DecidableEq, Repr

/-- The event port of the MBOX page (R498). -/
structure EvtPort where
  queue : List Evt := []
  overflow : Word := 0
  deriving DecidableEq, Repr

/-! ### Thermal sensing and the coolant path (chapter 11) -/

/-- A reading of a sensor with its marks (R354–R359), the time its pair has diverged being the sender's to say. -/
structure Sensor where
  temp : BitVec 12 := 0
  valid : Bool := false
  suspect : Bool := false
  fault : Bool := false
  deriving DecidableEq, Repr

/-- The model's values at a site (R361): the bias b, the margin M, the used value u, the reference, the forecast,
the forecasts of the last 50 updates (newest first), and X. -/
structure Site where
  b : Rat := 0
  m : Rat := 0
  u : Rat := 0
  ref : Rat := 0
  f : Rat := 0
  hist : List Rat := []
  x : Rat := 0
  deriving DecidableEq, Repr

/-- The coolant readings as Cairn last committed them into the THM page (R368, R378). -/
structure CoolRegs where
  tin : BitVec 12 := 0
  tout : BitVec 12 := 0
  qeff : BitVec 16 := 0
  qdp : BitVec 16 := 0xFFFF
  dp : BitVec 12 := 0
  /-- THM_COOL_STAT. -/
  stat : BitVec 10 := 0
  deriving DecidableEq, Repr

structure ThmBlk where
  run : Bool := false
  silent : Bool := false
  nosense : Bool := false
  selIdx : Byte := 0
  selKind : BitVec 3 := 0
  tjTarget : Byte := 100
  hbmTarget : Byte := 95
  updates : Word := 0
  modelIdx : BitVec 20 := 0
  model : FMap Word := []
  /-- The open-loop state of the 250 nodes (R360, R361). -/
  x : FMap Rat := []
  sites : FMap Site := []
  hotF : BitVec 12 := 0
  hotSite : Byte := 0
  /-- Sensors: 0–207 core diodes, 208–239 die-edge diodes, 240–243 Ledge sensors, 244–251 stacks. -/
  sensors : FMap Sensor := []
  /-- Energy each unit debited since the last update (R361, p): cores 0–207, stacks 208–215, the Ledge 216, the mesh 217,
  fabric ports from 218. -/
  debits : FMap Nat := []
  regs : CoolRegs := {}
  deriving DecidableEq, Repr

/-- The coolant supervisor's states (R371), in the coding of THM_COOL_STAT. -/
inductive CoolSt where
  | off | proving | normal | low | stopped | shutdown
  deriving DecidableEq, Repr

/-- The coolant supervisor in Cairn (R367–R375). Temperatures in 1/16 °C, flows in mL/min, ΔP in 0.1 kPa. -/
structure CoolSup where
  st : CoolSt := .off
  tin : Int := 800
  tout : Int := 0
  qeff : Nat := 0
  qdp : Option Nat := none
  dp : Nat := 0
  /-- The last 60 samples of Q_eff, newest first. -/
  hist : List Nat := []
  /-- Samples that the open window has lasted; `none` while no window is open (R369). -/
  window : Option Nat := none
  proofFailed : Bool := false
  /-- When the last three automatic proofs began, newest first (R375). -/
  autoTs : List DWord := []
  /-- Q_eff 50 ms before a sudden stop, and the samples it has since recovered for (R373, R374). -/
  stopRef : Nat := 0
  good : Nat := 0
  rampTs : Option DWord := none
  /-- Pump channels that step 4 of R373 drives at maximum. -/
  maxed : List Nat := []
  stopTs : DWord := 0
  /-- When the last proof and the last shutdown for coolant began (R369, R375). -/
  proofTs : DWord := 0
  shutTs : DWord := 0
  implaus : Bool := false
  tinHigh : Bool := false
  tinLow : Bool := false
  /-- Samples for which Q_cap has stayed below FLOW_MIN (R372). -/
  lowFor : Nat := 0
  /-- The mark of ΔP's pair and of the coolant sensors, by SENS input number (R357, R367). -/
  marks : FMap Sensor := []
  deriving DecidableEq, Repr

/-! ### The belay engine (chapter 12) -/

/-- A result between its latch and its output phase (R380), with what a capture entry holds. -/
structure SlotOut where
  u : BitVec 24 := 0
  y : BitVec 24 := 0
  inj : BitVec 24 := 0
  flags : BitVec 4 := 0
  capture : Bool := false
  /-- The slot drives its destination: it was not holding at the latch (R399). -/
  drive : Bool := true
  deriving DecidableEq, Repr

structure Slot where
  en : Bool := false
  hold : Bool := false
  bumpless : Bool := false
  div : Byte := 0
  feAct : BitVec 2 := 0
  phase : BitVec 14 := 0
  feTime : BitVec 16 := 0
  ysrc : Byte := 0
  rsrc : Byte := 0xFF
  dst : Byte := 0
  esig : Byte := 0
  ecoef : Byte := 0
  eterm : Byte := 0
  eout : Byte := 0
  kp : BitVec 24 := 0
  ki : BitVec 24 := 0
  kd : BitVec 24 := 0
  ka : BitVec 24 := 0
  kff : BitVec 24 := 0
  setpt : BitVec 24 := 0
  umin : BitVec 24 := 0x800000
  umax : BitVec 24 := 0x7FFFFF
  feLim : BitVec 23 := 0x7FFFFF
  out : BitVec 24 := 0
  /-- LOOP_INT, the integrator state i. -/
  int : BitVec 24 := 0
  d : BitVec 24 := 0
  yPrev : BitVec 24 := 0
  satSig : Bool := false
  satTerm : Bool := false
  satOut : Bool := false
  oclamp : Bool := false
  intStop : Bool := false
  feTrip : Bool := false
  holding : Bool := false
  clampHi : Bool := false
  clampLo : Bool := false
  active : Bool := false
  feCount : BitVec 16 := 0
  pend : Option SlotOut := none
  deriving DecidableEq, Repr

structure CaptEnt where
  inj : BitVec 24 := 0
  flags : BitVec 4 := 0
  y : BitVec 24 := 0
  u : BitVec 24 := 0
  pcount : BitVec 24 := 0
  deriving DecidableEq, Repr

/-- LOOP_REFUSE (R398). -/
structure Refuse where
  slot : BitVec 5 := 0
  page : Bool := false
  reg : BitVec 6 := 0
  reason : BitVec 3 := 0
  deriving DecidableEq, Repr

structure LoopBlk where
  run : Bool := false
  running : Bool := false
  /-- When RUN was last set, and LOOP_PCOUNT while the engine is stopped (R379). -/
  runTs : DWord := 0
  pcount : Word := 0
  slots : FMap Slot := []
  injSlot : BitVec 5 := 0
  injAt : Bool := false
  wave : BitVec 2 := 0
  go : Bool := false
  aborted : Bool := false
  holdp : Byte := 0
  amp : BitVec 24 := 0
  len : BitVec 24 := 0
  f0 : Word := 0
  f1 : Word := 0
  /-- The principal whose INJECT request authorises the next GO (R392). -/
  injAuth : Option (Fin 8) := none
  injActive : Bool := false
  injDone : Nat := 0
  lfsr : BitVec 15 := 0x7FFF
  phi : Word := 0
  decim : Byte := 0
  captDone : Bool := false
  captActive : Bool := false
  captSkip : Nat := 0
  capt : List CaptEnt := []
  captIdx : BitVec 14 := 0
  refuse : Refuse := {}
  /-- Ledger coefficients that wait for the slot's hold (R400, R511). -/
  held : List (Nat × BitVec 6 × Word) := []
  deriving DecidableEq, Repr

/-! ### Valve, pump and fan drives (chapter 13) -/

/-- PHASE of VLV_STAT (R435), in its coding. -/
inductive ValveSt where
  | idle | boost | peak | hold | pwm | off | deferred | fault
  deriving DecidableEq, Repr

structure Valve where
  on : Bool := false
  onEntry : BitVec 6 := 0
  offEntry : BitVec 6 := 0
  leak : BitVec 2 := 0
  leased : Bool := false
  hyst : Byte := 12
  r21 : BitVec 16 := 0
  rth : BitVec 16 := 0
  tau : BitVec 16 := 0
  iRed : BitVec 12 := 0
  amb : BitVec 3 := 0
  ambv : Bool := false
  pc : BitVec 6 := 0
  st : ValveSt := .idle
  reduced : Bool := false
  coilOt : Bool := false
  cur : BitVec 12 := 0
  /-- The low side is on, and the samples since it last changed (R411). -/
  low : Bool := false
  steady : Nat := 2
  /-- Coil temperature in °C; none until the channel is first set running (R414). -/
  tc : Option Rat := none
  defers : Word := 0
  deferMax : BitVec 16 := 0
  deferTs : DWord := 0
  leakTaken : Bool := false
  /-- The command whose program was started last (R432). -/
  prog : Bool := false
  ucode : FMap Word := []
  /-- The hold set-point of destination 0x60 + n, in mA. -/
  dest : BitVec 24 := 0
  deriving DecidableEq, Repr

/-- STATE of MTR_STAT (R435), in its coding; HELD is derived from the lease. -/
inductive MotorSt where
  | stopped | starting | running | max | blocked | driverFault
  deriving DecidableEq, Repr

structure Motor where
  mode : BitVec 2 := 0
  /-- MODE was written and awaits the next PWM period (R419). -/
  modeNew : Bool := false
  leased : Bool := false
  leakStop : Bool := false
  freq : BitVec 16 := 25000
  dead : Byte := 20
  vmax : BitVec 16 := 0xE000
  ilim : BitVec 16 := 0
  poles : BitVec 4 := 0
  ppr : BitVec 4 := 0
  rated : BitVec 16 := 0
  st : MotorSt := .stopped
  tries : BitVec 2 := 0
  /-- The gates are off between two attempts of a start (R420). -/
  pause : Bool := false
  /-- The start hands over to MAX, and has its response (R419, R420). -/
  thenMax : Bool := false
  response : Bool := false
  tach : BitVec 16 := 0
  est : BitVec 16 := 0
  id : BitVec 16 := 0
  iq : BitVec 16 := 0
  base : BitVec 16 := 0
  ratio : BitVec 12 := 0
  ref : BitVec 16 := 0
  tachBroken : Bool := false
  blockedF : Bool := false
  ageWarn : Bool := false
  ilimF : Bool := false
  drvFlt : Bool := false
  angle : BitVec 16 := 0
  /-- The gates are off for the rest of the PWM period (R417). -/
  cut : Bool := false
  /-- Destinations 0x40 + n and 0x48 + n; `live` is whether they hold a slot's output (R407). -/
  dDest : BitVec 24 := 0
  qDest : BitVec 24 := 0
  live : Bool := false
  pulses : List DWord := []
  lastAge : Option DWord := none
  leakStopped : Bool := false
  deriving DecidableEq, Repr

/-- A SENS input (R426–R428, R435). -/
structure Input where
  en : Bool := false
  mode : Bool := false
  supv : Bool := false
  p1 : BitVec 16 := 0
  p2 : BitVec 16 := 0
  value : BitVec 24 := 0
  raw : BitVec 16 := 0
  fault : Bool := false
  ends : Nat := 0
  conversions : Nat := 0
  pulses : List DWord := []
  deriving DecidableEq, Repr

/-- BAND of SENS_STAT, in its coding (R429). -/
inductive Band where
  | normal | marginal | leak | opened | notEvaluated
  deriving DecidableEq, Repr

structure Rope where
  en : Bool := false
  band : Band := .notEvaluated
  latch : Bool := false
  /-- When the rope last left the LEAK band; none while it has not been in it or is in it (R432). -/
  leftTs : Option DWord := none
  deriving DecidableEq, Repr

structure DriveBlk where
  vlvSel : BitVec 2 := 0
  valves : FMap Valve := []
  mtrSel : BitVec 3 := 0
  motors : FMap Motor := []
  ceil : BitVec 16 := 0xFFFF
  tslot : BitVec 5 := 0
  step : Option (BitVec 12) := none
  acMin : Option (BitVec 12) := none
  acap : Option (BitVec 12) := none
  /-- Whether CLAMP_HI was set, and clear with the output below 0.9 CEIL, in every computing period of TSLOT since the
  last step of the acoustic cap; and whether there was one (R425). -/
  hot : Bool := true
  cool : Bool := true
  windowSeen : Bool := false
  sensKind : BitVec 2 := 0
  sensIdx : BitVec 4 := 0
  /-- Inputs: AIN 0–15, FLOW at 16–19, TH at 32–39. -/
  inputs : FMap Input := []
  ropes : FMap Rope := []
  deriving DecidableEq, Repr

/-! ### Coolant bus and actuator lease (chapter 14) -/

/-- STATE of CBUS_ERR, in its coding (R462). -/
inductive CanSt where
  | init | active | passive | busOff | recovering | halted
  deriving DecidableEq, Repr

/-- A frame queued to send: identifier, payload, and when it was queued (R443). -/
structure TxFrame where
  id : BitVec 29
  payload : List Byte
  ts : DWord
  deriving DecidableEq, Repr

/-- A frame as a receive object or a shadow holds it (R441). -/
structure RxFrame where
  id : BitVec 29 := 0
  payload : List Byte := []
  ts : DWord := 0
  holdover : Bool := false
  deriving DecidableEq, Repr

structure RxObj where
  id : BitVec 29 := 0
  en : Bool := false
  mask : BitVec 29 := 0x1FFFFFFF
  full : Bool := false
  lost : Bool := false
  locked : Bool := false
  frame : RxFrame := {}
  shadow : Option RxFrame := none
  deriving DecidableEq, Repr

structure CanIf where
  init : Bool := true
  brs : Bool := true
  autorec : Bool := true
  listen : Bool := false
  nbt : Word := 4 + 30 * 2 ^ 5 + 7 * 2 ^ 13 + 7 * 2 ^ 20
  dbt : Word := 0 + 18 * 2 ^ 5 + 4 * 2 ^ 10 + 4 * 2 ^ 14 + 20 * 2 ^ 18 + 2 ^ 25
  txErr : BitVec 9 := 0
  rxErr : Byte := 0
  st : CanSt := .init
  ewl : Byte := 96
  boffs : List DWord := []
  rxUnm : Word := 0
  txDrop : Word := 0
  queue : List TxFrame := []
  /-- The last frame sent on the interface. -/
  sent : Option TxFrame := none
  objs : FMap RxObj := []
  /-- The start of the last TREF on the interface and its sender (R447). -/
  prevStart : Option (BitVec 6 × DWord) := none
  offset : DWord := 0
  offsetTs : Option DWord := none
  /-- The start-of-frame timestamp of the module's own last TREF on the interface. -/
  ownTref : DWord := 0
  /-- The interface was off INIT when holdover began (R437). -/
  resumeAfter : Bool := false
  deriving DecidableEq, Repr

/-- The duplicate-detection state of a sender (R451). -/
structure Sender where
  boot : Byte
  high : BitVec 16
  window : DWord
  last : DWord
  deriving DecidableEq, Repr

/-- STATE of CBUS_LEASE, in its coding (R454). -/
inductive LeaseSt where
  | unused | standby | claiming | holding | barred
  deriving DecidableEq, Repr

/-- A MIRROR message as stored (R449, R456): part, epoch, when accepted, entries (slot, set-point, integrator). -/
structure MirrorPart where
  part : Byte
  epoch : Word
  ts : DWord
  entries : List (SlotId × BitVec 24 × BitVec 24)
  deriving DecidableEq, Repr

structure Group where
  st : LeaseSt := .unused
  primary : Bool := false
  partner : BitVec 6 := 0
  epoch : Word := 0
  motors : BitVec 6 := 0
  valves : BitVec 4 := 0
  /-- The last renewal sent (holder) or accepted (others). -/
  renewTs : Option DWord := none
  /-- A lease of the group is live (R459, bit 5). -/
  live : Bool := false
  /-- A SECONDARY waits its 200 ms after an expiry (R456). -/
  waiting : Bool := false
  mirrors : List MirrorPart := []
  partnerHealth : Byte := 0
  healthTs : Option DWord := none
  heardTs : Option DWord := none
  deriving DecidableEq, Repr

structure CbusBlk where
  selIf : Bool := false
  selObj : BitVec 6 := 0
  selGroup : BitVec 2 := 0
  ifs : FMap CanIf := []
  dup : Word := 0
  addr : BitVec 6 := 0
  boot : Byte := 0
  seq : BitVec 16 := 0
  role : BitVec 2 := 0
  tmaster : Bool := false
  btimeValid : Bool := false
  srcB : Bool := false
  clash : Bool := false
  /-- When the last TREF of the PRIMARY was accepted (R446). -/
  primaryTs : Option DWord := none
  master : Option (BitVec 6) := none
  senders : FMap (Option Sender) := []
  groups : FMap Group := []
  ownHealth : Byte := 0
  /-- Leased channels hold a peer's leak entry (R453). -/
  peerLeak : Bool := false
  peerTs : DWord := 0
  btimeHi : Word := 0
  tsHi : Word := 0
  deriving DecidableEq, Repr

/-! ### Cairn, management and the hut book (chapter 16) -/

/-- The run states of Cairn (R495, R507, R554). -/
inductive CairnSt where
  | rom | running | recovery | stopped
  deriving DecidableEq, Repr

/-- A management role (R500). -/
inductive Role where
  | none | monitor | operator | service
  deriving DecidableEq, Repr

/-- The parameters that a ledger generation gives, with the defaults of the rules that name them: what Cairn
keeps of the generation in force beside the registers it writes (R511). -/
structure Policy where
  row : Bool := false
  node : Option (BitVec 16) := none
  socketCap : BitVec 12 := 4095
  thrCap : BitVec 12 := 4095
  autoBoard : Option (BitVec 12) := none
  flowMin : Nat := 1000
  proofMs : Nat := 2000
  timeoutMs : Nat := 30000
  /-- KQ in 0.1 W/(K·L/min), DT_RISE in 0.1 K, TIN_MAX and TIN_ZERO in 1/16 °C. -/
  kq : Nat := 663
  dtRise : Nat := 110
  tinMax : Nat := 720
  tinZero : Nat := 880
  qRef : Nat := 4000
  dpRef : Nat := 600
  digests : List (List Byte) := []
  roots : List (List Byte) := []
  /-- Principals: role and certificate digest (R500). -/
  roles : FMap Role := []
  certs : FMap (List Byte) := []
  mgmtRoot : List Byte := []
  deriving DecidableEq, Repr

/-- The plant's parameters that take effect at a standby reset (R511): pump channels, the duty and the standby pump with
the duty's flow slot, the inputs that serve each coolant quantity, and the plant peers. -/
structure Plant where
  pumps : List (Fin 6) := []
  duty : Option (Fin 6) := none
  spare : Option (Fin 6) := none
  dutySlot : Nat := 0
  inlet : List (Fin 8) := []
  outlet : List (Fin 8) := []
  flows : List (Fin 4) := []
  dp : Option (Fin 16) := none
  /-- ΔP in 0.1 kPa of a raw code: code × num ÷ den. -/
  dpNum : Nat := 1
  dpDen : Nat := 1
  /-- Inputs the ledger assigns, by SENS key, and those of the shared plant. -/
  assigned : List Nat := []
  shared : List Nat := []
  peers : List (BitVec 6) := []
  m500 : Bool := false
  deriving DecidableEq, Repr

/-- A ledger generation: its number and its entries, tag and value, in the order staged (R509). -/
structure Gen where
  num : Word := 0
  entries : List (BitVec 16 × List Byte) := []
  deriving DecidableEq, Repr

/-- An image area of Cairn's flash (R504, R505). -/
structure ImgArea where
  bytes : List Host.Cell := []
  /-- Bytes from offset 0 to the end of the last chunk written; 0 is an erased area. -/
  len : Nat := 0
  verified : Bool := false
  deriving DecidableEq, Repr

/-- A histogram slot (R513). -/
structure Hist where
  bins : FMap Word := []
  min : BitVec 16 := 0xFFFF
  max : BitVec 16 := 0
  last : BitVec 63 := 0
  holdover : Bool := false
  deriving DecidableEq, Repr

/-- What the hut book keeps in flash and in Cairn RAM (R513–R517). -/
structure Book where
  slots : FMap Hist := []
  drop : DWord := 0
  total : DWord := 0
  /-- Native: 32-byte records by position. M500: 4-byte units by position. -/
  ring : FMap (List Byte) := []
  wr : BitVec 20 := 0
  deriving DecidableEq, Repr

structure HutBlk where
  book : Book := {}
  /-- The book as last written to flash (R32, R516). -/
  flash : Book := {}
  /-- Record allowances used, and suppressed counts, by code (R515). -/
  used : FMap Nat := []
  supp : FMap Word := []
  selSlot : Byte := 0
  selBin : BitVec 4 := 0
  recIdx : BitVec 20 := 0
  lastHi : Word := 0
  dropHi : Word := 0
  totalHi : Word := 0
  m500 : Bool := false
  flushing : Bool := false
  clears : BitVec 16 := 0
  /-- The power-fail flush has begun: events are no longer counted (R35). -/
  powerFail : Bool := false
  deriving DecidableEq, Repr

/-- A half of the request mailbox (R496). -/
structure MboxHalf where
  req : FMap Word := []
  busy : Bool := false
  status : BitVec 4 := 0
  rsp : FMap Word := []
  deriving DecidableEq, Repr

/-- An entry of the fault list (R239, R497): KIND, unit and second unit. -/
structure FaultEnt where
  kind : Byte
  unit : BitVec 16
  unit2 : BitVec 16
  deriving DecidableEq, Repr

structure CairnBlk where
  st : CairnSt := .rom
  heartbeat : Bool := false
  modFault : Bool := true
  /-- The start-up sensor checks passed, and POWER_EN as acted on (R554, R555). -/
  checked : Bool := false
  powerEn : Bool := false
  inputBad : Bool := false
  /-- Start-up: the camp cores run, the repeat of R556 was used, and a second miss holds the rails off. -/
  campRun : Bool := false
  repeated : Bool := false
  barred : Bool := false
  /-- The last Cairn stop was a watchdog expiry, to be recorded at the next start (R495). -/
  watchdog : Bool := false
  /-- The compute die stays in recovery (R508). -/
  campRecovery : Bool := false
  /-- When the rails went off at a power-down whose pumps still run (R558). -/
  downTs : Option DWord := none
  bmcLate : Bool := false
  auto : Bool := false
  boardCap : BitVec 12 := 4095
  host : MboxHalf := {}
  camp : MboxHalf := {}
  evtLo : Word := 0
  /-- Images by area: 0 Cairn active, 1 Cairn staging, 2 camp active, 3 camp staging. -/
  imgs : FMap ImgArea := []
  cur : Gen := {}
  prev : Option Gen := none
  staged : Option (List (BitVec 16 × List Byte)) := none
  inforce : Gen := {}
  plantGen : Gen := {}
  policy : Policy := {}
  plant : Plant := {}
  cfgIdx : BitVec 21 := 0
  faults : List FaultEnt := []
  /-- Physical cores enabled at shipment, recorded in the fault list (R568); none is the model's default. -/
  shipped : Option (List Nat) := none
  deriving DecidableEq, Repr

/-! ### The state -/

@[ext]
structure State where
  /-- The commands that wait, first in first out. -/
  pending : List Instr := []
  reply : Reply := {}
  env : Env := {}
  hdrs : FMap Hdr := []
  cores : FMap Core := []
  ctls : FMap CoreCtl := []
  ledge : LedgeBlk := {}
  mesh : MeshState := {}
  hbm : HbmBlk := {}
  arbs : FMap ArbInst := []
  arbSels : FMap ArbSel := []
  ctx : CtxBlk := {}
  fence : FenceBlk := {}
  fab : FabState := {}
  host : HostBlk := {}
  glob : GlobBlk := {}
  pwr : PwrBlk := {}
  sec : SecBlk := {}
  dbg : DbgBlk := {}
  evts : EvtPort := {}
  thm : ThmBlk := {}
  cool : CoolSup := {}
  loop : LoopBlk := {}
  drv : DriveBlk := {}
  cbus : CbusBlk := {}
  hut : HutBlk := {}
  cairn : CairnBlk := {}
  /-- The model's own counter of free values drawn (keys, nonces): each draw advances it. -/
  fresh : Nat := 0
  deriving DecidableEq, Repr

/-- The reasons a run stops. No command of this module ends in a fault: the manual gives every command an
effect in every state. The one constructor names a stop that no meaning raises; stopping is safe. -/
inductive Fault where
  /-- Raised by no meaning. Safe: a stop proves nothing about the hardware. -/
  | stopped
  deriving DecidableEq, Repr

/-- The reasons a command has no meaning. -/
inductive Refusal where
  /-- Raised by the arms of `exec` whose command is not modelled. Safe. -/
  | notModelled (mnemonic : String)
  deriving DecidableEq, Repr

/-- The core map as shipped: logical numbers in ascending order of physical number (R568). -/
def shippedMap (cores : List Nat) : FMap CoreCtl :=
  cores.zipIdx.map (fun (e : Nat × Nat) => (e.1, { st := .active, logical := BitVec.ofNat 8 e.2 }))

/-- The module right after a standby reset: every field at its reset value; the variant is an M740, whose enabled cores are
the lowest-numbered ones (DESIGN CHOICE: R568 leaves them to each module). -/
def State.reset : State := { ctls := shippedMap (List.range 192), fence := { logicalCount := 192 } }

end Sys2Proof.Machine
end

