-- ==== Sys2Proof/Machine/Ops.lean ====
section
/-! DEFINITION. Named operations over tables, memories and the parts of the state. -/

namespace Sys2Proof.Machine

/-! ### Tables and memories -/

/-- The entry of a table at a key; `d` where none is listed. -/
def fget (d : β) : FMap β → Nat → β
  | [], _ => d
  | (k', v) :: m, k => if k' = k then v else fget d m k

/-- A table with one entry set; an entry equal to the default is not listed. -/
def fput [DecidableEq β] (d : β) (k : Nat) (v : β) (m : FMap β) : FMap β :=
  m.filter (fun c => decide (c.1 < k)) ++ (if v = d then [] else [(k, v)])
    ++ m.filter (fun c => decide (k < c.1))

/-- The canonical form of a table: keys strictly rising, no entry equal to the default. -/
def fwf [DecidableEq β] (d : β) : FMap β → Bool
  | [] => true
  | [(_, v)] => !decide (v = d)
  | (k, v) :: (k', v') :: m => !decide (v = d) && decide (k < k') && fwf d ((k', v') :: m)

/-- The byte of a memory at an address; a byte that nothing has written reads as zero (DESIGN CHOICE). -/
def memGet (m : List Host.Cell) (a : Nat) : Byte := fget 0 m a

/-- The canonical form of a memory. -/
abbrev Memory.wf (m : List Host.Cell) : Bool := fwf (0 : Byte) m

/-- The cells that list the non-zero bytes of a run. -/
def cellsOf (a : Nat) : List Byte → List Host.Cell
  | [] => []
  | b :: bs => (if b = 0 then [] else [(a, b)]) ++ cellsOf (a + 1) bs

/-- A memory with a run of bytes stored. -/
def memPut (m : List Host.Cell) (a : Nat) (bs : List Byte) : List Host.Cell :=
  m.filter (fun c => decide (c.1 < a)) ++ cellsOf a bs
    ++ m.filter (fun c => decide (a + bs.length ≤ c.1))

/-- A memory with a range of bytes zeroed. -/
def memZero (m : List Host.Cell) (a n : Nat) : List Host.Cell :=
  m.filter (fun c => !(decide (a ≤ c.1) && decide (c.1 < a + n)))

def memRead (m : List Host.Cell) (a n : Nat) : List Byte :=
  (List.range n).map (fun i => memGet m (a + i))

/-- A counter of 32 bits that saturates. -/
def satInc (w : Word) : Word := if w = 0xFFFFFFFF then w else w + 1

def satAdd (w : Word) (n : Nat) : Word :=
  if w.toNat + n ≥ 2 ^ 32 then 0xFFFFFFFF else w + BitVec.ofNat 32 n

def satInc16 (w : BitVec 16) : BitVec 16 := if w = 0xFFFF then w else w + 1

/-- One bit of a word. -/
def bit (w n : Nat) : Bool := w / 2 ^ n % 2 == 1

/-- A field of `n` bits at `lo`. -/
def fld (w lo n : Nat) : Nat := w / 2 ^ lo % 2 ^ n

def b2n (b : Bool) : Nat := if b then 1 else 0

/-- A one-bit mask of a word. -/
def bitMask (n : Nat) : Word := 1#32 <<< n

/-! ### Parts of the state -/

def State.core (s : State) (n : Nat) : Core := fget {} s.cores n
def State.setCore (s : State) (n : Nat) (c : Core) : State := { s with cores := fput {} n c s.cores }
def State.onCore (n : Nat) (f : Core → Core) (s : State) : State := s.setCore n (f (s.core n))

def State.ctl (s : State) (n : Nat) : CoreCtl := fget {} s.ctls n
def State.setCtl (s : State) (n : Nat) (c : CoreCtl) : State := { s with ctls := fput {} n c s.ctls }
def State.onCtl (n : Nat) (f : CoreCtl → CoreCtl) (s : State) : State := s.setCtl n (f (s.ctl n))

def State.hdr (s : State) (p : Nat) : Hdr := fget {} s.hdrs p
def State.setHdr (s : State) (p : Nat) (h : Hdr) : State := { s with hdrs := fput {} p h s.hdrs }
def State.onHdr (p : Nat) (f : Hdr → Hdr) (s : State) : State := s.setHdr p (f (s.hdr p))

def State.cx (s : State) (x : Nat) : Ctx := fget {} s.ctx.ctxs x
def State.setCx (s : State) (x : Nat) (c : Ctx) : State :=
  { s with ctx := { s.ctx with ctxs := fput {} x c s.ctx.ctxs } }
def State.onCx (x : Nat) (f : Ctx → Ctx) (s : State) : State := s.setCx x (f (s.cx x))

def State.port (s : State) (p : Nat) : Port := fget {} s.fab.ports p
def State.setPort (s : State) (p : Nat) (q : Port) : State :=
  { s with fab := { s.fab with ports := fput {} p q s.fab.ports } }
def State.onPort (p : Nat) (f : Port → Port) (s : State) : State := s.setPort p (f (s.port p))

def State.fx (s : State) (x : Nat) : FabCtx := fget {} s.fab.ctxs x
def State.setFx (s : State) (x : Nat) (c : FabCtx) : State :=
  { s with fab := { s.fab with ctxs := fput {} x c s.fab.ctxs } }
def State.onFx (x : Nat) (f : FabCtx → FabCtx) (s : State) : State := s.setFx x (f (s.fx x))

def State.chan (s : State) (x ch : Nat) : Chan := fget {} (s.fx x).chans ch
def State.setChan (s : State) (x ch : Nat) (c : Chan) : State :=
  s.onFx x (fun f => { f with chans := fput {} ch c f.chans })
def State.onChan (x ch : Nat) (f : Chan → Chan) (s : State) : State := s.setChan x ch (f (s.chan x ch))

def State.fn (s : State) (f : Nat) : FnHost := fget {} s.host.fns f
def State.setFn (s : State) (f : Nat) (h : FnHost) : State :=
  { s with host := { s.host with fns := fput {} f h s.host.fns } }
def State.onFn (f : Nat) (g : FnHost → FnHost) (s : State) : State := s.setFn f (g (s.fn f))

def State.sq (s : State) (f i : Nat) : SqRing := fget {} (s.fn f).sqs i
def State.onSq (f i : Nat) (g : SqRing → SqRing) (s : State) : State :=
  s.onFn f (fun h => { h with sqs := fput {} i (g (fget {} h.sqs i)) h.sqs })
def State.cq (s : State) (f i : Nat) : CqRing := fget {} (s.fn f).cqs i
def State.onCq (f i : Nat) (g : CqRing → CqRing) (s : State) : State :=
  s.onFn f (fun h => { h with cqs := fput {} i (g (fget {} h.cqs i)) h.cqs })

def State.page (s : State) (k : Nat) : WinPage := fget {} s.host.pages k
def State.setPage (s : State) (k : Nat) (p : WinPage) : State :=
  { s with host := { s.host with pages := fput {} k p s.host.pages } }

def State.arb (s : State) (k : Nat) : ArbInst := fget {} s.arbs k
def State.setArb (s : State) (k : Nat) (a : ArbInst) : State := { s with arbs := fput {} k a s.arbs }

def State.arbSel (s : State) (p : Nat) : ArbSel := fget {} s.arbSels p
def State.onArbSel (p : Nat) (f : ArbSel → ArbSel) (s : State) : State :=
  { s with arbSels := fput {} p (f (s.arbSel p)) s.arbSels }

def State.onEnv (f : Env → Env) (s : State) : State := { s with env := f s.env }
def State.onCtxBlk (f : CtxBlk → CtxBlk) (s : State) : State := { s with ctx := f s.ctx }
def State.onFence (f : FenceBlk → FenceBlk) (s : State) : State := { s with fence := f s.fence }
def State.onFab (f : FabState → FabState) (s : State) : State := { s with fab := f s.fab }
def State.onHost (f : HostBlk → HostBlk) (s : State) : State := { s with host := f s.host }
def State.onGlob (f : GlobBlk → GlobBlk) (s : State) : State := { s with glob := f s.glob }
def State.onPwr (f : PwrBlk → PwrBlk) (s : State) : State := { s with pwr := f s.pwr }
def State.onLedge (f : LedgeBlk → LedgeBlk) (s : State) : State := { s with ledge := f s.ledge }
def State.onMesh (f : MeshState → MeshState) (s : State) : State := { s with mesh := f s.mesh }
def State.onHbm (f : HbmBlk → HbmBlk) (s : State) : State := { s with hbm := f s.hbm }
def State.onEvts (f : EvtPort → EvtPort) (s : State) : State := { s with evts := f s.evts }
def State.onSec (f : SecBlk → SecBlk) (s : State) : State := { s with sec := f s.sec }
def State.onDbg (f : DbgBlk → DbgBlk) (s : State) : State := { s with dbg := f s.dbg }
def State.onThm (f : ThmBlk → ThmBlk) (s : State) : State := { s with thm := f s.thm }
def State.sx (s : State) (x : Nat) : SecCtx := fget {} s.sec.ctxs x
def State.onSx (x : Nat) (f : SecCtx → SecCtx) (s : State) : State :=
  s.onSec (fun c => { c with ctxs := fput {} x (f (fget {} c.ctxs x)) c.ctxs })
def State.setReply (r : Reply) (s : State) : State := { s with reply := r }

/-- R361, p: energy that a unit debited since the last thermal update. -/
def noteUse (u e : Nat) (s : State) : State :=
  s.onThm (fun t => { t with debits := fput 0 u (fget 0 t.debits u + e) t.debits })

/-- R484: a value of quantity `kind` of a core enters its sum over the running interval. -/
def noteSum (kind core : Nat) (v : Int) (s : State) : State :=
  s.onSec (fun c =>
    let was := fget (0, 0) c.sums (kind * 256 + core)
    { c with sums := fput (0, 0) (kind * 256 + core) (was.1 + v, was.2 + 1) c.sums })

/-- Apply a state change where a condition holds. -/
def when (b : Bool) (f : State → State) (s : State) : State := if b then f s else s

/-- Apply a state change for each item of a list, in order. -/
def forAll (xs : List α) (f : α → State → State) (s : State) : State := xs.foldl (fun t x => f x t) s

/-- The answer of a meaning that ends in a next state. -/
abbrev Res := Host.Outcome State Fault Refusal

end Sys2Proof.Machine

namespace Sys2Proof

/-! ### The variant (R1, R2) -/

def Variant.stacks : Variant → Nat
  | .m740 | .m724 => 8
  | .m712 => 4

def Variant.dies : Variant → Nat
  | .m740 => 2
  | _ => 1

/-- Granules per slice, G of R146. -/
def Variant.gps : Variant → Nat
  | .m740 => 10
  | _ => 5

def Variant.granules (v : Variant) : Nat := 208 * v.gps

def Variant.ports : Variant → Nat
  | .m740 => 16
  | .m724 => 4
  | .m712 => 0

def Variant.cbus : Variant → Nat
  | .m712 => 1
  | _ => 2

/-- Enabled cores as shipped (R1). -/
def Variant.cores : Variant → Nat
  | .m740 => 192
  | .m724 => 144
  | .m712 => 96

/-- RATED and PEAK (R322). -/
def Variant.rated : Variant → Nat
  | .m740 => 2800
  | .m724 => 1800
  | .m712 => 1100

def Variant.peak : Variant → Nat
  | .m740 => 3000
  | .m724 => 1950
  | .m712 => 1200

/-- The fallback cap: 40 % of RATED (R322). -/
def Variant.fallbackCap : Variant → Nat
  | .m740 => 1120
  | .m724 => 720
  | .m712 => 440

/-- The defaults of BASE and of the mesh reservation (R328). -/
def Variant.base : Variant → Nat
  | .m740 => 300
  | .m724 => 240
  | .m712 => 180

def Variant.meshRes : Variant → Nat
  | .m740 => 150
  | .m724 => 115
  | .m712 => 80

/-- Usable HBM bytes: 31/32 of the present capacity (R164). -/
def Variant.hbmBytes (v : Variant) : Nat := v.stacks * 36 * 2 ^ 30 / 32 * 31

/-- Pseudo-channels: 32 per stack (R163). -/
def Variant.pcs (v : Variant) : Nat := v.stacks * 32

end Sys2Proof

namespace Sys2Proof.Machine

/-! ### Time -/

/-- Ticks of the module timestamp, 10 ns each, in a second (R23). -/
def second : Nat := 100000000

/-- R224: the last `n` timestamps of a history with a new one added. -/
def pushTs (n : Nat) (t : DWord) (h : List DWord) : List DWord := (t :: h).take n

/-- R224: the newest `n` events of a history all lie within an interval of `w` ticks. -/
def withinLast (n w : Nat) (h : List DWord) : Bool :=
  match h with
  | [] => false
  | t :: _ =>
    match h[n - 1]? with
    | some u => decide (n ≤ h.length) && decide (t.toNat ≤ u.toNat + w)
    | none => false

/-- How many events of a history lie within the last `w` ticks. -/
def countWithin (now : DWord) (w : Nat) (h : List DWord) : Nat :=
  (h.filter (fun t => decide (now.toNat ≤ t.toNat + w))).length

end Sys2Proof.Machine
end

