-- ==== Sys2Proof/Machine/Flags.lean ====
section
/-! DEFINITION. Interrupt status bits, interrupt sources and messages (R529–R542, R310), error counters,
and the events that the compute die sends to the hut book (R498). -/

namespace Sys2Proof.Machine

/-- The page numbers of the address map (R525), an offset divided by 0x1000. -/
def pgGlobal : Nat := 0x000
def pgCfgl : Nat := 0x001
def pgHost (n : Nat) : Nat := 0x010 + n
def pgCore (n : Nat) : Nat := 0x100 + n
def pgMesh : Nat := 0x200
def pgHbm (s : Nat) : Nat := 0x210 + s
def pgLedge : Nat := 0x220
def pgFab (p : Nat) : Nat := 0x300 + p
def pgFabCommon : Nat := 0x310
def pgPwr : Nat := 0x400
def pgThm : Nat := 0x410
def pgCtx : Nat := 0x500
def pgSec : Nat := 0x510
def pgLoop : Nat := 0x600
def pgVlv : Nat := 0x601
def pgMtr : Nat := 0x602
def pgCbus : Nat := 0x603
def pgSens : Nat := 0x604
def pgMbox : Nat := 0x605
def pgLog : Nat := 0x606
def pgDbg : Nat := 0x700
/-- HOST_PF_INT_STAT and its enables, kept as a header of their own: no page of the map has this number. -/
def pgPf : Nat := 0x10000

/-- The interrupt source of a page (R537); HOST pages signal their virtual functions instead. -/
def pageSource (p : Nat) : Option Nat :=
  if p = pgGlobal then some 0
  else if 0x100 ≤ p ∧ p < 0x100 + 208 then some (1 + (p - 0x100) / 32)
  else if p = pgMesh then some 8
  else if p = pgLedge then some 9
  else if 0x210 ≤ p ∧ p < 0x218 then some 10
  else if 0x300 ≤ p ∧ p < 0x310 then some 11
  else if p = pgFabCommon then some 12
  else if p = pgPwr then some 13
  else if p = pgThm then some 14
  else if p = pgCtx then some 15
  else if p = pgSec then some 16
  else if p = pgDbg then some 17
  else if p = pgPf then some 18
  else if 0x600 ≤ p ∧ p ≤ 0x606 then some (19 + (p - 0x600))
  else none

/-- A message on a vector of a function: sent, or pending while the vector is masked (R310, R539). -/
def sendVec (f v : Nat) (s : State) : State :=
  s.onFn f (fun h =>
    let e := fget {} h.vecs v
    let e' := if e.masked then { e with pending := true } else { e with sent := e.sent + 1 }
    { h with vecs := fput {} v e' h.vecs })

/-- GLOBAL_IRQ_ROUTE s: VEC = s + 1 and EN = 1 at reset (R533). -/
def State.route (s : State) (src : Nat) : Byte :=
  (fget none s.glob.routes src).getD (BitVec.ofNat 8 (0x80 + src + 1))

def routeVec (r : Byte) : Nat := r.toNat % 128
def routeEn (r : Byte) : Bool := r.getLsbD 7

/-- R538, R539: an event of source `src` sets PEND, and sends a message where PEND was clear and the route
is enabled. -/
def pendSource (src : Nat) (s : State) : State :=
  let was := s.glob.pend.getLsbD src
  let s1 := s.onGlob (fun g => { g with pend := g.pend ||| (1#26 <<< src) })
  if !was && routeEn (s.route src) then sendVec 0 (routeVec (s.route src)) s1 else s1

/-- An enabled interrupt bit of a page was set: its source pends, or a HOST page signals vector 0 of its
virtual function (R310, R538). -/
def signalPage (p : Nat) (s : State) : State :=
  match pageSource p with
  | some src => pendSource src s
  | none => if 0x010 ≤ p ∧ p < 0x020 then sendVec (p - 0x010 + 1) 0 s else s

/-- R531, R538: bits of BLK_INT_STAT are set by an event or by BLK_INT_SET. -/
def raiseBits (p : Nat) (bits : Word) (s : State) : State :=
  let s1 := s.onHdr p (fun h => { h with stat := h.stat ||| bits })
  if (s.hdr p).en &&& bits != 0 then signalPage p s1 else s1

/-- One interrupt bit of a page is set by its event. -/
def raise (p n : Nat) (s : State) : State := raiseBits p (bitMask n) s

/-- BLK_ERR_TRANS of a page counts an event (R529). -/
def errTrans (p : Nat) (s : State) : State := s.onHdr p (fun h => { h with trans := satInc h.trans })

def errTransN (p n : Nat) (s : State) : State := s.onHdr p (fun h => { h with trans := satAdd h.trans n })

/-- BLK_ERR_PERM of a page counts an event. -/
def errPerm (p : Nat) (s : State) : State := s.onHdr p (fun h => { h with perm := satInc h.perm })

/-- R498: the compute die writes an event to the event port; a full queue of 256 discards it into
MBOX_EVT_OVF. -/
def campEvent (code value : Nat) (arg : Nat) (s : State) : State :=
  let e : Evt := ⟨BitVec.ofNat 16 code, BitVec.ofNat 16 value, BitVec.ofNat 64 arg, s.env.tsCopy, s.env.holdover⟩
  if s.evts.queue.length < 256 then s.onEvts (fun q => { q with queue := q.queue ++ [e] })
  else raise pgMbox 2 (errTrans pgMbox (s.onEvts (fun q => { q with overflow := satInc q.overflow })))

/-- R535: a field of GLOBAL_CORES has changed. -/
def capChange (s : State) : State :=
  raise pgGlobal 0 (s.onGlob (fun g => { g with capGen := g.capGen + 1 }))

end Sys2Proof.Machine
end

