-- ==== Sys2Proof/Machine/Operands.lean ====
section
/-! DEFINITION. Where operands lie: global addresses of a context's partitions, the Ledge map, the HBM
address map with its retirements and poison (R109, R148–R152, R164–R171), pitch-memory operands, and
the byte fields of descriptors. -/

namespace Sys2Proof.Machine

/-! ### The HBM address map (R164, R167, R168) -/

/-- The exclusive-or of the `k`-bit slices of the block number that select a pseudo-channel. -/
def xorSlices (k b : Nat) : Nat :=
  (b % 2 ^ k) ^^^ (b / 2 ^ k % 2 ^ k) ^^^ (b / 2 ^ (2 * k) % 2 ^ k)

def log2Pcs (v : Variant) : Nat := if v.stacks = 8 then 8 else 7

/-- The pseudo-channel and the block within it of an HBM space block number (R164). -/
def hbmHome (v : Variant) (b : Nat) : Nat × Nat := (xorSlices (log2Pcs v) b, b / 2 ^ log2Pcs v)

def ownBlocks : Nat := 4571136
def reserveBlocks : Nat := 147456

/-- How many blocks the `t`-th of `m` receivers gets of `n` moved blocks. -/
def shareOf (n m t : Nat) : Nat := (n + m - 1 - t) / m

/-- Follow a block (its pseudo-channel and position there) through the retirements in order. `inSvc` are the
pseudo-channels in service before the next retirement, `used` the reserve blocks used on each. -/
def followRetired : List Nat → List Nat → FMap Nat → Nat × Nat → Nat × Nat
  | [], _, _, at_ => at_
  | r :: rs, inSvc, used, (q, i) =>
    let svc := inSvc.filter (fun p => p != r)
    let m := svc.length
    let moved := ownBlocks + fget 0 used r
    let here := if q = r then
        let t := svc.getD (i % m) 0
        (t, ownBlocks + fget 0 used t + i / m)
      else (q, i)
    let used' := (svc.zipIdx).foldl (fun u (p, t) => fput 0 p (fget 0 u p + shareOf moved m t) u) used
    followRetired rs svc used' here

/-- Where an HBM space block lies now: its pseudo-channel, and its position there, own blocks first. -/
def hbmPlace (v : Variant) (retired : List Nat) (b : Nat) : Nat × Nat :=
  followRetired retired (List.range v.pcs) [] (hbmHome v b)

/-- R170, R171: a block is poisoned by name, or lies in a pseudo-channel poisoned in place and has not been
written since. -/
def hbmPoisoned (s : State) (b : Nat) : Bool :=
  s.hbm.poison.contains b ||
  (let q := fget {} s.hbm.pcs (hbmPlace s.env.variant s.hbm.retOrder b).1
   q.st == 3 && !q.mended.any (fun r => decide (r.1 ≤ b ∧ b < r.1 + r.2)))

/-- R150–R152: a Ledge block is poisoned, or its granule is unavailable. -/
def ledgePoisoned (s : State) (b : Nat) : Bool :=
  s.ledge.poison.contains b || (fget {} s.ledge.banks (b / 4096)).st == 3

/-! ### Global addresses (R109, R148, R165) -/

/-- A physical byte: `hbm` says which memory. -/
structure Phys where
  hbm : Bool
  addr : Nat
  deriving DecidableEq, Repr

def gaSpace (a : DWord) : Nat := a.toNat / 2 ^ 60
def gaOff (a : DWord) : Nat := a.toNat % 2 ^ 39

/-- R109: SPACE is 0x1 or 0x2, bits [59:39] are zero and the offset is a multiple of 64. -/
def gaOk (a : DWord) : Bool :=
  (gaSpace a == 1 || gaSpace a == 2) && a.toNat / 2 ^ 39 % 2 ^ 21 == 0 && gaOff a % 64 == 0

def unit64M : Nat := 2 ^ 26

/-- R148: the granule of a partition offset, where its map entry is VALID. -/
def ledgeGranule (c : Ctx) (o : Nat) : Option Nat :=
  if o < 2 ^ 31 then
    let e := fget 0 c.lmap (o / 2 ^ 20)
    if e.getLsbD 15 then some (e.toNat % 4096) else none
  else none

/-- The physical byte of a partition offset; `none` beyond the partition. -/
def locate (c : Ctx) (space o : Nat) : Option Phys :=
  if space = 1 then (ledgeGranule c o).map (fun g => ⟨false, g * 2 ^ 20 + o % 2 ^ 20⟩)
  else if space = 2 then
    if o < c.hbmSize.toNat * unit64M then some ⟨true, c.hbmBase.toNat * unit64M + o⟩ else none
  else none

/-- The Ledge map entries that a range of offsets touches. -/
def touched (o n : Nat) : List Nat :=
  if n = 0 then [] else (List.range ((o + n - 1) / 2 ^ 20 - o / 2 ^ 20 + 1)).map (fun i => o / 2 ^ 20 + i)

/-- A range of a partition lies within it (R111, R148, R165). -/
def inPartition (c : Ctx) (space o n : Nat) : Bool :=
  if space = 1 then
    decide (o + n ≤ 2 ^ 31) && (touched o n).all (fun e => (fget 0 c.lmap e).getLsbD 15)
  else if space = 2 then decide (o + n ≤ c.hbmSize.toNat * unit64M)
  else false

/-- The block that holds a physical byte cannot be read (R150, R152, R171). -/
def physBad (s : State) (p : Phys) : Bool :=
  if p.hbm then hbmPoisoned s (p.addr / 256) else ledgePoisoned s (p.addr / 256)

def physGet (s : State) (p : Phys) : Byte :=
  if p.hbm then memGet s.hbm.mem p.addr else memGet s.ledge.mem p.addr

/-- The offsets at which a range meets a new 256-byte block, its first offset among them. -/
def blockStarts (o n : Nat) : List Nat :=
  if n = 0 then [] else (List.range ((o + n - 1) / 256 - o / 256 + 1)).map (fun i => max o ((o / 256 + i) * 256))

/-- Read bytes of a context's partition. `none` where a block of the range fails all its attempts (R160). -/
def gread (s : State) (x : Nat) (space o n : Nat) : Option (List Byte) :=
  let c := s.cx x
  if (blockStarts o n).any (fun p => match locate c space p with
      | some q => physBad s q
      | none => true) then none
  else some ((List.range n).map (fun i => match locate c space (o + i) with
      | some q => physGet s q
      | none => 0))

/-- R171: a run of HBM space blocks is written whole: they lose their poison. -/
def mendHbm (first n : Nat) (h : HbmBlk) : HbmBlk :=
  if n = 0 then h
  else { h with
    poison := h.poison.filter (fun b => !decide (first ≤ b ∧ b < first + n))
    pcs := h.pcs.map (fun c => if c.2.st = 3 then (c.1, { c.2 with mended := c.2.mended ++ [(first, n)] }) else c) }

/-- R171: the same for Ledge blocks. -/
def mendLedge (first n : Nat) (l : LedgeBlk) : LedgeBlk :=
  { l with poison := l.poison.filter (fun b => !decide (first ≤ b ∧ b < first + n)) }

/-- The blocks of 256 bytes that a run of bytes covers whole: the first, and how many. -/
def wholeBlocks (a n : Nat) : Nat × Nat := ((a + 255) / 256, (a + n) / 256 - (a + 255) / 256)

/-- Store bytes at a physical place; a whole block written loses its poison (R171). -/
def physPut (p : Phys) (bs : List Byte) (s : State) : State :=
  let w := wholeBlocks p.addr bs.length
  if p.hbm then s.onHbm (fun h => mendHbm w.1 w.2 { h with mem := memPut h.mem p.addr bs })
  else s.onLedge (fun l => mendLedge w.1 w.2 { l with mem := memPut l.mem p.addr bs })

/-- R217, R483: a range of physical memory, a whole number of blocks, is filled with zero. -/
def physZero (p : Phys) (n : Nat) (s : State) : State :=
  if p.hbm then s.onHbm (fun h => mendHbm (p.addr / 256) (n / 256) { h with mem := memZero h.mem p.addr n })
  else s.onLedge (fun l => mendLedge (p.addr / 256) (n / 256) { l with mem := memZero l.mem p.addr n })

/-- Write bytes to a context's partition, granule by granule; bytes beyond it go nowhere. -/
def gwrite (x : Nat) (space o : Nat) (bs : List Byte) (s : State) : State :=
  if space = 2 then
    match locate (s.cx x) 2 o with
    | some p => physPut p bs s
    | none => s
  else
    forAll (touched o bs.length) (fun e t =>
      let lo := max o (e * 2 ^ 20)
      let hi := min (o + bs.length) ((e + 1) * 2 ^ 20)
      match locate (t.cx x) 1 lo with
      | some p => physPut p ((bs.drop (lo - o)).take (hi - lo)) t
      | none => t) s

/-- R482: a range of a context's partition meets its sealed range. -/
def meetsSealed (s : State) (x space o n : Nat) : Bool :=
  let c := s.sx x
  c.sealedCtx && space == 2 &&
    decide (o < c.base.toNat * 2 ^ 21 + c.size.toNat * 2 ^ 21 ∧ c.base.toNat * 2 ^ 21 < o + n)

/-- Read through a global address. -/
def gaRead (s : State) (x : Nat) (a : DWord) (n : Nat) : Option (List Byte) :=
  gread s x (gaSpace a) (gaOff a) n

def gaWrite (x : Nat) (a : DWord) (bs : List Byte) (s : State) : State :=
  gwrite x (gaSpace a) (gaOff a) bs s

/-! ### The descriptor (R108–R111) -/

def leAt (bs : List Byte) (o n : Nat) : Nat := leNat ((bs.drop o).take n)

def regionAt (bs : List Byte) (i : Nat) : Region :=
  { base := BitVec.ofNat 64 (leAt bs (0x20 + 16 * i) 8)
    len := BitVec.ofNat 32 (leAt bs (0x28 + 16 * i) 4)
    kind := BitVec.ofNat 2 (leAt bs (0x2C + 16 * i) 1) }

def PitchDesc.ofBytes (bs : List Byte) : PitchDesc :=
  { id := BitVec.ofNat 64 (leAt bs 0 8)
    progBase := BitVec.ofNat 64 (leAt bs 8 8)
    progLen := BitVec.ofNat 16 (leAt bs 0x10 2)
    fw := bit (leAt bs 0x12 2) 0
    budget := BitVec.ofNat 32 (leAt bs 0x14 4)
    energy := BitVec.ofNat 32 (leAt bs 0x18 4)
    regions := (List.range 6).map (regionAt bs) }

/-- The used regions of a descriptor: those of non-zero length. -/
def PitchDesc.used (d : PitchDesc) : List Region := d.regions.filter (fun r => r.len != 0)

def Region.isIn (r : Region) : Bool := r.kind == 1
def Region.isOut (r : Region) : Bool := r.kind == 2

/-- Two ranges of one space that share a byte. -/
def rangesMeet (a1 n1 a2 n2 : Nat) : Bool := decide (a1 < a2 + n2 ∧ a2 < a1 + n1 ∧ 0 < n1 ∧ 0 < n2)

def Region.meets (a b : Region) : Bool :=
  gaSpace a.base == gaSpace b.base && rangesMeet (gaOff a.base) a.len.toNat (gaOff b.base) b.len.toNat

/-- The program segment as a range. -/
def PitchDesc.segment (d : PitchDesc) : Region :=
  { base := d.progBase, len := BitVec.ofNat 32 (8 * d.progLen.toNat), kind := 0 }

/-- R111, row 5: reserved fields, codes, alignment, PROG_LEN and CYCLE_BUDGET. An entry whose LEN
is 0 is unused, and only its reserved bits are checked. -/
def descFieldsOk (bs : List Byte) (d : PitchDesc) : Bool :=
  leAt bs 0x12 2 / 2 == 0 && leAt bs 0x1C 4 == 0 &&
  decide (1 ≤ d.progLen.toNat ∧ d.progLen.toNat ≤ 4096) &&
  decide (1 ≤ d.budget.toNat ∧ d.budget.toNat ≤ 0x7FFFFFFF) && gaOk d.progBase &&
  (List.range 6).all (fun i =>
    let r := regionAt bs i
    leAt bs (0x2C + 16 * i) 1 / 4 == 0 && leAt bs (0x2D + 16 * i) 3 == 0 &&
    (r.len == 0 || (gaOk r.base && r.len.toNat % 64 == 0 && (r.isIn || r.isOut))))

/-- R111, row 6: an output meets an input, another output or the program segment. -/
def descOverlap (d : PitchDesc) : Bool :=
  let us := d.used.zipIdx
  us.any (fun (a, i) => a.isOut &&
    (d.segment.meets a || us.any (fun (b, j) => i != j && a.meets b)))

/-- R111, row 7: a region or the segment extends beyond its partition. -/
def descBeyond (c : Ctx) (d : PitchDesc) : Bool :=
  (d.segment :: d.used).any (fun r => !inPartition c (gaSpace r.base) (gaOff r.base) r.len.toNat)

/-! ### Pitch memory and vector registers (R91, R97) -/

def Core.readPm (c : Core) (a n : Nat) : List Byte := memRead c.pm a n

/-- The 1 KiB units of pitch memory that a range covers (R203). -/
def unitsOf (a n : Nat) : List Nat :=
  if n = 0 then [] else (List.range ((a + n - 1) / 1024 - a / 1024 + 1)).map (fun i => a / 1024 + i)

def Core.onRun (c : Core) (f : Run → Run) : Core := { c with run := c.run.map f }

/-- A write to pitch memory by the pitch in flight. -/
def Core.writePm (c : Core) (a : Nat) (bs : List Byte) : Core :=
  { c with pm := memPut c.pm a bs }.onRun (fun r => { r with
      wrote := r.wrote ++ (unitsOf a bs.length).filter (fun u => !r.wrote.contains u) })

def zeroReg : List Word := List.replicate 128 0

def Core.reg (c : Core) (n : Nat) : List Word := fget zeroReg c.vec n
def Core.setReg (c : Core) (n : Nat) (ws : List Word) : Core := { c with vec := fput zeroReg n ws c.vec }

/-- The 512 bytes of a register and back, words little-endian. -/
def regBytes (ws : List Word) : List Byte := ws.flatMap (fun w => leBytes 4 w.toNat)

def bytesReg (bs : List Byte) : List Word := (List.range 128).map (fun i => BitVec.ofNat 32 (leAt bs (4 * i) 4))

/-- The 256 BF16 lanes of a register: lane 2i is the low half of word i (R91). -/
def halves (ws : List Word) : List Nat := ws.flatMap (fun w => [w.toNat % 65536, w.toNat / 65536])

def ofHalves : List Nat → List Word
  | a :: b :: xs => BitVec.ofNat 32 (a + 65536 * b) :: ofHalves xs
  | [a] => [BitVec.ofNat 32 a]
  | [] => []

def lanes32 (ws : List Word) : List Nat := ws.map (·.toNat)
def of32 (xs : List Nat) : List Word := xs.map (BitVec.ofNat 32)

/-- The anchor entry of entry row `e` and anchor column `a` (R86). -/
def Core.anchor (c : Core) (e a : Nat) : Anchor := fget {} c.anc (e * 64 + a)
def Core.setAnchor (c : Core) (e a : Nat) (x : Anchor) : Core :=
  { c with anc := fput {} (e * 64 + a) x c.anc }

end Sys2Proof.Machine
end

