-- ==== Sys2Proof/Machine/Complete.lean ====
section
/-! DEFINITION. Completion records and the holding queues (R143, R307–R309, R569). -/

namespace Sys2Proof.Machine

/-- The function of a context (R184). -/
def fnOf (x : Nat) : Nat := x + 1

/-- The page whose interrupt bits a function's own events set (R310). -/
def fnPage (f : Nat) : Nat := if f = 0 then pgPf else pgHost (f - 1)

/-- The generic record of R307. -/
def genericRec (st : Status) (result : Nat) (s : State) : List Byte :=
  leBytes 8 result ++ [BitVec.ofNat 8 (st.code.toNat + 128 * b2n s.env.holdover)] ++ List.replicate 15 0
    ++ leBytes 8 s.env.ts.toNat

/-- Entries of a completion ring that the device owns (R299). -/
def CqRing.owned (q : CqRing) : Nat := if q.en then (q.limit - q.tail).toNat else 0

/-- R309: a record enters its function's holding queue; CQ_HELD is raised where no entry of its ring awaits it. -/
def deliver (f : Nat) (r : HoldRec) (s : State) : State :=
  let before := ((s.fn f).hold.filter (fun h => h.cq == r.cq)).length
  let held := decide ((s.cq f r.cq.toNat).owned ≤ before)
  when held (raise (fnPage f) 0) (s.onFn f (fun h => { h with hold := h.hold ++ [r] }))

/-- The record of a command, addressed as R307 states. -/
def recordFor (c : CmdSrc) (kind : Nat) (bytes : List Byte) (s : State) : HoldRec :=
  { cq := if c.fn.val = 0 then 0 else (s.sq c.fn.val c.sq.val).cq
    kind := BitVec.ofNat 8 kind
    sq := if c.fn.val = 0 then 0 else BitVec.ofNat 8 c.sq.val
    index := c.index
    tag := c.tag
    record := bytes }

/-- A command of a ring has completed: its index leaves the open commands and its reservation is used. -/
def closeCmd (c : CmdSrc) (kind : Nat) (bytes : List Byte) (s : State) : State :=
  let r := recordFor c kind bytes s
  deliver c.fn.val r
    ((s.onSq c.fn.val c.sq.val (fun q => { q with inFlight := q.inFlight.filter (fun i => i != c.index) })).onFn
      c.fn.val (fun h => { h with reserved := h.reserved - 1 }))

/-- NOPs at the head of their ring's open commands complete (R304). -/
def drainNops : Nat → Nat → Nat → State → State
  | 0, _, _, s => s
  | n + 1, f, i, s =>
    match (s.sq f i).inFlight with
    | [] => s
    | k :: _ =>
      match (s.fn f).nops.find? (fun c => c.sq.val == i && c.index == k) with
      | none => s
      | some c =>
        let s1 := s.onFn f (fun h => { h with nops := h.nops.filter (fun d => !(d == c)) })
        drainNops n f i (closeCmd c 2 (genericRec .ok 0 s1) s1)

/-- Complete a command with a record, and whatever NOPs waited for it. -/
def finish (c : CmdSrc) (kind : Nat) (bytes : List Byte) (s : State) : State :=
  let s1 := closeCmd c kind bytes s
  drainNops ((s1.fn c.fn.val).nops.length) c.fn.val c.sq.val s1

/-- Complete a command with the generic record; the answer is also what the module last replied. -/
def finishGeneric (c : CmdSrc) (st : Status) (result : Nat) (s : State) : State :=
  (finish c 2 (genericRec st result s) s).setReply { status := some st, value := BitVec.ofNat 64 result }

/-- What a pitch completion record reports beside its identity (R143). -/
structure PitchEnd where
  id : DWord
  status : Status
  inx : Bool := false
  sat : Bool := false
  nan : Bool := false
  lcore : Byte
  pcore : Byte := 0xFF
  ctx : Nat
  runs : Nat := 0
  cycles : Word := 0
  tokens : Nat := 0
  faultPc : BitVec 16 := 0xFFFF

/-- The 32 bytes of R143. -/
def pitchRec (e : PitchEnd) (s : State) : List Byte :=
  leBytes 8 e.id.toNat ++
  leBytes 4 (e.status.code.toNat + 16 * b2n e.inx + 32 * b2n e.sat + 64 * b2n e.nan + 128 * b2n s.env.holdover
    + 256 * e.lcore.toNat + 65536 * e.pcore.toNat + 2 ^ 24 * (e.ctx % 16) + 2 ^ 28 * min e.runs 15) ++
  leBytes 4 e.cycles.toNat ++ leBytes 4 (min e.tokens 0xFFFFFFFF) ++ leBytes 2 e.faultPc.toNat ++ [0, 0] ++
  leBytes 8 s.env.ts.toNat

/-- A pitch completes toward its submitter; a firmware pitch of the camp cores posts nothing. -/
def finishPitch (j : PitchJob) (e : PitchEnd) (s : State) : State :=
  match j.src with
  | some c => (finish c 0 (pitchRec e s) s).setReply { status := some e.status }
  | none => s.setReply { status := some e.status }

/-- R569: a pitch that never reaches a core. -/
def refusePitch (c : CmdSrc) (st : Status) (lcore : Byte) (id : DWord) (x : Nat) (s : State) : State :=
  (finish c 0 (pitchRec { id := id, status := st, lcore := lcore, ctx := x } s) s).setReply { status := some st }

/-- A started pitch that ends ABORTED without a core to report (a saved or waiting one). -/
def abortJob (j : PitchJob) (s : State) : State :=
  finishPitch j { id := j.desc.id, status := .aborted, lcore := j.lcore, ctx := j.ctx.val, runs := j.runs,
                  tokens := j.tokens } s

end Sys2Proof.Machine
end

