-- ==== Sys2Proof/Machine/Retire.lean ====
section
/-! DEFINITION. Counting and retirement of mesh links, Ledge banks and HBM pseudo-channels
(R151, R152, R156, R160, R166–R170, R224, R225), and the CRC-32C of R158. -/

namespace Sys2Proof.Machine

/-! ### CRC-32C (R158) -/

def crcBits : Nat → Nat → Nat
  | 0, c => c
  | n + 1, c => crcBits n (if c % 2 = 1 then (c / 2) ^^^ 0x82F63B78 else c / 2)

def crcStep (c : Nat) (b : Byte) : Nat := crcBits 8 (c ^^^ b.toNat)

/-- CRC-32C: reflected, initial value and final exclusive-or 0xFFFF_FFFF. -/
def crc32c (bs : List Byte) : Nat := bs.foldl crcStep 0xFFFFFFFF ^^^ 0xFFFFFFFF

/-! The events of this file carry argument 1 for a transient event and 0 for a retirement (R244). -/

/-! ### The mesh (R153–R156) -/

/-- North, east, south, west and local, coded as MESH_SEL.DIR. -/
def dirN : Nat := 0
def dirE : Nat := 1
def dirS : Nat := 2
def dirW : Nat := 3
def dirL : Nat := 4

def linkKey (router dir : Nat) : Nat := router * 8 + dir

/-- The neighbour of a router on a side, if the mesh has one there (R153). -/
def neighbour (r dir : Nat) : Option Nat :=
  let col := r % 13
  let row := r / 13
  if dir = dirN then (if row = 0 then none else some (r - 13))
  else if dir = dirE then (if col = 12 then none else some (r + 1))
  else if dir = dirS then (if row = 15 then none else some (r + 13))
  else if dir = dirW then (if col = 0 then none else some (r - 1))
  else none

def opposite (dir : Nat) : Nat := if dir < 4 then (dir + 2) % 4 else dir

/-- The router of an HBM edge port (R155). -/
def hbmRouter (s j : Nat) : Nat :=
  match s with
  | 0 => j * 13
  | 1 => j * 13 + 12
  | 2 => (6 + j) * 13
  | 3 => (6 + j) * 13 + 12
  | 4 => j
  | 5 => 7 + j
  | 6 => 15 * 13 + j
  | _ => 15 * 13 + 7 + j

/-- The side of its router on which an HBM edge port stands. -/
def hbmSide (s : Nat) : Nat :=
  if s = 4 ∨ s = 5 then dirN else if s = 6 ∨ s = 7 then dirS else if s % 2 = 0 then dirW else dirE

/-- A stop of R154 exists on the variant. -/
def stopPresent (v : Variant) (stop : Nat) : Bool :=
  decide (stop < 208) || (decide (256 ≤ stop) && decide (stop < 256 + 6 * v.stacks)) ||
  (decide (320 ≤ stop) && decide (stop < 320 + v.ports)) || stop == 352 ||
  (decide (360 ≤ stop) && decide (stop < 364))

/-- The router to which a stop attaches, and the side (MESH_STOP). -/
def stopRouter (stop : Nat) : Nat :=
  if stop < 208 then stop
  else if 256 ≤ stop ∧ stop < 304 then hbmRouter ((stop - 256) / 6) ((stop - 256) % 6)
  else Config.stopRouter stop % 208

def stopSide (stop : Nat) : Nat :=
  if stop < 208 then dirL
  else if 256 ≤ stop ∧ stop < 304 then hbmSide ((stop - 256) / 6)
  else Config.stopSide stop % 5

/-- The direction of the next hop in one dimension order: X first or Y first (R156). -/
def nextDir (xFirst : Bool) (here dst : Nat) : Nat :=
  let dx := dst % 13
  let dy := dst / 13
  let x := here % 13
  let y := here / 13
  let goX := if x < dx then some dirE else if dx < x then some dirW else none
  let goY := if y < dy then some dirS else if dy < y then some dirN else none
  if xFirst then (goX.orElse (fun _ => goY)).getD dirL else (goY.orElse (fun _ => goX)).getD dirL

/-- The links of a route, as (router, direction) pairs. -/
def routeLinks (xFirst : Bool) : Nat → Nat → Nat → List (Nat × Nat)
  | 0, _, _ => []
  | n + 1, here, dst =>
    let d := nextDir xFirst here dst
    match neighbour here d with
    | some r => (here, d) :: routeLinks xFirst n r dst
    | none => []

/-- A route crosses no retired link. -/
def routeOpen (s : State) (xFirst : Bool) (a b : Nat) : Bool :=
  (routeLinks xFirst 28 a b).all (fun (r, d) => !(fget {} s.mesh.links (linkKey r d)).retired)

/-- Some pair of routers has no route in either order (MESH_NOROUTE). -/
def anyNoRoute (s : State) : Bool :=
  (List.range 208).any (fun a => (List.range 208).any (fun b => !routeOpen s true a b && !routeOpen s false a b))

def onLink (k : Nat) (f : Link → Link) (s : State) : State :=
  s.onMesh (fun m => { m with links := fput {} k (f (fget {} m.links k)) m.links })

/-- R225: both directions of a link are retired. -/
def retireLink (router dir : Nat) (s : State) : State :=
  if (fget {} s.mesh.links (linkKey router dir)).retired then s
  else
    let s1 := onLink (linkKey router dir) (fun l => { l with retired := true, hopTs := [], failTs := [] }) s
    let s2 := match neighbour router dir with
      | some r => onLink (linkKey r (opposite dir)) (fun l => { l with retired := true, hopTs := [], failTs := [] }) s1
      | none => s1
    let s3 := s2.onMesh (fun m => { m with noRoute := m.noRoute || anyNoRoute s2 })
    campEvent 0x1101 (linkKey router dir) 0 (raise pgMesh 1 (errPerm pgMesh s3))

def day : Nat := 86400 * second

/-- R159, R225: a per-hop CRC error on the link at a side of a router. -/
def countHopErr (router dir : Nat) (s : State) : State :=
  let k := linkKey router dir
  let s1 := onLink k (fun l => { l with hopErr := satInc16 l.hopErr, hopTs := pushTs 256 s.env.ts l.hopTs }) s
  let s2 := raise pgMesh 0 (errTrans pgMesh s1)
  let s3 := campEvent 0x1101 k 1 s2
  if withinLast 256 day (fget {} s3.mesh.links k).hopTs then retireLink router dir s3 else s3

/-- R225: a failed transfer counted against a link. -/
def countLinkFail (router dir : Nat) (s : State) : State :=
  let k := linkKey router dir
  let s1 := onLink k (fun l => { l with failTs := pushTs 3 s.env.ts l.failTs }) s
  let s2 := campEvent 0x1101 k 1 (errTrans pgMesh s1)
  if withinLast 3 second (fget {} s2.mesh.links k).failTs then retireLink router dir s2 else s2

/-! ### Ledge banks (R151, R152) -/

def onBank (g : Nat) (f : LBank → LBank) (s : State) : State :=
  s.onLedge (fun l => { l with banks := fput {} g (f (fget {} l.banks g)) l.banks })

/-- The spare of a granule's die and slice: slice × 2 + die (R146). -/
def spareOf (v : Variant) (g : Nat) : Nat := g / v.gps * 2 + g % v.gps / 5

/-- R151, R152: a bank goes to its spare, or its granule becomes unavailable. -/
def retireBank (g : Nat) (s : State) : State :=
  let b := fget {} s.ledge.banks g
  if b.st = 1 ∨ b.st = 3 then s
  else
    let sp := spareOf s.env.variant g
    let s1 := if s.ledge.sparesUsed.contains sp then
        onBank g (fun b => { b with st := 3, ceTs := [], failTs := [] }) s
      else
        (onBank g (fun b => { b with st := 1, ptr := 0, ceTs := [], failTs := [] }) s).onLedge
          (fun l => { l with sparesUsed := l.sparesUsed ++ [sp] })
    campEvent 0x1201 g 0 (raise pgLedge 1 (errPerm pgLedge s1))

/-- R150, R225: a corrected word in a bank. -/
def countCorrected (g : Nat) (s : State) : State :=
  let s1 := onBank g (fun b => { b with ce := satInc16 b.ce, ceTs := pushTs 64 s.env.ts b.ceTs }) s
  let s2 := campEvent 0x1201 g 1 (raise pgLedge 0 (errTrans pgLedge s1))
  if withinLast 64 day (fget {} s2.ledge.banks g).ceTs then retireBank g s2 else s2

/-- R160, R225: a read that failed after all attempts, counted against a bank. -/
def countBankFail (g : Nat) (s : State) : State :=
  let s1 := onBank g (fun b => { b with failTs := pushTs 3 s.env.ts b.failTs }) s
  let s2 := campEvent 0x1201 g 1 (raise pgLedge 2 (errTrans pgLedge s1))
  if withinLast 3 second (fget {} s2.ledge.banks g).failTs then retireBank g s2 else s2

/-! ### HBM pseudo-channels (R166–R170) -/

def onPc (q : Nat) (f : PChan → PChan) (s : State) : State :=
  s.onHbm (fun h => { h with pcs := fput {} q (f (fget {} h.pcs q)) h.pcs })

/-- Retirements that the module-wide reserve still holds (R167). -/
def hbmLeft (s : State) : Nat := s.env.variant.stacks - s.hbm.retOrder.length

/-- R167, R170: a pseudo-channel is retired and remapped, or poisoned in place where no reserve is left. -/
def retirePc (q : Nat) (s : State) : State :=
  let c := fget {} s.hbm.pcs q
  if c.st ≠ 0 then s
  else
    let s1 := if hbmLeft s = 0 then onPc q (fun c => { c with st := 3, failTs := [], ceTs := [], mended := [] }) s
      else
        (onPc q (fun c => { c with st := 1, ptr := 0, failTs := [], ceTs := [] }) s).onHbm
          (fun h => { h with retOrder := h.retOrder ++ [q] })
    let p := pgHbm (q / 32)
    campEvent 0x1301 q 0 (raise p 1 (errPerm p s1))

/-- R166: a corrected error that the stack reports. -/
def countPcCorrected (q : Nat) (s : State) : State :=
  let s1 := onPc q (fun c => { c with ceTs := pushTs 31 s.env.ts c.ceTs }) s
  let s2 := campEvent 0x1301 q 1 (raise (pgHbm (q / 32)) 0 (errTrans (pgHbm (q / 32)) s1))
  if withinLast 16 day (fget {} s2.hbm.pcs q).ceTs then retirePc q s2 else s2

/-- R160, R166: a failed re-fetch counted against a pseudo-channel. -/
def countPcFail (q : Nat) (s : State) : State :=
  let s1 := onPc q (fun c => { c with failTs := pushTs 3 s.env.ts c.failTs }) s
  let s2 := raise (pgHbm (q / 32)) 2 s1
  if withinLast 3 second (fget {} s2.hbm.pcs q).failTs then retirePc q s2 else s2

/-! ### Failed transfers -/

/-- The memory unit that holds a physical byte. -/
def unitOf (s : State) (p : Phys) : MemUnit :=
  if p.hbm then .hbmPc (BitVec.ofNat 8 (hbmPlace s.env.variant s.hbm.retOrder (p.addr / 256)).1)
  else .ledgeBank (BitVec.ofNat 12 (p.addr / 2 ^ 20))

/-- A successful re-fetch counts one transient error against a pseudo-channel (R166, R225); R225 counts none against a
Ledge bank. -/
def countRefetchOk (u : MemUnit) (s : State) : State :=
  match u with
  | .ledgeBank _ => s
  | .hbmPc q =>
    campEvent 0x1301 q.toNat 1 (raise (pgHbm (q.toNat / 32)) 0 (errTrans (pgHbm (q.toNat / 32)) s))

/-- A failed read counts against its source unit (R160). -/
def countUnitFail (u : MemUnit) (s : State) : State :=
  match u with
  | .ledgeBank g => countBankFail g.toNat s
  | .hbmPc q => countPcFail q.toNat s

/-- R183: a transfer has failed after all attempts, or without a route. -/
def countFailed (s : State) : State :=
  raise pgMesh 2 (s.onMesh (fun m => { m with failed := satInc m.failed }))

/-- A read of a context's partition failed on a bad block: three re-fetches, then the failure, counted
against the source unit, since the block came with POISON set (R160, R171). -/
def failedRead (x space o n : Nat) (s : State) : State :=
  let bad := (blockStarts o n).filterMap (fun p =>
    match locate (s.cx x) space p with
    | some q => if physBad s q then some q else none
    | none => none)
  let s1 := countFailed (s.onMesh (fun m => { m with refetch := satAdd m.refetch 3 }))
  match bad with
  | q :: _ => countUnitFail (unitOf s q) s1
  | [] => s1

/-- R218: a memory unit is counted as a permanent fault at once. -/
def retireUnit (u : MemUnit) (s : State) : State :=
  match u with
  | .ledgeBank g => retireBank g.toNat s
  | .hbmPc q => retirePc q.toNat s

end Sys2Proof.Machine
end

