-- ==== Sys2Proof/Machine/CoreOps.lean ====
section
/-! DEFINITION. What every part does to a core: its error causes, tokens, trace, the WIPE, the start and the end
of a pitch, and the drain of a context that an ended pitch may finish (chapters 03, 04, 06, 07, 10, 15). -/

namespace Sys2Proof.Machine

/-! ### Masking and trace (R463, R485, R487) -/

/-- R463: a context is SEALED, or its TDI is CONFIG_LOCKED, RUN or ERROR. -/
def protectedCtx (s : State) (x : Nat) : Bool :=
  (s.sx x).sealedCtx || (s.fn (fnOf x)).tdi != .unlocked

/-- R485: a core is masked. -/
def masked (s : State) (c : Nat) : Bool :=
  (match (s.ctl c).owner with
   | some x => protectedCtx s x.val
   | none => false) ||
  (match (s.core c).run with
   | some r => protectedCtx s r.job.ctx.val
   | none => false)

/-- A trace record of R487. -/
def traceRec (s : State) (c kind x status idx op : Nat) (id : DWord) : List Byte :=
  let m := masked s c
  let ts := if m then s.env.ts.toNat / 100000 * 100000 else s.env.ts.toNat
  leBytes 8 ts ++ [BitVec.ofNat 8 kind, BitVec.ofNat 8 c, BitVec.ofNat 8 (x % 16 + 128 * b2n m),
    BitVec.ofNat 8 status] ++ leBytes 2 (if m then 0 else idx) ++
  [BitVec.ofNat 8 (if m then 0 else op), BitVec.ofNat 8 (b2n s.env.holdover)] ++ leBytes 8 id.toNat ++
  List.replicate 8 0

/-- R487: a core in trace records an event; a masked core records the start and end of pitches only. -/
def trace (c kind x status idx op : Nat) (id : DWord) (s : State) : State :=
  if s.dbg.tracing.contains c && (!masked s c || kind == 2 || kind == 3) then
    let r := fget {} s.dbg.rings c
    let r' : TraceRing := { wr := r.wr + 1, recs := fput [] r.wr.toNat (traceRec s c kind x status idx op id) r.recs }
    when (r.wr == 2047) (raise pgDbg 1) (s.onDbg (fun d => { d with rings := fput {} c r' d.rings }))
  else s

/-! ### Causes and tokens (R103, R107, R334) -/

/-- R107, R491: a core has halted at an instruction boundary. -/
def haltAck (c : Nat) (s : State) : State := when (s.dbg.sel.toNat == c) (raise pgDbg 0) (raise (pgCore c) 3 s)

/-- A cause is set in CORE_ERR_CAUSE: CORE_ERR is raised and BLK_ERR_TRANS counts it. -/
def setCause (c bitNo : Nat) (s : State) : State :=
  raise (pgCore c) 1 (errTrans (pgCore c)
    (s.onCore c (fun k => { k with errCause := k.errCause ||| (1#8 <<< bitNo) })))

/-- R334: a core returns its whole balance to the free tokens. -/
def returnBalance (c : Nat) (s : State) : State :=
  let b := (s.ctl c).bal
  (s.onCtl c (fun k => { k with bal := 0, firstReq := false })).onPwr
    (fun p => { p with free := p.free + b, granted := p.granted - b })

/-! ### WIPE (R104) -/

/-- The storage of a core as R104 leaves it. -/
def Core.clearStorage (k : Core) : Core :=
  { k with pm := [], bankA := {}, bankB := {}, loads := 0, anc := [], vec := [], wdog := 0, pitchId := 0,
           idHi := 0, ancStat := 0, unchk := 0, nanres := 0, pmStall := 0 }

/-- A core after a WIPE: its storage cleared and its sequencer empty. -/
def Core.wipe (k : Core) : Core :=
  { k.clearStorage with ibuf := [], nextBuf := [], pstate := .idle, pc := 0, run := none, next := none,
                        nextFetched := false }

/-! ### Queues of pitches (R194) -/

/-- The physical core that holds a logical number (R73). -/
def physOf (s : State) (l : Nat) : Option Nat :=
  (s.ctls.find? (fun c => c.2.st == .active && c.2.logical.toNat == l)).map (·.1)

/-- Put pitches back at the head of their context's queue. -/
def requeue (js : List PitchJob) (s : State) : State :=
  forAll js.reverse (fun j t => t.onCx j.ctx.val (fun c => { c with queue := j :: c.queue })) s

/-- Take back the pitch that a core holds pending, if any (R114). -/
def unpend (c : Nat) (s : State) : State :=
  match (s.core c).next with
  | some j => requeue [j] (s.onCore c (fun k => { k with next := none, nextFetched := false, nextBuf := [] }))
  | none => s

/-- Started and not completed pitches of a context: on cores, switched out, stopped and undecided, or waiting
for a core to run again, placed or not. -/
def startedCount (s : State) (x : Nat) : Nat :=
  (s.cores.filter (fun c => match c.2.run with
    | some r => r.job.ctx.val == x && r.job.src.isSome
    | none => false)).length +
  (s.cores.filter (fun c => c.2.next.any (fun j => j.ctx.val == x && j.reissue))).length +
  ((s.cx x).saved.filter (fun e => e.2.isSome)).length + ((s.cx x).queue.filter (·.reissue)).length +
  (s.fence.stops.filter (fun r => r.job.ctx.val == x)).length +
  (s.fence.waiting.filter (fun j => j.ctx.val == x)).length

/-! ### The start of a scrub (R217, R297, R483) -/

/-- The cores that hold a context's state in the running slot are wiped, and belong to no context. -/
def wipeOwned (x : Nat) (s : State) : State :=
  forAll s.ctls (fun e t =>
    if e.2.owner.map (·.val) = some x then
      (t.onCore e.1 Core.wipe).onCtl e.1 (fun k => { k with owner := none })
    else t) s

/-- The pages of a context that a pending WPAGE names go to NONE and the command completes with SCRUBBING. -/
def dropPages (x : Nat) (s : State) : State :=
  let mine := fun (w : WPageCmd) => w.pages.any (fun k => k / 512 == x)
  let s1 := s.onHost (fun h => { h with
    pages := h.pages.filter (fun e => e.1 / 512 != x), wcmds := h.wcmds.filter (fun w => !mine w) })
  forAll (s.host.wcmds.filter mine) (fun w t => finishGeneric w.cmd .scrubbing 0 t) s1

/-- R483: seal keys and page records are erased at the start of the scrub. -/
def eraseSeal (x : Nat) (s : State) : State :=
  s.onSx x (fun c => { c with cur := none, prev := none, offered := none, offer := [], loaded := [],
                              curKey := [], prevKey := [],
                              perEpoch := [], complete := false })

/-- The context enters SCRUBBING. -/
def startScrub (x : Nat) (s : State) : State :=
  let s1 := s.onCx x (fun c => { c with st := .scrubbing, scrubActive := true, progress := 0, saved := [] })
  campEvent 0x0204 x 0 (eraseSeal x (dropPages x (wipeOwned x s1)))

/-- R216: a DRAINING context enters SCRUBBING when no started pitch remains. -/
def checkDrain (x : Nat) (s : State) : State :=
  if (s.cx x).st = .draining ∧ startedCount s x = 0 then startScrub x s else s

/-! ### The start and the end of a pitch -/

/-- A bank as a starting pitch finds it: IDLE with VALID clear (R112). -/
def Bank.dropped (b : Bank) : Bank := { b with st := .idle, valid := false }

/-- R112, R113: a pitch starts on a core; nothing issues until its first tokens arrive. -/
def startRun (c : Nat) (j : PitchJob) (fetched : Bool) (s : State) : State :=
  let k := s.core c
  let r : Run := { job := { j with runs := j.runs + 1, reissue := false }, fetched := fetched }
  let k' := { k with run := some r, pitchId := j.desc.id, pc := 0, cycles := 0, wdog := 0, pstate := .waitTokens,
                     bankA := k.bankA.dropped, bankB := k.bankB.dropped,
                     ibuf := if fetched then k.nextBuf else [], nextBuf := [], nextFetched := false }
  let s1 := ((s.setCore c k').onCtl c (fun q => { q with firstReq := true })).onSx j.ctx.val
    (fun x => { x with started := true })
  trace c 2 j.ctx.val 0 0 0 j.desc.id s1

/-- The pitch held pending on a core starts, if the core is free for it (R114). -/
def startNext (c : Nat) (s : State) : State :=
  match (s.core c).run, (s.core c).next with
  | none, some j =>
    if (s.ctl c).switching || (s.ctl c).st != .active then s
    else startRun c j (s.core c).nextFetched (s.onCore c (fun k => { k with next := none }))
  | _, _ => s

/-- What a run reports when it ends with a status. -/
def Run.ending (r : Run) (c : Nat) (k : Core) (st : Status) (faultPc : BitVec 16) : PitchEnd :=
  { id := r.job.desc.id, status := st, inx := r.inx, sat := r.sat, nan := r.nan, lcore := r.job.lcore,
    pcore := BitVec.ofNat 8 c, ctx := r.job.ctx.val, runs := r.job.runs, cycles := k.cycles,
    tokens := r.job.tokens, faultPc := faultPc }

/-- A core that its pitch has left. -/
def Core.vacate (k : Core) (st : Status) : Core := { k with run := none, pstate := .idle, lastStatus := st }

/-! ### Fencing (R232–R237) -/

/-- Mesh hops between two cores. -/
def hops (a b : Nat) : Nat :=
  (max (a % 13) (b % 13) - min (a % 13) (b % 13)) + (max (a / 13) (b / 13) - min (a / 13) (b / 13))

/-- A reserve core that a promotion may choose (R233, R236). -/
def isReserve (s : State) (c : Nat) : Bool := (s.ctl c).st == .reserve && !(s.ctl c).diodeFault

/-- The nearest of some cores to a core, ties to the lowest number. -/
def nearest (dst : Nat) : List Nat → Option Nat
  | [] => none
  | c :: cs =>
    match nearest dst cs with
    | none => some c
    | some d => if hops c dst ≤ hops d dst then some c else some d

/-- R236, R237: which reserve takes each fenced logical number, in ascending order of the number. -/
def planReserves (s : State) : List (Nat × Nat) → List Nat → List (Nat × Nat)
  | [], _ => []
  | (l, f) :: rest, used =>
    match nearest f ((List.range 208).filter (fun c => isReserve s c && !used.contains c)) with
    | some c => (l, c) :: planReserves s rest (c :: used)
    | none => planReserves s rest used

/-- R236: a reserve that a promotion plans to use is sent its WIPE. -/
def wipePlanned (s : State) : State :=
  forAll (planReserves s s.fence.unbacked []) (fun e t =>
    if (t.ctl e.2).wiped || (t.ctl e.2).wiping then t else t.onCtl e.2 (fun q => { q with wiping := true })) s

/-- Keep fenced logical numbers in ascending order. -/
def insertNum (e : Nat × Nat) : List (Nat × Nat) → List (Nat × Nat)
  | [] => [e]
  | x :: xs => if e.1 < x.1 then e :: x :: xs else x :: insertNum e xs

/-- R232, R233, R235: a core is fenced: it takes no further pitch, its logical number has no core, its tokens return,
and its WIPE begins. A reserve core is fenced where it stands. -/
def fenceCore (c : Nat) (s : State) : State :=
  let q := s.ctl c
  if q.st = .fenced ∨ q.st = .wiping then s
  else
    let s1 := unpend c (returnBalance c s)
    let s2 := s1.onCtl c (fun k => { k with st := .wiping, wiping := true, wiped := false })
    let s3 := campEvent 0x0103 c 0 s2
    if q.st = .active then
      wipePlanned (s3.onFence (fun f => { f with unbacked := insertNum (q.logical.toNat, c) f.unbacked }))
    else wipePlanned s3

/-- A core whose diode is faulty is fenced once no pitch runs on it (R233). -/
def fenceIfDue (c : Nat) (s : State) : State :=
  if (s.ctl c).diodeFault && (s.core c).run.isNone then fenceCore c s else s

/-- R142, R228: the pitch on a core completes with a status: tokens return, PITCH_DONE is raised, and the
record goes to the camp cores, who hold back a RESIDUE completion. -/
def endRun (c : Nat) (st : Status) (faultPc : BitVec 16) (s : State) : State :=
  match (s.core c).run with
  | none => s
  | some r =>
    let e := r.ending c (s.core c) st faultPc
    let rec32 := pitchRec e s
    let s1 := trace c 3 r.job.ctx.val st.code.toNat 0 0 r.job.desc.id s
    let s2 := raise (pgCore c) 0 ((returnBalance c s1).onCore c (fun k => k.vacate st))
    let s3 := if st = .residue ∧ r.job.src.isSome then
        s2.onFence (fun f => { f with stops := f.stops ++ [⟨c, r.job, true, true, rec32, 0⟩] })
      else finishPitch r.job e s2
    let s4 := checkDrain r.job.ctx.val s3
    if (s4.ctl c).diodeFault then fenceIfDue c s4
    else if st = .residue ∧ r.job.src.isSome then unpend c s4
    else startNext c s4

/-- R103, R142: a core stops its pitch without commit and leaves a stop record. -/
def stopRun (c : Nat) (counted : Bool) (source : Nat) (s : State) : State :=
  match (s.core c).run with
  | none => s
  | some r =>
    let s1 := (returnBalance c s).onCore c (fun k => { k with run := none, pstate := .idle })
    unpend c (s1.onFence (fun f => { f with stops := f.stops ++ [⟨c, r.job, false, counted, [], source⟩] }))

end Sys2Proof.Machine
end

