-- ==== Sys2Proof/Machine/Issue.lean ====
section
/-! DEFINITION. The sequencer: which word is next, when it may issue, when it is refused, and the queues of the
units (R100–R102, R116, R127, R131). -/

namespace Sys2Proof.Machine

/-- R100, R107, R113, R332, R491: the sequencer may issue the word at PC. -/
def canIssue (s : State) (c : Nat) : Bool :=
  let q := s.ctl c
  match (s.core c).run with
  | none => false
  | some r =>
    r.fetched && r.granted && !r.ended && r.waitUnits.isNone && (s.core c).pstate == .run && !q.switching &&
    (!(q.halt || q.dbgHalt) || q.stepping)

/-- The word at PC, if the program has one. -/
def Core.word (k : Core) : Option DWord := k.ibuf[k.pc.toNat]?

/-- The unit of an instruction (R100, R115). -/
def unitNo : PitchInstr → Fin 6
  | .wld .. => 0
  | .wsw | .str .. => 1
  | .ancClr .. | .ancRd .. | .ancExp .. | .ancMrg .. => 2
  | .vec .. => 3
  | .movIn .. | .movOut .. | .movLocal .. | .snd .. | .rcv .. => 4
  | .sig .. | .watBar .. | .watLocal .. | .wipe | .fin => 5

/-- Bytes of pitch memory that an instruction reads once it has issued (R127). -/
def pmReads : PitchInstr → List (Nat × Nat)
  | .wld false p _ off => [(off.toNat * 64, PitchInstr.setBytes p)]
  | .str p act _ t _ stride =>
    (List.range t.toNat).map (fun i => ((act.toNat + i * stride.toNat) * 64, 64 * PitchInstr.actBytes p))
  | .ancMrg _ n a _ cc => [(a.toNat, n.toNat * (512 * (cc.toNat + 1)))]
  | .vec .vld _ _ _ _ _ _ addr => [(addr.toNat, 512)]
  | .movLocal src _ len => [(src.toNat * 64, PitchInstr.lines len * 64)]
  | _ => []

/-- Bytes of pitch memory that an instruction writes once it has issued (R101). -/
def pmWrite : PitchInstr → Option (Nat × Nat)
  | .ancRd fmt _ _ false _ n dst _ cc => some (dst.toNat, n.toNat * PitchInstr.recBytes fmt cc)
  | .ancExp _ n a _ cc => some (a.toNat, n.toNat * (512 * (cc.toNat + 1)))
  | .vec .cvt4 _ _ _ _ _ _ addr => some (addr.toNat, 72)
  | .vec .cvt6 _ _ _ _ _ _ addr => some (addr.toNat, 104)
  | .vec .cvt8 _ _ _ _ _ _ addr => some (addr.toNat, 136)
  | .vec .vst _ _ _ _ _ _ addr => some (addr.toNat, 512)
  | .movIn _ _ pml len => some (pml.toNat * 64, PitchInstr.lines len * 64)
  | .movLocal _ dst len => some (dst.toNat * 64, PitchInstr.lines len * 64)
  | .rcv _ pml len => some (pml.toNat * 64, PitchInstr.lines len * 64)
  | _ => none

/-- MOV OUT, SND, SIG, WAT, WIPE and END complete when they issue (R131) and hold no place in a queue. -/
def completesAtIssue : PitchInstr → Bool
  | .movOut .. | .snd .. | .sig .. | .watBar .. | .watLocal .. | .wipe | .fin => true
  | _ => false

/-- The entry rows that an instruction works on: the first and their number. -/
def anchorRows : PitchInstr → Option (Nat × Nat)
  | .ancClr _ e0 n | .ancRd _ _ _ _ e0 n _ _ _ | .ancExp e0 n _ _ _ | .ancMrg e0 n _ _ _ =>
    some (e0.toNat, n.toNat)
  | .str _ _ e0 t _ _ => some (e0.toNat, t.toNat)
  | _ => none

/-- R90: an anchor instruction waits for a stream into one of its rows, issued before it, that is still to enter the
grid. -/
def rowHeld (r : Run) (pc : Nat) (i : PitchInstr) : Bool :=
  match anchorRows i with
  | none => false
  | some (e, n) =>
    unitNo i == 2 && r.flights.any (fun f => f.unit == 1 && !f.done && decide (f.pc < pc) &&
      match (PitchInstr.decode f.word).bind anchorRows with
      | some (e', n') => rangesMeet e n e' n'
      | none => false)

/-- R100, R101: a queue of four, a scoreboard of sixteen, and the ranges that writes in flight hold. -/
def mustWait (r : Run) (i : PitchInstr) : Bool :=
  let mine := r.flights.filter (fun f => f.unit == unitNo i)
  let ranges := pmReads i ++ (pmWrite i).toList
  (!completesAtIssue i && decide (4 ≤ mine.length)) ||
  (((pmWrite i).isSome) && decide (16 ≤ (r.flights.filter (fun f => f.wr.isSome)).length)) ||
  r.flights.any (fun f => match f.wr with
    | some (a, n) => ranges.any (fun (b, m) => rangesMeet a n b m)
    | none => false)

/-- The region that an instruction names. -/
def Run.region (r : Run) (i : BitVec 3) : Region :=
  r.job.desc.regions.getD i.toNat { base := 0, len := 0, kind := 0 }

/-- R117, R126–R128, R132, R256: the limits of a word that its pitch and module decide. -/
def pitchAllows (s : State) (r : Run) : PitchInstr → Bool
  | .wld true p reg off =>
    let g := r.region reg
    g.isIn && decide (off.toNat * 64 + PitchInstr.setBytes p ≤ g.len.toNat)
  | .movIn reg roff _ len =>
    let g := r.region reg
    g.isIn && decide ((roff.toNat + PitchInstr.lines len) * 64 ≤ g.len.toNat)
  | .movOut reg roff _ len =>
    let g := r.region reg
    g.isOut && decide ((roff.toNat + PitchInstr.lines len) * 64 ≤ g.len.toNat)
  | .snd _ vl _ _ _ => vl == 0 || (!s.fab.torus && vl == 2)
  | .wipe => r.job.desc.fw && !r.job.desc.used.any Region.isOut
  | _ => true

/-- R116: the word at PC is refused; the pitch stops without commit and completes with DENIED. -/
def refuseWord (c : Nat) (s : State) : State := endRun c .denied (s.core c).pc s

/-- Opcode of a word (R115). -/
def opcodeOf (w : DWord) : Nat := w.toNat / 2 ^ 58

/-- The word at PC has issued: PC moves on, the count of R139 begins, and a single step ends (R491). -/
def issued (c : Nat) (w : DWord) (s : State) : State :=
  match (s.core c).run with
  | none => s
  | some r =>
    let s1 := trace c 0 r.job.ctx.val 0 (s.core c).pc.toNat (opcodeOf w) r.job.desc.id s
    let s2 := s1.onCore c (fun k => ({ k with pc := k.pc + 1, wdog := 0 }).onRun (fun r => { r with started := true }))
    if (s.ctl c).stepping then
      haltAck c (s2.onCtl c (fun q => { q with stepping := false, halted := true }))
    else s2

/-- Add an instruction to its unit's queue. -/
def enqueue (c : Nat) (f : Flight) (s : State) : State :=
  s.onCore c (fun k => k.onRun (fun r => { r with flights := r.flights ++ [f] }))

/-- Mark the flight of word `pc` as carried out by its unit. -/
def markDone (c pc : Nat) (s : State) : State :=
  s.onCore c (fun k => k.onRun (fun r => { r with
    flights := r.flights.map (fun f => if f.pc = pc then { f with done := true } else f) }))

/-- Remove the flight of word `pc`: the instruction has completed. -/
def retire (c pc : Nat) (s : State) : State :=
  match (s.core c).run with
  | none => s
  | some r =>
    let op := ((r.flights.find? (fun f => f.pc == pc)).map (fun f => opcodeOf f.word)).getD 0
    trace c 1 r.job.ctx.val 0 pc op r.job.desc.id
      (s.onCore c (fun k => ({ k with wdog := 0 }).onRun (fun r => { r with
        flights := r.flights.filter (fun f => f.pc != pc) })))

/-- The oldest instruction of a unit that its unit has not carried out. -/
def oldestOpen (r : Run) (u : Nat) : Option Flight := r.flights.find? (fun f => f.unit.val == u && !f.done)

/-- The oldest flight of a unit that its unit has carried out. -/
def oldestDone (r : Run) (u : Nat) : Option Flight := r.flights.find? (fun f => f.unit.val == u && f.done)

end Sys2Proof.Machine
end

