-- ==== Sys2Proof/Machine/FabricOps.lean ====
section
/-! DEFINITION. The Ikinum fabric's shared operations: blocks and their CRC, encryption, routing, runs and credits,
delivery, returns, and the reset of a port (R246–R281). -/

namespace Sys2Proof.Machine

/-! ### Blocks (R249, R250) -/

def tyData : BitVec 4 := 0
def tyIdle : BitVec 4 := 1
def tyReturn : BitVec 4 := 2
def tyKey : BitVec 4 := 3
def tyWinWr : BitVec 4 := 4
def tyWinRd : BitVec 4 := 5
def tyWinRdd : BitVec 4 := 6
def tyWinAck : BitVec 4 := 7
def tyColl : BitVec 4 := 8

/-- R249: RETURN, WIN_RD and WIN_ACK carry no payload. -/
def headerOnly (t : BitVec 4) : Bool := t == tyReturn || t == tyWinRd || t == tyWinAck

/-- Blocks that take a credit of their virtual lane (R255, R257). -/
def credited (b : FabBlock) : Bool := b.type != tyIdle && b.type != tyKey

/-- Header bytes 0–11. -/
def hdr12 (b : FabBlock) : List Byte :=
  leBytes 12 (b.dst.toNat + b.src.toNat * 2 ^ 16 + b.job.toNat * 2 ^ 32 + b.type.toNat * 2 ^ 44 + b.vl.val * 2 ^ 48
    + b.len.toNat * 2 ^ 50 + b2n b.ke * 2 ^ 52 + b2n b.poison * 2 ^ 53 + b.lseq.toNat * 2 ^ 54
    + b.addr.toNat * 2 ^ 66 + b.ch.toNat * 2 ^ 92)

/-- R250: the CRC over header bytes 0–11 and the payload as it is on the link. -/
def blockCrc (b : FabBlock) : Word := BitVec.ofNat 32 (crc32c (hdr12 b ++ b.payload))

/-- A payload of whole lines, zero beyond LEN (R249). -/
def padded (t : BitVec 4) (bs : List Byte) : List Byte :=
  if headerOnly t then [] else (bs ++ List.replicate (256 - bs.length) 0).take 256

/-- The lines of a payload that LEN declares valid. -/
def validLines (b : FabBlock) : List Byte := b.payload.take (64 * (b.len.toNat + 1))

/-- A block as it leaves an endpoint of this module; the link fields are set when it is sent. -/
def mkBlock (s : State) (dst : BitVec 16) (job : BitVec 12) (t : BitVec 4) (vl : VlId) (lines addr ch : Nat)
    (payload : List Byte) : FabBlock :=
  { dst := dst, src := s.fab.node, job := job, type := t, vl := vl, len := BitVec.ofNat 2 (lines - 1), ke := false,
    poison := false, lseq := 0, addr := BitVec.ofNat 26 addr, ch := BitVec.ofNat 4 ch, crc := 0,
    payload := padded t payload }

/-- The payloads of a run enciphered or deciphered: R275 runs one key stream over them in order. -/
def cipher (p : Nat) (tx : Bool) (gen run : Nat) : Nat → List FabBlock → List FabBlock
  | _, [] => []
  | o, b :: bs =>
    { b with payload := b.payload.zipIdx.map (fun (x, i) => x ^^^ Config.fabStream p tx gen run (o + i)) } ::
      cipher p tx gen run (o + b.payload.length) bs

/-- The tag over the headers and the payloads as sent. -/
def runTag (p : Nat) (tx : Bool) (gen run : Nat) (bs : List FabBlock) : BitVec 128 :=
  Config.fabTag p tx gen run (bs.flatMap hdr12) (bs.flatMap (·.payload))

/-! ### Ports and routes (R247, R261–R263) -/

def Port.carries (q : Port) : Bool := q.st == .up || q.st == .degraded

/-- Buffers of a VL (R257): CREDITS, 128 at reset. -/
def Port.cfg (q : Port) (v : Nat) : Nat := (fget 128 q.credits v).toNat
def Port.vl (q : Port) (v : Nat) : VlState := fget {} q.vls v
def Port.onVl (v : Nat) (f : VlState → VlState) (q : Port) : Port := { q with vls := fput {} v (f (q.vl v)) q.vls }

/-- The contexts that hold a port (CTX_FAB). -/
def portHeld (s : State) (p : Nat) : Bool := s.ctx.ctxs.any (fun e => e.2.ports.getLsbD p)

/-- R281: a port held by a SCRUBBING context grants no requester. -/
def portQuiet (s : State) (p : Nat) : Bool :=
  s.ctx.ctxs.any (fun e => e.2.ports.getLsbD p && e.2.st == .scrubbing)

inductive Route where
  | here
  | port (p : Nat)
  | wait
  | none
  deriving DecidableEq, Repr

/-- R262: the route of a block. -/
def routeOf (s : State) (b : FabBlock) (origin : Option CtxId) : Route :=
  if b.dst = s.fab.node then .here
  else
    let mask := fget 0 s.fab.routes b.dst.toNat
    let entry := (List.range s.env.variant.ports).filter (fun p => mask.getLsbD p)
    let own := match origin with
      | some x => (s.cx x.val).ports
      | Option.none => 0
    let cands := entry.filter (fun p => (s.port p).carries &&
      (if own != 0 then own.getLsbD p else !portHeld s p))
    if cands.length > 0 then
      let h := crc32c (leBytes 2 b.dst.toNat ++ leBytes 2 b.job.toNat ++ leBytes 1 b.ch.toNat)
      .port (cands.getD (h % cands.length) 0)
    else if entry.any (fun p => (s.port p).st == .training || (s.port p).st == .keying || (s.port p).st == .reset)
      then .wait
    else .none

/-- The context that holds a job number (R265). -/
def jobCtx (s : State) (job : BitVec 12) : Option CtxId :=
  (List.finRange 16).find? (fun x => (s.fx x.val).valid && (s.fx x.val).job == job)

/-! ### Sending on a port (R252, R256, R258) -/

def retryCount (q : Port) : Nat := ((q.retry.map (fun r => r.blocks.length)).sum)

/-- The blocks of a queue that can be sent now, at most `n`, and those that stay: a block whose VL holds no credit
waits, and so does every later block of that VL. -/
def takeSendable : Nat → (Nat → Nat) → List TxBlk → List TxBlk × List TxBlk
  | _, _, [] => ([], [])
  | n, k, b :: bs =>
    let v := b.blk.vl.val
    if n = 0 then ([], b :: bs)
    else if !credited b.blk then
      let r := takeSendable (n - 1) k bs
      (b :: r.1, r.2)
    else if 0 < k v then
      let r := takeSendable (n - 1) (fun w => if w = v then k v - 1 else k w) bs
      (b :: r.1, r.2)
    else
      let r := takeSendable n (fun w => if w = v then 0 else k w) bs
      (r.1, b :: r.2)

/-- R252, R258, R276: one run leaves: each block takes a credit and an LSEQ, and the run a tag. -/
def sendRun (p : Nat) (bs rest : List TxBlk) (q : Port) : Port :=
  let turn := q.txNext && q.newFirst.isNone
  let ke := if turn then !q.ke else q.ke
  let gen := if turn then q.txGen + 1 else q.txGen
  let run := if turn then 0 else q.txRuns.toNat
  let wire := cipher p true gen run 0 (bs.zipIdx.map (fun (b, i) =>
    { b.blk with ke := ke, lseq := q.nextLseq + BitVec.ofNat 12 i }))
  let wire := wire.map (fun b => { b with crc := blockCrc b })
  let tag := runTag p true gen run wire
  let q1 := bs.foldl (fun q b => if credited b.blk then
    q.onVl b.blk.vl.val (fun v => { v with k := v.k - 1, sSent := v.sSent + 1 }) else q) q
  { q1 with
    ke := ke, txGen := gen, txRuns := BitVec.ofNat 64 (run + 1), txq := rest
    newFirst := if turn then some q.nextLseq else q.newFirst
    nextLseq := q.nextLseq + BitVec.ofNat 12 bs.length
    retry := q.retry ++ [{ first := q.nextLseq, blocks := wire, plain := bs, tag := tag }]
    lcws := [.tag q.nextLseq bs.length tag] }

/-- Send runs of up to 8 blocks while the retry buffer of 64 has room and credits allow. -/
def pumpPort : Nat → Nat → Port → Port
  | 0, _, q => q
  | n + 1, p, q =>
    let room := 64 - retryCount q
    if q.carries && 0 < room then
      match takeSendable (min 8 room) (fun v => (q.vl v).k.toNat) q.txq with
      | ([], _) => q
      | (bs, rest) => pumpPort n p (sendRun p bs rest q)
    else q

def pumpTx (p : Nat) (s : State) : State :=
  if portQuiet s p then s else s.setPort p (pumpPort 64 p (s.port p))

/-- R256: the virtual lane of a block that leaves through a port. -/
def egressVl (s : State) (p : Nat) (v : VlId) : VlId :=
  if s.fab.torus && (s.port p).dateline && v.val < 2 then v + 2 else v

/-- A granted block enters a port's transmit queue. -/
def queueOn (p : Nat) (b : FabBlock) (origin : Option CtxId) (s : State) : State :=
  pumpTx p (s.onPort p (fun q => { q with txq := q.txq ++ [⟨{ b with vl := egressVl s p b.vl }, origin⟩] }))

/-- R258: a receive buffer of a port becomes free; `b` is the block that held it. A credit goes back with the next
ACKCR, and a port being disabled is DOWN when its buffers are empty (R279). -/
def freeBuf (inPort : Option PortId) (b : FabBlock) (s : State) : State :=
  match inPort with
  | none => s
  | some p =>
    let q := s.port p.val
    let q1 := { q with rxBuf := q.rxBuf.erase b }.onVl b.vl.val (fun v => { v with rFreed := v.rFreed + 1 })
    if q.disabling && q.st == .reset && q.exchanged && q1.rxBuf.isEmpty then
      campEvent 0x2003 p.val 0 (raise (pgFab p.val) 1 (s.setPort p.val { q1 with st := .down, disabling := false }))
    else s.setPort p.val q1

/-! ### Returns and delivery records (R268, R269) -/

/-- A return joins the delivery record of its destination, job, channel and reason. -/
def recordReturn (x : CtxId) (node : BitVec 16) (job : BitVec 12) (ch : BitVec 4) (vl : BitVec 2)
    (reason : BitVec 4) (unknown : Bool) (s : State) : State :=
  let same := fun (d : DlvRec) =>
    d.ctx == x && d.node == node && d.job == job && d.ch == ch && d.reason == reason && d.unknown == unknown
  if s.fab.dlv.any same then
    s.onFab (fun f => { f with dlv := f.dlv.map (fun d => if same d then { d with count := d.count + 1 } else d) })
  else s.onFab (fun f => { f with dlv := f.dlv ++ [⟨x, node, job, ch, vl, reason, unknown, 1, s.env.ts⟩] })

/-- A copy ends: every block is answered, or one cannot be (R274). -/
def endCopy (w : WinCopy) (st : Status) (s : State) : State :=
  finishGeneric w.cmd st 0 (s.onFab (fun f => { f with copies := f.copies.erase w }))

/-- R269, R274: a RETURN reaches the module that sent the block. -/
def takeReturn (b : FabBlock) (s : State) : State :=
  match jobCtx s b.job with
  | none => raise pgFabCommon 1 (s.onFab (fun f => { f with undeliv := satInc f.undeliv }))
  | some x =>
    let reason := BitVec.ofNat 4 b.addr.toNat
    let s1 := recordReturn x b.src b.job b.ch (Config.returnVl b.src.toNat b.job.toNat b.ch.toNat) reason false s
    match s1.fab.copies.find? (fun w => w.ctx == x && w.node == b.src) with
    | some w => if reason = 4 ∨ reason = 2 ∨ reason = 1 ∨ reason = 5 then endCopy w .undeliverable s1 else s1
    | none => s1

/-- The window block that a window type's header names (R249): ADDR and, above it, CH. -/
def winBlock (b : FabBlock) : Nat := b.addr.toNat + b.ch.toNat * 2 ^ 26

/-- One block of a copy is answered. -/
def answered (w : WinCopy) (k : Nat) (s : State) : State :=
  let w' := { w with left := w.left.erase k }
  if w'.left = [] then endCopy w .ok s
  else s.onFab (fun f => { f with copies := f.copies.map (fun c => if c = w then w' else c) })

/-- The copy that a WIN_ACK or WIN_RDD answers. -/
def copyOf (s : State) (b : FabBlock) (write : Bool) : Option WinCopy :=
  match jobCtx s b.job with
  | none => none
  | some x => s.fab.copies.find? (fun w => w.ctx == x && w.node == b.src && w.write == write &&
      w.left.contains (winBlock b))

/-- R274: a write acknowledgement counts toward completing the copy. -/
def takeAck (b : FabBlock) (s : State) : State :=
  match copyOf s b true with
  | some w => answered w (winBlock b) s
  | none => s

/-- R274: read data goes to the local address of the copy; poisoned data fails the copy. -/
def takeRdd (b : FabBlock) (s : State) : State :=
  match copyOf s b false with
  | some w =>
    if b.poison then endCopy w .crc s
    else
      let a := w.addr + BitVec.ofNat 64 (256 * (winBlock b - w.first))
      answered w (winBlock b) (gaWrite w.ctx.val a (validLines b) s)
  | none => s

/-- A response of this node's own endpoints: to its destination by R262, or dropped and, for a RETURN, counted. -/
def sendBack (b : FabBlock) (s : State) : State :=
  if s.fab.holding.contains b.dst.toNat && b.dst != s.fab.node then
    s.onFab (fun f => { f with held := f.held ++ [⟨b.dst, b, none, none⟩] })
  else
    match routeOf s b none with
    | .here =>
      if b.type = tyReturn then takeReturn b s
      else if b.type = tyWinAck then takeAck b s
      else if b.type = tyWinRdd then takeRdd b s
      else s
    | .port p => queueOn p b none s
    | .wait => s.onFab (fun f => { f with held := f.held ++ [⟨b.dst, b, none, none⟩] })
    | .none =>
      if b.type = tyReturn then raise pgFabCommon 1 (s.onFab (fun f => { f with undeliv := satInc f.undeliv }))
      else s

/-- R268: a block is discarded, its buffer freed, and a RETURN with the reason goes to its source. The RETURN names
the destination that was not reached as its SRC. -/
def sendReturn (b : FabBlock) (reason : Nat) (inPort : Option PortId) (s : State) : State :=
  let r : FabBlock := { mkBlock s b.src b.job tyReturn 1 1 reason b.ch.toNat [] with src := b.dst }
  sendBack r (campEvent 0x2005 (match inPort with | some p => p.val | none => 0) reason
    (errTrans pgFabCommon (freeBuf inPort b s)))

/-! ### Receive channels (R266–R268) -/

def lineAddr (c : Chan) (k : Nat) : DWord := c.addr + BitVec.ofNat 64 (64 * (k % c.size.toNat))

/-- WP − RP ≤ SIZE − (LEN + 1). -/
def hasSpace (c : Chan) (b : FabBlock) : Bool := decide ((c.wp - c.rp).toNat + (b.len.toNat + 1) ≤ c.size.toNat)

/-- R266: the lines of a block are written at WP, wrapping at SIZE. -/
def putLines (x ch : Nat) (b : FabBlock) (s : State) : State :=
  let c := s.chan x ch
  let s1 := forAll (List.range (b.len.toNat + 1)) (fun i t =>
    gaWrite x (lineAddr c (c.wp.toNat + i)) ((b.payload.drop (64 * i)).take 64) t) s
  s1.onChan x ch (fun c => { c with wp := c.wp + BitVec.ofNat 32 (b.len.toNat + 1) })

/-- R266, R268: an arriving DATA block is delivered, waits, or is returned. -/
def deliverData (b : FabBlock) (inPort : Option PortId) (s : State) : State :=
  match jobCtx s b.job with
  | none => sendReturn b 2 inPort s
  | some x =>
    let c := s.chan x.val b.ch.toNat
    let st := (s.cx x.val).st
    if st = .disabled ∨ st = .scrubbing then sendReturn b 2 inPort s
    else if !c.en || c.broken then sendReturn b 3 inPort s
    else if (List.range (b.len.toNat + 1)).any (fun i =>
        let a := lineAddr c (c.wp.toNat + i)
        meetsSealed s x.val (gaSpace a) (gaOff a) 64) then sendReturn b 4 inPort s
    else if hasSpace c b && c.waiting.isEmpty then freeBuf inPort b (putLines x.val b.ch.toNat b s)
    else s.onChan x.val b.ch.toNat (fun c => { c with waiting := c.waiting ++ [(b, inPort)] })

/-- Blocks that waited for space are delivered in order while they fit. -/
def drainChan : Nat → Nat → Nat → State → State
  | 0, _, _, s => s
  | n + 1, x, ch, s =>
    let c := s.chan x ch
    match c.waiting with
    | [] => s
    | (b, ip) :: rest =>
      if hasSpace c b then
        drainChan n x ch (freeBuf ip b (putLines x ch b (s.onChan x ch (fun c => { c with waiting := rest }))))
      else s

/-- All blocks that wait for a channel are returned with a reason. -/
def returnWaiting (x ch reason : Nat) (s : State) : State :=
  let ws := (s.chan x ch).waiting
  forAll ws (fun w t => sendReturn w.1 reason w.2 t) (s.onChan x ch (fun c => { c with waiting := [] }))

/-! ### Windows (R274) -/

/-- The context that a window access reaches and the offset in its partition, or the reason of its return. -/
def winTarget (s : State) (b : FabBlock) : Nat ⊕ (CtxId × Nat) :=
  match jobCtx s b.job with
  | none => .inl 2
  | some x =>
    let f := s.fx x.val
    let st := (s.cx x.val).st
    if st = .disabled ∨ st = .scrubbing then .inl 2
    else if !f.winEn || decide (f.winSize.toNat * unit64M < winBlock b * 256 + 256) then .inl 4
    else
      let o := f.winBase.toNat * unit64M + winBlock b * 256
      if inPartition (s.cx x.val) 2 o 256 && !meetsSealed s x.val 2 o 256 then .inr (x, o) else .inl 4

/-- The response to a window access: back to its source on the response lane. -/
def winAnswer (s : State) (b : FabBlock) (t : BitVec 4) (payload : List Byte) : FabBlock :=
  { mkBlock s b.src b.job t 1 (b.len.toNat + 1) b.addr.toNat b.ch.toNat payload with src := b.dst }

/-- R274: a WIN_WR is written and answered with a WIN_ACK, or returned. -/
def takeWinWr (b : FabBlock) (inPort : Option PortId) (s : State) : State :=
  match winTarget s b with
  | .inl r => sendReturn b r inPort s
  | .inr (x, o) => sendBack (winAnswer s b tyWinAck []) (freeBuf inPort b (gwrite x.val 2 o (validLines b) s))

/-- R274: a WIN_RD is answered with a WIN_RDD, or returned. A block that cannot be read goes out with POISON set. -/
def takeWinRd (b : FabBlock) (inPort : Option PortId) (s : State) : State :=
  match winTarget s b with
  | .inl r => sendReturn b r inPort s
  | .inr (x, o) =>
    match gread s x.val 2 o 256 with
    | some bs => sendBack (winAnswer s { b with len := 3 } tyWinRdd bs) (freeBuf inPort b s)
    | none =>
      sendBack { winAnswer s { b with len := 3 } tyWinRdd [] with poison := true }
        (freeBuf inPort b (failedRead x.val 2 o 256 s))

/-! ### Requests (R262, R263) -/

/-- What became of a block that its sender hands to the fabric. -/
structure Emit where
  st : State
  lost : Bool

/-- R262, R263: a block goes to this node's own endpoint, to a port, waits, or has no route. -/
def emit (b : FabBlock) (origin : Option CtxId) (inPort : Option PortId) (s : State) : Emit :=
  if s.fab.holding.contains b.dst.toNat && b.dst != s.fab.node then
    ⟨s.onFab (fun f => { f with held := f.held ++ [⟨b.dst, b, origin, inPort⟩] }), false⟩
  else
    match routeOf s b origin with
    | .here =>
      ⟨if b.type = tyData then deliverData b inPort s
       else if b.type = tyWinWr then takeWinWr b inPort s
       else if b.type = tyWinRd then takeWinRd b inPort s
       else if b.type = tyReturn then takeReturn b (freeBuf inPort b s)
       else if b.type = tyWinAck then takeAck b (freeBuf inPort b s)
       else if b.type = tyWinRdd then takeRdd b (freeBuf inPort b s)
       else s, false⟩
    | .port p => ⟨queueOn p b origin (freeBuf inPort b s), false⟩
    | .wait => ⟨s.onFab (fun f => { f with held := f.held ++ [⟨b.dst, b, origin, inPort⟩] }), false⟩
    | .none =>
      if inPort.isSome then
        ⟨if b.type = tyReturn then
            raise pgFabCommon 1 ((freeBuf inPort b s).onFab (fun f => { f with undeliv := satInc f.undeliv }))
          else sendReturn b 1 inPort s, false⟩
      else if b.type = tyReturn then
        ⟨raise pgFabCommon 1 (s.onFab (fun f => { f with undeliv := satInc f.undeliv })), false⟩
      else ⟨s, true⟩

/-- A block whose sender is no longer waiting for the outcome: a locally originated block without a route makes a
delivery record, and fails the copy that sent it (R141, R269, R274). -/
def emitLater (b : FabBlock) (origin : Option CtxId) (inPort : Option PortId) (s : State) : State :=
  let e := emit b origin inPort s
  if e.lost then
    match origin with
    | some x =>
      let s1 := recordReturn x b.dst b.job b.ch (BitVec.ofNat 2 b.vl.val) 1 false e.st
      match s1.fab.copies.find? (fun w => w.ctx == x && w.node == b.dst) with
      | some w => if b.type = tyWinWr ∨ b.type = tyWinRd then endCopy w .undeliverable s1 else s1
      | none => s1
    | none => e.st
  else e.st

/-- Blocks held back are routed again, in order, but for entries that still hold (R263). -/
def releaseHeld (s : State) : State :=
  let hs := s.fab.held
  forAll hs (fun h t => emitLater h.blk h.origin h.inPort t) (s.onFab (fun f => { f with held := [] }))

/-- R263, R285: the candidate set of an entry has changed: new blocks for it are held for FAB_ROUTE_HOLD µs. -/
def startHold (node : Nat) (s : State) : State :=
  raise pgFabCommon 3 (if s.fab.hold = 0 ∨ s.fab.holding.contains node then s
    else s.onFab (fun f => { f with holding := f.holding ++ [node] }))

/-- A port began or ceased to carry blocks: the candidate sets of the entries that name it change, and blocks
that waited are looked at again. -/
def portChanged (p : Nat) (s : State) : State :=
  releaseHeld (forAll (s.fab.routes.filter (fun e => e.2.getLsbD p)) (fun e t => startHold e.1 t) s)

/-! ### A port's states (R247, R248, R260, R279) -/

/-- The port enters DOWN or FAILED. -/
def portDown (p : Nat) (st : PortSt) (s : State) : State :=
  let was := (s.port p).carries
  let s1 := campEvent 0x2003 p 0 (raise (pgFab p) 1 (s.onPort p (fun q =>
    { q with st := st, disabling := false, attempts := 0, txReady := false, rxReady := false, rotating := false,
             lanesUp := 0 })))
  let s2 := if st = .failed then errPerm pgFabCommon s1 else s1
  if was then portChanged p s2 else releaseHeld s2

def laneCount (m : BitVec 4) : Nat := b2n (m.getLsbD 0) + b2n (m.getLsbD 1) + b2n (m.getLsbD 2) + b2n (m.getLsbD 3)

/-- The port enters TRAINING. -/
def startTraining (p : Nat) (s : State) : State :=
  s.onPort p (fun q => { q with
    st := .training, txReady := false, rxReady := false, rotating := false
    txNext := false, newFirst := none, rxNext := false })

/-- R260, step 5: both sides restart their counters, and the port re-enters UP or DEGRADED. -/
def enterUp (p : Nat) (s : State) : State :=
  let q := s.port p
  let occ := fun v => (q.rxBuf.filter (fun b => b.vl.val == v)).length
  let q1 := (List.range 4).foldl (fun q v =>
    let o := fget 0 q.partnerOcc v
    q.onVl v (fun _ => { k := BitVec.ofNat 32 (q.cfg v - o), sSent := BitVec.ofNat 32 o,
                         rRecv := BitVec.ofNat 32 (occ v) })) q
  let q2 := { q1 with
    st := if laneCount q.lanesUp = 4 then .up else .degraded
    retrain := false, retrainAfter := false, attempts := 0, exchanged := false, viaOther := false
    txq := q.retry.flatMap (fun r => r.plain) ++ q.txq
    retry := [], nextLseq := 0, rxExp := 0, auditWait := [], partnerOcc := [] }
  pumpTx p (portChanged p (campEvent 0x2002 p 0 (raise (pgFab p) 0 (s.setPort p q2))))

/-- R279: what remains of a port's blocks moves to another port to the same partner, or is returned. -/
def disposeBlocks (p : Nat) (bs : List TxBlk) (s : State) : State :=
  let q := s.port p
  let unknown := !q.exchanged
  let other := (List.range 16).find? (fun r => r != p && (s.port r).carries && q.partnerV &&
    (s.port r).partnerV && (s.port r).partnerNode == q.partnerNode)
  match other with
  | some r => forAll bs (fun b t => queueOn r b.blk b.origin t) s
  | none =>
    forAll bs (fun b t =>
      let t1 := raise (pgFab p) 6 (t.onPort p (fun q => { q with returned := satInc q.returned }))
      if b.blk.src = t.fab.node then
        match b.origin with
        | some x =>
          let t2 := campEvent 0x2005 p 5 (errTrans pgFabCommon
            (recordReturn x b.blk.dst b.blk.job b.blk.ch (BitVec.ofNat 2 b.blk.vl.val) 5 unknown t1))
          match t2.fab.copies.find? (fun w => w.ctx == x && w.node == b.blk.dst) with
          | some w => if b.blk.type = tyWinWr ∨ b.blk.type = tyWinRd then endCopy w .undeliverable t2 else t2
          | none => t2
        | none => if b.blk.type = tyReturn then
            raise pgFabCommon 1 (t.onFab (fun f => { f with undeliv := satInc f.undeliv })) else t
      else if b.blk.type = tyReturn then
        raise pgFabCommon 1 (t.onFab (fun f => { f with undeliv := satInc f.undeliv }))
      else sendReturn b.blk 5 none t1) s

/-- The handshake of R260 is over, or was given up. -/
def afterExchange (p : Nat) (s : State) : State :=
  let q := s.port p
  let left := q.retry.flatMap (fun r => r.plain)
  if q.disabling then
    let s1 := disposeBlocks p (left ++ q.txq) (s.onPort p (fun q => { q with retry := [], txq := [] }))
    if (s1.port p).rxBuf.isEmpty then portDown p .down s1
    else s1.onPort p (fun q => { q with st := .reset, exchanged := true })
  else
    let s1 := if q.exchanged then s
      else disposeBlocks p left (s.onPort p (fun q => { q with retry := [] }))
    if q.retrainAfter then startTraining p (s1.onPort p (fun q => { q with retrain := false }))
    else enterUp p s1

/-- Occupied receive buffers of each VL. -/
def occupied (q : Port) (v : Nat) : Nat := (q.rxBuf.filter (fun b => b.vl.val == v)).length

def lastAccepted (q : Port) : BitVec 12 := q.rxExp - 1

/-- R260: a fabric port reset begins; `why` is 0 for an audit, 1 for a retrain, 2 for a disable. -/
def beginReset (p : Nat) (why : Nat) (s : State) : State :=
  let q := s.port p
  if q.carries then
    let w := Lcw.reset (Config.resetCause why) (lastAccepted q) ((List.range 4).map (occupied q))
    portChanged p (campEvent 0x2004 p (Config.resetCause why).toNat (s.onPort p (fun q =>
      { q with st := .reset, exchanged := false, viaOther := false, retrainAfter := why == 1, lcws := [w],
               auditWait := [] })))
  else if why = 1 ∧ (q.st = .training ∨ q.st = .keying) then startTraining p s
  else s

/-- R260, step 3: entries at or before the partner's last accepted LSEQ leave the retry buffer. -/
def dropCovered (last : BitVec 12) (rs : List FabRun) : List FabRun :=
  rs.filter (fun r => decide (2048 ≤ (last - (r.first + BitVec.ofNat 12 (r.blocks.length - 1))).toNat))

/-- The partner's side of the exchange is known: its last accepted LSEQ and its occupied buffers. -/
def exchange (p : Nat) (last : BitVec 12) (os : List Nat) (s : State) : State :=
  s.onPort p (fun q => { q with
    exchanged := true, retry := dropCovered last q.retry
    partnerOcc := (os.zipIdx).foldl (fun m (o, v) => fput 0 v o m) [] })

/-! ### Lanes (R225, R246, R278) -/

/-- A lane is retired: it is counted, and the port retrains without it, or has too few left. -/
def retireLane (p l : Nat) (s : State) : State :=
  if (s.port p).lanesRet.getLsbD l then s
  else
    campEvent 0x2101 (4 * p + l) 0 (raise (pgFab p) 2 (errPerm (pgFab p) (s.onPort p (fun q =>
      { q with lanesRet := q.lanesRet ||| (1#4 <<< l) }))))

/-- A retry is attributed to the lanes that reported an uncorrectable codeword, or to none (R246). -/
def countRetry (p : Nat) (lanes : BitVec 4) (s : State) : State :=
  let s1 := campEvent 0x2001 p 0 (errTrans (pgFab p) s)
  if lanes = 0 then s1.onPort p (fun q => { q with retries := satInc q.retries })
  else
    let ls := (List.range 4).filter (fun l => lanes.getLsbD l)
    let s2 := forAll ls (fun l t => (t.onPort p (fun q =>
      { q with laneUnc := fput 0 l (satInc16 (fget 0 q.laneUnc l)) q.laneUnc,
               laneTs := fput [] l (pushTs 4096 t.env.ts (fget [] q.laneTs l)) q.laneTs })))  s1
    let s3 := forAll ls (fun l t => campEvent 0x2101 (4 * p + l) 1 t) s2
    let bad := ls.filter (fun l =>
      let h := fget [] (s3.port p).laneTs l
      !(s3.port p).lanesRet.getLsbD l && (withinLast 64 second h || withinLast 4096 day h))
    if bad = [] then s3 else beginReset p 1 (forAll bad (fun l t => retireLane p l t) s3)

end Sys2Proof.Machine
end

