-- ==== Sys2Proof/Machine/GridUnit.lean ====
section
/-! DEFINITION. The weight load engine and the cell grid: banks, and what a WLD, a WSW and an STR do when their
unit takes them (R74–R85, R117–R121). -/

namespace Sys2Proof.Machine

def Core.bank (k : Core) (b : Bool) : Bank := if b then k.bankB else k.bankA
def Core.setBank (k : Core) (b : Bool) (v : Bank) : Core :=
  if b then { k with bankB := v } else { k with bankA := v }

/-- A WLD is loading a bank. -/
def Run.loading (r : Run) (b : Bool) : Bool := r.flights.any (fun f => f.bank == some b)

/-- R118: the bank that a WLD takes when it starts, if one is free for it. -/
def pickBank (k : Core) (r : Run) : Option Bool :=
  let free := fun b => (k.bank b).st == .idle && !r.loading b
  if free false && free true then
    match k.bankA.valid, k.bankB.valid with
    | false, _ => some false
    | true, false => some true
    | true, true => some (decide (k.bankB.order < k.bankA.order))
  else if free false then some false
  else if free true then some true
  else none

/-- R119: the bank that a WSW activates: IDLE with VALID set, the more recently loaded of two. -/
def pickSwap (k : Core) : Option Bool :=
  let ok := fun b => (k.bank b).st == .idle && (k.bank b).valid
  if ok false && ok true then some (decide (k.bankA.order < k.bankB.order))
  else if ok false then some false
  else if ok true then some true
  else none

/-- R83: a WSW takes effect; the bank that was ACTIVE drains. -/
def swapBanks (k : Core) (b : Bool) : Core :=
  let drain := fun (x : Bank) => if x.st = .active then { x with st := .draining } else x
  let k1 := { k with bankA := drain k.bankA, bankB := drain k.bankB }
  k1.setBank b { k1.bank b with st := .active }

/-- The bytes of a weight set at its source; `none` where a block fails all its attempts. -/
def weightSource (s : State) (c : Nat) (r : Run) (src : Bool) (p : BitVec 4) (reg : BitVec 3) (off : BitVec 26) :
    Option (List Byte) :=
  let n := PitchInstr.setBytes p
  if src then
    let g := r.region reg
    gread s r.job.ctx.val (gaSpace g.base) (gaOff g.base + off.toNat * 64) n
  else some ((s.core c).readPm (off.toNat * 64) n)

/-- One token's pass over one logical column (R44–R49, R77, R78). -/
def passPairs (fa fw : OpFmt) (act : List Byte) (wset : List Byte) (k : Nat) : Option (List Pair) :=
  ((List.range 64).mapM (fun r =>
    rowPairs fa fw ((act.drop (r * fa.bytes)).take fa.bytes)
      ((wset.drop ((k * 64 + r) * fw.bytes)).take fw.bytes))).map List.flatten

/-- R52, R87: an STR's tokens accumulate into the anchors. -/
def streamTokens (k : Core) (b : Bank) (p : BitVec 4) (act : Nat) (e0 t : Nat) (colOff stride : Nat) : Core :=
  match pairing p.toNat with
  | none => k
  | some (fa, fw, g) =>
    (List.range t).foldl (fun k1 tok =>
      let bytes := k1.readPm ((act + tok * stride) * 64) (64 * fa.bytes)
      (List.range (64 / g)).foldl (fun k2 col =>
        let a := colOff + col
        k2.setAnchor (e0 + tok) a ((k2.anchor (e0 + tok) a).pass (passPairs fa fw bytes b.set col))) k1) k

/-- The active bank, if there is one (R82). -/
def Core.activeBank (k : Core) : Option Bank :=
  if k.bankA.st = .active then some k.bankA else if k.bankB.st = .active then some k.bankB else none

/-- R118: a WLD starts where no WLD is loading and a bank is free for it. -/
def loadStep (c : Nat) (f : Flight) (r : Run) (s : State) : Option State :=
  match PitchInstr.decode f.word, f.bank, pickBank (s.core c) r with
  | some (.wld src p reg off), none, some b =>
    if r.flights.any (fun g => g.bank.isSome) then none
    else
      match weightSource s c r src p reg off with
      | none =>
        let g := r.region reg
        some (endRun c .crc (BitVec.ofNat 16 f.pc)
          (failedRead r.job.ctx.val (gaSpace g.base) (gaOff g.base + off.toNat * 64) (PitchInstr.setBytes p) s))
      | some bytes =>
        some (s.onCore c (fun k =>
          (k.setBank b { k.bank b with valid := false, pair := p, set := bytes }).onRun (fun r => { r with
            flights := r.flights.map (fun g => if g.pc = f.pc then { g with bank := some b } else g) })))
  | _, _, _ => none

/-- A WLD issued before word `pc` has not completed. -/
def loadBefore (r : Run) (pc : Nat) : Bool := r.flights.any (fun f => f.unit.val == 0 && decide (f.pc < pc))

/-- R90: an anchor instruction issued before word `pc` still has to work on one of the rows. -/
def anchorBefore (r : Run) (pc : Nat) (rows : Option (Nat × Nat)) : Bool :=
  match rows with
  | none => false
  | some (e, n) =>
    r.flights.any (fun f => f.unit == 2 && !f.done && decide (f.pc < pc) &&
      match (PitchInstr.decode f.word).bind anchorRows with
      | some (e', n') => rangesMeet e n e' n'
      | none => false)

/-- The grid's oldest instruction: a WSW waits for every WLD issued before it, then swaps or fails (R83, R84, R119);
an STR streams from the ACTIVE bank or fails (R120, R121). -/
def gridStep (c : Nat) (f : Flight) (r : Run) (s : State) : Option State :=
  let k := s.core c
  match PitchInstr.decode f.word with
  | some .wsw =>
    if loadBefore r f.pc then none
    else
      match pickSwap k with
      | none => some (endRun c .denied (BitVec.ofNat 16 f.pc) s)
      | some b => some (retire c f.pc (s.onCore c (fun k => swapBanks k b)))
  | some (.str p act e0 t b stride) =>
    if anchorBefore r f.pc (some (e0.toNat, t.toNat)) then none
    else
      match k.activeBank with
      | none => some (endRun c .denied (BitVec.ofNat 16 f.pc) s)
      | some bk =>
        if bk.pair != p then some (endRun c .denied (BitVec.ofNat 16 f.pc) s)
        else
          some (markDone c f.pc (s.onCore c (fun k =>
            streamTokens k bk p act.toNat e0.toNat t.toNat (16 * b.toNat) stride.toNat)))
  | _ => none

end Sys2Proof.Machine
end

