-- ==== Sys2Proof/Machine/AnchorUnit.lean ====
section
/-! DEFINITION. The anchor file: what a clear, a read-out, an export and a merge do (R50–R71, R86–R91, R122–R124). -/

namespace Sys2Proof.Machine

/-- What a run of conversions or checks reports: the flags of R69, the NaN results, the unchecked read-outs of
R60, and a residue failure of R59. -/
structure Report where
  inx : Bool := false
  sat : Bool := false
  nan : Bool := false
  nanres : Nat := 0
  unchk : Nat := 0
  resfail : Bool := false
  deriving DecidableEq, Repr

def Report.and (a b : Report) : Report :=
  { inx := a.inx || b.inx, sat := a.sat || b.sat, nan := a.nan || b.nan, nanres := a.nanres + b.nanres,
    unchk := a.unchk + b.unchk, resfail := a.resfail || b.resfail }

def joinReports (rs : List Report) : Report := rs.foldl Report.and {}

/-- R69, R107: the flags of a conversion go to the run and to CORE_ANC_STAT, and NaN results are counted. -/
def applyReport (c : Nat) (r : Report) (s : State) : State :=
  let s1 := s.onCore c (fun k =>
    let st := b2n r.inx + 2 * b2n r.sat + 4 * b2n r.nan + 8 * b2n r.resfail
    ({ k with ancStat := k.ancStat ||| BitVec.ofNat 4 st, unchk := satAdd k.unchk r.unchk,
              nanres := satAdd k.nanres r.nanres }).onRun (fun q => { q with
        inx := q.inx || r.inx, sat := q.sat || r.sat, nan := q.nan || r.nan, residue := q.residue || r.resfail }))
  when r.resfail (setCause c 0) s1

/-- R59, R60: the check that a read-out or an export makes of one entry. -/
def checkEntry (e : Anchor) : Report := { unchk := b2n (!e.checked), resfail := e.residueFails }

/-- R65: one FP32 or BF16 result of an entry. -/
def readFp (f : FpFmt) (md : RMode) (u : Nat) (e : Anchor) : Nat × Report :=
  if e.nan then (f.nan, { nan := true, nanres := 1 })
  else
    let v := convFp f md u e.value
    (v.bits, { inx := v.inx || e.inx, sat := v.sat || e.sat })

/-- R66: one block of 16 entries. -/
def readBlock (w : Nat) (md : RMode) (us : List Nat) (es : List Anchor) : List Byte × Report :=
  let b := convBlock w md us (es.map (fun e => if e.nan then none else some e.value))
  (packBlock w b.code b.mants,
   if b.nan then { nan := true, nanres := 16 }
   else { inx := b.inx || es.any (·.inx), sat := b.sat || es.any (·.sat) })

/-- The columns of quarters CSTART to CSTART + CCNT (R123). -/
def quarterCols (cs cc : BitVec 2) : List Nat := (List.range (16 * (cc.toNat + 1))).map (· + 16 * cs.toNat)

/-- The FP32 or BF16 results of one entry row. -/
def rowFp (k : Core) (f : FpFmt) (md : RMode) (id : DWord) (ord : Nat) (e : Nat) (cols : List Nat) :
    List Nat × Report :=
  let rs := cols.map (fun a => readFp f md (srU id ord (e * 64 + a)) (k.anchor e a))
  (rs.map (·.1), joinReports (rs.map (·.2)))

/-- The blocks of one entry row, one for each quarter. -/
def rowBlocks (k : Core) (w : Nat) (md : RMode) (id : DWord) (ord : Nat) (e : Nat) (qs : List Nat) :
    List Byte × Report :=
  let rs := qs.map (fun q =>
    let cols := (List.range 16).map (· + 16 * q)
    readBlock w md (cols.map (fun a => srU id ord (e * 64 + a))) (cols.map (fun a => k.anchor e a)))
  (rs.flatMap (·.1), joinReports (rs.map (·.2)))

/-- The output record of one entry row (R123). -/
def rowRecord (k : Core) (fmt : Nat) (md : RMode) (id : DWord) (ord e : Nat) (cs cc : BitVec 2) :
    List Byte × Report :=
  match fmt with
  | 0 => let r := rowFp k .fp32 md id ord e (quarterCols cs cc); (r.1.flatMap (leBytes 4), r.2)
  | 1 => let r := rowFp k .bf16 md id ord e (quarterCols cs cc); (r.1.flatMap (leBytes 2), r.2)
  | 2 => rowBlocks k 4 md id ord e ((List.range (cc.toNat + 1)).map (· + cs.toNat))
  | 3 => rowBlocks k 6 md id ord e ((List.range (cc.toNat + 1)).map (· + cs.toNat))
  | _ => rowBlocks k 8 md id ord e ((List.range (cc.toNat + 1)).map (· + cs.toNat))

/-- R91: two records of FP32 rows fill one register, the rest of each half +0. -/
def rowsToReg (a b : List Byte) : List Word :=
  let half := fun (bs : List Byte) => (bytesReg (bs ++ List.replicate (512 - bs.length) 0)).take 64
  half a ++ half b

/-- R122, R51: clear entry rows and set their window exponent. -/
def clearRows (k : Core) (l : BitVec 10) (e0 n : Nat) : Core :=
  (List.range n).foldl (fun k1 i => (List.range 64).foldl (fun k2 a =>
    k2.setAnchor (e0 + i) a (Anchor.cleared l)) k1) k

/-- R123: CLR clears each entry that is read and keeps its L. -/
def clearRead (k : Core) (e0 n : Nat) (cols : List Nat) : Core :=
  (List.range n).foldl (fun k1 i => cols.foldl (fun k2 a =>
    k2.setAnchor (e0 + i) a (Anchor.cleared (k2.anchor (e0 + i) a).l)) k1) k

/-- R123: the read-out with conversion; it is one conversion instruction for the ordinal of R68. -/
def readOut (c : Nat) (fmt : BitVec 4) (rm : BitVec 3) (clr vr : Bool) (e0 : BitVec 8) (n : BitVec 9)
    (dst : BitVec 21) (cs cc : BitVec 2) (s : State) : State :=
  match (s.core c).run, RMode.ofCode rm.toNat with
  | some r, some md =>
    let k := s.core c
    let cols := quarterCols cs cc
    let recs := (List.range n.toNat).map (fun i =>
      rowRecord k fmt.toNat md r.job.desc.id r.ord.toNat (e0.toNat + i) cs cc)
    let checks := (List.range n.toNat).flatMap (fun i =>
      cols.map (fun a => checkEntry (k.anchor (e0.toNat + i) a)))
    let bytes := recs.map (·.1)
    let k1 := if vr then
        (List.range (n.toNat / 2)).foldl (fun k2 i =>
          k2.setReg (dst.toNat + i) (rowsToReg (bytes.getD (2 * i) []) (bytes.getD (2 * i + 1) []))) k
      else k.writePm dst.toNat bytes.flatten
    let k2 := if clr then clearRead k1 e0.toNat n.toNat cols else k1
    applyReport c (joinReports (recs.map (·.2) ++ checks))
      (s.setCore c (k2.onRun (fun q => { q with ord := q.ord + 1 })))
  | _, _ => s

/-- R124, R61: the export of raw records, row by row. CORE_ANC_STAT takes the INX and SAT of the entries (R107). -/
def exportRows (c : Nat) (e0 n dst : Nat) (cs cc : BitVec 2) (s : State) : State :=
  let k := s.core c
  let es := (List.range n).flatMap (fun i => (quarterCols cs cc).map (fun a => k.anchor (e0 + i) a))
  let st := b2n (es.any (·.inx)) + 2 * b2n (es.any (·.sat))
  applyReport c (joinReports (es.map checkEntry))
    (s.setCore c { k.writePm dst (es.flatMap Anchor.record) with ancStat := k.ancStat ||| BitVec.ofNat 4 st })

/-- R124, R62: the merge of raw records, row by row. -/
def mergeRows (c : Nat) (e0 n src : Nat) (cs cc : BitVec 2) (s : State) : State :=
  let k := s.core c
  let m := 16 * (cc.toNat + 1)
  let recs := (List.range n).flatMap (fun i => (List.range m).map (fun j =>
    ((e0 + i, 16 * cs.toNat + j), RawRec.ofBytes (k.readPm (src + 32 * (i * m + j)) 32))))
  let k1 := recs.foldl (fun k2 (p, r) => k2.setAnchor p.1 p.2 ((k2.anchor p.1 p.2).merge r)) k
  applyReport c { resfail := recs.any (fun (_, r) => r.residueFails) } (s.setCore c k1)

/-- What the anchor file does for an instruction. -/
def anchorWork (c : Nat) (i : PitchInstr) (s : State) : State :=
  match i with
  | .ancClr l e0 n => s.onCore c (fun k => clearRows k l e0.toNat n.toNat)
  | .ancRd fmt rm clr vr e0 n dst cs cc => readOut c fmt rm clr vr e0 n dst cs cc s
  | .ancExp e0 n a cs cc => exportRows c e0.toNat n.toNat a.toNat cs cc s
  | .ancMrg e0 n a cs cc => mergeRows c e0.toNat n.toNat a.toNat cs cc s
  | _ => s

/-- R90: the anchor file's oldest instruction waits for a stream into one of its rows, then is carried out. -/
def anchorStep (c : Nat) (f : Flight) (r : Run) (s : State) : Option State :=
  match PitchInstr.decode f.word with
  | none => none
  | some i => if rowHeld r f.pc i then none else some (markDone c f.pc (anchorWork c i s))

end Sys2Proof.Machine
end

