-- ==== Sys2Proof/Machine/VectorUnit.lean ====
section
/-! DEFINITION. The vector unit (R91–R96, R125). -/

namespace Sys2Proof.Machine

/-- The lanes of a register as FP32 encodings: BF16 lanes are widened exactly (R93). -/
def lanesOf (bf : Bool) (ws : List Word) : List Nat := if bf then (halves ws).map widen else lanes32 ws

/-- Lanes of FP32 results back into a register, each rounded once to BF16 where the operation is BF16 (R93). -/
def ofLanes (bf : Bool) (xs : List Nat) : List Word := if bf then ofHalves (xs.map narrow) else of32 xs

/-- A lane-wise operation of one, two or three operands. -/
def map1 (bf : Bool) (f : Nat → Nat) (a : List Word) : List Word := ofLanes bf ((lanesOf bf a).map f)

def map2 (bf : Bool) (f : Nat → Nat → Nat) (a b : List Word) : List Word :=
  ofLanes bf (List.zipWith f (lanesOf bf a) (lanesOf bf b))

def map3 (bf : Bool) (f : Nat → Nat → Nat → Nat) (a b c : List Word) : List Word :=
  ofLanes bf (List.zipWith (fun g z => g z) (List.zipWith f (lanesOf bf a) (lanesOf bf b)) (lanesOf bf c))

/-- The lanes of a register in their own format, for operations that move or compare encodings. -/
def rawLanes (bf : Bool) (ws : List Word) : List Nat := if bf then halves ws else lanes32 ws
def ofRaw (bf : Bool) (xs : List Nat) : List Word := if bf then ofHalves xs else of32 xs
def fmtOf (bf : Bool) : FpFmt := if bf then .bf16 else .fp32
def allOnes (bf : Bool) : Nat := if bf then 0xFFFF else 0xFFFFFFFF

def raw2 (bf : Bool) (f : Nat → Nat → Nat) (a b : List Word) : List Word :=
  ofRaw bf (List.zipWith f (rawLanes bf a) (rawLanes bf b))

/-- R125: a compare gives all ones or zero. -/
def cmp (bf : Bool) (f : Nat → Nat → Bool) (a b : List Word) : List Word :=
  raw2 bf (fun x y => if f x y then allOnes bf else 0) a b

/-- R125: SEL takes VA where the lane of VC is non-zero, else VB. -/
def sel (bf : Bool) (a b c : List Word) : List Word :=
  ofRaw bf (List.zipWith (fun (p : Nat × Nat) z => if z = 0 then p.2 else p.1)
    ((rawLanes bf a).zip (rawLanes bf b)) (rawLanes bf c))

/-- One value in lane 0, +0 in the others. -/
def lane0 (bf : Bool) (v : Nat) : List Word := ofRaw bf (v :: List.replicate ((if bf then 256 else 128) - 1) 0)

/-- R95: each register is reduced by the pairwise tree, then the results in register order by the same tree. -/
def reduce (bf : Bool) (op : Nat → Nat → Nat) (regs : List (List Word)) : Nat :=
  treeReduce op 8 (regs.map (fun ws => treeReduce op 9 (rawLanes bf ws)))

/-- The sum and the maximum in the operation's own format (R93, R95). -/
def addIn (bf : Bool) (x y : Nat) : Nat := if bf then narrow (fpAdd (widen x) (widen y)) else fpAdd x y

/-- R67: FP32 lanes to BF16 lanes 0–127, the rest +0. -/
def cvth (md : RMode) (id : DWord) (ord : Nat) (ws : List Word) : List Word × Report :=
  let cs := (lanes32 ws).zipIdx.map (fun (x, j) => cvtBf16 md (srU id ord j) x)
  (ofHalves (cs.map (·.bits) ++ List.replicate 128 0),
   { inx := cs.any (·.inx), sat := cs.any (·.sat), nan := cs.any (·.nan), nanres := (cs.filter (·.nan)).length })

/-- R67: FP32 lanes to eight blocks. An FP32 NaN or infinity gives a NaN block. -/
def cvtBlocks (w : Nat) (md : RMode) (id : DWord) (ord : Nat) (ws : List Word) : List Byte × Report :=
  let vs := lanes32 ws
  let bs := (List.range 8).map (fun b =>
    let xs := (vs.drop (16 * b)).take 16
    convBlock w md ((List.range 16).map (fun i => srU id ord (16 * b + i))) (xs.map finOf))
  (bs.flatMap (fun b => packBlock w b.code b.mants),
   { inx := bs.any (·.inx), sat := bs.any (·.sat), nan := bs.any (·.nan),
     nanres := 16 * (bs.filter (·.nan)).length })

/-- The result register of an operation that writes VD. -/
def vecResult (op : VOp) (bf : Bool) (a b c : List Word) (many : List (List Word)) : Option (List Word) :=
  match op with
  | .add => some (map2 bf fpAdd a b)
  | .sub => some (map2 bf fpSub a b)
  | .mul => some (map2 bf fpMul a b)
  | .fma => some (map3 bf fpFma a b c)
  | .min => some (raw2 bf (fpMin (fmtOf bf)) a b)
  | .max => some (raw2 bf (fpMax (fmtOf bf)) a b)
  | .clt => some (cmp bf (fpLtIeee (fmtOf bf)) a b)
  | .ceq => some (cmp bf (fpEq (fmtOf bf)) a b)
  | .sel => some (sel bf a b c)
  | .abs => some (ofRaw bf ((rawLanes bf a).map (fpAbs (fmtOf bf))))
  | .neg => some (ofRaw bf ((rawLanes bf a).map (fpNeg (fmtOf bf))))
  | .exp => some (map1 bf fpExp a)
  | .rcp => some (map1 bf fpRcp a)
  | .rsq => some (map1 bf fpRsq a)
  | .rsum => some (lane0 bf (reduce bf (addIn bf) many))
  | .rmax => some (lane0 bf (reduce bf (fpMax (fmtOf bf)) many))
  | .bcast => some (ofRaw bf ((rawLanes bf a).map (fun _ => (rawLanes bf a).headD 0)))
  | .cvth | .cvt4 | .cvt6 | .cvt8 | .vld | .vst => none

/-- The width of a block conversion's target. -/
def cvtWidth : VOp → Nat
  | .cvt4 => 4
  | .cvt6 => 6
  | _ => 8

/-- R125: the vector unit carries out its oldest instruction. -/
def vecStep (c : Nat) (f : Flight) (r : Run) (s : State) : Option State :=
  match PitchInstr.decode f.word with
    | some (.vec op bf vd va vb vc rm addr) =>
      let k := s.core c
      let a := k.reg va.toNat
      let md := (RMode.ofCode rm.toNat).getD .rne
      let next := fun (k : Core) => k.onRun (fun q => { q with ord := q.ord + 1 })
      some (markDone c f.pc (match op with
      | .vld => s.setCore c (k.setReg vd.toNat (bytesReg (k.readPm addr.toNat 512)))
      | .vst => s.setCore c (k.writePm addr.toNat (regBytes a))
      | .cvth =>
        let x := cvth md r.job.desc.id r.ord.toNat a
        applyReport c x.2 (s.setCore c (next (k.setReg vd.toNat x.1)))
      | .cvt4 | .cvt6 | .cvt8 =>
        let x := cvtBlocks (cvtWidth op) md r.job.desc.id r.ord.toNat a
        applyReport c x.2 (s.setCore c (next (k.writePm addr.toNat x.1)))
      | _ =>
        let many := (List.range (vc.toNat + 1)).map (fun j => k.reg (va.toNat + j))
        match vecResult op bf a (k.reg vb.toNat) (k.reg vc.toNat) many with
        | some ws => s.setCore c (k.setReg vd.toNat ws)
        | none => s))
    | _ => none

end Sys2Proof.Machine
end

