-- ==== Sys2Proof/Machine/MoveUnit.lean ====
section
/-! DEFINITION. The block move engine: MOV IN, MOV LOCAL and RCV (R126–R128). -/

namespace Sys2Proof.Machine

/-- Lines a run has taken so far from a channel. -/
def Run.takenOf (r : Run) (ch : Nat) : Nat := fget 0 r.taken ch

/-- Bytes of `n` lines of a channel's ring from line `k` on. -/
def chanLines (s : State) (x ch k n : Nat) : Option (List Byte) :=
  ((List.range n).mapM (fun i => gaRead s x (lineAddr (s.chan x ch) (k + i)) 64)).map List.flatten

/-- The block move engine's oldest instruction, as far as data have arrived: an IN or an RCV whose block fails after
all re-fetches ends the pitch with CRC (R141). -/
def moveStep (c : Nat) (f : Flight) (r : Run) (s : State) : Option State :=
  let x := r.job.ctx.val
  let done := fun (t : State) => some (markDone c f.pc t)
  match PitchInstr.decode f.word with
  | some (.movIn reg roff pml len) =>
    let g := r.region reg
    let o := gaOff g.base + roff.toNat * 64
    let m := PitchInstr.lines len * 64
    match gread s x (gaSpace g.base) o m with
    | some bs => done (s.onCore c (fun k => k.writePm (pml.toNat * 64) bs))
    | none => some (endRun c .crc (BitVec.ofNat 16 f.pc) (failedRead x (gaSpace g.base) o m s))
  | some (.movLocal src dst len) =>
    let m := PitchInstr.lines len * 64
    done (s.onCore c (fun k => k.writePm (dst.toNat * 64) (k.readPm (src.toNat * 64) m)))
  | some (.rcv ch pml len) =>
    let q := s.chan x ch.toNat
    let t0 := r.takenOf ch.toNat
    let m := PitchInstr.lines len
    if (q.wp - q.rp).toNat < t0 + m then none
    else
      match chanLines s x ch.toNat (q.rp.toNat + t0) m with
      | some bs =>
        done (s.onCore c (fun k => (k.writePm (pml.toNat * 64) bs).onRun (fun r =>
          { r with taken := fput 0 ch.toNat (t0 + m) r.taken })))
      | none =>
        some (endRun c .crc (BitVec.ofNat 16 f.pc)
          (failedRead x (gaSpace q.addr) (gaOff (lineAddr q (q.rp.toNat + t0))) (64 * m) s))
  | _ => none

end Sys2Proof.Machine
end

