-- ==== Sys2Proof/Machine/Units.lean ====
section
/-! DEFINITION. The units of a core taking instructions from their queues, and the issue of a word (R100–R102, R116,
R332). -/

namespace Sys2Proof.Machine

/-- R332: a unit starts an instruction only while the core holds the reserve. -/
def holdsReserve (s : State) (c : Nat) : Bool := decide (s.pwr.reserve.toNat ≤ (s.ctl c).bal)

/-- What a unit does with the oldest instruction in its queue that it has not carried out; `none` where it waits. -/
def unitStep (c u : Nat) (s : State) : Option State :=
  match (s.core c).run with
  | none => none
  | some r =>
    match oldestOpen r u with
    | none => none
    | some f =>
      match u with
      | 0 => loadStep c f r s
      | 1 => gridStep c f r s
      | 2 => anchorStep c f r s
      | 3 => vecStep c f r s
      | _ => moveStep c f r s

/-- The units in the program order of their oldest open instructions. -/
def unitOrder (s : State) (c : Nat) : List Nat :=
  match (s.core c).run with
  | none => []
  | some r =>
    let open_ := r.flights.filter (fun f => !f.done && oldestOpen r f.unit.val == some f)
    open_.map (fun f => f.unit.val)

/-- The units carry out what they can, in program order, at most `n` instructions. -/
def pumpN : Nat → Nat → State → State
  | 0, _, s => s
  | n + 1, c, s =>
    match (unitOrder s c).findSome? (fun u => unitStep c u s) with
    | some t => pumpN n c t
    | none => s

/-- Enough turns for every queue of four in five units. -/
def pumpUnits (c : Nat) (s : State) : State :=
  if holdsReserve s c && !(s.ctl c).switching then pumpN 24 c s else s

/-- The sequencer looks at the word at PC. A refused word stops the pitch; a word of the class that `want` accepts
issues with the effect `eff`, unless a queue or a hazard holds it; any other word is left. Then the units carry out
what they can. -/
def issueWith (want : PitchInstr → Bool) (eff : Nat → PitchInstr → State → State) (c : Nat) (s : State) : State :=
  if !canIssue s c then s
  else
    match (s.core c).word, (s.core c).run with
    | some w, some r =>
      match PitchInstr.decode w with
      | none => refuseWord c s
      | some i =>
        if !pitchAllows s r i then refuseWord c s
        else if !want i || mustWait r i then s
        else
          let f : Flight := { pc := (s.core c).pc.toNat, unit := unitNo i, word := w, wr := pmWrite i }
          let s1 := issued c w s
          pumpUnits c (eff c i (if completesAtIssue i then s1 else enqueue c f s1))
    | _, _ => s

/-- An instruction that goes into its unit's queue. -/
def issueAs (want : PitchInstr → Bool) (c : Nat) (s : State) : State := issueWith want (fun _ _ t => t) c s

end Sys2Proof.Machine
end

