-- ==== Sys2Proof/Machine/Anchor.lean ====
section
/-! DEFINITION. The anchor commands (R122–R124). -/

namespace Sys2Proof.Machine

def isAncClr : PitchInstr → Bool
  | .ancClr .. => true
  | _ => false

def isAncRd : PitchInstr → Bool
  | .ancRd .. => true
  | _ => false

def isAncExp : PitchInstr → Bool
  | .ancExp .. => true
  | _ => false

def isAncMrg : PitchInstr → Bool
  | .ancMrg .. => true
  | _ => false

/-- ANC.CLR (R51, R122). -/
def execAncClr (c : CoreId) (s : State) : Res := .next (issueAs isAncClr c s)

/-- ANC.RD (R63–R69, R123). -/
def execAncRd (c : CoreId) (s : State) : Res := .next (issueAs isAncRd c s)

/-- ANC.EXP (R61, R124). -/
def execAncExp (c : CoreId) (s : State) : Res := .next (issueAs isAncExp c s)

/-- ANC.MRG (R62, R124). -/
def execAncMrg (c : CoreId) (s : State) : Res := .next (issueAs isAncMrg c s)

end Sys2Proof.Machine
end

