-- ==== Sys2Proof/Machine/Fabric.lean ====
section
/-! DEFINITION. The commands of the Ikinum ports, the link control words, routes, and arriving blocks
(R246–R281). -/

namespace Sys2Proof.Machine

/-! ### Bringing a port up and down -/

/-- R248, R261: EN is set; the port trains where the variant ships it and the node identifier is valid. -/
def enablePort (p : Nat) (s : State) : State :=
  if s.env.variant.ports ≤ p then s
  else
    let s1 := s.onPort p (fun q => { q with en := true })
    if (s.port p).st = .down ∧ s.fab.nodeV then startTraining p (s1.onPort p (fun q => { q with attempts := 0 }))
    else s1

/-- FAB_PORT_ENABLE (R248). -/
def execFabPortEnable (p : PortId) (s : State) : Res := .next (enablePort p s)

/-- A draw from a TRNG: the next one is another (R468). -/
def drawTrng (s : State) : State := { s with fresh := s.fresh + 1 }

/-- A key message of a port goes out (R474). -/
def sendKey (p : Nat) (ct : Bool) (s : State) : State :=
  drawTrng (s.onPort p (fun q => { q with lcws := q.lcws ++ [.key ct (Config.keyBody p ct s.fresh)] }))

/-- R248, R474: the lane set is agreed and the port sends its HELLO, unless its TRNG has failed (R468); lanes that failed to train are retired (R225). -/
def laneSet (p : Nat) (lanes failed : BitVec 4) (s : State) : State :=
  if (s.port p).st ≠ .training then s
  else
    let s1 := forAll ((List.range 4).filter (fun l => failed.getLsbD l)) (fun l t => retireLane p l t) s
    let use := lanes &&& ~~~ (s1.port p).lanesRet
    if laneCount (~~~ (s1.port p).lanesRet) < 3 ∨ laneCount use < 3 then portDown p .failed s1
    else
      let s2 := s1.onPort p (fun q => { q with st := .keying, lanesUp := use, lcws := [] })
      if s.sec.trngFailX then s2 else sendKey p false s2

/-- LANE_SET_AGREED (R248). -/
def execLaneSetAgreed (p : PortId) (lanes failed : BitVec 4) (s : State) : Res := .next (laneSet p lanes failed s)

/-- KEYS_ESTABLISHED (R248, R260): with the keys of both directions the port enters UP or DEGRADED. -/
def execKeysEstablished (p : PortId) (s : State) : Res :=
  .next (if (s.port p).st = .keying ∧ (s.port p).txReady ∧ (s.port p).rxReady then enterUp p s else s)

/-- R248: a step missed its maximum; three failed attempts end in DOWN. -/
def trainingTimeout (p : Nat) (s : State) : State :=
  let q := s.port p
  if q.st = .training ∨ q.st = .keying then
    if 3 ≤ q.attempts + 1 then portDown p .down s
    else startTraining p (s.onPort p (fun q => { q with attempts := q.attempts + 1 }))
  else s

/-- TRAINING_TIMEOUT (R248). -/
def execTrainingTimeout (p : PortId) (s : State) : Res := .next (trainingTimeout p s)

/-- R279, R281: EN is cleared. A port that carries blocks runs the reset handshake first; one in TRAINING or KEYING
does so over another port to the partner, or without it. -/
def disablePort (p : Nat) (s : State) : State :=
  let q := s.port p
  let s1 := s.onPort p (fun q => { q with en := false })
  if q.carries then beginReset p 2 (s1.onPort p (fun q => { q with disabling := true }))
  else if q.st = .reset then s1.onPort p (fun q => { q with disabling := true, retrainAfter := false })
  else if q.st = .training ∨ q.st = .keying then
    let w := Lcw.reset (Config.resetCause 2) (lastAccepted q) ((List.range 4).map (occupied q))
    let other := (List.range 16).find? (fun r => r != p && (s.port r).carries && q.partnerV &&
      (s.port r).partnerV && (s.port r).partnerNode == q.partnerNode)
    match other with
    | some r =>
      (s1.onPort p (fun q => { q with st := .reset, disabling := true, exchanged := false, viaOther := true })).onPort r
        (fun q => { q with lcws := [w] })
    | none => afterExchange p (s1.onPort p (fun q => { q with disabling := true, exchanged := false }))
  else s1

/-- FAB_PORT_DISABLE (R279). -/
def execFabPortDisable (p : PortId) (s : State) : Res := .next (disablePort p s)

/-- A retrain is asked for (R254, R284). -/
def retrainPort (p : Nat) (s : State) : State :=
  let q := s.port p
  if q.st = .down ∨ q.st = .failed then s
  else beginReset p 1 (s.onPort p (fun q => { q with retrain := q.carries }))

/-- FAB_RETRAIN (R254, R284). -/
def execFabRetrain (p : PortId) (s : State) : Res := .next (retrainPort p s)

/-! ### Keys (R276) -/

/-- A rotation of the transmit direction begins, unless one is in progress. -/
def startRotation (p : Nat) (s : State) : State :=
  if (s.port p).carries ∧ !(s.port p).rotating then s.onPort p (fun q => { q with rotating := true }) else s

/-- ROTATE is set (R276): it stays set until the rotation reaches step 4. -/
def rotatePort (p : Nat) (s : State) : State := startRotation p (s.onPort p (fun q => { q with rotate := true }))

/-- FAB_KEY_ROTATE (R276). -/
def execFabKeyRotate (p : PortId) (s : State) : Res := .next (rotatePort p s)

/-- KEY_ROTATION_DUE (R276). -/
def execKeyRotationDue (p : PortId) (s : State) : Res := .next (startRotation p s)

/-- KEY_ROTATION_TIMEOUT (R276): the rotation is abandoned and the port retrains. -/
def execKeyRotationTimeout (p : PortId) (s : State) : Res :=
  .next (if (s.port p).rotating || (s.port p).rxNext then
    beginReset p 1 (s.onPort p (fun q => { q with rotating := false, txNext := false, newFirst := none,
                                                  rxNext := false })) else s)

/-! ### Receiving runs (R253, R255, R276, R277) -/

/-- R276: the key of a received run by its KE: the current one, or the next where it is held. -/
def rxKey (q : Port) (ke : Bool) : Option (Nat × Nat) :=
  if ke = q.rxKe then some (q.rxGen, q.rxRuns.toNat)
  else if q.rxNext then some (q.rxGen + 1, 0)
  else none

/-- The blocks stand in sequence from `n`. -/
def inSequence (n : BitVec 12) : List FabBlock → Bool
  | [] => true
  | b :: bs => b.lseq == n && inSequence (n + 1) bs

/-- The credits that an ACKCR returns, at most 63 for each VL. -/
def ackCredits (q : Port) : List Nat := (List.range 4).map (fun v => min 63 (((q.vl v).rFreed - (q.vl v).rRet).toNat))

/-- R252: an ACKCR names the last block accepted and returns credits. -/
def sendAck (q : Port) : Port :=
  let cs := ackCredits q
  let q1 := (cs.zipIdx).foldl (fun q (c, v) => q.onVl v (fun l => { l with rRet := l.rRet + BitVec.ofNat 32 c })) q
  { q1 with lcws := q1.lcws ++ [.ackcr (lastAccepted q) cs] }

/-- R259: the receiver's evaluation of an AUDIT. -/
def auditPasses (q : Port) (v : Nat) (k sSent sCred : Word) : Bool :=
  let l := q.vl v
  l.rRecv == sSent && k + sSent - sCred == BitVec.ofNat 32 (q.cfg v) &&
  BitVec.ofNat 32 (occupied q v) == l.rRecv - l.rFreed && decide ((l.rFreed - l.rRet).toNat ≤ q.cfg v)

def judgeAudit (p v : Nat) (k sSent sCred : Word) (s : State) : State :=
  if auditPasses (s.port p) v k sSent sCred then s.onPort p (fun q => { q with audits := satInc q.audits })
  else
    beginReset p 0 (raise (pgFab p) 3 (errTrans (pgFab p) (s.onPort p (fun q =>
      { q with mismatch := satInc16 q.mismatch, lastVl := BitVec.ofNat 2 v }))))

/-- The run is accepted (R253): its blocks take buffers, the sender is acknowledged, a key of the new epoch
replaces the old, and the audits that waited for its last block are evaluated. -/
def acceptRun (p gen run : Nat) (bs : List FabBlock) (s : State) : State :=
  let q := s.port p
  let plain := (cipher p false gen run 0 bs).filter credited
  let turned := gen != q.rxGen
  let q1 := plain.foldl (fun q b => q.onVl b.vl.val (fun l => { l with rRecv := l.rRecv + 1 })) q
  let q2 := { q1 with
    rxExp := q.rxExp + BitVec.ofNat 12 bs.length, rxBuf := q.rxBuf ++ plain
    rxGen := gen, rxRuns := BitVec.ofNat 64 (run + 1), lcws := []
    rxKe := if turned then !q.rxKe else q.rxKe, rxNext := if turned then false else q.rxNext }
  let due := q2.auditWait.filter (fun a => a.2.2.2.2 == lastAccepted q2)
  let s1 := s.setPort p (sendAck { q2 with auditWait := q2.auditWait.filter (fun a => a.2.2.2.2 != lastAccepted q2) })
  forAll due (fun a t => if (t.port p).carries then judgeAudit p a.1 a.2.1 a.2.2.1 a.2.2.2.1 t else t) s1

/-- The run is discarded and a NAK names the first block that is wanted (R253). -/
def refuseRun (p : Nat) (lanes : BitVec 4) (s : State) : State :=
  countRetry p lanes (s.onPort p (fun q => { q with lcws := [.nak q.rxExp] }))

/-- R253, R277: the receiver takes or discards the run that a TAG ends. -/
def tagRx (p : Nat) (bs : List FabBlock) (tag : BitVec 128) (lanes : BitVec 4) (s : State) : State :=
  let q := s.port p
  if !q.carries then s
  else
    let crcOk := bs.all (fun b => b.crc == blockCrc b)
    let oneKe := bs.all (fun b => b.ke == (bs.map (·.ke)).headD false)
    if !crcOk || !inSequence q.rxExp bs || bs.isEmpty || 8 < bs.length || !oneKe then refuseRun p lanes s
    else
      match rxKey q ((bs.map (·.ke)).headD false) with
      | none => refuseRun p lanes s
      | some (gen, run) =>
        if tag = runTag p false gen run bs then acceptRun p gen run bs s
        else
          let s1 := campEvent 0x9201 p 0 (raise (pgFab p) 4 (s.onPort p (fun q =>
            { q with tagFail := satInc q.tagFail, tagTs := pushTs 2 s.env.ts q.tagTs })))
          let s2 := refuseRun p lanes s1
          if withinLast 2 second (s1.port p).tagTs then beginReset p 1 s2 else s2

/-- FAB_TAG_RX (R253). -/
def execFabTagRx (p : PortId) (blocks : List FabBlock) (tag : BitVec 128) (lanes : BitVec 4) (s : State) : Res :=
  .next (tagRx p blocks tag lanes s)

/-! ### The sender's side of the link (R252–R254, R276) -/

/-- R276, step 4: the partner has accepted the first run of the new epoch. -/
def rotationDone (p : Nat) (last : BitVec 12) (s : State) : State :=
  match (s.port p).newFirst with
  | none => s
  | some f =>
    if (last - f).toNat < 2048 then
      campEvent 0x2007 p 0 (raise (pgFab p) 5 (s.onPort p (fun q =>
        { q with rotating := false, rotate := false, txNext := false, newFirst := none,
                 rotations := q.rotations + 1 })))
    else s

/-- FAB_ACKCR_RX (R252, R258). -/
def ackRx (p : Nat) (last : BitVec 12) (crs : List (BitVec 6)) (s : State) : State :=
  if !(s.port p).carries then s
  else
    let s1 := s.onPort p (fun q =>
      let q1 := (crs.zipIdx).foldl (fun q (c, v) => q.onVl v (fun l =>
        { l with k := l.k + c.setWidth 32, sCred := l.sCred + c.setWidth 32 })) q
      { q1 with retry := dropCovered last q1.retry })
    pumpTx p (rotationDone p last s1)

def execFabAckcrRx (p : PortId) (last : BitVec 12) (cr0 cr1 cr2 cr3 : BitVec 6) (s : State) : Res :=
  .next (ackRx p last [cr0, cr1, cr2, cr3] s)

/-- R253, R254: the sender resends from a run in order; eight resends of one run begin a retrain. -/
def resendFrom (p : Nat) (first : Option (BitVec 12)) (lanes : BitVec 4) (s : State) : State :=
  let q := s.port p
  let hit := fun (r : FabRun) => match first with
    | some f => r.first == f
    | none => true
  match q.retry.find? hit with
  | none => s
  | some r =>
    let s1 := s.onPort p (fun q => { q with
      retry := q.retry.map (fun x => if x.first = r.first then { x with resent := x.resent + 1 } else x)
      lcws := (q.retry.dropWhile (fun x => x.first != r.first)).map (fun x => .tag x.first x.blocks.length x.tag) })
    let s2 := countRetry p lanes s1
    if 8 ≤ r.resent + 1 then beginReset p 1 s2 else s2

/-- FAB_NAK_RX (R253). -/
def execFabNakRx (p : PortId) (lseq : BitVec 12) (lanes : BitVec 4) (s : State) : Res :=
  .next (if (s.port p).carries then resendFrom p (some lseq) lanes s else s)

/-- FAB_ACK_TIMEOUT (R253): the sender resends from the oldest run. -/
def execFabAckTimeout (p : PortId) (s : State) : Res :=
  .next (if (s.port p).carries then resendFrom p none 0 s else s)

/-! ### Audits (R259) and resets (R260) -/

/-- AUDIT_DUE (R259, R281): one AUDIT for each VL, from a port that carries blocks. -/
def execAuditDue (p : PortId) (s : State) : Res :=
  .next (if (s.port p).carries then s.onPort p (fun q => { q with
    lcws := (List.range 4).map (fun v => .audit v (q.vl v).k (q.vl v).sSent (q.vl v).sCred (q.nextLseq - 1)) }) else s)

/-- AUDIT (R259): it is evaluated with the run that ends with its LSEQ. -/
def execAudit (p : PortId) (vl : VlId) (k sSent sCred : Word) (lseq : BitVec 12) (s : State) : Res :=
  let q := s.port p
  .next (if !q.carries then s
    else if lastAccepted q = lseq then judgeAudit p vl.val k sSent sCred s
    else s.onPort p (fun q => { q with auditWait := q.auditWait ++ [(vl.val, k, sSent, sCred, lseq)] }))

/-- R260: RESET from the partner is answered, and the reset proceeds: on an audit reset lanes and keys stay. -/
def resetRx (p : Nat) (cause : Byte) (last : BitVec 12) (os : List Nat) (s : State) : State :=
  let q := s.port p
  if q.carries || q.st == .reset then
    let was := q.carries
    let s1 := exchange p last os (s.onPort p (fun q => { q with
      st := .reset, auditWait := []
      retrainAfter := if was then cause != Config.resetCause 0 else q.retrainAfter || cause != Config.resetCause 0
      lcws := [.resetAck (lastAccepted q) ((List.range 4).map (occupied q))] }))
    let s2 := if was then portChanged p (campEvent 0x2004 p cause.toNat s1) else s1
    afterExchange p s2
  else s

/-- RESET (R260). -/
def execResetWord (p : PortId) (cause : Byte) (last : BitVec 12) (o0 o1 o2 o3 : BitVec 10) (s : State) : Res :=
  .next (resetRx p cause last [o0.toNat, o1.toNat, o2.toNat, o3.toNat] s)

/-- RESET_ACK (R260). -/
def execResetAck (p : PortId) (last : BitVec 12) (o0 o1 o2 o3 : BitVec 10) (s : State) : Res :=
  .next (if (s.port p).st = .reset ∧ !(s.port p).exchanged then
    afterExchange p (exchange p last [o0.toNat, o1.toNat, o2.toNat, o3.toNat] s) else s)

/-- FAB_RESET_EXCHANGE_TIMEOUT (R260): another port to the partner carries the words, or nothing is exchanged. -/
def exchangeTimeout (p : Nat) (s : State) : State :=
  let q := s.port p
  if q.st ≠ .reset ∨ q.exchanged then s
  else
    let other := (List.range 16).find? (fun r => r != p && (s.port r).carries && q.partnerV &&
      (s.port r).partnerV && (s.port r).partnerNode == q.partnerNode)
    match other, q.viaOther with
    | some r, false =>
      (s.onPort p (fun q => { q with viaOther := true })).onPort r (fun o => { o with lcws := q.lcws })
    | _, _ => afterExchange p s

def execFabResetExchangeTimeout (p : PortId) (s : State) : Res := .next (exchangeTimeout p s)

/-! ### Blocks and routes -/

/-- A block that a command names as accepted on a port holds a buffer there. -/
def holdsBuf (s : State) (b : FabBlock) (inPort : Option PortId) : Bool :=
  match inPort with
  | some p => (s.port p.val).rxBuf.contains b
  | none => true

/-- FAB_BLOCK_ROUTE (R262). -/
def execFabBlockRoute (b : FabBlock) (origin : Option CtxId) (inPort : Option PortId) (s : State) : Res :=
  .next (if holdsBuf s b inPort then emitLater b origin inPort s else s)

/-- DATA (R266, R268). -/
def execDataBlock (b : FabBlock) (inPort : Option PortId) (s : State) : Res :=
  .next (if holdsBuf s b inPort && b.dst == s.fab.node then deliverData b inPort s else s)

/-- CHANNEL_SPACE_TIMEOUT (R268): the channel is BROKEN and every block that waits for it is returned. -/
def execChannelSpaceTimeout (x : CtxId) (ch : Fin 16) (s : State) : Res :=
  .next (if (s.chan x.val ch.val).waiting.isEmpty then s
    else returnWaiting x.val ch.val 3 (campEvent 0x2006 (x.val * 16 + ch.val) 0 (raise pgFabCommon 0
      (s.onChan x.val ch.val (fun c => { c with broken := true })))))

/-- RETURN (R269). -/
def execReturnBlock (b : FabBlock) (inPort : Option PortId) (s : State) : Res :=
  .next (if holdsBuf s b inPort && b.dst == s.fab.node then takeReturn b (freeBuf inPort b s) else s)

/-- The 32 bytes of a delivery record (R269). -/
def dlvBytes (d : DlvRec) (s : State) : List Byte :=
  leBytes 2 d.node.toNat ++ leBytes 2 d.job.toNat ++ [BitVec.ofNat 8 (d.ch.toNat + 16 * d.vl.toNat),
    BitVec.ofNat 8 d.reason.toNat, BitVec.ofNat 8 Status.undeliverable.code.toNat,
    BitVec.ofNat 8 (b2n d.unknown + 2 * b2n s.env.holdover)] ++
  leBytes 4 d.count.toNat ++ leBytes 4 0 ++ leBytes 8 d.first.toNat ++ leBytes 8 s.env.ts.toNat

/-- R269, R308, R309: the oldest delivery record of a context goes to CQ 0 of its function, or is lost. -/
def postDelivery (x : Nat) (s : State) : State :=
  match s.fab.dlv.find? (fun d => d.ctx.val == x) with
  | none => s
  | some d =>
    let s1 := s.onFab (fun f => { f with dlv := f.dlv.erase d })
    let f := fnOf x
    if (s.fn f).hold.length + (s.fn f).reserved < 512 then
      deliver f { cq := 0, kind := 1, sq := 0xFF, index := 0, tag := 0, record := dlvBytes d s } s1
    else raise (pgHost x) 6 (s1.onFn f (fun h => { h with dlvLost := satInc h.dlvLost }))

/-- DELIVERY_RECORD_POST (R269). -/
def execDeliveryRecordPost (x : CtxId) (s : State) : Res := .next (postDelivery x s)

/-- ROUTE_HOLD_EXPIRY (R263). -/
def execRouteHoldExpiry (node : BitVec 16) (s : State) : Res :=
  .next (releaseHeld (s.onFab (fun f => { f with holding := f.holding.erase node.toNat })))

/-- R263: a route entry is written. -/
def writeRoute (node ports : BitVec 16) (s : State) : State :=
  if fget 0 s.fab.routes node.toNat = ports then s
  else startHold node.toNat (s.onFab (fun f => { f with routes := fput 0 node.toNat ports f.routes }))

/-- FAB_RT_WRITE (R263). -/
def execFabRtWrite (node ports : BitVec 16) (s : State) : Res := .next (writeRoute node ports s)

/-- WIN_WR (R274). -/
def execWinWr (b : FabBlock) (inPort : Option PortId) (s : State) : Res :=
  .next (if holdsBuf s b inPort && b.dst == s.fab.node then takeWinWr b inPort s else s)

/-- WIN_RD (R274). -/
def execWinRd (b : FabBlock) (inPort : Option PortId) (s : State) : Res :=
  .next (if holdsBuf s b inPort && b.dst == s.fab.node then takeWinRd b inPort s else s)

/-- WIN_RDD (R274). -/
def execWinRdd (b : FabBlock) (inPort : Option PortId) (s : State) : Res :=
  .next (if holdsBuf s b inPort && b.dst == s.fab.node then takeRdd b (freeBuf inPort b s) else s)

/-- WIN_ACK (R274). -/
def execWinAck (b : FabBlock) (inPort : Option PortId) (s : State) : Res :=
  .next (if holdsBuf s b inPort && b.dst == s.fab.node then takeAck b (freeBuf inPort b s) else s)

/-- CHANNEL_BROKEN_CLEAR (R285): clearing BROKEN zeroes WP and RP. -/
def clearBroken (x ch : Nat) (s : State) : State :=
  if (s.chan x ch).broken then s.onChan x ch (fun c => { c with broken := false, wp := 0, rp := 0 }) else s

def execChannelBrokenClear (x : CtxId) (ch : Fin 16) (s : State) : Res := .next (clearBroken x ch s)

end Sys2Proof.Machine
end

