-- ==== Sys2Proof/Machine/Collective.lean ====
section
/-! DEFINITION. The collective engine and the window copies of this module's contexts (R271–R274). -/

namespace Sys2Proof.Machine

/-! ### Ranks and the tree (R272) -/

/-- The node of a rank, from the context's group table. -/
def nodeOfRank (s : State) (x r : Nat) : Option (BitVec 16) :=
  (gread s x 2 ((s.fx x).grp.toNat * 65536 + 2 * r) 2).map (fun bs => BitVec.ofNat 16 (leNat bs))

def groupSize (s : State) (x : Nat) : Nat := (s.fx x).grpN.toNat

/-- The lowest set bit of a non-zero number below 2^15, as a power of two. -/
def lowBit (v : Nat) : Nat := ((List.range 16).find? (fun k => bit v k)).elim 0 (fun k => 2 ^ k)

/-- The position of a rank in the tree rooted at `root`. -/
def treePos (n root r : Nat) : Nat := (r + n - root % n) % n
def treeRank (n root v : Nat) : Nat := (v + root) % n

/-- The parent of a rank in the binomial tree: its position with the lowest set bit cleared. -/
def parentOf (n root r : Nat) : Option Nat :=
  let v := treePos n root r
  if v = 0 then none else some (treeRank n root (v - lowBit v))

/-- The children of a rank, in ascending rank. -/
def childrenOf (n root r : Nat) : List Nat :=
  let v := treePos n root r
  let ks := (List.range 15).filter (fun k => (v = 0 || 2 ^ k < lowBit v) && v + 2 ^ k < n)
  (ks.map (fun k => treeRank n root (v + 2 ^ k))).insertionSort (· ≤ ·)

/-! ### Elements -/

def elemBytes (dtype : Nat) : Nat := if dtype = 0 then 32 else 4

def Coll.bytes (c : Coll) : Nat := c.count * elemBytes c.dtype
def Coll.blocks (c : Coll) : Nat := (c.bytes + 255) / 256

/-- The bytes of blocks 0 to n − 1 once all are there. -/
def assemble (n len : Nat) (m : FMap (List Byte)) : Option (List Byte) :=
  if (List.range n).all (fun i => (fget [] m i) != []) then
    some (((List.range n).flatMap (fun i => fget [] m i)).take len)
  else none

/-- Two RAW records combined by the merge of R62, or the status that ends the collective. -/
def mergeRaw (a b : List Byte) : Except Status (List Byte) :=
  let ra := RawRec.ofBytes a
  let rb := RawRec.ofBytes b
  if ra.wexp ≠ rb.wexp then .error .denied
  else if ra.residueFails || rb.residueFails then .error .residue
  else
    let e : Anchor := { a := ra.a, l := BitVec.ofInt 10 ra.wexp, res := ra.res, inx := ra.inx, sat := ra.sat,
                        nan := ra.nan }
    .ok (e.merge rb).record

/-- Two FP32 elements added under R93. -/
def mergeFp (a b : List Byte) : List Byte := leBytes 4 (fpAdd (leNat a) (leNat b))

/-- Chunks of n bytes. -/
def chunks (n : Nat) (bs : List Byte) : List (List Byte) :=
  (List.range (bs.length / n)).map (fun i => (bs.drop (i * n)).take n)

/-- Two inputs combined element by element. -/
def combine (dtype : Nat) (a b : List Byte) : Except Status (List Byte) :=
  if dtype = 0 then (List.zipWith mergeRaw (chunks 32 a) (chunks 32 b)).mapM id |>.map List.flatten
  else .ok (List.zipWith mergeFp (chunks 4 a) (chunks 4 b)).flatten

/-- R12: the status of a result: clamped values, then truncated or rounded ones. -/
def fpRounds (a b : List Byte) : Bool :=
  match FpFmt.fp32.decode (leNat a), FpFmt.fp32.decode (leNat b), FpFmt.fp32.decode (fpAdd (leNat a) (leNat b)) with
  | .fin _ x, .fin _ y, .fin _ z => !(Dy.eqv (x.add y) z)
  | _, _, _ => false

def resultStatus (dtype : Nat) (bs : List Byte) : Status :=
  if dtype = 0 then
    let rs := (chunks 32 bs).map RawRec.ofBytes
    if rs.any (·.sat) then .saturated else if rs.any (·.inx) then .inexact else .ok
  else .ok

/-- R272: own input combined with the children's results in order, and the status so far. -/
def combineAll (dtype : Nat) (own : List Byte) (parts : List (List Byte)) : Except Status (List Byte × Bool) :=
  parts.foldlM (fun (acc, inx) p =>
    (combine dtype acc p).map (fun r =>
      (r, inx || (dtype == 1 && (List.zipWith fpRounds (chunks 4 acc) (chunks 4 p)).any id)))) (own, false)

/-! ### The engine -/

def State.coll (s : State) (x k : Nat) : Option Coll := fget none (s.fx x).colls k
def State.setColl (s : State) (x k : Nat) (c : Option Coll) : State :=
  s.onFx x (fun f => { f with colls := fput none k c f.colls })

/-- Send a whole transfer to a rank, its blocks numbered from `base`. -/
def sendTransfer (x : CtxId) (k rank base : Nat) (bytes : List Byte) (s : State) : State :=
  match nodeOfRank s x.val rank with
  | none => s
  | some node =>
    forAll (List.range ((bytes.length + 255) / 256)) (fun i t =>
      let p := (bytes.drop (256 * i)).take 256
      emitLater (mkBlock t node (t.fx x.val).job tyColl 0 ((p.length + 63) / 64) (base + i) k p) (some x) none t) s

/-- The root of the tree that an operation reduces or broadcasts over; ALLREDUCE uses rank 0. -/
def Coll.treeRoot (c : Coll) : Nat := if c.op = 2 then 0 else c.root

/-- A broadcast result of origin `o` is known here: it is kept and forwarded to the children. -/
def gotResult (x : CtxId) (k o root base : Nat) (bytes : List Byte) (s : State) : State :=
  match s.coll x.val k with
  | none => s
  | some c =>
    let me := (s.fx x.val).rank.toNat
    forAll (childrenOf (groupSize s x.val) root me) (fun ch t => sendTransfer x k ch base bytes t)
      (s.setColl x.val k (some { c with result := fput none o (some bytes) c.result }))

/-- REDUCE: with every child's result, combine and send to the parent, or hold the result at the root. -/
def reduceStep (x : CtxId) (k : Nat) (s : State) : State :=
  match s.coll x.val k with
  | none => s
  | some c =>
    if (c.op ≠ 1 ∧ c.op ≠ 2) ∨ c.combined.isSome ∨ c.status = .denied ∨ c.status = .residue then s
    else
      let n := groupSize s x.val
      let me := (s.fx x.val).rank.toNat
      match (childrenOf n c.treeRoot me).mapM (fun ch => assemble c.blocks c.bytes (fget [] c.up ch)) with
      | none => s
      | some parts =>
        match combineAll c.dtype c.own parts with
        | .error st => s.setColl x.val k (some { c with status := st })
        | .ok (r, inx) =>
          let st := if inx then Status.inexact else resultStatus c.dtype r
          let s1 := s.setColl x.val k (some { c with combined := some r, status := st })
          match parentOf n c.treeRoot me with
          | some p => sendTransfer x k p 0 r s1
          | none =>
            if c.op = 2 then gotResult x k 0 0 0 r s1
            else s1.setColl x.val k (some { c with combined := some r, status := st, result := [(0, some r)] })

/-- The broadcast that starts at this rank, if one does. -/
def castStep (x : CtxId) (k : Nat) (s : State) : State :=
  match s.coll x.val k with
  | none => s
  | some c =>
    let me := (s.fx x.val).rank.toNat
    if c.op = 0 ∧ me = c.root then gotResult x k 0 c.root 0 c.own s
    else if c.op = 3 then gotResult x k me me (me * c.blocks) c.own s
    else s

/-- R272, R273: a collective block is combined or forwarded, returned for an aborted slot, or left until its slot is
in use. -/
def collRx (b : FabBlock) (inPort : Option PortId) (s : State) : State :=
  match jobCtx s b.job with
  | none => sendReturn b 2 inPort s
  | some x =>
    let k := b.ch.toNat
    if (s.cx x.val).st = .disabled ∨ (s.cx x.val).st = .scrubbing then sendReturn b 2 inPort s
    else
      match s.coll x.val k with
      | none => if (s.fx x.val).abortedSlots.contains k then sendReturn b 6 inPort s else s
      | some c =>
        let n := groupSize s x.val
        let me := (s.fx x.val).rank.toNat
        let origin := if c.op = 3 then b.addr.toNat / c.blocks else 0
        let i := if c.op = 3 then b.addr.toNat % c.blocks else b.addr.toNat
        let root := if c.op = 3 then origin else c.treeRoot
        let isNode := fun r => nodeOfRank s x.val r == some b.src
        let s1 := freeBuf inPort b s
        match (childrenOf n root me).find? isNode, (parentOf n root me).filter isNode with
        | some ch, _ =>
          if c.op = 3 ∨ c.op = 0 then s1
          else
            let c' := { c with up := fput [] ch (fput [] i (validLines b) (fget [] c.up ch)) c.up }
            reduceStep x k (s1.setColl x.val k (some c'))
        | none, some _ =>
          let c' := { c with down := fput [] origin (fput [] i (validLines b) (fget [] c.down origin)) c.down }
          let s2 := s1.setColl x.val k (some c')
          match assemble c.blocks c.bytes (fget [] c'.down origin) with
          | some bytes =>
            if (fget none c.result origin).isSome then s2
            else gotResult x k origin root (origin * (if c.op = 3 then c.blocks else 0)) bytes s2
          | none => s2
        | none, none => s1

/-- COLL_BLOCK_RX (R272, R273). -/
def execCollBlockRx (b : FabBlock) (inPort : Option PortId) (s : State) : Res :=
  .next (if holdsBuf s b inPort && b.dst == s.fab.node then collRx b inPort s else s)

/-- What this rank's collective still needs is there, or its status has ended it. -/
def collReady (s : State) (x : Nat) (c : Coll) : Bool :=
  c.status == .denied || c.status == .residue ||
  (match c.op with
   | 1 => c.combined.isSome
   | 3 => (List.range (groupSize s x)).all (fun r => (fget none c.result r).isSome)
   | _ => (fget none c.result 0).isSome)

/-- R273: the collective completes; DST is written if the status is OK, INEXACT or SATURATED. -/
def collComplete (x : CtxId) (k : Nat) (s : State) : State :=
  match s.coll x.val k with
  | none => s
  | some c =>
    if !collReady s x.val c then s
    else
      let good := c.status == .ok || c.status == .inexact || c.status == .saturated
      let s1 := if good then
          forAll c.result (fun e t => match e.2 with
            | some bs => gaWrite x.val (c.dst + BitVec.ofNat 64 (e.1 * c.bytes)) bs t
            | none => t) s
        else s
      let st := if good && c.dtype == 0 && c.op == 2 then resultStatus 0 ((fget none c.result 0).getD []) else c.status
      finishGeneric c.cmd st 0 (s1.setColl x.val k none)

/-- COLL_COMPLETE (R273). -/
def execCollComplete (x : CtxId) (slot : Fin 16) (s : State) : Res := .next (collComplete x slot.val s)

/-- R273: a collective ends ABORTED; later blocks of its slot are returned. -/
def abortColl (x k : Nat) (s : State) : State :=
  match s.coll x k with
  | none => s
  | some c =>
    raise pgFabCommon 2 (finishGeneric c.cmd .aborted 0 ((s.setColl x k none).onFx x (fun f =>
      { f with abortedSlots := k :: f.abortedSlots.erase k })))

/-- COLL_TIMEOUT (R273). -/
def execCollTimeout (x : CtxId) (slot : Fin 16) (s : State) : Res := .next (abortColl x.val slot.val s)

/-- R273: the context leaves ENABLED: every collective of it ends ABORTED. -/
def abortColls (x : Nat) (s : State) : State := forAll (List.range 16) (fun k t => abortColl x k t) s

/-- R271: a collective descriptor, bytes 0–27, is checked and started. -/
def submitColl (src : CmdSrc) (x : CtxId) (d : List Byte) (s : State) : State :=
  let op := leAt d 0 1
  let dtype := leAt d 1 1
  let k := leAt d 2 1
  let c : Coll := { op := op, dtype := dtype, root := leAt d 4 2, src := BitVec.ofNat 64 (leAt d 8 8),
                    dst := BitVec.ofNat 64 (leAt d 16 8), count := leAt d 24 4, cmd := src }
  let n := groupSize s x.val
  let me := (s.fx x.val).rank.toNat
  let outBytes := if op = 3 then n * c.bytes else c.bytes
  if 3 < op ∨ 1 < dtype ∨ 15 < k ∨ leAt d 3 1 ≠ 0 ∨ leAt d 6 2 = 0 ∨ !gaOk c.src ∨ !gaOk c.dst ∨
      (op ≤ 1 ∧ n ≤ c.root) then
    finishGeneric src .denied 0 s
  else if !(s.fx x.val).valid ∨ n ≤ me ∨ c.count = 0 ∨ (s.coll x.val k).isSome then finishGeneric src .denied 0 s
  else if meetsSealed s x.val (gaSpace c.src) (gaOff c.src) c.bytes ∨
      meetsSealed s x.val (gaSpace c.dst) (gaOff c.dst) outBytes then finishGeneric src .denied 0 s
  else if !inPartition (s.cx x.val) (gaSpace c.src) (gaOff c.src) c.bytes ∨
      !inPartition (s.cx x.val) (gaSpace c.dst) (gaOff c.dst) outBytes then
    finishGeneric src .footprint 0 s
  else if op = 0 ∧ me ≠ c.root then
    s.onFx x.val (fun f => { f with colls := fput none k (some c) f.colls, abortedSlots := f.abortedSlots.erase k })
  else
    match gaRead s x.val c.src c.bytes with
    | none => finishGeneric src .crc 0 (failedRead x.val (gaSpace c.src) (gaOff c.src) c.bytes s)
    | some own =>
      castStep x k (reduceStep x k (s.onFx x.val (fun f =>
        { f with colls := fput none k (some { c with own := own }) f.colls
                 abortedSlots := f.abortedSlots.erase k })))

/-! ### Window copies (R274) -/

/-- R274: a window copy descriptor is checked and its blocks are sent. -/
def submitWcopy (src : CmdSrc) (x : CtxId) (op rank : Nat) (addr off len : DWord) (s : State) : State :=
  let nb := len.toNat / 256
  let k0 := off.toNat / 256
  if 1 < op ∨ !gaOk addr ∨ off.toNat % 256 ≠ 0 ∨ len.toNat % 256 ≠ 0 ∨ !(s.fx x.val).valid ∨
      groupSize s x.val ≤ rank ∨ 2 ^ 30 < k0 + nb ∨ meetsSealed s x.val (gaSpace addr) (gaOff addr) len.toNat then
    finishGeneric src .denied 0 s
  else if !inPartition (s.cx x.val) (gaSpace addr) (gaOff addr) len.toNat then finishGeneric src .footprint 0 s
  else if nb = 0 then finishGeneric src .ok 0 s
  else
    match nodeOfRank s x.val rank, gaRead s x.val addr (if op = 1 then len.toNat else 0) with
    | some node, some data =>
      let w : WinCopy := { cmd := src, ctx := x, write := op == 1, node := node, addr := addr, first := k0,
                           left := (List.range nb).map (· + k0) }
      let s1 := s.onFab (fun f => { f with copies := f.copies ++ [w] })
      forAll (List.range nb) (fun i t =>
        let k := k0 + i
        let b := mkBlock t node (t.fx x.val).job (if op = 1 then tyWinWr else tyWinRd) 0 4 (k % 2 ^ 26) (k / 2 ^ 26)
          ((data.drop (256 * i)).take 256)
        if t.fab.copies.any (fun c => c.cmd == src) then emitLater b (some x) none t else t) s1
    | none, _ => finishGeneric src .crc 0 (failedRead x.val 2 ((s.fx x.val).grp.toNat * 65536 + 2 * rank) 2 s)
    | _, none => finishGeneric src .crc 0 (failedRead x.val (gaSpace addr) (gaOff addr) len.toNat s)

end Sys2Proof.Machine
end

