-- ==== Sys2Proof/Machine/Pitch.lean ====
section
/-! DEFINITION. A pitch on its core: program fetch, dispatch, commit, cut-off, errors, ABORT and HALT (R100–R107,
R114, R134–R144, R194, R204, R293). -/

namespace Sys2Proof.Machine

/-! ### The program segment (R114) -/

/-- The 64-bit words of a segment. -/
def wordsOf (bs : List Byte) : List DWord :=
  (List.range (bs.length / 8)).map (fun i => BitVec.ofNat 64 (leAt bs (8 * i) 8))

/-- The segment's words, where every block of it can be read. -/
def segment (s : State) (j : PitchJob) : Option (List DWord) :=
  (gaRead s j.ctx.val j.desc.progBase (8 * j.desc.progLen.toNat)).map wordsOf

/-- The last word of a segment is END. -/
def endsInEnd (ws : List DWord) : Bool :=
  match ws.getLast? with
  | some w => PitchInstr.decode w == some .fin
  | none => false

/-- A core that has its program and its first tokens may issue. -/
def ready (c : Nat) (s : State) : State :=
  s.onCore c (fun k =>
    match k.run with
    | some r => if r.fetched && r.granted && k.pstate == .waitTokens then { k with pstate := .run } else k
    | none => k)

/-- R114: the fetch for the pitch in flight, or for the one held pending. -/
def programFetch (c : Nat) (crcFail : Bool) (s : State) : State :=
  match (s.core c).run with
  | none => s
  | some r =>
    if !r.fetched then
      match crcFail, segment s r.job with
      | false, some ws =>
        if endsInEnd ws then
          ready c (s.onCore c (fun k => { k with ibuf := ws }.onRun (fun r => { r with fetched := true })))
        else endRun c .denied (r.job.desc.progLen - 1) s
      | _, _ =>
        endRun c .crc 0xFFFF (failedRead r.job.ctx.val (gaSpace r.job.desc.progBase) (gaOff r.job.desc.progBase)
          (8 * r.job.desc.progLen.toNat) s)
    else
      match (s.core c).next with
      | none => s
      | some j =>
        match crcFail, segment s j with
        | false, some ws =>
          if endsInEnd ws then s.onCore c (fun k => { k with nextBuf := ws, nextFetched := true }) else s
        | _, _ => s

/-- PROGRAM_FETCH (R114). -/
def execProgramFetch (c : CoreId) (crcFail : Bool) (s : State) : Res := .next (programFetch c crcFail s)

/-! ### Dispatch (R194, R204, R293) -/

/-- The bytes of a window page that is in state HOST, or leaves DEVICE (R293, R296). -/
def pageMeets (p : WinPage) (d : PitchDesc) : Bool :=
  let hostNow := p.st == .host || (p.st == .device && p.pend.isSome)
  hostNow && (d.segment :: d.used).any (fun r =>
    gaSpace r.base == 2 && rangesMeet (p.target.toNat * 2 ^ 21) (2 ^ 21) (gaOff r.base) r.len.toNat)

def heldByPage (s : State) (j : PitchJob) : Bool :=
  (List.range 512).any (fun i => pageMeets (s.page (512 * j.ctx.val + i)) j.desc)

/-- The context that owns a logical core under an entry's mask (R193). -/
def ownerUnder (s : State) (mask : BitVec 16) (l : Nat) : Option CtxId :=
  (List.finRange 16).find? (fun x => mask.getLsbD x.val && (s.cx x.val).team.getLsbD l &&
    ((s.cx x.val).st == .enabled || (s.cx x.val).st == .draining))

/-- R204: the three map entries of a member's save record are VALID and SAVEV is set. -/
def saveReady (x : Ctx) (l : Nat) : Bool :=
  x.savev && (List.range 3).all (fun i => (fget 0 x.lmap (x.saveEntry.toNat + 3 * l + i)).getLsbD 15)

/-- R204: a live entry in use gives the core to another context, or to none. -/
def shared (s : State) (x : CtxId) (l : Nat) : Bool :=
  (List.range s.ctx.liveCnt.toNat).any (fun i => ownerUnder s (fget {} s.ctx.live i).mask l != some x)

/-- R204: a started pitch could not be saved when the core's owner changes. -/
def cannotSave (s : State) (l : Nat) : Bool :=
  (List.range s.ctx.liveCnt.toNat).any (fun i =>
    match ownerUnder s (fget {} s.ctx.live i).mask l with
    | some y => !saveReady (s.cx y.val) l
    | none => false)

/-- A core that the camp cores are still deciding about, or fencing, receives no pitch (R194, R229, R232). -/
def coreOpen (s : State) (c : Nat) : Bool :=
  (s.ctl c).st == .active && !(s.ctl c).switching && !(s.ctl c).busyInit && !(s.ctl c).diodeFault &&
  !s.fence.stops.any (fun r => r.core == c)

/-- R194: the oldest pitch of the core's context for a logical core goes to its physical core. -/
def dispatch (l : Nat) (s : State) : State :=
  match physOf s l with
  | none => s
  | some c =>
    match (s.ctl c).owner with
    | none => s
    | some x =>
      match (s.cx x.val).queue.find? (fun j => j.lcore.toNat == l) with
      | none => s
      | some j =>
        if !coreOpen s c || heldByPage s j || (shared s x l && (cannotSave s l || !saveReady (s.cx x.val) l)) then s
        else
          let s1 := s.onCx x.val (fun q => { q with queue := q.queue.erase j })
          if (s.core c).run.isNone && (s.core c).next.isNone then startRun c j false s1
          else if (s.core c).next.isNone then s1.onCore c (fun k => { k with next := some j })
          else s

/-- PITCH_DISPATCH (R194). -/
def execPitchDispatch (l : CoreId) (s : State) : Res := .next (dispatch l s)

/-! ### Commit (R134–R137) -/

/-- Every block of an output can be written: it is mapped, and no granule of it is unavailable (R152, R161). -/
def outOk (s : State) (r : Run) (m : OutMove) : Bool :=
  let g := r.region m.reg
  (blockStarts (gaOff g.base + m.roff.toNat * 64) (m.lines * 64)).all (fun o =>
    match locate (s.cx r.job.ctx.val) (gaSpace g.base) o with
    | some p => p.hbm || (fget {} s.ledge.banks (p.addr / 2 ^ 20)).st != 3
    | none => false)

/-- Phase 3: a staged copy, from the lines as they stand now. -/
def publishOut (c : Nat) (r : Run) (m : OutMove) (s : State) : State :=
  let g := r.region m.reg
  gwrite r.job.ctx.val (gaSpace g.base) (gaOff g.base + m.roff.toNat * 64)
    ((s.core c).readPm (m.pml.toNat * 64) (m.lines * 64)) s

/-- The blocks of an SND: four lines each, numbered from 0 (R249). -/
def sndBlocks (s : State) (c : Nat) (r : Run) (m : SndMove) : List FabBlock :=
  (List.range ((m.lines + 3) / 4)).map (fun i =>
    let n := min 4 (m.lines - 4 * i)
    mkBlock s m.node (s.fx r.job.ctx.val).job tyData ⟨m.vl.toNat, m.vl.isLt⟩ n i m.ch.toNat
      ((s.core c).readPm ((m.pml.toNat + 4 * i) * 64) (n * 64)))

/-- R262, R281: an SND whose port cannot take it yet. -/
def sndWaits (s : State) (c : Nat) (r : Run) (m : SndMove) : Bool :=
  (sndBlocks s c r m).any (fun b =>
    b.dst != s.fab.node && (s.fab.holding.contains b.dst.toNat || routeOf s b (some r.job.ctx) == .wait))

/-- Phase 4: the blocks of an SND go to the fabric; a block without a route is discarded, and the SND is
undeliverable. -/
def publishSnd (c : Nat) (r : Run) (m : SndMove) (s : State) : State × Bool :=
  (sndBlocks s c r m).foldl (fun (t, lost) b =>
    let e := emit b (some r.job.ctx) none t
    (e.st, lost || e.lost)) (s, false)

/-- Phase 5: the read points advance, then the increments are sent in program order. -/
def publishReads (r : Run) (s : State) : State :=
  let x := r.job.ctx.val
  forAll r.taken (fun e t =>
    drainChan (t.chan x e.1).waiting.length x e.1
      (t.onChan x e.1 (fun q => { q with rp := q.rp + BitVec.ofNat 32 e.2 }))) s

def publishSig (x : Nat) (e : BitVec 6 × BitVec 16) (s : State) : State :=
  s.onCx x (fun q => { q with
    bars := fput 0 e.1.toNat (fget 0 q.bars e.1.toNat + e.2.setWidth 32) q.bars })

/-- The status of a pitch that publishes (R13, R141). -/
def pubStatus (r : Run) (lost : Bool) : Status :=
  if lost then .undeliverable else if r.sat then .saturated else if r.inx then .inexact else .ok

/-- Phases 3 to 6 of a commit that publishes. -/
def publish (c : Nat) (r : Run) (s : State) : State :=
  let s1 := forAll r.outs (fun m t => publishOut c r m t) s
  let (s2, lost) := r.snds.foldl (fun (t, lost) m =>
    let e := publishSnd c r m t
    (e.1, lost || e.2)) (s1, false)
  let s3 := forAll r.sigs (fun e t => publishSig r.job.ctx.val e t) (publishReads r s2)
  endRun c (pubStatus r lost) 0xFFFF s3

/-- Publishing needs the reserve for its transfers (R332). -/
def publishes (r : Run) : Bool := !r.outs.isEmpty || !r.snds.isEmpty || !r.taken.isEmpty || !r.sigs.isEmpty

/-- R134–R137: once every issued instruction has completed, the pitch decides and publishes. A write that fails stops
it as a core error. -/
def commit (c : Nat) (s : State) : State :=
  match (s.core c).run with
  | none => s
  | some r =>
    if !r.ended || !r.flights.isEmpty || (s.ctl c).switching then s
    else if r.residue then endRun c .residue 0xFFFF s
    else if publishes r && !holdsReserve s c then s
    else if r.snds.any (sndWaits s c r) then s
    else if r.outs.all (outOk s r) then publish c r s
    else stopRun c true 0 (countFailed s)

/-- COMMIT (R134). -/
def execCommit (c : CoreId) (s : State) : Res := .next (commit c s)

/-! ### Cut-off, watchdog, parity (R102, R103, R140) -/

/-- Phase 1 of the commit has ended (R137). -/
def drained (r : Run) : Bool := r.ended && r.flights.isEmpty

/-- R140, R213: the count reaches twice the budget; the pitch ends with OVERRUN and its context is flagged. -/
def cutoff (c : Nat) (s : State) : State :=
  match (s.core c).run with
  | none => s
  | some r =>
    if drained r || !r.started then s
    else
      let n := 2 * r.job.desc.budget.toNat
      let s1 := s.onCore c (fun k => { k with cycles := BitVec.ofNat 32 (max k.cycles.toNat n) })
      let s2 := raise pgCtx 4 (raise (pgCore c) 2 (s1.onCx r.job.ctx.val (fun q => { q with ovr := true })))
      endRun c .overrun 0xFFFF s2

/-- CYCLE_BUDGET_CUTOFF (R140). -/
def execCycleBudgetCutoff (c : CoreId) (s : State) : Res := .next (cutoff c s)

/-- R102, R103: the watchdog fires. -/
def watchdog (c : Nat) (s : State) : State :=
  match (s.core c).run with
  | none => s
  | some r => if drained r || !r.started then s
    else stopRun c true 1 (setCause c 1 (s.onCore c (fun k => { k with wdog := 65536 })))

/-- SEQUENCER_WATCHDOG (R102). -/
def execSequencerWatchdog (c : CoreId) (s : State) : Res := .next (watchdog c s)

/-- The cause of a parity error by the structure of CORE_PAR_ADDR (R107). -/
def parityCause (u : Nat) : Nat :=
  match u with
  | 0 => 2
  | 1 | 2 => 3
  | 3 => 4
  | 4 => 5
  | _ => 6

/-- PARITY_ERROR (R103): the location is recorded, the cause set, and the pitch stopped without commit. -/
def execParityError (c : CoreId) (unit : Fin 6) (index : BitVec 20) (s : State) : Res :=
  .next (stopRun c true (parityCause unit) (setCause c (parityCause unit) (s.onCore c (fun k =>
    { k with parAddr := BitVec.ofNat 24 (unit.val + 16 * index.toNat), parV := true }))))

/-! ### ABORT and HALT (R107, R137) -/

/-- CORE_ABORT (R107, R137): the pitch ends ABORTED, unless its commit has begun. -/
def execCoreAbort (c : CoreId) (s : State) : Res :=
  .next (match (s.core c).run with
    | none => s
    | some r => if drained r then s else endRun c .aborted 0xFFFF s)

/-- The sequencer reaches an instruction boundary under a hold (R107). -/
def reachBoundary (c : Nat) (s : State) : State :=
  let q := s.ctl c
  if (q.halt || q.dbgHalt) && !q.halted && !q.stepping then haltAck c (s.onCtl c (fun q => { q with halted := true }))
  else s

/-- A hold that no setting keeps is released. -/
def unhold (c : Nat) (s : State) : State :=
  let q := s.ctl c
  if q.halt || q.dbgHalt then s else s.onCtl c (fun q => { q with halted := false, stepping := false })

/-- CORE_HALT (R107). -/
def execCoreHalt (c : CoreId) (on : Bool) (s : State) : Res :=
  .next (unhold c (s.onCtl c.val (fun q => { q with halt := on })))

/-- HALT_BOUNDARY_REACHED (R107). -/
def execHaltBoundaryReached (c : CoreId) (s : State) : Res := .next (reachBoundary c s)

end Sys2Proof.Machine
end

