-- ==== Sys2Proof/Machine/Fence.lean ====
section
/-! DEFINITION. The camp cores' decisions on stopped pitches, and the end of a fence (R224–R237). -/

namespace Sys2Proof.Machine

/-- A fabric of pitches that have not started on a core: in its context's queue, and held pending (R229). -/
def queuedOn (s : State) (x l : Nat) : Nat :=
  ((s.cx x).queue.filter (fun j => j.lcore.toNat == l)).length +
  (match physOf s l with
   | some c => if (s.core c).next.isSome then 1 else 0
   | none => 0)

/-- Rule 1 of R229: a team core that belongs to the context, is not the one that stopped, and holds no started
pitch. -/
def freeFor (s : State) (x f l : Nat) : Bool :=
  l != f && (s.cx x).team.getLsbD l &&
  (match physOf s l with
   | some c => coreOpen s c && (s.ctl c).owner.map (·.val) == some x && (s.core c).run.isNone &&
       (fget none (s.cx x).saved l).isNone
   | none => false)

/-- The one with the fewest queued pitches, ties to the lowest number. -/
def fewest (s : State) (x : Nat) : List Nat → Option Nat
  | [] => none
  | l :: ls =>
    match fewest s x ls with
    | none => some l
    | some m => if queuedOn s x l ≤ queuedOn s x m then some l else some m

/-- R229: the logical core for the next run; `none` is rule 3. -/
def reissueCore (s : State) (x f : Nat) : Option Nat :=
  match fewest s x ((List.range 192).filter (freeFor s x f)) with
  | some l => some l
  | none => if (s.cx x).team.getLsbD f && (physOf s f).isSome then some f else none

/-- R229: a re-issue starts ahead of every pitch that has not started on the chosen core. -/
def placeReissue (j : PitchJob) (l : Nat) (s : State) : State :=
  let s1 := match physOf s l with
    | some c => unpend c s
    | none => s
  campEvent 0x0102 l l (s1.onCx j.ctx.val (fun q =>
    { q with queue := { j with lcore := BitVec.ofNat 8 l, reissue := true } :: q.queue }))

/-- R229, R231: a stopped pitch is placed again, waits for a core, or ends ABORTED where its team is empty. -/
def reissue (j : PitchJob) (s : State) : State :=
  let x := j.ctx.val
  if (s.cx x).team = 0 then checkDrain x (abortJob j s)
  else
    match reissueCore s x j.lcore.toNat with
    | some l => placeReissue j l s
    | none => s.onFence (fun f => { f with waiting := f.waiting ++ [j] })

/-- Re-issues that wait for a core are tried again (R229, rule 3). -/
def retryWaiting (s : State) : State :=
  let ws := s.fence.waiting
  forAll ws (fun j t => reissue j t) (s.onFence (fun f => { f with waiting := [] }))

/-- R225: the second event within 10 s, or the fourth within 24 h, makes the core permanent. -/
def coreBad (h : List DWord) : Bool := withinLast 2 (10 * second) h || withinLast 4 day h

/-- R224, R226: the event is counted against its core. -/
def countCore (c source : Nat) (s : State) : State :=
  campEvent 0x0101 c source (s.onCtl c (fun q => { q with events := pushTs 4 s.env.ts q.events }))

/-- R228, R230, R231: a pitch that is not run again completes: its RESIDUE record is forwarded, or it ends ABORTED. -/
def giveUp (r : StopRec) (s : State) : State :=
  checkDrain r.job.ctx.val (match r.residue, r.job.src with
    | true, some src => (finish src 0 r.record s).setReply { status := some .residue }
    | _, _ => abortJob r.job s)

/-- R228–R232: the camp cores take the oldest stop record of a core. -/
def stopRecord (c : Nat) (s : State) : State :=
  match s.fence.stops.find? (fun r => r.core == c) with
  | none => s
  | some r =>
    let s1 := s.onFence (fun f => { f with stops := f.stops.erase r })
    let s2 := if r.counted then countCore c r.source s1 else s1
    let s3 := if (r.counted && coreBad (s2.ctl c).events) || (s2.ctl c).diodeFault then fenceCore c s2 else s2
    let st := (s3.cx r.job.ctx.val).st
    if r.job.src.isNone then abortJob r.job s3
    else if st = .draining ∨ st = .scrubbing ∨ st = .disabled then giveUp r s3
    else if 3 ≤ r.job.runs then giveUp r (campEvent 0x0106 c 0 s3)
    else reissue r.job s3

/-- STOP_RECORD (R229). -/
def execStopRecord (c : CoreId) (s : State) : Res := .next (stopRecord c s)

/-- R232: the fence's WIPE is over, completed or abandoned; R236: a reserve's WIPE is done. -/
def wipeOver (c : Nat) (done : Bool) (s : State) : State :=
  let q := s.ctl c
  let s1 := when done (State.onCore c Core.wipe) s
  if q.st = .wiping then
    capChange (errPerm (pgCore c) (s1.onCtl c (fun k => { k with
      st := .fenced, logical := 0xFF, owner := none, wiping := false })))
  else if q.st = .reserve && q.wiping && done then s1.onCtl c (fun k => { k with wiping := false, wiped := true })
  else s

/-- FENCE_WIPE_DONE (R232, R236). -/
def execFenceWipeDone (c : CoreId) (s : State) : Res := .next (wipeOver c true s)

/-- FENCE_WIPE_TIMEOUT (R232). -/
def execFenceWipeTimeout (c : CoreId) (s : State) : Res := .next (wipeOver c false s)

end Sys2Proof.Machine
end

