-- ==== Sys2Proof/Machine/Context.lean ====
section
/-! DEFINITION. Contexts: their configuration, states, slots and scrubs, and the switch of a core (R184–R222). -/

namespace Sys2Proof.Machine

/-! ### Configuration writes (R185, R186, R192, R195, R198–R200, R212) -/

/-- R185, R222: a configuration write is refused with a reason. -/
def refuseWrite (x reason : Nat) (s : State) : State :=
  raise pgCtx 5 (s.onCtxBlk (fun b => { b with refReason := BitVec.ofNat 4 reason, refCtx := BitVec.ofNat 4 x }))

/-- The rope team as last written. -/
def Ctx.teamNow (c : Ctx) : BitVec 192 := c.teamPend.getD c.team

/-- R192: two contexts that a mask names have rope teams that meet; `team` gives the teams. -/
def maskClash (team : Nat → BitVec 192) (mask : BitVec 16) : Bool :=
  (List.range 16).any (fun a => (List.range 16).any (fun b =>
    decide (a < b) && mask.getLsbD a && mask.getLsbD b && (team a &&& team b != 0)))

/-- Every entry of both slot tables. -/
def allMasks (s : State) : List (BitVec 16) := (s.ctx.live ++ s.ctx.shadow).map (fun e => e.2.mask)

/-- Two partitions of non-zero size share a unit. -/
def hbmMeet (b1 n1 b2 n2 : Nat) : Bool := rangesMeet b1 n1 b2 n2

/-- R185: an HBM partition overlaps another context's or leaves the usable space. -/
def hbmBad (s : State) (x base size : Nat) : Bool :=
  decide (s.env.variant.hbmBytes < (base + size) * unit64M) ||
  s.ctx.ctxs.any (fun e => e.1 != x && hbmMeet base size e.2.hbmBase.toNat e.2.hbmSize.toNat)

/-- A map entry, present or waiting, that holds a granule. -/
def holdsGranule (c : Ctx) (g : Nat) : Bool :=
  let on := fun (e : BitVec 16) => e.getLsbD 15 && e.toNat % 4096 == g
  c.lmap.any (fun e => on e.2) || c.lmapPend.any (fun e => e.2.any on)

/-- R185: a granule that the variant lacks, or that is unavailable. -/
def granuleAbsent (s : State) (g : Nat) : Bool :=
  decide (s.env.variant.granules ≤ g) || (fget {} s.ledge.banks g).st == 3

/-- A value of CTX_LMAP without its reserved bits. -/
def lmapVal (v : Word) : BitVec 16 := BitVec.ofNat 16 (v.toNat % 4096 + 32768 * b2n (v.getLsbD 15))

/-- The reason to refuse a write of a partition field of a context at an offset of the page, if there is one
(R185, R186). -/
def partitionRefusal (s : State) (x off : Nat) (v : Word) : Option Nat :=
  let w := v.toNat
  let busy := (s.cx x).st != .disabled
  if off = 0x04C then
    if busy then some 4 else if hbmBad s x (fld w 0 13) (fld w 16 13) then some 3 else none
  else if off = 0x054 then
    if !v.getLsbD 15 then none
    else if granuleAbsent s (w % 4096) then some 8
    else if s.ctx.ctxs.any (fun e => e.1 != x && holdsGranule e.2 (w % 4096)) then some 6 else none
  else if off = 0x058 then if busy then some 4 else none
  else if off = 0x05C then
    if busy then some 4
    else if 256 < fld w 0 9 + ((s.ctx.ctxs.filter (fun e => e.1 != x)).map (fun e => e.2.quota.toNat)).sum then some 2
    else none
  else if off = 0x064 then
    if busy then some 4
    else if s.ctx.ctxs.any (fun e => e.1 != x && (e.2.ports &&& BitVec.ofNat 16 w != 0)) then some 7 else none
  else none

/-- A partition field takes a written value, or holds it until the next slot boundary (R186). -/
def partitionTake (x off : Nat) (v : Word) (s : State) : State :=
  let w := v.toNat
  s.onCx x (fun c =>
    if off = 0x04C then { c with hbmBase := BitVec.ofNat 13 w, hbmSize := BitVec.ofNat 13 (w / 65536) }
    else if off = 0x050 then { c with lmapIdx := BitVec.ofNat 11 w }
    else if off = 0x054 then { c with lmapPend := fput none c.lmapIdx.toNat (some (lmapVal v)) c.lmapPend }
    else if off = 0x058 then { c with saveEntry := BitVec.ofNat 11 w, savev := v.getLsbD 31 }
    else if off = 0x05C then { c with quota := BitVec.ofNat 9 w }
    else if off = 0x060 then { c with capPend := some (BitVec.ofNat 16 w) }
    else if off = 0x064 then { c with ports := BitVec.ofNat 16 w }
    else if off = 0x068 then { c with prioPend := some (BitVec.ofNat 3 w) }
    else c)

/-- A write that is refused for a reason, or taken. -/
def writeChecked (x : Nat) (why : Option Nat) (take : State → State) (s : State) : State :=
  match why with
  | some r => refuseWrite x r s
  | none => take s

/-- CTX_PARTITION_WRITE (R185, R186). -/
def execCtxPartitionWrite (x : CtxId) (off : BitVec 12) (v : Word) (s : State) : Res :=
  .next (writeChecked x.val (partitionRefusal s x.val off.toNat v) (partitionTake x.val off.toNat v) s)

/-- A rope team with one of its six words replaced. -/
def setTeamWord (t : BitVec 192) (i : Nat) (v : Word) : BitVec 192 :=
  (t &&& ~~~ (0xFFFFFFFF#192 <<< (32 * i))) ||| (v.setWidth 192 <<< (32 * i))

/-- R192: a rope team that meets another in some entry. -/
def teamRefusal (s : State) (x : Nat) (t : BitVec 192) : Option Nat :=
  if (allMasks s).any (fun m => maskClash (fun y => if y = x then t else (s.cx y).teamNow) m) then some 1 else none

/-- R195: a rope-team write takes effect at the next slot boundary. -/
def writeTeam (x i : Nat) (v : Word) (s : State) : State :=
  let t := setTeamWord (s.cx x).teamNow i v
  writeChecked x (teamRefusal s x t) (State.onCx x (fun c => { c with teamPend := some t })) s

/-- CTX_TEAM_WRITE (R195). -/
def execCtxTeamWrite (x : CtxId) (i : Fin 6) (v : Word) (s : State) : Res := .next (writeTeam x.val i.val v s)

/-- A slot-table entry of a written word (R191). -/
def SlotEnt.ofWord (v : Word) : SlotEnt := { mask := BitVec.ofNat 16 v.toNat, len := BitVec.ofNat 16 (v.toNat / 65536) }

/-- R192: the reason to refuse a slot-table entry. -/
def entryRefusal (s : State) (v : Word) : Option Nat :=
  let e := SlotEnt.ofWord v
  if maskClash (fun y => (s.cx y).teamNow) e.mask then some 1 else if e.len.toNat < 5 then some 5 else none

/-- R198: a live entry is taken when its slot next begins; the running slot was latched (R197). -/
def writeLive (x i : Nat) (v : Word) (s : State) : State :=
  writeChecked x (entryRefusal s v)
    (State.onCtxBlk (fun b => { b with live := fput {} i (SlotEnt.ofWord v) b.live })) s

/-- CTX_SLOT_LIVE_WRITE (R198). -/
def execCtxSlotLiveWrite (i : Fin 64) (v : Word) (s : State) : Res := .next (writeLive s.ctx.sel.toNat i.val v s)

def writeShadow (x i : Nat) (v : Word) (s : State) : State :=
  writeChecked x (entryRefusal s v)
    (State.onCtxBlk (fun b => { b with shadow := fput {} i (SlotEnt.ofWord v) b.shadow })) s

/-- CTX_SLOT_SHADOW_WRITE (R192). -/
def execCtxSlotShadowWrite (i : Fin 64) (v : Word) (s : State) : Res :=
  .next (writeShadow s.ctx.sel.toNat i.val v s)

/-- R199: counts outside 1–64 are refused. -/
def countRefusal (v : Word) : Option Nat :=
  let ok := fun n => decide (1 ≤ n ∧ n ≤ 64)
  if ok (fld v.toNat 0 7) && ok (fld v.toNat 16 7) then none else some 9

/-- R199: LIVE takes effect at the next slot boundary. -/
def writeCounts (x : Nat) (v : Word) (s : State) : State :=
  writeChecked x (countRefusal v) (State.onCtxBlk (fun b =>
    { b with livePend := some (BitVec.ofNat 7 v.toNat), shadowCnt := BitVec.ofNat 7 (v.toNat / 65536) })) s

/-- CTX_SLOT_CNT_WRITE (R199). -/
def execCtxSlotCntWrite (v : Word) (s : State) : Res := .next (writeCounts s.ctx.sel.toNat v s)

/-- CTX_SLOT_SWAP (R200). -/
def execCtxSlotSwap (s : State) : Res := .next (s.onCtxBlk (fun b => { b with swap := true }))

/-- R212: a barrier counter can be written only while no pitch of the context has started and not completed. -/
def writeBar (x ctr : Nat) (v : Word) (s : State) : State :=
  writeChecked x (if startedCount s x = 0 then none else some 4)
    (State.onCx x (fun c => { c with bars := fput 0 ctr v c.bars })) s

/-- CTX_BAR_VAL_WRITE (R212). -/
def execCtxBarValWrite (x : CtxId) (ctr : Fin 64) (v : Word) (s : State) : Res := .next (writeBar x.val ctr.val v s)

/-! ### Enable, disable, drain and scrub (R188, R189, R214–R219, R231) -/

/-- R193: the cores that the running entry names and no context holds belong to their context. -/
def claimCores (s : State) : State :=
  forAll s.ctls (fun e t =>
    if e.2.st = .active ∧ e.2.owner = none then
      t.onCtl e.1 (fun k => { k with owner := ownerUnder t t.ctx.curEnt.mask e.2.logical.toNat })
    else t) s

/-- R188: the receive points of a channel are zeroed. -/
def Chan.zeroed (c : Chan) : Chan := { c with wp := 0, rp := 0 }

/-- R188, R217: the barrier counters and the points of the receive channels of a context are zeroed. -/
def zeroCounters (x : Nat) (s : State) : State :=
  (s.onCx x (fun c => { c with bars := [] })).onFx x (fun f =>
    { f with chans := (f.chans.map (fun e => (e.1, e.2.zeroed))).filter (fun e => e.2 != {}) })

/-- R188: ENABLE moves a DISABLED context to ENABLED, and is refused with reason 4 in any other state. In recovery no
context can be enabled (R473). -/
def enableCtx (x : Nat) (s : State) : State :=
  if s.cairn.campRecovery then s
  else if (s.cx x).st ≠ .disabled then refuseWrite x 4 s
  else
    let s1 := (zeroCounters x s).onCx x (fun c => { c with st := .enabled, progress := 0 })
    let s2 := ((s1.onSx x (fun c => { c with started := false })).onPwr (fun p => { p with ctxE := fput 0 x 0 p.ctxE })).onSec
      (fun c => { c with ctxCoarse := fput 0 x 0 c.ctxCoarse, ctxMark := fput 0 x 0 c.ctxMark })
    campEvent 0x0201 x 0 (claimCores s2)

/-- ENABLE (R188). -/
def execEnable (x : CtxId) (s : State) : Res := .next (enableCtx x.val s)

/-- The pitches of a context that no core has started, taken out of its queue and off the cores that hold them
pending. -/
def pullUnstarted (x : Nat) (keep : PitchJob → Bool) (s : State) : State × List PitchJob :=
  let s1 := forAll s.cores (fun e t => if e.2.next.any (fun (j : PitchJob) => j.ctx.val == x) then unpend e.1 t else t) s
  let js := (s1.cx x).queue.filter (fun j => !keep j)
  (s1.onCx x (fun c => { c with queue := c.queue.filter keep }), js)

/-- Each of some pitches completes with ABORTED. -/
def abortAll (js : List PitchJob) (s : State) : State := forAll js abortJob s

/-- R189, R214, R273: DISABLE moves an ENABLED context to DRAINING, and is discarded in any other state. -/
def disableCtx (x : Nat) (s : State) : State :=
  if (s.cx x).st ≠ .enabled then s
  else
    let s1 := s.onCx x (fun c => { c with st := .draining, drainStart := s.env.ts })
    let (s2, js) := pullUnstarted x (·.reissue) (campEvent 0x0202 x 0 s1)
    let ws := s2.fence.waiting.filter (fun j => j.ctx.val == x)
    let s3 := s2.onFence (fun f => { f with waiting := f.waiting.filter (fun j => j.ctx.val != x) })
    checkDrain x (abortColls x (abortAll ws (abortAll js s3)))

/-- DISABLE (R214). -/
def execDisable (x : CtxId) (s : State) : Res := .next (disableCtx x.val s)

/-- The cores on which a pitch of a context has started and has not begun its commit. -/
def stoppable (s : State) (x : Nat) : List Nat :=
  (s.cores.filter (fun e => e.2.run.any (fun r => r.job.ctx.val == x && r.job.src.isSome && !drained r))).map (·.1)

/-- Switched-out pitches of a context leave it. -/
def pullSaved (x : Nat) (sel : Nat → Bool) (s : State) : State × List PitchJob :=
  let es := (s.cx x).saved.filter (fun e => sel e.1)
  (s.onCx x (fun c => { c with saved := c.saved.filter (fun e => !sel e.1) }),
   es.filterMap (fun e => (e.2.bind (·.run)).map (·.job)))

/-- R215: the started pitches of a DRAINING context are stopped as ABORTED; a commit that has begun completes. -/
def drainTimeout (x : Nat) (s : State) : State :=
  if (s.cx x).st ≠ .draining then s
  else
    let cs := stoppable s x
    let (s1, saved) := pullSaved x (fun _ => true) s
    let (s2, queued) := pullUnstarted x (fun _ => false) s1
    let n := cs.length + saved.length + queued.length
    if n = 0 then s
    else
      let s3 := campEvent 0x0203 x n (raise pgCtx 1 s2)
      checkDrain x (forAll cs (fun c t => endRun c .aborted 0xFFFF t) (abortAll queued (abortAll saved s3)))

/-- DRAIN_TIMEOUT (R215). -/
def execDrainTimeout (x : CtxId) (s : State) : Res := .next (drainTimeout x.val s)

/-- R218: a sampled block reads non-zero; the second failure counts a permanent fault. -/
def readbackFail (x : Nat) (u : MemUnit) (again : Bool) (s : State) : State :=
  if (s.cx x).st ≠ .scrubbing then s
  else
    let s1 := campEvent 0x0205 x 0 s
    if again then
      retireUnit u (raise pgCtx 3 (errPerm pgCtx (s1.onCx x (fun c => { c with vfail := true }))))
    else s1

/-- SCRUB_READBACK_FAIL (R218). -/
def execScrubReadbackFail (x : CtxId) (unit : MemUnit) (again : Bool) (s : State) : Res :=
  .next (readbackFail x.val unit again s)

/-- R217, step 2: the granules of a context's map and its HBM partition are filled with zero. -/
def zeroPartitions (x : Nat) (s : State) : State :=
  let c := s.cx x
  let gs := (c.lmap.filter (fun e => e.2.getLsbD 15)).map (fun e => e.2.toNat % 4096)
  let s1 := forAll gs (fun g t => physZero ⟨false, g * 2 ^ 20⟩ (2 ^ 20) t) s
  physZero ⟨true, c.hbmBase.toNat * unit64M⟩ (c.hbmSize.toNat * unit64M) s1

/-- R314, R316: what waits for a context to be DISABLED: its TDI unlocks, and a reset of its function completes with
its holding queue emptied. -/
def reachDisabled (x : Nat) (s : State) : State :=
  s.onFn (fnOf x) (fun h =>
    { h with tdi := .unlocked, flr := false, hold := if h.flr then [] else h.hold, reserved := if h.flr then 0 else h.reserved,
             nops := if h.flr then [] else h.nops })

/-- R217, R219: the scrub ends and the context is DISABLED. -/
def scrubDone (x : Nat) (s : State) : State :=
  if (s.cx x).st ≠ .scrubbing then s
  else
    let s1 := zeroCounters x (zeroPartitions x s)
    let s2 := s1.onCx x (fun c => { c with
      st := .disabled, scrubActive := false, progress := 1000, saved := [], queue := []
      freeing := true })
    let s3 := s2.onSx x (fun q => { telem := q.telem, telemPend := q.telemPend })
    campEvent 0x0206 x 0 (raise pgCtx 2 (reachDisabled x s3))

/-- SCRUB_DONE (R217). -/
def execScrubDone (x : CtxId) (s : State) : Res := .next (scrubDone x.val s)

/-! ### The slot boundary (R186, R191–R202, R211, R236–R238) -/

/-- R152, R186: the waiting map entries of a context take effect; a granule that replaces an unavailable one is
filled with zero. -/
def applyMap (x : Nat) (s : State) : State :=
  forAll (s.cx x).lmapPend (fun e t =>
    match e.2 with
    | none => t
    | some v =>
      let old := fget 0 (t.cx x).lmap e.1
      let lost := old.getLsbD 15 && (fget {} t.ledge.banks (old.toNat % 4096)).st == 3
      let t1 := t.onCx x (fun c => { c with lmap := fput 0 e.1 v c.lmap })
      if lost && v.getLsbD 15 then physZero ⟨false, v.toNat % 4096 * 2 ^ 20⟩ (2 ^ 20) t1 else t1)
    s |>.onCx x (fun c => { c with lmapPend := [] })

/-- R195: a core of the module at which a stopped pitch of a logical number is recorded. -/
def homeOf (s : State) (l : Nat) : Nat :=
  (physOf s l).getD (((s.fence.unbacked.find? (fun e => e.1 == l)).map (·.2)).getD 0)

/-- A started pitch stopped by a rule, counted against no core: the camp cores decide its next run. -/
def stopSaved (c : Nat) (js : List PitchJob) (s : State) : State :=
  s.onFence (fun f => { f with stops := f.stops ++ js.map (fun j => ⟨c, j, false, false, [], 0⟩) })

/-- R195, R238: what a context has on a logical core it loses: unstarted pitches end ABORTED; started ones are
stopped and run again, or end ABORTED where the new rope team is empty. -/
def loseCore (x l : Nat) (empty : Bool) (s : State) : State :=
  let s0 := match physOf s l with
    | some c => if (s.core c).next.any (fun (j : PitchJob) => j.ctx.val == x) then unpend c s else s
    | none => s
  let mine := fun (j : PitchJob) => j.lcore.toNat == l
  let js := (s0.cx x).queue.filter mine
  let s1 := s0.onCx x (fun c => { c with queue := c.queue.filter (fun j => !mine j) })
  let s2 := abortAll (js.filter (fun j => !j.reissue || empty)) s1
  let (s3, saved) := pullSaved x (fun k => k == l) s2
  let again := saved ++ js.filter (fun j => j.reissue && !empty)
  let s4 := if empty then abortAll saved s3 else stopSaved (homeOf s l) again s3
  match physOf s l with
  | none => s4
  | some c =>
    match (s4.core c).run with
    | some r => if r.job.ctx.val = x ∧ r.job.lcore.toNat = l then
        (if empty then endRun c .aborted 0xFFFF s4 else stopRun c false 0 s4) else s4
    | none => s4

/-- R186, R195: the waiting fields of a context take effect. -/
def applyWaiting (x : Nat) (s : State) : State :=
  let c := s.cx x
  let t' := c.teamNow
  let s1 := (applyMap x s).onCx x (fun c => { c with
    cap := c.capPend.getD c.cap, capPend := none
    prio := c.prioPend.getD c.prio, prioPend := none
    team := t', teamPend := none })
  let gone := (List.range 192).filter (fun l => c.team.getLsbD l && !t'.getLsbD l)
  checkDrain x (forAll gone (fun l t => loseCore x l (t' == 0) t) s1)

/-- R34, R211: RELEASING sequence slots, and those of contexts that have been scrubbed, become FREE. -/
def freeSlots (s : State) : State :=
  let keep := fun (e : Nat × SeqSlot) => !e.2.releasing &&
    (match e.2.ctx with
     | some x => !(s.cx x.val).freeing
     | none => false)
  let s1 := s.onCtxBlk (fun b => { b with sqs := b.sqs.filter keep })
  forAll (List.range 16) (fun x t => if (t.cx x).freeing then t.onCx x (fun c => { c with freeing := false }) else t) s1

/-- R236, R237: the wiped reserves take their fenced logical numbers. -/
def promote (s : State) : State :=
  forAll (planReserves s s.fence.unbacked []) (fun e t =>
    if (t.ctl e.2).wiped then
      capChange (campEvent 0x0104 e.2 e.1 ((t.onCtl e.2 (fun q =>
        { q with st := .active, logical := BitVec.ofNat 8 e.1, owner := none, wiped := false })).onFence
          (fun f => { f with unbacked := f.unbacked.filter (fun u => u.1 != e.1) })))
    else t) s

/-- R238: the highest logical number goes, and its core takes a fenced number that no reserve can back. -/
def reduceOne (f : Nat) (s : State) : State :=
  let m := s.fence.logicalCount - 1
  let s1 := forAll (List.range 16) (fun x t => loseCore x m ((t.cx x).team &&& ~~~ (1#192 <<< m) == 0) t) s
  let s2 := forAll (List.range 16) (fun x t => t.onCx x (fun c =>
    { c with team := c.team &&& ~~~ (1#192 <<< m), teamPend := c.teamPend.map (· &&& ~~~ (1#192 <<< m)) })) s1
  let s3 := match physOf s2 m with
    | some c => s2.onCtl c (fun q => { q with logical := BitVec.ofNat 8 f })
    | none => s2
  let gone := if (physOf s2 m).isSome then f else m
  capChange (campEvent 0x0105 m f (s3.onFence (fun g =>
    { g with logicalCount := m, unbacked := g.unbacked.filter (fun u => u.1 != gone) })))

/-- The fenced numbers that no reserve is left for. -/
def unservable (s : State) : List Nat :=
  let plan := planReserves s s.fence.unbacked []
  (s.fence.unbacked.map (·.1)).filter (fun l => !plan.any (fun e => e.1 == l))

/-- R238 for every fenced number without a reserve. -/
def shrink : Nat → State → State
  | 0, s => s
  | n + 1, s =>
    match (unservable s).head? with
    | none => s
    | some f => shrink n (reduceOne f s)

/-- R199, R200: the tables as the next slot finds them, and the entry that runs. -/
def nextEntry (s : State) : State :=
  let b := s.ctx
  let cnt := b.livePend.getD b.liveCnt
  let b1 := { b with liveCnt := cnt, livePend := none }
  if b.swap then
    let e := fget {} b.shadow 0
    raise pgCtx 0 { s with ctx := { b1 with
      live := b.shadow, shadow := b.live, liveCnt := b.shadowCnt, shadowCnt := cnt, swap := false
      cur := 0, curEnt := e, left := e.len.setWidth 24 } }
  else
    let i := if b.cur.toNat + 1 < cnt.toNat then b.cur.toNat + 1 else 0
    let e := fget {} b.live i
    { s with ctx := { b1 with cur := BitVec.ofNat 6 i, curEnt := e, left := e.len.setWidth 24 } }

/-- R203: the pitch memory that a record keeps: the units the pitch has written. -/
def keptPm (k : Core) (r : Run) : List Host.Cell := k.pm.filter (fun c => r.wrote.contains (c.1 / 1024))

/-- R203: what a save record holds of a core. -/
def Core.record (k : Core) (r : Run) : Core :=
  { pm := keptPm k r, bankA := k.bankA, bankB := k.bankB, loads := k.loads, anc := k.anc, vec := k.vec
    ibuf := k.ibuf, pstate := k.pstate, pc := k.pc, pitchId := k.pitchId, cycles := k.cycles, wdog := k.wdog
    run := some r }

/-- R201, step 3: a core takes a record back. -/
def Core.restore (k q : Core) : Core :=
  { k with
    pm := q.pm, bankA := q.bankA, bankB := q.bankB, loads := q.loads, anc := q.anc, vec := q.vec
    ibuf := q.ibuf, pstate := q.pstate, pc := q.pc, pitchId := q.pitchId, cycles := q.cycles, wdog := q.wdog
    run := q.run }

/-- R201, steps 1 and 2: the outgoing pitch is drained and saved. Where its context has no save area for it, it is
stopped, counted against no core, and runs again. -/
def switchOut (c l : Nat) (s : State) : State :=
  match (s.core c).run with
  | none => s
  | some r =>
    if saveReady (s.cx r.job.ctx.val) l then
      let k := s.core c
      (returnBalance c s).onCx r.job.ctx.val (fun x => { x with saved := fput none l (some (k.record r)) x.saved })
        |>.onCore c (fun k => { k with run := none, pstate := .idle })
    else stopRun c false 0 s

/-- R196: a core whose owner changes is switched. -/
def switchCore (c : Nat) (new : Option CtxId) (s : State) : State :=
  let l := (s.ctl c).logical.toNat
  (switchOut c l (unpend c s)).onCtl c (fun q => { q with owner := new, switching := true })

/-- R196, R202: every core whose owner changes finishes a commit that has begun, and is switched. -/
def switchCores (s : State) : State :=
  forAll s.ctls (fun e t =>
    let q := t.ctl e.1
    let new := ownerUnder t t.ctx.curEnt.mask q.logical.toNat
    if q.st = .active ∧ q.owner ≠ new then
      let t1 := if (t.core e.1).run.any drained then commit e.1 t else t
      switchCore e.1 new t1
    else t) s

/-- R186–R202: the slot ends and the next one begins. -/
def slotBoundary (s : State) : State :=
  if s.ctx.left ≠ 0 then s
  else
    let s1 := forAll (List.range 16) applyWaiting s
    let s2 := promote (freeSlots s1)
    let s3 := shrink 208 s2
    wipePlanned (retryWaiting (switchCores (nextEntry s3)))

/-- SLOT_BOUNDARY (R196). -/
def execSlotBoundary (s : State) : Res := .next (slotBoundary s)

/-! ### The end of a switch (R201, R204, R207, R208, R335) -/

/-- R335: an installment of one token pays for a switch to a context. `none` where it cannot be granted yet. -/
def payFrom (x : Option CtxId) (s : State) : Option State :=
  match x with
  | none => some s
  | some x =>
    if s.pwr.trip || s.pwr.throttlePin || s.pwr.free < 256 then none
    else some (s.onPwr (fun p => { p with
      free := p.free - 256, granted := p.granted + 256, ctxE := fput 0 x.val (fget 0 p.ctxE x.val + 256) p.ctxE }))

/-- R201, steps 3 and 4: the core is cleared, and the incoming pitch is restored where one was saved. -/
def resume (c : Nat) (s : State) : State :=
  if !(s.ctl c).switching then s
  else
    match payFrom (s.ctl c).owner s with
    | none => s
    | some s1 =>
      let l := (s1.ctl c).logical.toNat
      let s2 := (s1.onCore c Core.wipe).onCtl c (fun q => { q with switching := false })
      let s3 := match (s1.ctl c).owner with
        | none => s2
        | some x =>
          match fget none (s2.cx x.val).saved l with
          | none => s2
          | some q => (s2.onCore c (fun k => k.restore q)).onCx x.val (fun y => { y with saved := fput none l none y.saved })
      retryWaiting (fenceIfDue c s3)

/-- CORE_SWITCH_RESUME (R201). -/
def execCoreSwitchResume (c : CoreId) (s : State) : Res := .next (resume c.val s)

/-- R207: a block of the record cannot be read: the restored pitch is stopped. -/
def restoreFail (c : Nat) (u : MemUnit) (s : State) : State :=
  let q := s.ctl c
  match q.switching, q.owner with
  | true, some x =>
    let (s1, js) := pullSaved x.val (fun k => k == q.logical.toNat) s
    if js = [] then s
    else stopSaved c js (countUnitFail u (errTrans pgCtx (countFailed (s1.onMesh (fun m =>
      { m with refetch := satAdd m.refetch 3 })))))
  | _, _ => s

/-- RESTORE_BLOCK_FAIL (R207). -/
def execRestoreBlockFail (c : CoreId) (unit : MemUnit) (s : State) : Res := .next (restoreFail c.val unit s)

/-! ### Sequence slots (R210, R211) -/

/-- Slots a context holds, BOUND or RELEASING. -/
def usedSlots (s : State) (x : CtxId) : Nat := (s.ctx.sqs.filter (fun e => e.2.ctx == some x)).length

/-- R210: the lowest FREE slot is bound, or the request is denied. -/
def submitBind (src : CmdSrc) (x : CtxId) (s : State) : State :=
  match (List.range 256).find? (fun i => (fget {} s.ctx.sqs i).ctx.isNone) with
  | none => finishGeneric src .denied 0 s
  | some i =>
    if (s.cx x.val).quota.toNat ≤ usedSlots s x then finishGeneric src .denied 0 s
    else finishGeneric src .ok i (s.onCtxBlk (fun b => { b with sqs := fput {} i ⟨some x, false⟩ b.sqs }))

/-- R211: a BOUND slot of the context becomes RELEASING, or the request is denied. -/
def submitUnbind (src : CmdSrc) (x : CtxId) (slot : Nat) (s : State) : State :=
  if 255 < slot ∨ fget {} s.ctx.sqs slot ≠ ⟨some x, false⟩ then finishGeneric src .denied 0 s
  else finishGeneric src .ok 0 (s.onCtxBlk (fun b => { b with sqs := fput {} slot ⟨some x, true⟩ b.sqs }))

end Sys2Proof.Machine
end

