-- ==== Sys2Proof/Machine/Memory.lean ====
section
/-! DEFINITION. Blocks on the mesh, the copies of retired banks and pseudo-channels, and the errors that a stack
reports (R150–R171). -/

namespace Sys2Proof.Machine

/-! ### Mesh headers (R157, R158) -/

/-- The fields of a mesh block header, but for its CRC. -/
structure MHdr where
  dst : Nat
  src : Nat
  type : Nat
  vc : Nat
  ctx : Nat
  tag : Nat
  len : Nat
  poison : Bool
  attempt : Nat
  addr : Nat
  deriving DecidableEq, Repr

def MHdr.ofBits (h : BitVec 128) : MHdr :=
  let w := h.toNat
  { dst := fld w 0 9, src := fld w 9 9, type := fld w 18 4, vc := fld w 22 2, ctx := fld w 24 4, tag := fld w 28 12
    len := fld w 40 2, poison := bit w 42, attempt := fld w 43 2, addr := fld w 48 40 }

/-- Header bits [95:0]. -/
def MHdr.low (h : MHdr) : Nat :=
  h.dst + h.src * 2 ^ 9 + h.type * 2 ^ 18 + h.vc * 2 ^ 22 + h.ctx * 2 ^ 24 + h.tag * 2 ^ 28 + h.len * 2 ^ 40 +
  b2n h.poison * 2 ^ 42 + h.attempt * 2 ^ 43 + h.addr * 2 ^ 48

/-- R158: the CRC of a header's bytes 0–11 and a payload. -/
def meshCrc (low : Nat) (payload : List Byte) : Nat := crc32c (leBytes 12 low ++ payload)

/-- A block with its CRC. -/
def MHdr.block (h : MHdr) (payload : List Byte) : MeshBlk :=
  { hdr := BitVec.ofNat 128 (h.low + meshCrc h.low payload * 2 ^ 96), payload := payload }

/-- The CRC of a received block matches. -/
def crcOk (hdr : BitVec 128) (payload : List Byte) : Bool :=
  hdr.toNat / 2 ^ 96 == meshCrc (hdr.toNat % 2 ^ 96) payload

/-! ### Routes and channels (R155, R156) -/

/-- R156: an injection at a north or south edge port is Y first; every other is X first. -/
def xFirstFrom (stop : Nat) : Bool := !(decide (256 ≤ stop) && decide (stop < 304) && decide (4 ≤ (stop - 256) / 6))

/-- R156: the virtual channel of a block of a class (0 request, 1 response) from one stop to another: the normal order,
or the other where the normal route crosses a retired link; none where both do. -/
def channelFor (s : State) (resp : Nat) (src dst : Nat) : Option Nat :=
  let x := xFirstFrom src
  let a := stopRouter src
  let b := stopRouter dst
  if routeOpen s x a b then some (2 * resp + b2n !x)
  else if routeOpen s (!x) a b then some (2 * resp + b2n x)
  else none

/-- The side by which a block with a destination leaves a router: toward the next router, or by the side of the stop. -/
def exitSide (router dst vc : Nat) : Nat :=
  if stopRouter dst = router then stopSide dst else nextDir (vc % 2 == 0) router (stopRouter dst)

/-- The blocks that a mesh command sends, with their sides. -/
def meshSent (bs : List (Nat × MeshBlk)) (s : State) : State :=
  s.onMesh (fun m => { m with sent := bs.map (fun e => (Fin.ofNat 5 e.1, e.2)) })

/-- A message that this module's endpoint at `h.src` sends: on its channel, or failed at once (R156). -/
def meshSend (h : MHdr) (payload : List Byte) (s : State) : State :=
  match channelFor s (if h.type = 0 ∨ h.type = 2 then 0 else 1) h.src h.dst with
  | some vc =>
    meshSent [(exitSide (stopRouter h.src) h.dst vc, { h with vc := vc }.block payload)] s
  | none => meshSent [] (countFailed (s.onMesh (fun m => { m with noRoute := true })))

/-- MESH_BLOCK_FORWARD (R156, R159): a mismatch counts against the incoming link; the block goes on unchanged. -/
def meshForward (router dir : Nat) (hdr : BitVec 128) (payload : List Byte) (s : State) : State :=
  let h := MHdr.ofBits hdr
  let s1 := if crcOk hdr payload || (neighbour router dir).isNone then s else countHopErr router dir s
  meshSent [(exitSide router h.dst h.vc, ⟨hdr, payload⟩)] s1

def execMeshBlockForward (router : CoreId) (dir : Fin 5) (hdr : BitVec 128) (payload : List Byte) (s : State) : Res :=
  .next (meshForward router.val dir.val hdr payload s)

/-! ### Reads and writes (R160–R162) -/

/-- The physical byte that a header addresses at a stop: a Ledge byte at a slice, an HBM space byte at an edge port. -/
def targetPhys (stop addr : Nat) : Option Phys :=
  if stop < 208 then some ⟨false, addr⟩ else if 256 ≤ stop ∧ stop < 304 then some ⟨true, addr⟩ else none

/-- R160: a failed read ends the pitch of the core that asked for it. -/
def readFailed (c ctx : Nat) (s : State) : State :=
  match (s.core c).run with
  | none => s
  | some r =>
    if r.job.ctx.val ≠ ctx then s
    else if !r.fetched then endRun c .crc 0xFFFF s
    else
      match r.flights.find? (fun f => f.unit == 0 || f.unit == 4) with
      | some f => endRun c .crc (BitVec.ofNat 16 f.pc) s
      | none => s

/-- R160, R161, R225: a failed transfer counts against the source unit, or against the link that saw the error. -/
def countTransfer (stop addr : Nat) (poison : Bool) (hop : Option (CoreId × Fin 5)) (s : State) : State :=
  match hop, poison, targetPhys stop addr with
  | some (r, d), false, _ => countLinkFail r.val d.val s
  | _, _, some p => countUnitFail (unitOf s p) s
  | _, _, none => s

/-- MESH_READ_DATA_RX (R160). -/
def readDataRx (hdr : BitVec 128) (payload : List Byte) (hop : Option (CoreId × Fin 5)) (s : State) : State :=
  let h := MHdr.ofBits hdr
  if crcOk hdr payload && !h.poison then
    let s1 := match decide (0 < h.attempt), targetPhys h.src h.addr with
      | true, some p => countRefetchOk (unitOf s p) s
      | _, _ => s
    (meshSent [] s1).setReply { status := some .ok, bytes := payload }
  else if h.attempt < 3 then
    meshSend { h with dst := h.src, src := h.dst, type := 0, len := 0, poison := false, attempt := h.attempt + 1 } []
      (s.onMesh (fun m => { m with refetch := satInc m.refetch }))
  else
    (readFailed h.dst h.ctx (countTransfer h.src h.addr h.poison hop (meshSent [] (countFailed s)))).setReply
      { status := some .crc }

def execMeshReadDataRx (hdr : BitVec 128) (payload : List Byte) (hopErr : Option (CoreId × Fin 5)) (s : State) : Res :=
  .next (readDataRx hdr payload hopErr s)

/-- MESH_READ_REQUEST_RX (R157): the block returns as read data, with POISON where it cannot be read. A damaged
request is returned as a negative acknowledgement. -/
def readRequestRx (hdr : BitVec 128) (s : State) : State :=
  let h := MHdr.ofBits hdr
  let back := { h with dst := h.src, src := h.dst }
  if !crcOk hdr [] then meshSend { back with type := 4, len := 0 } [] s
  else
    match targetPhys h.dst h.addr with
    | none => meshSent [] s
    | some p =>
      let n := 64 * (h.len + 1)
      let m := if p.hbm then s.hbm.mem else s.ledge.mem
      meshSend { back with type := 1, poison := physBad s p } (memRead m p.addr n) s

def execMeshReadRequestRx (hdr : BitVec 128) (s : State) : Res := .next (readRequestRx hdr s)

/-- A write whose payload is known bad leaves its block poisoned. -/
def poisonBlock (p : Phys) (s : State) : State :=
  let b := p.addr / 256
  if p.hbm then s.onHbm (fun h => { h with poison := b :: h.poison.erase b })
  else s.onLedge (fun l => { l with poison := b :: l.poison.erase b })

/-- MESH_WRITE_RX (R161): written and acknowledged, or discarded with a negative acknowledgement. -/
def writeRx (hdr : BitVec 128) (payload : List Byte) (s : State) : State :=
  let h := MHdr.ofBits hdr
  let back := { h with dst := h.src, src := h.dst, len := 0, poison := false }
  match targetPhys h.dst h.addr with
  | none => meshSent [] s
  | some p =>
    if !crcOk hdr payload || (!p.hbm && (fget {} s.ledge.banks (p.addr / 2 ^ 20)).st == 3) then
      meshSend { back with type := 4 } [] s
    else
      let s1 := physPut p (payload.take (64 * (h.len + 1))) s
      meshSend { back with type := 3 } [] (if h.poison then poisonBlock p s1 else s1)

def execMeshWriteRx (hdr : BitVec 128) (payload : List Byte) (s : State) : Res := .next (writeRx hdr payload s)

/-- MESH_WRITE_ACK_RX (R162): the block counts as delivered. -/
def execMeshWriteAckRx (hdr : BitVec 128) (s : State) : Res :=
  .next (if crcOk hdr [] then (meshSent [] s).setReply { status := some .ok, value := BitVec.ofNat 64 (MHdr.ofBits hdr).tag }
    else meshSent [] s)

/-- A failed write stops a commit as a core error (R137, R161). -/
def writeFailed (c ctx : Nat) (s : State) : State :=
  match (s.core c).run with
  | none => s
  | some r => if r.job.ctx.val = ctx ∧ drained r then stopRun c true 0 s else s

/-- MESH_NAK_RX (R161): the sender sends the block again, or its write has failed. -/
def nakRx (hdr : BitVec 128) (hop : Option (CoreId × Fin 5)) (s : State) : State :=
  let h := MHdr.ofBits hdr
  if h.attempt < 3 then
    meshSend { h with dst := h.src, src := h.dst, type := 2, attempt := h.attempt + 1 } []
      (s.onMesh (fun m => { m with refetch := satInc m.refetch }))
  else
    writeFailed h.dst h.ctx (match hop with
      | some (r, d) => countLinkFail r.val d.val (meshSent [] (countFailed s))
      | none => meshSent [] (countFailed s))

def execMeshNakRx (hdr : BitVec 128) (hopErr : Option (CoreId × Fin 5)) (s : State) : Res := .next (nakRx hdr hopErr s)

/-! ### Copies and reported errors (R151, R166–R169) -/

/-- LEDGE_SPARE_COPY_DONE (R151). -/
def spareCopied (g : Nat) (s : State) : State :=
  if (fget {} s.ledge.banks g).st = 1 then raise pgLedge 4 (onBank g (fun b => { b with st := 2, ptr := 4096 }) s) else s

def execLedgeSpareCopyDone (g : BitVec 12) (s : State) : Res := .next (spareCopied g.toNat s)

/-- HBM_CORRECTED_ERROR (R166). -/
def execHbmCorrectedError (pc : BitVec 8) (s : State) : Res :=
  .next (if pc.toNat < s.env.variant.pcs then countPcCorrected pc.toNat s else s)

/-- The reserve blocks in use on a pseudo-channel just before its own retirement, and so the blocks its copy moves
beside its own (R168). -/
def carriedBlocks (q : Nat) : List Nat → List Nat → FMap Nat → Nat
  | [], _, used => fget 0 used q
  | r :: rs, inSvc, used =>
    if r = q then fget 0 used q
    else
      let svc := inSvc.filter (fun p => p != r)
      let moved := ownBlocks + fget 0 used r
      carriedBlocks q rs svc ((svc.zipIdx).foldl
        (fun u (p, t) => fput 0 p (fget 0 u p + shareOf moved svc.length t) u) used)

/-- HBM_RETIRE_COPY_DONE (R169). -/
def retireCopied (q : Nat) (s : State) : State :=
  if (fget {} s.hbm.pcs q).st = 1 then
    let n := ownBlocks + carriedBlocks q s.hbm.retOrder (List.range s.env.variant.pcs) []
    raise (pgHbm (q / 32)) 4 (onPc q (fun c => { c with st := 2, ptr := BitVec.ofNat 23 n }) s)
  else s

def execHbmRetireCopyDone (pc : BitVec 8) (s : State) : Res := .next (retireCopied pc.toNat s)

end Sys2Proof.Machine
end

