-- ==== Sys2Proof/Machine/Arbiter.lean ====
section
/-! DEFINITION. The shared arbiter (R172–R179, R183, R270, R337). -/

namespace Sys2Proof.Machine

/-- MAX_HOLD and AGE_LIMIT at reset (R179, R270, R337). -/
def ArbId.defaults : ArbId → Nat × Nat
  | .ledgeLocal _ => (4, 64)
  | .ledgeMesh _ => (16, 1024)
  | .hbm _ => (64, 4096)
  | .mesh _ _ => (16, 256)
  | .fab _ => (16, 4096)
  | .pwr => (0, 16000)

def maxHoldOf (s : State) (a : ArbId) : Nat := ((s.arb a.key).maxHold.map (·.toNat)).getD (ArbId.defaults a).1

/-- The requesters of R179: cores, camp cores, the host, the copier and the ports. -/
def memRequester (r : Nat) : Bool := decide (r ≤ 213) || (decide (216 ≤ r) && decide (r ≤ 231))

/-- A requester index that an instance has (R179, R270, R337). -/
def ArbId.has : ArbId → Nat → Bool
  | .ledgeLocal _, r => decide (r < 3)
  | .ledgeMesh n, r => memRequester r && r != n.val
  | .hbm _, r => memRequester r
  | .mesh _ _, r => decide (r < 5)
  | .fab _, r => decide (r ≤ 211) || (decide (216 ≤ r) && decide (r ≤ 233))
  | .pwr, r => decide (r < 208)

/-- Instances whose requesters are cores, for which the camp cores set the priority of the context (R179). -/
def ArbId.byCore : ArbId → Bool
  | .ledgeLocal _ | .mesh _ _ => false
  | _ => true

/-- The priority of a requester: as written, else that of the core's context, else 3 (R179, R337). -/
def prioOf (s : State) (a : ArbId) (r : Nat) : Nat :=
  match fget none (s.arb a.key).prio r with
  | some p => p.toNat
  | none =>
    if ArbId.byCore a && decide (r < 208) then
      match (s.core r).run, (s.ctl r).owner with
      | some run, _ => if run.job.src.isNone then 1 else (s.cx run.job.ctx.val).prio.toNat
      | none, some x => (s.cx x.val).prio.toNat
      | none, none => 3
    else 3

/-- The heads of the requesters' queues: requester, when it reached the head, and whether it is aged. -/
def ArbInst.heads (i : ArbInst) : List (Nat × ArbReq) := i.queues.filterMap (fun e => e.2.head?.map (fun q => (e.1, q)))

/-- The aged request that has waited longest. -/
def oldestAged (hs : List (Nat × ArbReq)) : Option Nat :=
  (hs.filter (fun h => h.2.aged)).foldl (fun best h =>
    match best with
    | none => some h
    | some b => if h.2.t < b.2.t then some h else some b) (none : Option (Nat × ArbReq)) |>.map (·.1)

/-- The first of some requesters after the one last granted, in ascending order and round again. -/
def roundRobin (last : Option Nat) (rs : List Nat) : Option Nat :=
  match last with
  | none => rs.head?
  | some l => (rs.find? (fun r => decide (l < r))).orElse (fun _ => rs.head?)

/-- R172: the request that wins. -/
def winner (s : State) (a : ArbId) : Option Nat :=
  let i := s.arb a.key
  let hs := i.heads
  match oldestAged hs with
  | some r => some r
  | none =>
    let top := (hs.map (fun h => prioOf s a h.1)).foldl max 0
    let rs := (hs.filter (fun h => prioOf s a h.1 == top)).map (·.1)
    roundRobin ((i.last.find? (fun e => e.1 == top)).map (fun e => e.2 - 1)) rs

/-- What is left of the class reservation that an instance draws on, in 1/256 token (R327). -/
def classLeft (s : State) : ArbId → Nat
  | .hbm q => fget 0 s.pwr.resv.hbm (q.toNat / 32)
  | .ledgeLocal _ | .ledgeMesh _ => (s.pwr.resv.ledge.map (·.2)).sum
  | .mesh _ _ => s.pwr.resv.mesh
  | .fab p => fget 0 s.pwr.resv.fab p.val
  | .pwr => 1

/-- A debit of a table's entries, in ascending key. -/
def drainTable : Nat → FMap Nat → FMap Nat
  | _, [] => []
  | n, (k, v) :: m => if v ≤ n then drainTable (n - v) m else (k, v - n) :: m

/-- R327, R341: a grant unit's energy, times METER_K, is debited from its class, and no more than it holds. -/
def debitClass (s : State) (a : ArbId) (r : ClassRes) : ClassRes :=
  let e := fun c => Config.unitEnergy c * s.pwr.meterK.toNat / 1024
  match a with
  | .hbm q => { r with hbm := fput 0 (q.toNat / 32) (fget 0 r.hbm (q.toNat / 32) - e 0) r.hbm }
  | .ledgeLocal _ | .ledgeMesh _ => { r with ledge := drainTable (e 1) r.ledge }
  | .mesh _ _ => { r with mesh := r.mesh - e 2 }
  | .fab p => { r with fab := fput 0 p.val (fget 0 r.fab p.val - e 3) r.fab }
  | .pwr => r

/-- The unit under which the thermal block counts a class's energy. -/
def useOf : ArbId → Nat
  | .hbm q => 208 + q.toNat / 32
  | .ledgeLocal _ | .ledgeMesh _ => 216
  | .mesh _ _ => 217
  | .fab p => 218 + p.val
  | .pwr => 0

/-- R172, R327: a free instance grants, if a request is pending and its class has energy left. The last requester granted
at a priority is kept one up, so that none is listed as zero. -/
def arbitrate (a : ArbId) (s : State) : State :=
  let i := s.arb a.key
  match i.holder, winner s a with
  | none, some r =>
    if classLeft s a = 0 then s
    else
      let p := prioOf s a r
      let res := debitClass s a s.pwr.resv
      let spent := classLeft s a - classLeft { s with pwr := { s.pwr with resv := res } } a
      let s1 := (s.setArb a.key { i with
        holder := some r, heldPrio := some (BitVec.ofNat 3 p), last := fput 0 p (r + 1) i.last }).onPwr
        (fun q => { q with resv := res, debitNow := q.debitNow + spent })
      noteUse (useOf a) spent s1
  | _, _ => s

/-- R173: a request joins its requester's queue of four. -/
def arbQueue (a : ArbId) (r : Nat) (s : State) : State :=
  let i := s.arb a.key
  let q := fget [] i.queues r
  if 4 ≤ q.length then s
  else s.setArb a.key { i with queues := fput [] r (q ++ [{ t := i.clock }]) i.queues, clock := i.clock + 1 }

/-- ARB_REQUEST (R172, R173). The power-token grant is granted by its own rules (R337), and its requests are parked. -/
def arbRequest (a : ArbId) (r : Nat) (s : State) : State :=
  if !ArbId.has a r then s
  else
    let s1 := arbQueue a r s
    if a = .pwr then s1 else arbitrate a s1

def execArbRequest (a : ArbId) (req : BitVec 8) (s : State) : Res := .next (arbRequest a req.toNat s)

/-- The head of a requester's queue leaves; the next one reaches the head now (R174). -/
def popHead (r : Nat) (i : ArbInst) : ArbInst :=
  let q := match (fget [] i.queues r).tail with
    | [] => []
    | h :: t => { h with t := i.clock } :: t
  { i with queues := fput [] r q i.queues, clock := i.clock + 1 }

/-- ARB_RELEASE (R173, R177). -/
def arbRelease (a : ArbId) (s : State) : State :=
  let i := s.arb a.key
  match i.holder with
  | none => s
  | some r => arbitrate a (s.setArb a.key { popHead r i with holder := none, heldPrio := none })

def execArbRelease (a : ArbId) (s : State) : Res := .next (arbRelease a s)

/-- The page of an instance and its INST there (R183, R283, R353). -/
def ArbId.place : ArbId → Nat × Nat
  | .ledgeLocal n => (pgLedge, n.val)
  | .ledgeMesh n => (pgLedge, 208 + n.val)
  | .hbm q => (pgHbm (q.toNat / 32), q.toNat % 32)
  | .mesh r d => (pgMesh, r.val * 8 + d.val)
  | .fab p => (pgFab p.val, 0)
  | .pwr => (pgPwr, 0)

/-- ARB_AGED (R174): the request at the head of a queue becomes aged. -/
def arbAge (a : ArbId) (r : Nat) (s : State) : State :=
  let i := s.arb a.key
  match fget [] i.queues r with
  | [] => s
  | h :: t =>
    if h.aged ∨ i.holder = some r then s
    else s.setArb a.key { i with queues := fput [] r ({ h with aged := true } :: t) i.queues, aged := satInc i.aged }

def execArbAged (a : ArbId) (req : BitVec 8) (s : State) : Res := .next (arbAge a req.toNat s)

/-- Pages whose interrupt bit 3 is ARB_CUT (R183). -/
def ArbId.cutBit : ArbId → Bool
  | .ledgeLocal _ | .ledgeMesh _ | .hbm _ | .mesh _ _ => true
  | _ => false

/-- ARB_CUTOFF (R175): the grant is withdrawn, and its request stays at the head with its age. -/
def arbCut (a : ArbId) (s : State) : State :=
  let i := s.arb a.key
  match i.holder with
  | none => s
  | some r =>
    if maxHoldOf s a = 0 then s
    else
      let pl := ArbId.place a
      let s1 := s.setArb a.key { i with holder := none, heldPrio := none, cut := true, cuts := satInc i.cuts }
      let s2 := s1.onArbSel pl.1 (fun q => { q with lastReq := BitVec.ofNat 8 r, lastInst := BitVec.ofNat 12 pl.2 })
      arbitrate a (when (ArbId.cutBit a) (raise pl.1 3) s2)

def execArbCutoff (a : ArbId) (s : State) : Res := .next (arbCut a s)

end Sys2Proof.Machine
end

