-- ==== Sys2Proof/Machine/HutBook.lean ====
section
/-! DEFINITION. The hut book: histograms, the record ring, the event port and flushes (R497, R498, R513–R519). -/

namespace Sys2Proof.Machine

def State.onHut (f : HutBlk → HutBlk) (s : State) : State := { s with hut := f s.hut }
def State.onCairn (f : CairnBlk → CairnBlk) (s : State) : State := { s with cairn := f s.cairn }
def State.onBook (f : Book → Book) (s : State) : State := s.onHut (fun h => { h with book := f h.book })

/-- A run of consecutive codes. -/
def codeRun (a n : Nat) : List Nat := (List.range n).map (fun i => a + i)

/-- R513: the codes the manual assigns, in ascending order; a code's place is its histogram slot. -/
def hutCodes : List Nat :=
  codeRun 0x0101 6 ++ codeRun 0x0201 6 ++ [0x1101, 0x1201, 0x1301] ++ codeRun 0x2001 7 ++ [0x2101]
    ++ codeRun 0x4001 9 ++ codeRun 0x4101 3 ++ codeRun 0x5001 6 ++ codeRun 0x5101 8
    ++ codeRun 0x6001 8 ++ codeRun 0x7001 5 ++ codeRun 0x7101 6 ++ codeRun 0x7201 5
    ++ codeRun 0x8001 7 ++ codeRun 0x8101 2 ++ codeRun 0x8201 6 ++ codeRun 0x9001 2
    ++ codeRun 0x9101 2 ++ codeRun 0x9201 2 ++ codeRun 0x9301 4 ++ codeRun 0x9401 2
    ++ codeRun 0xA001 15 ++ codeRun 0xA101 2

/-- R513: the slot of a code; every code without one shares slot 255. -/
def hutSlot (code : Nat) : Nat :=
  let k := hutCodes.idxOf code
  if k < hutCodes.length then k else 255

/-- R513: the bin of a value. -/
def hutBin (v : Nat) : Nat := if v = 0 then 0 else min 15 (Nat.log2 v + 1)

def Hist.add (v : BitVec 16) (ts : DWord) (ho : Bool) (h : Hist) : Hist :=
  let k := hutBin v.toNat
  let b := fget 0 h.bins k
  { h with
    bins := if b = 0xFFFFFFFF then h.bins else fput 0 k (b + 1) h.bins
    min := if v.toNat < h.min.toNat then v else h.min
    max := if h.max.toNat < v.toNat then v else h.max
    last := ts.setWidth 63, holdover := ho }

/-- R513, R514: one event is counted, in its bin or in the drop counter. -/
def hutCount (code : Nat) (v : BitVec 16) (ts : DWord) (ho : Bool) (s : State) : State :=
  let k := hutSlot code
  let h := fget {} s.hut.book.slots k
  let full := decide (fget 0 h.bins (hutBin v.toNat) = 0xFFFFFFFF)
  let s1 := s.onBook (fun b => { b with
    slots := fput {} k (h.add v ts ho) b.slots
    drop := if full then b.drop + 1 else b.drop
    total := b.total + 1 })
  when full (errTrans pgLog) s1

/-- Positions of the ring: 32-byte records, or 4-byte units in the M500 form (R504, R515, R517). -/
def ringSize (s : State) : Nat := if s.hut.m500 then 2 ^ 20 else 2 ^ 17

/-- A byte string cut or filled with zeros to a length. -/
def padBytes (n : Nat) (bs : List Byte) : List Byte := (bs ++ List.replicate n 0).take n

/-- R515: a native record. -/
def nativeRec (code : Nat) (v : BitVec 16) (ts : DWord) (ho compute : Bool) (supp : Word) (arg : List Byte) :
    List Byte :=
  leBytes 8 ts.toNat ++ leBytes 2 code ++ leBytes 2 v.toNat
    ++ [BitVec.ofNat 8 (ho.toNat + 2 * compute.toNat), 0, 0, 0]
    ++ leBytes 4 supp.toNat ++ padBytes 12 arg

/-- R517: an M500 record. -/
def m500Rec (code : Nat) (v : BitVec 16) (ts : DWord) (arg : List Byte) : List Byte :=
  let n := min 28 ((arg.length + 3) / 4 * 4)
  leBytes 2 (12 + n) ++ leBytes 2 code ++ leBytes 6 (ts.toNat / 100) ++ leBytes 2 v.toNat ++ padBytes n arg

/-- Four-byte units of a byte string. -/
def quadsOf : Nat → List Byte → List (List Byte)
  | 0, _ => []
  | n + 1, bs => if bs = [] then [] else bs.take 4 :: quadsOf n (bs.drop 4)

/-- Units stored into the ring from its write position. -/
def putUnits (us : List (List Byte)) (b : Book) : Book :=
  us.foldl (fun (b : Book) (u : List Byte) => { b with ring := fput [] b.wr.toNat u b.ring, wr := b.wr + 1 }) b

/-- R517: no M500 record spans the end of the ring; one with code 0 pads to it. -/
def putM500 (r : List Byte) (b : Book) : Book :=
  let left := 2 ^ 20 - b.wr.toNat
  let b1 := if left * 4 < r.length then putUnits (quadsOf left (padBytes (left * 4) (leBytes 2 (left * 4)))) b else b
  putUnits (quadsOf 10 r) b1

def putNative (r : List Byte) (b : Book) : Book :=
  { b with ring := fput [] b.wr.toNat r b.ring, wr := BitVec.ofNat 20 ((b.wr.toNat + 1) % 2 ^ 17) }

/-- R515: a record is written, and carries and resets its code's SUPPRESSED count. -/
def hutRecord (code : Nat) (v : BitVec 16) (ts : DWord) (ho compute : Bool) (arg : List Byte) (s : State) : State :=
  let b := if s.hut.m500 then putM500 (m500Rec code v ts arg) s.hut.book
    else putNative (nativeRec code v ts ho compute (fget 0 s.hut.supp code) arg) s.hut.book
  s.onHut (fun h => { h with book := b, supp := fput 0 code 0 h.supp })

/-- R513–R518: an event with its stamp. Events after the power-fail flush began are not counted (R35); `force` writes a
record whatever the allowance. -/
def hutAt (force compute : Bool) (code : Nat) (v : BitVec 16) (arg : List Byte) (ts : DWord) (ho : Bool)
    (s : State) : State :=
  if s.hut.powerFail then s
  else
    let s1 := hutCount code v ts ho s
    let u := fget 0 s.hut.used code
    if force then hutRecord code v ts ho compute arg s1
    else if u < 16 then
      hutRecord code v ts ho compute arg (s1.onHut (fun h => { h with used := fput 0 code (u + 1) h.used }))
    else s1.onHut (fun h => { h with supp := fput 0 code (satInc (fget 0 h.supp code)) h.supp })

/-- An event of Cairn's own. -/
def cairnEvent (code value : Nat) (arg : List Byte) (s : State) : State :=
  hutAt false false code (BitVec.ofNat 16 value) arg s.env.ts s.env.holdover s

/-- An event that enters its histogram and writes no record (R403). -/
def cairnCount (code value : Nat) (s : State) : State :=
  if s.hut.powerFail then s else hutCount code (BitVec.ofNat 16 value) s.env.ts s.env.holdover s

/-- R518: the bracketing events of holdover. -/
def cairnEventForced (code value : Nat) (s : State) : State :=
  hutAt true false code (BitVec.ofNat 16 value) [] s.env.ts s.env.holdover s

/-! ### The event port (R498) -/

/-- EVENT_PORT_WRITE: one entry of the port. -/
def execEventPortWrite (lo hi : Word) (s : State) : Res :=
  .next (campEvent (lo.toNat % 65536) (lo.toNat / 65536) hi.toNat s)

/-- EVT_OVF_POLL: the events queued enter the book, and the discarded writes enter its drop counter and total (R498,
R514). -/
def evtPoll (s : State) : State :=
  let q := s.evts.queue
  let n := s.evts.overflow.toNat
  let s1 := s.onEvts (fun _ => {})
  let s2 := forAll q (fun (e : Evt) t =>
    hutAt false true e.code.toNat e.value (leBytes 4 e.arg.toNat) e.ts e.holdover t) s1
  if s2.hut.powerFail then s2
  else when (n != 0) (errTransN pgLog n)
    (s2.onBook (fun b => { b with
      drop := b.drop + BitVec.ofNat 64 n
      total := b.total + BitVec.ofNat 64 n }))

def execEvtOvfPoll (s : State) : Res := .next (evtPoll s)

/-! ### Flushes and the record allowance (R515, R516) -/

/-- R516: the book is written to flash. -/
def flushBook (s : State) : State := raise pgLog 0 (s.onHut (fun h => { h with flash := h.book }))

def execHutBookFlushTimer (s : State) : Res := .next (if s.hut.powerFail then s else flushBook s)

/-- RECORD_ALLOWANCE_TICK: every allowance grows by one, up to 16. -/
def execRecordAllowanceTick (s : State) : Res :=
  .next (s.onHut (fun h => { h with
    used := (h.used.map (fun (e : Nat × Nat) => (e.1, e.2 - 1))).filter (fun e => e.2 != 0) }))

/-- R519: LOG_CLEAR's effect on the book. -/
def clearBook (who : Nat) (cert : List Byte) (s : State) : State :=
  let total := s.hut.book.total
  let s1 := s.onHut (fun h => { h with
    book := {}, clears := h.clears + 1 })
  raise pgLog 1 (hutAt true false 0xA102 (BitVec.ofNat 16 who) (padBytes 4 cert ++ leBytes 8 total.toNat)
    s.env.ts s.env.holdover s1)

end Sys2Proof.Machine
end

