-- ==== Sys2Proof/Machine/Drives.lean ====
section
/-! DEFINITION. Valve and motor channels: the valve sequencer, the coil model, starts and modes, faults and the
ageing indicator (R405–R425). -/

namespace Sys2Proof.Machine

def State.onDrv (f : DriveBlk → DriveBlk) (s : State) : State := { s with drv := f s.drv }
def State.valve (s : State) (v : Nat) : Valve := fget {} s.drv.valves v
def State.onValve (v : Nat) (f : Valve → Valve) (s : State) : State :=
  s.onDrv (fun d => { d with valves := fput {} v (f (fget {} d.valves v)) d.valves })
def State.motor (s : State) (m : Nat) : Motor := fget {} s.drv.motors m
def State.onMotor (m : Nat) (f : Motor → Motor) (s : State) : State :=
  s.onDrv (fun d => { d with motors := fput {} m (f (fget {} d.motors m)) d.motors })
def State.input (s : State) (k : Nat) : Input := fget {} s.drv.inputs k
def State.onInput (k : Nat) (f : Input → Input) (s : State) : State :=
  s.onDrv (fun d => { d with inputs := fput {} k (f (fget {} d.inputs k)) d.inputs })
def State.rope (s : State) (r : Nat) : Rope := fget {} s.drv.ropes r
def State.onRope (r : Nat) (f : Rope → Rope) (s : State) : State :=
  s.onDrv (fun d => { d with ropes := fput {} r (f (fget {} d.ropes r)) d.ropes })
def State.group (s : State) (g : Nat) : Group := fget {} s.cbus.groups g

/-- A rational rounded where no rule states the rounding: exact, or one of its two neighbours. -/
def openRound (tag : Nat) (q : Rat) : Int :=
  if q.den = 1 then q.num else q.floor + (Config.roundsUp tag q.num.toNat).toNat

/-- Any leak LATCH is set (R431). -/
def anyLatch (s : State) : Bool := s.drv.ropes.any (fun e => e.2.latch)

/-- R408, R454: a LEASED valve channel whose lease is not held here. -/
def valveHeld (s : State) (v : Nat) : Bool :=
  s.cairn.policy.row && (s.valve v).leased &&
    !(s.cbus.groups.any (fun e => decide (e.2.st = .holding) && e.2.valves.getLsbD v))

/-- As `valveHeld`, for a motor channel. -/
def motorHeld (s : State) (m : Nat) : Bool :=
  s.cairn.policy.row && (s.motor m).leased &&
    !(s.cbus.groups.any (fun e => decide (e.2.st = .holding) && e.2.motors.getLsbD m))

/-- The coolant state's code (R378). -/
def coolCode : CoolSt → Nat
  | .off => 0 | .proving => 1 | .normal => 2 | .low => 3 | .stopped => 4 | .shutdown => 5

/-! ### Valve sequencer (R409–R414) -/

/-- The other channel of a valve's high side (R405). -/
def otherValve (v : Nat) : Nat := if v % 2 = 0 then v + 1 else v - 1

/-- R413: a deferral ends; its length in µs is recorded. -/
def endDefer (v : Nat) (s : State) : State :=
  let q := s.valve v
  if q.st = .deferred then
    let n := min 65535 ((s.env.ts - q.deferTs).toNat / 100)
    cairnEvent 0x7001 n (leBytes 4 v) (s.onValve v (fun q => { q with
      deferMax := if q.deferMax.toNat < n then BitVec.ofNat 16 n else q.deferMax, st := .idle }))
  else s

/-- R406: the safe state of a valve channel. -/
def valveSafe (v : Nat) (s : State) : State :=
  (endDefer v s).onValve v (fun q => { q with st := .idle, low := false, steady := 0, prog := false })

/-- R409: the channel enters FAULT. -/
def valveFault (v : Nat) (s : State) : State :=
  errPerm pgVlv (raise pgVlv 1 ((valveSafe v s).onValve v (fun q => { q with st := .fault })))

def valveStart (v : Nat) (st : ValveSt) (low : Bool) (s : State) : State :=
  s.onValve v (fun q => { q with st := st, low := low, steady := if q.low = low then q.steady else 0 })

/-- R413: a BOOST word waits while the other channel is in BOOST or PEAK. -/
def boostBlocked (s : State) (v : Nat) : Bool :=
  (s.valve (otherValve v)).st = .boost || (s.valve (otherValve v)).st = .peak

/-- R409: the word at `k` is started; JMP words are followed for `fuel` words. -/
def startWord (v : Nat) : Nat → Nat → State → State
  | 0, _, s => valveFault v s
  | fuel + 1, k, s0 =>
    if 64 ≤ k then valveFault v s0
    else
      let s := s0.onValve v (fun q => { q with pc := BitVec.ofNat 6 k })
      let w := (fget 0 (s.valve v).ucode k).toNat
      let op := fld w 28 4
      let i := fld w 12 12
      let t := fld w 0 12
      if fld w 24 3 != 0 then valveFault v s
      else if op = 1 then
        if t = 0 then valveFault v s
        else if boostBlocked s v then
          raise pgVlv 0 (errTrans pgVlv (s.onValve v (fun q => { q with
            st := .deferred, low := false, steady := 0, deferTs := s.env.ts, defers := satInc q.defers })))
        else valveStart v .boost true s
      else if op = 2 then if t = 0 then valveFault v s else valveStart v .peak (s.valve v).low s
      else if op = 3 then valveStart v .hold (s.valve v).low s
      else if op = 4 then if fld i 8 4 != 0 then valveFault v s else valveStart v .pwm (fld i 0 8 != 0) s
      else if op = 5 then valveStart v .off false s
      else if op = 6 then if t != 0 then valveFault v s else startWord v fuel (fld i 0 6) s
      else if op = 7 then if t != 0 then valveFault v s else valveStart v .idle false s
      else valveFault v s

/-- A program is started at a word; a deferral in progress ends. -/
def enterWord (v k : Nat) (s : State) : State := startWord v 65 k (endDefer v s)

/-- R414: Tamb in °C. -/
def ambient (s : State) (q : Valve) : Rat :=
  let i := s.input (32 + q.amb.toNat)
  if q.ambv && !i.fault then (i.value.toInt : Rat) / 16 else 60

/-- A channel keeps its leak entry while a LATCH is set (R431), and a LEASED one while a peer's LEAK is held (R453). -/
def leakHold (s : State) (leased : Bool) : Bool := anyLatch s || (s.cbus.peerLeak && leased)

/-- The program of the present command starts; the coil's temperature starts with the first one (R414). -/
def startCommand (v : Nat) (on : Bool) (s : State) : State :=
  let q := s.valve v
  let s1 := s.onValve v (fun q => { q with
    prog := on, tc := match q.tc with | some t => some t | none => some (ambient s q) })
  enterWord v (if on then q.onEntry.toNat else q.offEntry.toNat) s1

/-- R410, R431: a change of VLV_CMD.ON. FAULT and COIL_OT hold the channel until an ON edge, COIL_OT until the coil has
cooled as well (R409, R414). -/
def valveEdge (v : Nat) (on : Bool) (s : State) : State :=
  let q := s.valve v
  if q.on = on then s
  else
    let s1 := s.onValve v (fun q => { q with on := on })
    if valveHeld s v || (leakHold s q.leased && q.leakTaken) then s1
    else if q.coilOt then
      if on ∧ (q.tc.getD 0) ≤ 145 then startCommand v on (s1.onValve v (fun q => { q with coilOt := false })) else s1
    else if q.st = .fault ∧ !on then s1
    else startCommand v on s1

def execValveOnEdge (v : Fin 4) (s : State) : Res := .next (valveEdge v.val true s)
def execValveOffEdge (v : Fin 4) (s : State) : Res := .next (valveEdge v.val false s)

/-- The duration of the word in progress; 0 is none (R409). -/
def wordTime (q : Valve) : Nat := fld (fget 0 q.ucode q.pc.toNat).toNat 0 12

/-- VALVE_WORD_TIMER (R409). -/
def valveTimer (v : Nat) (s : State) : State :=
  let q := s.valve v
  if (q.st = .peak ∨ q.st = .hold ∨ q.st = .pwm ∨ q.st = .off) ∧ wordTime q ≠ 0 then enterWord v (q.pc.toNat + 1) s
  else s

def execValveWordTimer (v : Fin 4) (s : State) : Res := .next (valveTimer v.val s)

/-- BOOST_CURRENT_REACHED (R409). -/
def boostReached (v : Nat) (s : State) : State :=
  let q := s.valve v
  if q.st = .boost then enterWord v (q.pc.toNat + 1) s else s

def execBoostCurrentReached (v : Fin 4) (s : State) : Res := .next (boostReached v.val s)

/-- BOOST_TIMEOUT (R409, R434). -/
def boostTimeout (v : Nat) (s : State) : State :=
  if (s.valve v).st = .boost then cairnEvent 0x7002 v [] (valveFault v s) else s

def execBoostTimeout (v : Fin 4) (s : State) : Res := .next (boostTimeout v.val s)

/-- DEFERRED_BOOST_START (R413): the other channel no longer blocks the boost. -/
def deferredStart (v : Nat) (s : State) : State :=
  if (s.valve v).st = .deferred ∧ !boostBlocked s v then valveStart v .boost true (endDefer v s) else s

def execDeferredBoostStart (v : Fin 4) (s : State) : Res := .next (deferredStart v.val s)

/-- R411, R414: the current a PEAK or HOLD word regulates at, in 4 mA units. -/
def target (q : Valve) : Nat :=
  let i := fld (fget 0 q.ucode q.pc.toNat).toNat 12 12
  let i := if q.st = .hold ∧ i = 0 then min 4095 (q.dest.toInt.toNat / 4) else i
  if q.reduced then min i q.iRed.toNat else i

/-- VALVE_SHUNT_SAMPLE (R411): samples come every 0.5 µs, and the low side keeps each state for at least two. -/
def shunt (v : Nat) (code : BitVec 12) (s : State) : State :=
  s.onValve v (fun q =>
    let q1 := { q with cur := code, steady := q.steady + 1 }
    if (q.st = .peak ∨ q.st = .hold) ∧ 2 ≤ q1.steady then
      if q.low ∧ target q + q.hyst.toNat ≤ code.toNat then { q1 with low := false, steady := 0 }
      else if !q.low ∧ target q ≠ 0 ∧ code.toNat + q.hyst.toNat ≤ target q then { q1 with low := true, steady := 0 }
      else q1
    else q1)

def execValveShuntSample (v : Fin 4) (code : BitVec 12) (s : State) : Res := .next (shunt v.val code s)

/-- R414: one step of the coil model over 1 ms; the current is in mA. With TAU = 0 the rule has no value: site 2. -/
def coilStep (q : Valve) (tamb tc : Rat) (irms : Nat) : Rat :=
  let r : Rat := (q.r21.toNat : Rat) / 1000 * (1 + 393 / 100000 * (tc - 20))
  let i : Rat := (irms : Rat) / 1000
  let aim := tamb + i * i * r * ((q.rth.toNat : Rat) / 100)
  if q.tau = 0 then (Config.openNat 2 irms : Rat)
  else tc + (aim - tc) * (1 / 1000) / ((q.tau.toNat : Rat) / 100)

/-- COIL_MODEL_UPDATE (R414). -/
def coilUpdate (v irms : Nat) (s : State) : State :=
  let q := s.valve v
  match q.tc with
  | none => s
  | some tc =>
    let t := coilStep q (ambient s q) tc irms
    let s1 := s.onValve v (fun q => { q with tc := some t })
    let s2 :=
      if 155 ≤ t ∧ !q.reduced then raise pgVlv 2 (cairnEvent 0x7003 v [] (s1.onValve v (fun q => { q with reduced := true })))
      else if t ≤ 145 ∧ q.reduced then cairnEvent 0x7003 v [] (s1.onValve v (fun q => { q with reduced := false }))
      else s1
    if 170 ≤ t ∧ !q.coilOt then
      errPerm pgVlv (raise pgVlv 2 (cairnEvent 0x7004 v []
        ((valveSafe v s2).onValve v (fun q => { q with coilOt := true }))))
    else s2

def execCoilModelUpdate (v : Fin 4) (irms : BitVec 16) (s : State) : Res := .next (coilUpdate v.val irms.toNat s)

/-- R430, R453: a channel takes its leak entry, where its lease is not held elsewhere. -/
def leakEntry (v : Nat) (s : State) : State :=
  let q := s.valve v
  if valveHeld s v then s
  else
    let s1 := cairnEvent 0x7005 v [] (s.onValve v (fun q => { q with leakTaken := true }))
    if q.leak = 0 ∨ q.coilOt ∨ q.st = .fault then s1
    else if q.leak = 1 then enterWord v q.offEntry.toNat (s1.onValve v (fun q => { q with prog := false }))
    else enterWord v q.onEntry.toNat (s1.onValve v (fun q => { q with prog := true }))

/-- R432, R456: the channel acts on its present command, where another program was started last. -/
def actOnCommand (v : Nat) (s : State) : State :=
  let q := s.valve v
  if valveHeld s v || q.coilOt || q.st = .fault || q.on = q.prog then s else startCommand v q.on s

/-- VALVE_CONFIG_WRITE (R415): VLV_CFG at 0x048 and the microcode from 0x100. -/
def valveConfig (v off : Nat) (w : Word) (s : State) : State :=
  let q := s.valve v
  let refused := decide (q.st ≠ .idle) || q.on || (off == 0x048 && fld w.toNat 16 2 == 3)
  if off = 0x048 then
    if refused then raise pgVlv 3 s
    else s.onValve v (fun q => { q with
      onEntry := w.extractLsb' 0 6, offEntry := w.extractLsb' 8 6, leak := w.extractLsb' 16 2
      leased := w.getLsbD 18, hyst := w.extractLsb' 24 8 })
  else if 0x100 ≤ off ∧ off < 0x200 then
    if refused then raise pgVlv 3 s
    else s.onValve v (fun q => { q with ucode := fput 0 ((off - 0x100) / 4) w q.ucode })
  else s

def execValveConfigWrite (v : Fin 4) (off : BitVec 12) (w : Word) (s : State) : Res :=
  .next (valveConfig v.val off.toNat w s)

/-- R412: what a high side drives: 0 off, 1 SUP, 2 BST. -/
def highSide (s : State) (h : Nat) : Nat :=
  let a := (s.valve (2 * h)).st
  let b := (s.valve (2 * h + 1)).st
  let sup := fun (x : ValveSt) => decide (x = .peak) || decide (x = .hold) || decide (x = .pwm)
  if a = .boost ∨ b = .boost then 2 else if sup a || sup b then 1 else 0

/-! ### Motor channels (R416–R423) -/

/-- R406: the safe state of a motor channel. -/
def motorSafe (m : Nat) (s : State) : State :=
  s.onMotor m (fun q => { q with st := .stopped, pause := false, thenMax := false, response := false })

/-- R407: a destination of a channel receives its safe value; a channel in MAX keeps MAX. -/
def motorDestSafe (m : Nat) (s : State) : State :=
  let s1 := s.onMotor m (fun q => { q with live := false })
  if (s.motor m).mode = 3 then s1 else motorSafe m s1

/-- R430, R453: LEAK_STOP sends the channel to its safe state, where its lease is not held elsewhere. -/
def leakStop (m : Nat) (s : State) : State :=
  if (s.motor m).leakStop ∧ !motorHeld s m then (motorSafe m s).onMotor m (fun q => { q with leakStopped := true }) else s

/-- A write of MODE waits for the next PWM period (R419). -/
def motorMode (m : Nat) (mode : BitVec 2) (s : State) : State :=
  s.onMotor m (fun q => { q with mode := mode, modeNew := true })

def execMotorModeOff (m : Fin 6) (s : State) : Res := .next (motorMode m.val 0 s)
def execMotorModeStart (m : Fin 6) (s : State) : Res := .next (motorMode m.val 1 s)
def execMotorModeLoop (m : Fin 6) (s : State) : Res := .next (motorMode m.val 2 s)
def execMotorModeMax (m : Fin 6) (s : State) : Res := .next (motorMode m.val 3 s)

/-- A channel stopped by LEAK_STOP accepts no start request while a LATCH is set (R431); one HELD does not act (R408). -/
def startBarred (s : State) (m : Nat) : Bool :=
  motorHeld s m || ((s.motor m).leakStopped && leakHold s (s.motor m).leased)

/-- R420: step 1 of a start. -/
def motorKick (m : Nat) (thenMax : Bool) (s : State) : State :=
  s.onMotor m (fun q => { q with
    st := .starting, tries := 0, pause := false, thenMax := thenMax, response := false, tachBroken := false })

/-- R419: the mode written takes effect. -/
def applyMode (m : Nat) (s0 : State) : State :=
  let q := s0.motor m
  let s := s0.onMotor m (fun q => { q with modeNew := false })
  if q.mode = 0 then motorSafe m s
  else if startBarred s m then s
  else if q.mode = 1 then motorKick m false s
  else if q.mode = 2 then
    if q.st = .blocked ∨ q.st = .driverFault then s
    else if q.st = .starting then s.onMotor m (fun q => { q with thenMax := false })
    else s.onMotor m (fun q => { q with st := .running })
  else if q.st = .running ∨ q.st = .max then s.onMotor m (fun q => { q with st := .max })
  else if q.st = .starting then s.onMotor m (fun q => { q with thenMax := true })
  else motorKick m true s

/-- R432, R453: a leak hold is over; the channels act on their current commands again. -/
def leakOver (valves motors : List Nat) (s : State) : State :=
  let s1 := forAll valves (fun v t => (actOnCommand v t).onValve v (fun q => { q with leakTaken := false })) s
  forAll motors (fun m t =>
    if (t.motor m).leakStopped then t.onMotor m (fun q => { q with leakStopped := false, modeNew := true }) else t) s1

/-- TACH: 0 after 500 ms without a pulse, or with no tachometer fitted (R418). -/
def tachOf (s : State) (m : Nat) : Nat :=
  let q := s.motor m
  match q.pulses with
  | t :: _ => if q.ppr = 0 ∨ t.toNat + second / 2 ≤ s.env.ts.toNat then 0 else q.tach.toNat
  | [] => 0

/-- Source 0x40 + n (R418). -/
def speedOf (s : State) (m : Nat) : Nat :=
  let q := s.motor m
  if q.ppr ≠ 0 ∧ !q.tachBroken then tachOf s m else q.est.toNat

def overCurrent (q : Motor) (i : BitVec 16) : Bool := decide (q.ilim.toNat < i.toInt.natAbs)

/-- MOTOR_PWM_PERIOD (R417–R419). -/
def pwmPeriod (m : Nat) (ia ib ic id iq est angle : BitVec 16) (s : State) : State :=
  let s1 := if (s.motor m).modeNew then applyMode m s else s
  let q := s1.motor m
  let hit := overCurrent q ia || overCurrent q ib || overCurrent q ic
  let s2 := s1.onMotor m (fun q => { q with
    id := id, iq := iq, est := est, angle := angle, cut := hit, ilimF := q.ilimF || hit })
  when hit (fun t => cairnEvent 0x7105 m [] (errTrans pgMtr t)) s2

def execMotorPwmPeriod (m : Fin 6) (ia ib ic id iq est angle : BitVec 16) (s : State) : Res :=
  .next (pwmPeriod m.val ia ib ic id iq est angle s)

/-- START_RESPONSE (R420, steps 2 and 3). -/
def startResponse (m : Nat) (byEst : Bool) (s : State) : State :=
  let q := s.motor m
  let ok := if byEst then decide (tachOf s m = 0) && decide (q.rated.toNat ≤ 10 * q.est.toNat)
    else decide (q.rated.toNat ≤ 20 * tachOf s m)
  if q.st = .starting ∧ !q.pause ∧ ok then
    let s1 := s.onMotor m (fun q => { q with
      st := if q.thenMax then .max else .running, mode := if q.thenMax then 3 else 2
      modeNew := false, response := true, tries := 0 })
    if byEst ∧ q.ppr ≠ 0 then
      raise pgMtr 1 (cairnEvent 0x7103 m [] (s1.onMotor m (fun q => { q with tachBroken := true })))
    else s1
  else s

def execStartResponse (m : Fin 6) (byEst : Bool) (s : State) : Res := .next (startResponse m.val byEst s)

/-- START_ATTEMPT_TIMEOUT (R420). -/
def startTimeout (m : Nat) (s : State) : State :=
  let q := s.motor m
  if q.st = .starting ∧ !q.pause then
    let s1 := cairnEvent 0x7101 m [] s
    if q.tries = 3 then
      errPerm pgMtr (raise pgMtr 0 (cairnEvent 0x7102 m [] ((motorSafe m s1).onMotor m (fun q => { q with
        st := .blocked, blockedF := true }))))
    else s1.onMotor m (fun q => { q with tries := q.tries + 1, pause := true })
  else s

def execStartAttemptTimeout (m : Fin 6) (s : State) : Res := .next (startTimeout m.val s)

/-- START_RETRY (R420): the gates have been off for 1 s. -/
def startRetry (m : Nat) (s : State) : State :=
  if (s.motor m).st = .starting ∧ (s.motor m).pause then s.onMotor m (fun q => { q with pause := false }) else s

def execStartRetry (m : Fin 6) (s : State) : Res := .next (startRetry m.val s)

/-- MOTOR_DRIVER_FAULT (R417). -/
def driverFault (m : Nat) (s : State) : State :=
  errPerm pgMtr (raise pgMtr 3 (cairnEvent 0x7105 m [] ((motorSafe m s).onMotor m (fun q => { q with
    st := .driverFault, drvFlt := true }))))

def execMotorDriverFault (m : Fin 6) (s : State) : Res := .next (driverFault m.val s)

/-- TACH_BROKEN (R421). -/
def tachBreak (m : Nat) (s : State) : State :=
  let q := s.motor m
  let gap := (tachOf s m - q.est.toNat) + (q.est.toNat - tachOf s m)
  if !q.tachBroken ∧ q.rated.toNat ≤ 5 * q.est.toNat ∧ q.est.toNat < 4 * gap then
    raise pgMtr 1 (cairnEvent 0x7103 m [] (s.onMotor m (fun q => { q with tachBroken := true })))
  else s

def execTachBroken (m : Fin 6) (s : State) : Res := .next (tachBreak m.val s)

/-- R422: RATIO; a quotient beyond its 12 bits is site 3. -/
def ageRatio (meanIq base : Nat) : Nat :=
  let r := (openRound 4 ((256 * meanIq : Nat) / (base : Rat))).toNat
  if r < 4096 then r else Config.openNat 3 meanIq % 4096

/-- AGE_MEASUREMENT (R422). -/
def ageMeasure (m meanIq : Nat) (s : State) : State :=
  let q := s.motor m
  let due : Bool := match q.lastAge with
    | none => true
    | some t => decide (t.toNat + 3600 * second ≤ s.env.ts.toNat)
  let v := speedOf s m
  let near := decide (50 * ((v - q.ref.toNat) + (q.ref.toNat - v)) ≤ q.ref.toNat)
  if q.mode = 2 ∧ q.st = .running ∧ q.base ≠ 0 ∧ due ∧ near then
    let r := ageRatio meanIq q.base.toNat
    let s1 := s.onMotor m (fun q => { q with ratio := BitVec.ofNat 12 r, lastAge := some s.env.ts })
    if 320 < r then
      raise pgMtr 2 (cairnEvent 0x7104 r (leBytes 4 m) (s1.onMotor m (fun q => { q with ageWarn := true })))
    else s1
  else s

def execAgeMeasurement (m : Fin 6) (meanIq : BitVec 16) (s : State) : Res := .next (ageMeasure m.val meanIq.toNat s)

/-! ### The acoustic ceiling (R425) -/

def acapOf (s : State) : Nat := (s.drv.acap.getD (BitVec.ofNat 12 s.env.variant.peak)).toNat
def acStep (s : State) : Nat := (s.drv.step.getD (BitVec.ofNat 12 (s.env.variant.rated * 2 / 100))).toNat
def acMin (s : State) : Nat := (s.drv.acMin.getD (BitVec.ofNat 12 (s.env.variant.rated * 20 / 100))).toNat

/-- ACOUSTIC_CAP_UPDATE: one step of acap, and a new window of 100 ms. -/
def acousticUpdate (s : State) : State :=
  if s.cairn.policy.row then s
  else
    let d := s.drv
    let a := acapOf s
    let b := if d.windowSeen && d.hot then max (acMin s) (a - acStep s)
      else if d.windowSeen && d.cool then min s.env.variant.peak (a + acStep s) else a
    let s1 := s.onDrv (fun d => { d with hot := true, cool := true, windowSeen := false })
    if b = a then s1
    else raise pgMtr 4 (cairnEvent 0x7106 d.tslot.toNat []
      (s1.onDrv (fun d => { d with acap := some (BitVec.ofNat 12 b) })))

def execAcousticCapUpdate (s : State) : Res := .next (acousticUpdate s)

end Sys2Proof.Machine
end

