-- ==== Sys2Proof/Machine/Belay.lean ====
section
/-! DEFINITION. The belay engine: the loop equation, latches and outputs, following errors, injection and capture,
and slot writes (R379–R402). -/

namespace Sys2Proof.Machine

def State.onLoop (f : LoopBlk → LoopBlk) (s : State) : State := { s with loop := f s.loop }
def State.slot (s : State) (i : Nat) : Slot := fget {} s.loop.slots i
def State.onSlot (i : Nat) (f : Slot → Slot) (s : State) : State :=
  s.onLoop (fun l => { l with slots := fput {} i (f (fget {} l.slots i)) l.slots })

/-! ### Numbers (R383, R384) -/

/-- A division by a power of two, to nearest with ties to even. -/
def rneShift (m : Int) (n : Nat) : Int :=
  let q := m / 2 ^ n
  let r := m % 2 ^ n
  if n = 0 then m
  else if 2 * r < 2 ^ n then q
  else if 2 ^ n < 2 * r then q + 1
  else if q % 2 = 0 then q else q + 1

/-- A mantissa aligned from one exponent to another. -/
def align (m e f : Int) : Int := if f ≤ e then m * 2 ^ (e - f).toNat else rneShift m (f - e).toNat

/-- A result limited to 24 bits, and whether it was. -/
def limit24 (m : Int) : BitVec 24 × Bool :=
  if m < -8388608 then (0x800000, true)
  else if 8388607 < m then (0x7FFFFF, true)
  else (BitVec.ofInt 24 m, false)

/-- Whether RUN's PCOUNT (R379): base periods of 50 µs, 5,000 ticks. -/
def pcountOf (s : State) : Word :=
  if s.loop.running then BitVec.ofNat 32 ((s.env.ts - s.loop.runTs).toNat / 5000) else s.loop.pcount

/-! ### Sources and destinations (R385, R386, R407) -/

/-- ΔP is assigned and its input usable (R382). -/
def dpUsable (s : State) : Bool :=
  match s.cairn.plant.dp with
  | some k => !(s.input k.val).fault && !(fget {} s.cool.marks k.val).suspect && !(fget {} s.cool.marks k.val).fault
  | none => false

/-- A source's mantissa and exponent; `none` is a reserved code. -/
def sourceOf (s : State) (code : Nat) : Option (Int × Int) :=
  if code < 0x10 then some ((s.input code).raw.toNat, 0)
  else if code < 0x14 then some ((s.input code).value.toInt, 0)
  else if code < 0x1C then some ((s.input (code - 0x14 + 32)).value.toInt, -4)
  else if 0x20 ≤ code ∧ code < 0x40 then some ((s.slot (code - 0x20)).out.toInt, (s.slot (code - 0x20)).eout.toInt)
  else if 0x40 ≤ code ∧ code < 0x46 then some (speedOf s (code - 0x40), 0)
  else if 0x48 ≤ code ∧ code < 0x4E then some ((s.motor (code - 0x48)).id.toInt, 0)
  else if 0x50 ≤ code ∧ code < 0x56 then some ((s.motor (code - 0x50)).iq.toInt, 0)
  else if code = 0x60 then some (s.cool.tin, -4)
  else if code = 0x61 then some (s.cool.tout, -4)
  else if code = 0x62 then some (s.cool.qeff, 0)
  else if code = 0x63 then some (if dpUsable s then s.cool.dp else 0, 0)
  else none

/-- R385: a code that YSRC may hold; RSRC may hold 0xFF as well. -/
def ysrcOk (code : Nat) : Bool :=
  decide (code < 0x1C) || (decide (0x20 ≤ code) && decide (code < 0x46)) || (decide (0x48 ≤ code) && decide (code < 0x4E))
    || (decide (0x50 ≤ code) && decide (code < 0x56)) || (decide (0x60 ≤ code) && decide (code < 0x64))

def rsrcOk (code : Nat) : Bool := ysrcOk code || code == 0xFF

/-- R386: a code that DST may hold. -/
def dstOk (code : Nat) : Bool :=
  code == 0 || (decide (0x40 ≤ code) && decide (code < 0x46)) || (decide (0x48 ≤ code) && decide (code < 0x4E))
    || (decide (0x60 ≤ code) && decide (code < 0x64))

/-- R386: the output reaches its destination. -/
def driveDest (dst : Nat) (v : BitVec 24) (s : State) : State :=
  if 0x40 ≤ dst ∧ dst < 0x46 then s.onMotor (dst - 0x40) (fun q => { q with dDest := v, live := true })
  else if 0x48 ≤ dst ∧ dst < 0x4E then s.onMotor (dst - 0x48) (fun q => { q with qDest := v, live := true })
  else if 0x60 ≤ dst ∧ dst < 0x64 then s.onValve (dst - 0x60) (fun q => { q with dest := v })
  else s

def destExp (dst : Nat) : Int := if 0x40 ≤ dst ∧ dst < 0x4E then -23 else 0

/-- R389, R407: a destination receives its safe value. -/
def safeDest (dst : Nat) (s : State) : State :=
  if 0x40 ≤ dst ∧ dst < 0x46 then motorDestSafe (dst - 0x40) s
  else if 0x48 ≤ dst ∧ dst < 0x4E then motorDestSafe (dst - 0x48) s
  else if 0x60 ≤ dst ∧ dst < 0x64 then s.onValve (dst - 0x60) (fun q => { q with dest := 0 })
  else s

/-! ### Injection (R392–R394) -/

/-- R394: the injection ends; an early end sets ABORTED. The coding of the abort cause is not stated: site 5. -/
def endInjection (cause : Nat) (s : State) : State :=
  if s.loop.go || s.loop.injActive then
    raise pgLoop 2 (cairnEvent 0x6005 (if cause = 0 then 0 else Config.openNat 5 cause)
      (leBytes 4 s.loop.injSlot.toNat) (s.onLoop (fun l => { l with
        go := false, injActive := false, aborted := cause != 0 })))
  else s

/-- The bound slot's injection ends early, where the slot is this one. -/
def endBound (i cause : Nat) (s : State) : State := if s.loop.injSlot.toNat = i then endInjection cause s else s

/-- 2^96 × sin(2π φ / 2^32), by its series on a rational π of 128 bits. -/
def sinFix (phi : Nat) : Int :=
  let p : Int := 267257146016241686964920093290467695825   -- ⌊π × 2^126⌋
  let phi' : Int := if 2 ^ 31 ≤ phi then (phi : Int) - 2 ^ 32 else phi
  let x : Int := phi' * p * 2 / 2 ^ 62
  let x2 := x * x / 2 ^ 96
  ((List.range 30).foldl (fun (st : Int × Int) (k : Nat) =>
    let t := -(st.2 * x2 / 2 ^ 96) / ((2 * (k : Int) + 2) * (2 * (k : Int) + 3))
    (st.1 + t, t)) (x, x)).1

/-- R393: the swept sine's value, within 2^−20 × |A| and the rounding of the mantissa: the table's own choice where it
lies in that bound. -/
def sineValue (a : Int) (phi : Nat) : Int :=
  let v := a * sinFix phi
  let near := rneShift v 96
  let pick := Config.sinePick a.natAbs phi
  if ((pick * 2 ^ 96 - v).natAbs : Int) ≤ a.natAbs * 2 ^ 76 + 2 ^ 95 then pick else near

/-- R393: the value injected in period `n` and the generator's next state. -/
def injectValue (l : LoopBlk) : Int × LoopBlk :=
  let a := l.amp.toInt
  let n := l.injDone
  if l.wave = 0 then (a, l)
  else if l.wave = 1 then
    let v := if l.lfsr.getLsbD 14 then a else -a
    let next := (l.lfsr <<< 1) ||| (BitVec.ofBool (l.lfsr.getLsbD 14 != l.lfsr.getLsbD 13)).setWidth 15
    (v, if (n + 1) % (l.holdp.toNat + 1) = 0 then { l with lfsr := next } else l)
  else
    let inc : Int := l.f0.toNat + ((l.f1.toNat : Int) - l.f0.toNat) * n / (max 1 l.len.toNat)
    (sineValue a l.phi.toNat, { l with phi := l.phi + BitVec.ofInt 32 inc })

/-! ### One computing period (R387, R391, R399, R400) -/

/-- What a computing latch leaves: the slot, its output before limits, and which stages were limited. -/
structure Period where
  slot : Slot
  out : SlotOut
  sig : Bool
  term : Bool
  outS : Bool
  stop : Bool
  err : Int

/-- R387: the loop equation on the latched y and r, with the injected values. `release` is a bumpless release of a
hold (R400). -/
def compute (q : Slot) (y r : Int) (injOut : Int) (sig0 release : Bool) : Period :=
  let es := q.esig.toInt
  let ec := q.ecoef.toInt
  let et := q.eterm.toInt
  let eo := q.eout.toInt
  let mul := fun (k x : Int) (ek : Int) => limit24 (align (k * x) (ek + es) et)
  let e := limit24 (r - y)
  let p := mul q.kp.toInt e.1.toInt ec
  let di := mul q.ki.toInt e.1.toInt ec
  let stop := (q.clampHi && decide (0 < di.1.toInt)) || (q.clampLo && decide (di.1.toInt < 0))
  let dy := limit24 (q.yPrev.toInt - y)
  let kd := limit24 (align (q.kd.toInt * dy.1.toInt) (ec + es) et)
  let ka := limit24 (align (q.ka.toInt * q.d.toInt) (-23 + et) et)
  let d := limit24 (ka.1.toInt + kd.1.toInt)
  let f := mul q.kff.toInt r ec
  let i := if release then limit24 (align q.out.toInt eo et - p.1.toInt - d.1.toInt - f.1.toInt)
    else if stop then (q.int, false) else limit24 (q.int.toInt + di.1.toInt)
  let v := limit24 (p.1.toInt + i.1.toInt + d.1.toInt + f.1.toInt)
  let al := limit24 (align v.1.toInt et eo)
  let u0 := limit24 (al.1.toInt + injOut)
  let hi := decide (q.umax.toInt < u0.1.toInt)
  let lo := decide (u0.1.toInt < q.umin.toInt)
  let u := if hi then q.umax else if lo then q.umin else u0.1
  let sig := sig0 || e.2 || dy.2
  let term := p.2 || di.2 || kd.2 || ka.2 || d.2 || f.2 || i.2 || v.2
  let outS := al.2 || u0.2
  { slot := { q with int := i.1, d := d.1, yPrev := BitVec.ofInt 24 y, clampHi := hi, clampLo := lo }
    out := { u := u, y := BitVec.ofInt 24 y
             flags := BitVec.ofNat 4 (hi.toNat + 2 * lo.toNat + 4 * (stop && !release).toNat
               + 8 * (sig || term || outS).toNat) }
    sig := sig, term := term, outS := outS, stop := stop && !release, err := e.1.toInt }

/-- R391: FE_COUNT of a computing period. -/
def feNext (q : Slot) (err : Int) : BitVec 16 :=
  if q.feLim.toNat < err.natAbs then (if q.feCount = 0xFFFF then q.feCount else q.feCount + 1) else 0

/-- R403: a saturation: the first sets its flag, writes a record and raises SAT; later ones are counted. -/
def noteSat (i : Nat) (first : Bool) (f : Slot → Slot) (s : State) : State :=
  let s1 := errTrans pgLoop (s.onSlot i f)
  if first then raise pgLoop 1 (cairnEvent 0x6002 i [] s1) else cairnCount 0x6002 i s1

def noteStop (i : Nat) (s : State) : State :=
  let first := !(s.slot i).intStop
  let s1 := s.onSlot i (fun q => { q with intStop := true })
  if first then cairnEvent 0x6003 i [] s1 else cairnCount 0x6003 i s1

/-- The sticky flags of a computing period (R387, R384). -/
def noteFlags (i : Nat) (p : Period) (s : State) : State :=
  let q := s.slot i
  let s1 := s.onSlot i (fun q => { q with oclamp := q.oclamp || p.slot.clampHi || p.slot.clampLo })
  let s2 := when p.sig (noteSat i (!q.satSig) (fun q => { q with satSig := true })) s1
  let s3 := when p.term (noteSat i (!q.satTerm) (fun q => { q with satTerm := true })) s2
  let s4 := when p.outS (noteSat i (!q.satOut) (fun q => { q with satOut := true })) s3
  when p.stop (noteStop i) s4

/-- R395: whether the computing period writes a capture entry, and the count of periods to the next. -/
def captureTurn (i : Nat) (l : LoopBlk) : Bool × LoopBlk :=
  if l.captActive ∧ l.injSlot.toNat = i then
    if l.captSkip = 0 then (true, { l with captSkip := l.decim.toNat }) else (false, { l with captSkip := l.captSkip - 1 })
  else (false, l)

/-- R395: an entry is written; the last one sets DONE. -/
def capturePut (e : CaptEnt) (s : State) : State :=
  if s.loop.captActive ∧ s.loop.capt.length < 16384 then
    let s1 := s.onLoop (fun l => { l with capt := l.capt ++ [e] })
    if s1.loop.capt.length = 16384 then
      raise pgLoop 3 (cairnEvent 0x6006 s.loop.injSlot.toNat []
        (s1.onLoop (fun l => { l with captDone := true, captActive := false })))
    else s1
  else s

/-- R400, R511: ledger coefficients are written once the slot holds. -/
def slotField (q : Slot) (off : Nat) (v : Word) : Slot :=
  let m := v.setWidth 24
  if off = 0x10 then { q with kp := m } else if off = 0x14 then { q with ki := m }
  else if off = 0x18 then { q with kd := m } else if off = 0x1C then { q with ka := m }
  else if off = 0x20 then { q with kff := m } else if off = 0x24 then { q with setpt := m }
  else if off = 0x28 then { q with umin := m } else if off = 0x2C then { q with umax := m }
  else if off = 0x30 then { q with feLim := v.setWidth 23 } else if off = 0x38 then { q with int := m }
  else if off = 0x0C then
    { q with esig := v.extractLsb' 0 8, ecoef := v.extractLsb' 8 8, eterm := v.extractLsb' 16 8, eout := v.extractLsb' 24 8 }
  else q

def applyHeld (i : Nat) (s : State) : State :=
  let mine := s.loop.held.filter (fun e => e.1 == i)
  if mine = [] then s
  else
    let q := mine.foldl (fun (q : Slot) (e : Nat × BitVec 6 × Word) => slotField q e.2.1.toNat e.2.2) (s.slot i)
    (s.onLoop (fun l => { l with held := l.held.filter (fun e => e.1 != i) })).onSlot i (fun _ => { q with hold := false })

/-- A disabled slot stops: its destination receives its safe value (R389). -/
def slotStop (i : Nat) (s : State) : State :=
  let q := s.slot i
  let s1 := endBound i 3 (s.onSlot i (fun q => { q with active := false, pend := none, holding := false }))
  if q.active then safeDest q.dst.toNat s1 else s1

/-- The slot's next period as the latch leaves it, without the engine's bookkeeping. -/
def slotCompute (i : Nat) (s : State) : State :=
  let q0 := s.slot i
  let src := fun (c : Nat) => (sourceOf s c).getD (0, 0)
  let ys := limit24 (align (src q0.ysrc.toNat).1 (src q0.ysrc.toNat).2 q0.esig.toInt)
  let rs := if q0.rsrc = 0xFF then (q0.setpt, false)
    else limit24 (align (src q0.rsrc.toNat).1 (src q0.rsrc.toNat).2 q0.esig.toInt)
  let q := if q0.active then q0 else { q0 with active := true, d := 0, yPrev := ys.1 }
  let (take, l1) := captureTurn i s.loop
  if q.hold then
    let e := limit24 (rs.1.toInt - ys.1.toInt)
    let q1 := { q with
      holding := true, yPrev := ys.1, feCount := feNext q e.1.toInt
      pend := some { u := q.out, y := ys.1, capture := take, drive := false } }
    when (ys.2 || rs.2 || e.2) (noteSat i (!q.satSig) (fun q => { q with satSig := true }))
      (applyHeld i ((s.onLoop (fun _ => l1)).onSlot i (fun _ => q1)))
  else
    let inj := l1.go && l1.injSlot.toNat == i && decide (l1.injDone < l1.len.toNat)
    let (val, l2) := if inj then injectValue l1 else (0, l1)
    let start := inj && !l2.injActive
    let take := take || start
    let l3 := if inj then { l2 with
      injActive := true, injDone := l2.injDone + 1, captActive := l2.captActive || start
      captSkip := if start then l2.decim.toNat else l2.captSkip } else l2
    let r := limit24 (rs.1.toInt + (if inj && !l2.injAt then val else 0))
    let rel := q.holding && q.bumpless
    let p := compute q ys.1.toInt r.1.toInt (if inj && l2.injAt then val else 0) (ys.2 || rs.2 || r.2) rel
    let q1 := { p.slot with
      holding := false, feCount := feNext q p.err
      pend := some { p.out with inj := BitVec.ofInt 24 val, capture := take } }
    let s1 := noteFlags i p ((s.onLoop (fun _ => l3)).onSlot i (fun _ => q1))
    let s2 := if s.drv.tslot.toNat = i then s1.onDrv (fun d => { d with
      windowSeen := true, hot := d.hot && p.slot.clampHi
      cool := d.cool && !p.slot.clampHi && decide (10 * p.out.u.toInt < 9 * (d.ceil.toNat : Int)) }) else s1
    if l3.go && l3.injSlot.toNat == i && decide (l3.len.toNat ≤ l3.injDone) then endInjection 0 s2 else s2

/-- SLOT_LATCH (R380, R387–R400). -/
def slotLatch (i : Nat) (s : State) : State :=
  if !s.loop.running then s
  else if (s.slot i).en then slotCompute i s
  else
    let (take, l1) := captureTurn i s.loop
    let q := s.slot i
    let s1 := slotStop i (s.onLoop (fun _ => l1))
    if take then capturePut { y := q.yPrev, u := q.out, pcount := (pcountOf s).setWidth 24 } s1 else s1

def execSlotLatch (i : SlotId) (s : State) : Res := .next (slotLatch i.val s)

/-- SLOT_OUTPUT_WRITE (R380, step 2). -/
def slotWrite (i : Nat) (s : State) : State :=
  let q := s.slot i
  match q.pend with
  | none => s
  | some o =>
    let s1 := s.onSlot i (fun q => { q with out := o.u, pend := none })
    let dv := limit24 (align o.u.toInt q.eout.toInt (destExp q.dst.toNat))
    let s2 := if o.drive then
        when (dv.2 && q.dst != 0) (noteSat i (!q.satOut) (fun q => { q with satOut := true }))
          (driveDest q.dst.toNat dv.1 s1)
      else s1
    if o.capture then
      capturePut { inj := o.inj, flags := o.flags, y := o.y, u := o.u, pcount := (pcountOf s).setWidth 24 } s2
    else s2

def execSlotOutputWrite (i : SlotId) (s : State) : Res := .next (slotWrite i.val s)

/-- FOLLOWING_ERROR_TRIP (R391, R402, R403). -/
def feTrip (i : Nat) (s : State) : State :=
  let q := s.slot i
  if q.en ∧ q.feTime ≠ 0 ∧ q.feCount = q.feTime then
    let s1 := endBound i 1 (raise pgLoop 0 (cairnEvent 0x6001 q.feAct.toNat (leBytes 4 i)
      (s.onSlot i (fun q => { q with feTrip := true }))))
    if q.feAct = 1 then s1.onSlot i (fun q => { q with hold := true })
    else if q.feAct = 2 then errPerm pgLoop (s1.onSlot i (fun q => { q with en := false }))
    else s1
  else s

def execFollowingErrorTrip (i : SlotId) (s : State) : Res := .next (feTrip i.val s)

/-- LOOP_RUN (R379, R389, R402): clearing RUN stops every slot and leaves their EN bits; capture stops with DONE clear. -/
def loopRun (on : Bool) (s : State) : State :=
  if on = s.loop.run then s
  else if on then
    cairnEvent 0x6008 1 [] (s.onLoop (fun l => { l with run := true, running := true, runTs := s.env.ts }))
  else
    let n := pcountOf s
    let s1 := forAll (s.loop.slots.map (·.1)) (fun i t => slotStop i t) s
    cairnEvent 0x6008 0 [] ((endInjection 3 s1).onLoop (fun l => { l with
      run := false, running := false, pcount := n, captActive := false }))

def execLoopRun (on : Bool) (s : State) : Res := .next (loopRun on s)

/-! ### Slot writes (R381, R388, R396–R401) -/

/-- R398: a refused write. -/
def refuseSlot (slot : Nat) (page : Bool) (reg reason : Nat) (s : State) : State :=
  raise pgLoop 4 (cairnEvent 0x6007 reason (leBytes 4 slot) (s.onLoop (fun l => { l with
    refuse := ⟨BitVec.ofNat 5 slot, page, BitVec.ofNat 6 reg, BitVec.ofNat 3 reason⟩ })))

/-- Another enabled slot has the value. -/
def sharedSlot (s : State) (i : Nat) (f : Slot → Bool) : Bool := s.loop.slots.any (fun e => e.1 != i && e.2.en && f e.2)

/-- R381: why a slot with these fields may not be enabled; 0 is no reason. -/
def enableRefusal (s : State) (i : Nat) (q : Slot) : Nat :=
  if q.phase.toNat < 64 ∨ 9999 < q.phase.toNat then 1
  else if sharedSlot s i (fun o => o.phase == q.phase) then 1
  else if q.dst ≠ 0 ∧ sharedSlot s i (fun o => o.dst == q.dst) then 2
  else 0

/-- The slot with a register written whole; registers that are not written stay. -/
def slotWith (q : Slot) (off : Nat) (v : Word) : Slot :=
  if off = 0x00 then { q with
    en := v.getLsbD 0, hold := v.getLsbD 1, bumpless := v.getLsbD 2, div := v.extractLsb' 8 8, feAct := v.extractLsb' 16 2 }
  else if off = 0x04 then { q with phase := v.extractLsb' 0 14, feTime := v.extractLsb' 16 16 }
  else if off = 0x08 then { q with ysrc := v.extractLsb' 0 8, rsrc := v.extractLsb' 8 8, dst := v.extractLsb' 16 8 }
  else if off = 0x3C then { q with
    satSig := q.satSig && !v.getLsbD 0, satTerm := q.satTerm && !v.getLsbD 1, satOut := q.satOut && !v.getLsbD 2
    oclamp := q.oclamp && !v.getLsbD 3, intStop := q.intStop && !v.getLsbD 4, feTrip := q.feTrip && !v.getLsbD 5 }
  else slotField q off v

/-- R381, R388, R397, R398: the reason a slot write is refused; 0 is none. -/
def slotRefusal (s : State) (i off : Nat) (v : Word) : Nat :=
  let q := s.slot i
  let n := slotWith q off v
  let live := q.en && !q.holding
  if off = 0x00 then
    if n.feAct = 3 then 5
    else if live && n.div != q.div then 3
    else if n.en then enableRefusal s i n else 0
  else if off = 0x04 then
    if n.phase ≠ 0 ∧ (n.phase.toNat < 64 ∨ 9999 < n.phase.toNat) then 1
    else if live && n.phase != q.phase then 3
    else if n.en then enableRefusal s i n else 0
  else if off = 0x08 then
    if !ysrcOk n.ysrc.toNat || !rsrcOk n.rsrc.toNat || !dstOk n.dst.toNat then 5
    else if live then 3
    else if n.en then enableRefusal s i n else 0
  else if off = 0x0C ∨ off = 0x38 then if live then 3 else 0
  else if off = 0x1C then if v.getLsbD 23 then 5 else 0
  else if off = 0x28 ∨ off = 0x2C then if n.umax.toInt < n.umin.toInt then 4 else 0
  else 0

/-- A write of a slot's register by Cairn: refused whole, or taken. A set HOLD or a cleared EN ends a bound injection
at once (R394). -/
def slotRegWrite (i off : Nat) (v : Word) (s : State) : State :=
  if off % 4 ≠ 0 then s
  else
    let r := slotRefusal s i off v
    if r ≠ 0 then refuseSlot i false (off / 4) r s
    else
      let q := s.slot i
      let n := slotWith q off v
      let s1 := s.onSlot i (fun _ => n)
      if (n.hold && !q.hold) then endBound i 2 s1
      else if q.en && !n.en then endBound i 3 s1
      else s1

def execLoopSlotRegisterWrite (i : SlotId) (off : BitVec 6) (v : Word) (s : State) : Res :=
  .next (slotRegWrite i.val off.toNat v s)

/-- LOOP_CFG as the register reads. -/
def cfgWord (q : Slot) : Word :=
  BitVec.ofNat 32 (q.en.toNat + 2 * q.hold.toNat + 4 * q.bumpless.toNat + 256 * q.div.toNat + 65536 * q.feAct.toNat)

/-- LOOP_SLOT_ENABLE (R381, R389): the write of EN alone. -/
def slotEnable (i : Nat) (on : Bool) (s : State) : State :=
  slotRegWrite i 0 (cfgWord { s.slot i with en := on }) s

def execLoopSlotEnable (i : SlotId) (on : Bool) (s : State) : Res := .next (slotEnable i.val on s)

/-- HOLD_SET and HOLD_CLEAR (R399, R400): the write of HOLD alone. -/
def slotHold (i : Nat) (on : Bool) (s : State) : State :=
  slotRegWrite i 0 (cfgWord { s.slot i with hold := on }) s

def execHoldSet (i : SlotId) (s : State) : Res := .next (slotHold i.val true s)
def execHoldClear (i : SlotId) (s : State) : Res := .next (slotHold i.val false s)

/-! ### GO (R392) -/

/-- The fields of LOOP_INJ_CTL that Cairn writes. -/
def injFields (v : Word) (l : LoopBlk) : LoopBlk :=
  { l with
    injSlot := v.extractLsb' 0 5, injAt := v.getLsbD 5, wave := v.extractLsb' 6 2, holdp := v.extractLsb' 16 8 }

/-- R392: GO is refused. -/
def goRefused (s : State) (v : Word) : Bool :=
  let q := s.slot (v.extractLsb' 0 5).toNat
  s.loop.injAuth.isNone || !q.en || q.hold || q.holding ||
    s.drv.ropes.any (fun e => e.2.en && decide (e.2.band = .leak)) ||
    decide (s.cool.st = .stopped) || decide (s.cool.st = .shutdown)

/-- A write of LOOP_INJ_CTL (R392, R398, R403). -/
def injectGo (v : Word) (s : State) : State :=
  if v.extractLsb' 6 2 = (3 : BitVec 2) then refuseSlot 0 true 0x11 5 s
  else if !v.getLsbD 8 then s.onLoop (injFields v)
  else if goRefused s v then refuseSlot 0 true 0x11 6 s
  else
    let who := (s.loop.injAuth.map (·.val)).getD 0
    cairnEvent 0x6004 (v.extractLsb' 6 2).toNat (leBytes 4 who)
      (s.onLoop (fun l => { injFields v l with
        go := true, aborted := false, injAuth := none, injActive := false, injDone := 0, lfsr := 0x7FFF, phi := 0
        captDone := false, captActive := false, captSkip := 0, capt := [] }))

def execInjectGo (v : Word) (s : State) : Res := .next (injectGo v s)

end Sys2Proof.Machine
end

