-- ==== Sys2Proof/Machine/Cbus.lean ====
section
/-! DEFINITION. The coolant bus: receive objects, transmit queues, fault confinement, bus-local time and the Traverse
messages (R436–R453). -/

namespace Sys2Proof.Machine

def State.onCbus (f : CbusBlk → CbusBlk) (s : State) : State := { s with cbus := f s.cbus }
def State.can (s : State) (i : Nat) : CanIf := fget {} s.cbus.ifs i
def State.onCan (i : Nat) (f : CanIf → CanIf) (s : State) : State :=
  s.onCbus (fun c => { c with ifs := fput {} i (f (fget {} c.ifs i)) c.ifs })
def State.onObj (i k : Nat) (f : RxObj → RxObj) (s : State) : State :=
  s.onCan i (fun c => { c with objs := fput {} k (f (fget {} c.objs k)) c.objs })
def State.onGroup (g : Nat) (f : Group → Group) (s : State) : State :=
  s.onCbus (fun c => { c with groups := fput {} g (f (fget {} c.groups g)) c.groups })

/-- The interfaces the variant ships (R2). -/
def canIfs (s : State) : List Nat := List.range s.env.variant.cbus

def ms (n : Nat) : Nat := n * 100000

/-- A moment is at least `n` ms past; `none` is long past. -/
def agedMs (s : State) (n : Nat) : Option DWord → Bool
  | none => true
  | some t => decide (t.toNat + ms n ≤ s.env.ts.toNat)

/-- The interface takes part on the bus. -/
def onBus (c : CanIf) : Bool := !c.init && (decide (c.st = .active) || decide (c.st = .passive))

/-! ### Transmission (R443, R448–R450) -/

/-- A Traverse identifier (R448). -/
def traverseId (s : State) (mid : Nat) : BitVec 29 := BitVec.ofNat 29 (mid * 2 ^ 18 + s.cbus.addr.toNat)

/-- The header of R449 with the next sequence number. -/
def traverseHead (s : State) : List Byte := leBytes 2 s.cbus.seq.toNat ++ [s.cbus.boot, 1]

/-- A queued frame is discarded and counted (R443, R444). -/
def countDrop (i n : Nat) (s : State) : State :=
  forAll (List.range n) (fun _ t => cairnEvent 0x8006 i [] t)
    (s.onCan i (fun c => { c with txDrop := satAdd c.txDrop n }))

/-- The frame with the highest identifier of a queue. -/
def highest : List TxFrame → Option TxFrame
  | [] => none
  | f :: fs =>
    match highest fs with
    | none => some f
    | some g => if g.id.toNat ≤ f.id.toNat then some f else some g

/-- The frame sent first: the lowest identifier, the earliest queued among equals. -/
def lowest : List TxFrame → Option TxFrame
  | [] => none
  | f :: fs =>
    match lowest fs with
    | none => some f
    | some g => if f.id.toNat ≤ g.id.toNat then some f else some g

/-- R443: a frame is queued; on a full queue it is discarded, but a LEAK replaces the highest identifier. -/
def queueFrame (i : Nat) (f : TxFrame) (isLeak : Bool) (s : State) : State :=
  let q := (s.can i).queue
  if q.length < 16 then s.onCan i (fun c => { c with queue := q ++ [f] })
  else
    match isLeak, highest q with
    | true, some g => countDrop i 1 (s.onCan i (fun c => { c with queue := q.erase g ++ [f] }))
    | _, _ => countDrop i 1 s

/-- R450: a message is queued on every interface with one sequence number; `body` may differ by interface (R447). -/
def sendTraverse (mid : Nat) (body : Nat → List Byte) (s : State) : State :=
  let head := traverseHead s
  let id := traverseId s mid
  let s1 := s.onCbus (fun c => { c with seq := c.seq + 1 })
  forAll (canIfs s) (fun i t => queueFrame i ⟨id, head ++ body i, s.env.ts⟩ (mid == 1) t) s1

/-- The offset in use, and bus-local time (R447). -/
def busTime (s : State) : DWord :=
  if s.cbus.tmaster then s.env.ts
  else s.env.ts + (s.can (if s.cbus.srcB then 1 else 0)).offset

/-- R449: the LEAK message. -/
def sendLeak (s : State) : State :=
  let mask := (List.range 4).foldl (fun (a r : Nat) => a + 2 ^ r * (s.rope r).latch.toNat) 0
  let taken := (List.range 4).foldl (fun (a v : Nat) => a + 2 ^ v * (s.valve v).leakTaken.toNat) 0
  let t := if s.cbus.btimeValid then (busTime s).toNat else 0
  sendTraverse 0x001 (fun _ => [BitVec.ofNat 8 mask, BitVec.ofNat 8 taken, 0, 0] ++ leBytes 8 t) s

def execLeakRepeat (s : State) : Res := .next (if anyLatch s then sendLeak s else s)

/-- A frame is a LEASE of a group. -/
def leaseFrameOf (f : TxFrame) : Option Nat :=
  if f.id.toNat / 2 ^ 18 = 0x020 then (f.payload[4]?).map (·.toNat) else none

/-- FRAME_TX_DONE (R443, R447, R455): a LEASE frame sent is a renewal. -/
def txDone (i : Nat) (s : State) : State :=
  let c := s.can i
  match lowest c.queue with
  | none => s
  | some f =>
    if !onBus c || c.listen || s.env.variant.cbus ≤ i then s
    else
      let s1 := s.onCan i (fun c => { c with
        queue := c.queue.erase f, sent := some f
        ownTref := if f.id.toNat / 2 ^ 18 = 0x010 then s.env.ts else c.ownTref })
      match leaseFrameOf f with
      | some g => if (s1.group g).st = .holding then s1.onGroup g (fun q => { q with renewTs := some s.env.ts }) else s1
      | none => s1

def execFrameTxDone (i : IfId) (s : State) : Res := .next (txDone i.val s)

/-- FRAME_TX_EXPIRY (R443): frames queued for 500 ms are discarded. -/
def txExpiry (i : Nat) (s : State) : State :=
  let old := fun (f : TxFrame) => decide (f.ts.toNat + ms 500 ≤ s.env.ts.toNat)
  let n := ((s.can i).queue.filter old).length
  if n = 0 then s else countDrop i n (s.onCan i (fun c => { c with queue := c.queue.filter (fun f => !old f) }))

def execFrameTxExpiry (i : IfId) (s : State) : Res := .next (txExpiry i.val s)

/-! ### Fault confinement (R444, R445) -/

/-- Bus-off entries in the last 60 s. -/
def boff60 (s : State) (i : Nat) : Nat := countWithin s.env.ts (60 * second) (s.can i).boffs

/-- BUS_OFF (R444, R445). -/
def busOff (i : Nat) (s : State) : State :=
  if !onBus (s.can i) || s.env.variant.cbus ≤ i then s
  else
    let n := (s.can i).queue.length
    let s1 := countDrop i n (s.onCan i (fun c => { c with
      st := .busOff, queue := [], boffs := pushTs 15 s.env.ts c.boffs }))
    let s2 := raise pgCbus 4 (cairnEvent 0x8002 i [] (errTrans pgCbus s1))
    if (s2.can i).autorec && decide (boff60 s2 i < 4) then s2.onCan i (fun c => { c with st := .recovering })
    else raise pgCbus 6 (cairnEvent 0x8004 i [] (errPerm pgCbus (s2.onCan i (fun c => { c with st := .halted }))))

def execBusOff (i : IfId) (s : State) : Res := .next (busOff i.val s)

/-- BUS_OFF_RECOVERY_DONE (R445). -/
def recoveryDone (i : Nat) (s : State) : State :=
  if (s.can i).st = .recovering then
    raise pgCbus 5 (cairnEvent 0x8003 i [] (s.onCan i (fun c => { c with st := .active, txErr := 0, rxErr := 0 })))
  else s

def execBusOffRecoveryDone (i : IfId) (s : State) : Res := .next (recoveryDone i.val s)

/-- CBUS_BUS_ERROR (R444): the counters as the standard leaves them; error-passive begins at 128. -/
def busError (i : Nat) (tec : BitVec 9) (rxe : BitVec 8) (s : State) : State :=
  let c := s.can i
  if !onBus c || s.env.variant.cbus ≤ i then s
  else
    let warned := fun (a b : Nat) => decide (c.ewl.toNat ≤ a) || decide (c.ewl.toNat ≤ b)
    let passive := decide (128 ≤ tec.toNat) || decide (128 ≤ rxe.toNat)
    let s1 := s.onCan i (fun c => { c with txErr := tec, rxErr := rxe, st := if passive then .passive else .active })
    let s2 := when (warned tec.toNat rxe.toNat && !warned c.txErr.toNat c.rxErr.toNat) (raise pgCbus 2) s1
    if passive ∧ c.st = .active then raise pgCbus 3 (cairnEvent 0x8001 i [] (errTrans pgCbus s2))
    else if !passive ∧ c.st = .passive then cairnEvent 0x8001 i [] s2
    else s2

def execCbusBusError (i : IfId) (tec : BitVec 9) (rec : BitVec 8) (s : State) : Res := .next (busError i.val tec rec s)

/-! ### Bit timing (R438, R439) -/

/-- Ticks of the control clock in a nominal bit. -/
def nominalTicks (n : Word) : Nat := (fld n.toNat 0 5 + 1) * (1 + (fld n.toNat 5 8 + 1) + (fld n.toNat 13 7 + 1))
/-- Ticks in a data bit. -/
def dataTicks (d : Word) : Nat := (fld d.toNat 0 5 + 1) * (1 + (fld d.toNat 5 5 + 1) + (fld d.toNat 10 4 + 1))

/-- R439: the pair of registers is within bounds. -/
def timingOk (n d : Word) : Bool :=
  decide (fld n.toNat 20 7 ≤ fld n.toNat 13 7) && decide (fld d.toNat 14 4 ≤ fld d.toNat 10 4)
    && decide (dataTicks d ≤ nominalTicks n)

/-- CBUS_BIT_TIMING_WRITE (R439). -/
def timingWrite (i : Nat) (dbt : Bool) (v : Word) (s : State) : State :=
  let c := s.can i
  let n := if dbt then c.nbt else v &&& 0x07FFFFFF
  let d := if dbt then v &&& 0x03FFFFFF else c.dbt
  if s.env.variant.cbus ≤ i then s
  else if c.init && timingOk n d then s.onCan i (fun c => { c with nbt := n, dbt := d })
  else cairnEvent 0x8007 i [] s

def execCbusBitTimingWrite (i : IfId) (dbt : Bool) (v : Word) (s : State) : Res := .next (timingWrite i.val dbt v s)

/-- A write of CBUS_IF_CTL.INIT: off the bus, or back on it. -/
def setInit (i : Nat) (on : Bool) (s : State) : State :=
  s.onCan i (fun c =>
    if on then { c with init := true, st := if c.st = .halted then .halted else .init }
    else { c with init := false, st := if c.st = .init then
      (if 128 ≤ c.txErr.toNat ∨ 128 ≤ c.rxErr.toNat then .passive else .active) else c.st })

/-! ### Receive objects (R440–R442) -/

def objMatch (o : RxObj) (id : BitVec 29) : Bool := o.en && decide ((id ^^^ o.id) &&& o.mask = 0)

/-- R440: the lowest-numbered object that a frame matches. -/
def matchObj (c : CanIf) (id : BitVec 29) : Option Nat :=
  (List.range 64).find? (fun k => objMatch (fget {} c.objs k) id)

/-- A frame replaced another: LOST. -/
def setLost (i k : Nat) (s : State) : State :=
  raise pgCbus 1 (cairnEvent 0x8005 i [] (s.onObj i k (fun o => { o with lost := true })))

/-- R441, R442: a frame is stored in its object, or in the shadow of a locked one. -/
def storeFrame (i k : Nat) (f : CanFrame) (s : State) : State :=
  let o := fget {} (s.can i).objs k
  let r : RxFrame := ⟨f.id, f.payload, f.sof, s.env.holdover⟩
  if o.locked then
    when o.shadow.isSome (setLost i k) (s.onObj i k (fun o => { o with shadow := some r }))
  else
    raise pgCbus 0 (when o.full (setLost i k) (s.onObj i k (fun o => { o with frame := r, full := true })))

/-- OBJ_LOCK_READ (R442): the answer is payload bytes 0–3. -/
def objLock (i k : Nat) (s : State) : State :=
  let o := fget {} (s.can i).objs k
  (s.onObj i k (fun o => { o with locked := true })).setReply { value := BitVec.ofNat 64 (leNat (padBytes 4 o.frame.payload)) }

def execObjLockRead (i : IfId) (k : Fin 64) (s : State) : Res := .next (objLock i.val k.val s)

/-- OBJ_RELEASE (R442, R460). -/
def objRelease (i k : Nat) (s : State) : State :=
  let o := fget {} (s.can i).objs k
  match o.shadow with
  | some r => raise pgCbus 0 (s.onObj i k (fun o => { o with locked := false, frame := r, full := true, shadow := none }))
  | none => s.onObj i k (fun o => { o with locked := false, full := false })

def execObjRelease (i : IfId) (k : Fin 64) (s : State) : Res := .next (objRelease i.val k.val s)

/-! ### Bus-local time (R446, R447) -/

/-- R447: an interface's offset is under 30 ms old. -/
def offsetFresh (s : State) (i : Nat) : Bool := decide (i < s.env.variant.cbus) && !agedMs s 30 (s.can i).offsetTs

/-- The offset in use and BTIME_VALID, from the offsets' ages. -/
def timeSource (s : State) : State :=
  s.onCbus (fun c => { c with
    srcB := !offsetFresh s 0 && offsetFresh s 1, btimeValid := offsetFresh s 0 || offsetFresh s 1 })

/-- The time master changed, or was lost (R461). -/
def masterEvent (s : State) : State := raise pgCbus 8 (cairnEvent 0x8101 0 [] s)

/-- TREF (R446, R447). -/
def trefRx (i : Nat) (src : BitVec 6) (role : Byte) (carried start : DWord) (s : State) : State :=
  let c := s.can i
  let s1 := s.onCan i (fun c => { c with prevStart := some (src, start) })
  let s2 := match c.prevStart with
    | some (p, t) => if p = src then s1.onCan i (fun c => { c with offset := carried - t, offsetTs := some s.env.ts }) else s1
    | none => s1
  let s3 := if role = 1 then s2.onCbus (fun c => { c with primaryTs := some s.env.ts, tmaster := c.tmaster && c.role != 2 }) else s2
  let s4 := if s.cbus.master = some src then s3 else masterEvent (s3.onCbus (fun c => { c with master := some src }))
  timeSource s4

def execTref (i : IfId) (src : BitVec 6) (role : Byte) (carried start : DWord) (s : State) : Res :=
  .next (trefRx i.val src role carried start s)

/-- TREF_AGE_TIMEOUT (R447). -/
def trefAge (i : Nat) (s : State) : State :=
  if agedMs s 30 (s.can i).offsetTs then
    let s1 := timeSource s
    if s.cbus.btimeValid && !s1.cbus.btimeValid then masterEvent (s1.onCbus (fun c => { c with master := none })) else s1
  else s

def execTrefAgeTimeout (i : IfId) (s : State) : Res := .next (trefAge i.val s)

/-- TREF_SEND_DUE (R446). -/
def trefSend (s : State) : State :=
  let due := s.cbus.role = 1 ∨ (s.cbus.role = 2 ∧ agedMs s 30 s.cbus.primaryTs)
  if due then
    let s1 := if s.cbus.tmaster then s else masterEvent (s.onCbus (fun c => { c with tmaster := true }))
    sendTraverse 0x010 (fun i => [s.cbus.role.setWidth 8, 0, 0, 0] ++ leBytes 8 (s.can i).ownTref.toNat) s1
  else s.onCbus (fun c => { c with tmaster := false })

def execTrefSendDue (s : State) : Res := .next (trefSend s)

/-! ### Duplicates (R451) -/

/-- R451: whether a message is accepted, and its sender's state afterwards. -/
def acceptMsg (s : State) (boot : Byte) (seq : BitVec 16) : Option Sender → Bool × Sender
  | none => (true, ⟨boot, seq, 1, s.env.ts⟩)
  | some q =>
    if q.boot ≠ boot then (true, ⟨boot, seq, 1, s.env.ts⟩)
    else
      let d := (seq - q.high).toNat
      let k := (q.high - seq).toNat
      if 1 ≤ d ∧ d ≤ 32767 then (true, ⟨boot, seq, (if d < 64 then q.window <<< d else 0) ||| 1, s.env.ts⟩)
      else if k ≤ 63 ∧ !q.window.getLsbD k then (true, { q with window := q.window ||| (1#64 <<< k), last := s.env.ts })
      else (false, q)

/-- SENDER_STATE_EXPIRY (R451). -/
def senderExpiry (src : Nat) (s : State) : State :=
  match fget none s.cbus.senders src with
  | some q => if agedMs s 5000 (some q.last) then s.onCbus (fun c => { c with senders := fput none src none c.senders }) else s
  | none => s

def execSenderStateExpiry (src : BitVec 6) (s : State) : Res := .next (senderExpiry src.toNat s)

end Sys2Proof.Machine
end

