-- ==== Sys2Proof/Machine/Lease.lean ====
section
/-! DEFINITION. The actuator lease, mirrors, health and peer leaks, and the reception of frames (R441, R448–R460). -/

namespace Sys2Proof.Machine

/-- The channels of a group. -/
def groupMotors (q : Group) : List Nat := (List.range 6).filter (fun m => q.motors.getLsbD m)
def groupValves (q : Group) : List Nat := (List.range 4).filter (fun v => q.valves.getLsbD v)

/-- The channels of a group reach the safe state (R455, R457, R458). -/
def groupSafe (g : Nat) (s : State) : State :=
  forAll (groupValves (s.group g)) valveSafe (forAll (groupMotors (s.group g)) motorSafe s)

/-- A group changes state (R462, LEASE). -/
def leaseState (g : Nat) (st : LeaseSt) (s : State) : State :=
  if (s.group g).st = st then s
  else raise pgCbus 7 (s.onGroup g (fun q => { q with st := st, waiting := false }))

/-- R449: a LEASE message. -/
def sendLease (g : Nat) (claim release : Bool) (s : State) : State :=
  let q := s.group g
  let flags := claim.toNat + 2 * release.toNat + 4 * q.primary.toNat
  sendTraverse 0x020 (fun _ => [BitVec.ofNat 8 g, BitVec.ofNat 8 flags, 0, 0] ++ leBytes 4 q.epoch.toNat ++ [0, 0, 0, 0]) s

/-- The leased slots of a group: those whose destination is one of its channels. -/
def groupSlots (s : State) (g : Nat) : List Nat :=
  (List.range 32).filter (fun i =>
    let d := (s.slot i).dst.toNat
    (groupMotors (s.group g)).any (fun m => d == 0x40 + m || d == 0x48 + m)
      || (groupValves (s.group g)).any (fun v => d == 0x60 + v))

/-- Lists of at most seven entries. -/
def sevens : Nat → List Nat → List (List Nat)
  | 0, _ => []
  | n + 1, xs => if xs = [] then [] else xs.take 7 :: sevens n (xs.drop 7)

/-- R449: the MIRROR parts of a group. -/
def sendMirrors (g : Nat) (s : State) : State :=
  let parts := sevens 5 (groupSlots s g)
  forAll (parts.zipIdx) (fun (p : List Nat × Nat) t =>
    let body := [BitVec.ofNat 8 g, BitVec.ofNat 8 p.2, BitVec.ofNat 8 p.1.length, 0] ++ leBytes 4 (t.group g).epoch.toNat
      ++ p.1.flatMap (fun i => [BitVec.ofNat 8 i] ++ leBytes 3 (t.slot i).setpt.toNat ++ leBytes 3 (t.slot i).int.toNat)
    sendTraverse 0x030 (fun _ => padBytes 60 body) t) s

/-! ### Self-test (R459) -/

/-- Bit 3: no sensor of the shared plant is FAULT. -/
def sharedSensorsOk (s : State) : Bool := s.cairn.plant.shared.all (fun k => !(s.input k).fault)

/-- Bit 5, for one group. -/
def mirrorOk (s : State) (q : Group) : Bool :=
  decide (q.st = .holding) || !q.live || q.mirrors.any (fun m => m.epoch == q.epoch && !agedMs s 300 (some m.ts))

/-- The groups that the ledger set up. -/
def usedGroups (s : State) : List Nat := (List.range 4).filter (fun g => decide ((s.group g).st ≠ .unused))

def bit5 (s : State) : Bool := (usedGroups s).all (fun g => mirrorOk s (s.group g))

/-- Bit 6: every partner was heard in the last 1 s. -/
def bit6 (s : State) : Bool := (usedGroups s).all (fun g => !agedMs s 1000 (s.group g).heardTs)

/-- Some interface is error-active or error-passive. -/
def busUp (s : State) : Bool := (canIfs s).any (fun i => onBus (s.can i))

/-- A holder releases, and the group enters BARRED (R458, R459). -/
def barGroup (g : Nat) (s : State) : State :=
  let s1 := if (s.group g).st = .holding then
      cairnEvent 0x8204 g [] (sendLease g false true (groupSafe g s)) else s
  leaseState g .barred s1

/-- R459: the states of the groups after an evaluation. -/
def applyReady (ready : Bool) (s : State) : State :=
  forAll (usedGroups s) (fun g t =>
    if !ready || !busUp t then (if (t.group g).st = .barred then t else barGroup g t)
    else if (t.group g).st = .barred then leaseState g .standby t else t) s

/-- SELF_TEST (R459): the read-backs of the two interfaces, the drivers and the slots as tested. -/
def selfTest (rbA rbB drivers slots : Bool) (s : State) : State :=
  let b0 := rbA && decide ((s.can 0).st = .active)
  let b1 := rbB && decide ((s.can 1).st = .active) && decide (1 < s.env.variant.cbus)
  let b3 := sharedSensorsOk s
  let b5 := bit5 s
  let b6 := bit6 s
  let ready := drivers && b3 && slots && b5 && (b0 || b1)
  let w := b0.toNat + 2 * b1.toNat + 4 * drivers.toNat + 8 * b3.toNat + 16 * slots.toNat + 32 * b5.toNat + 64 * b6.toNat
    + 128 * ready.toNat
  let s1 := s.onCbus (fun c => { c with ownHealth := BitVec.ofNat 8 w })
  let s2 := when (s.cbus.ownHealth.getLsbD 6 && !b6) (fun t => raise pgCbus 10 (cairnEvent 0x8205 0 [] t)) s1
  let s3 := applyReady ready s2
  let states := (List.range 4).foldl (fun (a g : Nat) =>
    a + 4 ^ g * (match (s3.group g).st with
      | .unused => 0 | .standby => 0 | .claiming => 1 | .holding => 2 | .barred => 3)) 0
  let body := [BitVec.ofNat 8 w, BitVec.ofNat 8 states, BitVec.ofNat 8 (coolCode s3.cool.st), 0]
    ++ leBytes 4 (busTime s3).toNat ++ [0, 0, 0, 0]
  sendTraverse 0x040 (fun _ => body) s3

def execSelfTest (readBackA readBackB drivers slots : Bool) (s : State) : Res :=
  .next (selfTest readBackA readBackB drivers slots s)

/-! ### Expiry, claim and hold (R455, R456) -/

/-- READY as bits 2–5 and the last interface bits give it, evaluated as a lease expires (R459). -/
def readyNow (s : State) : Bool :=
  s.cbus.ownHealth.getLsbD 2 && sharedSensorsOk s && s.cbus.ownHealth.getLsbD 4 && bit5 s
    && (s.cbus.ownHealth.getLsbD 0 || s.cbus.ownHealth.getLsbD 1)

/-- R456: the lease has expired; a READY module is to claim. -/
def expireLease (g : Nat) (s : State) : State :=
  let s1 := s.onGroup g (fun q => { q with live := false })
  if readyNow s1 && busUp s1 then s1.onGroup g (fun q => { q with waiting := true }) else leaseState g .barred s1

/-- LEASE_EXPIRY (R456). -/
def leaseExpiry (g : Nat) (s : State) : State :=
  let q := s.group g
  if q.st = .standby ∧ !q.waiting ∧ agedMs s 300 q.renewTs then expireLease g s else s

def execLeaseExpiry (g : GroupId) (s : State) : Res := .next (leaseExpiry g.val s)

/-- LEASE_CLAIM_SEND (R456, step 1). -/
def claimSend (g : Nat) (s : State) : State :=
  if (s.group g).st = .standby ∧ (s.group g).waiting then
    let s1 := leaseState g .claiming (s.onGroup g (fun q => { q with epoch := q.epoch + 1 }))
    let e := (s1.group g).epoch
    cairnEvent 0x8201 e.toNat (leBytes 4 g ++ leBytes 4 e.toNat) (sendLease g true false s1)
  else s

def execLeaseClaimSend (g : GroupId) (s : State) : Res := .next (claimSend g.val s)

/-- R456, step 3: the set-points and integrators of the latest MIRROR of epoch E. -/
def loadMirrors (g : Nat) (s : State) : State :=
  let q := s.group g
  let es := (q.mirrors.filter (fun m => m.epoch + 1 == q.epoch)).flatMap (·.entries)
  forAll es (fun (e : SlotId × BitVec 24 × BitVec 24) t =>
    t.onSlot e.1.val (fun x => { x with setpt := e.2.1, int := e.2.2 })) s

/-- LEASE_CLAIM_WAIT_END (R456, step 3; R460): leak entries of a held peer LEAK come before any channel drives. -/
def claimEnd (g : Nat) (s : State) : State :=
  if (s.group g).st = .claiming then
    let s1 := loadMirrors g s
    let s2 := forAll (groupSlots s1 g) (fun i t => slotEnable i true t) s1
    let s3 := leaseState g .holding s2
    let q := s3.group g
    let s4 := s3.onGroup g (fun q => { q with renewTs := some s.env.ts, live := true })
    let s5 := if s4.cbus.peerLeak then forAll (groupMotors q) leakStop (forAll (groupValves q) leakEntry s4) else s4
    forAll (groupValves q) actOnCommandUnlessLeak (forAll (groupMotors q) (fun m t => motorMode m 1 t) s5)
  else s
where
  /-- A channel that took its leak entry keeps it. -/
  actOnCommandUnlessLeak (v : Nat) (t : State) : State := if (t.valve v).leakTaken then t else actOnCommand v t

def execLeaseClaimWaitEnd (g : GroupId) (s : State) : Res := .next (claimEnd g.val s)

/-- LEASE_RENEWAL_DUE (R455). -/
def renewalDue (g : Nat) (s : State) : State :=
  if (s.group g).st = .holding then sendMirrors g (sendLease g false false s) else s

def execLeaseRenewalDue (g : GroupId) (s : State) : Res := .next (renewalDue g.val s)

/-- LEASE_HOLDER_TIMEOUT (R455). -/
def holderTimeout (g : Nat) (s : State) : State :=
  if (s.group g).st = .holding ∧ agedMs s 250 (s.group g).renewTs then
    leaseState g .standby (cairnEvent 0x8203 g [] (groupSafe g s))
  else s

def execLeaseHolderTimeout (g : GroupId) (s : State) : Res := .next (holderTimeout g.val s)

/-! ### Messages received -/

/-- A message from a group's partner was accepted (R459, bit 6). -/
def heard (src : BitVec 6) (s : State) : State :=
  forAll (usedGroups s) (fun g t =>
    if (t.group g).partner = src then t.onGroup g (fun q => { q with heardTs := some s.env.ts }) else t) s

/-- LEASE (R455–R457). -/
def leaseRx (src : BitVec 6) (g : Nat) (release primary : Bool) (epoch : Word) (s0 : State) : State :=
  let s := heard src s0
  let q := s.group g
  if q.st = .unused ∨ q.partner ≠ src then s
  else
    let higher := decide (q.epoch.toNat < epoch.toNat)
    let yields := higher || (decide (epoch = q.epoch) && primary && !q.primary)
    let seen := s.onGroup g (fun q => { q with epoch := if higher then epoch else q.epoch })
    let renew := fun (t : State) => t.onGroup g (fun q => { q with
      renewTs := some s.env.ts, live := !release, waiting := false })
    if q.st = .holding then
      if yields then leaseState g .standby (cairnEvent 0x8202 g [] (groupSafe g (renew seen))) else seen
    else if q.st = .claiming then
      if higher ∨ (epoch = q.epoch ∧ primary) then leaseState g .standby (renew seen) else seen
    else if q.st = .standby ∧ release then expireLease g (renew seen)
    else renew seen

def execLease (src : BitVec 6) (g : GroupId) (_claim release primary : Bool) (epoch : Word) (s : State) : Res :=
  .next (leaseRx src g.val release primary epoch s)

/-- MIRROR (R449). -/
def mirrorRx (src : BitVec 6) (g : Nat) (part : Byte) (epoch : Word) (es : List (SlotId × BitVec 24 × BitVec 24))
    (s0 : State) : State :=
  let s := heard src s0
  if (s.group g).st = .unused ∨ (s.group g).partner ≠ src then s
  else s.onGroup g (fun q => { q with
    mirrors := ⟨part, epoch, s.env.ts, es⟩ :: q.mirrors.filter (fun m => m.part != part && m.epoch == epoch) })

def execMirror (src : BitVec 6) (g : GroupId) (part : Byte) (epoch : Word)
    (entries : List (SlotId × BitVec 24 × BitVec 24)) (s : State) : Res :=
  .next (mirrorRx src g.val part epoch entries s)

/-- HEALTH (R459, R461). -/
def healthRx (src : BitVec 6) (bits : Byte) (s0 : State) : State :=
  let s := heard src s0
  forAll (usedGroups s) (fun g t =>
    if (t.group g).partner = src then
      let was := (t.group g).partnerHealth
      let t1 := t.onGroup g (fun q => { q with partnerHealth := bits, healthTs := some s.env.ts })
      when (was.getLsbD 7 && !bits.getLsbD 7) (fun u => raise pgCbus 10 (cairnEvent 0x8205 g [] u)) t1
    else t) s

def execHealth (src : BitVec 6) (bits _leaseStates _cool : Byte) (s : State) : Res := .next (healthRx src bits s)

/-- LEASED channels whose lease this module holds. -/
def leasedValves (s : State) : List Nat := (List.range 4).filter (fun v => (s.valve v).leased && !valveHeld s v)
def leasedMotors (s : State) : List Nat := (List.range 6).filter (fun m => (s.motor m).leased && !motorHeld s m)

/-- LEAK (R453): a plant peer's leak. -/
def leakRx (src : BitVec 6) (s0 : State) : State :=
  let s := heard src s0
  if s.cairn.plant.peers.contains src then
    let vs := leasedValves s
    let ms := leasedMotors s
    let s1 := s.onCbus (fun c => { c with peerLeak := true, peerTs := s.env.ts })
    let s2 := if s.cbus.peerLeak then s1 else forAll ms leakStop (forAll vs leakEntry s1)
    when (vs != [] || ms != []) (cairnEvent 0x8206 src.toNat []) s2
  else s

def execLeak (src : BitVec 6) (s : State) : Res := .next (leakRx src s)

/-- PEER_LEAK_HOLD_END (R453). -/
def peerLeakEnd (s : State) : State :=
  if s.cbus.peerLeak ∧ agedMs s 2000 (some s.cbus.peerTs) then
    let s1 := s.onCbus (fun c => { c with peerLeak := false })
    if anyLatch s1 then s1 else leakOver (leasedValves s1) (leasedMotors s1) s1
  else s

def execPeerLeakHoldEnd (s : State) : Res := .next (peerLeakEnd s)

/-! ### FRAME_RX (R436, R441, R448, R451) -/

/-- Bytes 12 on of a MIRROR. -/
def mirrorEntries (n : Nat) (bs : List Byte) : List (SlotId × BitVec 24 × BitVec 24) :=
  (List.range n).filterMap (fun k =>
    let e := (bs.drop (7 * k)).take 7
    let i := (e.headD 0).toNat
    if h : i < 32 then
      some (⟨i, h⟩, BitVec.ofNat 24 (leNat ((e.drop 1).take 3)), BitVec.ofNat 24 (leNat ((e.drop 4).take 3)))
    else none)

/-- An accepted Traverse message acts (R449). -/
def actMsg (mid : Nat) (src : BitVec 6) (p : List Byte) (s : State) : State :=
  let b := fun (k : Nat) => p.getD k 0
  let epoch := BitVec.ofNat 32 (leNat ((p.drop 8).take 4))
  if mid = 0x001 then leakRx src s
  else if mid = 0x020 ∧ (b 4).toNat < 4 then leaseRx src (b 4).toNat ((b 5).getLsbD 1) ((b 5).getLsbD 2) epoch s
  else if mid = 0x030 ∧ (b 4).toNat < 4 then mirrorRx src (b 4).toNat (b 5) epoch (mirrorEntries (min 7 (b 6).toNat) (p.drop 12)) s
  else if mid = 0x040 then healthRx src (b 4) s
  else heard src s

/-- A stored frame's message: TREF is exempt from the duplicate rule (R447, R451). -/
def traverseRx (i : Nat) (f : CanFrame) (s : State) : State :=
  let mid := f.id.toNat / 2 ^ 18
  let src : BitVec 6 := f.id.extractLsb' 0 6
  let p := f.payload
  let len := if mid = 0x030 then 64 else 16
  if f.id.toNat / 64 % 2 ^ 12 ≠ 0 ∨ p.length < len ∨ (p.getD 3 0).toNat % 16 ≠ 1 then s
  else if mid = 0x010 then
    trefRx i src (p.getD 4 0) (BitVec.ofNat 64 (leNat ((p.drop 8).take 8))) f.sof (heard src s)
  else if mid = 0x001 ∨ mid = 0x020 ∨ mid = 0x030 ∨ mid = 0x040 then
    let (ok, q) := acceptMsg s (p.getD 2 0) (BitVec.ofNat 16 (leNat (p.take 2))) (fget none s.cbus.senders src.toNat)
    let s1 := s.onCbus (fun c => { c with senders := fput none src.toNat (some q) c.senders })
    if ok then actMsg mid src p s1 else s1.onCbus (fun c => { c with dup := satInc c.dup })
  else s

/-- FRAME_RX (R436, R440, R441, R448). -/
def frameRx (i : Nat) (f : CanFrame) (s : State) : State :=
  if !onBus (s.can i) || s.env.variant.cbus ≤ i then s
  else
    let clash := f.extended && !f.remote && !f.own && f.id.extractLsb' 0 6 == s.cbus.addr && fld f.id.toNat 6 12 == 0
    let s1 := when clash (fun t => raise pgCbus 9 (cairnEvent 0x8102 i [] (t.onCbus (fun c => { c with clash := true })))) s
    let unmatched := s1.onCan i (fun c => { c with rxUnm := satInc c.rxUnm })
    if !f.extended || f.remote then unmatched
    else
      match matchObj (s1.can i) f.id with
      | none => unmatched
      | some k => if f.own || clash then storeFrame i k f s1 else traverseRx i f (storeFrame i k f s1)

def execFrameRx (i : IfId) (f : CanFrame) (s : State) : Res := .next (frameRx i.val f s)

end Sys2Proof.Machine
end

