-- ==== Sys2Proof/Machine/Inputs.lean ====
section
/-! DEFINITION. Analogue, flow and thermistor inputs, their end-of-range supervision, and the leak ropes
(R354, R418, R426–R432). -/

namespace Sys2Proof.Machine

/-- R428: a code at an end of the range. -/
def endCode (code : Nat) : Bool := decide (0xFFC0 ≤ code) || decide (code ≤ 0x0040)

/-- R428: the input is supervised: TH always, AIN and analogue FLOW with SUPV. -/
def supervised (k : Nat) (q : Input) : Bool :=
  if 32 ≤ k then true else if 16 ≤ k then q.mode && q.supv else q.supv

/-- A conversion is completed: its code, its value and the run of end-of-range conversions. -/
def convert (k : Nat) (code : BitVec 16) (value : BitVec 24) (s : State) : State :=
  s.onInput k (fun q => { q with
    raw := code, value := value, conversions := q.conversions + 1
    ends := if supervised k q && endCode code.toNat then q.ends + 1 else 0 })

/-- AIN_CONVERSION (R426). -/
def ainConvert (k : Nat) (code : BitVec 16) (s : State) : State := convert k code (code.setWidth 24) s

def execAinConversion (k : Fin 16) (code : BitVec 16) (s : State) : Res := .next (ainConvert k.val code s)

/-- e^(a/b) in units of 2^−256: a series of a/b ÷ 2^11, squared eleven times. -/
def expRat (a b : Int) : Int :=
  let one : Int := 2 ^ 256
  let r := a * one / (b * 2 ^ 11)
  let t := ((List.range 50).foldl (fun (st : Int × Int) (k : Nat) =>
    let x := st.2 * r / one / ((k : Int) + 1)
    (st.1 + x, x)) (one, one)).1
  (List.range 11).foldl (fun y _ => y * y / one) t

/-- R427: the temperature of t/16 °C is at most that of a resistance of `code` against `r26` × 10 Ω: its resistance,
R26 × exp(β (1/T − 1/298.15)), is not below the one read. The bias divides the converter's reference as
code ÷ 65,535 = R ÷ (R + 10 kΩ). -/
def thermBelow (beta r26 code : Nat) (t : Int) : Bool :=
  -- T in 1/400 K: t·25 + 109260; 298.15 K is 119260
  let tk : Int := t * 25 + 109260
  let e := expRat ((beta : Int) * 400 * (119260 - tk)) (tk * 119260)
  decide ((10000 * code : Int) * 2 ^ 256 ≤ (65535 - code : Int) * ((r26 : Int) * 10) * e)

/-- The largest t in a range of 2^n values from `lo` that is below the temperature. -/
def searchTherm (below : Int → Bool) : Nat → Int → Int
  | 0, lo => lo
  | n + 1, lo => if below (lo + 2 ^ n) then searchTherm below n (lo + 2 ^ n) else searchTherm below n lo

/-- R427: a thermistor's value in 1/16 °C. The rule states no rounding: site 6. A reading beyond the formula, at an open
or shorted input or with β or R26 at 0, is site 7. -/
def thermValue (beta r26 code : Nat) : Int :=
  if code = 0 ∨ 65535 ≤ code ∨ beta = 0 ∨ r26 = 0 then Config.openInt 7 code
  else
    let t := searchTherm (thermBelow beta r26 code) 14 (-4300)
    if thermBelow beta r26 code (-4300) && !thermBelow beta r26 code 12083 then
      t + (Config.roundsUp 6 code).toNat
    else Config.openInt 7 code

/-- R427: an analogue flow in mL/min; the rounding is site 8. -/
def analogFlow (fs code : Nat) : Int := openRound 8 ((code * fs : Nat) / (65535 : Rat))

/-- R427: a pulse flow, from the interval of the last two pulses; it reads 0 after 1 s without a pulse. The rounding is
site 9; two pulses in one tick, or K at 0, are site 10. -/
def pulseFlow (s : State) (q : Input) : Int :=
  match q.pulses with
  | t :: u :: _ =>
    if t.toNat + second ≤ s.env.ts.toNat then 0
    else
      let d := (t - u).toNat
      if d = 0 ∨ q.p1 = 0 then Config.openInt 10 d
      else openRound 9 ((60000 * second : Nat) / ((d * q.p1.toNat : Nat) : Rat))
  | _ => 0

/-- A flow input's sample at the 1 ms conversion. -/
def flowSample (i : Nat) (code : BitVec 16) (s : State) : State :=
  let q := s.input (16 + i)
  if q.mode then convert (16 + i) code (limit24 (analogFlow q.p1.toNat code.toNat)).1 s
  else s.onInput (16 + i) (fun q => { q with
    value := (limit24 (pulseFlow s q)).1, conversions := q.conversions + 1, ends := 0 })

/-- A thermistor's conversion. -/
def thermSample (i : Nat) (code : BitVec 16) (s : State) : State :=
  let q := s.input (32 + i)
  convert (32 + i) code (limit24 (thermValue q.p1.toNat q.p2.toNat code.toNat)).1 s

/-- PULSE_INPUT_EDGE (R418, R427): inputs 0–5 are tachometers, 6–9 flow meters. TACH is taken over one revolution; its
rounding is site 11 and a value beyond 16 bits site 12. -/
def pulseEdge (k : Nat) (s : State) : State :=
  if k < 6 then
    let q := s.motor k
    let ps := pushTs 16 s.env.ts q.pulses
    match ps[q.ppr.toNat]? with
    | some u =>
      let d := (s.env.ts - u).toNat
      let v := if d = 0 ∨ q.ppr = 0 then Config.openNat 12 k else (openRound 11 ((60 * second : Nat) / (d : Rat))).toNat
      let v := if v < 65536 then v else Config.openNat 12 v % 65536
      s.onMotor k (fun q => { q with pulses := ps, tach := if q.ppr = 0 then 0 else BitVec.ofNat 16 v })
    | none => s.onMotor k (fun q => { q with pulses := ps })
  else s.onInput (16 + (k - 6)) (fun q => { q with pulses := pushTs 2 s.env.ts q.pulses })

def execPulseInputEdge (input : Fin 10) (s : State) : Res := .next (pulseEdge input.val s)

/-- INPUT_FAULT (R428, R434): `kind` is 0 AIN, 1 FLOW, 2 TH. -/
def inputFault (k : Nat) (s : State) : State :=
  let q := s.input k
  if supervised k q && !q.fault && decide (3 ≤ q.ends) then
    errPerm pgSens (raise pgSens 3 (cairnEvent 0x7204 k [] (s.onInput k (fun q => { q with fault := true }))))
  else s

/-- The SENS key of an input. -/
def sensKey (kind idx : Nat) : Nat := if kind = 1 then 16 + idx % 4 else if kind = 2 then 32 + idx % 8 else idx

def execInputFault (kind : Fin 3) (idx : Fin 16) (s : State) : Res := .next (inputFault (sensKey kind.val idx.val) s)

/-! ### Leak ropes (R429–R432) -/

/-- R429: the band of a loop resistance in Ω. -/
def ropeBand (ohms : Nat) : Band :=
  if ohms < 2000 then .leak
  else if ohms < 3500 then .marginal
  else if ohms < 7500 then .normal
  else if ohms < 20000 then .marginal
  else .opened

/-- ROPE_BAND_CHANGE (R429). -/
def ropeChange (r ohms : Nat) (s : State) : State :=
  let q := s.rope r
  if !q.en then s
  else
    let b := ropeBand ohms
    let s1 := s.onRope r (fun q => { q with
      band := b, leftTs := if b = .leak then none else if q.band = .leak then some s.env.ts else q.leftTs })
    if b = q.band then s1
    else if b = .opened then errPerm pgSens (raise pgSens 1 (cairnEvent 0x7202 r [] s1))
    else if b = .marginal then errTrans pgSens (raise pgSens 2 (cairnEvent 0x7203 r [] s1))
    else s1

def execRopeBandChange (r : Fin 4) (ohms : Nat) (s : State) : Res := .next (ropeChange r.val ohms s)

/-- LEAK_LATCH (R394, R430): four consecutive LEAK samples. -/
def leakLatch (r : Nat) (s : State) : State :=
  let q := s.rope r
  if q.en ∧ q.band = .leak ∧ !q.latch then
    let s1 := s.onRope r (fun q => { q with latch := true })
    let s2 := forAll (List.range 6) leakStop (forAll (List.range 4) leakEntry s1)
    raise pgSens 0 (cairnEvent 0x7201 r [] (sendLeak (endInjection 4 s2)))
  else s

def execLeakLatch (r : Fin 4) (s : State) : Res := .next (leakLatch r.val s)

/-- R432: a LATCH that may clear: its rope has been out of the LEAK band for 10 s. -/
def latchClears (s : State) (r : Nat) : Bool :=
  let q := s.rope r
  q.latch && decide (q.band ≠ .leak) && (match q.leftTs with
    | some t => decide (t.toNat + 10 * second ≤ s.env.ts.toNat)
    | none => false)

/-- LATCH_CLEAR's effect (R432, R434). -/
def clearLatches (who : Nat) (s : State) : State :=
  let rs := (List.range 4).filter (latchClears s)
  let s1 := forAll rs (fun r t => cairnEvent 0x7205 r (leBytes 4 who) (t.onRope r (fun q => { q with latch := false }))) s
  if anyLatch s1 then s1
  else leakOver ((List.range 4).filter (fun v => !leakHold s1 (s1.valve v).leased))
    ((List.range 6).filter (fun m => !leakHold s1 (s1.motor m).leased)) s1

end Sys2Proof.Machine
end

