-- ==== Sys2Proof/Machine/Ledger.lean ====
section
/-! DEFINITION. The configuration ledger: generations, what their entries set, and the checks of a commit (R509–R512).
R511 names what an entry holds and gives no layout, so each value is a field that `Config.ledgerNat` reads. -/

namespace Sys2Proof.Machine

/-- The tags of R511. -/
def ledgerTags : List Nat :=
  [0x0001, 0x0002, 0x0010, 0x0011, 0x0020, 0x0021, 0x0030, 0x0031, 0x0032, 0x0033, 0x0034, 0x0040, 0x0050, 0x0060, 0x0070]

/-- The value of an entry of a generation; the last one staged counts. -/
def entryOf (es : List (BitVec 16 × List Byte)) (tag : Nat) : Option (List Byte) :=
  (es.reverse.find? (fun e => e.1.toNat == tag)).map (·.2)

/-- A field of an entry, or its default where the generation has no such entry. -/
def fieldOr (es : List (BitVec 16 × List Byte)) (tag field dflt : Nat) : Nat :=
  match entryOf es tag with
  | some v => Config.ledgerNat tag v field
  | none => dflt

/-- A field that may be absent: 0 is none, n + 1 is n. -/
def fieldOpt (es : List (BitVec 16 × List Byte)) (tag field : Nat) : Option Nat :=
  match fieldOr es tag field 0 with
  | 0 => none
  | n + 1 => some n

def roleOf (n : Nat) : Role := if n = 1 then .monitor else if n = 2 then .operator else if n = 3 then .service else .none

/-- The byte strings of an entry from a field on. -/
def stringsOf (es : List (BitVec 16 × List Byte)) (tag first n : Nat) : List (List Byte) :=
  match entryOf es tag with
  | some v => (List.range n).map (fun i => Config.ledgerStr tag v (first + i))
  | none => []

/-- What a generation sets that no register holds: tags 0x0001, 0x0002, 0x0010, 0x0020, 0x0034, 0x0050 and 0x0060. -/
def policyOf (es : List (BitVec 16 × List Byte)) : Policy :=
  { row := fieldOr es 0x0001 0 0 % 2 == 1
    node := (fieldOpt es 0x0002 0).map (BitVec.ofNat 16 ·)
    socketCap := BitVec.ofNat 12 (fieldOr es 0x0010 0 4095)
    thrCap := BitVec.ofNat 12 (fieldOr es 0x0010 1 4095)
    autoBoard := (fieldOpt es 0x0010 2).map (BitVec.ofNat 12 ·)
    flowMin := fieldOr es 0x0020 0 1000
    proofMs := fieldOr es 0x0020 1 2000
    timeoutMs := fieldOr es 0x0020 2 30000
    kq := fieldOr es 0x0020 3 663
    dtRise := fieldOr es 0x0020 4 110
    tinMax := fieldOr es 0x0020 5 720
    tinZero := fieldOr es 0x0020 6 880
    qRef := fieldOr es 0x0034 0 4000
    dpRef := fieldOr es 0x0034 1 600
    digests := stringsOf es 0x0050 0 (min 8 (fieldOr es 0x0050 0 0))
    roots := stringsOf es 0x0050 8 (fieldOr es 0x0050 1 0)
    roles := (List.range 8).foldl (fun m i => fput Role.none i (roleOf (fieldOr es 0x0060 i 0)) m) []
    mgmtRoot := (stringsOf es 0x0060 8 1).headD []
    certs := ((stringsOf es 0x0060 0 8).zipIdx).foldl (fun m (e : List Byte × Nat) => fput [] e.2 e.1 m) [] }

/-- Numbers listed in an entry: a count at `first`, and as many fields after it. -/
def listOf (es : List (BitVec 16 × List Byte)) (tag first cap : Nat) : List Nat :=
  (List.range (min cap (fieldOr es tag first 0))).map (fun i => fieldOr es tag (first + 1 + i) 0)

/-- The plant's parameters: tags 0x0032, 0x0033, 0x0040 and 0x0070. -/
def plantOf (es : List (BitVec 16 × List Byte)) : Plant :=
  { pumps := (listOf es 0x0032 1000 6).map (Fin.ofNat 6 ·)
    duty := (fieldOpt es 0x0032 1010).map (fun n => Fin.ofNat 6 (n % 2))
    spare := (fieldOpt es 0x0032 1011).map (fun n => Fin.ofNat 6 (n % 2))
    dutySlot := fieldOr es 0x0032 1012 0 % 32
    inlet := (listOf es 0x0033 1000 2).map (Fin.ofNat 8 ·)
    outlet := (listOf es 0x0033 1010 2).map (Fin.ofNat 8 ·)
    flows := (listOf es 0x0033 1020 2).map (Fin.ofNat 4 ·)
    dp := (fieldOpt es 0x0033 1030).map (Fin.ofNat 16 ·)
    dpNum := fieldOr es 0x0033 1031 1
    dpDen := max 1 (fieldOr es 0x0033 1032 1)
    assigned := listOf es 0x0033 1100 28
    shared := listOf es 0x0033 1200 28
    peers := (listOf es 0x0040 1000 63).map (BitVec.ofNat 6 ·)
    m500 := fieldOr es 0x0070 0 0 % 2 == 1 }

/-! ### The checks of a commit (R510) -/

/-- R324: the throttle cap covers the fixed terms. -/
def thrOk (v : Variant) (es : List (BitVec 16 × List Byte)) : Bool :=
  decide (fieldOr es 0x0011 0 v.base + (v.rated * fieldOr es 0x0011 1 65 + 999) / 1000 ≤ (policyOf es).thrCap.toNat)

/-- R366: the coolant parameters are within their bounds. -/
def coolOk (p : Policy) : Bool :=
  decide (1000 ≤ p.flowMin) && decide (2000 ≤ p.proofMs) && decide (10000 ≤ p.timeoutMs) && decide (p.timeoutMs ≤ 120000)
    && decide (p.kq ≤ 663) && decide (p.dtRise ≤ 110) && decide (p.tinMax ≤ 720) && decide (p.tinZero ≤ 880)
    && decide (p.tinMax < p.tinZero)

/-- The slot plan: DIV, PHASE, the sources and destination, and the exponents of slot i in fields 4i to 4i + 3. -/
def planWord (es : List (BitVec 16 × List Byte)) (i w : Nat) : Nat := fieldOr es 0x0030 (4 * i + w) 0

/-- R381: no two planned slots share a PHASE or a destination, and each PHASE is unset or in range. -/
def planOk (es : List (BitVec 16 × List Byte)) : Bool :=
  let ph := (List.range 32).map (fun i => fld (planWord es i 1) 0 14)
  let ds := (List.range 32).map (fun i => fld (planWord es i 2) 16 8)
  ph.all (fun p => p == 0 || (decide (64 ≤ p) && decide (p ≤ 9999)))
    && decide ((ph.filter (· != 0)).Nodup) && decide ((ds.filter (· != 0)).Nodup) && ds.all dstOk

/-- R439: the bit timings of both interfaces. -/
def timingEntryOk (es : List (BitVec 16 × List Byte)) : Bool :=
  let d : CanIf := {}
  (List.range 2).all (fun i =>
    timingOk (BitVec.ofNat 32 (fieldOr es 0x0040 (2 + 2 * i) d.nbt.toNat))
      (BitVec.ofNat 32 (fieldOr es 0x0040 (3 + 2 * i) d.dbt.toNat)))

/-- R465: the policy's settings lie in their bounds. Fields 10 to 14 hold n + 1 for a setting of n. -/
def securityOk (es : List (BitVec 16 × List Byte)) : Bool :=
  let ok := fun (f cap : Nat) => match fieldOpt es 0x0050 f with
    | some n => decide (n ≤ cap)
    | none => true
  ok 10 2 && ok 11 1 && ok 12 1 && ok 13 1 && ok 14 1

/-- R510: an entry breaks no bound that its tag names. -/
def entryOk (v : Variant) (es : List (BitVec 16 × List Byte)) (tag : Nat) : Bool :=
  ledgerTags.contains tag &&
    (if tag = 0x0010 ∨ tag = 0x0011 then thrOk v es
     else if tag = 0x0020 then coolOk (policyOf es)
     else if tag = 0x0030 then planOk es
     else if tag = 0x0040 then timingEntryOk es
     else if tag = 0x0050 then securityOk es
     else true)

/-- R510: the first failing tag of a pending generation. -/
def firstFailing (v : Variant) (es : List (BitVec 16 × List Byte)) : Option Nat :=
  (es.map (·.1.toNat)).find? (fun t => !entryOk v es t)

/-! ### What an application sets (R511) -/

/-- The policy settings that the SEC page shows: the profile's defaults of R465 unless the entry sets them. -/
def applySecurity (es : List (BitVec 16 × List Byte)) (row : Bool) (c : SecBlk) : SecBlk :=
  let f := fun (k d : Nat) => (fieldOpt es 0x0050 k).getD d
  { c with
    profileRow := row
    telemU := BitVec.ofNat 2 (f 10 (if row then 0 else 1))
    telemP := BitVec.ofNat 1 (f 11 (if row then 0 else 1))
    fabAttest := f 12 0 % 2 == 1
    autoFloor := f 13 (if row then 0 else 1) % 2 == 1
    dbgMem := f 14 (if row then 1 else 0) % 2 == 1 }

/-- The reservations and fixed terms of the arbiter (R328), and its caps' reset values. -/
def applyPower (es : List (BitVec 16 × List Byte)) (p : PwrBlk) : PwrBlk :=
  let thr := (policyOf es).thrCap
  match entryOf es 0x0011 with
  | none => { p with caps := { p.caps with thr := thr }, committed := { p.committed with thr := thr } }
  | some v =>
    let n := Config.ledgerNat 0x0011 v
    { p with
      caps := { p.caps with thr := thr }, committed := { p.committed with thr := thr }
      fixedBase := some (BitVec.ofNat 12 (n 0)), lossPm := BitVec.ofNat 10 (n 1), resHbm := BitVec.ofNat 8 (n 2)
      resLedge := BitVec.ofNat 8 (n 3), resMesh := some (BitVec.ofNat 10 (n 4)), resFab := BitVec.ofNat 8 (n 5)
      resHostl := BitVec.ofNat 8 (n 6), srMax := BitVec.ofNat 10 (n 7) }

/-- The coefficient registers of a slot: fields 9i to 9i + 8 of tag 0x0031, for offsets 0x10 to 0x30. -/
def coefWords (es : List (BitVec 16 × List Byte)) (i : Nat) : List (Nat × Word) :=
  match entryOf es 0x0031 with
  | none => []
  | some v => (List.range 9).map (fun k => (0x10 + 4 * k, BitVec.ofNat 32 (Config.ledgerNat 0x0031 v (9 * i + k))))

/-- Coefficients of a slot that does not compute are written at once; for one that does, HOLD and BUMPLESS are set and
the set waits for HOLDING (R400, R511). -/
def applyCoefs (es : List (BitVec 16 × List Byte)) (s : State) : State :=
  forAll (List.range 32) (fun i t =>
    let ws := coefWords es i
    if ws = [] then t
    else if (t.slot i).en then
      (t.onSlot i (fun q => { q with hold := true, bumpless := true })).onLoop (fun l => { l with
        held := l.held ++ ws.map (fun w => (i, BitVec.ofNat 6 w.1, w.2)) })
    else t.onSlot i (fun q => ws.foldl (fun q w => slotField q w.1 w.2) q)) s

/-- Tag 0x0034: the ageing baselines of the motors, fields 10 + 2m and 11 + 2m. -/
def applyAgeing (es : List (BitVec 16 × List Byte)) (s : State) : State :=
  match entryOf es 0x0034 with
  | none => s
  | some v => forAll (List.range 6) (fun m t => t.onMotor m (fun q => { q with
      base := BitVec.ofNat 16 (Config.ledgerNat 0x0034 v (10 + 2 * m))
      ref := BitVec.ofNat 16 (Config.ledgerNat 0x0034 v (11 + 2 * m)) })) s

/-- The entries that take effect at a module reset, on the Cairn side (R29, R511). -/
def applyModuleReset (s : State) : State :=
  let g := s.cairn.cur
  let p := policyOf g.entries
  let changed := decide (entryOf g.entries 0x0031 ≠ entryOf s.cairn.inforce.entries 0x0031)
  let s1 := s.onCairn (fun c => { c with inforce := g, policy := p, cfgIdx := 0 })
  let s2 := if changed then applyCoefs g.entries s1 else s1
  (applyAgeing g.entries s2).onSec (applySecurity g.entries p.row)

/-- Tag 0x0030: the structural fields of the slots. -/
def applyPlan (es : List (BitVec 16 × List Byte)) (s : State) : State :=
  match entryOf es 0x0030 with
  | none => s
  | some _ => forAll (List.range 32) (fun i t => t.onSlot i (fun q =>
      let w := fun (k : Nat) => BitVec.ofNat 32 (planWord es i k)
      { slotField (slotWith q 0x08 (w 2)) 0x0C (w 3) with
        div := (w 0).extractLsb' 8 8, phase := (w 1).extractLsb' 0 14 })) s

/-- Tag 0x0032: valve channel v from field 70v, motor channel m from 300 + 8m, the fan slot and ceiling at 400. -/
def applyDrives (es : List (BitVec 16 × List Byte)) (s : State) : State :=
  match entryOf es 0x0032 with
  | none => s
  | some val =>
    let w := fun (k : Nat) => BitVec.ofNat 32 (Config.ledgerNat 0x0032 val k)
    let s1 := forAll (List.range 4) (fun v t =>
      let t1 := forAll (List.range 64) (fun k u => valveConfig v (0x100 + 4 * k) (w (70 * v + k)) u) t
      (valveConfig v 0x048 (w (70 * v + 64)) t1).onValve v (fun q => { q with
        r21 := (w (70 * v + 65)).extractLsb' 0 16, rth := (w (70 * v + 65)).extractLsb' 16 16
        tau := (w (70 * v + 66)).extractLsb' 0 16, iRed := (w (70 * v + 66)).extractLsb' 16 12
        amb := (w (70 * v + 66)).extractLsb' 28 3, ambv := (w (70 * v + 66)).getLsbD 31 })) s
    let s2 := forAll (List.range 6) (fun m t => t.onMotor m (fun q => { q with
      leased := (w (300 + 8 * m)).getLsbD 2, leakStop := (w (300 + 8 * m)).getLsbD 3
      freq := (w (301 + 8 * m)).extractLsb' 0 16, dead := (w (301 + 8 * m)).extractLsb' 16 8
      vmax := (w (302 + 8 * m)).extractLsb' 0 16, ilim := (w (302 + 8 * m)).extractLsb' 16 16
      poles := (w (303 + 8 * m)).extractLsb' 0 4, ppr := (w (303 + 8 * m)).extractLsb' 4 4
      rated := (w (303 + 8 * m)).extractLsb' 16 16 })) s1
    s2.onDrv (fun d => { d with
      ceil := (w 400).extractLsb' 0 16, tslot := (w 400).extractLsb' 16 5
      step := some ((w 401).extractLsb' 0 12), acMin := some ((w 401).extractLsb' 12 12) })

/-- Tag 0x0033: the configuration words of the inputs from field 0, and the ropes' EN at field 100. -/
def applyInputs (es : List (BitVec 16 × List Byte)) (s : State) : State :=
  match entryOf es 0x0033 with
  | none => s
  | some v =>
    let w := fun (k : Nat) => BitVec.ofNat 32 (Config.ledgerNat 0x0033 v k)
    let keys := List.range 20 ++ (List.range 8).map (· + 32)
    let s1 := forAll keys (fun k t => t.onInput k (fun q => { q with
      en := (w (2 * k)).getLsbD 0, mode := (w (2 * k)).getLsbD 1, supv := (w (2 * k)).getLsbD 2
      p1 := (w (2 * k)).extractLsb' 16 16, p2 := (w (2 * k + 1)).extractLsb' 0 16 })) s
    forAll (List.range 4) (fun r t => t.onRope r (fun q => { q with en := (w 100).getLsbD r })) s1

/-- Tag 0x0040: address, role, bit timing and lease groups; a group with channels starts in STANDBY (R454). -/
def applyBus (es : List (BitVec 16 × List Byte)) (s : State) : State :=
  match entryOf es 0x0040 with
  | none => s
  | some v =>
    let w := fun (k : Nat) => BitVec.ofNat 32 (Config.ledgerNat 0x0040 v k)
    let s1 := s.onCbus (fun c => { c with addr := (w 0).extractLsb' 0 6, role := (w 1).extractLsb' 0 2 })
    let s2 := forAll (canIfs s) (fun i t => t.onCan i (fun c => { c with
      nbt := w (2 + 2 * i) &&& 0x07FFFFFF, dbt := w (3 + 2 * i) &&& 0x03FFFFFF })) s1
    forAll (List.range 4) (fun g t => t.onGroup g (fun q =>
      let a := w (10 + 2 * g)
      let b := w (11 + 2 * g)
      { q with
        primary := a.getLsbD 3, partner := a.extractLsb' 4 6, motors := b.extractLsb' 0 6, valves := b.extractLsb' 8 4
        st := if b.extractLsb' 0 6 = 0 ∧ b.extractLsb' 8 4 = 0 then .unused else .standby })) s2

/-- The entries that take effect at a standby reset, applied as Cairn firmware starts (R511). -/
def applyStandby (s : State) : State :=
  let g := s.cairn.cur
  let p := plantOf g.entries
  let s1 := s.onCairn (fun c => { c with plantGen := g, plant := p })
  let s2 := s1.onHut (fun h => { h with m500 := p.m500 })
  let s3 := applyBus g.entries (applyInputs g.entries (applyDrives g.entries (applyPlan g.entries s2)))
  applyModuleReset (s3.onCairn (fun c => { c with inforce := {} }))

/-! ### The bytes of a generation (R509, R524) -/

def sha3 (bs : List Byte) : List Byte := (List.range 48).map (Config.sha3Byte bs)

def entryBytes (es : List (BitVec 16 × List Byte)) : List Byte :=
  es.flatMap (fun e => leBytes 2 e.1.toNat ++ leBytes 4 e.2.length ++ e.2)

/-- R509: header and entries. -/
def genBytes (g : Gen) : List Byte :=
  let b := entryBytes g.entries
  leBytes 4 g.num.toNat ++ leBytes 4 b.length ++ sha3 b ++ b

def genWords (g : Gen) : Nat := (genBytes g).length / 4 + (if (genBytes g).length % 4 = 0 then 0 else 1)

def genWord (g : Gen) (k : Nat) : Word := BitVec.ofNat 32 (leNat (padBytes 4 ((genBytes g).drop (4 * k))))

end Sys2Proof.Machine
end

