-- ==== Sys2Proof/Machine/RegMap.lean ====
section
/-! DEFINITION. The address map: which pages are present, their headers' constants and their interrupt bits (R525, R529,
R540). -/

namespace Sys2Proof.Machine

/-- A page of BAR0 by what it belongs to (R525). -/
inductive Blk where
  | global | cfgl | host (n : Nat) | core (n : Nat) | mesh | hbm (k : Nat) | ledge | fab (p : Nat) | fabCommon | pwr | thm
  | ctx | sec | loop | vlv | mtr | cbus | sens | mbox | log | dbg
  deriving DecidableEq, Repr

/-- R525: the page at a page number; none where the map has none or the variant does not ship it (R3, R526). -/
def blkAt (v : Variant) (p : Nat) : Option Blk :=
  if p = pgGlobal then some .global
  else if p = pgCfgl then some .cfgl
  else if 0x010 ≤ p ∧ p < 0x020 then some (.host (p - 0x010))
  else if 0x100 ≤ p ∧ p < 0x100 + 208 then some (.core (p - 0x100))
  else if p = pgMesh then some .mesh
  else if 0x210 ≤ p ∧ p < 0x210 + v.stacks then some (.hbm (p - 0x210))
  else if p = pgLedge then some .ledge
  else if 0x300 ≤ p ∧ p < 0x300 + v.ports then some (.fab (p - 0x300))
  else if p = pgFabCommon then some .fabCommon
  else if p = pgPwr then some .pwr
  else if p = pgThm then some .thm
  else if p = pgCtx then some .ctx
  else if p = pgSec then some .sec
  else if p = pgLoop then some .loop
  else if p = pgVlv then some .vlv
  else if p = pgMtr then some .mtr
  else if p = pgCbus then some .cbus
  else if p = pgSens then some .sens
  else if p = pgMbox then some .mbox
  else if p = pgLog then some .log
  else if p = pgDbg then some .dbg
  else none

/-- BLK_ID.TYPE, BLK_OWNER and the instance of a page (R525). -/
def Blk.ids : Blk → Nat × Nat × Nat
  | .global => (0x0001, 3, 0) | .cfgl => (0x0002, 1, 0) | .host n => (0x0010, 3, n) | .core n => (0x0020, 2, n)
  | .mesh => (0x0030, 2, 0) | .hbm k => (0x0031, 2, k) | .ledge => (0x0032, 2, 0) | .fab p => (0x0040, 2, p)
  | .fabCommon => (0x0041, 2, 0) | .pwr => (0x0050, 2, 0) | .thm => (0x0051, 2, 0) | .ctx => (0x0060, 2, 0)
  | .sec => (0x0061, 2, 0) | .loop => (0x0070, 1, 0) | .vlv => (0x0071, 1, 0) | .mtr => (0x0072, 1, 0)
  | .cbus => (0x0073, 1, 0) | .sens => (0x0074, 1, 0) | .mbox => (0x0075, 4, 0) | .log => (0x0076, 1, 0)
  | .dbg => (0x0080, 3, 0)

/-- The defined bits of BLK_INT_STAT. -/
def Blk.ints : Blk → Word
  | .global => 0x3 | .cfgl => 0 | .host n => if n = 0 then 0x7F else 0x5F | .core _ => 0xF | .mesh => 0x1F | .hbm _ => 0x1F
  | .ledge => 0x1F | .fab _ => 0x7F | .fabCommon => 0xF | .pwr => 0x1F | .thm => 0x3F | .ctx => 0x3F | .sec => 0xF
  | .loop => 0x1F | .vlv => 0xF | .mtr => 0x1F | .cbus => 0x7FF | .sens => 0xF | .mbox => 0x7 | .log => 0x7 | .dbg => 0x3

/-- R540: every defined enable bit of some pages is set. -/
def enableInts (ps : List Nat) (s : State) : State :=
  forAll ps (fun p t => match blkAt t.env.variant p with
    | some b => t.onHdr p (fun h => { h with en := b.ints })
    | none => t) s

/-- R492, R540: Cairn's mirror pages. -/
def mirrorPages : List Nat := [pgLoop, pgVlv, pgMtr, pgCbus, pgSens, pgLog]

/-- R540: the pages that camp-core firmware owns, the MBOX page with them. -/
def campPages : List Nat :=
  (List.range 208).map pgCore ++ [pgMesh] ++ (List.range 8).map pgHbm ++ [pgLedge] ++ (List.range 16).map pgFab
    ++ [pgFabCommon, pgPwr, pgThm, pgCtx, pgSec, pgMbox]

end Sys2Proof.Machine
end

