-- ==== Sys2Proof/Machine/Pages.lean ====
section
/-! DEFINITION. The common header of every page and the CTX page (R222, R529–R531). -/

namespace Sys2Proof.Machine

/-- The header registers that every page has alike (R529); BLK_CAP, BLK_CTL and BLK_STAT are the owning chapter's. -/
def hdrRead (s : State) (p : Nat) (b : Blk) (off : Nat) : Word :=
  let h := s.hdr p
  match off with
  | 0x000 => BitVec.ofNat 32 (b.ids.1 * 65536 + b.ids.2.2)
  | 0x004 => 0x100
  | 0x014 => h.stat
  | 0x018 => h.en
  | 0x020 => h.trans
  | 0x024 => h.perm
  | 0x028 => BitVec.ofNat 32 b.ids.2.1
  | _ => 0

/-- A write to a header register by a party that may write the page (R8, R531). -/
def hdrWrite (p : Nat) (b : Blk) (off : Nat) (v : Word) (s : State) : State :=
  match off with
  | 0x014 => s.onHdr p (fun h => { h with stat := h.stat &&& ~~~ v })
  | 0x018 => s.onHdr p (fun h => { h with en := v &&& b.ints })
  | 0x01C => if v &&& b.ints = 0 then s else raiseBits p (v &&& b.ints) s
  | _ => s

/-! ### The CTX page (R222) -/

def stateCode : CtxSt → Nat
  | .disabled => 0 | .enabled => 1 | .draining => 2 | .scrubbing => 3

/-- CTX_STATE of a context. -/
def ctxStateWord (s : State) (x : Nat) : Nat :=
  let c := s.cx x
  stateCode c.st + 8 * b2n (s.ctx.curEnt.mask.getLsbD x) + 16 * b2n c.ovr + 32 * b2n c.vfail +
  256 * min 255 (startedCount s x)

def SlotEnt.word (e : SlotEnt) : Nat := e.mask.toNat + 65536 * e.len.toNat

/-- The registers of the CTX page, as they read for a context (R222). A field that waits for the next slot boundary reads
as written. -/
def ctxRegs (s : State) (x off : Nat) : Nat :=
  let c := s.cx x
  let b := s.ctx
  if off = 0x008 then 16 + 64 * 256 + 256 * 65536
  else if off = 0x040 then b.sel.toNat
  else if off = 0x044 then ctxStateWord s x
  else if off = 0x04C then c.hbmBase.toNat + 65536 * c.hbmSize.toNat
  else if off = 0x050 then c.lmapIdx.toNat
  else if off = 0x054 then
    match fget none c.lmapPend c.lmapIdx.toNat with
    | some v => v.toNat + 65536
    | none => (fget 0 c.lmap c.lmapIdx.toNat).toNat
  else if off = 0x058 then c.saveEntry.toNat + 2 ^ 31 * b2n c.savev
  else if off = 0x05C then c.quota.toNat + 65536 * usedSlots s (Fin.ofNat 16 x)
  else if off = 0x060 then (c.capPend.getD c.cap).toNat
  else if off = 0x064 then c.ports.toNat
  else if off = 0x068 then (c.prioPend.getD c.prio).toNat
  else if 0x06C ≤ off ∧ off < 0x084 then fld c.teamNow.toNat (32 * ((off - 0x06C) / 4)) 32
  else if off = 0x084 then c.barIdx.toNat
  else if off = 0x088 then (fget 0 c.bars c.barIdx.toNat).toNat
  else if off = 0x08C then c.progress.toNat + 2 ^ 31 * b2n c.scrubActive
  else if off = 0x090 then b.refReason.toNat + 256 * b.refCtx.toNat
  else if off = 0x100 then (b.livePend.getD b.liveCnt).toNat + 65536 * b.shadowCnt.toNat
  else if off = 0x104 then b.cur.toNat + 256 * b.left.toNat
  else if off = 0x108 then b2n b.swap
  else if 0x200 ≤ off ∧ off < 0x300 then (fget {} b.live ((off - 0x200) / 4)).word
  else if 0x300 ≤ off ∧ off < 0x400 then (fget {} b.shadow ((off - 0x300) / 4)).word
  else if off = 0x400 then b.sqSel.toNat
  else if off = 0x404 then
    let q := fget {} b.sqs b.sqSel.toNat
    match q.ctx with
    | none => 0
    | some y => (if q.releasing then 2 else 1) + 16 * y.val
  else 0

/-- R222: a write to the CTX page for a context. -/
def ctxRegWrite (x off : Nat) (v : Word) (s : State) : State :=
  if off = 0x040 then s.onCtxBlk (fun b => { b with sel := BitVec.ofNat 4 v.toNat })
  else if off = 0x044 then
    s.onCx x (fun c => { c with ovr := c.ovr && !v.getLsbD 4, vfail := c.vfail && !v.getLsbD 5 })
  else if off = 0x048 then when (v.getLsbD 1) (disableCtx x) (when (v.getLsbD 0) (enableCtx x) s)
  else if 0x06C ≤ off ∧ off < 0x084 then writeTeam x ((off - 0x06C) / 4) v s
  else if off = 0x084 then s.onCx x (fun c => { c with barIdx := BitVec.ofNat 6 v.toNat })
  else if off = 0x088 then writeBar x (s.cx x).barIdx.toNat v s
  else if off = 0x100 then writeCounts x v s
  else if off = 0x108 then when (v.getLsbD 0) (State.onCtxBlk (fun b => { b with swap := true })) s
  else if 0x200 ≤ off ∧ off < 0x300 then writeLive x ((off - 0x200) / 4) v s
  else if 0x300 ≤ off ∧ off < 0x400 then writeShadow x ((off - 0x300) / 4) v s
  else if off = 0x400 then s.onCtxBlk (fun b => { b with sqSel := BitVec.ofNat 8 v.toNat })
  else writeChecked x (partitionRefusal s x off v) (partitionTake x off v) s

end Sys2Proof.Machine
end

