-- ==== Sys2Proof/Machine/Host.lean ====
section
/-! DEFINITION. Submission commands, window pages, rings, completions, TDISP and the resets of the host attachment
(R111, R181, R286–R318, R482). -/

namespace Sys2Proof.Machine

/-! ### The checks before a command (R187, R306) -/

/-- A command that only a virtual function may issue: refused from the physical function, and by the state of the
context; else it acts for its context. -/
def forContext (src : CmdSrc) (act : CtxId → State → State) (s : State) : State :=
  if src.fn.val = 0 then finishGeneric src .denied 0 s
  else
    let x : CtxId := Fin.ofNat 16 (src.fn.val - 1)
    match (s.cx x.val).st with
    | .scrubbing => finishGeneric src .scrubbing 0 s
    | .enabled => act x s
    | _ => finishGeneric src .denied 0 s

/-! ### PITCH (R111, R194, R482) -/

/-- R482: while a context is SEALED, its pitches run the sealed program and write outside the range. -/
def sealAllows (s : State) (x : Nat) (d : PitchDesc) : Bool :=
  let c := s.sx x
  !c.sealedCtx ||
  (gaSpace d.progBase == 2 && decide (c.base.toNat * 2 ^ 21 ≤ gaOff d.progBase) &&
    decide (gaOff d.progBase + 8 * d.progLen.toNat ≤ (c.base.toNat + c.size.toNat) * 2 ^ 21) &&
    d.used.all (fun r => !r.isOut || !meetsSealed s x (gaSpace r.base) (gaOff r.base) r.len.toNat))

/-- R111, from row 4: the status that refuses a descriptor, if any. -/
def descRefusal (s : State) (x : Nat) (bs : List Byte) (d : PitchDesc) : Option Status :=
  if d.fw then some .denied
  else if !descFieldsOk bs d then some .denied
  else if descOverlap d then some .denied
  else if !sealAllows s x d then some .denied
  else if descBeyond (s.cx x) d then some .footprint
  else none

/-- A pitch of a context's function, checked and queued for its logical core. -/
def submitPitch (src : CmdSrc) (x : CtxId) (lcore : Byte) (a : DWord) (s : State) : State :=
  let no := fun st id => refusePitch src st lcore id x.val
  if s.fence.logicalCount ≤ lcore.toNat ∨ !(s.cx x.val).team.getLsbD lcore.toNat then no .denied 0 s
  else if (s.sx x.val).sealedCtx ∧ !(s.sx x.val).complete then no .denied 0 s
  else if !gaOk a then no .denied 0 s
  else if !inPartition (s.cx x.val) (gaSpace a) (gaOff a) 128 then no .footprint 0 s
  else
    match gaRead s x.val a 128 with
    | none => no .crc 0 (failedRead x.val (gaSpace a) (gaOff a) 128 s)
    | some bs =>
      let d := PitchDesc.ofBytes bs
      match descRefusal s x.val bs d with
      | some st => no st d.id s
      | none =>
        s.onCx x.val (fun c => { c with queue := c.queue ++ [{ desc := d, ctx := x, lcore := lcore, src := some src }] })

/-- PITCH (R111): its refusals carry the pitch record of R569. -/
def pitchCmd (src : CmdSrc) (lcore : Byte) (desc : DWord) (s : State) : State :=
  if src.fn.val = 0 then refusePitch src .denied lcore 0 0 s
  else
    let x : CtxId := Fin.ofNat 16 (src.fn.val - 1)
    match (s.cx x.val).st with
    | .scrubbing => refusePitch src .scrubbing lcore 0 x.val s
    | .enabled => submitPitch src x lcore desc s
    | _ => refusePitch src .denied lcore 0 x.val s

def execPitch (src : CmdSrc) (lcore : Byte) (desc : DWord) (s : State) : Res := .next (pitchCmd src lcore desc s)

/-! ### COLL, WCOPY, BIND, UNBIND, ADMIT, NOP -/

/-- COLL (R271). -/
def execColl (src : CmdSrc) (d : List Byte) (s : State) : Res :=
  .next (forContext src (fun x => submitColl src x d) s)

/-- WCOPY (R274). -/
def execWcopy (src : CmdSrc) (op : Byte) (rank : BitVec 16) (addr off len : DWord) (s : State) : Res :=
  .next (forContext src (fun x => submitWcopy src x op.toNat rank.toNat addr off len) s)

/-- BIND (R210). -/
def execBind (src : CmdSrc) (s : State) : Res := .next (forContext src (submitBind src) s)

/-- UNBIND (R211). -/
def execUnbind (src : CmdSrc) (slot : BitVec 16) (s : State) : Res :=
  .next (forContext src (fun x => submitUnbind src x slot.toNat) s)

/-- R181: the declared footprints against the context's partitions. -/
def admitCmd (src : CmdSrc) (x : CtxId) (hbm : DWord) (ledge : Word) (s : State) : State :=
  let c := s.cx x.val
  let gs := (c.lmap.filter (fun e => e.2.getLsbD 15)).length
  finishGeneric src (if hbm.toNat ≤ c.hbmSize.toNat * unit64M ∧ ledge.toNat ≤ gs then .ok else .footprint) 0 s

/-- ADMIT (R181). -/
def execAdmitCmd (src : CmdSrc) (hbm : DWord) (ledge : Word) (s : State) : Res :=
  .next (forContext src (fun x => admitCmd src x hbm ledge) s)

/-- R304: a NOP waits for every earlier command of its ring. -/
def nopWait (src : CmdSrc) (s : State) : State :=
  let s1 := s.onSq src.fn.val src.sq.val (fun q =>
    if q.inFlight.contains src.index then q else { q with inFlight := q.inFlight ++ [src.index] })
  let s2 := s1.onFn src.fn.val (fun h => { h with nops := h.nops ++ [src] })
  drainNops ((s2.fn src.fn.val).nops.length) src.fn.val src.sq.val s2

/-- NOP (R304). -/
def execNop (src : CmdSrc) (s : State) : Res :=
  .next (if src.fn.val = 0 then nopWait src s else forContext src (fun _ => nopWait src) s)

/-! ### WPAGE (R296, R305, R313, R318, R482) -/

def pageCode (n : Nat) : PageSt := if n = 1 then .host else if n = 2 then .device else .none

/-- R305: the absolute pages that a function names, where they lie in one context's range. -/
def pagesOf (fn first count : Nat) : Option (List Nat) :=
  if count = 0 ∨ 512 < count then none
  else if fn = 0 then
    if first / 512 = (first + count - 1) / 512 ∧ first + count ≤ 8192 then
      some ((List.range count).map (fun i => first + i)) else none
  else if first + count ≤ 512 then some ((List.range count).map (fun i => 512 * (fn - 1) + first + i))
  else none

/-- R296, R482: the status that refuses one page's transition, if any; `t` is the target it would take. -/
def pageRefusal (s : State) (k : Nat) (want : PageSt) (t : Nat) : Option Status :=
  let p := s.page k
  let x := k / 512
  if p.st = want ∧ p.pend.isNone then none
  else if p.pend.isSome then some .denied
  else
    match p.st, want with
    | .none, .host =>
      if (s.cx x).st = .scrubbing then some .scrubbing
      else if (s.cx x).st ≠ .enabled then some .denied
      else if meetsSealed s x 2 (t * 2 ^ 21) (2 ^ 21) then some .denied
      else if (s.cx x).hbmSize.toNat * unit64M < (t + 1) * 2 ^ 21 then some .footprint
      else none
    | .none, .device => some .denied
    | _, _ => none

/-- R13: the status that comes first. -/
def firstOf (sts : List Status) : Option Status :=
  if sts.contains .scrubbing then some .scrubbing
  else if sts.contains .denied then some .denied
  else sts.head?

/-- R296: one page of an accepted command changes, or begins to. -/
def changePage (k : Nat) (want : PageSt) (t : Nat) (s : State) : State :=
  let p := s.page k
  if p.st = want then s
  else if p.st = .none then s.setPage k { st := want, target := BitVec.ofNat 18 t, pend := none }
  else s.setPage k { p with pend := some want }

/-- WPAGE: every page is checked before any changes. -/
def wpageCmd (src : CmdSrc) (first count st : Nat) (target : Word) (s : State) : State :=
  match pagesOf src.fn.val first count with
  | none => finishGeneric src .denied 0 s
  | some ks =>
    let x := ks.headD 0 / 512
    if 2 < st ∨ (src.fn.val = 0 ∧ (s.fn (fnOf x)).tdi ≠ .unlocked) then finishGeneric src .denied 0 s
    else
      let want := pageCode st
      let no := ks.zipIdx.filterMap (fun (k, i) => pageRefusal s k want (target.toNat + i))
      match firstOf no with
      | some bad => finishGeneric src bad 0 s
      | none =>
        let s1 := forAll ks.zipIdx (fun (k, i) t => changePage k want (target.toNat + i) t) s
        let wait := ks.filter (fun k => (s1.page k).pend.isSome)
        if wait = [] then finishGeneric src .ok 0 s1
        else s1.onHost (fun h => { h with wcmds := h.wcmds ++ [⟨src, wait⟩] })

/-- WPAGE (R296). -/
def execWpage (src : CmdSrc) (first count : BitVec 16) (st : Byte) (target : Word) (s : State) : Res :=
  .next (if src.fn.val = 0 then wpageCmd src first.toNat count.toNat st.toNat target s
    else forContext src (fun _ => wpageCmd src first.toNat count.toNat st.toNat target) s)

/-- A descriptor's segment or a region of it overlaps the bytes of a page. -/
def overlapsPage (p : WinPage) (d : PitchDesc) : Bool :=
  (d.segment :: d.used).any (fun r =>
    gaSpace r.base == 2 && rangesMeet (p.target.toNat * 2 ^ 21) (2 ^ 21) (gaOff r.base) r.len.toNat)

/-- R296: a pitch of the page's context that has been dispatched and not completed overlaps it. -/
def pageInUse (s : State) (k : Nat) : Bool :=
  let x := k / 512
  let hit := fun (j : PitchJob) => j.ctx.val == x && overlapsPage (s.page k) j.desc
  s.cores.any (fun e => (e.2.run.any (fun r => hit r.job)) || e.2.next.any hit) ||
  (s.cx x).saved.any (fun e => (e.2.bind (·.run)).any (fun r => hit r.job))

/-- A page's waiting transition takes effect, and the commands that waited for it last complete. -/
def pageTurn (k : Nat) (s : State) : State :=
  let p := s.page k
  match p.pend with
  | none => s
  | some want =>
    if p.st = .device ∧ pageInUse s k then s
    else
      let s1 := s.setPage k { st := want, target := if want = .none then 0 else p.target, pend := none }
      let left := s1.host.wcmds.map (fun w => { w with pages := w.pages.erase k })
      forAll (left.filter (fun w => w.pages.isEmpty)) (fun w t => finishGeneric w.cmd .ok 0 t)
        (s1.onHost (fun h => { h with wcmds := left.filter (fun w => !w.pages.isEmpty) }))

/-- WPAGE_TRANSITION (R296). -/
def execWpageTransition (page : BitVec 13) (s : State) : Res := .next (pageTurn page.toNat s)

/-! ### CTXRD and CTXWR (R304, R306, R313) -/

/-- R313: a field of the CTX page that a locked TDI closes. -/
def lockedField (off : Nat) : Bool :=
  off == 0x04C || off == 0x054 || off == 0x058 || off == 0x05C || off == 0x064 || off == 0x088

/-- The reason to refuse a write of the CTX page through CTXWR, if there is one. -/
def ctxwrRefusal (s : State) (x off : Nat) (v : Word) : Option Nat :=
  if lockedField off && (s.fn (fnOf x)).tdi != .unlocked then some 4
  else if off = 0x048 then (if v.getLsbD 0 && (s.cx x).st != .disabled then some 4 else none)
  else if 0x06C ≤ off ∧ off < 0x084 then teamRefusal s x (setTeamWord (s.cx x).teamNow ((off - 0x06C) / 4) v)
  else if off = 0x088 then (if startedCount s x = 0 then none else some 4)
  else if off = 0x100 then countRefusal v
  else if 0x200 ≤ off ∧ off < 0x400 then entryRefusal s v
  else partitionRefusal s x off v

/-- R306: an offset or a context that the admin commands may name. -/
def ctxOperandsOk (src : CmdSrc) (ctx off : Nat) : Bool :=
  src.fn.val == 0 && decide (ctx < 16) && off % 4 == 0 && decide (off < 0x1000)

/-- CTXRD (R304). -/
def ctxrdCmd (src : CmdSrc) (ctx off : Nat) (s : State) : State :=
  if !ctxOperandsOk src ctx off then finishGeneric src .denied 0 s
  else finishGeneric src .ok (if off < 0x040 ∧ off ≠ 0x008 then (hdrRead s pgCtx .ctx off).toNat else ctxRegs s ctx off) s

def execCtxrd (src : CmdSrc) (ctx : Byte) (off : BitVec 16) (s : State) : Res :=
  .next (ctxrdCmd src ctx.toNat off.toNat s)

/-- CTXWR (R304). -/
def ctxwrCmd (src : CmdSrc) (x off : Nat) (v : Word) (s : State) : State :=
  match ctxwrRefusal s x off v with
  | some r => finishGeneric src .denied 0 (refuseWrite x r s)
  | none =>
    finishGeneric src .ok 0 (if off < 0x040 then hdrWrite pgCtx .ctx off v s else ctxRegWrite x off v s)

def execCtxwr (src : CmdSrc) (ctx : Byte) (off : BitVec 16) (v : Word) (s : State) : Res :=
  .next (if !ctxOperandsOk src ctx.toNat off.toNat then finishGeneric src .denied 0 s
    else ctxwrCmd src ctx.toNat off.toNat v s)

/-! ### Doorbells and ring enables (R298, R299, R301) -/

/-- The rings that a function has: the physical function has one pair (R298). -/
def hasRing (f : Nat) (i : Nat) : Bool := decide (0 < f) || i == 0

/-- A ring error of a function: its bit, and the count of its page (R319). -/
def ringError (f b : Nat) (s : State) : State :=
  raise (fnPage f) b (if f = 0 then s else errTrans (fnPage f) s)

/-- R301: a TAIL write. -/
def sqDoorbell (f i : Nat) (v : Word) (s : State) : State :=
  let q := s.sq f i
  let t : BitVec 16 := v.setWidth 16
  if !q.en ∨ q.st = 2 then s
  else if 2 ^ q.log2.toNat < (t - q.head).toNat ∨ (t - q.head).toNat < (q.tail - q.head).toNat then
    ringError f 1 (s.onSq f i (fun q => { q with err := 2 }))
  else s.onSq f i (fun q => { q with tail := t })

/-- R314: a TDI in ERROR rejects its function's requests. -/
def rejects (s : State) (f : Nat) : Bool := decide (0 < f) && (s.fn f).tdi == .error

def unsupported (s : State) : State := s.setReply { unsupported := true }

/-- SQ_DOORBELL (R301). -/
def execSqDoorbell (f : FnId) (i : RingId) (v : Word) (s : State) : Res :=
  .next (if rejects s f.val then unsupported s else if hasRing f.val i.val then sqDoorbell f.val i.val v s else s)

/-- R301: a LIMIT write. -/
def cqDoorbell (f i : Nat) (v : Word) (s : State) : State :=
  let q := s.cq f i
  let l : BitVec 16 := v.setWidth 16
  if !q.en then s
  else if 2 ^ q.log2.toNat < (l - q.tail).toNat ∨ (l - q.tail).toNat < (q.limit - q.tail).toNat then
    ringError f 2 (s.onCq f i (fun q => { q with err := true }))
  else s.onCq f i (fun q => { q with limit := l })

/-- CQ_DOORBELL (R301). -/
def execCqDoorbell (f : FnId) (i : RingId) (v : Word) (s : State) : Res :=
  .next (if rejects s f.val then unsupported s else if hasRing f.val i.val then cqDoorbell f.val i.val v s else s)

/-- R298: LOG2SIZE as it stands after a write: taken while EN is clear, where it is valid. -/
def newLog2 (en : Bool) (old : BitVec 5) (v : Word) : BitVec 5 :=
  let w := fld v.toNat 0 5
  if en || decide (w < 4) || decide (15 < w) then old else BitVec.ofNat 5 w

def validLog2 (k : BitVec 5) : Bool := decide (4 ≤ k.toNat ∧ k.toNat ≤ 15)

/-- A write of SQ_CFG (R298, R319). -/
def writeSqCfg (f i : Nat) (v : Word) (s : State) : State :=
  let q := s.sq f i
  let k := newLog2 q.en q.log2 v
  let c : BitVec 2 := if f = 0 then 0 else BitVec.ofNat 2 (v.toNat / 32)
  let q1 := { q with log2 := k, cq := c }
  if !v.getLsbD 8 then s.onSq f i (fun _ => { q1 with en := false, st := 0 })
  else if q.en then s.onSq f i (fun _ => q1)
  else if validLog2 k then s.onSq f i (fun _ => { q1 with en := true, st := 1, err := 0, head := 0, tail := 0 })
  else ringError f 1 (s.onSq f i (fun _ => { q1 with err := 4 }))

/-- SQ_ENABLE (R298). -/
def execSqEnable (f : FnId) (i : RingId) (v : Word) (s : State) : Res :=
  .next (if rejects s f.val then unsupported s else if hasRing f.val i.val then writeSqCfg f.val i.val v s else s)

/-- A write of CQ_CFG (R298, R319). -/
def writeCqCfg (f i : Nat) (v : Word) (s : State) : State :=
  let q := s.cq f i
  let k := newLog2 q.en q.log2 v
  let q1 := { q with log2 := k, vec := BitVec.ofNat 7 (v.toNat / 256), coalCnt := BitVec.ofNat 8 (v.toNat / 65536) }
  if !v.getLsbD 31 then s.onCq f i (fun _ => { q1 with en := false })
  else if q.en then s.onCq f i (fun _ => q1)
  else if validLog2 k then s.onCq f i (fun _ => { q1 with en := true, tail := 0, limit := 0, since := 0 })
  else ringError f 2 (s.onCq f i (fun _ => { q1 with err := true }))

/-- CQ_ENABLE (R298). -/
def execCqEnable (f : FnId) (i : RingId) (v : Word) (s : State) : Res :=
  .next (if rejects s f.val then unsupported s else if hasRing f.val i.val then writeCqCfg f.val i.val v s else s)

/-! ### Completions (R307, R309, R310) -/

/-- The 64 bytes of a completion entry. -/
def HoldRec.bytes (r : HoldRec) : List Byte :=
  (r.record ++ List.replicate (32 - r.record.length) 0).take 32 ++ [r.kind, r.sq] ++ leBytes 2 r.index.toNat ++
  leBytes 4 r.tag.toNat ++ List.replicate 24 0

/-- R310: entries posted since the last signal reach COAL_CNT, 0 meaning every entry. -/
def coalesce (f i : Nat) (s : State) : State :=
  let q := s.cq f i
  if q.coalCnt.toNat ≤ q.since then sendVec f q.vec.toNat (s.onCq f i (fun q => { q with since := 0 })) else s

/-- R299, R309: the oldest record of a ring is written into a device-owned entry, with O clear. -/
def postOne (f i : Nat) (s : State) : State :=
  let q := s.cq f i
  match (s.fn f).hold.find? (fun r => r.cq.toNat == i) with
  | none => s
  | some r =>
    if q.owned = 0 then s
    else
      let a := q.base.toNat + 64 * (q.tail.toNat % 2 ^ q.log2.toNat)
      let s1 := s.onFn f (fun h => { h with hold := h.hold.erase r })
      let s2 := s1.onHost (fun h => { h with mem := memPut h.mem a r.bytes })
      coalesce f i (s2.onCq f i (fun q => { q with tail := q.tail + 1, since := q.since + 1 }))

/-- COMPLETION_POST (R309). -/
def execCompletionPost (f : FnId) (i : RingId) (s : State) : Res := .next (postOne f.val i.val s)

/-- COAL_TIME_EXPIRY (R310). -/
def coalExpiry (f i : Nat) (s : State) : State :=
  let q := s.cq f i
  if q.since = 0 ∨ q.coalTime = 0 then s else sendVec f q.vec.toNat (s.onCq f i (fun q => { q with since := 0 }))

def execCoalTimeExpiry (f : FnId) (i : RingId) (s : State) : Res := .next (coalExpiry f.val i.val s)

/-! ### The window (R291, R292, R313) -/

/-- The page at a BAR2 offset of a function. -/
def windowPage (f off : Nat) : Option Nat :=
  if f = 0 then (if off < 2 ^ 34 then some (off / 2 ^ 21) else none)
  else if off < 2 ^ 30 then some (512 * (f - 1) + off / 2 ^ 21) else none

/-- R292, R318: a function may reach a page. -/
def pageOpen (s : State) (f k : Nat) : Bool :=
  let tdi := (s.fn (fnOf (k / 512))).tdi
  (s.page k).st == .host && (s.page k).pend.isNone && (if f = 0 then tdi == .unlocked else tdi != .error)

/-- R292: a refused access is counted; a read answers as an Unsupported Request. -/
def refuseWindow (f : Nat) (read : Bool) (s : State) : State :=
  let s1 := s.onFn f (fun h => { h with winRefused := satInc h.winRefused })
  let s2 := raise (fnPage f) 3 (if f = 0 then s1 else errTrans (fnPage f) s1)
  if read then unsupported s2 else s2.setReply {}

/-- R291: the byte of a context's partition at a BAR2 offset in page `k`. -/
def windowByte (s : State) (k off : Nat) : Nat := (s.page k).target.toNat * 2 ^ 21 + off % 2 ^ 21

/-- A write of bytes that lie in pages `k` and `k2`: each page's part goes to that page's target. -/
def windowWrite (k k2 off : Nat) (bs : List Byte) (s : State) : State :=
  if k2 = k then gwrite (k / 512) 2 (windowByte s k off) bs s
  else
    let n := 2 ^ 21 - off % 2 ^ 21
    gwrite (k2 / 512) 2 (windowByte s k2 0) (bs.drop n) (gwrite (k / 512) 2 (windowByte s k off) (bs.take n) s)

/-- A read of bytes that lie in pages `k` and `k2`. -/
def windowRead (k k2 off len : Nat) (s : State) : State :=
  let n := if k2 = k then len else min len (2 ^ 21 - off % 2 ^ 21)
  match gread s (k / 512) 2 (windowByte s k off) n with
  | none => unsupported (failedRead (k / 512) 2 (windowByte s k off) n s)
  | some bs =>
    if k2 = k then s.setReply { bytes := bs }
    else
      match gread s (k2 / 512) 2 (windowByte s k2 0) (len - n) with
      | none => unsupported (failedRead (k2 / 512) 2 (windowByte s k2 0) (len - n) s)
      | some cs => s.setReply { bytes := bs ++ cs }

/-- A window access: refused where either of the pages it meets is not open to the function. -/
def windowAccess (f : Nat) (tee : Bool) (off len : Nat) (data : Option (List Byte)) (s : State) : State :=
  if 0 < f && (s.fn f).tdi == .run && !tee then unsupported s
  else
    match windowPage f off, windowPage f (off + len - 1) with
    | some k, some k2 =>
      if !pageOpen s f k || !pageOpen s f k2 then refuseWindow f data.isNone s
      else
        match data with
        | some bs => (windowWrite k k2 off (bs.take len) s).setReply {}
        | none => windowRead k k2 off len s
    | _, _ => unsupported s

/-- WINDOW_ACCESS (R292). -/
def execWindowAccess (f : FnId) (tee : Bool) (off : BitVec 34) (len : Nat) (data : Option (List Byte)) (s : State) : Res :=
  .next (windowAccess f.val tee off.toNat len data s)

/-! ### Resets (R315, R316, R541) -/

/-- The rings of a function as a reset leaves them; commands already consumed run on. -/
def FnHost.ringsReset (h : FnHost) : FnHost :=
  { h with
    sqs := (h.sqs.map (fun e => (e.1, { inFlight := e.2.inFlight }))).filter (fun e => e.2 != {})
    cqs := [], vecs := [] }

/-- A TDI enters ERROR (R311, R315). -/
def tdiError (x : Nat) (s : State) : State :=
  raise (pgHost x) 4 (s.onFn (fnOf x) (fun h => { h with tdi := .error }))

/-- HOST_LINK_RESET (R315, R541). -/
def hostLinkReset (flr : Bool) (s : State) : State :=
  let s1 := forAll (List.range 17) (fun f t => t.onFn f FnHost.ringsReset) s
  let s2 := forAll (List.range 16) (fun x t =>
    let d := (t.fn (fnOf x)).tdi
    if d = .locked ∨ d = .run then tdiError x t else t) s1
  let s3 := s2.onHost (fun h => { h with
    linkRst := satInc h.linkRst, ideLink := false, ideSel := 0, ideKeys := [], up := h.up && flr })
  let s4 := errPerm (pgHost 0) s3
  let s5 := s4.onGlob (fun g => { g with pend := 0, routes := [] })
  (s5.onHdr pgGlobal (fun h => { h with stat := 0, en := 0 })).onHdr pgPf (fun h => { h with stat := 0, en := 0 })

def execHostLinkReset (flr : Bool) (s : State) : Res := .next (hostLinkReset flr s)

/-- PCIE_LINK_UP (R287): 128 and 64 GT/s run in flit mode (R286). -/
def linkUp (rate : Nat) (width : BitVec 5) (s : State) : State :=
  let h := s.host
  if h.up && h.rate.toNat == rate && h.width == width then s
  else
    raise (pgHost 0) 5 (raise pgPf 4 (s.onHost (fun h => { h with
      up := true, rate := BitVec.ofNat 2 rate, width := width, flit := decide (0 < rate) })))

def execPcieLinkUp (rate : Fin 3) (width : BitVec 5) (s : State) : Res := .next (linkUp rate.val width s)

/-- VF_FLR (R316). -/
def vfFlr (x : Nat) (s : State) : State :=
  let s1 := s.onFn (fnOf x) (fun h => { h.ringsReset with flr := true })
  if (s1.cx x).st = .disabled then reachDisabled x s1 else disableCtx x s1

def execVfFlr (x : CtxId) (s : State) : Res := .next (vfFlr x.val s)

/-! ### IDE and TDISP (R311–R314) -/

/-- IDE_INTEGRITY_FAILURE (R311): stream 0 is the link stream, 1–4 the selective ones. -/
def ideFailure (stream : Nat) (bound : BitVec 16) (s : State) : State :=
  let s1 := s.onHost (fun h => { h with
    ideLink := h.ideLink && stream != 0
    ideSel := if stream = 0 then h.ideSel else h.ideSel &&& ~~~ (1#4 <<< (stream - 1))
    aerFatal := h.aerFatal + 1 })
  forAll (List.range 16) (fun x t =>
    if bound.getLsbD x ∧ (t.fn (fnOf x)).tdi ≠ .unlocked ∧ (t.fn (fnOf x)).tdi ≠ .error then tdiError x t else t) s1

def execIdeIntegrityFailure (stream : Fin 5) (bound : BitVec 16) (s : State) : Res :=
  .next (ideFailure stream.val bound s)

/-- IDE_KM (R311): keys come inside a secured session of the DOE mailbox. -/
def ideKm (sess stream : Nat) (s : State) : State :=
  if !(fget {} s.sec.doe sess).isOpen then s.setReply { status := some .denied }
  else
    (s.onHost (fun h => { h with
      ideKeys := stream :: h.ideKeys.erase stream
      ideLink := h.ideLink || stream == 0
      ideSel := if stream = 0 then h.ideSel else h.ideSel ||| (1#4 <<< (stream - 1)) })).setReply { status := some .ok }

def execIdeKm (sess : Fin 4) (stream : Fin 5) (s : State) : Res := .next (ideKm sess.val stream.val s)

def tdiCode : Tdi → Nat
  | .unlocked => 0 | .locked => 1 | .run => 2 | .error => 3

/-- LOCK_INTERFACE (R313). -/
def lockTdi (x : Nat) (s : State) : State :=
  if (s.fn (fnOf x)).tdi = .unlocked then
    (s.onFn (fnOf x) (fun h => { h with tdi := .locked })).setReply { status := some .ok }
  else s.setReply { status := some .denied }

def execLockInterface (x : CtxId) (s : State) : Res := .next (lockTdi x.val s)

/-- START_INTERFACE (R313). -/
def startTdi (x : Nat) (s : State) : State :=
  if (s.fn (fnOf x)).tdi = .locked then
    (s.onFn (fnOf x) (fun h => { h with tdi := .run })).setReply { status := some .ok }
  else s.setReply { status := some .denied }

def execStartInterface (x : CtxId) (s : State) : Res := .next (startTdi x.val s)

/-- STOP_INTERFACE (R314). -/
def stopTdi (x : Nat) (s : State) : State :=
  let s1 := if (s.cx x).st = .disabled then s.onFn (fnOf x) (fun h => { h with tdi := .unlocked }) else disableCtx x s
  s1.setReply { status := some .ok }

def execStopInterface (x : CtxId) (s : State) : Res := .next (stopTdi x.val s)

/-- GET_DEVICE_INTERFACE_STATE (R312). -/
def execGetDeviceInterfaceState (x : CtxId) (s : State) : Res :=
  .next (s.setReply { status := some .ok, value := BitVec.ofNat 64 (tdiCode (s.fn (fnOf x.val)).tdi) })

end Sys2Proof.Machine
end

