-- ==== Sys2Proof/Machine/Power.lean ====
section
/-! DEFINITION. Power tokens: the epoch boundary, installments, debits, caps, the fallback and THROTTLE_N (R320–R350). -/

namespace Sys2Proof.Machine

/-- R352: an event of the arbiter: the unit as its value, the epoch as its argument. -/
def pwrEvent (code unit : Nat) (s : State) : State := campEvent code unit s.pwr.epoch.toNat s

/-! ### The budget (R322, R343–R347) -/

/-- The sum of the budgets of the last `n` epochs of a run-length history, newest first. -/
def sumLast : Nat → List (Nat × Nat) → Nat
  | _, [] => 0
  | n, (b, k) :: h => if n ≤ k then b * n else b * k + sumLast (n - k) h

/-- A history with one epoch more, cut to `n` epochs. -/
def pushHist (b : Nat) (h : List (Nat × Nat)) : List (Nat × Nat) :=
  match h with
  | (b', k) :: t => if b' = b then (b', k + 1) :: t else (b, 1) :: h
  | [] => [(b, 1)]

/-- What lies beyond the first `n` epochs goes. -/
def trimHist : Nat → List (Nat × Nat) → List (Nat × Nat)
  | _, [] => []
  | n, (b, k) :: h => if n = 0 then [] else if n ≤ k then [(b, n)] else (b, k) :: trimHist (n - k) h

/-- R322: PEAK while the sum of B over the preceding 100,000 epochs is below RATED × 100,000, else RATED. -/
def ratingCap (s : State) : Nat :=
  let v := s.env.variant
  if sumLast 100000 s.pwr.hist < v.rated * 100000 then v.peak else v.rated

/-- A cap register as a cap: 4,095 is none. -/
def capOf (c : BitVec 12) : Option Nat := if c = 4095 then none else some c.toNat

/-- The caps in force, each with its code in BLK_STAT.BIND (R322, R353). -/
def capsInForce (s : State) : List (Nat × Nat) :=
  let c := s.pwr.committed
  let app := !s.sec.profileRow
  let of := fun (k : Nat) (b : Bool) (x : Option Nat) => if b then (x.map (fun y => (k, y))).toList else []
  [(0, ratingCap s)] ++ of 1 true (capOf c.board) ++ of 2 true (capOf c.cool) ++ of 3 app (capOf c.socket) ++
  of 4 app (capOf c.acoust) ++ of 5 s.pwr.throttle (capOf c.thr) ++ of 6 s.pwr.fallback (some s.env.variant.fallbackCap)

/-- The least cap, and the lowest code among equals. -/
def leastCap (cs : List (Nat × Nat)) : Nat × Nat :=
  cs.foldl (fun b c => if c.2 < b.2 then c else b) (cs.headD (0, 0))

/-- R341: while METER_SAT is set, the budget is divided by the last r. -/
def budgetOf (p : PwrBlk) (b : Nat) : Nat := if p.meterSat then b * p.lastR.2 / max 1 p.lastR.1 else b

/-- A number divided by another, rounded up. -/
def ceilDiv (a b : Nat) : Nat := (a + b - 1) / b

def baseOf (s : State) : Nat := (s.pwr.fixedBase.map (·.toNat)).getD s.env.variant.base
def meshResOf (s : State) : Nat := (s.pwr.resMesh.map (·.toNat)).getD s.env.variant.meshRes

/-- R325: the fixed reservation, in tokens. -/
def fixedRes (s : State) (b : Nat) : Nat := min b (baseOf s + ceilDiv (b * s.pwr.lossPm.toNat) 1000)

/-- R328: the standing reservations asked for, in tokens. -/
def standingReq (s : State) : Nat :=
  let v := s.env.variant
  v.stacks * s.pwr.resHbm.toNat + v.dies * s.pwr.resLedge.toNat + meshResOf s + v.ports * s.pwr.resFab.toNat +
  s.pwr.resHostl.toNat

/-- R325: the standing reservations granted, in tokens. -/
def standing (s : State) (b f : Nat) : Nat := min (standingReq s) ((b - f) * s.pwr.srMax.toNat / 1000)

/-- R325, R329, R346: every class reservation, in 1/256 token. -/
def classRes (s : State) (b f : Nat) : ClassRes :=
  let v := s.env.variant
  let req := standingReq s
  let st := standing s b f
  let one := fun d => if s.pwr.trip ∨ req = 0 then 0 else d * 256 * st / req
  let table := fun n (g : Nat → Nat) => (List.range n).foldl (fun m i => fput 0 i (g i) m) ([] : FMap Nat)
  { hbm := table v.stacks (fun i =>
      match fget none s.pwr.stackAllow i with
      | some a => min (one s.pwr.resHbm.toNat) (a * 16)
      | none => one s.pwr.resHbm.toNat)
    ledge := table v.dies (fun _ => one s.pwr.resLedge.toNat)
    mesh := one (meshResOf s)
    fab := table v.ports (fun _ => one s.pwr.resFab.toNat)
    hostl := one s.pwr.resHostl.toNat }

def ClassRes.total (r : ClassRes) : Nat :=
  (r.hbm.map (·.2)).sum + (r.ledge.map (·.2)).sum + r.mesh + (r.fab.map (·.2)).sum + r.hostl

/-- allow_i of a core in 1/256 token (R339); a fenced core's is zero. -/
def allowOf (s : State) (c : Nat) : Nat := (s.ctl c).allow.toNat * 16

/-- R325, R342, R346: the carry of a core before scaling. -/
def carryOf (s : State) (c : Nat) : Nat :=
  let q := s.ctl c
  if q.guarded || s.pwr.trip then 0 else min q.bal (min (s.pwr.epochMax.toNat * 256) (allowOf s c))

/-- Carries scaled by a / b where they exceed it. -/
def scaleTo (limit : Nat) (cs : List (Nat × Nat)) : List (Nat × Nat) :=
  let sum := (cs.map (·.2)).sum
  if limit < sum then cs.map (fun c => (c.1, c.2 * limit / sum)) else cs

/-- R325: the tenant cap of a context scales the carries of its cores. -/
def tenantScale (s : State) (x : Nat) (cs : List (Nat × Nat)) : List (Nat × Nat) :=
  let cap := (s.cx x).cap.toNat * 256
  let mine := fun (c : Nat) => (s.ctl c).owner.map (·.val) == some x
  if cap = 0 then cs
  else
    let sum := ((cs.filter (fun c => mine c.1)).map (·.2)).sum
    if cap < sum then cs.map (fun c => if mine c.1 then (c.1, c.2 * cap / sum) else c) else cs

/-- R325: the carries of all cores that hold a balance, after both scalings. -/
def carries (s : State) (pool : Nat) : List (Nat × Nat) :=
  let c0 := (s.ctls.filter (fun e => e.2.bal != 0)).map (fun e => (e.1, carryOf s e.1))
  scaleTo pool ((List.range 16).foldl (fun cs x => tenantScale s x cs) c0)

/-- R343–R347: what begins or ends at a boundary: the fallback, the throttle cap and the trip. -/
def boundaryModes (s : State) : State :=
  let p := s.pwr
  let s1 := if p.fallback && decide (5 ≤ p.hbGood) then
      pwrEvent 0x4002 0 (raise pgPwr 0 (s.onPwr (fun p => { p with fallback := false })))
    else if p.fallbackNext && !p.fallback then
      pwrEvent 0x4001 0 (raise pgPwr 0 (s.onPwr (fun p => { p with fallback := true, hbGood := 0 })))
    else s
  let s2 := if p.trip && p.tripEnd then
      pwrEvent 0x4004 0 (raise pgPwr 1 (s1.onPwr (fun p => { p with trip := false, tripEnd := false })))
    else s1
  s2.onPwr (fun p => { p with fallbackNext := false, throttle := p.throttlePin })

/-- R325: the division of a new epoch's budget. -/
def divide (s : State) : State :=
  let cap := leastCap (capsInForce s)
  let b := budgetOf s.pwr cap.2
  let f := fixedRes s b
  let res := classRes s b f
  let cs := carries s ((b - f - standing s b f) * 256)
  let sum := (cs.map (·.2)).sum
  let free := b * 256 - f * 256 - res.total - sum
  let s1 := s.onPwr (fun p => { p with
    b := BitVec.ofNat 12 b, bind := BitVec.ofNat 3 cap.1, free := free, granted := b * 256 - free, resv := res
    sysE := p.sysE + BitVec.ofNat 64 (f * 256 + res.total), debitNow := p.debitNow + f * 256
    ctxGrants := [] })
  let s2 := forAll s.ctls (fun e t =>
    let c := ((cs.find? (fun x => x.1 == e.1)).map (·.2)).getD 0
    t.onCtl e.1 (fun q => { q with bal := c, epochGrants := c, lastGrants := q.epochGrants })) s1
  forAll cs (fun c t => match (t.ctl c.1).owner with
    | some x => t.onPwr (fun p => { p with ctxGrants := fput 0 x.val (fget 0 p.ctxGrants x.val + c.2) p.ctxGrants })
    | none => t) s2

/-- EPOCH_BOUNDARY (R191, R320, R322, R325). -/
def epochBoundary (s : State) : State :=
  let s1 := s.onPwr (fun p => { p with
    epoch := p.epoch + 1, hist := trimHist 100000 (pushHist p.b.toNat p.hist) })
  let s2 := divide (boundaryModes s1)
  s2.onCtxBlk (fun b => { b with left := b.left - (if b.left = 0 then 0 else 1) })

def execEpochBoundary (s : State) : Res := .next (epochBoundary s)

/-! ### Installments (R330–R333, R337, R338, R340) -/

/-- R330, R333: the want of a core's run, with its top-ups. -/
def wantOf (s : State) (c : Nat) : Nat :=
  match (s.core c).run with
  | none => 0
  | some r => r.job.desc.energy.toNat + s.pwr.reserve.toNat + r.extra - r.debited - (s.ctl c).bal

/-- R330: the least installment that a request is eligible for. -/
def leastInst (s : State) (c : Nat) : Nat :=
  if (s.ctl c).firstReq then min (wantOf s c) (s.pwr.reserve.toNat + s.pwr.minInst.toNat)
  else min (wantOf s c) s.pwr.minInst.toNat

/-- The context that a core's grants count against; firmware pitches have none (R335). -/
def payer (s : State) (c : Nat) : Option Nat :=
  match (s.core c).run with
  | some r => if r.job.src.isSome then some r.job.ctx.val else none
  | none => none

/-- R331: the core's room under a limit, and the context's. -/
def coreRoom (s : State) (c limit : Nat) : Nat := limit - (s.ctl c).epochGrants

def ctxRoom (s : State) (c : Nat) : Nat :=
  match payer s c with
  | none => s.pwr.b.toNat * 256
  | some x =>
    let cap := (s.cx x).cap.toNat * 256
    if cap = 0 then s.pwr.b.toNat * 256 else cap - fget 0 s.pwr.ctxGrants x

/-- R331: what a core could get, but for the free tokens. -/
def instRoom (s : State) (c : Nat) : Nat :=
  min (wantOf s c) (min (coreRoom s c (min (s.pwr.epochMax.toNat * 256) (allowOf s c))) (ctxRoom s c))

/-- R345, R346, R342, R235: nothing keeps a core from an installment. -/
def mayPay (s : State) (c : Nat) : Bool :=
  (s.core c).run.isSome && !s.pwr.trip && !s.pwr.throttlePin && !(s.ctl c).guarded && !(s.ctl c).switching &&
  ((s.ctl c).st == .active)

/-- R330: a core's request is eligible. -/
def eligible (s : State) (c : Nat) : Bool :=
  mayPay s c && decide (0 < wantOf s c) && decide (leastInst s c ≤ min (instRoom s c) s.pwr.free) &&
  decide (0 < min (instRoom s c) s.pwr.free)

/-- A core's request is aged (R174). -/
def agedReq (s : State) (c : Nat) : Bool := ((fget [] (s.arb ArbId.pwr.key).queues c).head?.map (·.aged)).getD false

/-- R338: an aged request waits for free tokens alone. -/
def agedWaits (s : State) : Bool :=
  s.cores.any (fun e => agedReq s e.1 && mayPay s e.1 && decide (0 < wantOf s e.1) &&
    decide (leastInst s e.1 ≤ instRoom s e.1) && !eligible s e.1)

/-- R172, R337, R338: no other eligible request goes before this one. -/
def grantTurn (s : State) (c : Nat) : Bool :=
  let es := (s.cores.map (·.1)).filter (eligible s)
  let aged := es.filter (agedReq s)
  let prio : Nat → Nat := fun k => prioOf s .pwr k
  if aged != [] then
    let since : Nat → Nat := fun k => ((fget [] (s.arb ArbId.pwr.key).queues k).head?.map (·.t)).getD 0
    agedReq s c && aged.all (fun k => decide (since c ≤ since k))
  else
    !agedWaits s &&
    (let top := es.filter (fun k => es.all (fun j => decide (prio j ≤ prio k)))
     roundRobin (((s.arb ArbId.pwr.key).last.find? (fun e => e.1 == prio c)).map (fun e => e.2 - 1)) top == some c)

/-- R333: a run that has used its estimate asks for more, in steps of an eighth. -/
def topUp (c : Nat) (s : State) : State :=
  match (s.core c).run with
  | none => s
  | some r =>
    if (s.ctl c).bal < s.pwr.reserve.toNat ∧ wantOf s c < s.pwr.minInst.toNat then
      let e := max (r.job.desc.energy.toNat / 8) s.pwr.minInst.toNat
      campEvent 0x4009 c 1 ((s.onCore c (fun k => k.onRun (fun r => { r with extra := r.extra + e }))).onPwr
        (fun p => { p with overest := satInc p.overest }))
    else s

/-- The tokens reach the core's balance. -/
def payCore (c i : Nat) (s : State) : State :=
  let s1 := s.onPwr (fun p => { p with free := p.free - i, granted := p.granted + i })
  let s2 := s1.onCtl c (fun q => { q with bal := q.bal + i, epochGrants := q.epochGrants + i, firstReq := false })
  match payer s c with
  | some x => s2.onPwr (fun p => { p with ctxGrants := fput 0 x (fget 0 p.ctxGrants x + i) p.ctxGrants })
  | none => s2

/-- R353: an allowance cut or refused the installment. -/
def cutByAllowance (s : State) (c : Nat) : Bool :=
  decide (allowOf s c < s.pwr.epochMax.toNat * 256) &&
  decide (coreRoom s c (allowOf s c) <
    min (min (wantOf s c) (coreRoom s c (s.pwr.epochMax.toNat * 256))) (min (ctxRoom s c) s.pwr.free))

/-- TOKEN_INSTALLMENT (R331, R337, R338). -/
def installment (c : Nat) (s : State) : State :=
  let s0 := topUp c s
  let s1 := when (mayPay s0 c && cutByAllowance s0 c) (State.onPwr (fun p => { p with thermRef := satInc p.thermRef })) s0
  if !eligible s1 c || !grantTurn s1 c then s1
  else
    let i := min (instRoom s1 c) s1.pwr.free
    let p := prioOf s1 .pwr c
    let s2 := payCore c i s1
    let a := s2.arb ArbId.pwr.key
    let s3 := s2.setArb ArbId.pwr.key { popHead c a with last := fput 0 p (c + 1) a.last }
    pumpUnits c (ready c (s3.onCore c (fun k => k.onRun (fun r => { r with granted := true }))))

def execTokenInstallment (c : CoreId) (s : State) : Res := .next (installment c.val s)

/-! ### Debits (R341, R350) -/

/-- R350: energy of a core's run goes to its context, or to the system. -/
def charge (r : Run) (e : Nat) (s : State) : State :=
  let x := r.job.ctx.val
  s.onPwr (fun p =>
    if r.job.src.isNone || (s.cx x).st == .scrubbing then { p with sysE := p.sysE + BitVec.ofNat 64 e }
    else { p with ctxE := fput 0 x (fget 0 p.ctxE x + BitVec.ofNat 64 e) p.ctxE })

/-- METER_DEBIT (R341): the energy of the counted events, times METER_K, and no more than the core holds (R348). -/
def meterDebit (c events : Nat) (s : State) : State :=
  match (s.core c).run with
  | none => s
  | some r =>
    let e := min (events * s.pwr.meterK.toNat / 1024) (s.ctl c).bal
    let s1 := s.onCtl c (fun q => { q with bal := q.bal - e })
    let s2 := s1.onCore c (fun k => k.onRun (fun r =>
      { r with debited := r.debited + e, job := { r.job with tokens := r.job.tokens + e } }))
    topUp c (charge r e (noteUse c e (s2.onPwr (fun p => { p with debitNow := p.debitNow + e }))))

def execMeterDebit (c : CoreId) (events : BitVec 24) (s : State) : Res := .next (meterDebit c.val events.toNat s)

/-! ### Cairn's update (R323, R341, R344) -/

/-- R341: METER_K after an update. -/
def updateMeter (p : PwrBlk) : PwrBlk × Bool :=
  let ms := (p.meas.toNat :: p.measHist).take 10
  let ds := (p.debitNow :: p.debitHist).take 10
  let em := ms.sum
  let ed := ds.sum
  let q := { p with measHist := ms, debitHist := ds, debitNow := 0 }
  if ed = 0 then (q, false)
  else if ed < em then
    let sat := p.meterK.toNat = 1280
    ({ q with meterK := BitVec.ofNat 11 (min 1280 (p.meterK.toNat * em / ed)), lastR := (em, ed),
              meterSat := p.meterSat || sat }, sat && !p.meterSat)
  else ({ q with meterK := BitVec.ofNat 11 (max 1024 (p.meterK.toNat - 1)), meterSat := false }, false)

/-- PWR_HB_WRITE (R323, R341, R343, R344): the update is committed. -/
def heartbeat (seq : BitVec 16) (s : State) : State :=
  let p := s.pwr
  let good := match p.hbTs with
    | some t => if s.env.tsCopy.toNat ≤ t.toNat + 20000 then p.hbGood + 1 else 1
    | none => 1
  let (q, sat) := updateMeter { p with committed := p.caps, hbSeq := seq, hbTs := some s.env.tsCopy, hbGood := good }
  let s1 := { s with pwr := q }
  if sat then pwrEvent 0x4008 0 (raise pgPwr 4 (errTrans pgPwr s1)) else s1

def execPwrHbWrite (seq : BitVec 16) (s : State) : Res := .next (heartbeat seq s)

/-- FALLBACK_TIMEOUT (R343): in force from the next boundary. -/
def execFallbackTimeout (s : State) : Res :=
  .next (s.onPwr (fun p => { p with fallbackNext := !p.fallback, hbGood := 0 }))

/-! ### THROTTLE_N and the trip (R345–R347) -/

/-- THROTTLE_N_ASSERTED (R345). -/
def execThrottleNAsserted (s : State) : Res :=
  .next (if s.pwr.throttlePin then s
    else pwrEvent 0x4005 0 (raise pgPwr 2 (s.onPwr (fun p => { p with throttlePin := true }))))

/-- THROTTLE_N_RELEASED (R345). -/
def execThrottleNReleased (s : State) : Res :=
  .next (if !s.pwr.throttlePin then s
    else pwrEvent 0x4006 0 (raise pgPwr 2 (s.onPwr (fun p => { p with throttlePin := false }))))

/-- R346: every balance and every unspent class reservation returns to the free tokens, and no grant is made. -/
def trip (diode : Nat) (s : State) : State :=
  if s.pwr.trip then s.onPwr (fun p => { p with tripEnd := false })
  else
    let back := (s.ctls.map (fun e => e.2.bal)).sum + s.pwr.resv.total
    let s1 := forAll s.ctls (fun e t => t.onCtl e.1 (fun q => { q with bal := 0 })) s
    let s2 := s1.onPwr (fun p => { p with
      free := p.free + back, granted := p.granted - back, resv := {}, trip := true, tripEnd := false
      trips := satInc p.trips })
    pwrEvent 0x4003 diode (raise pgPwr 1 (errPerm pgPwr s2))

/-- TRIP_END (R347): the trip ends at the next boundary. -/
def execTripEnd (s : State) : Res := .next (s.onPwr (fun p => { p with tripEnd := p.trip }))

/-- PWR_FREE_READ (R348): the read latches PWR_GRANTED. -/
def execPwrFreeRead (s : State) : Res :=
  .next ((s.onPwr (fun p => { p with latched := BitVec.ofNat 24 p.granted })).setReply { value := BitVec.ofNat 64 s.pwr.free })

end Sys2Proof.Machine
end

