-- ==== Sys2Proof/Machine/Resets.lean ====
section
/-! DEFINITION. The module reset, the fault list and what the camp cores restore from it (R31, R105, R234–R241, R534). -/

namespace Sys2Proof.Machine

/-- The pages that Cairn owns (R525): LOOP to LOG. -/
def cairnPage (p : Nat) : Bool := decide (0x600 ≤ p) && decide (p ≤ 0x606)

/-- The physical cores enabled at shipment (R568). Where the fault list does not say, the lowest-numbered (DESIGN CHOICE). -/
def shippedCores (s : State) : List Nat := s.cairn.shipped.getD (List.range s.env.variant.cores)

/-- R31, R541: the compute die, the Ledge, the contents of HBM, all contexts, the host attachment, the fabric and the
arbiter restart; Cairn, the plant, the hut book, the timestamp and the ledger keep running. The rails go off. -/
def dropCompute (s : State) : State :=
  { s with
    hdrs := s.hdrs.filter (fun e => cairnPage e.1)
    cores := [], ctls := shippedMap (shippedCores s), ledge := {}, mesh := {}, hbm := {}, arbs := [], arbSels := []
    ctx := {}, fence := { logicalCount := (shippedCores s).length }
    fab := { node := s.cairn.policy.node.getD 0, nodeV := s.cairn.policy.node.isSome, torus := s.fab.torus }
    host := { mem := s.host.mem }, glob := {}
    pwr := { applyPower s.cairn.inforce.entries {} with throttlePin := s.pwr.throttlePin }
    thm := {}, dbg := {}
    sec := { s.sec with
      ctxs := [], fuseLock := false, akValid := false, zeroed := false, trngFailX := false, ctxSel := 0, tagFail := 0, doe := []
      snaps := [], sums := [], means := [], ctxCoarse := [], ctxMark := [] }
    env := { s.env with rails := false, dieUp := false } }

/-- R29, R359, R511, R520: a module reset begins: the generation current now is put in force. FAULT marks of the sensors
end with it. -/
def moduleReset (s : State) : State :=
  let s1 := applyModuleReset s
  let s2 := s1.onDrv (fun d => { d with inputs := d.inputs.filterMap (fun (e : Nat × Input) =>
    let q := { e.2 with fault := false, ends := 0 }
    if q = {} then none else some (e.1, q)) })
  let s3 : State := { s2 with cool := { s2.cool with marks := [] } }
  (dropCompute s3).onCairn (fun c => { c with campRun := false, campRecovery := false })

/-! ### The fault list (R239, R240) -/

/-- The core map and the count of logical numbers as the fault list is read in order. -/
def restoreCore (e : FaultEnt) (s : State) : State :=
  let u := e.unit.toNat
  if e.kind = 0 then
    let q := s.ctl u
    let s1 := errPerm (pgCore u) (s.onCtl u (fun q => { q with st := .fenced, logical := 0xFF }))
    if q.st = .active then s1.onFence (fun f => { f with unbacked := insertNum (q.logical.toNat, u) f.unbacked }) else s1
  else if e.kind = 1 then
    (s.onCtl e.unit2.toNat (fun q => { q with st := .active, logical := BitVec.ofNat 8 u })).onFence
      (fun f => { f with unbacked := f.unbacked.filter (fun x => x.1 != u) })
  else if e.kind = 2 then
    let m := s.fence.logicalCount - 1
    let f := (s.fence.unbacked.map (·.1)).getLastD m
    let s1 := match physOf s m with
      | some c => if m = f then s else s.onCtl c (fun q => { q with logical := BitVec.ofNat 8 f })
      | none => s
    s1.onFence (fun g => { g with
      logicalCount := m, unbacked := g.unbacked.filter (fun x => x.1 != (if (physOf s m).isSome then f else m)) })
  else s

/-- Retired links, banks, pseudo-channels and lanes; what a spare or a reserve region held is not kept. -/
def restoreUnit (e : FaultEnt) (s : State) : State :=
  let u := e.unit.toNat
  if e.kind = 3 then errPerm pgMesh (s.onMesh (fun _ => (retireLink (u / 8) (u % 8) s).mesh))
  else if e.kind = 4 then
    let l := (retireBank u s).ledge
    let b : LBank := ⟨if (fget {} l.banks u).st = 1 then 2 else (fget {} l.banks u).st, 0, [], [], 0⟩
    errPerm pgLedge (s.onLedge (fun _ => { l with banks := fput {} u b l.banks }))
  else if e.kind = 5 then
    let h := (retirePc u s).hbm
    let c : PChan := ⟨if (fget {} h.pcs u).st = 1 then 2 else (fget {} h.pcs u).st, [], [], 0, []⟩
    errPerm (pgHbm (u / 32)) (s.onHbm (fun _ => { h with pcs := fput {} u c h.pcs }))
  else if e.kind = 6 then
    errPerm (pgFab (u / 4)) (s.onPort (u / 4) (fun q => { q with lanesRet := q.lanesRet ||| (1#4 <<< (u % 4)) }))
  else s

/-- R534: after a module reset no logical number is unbacked: reserves take the numbers that the list leaves, and the
count falls where none is left. -/
def settleCores (s : State) : State :=
  let s1 := forAll (planReserves s s.fence.unbacked []) (fun (e : Nat × Nat) t =>
    (t.onCtl e.2 (fun q => { q with st := .active, logical := BitVec.ofNat 8 e.1 })).onFence
      (fun f => { f with unbacked := f.unbacked.filter (fun x => x.1 != e.1) })) s
  forAll (s1.fence.unbacked) (fun _ t => restoreCore ⟨2, 0, 0⟩ t) s1

/-- R240: the camp cores restore the core map and the retirements. -/
def restoreFaults (s : State) : State :=
  let fresh := { s with
    ctls := shippedMap (shippedCores s), fence := { s.fence with logicalCount := (shippedCores s).length, unbacked := [] } }
  forAll s.cairn.faults restoreUnit (settleCores (forAll s.cairn.faults restoreCore fresh))

end Sys2Proof.Machine
end

