-- ==== Sys2Proof/Machine/Coolant.lean ====
section
/-! DEFINITION. The coolant supervisor: readings, the flow proof, the coolant cap and its update, slow fall, sudden stop
and shutdown (R323, R365–R378). -/

namespace Sys2Proof.Machine

def State.onCool (f : CoolSup → CoolSup) (s : State) : State := { s with cool := f s.cool }

/-- An interrupt bit of the THM page, which is there while the compute die is out of reset. -/
def thmRaise (n : Nat) (s : State) : State := when s.env.dieUp (raise pgThm n) s

/-! ### Pumps and states (R369, R371, R373, R375) -/

def pumpNums (s : State) : List Nat := s.cairn.plant.pumps.map (·.val)

/-- R369, step 1: a start request on a channel that is not RUNNING or in MAX. -/
def pumpStart (m : Nat) (s : State) : State :=
  if (s.motor m).st = .running ∨ (s.motor m).st = .max then s else motorMode m 1 s

/-- R373, R375: the assigned pumps run at maximum drive. -/
def pumpsMax (s : State) : State :=
  (forAll (pumpNums s) (fun m t => motorMode m 3 t) s).onCool (fun c => { c with maxed := pumpNums s })

/-- R374, R375: the pumps driven at maximum return to their loops. -/
def pumpsLoop (s : State) : State :=
  (forAll s.cool.maxed (fun m t => motorMode m 2 t) s).onCool (fun c => { c with maxed := [] })

/-- R369, R558: the assigned pumps go to their safe state, LEASED ones apart. MODE follows to OFF. -/
def pumpsSafe (s : State) : State :=
  (forAll (pumpNums s) (fun m t =>
    if (t.motor m).leased && t.cairn.policy.row then t
    else (motorSafe m t).onMotor m (fun q => { q with mode := 0, modeNew := false })) s).onCool
    (fun c => { c with maxed := [] })

/-- R371: the supervisor changes state. Entering LOW has the value 1 in its event, leaving it 0; STOPPED and SHUTDOWN end
an injection (R394). -/
def coolSet (st : CoolSt) (s : State) : State :=
  let old := s.cool.st
  if st = old then s
  else
    let s1 := thmRaise 5 (s.onCool (fun c => { c with st := st }))
    let s2 := if st = .low then cairnEvent 0x5103 1 [] s1 else if old = .low then cairnEvent 0x5103 0 [] s1 else s1
    if st = .stopped ∨ st = .shutdown then endInjection 5 s2 else s2

/-- R323, R373, R558: an update out of the schedule that commits a coolant cap of zero. -/
def commitZero (s : State) : State :=
  s.onPwr (fun p =>
    let caps := { p.caps with cool := 0 }
    { p with caps := caps, committed := caps, hbSeq := p.hbSeq + 1, hbTs := some s.env.tsCopy })

/-! ### Readings (R356, R367, R368) -/

/-- An input takes part: it is not FAULT and its sensor is neither SUSPECT nor FAULT. -/
def coolUsable (s : State) (k : Nat) : Bool :=
  !(s.input k).fault && !(fget {} s.cool.marks k).suspect && !(fget {} s.cool.marks k).fault

/-- The values of the usable inputs among some, in the order listed. -/
def usableValues (s : State) (ks : List Nat) : List Int :=
  (ks.filter (coolUsable s)).map (fun k => (s.input k).value.toInt)

def maxOf (d : Int) (xs : List Int) : Int := xs.foldl max (xs.headD d)
def minOf (xs : List Nat) : Nat := xs.foldl min (xs.headD 0)

/-- Powers of a large exponent, as powers of powers. -/
def pow1000 (q : Nat) : Nat := (q ^ 200) ^ 5
def pow556 (q : Nat) : Nat := (q ^ 139) ^ 4

/-- q is at most Q_REF × (ΔP ÷ DP_REF)^0.556, by its thousandth power. -/
def dpBelow (qRef dpRef dp q : Nat) : Bool := decide (pow1000 q * pow556 dpRef ≤ pow1000 qRef * pow556 dp)

/-- The largest q of a range of 2^n values from `lo` for which `ok` holds. -/
def searchNat (ok : Nat → Bool) : Nat → Nat → Nat
  | 0, lo => lo
  | n + 1, lo => if ok (lo + 2 ^ n) then searchNat ok n (lo + 2 ^ n) else searchNat ok n lo

/-- R367: Q_dp in mL/min. Its rounding is site 15; a value beyond 2^20, or DP_REF at 0, is site 16. -/
def flowOfDp (qRef dpRef dp : Nat) : Nat :=
  if dp = 0 then 0
  else if dpRef = 0 || dpBelow qRef dpRef dp (2 ^ 20) then Config.openNat 16 dp
  else
    let q := searchNat (dpBelow qRef dpRef dp) 20 0
    if pow1000 q * pow556 dpRef = pow1000 qRef * pow556 dp then q else q + (Config.roundsUp 15 dp).toNat

/-- ΔP in 0.1 kPa from the code of its input; the rounding is site 14. -/
def dpValue (s : State) : Nat :=
  match s.cairn.plant.dp with
  | some k => (openRound 14 ((((s.input k.val).raw.toNat * s.cairn.plant.dpNum : Nat) : Rat) /
      (s.cairn.plant.dpDen : Rat))).toNat
  | none => 0

/-- R367: the readings of a sample. T_out without a usable reading has no stated value: site 13. -/
def coolReadings (s : State) : Int × Int × Nat × Option Nat × Nat :=
  let p := s.cairn.plant
  let ins := usableValues s (p.inlet.map (fun i => 32 + i.val))
  let outs := usableValues s (p.outlet.map (fun i => 32 + i.val))
  let dp := dpValue s
  let q := if dpUsable s then some (flowOfDp s.cairn.policy.qRef s.cairn.policy.dpRef dp) else none
  let fs := (usableValues s (p.flows.map (fun i => 16 + i.val))).map (·.toNat) ++ q.toList
  (if ins = [] then 800 else maxOf 0 ins,
   if outs = [] then Config.openInt 13 s.env.ts.toNat else maxOf 0 outs, minOf fs, q, dp)

/-- Q_cap as a sum over a count (R368). -/
def qCap (c : CoolSup) : Nat × Nat := ((c.hist.take 10).sum, max 1 (c.hist.take 10).length)

/-- Q_cap lies below FLOW_MIN. -/
def qCapLow (s : State) : Bool := decide ((qCap s.cool).1 < s.cairn.policy.flowMin * (qCap s.cool).2)

/-! ### The coolant cap (R370, R371) -/

/-- R370: the ramp of the first second after a recovery. -/
def rampOf (s : State) : Nat :=
  match s.cool.rampTs with
  | some t0 =>
    let t := s.env.ts.toNat - t0.toNat
    if t < second then s.env.variant.rated * t / second else 4094
  | none => 4094

/-- R370: cap_in, for a T_in in 1/16 °C. -/
def capIn (v : Variant) (p : Policy) (tin : Int) : Nat :=
  if tin ≤ p.tinMax then v.peak
  else if tin < p.tinZero then (v.rated * ((p.tinZero : Int) - tin).toNat) / (p.tinZero - p.tinMax)
  else 0

/-- R370: cap_flow: KQ in 0.1 W/(K·L/min), Q_cap in mL/min, DT_RISE in 0.1 K. -/
def capFlow (p : Policy) (q : Nat × Nat) : Nat := p.kq * q.1 * p.dtRise / (100000 * q.2)

def capCool (s : State) : Nat :=
  min (min (capFlow s.cairn.policy (qCap s.cool)) (capIn s.env.variant s.cairn.policy s.cool.tin))
    (min (rampOf s) 4094)

/-- R371: what PWR_CAP_COOL is to hold. -/
def coolCapNow (s : State) : Nat := if s.cool.st = .normal ∨ s.cool.st = .low then capCool s else 0

/-- The state is NORMAL or LOW by the cap. -/
def coolLevel (s : State) : State := coolSet (if s.env.variant.rated ≤ capCool s then .normal else .low) s

/-! ### Proofs (R369, R375) -/

/-- R375: automatic proofs of the last hour. -/
def autoCount (s : State) : Nat := countWithin s.env.ts (3600 * second) s.cool.autoTs

/-- R369, step 1: a proof begins. -/
def beginProof (s : State) : State :=
  let s1 := forAll (pumpNums s) pumpStart (coolSet .proving s)
  (s1.onCool (fun c => { c with window := none, proofFailed := false, proofTs := s.env.ts })).onPwr
    (fun p => { p with caps := { p.caps with cool := 0 } })

/-- R375: a proof that begins by itself, if fewer than three did in the last hour. -/
def beginAuto (s : State) : State :=
  if 3 ≤ autoCount s then s
  else (beginProof s).onCool (fun c => { c with autoTs := pushTs 3 s.env.ts c.autoTs })

/-- FLOW_PROOF_START (R369, R554, R556): the proof that follows POWER_EN and the sensor checks. -/
def flowProofStart (s : State) : State :=
  if s.cool.st = .off && s.cairn.checked && s.cairn.powerEn && !s.cool.proofFailed && !s.cairn.barred && !s.env.rails
  then beginProof s else s

def execFlowProofStart (s : State) : Res := .next (flowProofStart s)

/-- The open window has lasted PROOF_TIME. -/
def proofDone (s : State) : Bool := match s.cool.window with
  | some n => decide (s.cairn.policy.proofMs ≤ n)
  | none => false

/-- FLOW_PROOF_PASS (R369, step 4; R375; R565). With the input out of range or the reference lost the rails stay off and
the state becomes OFF. -/
def flowProofPass (s : State) : State :=
  if s.cool.st = .proving && proofDone s then
    if s.cairn.inputBad || s.env.holdover then coolSet .off s
    else
      let s1 := s.onCool (fun c => { c with rampTs := none, lowFor := 0 })
      let s2 := coolLevel { s1 with env := { s1.env with rails := true } }
      let s3 := s2.onPwr (fun p => { p with caps := { p.caps with cool := BitVec.ofNat 12 (coolCapNow s2) } })
      cairnEvent 0x5101 0 [] (s3.onCairn (fun c => { c with modFault := false }))
  else s

def execFlowProofPass (s : State) : Res := .next (flowProofPass s)

/-- FLOW_PROOF_TIMEOUT (R369). -/
def flowProofTimeout (s : State) : State :=
  if s.cool.st = .proving && !proofDone s &&
      decide (s.cool.proofTs.toNat + s.cairn.policy.timeoutMs * 100000 ≤ s.env.ts.toNat) then
    let s1 := pumpsSafe (coolSet .off s)
    cairnEvent 0x5102 0 [] ((s1.onCool (fun c => { c with proofFailed := true })).onCairn
      (fun c => { c with modFault := true }))
  else s

def execFlowProofTimeout (s : State) : Res := .next (flowProofTimeout s)

/-- AUTO_FLOW_PROOF (R375, step 4). -/
def autoFlowProof (s : State) : State :=
  if s.cool.st = .shutdown && s.cairn.powerEn && decide (s.cool.shutTs.toNat + 10 * second ≤ s.env.ts.toNat)
  then beginAuto s else s

def execAutoFlowProof (s : State) : Res := .next (autoFlowProof s)

/-! ### Shutdown, slow fall and sudden stop (R372–R375) -/

/-- R375: the rails are shut down for coolant. The coding of the cause is not stated: site 18. -/
def coolShutdown (cause : Nat) (s : State) : State :=
  let s1 := coolSet .shutdown (moduleReset s)
  let s2 := (s1.onCool (fun c => { c with shutTs := s.env.ts, lowFor := 0, rampTs := none })).onCairn
    (fun c => { c with modFault := true })
  pumpsMax (cairnEvent 0x5106 (Config.openNat 18 cause) [] s2)

/-- SUDDEN_STOP_TIMEOUT (R373, step 5). -/
def suddenStopTimeout (s : State) : State :=
  if s.cool.st = .stopped && decide (s.cool.stopTs.toNat + 2 * second ≤ s.env.ts.toNat) then coolShutdown 2 s else s

def execSuddenStopTimeout (s : State) : Res := .next (suddenStopTimeout s)

/-- LOW_FLOW_TIMEOUT (R372): Q_cap below FLOW_MIN at every sample of 2 s. -/
def lowFlowTimeout (s : State) : State :=
  if s.env.rails && decide (2000 < s.cool.lowFor) then coolShutdown 1 s else s

def execLowFlowTimeout (s : State) : Res := .next (lowFlowTimeout s)

/-- R372: the duty drive is at its limit, with Q_eff below its slot's set-point. -/
def dutyLimited (s : State) : Bool :=
  match s.cairn.plant.duty with
  | some m =>
    let q := s.slot s.cairn.plant.dutySlot
    (decide ((s.motor m.val).st = .max) || q.clampHi) &&
      decide ((s.cool.qeff : Rat) < (q.setpt.toInt : Rat) * (2 : Rat) ^ q.esig.toInt)
  | none => false

/-- STANDBY_PUMP_START (R372). -/
def standbyPumpStart (s : State) : State :=
  match s.cairn.plant.spare with
  | some m => if (s.cool.st = .normal ∨ s.cool.st = .low) ∧ dutyLimited s then pumpStart m.val s else s
  | none => s

def execStandbyPumpStart (s : State) : Res := .next (standbyPumpStart s)

/-- SHUTDOWN_PUMP_RELEASE (R375, step 3). -/
def shutdownPumpRelease (s : State) : State :=
  if s.cool.maxed != [] && decide (s.cool.st ≠ .stopped) &&
      decide (s.cool.shutTs.toNat + 60 * second ≤ s.env.ts.toNat) then pumpsLoop s else s

def execShutdownPumpRelease (s : State) : Res := .next (shutdownPumpRelease s)

/-- R373: a sudden stop is detected. -/
def suddenStop (ref : Nat) (s : State) : State :=
  let s1 := (coolSet .stopped s).onCool (fun c => { c with stopRef := ref, good := 0, stopTs := s.env.ts, rampTs := none })
  pumpsMax (commitZero (cairnEvent 0x5104 0 [] s1))

/-- R374: the flow has recovered. -/
def recovered (s : State) : State :=
  coolLevel (pumpsLoop (cairnEvent 0x5105 0 [] (s.onCool (fun c => { c with rampTs := some s.env.ts, good := 0 }))))

/-! ### COOLANT_SAMPLE (R354, R367–R376) -/

/-- The inputs' conversions of the sample. -/
def sampleInputs (th flow : List (BitVec 16)) (s : State) : State :=
  let s1 := forAll (th.zipIdx.take 8) (fun (e : BitVec 16 × Nat) t => thermSample e.2 e.1 t) s
  forAll (flow.zipIdx.take 4) (fun (e : BitVec 16 × Nat) t => flowSample e.2 e.1 t) s1

/-- R377: the inlet rises above TIN_MAX or falls below 15 °C. -/
def inletFlags (s : State) : State :=
  let hi := decide ((s.cairn.policy.tinMax : Int) < s.cool.tin)
  let lo := decide (s.cool.tin < 240)
  let s1 := s.onCool (fun c => { c with tinHigh := hi, tinLow := lo })
  when ((hi && !s.cool.tinHigh) || (lo && !s.cool.tinLow))
    (cairnEvent 0x5107 ((s.cairn.plant.inlet.map (·.val)).headD 0) []) s1

/-- R373: Q_eff against its value 50 ms earlier. -/
def stopsNow (s : State) (early : Option Nat) : Bool := match early with
  | some q => decide (s.cairn.policy.flowMin ≤ q) && decide (5 * s.cool.qeff < q)
  | none => false

/-- R369, R376: the window of a proof; it counts the milliseconds since it opened. -/
def windowNext (s : State) (stop : Bool) : Option Nat :=
  if s.cairn.policy.flowMin ≤ s.cool.qeff ∧ s.cool.tin ≤ s.cairn.policy.tinMax ∧ !stop then
    match s.cool.window with
    | some n => some (n + 1)
    | none => some 0
  else none

/-- R374: the sample in STOPPED. -/
def recoverStep (s : State) : State :=
  let ok := decide (max s.cairn.policy.flowMin ((s.cool.stopRef + 1) / 2) ≤ s.cool.qeff)
  let n := if ok then s.cool.good + 1 else 0
  let s1 := s.onCool (fun c => { c with good := n })
  if 100 < n ∧ s.env.ts.toNat < s.cool.stopTs.toNat + 2 * second then recovered s1 else s1

def coolSample (s : State) : State :=
  let r := coolReadings s
  let early := s.cool.hist[49]?
  let s1 := inletFlags (s.onCool (fun c => { c with
    tin := r.1, tout := r.2.1, qeff := r.2.2.1, qdp := r.2.2.2.1, dp := r.2.2.2.2
    hist := (r.2.2.1 :: c.hist).take 60 }))
  let stop := stopsNow s1 early
  let s2 := s1.onCool (fun c => { c with lowFor := if s.env.rails && qCapLow s1 then c.lowFor + 1 else 0 })
  match s.cool.st with
  | .proving => s2.onCool (fun c => { c with window := windowNext s2 stop })
  | .normal | .low => if stop then suddenStop (early.getD 0) s2 else coolLevel s2
  | .stopped => recoverStep s2
  | _ => s2

def execCoolantSample (th flow : List (BitVec 16)) (s : State) : Res := .next (coolSample (sampleInputs th flow s))

/-! ### The energy balance (R367) -/

def execImplausSet (s : State) : Res :=
  .next (if s.cool.implaus then s else cairnEvent 0x5108 0 [] (s.onCool (fun c => { c with implaus := true })))

def execImplausClear (s : State) : Res := .next (s.onCool (fun c => { c with implaus := false }))

/-! ### Cairn's update (R323, R368) -/

/-- A flow as its 16-bit field shows it; one that does not fit is site 17. -/
def flow16 (q : Nat) : BitVec 16 := BitVec.ofNat 16 (if q < 65536 then q else Config.openNat 17 q)

/-- R378: the coolant fields of the THM page. -/
def coolRegs (s : State) : CoolRegs :=
  let c := s.cool
  { tin := BitVec.ofInt 12 c.tin, tout := BitVec.ofInt 12 c.tout, qeff := flow16 c.qeff
    qdp := match c.qdp with
      | some q => flow16 q
      | none => 0xFFFF
    dp := BitVec.ofNat 12 c.dp
    stat := BitVec.ofNat 10 (coolCode c.st + 8 * c.tinHigh.toNat + 16 * c.tinLow.toNat + 32 * c.implaus.toNat
      + 256 * min 3 (autoCount s)) }

/-- CAIRN_CAP_UPDATE: the caps, the measured energy and the coolant readings, committed by PWR_HB (R323, R324, R425). -/
def capUpdate (meas : BitVec 24) (s : State) : State :=
  let row := s.cairn.policy.row
  let caps : Caps := {
    board := s.cairn.boardCap, cool := BitVec.ofNat 12 (coolCapNow s)
    socket := if row then 4095 else s.cairn.policy.socketCap
    acoust := if row then 4095 else BitVec.ofNat 12 (acapOf s)
    thr := s.cairn.policy.thrCap }
  let s1 := s.onThm (fun t => { t with regs := coolRegs s })
  heartbeat (s.pwr.hbSeq + 1) (s1.onPwr (fun p => { p with caps := caps, meas := meas }))

def execCairnCapUpdate (meas : BitVec 24) (s : State) : Res := .next (capUpdate meas s)

end Sys2Proof.Machine
end

