-- ==== Sys2Proof/Machine/Thermal.lean ====
section
/-! DEFINITION. The thermal block: diodes, the guard and the trip, sensor marks, the forecast and its allowances
(R339–R347, R354–R364). -/

namespace Sys2Proof.Machine

/-! ### Sites and sensors (R355, R356) -/

def State.sensor (s : State) (k : Nat) : Sensor := fget {} s.thm.sensors k
def State.onSensor (k : Nat) (f : Sensor → Sensor) (s : State) : State :=
  s.onThm (fun t => { t with sensors := fput {} k (f (fget {} t.sensors k)) t.sensors })
def State.site (s : State) (k : Nat) : Site := fget {} s.thm.sites k

/-- The sensors of a site. -/
def siteSensors (k : Nat) : List Nat :=
  if k < 208 then [k]
  else if k < 224 then [208 + 2 * (k - 208), 209 + 2 * (k - 208)]
  else if k < 226 then [240 + 2 * (k - 224), 241 + 2 * (k - 224)]
  else [244 + (k - 226)]

/-- The site of a sensor. -/
def sensorSite (k : Nat) : Nat :=
  if k < 208 then k else if k < 240 then 208 + (k - 208) / 2 else if k < 244 then 224 + (k - 240) / 2 else 226 + (k - 244)

/-- R355: the sites of present units. -/
def sitesOf (v : Variant) : List Nat := List.range (224 + v.dies) ++ (List.range v.stacks).map (· + 226)

def sensorOk (q : Sensor) : Bool := q.valid && !q.suspect && !q.fault

/-- Every physical sensor of a site is SUSPECT or FAULT. -/
def siteBlind (s : State) (k : Nat) : Bool := (siteSensors k).all (fun i => (s.sensor i).suspect || (s.sensor i).fault)

/-- The usable readings of a site in °C. -/
def siteReadings (s : State) (k : Nat) : List Rat :=
  ((siteSensors k).filter (fun i => sensorOk (s.sensor i))).map (fun i => ((s.sensor i).temp.toInt : Rat) / 16)

/-- R356: the used value of a site. -/
def usedValue (rs : List Rat) (ref : Rat) : Rat :=
  match rs with
  | [] => ref
  | [a] => max a ref
  | a :: b :: _ => max a b

/-! ### Diodes, guard and trip (R342, R346) -/

/-- A guard begins or ends on a core's temperature in °C. -/
def guardStep (c : Nat) (t : Rat) (s : State) : State :=
  let on := (s.ctl c).guarded
  if !on && decide ((s.pwr.guardT.toNat : Rat) ≤ t) then
    pwrEvent 0x4007 c (raise pgPwr 3 (errTrans pgPwr (s.onCtl c (fun q => { q with guarded := true }))))
  else if on && decide (t ≤ (s.pwr.guardRel.toNat : Rat)) then s.onCtl c (fun q => { q with guarded := false })
  else s

/-- DIODE_SAMPLE (R342, R354): a diode that is SUSPECT or FAULT is replaced by its site's used value. -/
def diodeSample (d : Nat) (temp : BitVec 12) (s : State) : State :=
  let s1 := s.onSensor d (fun q => { q with temp := temp, valid := true })
  if d < 208 then
    let q := s1.sensor d
    let s2 := noteSum 0 d temp.toInt s1
    guardStep d (if sensorOk q then (temp.toInt : Rat) / 16 else (s.site d).u) s2
  else s1

def execDiodeSample (diode : Fin 240) (temp : BitVec 12) (s : State) : Res := .next (diodeSample diode.val temp s)

/-- HARDWARE_TRIP (R346): a diode marked FAULT is not compared. -/
def hardwareTrip (d : Nat) (s : State) : State := if (s.sensor d).fault then s else trip d s

def execHardwareTrip (diode : Fin 240) (s : State) : Res := .next (hardwareTrip diode.val s)

/-! ### Sensor marks (R357–R359) -/

/-- A sensor of the die by its key, or a coolant sensor by its SENS key. -/
def sensorOf : SensorId → Nat ⊕ Nat
  | .core n => .inl n.val
  | .edge i => .inl (208 + i.val)
  | .ledge k => .inl (240 + k.val)
  | .stack k => .inl (244 + k.val)
  | .therm i => .inr (32 + i.val)
  | .flow i => .inr (16 + i.val)
  | .dp a => .inr a.val

/-- R377: what an event of a sensor names: the site, and the diode of an edge site. -/
def dieEvent (code k : Nat) (s : State) : State :=
  campEvent code (sensorSite k) (if 208 ≤ k ∧ k < 240 then k - 208 else 0) s

/-- R376, R378: NOSENSE follows the marks; a site's loss of its last usable sensor raises its bit. -/
def senseLevel (k : Nat) (was : Bool) (s : State) : State :=
  let s1 := s.onThm (fun t => { t with nosense := (sitesOf s.env.variant).any (siteBlind s) })
  if siteBlind s (sensorSite k) && !was then raise pgThm 2 s1 else s1

/-- The mark of a coolant sensor. -/
def State.onMark (k : Nat) (f : Sensor → Sensor) (s : State) : State :=
  s.onCool (fun c => { c with marks := fput {} k (f (fget {} c.marks k)) c.marks })

/-- An input as an event names it: its number within its kind, and the kind. -/
def inputNum (k : Nat) : Nat := if 32 ≤ k then k - 32 else if 16 ≤ k then k - 16 else k
def inputKind (k : Nat) : Nat := if 32 ≤ k then 2 else if 16 ≤ k then 1 else 0

def coolEvent (code k : Nat) (s : State) : State := cairnEvent code (inputNum k) (leBytes 4 (inputKind k)) s

/-- SENSOR_SUSPECT (R357, R378). -/
def markSuspect (id : SensorId) (s : State) : State :=
  match sensorOf id with
  | .inl k =>
    if (s.sensor k).suspect || (s.sensor k).fault then s
    else senseLevel k (siteBlind s (sensorSite k)) (raise pgThm 0 (errTrans pgThm (dieEvent 0x5001 k
      (s.onSensor k (fun q => { q with suspect := true })))))
  | .inr k =>
    let q := fget {} s.cool.marks k
    if q.suspect || q.fault then s
    else when s.env.dieUp (fun t => raise pgThm 0 (errTrans pgThm t))
      (coolEvent 0x5001 k (s.onMark k (fun q => { q with suspect := true })))

def execSensorSuspect (sensor : SensorId) (s : State) : Res := .next (markSuspect sensor s)

/-- SENSOR_SUSPECT_CLEAR (R358). -/
def clearSuspect (id : SensorId) (s : State) : State :=
  match sensorOf id with
  | .inl k =>
    if (s.sensor k).suspect then
      senseLevel k true (dieEvent 0x5002 k (s.onSensor k (fun q => { q with suspect := false })))
    else s
  | .inr k =>
    if (fget {} s.cool.marks k).suspect then coolEvent 0x5002 k (s.onMark k (fun q => { q with suspect := false })) else s

def execSensorSuspectClear (sensor : SensorId) (s : State) : Res := .next (clearSuspect sensor s)

/-- R103, R233, R359: a core's diode is FAULT: the DIODE cause, and the fence once its pitch has completed. -/
def coreDiodeFault (c : Nat) (s : State) : State :=
  fenceIfDue c (setCause c 7 (s.onCtl c (fun q => { q with diodeFault := true })))

/-- SENSOR_FAULT (R359, R378). -/
def markFault (id : SensorId) (s : State) : State :=
  match sensorOf id with
  | .inl k =>
    if (s.sensor k).fault then s
    else
      let s1 := senseLevel k (siteBlind s (sensorSite k)) (raise pgThm 1 (errPerm pgThm (dieEvent 0x5003 k
        (s.onSensor k (fun q => { q with fault := true, suspect := false })))))
      if k < 208 then coreDiodeFault k s1 else s1
  | .inr k =>
    if (fget {} s.cool.marks k).fault then s
    else when s.env.dieUp (fun t => raise pgThm 1 (errPerm pgThm t))
      (coolEvent 0x5003 k (s.onMark k (fun q => { q with fault := true, suspect := false })))

def execSensorFault (sensor : SensorId) (s : State) : Res := .next (markFault sensor s)

/-! ### The model (R360) -/

def sumRat (xs : List Nat) (f : Nat → Rat) : Rat := xs.foldl (fun a i => a + f i) 0

/-- R360: a coefficient at the flow Q_cap: interpolated between the sets at 1.0 to 4.5 L/min. -/
def coefAt (s : State) (kind i j : Nat) : Rat :=
  let q := qCap s.cool
  let pos : Rat := ((q.1 : Rat) / (q.2 : Rat) - 1000) / 500
  let c := fun (b : Nat) => Config.thermCoef s.thm.model kind b i j
  if pos ≤ 0 then c 0
  else if 7 ≤ pos then c 7
  else
    let b := pos.floor.toNat
    c b + (c (b + 1) - c b) * (pos - (b : Rat))

/-- The units that draw power: cores, stacks, the Ledge, the mesh, ports, the host link and F. -/
def units : List Nat := List.range 236

/-- R361, p: tokens per epoch over the last ten epochs. -/
def drawn (s : State) (u : Nat) : Rat :=
  if u = 235 then (fixedRes s s.pwr.b.toNat : Rat) else ((fget 0 s.thm.debits u : Nat) : Rat) / 2560

/-- The class reservations in force, in 1/256 token (R325). -/
def resNow (s : State) : ClassRes := classRes s s.pwr.b.toNat (fixedRes s s.pwr.b.toNat)

/-- R339: the grant plan, in tokens per epoch. -/
def planOf (s : State) (r : ClassRes) (u : Nat) : Rat :=
  if u < 208 then (((s.ctl u).lastGrants + wantOf s u : Nat) : Rat) / 256
  else if u < 216 then ((fget 0 r.hbm (u - 208) : Nat) : Rat) / 256
  else if u = 216 then (((r.ledge.map (·.2)).sum : Nat) : Rat) / 256
  else if u = 217 then (r.mesh : Rat) / 256
  else if u < 234 then ((fget 0 r.fab (u - 218) : Nat) : Rat) / 256
  else if u = 234 then (r.hostl : Rat) / 256
  else (fixedRes s s.pwr.b.toNat : Rat)

/-- R360: the core entries of H50[k] that are kept: the 16 largest. -/
def keptCores (s : State) (k : Nat) : List Nat :=
  let h := fun (i : Nat) => coefAt s 4 k i
  (List.range 208).filter (fun i => h i != 0 &&
    decide (((List.range 208).filter (fun j => decide (h i < h j) || (decide (h i = h j) && decide (j < i)))).length < 16))

/-- H50[k][u], without the core entries that are not kept. -/
def h50 (s : State) (k u : Nat) : Rat := if u < 208 ∧ !(keptCores s k).contains u then 0 else coefAt s 4 k u

/-! ### THERMAL_UPDATE (R361, R362, R364) -/

/-- T_in in °C, as Cairn last committed it. -/
def inletNow (s : State) : Rat := (s.thm.regs.tin.toInt : Rat) / 16

/-- R361: the open-loop state. -/
def modelStep (s : State) : FMap Rat :=
  (List.range 250).foldl (fun m i => fput 0 i
    (sumRat (List.range 250) (fun j => coefAt s 0 i j * fget 0 s.thm.x j) + sumRat units (fun u => coefAt s 1 i u * drawn s u)
      + coefAt s 2 i 0 * inletNow s) m) []

/-- R361: a site's values after the update. With no forecast of 50 updates earlier its error has no stated value: site
20. -/
def siteStep (s : State) (x : FMap Rat) (r : ClassRes) (k : Nat) : Site :=
  let q := s.site k
  let ref := fget 0 x k + q.b
  let rs := siteReadings s k
  let u := usedValue rs ref
  let b := match rs with
    | [] => q.b
    | a :: as => q.b + (as.foldl max a - ref) / 100000
  let f := sumRat (List.range 250) (fun j => coefAt s 3 k j * fget 0 x j) + sumRat units (fun i => h50 s k i * planOf s r i)
    + coefAt s 5 k 0 * inletNow s + b + max 0 (u - ref)
  let e : Rat := match q.hist[49]? with
    | some g => u - g
    | none => (Config.openInt 20 k : Rat)
  { b := b, m := min 10 (max (q.m - 1 / 1000) (max e 0)), u := u, ref := ref, f := f, hist := (f :: q.hist).take 50
    x := if siteBlind s k then 5 else 0 }

def targetOf (s : State) (k : Nat) : Rat := if 226 ≤ k then (s.thm.hbmTarget.toNat : Rat) else (s.thm.tjTarget.toNat : Rat)

/-- R361: h of a site. -/
def headroom (s : State) (r : ClassRes) (k : Nat) (q : Site) : Rat :=
  targetOf s k - q.m - q.x - (q.f + sumRat (List.range 208) (fun i =>
    h50 s k i * (((s.ctl i).allow.toNat : Rat) / 16 - planOf s r i)))

/-- R361: a core's new allowance in 1/16 token, rounded down; a fenced core's is 0 (R339). -/
def newAllow (s : State) (hs : List (Nat × Rat)) (i : Nat) : BitVec 12 :=
  if (s.ctl i).st = .fenced ∨ (s.ctl i).st = .wiping then 0
  else
    let steps := (hs.filter (fun (e : Nat × Rat) => decide (0 < h50 s e.1 i))).map
      (fun (e : Nat × Rat) => e.2 / (((keptCores s e.1).length : Rat) * h50 s e.1 i))
    let d : Rat := match steps with
      | [] => 0
      | a :: as => as.foldl min a
    let v := max 0 (min (s.pwr.epochMax.toNat : Rat) (((s.ctl i).allow.toNat : Rat) / 16 + d))
    BitVec.ofNat 12 (v * 16).floor.toNat

/-- R361, R364: a stack's new allowance in 1/16 token. With H50 of the stack itself at 0 it has no stated value: site 21. -/
def newStackAllow (s : State) (r : ClassRes) (k : Nat) (h : Rat) (u : Rat) : Nat :=
  if (s.thm.hbmTarget.toNat : Rat) ≤ u then 0
  else if h50 s (226 + k) (208 + k) = 0 then Config.openNat 21 k % 4081
  else (max 0 (min 255 (((fget 0 r.hbm k : Nat) : Rat) / 256 + h / h50 s (226 + k) (208 + k))) * 16).floor.toNat

/-- The readings that come with an update (R354). -/
def storeTemps (ledgeT hbmT : List (BitVec 12)) (s : State) : State :=
  let put := fun (base n : Nat) (ts : List (BitVec 12)) (t : State) =>
    forAll (ts.zipIdx.take n) (fun (e : BitVec 12 × Nat) (t : State) =>
      t.onSensor (base + e.2) (fun q => { q with temp := e.1, valid := true })) t
  put 244 s.env.variant.stacks hbmT (put 240 (2 * s.env.variant.dies) ledgeT s)

/-- A temperature in 1/16 °C; its rounding is site 19. -/
def sixteenths (t : Rat) : BitVec 12 := BitVec.ofInt 12 (openRound 19 (t * 16))

/-- R377: the events of an update: margins that pass 5 K, and stacks that reach their target. -/
def siteEvents (s : State) (k : Nat) (q : Site) (t : State) : State :=
  let old := s.site k
  let t1 := when (decide (5 < q.m) && !decide (5 < old.m)) (fun t => raise pgThm 3 (campEvent 0x5004 k 0 t)) t
  when (decide (226 ≤ k) && decide (targetOf s k ≤ q.u) && !decide (targetOf s k ≤ old.u)) (campEvent 0x5005 k 0) t1

/-- THM_HOT: the highest forecast and its site, the lowest among equals. -/
def hottest (qs : List (Nat × Site)) : Nat × Rat :=
  match qs with
  | [] => (0, 0)
  | (k, q) :: rest => rest.foldl (fun (b : Nat × Rat) (e : Nat × Site) => if b.2 < e.2.f then (e.1, e.2.f) else b) (k, q.f)

/-- The allowances reach the arbiter (R340, R362); their sums serve R484. -/
def loadAllow (cores : List (Nat × BitVec 12)) (sts : List (Nat × Nat)) (s : State) : State :=
  let s1 := forAll cores (fun (e : Nat × BitVec 12) t => t.onCtl e.1 (fun q => { q with allow := e.2 })) s
  let s2 := s1.onPwr (fun p => { p with
    stackAllow := sts.foldl (fun m (e : Nat × Nat) => fput none e.1 (some e.2) m) p.stackAllow })
  forAll cores (fun (e : Nat × BitVec 12) t => noteSum 5 e.1 e.2.toNat t) s2

/-- THM_FCAST.MARGIN: M + X in 1/16 K. -/
def marginField (q : Site) : Nat := (sixteenths (q.m + q.x)).toNat % 256

/-- R484: the readings of a core's site enter the sums of the running interval. -/
def noteSite (k : Nat) (q : Site) (s : State) : State :=
  if k < 208 then
    noteSum 4 k (marginField q) (noteSum 3 k (sixteenths q.f).toInt
      (noteSum 2 k (sixteenths q.ref).toInt (noteSum 1 k (sixteenths q.u).toInt s)))
  else s

def updateModel (s : State) : State :=
  let x := modelStep s
  let r := resNow s
  let qs := (sitesOf s.env.variant).map (fun k => (k, siteStep s x r k))
  let hs := qs.map (fun (e : Nat × Site) => (e.1, headroom s r e.1 e.2))
  let hot := hottest qs
  let at_ := fun (k : Nat) => ((hs.find? (fun e => e.1 == k)).map (·.2)).getD 0
  let uOf := fun (k : Nat) => ((qs.find? (fun e => e.1 == k)).map (fun e => e.2.u)).getD 0
  let cores := (List.range 208).map (fun i => (i, newAllow s hs i))
  let sts := (List.range s.env.variant.stacks).map (fun k => (k, newStackAllow s r k (at_ (226 + k)) (uOf (226 + k))))
  let s1 := s.onThm (fun t => { t with
    x := x, sites := qs.foldl (fun m (e : Nat × Site) => fput {} e.1 e.2 m) t.sites
    updates := t.updates + 1, debits := [], silent := false
    hotF := sixteenths hot.2, hotSite := BitVec.ofNat 8 hot.1 })
  loadAllow cores sts (forAll qs (fun (e : Nat × Site) t => noteSite e.1 e.2 (siteEvents s e.1 e.2 t)) s1)

/-- THERMAL_UPDATE (R361): without RUN only the readings are taken. -/
def thermalUpdate (ledgeT hbmT : List (BitVec 12)) (s : State) : State :=
  let s1 := storeTemps ledgeT hbmT s
  if s.thm.run then updateModel s1 else s1

def execThermalUpdate (ledgeT hbmT : List (BitVec 12)) (s : State) : Res := .next (thermalUpdate ledgeT hbmT s)

/-! ### Silence and RUN (R360, R363) -/

/-- R363: 2.00 tokens for every core that is not fenced, 10 for every stack. -/
def fallbackAllow (s : State) : State :=
  let cs := (List.range 208).map (fun i =>
    (i, if (s.ctl i).st = .fenced ∨ (s.ctl i).st = .wiping then (0 : BitVec 12) else 32))
  loadAllow cs ((List.range s.env.variant.stacks).map (fun k => (k, 160)))
    (s.onThm (fun t => { t with silent := true }))

/-- ALLOWANCE_SILENCE (R363, R377). -/
def allowanceSilence (s : State) : State := raise pgThm 4 (campEvent 0x5006 0 0 (fallbackAllow s))

def execAllowanceSilence (s : State) : Res := .next (allowanceSilence s)

/-- THM_RUN (R360, R363): clearing RUN with the rails on brings the fixed allowances. -/
def thmRun (on : Bool) (s : State) : State :=
  let s1 := s.onThm (fun t => { t with run := on })
  if !on && s.thm.run && s.env.rails then fallbackAllow s1 else s1

def execThmRun (on : Bool) (s : State) : Res := .next (thmRun on s)

/-- THM_MODEL_DATA_WRITE (R360, R378). -/
def modelWrite (v : Word) (s : State) : State :=
  if s.thm.run then s
  else s.onThm (fun t => { t with model := fput 0 t.modelIdx.toNat v t.model, modelIdx := t.modelIdx + 1 })

def execThmModelDataWrite (v : Word) (s : State) : Res := .next (modelWrite v s)

end Sys2Proof.Machine
end

