-- ==== Sys2Proof/Machine/PowerUp.lean ====
section
/-! DEFINITION. Standby and module start-up, the input, POWER_EN, the reference and the Cairn watchdog (R19–R32, R483, R495,
R501, R504–R508, R540, R549–R559). -/

namespace Sys2Proof.Machine

/-! ### Firmware images (R504–R506) -/

def FwDomain.num : FwDomain → Nat
  | .cairn => 0
  | .camp => 1

def FwDomain.size : FwDomain → Nat
  | .cairn => 2 ^ 21
  | .camp => 2 ^ 23

def variantNum : Variant → Nat
  | .m740 => 0 | .m724 => 1 | .m712 => 2

def State.img (s : State) (k : Nat) : ImgArea := fget {} s.cairn.imgs k
def State.setImg (k : Nat) (a : ImgArea) (s : State) : State :=
  s.onCairn (fun c => { c with imgs := fput {} k a c.imgs })

/-- The area an active image, and a staged one, lies in. -/
def activeArea (d : FwDomain) : Nat := 2 * FwDomain.num d
def stagingArea (d : FwDomain) : Nat := 2 * FwDomain.num d + 1

def floorOf (s : State) : FwDomain → Nat
  | .cairn => s.sec.cairnFloor.toNat
  | .camp => s.sec.campFloor.toNat

def svnOf (a : ImgArea) : Nat := Config.imgField a.bytes 3 % 64

/-- R505: the checks of an image. -/
def imageOk (s : State) (d : FwDomain) (a : ImgArea) : Bool :=
  Config.imgField a.bytes 0 % 2 == 1 && Config.imgField a.bytes 1 == FwDomain.num d
    && Config.imgField a.bytes 2 == variantNum s.env.variant && decide (floorOf s d ≤ svnOf a)
    && decide (a.len ≤ FwDomain.size d)

/-- R506: a staged image is verified again; it becomes the active one, or stays staged with VERIFIED clear. -/
def activate (d : FwDomain) (s : State) : State :=
  let a := s.img (stagingArea d)
  if a.len = 0 then s
  else if imageOk s d a then
    cairnEvent 0xA008 (FwDomain.num d) [] ((s.setImg (activeArea d) { a with verified := false }).setImg (stagingArea d) {})
  else s.setImg (stagingArea d) { a with verified := false }

/-! ### The standby reset (R23, R31, R32) -/

/-- The module as a standby reset leaves it: what flash, fuses and the outside hold stays. -/
def bootState (s : State) : State :=
  { State.reset with
    pending := s.pending
    env := { variant := s.env.variant }
    ctls := shippedMap (shippedCores s), fence := { logicalCount := (shippedCores s).length }
    host := { mem := s.host.mem }
    pwr := { throttlePin := s.pwr.throttlePin }
    hut := { book := s.hut.flash, flash := s.hut.flash, clears := s.hut.clears }
    cbus := { boot := s.cbus.boot + 1 }
    sec := { life := s.sec.life, cairnFloor := s.sec.cairnFloor, campFloor := s.sec.campFloor }
    cairn := {
      imgs := s.cairn.imgs, cur := s.cairn.cur, prev := s.cairn.prev, staged := s.cairn.staged
      faults := s.cairn.faults, shipped := s.cairn.shipped, watchdog := s.cairn.watchdog }
    fresh := s.fresh }

/-- STANDBY_RESET (R31, R506): the boot ROM activates staged images first. -/
def standbyReset (s : State) : State := activate .camp (activate .cairn (bootState s))

def execStandbyReset (s : State) : Res := .next (standbyReset s)

/-- R406: every drive channel goes to its safe state. -/
def allSafe (s : State) : State := forAll (List.range 6) motorSafe (forAll (List.range 4) valveSafe s)

def setModFault (on : Bool) (s : State) : State := s.onCairn (fun c => { c with modFault := on })

/-- STANDBY_FALLING_THRESHOLD (R35, R516, R549). -/
def standbyFalling (s : State) : State := (flushBook (allSafe s)).onHut (fun h => { h with powerFail := true })

def execStandbyFallingThreshold (s : State) : Res := .next (standbyFalling s)

/-- STANDBY_POWER_LOST (R549, R550, R561): Cairn stops; its outputs are high-impedance and open-drain ones released. -/
def powerLost (s : State) : State :=
  (bootState { s with cbus := { s.cbus with boot := s.cbus.boot - 1 } }).onCairn (fun c => { c with
    st := .stopped, modFault := false })

def execStandbyPowerLost (s : State) : Res := .next (powerLost s)

/-- CAIRN_WATCHDOG_EXPIRY (R495). -/
def watchdogExpiry (s : State) : State :=
  standbyReset ((flushBook (setModFault true (moduleReset (allSafe s)))).onCairn (fun c => { c with watchdog := true }))

def execCairnWatchdogExpiry (s : State) : Res := .next (watchdogExpiry s)

/-! ### The input (R549) -/

/-- Cairn shuts down the rails where they are on, and the supervisor is OFF. -/
def railsOff (s : State) : State := coolSet .off (if s.env.rails then moduleReset s else s)

/-- INPUT_OUT_OF_RANGE. -/
def inputOut (dv : Nat) (s : State) : State :=
  let s1 := s.onCairn (fun c => { c with inputBad := true })
  if s.env.rails then setModFault true (railsOff (cairnEvent 0x4101 dv [] s1)) else s1

def execInputOutOfRange (deciVolts : Nat) (s : State) : Res := .next (inputOut deciVolts s)

/-- A proof may begin again by itself. -/
def mayRestart (s : State) : Bool :=
  s.cairn.powerEn && s.cairn.checked && !s.cairn.barred && !s.env.rails && decide (s.cool.st = .off) && !s.cool.proofFailed

/-- INPUT_BACK_IN_RANGE. -/
def inputBack (s : State) : State :=
  if s.cairn.inputBad then
    let s1 := cairnEvent 0x4102 0 [] (s.onCairn (fun c => { c with inputBad := false }))
    if mayRestart s1 && !s1.env.holdover then beginAuto s1 else s1
  else s

def execInputBackInRange (_deciVolts : Nat) (s : State) : Res := .next (inputBack s)

/-! ### POWER_EN (R554, R558, R559) -/

/-- POWER_EN_ASSERTED: a proof that failed, and a second missed start, are forgotten. -/
def powerEnOn (s : State) : State :=
  if s.cairn.powerEn then s
  else
    (cairnEvent 0x4103 1 [] (s.onCairn (fun c => { c with
      powerEn := true, barred := false, repeated := false, downTs := none }))).onCool
      (fun c => { c with proofFailed := false })

def execPowerEnAsserted (s : State) : Res := .next (powerEnOn s)

/-- POWER_EN_RELEASED (R376, R558, steps 2–4). -/
def powerEnOff (s : State) : State :=
  if !s.cairn.powerEn then s
  else
    let s1 := commitZero (coolSet .off (cairnEvent 0x4103 0 [] (s.onCairn (fun c => { c with powerEn := false }))))
    let s2 := if s.env.rails then moduleReset s1 else s1
    s2.onCairn (fun c => { c with downTs := some s.env.ts })

def execPowerEnReleased (s : State) : Res := .next (powerEnOff s)

/-- POWER_DOWN_PUMP_SAFE (R558, step 5). -/
def powerDownPumps (s : State) : State :=
  match s.cairn.downTs with
  | some t =>
    if t.toNat + 30 * second ≤ s.env.ts.toNat then (pumpsSafe s).onCairn (fun c => { c with downTs := none }) else s
  | none => s

def execPowerDownPumpSafe (s : State) : Res := .next (powerDownPumps s)

/-! ### The reference (R21, R22, R437, R518) -/

/-- REFERENCE_LOSS. -/
def referenceLoss (s : State) : State :=
  if s.env.holdover then s
  else
    let s1 := cairnEventForced 0xA00E 0 { s with env := { s.env with holdover := true } }
    let s2 := forAll (canIfs s) (fun i t =>
      setInit i true (t.onCan i (fun c => { c with resumeAfter := !c.init }))) s1
    setModFault true (railsOff s2)

def execReferenceLoss (s : State) : Res := .next (referenceLoss s)

/-- Nothing else holds MOD_FAULT_N asserted (R369, R375, R549, R555, R556). -/
def faultFree (s : State) : Bool :=
  s.cairn.checked && !s.cairn.barred && !s.cairn.inputBad && decide (s.cool.st ≠ .shutdown) && !s.cool.proofFailed

/-- REFERENCE_RETURN. -/
def referenceReturn (s : State) : State :=
  if !s.env.holdover then s
  else
    let s1 := cairnEventForced 0xA00F 0 { s with env := { s.env with holdover := false } }
    let s2 := forAll (canIfs s) (fun i t =>
      if (t.can i).resumeAfter then setInit i false (t.onCan i (fun c => { c with resumeAfter := false })) else t) s1
    let s3 := if faultFree s2 then setModFault false s2 else s2
    if mayRestart s3 && !s3.cairn.inputBad then beginAuto s3 else s3

def execReferenceReturn (s : State) : Res := .next (referenceReturn s)

/-! ### Start-up (R554–R556) -/

/-- CAIRN_IMAGE_VERIFIED (R495, R511, R540, R554, steps 3 and 4). -/
def imageVerified (s : State) : State :=
  if s.cairn.st = .rom then
    let s1 := applyStandby (s.onCairn (fun c => { c with st := .running }))
    let s2 := s1.onSec (fun c => { c with cairnRun := BitVec.ofNat 6 (svnOf (s.img (activeArea .cairn))) })
    let s3 := loopRun true (enableInts mirrorPages s2)
    if s.cairn.watchdog then cairnEvent 0xA00A 0 [] (s3.onCairn (fun c => { c with watchdog := false })) else s3
  else s

def execCairnImageVerified (s : State) : Res := .next (imageVerified s)

/-- R555: an input or a rope fails the start-up checks: its number and kind. -/
def checkFailure (s : State) : Option (Nat × Nat) :=
  match s.cairn.plant.assigned.find? (fun k => (s.input k).fault || decide ((s.input k).conversions < 3)) with
  | some k => some (inputNum k, inputKind k)
  | none =>
    ((List.range 4).find? (fun r => (s.rope r).en && !(decide ((s.rope r).band = .normal) || decide ((s.rope r).band = .marginal)))).map
      (fun r => (r, 3))

/-- STARTUP_SENSOR_CHECK. -/
def sensorCheck (s : State) : State :=
  if s.cairn.st = .running ∧ !s.cairn.checked then
    match checkFailure s with
    | some f => cairnEvent 0xA00D f.1 (leBytes 4 f.2) s
    | none =>
      let s1 := s.onCairn (fun c => { c with checked := true })
      if s.env.holdover then s1 else setModFault false s1
  else s

def execStartupSensorCheck (s : State) : Res := .next (sensorCheck s)

/-- COMPUTE_DIE_RESET_RELEASE (R24, R105, R363, R540, R554, step 7). -/
def dieRelease (s : State) : State :=
  if s.env.rails ∧ !s.env.dieUp then
    let s1 := { s with env := { s.env with dieUp := true, tsCopy := s.env.ts } }
    let s2 := forAll (List.range 208) (fun c t => t.onCtl c (fun q => { q with busyInit := true })) s1
    enableInts campPages (fallbackAllow s2)
  else s

def execComputeDieResetRelease (s : State) : Res := .next (dieRelease s)

/-- CAMP_CORES_START (R466, R472, R508, R554, step 8). -/
def campStart (s : State) : State :=
  let a := s.img (activeArea .camp)
  let s1 := s.onSec (fun c => { c with fuseLock := true })
  if imageOk s .camp a then
    (s1.onSec (fun c => { c with campRun := BitVec.ofNat 6 (svnOf a) })).onCairn (fun c => { c with
      campRun := true, campRecovery := false })
  else cairnEvent 0xA009 1 [] (s1.onCairn (fun c => { c with campRun := false, campRecovery := true }))

def execCampCoresStart (s : State) : Res := .next (campStart s)

/-- TRAINING_COMPLETE (R105, R240, R532, R554, step 9). -/
def execTrainingComplete (s : State) : Res := .next (restoreFaults s)

/-- AK_X_GENERATED (R466, R468). -/
def akGenerated (s : State) : State :=
  if s.sec.trngFailX then s
  else { s.onSec (fun c => { c with akValid := true }) with fresh := s.fresh + 1 }

def execAkXGenerated (s : State) : Res := .next (akGenerated s)

/-- ZERO_FILL_DONE (R171, R483): all usable HBM and every granule are zero, and written whole. -/
def zeroFill (s : State) : State :=
  let v := s.env.variant
  ((s.onHbm (fun h => mendHbm 0 (v.hbmBytes / 256) { h with mem := [] })).onLedge
    (fun l => mendLedge 0 (v.granules * 4096) { l with mem := [] })).onSec (fun c => { c with zeroed := true })

def execZeroFillDone (s : State) : Res := .next (zeroFill s)

/-- R507: the Cairn boot ROM enters recovery. -/
def cairnRecovery (s : State) : State :=
  let s1 := cairnEvent 0xA009 0 [] (setModFault true (railsOff (allSafe s)))
  s1.onCairn (fun c => { c with st := .recovery })

/-- STARTUP_STEP_TIMEOUT (R556). -/
def stepTimeout (n : Nat) (s : State) : State :=
  let s1 := cairnEvent 0xA00C n [] s
  if n = 2 ∨ n = 3 ∨ n = 4 then cairnRecovery s1
  else if n = 7 ∨ n = 8 ∨ n = 9 then
    let s2 := coolSet .off (moduleReset s1)
    if s.cairn.repeated then setModFault true (s2.onCairn (fun c => { c with barred := true }))
    else beginAuto (s2.onCairn (fun c => { c with repeated := true }))
  else s1

def execStartupStepTimeout (stepNo : Fin 14) (s : State) : Res := .next (stepTimeout stepNo.val s)

/-- MOD_HEARTBEAT_TOGGLE (R501): held low until firmware starts, or in recovery the ROM toggles it. -/
def heartbeatToggle (s : State) : State :=
  if s.cairn.st = .running ∨ s.cairn.st = .recovery then s.onCairn (fun c => { c with heartbeat := !c.heartbeat }) else s

def execModHeartbeatToggle (s : State) : Res := .next (heartbeatToggle s)

end Sys2Proof.Machine
end

