-- ==== Sys2Proof/Machine/Mgmt.lean ====
section
/-! DEFINITION. The request mailbox, management commands, board silence and the ledger page's reads (R496–R512, R519,
R524). -/

namespace Sys2Proof.Machine

/-- The command's status, as the requester sees it. -/
def answer (st : Status) (s : State) : State := s.setReply { status := some st }

/-! ### SVN floors (R472) -/

/-- The running SVN of a domain. -/
def svnRun (s : State) : FwDomain → Nat
  | .cairn => s.sec.cairnRun.toNat
  | .camp => s.sec.campRun.toNat

/-- A floor is raised to the running SVN; it never falls. -/
def raiseFloor (d : FwDomain) (s : State) : State :=
  let n := svnRun s d
  if n ≤ floorOf s d then s
  else cairnEvent 0x9002 n (leBytes 4 (FwDomain.num d)) (s.onSec (fun c => match d with
    | .cairn => { c with cairnFloor := BitVec.ofNat 6 n }
    | .camp => { c with campFloor := BitVec.ofNat 6 n }))

/-! ### The request mailbox (R496, R497) -/

def State.half (s : State) (camp : Bool) : MboxHalf := if camp then s.cairn.camp else s.cairn.host
def State.onHalf (camp : Bool) (f : MboxHalf → MboxHalf) (s : State) : State :=
  s.onCairn (fun c => if camp then { c with camp := f c.camp } else { c with host := f c.host })

/-- Byte `k` of a half's request. -/
def reqByte (h : MboxHalf) (k : Nat) : Byte := (fget 0 h.req (k / 4)).extractLsb' (8 * (k % 4)) 8
def reqNat (h : MboxHalf) (k n : Nat) : Nat := leNat ((List.range n).map (fun i => reqByte h (k + i)))

/-- READY (R472, R497, R541). -/
def reportReady (svn : Byte) (s : State) : State :=
  let s1 := (s.onGlob (fun g => { g with ready := true })).onSec (fun c => { c with campRun := BitVec.ofNat 6 svn.toNat })
  let s2 := if s.glob.ready then s1 else raise pgGlobal 1 s1
  if s.sec.autoFloor then raiseFloor .camp (raiseFloor .cairn s2) else s2

/-- STATUS, word 0: no rule lays out its fields. Word 4: the flags of the staged images. -/
def statusWords (s : State) : List Word :=
  let c := s.cairn
  [BitVec.ofNat 32 (Config.openNat 23 (coolCode s.cool.st + 8 * c.auto.toNat + 16 * s.sec.life.toNat)),
   c.cur.num, (c.prev.map (·.num)).getD 0, c.inforce.num,
   BitVec.ofNat 32 (Config.openNat 22 ((s.img 1).verified.toNat + 2 * (s.img 3).verified.toNat
     + 4 * (decide ((s.img 1).len ≠ 0)).toNat + 8 * (decide ((s.img 3).len ≠ 0)).toNat))]

/-- R497: what a request does, with its status and its response words. -/
def request (camp : Bool) (h : MboxHalf) (s : State) : State × Status × List Word :=
  let code := (reqByte h 0).toNat
  let denied := (s, Status.denied, [])
  if camp then
    if code = 0x01 then
      if (reqByte h 4).toNat ≤ 6 then
        (s.onCairn (fun c => { c with
          faults := c.faults ++ [⟨reqByte h 4, BitVec.ofNat 16 (reqNat h 6 2), BitVec.ofNat 16 (reqNat h 8 2)⟩] }), .ok, [])
      else denied
    else if code = 0x02 then (s, .ok, [])
    else if code = 0x03 then (reportReady (reqByte h 4) s, .ok, [])
    else if code = 0x04 then
      if reqNat h 4 4 < genWords s.cairn.inforce then
        (s.onCairn (fun c => { c with cfgIdx := BitVec.ofNat 21 (reqNat h 4 4) }), .ok, [])
      else denied
    else denied
  else
    if code = 0x10 then
      if 0x3000 ≤ reqNat h 4 2 ∧ reqNat h 4 2 ≤ 0x3FFF then
        (cairnEvent (reqNat h 4 2) (reqNat h 6 2) ((List.range 8).map (fun i => reqByte h (8 + i))) s, .ok, [])
      else denied
    else if code = 0x11 then (flushBook s, .ok, [])
    else if code = 0x12 then (s, .ok, statusWords s)
    else denied

/-- R496: the request of a half is completed. Response words that no rule names are free. -/
def mailbox (camp : Bool) (s : State) : State :=
  let h := s.half camp
  let r := request camp h s
  let rsp := (List.range 6).map (fun k => r.2.2.getD k (BitVec.ofNat 32 (Config.openNat 24 (8 * (reqByte h 0).toNat + k))))
  let s1 := r.1.onHalf camp (fun q => { q with
    busy := false, status := r.2.1.code
    rsp := (rsp.zipIdx).foldl (fun m (e : Word × Nat) => fput 0 e.2 e.1 m) [] })
  raise pgMbox camp.toNat s1

/-- A half's request words are written; a word not given is zero. -/
def storeReq (camp : Bool) (bs : List Byte) (s : State) : State :=
  s.onHalf camp (fun h => { h with
    req := (List.range 8).foldl (fun m k => fput 0 k (BitVec.ofNat 32 (leAt (padBytes 32 bs) (4 * k) 4)) m) [] })

/-- A mailbox request as its sender makes it: request words, then the doorbell, then the status it reads. -/
def postRequest (camp : Bool) (bs : List Byte) (s : State) : State :=
  let s1 := mailbox camp (storeReq camp bs s)
  s1.setReply {
    status := some ((request camp ((storeReq camp bs s).half camp) (storeReq camp bs s)).2.1)
    bytes := (List.range 6).flatMap (fun k => leBytes 4 (fget 0 (s1.half camp).rsp k).toNat) }

/-- FAULT. -/
def execCampFault (kind : Byte) (unit unit2 : BitVec 16) (s : State) : Res :=
  .next (postRequest true ([0x01, 0, 0, 0, kind, 0] ++ leBytes 2 unit.toNat ++ leBytes 2 unit2.toNat) s)

/-- TRIP. -/
def execCampTrip (ended : Byte) (diode : BitVec 16) (s : State) : Res :=
  .next (postRequest true ([0x02, 0, 0, 0, ended, 0] ++ leBytes 2 diode.toNat) s)

/-- READY. -/
def execCampReady (svn : Byte) (s : State) : Res := .next (postRequest true [0x03, 0, 0, 0, svn] s)

/-- SEEK. -/
def execCampSeek (idx : Word) (s : State) : Res := .next (postRequest true ([0x04, 0, 0, 0] ++ leBytes 4 idx.toNat) s)

/-- EVENT. -/
def execHostEvent (code value : BitVec 16) (arg : DWord) (s : State) : Res :=
  .next (postRequest false ([0x10, 0, 0, 0] ++ leBytes 2 code.toNat ++ leBytes 2 value.toNat ++ leBytes 8 arg.toNat) s)

/-- FLUSH. -/
def execHostFlush (s : State) : Res := .next (postRequest false [0x11] s)

/-- STATUS. -/
def execHostStatus (s : State) : Res := .next (postRequest false [0x12] s)

/-- CFGL_DATA_READ (R524). -/
def cfglRead (s : State) : State :=
  let k := s.cairn.cfgIdx
  let w := if k.toNat < genWords s.cairn.inforce then genWord s.cairn.inforce k.toNat
    else BitVec.ofNat 32 (Config.openNat 25 k.toNat)
  (s.onCairn (fun c => { c with cfgIdx := c.cfgIdx + 1 })).setReply { value := w.setWidth 64 }

def execCfglDataRead (s : State) : Res := .next (cfglRead s)

/-! ### Board silence (R502, R503) -/

/-- BOARD_ACTIVITY. -/
def execBoardActivity (s : State) : Res := .next (s.onCairn (fun c => { c with bmcLate := false }))

/-- BMC_LATE. -/
def bmcLate (s : State) : State :=
  if s.cairn.bmcLate then s else cairnEvent 0xA001 0 [] (s.onCairn (fun c => { c with bmcLate := true }))

def execBmcLate (s : State) : Res := .next (bmcLate s)

/-- The board cap of autonomous mode. -/
def autoCap (s : State) : BitVec 12 := s.cairn.policy.autoBoard.getD (BitVec.ofNat 12 s.env.variant.rated)

/-- AUTONOMOUS_MODE_ENTER. -/
def autonomous (s : State) : State :=
  if s.cairn.auto then s
  else raise pgLog 2 (cairnEvent 0xA002 0 [] (s.onCairn (fun c => { c with auto := true, boardCap := autoCap s })))

def execAutonomousModeEnter (s : State) : Res := .next (autonomous s)

/-! ### Management commands (R500) -/

def Role.rank : Role → Nat
  | .none => 0 | .monitor => 1 | .operator => 2 | .service => 3

/-- The principals in force; the boot ROM in recovery reads the current generation (R507). -/
def policyNow (s : State) : Policy :=
  if s.cairn.st = .recovery then policyOf s.cairn.cur.entries else s.cairn.policy

def roleIn (s : State) : Principal → Role
  | some k => fget Role.none (policyNow s).roles k.val
  | none => .none

/-- The digest of a principal's certificate. -/
def certOf (s : State) : Principal → List Byte
  | some k => fget [] (policyNow s).certs k.val
  | none => []

def whoNum (who : Principal) : Nat := (who.map (·.val)).getD 0

/-- R500, R507: a command is authorised by its requester's role; the boot ROM in recovery takes three commands only, and
nobody answers while Cairn does not run. `n` is the command's place in R500's table. -/
def mgmt (need : Role) (inRom : Bool) (n : Nat) (who : Principal) (act : State → State) (s : State) : State :=
  if s.cairn.st = .rom ∨ s.cairn.st = .stopped then s.setReply {}
  else if (s.cairn.st = .recovery ∧ !inRom) ∨ (roleIn s who).rank < need.rank then
    answer .denied (cairnEvent 0xA004 (Config.openNat 26 n) [] s)
  else act s

/-- A command that its condition refuses changes nothing and completes with DENIED. -/
def orDenied (ok : Bool) (act : State → State) (s : State) : State := if ok then answer .ok (act s) else answer .denied s

/-- SET_BOARD_CAP (R503). -/
def setBoardCap (cap : BitVec 12) (s : State) : State :=
  let s1 := s.onCairn (fun c => { c with boardCap := cap, auto := false })
  if s.cairn.auto then cairnEvent 0xA003 0 [] s1 else s1

def execSetBoardCap (who : Principal) (cap : BitVec 12) (s : State) : Res :=
  .next (mgmt .operator false 1 who (fun t => answer .ok (setBoardCap cap t)) s)

/-- MODULE_RESET (R31, R500). -/
def execModuleReset (who : Principal) (s : State) : Res :=
  .next (mgmt .operator false 2 who (fun t => answer .ok (moduleReset (coolSet .off (cairnEvent 0xA00B 0 [] t)))) s)

/-- The pending generation with an entry more. -/
def staged (s : State) (tag : BitVec 16) (bs : List Byte) : List (BitVec 16 × List Byte) :=
  s.cairn.staged.getD [] ++ [(tag, bs)]

/-- LEDGER_STAGE (R504, R509): the pending area holds 8 MiB with the header's 56 bytes. -/
def execLedgerStage (who : Principal) (tag : BitVec 16) (bytes : List Byte) (s : State) : Res :=
  .next (mgmt .operator false 3 who (fun t =>
    orDenied (decide ((entryBytes (staged t tag bytes)).length + 56 ≤ 2 ^ 23))
      (fun u => u.onCairn (fun c => { c with staged := some (staged u tag bytes) })) t) s)

/-- LEDGER_COMMIT (R509, R510): a refusal names the first failing tag. -/
def ledgerCommit (s : State) : State :=
  match s.cairn.staged with
  | none => answer .denied s
  | some es =>
    match firstFailing s.env.variant es with
    | some t => s.setReply { status := some .denied, value := BitVec.ofNat 64 t }
    | none => answer .ok (cairnEvent 0xA005 0 [] (s.onCairn (fun c => { c with
        cur := ⟨c.cur.num + 1, es⟩, prev := some c.cur, staged := none })))

def execLedgerCommit (who : Principal) (s : State) : Res := .next (mgmt .operator false 4 who ledgerCommit s)

/-- LEDGER_REVERT (R512). -/
def ledgerRevert (s : State) : State :=
  match s.cairn.prev with
  | none => answer .denied s
  | some g => answer .ok (cairnEvent 0xA006 0 [] (s.onCairn (fun c => { c with
      cur := ⟨c.cur.num + 1, g.entries⟩, prev := some c.cur, staged := none })))

def execLedgerRevert (who : Principal) (s : State) : Res := .next (mgmt .operator false 5 who ledgerRevert s)

/-- FW_STAGE (R505). -/
def fwStage (d : FwDomain) (off : Nat) (bs : List Byte) (s : State) : State :=
  let k := stagingArea d
  let a := s.img k
  orDenied (decide (bs.length ≤ 1024) && decide (off + bs.length ≤ FwDomain.size d)) (State.setImg k { a with
    bytes := memPut a.bytes off bs, verified := false
    len := if bs = [] then a.len else max a.len (off + bs.length) }) s

def execFwStage (who : Principal) (dom : FwDomain) (off : BitVec 24) (bytes : List Byte) (s : State) : Res :=
  .next (mgmt .operator true 6 who (fwStage dom off.toNat bytes) s)

/-- FW_VERIFY (R505). -/
def fwVerify (d : FwDomain) (s : State) : State :=
  let a := s.img (stagingArea d)
  orDenied (decide (a.len ≠ 0) && imageOk s d a)
    (fun t => cairnEvent 0xA007 (FwDomain.num d) [] (t.setImg (stagingArea d) { a with verified := true })) s

def execFwVerify (who : Principal) (dom : FwDomain) (s : State) : Res :=
  .next (mgmt .operator true 7 who (fwVerify dom) s)

/-- FW_DISCARD (R505). -/
def execFwDiscard (who : Principal) (dom : FwDomain) (s : State) : Res :=
  .next (mgmt .operator false 8 who (fun t => answer .ok (t.setImg (stagingArea dom) {})) s)

/-- LATCH_CLEAR (R432). -/
def execLatchClear (who : Principal) (s : State) : Res :=
  .next (mgmt .operator false 9 who (fun t =>
    orDenied ((List.range 4).any (latchClears t)) (clearLatches (whoNum who)) t) s)

/-- RECOVER (R445). -/
def execMgmtRecover (who : Principal) (i : IfId) (s : State) : Res :=
  .next (mgmt .operator false 10 who (fun t =>
    orDenied (decide ((t.can i).st = .halted)) (fun u => u.onCan i (fun c => { c with st := .recovering })) t) s)

/-- FLOW_RESTART (R375). -/
def execFlowRestart (who : Principal) (s : State) : Res :=
  .next (mgmt .operator false 11 who (fun t =>
    orDenied (t.cairn.powerEn && (decide (t.cool.st = .shutdown) || (decide (t.cool.st = .off) && t.cool.proofFailed)))
      beginProof t) s)

/-- R458: channels safe, LEASE with RELEASE, and the group in STANDBY. -/
def leaseRelease (g : Nat) (s : State) : State :=
  leaseState g .standby (cairnEvent 0x8204 g [] (sendLease g false true (groupSafe g s)))

def execLeaseRelease (who : Principal) (g : GroupId) (s : State) : Res :=
  .next (mgmt .operator false 12 who (fun t => orDenied (decide ((t.group g).st = .holding)) (leaseRelease g.val) t) s)

/-- INJECT (R392): the next GO is authorised. -/
def execMgmtInject (who : Principal) (s : State) : Res :=
  .next (mgmt .service false 13 who (fun t => answer .ok (t.onLoop (fun l => { l with injAuth := who }))) s)

/-- FLOOR_RAISE (R472). -/
def execFloorRaise (who : Principal) (dom : FwDomain) (s : State) : Res :=
  .next (mgmt .service false 14 who (fun t => answer .ok (raiseFloor dom t)) s)

/-- FAULT_CLEAR (R241). The cores recorded at shipment (R568) stay. -/
def execFaultClear (who : Principal) (s : State) : Res :=
  .next (mgmt .service false 15 who (fun t =>
    answer .ok (cairnEvent 0xA101 0 [] (t.onCairn (fun c => { c with faults := [] })))) s)

/-- LOG_CLEAR (R519). -/
def execLogClear (who : Principal) (s : State) : Res :=
  .next (mgmt .service false 16 who (fun t => answer .ok (clearBook (whoNum who) (certOf t who) t)) s)

end Sys2Proof.Machine
end

