-- ==== Sys2Proof/Machine/Keys.lean ====
section
/-! DEFINITION. Fabric keying, the TRNGs, measurements, SPDM and the TDISP answers (R312, R466–R476). -/

namespace Sys2Proof.Machine

/-! ### Random numbers (R468) -/

/-- TRNG_HEALTH_FAILURE: the compute die's, or Cairn's. The SEC page is the compute die's. -/
def trngFail (die : Bool) (s : State) : State :=
  if die then raise pgSec 0 (errTrans pgSec (campEvent 0x9001 1 0 (s.onSec (fun c => { c with trngFailX := true }))))
  else cairnEvent 0x9001 0 [] (s.onSec (fun c => { c with trngFailC := true }))

def execTrngHealthFailure (die : Bool) (s : State) : Res := .next (trngFail die s)

/-- TRNG_HEALTH_RECOVER. -/
def execTrngHealthRecover (die : Bool) (s : State) : Res :=
  .next (s.onSec (fun c => if die then { c with trngFailX := false } else { c with trngFailC := false }))

/-! ### Fabric keying (R474–R476) -/

/-- R475: the partner's chain and signature verify, and its digest is accepted where FAB_ATTEST asks for it. -/
def partnerOk (s : State) (m : KeyMsg) : Bool :=
  let roots := if m.switch then s.cairn.policy.roots else [[]]
  roots.any (fun r => Config.chainOk m.chain r % 2 == 1) && Config.sigOk m.chain m.body m.sig % 2 == 1
    && (m.switch || !s.sec.fabAttest || s.cairn.policy.digests.contains m.digest)

/-- R475, R489: the partner is refused, and step 3 of R248 fails. -/
def refusePartner (p : Nat) (s : State) : State := errPerm pgSec (campEvent 0x9202 p 0 s)

/-- KEY_HELLO_RX (R248, R276, R474–R476): an accepted HELLO is answered with a CT, which gives the key of the direction
it names; in a rotation that key waits for the next run. -/
def keyHello (p : Nat) (m : KeyMsg) (s : State) : State :=
  let q := s.port p
  if q.st = .keying then
    if !partnerOk s m then refusePartner p s
    else if s.sec.trngFailX then s
    else sendKey p true (s.onPort p (fun q => { q with
      txReady := true, partnerNode := m.node, partnerPort := m.port, partnerV := true }))
  else if q.carries then
    if s.sec.trngFailX then beginReset p 1 (s.onPort p (fun q => { q with rotating := false }))
    else sendKey p true (s.onPort p (fun q => { q with rotating := true, txNext := true }))
  else s

def execKeyHelloRx (p : PortId) (m : KeyMsg) (s : State) : Res := .next (keyHello p.val m s)

/-- KEY_CT_RX (R474, R476). -/
def keyCt (p : Nat) (m : KeyMsg) (s : State) : State :=
  let q := s.port p
  if q.st = .keying then
    if partnerOk s m then s.onPort p (fun q => { q with rxReady := true }) else refusePartner p s
  else if q.carries then s.onPort p (fun q => { q with rxNext := true })
  else s

def execKeyCtRx (p : PortId) (m : KeyMsg) (s : State) : Res := .next (keyCt p.val m s)

/-! ### Measurements (R471) -/

def imgBytes (a : ImgArea) : List Byte := memRead a.bytes 0 a.len

def faultBytes (e : FaultEnt) : List Byte := [e.kind] ++ leBytes 2 e.unit.toNat ++ leBytes 2 e.unit2.toNat

/-- SEC_POLICY. -/
def policyWord (c : SecBlk) : Nat :=
  c.telemU.toNat + 4 * c.telemP.toNat + 8 * b2n c.fabAttest + 16 * b2n c.autoFloor + 32 * b2n c.dbgMem

/-- R484: the TELEM of a context; a protected one shows COARSE or HIDDEN. -/
def telemOf (s : State) (x : Nat) : Nat :=
  let p := protectedCtx s x
  let t := match (s.sx x).telem with
    | some t => t.toNat
    | none => if p then s.sec.telemP.toNat + 1 else s.sec.telemU.toNat
  if p then max 1 t else t

/-- Pages LOADED of a context. -/
def pagesLoaded (c : SecCtx) : Nat := c.loaded.length

/-- The facts of a measurement index. Indices 1 and 3 are the boot ROMs, which never change. -/
def measurement (s : State) (i : Nat) : List Byte :=
  if i = 2 then sha3 (imgBytes (s.img 0)) ++ [BitVec.ofNat 8 s.sec.cairnRun.toNat]
  else if i = 4 then sha3 (imgBytes (s.img 2)) ++ [BitVec.ofNat 8 s.sec.campRun.toNat]
  else if i = 5 then leBytes 4 s.cairn.cur.num.toNat ++ sha3 (entryBytes s.cairn.cur.entries)
  else if i = 6 then
    [BitVec.ofNat 8 s.sec.life.toNat, BitVec.ofNat 8 (variantNum s.env.variant), BitVec.ofNat 8 s.sec.cairnFloor.toNat,
     BitVec.ofNat 8 s.sec.campFloor.toNat, BitVec.ofNat 8 (policyWord s.sec)]
  else if i = 7 then
    [1, 3].flatMap (fun k => if (s.img k).verified then sha3 (imgBytes (s.img k)) ++ [BitVec.ofNat 8 (svnOf (s.img k))] else [0])
  else if i = 8 then sha3 (s.cairn.faults.flatMap faultBytes)
  else if 16 ≤ i ∧ i < 32 then
    let x := i - 16
    let c := s.sx x
    [BitVec.ofNat 8 (stateCode (s.cx x).st), BitVec.ofNat 8 (b2n c.sealedCtx), BitVec.ofNat 8 (telemOf s x)]
      ++ leBytes 4 c.base.toNat ++ leBytes 4 c.size.toNat ++ sha3 c.vendorKey ++ c.model ++ leBytes 4 (pagesLoaded c)
  else []

/-- Every index. -/
def measurements (s : State) : List Byte :=
  (List.range 32).flatMap (fun i => BitVec.ofNat 8 i :: measurement s i)

/-! ### SPDM (R470, R471, R473) -/

/-- An answer; its bytes are the standard's, from the facts that it reports. -/
def respond (req : Nat) (facts : List Byte) (s : State) : State :=
  s.setReply { status := some .ok, bytes := Config.spdmBytes req facts }

/-- The answering die, and whether it answers from recovery (R473). -/
def dieFacts (s : State) (doe : Bool) : List Byte :=
  [BitVec.ofNat 8 (b2n doe), BitVec.ofNat 8 (b2n (if doe then s.cairn.campRecovery else decide (s.cairn.st = .recovery)))]

/-- SPDM GET_VERSION: version 1.4. -/
def execSpdmGetVersion (doe : Bool) (s : State) : Res := .next (respond 0x84 (dieFacts s doe ++ [0x14]) s)
/-- SPDM GET_CAPABILITIES. -/
def execSpdmGetCapabilities (doe : Bool) (s : State) : Res := .next (respond 0xE1 (dieFacts s doe) s)
/-- NEGOTIATE_ALGORITHMS: the one selection of R470. -/
def execNegotiateAlgorithms (doe : Bool) (s : State) : Res := .next (respond 0xE3 (dieFacts s doe) s)
/-- GET_DIGESTS: slot 0. -/
def execGetDigests (doe : Bool) (s : State) : Res := .next (respond 0x81 (dieFacts s doe) s)
/-- GET_CERTIFICATE: slot 0. -/
def execGetCertificate (doe : Bool) (s : State) : Res := .next (respond 0x82 (dieFacts s doe) s)
/-- CHALLENGE: signed with the per-boot key. -/
def execChallenge (doe : Bool) (s : State) : Res := .next (respond 0x83 (dieFacts s doe) s)
/-- GET_MEASUREMENTS: every index, signed with the per-boot key. -/
def execGetMeasurements (doe : Bool) (s : State) : Res := .next (respond 0xE0 (dieFacts s doe ++ measurements s) s)

def State.sess (s : State) (doe : Bool) (k : Nat) : Session := fget {} (if doe then s.sec.doe else s.sec.i3c) k
def State.onSess (doe : Bool) (k : Nat) (f : Session → Session) (s : State) : State :=
  s.onSec (fun c => if doe then { c with doe := fput {} k (f (fget {} c.doe k)) c.doe }
    else { c with i3c := fput {} k (f (fget {} c.i3c k)) c.i3c })

/-- KEY_EXCHANGE: a fresh session, of at most four on the transport; without a working TRNG it is refused (R468). -/
def keyExchange (doe : Bool) (s : State) : State :=
  match (List.range 4).find? (fun k => !(s.sess doe k).isOpen) with
  | some k =>
    if (if doe then s.sec.trngFailX else s.sec.trngFailC) then answer .denied s
    else
      let bytes := Config.spdmBytes 0xE4 (dieFacts s doe ++ leBytes 8 s.fresh)
      drawTrng ((s.onSess doe k (fun _ => { isOpen := true })).setReply
        { status := some .ok, value := BitVec.ofNat 64 k, bytes := bytes })
  | none => answer .denied s

def execKeyExchange (doe : Bool) (s : State) : Res := .next (keyExchange doe s)

/-- R470, R500: a requester on I3C is a listed principal whose certificate chains to the management root. On DOE a
certificate is optional. -/
def requesterOk (s : State) (doe : Bool) (cert : List Byte) : Bool :=
  if doe then cert.isEmpty || Config.chainOk cert [] % 2 == 1
  else Config.chainOk cert (policyNow s).mgmtRoot % 2 == 1
    && (List.range 8).any (fun k => decide (fget [] (policyNow s).certs k = sha3 cert)
      && decide (fget Role.none (policyNow s).roles k ≠ .none))

/-- An SPDM authentication failed (R489, R490). -/
def authFailed (doe : Bool) (s : State) : State :=
  if doe then raise pgSec 3 (campEvent 0x9101 1 0 s)
  else when s.env.dieUp (raise pgSec 3) (cairnEvent 0x9101 0 [] s)

/-- FINISH. -/
def finishSess (doe : Bool) (k : Nat) (cert : List Byte) (s : State) : State :=
  if (s.sess doe k).isOpen && !(s.sess doe k).authed then
    if requesterOk s doe cert then respond 0xE5 (dieFacts s doe) (s.onSess doe k (fun q => { q with authed := true }))
    else answer .denied (authFailed doe (s.onSess doe k (fun _ => {})))
  else answer .denied s

def execFinish (doe : Bool) (sess : Fin 4) (cert : List Byte) (s : State) : Res := .next (finishSess doe sess.val cert s)

/-- A request inside an established session. -/
def inSess (doe : Bool) (k : Nat) (act : State → State) (s : State) : State :=
  if (s.sess doe k).authed then act s else answer .denied s

/-- KEY_UPDATE. -/
def execKeyUpdate (doe : Bool) (sess : Fin 4) (s : State) : Res :=
  .next (inSess doe sess.val (fun t =>
    respond 0xE9 (dieFacts t doe) (t.onSess doe sess.val (fun q => { q with keyGen := q.keyGen + 1 }))) s)

/-- HEARTBEAT. -/
def execHeartbeat (doe : Bool) (sess : Fin 4) (s : State) : Res :=
  .next (inSess doe sess.val (fun t => respond 0xE8 (dieFacts t doe) t) s)

/-- END_SESSION: the session and its keys are gone. -/
def execEndSession (doe : Bool) (sess : Fin 4) (s : State) : Res :=
  .next (inSess doe sess.val (fun t => respond 0xEC (dieFacts t doe) (t.onSess doe sess.val (fun _ => {}))) s)

/-- SPDM_HEARTBEAT_LOSS: three heartbeats of an established session were missed. -/
def heartbeatLoss (doe : Bool) (k : Nat) (s : State) : State :=
  if (s.sess doe k).isOpen then
    let s1 := s.onSess doe k (fun _ => {})
    if doe then campEvent 0x9102 k 1 s1 else cairnEvent 0x9102 k [] s1
  else s

def execSpdmHeartbeatLoss (doe : Bool) (sess : Fin 4) (s : State) : Res := .next (heartbeatLoss doe sess.val s)

/-! ### TDISP (R312) -/

/-- TDISP GET_VERSION. -/
def execTdispGetVersion (x : CtxId) (s : State) : Res := .next (respond 0x181 [BitVec.ofNat 8 x.val] s)
/-- TDISP GET_CAPABILITIES. -/
def execTdispGetCapabilities (x : CtxId) (s : State) : Res := .next (respond 0x182 [BitVec.ofNat 8 x.val] s)

/-- The fields of a context that the interface report's digest covers: HBM, Ledge map, save area, sequence quota and
fabric (R312). -/
def tdiFields (s : State) (x : Nat) : List Byte :=
  let c := s.cx x
  leBytes 4 c.hbmBase.toNat ++ leBytes 4 c.hbmSize.toNat ++ c.lmap.flatMap (fun e => leBytes 2 e.1 ++ leBytes 2 e.2.toNat)
    ++ leBytes 2 c.saveEntry.toNat ++ [BitVec.ofNat 8 (b2n c.savev)] ++ leBytes 2 c.quota.toNat ++ leBytes 2 c.ports.toNat

/-- GET_DEVICE_INTERFACE_REPORT: BAR ranges, the vector count, the digest and the measurements (R312, R471). -/
def interfaceReport (x : Nat) (s : State) : List Byte :=
  leBytes 8 0x1000 ++ leBytes 8 (2 ^ 30) ++ [120] ++ sha3 (tdiFields s x)
    ++ [2, 4, 5, 6, 16 + x].flatMap (fun i => BitVec.ofNat 8 i :: measurement s i)

def execGetDeviceInterfaceReport (x : CtxId) (s : State) : Res :=
  .next (respond 0x184 (interfaceReport x.val s) s)

end Sys2Proof.Machine
end

