-- ==== Sys2Proof/Machine/CoreRegs.lean ====
section
/-! DEFINITION. The CORE page, telemetry as other contexts see it, and the debug page (R106, R107, R484–R487, R491). -/

namespace Sys2Proof.Machine

/-! ### The registers of a CORE page (R107) -/

def pstateCode : PState → Nat
  | .idle => 0 | .run => 1 | .waitBarrier => 2 | .waitTokens => 3 | .waitArb => 4 | .halted => 5 | .commit => 6 | .wipe => 7

def coreStCode : CoreSt → Nat
  | .reserve => 0 | .active => 1 | .fenced => 2 | .wiping => 3

/-- The contexts whose rope team contains a core's logical number. -/
def teamsOf (s : State) (c : Nat) : List Nat :=
  if (s.ctl c).st = .active then (List.range 16).filter (fun x => (s.cx x).team.getLsbD (s.ctl c).logical.toNat) else []

/-- CORE_MAP: of several rope teams, the running slot's owner is shown, else the lowest-numbered. -/
def coreMap (s : State) (c : Nat) : Nat :=
  let q := s.ctl c
  let teams := teamsOf s c
  let x := match q.owner with
    | some y => if teams.contains y.val then some y.val else teams.head?
    | none => teams.head?
  c + 256 * (c % 13) + 4096 * (c / 13) + 65536 * (if q.st = .active then q.logical.toNat else 0xFF) + 2 ^ 24 * coreStCode q.st
    + (match x with
      | some y => 2 ^ 27 + 2 ^ 28 * y
      | none => 0)

/-- CORE_SEQ_STAT without PC. -/
def seqStat (s : State) (c : Nat) : Nat :=
  let k := s.core c
  let p := if (s.ctl c).wiping || (s.ctl c).busyInit then 7 else if (s.ctl c).halted then 5 else pstateCode k.pstate
  p + 16 * k.lastStatus.code.toNat

/-- CORE_GRID_STAT. -/
def gridStat (k : Core) : Nat :=
  let a := k.bankA
  let b := k.bankB
  let unit := fun (n : Nat) => match k.run with
    | some r => r.flights.any (fun f => f.unit.val == n && (f.bank.isSome || n == 1))
    | none => false
  b2n (b.st == .active) + 2 * b2n (a.st == .active || b.st == .active) + 4 * b2n a.valid + 8 * b2n b.valid
    + 16 * b2n (a.st == .draining || b.st == .draining) + 32 * b2n (unit 0) + 64 * b2n (unit 1)
    + 256 * (if a.st = .active then a.pair.toNat else if b.st = .active then b.pair.toNat else 0)

/-- CORE_TOKEN. -/
def coreToken (s : State) (c : Nat) : Nat :=
  (s.ctl c).bal % 2 ^ 24 + 2 ^ 24 * b2n ((s.ctl c).firstReq || decide ((s.core c).pstate = .waitTokens))

/-- The register form of a sensor. -/
def sensorWord (q : Sensor) : Nat := q.temp.toNat + 4096 * b2n q.valid + 8192 * b2n q.suspect + 16384 * b2n q.fault

/-- The registers of the page as they stand. -/
def coreReg (s : State) (c off : Nat) : Nat :=
  let k := s.core c
  let q := s.ctl c
  match off with
  | 0x008 => 0x40 + 2 ^ 8 * 0x100 + 2 ^ 17 + 2 ^ 18
  | 0x00C => 2 * b2n q.halt
  | 0x010 => b2n (k.run.isSome || q.wiping || q.busyInit) + 2 * b2n q.halted
  | 0x040 => coreMap s c
  | 0x044 => seqStat s c + 256 * k.pc.toNat
  | 0x048 => k.pitchId.toNat % 2 ^ 32
  | 0x04C => k.idHi.toNat
  | 0x050 => k.cycles.toNat
  | 0x054 => gridStat k
  | 0x058 => k.ancStat.toNat
  | 0x05C => k.unchk.toNat
  | 0x060 => k.nanres.toNat
  | 0x064 => k.errCause.toNat
  | 0x068 => k.parAddr.toNat + 2 ^ 31 * b2n k.parV
  | 0x06C => sensorWord (s.sensor c)
  | 0x070 => coreToken s c
  | 0x074 => k.pmStall.toNat
  | _ => 0

/-- A write of the page by the camp cores (R106, R107). -/
def coreRegWrite (c off : Nat) (v : Word) (s : State) : State :=
  match off with
  | 0x00C =>
    let s1 := match (s.core c).run with
      | some r => if v.getLsbD 0 && !drained r then endRun c .aborted 0xFFFF s else s
      | none => s
    unhold c (s1.onCtl c (fun q => { q with halt := v.getLsbD 1 }))
  | 0x058 => s.onCore c (fun k => { k with ancStat := k.ancStat &&& ~~~ v.extractLsb' 0 4 })
  | 0x064 => s.onCore c (fun k =>
      let e := k.errCause &&& ~~~ v.extractLsb' 0 8
      { k with errCause := e, parV := k.parV && decide (e ≠ 0) })
  | _ => s

/-- What a read does: an RC register clears on the camp cores' reads alone, and a low word latches its high word. -/
def coreRegFx (camp : Bool) (c off : Nat) (s : State) : State :=
  match off with
  | 0x048 => s.onCore c (fun k => { k with idHi := BitVec.ofNat 32 (k.pitchId.toNat / 2 ^ 32) })
  | 0x05C => when camp (State.onCore c (fun k => { k with unchk := 0 })) s
  | 0x060 => when camp (State.onCore c (fun k => { k with nanres := 0 })) s
  | 0x074 => when camp (State.onCore c (fun k => { k with pmStall := 0 })) s
  | _ => s

/-! ### Telemetry (R484) -/

/-- The strictest TELEM among the contexts whose rope team contains a core. -/
def coreTelem (s : State) (c : Nat) : Nat := ((teamsOf s c).map (telemOf s)).foldl max 0

/-- A mean rounded down to a multiple of `n`, or the one before where the interval had no sample. -/
def intervalMean (s : State) (key n : Nat) : Int :=
  let q := fget (0, 0) s.sec.sums key
  if q.2 = 0 then fget 0 s.sec.means key else (q.1 / (q.2 : Int)) / (n : Int) * (n : Int)

/-- The readings of a core at a boundary. -/
def snapshot (s : State) (c : Nat) : Snapshot :=
  let w := fun (off : Nat) => BitVec.ofNat 32 (coreReg s c off)
  { pitchId := (s.core c).pitchId, cycles := w 0x050, gridStat := w 0x054, token := w 0x070, ancStat := w 0x058
    unchk := w 0x05C, nanres := w 0x060, pmStall := w 0x074 }

/-- Energy of a completed interval at its mean power rounded down to a multiple of 10 W: a token is 10 µJ,
so 10 W over 1 s are 256,000,000 units of 1/256 token (R320). -/
def coarseEnergy (units : Nat) : Nat := units / coarseUnit * coarseUnit
where
  /-- 10 W for 1 s in units of 1/256 token. -/
  coarseUnit : Nat := 256000000

/-- TELEMETRY_INTERVAL: means, snapshots and coarse energies of the interval that ends; pending TELEM takes effect. -/
def telemetryInterval (s : State) : State :=
  s.onSec (fun q => { q with
    snaps := (List.range 208).foldl (fun m c => fput {} c (snapshot s c) m) q.snaps
    means := (List.range 6).foldl (fun m k => (List.range 208).foldl (fun m c =>
      fput 0 (k * 256 + c) (intervalMean s (k * 256 + c) 16) m) m) q.means
    sums := []
    ctxCoarse := (List.range 16).foldl (fun m x =>
      let e := (fget 0 s.pwr.ctxE x).toNat - (fget 0 q.ctxMark x).toNat
      fput 0 x (BitVec.ofNat 64 ((fget 0 m x).toNat + coarseEnergy e)) m) q.ctxCoarse
    ctxMark := s.pwr.ctxE
    ctxs := (q.ctxs.map (fun e => (e.1, match e.2.telemPend with
      | some t => { e.2 with telem := some t, telemPend := none }
      | none => e.2))) })

def execTelemetryInterval (s : State) : Res := .next (telemetryInterval s)

/-- A core's register as the host sees it. -/
def coreRegHost (s : State) (c off : Nat) : Nat :=
  let t := coreTelem s c
  let q := fget {} s.sec.snaps c
  let coarse := fun (w : Word) => if t = 2 then 0 else w.toNat
  if t = 0 then coreReg s c off
  else
    match off with
    | 0x044 => seqStat s c
    | 0x048 => coarse (q.pitchId.extractLsb' 0 32)
    | 0x04C => coarse (q.pitchId.extractLsb' 32 32)
    | 0x050 => coarse q.cycles
    | 0x054 => coarse q.gridStat
    | 0x058 => coarse q.ancStat
    | 0x05C => coarse q.unchk
    | 0x060 => coarse q.nanres
    | 0x06C => sensorWord { s.sensor c with temp := BitVec.ofInt 12 (fget 0 s.sec.means c) }
    | 0x070 => coarse q.token
    | 0x074 => coarse q.pmStall
    | _ => coreReg s c off

/-! ### Debug (R485–R487, R491) -/

/-- The core that DBG_SEL names, where there is one. -/
def dbgCore (s : State) : Option Nat := if s.dbg.sel.toNat < 208 then some s.dbg.sel.toNat else none

/-- An act on the selected core. -/
def onDbgCore (f : Nat → State → State) (s : State) : State :=
  match dbgCore s with
  | some c => f c s
  | none => s

/-- DBG_CTL.HALT. -/
def dbgHalt (on : Bool) (c : Nat) (s : State) : State :=
  let s1 := unhold c (s.onCtl c (fun q => { q with dbgHalt := on }))
  if on && !(s.ctl c).dbgHalt then campEvent 0x9401 c 0 s1 else s1

def execDbgHalt (on : Bool) (s : State) : Res := .next (onDbgCore (dbgHalt on) s)

/-- DBG_CTL.STEP: with HALTED set, one instruction issues. -/
def dbgStep (c : Nat) (s : State) : State :=
  if (s.ctl c).halted then campEvent 0x9401 c 0 (s.onCtl c (fun q => { q with halted := false, stepping := true })) else s

def execDbgStep (s : State) : Res := .next (onDbgCore dbgStep s)

/-- DBG_CTL.TRACE. -/
def dbgTrace (on : Bool) (c : Nat) (s : State) : State :=
  s.onDbg (fun d => { d with tracing := (if on then [c] else []) ++ d.tracing.filter (fun k => k != c) })

def execDbgTrace (on : Bool) (s : State) : Res := .next (onDbgCore (dbgTrace on) s)

/-- DBG_CTL.TRACE_CLR. -/
def dbgTraceClr (c : Nat) (s : State) : State := s.onDbg (fun d => { d with rings := fput {} c {} d.rings })

def execDbgTraceClr (s : State) : Res := .next (onDbgCore dbgTraceClr s)

/-- R486: a physical byte lies in the partition or the map of a context; a save area is part of the map. -/
def inContext (s : State) (hbm : Bool) (a x : Nat) : Bool :=
  let c := s.cx x
  if hbm then decide (c.hbmBase.toNat * unit64M ≤ a ∧ a < (c.hbmBase.toNat + c.hbmSize.toNat) * unit64M)
  else c.lmap.any (fun e => e.2.getLsbD 15 && e.2.toNat % 4096 == a / 2 ^ 20)

/-- R486: the byte may be shown. -/
def dbgShows (s : State) (hbm : Bool) (a : Nat) : Bool :=
  s.sec.dbgMem && !(List.range 16).any (fun x => protectedCtx s x && inContext s hbm a x)

/-- Eight bytes of Ledge or HBM space, and whether any was closed; bytes beyond the space read as zero. -/
def dbgMemory (s : State) (hbm : Bool) (a : Nat) : List Byte × Bool :=
  let size := if hbm then s.env.variant.hbmBytes else s.env.variant.granules * 2 ^ 20
  let as := (List.range 8).map (fun i => a + i)
  (as.map (fun b =>
    if size ≤ b || !dbgShows s hbm b then 0
    else if physBad s ⟨hbm, b⟩ then BitVec.ofNat 8 (Config.openNat 27 b)
    else physGet s ⟨hbm, b⟩), as.any (fun b => decide (b < size) && !dbgShows s hbm b))

/-- The bytes of a weight bank. -/
def bankBytes (b : Bank) (a n : Nat) : List Byte := padBytes n (b.set.drop a)

/-- Eight bytes of a core's storage: pitch memory, anchors as raw records, vector registers, weight registers. The banks
of the weight registers lie one after the other, each 16 KiB (DESIGN CHOICE: no rule orders them). -/
def dbgStorage (k : Core) (space a : Nat) : List Byte :=
  if space = 3 then k.readPm a 8
  else if space = 4 then (((fget {} k.anc (a / 32)).record).drop (a % 32)).take 8
  else if space = 5 then ((regBytes (k.reg (a / 512))).drop (a % 512)).take 8
  else if a < 16384 then bankBytes k.bankA a 8 else bankBytes k.bankB (a - 16384) 8

/-- What a read of DBG_DATA fetches, and whether R485 or R486 closed it. -/
def dbgFetch (s : State) : List Byte × Bool :=
  let a := (s.dbg.addrLo.toNat / 8 * 8) + 2 ^ 32 * s.dbg.addrHi.toNat
  let sp := s.dbg.space.toNat
  if sp = 1 ∨ sp = 2 then dbgMemory s (sp == 2) a
  else if 3 ≤ sp ∧ sp ≤ 6 then
    match dbgCore s with
    | some c => if masked s c then (List.replicate 8 0, true) else (dbgStorage (s.core c) sp a, false)
    | none => (List.replicate 8 0, false)
  else (List.replicate 8 0, false)

/-- DBG_DATA_READ. -/
def dbgDataRead (s : State) : State :=
  let r := dbgFetch s
  let s1 := (s.onDbg (fun d => { d with dataHi := BitVec.ofNat 32 (leAt r.1 4 4), zeroed := r.2 })).setReply
    { value := BitVec.ofNat 64 (leAt r.1 0 4) }
  if r.2 then errTrans pgDbg (campEvent 0x9402 s.dbg.sel.toNat 0 s1) else s1

def execDbgDataRead (s : State) : Res := .next (dbgDataRead s)

/-- The registers of the DBG page (R491). -/
def dbgReg (s : State) (off : Nat) : Nat :=
  let d := s.dbg
  let c := d.sel.toNat
  let on := decide (c < 208)
  match off with
  | 0x040 => c
  | 0x044 => if on then b2n (s.ctl c).dbgHalt + 4 * b2n (d.tracing.contains c) else 0
  | 0x048 => if on then b2n (s.ctl c).halted + 2 * b2n (masked s c) + 256 * (if masked s c then 0 else (s.core c).pc.toNat) else 0
  | 0x04C => d.addrLo.toNat
  | 0x050 => d.addrHi.toNat + 2 ^ 24 * d.space.toNat
  | 0x058 => d.dataHi.toNat
  | 0x05C => b2n d.zeroed
  | 0x060 => d.traceIdx.toNat + 65536 * (if on then (fget {} d.rings c).wr.toNat else 0)
  | _ =>
    if 0x064 ≤ off ∧ off < 0x084 ∧ on then leAt (fget [] (fget {} d.rings c).recs d.traceIdx.toNat) (off - 0x064) 4 else 0

/-- A write of the DBG page through the physical function. -/
def dbgRegWrite (off : Nat) (v : Word) (s : State) : State :=
  match off with
  | 0x040 => s.onDbg (fun d => { d with sel := v.extractLsb' 0 8 })
  | 0x044 =>
    onDbgCore (fun c t =>
      let t1 := dbgTrace (v.getLsbD 2) c (dbgHalt (v.getLsbD 0) c t)
      when (v.getLsbD 3) (dbgTraceClr c) (when (v.getLsbD 1) (dbgStep c) t1)) s
  | 0x04C => s.onDbg (fun d => { d with addrLo := v &&& 0xFFFFFFF8 })
  | 0x050 => s.onDbg (fun d => { d with addrHi := v.extractLsb' 0 16, space := v.extractLsb' 24 4 })
  | 0x060 => s.onDbg (fun d => { d with traceIdx := v.extractLsb' 0 11 })
  | _ => s

end Sys2Proof.Machine
end

