-- ==== Sys2Proof/Machine/Grid.lean ====
section
/-! DEFINITION. The commands of the weight load engine and the cell grid (R82–R85, R117–R121). -/

namespace Sys2Proof.Machine

def isWld : PitchInstr → Bool
  | .wld .. => true
  | _ => false

def isWsw : PitchInstr → Bool
  | .wsw => true
  | _ => false

def isStr : PitchInstr → Bool
  | .str .. => true
  | _ => false

/-- WLD (R117, R118). -/
def execWld (c : CoreId) (s : State) : Res := .next (issueAs isWld c s)

/-- WSW (R83, R84, R119). -/
def execWsw (c : CoreId) (s : State) : Res := .next (issueAs isWsw c s)

/-- STR (R120, R121). -/
def execStr (c : CoreId) (s : State) : Res := .next (issueAs isStr c s)

/-- R82, R118: the last entry of a weight load is written; VALID sets, and a waiting WSW may take effect. -/
def wldComplete (c : Nat) (s : State) : State :=
  match (s.core c).run with
  | none => s
  | some r =>
    match r.flights.find? (fun f => f.bank.isSome) with
    | none => s
    | some f =>
      let b := f.bank.getD false
      pumpUnits c (retire c f.pc (s.onCore c (fun k =>
        { (k.setBank b { k.bank b with valid := true, order := k.loads + 1 }) with loads := k.loads + 1 })))

def execWldComplete (c : CoreId) (s : State) : Res := .next (wldComplete c s)

/-- R85: the DRAINING bank becomes IDLE and its VALID clears. -/
def bankDrained (c : Nat) (s : State) : State :=
  let idle := fun (x : Bank) => if x.st = .draining then { x with st := .idle, valid := false } else x
  pumpUnits c (s.onCore c (fun k => { k with bankA := idle k.bankA, bankB := idle k.bankB }))

def execBankDrainDone (c : CoreId) (s : State) : Res := .next (bankDrained c s)

/-- R121: the last pass of the oldest STR in the grid lands. -/
def strComplete (c : Nat) (s : State) : State :=
  match (s.core c).run with
  | none => s
  | some r =>
    match oldestDone r 1 with
    | none => s
    | some f => retire c f.pc s

def execStrComplete (c : CoreId) (s : State) : Res := .next (strComplete c s)

end Sys2Proof.Machine
end

