-- ==== Sys2Proof/Machine/MemRegs.lean ====
section
/-! DEFINITION. The arbiter group and the LEDGE, MESH and HBM pages (R182, R183). Each page gives its registers as they
stand, what a write by the camp cores does, and what a read does beside answering. -/

namespace Sys2Proof.Machine

/-! ### The arbiter group (R183, R283, R353) -/

/-- The instance that ARB_SEL names on a page. -/
def arbAt (b : Blk) (inst : Nat) : Option ArbId :=
  match b with
  | .ledge => if h : inst < 208 then some (.ledgeLocal ⟨inst, h⟩)
      else if inst < 416 then some (.ledgeMesh (Fin.ofNat 208 (inst - 208))) else none
  | .mesh => if inst / 8 < 208 ∧ inst % 8 < 5 then some (.mesh (Fin.ofNat 208 (inst / 8)) (Fin.ofNat 5 (inst % 8))) else none
  | .hbm k => if inst < 32 then some (.hbm (BitVec.ofNat 8 (32 * k + inst))) else none
  | .fab p => some (.fab (Fin.ofNat 16 p))
  | .pwr => some .pwr
  | _ => none

/-- A page whose INST field is reserved. -/
def instReserved : Blk → Bool
  | .fab _ | .pwr => true
  | _ => false

/-- The requester whose number ARB_STAT shows. -/
def holderOf (i : ArbInst) : Nat := (i.holder).getD 0

/-- Requests that wait at an instance. -/
def waitingAt (i : ArbInst) : Nat := (i.queues.map (fun e => e.2.length)).sum

def arbReg (s : State) (pg : Nat) (b : Blk) (off : Nat) : Nat :=
  let sel := s.arbSel pg
  match off with
  | 0x080 => sel.inst.toNat + 65536 * sel.req.toNat
  | 0x098 => sel.lastReq.toNat + 256 * sel.lastInst.toNat
  | _ =>
    match arbAt b sel.inst.toNat with
    | none => 0
    | some a =>
      let i := s.arb a.key
      match off with
      | 0x084 => maxHoldOf s a + 65536 * ((i.ageLimit.map (·.toNat)).getD (ArbId.defaults a).2)
      | 0x088 => prioOf s a sel.req.toNat
      | 0x08C => min 255 (waitingAt i) + 256 * holderOf i + 65536 * b2n i.holder.isSome + 131072 * b2n i.cut
      | 0x090 => i.cuts.toNat
      | 0x094 => i.aged.toNat
      | _ => 0

def onArbAt (pg : Nat) (b : Blk) (f : ArbInst → ArbInst) (s : State) : State :=
  match arbAt b (s.arbSel pg).inst.toNat with
  | some a => s.setArb a.key (f (s.arb a.key))
  | none => s

def arbRegWrite (pg : Nat) (b : Blk) (off : Nat) (v : Word) (s : State) : State :=
  match off with
  | 0x080 => s.onArbSel pg (fun q => { q with
      inst := if instReserved b then 0 else v.extractLsb' 0 12, req := v.extractLsb' 16 8 })
  | 0x084 => onArbAt pg b (fun i => { i with maxHold := some (v.extractLsb' 0 16), ageLimit := some (v.extractLsb' 16 16) }) s
  | 0x088 => onArbAt pg b (fun i => { i with
      prio := fput none (s.arbSel pg).req.toNat (some (v.extractLsb' 0 3)) i.prio }) s
  | 0x08C => when (v.getLsbD 17) (onArbAt pg b (fun i => { i with cut := false })) s
  | _ => s

/-- The RC counters of the group, as the camp cores read them. -/
def arbRegFx (pg : Nat) (b : Blk) (off : Nat) (s : State) : State :=
  match off with
  | 0x090 => onArbAt pg b (fun i => { i with cuts := 0 }) s
  | 0x094 => onArbAt pg b (fun i => { i with aged := 0 }) s
  | _ => s

/-! ### LEDGE -/

/-- Granules that no failed bank makes unavailable. -/
def granulesLeft (s : State) : Nat := s.env.variant.granules - (s.ledge.banks.filter (fun e => e.2.st == 3)).length

def ledgeReg (s : State) (off : Nat) : Nat :=
  let v := s.env.variant
  let g := s.ledge.sel.toNat
  let b := fget {} s.ledge.banks g
  match off with
  | 0x008 => v.dies + 16 * v.gps
  | 0x040 => g
  | 0x044 => if v.granules ≤ g then 0
      else b.st.val + 4 * b2n (!s.ledge.sparesUsed.contains (spareOf v g)) + 65536 * b.ce.toNat
  | 0x048 => granulesLeft s + 65536 * (208 * v.dies - s.ledge.sparesUsed.length)
  | 0x04C =>
    match s.ledge.banks.find? (fun e => e.2.st == 1) with
    | some e => e.2.ptr.toNat + 2 ^ 31
    | none => 0
  | _ => 0

def ledgeRegWrite (off : Nat) (v : Word) (s : State) : State :=
  match off with
  | 0x040 => s.onLedge (fun l => { l with sel := v.extractLsb' 0 12 })
  | _ => s

/-! ### MESH -/

/-- The link that MESH_SEL names: a core stop's router, or the side at which another stop joins. -/
def selectedLink (s : State) : Nat :=
  let n := s.mesh.selStop.toNat
  if n < 208 then linkKey n s.mesh.selDir.toNat else linkKey (stopRouter n) (stopSide n)

def meshReg (s : State) (off : Nat) : Nat :=
  let m := s.mesh
  let l := fget {} m.links (selectedLink s)
  let n := m.selStop.toNat
  match off with
  | 0x040 => n + 512 * m.selDir.toNat
  | 0x044 => b2n l.retired + 65536 * l.hopErr.toNat
  | 0x048 => stopRouter n % 256 + 256 * (stopSide n % 8) + 2048 * b2n (stopPresent s.env.variant n)
  | 0x04C => m.refetch.toNat
  | 0x050 => m.failed.toNat
  | 0x054 => b2n m.noRoute
  | _ => 0

def meshRegWrite (off : Nat) (v : Word) (s : State) : State :=
  match off with
  | 0x040 => s.onMesh (fun m => { m with selStop := v.extractLsb' 0 9, selDir := v.extractLsb' 9 3 })
  | _ => s

def meshRegFx (off : Nat) (s : State) : State :=
  match off with
  | 0x04C => s.onMesh (fun m => { m with refetch := 0 })
  | 0x050 => s.onMesh (fun m => { m with failed := 0 })
  | _ => s

/-! ### HBM -/

/-- Poisoned blocks of a stack: those poisoned by name, and every block of a pseudo-channel poisoned in place that was
not written since (R170, R171). -/
def poisonCount (s : State) (k : Nat) : Nat :=
  let at_ := fun (b : Nat) => decide ((hbmPlace s.env.variant s.hbm.retOrder b).1 / 32 = k)
  if s.hbm.pcs.any (fun e => e.1 / 32 == k && e.2.st == 3) then
    ((List.range (s.env.variant.hbmBytes / 256)).filter (fun b => at_ b && hbmPoisoned s b)).length
  else (s.hbm.poison.dedup.filter at_).length

def hbmReg (s : State) (k off : Nat) : Nat :=
  let q := fget 0 s.hbm.sel k
  let c := fget {} s.hbm.pcs (32 * k + q.toNat)
  match off with
  | 0x008 => 32 + 256 * 12 + 65536 * 36
  | 0x040 => q.toNat
  | 0x044 => c.st.val + 4 * min 3 (countWithin s.env.ts second c.failTs) + 16 * min 31 (countWithin s.env.ts day c.ceTs)
  | 0x048 => hbmLeft s + 16 * s.hbm.retOrder.length
  | 0x04C => c.ptr.toNat + 2 ^ 31 * b2n (c.st == 1)
  | 0x050 => poisonCount s k
  | _ => 0

def hbmRegWrite (k off : Nat) (v : Word) (s : State) : State :=
  match off with
  | 0x040 => s.onHbm (fun h => { h with sel := fput 0 k (v.extractLsb' 0 5) h.sel })
  | _ => s

end Sys2Proof.Machine
end

