-- ==== Sys2Proof/Machine/HostRegs.lean ====
section
/-! DEFINITION. The GLOBAL and HOST pages, the interrupt routes and the MSI-X structures (R289, R310, R319, R533–R541). -/

namespace Sys2Proof.Machine

/-! ### GLOBAL (R533–R535) -/

def partNumber : Variant → Nat
  | .m740 => 0x0740 | .m724 => 0x0724 | .m712 => 0x0712

/-- GLOBAL_CORES: a number is unbacked, and its core fenced, from the end of the core's WIPE. -/
def globalCores (s : State) : Nat :=
  let l := s.fence.logicalCount
  let f := (s.ctls.filter (fun e => decide (e.2.st = .fenced))).length
  let u := (s.fence.unbacked.filter (fun e => decide ((s.ctl e.2).st = .fenced))).length
  l + 256 * (208 + u - l - f) + 65536 * f + 2 ^ 24 * u

def globalUnits (v : Variant) : Nat :=
  (2 ^ v.stacks - 1) + 256 * v.dies + 1024 * (2 ^ v.cbus - 1) + 65536 * (2 ^ v.ports - 1)

/-- The registers of the GLOBAL page. The stepping is open: site 28. -/
def globalReg (s : State) (off : Nat) : Nat :=
  match off with
  | 0x008 => partNumber s.env.variant + 65536 * (Config.openNat 28 0 % 16)
  | 0x010 => b2n s.glob.ready + 2 * b2n s.cairn.campRecovery
  | 0x040 => s.env.tsCopy.toNat % 2 ^ 32
  | 0x044 => s.glob.tsHi.toNat
  | 0x048 => s.glob.capGen.toNat
  | 0x04C => globalCores s
  | 0x050 => globalUnits s.env.variant
  | 0x054 => 6 + 16 * 4 + 256 * 16 + 65536 * 128
  | 0x060 => s.glob.pend.toNat
  | _ => if 0x080 ≤ off ∧ off < 0x080 + 4 * 26 then (s.route ((off - 0x080) / 4)).toNat else 0

/-- R539: PEND bits are cleared; events of the same cycle set theirs again, with a message. -/
def pendClear (bits events : Word) (s : State) : State :=
  let s1 := s.onGlob (fun g => { g with pend := g.pend &&& ~~~ bits.extractLsb' 0 26 })
  forAll ((List.range 26).filter (fun k => events.getLsbD k)) pendSource s1

/-- GLOBAL_IRQ_PEND_CLEAR. -/
def execGlobalIrqPendClear (bits events : Word) (s : State) : Res := .next (pendClear bits events s)

/-- R539: a route is written; EN going from 0 to 1 while PEND is set sends one message. -/
def writeRouteReg (src : Nat) (v : Word) (s : State) : State :=
  let was := routeEn (s.route src)
  let r : Byte := v.extractLsb' 0 8
  let s1 := s.onGlob (fun g => { g with routes := fput none src (some r) g.routes })
  if !was && routeEn r && s.glob.pend.getLsbD src then sendVec 0 (routeVec r) s1 else s1

/-- GLOBAL_IRQ_ROUTE_WRITE. -/
def execGlobalIrqRouteWrite (src : Fin 26) (v : Word) (s : State) : Res := .next (writeRouteReg src.val v s)

def globalRegWrite (off : Nat) (v : Word) (s : State) : State :=
  if off = 0x060 then pendClear v 0 s
  else if 0x080 ≤ off ∧ off < 0x080 + 4 * 26 then writeRouteReg ((off - 0x080) / 4) v s
  else s

def globalRegFx (off : Nat) (s : State) : State :=
  match off with
  | 0x040 => s.onGlob (fun g => { g with tsHi := s.env.tsCopy.extractLsb' 32 32 })
  | _ => s

/-! ### Rings (R319) -/

/-- Registers of a submission ring, by their offset in its group. -/
def sqReg (q : SqRing) (o : Nat) : Nat :=
  match o with
  | 0x00 => q.base.toNat % 2 ^ 32
  | 0x04 => q.base.toNat / 2 ^ 32
  | 0x08 => q.log2.toNat + 32 * q.cq.toNat + 256 * b2n q.en
  | 0x0C => q.tail.toNat
  | 0x10 => q.head.toNat + 65536 * q.st.toNat + 2 ^ 20 * q.err.toNat
  | _ => 0

def cqReg (q : CqRing) (o : Nat) : Nat :=
  match o with
  | 0x00 => q.base.toNat % 2 ^ 32
  | 0x04 => q.base.toNat / 2 ^ 32
  | 0x08 => q.log2.toNat + 256 * q.vec.toNat + 65536 * q.coalCnt.toNat + 2 ^ 31 * b2n q.en
  | 0x0C => q.limit.toNat
  | 0x10 => q.tail.toNat + 65536 * b2n q.err
  | 0x14 => q.coalTime.toNat
  | _ => 0

/-- A ring base with its low or its high word written: it is a multiple of 4 KiB. -/
def baseLo (b : DWord) (v : Word) : DWord := (b.extractLsb' 32 32) ++ (v &&& 0xFFFFF000)
def baseHi (b : DWord) (v : Word) : DWord := v ++ (b.extractLsb' 0 32)

def sqRegWrite (f i o : Nat) (v : Word) (s : State) : State :=
  match o with
  | 0x00 => s.onSq f i (fun q => { q with base := baseLo q.base v })
  | 0x04 => s.onSq f i (fun q => { q with base := baseHi q.base v })
  | 0x08 => writeSqCfg f i v s
  | 0x0C => sqDoorbell f i v s
  | _ => s

def cqRegWrite (f i o : Nat) (v : Word) (s : State) : State :=
  match o with
  | 0x00 => s.onCq f i (fun q => { q with base := baseLo q.base v })
  | 0x04 => s.onCq f i (fun q => { q with base := baseHi q.base v })
  | 0x08 => writeCqCfg f i v s
  | 0x0C => cqDoorbell f i v s
  | 0x10 => when (v.getLsbD 16) (State.onCq f i (fun q => { q with err := false })) s
  | 0x14 => s.onCq f i (fun q => { q with coalTime := v.extractLsb' 0 10 })
  | _ => s

/-! ### HOST pages (R319) -/

def pageStCode : PageSt → Nat
  | .none => 0 | .host => 1 | .device => 2

/-- The upper half of page 0. -/
def hostUpper (s : State) (off : Nat) : Nat :=
  let h := s.host
  let pf := s.hdr pgPf
  match off with
  | 0x800 => h.rate.toNat + 4 * h.width.toNat + 128 * b2n h.flit + 256 * b2n h.up
  | 0x804 => h.linkRst.toNat
  | 0x808 => b2n h.ideLink + 2 * h.ideSel.toNat
  | 0x80C => ((List.range 16).map (fun x => 4 ^ x * tdiCode (s.fn (fnOf x)).tdi)).sum
  | 0x810 => h.winIdx.toNat
  | 0x814 =>
    let p := s.page h.winIdx.toNat
    pageStCode p.st + 4 * b2n p.pend.isSome + 16 * p.target.toNat + 2 ^ 22 * (h.winIdx.toNat / 512)
  | 0x820 => pf.stat.toNat
  | 0x824 => pf.en.toNat
  | 0x82C => (s.fn 0).winRefused.toNat
  | _ =>
    if 0x880 ≤ off ∧ off < 0x898 then sqReg (s.sq 0 0) (off - 0x880)
    else if 0x900 ≤ off ∧ off < 0x91C then cqReg (s.cq 0 0) (off - 0x900)
    else 0

/-- HOST page n. -/
def hostReg (s : State) (n off : Nat) : Nat :=
  let f := fnOf n
  match off with
  | 0x008 => 4 + 16 * 4 + 256 * 120
  | 0x040 => stateCode (s.cx n).st + 8 * tdiCode (s.fn f).tdi + 65536 * min 1023 (s.fn f).hold.length
  | 0x044 => (s.fn f).dlvLost.toNat
  | 0x048 => (s.fn f).winRefused.toNat
  | _ =>
    if 0x080 ≤ off ∧ off < 0x100 then sqReg (s.sq f ((off - 0x080) / 32)) ((off - 0x080) % 32)
    else if 0x100 ≤ off ∧ off < 0x180 then cqReg (s.cq f ((off - 0x100) / 32)) ((off - 0x100) % 32)
    else if 0x800 ≤ off ∧ n = 0 then hostUpper s off
    else 0

/-- A write of the upper half of page 0, through the physical function. -/
def hostUpperWrite (off : Nat) (v : Word) (s : State) : State :=
  match off with
  | 0x810 => s.onHost (fun h => { h with winIdx := v.extractLsb' 0 13 })
  | 0x820 => s.onHdr pgPf (fun h => { h with stat := h.stat &&& ~~~ v })
  | 0x824 => s.onHdr pgPf (fun h => { h with en := v &&& 0x1F })
  | 0x828 => if v &&& 0x1F = 0 then s else raiseBits pgPf (v &&& 0x1F) s
  | _ =>
    if 0x880 ≤ off ∧ off < 0x898 then sqRegWrite 0 0 (off - 0x880) v s
    else if 0x900 ≤ off ∧ off < 0x91C then cqRegWrite 0 0 (off - 0x900) v s
    else s

/-- A write of the lower half of a page by a function that may write it. -/
def hostLowerWrite (n off : Nat) (v : Word) (s : State) : State :=
  let f := fnOf n
  if 0x080 ≤ off ∧ off < 0x100 then sqRegWrite f ((off - 0x080) / 32) ((off - 0x080) % 32) v s
  else if 0x100 ≤ off ∧ off < 0x180 then cqRegWrite f ((off - 0x100) / 32) ((off - 0x100) % 32) v s
  else s

def hostRegFx (n off : Nat) (s : State) : State :=
  let f := fnOf n
  match off with
  | 0x044 => s.onFn f (fun h => { h with dlvLost := 0 })
  | 0x048 => s.onFn f (fun h => { h with winRefused := 0 })
  | 0x804 => if n = 0 then s.onHost (fun h => { h with linkRst := 0 }) else s
  | 0x82C => if n = 0 then s.onFn 0 (fun h => { h with winRefused := 0 }) else s
  | _ => s

/-! ### MSI-X tables and pending bits (R289, R310) -/

def State.onVec (f k : Nat) (g : MsixVec → MsixVec) (s : State) : State :=
  s.onFn f (fun h => { h with vecs := fput {} k (g (fget {} h.vecs k)) h.vecs })

/-- A word of a vector table: address, data and mask. -/
def vecReg (s : State) (f k o : Nat) : Nat :=
  let e := fget {} (s.fn f).vecs k
  match o with
  | 0x0 => e.addr.toNat % 2 ^ 32
  | 0x4 => e.addr.toNat / 2 ^ 32
  | 0x8 => e.data.toNat
  | _ => b2n e.masked

/-- A word of the table written; a vector unmasked while pending sends its message. -/
def vecRegWrite (f k o : Nat) (v : Word) (s : State) : State :=
  match o with
  | 0x0 => s.onVec f k (fun e => { e with addr := (e.addr.extractLsb' 32 32) ++ v })
  | 0x4 => s.onVec f k (fun e => { e with addr := v ++ (e.addr.extractLsb' 0 32) })
  | 0x8 => s.onVec f k (fun e => { e with data := v })
  | _ => s.onVec f k (fun e =>
      if !v.getLsbD 0 && e.pending then { e with masked := false, pending := false, sent := e.sent + 1 }
      else { e with masked := v.getLsbD 0 })

/-- 32 pending bits of a function from vector `k`. -/
def pbaReg (s : State) (f k : Nat) : Nat :=
  ((List.range 32).map (fun i => 2 ^ i * b2n (fget {} (s.fn f).vecs (k + i)).pending)).sum

end Sys2Proof.Machine
end

