-- ==== Sys2Proof/Machine/Moves.lean ====
section
/-! DEFINITION. The commands of the block move engine and the barrier unit, WIPE and END, and the completion of
instructions (R126–R133). -/

namespace Sys2Proof.Machine

def isMovIn : PitchInstr → Bool
  | .movIn .. => true
  | _ => false

def isMovOut : PitchInstr → Bool
  | .movOut .. => true
  | _ => false

def isMovLocal : PitchInstr → Bool
  | .movLocal .. => true
  | _ => false

def isSnd : PitchInstr → Bool
  | .snd .. => true
  | _ => false

def isRcv : PitchInstr → Bool
  | .rcv .. => true
  | _ => false

def isSig : PitchInstr → Bool
  | .sig .. => true
  | _ => false

def isWatBar : PitchInstr → Bool
  | .watBar .. => true
  | _ => false

def isWatLocal : PitchInstr → Bool
  | .watLocal .. => true
  | _ => false

def isWipe : PitchInstr → Bool
  | .wipe => true
  | _ => false

def isFin : PitchInstr → Bool
  | .fin => true
  | _ => false

/-- Stage a publishing instruction: it does nothing until the commit (R126, R128, R130). -/
def stage (c : Nat) (i : PitchInstr) (s : State) : State :=
  s.onCore c (fun k => k.onRun (fun r =>
    match i with
    | .movOut reg roff pml len => { r with outs := r.outs ++ [⟨reg, roff, pml, PitchInstr.lines len⟩] }
    | .snd node vl ch pml len => { r with snds := r.snds ++ [⟨node, vl, ch, pml, PitchInstr.lines len⟩] }
    | .sig ctr inc => { r with sigs := r.sigs ++ [(ctr, inc)] }
    | _ => r))

/-- MOV IN (R126). -/
def execMovIn (c : CoreId) (s : State) : Res := .next (issueAs isMovIn c s)

/-- MOV OUT (R126). -/
def execMovOut (c : CoreId) (s : State) : Res := .next (issueWith isMovOut stage c s)

/-- MOV LOCAL (R126). -/
def execMovLocal (c : CoreId) (s : State) : Res := .next (issueAs isMovLocal c s)

/-- SND (R128). -/
def execSnd (c : CoreId) (s : State) : Res := .next (issueWith isSnd stage c s)

/-- RCV (R128). -/
def execRcv (c : CoreId) (s : State) : Res := .next (issueAs isRcv c s)

/-- SIG (R130). -/
def execSig (c : CoreId) (s : State) : Res := .next (issueWith isSig stage c s)

/-! ### Barriers (R129–R131) -/

/-- R130: (counter − TARGET) mod 2^32 is below 2^31. -/
def barrierMet (s : State) (x : Nat) (ctr : BitVec 6) (target : Word) : Bool :=
  decide ((fget 0 (s.cx x).bars ctr.toNat - target).toNat < 2 ^ 31)

/-- A barrier WAT issues; unless its condition holds, issue stops behind it. -/
def watBarEffect (c : Nat) (i : PitchInstr) (s : State) : State :=
  match i, (s.core c).run with
  | .watBar ctr target, some r =>
    if barrierMet s r.job.ctx.val ctr target then s
    else s.onCore c (fun k => { k with pstate := .waitBarrier })
  | _, _ => s

/-- WAT, barrier form (R130). -/
def execWatBarrier (c : CoreId) (s : State) : Res := .next (issueWith isWatBar watBarEffect c s)

/-- R130: the WAT before PC is satisfied, and issue continues. -/
def releaseBarrier (c : Nat) (s : State) : State :=
  let k := s.core c
  match k.run, (k.ibuf[k.pc.toNat - 1]?).bind PitchInstr.decode with
  | some r, some (.watBar ctr target) =>
    if k.pstate == .waitBarrier && barrierMet s r.job.ctx.val ctr target then
      s.onCore c (fun k => { k with pstate := .run })
    else s
  | _, _ => s

def execWatBarrierRelease (c : CoreId) (s : State) : Res := .next (releaseBarrier c s)

/-- A named unit still has an instruction that has not completed (R131). -/
def unitsBusy (r : Run) (us : BitVec 5) : Bool := r.flights.any (fun f => us.getLsbD f.unit.val)

/-- A local WAT issues; unless every named unit has completed, issue stops behind it. -/
def watLocalEffect (c : Nat) (i : PitchInstr) (s : State) : State :=
  match i with
  | .watLocal us => s.onCore c (fun k => k.onRun (fun r =>
      if unitsBusy r us then { r with waitUnits := some us } else r))
  | _ => s

/-- WAT, local form (R131). -/
def execWatLocal (c : CoreId) (s : State) : Res := .next (issueWith isWatLocal watLocalEffect c s)

/-- R131: the last awaited instruction has completed, and issue continues. -/
def execWatLocalRelease (c : CoreId) (s : State) : Res :=
  .next (s.onCore c.val (fun k => k.onRun (fun r =>
    match r.waitUnits with
    | some us => if unitsBusy r us then r else { r with waitUnits := none }
    | none => r)))

/-! ### WIPE and END (R104, R132, R133) -/

/-- R132: WIPE scrubs the core; the pitch goes on with its instruction buffer. -/
def wipeEffect (c : Nat) (_i : PitchInstr) (s : State) : State :=
  s.onCore c Core.clearStorage

/-- WIPE (R132). -/
def execWipe (c : CoreId) (s : State) : Res := .next (issueWith isWipe wipeEffect c s)

/-- R133: END begins the drain that leads to the commit. -/
def endEffect (c : Nat) (_i : PitchInstr) (s : State) : State :=
  s.onCore c (fun k => { k with pstate := .commit }.onRun (fun r => { r with ended := true }))

/-- END (R133). -/
def execPitchEnd (c : CoreId) (s : State) : Res := .next (issueWith isFin endEffect c s)

/-! ### Completion (R131) -/

/-- R131: the oldest anchor, vector or block-move instruction that its unit has carried out completes. -/
def completeUnit (c : Nat) (u : Nat) (s : State) : State :=
  let s1 := pumpUnits c s
  match (s1.core c).run with
  | none => s1
  | some r =>
    if u = 2 ∨ u = 3 ∨ u = 4 then
      match oldestDone r u with
      | some f => pumpUnits c (retire c f.pc s1)
      | none => s1
    else s1

/-- INSTRUCTION_COMPLETE (R131). -/
def execInstructionComplete (c : CoreId) (unit : Fin 6) (s : State) : Res := .next (completeUnit c unit.val s)

end Sys2Proof.Machine
end

