-- ==== Sys2Proof/Machine/DieRegs.lean ====
section
/-! DEFINITION. The PWR, THM and SEC pages (R353, R378, R484, R490). `host` says that a read comes through the physical
function, which sees protected contexts coarsened. -/

namespace Sys2Proof.Machine

/-! ### PWR -/

/-- TELEM of the core that PWR_SEL or a site names, as the host sees it. -/
def shownTelem (s : State) (host : Bool) (c : Nat) : Nat := if host then coreTelem s c else 0

/-- PWR_CTX_E of a context. -/
def ctxEnergy (s : State) (host : Bool) (x : Nat) : DWord :=
  let t := if host then telemOf s x else 0
  if t = 0 then fget 0 s.pwr.ctxE x else if t = 1 then fget 0 s.sec.ctxCoarse x else 0

/-- The allowance in 1/16 token: a coarsened one is a mean rounded down to 1 token. -/
def allowShown (s : State) (host : Bool) (c : Nat) : Nat :=
  if shownTelem s host c = 0 then (s.ctl c).allow.toNat else (fget 0 s.sec.means (5 * 256 + c)).toNat

def pwrReg (s : State) (host : Bool) (off : Nat) : Nat :=
  let p := s.pwr
  let c := p.selCore.toNat
  match off with
  | 0x008 => s.env.variant.rated + 4096 * s.env.variant.peak
  | 0x010 => b2n p.fallback + 2 * b2n p.trip + 4 * b2n p.throttle + 8 * b2n (s.ctls.any (fun e => e.2.guarded)) + 16 * p.bind.toNat
  | 0x040 => p.b.toNat
  | 0x044 => p.free
  | 0x048 => p.latched.toNat
  | 0x04C => p.epoch.toNat
  | 0x050 => p.caps.board.toNat
  | 0x054 => p.caps.cool.toNat
  | 0x058 => p.caps.socket.toNat
  | 0x05C => p.caps.acoust.toNat
  | 0x060 => p.caps.thr.toNat
  | 0x064 => p.hbSeq.toNat
  | 0x068 => p.meas.toNat
  | 0x06C => baseOf s + 4096 * p.lossPm.toNat
  | 0x070 => p.resHbm.toNat + 256 * p.resLedge.toNat + 65536 * meshResOf s
  | 0x074 => p.resFab.toNat + 256 * p.resHostl.toNat + 65536 * p.srMax.toNat
  | 0x0A0 => p.epochMax.toNat + 256 * p.minInst.toNat + 65536 * p.reserve.toNat
  | 0x0A4 => p.guardT.toNat + 256 * p.guardRel.toNat
  | 0x0A8 => p.meterK.toNat + 2048 * b2n p.meterSat
  | 0x0AC => p.trips.toNat
  | 0x0B0 => p.overest.toNat
  | 0x0B4 => p.thermRef.toNat
  | 0x0B8 => p.selCtx.toNat + 256 * c
  | 0x0BC => (ctxEnergy s host p.selCtx.toNat).toNat % 2 ^ 32
  | 0x0C0 => p.ctxHi.toNat
  | 0x0C4 => p.sysE.toNat % 2 ^ 32
  | 0x0C8 => p.sysHi.toNat
  | 0x0CC => if c < 208 then allowShown s host c + 4096 * b2n (s.ctl c).guarded else 0
  | _ => 0

/-- R353: PWR_GUARD is taken whole or not at all. -/
def writeGuard (v : Word) (p : PwrBlk) : PwrBlk :=
  let t := v.extractLsb' 0 8
  let r := v.extractLsb' 8 8
  if 108 < t.toNat ∨ t.toNat ≤ r.toNat then p else { p with guardT := t, guardRel := r }

def pwrRegWrite (off : Nat) (v : Word) (s : State) : State :=
  match off with
  | 0x06C => s.onPwr (fun p => { p with fixedBase := some (v.extractLsb' 0 12), lossPm := v.extractLsb' 12 10 })
  | 0x070 => s.onPwr (fun p => { p with
      resHbm := v.extractLsb' 0 8, resLedge := v.extractLsb' 8 8, resMesh := some (v.extractLsb' 16 10) })
  | 0x074 => s.onPwr (fun p => { p with
      resFab := v.extractLsb' 0 8, resHostl := v.extractLsb' 8 8, srMax := v.extractLsb' 16 10 })
  | 0x0A0 => s.onPwr (fun p => { p with
      epochMax := v.extractLsb' 0 8, minInst := v.extractLsb' 8 8
      reserve := if fld v.toNat 16 8 < 128 then p.reserve else v.extractLsb' 16 8 })
  | 0x0A4 => s.onPwr (writeGuard v)
  | 0x0B8 => s.onPwr (fun p => { p with selCtx := v.extractLsb' 0 4, selCore := v.extractLsb' 8 8 })
  | _ => s

/-- Cairn's fields of the page (R323). -/
def pwrSpWrite (off : Nat) (v : Word) (s : State) : State :=
  let c : BitVec 12 := v.extractLsb' 0 12
  match off with
  | 0x050 => s.onPwr (fun p => { p with caps := { p.caps with board := c } })
  | 0x054 => s.onPwr (fun p => { p with caps := { p.caps with cool := c } })
  | 0x058 => s.onPwr (fun p => { p with caps := { p.caps with socket := c } })
  | 0x05C => s.onPwr (fun p => { p with caps := { p.caps with acoust := c } })
  | 0x060 => s.onPwr (fun p => { p with caps := { p.caps with thr := c } })
  | 0x064 => heartbeat (v.extractLsb' 0 16) s
  | 0x068 => s.onPwr (fun p => { p with meas := v.extractLsb' 0 24 })
  | _ => s

/-- What a read does: latches by any party, RC by the camp cores. -/
def pwrRegFx (camp host : Bool) (off : Nat) (s : State) : State :=
  match off with
  | 0x044 => s.onPwr (fun p => { p with latched := BitVec.ofNat 24 p.granted })
  | 0x0BC => s.onPwr (fun p => { p with ctxHi := (ctxEnergy s host p.selCtx.toNat).extractLsb' 32 32 })
  | 0x0C4 => s.onPwr (fun p => { p with sysHi := p.sysE.extractLsb' 32 32 })
  | 0x0AC => when camp (State.onPwr (fun p => { p with trips := 0 })) s
  | 0x0B0 => when camp (State.onPwr (fun p => { p with overest := 0 })) s
  | 0x0B4 => when camp (State.onPwr (fun p => { p with thermRef := 0 })) s
  | _ => s

/-! ### THM -/

/-- The sensor that THM_SEL names: a site's first sensor, a die-edge diode or a Ledge sensor. -/
def selSensor (s : State) : Option Nat :=
  let i := s.thm.selIdx.toNat
  let k := s.thm.selKind.toNat
  if k = 0 then (if (sitesOf s.env.variant).contains i then (siteSensors i).head? else none)
  else if k = 1 then (if i < 32 then some (208 + i) else none)
  else if k = 2 then (if i < 2 * s.env.variant.dies then some (240 + i) else none)
  else none

/-- The core whose site THM_SEL names. -/
def selCoreSite (s : State) : Option Nat :=
  if s.thm.selKind = 0 ∧ s.thm.selIdx.toNat < 208 then some s.thm.selIdx.toNat else none

/-- Whether the readings of the selected site are coarsened. -/
def siteCoarse (s : State) (host : Bool) : Bool := match selCoreSite s with
  | some c => shownTelem s host c != 0
  | none => false

/-- A 12-bit reading of the last interval's means. -/
def meanField (s : State) (kind c : Nat) : Nat := (BitVec.ofInt 12 (fget 0 s.sec.means (kind * 256 + c))).toNat

def thmReg (s : State) (host : Bool) (off : Nat) : Nat :=
  let t := s.thm
  let i := t.selIdx.toNat
  let q := s.site i
  let coarse := siteCoarse s host
  let onSite := t.selKind == 0 && (sitesOf s.env.variant).contains i
  match off with
  | 0x008 => 208 + 256 * 32 + 2 ^ 14 * (2 * s.env.variant.dies) + 2 ^ 17 * s.env.variant.stacks
  | 0x00C => b2n t.run
  | 0x010 => b2n (t.run && s.env.dieUp) + 2 * b2n t.silent + 4 * b2n t.nosense
  | 0x040 => i + 256 * t.selKind.toNat
  | 0x044 =>
    match selSensor s with
    | some d => if coarse then sensorWord { s.sensor d with temp := BitVec.ofNat 12 (meanField s 0 i) } else sensorWord (s.sensor d)
    | none => 0
  | 0x048 => if !onSite then 0
      else if coarse then meanField s 1 i + 65536 * meanField s 2 i
      else (sixteenths q.u).toNat + 65536 * (sixteenths q.ref).toNat
  | 0x04C => if !onSite then 0
      else if coarse then meanField s 3 i + 65536 * (meanField s 4 i % 256)
      else (sixteenths q.f).toNat + 65536 * marginField q
  | 0x050 => t.hotF.toNat + 4096 * t.hotSite.toNat
  | 0x054 => t.tjTarget.toNat + 256 * t.hbmTarget.toNat
  | 0x058 => t.updates.toNat
  | 0x05C => t.modelIdx.toNat
  | 0x060 => (fget 0 t.model t.modelIdx.toNat).toNat
  | 0x070 => t.regs.tin.toNat + 65536 * t.regs.tout.toNat
  | 0x074 => t.regs.qeff.toNat + 65536 * t.regs.qdp.toNat
  | 0x078 => t.regs.dp.toNat
  | 0x07C => t.regs.stat.toNat
  | _ => 0

def thmRegWrite (off : Nat) (v : Word) (s : State) : State :=
  match off with
  | 0x00C => thmRun (v.getLsbD 0) s
  | 0x040 => s.onThm (fun t => { t with selIdx := v.extractLsb' 0 8, selKind := v.extractLsb' 8 3 })
  | 0x054 => s.onThm (fun t => { t with
      tjTarget := if 100 < fld v.toNat 0 8 then t.tjTarget else v.extractLsb' 0 8
      hbmTarget := if 95 < fld v.toNat 8 8 then t.hbmTarget else v.extractLsb' 8 8 })
  | 0x05C => s.onThm (fun t => { t with modelIdx := v.extractLsb' 0 20 })
  | 0x060 => modelWrite v s
  | _ => s

/-- Cairn's fields of the page. -/
def thmSpWrite (off : Nat) (v : Word) (s : State) : State :=
  let set := fun (f : CoolRegs → CoolRegs) => s.onThm (fun t => { t with regs := f t.regs })
  match off with
  | 0x070 => set (fun r => { r with tin := v.extractLsb' 0 12, tout := v.extractLsb' 16 12 })
  | 0x074 => set (fun r => { r with qeff := v.extractLsb' 0 16, qdp := v.extractLsb' 16 16 })
  | 0x078 => set (fun r => { r with dp := v.extractLsb' 0 12 })
  | 0x07C => set (fun r => { r with stat := v.extractLsb' 0 10 &&& 0x33F })
  | _ => s

/-! ### SEC -/

def secReg (s : State) (off : Nat) : Nat :=
  let q := s.sec
  let x := q.ctxSel.toNat
  let c := s.sx x
  match off with
  | 0x008 => 7
  | 0x010 => b2n q.fuseLock + 2 * b2n q.akValid + 4 * b2n q.trngFailX + 8 * b2n q.zeroed
  | 0x040 => q.life.toNat + 8 * b2n q.profileRow
  | 0x044 => q.cairnFloor.toNat + 256 * q.campFloor.toNat + 65536 * q.cairnRun.toNat + 2 ^ 24 * q.campRun.toNat
  | 0x048 => policyWord q
  | 0x04C => x
  | 0x050 => telemOf s x + 4 * b2n c.sealedCtx + 8 * b2n (protectedCtx s x) + 16 * b2n c.complete + 256 * ((c.cur.map (·.toNat)).getD 0)
  | 0x054 => c.base.toNat
  | 0x058 => c.size.toNat
  | 0x05C => pagesLoaded c
  | 0x060 => q.tagFail.toNat
  | 0x064 => (q.doe.filter (fun e => e.2.isOpen)).length
  | _ => 0

/-- R465, R484, R490: TELEM is taken at the next 1 s boundary; one below the protected minimum is discarded, and so is the
code 3, which names no setting. -/
def writeTelem (x : Nat) (v : Word) (s : State) : State :=
  let t := fld v.toNat 0 2
  if t = 3 ∨ (protectedCtx s x = true ∧ t = 0) then s else s.onSx x (fun c => { c with telemPend := some (BitVec.ofNat 2 t) })

def secRegWrite (off : Nat) (v : Word) (s : State) : State :=
  match off with
  | 0x04C => s.onSec (fun q => { q with ctxSel := v.extractLsb' 0 4 })
  | 0x050 => writeTelem s.sec.ctxSel.toNat v s
  | _ => s

/-- Cairn's fields of the page. -/
def secSpWrite (off : Nat) (v : Word) (s : State) : State :=
  match off with
  | 0x040 => s.onSec (fun q => { q with profileRow := v.getLsbD 3 })
  | 0x044 => s.onSec (fun q => { q with cairnRun := v.extractLsb' 16 6 })
  | 0x048 => s.onSec (fun q => { q with
      telemU := v.extractLsb' 0 2, telemP := v.extractLsb' 2 1, fabAttest := v.getLsbD 3, autoFloor := v.getLsbD 4
      dbgMem := v.getLsbD 5 })
  | _ => s

def secRegFx (camp : Bool) (off : Nat) (s : State) : State :=
  match off with
  | 0x060 => when camp (State.onSec (fun q => { q with tagFail := 0 })) s
  | _ => s

end Sys2Proof.Machine
end

