-- ==== Sys2Proof/Machine/FabRegs.lean ====
section
/-! DEFINITION. The FAB port and FAB common pages (R257, R261, R265, R283–R285). -/

namespace Sys2Proof.Machine

def portCode : PortSt → Nat
  | .down => 0 | .training => 1 | .keying => 2 | .up => 3 | .degraded => 4 | .failed => 5 | .reset => 6

def fabReg (s : State) (p off : Nat) : Nat :=
  let q := s.port p
  match off with
  | 0x008 => 4 + 8 * 4 + 64 * 512
  | 0x00C => b2n q.en + 2 * b2n q.retrain + 4 * b2n q.rotate + 8 * b2n q.dateline
  | 0x010 => portCode q.st + 8 * q.lanesUp.toNat + 128 * q.lanesRet.toNat + 2048 * b2n q.ke + 4096 * b2n (portHeld s p)
  | 0x040 => q.partnerNode.toNat + 65536 * q.partnerPort.toNat + 2 ^ 31 * b2n q.partnerV
  | 0x054 => q.retries.toNat
  | 0x068 => q.mismatch.toNat + 65536 * q.lastVl.toNat
  | 0x06C => q.audits.toNat
  | 0x070 => q.rotations.toNat
  | 0x074 => q.tagFail.toNat
  | 0x078 => q.returned.toNat
  | _ =>
    if 0x044 ≤ off ∧ off < 0x054 then
      let v := (off - 0x044) / 4
      q.cfg v + 65536 * min 1023 (q.vl v).k.toNat
    else if 0x058 ≤ off ∧ off < 0x068 then
      let l := (off - 0x058) / 4
      (fget 0 q.laneUnc l).toNat + 65536 * min 2047 (countWithin s.env.ts second (fget [] q.laneTs l))
        + 2 ^ 27 * b2n (q.lanesRet.getLsbD l) + 2 ^ 28 * b2n (q.lanesUp.getLsbD l)
    else 0

/-- R257: a write of CREDITS is taken while the port is DOWN, with at least 16 for each VL and at most 512 in all. -/
def writeCredits (p v : Nat) (c : BitVec 10) (s : State) : State :=
  let q := s.port p
  let new := { q with credits := fput 128 v c q.credits }
  let all := (List.range 4).map new.cfg
  if q.st = .down ∧ 16 ≤ c.toNat ∧ all.sum ≤ 512 then s.setPort p new else s

def fabRegWrite (p off : Nat) (v : Word) (s : State) : State :=
  match off with
  | 0x00C =>
    let s1 := s.onPort p (fun q => { q with dateline := v.getLsbD 3 })
    let s2 := if v.getLsbD 0 && !(s.port p).en then enablePort p s1
      else if !v.getLsbD 0 && (s.port p).en then disablePort p s1 else s1
    when (v.getLsbD 2) (rotatePort p) (when (v.getLsbD 1) (retrainPort p) s2)
  | _ => if 0x044 ≤ off ∧ off < 0x054 then writeCredits p ((off - 0x044) / 4) (v.extractLsb' 0 10) s else s

/-- The RC counters of a port page, as the camp cores read them. -/
def fabRegFx (p off : Nat) (s : State) : State :=
  match off with
  | 0x054 => s.onPort p (fun q => { q with retries := 0 })
  | 0x06C => s.onPort p (fun q => { q with audits := 0 })
  | 0x074 => s.onPort p (fun q => { q with tagFail := 0 })
  | 0x078 => s.onPort p (fun q => { q with returned := 0 })
  | _ => s

/-- Collective slots in flight of a context. -/
def collMask (f : FabCtx) : Nat := (f.colls.map (fun e => if e.2.isSome then 2 ^ (e.1 % 16) else 0)).sum

def fabCommonReg (s : State) (off : Nat) : Nat :=
  let f := s.fab
  let x := f.cselCtx.toNat
  let c := s.fx x
  let ch := s.chan x f.cselCh.toNat
  match off with
  | 0x008 => s.env.variant.ports + 32 + 64 + 256 * 16
  | 0x040 => f.node.toNat + 65536 * b2n f.nodeV + 131072 * b2n f.torus
  | 0x044 => f.hold.toNat
  | 0x048 => f.rtIdx.toNat
  | 0x04C => (fget 0 f.routes f.rtIdx.toNat).toNat
  | 0x050 => x + 16 * f.cselCh.toNat
  | 0x054 => c.job.toNat + 4096 * c.rank.toNat + 2 ^ 31 * b2n c.valid
  | 0x058 => c.grp.toNat
  | 0x05C => c.grpN.toNat
  | 0x060 => c.winBase.toNat + 4096 * c.winSize.toNat + 2 ^ 31 * b2n c.winEn
  | 0x064 => ch.addr.toNat % 2 ^ 32
  | 0x068 => ch.addr.toNat / 2 ^ 32
  | 0x06C => ch.size.toNat + 2 ^ 30 * b2n ch.broken + 2 ^ 31 * b2n ch.en
  | 0x070 => ch.wp.toNat
  | 0x074 => ch.rp.toNat
  | 0x078 => f.undeliv.toNat
  | 0x07C => collMask c
  | _ => 0

/-- R261: FAB_NODE; enabled ports that waited for VALID train. -/
def writeNode (v : Word) (s : State) : State :=
  let s1 := s.onFab (fun f => { f with node := v.extractLsb' 0 16, nodeV := v.getLsbD 16, torus := v.getLsbD 17 })
  if v.getLsbD 16 && !s.fab.nodeV then
    forAll (List.range s.env.variant.ports) (fun p t =>
      if (t.port p).en && decide ((t.port p).st = .down) then startTraining p t else t) s1
  else s1

/-- R265: two contexts never hold the same valid JOB. -/
def writeJob (x : Nat) (v : Word) (s : State) : State :=
  let taken := (List.range 16).any (fun y => y != x && (s.fx y).valid && (s.fx y).job == v.extractLsb' 0 12)
  if v.getLsbD 31 && taken then s
  else s.onFx x (fun f => { f with job := v.extractLsb' 0 12, rank := v.extractLsb' 12 15, valid := v.getLsbD 31 })

def fabCommonWrite (off : Nat) (v : Word) (s : State) : State :=
  let x := s.fab.cselCtx.toNat
  let ch := s.fab.cselCh.toNat
  match off with
  | 0x040 => writeNode v s
  | 0x044 => s.onFab (fun f => { f with hold := v.extractLsb' 0 20 })
  | 0x048 => s.onFab (fun f => { f with rtIdx := v.extractLsb' 0 16 })
  | 0x04C => writeRoute s.fab.rtIdx (v.extractLsb' 0 16) s
  | 0x050 => s.onFab (fun f => { f with cselCtx := v.extractLsb' 0 4, cselCh := v.extractLsb' 4 4 })
  | 0x054 => writeJob x v s
  | 0x058 => s.onFx x (fun f => { f with grp := v.extractLsb' 0 23 })
  | 0x05C => s.onFx x (fun f => { f with grpN := v.extractLsb' 0 16 })
  | 0x060 => s.onFx x (fun f => { f with winBase := v.extractLsb' 0 12, winSize := v.extractLsb' 12 13, winEn := v.getLsbD 31 })
  | 0x064 => s.onChan x ch (fun c => { c with addr := (c.addr.extractLsb' 32 32) ++ (v &&& 0xFFFFFFC0) })
  | 0x068 => s.onChan x ch (fun c => { c with addr := v ++ (c.addr.extractLsb' 0 32) })
  | 0x06C =>
    let s1 := s.onChan x ch (fun c => { c with size := v.extractLsb' 0 16, en := v.getLsbD 31 })
    when (v.getLsbD 30) (clearBroken x ch) s1
  | _ => s

def fabCommonFx (off : Nat) (s : State) : State :=
  match off with
  | 0x078 => s.onFab (fun f => { f with undeliv := 0 })
  | _ => s

end Sys2Proof.Machine
end

