-- ==== Sys2Proof/Machine/PlantRegs.lean ====
section
/-! DEFINITION. The pages on Cairn's bus: LOOP, VLV, MTR, SENS, CBUS, LOG, MBOX and CFGL (R404, R435, R462, R522–R524).
Each page gives its registers as they stand, what a write by Cairn does (the mailbox page: by its halves' owners), and
what a read does beside answering; `own` says that Cairn reads. -/

namespace Sys2Proof.Machine

/-! ### LOOP (R404) -/

/-- A register of a slot block. -/
def slotReg (q : Slot) (off : Nat) : Nat :=
  match off with
  | 0x00 => (cfgWord q).toNat
  | 0x04 => q.phase.toNat + 65536 * q.feTime.toNat
  | 0x08 => q.ysrc.toNat + 256 * q.rsrc.toNat + 65536 * q.dst.toNat
  | 0x0C => q.esig.toNat + 256 * q.ecoef.toNat + 65536 * q.eterm.toNat + 2 ^ 24 * q.eout.toNat
  | 0x10 => q.kp.toNat
  | 0x14 => q.ki.toNat
  | 0x18 => q.kd.toNat
  | 0x1C => q.ka.toNat
  | 0x20 => q.kff.toNat
  | 0x24 => q.setpt.toNat
  | 0x28 => q.umin.toNat
  | 0x2C => q.umax.toNat
  | 0x30 => q.feLim.toNat
  | 0x34 => q.out.toNat
  | 0x38 => q.int.toNat
  | 0x3C => b2n q.satSig + 2 * b2n q.satTerm + 4 * b2n q.satOut + 8 * b2n q.oclamp + 16 * b2n q.intStop + 32 * b2n q.feTrip
      + 256 * b2n q.holding + 512 * b2n q.clampHi + 1024 * b2n q.clampLo + 2048 * b2n q.active + 65536 * q.feCount.toNat
  | _ => 0

/-- The capture entry that LOOP_CAPT_IDX names; zeros where none was written. -/
def captEntry (s : State) : CaptEnt := s.loop.capt.getD s.loop.captIdx.toNat {}

def loopReg (s : State) (off : Nat) : Nat :=
  let l := s.loop
  let e := captEntry s
  match off with
  | 0x008 => 32 + 256 * 14 + 4096
  | 0x00C => b2n l.run
  | 0x010 => b2n l.running + 2 * b2n l.injActive + 4 * b2n l.captActive
  | 0x040 => (pcountOf s).toNat
  | 0x044 => l.injSlot.toNat + 32 * b2n l.injAt + 64 * l.wave.toNat + 256 * b2n l.go + 512 * b2n l.aborted + 65536 * l.holdp.toNat
  | 0x048 => l.amp.toNat
  | 0x04C => l.len.toNat
  | 0x050 => l.f0.toNat
  | 0x054 => l.f1.toNat
  | 0x058 => l.decim.toNat + 65536 * l.capt.length + 2 ^ 31 * b2n l.captDone
  | 0x05C => l.captIdx.toNat
  | 0x060 => e.inj.toNat + 2 ^ 24 * e.flags.toNat
  | 0x064 => e.y.toNat
  | 0x068 => e.u.toNat
  | 0x06C => e.pcount.toNat
  | 0x070 => l.refuse.slot.toNat + 32 * b2n l.refuse.page + 256 * l.refuse.reg.toNat + 65536 * l.refuse.reason.toNat
  | _ => if 0x800 ≤ off then slotReg (s.slot ((off - 0x800) / 0x40)) (off % 0x40) else 0

def loopRegWrite (off : Nat) (v : Word) (s : State) : State :=
  match off with
  | 0x00C => loopRun (v.getLsbD 0) s
  | 0x044 => injectGo v s
  | 0x048 => s.onLoop (fun l => { l with amp := v.extractLsb' 0 24 })
  | 0x04C => s.onLoop (fun l => { l with len := v.extractLsb' 0 24 })
  | 0x050 => s.onLoop (fun l => { l with f0 := v })
  | 0x054 => s.onLoop (fun l => { l with f1 := v })
  | 0x058 => s.onLoop (fun l => { l with decim := v.extractLsb' 0 8 })
  | 0x05C => s.onLoop (fun l => { l with captIdx := v.extractLsb' 0 14 })
  | _ => if 0x800 ≤ off then slotRegWrite ((off - 0x800) / 0x40) (off % 0x40) v s else s

/-! ### VLV, MTR and SENS (R435) -/

def valveCode : ValveSt → Nat
  | .idle => 0 | .boost => 1 | .peak => 2 | .hold => 3 | .pwm => 4 | .off => 5 | .deferred => 6 | .fault => 7

/-- Tc as the register shows it. -/
def coilField (q : Valve) : Nat := match q.tc with
  | some t => (BitVec.ofInt 12 (openRound 19 (16 * t))).toNat
  | none => 0

def vlvReg (s : State) (off : Nat) : Nat :=
  let c := s.drv.vlvSel.toNat
  let q := s.valve c
  match off with
  | 0x008 => 4 + 256 * 64
  | 0x040 => c
  | 0x044 => b2n q.on
  | 0x048 => q.onEntry.toNat + 256 * q.offEntry.toNat + 65536 * q.leak.toNat + 2 ^ 18 * b2n q.leased + 2 ^ 24 * q.hyst.toNat
  | 0x04C => q.r21.toNat + 65536 * q.rth.toNat
  | 0x050 => q.tau.toNat + 65536 * q.iRed.toNat + 2 ^ 28 * q.amb.toNat + 2 ^ 31 * b2n q.ambv
  | 0x054 => q.pc.toNat + 256 * valveCode q.st + 2048 * b2n q.reduced + 4096 * b2n q.coilOt + 8192 * b2n (valveHeld s c)
      + 65536 * q.cur.toNat
  | 0x058 => coilField q
  | 0x05C => q.defers.toNat
  | 0x060 => q.deferMax.toNat
  | 0x064 => highSide s 0 + 4 * highSide s 1
  | _ => if 0x100 ≤ off ∧ off < 0x200 then (fget 0 q.ucode ((off - 0x100) / 4)).toNat else 0

def vlvRegWrite (off : Nat) (v : Word) (s : State) : State :=
  let c := s.drv.vlvSel.toNat
  match off with
  | 0x040 => s.onDrv (fun d => { d with vlvSel := v.extractLsb' 0 2 })
  | 0x044 => valveEdge c (v.getLsbD 0) s
  | 0x04C => s.onValve c (fun q => { q with r21 := v.extractLsb' 0 16, rth := v.extractLsb' 16 16 })
  | 0x050 => s.onValve c (fun q => { q with
      tau := v.extractLsb' 0 16, iRed := v.extractLsb' 16 12, amb := v.extractLsb' 28 3, ambv := v.getLsbD 31 })
  | _ => valveConfig c off v s

def vlvRegFx (own : Bool) (off : Nat) (s : State) : State :=
  match off with
  | 0x05C => when own (State.onValve s.drv.vlvSel.toNat (fun q => { q with defers := 0 })) s
  | _ => s

/-- STATE of a motor channel as MTR_STAT shows it. -/
def motorCode (s : State) (m : Nat) : Nat :=
  if motorHeld s m then 6
  else match (s.motor m).st with
    | .stopped => 0 | .starting => 1 | .running => 2 | .max => 3 | .blocked => 4 | .driverFault => 5

def mtrReg (s : State) (off : Nat) : Nat :=
  let d := s.drv
  let m := d.mtrSel.toNat
  if off = 0x008 then 6
  else if off = 0x040 then m
  else if off = 0x080 then d.ceil.toNat + 65536 * d.tslot.toNat
  else if off = 0x084 then acStep s + 4096 * acMin s
  else if off = 0x088 then acapOf s
  else if 6 ≤ m then 0
  else
    let q := s.motor m
    match off with
    | 0x044 => q.mode.toNat + 4 * b2n q.leased + 8 * b2n q.leakStop
    | 0x048 => q.freq.toNat + 65536 * q.dead.toNat
    | 0x04C => q.vmax.toNat + 65536 * q.ilim.toNat
    | 0x050 => q.poles.toNat + 16 * q.ppr.toNat + 65536 * q.rated.toNat
    | 0x054 => motorCode s m + 8 * q.tries.toNat + 32 * b2n (q.ppr == 0 || q.tachBroken)
    | 0x058 => tachOf s m + 65536 * q.est.toNat
    | 0x05C => q.id.toNat + 65536 * q.iq.toNat
    | 0x060 => q.base.toNat + 65536 * q.ratio.toNat
    | 0x064 => q.ref.toNat
    | 0x068 => b2n q.tachBroken + 2 * b2n q.blockedF + 4 * b2n q.ageWarn + 8 * b2n q.ilimF + 16 * b2n q.drvFlt
    | _ => 0

/-- A write of a register of the selected motor channel (R416, R419). -/
def mtrChWrite (m off : Nat) (v : Word) (s : State) : State :=
  let f := fld v.toNat 0 16
  let d := fld v.toNat 16 8
  match off with
  | 0x044 => motorMode m (v.extractLsb' 0 2) (s.onMotor m (fun q => { q with leased := v.getLsbD 2, leakStop := v.getLsbD 3 }))
  | 0x048 =>
    if 25000 ≤ f ∧ f ≤ 60000 ∧ 10 ≤ d ∧ d ≤ 200 then
      s.onMotor m (fun q => { q with freq := v.extractLsb' 0 16, dead := v.extractLsb' 16 8 })
    else s
  | 0x04C => s.onMotor m (fun q => { q with vmax := v.extractLsb' 0 16, ilim := v.extractLsb' 16 16 })
  | 0x050 => s.onMotor m (fun q => { q with
      poles := v.extractLsb' 0 4, ppr := v.extractLsb' 4 4, rated := v.extractLsb' 16 16 })
  | 0x060 => s.onMotor m (fun q => { q with base := v.extractLsb' 0 16 })
  | 0x064 => s.onMotor m (fun q => { q with ref := v.extractLsb' 0 16 })
  | 0x068 => s.onMotor m (fun q => { q with
      tachBroken := q.tachBroken && !v.getLsbD 0, blockedF := q.blockedF && !v.getLsbD 1, ageWarn := q.ageWarn && !v.getLsbD 2
      ilimF := q.ilimF && !v.getLsbD 3, drvFlt := q.drvFlt && !v.getLsbD 4 })
  | _ => s

def mtrRegWrite (off : Nat) (v : Word) (s : State) : State :=
  match off with
  | 0x040 => s.onDrv (fun d => { d with mtrSel := v.extractLsb' 0 3 })
  | 0x080 => s.onDrv (fun d => { d with ceil := v.extractLsb' 0 16, tslot := v.extractLsb' 16 5 })
  | 0x084 => s.onDrv (fun d => { d with step := some (v.extractLsb' 0 12), acMin := some (v.extractLsb' 12 12) })
  | _ => if 6 ≤ s.drv.mtrSel.toNat then s else mtrChWrite s.drv.mtrSel.toNat off v s

def bandCode : Band → Nat
  | .normal => 0 | .marginal => 1 | .leak => 2 | .opened => 3 | .notEvaluated => 4

/-- The input that SENS_SEL names, and whether the page has it; a rope is its own kind. -/
def selInput (s : State) : Option Nat :=
  let i := s.drv.sensIdx.toNat
  match s.drv.sensKind.toNat with
  | 0 => some i
  | 1 => if i < 4 then some (16 + i) else none
  | 2 => if i < 8 then some (32 + i) else none
  | _ => none

def selRope (s : State) : Option Nat := if s.drv.sensKind = 3 ∧ s.drv.sensIdx.toNat < 4 then some s.drv.sensIdx.toNat else none

/-- The latches, as SENS_LEAK shows them. -/
def latchField (s : State) : Nat := ((List.range 4).map (fun r => 2 ^ r * b2n (s.rope r).latch)).sum

def sensReg (s : State) (off : Nat) : Nat :=
  let q := (selInput s).map s.input
  let r := (selRope s).map s.rope
  match off with
  | 0x008 => 16 + 256 * 4 + 4096 * 8 + 65536 * 4
  | 0x040 => s.drv.sensKind.toNat + 16 * s.drv.sensIdx.toNat
  | 0x044 => (q.map (fun q => b2n q.en + 2 * b2n q.mode + 4 * b2n q.supv + 65536 * q.p1.toNat)).getD 0
      + (r.map (fun r => b2n r.en)).getD 0
  | 0x048 => (q.map (fun q => q.p2.toNat)).getD 0
  | 0x04C => (q.map (fun q => q.value.toNat)).getD 0
  | 0x050 => (q.map (fun q => q.raw.toNat + 65536 * b2n q.fault)).getD 0 + 2 ^ 17 * (r.map (fun r => bandCode r.band)).getD 4
  | 0x054 => latchField s + 16 * b2n (anyLatch s)
  | _ => 0

/-- EN of a rope: while it is 0 the band is not evaluated (R435), and a rope so leaves the LEAK band. -/
def ropeEnable (r : Nat) (on : Bool) (s : State) : State :=
  s.onRope r (fun q => if on then { q with en := true }
    else { q with en := false, band := .notEvaluated, leftTs := if q.band = .leak then some s.env.ts else q.leftTs })

def sensRegWrite (off : Nat) (v : Word) (s : State) : State :=
  match off with
  | 0x040 => s.onDrv (fun d => { d with sensKind := v.extractLsb' 0 2, sensIdx := v.extractLsb' 4 4 })
  | 0x044 =>
    match selInput s, selRope s with
    | some k, _ => s.onInput k (fun q => { q with
        en := v.getLsbD 0, mode := v.getLsbD 1, supv := v.getLsbD 2, p1 := v.extractLsb' 16 16 })
    | none, some r => ropeEnable r (v.getLsbD 0) s
    | none, none => s
  | 0x048 =>
    match selInput s with
    | some k => s.onInput k (fun q => { q with p2 := v.extractLsb' 0 16 })
    | none => s
  | _ => s

/-! ### CBUS (R462) -/

def canCode : CanSt → Nat
  | .init => 0 | .active => 1 | .passive => 2 | .busOff => 3 | .recovering => 4 | .halted => 5

def leaseCode : LeaseSt → Nat
  | .unused => 0 | .standby => 1 | .claiming => 2 | .holding => 3 | .barred => 4

/-- Milliseconds since a moment, saturating; 0xFFFF for none. -/
def ageMs (s : State) : Option DWord → Nat
  | none => 0xFFFF
  | some t => min 0xFFFF ((s.env.ts.toNat - t.toNat) / ms 1)

/-- A register of the selected interface and object. -/
def canReg (s : State) (i off : Nat) : Nat :=
  let c := s.can i
  let o := fget {} c.objs s.cbus.selObj.toNat
  match off with
  | 0x044 => b2n c.init + 2 * b2n c.brs + 4 * b2n c.autorec + 8 * b2n c.listen
  | 0x048 => c.nbt.toNat
  | 0x04C => c.dbt.toNat
  | 0x050 => c.txErr.toNat + 65536 * c.rxErr.toNat + 2 ^ 24 * canCode c.st
  | 0x054 => c.ewl.toNat + 256 * min 15 (boff60 s i)
  | 0x058 => c.rxUnm.toNat
  | 0x05C => c.txDrop.toNat
  | 0x064 => o.id.toNat + 2 ^ 31 * b2n o.en
  | 0x068 => o.mask.toNat
  | 0x06C => b2n o.full + 2 * b2n o.lost + 4 * b2n o.locked + 8 * b2n o.shadow.isSome + 16 * o.frame.payload.length
      + 2048 * b2n o.frame.holdover
  | 0x070 => o.frame.id.toNat
  | 0x074 => o.frame.ts.toNat % 2 ^ 32
  | 0x078 => s.cbus.tsHi.toNat
  | _ => if 0x080 ≤ off ∧ off < 0x0C0 then leAt (padBytes 64 o.frame.payload) (off - 0x080) 4 else 0

def cbusReg (s : State) (off : Nat) : Nat :=
  let c := s.cbus
  let i := c.selIf.toNat
  let g := s.group c.selGroup.toNat
  match off with
  | 0x008 => (2 ^ s.env.variant.cbus - 1) + 256 * 64 + 65536 * 16 + 2 ^ 21 * 4
  | 0x010 => b2n c.tmaster + 2 * b2n c.btimeValid + 4 * b2n c.clash
  | 0x040 => i + 256 * c.selObj.toNat + 65536 * c.selGroup.toNat
  | 0x060 => c.dup.toNat
  | 0x0C0 => c.addr.toNat + 256 * c.boot.toNat + 65536 * c.seq.toNat
  | 0x0C4 => (busTime s).toNat % 2 ^ 32
  | 0x0C8 => c.btimeHi.toNat
  | 0x0CC => c.role.toNat + 4 * b2n c.srcB
  | 0x0E0 => leaseCode g.st + 8 * b2n g.primary + 16 * g.partner.toNat
  | 0x0E4 => g.epoch.toNat
  | 0x0E8 => g.motors.toNat + 256 * g.valves.toNat
  | 0x0EC => ageMs s g.renewTs
  | 0x0F0 => c.ownHealth.toNat + 256 * g.partnerHealth.toNat + 65536 * ageMs s g.healthTs
  | _ => if s.env.variant.cbus ≤ i then 0 else canReg s i off

/-- A write of CBUS_LEASE_CH: a group without channels is unused (R462). -/
def leaseChannels (g : Nat) (v : Word) (s : State) : State :=
  let empty := decide (fld v.toNat 0 6 = 0) && decide (fld v.toNat 8 4 = 0)
  s.onGroup g (fun q => { q with
    motors := v.extractLsb' 0 6, valves := v.extractLsb' 8 4
    st := if empty then .unused else if q.st = .unused then .standby else q.st })

/-- A write of a register of the selected interface and object. -/
def canRegWrite (i off : Nat) (v : Word) (s : State) : State :=
  let k := s.cbus.selObj.toNat
  match off with
  | 0x044 =>
    let s1 := setInit i (v.getLsbD 0) (s.onCan i (fun c => { c with
      brs := v.getLsbD 1, autorec := v.getLsbD 2, listen := v.getLsbD 3 }))
    when (v.getLsbD 4 && decide ((s.can i).st = .halted)) (State.onCan i (fun c => { c with st := .recovering })) s1
  | 0x048 => timingWrite i false v s
  | 0x04C => timingWrite i true v s
  | 0x054 => s.onCan i (fun c => { c with ewl := v.extractLsb' 0 8 })
  | 0x064 => s.onObj i k (fun o => { o with id := v.extractLsb' 0 29, en := v.getLsbD 31 })
  | 0x068 => s.onObj i k (fun o => { o with mask := v.extractLsb' 0 29 })
  | 0x06C => when (v.getLsbD 0) (objRelease i k) (when (v.getLsbD 1) (State.onObj i k (fun o => { o with lost := false })) s)
  | _ => s

def cbusRegWrite (off : Nat) (v : Word) (s : State) : State :=
  let g := s.cbus.selGroup.toNat
  match off with
  | 0x040 => s.onCbus (fun c => { c with
      selIf := v.getLsbD 0, selObj := v.extractLsb' 8 6, selGroup := v.extractLsb' 16 2 })
  | 0x0C0 => s.onCbus (fun c => { c with addr := v.extractLsb' 0 6 })
  | 0x0CC => s.onCbus (fun c => { c with role := v.extractLsb' 0 2 })
  | 0x0E0 => s.onGroup g (fun q => { q with primary := v.getLsbD 3, partner := v.extractLsb' 4 6 })
  | 0x0E8 => leaseChannels g v s
  | _ => if s.env.variant.cbus ≤ s.cbus.selIf.toNat then s else canRegWrite s.cbus.selIf.toNat off v s

def cbusRegFx (own : Bool) (off : Nat) (s : State) : State :=
  let i := s.cbus.selIf.toNat
  let k := s.cbus.selObj.toNat
  match off with
  | 0x058 => when own (State.onCan i (fun c => { c with rxUnm := 0 })) s
  | 0x05C => when own (State.onCan i (fun c => { c with txDrop := 0 })) s
  | 0x060 => when own (State.onCbus (fun c => { c with dup := 0 })) s
  | 0x074 => s.onCbus (fun c => { c with tsHi := (fget {} (s.can i).objs k).frame.ts.extractLsb' 32 32 })
  | 0x080 => when (own && decide (i < s.env.variant.cbus)) (State.onObj i k (fun o => { o with locked := true })) s
  | 0x0C4 => s.onCbus (fun c => { c with btimeHi := (busTime s).extractLsb' 32 32 })
  | _ => s

/-! ### LOG (R523) -/

/-- SUPP of a slot: its code's SUPPRESSED count; slot 255 holds many codes and shows their sum. -/
def suppOf (s : State) (k : Nat) : Nat :=
  match hutCodes[k]? with
  | some c => min 0xFFFF (fget 0 s.hut.supp c).toNat
  | none =>
    if k = 255 then min 0xFFFF ((s.hut.supp.filter (fun e => !hutCodes.contains e.1)).map (fun e => e.2.toNat)).sum else 0

/-- Four bytes of the ring at the position read: within a record, or counted in units from it. -/
def ringWord (s : State) (w : Nat) : Nat :=
  let h := s.hut
  let p := h.recIdx.toNat
  if h.m500 then leNat (fget [] h.book.ring ((p + w) % 2 ^ 20)) else leAt (padBytes 32 (fget [] h.book.ring (p % 2 ^ 17))) (4 * w) 4

def logReg (s : State) (off : Nat) : Nat :=
  let h := s.hut
  let k := h.selSlot.toNat
  let e := fget {} h.book.slots k
  match off with
  | 0x040 => k + 256 * h.selBin.toNat
  | 0x044 => (hutCodes[k]?).getD 0 + 65536 * suppOf s k
  | 0x048 => (fget 0 e.bins h.selBin.toNat).toNat
  | 0x04C => e.min.toNat + 65536 * e.max.toNat
  | 0x050 => e.last.toNat % 2 ^ 32
  | 0x054 => h.lastHi.toNat
  | 0x058 => h.book.drop.toNat % 2 ^ 32
  | 0x05C => h.dropHi.toNat
  | 0x060 => h.book.total.toNat % 2 ^ 32
  | 0x064 => h.totalHi.toNat
  | 0x068 => h.recIdx.toNat
  | 0x06C => h.book.wr.toNat
  | 0x090 => b2n h.m500 + 2 * b2n h.flushing + 4 * b2n s.cairn.bmcLate + 8 * b2n s.cairn.auto + 16 * b2n s.env.holdover
      + 65536 * h.clears.toNat
  | _ => if 0x070 ≤ off ∧ off < 0x090 then ringWord s ((off - 0x070) / 4) else 0

def logRegWrite (off : Nat) (v : Word) (s : State) : State :=
  match off with
  | 0x040 => s.onHut (fun h => { h with selSlot := v.extractLsb' 0 8, selBin := v.extractLsb' 8 4 })
  | 0x068 => s.onHut (fun h => { h with recIdx := v.extractLsb' 0 20 })
  | _ => s

def logRegFx (off : Nat) (s : State) : State :=
  let e := fget {} s.hut.book.slots s.hut.selSlot.toNat
  match off with
  | 0x050 => s.onHut (fun h => { h with lastHi := BitVec.ofNat 32 (e.last.toNat / 2 ^ 32 + 2 ^ 31 * b2n e.holdover) })
  | 0x058 => s.onHut (fun h => { h with dropHi := h.book.drop.extractLsb' 32 32 })
  | 0x060 => s.onHut (fun h => { h with totalHi := h.book.total.extractLsb' 32 32 })
  | _ => s

/-! ### MBOX (R496, R498, R522) -/

def mboxReg (s : State) (off : Nat) : Nat :=
  let stat := fun (h : MboxHalf) => b2n h.busy + 16 * h.status.toNat
  if 0x040 ≤ off ∧ off < 0x060 then (fget 0 s.cairn.host.req ((off - 0x040) / 4)).toNat
  else if off = 0x064 then stat s.cairn.host
  else if 0x068 ≤ off ∧ off < 0x080 then (fget 0 s.cairn.host.rsp ((off - 0x068) / 4)).toNat
  else if 0x080 ≤ off ∧ off < 0x0A0 then (fget 0 s.cairn.camp.req ((off - 0x080) / 4)).toNat
  else if off = 0x0A4 then stat s.cairn.camp
  else if 0x0A8 ≤ off ∧ off < 0x0C0 then (fget 0 s.cairn.camp.rsp ((off - 0x0A8) / 4)).toNat
  else if off = 0x108 then s.evts.queue.length
  else if off = 0x10C then s.evts.overflow.toNat
  else 0

/-- The host half: request words and the doorbell. -/
def mboxHostWrite (off : Nat) (v : Word) (s : State) : State :=
  if 0x040 ≤ off ∧ off < 0x060 then
    if s.cairn.host.busy then s else s.onHalf false (fun h => { h with req := fput 0 ((off - 0x040) / 4) v h.req })
  else if off = 0x060 ∧ v.getLsbD 0 ∧ !s.cairn.host.busy then mailbox false s
  else s

/-- The camp half and the event port. -/
def mboxCampWrite (off : Nat) (v : Word) (s : State) : State :=
  if 0x080 ≤ off ∧ off < 0x0A0 then
    if s.cairn.camp.busy then s else s.onHalf true (fun h => { h with req := fput 0 ((off - 0x080) / 4) v h.req })
  else if off = 0x0A0 ∧ v.getLsbD 0 ∧ !s.cairn.camp.busy then mailbox true s
  else if off = 0x100 then s.onCairn (fun c => { c with evtLo := v })
  else if off = 0x104 then
    campEvent (fld s.cairn.evtLo.toNat 0 16) (fld s.cairn.evtLo.toNat 16 16) v.toNat s
  else s

def mboxRegFx (own : Bool) (off : Nat) (s : State) : State :=
  if off = 0x10C then when own (State.onEvts (fun e => { e with overflow := 0 })) s else s

/-! ### CFGL (R524) -/

def cfglReg (s : State) (off : Nat) : Nat :=
  let c := s.cairn
  match off with
  | 0x040 => c.cur.num.toNat
  | 0x044 => ((c.prev.map (fun (g : Gen) => g.num)).getD 0).toNat
  | 0x048 => c.inforce.num.toNat
  | 0x04C => c.plantGen.num.toNat
  | 0x050 => c.cfgIdx.toNat
  | 0x054 => (cfglRead s).reply.value.toNat
  | _ => 0

def cfglRegWrite (off : Nat) (v : Word) (s : State) : State :=
  if off = 0x050 then s.onCairn (fun c => { c with cfgIdx := v.extractLsb' 0 21 }) else s

def cfglRegFx (camp : Bool) (off : Nat) (s : State) : State :=
  if camp ∧ off = 0x054 then s.onCairn (fun c => { c with cfgIdx := c.cfgIdx + 1 }) else s

end Sys2Proof.Machine
end

