-- ==== Sys2Proof/Machine/Seal.lean ====
section
/-! DEFINITION. Sealed models: offers, key packages and pages (R477–R483). -/

namespace Sys2Proof.Machine

/-- R477: `n` bytes at an address of a seal command lie in the context's HBM partition, outside the sealed range, and the
address is a multiple of 64. -/
def sealAddrOk (s : State) (x : Nat) (a : DWord) (n : Nat) : Bool :=
  gaOk a && gaSpace a == 2 && inPartition (s.cx x) 2 (gaOff a) n && !meetsSealed s x 2 (gaOff a) n

/-- A page of the context in state HOST or DEVICE maps into a range (R478). -/
def rangeMapped (s : State) (x base size : Nat) : Bool :=
  s.host.pages.any (fun e => e.1 / 512 == x && e.2.st != .none && decide (base ≤ e.2.target.toNat ∧ e.2.target.toNat < base + size))

/-- The facts of an offer (R478). -/
def offerFacts (s : State) (x base size epoch : Nat) : List Byte :=
  [BitVec.ofNat 8 x] ++ leBytes 4 base ++ leBytes 4 size ++ [BitVec.ofNat 8 epoch]
    ++ [2, 4, 5, 6].flatMap (measurement s)

/-- An offer is made: a fresh key pair and nonce, signed and written at the address, if it fits there. -/
def makeOffer (src : CmdSrc) (x epoch : Nat) (a : DWord) (base size : Nat) (take : SecCtx → SecCtx) (s : State) : State :=
  let o := Config.offerBytes s.fresh (offerFacts s x base size epoch)
  let s1 := s.onSx x take
  if !sealAddrOk s1 x a o.length then finishGeneric src .denied 0 s
  else
    let s2 := drawTrng (s1.onSx x (fun c => { c with offered := some (BitVec.ofNat 8 epoch), offer := o }))
    finishGeneric src .ok 0 (gaWrite x a o s2)

/-- SEAL_OPEN (R468, R478). -/
def sealOpen (src : CmdSrc) (a : DWord) (base size : Nat) (x : CtxId) (s : State) : State :=
  let c := s.sx x.val
  if c.sealedCtx || c.started || rangeMapped s x.val base size || s.sec.trngFailX then finishGeneric src .denied 0 s
  else if (s.cx x.val).hbmSize.toNat * unit64M < (base + size) * 2 ^ 21 then finishGeneric src .footprint 0 s
  else makeOffer src x.val 0 a base size (fun q => { q with
    sealedCtx := true, base := BitVec.ofNat 18 base, size := BitVec.ofNat 18 size, complete := false }) s

def execSealOpen (src : CmdSrc) (offer : DWord) (base size : Word) (s : State) : Res :=
  .next (forContext src (sealOpen src offer base.toNat size.toNat) s)

/-- SEAL_ROTATE (R468, R478): epoch e + 1 is offered; epochs end at 254 (R490). -/
def sealRotate (src : CmdSrc) (a : DWord) (x : CtxId) (s : State) : State :=
  let c := s.sx x.val
  match c.cur with
  | some e =>
    if !c.sealedCtx || s.sec.trngFailX || decide (254 ≤ e.toNat) then finishGeneric src .denied 0 s
    else makeOffer src x.val (e.toNat + 1) a c.base.toNat c.size.toNat id s
  | none => finishGeneric src .denied 0 s

def execSealRotate (src : CmdSrc) (offer : DWord) (s : State) : Res := .next (forContext src (sealRotate src offer) s)

/-- R479: a package is accepted for an offered epoch. -/
def packageOk (c : SecCtx) (epoch : Byte) (p : List Byte) : Bool :=
  Config.packageNat p 0 % 2 == 1 && decide (Config.packageStr p 2 = sha3 c.offer)
    && decide (Config.packageNat p 1 ≤ c.size.toNat)
    && (epoch == 0 || decide (Config.packageStr p 0 = c.vendorKey))

/-- The first four bytes of a digest, as an event's argument carries them. -/
def digestWord (d : List Byte) : Nat := leNat (padBytes 4 d)

/-- R479: the epoch becomes current, the one before it previous, and older keys are erased. The page records count from
epoch 0's acceptance. -/
def acceptKey (x : Nat) (epoch : Byte) (p : List Byte) (s : State) : State :=
  let s1 := s.onSx x (fun c => { c with
    prev := c.cur, prevKey := c.curKey, cur := some epoch
    curKey := Config.pageKey c.offer (Config.packageStr p 3), offered := none, offer := []
    vendorKey := if epoch = 0 then Config.packageStr p 0 else c.vendorKey
    model := Config.packageStr p 1, pageCount := Config.packageNat p 1
    complete := c.complete && decide (Config.packageNat p 1 ≤ pagesLoaded c) })
  let s2 := if epoch = 0 then campEvent 0x9301 x (digestWord (sha3 (Config.packageStr p 0))) s1 else s1
  campEvent 0x9302 x epoch.toNat s2

/-- Every page of the manifest is LOADED (R482, R490). -/
def sealDone (x : Nat) (s : State) : State :=
  let c := s.sx x
  if !c.complete && decide (c.pageCount ≤ pagesLoaded c) then
    raise pgSec 2 (campEvent 0x9304 x (digestWord c.model) (s.onSx x (fun c => { c with complete := true })))
  else s

/-- SEAL_KEY (R479). -/
def sealKey (src : CmdSrc) (a : DWord) (epoch : Byte) (x : CtxId) (s : State) : State :=
  let c := s.sx x.val
  if !c.sealedCtx || decide (c.offered ≠ some epoch) || !sealAddrOk s x.val a Config.packageSize then
    finishGeneric src .denied 0 s
  else
    match gaRead s x.val a Config.packageSize with
    | none => finishGeneric src .crc 0 (failedRead x.val 2 (gaOff a) Config.packageSize s)
    | some p =>
      if packageOk c epoch p then finishGeneric src .ok 0 (sealDone x.val (acceptKey x.val epoch p s))
      else finishGeneric src .denied 0 s

def execSealKey (src : CmdSrc) (pkg : DWord) (epoch : Byte) (s : State) : Res :=
  .next (forContext src (sealKey src pkg epoch) s)

/-- The key of an epoch that is current or previous (R480). -/
def epochKey (c : SecCtx) (epoch : Byte) : Option (List Byte) :=
  if c.cur = some epoch then some c.curKey else if c.prev = some epoch then some c.prevKey else none

/-- R480: a page of a sealed range is zeroed. -/
def clearPage (q : Option Phys) (s : State) : State :=
  match q with
  | some p => physZero p (2 ^ 21) s
  | none => s

/-- R480: a page's tag failed. -/
def pageTagFailed (x i : Nat) (s : State) : State :=
  raise pgSec 1 (errTrans pgSec (campEvent 0x9303 x i
    ((clearPage (locate (s.cx x) 2 (((s.sx x).base.toNat + i) * 2 ^ 21)) s).onSec
      (fun c => { c with tagFail := satInc c.tagFail }))))

/-- R480, R481: a page is decrypted into the range and marked LOADED with its epoch. -/
def pageLoaded (x i : Nat) (epoch : Byte) (bs : List Byte) (s : State) : State :=
  let o := ((s.sx x).base.toNat + i) * 2 ^ 21
  sealDone x ((gwrite x 2 o (padBytes (2 ^ 21) bs) s).onSx x (fun c => { c with
    loaded := fput none i (some epoch) c.loaded
    perEpoch := fput 0 epoch.toNat (fget 0 c.perEpoch epoch.toNat + 1) c.perEpoch }))

/-- R480: what the read of a page's record gives: its ciphertext and its tag. -/
def takePage (src : CmdSrc) (i : Nat) (epoch : Byte) (a : DWord) (x : Nat) (key : List Byte) (got : Option (List Byte))
    (s : State) : State :=
  match got with
  | none => finishGeneric src .crc 0 (failedRead x 2 (gaOff a) 2097216 s)
  | some bs =>
    let ct := bs.take 2097152
    if (bs.drop 2097152).take 16 = Config.pageTag key epoch.toNat i (s.sx x).model ct then
      finishGeneric src .ok 0 (pageLoaded x i epoch (Config.pagePlain key epoch.toNat i (s.sx x).model ct) s)
    else finishGeneric src .denied 0 (pageTagFailed x i s)

/-- R480: a page of an epoch whose key is held. -/
def sealPageWith (src : CmdSrc) (i : Nat) (epoch : Byte) (a : DWord) (x : Nat) (key : Option (List Byte)) (s : State) : State :=
  let c := s.sx x
  match key with
  | none => finishGeneric src .denied 0 s
  | some key =>
    if decide (65536 ≤ fget 0 c.perEpoch epoch.toNat) || (fget none c.loaded i).isSome || !sealAddrOk s x a 2097216 then
      finishGeneric src .denied 0 s
    else if c.pageCount ≤ i then finishGeneric src .footprint 0 s
    else takePage src i epoch a x key (gaRead s x a 2097216) s

/-- SEAL_PAGE (R480). -/
def sealPage (src : CmdSrc) (i : Nat) (epoch : Byte) (a : DWord) (x : CtxId) (s : State) : State :=
  if !(s.sx x.val).sealedCtx then finishGeneric src .denied 0 s
  else sealPageWith src i epoch a x.val (epochKey (s.sx x.val) epoch) s

def execSealPage (src : CmdSrc) (page : Word) (epoch : Byte) (staging : DWord) (s : State) : Res :=
  .next (forContext src (sealPage src page.toNat epoch staging) s)

end Sys2Proof.Machine
end

