-- ==== Sys2Proof/Machine/Rings.lean ====
section
/-! DEFINITION. The consumption of submission descriptors (R300–R306, R309). -/

namespace Sys2Proof.Machine

/-- R304, R477: the bytes 8–55 that an opcode's operands occupy; none for a reserved opcode. -/
def operandBytes (opc : Nat) : Option (List (Nat × Nat)) :=
  if opc = 0x01 then some [(8, 1), (16, 8)]
  else if opc = 0x02 then some [(8, 28)]
  else if opc = 0x03 then some [(8, 1), (10, 2), (16, 8), (24, 8), (32, 8)]
  else if opc = 0x04 then some []
  else if opc = 0x05 then some [(8, 1)]
  else if opc = 0x06 then some [(8, 8), (16, 4)]
  else if opc = 0x07 then some [(8, 2), (10, 2), (12, 1), (16, 4)]
  else if opc = 0x08 then some []
  else if opc = 0x10 then some [(8, 8), (16, 4), (20, 4)]
  else if opc = 0x11 then some [(8, 8)]
  else if opc = 0x12 then some [(8, 8), (16, 1)]
  else if opc = 0x13 then some [(8, 4), (12, 1), (16, 8)]
  else if opc = 0x20 then some [(8, 1), (10, 2)]
  else if opc = 0x21 then some [(8, 1), (10, 2), (12, 4)]
  else none

/-- Byte k of an entry. -/
def entByte (e : List Byte) (k : Nat) : Byte := e.getD k 0

/-- R303, R306: every reserved bit of the entry is 0. -/
def entryClean (e : List Byte) (used : List (Nat × Nat)) : Bool :=
  decide ((entByte e 1).toNat < 2) && decide ((entByte e 63).toNat % 128 = 0) &&
  (List.range 63).all (fun k =>
    k < 2 || (4 ≤ k && k < 8) || used.any (fun (u : Nat × Nat) => u.1 ≤ k && k < u.1 + u.2) || entByte e k == 0)

/-- A descriptor that carries a reserved opcode or bit: DENIED, a pitch with its own record. -/
def refuseEntry (src : CmdSrc) (e : List Byte) (s : State) : State :=
  if entByte e 0 = 1 then refusePitch src .denied (entByte e 8) 0 (src.fn.val - 1) s
  else finishGeneric src .denied 0 s

/-- The command that a clean entry spells, carried out. -/
def runEntry (src : CmdSrc) (e : List Byte) (s : State) : State :=
  let n := fun (k len : Nat) => leAt e k len
  let d := fun (k : Nat) => BitVec.ofNat 64 (leAt e k 8)
  let opc := (entByte e 0).toNat
  if opc = 0x01 then pitchCmd src (entByte e 8) (d 16) s
  else if opc = 0x02 then forContext src (fun x => submitColl src x ((e.drop 8).take 28)) s
  else if opc = 0x03 then forContext src (fun x => submitWcopy src x (n 8 1) (n 10 2) (d 16) (d 24) (d 32)) s
  else if opc = 0x04 then forContext src (submitBind src) s
  else if opc = 0x05 then forContext src (fun x => submitUnbind src x (n 8 1)) s
  else if opc = 0x06 then forContext src (fun x => admitCmd src x (d 8) (BitVec.ofNat 32 (n 16 4))) s
  else if opc = 0x07 then
    if src.fn.val = 0 then wpageCmd src (n 8 2) (n 10 2) (n 12 1) (BitVec.ofNat 32 (n 16 4)) s
    else forContext src (fun _ => wpageCmd src (n 8 2) (n 10 2) (n 12 1) (BitVec.ofNat 32 (n 16 4))) s
  else if opc = 0x08 then
    if src.fn.val = 0 then nopWait src s else forContext src (fun _ => nopWait src) s
  else if opc = 0x10 then forContext src (sealOpen src (d 8) (n 16 4) (n 20 4)) s
  else if opc = 0x11 then forContext src (sealRotate src (d 8)) s
  else if opc = 0x12 then forContext src (sealKey src (d 8) (entByte e 16)) s
  else if opc = 0x13 then forContext src (sealPage src (n 8 4) (entByte e 12) (d 16)) s
  else if opc = 0x20 then ctxrdCmd src (n 8 1) (n 10 2) s
  else if opc = 0x21 then
    if !ctxOperandsOk src (n 8 1) (n 10 2) then finishGeneric src .denied 0 s
    else ctxwrCmd src (n 8 1) (n 10 2) (BitVec.ofNat 32 (n 12 4)) s
  else finishGeneric src .denied 0 s

/-- R301: the ring stops in ERROR, and every entry from HEAD onward returns to the host. -/
def stopRing (f i err : Nat) (s : State) : State :=
  ringError f 1 (s.onSq f i (fun q => { q with st := 2, err := BitVec.ofNat 4 err, tail := q.head }))

/-- R302, R309: the ring has an entry to consume and its function can reserve a record. -/
def mayConsume (s : State) (f i : Nat) : Bool :=
  let q := s.sq f i
  hasRing f i && q.en && q.st == 1 && q.head != q.tail &&
    decide ((s.fn f).reserved < (if f = 0 then 56 else 448)) && decide ((s.fn f).hold.length + (s.fn f).reserved < (if f = 0 then 64 else 512))

/-- R299: the entry at HEAD is consumed: its O bit is written to 0, HEAD advances, and a record is reserved. -/
def takeEntry (f i : Nat) (e : List Byte) (s : State) : State :=
  let q := s.sq f i
  let a := q.base.toNat + 64 * (q.head.toNat % 2 ^ q.log2.toNat) + 63
  let s1 := s.onHost (fun h => { h with mem := memPut h.mem a [entByte e 63 &&& 0x7F] })
  (s1.onSq f i (fun q => { q with head := q.head + 1, inFlight := q.inFlight ++ [q.head] })).onFn f
    (fun h => { h with reserved := h.reserved + 1 })

/-- DESCRIPTOR_CONSUME: `entry` is what the fetch of the entry at HEAD returned, none where it failed after all
re-fetches. A FENCE waits for every earlier descriptor of its ring. -/
def consume (f : FnId) (i : RingId) (entry : Option (List Byte)) (s : State) : State :=
  if !mayConsume s f.val i.val then s
  else
    match entry with
    | none => stopRing f.val i.val 3 s
    | some e0 =>
      let e := padBytes 64 e0
      let q := s.sq f.val i.val
      if !(entByte e 63).getLsbD 7 then stopRing f.val i.val 1 s
      else if (entByte e 1).getLsbD 0 && !q.inFlight.isEmpty then s
      else
        let src : CmdSrc := ⟨f, i, q.head, BitVec.ofNat 32 (leAt e 4 4)⟩
        let t := takeEntry f.val i.val e s
        match operandBytes (entByte e 0).toNat with
        | none => refuseEntry src e t
        | some used => if entryClean e used then runEntry src e t else refuseEntry src e t

def execDescriptorConsume (f : FnId) (i : RingId) (entry : Option (List Byte)) (s : State) : Res :=
  .next (consume f i entry s)

end Sys2Proof.Machine
end

