-- ==== Sys2Proof/Machine/Regs.lean ====
section
/-! DEFINITION. Register accesses through BAR0, BAR4, the compute die and Cairn's bus, and the management READ (R3, R8, R106,
R289, R290, R319, R404, R500, R525–R531). -/

namespace Sys2Proof.Machine

/-! ### One register of a page -/

/-- The registers that every page's header has alike (R529). -/
def inHeader (off : Nat) : Bool := decide (off < 0x040) && off != 0x008 && off != 0x00C && off != 0x010

/-- The arbiter group of the pages that have one (R183, R283, R353). -/
def inArbGroup (b : Blk) (off : Nat) : Bool :=
  decide (0x080 ≤ off ∧ off < 0x09C) && (match b with
    | .ledge | .mesh | .hbm _ | .fab _ | .pwr => true
    | _ => false)

/-- A register as it reads; `host` says that the read comes through the physical function (R484). -/
def pageReg (s : State) (host : Bool) (b : Blk) (pg off : Nat) : Nat :=
  if inHeader off then (hdrRead s pg b off).toNat
  else if inArbGroup b off then arbReg s pg b off
  else
    match b with
    | .global => globalReg s off
    | .cfgl => cfglReg s off
    | .host n => hostReg s n off
    | .core c => if host then coreRegHost s c off else coreReg s c off
    | .mesh => meshReg s off
    | .hbm k => hbmReg s k off
    | .ledge => ledgeReg s off
    | .fab p => fabReg s p off
    | .fabCommon => fabCommonReg s off
    | .pwr => pwrReg s host off
    | .thm => thmReg s host off
    | .ctx => ctxRegs s s.ctx.sel.toNat off
    | .sec => secReg s off
    | .loop => loopReg s off
    | .vlv => vlvReg s off
    | .mtr => mtrReg s off
    | .cbus => cbusReg s off
    | .sens => sensReg s off
    | .mbox => mboxReg s off
    | .log => logReg s off
    | .dbg => if off = 0x054 then leAt (dbgFetch s).1 0 4 else dbgReg s off

/-- R106, R404: whether a party's read clears the RC fields of a page. -/
def clears (b : Blk) (who : Party) : Bool :=
  match b, who with
  | .global, _ | .host _, _ | .dbg, _ => true
  | .loop, .cairn | .vlv, .cairn | .mtr, .cairn | .cbus, .cairn | .sens, .cairn | .log, .cairn | .cfgl, .cairn => true
  | .loop, _ | .vlv, _ | .mtr, _ | .cbus, _ | .sens, _ | .log, _ | .cfgl, _ => false
  | _, .camp => true
  | _, _ => false

def isHost : Party → Bool
  | .host _ => true
  | _ => false

/-- What a read does beside answering: it clears an RC field and latches a high word. -/
def readFx (who : Party) (b : Blk) (pg off : Nat) (s : State) : State :=
  let rc := clears b who
  let host := isHost who
  if inHeader off then
    when (rc && off == 0x020) (State.onHdr pg (fun h => { h with trans := 0 })) s
  else if inArbGroup b off then when rc (arbRegFx pg b off) s
  else
    match b with
    | .global => globalRegFx off s
    | .cfgl => cfglRegFx (decide (who = .camp)) off s
    | .host n => hostRegFx n off s
    | .core c => coreRegFx rc c off s
    | .mesh => when rc (meshRegFx off) s
    | .fab p => when rc (fabRegFx p off) s
    | .fabCommon => when rc (fabCommonFx off) s
    | .pwr => pwrRegFx rc host off s
    | .sec => secRegFx rc off s
    | .vlv => vlvRegFx rc off s
    | .cbus => cbusRegFx rc off s
    | .log => logRegFx off s
    | .mbox => mboxRegFx (decide (who = .cairn)) off s
    | .dbg => if off = 0x054 then dbgDataRead s else s
    | .hbm _ | .ledge | .thm | .ctx | .loop | .mtr | .sens => s

/-! ### Writes -/

/-- A write of a page by its owner, outside the header and the arbiter group. -/
def ownerWrite (b : Blk) (off : Nat) (v : Word) (s : State) : State :=
  match b with
  | .global => globalRegWrite off v s
  | .cfgl => cfglRegWrite off v s
  | .host n => if off < 0x800 then hostLowerWrite n off v s else s
  | .core c => coreRegWrite c off v s
  | .mesh => meshRegWrite off v s
  | .hbm k => hbmRegWrite k off v s
  | .ledge => ledgeRegWrite off v s
  | .fab p => fabRegWrite p off v s
  | .fabCommon => fabCommonWrite off v s
  | .pwr => pwrRegWrite off v s
  | .thm => thmRegWrite off v s
  | .ctx => ctxRegWrite s.ctx.sel.toNat off v s
  | .sec => secRegWrite off v s
  | .loop => loopRegWrite off v s
  | .vlv => vlvRegWrite off v s
  | .mtr => mtrRegWrite off v s
  | .cbus => cbusRegWrite off v s
  | .sens => sensRegWrite off v s
  | .log => logRegWrite off v s
  | .dbg => dbgRegWrite off v s
  | .mbox => s

/-- Whether a party owns a page's registers: BLK_OWNER (R525), the function of a HOST page (R319). The mailbox page is
shared and is not decided here. -/
def ownsPage (s : State) (b : Blk) (who : Party) : Bool :=
  match b, who with
  | .global, .host f | .dbg, .host f => f == 0
  | .host n, .host f =>
    let d := (s.fn (fnOf n)).tdi
    if f = 0 then d == .unlocked else f.val == fnOf n && d != .error
  | .core _, .camp | .mesh, .camp | .hbm _, .camp | .ledge, .camp | .fab _, .camp | .fabCommon, .camp | .pwr, .camp | .thm, .camp
  | .ctx, .camp | .sec, .camp => true
  | .loop, .cairn | .vlv, .cairn | .mtr, .cairn | .cbus, .cairn | .sens, .cairn | .log, .cairn | .cfgl, .cairn => true
  | _, _ => false

/-- The interrupt bits of a page that a party may write: of the mailbox page the host's half has bit 0, the camp cores
bits 1 and 2. -/
def intMask (s : State) (b : Blk) (who : Party) : Word :=
  match b, who with
  | .mbox, .host f => if f = 0 then 1 else 0
  | .mbox, .camp => 6
  | .mbox, _ => 0
  | _, _ => if ownsPage s b who then b.ints else 0

/-- A write of a header register, on the bits the party may write. -/
def headerWrite (m : Word) (pg off : Nat) (v : Word) (s : State) : State :=
  match off with
  | 0x014 => s.onHdr pg (fun h => { h with stat := h.stat &&& ~~~ (v &&& m) })
  | 0x018 => s.onHdr pg (fun h => { h with en := (h.en &&& ~~~ m) ||| (v &&& m) })
  | 0x01C => if v &&& m = 0 then s else raiseBits pg (v &&& m) s
  | _ => s

/-- A write of one register by a party: it takes what the party may write, and the rest is discarded. -/
def regWrite (who : Party) (b : Blk) (pg off : Nat) (v : Word) (s : State) : State :=
  if inHeader off then headerWrite (intMask s b who) pg off v s
  else
    match b, who with
    | .mbox, .host f => if f = 0 then mboxHostWrite off v s else s
    | .mbox, .camp => mboxCampWrite off v s
    | .pwr, .cairn => pwrSpWrite off v s
    | .thm, .cairn => thmSpWrite off v s
    | .sec, .cairn => secSpWrite off v s
    | .host n, .host f =>
      if f = 0 ∧ n = 0 ∧ 0x800 ≤ off then hostUpperWrite off v s
      else if ownsPage s b who then ownerWrite b off v s else s
    | _, _ =>
      if !ownsPage s b who then s
      else if inArbGroup b off then arbRegWrite pg b off v s
      else ownerWrite b off v s

/-! ### An access (R289, R290, R526, R527) -/

/-- Where an access lands: a register of a page; a word of the vector table or 32 pending bits of a function; an offset
that reads zero; or none, an Unsupported Request. -/
inductive Place where
  | reg (b : Blk) (pg off : Nat)
  | vec (f k o : Nat)
  | pba (f k : Nat)
  | zero
  | none
  deriving DecidableEq, Repr

/-- A 4-byte offset of the register space (R525, R526). -/
def bar0Place (s : State) (off : Nat) : Place :=
  match blkAt s.env.variant (off / 4096) with
  | some b => .reg b (off / 4096) (off % 4096)
  | .none => .zero

/-- A 4-byte offset of a virtual function's BAR0 (R289). -/
def vfPlace (f off : Nat) : Place :=
  if 0x1000 ≤ off then .none
  else if off < 0x800 then .reg (.host (f - 1)) (pgHost (f - 1)) off
  else if off < 0xF80 then .vec f ((off - 0x800) / 16) (off % 16)
  else if off < 0xF90 then .pba f (8 * (off - 0xF80))
  else .zero

/-- A 4-byte offset of the physical function's BAR4 (R289). -/
def bar4Place (off : Nat) : Place :=
  if 0x1000 ≤ off then .none
  else if off < 0x800 then .vec 0 (off / 16) (off % 16)
  else if off < 0x810 then .pba 0 (8 * (off - 0x800))
  else .zero

def placeOf (s : State) (who : Party) (off : Nat) : Place :=
  match who with
  | .host f => if f = 0 then bar0Place s off else vfPlace f.val off
  | .bar4 => bar4Place off
  | .camp | .cairn => bar0Place s off

/-- R290: naturally aligned, of 4 or 8 bytes. R314: a TDI in ERROR rejects its function's requests. -/
def accessOk (s : State) (who : Party) (off size : Nat) : Bool :=
  (size == 4 || size == 8) && off % size == 0 && placeOf s who off != .none &&
    (match who with
      | .host f => !rejects s f.val
      | _ => true)

/-- The value at a place, as a party's 4-byte read gets it. -/
def placeRead (s : State) (who : Party) : Place → Nat
  | .reg b pg off => pageReg s (isHost who) b pg off
  | .vec f k o => vecReg s f k o
  | .pba f k => pbaReg s f k
  | .zero | .none => 0

def placeFx (who : Party) : Place → State → State
  | .reg b pg off, s => readFx who b pg off s
  | _, s => s

def placeWrite (who : Party) (v : Word) : Place → State → State
  | .reg b pg off, s => regWrite who b pg off v s
  | .vec f k o, s => vecRegWrite f k o v s
  | _, s => s

/-- A read: an 8-byte read is two 4-byte reads, the lower first. -/
def readAt (who : Party) (off size : Nat) (s : State) : State :=
  let lo := placeOf s who off
  let s1 := placeFx who lo s
  let a := placeRead s who lo
  if size = 4 then s1.setReply { value := BitVec.ofNat 64 a }
  else
    let hi := placeOf s1 who (off + 4)
    (placeFx who hi s1).setReply { value := BitVec.ofNat 64 (a + 2 ^ 32 * placeRead s1 who hi) }

/-- REGISTER_READ. -/
def registerRead (who : Party) (off size : Nat) (s : State) : State :=
  if accessOk s who off size then readAt who off size s else unsupported s

def execRegisterRead (who : Party) (off : BitVec 26) (size : Nat) (s : State) : Res :=
  .next (registerRead who off.toNat size s)

/-- A write: an 8-byte write is two 4-byte writes, the lower first. -/
def writeAt (who : Party) (off size : Nat) (v : DWord) (s : State) : State :=
  let s1 := placeWrite who (v.extractLsb' 0 32) (placeOf s who off) s
  if size = 4 then s1 else placeWrite who (v.extractLsb' 32 32) (placeOf s1 who (off + 4)) s1

/-- REGISTER_WRITE. -/
def registerWrite (who : Party) (off size : Nat) (v : DWord) (s : State) : State :=
  if accessOk s who off size then (writeAt who off size v s).setReply {} else unsupported s

def execRegisterWrite (who : Party) (off : BitVec 26) (size : Nat) (v : DWord) (s : State) : Res :=
  .next (registerWrite who off.toNat size v s)

/-- BLK_INT_SET_WRITE (R531): a 4-byte write of the register by a party. -/
def execBlkIntSetWrite (who : Party) (page : BitVec 14) (bits : Word) (s : State) : Res :=
  .next (registerWrite who (page.toNat * 4096 + 0x01C) 4 (bits.setWidth 64) s)

/-! ### READ (R500, R507) -/

/-- The mirror registers: Cairn's pages, the ledger page, and THM_COOL_STAT, which Cairn writes (R557). -/
def mirrorReg (s : State) (off : Nat) : Option Nat :=
  if off % 4 ≠ 0 then none
  else if mirrorPages.contains (off / 4096) ∨ off / 4096 = pgCfgl ∨ off = 0x41007C then
    some (placeRead s .cairn (bar0Place s off))
  else none

/-- An entry of the fault list as bytes. -/
def FaultEnt.bytes (e : FaultEnt) : List Byte := [e.kind] ++ leBytes 2 e.unit.toNat ++ leBytes 2 e.unit2.toNat

/-- READ: a register's value, or the hut book's ring, the current ledger generation or the fault list as bytes. -/
def readWhat (w : ReadWhat) (s : State) : State :=
  match w with
  | .reg off =>
    match mirrorReg s off.toNat with
    | some v => s.setReply { status := some .ok, value := BitVec.ofNat 64 v }
    | none => answer .denied s
  | .hut => s.setReply { status := some .ok, bytes := s.hut.book.ring.flatMap (fun e => e.2) }
  | .ledger => s.setReply { status := some .ok, bytes := genBytes s.cairn.cur }
  | .faults => s.setReply { status := some .ok, bytes := s.cairn.faults.flatMap FaultEnt.bytes }

def execMgmtRead (who : Principal) (what : ReadWhat) (s : State) : Res :=
  .next (mgmt .monitor true 0 who (readWhat what) s)

end Sys2Proof.Machine
end

