-- ==== Sys2Proof/Machine/Vector.lean ====
section
/-! DEFINITION. The vector commands (R91–R96, R125). -/

namespace Sys2Proof.Machine

/-- The word is a vector instruction of one operation. -/
def isVec (o : VOp) : PitchInstr → Bool
  | .vec op .. => op == o
  | _ => false

/-- VEC ADD (R125). -/
def execVecAdd (c : CoreId) (s : State) : Res := .next (issueAs (isVec .add) c s)

/-- VEC SUB (R125). -/
def execVecSub (c : CoreId) (s : State) : Res := .next (issueAs (isVec .sub) c s)

/-- VEC MUL (R125). -/
def execVecMul (c : CoreId) (s : State) : Res := .next (issueAs (isVec .mul) c s)

/-- VEC FMA (R125). -/
def execVecFma (c : CoreId) (s : State) : Res := .next (issueAs (isVec .fma) c s)

/-- VEC MIN (R125). -/
def execVecMin (c : CoreId) (s : State) : Res := .next (issueAs (isVec .min) c s)

/-- VEC MAX (R125). -/
def execVecMax (c : CoreId) (s : State) : Res := .next (issueAs (isVec .max) c s)

/-- VEC CLT (R125). -/
def execVecClt (c : CoreId) (s : State) : Res := .next (issueAs (isVec .clt) c s)

/-- VEC CEQ (R125). -/
def execVecCeq (c : CoreId) (s : State) : Res := .next (issueAs (isVec .ceq) c s)

/-- VEC SEL (R125). -/
def execVecSel (c : CoreId) (s : State) : Res := .next (issueAs (isVec .sel) c s)

/-- VEC ABS (R125). -/
def execVecAbs (c : CoreId) (s : State) : Res := .next (issueAs (isVec .abs) c s)

/-- VEC NEG (R125). -/
def execVecNeg (c : CoreId) (s : State) : Res := .next (issueAs (isVec .neg) c s)

/-- VEC EXP (R94, R125). -/
def execVecExp (c : CoreId) (s : State) : Res := .next (issueAs (isVec .exp) c s)

/-- VEC RCP (R94, R125). -/
def execVecRcp (c : CoreId) (s : State) : Res := .next (issueAs (isVec .rcp) c s)

/-- VEC RSQ (R94, R125). -/
def execVecRsq (c : CoreId) (s : State) : Res := .next (issueAs (isVec .rsq) c s)

/-- VEC RSUM (R95, R125). -/
def execVecRsum (c : CoreId) (s : State) : Res := .next (issueAs (isVec .rsum) c s)

/-- VEC RMAX (R95, R125). -/
def execVecRmax (c : CoreId) (s : State) : Res := .next (issueAs (isVec .rmax) c s)

/-- VEC BCAST (R125). -/
def execVecBcast (c : CoreId) (s : State) : Res := .next (issueAs (isVec .bcast) c s)

/-- VEC CVTH (R67, R125). -/
def execVecCvth (c : CoreId) (s : State) : Res := .next (issueAs (isVec .cvth) c s)

/-- VEC CVT4 (R66, R67, R125). -/
def execVecCvt4 (c : CoreId) (s : State) : Res := .next (issueAs (isVec .cvt4) c s)

/-- VEC CVT6 (R66, R67, R125). -/
def execVecCvt6 (c : CoreId) (s : State) : Res := .next (issueAs (isVec .cvt6) c s)

/-- VEC CVT8 (R66, R67, R125). -/
def execVecCvt8 (c : CoreId) (s : State) : Res := .next (issueAs (isVec .cvt8) c s)

/-- VEC VLD (R125). -/
def execVecVld (c : CoreId) (s : State) : Res := .next (issueAs (isVec .vld) c s)

/-- VEC VST (R125). -/
def execVecVst (c : CoreId) (s : State) : Res := .next (issueAs (isVec .vst) c s)

end Sys2Proof.Machine
end

