-- ==== Sys2Proof/Machine/Dispatch.lean ====
section
/-! DEFINITION. Which meaning each command has: one arm per constructor. -/

namespace Sys2Proof.Machine

def exec (i : Instr) (s : State) : Host.Outcome State Fault Refusal :=
  match i with
  | .standbyReset => Sys2Proof.Machine.execStandbyReset s
  | .standbyFallingThreshold => Sys2Proof.Machine.execStandbyFallingThreshold s
  | .inputOutOfRange deciVolts => Sys2Proof.Machine.execInputOutOfRange deciVolts s
  | .inputBackInRange deciVolts => Sys2Proof.Machine.execInputBackInRange deciVolts s
  | .powerEnAsserted => Sys2Proof.Machine.execPowerEnAsserted s
  | .powerEnReleased => Sys2Proof.Machine.execPowerEnReleased s
  | .powerDownPumpSafe => Sys2Proof.Machine.execPowerDownPumpSafe s
  | .referenceLoss => Sys2Proof.Machine.execReferenceLoss s
  | .referenceReturn => Sys2Proof.Machine.execReferenceReturn s
  | .cairnWatchdogExpiry => Sys2Proof.Machine.execCairnWatchdogExpiry s
  | .hostLinkReset flr => Sys2Proof.Machine.execHostLinkReset flr s
  | .pcieLinkUp rate width => Sys2Proof.Machine.execPcieLinkUp rate width s
  | .throttleNAsserted => Sys2Proof.Machine.execThrottleNAsserted s
  | .throttleNReleased => Sys2Proof.Machine.execThrottleNReleased s
  | .cairnImageVerified => Sys2Proof.Machine.execCairnImageVerified s
  | .startupSensorCheck => Sys2Proof.Machine.execStartupSensorCheck s
  | .flowProofStart => Sys2Proof.Machine.execFlowProofStart s
  | .flowProofPass => Sys2Proof.Machine.execFlowProofPass s
  | .flowProofTimeout => Sys2Proof.Machine.execFlowProofTimeout s
  | .computeDieResetRelease => Sys2Proof.Machine.execComputeDieResetRelease s
  | .campCoresStart => Sys2Proof.Machine.execCampCoresStart s
  | .trainingComplete => Sys2Proof.Machine.execTrainingComplete s
  | .akXGenerated => Sys2Proof.Machine.execAkXGenerated s
  | .zeroFillDone => Sys2Proof.Machine.execZeroFillDone s
  | .startupStepTimeout stepNo => Sys2Proof.Machine.execStartupStepTimeout stepNo s
  | .modHeartbeatToggle => Sys2Proof.Machine.execModHeartbeatToggle s
  | .wld c => Sys2Proof.Machine.execWld c s
  | .wldComplete c => Sys2Proof.Machine.execWldComplete c s
  | .wsw c => Sys2Proof.Machine.execWsw c s
  | .bankDrainDone c => Sys2Proof.Machine.execBankDrainDone c s
  | .str c => Sys2Proof.Machine.execStr c s
  | .strComplete c => Sys2Proof.Machine.execStrComplete c s
  | .ancClr c => Sys2Proof.Machine.execAncClr c s
  | .ancRd c => Sys2Proof.Machine.execAncRd c s
  | .ancExp c => Sys2Proof.Machine.execAncExp c s
  | .ancMrg c => Sys2Proof.Machine.execAncMrg c s
  | .vecAdd c => Sys2Proof.Machine.execVecAdd c s
  | .vecSub c => Sys2Proof.Machine.execVecSub c s
  | .vecMul c => Sys2Proof.Machine.execVecMul c s
  | .vecFma c => Sys2Proof.Machine.execVecFma c s
  | .vecMin c => Sys2Proof.Machine.execVecMin c s
  | .vecMax c => Sys2Proof.Machine.execVecMax c s
  | .vecClt c => Sys2Proof.Machine.execVecClt c s
  | .vecCeq c => Sys2Proof.Machine.execVecCeq c s
  | .vecSel c => Sys2Proof.Machine.execVecSel c s
  | .vecAbs c => Sys2Proof.Machine.execVecAbs c s
  | .vecNeg c => Sys2Proof.Machine.execVecNeg c s
  | .vecExp c => Sys2Proof.Machine.execVecExp c s
  | .vecRcp c => Sys2Proof.Machine.execVecRcp c s
  | .vecRsq c => Sys2Proof.Machine.execVecRsq c s
  | .vecRsum c => Sys2Proof.Machine.execVecRsum c s
  | .vecRmax c => Sys2Proof.Machine.execVecRmax c s
  | .vecBcast c => Sys2Proof.Machine.execVecBcast c s
  | .vecCvth c => Sys2Proof.Machine.execVecCvth c s
  | .vecCvt4 c => Sys2Proof.Machine.execVecCvt4 c s
  | .vecCvt6 c => Sys2Proof.Machine.execVecCvt6 c s
  | .vecCvt8 c => Sys2Proof.Machine.execVecCvt8 c s
  | .vecVld c => Sys2Proof.Machine.execVecVld c s
  | .vecVst c => Sys2Proof.Machine.execVecVst c s
  | .movIn c => Sys2Proof.Machine.execMovIn c s
  | .movOut c => Sys2Proof.Machine.execMovOut c s
  | .movLocal c => Sys2Proof.Machine.execMovLocal c s
  | .snd c => Sys2Proof.Machine.execSnd c s
  | .rcv c => Sys2Proof.Machine.execRcv c s
  | .sig c => Sys2Proof.Machine.execSig c s
  | .watBarrier c => Sys2Proof.Machine.execWatBarrier c s
  | .watBarrierRelease c => Sys2Proof.Machine.execWatBarrierRelease c s
  | .watLocal c => Sys2Proof.Machine.execWatLocal c s
  | .watLocalRelease c => Sys2Proof.Machine.execWatLocalRelease c s
  | .wipe c => Sys2Proof.Machine.execWipe c s
  | .pitchEnd c => Sys2Proof.Machine.execPitchEnd c s
  | .programFetch c crcFail => Sys2Proof.Machine.execProgramFetch c crcFail s
  | .pitchDispatch l => Sys2Proof.Machine.execPitchDispatch l s
  | .tokenInstallment c => Sys2Proof.Machine.execTokenInstallment c s
  | .meterDebit c events => Sys2Proof.Machine.execMeterDebit c events s
  | .commit c => Sys2Proof.Machine.execCommit c s
  | .cycleBudgetCutoff c => Sys2Proof.Machine.execCycleBudgetCutoff c s
  | .sequencerWatchdog c => Sys2Proof.Machine.execSequencerWatchdog c s
  | .parityError c unit index => Sys2Proof.Machine.execParityError c unit index s
  | .coreAbort c => Sys2Proof.Machine.execCoreAbort c s
  | .coreHalt c on => Sys2Proof.Machine.execCoreHalt c on s
  | .haltBoundaryReached c => Sys2Proof.Machine.execHaltBoundaryReached c s
  | .stopRecord c => Sys2Proof.Machine.execStopRecord c s
  | .fenceWipeDone c => Sys2Proof.Machine.execFenceWipeDone c s
  | .fenceWipeTimeout c => Sys2Proof.Machine.execFenceWipeTimeout c s
  | .epochBoundary => Sys2Proof.Machine.execEpochBoundary s
  | .slotBoundary => Sys2Proof.Machine.execSlotBoundary s
  | .coreSwitchResume c => Sys2Proof.Machine.execCoreSwitchResume c s
  | .restoreBlockFail c unit => Sys2Proof.Machine.execRestoreBlockFail c unit s
  | .meshBlockForward router dir hdr payload => Sys2Proof.Machine.execMeshBlockForward router dir hdr payload s
  | .meshReadDataRx hdr payload hopErr => Sys2Proof.Machine.execMeshReadDataRx hdr payload hopErr s
  | .meshReadRequestRx hdr => Sys2Proof.Machine.execMeshReadRequestRx hdr s
  | .meshWriteRx hdr payload => Sys2Proof.Machine.execMeshWriteRx hdr payload s
  | .meshWriteAckRx hdr => Sys2Proof.Machine.execMeshWriteAckRx hdr s
  | .meshNakRx hdr hopErr => Sys2Proof.Machine.execMeshNakRx hdr hopErr s
  | .ledgeSpareCopyDone g => Sys2Proof.Machine.execLedgeSpareCopyDone g s
  | .hbmCorrectedError pc => Sys2Proof.Machine.execHbmCorrectedError pc s
  | .hbmRetireCopyDone pc => Sys2Proof.Machine.execHbmRetireCopyDone pc s
  | .arbRequest a req => Sys2Proof.Machine.execArbRequest a req s
  | .arbRelease a => Sys2Proof.Machine.execArbRelease a s
  | .arbAged a req => Sys2Proof.Machine.execArbAged a req s
  | .arbCutoff a => Sys2Proof.Machine.execArbCutoff a s
  | .enable x => Sys2Proof.Machine.execEnable x s
  | .disable x => Sys2Proof.Machine.execDisable x s
  | .drainTimeout x => Sys2Proof.Machine.execDrainTimeout x s
  | .scrubReadbackFail x unit again => Sys2Proof.Machine.execScrubReadbackFail x unit again s
  | .scrubDone x => Sys2Proof.Machine.execScrubDone x s
  | .ctxPartitionWrite x off v => Sys2Proof.Machine.execCtxPartitionWrite x off v s
  | .ctxTeamWrite x ix v => Sys2Proof.Machine.execCtxTeamWrite x ix v s
  | .ctxSlotLiveWrite ix v => Sys2Proof.Machine.execCtxSlotLiveWrite ix v s
  | .ctxSlotShadowWrite ix v => Sys2Proof.Machine.execCtxSlotShadowWrite ix v s
  | .ctxSlotCntWrite v => Sys2Proof.Machine.execCtxSlotCntWrite v s
  | .ctxSlotSwap => Sys2Proof.Machine.execCtxSlotSwap s
  | .ctxBarValWrite x ctr v => Sys2Proof.Machine.execCtxBarValWrite x ctr v s
  | .pitch src lcore desc => Sys2Proof.Machine.execPitch src lcore desc s
  | .coll src d => Sys2Proof.Machine.execColl src d s
  | .wcopy src op rank addr off len => Sys2Proof.Machine.execWcopy src op rank addr off len s
  | .bind src => Sys2Proof.Machine.execBind src s
  | .unbind src slot => Sys2Proof.Machine.execUnbind src slot s
  | .admitCmd src hbm ledge => Sys2Proof.Machine.execAdmitCmd src hbm ledge s
  | .wpage src first count st target => Sys2Proof.Machine.execWpage src first count st target s
  | .wpageTransition page => Sys2Proof.Machine.execWpageTransition page s
  | .nop src => Sys2Proof.Machine.execNop src s
  | .ctxrd src ctx off => Sys2Proof.Machine.execCtxrd src ctx off s
  | .ctxwr src ctx off v => Sys2Proof.Machine.execCtxwr src ctx off v s
  | .sqDoorbell f ix v => Sys2Proof.Machine.execSqDoorbell f ix v s
  | .cqDoorbell f ix v => Sys2Proof.Machine.execCqDoorbell f ix v s
  | .sqEnable f ix v => Sys2Proof.Machine.execSqEnable f ix v s
  | .cqEnable f ix v => Sys2Proof.Machine.execCqEnable f ix v s
  | .descriptorConsume f ix entry => Sys2Proof.Machine.execDescriptorConsume f ix entry s
  | .completionPost f ix => Sys2Proof.Machine.execCompletionPost f ix s
  | .coalTimeExpiry f ix => Sys2Proof.Machine.execCoalTimeExpiry f ix s
  | .windowAccess f tee off len data => Sys2Proof.Machine.execWindowAccess f tee off len data s
  | .vfFlr x => Sys2Proof.Machine.execVfFlr x s
  | .ideIntegrityFailure stream bound => Sys2Proof.Machine.execIdeIntegrityFailure stream bound s
  | .ideKm sess stream => Sys2Proof.Machine.execIdeKm sess stream s
  | .tdispGetVersion x => Sys2Proof.Machine.execTdispGetVersion x s
  | .tdispGetCapabilities x => Sys2Proof.Machine.execTdispGetCapabilities x s
  | .lockInterface x => Sys2Proof.Machine.execLockInterface x s
  | .getDeviceInterfaceReport x => Sys2Proof.Machine.execGetDeviceInterfaceReport x s
  | .getDeviceInterfaceState x => Sys2Proof.Machine.execGetDeviceInterfaceState x s
  | .startInterface x => Sys2Proof.Machine.execStartInterface x s
  | .stopInterface x => Sys2Proof.Machine.execStopInterface x s
  | .fabPortEnable p => Sys2Proof.Machine.execFabPortEnable p s
  | .laneSetAgreed p lanes failed => Sys2Proof.Machine.execLaneSetAgreed p lanes failed s
  | .keyHelloRx p m => Sys2Proof.Machine.execKeyHelloRx p m s
  | .keyCtRx p m => Sys2Proof.Machine.execKeyCtRx p m s
  | .keysEstablished p => Sys2Proof.Machine.execKeysEstablished p s
  | .trainingTimeout p => Sys2Proof.Machine.execTrainingTimeout p s
  | .fabPortDisable p => Sys2Proof.Machine.execFabPortDisable p s
  | .fabRetrain p => Sys2Proof.Machine.execFabRetrain p s
  | .fabKeyRotate p => Sys2Proof.Machine.execFabKeyRotate p s
  | .keyRotationDue p => Sys2Proof.Machine.execKeyRotationDue p s
  | .keyRotationTimeout p => Sys2Proof.Machine.execKeyRotationTimeout p s
  | .fabTagRx p blocks tag lanes => Sys2Proof.Machine.execFabTagRx p blocks tag lanes s
  | .fabAckcrRx p last cr0 cr1 cr2 cr3 => Sys2Proof.Machine.execFabAckcrRx p last cr0 cr1 cr2 cr3 s
  | .fabNakRx p lseq lanes => Sys2Proof.Machine.execFabNakRx p lseq lanes s
  | .fabAckTimeout p => Sys2Proof.Machine.execFabAckTimeout p s
  | .auditDue p => Sys2Proof.Machine.execAuditDue p s
  | .audit p vl k sSent sCred lseq => Sys2Proof.Machine.execAudit p vl k sSent sCred lseq s
  | .resetWord p cause last o0 o1 o2 o3 => Sys2Proof.Machine.execResetWord p cause last o0 o1 o2 o3 s
  | .resetAck p last o0 o1 o2 o3 => Sys2Proof.Machine.execResetAck p last o0 o1 o2 o3 s
  | .fabBlockRoute b origin inPort => Sys2Proof.Machine.execFabBlockRoute b origin inPort s
  | .dataBlock b inPort => Sys2Proof.Machine.execDataBlock b inPort s
  | .channelSpaceTimeout x ch => Sys2Proof.Machine.execChannelSpaceTimeout x ch s
  | .returnBlock b inPort => Sys2Proof.Machine.execReturnBlock b inPort s
  | .deliveryRecordPost x => Sys2Proof.Machine.execDeliveryRecordPost x s
  | .routeHoldExpiry node => Sys2Proof.Machine.execRouteHoldExpiry node s
  | .fabRtWrite node ports => Sys2Proof.Machine.execFabRtWrite node ports s
  | .collBlockRx b inPort => Sys2Proof.Machine.execCollBlockRx b inPort s
  | .collComplete x slot => Sys2Proof.Machine.execCollComplete x slot s
  | .collTimeout x slot => Sys2Proof.Machine.execCollTimeout x slot s
  | .winWr b inPort => Sys2Proof.Machine.execWinWr b inPort s
  | .winRd b inPort => Sys2Proof.Machine.execWinRd b inPort s
  | .winRdd b inPort => Sys2Proof.Machine.execWinRdd b inPort s
  | .winAck b inPort => Sys2Proof.Machine.execWinAck b inPort s
  | .channelBrokenClear x ch => Sys2Proof.Machine.execChannelBrokenClear x ch s
  | .fallbackTimeout => Sys2Proof.Machine.execFallbackTimeout s
  | .pwrHbWrite seq => Sys2Proof.Machine.execPwrHbWrite seq s
  | .cairnCapUpdate meas => Sys2Proof.Machine.execCairnCapUpdate meas s
  | .hardwareTrip diode => Sys2Proof.Machine.execHardwareTrip diode s
  | .tripEnd => Sys2Proof.Machine.execTripEnd s
  | .diodeSample diode temp => Sys2Proof.Machine.execDiodeSample diode temp s
  | .thermalUpdate ledgeT hbmT => Sys2Proof.Machine.execThermalUpdate ledgeT hbmT s
  | .allowanceSilence => Sys2Proof.Machine.execAllowanceSilence s
  | .thmRun on => Sys2Proof.Machine.execThmRun on s
  | .thmModelDataWrite v => Sys2Proof.Machine.execThmModelDataWrite v s
  | .sensorSuspect sensor => Sys2Proof.Machine.execSensorSuspect sensor s
  | .sensorSuspectClear sensor => Sys2Proof.Machine.execSensorSuspectClear sensor s
  | .sensorFault sensor => Sys2Proof.Machine.execSensorFault sensor s
  | .inputFault kind idx => Sys2Proof.Machine.execInputFault kind idx s
  | .coolantSample th flow => Sys2Proof.Machine.execCoolantSample th flow s
  | .suddenStopTimeout => Sys2Proof.Machine.execSuddenStopTimeout s
  | .lowFlowTimeout => Sys2Proof.Machine.execLowFlowTimeout s
  | .standbyPumpStart => Sys2Proof.Machine.execStandbyPumpStart s
  | .shutdownPumpRelease => Sys2Proof.Machine.execShutdownPumpRelease s
  | .autoFlowProof => Sys2Proof.Machine.execAutoFlowProof s
  | .implausSet => Sys2Proof.Machine.execImplausSet s
  | .implausClear => Sys2Proof.Machine.execImplausClear s
  | .slotLatch ix => Sys2Proof.Machine.execSlotLatch ix s
  | .slotOutputWrite ix => Sys2Proof.Machine.execSlotOutputWrite ix s
  | .followingErrorTrip ix => Sys2Proof.Machine.execFollowingErrorTrip ix s
  | .loopRun on => Sys2Proof.Machine.execLoopRun on s
  | .loopSlotEnable ix on => Sys2Proof.Machine.execLoopSlotEnable ix on s
  | .holdSet ix => Sys2Proof.Machine.execHoldSet ix s
  | .holdClear ix => Sys2Proof.Machine.execHoldClear ix s
  | .loopSlotRegisterWrite ix off v => Sys2Proof.Machine.execLoopSlotRegisterWrite ix off v s
  | .injectGo v => Sys2Proof.Machine.execInjectGo v s
  | .valveOnEdge v => Sys2Proof.Machine.execValveOnEdge v s
  | .valveOffEdge v => Sys2Proof.Machine.execValveOffEdge v s
  | .valveWordTimer v => Sys2Proof.Machine.execValveWordTimer v s
  | .boostCurrentReached v => Sys2Proof.Machine.execBoostCurrentReached v s
  | .boostTimeout v => Sys2Proof.Machine.execBoostTimeout v s
  | .deferredBoostStart v => Sys2Proof.Machine.execDeferredBoostStart v s
  | .coilModelUpdate v irms => Sys2Proof.Machine.execCoilModelUpdate v irms s
  | .valveConfigWrite v off w => Sys2Proof.Machine.execValveConfigWrite v off w s
  | .motorModeOff m => Sys2Proof.Machine.execMotorModeOff m s
  | .motorModeStart m => Sys2Proof.Machine.execMotorModeStart m s
  | .motorModeLoop m => Sys2Proof.Machine.execMotorModeLoop m s
  | .motorModeMax m => Sys2Proof.Machine.execMotorModeMax m s
  | .startResponse m byEst => Sys2Proof.Machine.execStartResponse m byEst s
  | .startAttemptTimeout m => Sys2Proof.Machine.execStartAttemptTimeout m s
  | .startRetry m => Sys2Proof.Machine.execStartRetry m s
  | .motorDriverFault m => Sys2Proof.Machine.execMotorDriverFault m s
  | .tachBroken m => Sys2Proof.Machine.execTachBroken m s
  | .ageMeasurement m meanIq => Sys2Proof.Machine.execAgeMeasurement m meanIq s
  | .acousticCapUpdate => Sys2Proof.Machine.execAcousticCapUpdate s
  | .ropeBandChange r ohms => Sys2Proof.Machine.execRopeBandChange r ohms s
  | .leakLatch r => Sys2Proof.Machine.execLeakLatch r s
  | .leakRepeat => Sys2Proof.Machine.execLeakRepeat s
  | .frameRx ix f => Sys2Proof.Machine.execFrameRx ix f s
  | .objLockRead ix k => Sys2Proof.Machine.execObjLockRead ix k s
  | .objRelease ix k => Sys2Proof.Machine.execObjRelease ix k s
  | .frameTxDone ix => Sys2Proof.Machine.execFrameTxDone ix s
  | .frameTxExpiry ix => Sys2Proof.Machine.execFrameTxExpiry ix s
  | .busOff ix => Sys2Proof.Machine.execBusOff ix s
  | .busOffRecoveryDone ix => Sys2Proof.Machine.execBusOffRecoveryDone ix s
  | .cbusBitTimingWrite ix dbt v => Sys2Proof.Machine.execCbusBitTimingWrite ix dbt v s
  | .leak src => Sys2Proof.Machine.execLeak src s
  | .peerLeakHoldEnd => Sys2Proof.Machine.execPeerLeakHoldEnd s
  | .tref ix src role carried start => Sys2Proof.Machine.execTref ix src role carried start s
  | .trefSendDue => Sys2Proof.Machine.execTrefSendDue s
  | .lease src g claim release primary epoch => Sys2Proof.Machine.execLease src g claim release primary epoch s
  | .mirror src g part epoch entries => Sys2Proof.Machine.execMirror src g part epoch entries s
  | .health src bits leaseStates cool => Sys2Proof.Machine.execHealth src bits leaseStates cool s
  | .leaseRenewalDue g => Sys2Proof.Machine.execLeaseRenewalDue g s
  | .leaseHolderTimeout g => Sys2Proof.Machine.execLeaseHolderTimeout g s
  | .leaseExpiry g => Sys2Proof.Machine.execLeaseExpiry g s
  | .leaseClaimSend g => Sys2Proof.Machine.execLeaseClaimSend g s
  | .leaseClaimWaitEnd g => Sys2Proof.Machine.execLeaseClaimWaitEnd g s
  | .selfTest readBackA readBackB drivers slots => Sys2Proof.Machine.execSelfTest readBackA readBackB drivers slots s
  | .senderStateExpiry src => Sys2Proof.Machine.execSenderStateExpiry src s
  | .sealOpen src offer base size => Sys2Proof.Machine.execSealOpen src offer base size s
  | .sealRotate src offer => Sys2Proof.Machine.execSealRotate src offer s
  | .sealKey src pkg epoch => Sys2Proof.Machine.execSealKey src pkg epoch s
  | .sealPage src page epoch staging => Sys2Proof.Machine.execSealPage src page epoch staging s
  | .trngHealthFailure die => Sys2Proof.Machine.execTrngHealthFailure die s
  | .trngHealthRecover die => Sys2Proof.Machine.execTrngHealthRecover die s
  | .spdmGetVersion doe => Sys2Proof.Machine.execSpdmGetVersion doe s
  | .spdmGetCapabilities doe => Sys2Proof.Machine.execSpdmGetCapabilities doe s
  | .negotiateAlgorithms doe => Sys2Proof.Machine.execNegotiateAlgorithms doe s
  | .getDigests doe => Sys2Proof.Machine.execGetDigests doe s
  | .getCertificate doe => Sys2Proof.Machine.execGetCertificate doe s
  | .challenge doe => Sys2Proof.Machine.execChallenge doe s
  | .getMeasurements doe => Sys2Proof.Machine.execGetMeasurements doe s
  | .keyExchange doe => Sys2Proof.Machine.execKeyExchange doe s
  | .finish doe sess cert => Sys2Proof.Machine.execFinish doe sess cert s
  | .keyUpdate doe sess => Sys2Proof.Machine.execKeyUpdate doe sess s
  | .heartbeat doe sess => Sys2Proof.Machine.execHeartbeat doe sess s
  | .endSession doe sess => Sys2Proof.Machine.execEndSession doe sess s
  | .spdmHeartbeatLoss doe sess => Sys2Proof.Machine.execSpdmHeartbeatLoss doe sess s
  | .dbgHalt on => Sys2Proof.Machine.execDbgHalt on s
  | .dbgStep => Sys2Proof.Machine.execDbgStep s
  | .dbgTrace on => Sys2Proof.Machine.execDbgTrace on s
  | .dbgTraceClr => Sys2Proof.Machine.execDbgTraceClr s
  | .dbgDataRead => Sys2Proof.Machine.execDbgDataRead s
  | .campFault kind unit unit2 => Sys2Proof.Machine.execCampFault kind unit unit2 s
  | .campTrip ended diode => Sys2Proof.Machine.execCampTrip ended diode s
  | .campReady svn => Sys2Proof.Machine.execCampReady svn s
  | .campSeek idx => Sys2Proof.Machine.execCampSeek idx s
  | .hostEvent code value arg => Sys2Proof.Machine.execHostEvent code value arg s
  | .hostFlush => Sys2Proof.Machine.execHostFlush s
  | .hostStatus => Sys2Proof.Machine.execHostStatus s
  | .eventPortWrite lo hi => Sys2Proof.Machine.execEventPortWrite lo hi s
  | .evtOvfPoll => Sys2Proof.Machine.execEvtOvfPoll s
  | .hutBookFlushTimer => Sys2Proof.Machine.execHutBookFlushTimer s
  | .recordAllowanceTick => Sys2Proof.Machine.execRecordAllowanceTick s
  | .boardActivity => Sys2Proof.Machine.execBoardActivity s
  | .bmcLate => Sys2Proof.Machine.execBmcLate s
  | .autonomousModeEnter => Sys2Proof.Machine.execAutonomousModeEnter s
  | .mgmtRead who what => Sys2Proof.Machine.execMgmtRead who what s
  | .setBoardCap who cap => Sys2Proof.Machine.execSetBoardCap who cap s
  | .moduleReset who => Sys2Proof.Machine.execModuleReset who s
  | .ledgerStage who tag bytes => Sys2Proof.Machine.execLedgerStage who tag bytes s
  | .ledgerCommit who => Sys2Proof.Machine.execLedgerCommit who s
  | .ledgerRevert who => Sys2Proof.Machine.execLedgerRevert who s
  | .fwStage who dom off bytes => Sys2Proof.Machine.execFwStage who dom off bytes s
  | .fwVerify who dom => Sys2Proof.Machine.execFwVerify who dom s
  | .fwDiscard who dom => Sys2Proof.Machine.execFwDiscard who dom s
  | .latchClear who => Sys2Proof.Machine.execLatchClear who s
  | .mgmtRecover who ix => Sys2Proof.Machine.execMgmtRecover who ix s
  | .flowRestart who => Sys2Proof.Machine.execFlowRestart who s
  | .leaseRelease who g => Sys2Proof.Machine.execLeaseRelease who g s
  | .mgmtInject who => Sys2Proof.Machine.execMgmtInject who s
  | .floorRaise who dom => Sys2Proof.Machine.execFloorRaise who dom s
  | .faultClear who => Sys2Proof.Machine.execFaultClear who s
  | .logClear who => Sys2Proof.Machine.execLogClear who s
  | .blkIntSetWrite who page bits => Sys2Proof.Machine.execBlkIntSetWrite who page bits s
  | .globalIrqPendClear bits events => Sys2Proof.Machine.execGlobalIrqPendClear bits events s
  | .globalIrqRouteWrite src v => Sys2Proof.Machine.execGlobalIrqRouteWrite src v s
  | .pwrFreeRead => Sys2Proof.Machine.execPwrFreeRead s
  | .cfglDataRead => Sys2Proof.Machine.execCfglDataRead s
  | .registerWrite who off size v => Sys2Proof.Machine.execRegisterWrite who off size v s
  | .motorPwmPeriod m ia ib ic id iq est angle => Sys2Proof.Machine.execMotorPwmPeriod m ia ib ic id iq est angle s
  | .valveShuntSample v code => Sys2Proof.Machine.execValveShuntSample v code s
  | .ainConversion k code => Sys2Proof.Machine.execAinConversion k code s
  | .pulseInputEdge input => Sys2Proof.Machine.execPulseInputEdge input s
  | .cbusBusError ix tec rec => Sys2Proof.Machine.execCbusBusError ix tec rec s
  | .trefAgeTimeout ix => Sys2Proof.Machine.execTrefAgeTimeout ix s
  | .telemetryInterval => Sys2Proof.Machine.execTelemetryInterval s
  | .fabResetExchangeTimeout p => Sys2Proof.Machine.execFabResetExchangeTimeout p s
  | .standbyPowerLost => Sys2Proof.Machine.execStandbyPowerLost s
  | .registerRead who off size => Sys2Proof.Machine.execRegisterRead who off size s
  | .instructionComplete c unit => Sys2Proof.Machine.execInstructionComplete c unit s

end Sys2Proof.Machine
end

