-- ==== Sys2Proof/Machine/Tick.lean ====
section
/-! DEFINITION. One tick of the module timestamp, 10 ns, on an empty queue (DESIGN CHOICE: log entry 2). -/

namespace Sys2Proof.Machine

/-- R139: a core counts its cycles: from the first issue, but for the waits named there. `reserve` is RESERVE of
R332. -/
def countsCycle (reserve : Nat) (q : CoreCtl) (k : Core) : Bool :=
  match k.run with
  | none => false
  | some r => r.started && k.pstate != .waitTokens && !q.halted && !q.switching && decide (reserve ≤ q.bal)

/-- R102: cycles that the watchdog counts. -/
def countsWdog (reserve : Nat) (q : CoreCtl) (k : Core) : Bool :=
  match k.run with
  | none => false
  | some r => countsCycle reserve q k && !r.ended && r.waitUnits.isNone && k.pstate == .run

/-- The 16 core cycles of one tick on one core (R19): CYCLES saturates. -/
def Core.tick (reserve : Nat) (q : CoreCtl) (k : Core) : Core :=
  { k with cycles := if countsCycle reserve q k then satAdd k.cycles 16 else k.cycles
           wdog := if countsWdog reserve q k then (if k.wdog.toNat + 16 ≥ 65536 then 65536 else k.wdog + 16) else k.wdog }

/-- R23, R24: the module timestamp counts, and its copy on the compute die while that runs. -/
def tick (s : State) : State :=
  { s with
    env := { s.env with ts := s.env.ts + 1, tsCopy := if s.env.dieUp then s.env.tsCopy + 1 else s.env.tsCopy }
    cores := s.cores.map (fun c => (c.1, c.2.tick s.pwr.reserve.toNat (s.ctl c.1))) }

end Sys2Proof.Machine
end

