-- ==== Sys2Proof/WellFormed.lean ====
section
/-! DEFINITION. The commands that can be sent: operands of the lengths and shapes that their rules give. A meaning is total
and answers ill-formed commands too; no statement speaks of those. -/

namespace Sys2Proof

/-- A ring that a function has: the physical function has ring 0 alone (R298). -/
def CmdSrc.ok (c : CmdSrc) : Bool := c.fn.val != 0 || c.sq.val == 0

/-- A mesh block's payload: none, or 1 to 4 lines of 64 bytes (R157). -/
def meshPayloadOk (p : List Byte) : Bool := p.length % 64 == 0 && p.length ≤ 256

/-- A fabric block's payload: 256 bytes, or none (R249). -/
def FabBlock.ok (b : FabBlock) : Bool := b.payload.length == 0 || b.payload.length == 256

/-- The payload lengths of a bus frame (R441). -/
def CanFrame.ok (f : CanFrame) : Bool :=
  [0, 1, 2, 3, 4, 5, 6, 7, 8, 12, 16, 20, 24, 32, 48, 64].contains f.payload.length

/-- A naturally aligned register access of 4 or 8 bytes (R290). -/
def accessShape (off : BitVec 26) (size : Nat) : Bool := (size == 4 || size == 8) && off.toNat % size == 0

/-- Some bytes, where there are any, of a length. -/
def lenOk (n : Nat) (d : Option (List Byte)) : Bool := match d with
  | some bs => bs.length == n
  | none => true

/-- R286: a width the host link has. -/
def widthOk (w : BitVec 5) : Bool := w == 4 || w == 8 || w == 16

/-- An operand check per command; a command whose operands' types say everything passes. -/
def Instr.wellFormed : Instr → Bool
  | .pcieLinkUp _ w => widthOk w
  | .meshBlockForward _ _ _ p | .meshWriteRx _ p | .meshReadDataRx _ p _ => meshPayloadOk p
  | .coll src d => src.ok && d.length == 28
  | .wcopy src .. | .pitch src .. | .bind src | .unbind src _ | .admitCmd src .. | .wpage src .. | .nop src
  | .ctxrd src .. | .ctxwr src .. | .sealOpen src .. | .sealRotate src _ | .sealKey src .. | .sealPage src .. => src.ok
  | .sqDoorbell f r _ | .cqDoorbell f r _ | .sqEnable f r _ | .cqEnable f r _ | .completionPost f r | .coalTimeExpiry f r =>
    f.val != 0 || r.val == 0
  | .descriptorConsume f r e => (f.val != 0 || r.val == 0) && lenOk 64 e
  | .windowAccess _ _ _ n d => n != 0 && n ≤ 4096 && lenOk n d
  | .fabTagRx _ bs _ _ => bs.all (·.ok) && !bs.isEmpty && bs.length ≤ 8
  | .fabBlockRoute b _ _ | .dataBlock b _ | .returnBlock b _ | .collBlockRx b _ | .winWr b _ | .winRd b _ | .winRdd b _
  | .winAck b _ => b.ok
  | .thermalUpdate l h => l.length ≤ 4 && h.length ≤ 8
  | .coolantSample t f => t.length == 8 && f.length == 4
  | .frameRx _ f => f.ok
  | .mirror _ _ _ _ es => es.length ≤ 7
  | .finish doe _ cert => doe || !cert.isEmpty
  | .fwStage _ _ _ bs => bs.length ≤ 1024
  | .registerRead _ off n | .registerWrite _ off n _ => accessShape off n
  | _ => true

end Sys2Proof
end

