-- ==== Sys2Proof/Safety.lean ====
section
/-! DEFINITION. What counts as a safe state and a safe run, in the terms that claims use. -/

namespace Sys2Proof.Safety

open Sys2Proof.Machine

/-- Every memory of the module is in its canonical form: the Ledge, HBM, the host's memory, the pitch memory of every core
and of every save record (R203). -/
def memoryOk (s : State) : Prop :=
  Memory.wf s.ledge.mem ∧ Memory.wf s.hbm.mem ∧ Memory.wf s.host.mem ∧ (∀ e ∈ s.cores, Memory.wf e.2.pm) ∧
  ∀ e ∈ s.ctx.ctxs, ∀ q ∈ e.2.saved, ∀ k, q.2 = some k → Memory.wf k.pm

/-- The limits that the manual sets on registers which hold a legal value from reset on: the guard thresholds (R353),
RESERVE (R332), the temperature targets (R378). -/
def limitsOk (s : State) : Prop :=
  s.pwr.guardT.toNat ≤ 108 ∧ s.pwr.guardRel.toNat < s.pwr.guardT.toNat ∧ 128 ≤ s.pwr.reserve.toNat ∧
  s.thm.tjTarget.toNat ≤ 100 ∧ s.thm.hbmTarget.toNat ≤ 95

/-- No SVN floor falls (R472). -/
def floorsHold (s t : State) : Prop :=
  s.sec.cairnFloor.toNat ≤ t.sec.cairnFloor.toNat ∧ s.sec.campFloor.toNat ≤ t.sec.campFloor.toNat

/-- A run of well-formed commands that ends in a next state. -/
def safeRun (s : State) (cs : List Instr) : Prop :=
  (∀ c ∈ cs, c.wellFormed = true) ∧
  ∃ t, Host.Core.run Sys2Proof.core cs.length { s with pending := cs } = .next t

/-! ### What a command leaves -/

/-- The parts of the state. -/
inductive Part where
  | pending | reply | env | hdrs | cores | ctls | ledge | mesh | hbm | arbs | arbSels | ctx | fence | fab | host
  | glob | pwr | sec | dbg | evts | thm | cool | loop | drv | cbus | hut | cairn | fresh
  deriving DecidableEq, Repr

/-- Two states agree on a part. -/
def Part.same (s t : State) : Part → Prop
  | .pending => t.pending = s.pending
  | .reply => t.reply = s.reply
  | .env => t.env = s.env
  | .hdrs => t.hdrs = s.hdrs
  | .cores => t.cores = s.cores
  | .ctls => t.ctls = s.ctls
  | .ledge => t.ledge = s.ledge
  | .mesh => t.mesh = s.mesh
  | .hbm => t.hbm = s.hbm
  | .arbs => t.arbs = s.arbs
  | .arbSels => t.arbSels = s.arbSels
  | .ctx => t.ctx = s.ctx
  | .fence => t.fence = s.fence
  | .fab => t.fab = s.fab
  | .host => t.host = s.host
  | .glob => t.glob = s.glob
  | .pwr => t.pwr = s.pwr
  | .sec => t.sec = s.sec
  | .dbg => t.dbg = s.dbg
  | .evts => t.evts = s.evts
  | .thm => t.thm = s.thm
  | .cool => t.cool = s.cool
  | .loop => t.loop = s.loop
  | .drv => t.drv = s.drv
  | .cbus => t.cbus = s.cbus
  | .hut => t.hut = s.hut
  | .cairn => t.cairn = s.cairn
  | .fresh => t.fresh = s.fresh

/-- `t` is `s` but for some parts of the state: every other part is unchanged. -/
def only (parts : List Part) (s t : State) : Prop := ∀ p, p ∉ parts → Part.same s t p

/-! ### What can issue on a core -/

/-- No trace records a core's events, and no single step holds it. -/
def unwatched (s : State) (c : Nat) : Prop := s.dbg.tracing.contains c = false ∧ (s.ctl c).stepping = false

/-- The word `w` at the PC of a core can issue: it decodes to `i`, which its pitch may use, and no queue and no hazard holds
it. -/
def poised (s : State) (c : Nat) (r : Run) (w : DWord) (i : PitchInstr) : Prop :=
  canIssue s c = true ∧ (s.core c).run = some r ∧ (s.core c).word = some w ∧ PitchInstr.decode w = some i ∧
  pitchAllows s r i = true ∧ mustWait r i = false

/-- As `poised`, with no instruction in flight, the reserve held, and nobody watching. -/
def alone (s : State) (c : Nat) (r : Run) (w : DWord) (i : PitchInstr) : Prop :=
  poised s c r w i ∧ r.flights = [] ∧ holdsReserve s c = true ∧ unwatched s c

/-- The queue entry of the word at PC. -/
def flightOf (k : Core) (i : PitchInstr) (w : DWord) : Flight :=
  { pc := k.pc.toNat, unit := unitNo i, word := w, wr := pmWrite i }

/-- A core after the word at PC has issued: PC moves on and the count of cycles has begun. -/
def steppedCore (k : Core) (r : Run) : Core := { k with pc := k.pc + 1, wdog := 0, run := some { r with started := true } }

/-- As `steppedCore`, with the instruction carried out by its unit and not yet completed. -/
def carriedCore (k : Core) (r : Run) (i : PitchInstr) (w : DWord) : Core :=
  steppedCore k { r with flights := [{ flightOf k i w with done := true }] }

/-- The command that issues a pitch instruction on a core. -/
def commandOf (c : CoreId) : PitchInstr → Instr
  | .wld .. => .wld c
  | .wsw => .wsw c
  | .str .. => .str c
  | .ancClr .. => .ancClr c
  | .ancRd .. => .ancRd c
  | .ancExp .. => .ancExp c
  | .ancMrg .. => .ancMrg c
  | .vec op .. => vecCommand op
  | .movIn .. => .movIn c
  | .movOut .. => .movOut c
  | .movLocal .. => .movLocal c
  | .snd .. => .snd c
  | .rcv .. => .rcv c
  | .sig .. => .sig c
  | .watBar .. => .watBarrier c
  | .watLocal .. => .watLocal c
  | .wipe => .wipe c
  | .fin => .pitchEnd c
where
  vecCommand : VOp → Instr
    | .add => .vecAdd c | .sub => .vecSub c | .mul => .vecMul c | .fma => .vecFma c | .min => .vecMin c
    | .max => .vecMax c | .clt => .vecClt c | .ceq => .vecCeq c | .sel => .vecSel c | .abs => .vecAbs c
    | .neg => .vecNeg c | .exp => .vecExp c | .rcp => .vecRcp c | .rsq => .vecRsq c | .rsum => .vecRsum c
    | .rmax => .vecRmax c | .bcast => .vecBcast c | .cvth => .vecCvth c | .cvt4 => .vecCvt4 c | .cvt6 => .vecCvt6 c
    | .cvt8 => .vecCvt8 c | .vld => .vecVld c | .vst => .vecVst c

/-! ### Terms of the statements about single commands -/

/-- A management command is carried out for its requester (R500, R507): Cairn firmware runs, or the boot ROM does and takes
the command (`inRom`), and the requester's role suffices. -/
def authorised (s : State) (who : Principal) (need : Role) (inRom : Bool) : Prop :=
  (s.cairn.st = .running ∨ (s.cairn.st = .recovery ∧ inRom = true)) ∧ need.rank ≤ (roleIn s who).rank

/-- A command of a ring has completed between `s` and `t` with a status and a result (R143, R307): they are the answer, and,
where no NOP waits, its completion record is the newest of its function's holding queue. -/
def completed (s t : State) (src : CmdSrc) (st : Status) (v : Nat) : Prop :=
  t.reply = { status := some st, value := BitVec.ofNat 64 v } ∧
  ((s.fn src.fn.val).nops = [] →
    (t.fn src.fn.val).hold = (s.fn src.fn.val).hold ++ [recordFor src 2 (genericRec st v s) s])

/-- The pitch on core `c` has completed with a status between `s` and `t` (R142): the core holds no pitch, its whole token
balance is returned (R334), PITCH_DONE is raised, and the status is the answer. -/
def pitchEnded (s t : State) (c : Nat) (st : Status) : Prop :=
  (t.core c).run = none ∧ (t.core c).lastStatus = st ∧ (t.core c).pstate = .idle ∧ (t.ctl c).bal = 0 ∧
  t.pwr.free = s.pwr.free + (s.ctl c).bal ∧ (t.hdr (pgCore c)).stat &&& bitMask 0 = bitMask 0 ∧ t.reply.status = some st

/-- A pitch runs on core `c` and nothing waits for its end: no pitch is pending on the core, its diode works, and its context is
not draining. -/
def lone (s : State) (c : Nat) (r : Run) : Prop :=
  (s.core c).run = some r ∧ (s.core c).next = none ∧ (s.ctl c).diodeFault = false ∧ (s.cx r.job.ctx.val).st ≠ .draining

/-- The opcode and the unit of each class of pitch instruction, as the table of R115 gives them. -/
def opcodeRow : PitchInstr → Nat × Fin 6
  | .wld .. => (0x01, 0) | .wsw => (0x02, 1) | .str .. => (0x03, 1)
  | .ancClr .. => (0x08, 2) | .ancRd .. => (0x09, 2) | .ancExp .. => (0x0A, 2) | .ancMrg .. => (0x0B, 2)
  | .vec .. => (0x10, 3) | .movIn .. | .movOut .. | .movLocal .. => (0x18, 4)
  | .sig .. => (0x20, 5) | .watBar .. | .watLocal .. => (0x21, 5)
  | .snd .. => (0x28, 4) | .rcv .. => (0x29, 4) | .wipe => (0x30, 5) | .fin => (0x3F, 5)

end Sys2Proof.Safety
end

