-- ==== Sys2Proof/Certificates/Slice0/Obligations.lean ====
section
/-! DEFINITION. The statements about the model, one per family of commands and one per rule that holds of the whole machine. A
command's statement names every part of the state that the command may change (`only`), and so says that every other part keeps
its value. -/

open Sys2Proof Sys2Proof.Machine Sys2Proof.Safety

/-- For every command and every state, a step of the state with that command at the front of its queue is exec of the
command on the state with the rest of the queue. The queue is the model's own (log entry 3). Rules:
95_what_each_step_holds.md. -/
def Obligations.StepRunsFrontCommand : Prop :=
  ∀ (c : Instr) (rest : List Instr) (s : State),
    step { s with pending := c :: rest } = exec c { s with pending := rest }

/-- For every command and every state, exec answers a next state (no command faults and none is refused), and the queue of
waiting commands of that state is the queue before. The queue is the model's own (log entry 3). Rules:
95_what_each_step_holds.md. -/
def Obligations.EveryCommandAnswersNext : Prop :=
  ∀ (c : Instr) (s : State), ∃ t, exec c s = .next t ∧ t.pending = s.pending

/-- STANDBY_RESET and CAIRN_WATCHDOG_EXPIRY leave the module timestamp at 0. No other command, but the loss of standby
power, changes it. A step keeps the rule that the compute die is up only while the rails are on. On an empty queue a
step is one tick of 10 ns: the timestamp counts one, its copy counts one while the compute die runs, and nothing else
but the cores' counters changes. The tick is the model's choice (log entry 2). Covers STANDBY_RESET,
CAIRN_WATCHDOG_EXPIRY, STANDBY_POWER_LOST. Rules: R15, R23, R24, R31. -/
def Obligations.TimestampAndRails : Prop :=
  (∀ s : State, (∃ t, exec .standbyReset s = .next t ∧ t.env.ts = 0) ∧ ∃ t, exec .cairnWatchdogExpiry s = .next t ∧ t.env.ts = 0) ∧
  (∀ (c : Instr) (s t : State), exec c s = .next t → c ≠ .standbyReset → c ≠ .cairnWatchdogExpiry → c ≠ .standbyPowerLost →
      t.env.ts = s.env.ts) ∧
  (∀ s t : State, (s.env.dieUp = true → s.env.rails = true) → step s = .next t → t.env.dieUp = true → t.env.rails = true) ∧
  -- the tick
  (∀ s : State, s.pending = [] → ∃ t, step s = .next t ∧
    t.env = { s.env with ts := s.env.ts + 1, tsCopy := if s.env.dieUp then s.env.tsCopy + 1 else s.env.tsCopy } ∧ only [.env, .cores] s t)

/-- Each of the eleven completion statuses has the 4-bit code that the table of R12 gives it, no two share a code, and no
status has one of the reserved codes 0xB to 0xF. Rules: R12. -/
def Obligations.StatusCodes : Prop :=
  Status.ok.code = 0x0 ∧ Status.inexact.code = 0x1 ∧ Status.saturated.code = 0x2 ∧ Status.overrun.code = 0x3 ∧ Status.aborted.code = 0x4 ∧
      Status.footprint.code = 0x5 ∧
  Status.residue.code = 0x6 ∧ Status.crc.code = 0x7 ∧ Status.undeliverable.code = 0x8 ∧ Status.denied.code = 0x9 ∧
      Status.scrubbing.code = 0xA ∧
  (∀ st : Status, st.code.toNat < 0xB) ∧ (∀ a b : Status, a.code = b.code → a = b)

/-- A word that decodes to a pitch instruction holds in bits 63 to 58 the opcode that the table of R115 gives the
instruction's class, and the instruction goes to the unit that the table gives (WIPE and END to the sequencer, which the
model numbers with the barrier unit). A word with any other opcode decodes to nothing, and so does the word 0. Rules:
R115. -/
def Obligations.PitchOpcodes : Prop :=
  (∀ (w : DWord) (i : PitchInstr), PitchInstr.decode w = some i → (w.extractLsb' 58 6).toNat = (opcodeRow i).1 ∧
      unitNo i = (opcodeRow i).2) ∧
  (∀ w : DWord, (w.extractLsb' 58 6).toNat ∉ [0x01, 0x02, 0x03, 0x08, 0x09, 0x0A, 0x0B, 0x10, 0x18, 0x20, 0x21, 0x28, 0x29, 0x30, 0x3F] →
      PitchInstr.decode w = none) ∧
  PitchInstr.decode 0 = none

/-- For every pitch instruction whose operands keep the limits of its class, decoding its encoding gives it back, with every
operand at every value the encoding admits. A word that decodes to an instruction is that instruction's encoding, and
its operands keep the limits: no reserved bit is set and no code is reserved. Rules: R115, R116, R117, R120, R122, R123,
R124, R125, R126, R128, R129, R133. -/
def Obligations.PitchEncodingRoundTrip : Prop :=
  (∀ i : PitchInstr, i.ok = true → PitchInstr.decode i.encode = some i) ∧
  (∀ (w : DWord) (i : PitchInstr), PitchInstr.decode w = some i → i.encode = w ∧ i.ok = true)

/-- A word decodes to END exactly when it is 0xFC00000000000000: bits 57 to 0 are reserved. PITCH_END on a core whose next
word is END, with no instruction in flight, ends the pitch's issue and moves the core to its commit. Covers END, COMMIT.
Rules: R133. -/
def Obligations.EndWordBeginsCommit : Prop :=
  (∀ w : DWord, PitchInstr.decode w = some .fin ↔ w = 0xFC00000000000000) ∧
  (∀ (c : CoreId) (r : Run) (s : State), alone s c.val r 0xFC00000000000000 .fin → ∃ t, exec (.pitchEnd c) s = .next t ∧
    ∃ r', (t.core c.val).run = some r' ∧ r'.ended = true ∧ (t.core c.val).pstate = .commit)

/-- The window of a non-empty pass has as its exponent P the largest exponent of its pairs. W is the exact sum of the pairs'
contributions: the pair sum shifted left by 28 - d where d = P - p is at most 28, else its floor after the right shift
by d - 28; the inexact flag is set exactly when a non-zero bit is dropped. A permutation of the pairs changes nothing.
An anchor entry aligns W by h = P - 28 - L (exact where h >= 0, the floor else, with INX set where a non-zero bit
drops), adds it as an exact integer, and where the sum leaves -2^127 to 2^127 - 1 takes the limit on that side and sets
SAT. While SAT is set the value does not change. Rules: R47, R48, R52, R54. -/
def Obligations.PassArithmetic : Prop :=
  (∀ ps : List Pair, ps ≠ [] →
    (∀ x ∈ ps, x.p ≤ (window ps).p) ∧ (∃ x ∈ ps, x.p = (window ps).p) ∧
    (window ps).w = (ps.map (fun x => if (window ps).p - x.p ≤ 28 then x.s * 2 ^ (28 - ((window ps).p - x.p)).toNat
      else x.s / 2 ^ ((window ps).p - x.p - 28).toNat)).sum ∧
    ((window ps).inx = true ↔ ∃ x ∈ ps, 28 < (window ps).p - x.p ∧ x.s % 2 ^ ((window ps).p - x.p - 28).toNat ≠ 0)) ∧
  (∀ ps qs : List Pair, ps.Perm qs → window ps = window qs) ∧
  (∀ (e : Anchor) (w : Window) (h d : Int), h = w.p - 28 - e.l.toInt →
      d = (if 0 ≤ h then w.w * 2 ^ h.toNat else w.w / 2 ^ (-h).toNat) →
    (e.addPass w).l = e.l ∧ (e.addPass w).nan = e.nan ∧
    (e.addPass w).inx = (e.inx || w.inx || (decide (h < 0) && decide (w.w % 2 ^ (-h).toNat ≠ 0))) ∧
    (e.sat = true → (e.addPass w).a = e.a ∧ (e.addPass w).sat = true) ∧
    (e.sat = false → -2 ^ 127 ≤ e.a.toInt + d → e.a.toInt + d ≤ 2 ^ 127 - 1 →
      (e.addPass w).a.toInt = e.a.toInt + d ∧ (e.addPass w).sat = false) ∧
    (e.sat = false → 2 ^ 127 - 1 < e.a.toInt + d → (e.addPass w).a.toInt = 2 ^ 127 - 1 ∧ (e.addPass w).sat = true) ∧
    (e.sat = false → e.a.toInt + d < -2 ^ 127 → (e.addPass w).a.toInt = -2 ^ 127 ∧ (e.addPass w).sat = true))

/-- The cleared entry passes its residue check. The pairs of a grid row carry the residue mod 7 of their product sums. From
every entry that passes the check, adding any pass whose pairs carry right residues, or merging any raw record that
passes its own check, gives an entry that passes the check: the residue path of alignment, window and addition agrees
with the arithmetic. An entry with SAT or NAN set is not checked. Rules: R49, R57, R58, R59, R60, R62. -/
def Obligations.ResidueHolds : Prop :=
  (∀ l : BitVec 10, (Anchor.cleared l).residueFails = false) ∧
  (∀ (fa fw : OpFmt) (a w : List Byte) (ps : List Pair), rowPairs fa fw a w = some ps → ∀ x ∈ ps, x.r = mod7 x.s) ∧
  (∀ (e : Anchor) (ps : Option (List Pair)), e.residueFails = false → (∀ qs, ps = some qs → ∀ x ∈ qs, x.r = mod7 x.s) →
    (e.pass ps).residueFails = false) ∧
  (∀ (e : Anchor) (r : RawRec), e.residueFails = false → r.residueFails = false → (e.merge r).residueFails = false)

/-- If the Ledge, HBM, host memory, every core's pitch memory and the pitch memory of every save record are in canonical
form (addresses strictly rising, no entry equal to what an unlisted address reads as), then they are so after any step
that answers a next state. The form and what an unlisted byte reads as are the model's (log entry 5). Rules: R97, R146,
R165, R203. -/
def Obligations.MemoryKept : Prop :=
  ∀ s t : State, memoryOk s → step s = .next t → memoryOk t

/-- From every state whose guard thresholds, RESERVE and temperature targets lie within their limits (GUARD_T at most 108,
GUARD_REL below GUARD_T, RESERVE at least 128, TJ_TARGET at most 100, HBM_TARGET at most 95), a step leads to such a
state. From every state whatever, a step leaves both SVN floors at or above what they were. Rules: R332, R342, R353,
R378, R472. -/
def Obligations.LimitsAndFloorsKept : Prop :=
  (∀ s t : State, limitsOk s → step s = .next t → limitsOk t) ∧
  (∀ s t : State, step s = .next t → floorsHold s t)

/-- At reset every memory is in canonical form and empty, the register limits hold, no command waits, the module timestamp
is 0 with the rails off and the compute die down, every context is DISABLED, GUARD_T and GUARD_REL read 105 and 102,
RESERVE reads 128, and the coolant cap is 0. Rules: R23, R190, R322, R353, R378. -/
def Obligations.ResetMeetsInvariants : Prop :=
  memoryOk State.reset ∧ limitsOk State.reset ∧
  State.reset.ledge.mem = [] ∧ State.reset.hbm.mem = [] ∧ State.reset.host.mem = [] ∧ State.reset.pending = [] ∧
  State.reset.env.ts = 0 ∧ State.reset.env.rails = false ∧ State.reset.env.dieUp = false ∧
  (∀ x : CtxId, (State.reset.cx x.val).st = .disabled) ∧
  State.reset.pwr.guardT = 105 ∧ State.reset.pwr.guardRel = 102 ∧ State.reset.pwr.reserve = 128 ∧ State.reset.pwr.caps.cool = 0

/-- STANDBY_FALLING_THRESHOLD stops every motor, idles every valve and flushes the hut book. INPUT_OUT_OF_RANGE with the
rails on takes them off, drops the cores and asserts MOD_FAULT_N; with the rails off it only marks the input.
INPUT_BACK_IN_RANGE clears the mark and, where a restart is allowed, begins an automatic flow proof unless three began
in the last hour. STANDBY_POWER_LOST stops Cairn and keeps what flash holds. Covers STANDBY_FALLING_THRESHOLD,
INPUT_OUT_OF_RANGE, INPUT_BACK_IN_RANGE, STANDBY_POWER_LOST. Rules: R549, R31, R375, R516. -/
def Obligations.InputCommands : Prop :=
  (∀ s : State, ∃ t, exec .standbyFallingThreshold s = .next t ∧ t.hut.powerFail = true ∧ t.hut.flash = t.hut.book ∧
      (∀ m, m < 6 → (t.motor m).st = .stopped) ∧ (∀ v, v < 4 → (t.valve v).st = .idle) ∧
      only [.hdrs, .host, .glob, .drv, .hut] s t) ∧
  (∀ (dv : Nat) (s : State), s.env.rails = true →
    ∃ t, exec (.inputOutOfRange dv) s = .next t ∧ t.env = { s.env with rails := false, dieUp := false } ∧ t.cores = [] ∧
      t.cairn.inputBad = true ∧ t.cairn.modFault = true ∧ t.cool.st = .off ∧ t.hut.powerFail = s.hut.powerFail) ∧
  (∀ (dv : Nat) (s : State), s.env.rails = false →
    exec (.inputOutOfRange dv) s = .next { s with cairn := { s.cairn with inputBad := true } }) ∧
  (∀ (dv : Nat) (s : State), s.cairn.inputBad = true → mayRestart s = true → s.env.holdover = false →
    ∃ t, exec (.inputBackInRange dv) s = .next t ∧ t.cairn = { s.cairn with inputBad := false } ∧
      (autoCount s < 3 → t.cool.st = .proving ∧ t.cool.autoTs = pushTs 3 s.env.ts s.cool.autoTs ∧ t.pwr.caps.cool = 0) ∧
      (3 ≤ autoCount s → t.cool = s.cool ∧ t.drv = s.drv ∧ t.pwr = s.pwr)) ∧
  (∀ (dv : Nat) (s : State), s.cairn.inputBad = true → mayRestart s = false ∨ s.env.holdover = true →
    ∃ t, exec (.inputBackInRange dv) s = .next t ∧ t.cairn = { s.cairn with inputBad := false } ∧ only [.hdrs, .hut, .cairn] s t) ∧
  (∀ (dv : Nat) (s : State), s.cairn.inputBad = false → exec (.inputBackInRange dv) s = .next s) ∧
  (∀ s : State, ∃ t, exec .standbyPowerLost s = .next t ∧ t.cairn.st = .stopped ∧ t.cairn.modFault = false ∧ t.env.rails = false ∧
      t.hut.book = s.hut.flash ∧ t.cairn.cur = s.cairn.cur ∧ t.cairn.faults = s.cairn.faults ∧ t.cairn.imgs = s.cairn.imgs)

/-- POWER_EN asserted clears the bars on a restart; released it takes the rails off, commits a coolant cap of 0 and marks
the time. 30 s later POWER_DOWN_PUMP_SAFE sends every pump that is not leased to its safe state. REFERENCE_LOSS enters
holdover: rails off, MOD_FAULT_N asserted, the bus interfaces in INIT; REFERENCE_RETURN ends it, returns the interfaces
and, where allowed, begins an automatic flow proof. Each does nothing in a state that is already so. Covers
POWER_EN_ASSERTED, POWER_EN_RELEASED, POWER_DOWN_PUMP_SAFE, REFERENCE_LOSS, REFERENCE_RETURN. Rules: R554, R558, R21,
R22, R375, R437, R559. -/
def Obligations.PowerPinCommands : Prop :=
  ((∀ s : State, s.cairn.powerEn = false →
    ∃ t, exec .powerEnAsserted s = .next t ∧
      t.cairn = { s.cairn with powerEn := true, barred := false, repeated := false, downTs := none } ∧
      t.cool = { s.cool with proofFailed := false } ∧ only [.hdrs, .cool, .hut, .cairn] s t) ∧
  (∀ s : State, s.cairn.powerEn = true → exec .powerEnAsserted s = .next s) ∧
  (∀ s : State, s.cairn.powerEn = true →
    ∃ t, exec .powerEnReleased s = .next t ∧ t.cairn.powerEn = false ∧ t.cairn.downTs = some s.env.ts ∧ t.cool.st = .off ∧
      t.env.rails = false ∧ t.env.ts = s.env.ts ∧ t.pwr.committed.cool = 0 ∧ t.pwr.caps.cool = 0 ∧ (s.env.rails = true → t.cores = [])) ∧
  (∀ s : State, s.cairn.powerEn = false → exec .powerEnReleased s = .next s) ∧
  (∀ (s : State) (d : DWord), s.cairn.downTs = some d → d.toNat + 30 * second ≤ s.env.ts.toNat →
    ∃ t, exec .powerDownPumpSafe s = .next t ∧ t.cairn = { s.cairn with downTs := none } ∧ t.cool = { s.cool with maxed := [] } ∧
      (∀ m ∈ pumpNums s, ((s.motor m).leased && s.cairn.policy.row) = false → (t.motor m).st = .stopped ∧ (t.motor m).mode = 0) ∧
      (∀ m, m ∉ pumpNums s ∨ ((s.motor m).leased && s.cairn.policy.row) = true → t.motor m = s.motor m) ∧
      only [.cool, .drv, .cairn] s t) ∧
  (∀ s : State, (∀ d, s.cairn.downTs = some d → s.env.ts.toNat < d.toNat + 30 * second) → exec .powerDownPumpSafe s = .next s)) ∧
  ((∀ s : State, s.env.holdover = false →
    ∃ t, exec .referenceLoss s = .next t ∧ t.env.holdover = true ∧ t.env.rails = false ∧ t.env.ts = s.env.ts ∧
      t.cairn.modFault = true ∧ t.cool.st = .off ∧ (s.env.rails = true → t.cores = []) ∧
      (∀ i, i < s.env.variant.cbus → (t.can i).init = true ∧ (t.can i).resumeAfter = !(s.can i).init)) ∧
  (∀ s : State, s.env.holdover = true → exec .referenceLoss s = .next s) ∧
  (∀ s : State, s.env.holdover = true →
    ∃ t, exec .referenceReturn s = .next t ∧ t.env = { s.env with holdover := false } ∧
      t.cairn = { s.cairn with modFault := s.cairn.modFault && !faultFree s } ∧
      (∀ i, i < s.env.variant.cbus → (s.can i).resumeAfter = true → (t.can i).init = false) ∧
      (mayRestart s = true → s.cairn.inputBad = false → autoCount s < 3 →
        t.cool.st = .proving ∧ t.cool.autoTs = pushTs 3 s.env.ts s.cool.autoTs) ∧
      (mayRestart s = false ∨ s.cairn.inputBad = true ∨ 3 ≤ autoCount s → t.cool = s.cool)) ∧
  (∀ s : State, s.env.holdover = false → exec .referenceReturn s = .next s))

/-- STANDBY_RESET restarts everything: the module timestamp is 0, no core holds a pitch, contexts, fabric, host attachment,
memories, belay engine and drives are as at reset; host memory outside the module, the ledger generations, the fault
list and the SVN floors stay. A staged Cairn image that verifies becomes the active one; one that fails stays staged and
unverified. CAIRN_WATCHDOG_EXPIRY does the same and records the watchdog. The cores enabled at shipment are log entry 1.
Covers STANDBY_RESET, CAIRN_WATCHDOG_EXPIRY. Rules: R31, R495, R23, R239, R472, R506. -/
def Obligations.StandbyResets : Prop :=
  (∀ s : State, ∃ t, exec .standbyReset s = .next t ∧
      t.env = { variant := s.env.variant } ∧ t.cores = [] ∧ t.ctls = shippedMap (shippedCores s) ∧ t.ctx = {} ∧ t.fab = {} ∧
      t.host = { mem := s.host.mem } ∧ t.pwr.granted = 0 ∧ t.ledge = {} ∧ t.hbm = {} ∧ t.evts = {} ∧ t.loop = {} ∧ t.drv = {} ∧
      t.hut.flash = s.hut.flash ∧ t.cairn.st = .rom ∧ t.cairn.modFault = true ∧ t.cairn.cur = s.cairn.cur ∧ t.cairn.prev = s.cairn.prev ∧
      t.cairn.faults = s.cairn.faults ∧ t.sec.cairnFloor = s.sec.cairnFloor ∧ t.sec.campFloor = s.sec.campFloor ∧ t.pending = s.pending) ∧
  (∀ s : State, (s.img 1).len = 0 → (s.img 3).len = 0 →
    ∃ t, exec .standbyReset s = .next t ∧ t.hut.book = s.hut.flash ∧ t.cairn.imgs = s.cairn.imgs) ∧
  (∀ s : State, (s.img 1).len ≠ 0 → imageOk s .cairn (s.img 1) = true →
    ∃ t, exec .standbyReset s = .next t ∧ t.img 0 = { s.img 1 with verified := false } ∧ t.img 1 = {}) ∧
  (∀ s : State, (s.img 1).len ≠ 0 → imageOk s .cairn (s.img 1) = false →
    ∃ t, exec .standbyReset s = .next t ∧ t.img 0 = s.img 0 ∧ t.img 1 = { s.img 1 with verified := false }) ∧
  (∀ s : State, ∃ t, exec .cairnWatchdogExpiry s = .next t ∧ t.env = { variant := s.env.variant } ∧ t.cores = [] ∧
      t.cairn.st = .rom ∧ t.cairn.watchdog = true ∧ t.cairn.modFault = true ∧ t.drv = {} ∧ t.cairn.cur = s.cairn.cur ∧
      t.cairn.faults = s.cairn.faults ∧ t.sec.cairnFloor = s.sec.cairnFloor ∧ t.sec.campFloor = s.sec.campFloor ∧ t.pending = s.pending)

/-- CAIRN_IMAGE_VERIFIED starts Cairn firmware with the current generation in force and the belay engine running.
STARTUP_SENSOR_CHECK passes or records the failing sensor. COMPUTE_DIE_RESET_RELEASE loads the timestamp copy.
CAMP_CORES_START takes the camp image or enters camp recovery. TRAINING_COMPLETE restores the core map and a retired
lane from the fault list. AK_X_GENERATED needs a healthy TRNG. ZERO_FILL_DONE empties Ledge and HBM.
STARTUP_STEP_TIMEOUT enters recovery at step 3 and repeats or bars the start at step 8. Image fields are free (log entry
17). Covers CAIRN_IMAGE_VERIFIED, STARTUP_SENSOR_CHECK, COMPUTE_DIE_RESET_RELEASE, CAMP_CORES_START, TRAINING_COMPLETE,
AK_X_GENERATED, ZERO_FILL_DONE, STARTUP_STEP_TIMEOUT, MOD_HEARTBEAT_TOGGLE, HEARTBEAT. Rules: R554, R555, R240, R466,
R483, R556, R501, R470, R24, R239, R471, R495. -/
def Obligations.StartUpCommands : Prop :=
  (∀ s : State, s.cairn.st = .rom →
    ∃ t, exec .cairnImageVerified s = .next t ∧ t.cairn.st = .running ∧ t.cairn.watchdog = false ∧ t.loop.run = true ∧
      t.sec.cairnRun = BitVec.ofNat 6 (svnOf (s.img 0)) ∧ t.cairn.inforce = s.cairn.cur ∧ t.cairn.plantGen = s.cairn.cur ∧ t.env = s.env) ∧
  (∀ s : State, s.cairn.st ≠ .rom → exec .cairnImageVerified s = .next s) ∧
  (∀ s : State, s.cairn.st = .running → s.cairn.checked = false → checkFailure s = none →
    ∃ t, exec .startupSensorCheck s = .next t ∧ only [.cairn] s t ∧
      t.cairn = { s.cairn with checked := true, modFault := s.cairn.modFault && s.env.holdover }) ∧
  (∀ (s : State) (f : Nat × Nat), s.cairn.st = .running → s.cairn.checked = false → checkFailure s = some f →
    ∃ t, exec .startupSensorCheck s = .next t ∧ only [.hdrs, .hut] s t ∧
      (s.hut.powerFail = false → t.hut.book.total = s.hut.book.total + 1)) ∧
  (∀ s : State, s.cairn.st ≠ .running ∨ s.cairn.checked = true → exec .startupSensorCheck s = .next s) ∧
  (∀ s : State, s.env.rails = true → s.env.dieUp = false →
    ∃ t, exec .computeDieResetRelease s = .next t ∧ t.env = { s.env with dieUp := true, tsCopy := s.env.ts } ∧
      (∀ c, c < 208 → (t.ctl c).busyInit = true) ∧ t.thm.silent = true ∧ only [.env, .hdrs, .ctls, .pwr, .sec, .thm] s t) ∧
  (∀ s : State, s.env.rails = false ∨ s.env.dieUp = true → exec .computeDieResetRelease s = .next s) ∧
  (∀ s : State, imageOk s .camp (s.img 2) = true →
    ∃ t, exec .campCoresStart s = .next t ∧ t.cairn = { s.cairn with campRun := true, campRecovery := false } ∧
      t.sec = { s.sec with fuseLock := true, campRun := BitVec.ofNat 6 (svnOf (s.img 2)) } ∧ only [.sec, .cairn] s t) ∧
  (∀ s : State, imageOk s .camp (s.img 2) = false →
    ∃ t, exec .campCoresStart s = .next t ∧ t.cairn = { s.cairn with campRun := false, campRecovery := true } ∧
      t.sec = { s.sec with fuseLock := true } ∧ only [.hdrs, .sec, .hut, .cairn] s t) ∧
  (∀ s : State, s.cairn.faults = [] →
    ∃ t, exec .trainingComplete s = .next t ∧ t.ctls = shippedMap (shippedCores s) ∧ only [.ctls, .fence] s t ∧
      t.fence = { s.fence with logicalCount := (shippedCores s).length, unbacked := [] }) ∧
  (∀ (s : State) (u : BitVec 16), s.cairn.faults = [⟨6, u, 0⟩] →
    ∃ t, exec .trainingComplete s = .next t ∧ t.ctls = shippedMap (shippedCores s) ∧ only [.hdrs, .ctls, .fence, .fab] s t ∧
      (t.port (u.toNat / 4)).lanesRet = (s.port (u.toNat / 4)).lanesRet ||| (1#4 <<< (u.toNat % 4))) ∧
  (∀ s : State, s.sec.trngFailX = false →
    exec .akXGenerated s = .next { s with sec := { s.sec with akValid := true }, fresh := s.fresh + 1 }) ∧
  (∀ s : State, s.sec.trngFailX = true → exec .akXGenerated s = .next s) ∧
  (∀ s : State, ∃ t, exec .zeroFillDone s = .next t ∧ t.sec = { s.sec with zeroed := true } ∧ t.ledge.mem = [] ∧ t.hbm.mem = [] ∧
      only [.ledge, .hbm, .sec] s t) ∧
  (∀ s : State, ∃ t, exec (.startupStepTimeout 3) s = .next t ∧ t.cairn.st = .recovery ∧ t.cairn.modFault = true ∧ t.env.rails = false ∧
      t.cool.st = .off) ∧
  (∀ s : State, s.cairn.repeated = true →
    ∃ t, exec (.startupStepTimeout 8) s = .next t ∧ t.cairn.barred = true ∧ t.cairn.modFault = true ∧ t.env.rails = false ∧
      t.cool.st = .off) ∧
  (∀ s : State, s.cairn.repeated = false → autoCount s < 3 →
    ∃ t, exec (.startupStepTimeout 8) s = .next t ∧ t.cairn.repeated = true ∧ t.env.rails = false ∧ t.cool.st = .proving) ∧
  (∀ s : State, s.cairn.st = .running ∨ s.cairn.st = .recovery →
    exec .modHeartbeatToggle s = .next { s with cairn := { s.cairn with heartbeat := !s.cairn.heartbeat } }) ∧
  (∀ s : State, s.cairn.st = .rom ∨ s.cairn.st = .stopped → exec .modHeartbeatToggle s = .next s)

/-- FLOW_PROOF_START begins a proof under its conditions with the coolant cap at 0. FLOW_PROOF_PASS after an unbroken window
of PROOF_TIME enables the rails and writes the cap of R370, unless the input or the reference is missing.
FLOW_PROOF_TIMEOUT fails the proof. AUTO_FLOW_PROOF begins one 10 s after a shutdown while POWER_EN is asserted, at most
three an hour. Outside these conditions each changes nothing. Covers FLOW_PROOF_START, FLOW_PROOF_PASS,
FLOW_PROOF_TIMEOUT, AUTO_FLOW_PROOF. Rules: R369, R375, R15, R370, R554. -/
def Obligations.FlowProofCommands : Prop :=
  (∀ s : State, (s.cool.st = .off && s.cairn.checked && s.cairn.powerEn && !s.cool.proofFailed && !s.cairn.barred && !s.env.rails) = true →
    ∃ t, exec .flowProofStart s = .next t ∧
      t.cool = { s.cool with st := .proving, window := none, proofFailed := false, proofTs := s.env.ts } ∧
      t.pwr = { s.pwr with caps := { s.pwr.caps with cool := 0 } } ∧
      only [.hdrs, .host, .glob, .pwr, .cool, .loop, .drv, .hut] s t) ∧
  (∀ s : State, (s.cool.st = .off && s.cairn.checked && s.cairn.powerEn && !s.cool.proofFailed && !s.cairn.barred && !s.env.rails) = false →
    exec .flowProofStart s = .next s) ∧
  (∀ (s : State) (n : Nat), s.cool.st = .proving → s.cool.window = some n → s.cairn.policy.proofMs ≤ n →
      s.cairn.inputBad = false → s.env.holdover = false →
    ∃ t, exec .flowProofPass s = .next t ∧ t.env = { s.env with rails := true } ∧ t.cairn = { s.cairn with modFault := false } ∧
      t.cool.rampTs = none ∧ t.cool.lowFor = 0 ∧
      t.cool.st = (if s.env.variant.rated ≤ capCool { s with cool := { s.cool with rampTs := none, lowFor := 0 } } then .normal else .low) ∧
      t.pwr.caps.cool = BitVec.ofNat 12 (capCool { s with cool := { s.cool with rampTs := none, lowFor := 0 } })) ∧
  (∀ (s : State) (n : Nat), s.cool.st = .proving → s.cool.window = some n → s.cairn.policy.proofMs ≤ n →
      s.cairn.inputBad = true ∨ s.env.holdover = true →
    ∃ t, exec .flowProofPass s = .next t ∧ t.cool = { s.cool with st := .off } ∧ t.env = s.env ∧ t.cairn = s.cairn ∧ t.pwr = s.pwr) ∧
  (∀ s : State, s.cool.st ≠ .proving ∨ s.cool.window = none → exec .flowProofPass s = .next s) ∧
  (∀ (s : State) (n : Nat), s.cool.window = some n → n < s.cairn.policy.proofMs → exec .flowProofPass s = .next s) ∧
  (∀ s : State, s.cool.st = .proving → (∀ n, s.cool.window = some n → n < s.cairn.policy.proofMs) →
      s.cool.proofTs.toNat + s.cairn.policy.timeoutMs * 100000 ≤ s.env.ts.toNat →
    ∃ t, exec .flowProofTimeout s = .next t ∧ t.cool = { s.cool with st := .off, maxed := [], proofFailed := true } ∧
      t.cairn = { s.cairn with modFault := true } ∧ t.env = s.env ∧ t.pwr = s.pwr) ∧
  (∀ s : State, s.cool.st ≠ .proving ∨ s.env.ts.toNat < s.cool.proofTs.toNat + s.cairn.policy.timeoutMs * 100000 →
    exec .flowProofTimeout s = .next s) ∧
  (∀ (s : State) (n : Nat), s.cool.window = some n → s.cairn.policy.proofMs ≤ n → exec .flowProofTimeout s = .next s) ∧
  (∀ s : State, s.cool.st = .shutdown → s.cairn.powerEn = true → s.cool.shutTs.toNat + 10 * second ≤ s.env.ts.toNat → autoCount s < 3 →
    ∃ t, exec .autoFlowProof s = .next t ∧
        t.cool = { s.cool with st := .proving, window := none, proofFailed := false, proofTs := s.env.ts, autoTs := pushTs 3 s.env.ts s.cool.autoTs } ∧
      t.pwr = { s.pwr with caps := { s.pwr.caps with cool := 0 } }) ∧
  (∀ s : State, s.cool.st ≠ .shutdown ∨ s.cairn.powerEn = false ∨ s.env.ts.toNat < s.cool.shutTs.toNat + 10 * second ∨ 3 ≤ autoCount s →
    exec .autoFlowProof s = .next s)

/-- COOLANT_SAMPLE stores the readings and keeps 60 of Q_eff; a reading below a fifth of the one 50 ms earlier, where that
was at least FLOW_MIN, is a sudden stop: cap 0 and every pump at maximum. SUDDEN_STOP_TIMEOUT and LOW_FLOW_TIMEOUT shut
down: rails off, MOD_FAULT_N, pumps at maximum. STANDBY_PUMP_START starts the spare where the duty pump is limited.
SHUTDOWN_PUMP_RELEASE comes 60 s later. The readings are formed by named functions whose roundings are free (log entry
28). Covers COOLANT_SAMPLE, SUDDEN_STOP_TIMEOUT, LOW_FLOW_TIMEOUT, STANDBY_PUMP_START, SHUTDOWN_PUMP_RELEASE,
IMPLAUS_SET, IMPLAUS_CLEAR. Rules: R367, R373, R372, R375, R366, R371, R374, R376. -/
def Obligations.CoolantCommands : Prop :=
  ((∀ s : State, s.cool.st = .stopped → s.cool.stopTs.toNat + 2 * second ≤ s.env.ts.toNat →
    ∃ t, exec .suddenStopTimeout s = .next t ∧ t.env = { s.env with rails := false, dieUp := false } ∧ t.cores = [] ∧
      t.cool = { s.cool with st := .shutdown, shutTs := s.env.ts, lowFor := 0, rampTs := none, marks := [], maxed := pumpNums s } ∧
      t.cairn.modFault = true) ∧
  (∀ s : State, s.cool.st ≠ .stopped ∨ s.env.ts.toNat < s.cool.stopTs.toNat + 2 * second → exec .suddenStopTimeout s = .next s) ∧
  (∀ s : State, s.env.rails = true → 2000 < s.cool.lowFor →
    ∃ t, exec .lowFlowTimeout s = .next t ∧ t.env = { s.env with rails := false, dieUp := false } ∧ t.cores = [] ∧
      t.cool = { s.cool with st := .shutdown, shutTs := s.env.ts, lowFor := 0, rampTs := none, marks := [], maxed := pumpNums s } ∧
      t.cairn.modFault = true) ∧
  (∀ s : State, s.env.rails = false ∨ s.cool.lowFor ≤ 2000 → exec .lowFlowTimeout s = .next s) ∧
  (∀ (s : State) (m : Fin 6), s.cairn.plant.spare = some m → (s.cool.st = .normal ∨ s.cool.st = .low) → dutyLimited s = true →
      (s.motor m.val).st ≠ .running → (s.motor m.val).st ≠ .max →
    exec .standbyPumpStart s = .next (motorMode m.val 1 s) ∧ only [.drv] s (motorMode m.val 1 s)) ∧
  (∀ (s : State), s.cairn.plant.spare = none ∨ (s.cool.st ≠ .normal ∧ s.cool.st ≠ .low) ∨ dutyLimited s = false →
    exec .standbyPumpStart s = .next s) ∧
  (∀ (s : State) (m : Fin 6), s.cairn.plant.spare = some m → (s.motor m.val).st = .running ∨ (s.motor m.val).st = .max →
    exec .standbyPumpStart s = .next s) ∧
  (∀ s : State, s.cool.maxed ≠ [] → s.cool.st ≠ .stopped → s.cool.shutTs.toNat + 60 * second ≤ s.env.ts.toNat →
    ∃ t, exec .shutdownPumpRelease s = .next t ∧ t.cool = { s.cool with maxed := [] } ∧ only [.cool, .drv] s t) ∧
  (∀ s : State, s.cool.maxed = [] ∨ s.cool.st = .stopped ∨ s.env.ts.toNat < s.cool.shutTs.toNat + 60 * second →
    exec .shutdownPumpRelease s = .next s) ∧
  (∀ s : State, s.cool.implaus = false → ∃ t, exec .implausSet s = .next t ∧ t.cool = { s.cool with implaus := true } ∧ only [.hdrs, .cool,
      .hut] s t) ∧
  (∀ s : State, s.cool.implaus = true → exec .implausSet s = .next s) ∧
  (∀ s : State, exec .implausClear s = .next { s with cool := { s.cool with implaus := false } })) ∧
  (∀ (th flow : List (BitVec 16)) (s u : State), u = sampleInputs th flow s →
    only [.hdrs, .drv, .hut] s u ∧
    ∃ t, exec (.coolantSample th flow) s = .next t ∧
      t.cool.tin = (coolReadings u).1 ∧ t.cool.tout = (coolReadings u).2.1 ∧ t.cool.qeff = (coolReadings u).2.2.1 ∧
      t.cool.qdp = (coolReadings u).2.2.2.1 ∧ t.cool.dp = (coolReadings u).2.2.2.2 ∧
      t.cool.hist = (((coolReadings u).2.2.1) :: s.cool.hist).take 60 ∧
      (s.cool.st = .off ∨ s.cool.st = .shutdown → t.cool.st = s.cool.st ∧ t.pwr = s.pwr) ∧
      (s.cool.st = .proving → t.cool.st = .proving ∧ t.pwr = s.pwr) ∧
      (s.cool.st = .normal ∨ s.cool.st = .low → (∀ q, s.cool.hist[49]? = some q → s.cairn.policy.flowMin ≤ q →
          q ≤ 5 * (coolReadings u).2.2.1) →
        (t.cool.st = .normal ∨ t.cool.st = .low) ∧ t.pwr = s.pwr) ∧
      (∀ q, s.cool.st = .normal ∨ s.cool.st = .low → s.cool.hist[49]? = some q → s.cairn.policy.flowMin ≤ q →
          5 * (coolReadings u).2.2.1 < q →
        t.cool.st = .stopped ∧ t.cool.stopRef = q ∧ t.cool.stopTs = s.env.ts ∧ t.cool.maxed = pumpNums s ∧ t.pwr.committed.cool = 0 ∧
            t.pwr.caps.cool = 0))

/-- THROTTLE_N asserted or released sets the pin's bit and raises the interrupt. HARDWARE_TRIP on a working diode returns
every balance and reservation to the free tokens and sets the trip. TRIP_END and FALLBACK_TIMEOUT arm the next boundary.
PWR_FREE_READ returns the free tokens and latches those granted. PWR_HB_WRITE commits the caps. CAIRN_CAP_UPDATE writes
the five caps and the coolant registers and counts the heartbeat. Covers THROTTLE_N_ASSERTED, THROTTLE_N_RELEASED,
FALLBACK_TIMEOUT, PWR_HB_WRITE, CAIRN_CAP_UPDATE, HARDWARE_TRIP, TRIP_END, PWR_FREE_READ. Rules: R345, R343, R323, R346,
R347, R348, R322, R324, R353, R368. -/
def Obligations.PowerModeAndCapCommands : Prop :=
  ((∀ s : State, s.pwr.throttlePin = false →
    ∃ t, exec .throttleNAsserted s = .next t ∧ t.pwr = { s.pwr with throttlePin := true } ∧
      (t.hdr pgPwr).stat = (s.hdr pgPwr).stat ||| bitMask 2 ∧ only [.hdrs, .host, .glob, .pwr, .evts] s t) ∧
  (∀ s : State, s.pwr.throttlePin = true → exec .throttleNAsserted s = .next s) ∧
  (∀ s : State, s.pwr.throttlePin = true →
    ∃ t, exec .throttleNReleased s = .next t ∧ t.pwr = { s.pwr with throttlePin := false } ∧
      (t.hdr pgPwr).stat = (s.hdr pgPwr).stat ||| bitMask 2 ∧ only [.hdrs, .host, .glob, .pwr, .evts] s t) ∧
  (∀ s : State, s.pwr.throttlePin = false → exec .throttleNReleased s = .next s) ∧
  (∀ (d : Fin 240) (s : State), (s.sensor d.val).fault = true → exec (.hardwareTrip d) s = .next s) ∧
  (∀ (d : Fin 240) (s : State), (s.sensor d.val).fault = false → s.pwr.trip = true →
    exec (.hardwareTrip d) s = .next { s with pwr := { s.pwr with tripEnd := false } }) ∧
  (∀ (d : Fin 240) (s : State), (s.sensor d.val).fault = false → s.pwr.trip = false →
    ∃ t, exec (.hardwareTrip d) s = .next t ∧
      t.pwr = { s.pwr with
        free := s.pwr.free + ((s.ctls.map (fun e => e.2.bal)).sum + s.pwr.resv.total)
        granted := s.pwr.granted - ((s.ctls.map (fun e => e.2.bal)).sum + s.pwr.resv.total)
        resv := {}, trip := true, tripEnd := false, trips := satInc s.pwr.trips } ∧
      (∀ e ∈ s.ctls, (t.ctl e.1).bal = 0) ∧
      (t.hdr pgPwr).stat = (s.hdr pgPwr).stat ||| bitMask 1 ∧ (t.hdr pgPwr).perm = satInc (s.hdr pgPwr).perm ∧
      only [.hdrs, .ctls, .host, .glob, .pwr, .evts] s t) ∧
  (∀ s : State, exec .tripEnd s = .next { s with pwr := { s.pwr with tripEnd := s.pwr.trip } }) ∧
  (∀ s : State, exec .fallbackTimeout s = .next { s with pwr := { s.pwr with fallbackNext := !s.pwr.fallback, hbGood := 0 } }) ∧
  (∀ s : State, exec .pwrFreeRead s = .next { s with
    pwr := { s.pwr with latched := BitVec.ofNat 24 s.pwr.granted }, reply := { value := BitVec.ofNat 64 s.pwr.free } })) ∧
  ((∀ (seq : BitVec 16) (s : State),
    ∃ t, exec (.pwrHbWrite seq) s = .next t ∧ t.pwr.committed = s.pwr.caps ∧ t.pwr.caps = s.pwr.caps ∧ t.pwr.hbSeq = seq ∧
      t.pwr.hbTs = some s.env.tsCopy ∧ only [.hdrs, .host, .glob, .pwr, .evts] s t) ∧
  (∀ (meas : BitVec 24) (s : State),
    ∃ t, exec (.cairnCapUpdate meas) s = .next t ∧
      t.pwr.committed = ({
        board := s.cairn.boardCap
        cool := BitVec.ofNat 12 (coolCapNow s)
        socket := if s.cairn.policy.row then 4095 else s.cairn.policy.socketCap
        acoust := if s.cairn.policy.row then 4095 else BitVec.ofNat 12 (acapOf s)
        thr := s.cairn.policy.thrCap } : Caps) ∧
      t.pwr.caps = t.pwr.committed ∧ t.pwr.hbSeq = s.pwr.hbSeq + 1 ∧ t.pwr.hbTs = some s.env.tsCopy ∧
      t.thm = { s.thm with regs := coolRegs s } ∧ only [.hdrs, .host, .glob, .pwr, .evts, .thm, .cool] s t))

/-- EPOCH_BOUNDARY counts the epoch, takes the modes that wait, sets the budget from the least cap, and counts the slot
down. TOKEN_INSTALLMENT to an eligible core whose turn it is moves the least of its room and the free tokens to its
balance, and starts what it can; otherwise nothing changes. METER_DEBIT takes the scaled energy from the balance, at
most all of it. Covers TOKEN_INSTALLMENT, METER_DEBIT, EPOCH_BOUNDARY, BIND, TRIP_END. Rules: R331, R341, R325, R210,
R347, R320, R322, R332, R333, R337, R338, R340. -/
def Obligations.EpochAndTokenCommands : Prop :=
  (∀ s u : State, u = boundaryModes { s with pwr := { s.pwr with
        epoch := s.pwr.epoch + 1, hist := trimHist 100000 (pushHist s.pwr.b.toNat s.pwr.hist) } } →
    ∃ t, exec .epochBoundary s = .next t ∧ t.pwr.epoch = s.pwr.epoch + 1 ∧
      t.pwr.throttle = s.pwr.throttlePin ∧ t.pwr.fallbackNext = false ∧
      t.pwr.b = BitVec.ofNat 12 (budgetOf u.pwr (leastCap (capsInForce u)).2) ∧
      t.pwr.bind = BitVec.ofNat 3 (leastCap (capsInForce u)).1 ∧
      (s.pwr.trip = true → s.pwr.tripEnd = true → t.pwr.trip = false) ∧
      (s.pwr.fallback = true → 5 ≤ s.pwr.hbGood → t.pwr.fallback = false) ∧
      (s.pwr.fallback = false → s.pwr.fallbackNext = true → t.pwr.fallback = true ∧ t.pwr.hbGood = 0) ∧
      t.ctx = { s.ctx with left := s.ctx.left - (if s.ctx.left = 0 then 0 else 1) } ∧
      only [.hdrs, .ctls, .ctx, .host, .glob, .pwr, .evts] s t) ∧
  (∀ (c : CoreId) (s : State), (s.core c.val).run = none → exec (.tokenInstallment c) s = .next s) ∧
  (∀ (c : CoreId) (s : State), topUp c.val s = s → cutByAllowance s c.val = false → eligible s c.val = true → grantTurn s c.val = true →
    ∃ u i, i = min (instRoom s c.val) s.pwr.free ∧
      exec (.tokenInstallment c) s = .next (pumpUnits c.val (ready c.val u)) ∧
      only [.cores, .ctls, .arbs, .pwr] s u ∧
      u.pwr.free = s.pwr.free - i ∧ u.pwr.granted = s.pwr.granted + i ∧
      u.ctl c.val = { s.ctl c.val with bal := (s.ctl c.val).bal + i, epochGrants := (s.ctl c.val).epochGrants + i, firstReq := false } ∧
      u.core c.val = (s.core c.val).onRun (fun r => { r with granted := true })) ∧
  (∀ (c : CoreId) (s : State), topUp c.val s = s → cutByAllowance s c.val = false → eligible s c.val = false ∨ grantTurn s c.val = false →
    exec (.tokenInstallment c) s = .next s) ∧
  (∀ (c : CoreId) (e : BitVec 24) (s : State), (s.core c.val).run = none → exec (.meterDebit c e) s = .next s) ∧
  (∀ (c : CoreId) (e : BitVec 24) (s : State) (r : Run) (d : Nat), (s.core c.val).run = some r →
      d = min (e.toNat * s.pwr.meterK.toNat / 1024) (s.ctl c.val).bal →
    ∃ u, exec (.meterDebit c e) s = .next (topUp c.val u) ∧
      only [.cores, .ctls, .pwr, .thm] s u ∧
      u.ctl c.val = { s.ctl c.val with bal := (s.ctl c.val).bal - d } ∧
      u.core c.val = { s.core c.val with run := some { r with debited := r.debited + d, job := { r.job with tokens := r.job.tokens + d } } } ∧
      u.pwr.debitNow = s.pwr.debitNow + d ∧
      (s.pwr.reserve.toNat ≤ (s.ctl c.val).bal - d → topUp c.val u = u))

/-- DIODE_SAMPLE stores the reading and guards or releases the core against GUARD_T and GUARD_REL. THERMAL_UPDATE with RUN
set counts the update and gives a fenced core no allowance. ALLOWANCE_SILENCE, and clearing RUN with the rails on, give
2.00 tokens per epoch to every core that is not fenced and 10 to every HBM stack, with SILENT set until the next
delivery. THM_MODEL_DATA_WRITE stores a word only while RUN is 0. The model's coefficients are free (log entry 16).
Covers DIODE_SAMPLE, THERMAL_UPDATE, ALLOWANCE_SILENCE, THM_RUN, THM_MODEL_DATA_WRITE. Rules: R363. -/
def Obligations.ThermalCommands : Prop :=
  (∀ (d : Fin 240) (v : BitVec 12) (s : State),
    ∃ t, exec (.diodeSample d v) s = .next t ∧
      t.sensor d.val = { s.sensor d.val with temp := v, valid := true } ∧
      (∀ k, k ≠ d.val → t.sensor k = s.sensor k) ∧
      (∀ c, c ≠ d.val → t.ctl c = s.ctl c) ∧
      (208 ≤ d.val → t.ctls = s.ctls ∧ t.hdrs = s.hdrs) ∧
      (d.val < 208 → (s.sensor d.val).suspect = false → (s.sensor d.val).fault = false → (s.ctl d.val).guarded = false →
        (s.pwr.guardT.toNat : Rat) ≤ (v.toInt : Rat) / 16 →
        t.ctl d.val = { s.ctl d.val with guarded := true } ∧ (t.hdr pgPwr).stat = (s.hdr pgPwr).stat ||| bitMask 3 ∧
        (t.hdr pgPwr).trans = satInc (s.hdr pgPwr).trans) ∧
      (d.val < 208 → (s.sensor d.val).suspect = false → (s.sensor d.val).fault = false → (s.ctl d.val).guarded = false →
        (v.toInt : Rat) / 16 < (s.pwr.guardT.toNat : Rat) → t.ctls = s.ctls ∧ t.hdrs = s.hdrs) ∧
      (d.val < 208 → (s.sensor d.val).suspect = false → (s.sensor d.val).fault = false → (s.ctl d.val).guarded = true →
        (v.toInt : Rat) / 16 ≤ (s.pwr.guardRel.toNat : Rat) → t.ctl d.val = { s.ctl d.val with guarded := false } ∧ t.hdrs = s.hdrs) ∧
      (d.val < 208 → (s.sensor d.val).suspect = false → (s.sensor d.val).fault = false → (s.ctl d.val).guarded = true →
        (s.pwr.guardRel.toNat : Rat) < (v.toInt : Rat) / 16 → t.ctls = s.ctls ∧ t.hdrs = s.hdrs) ∧
      only [.hdrs, .ctls, .host, .glob, .sec, .evts, .thm] s t) ∧
  (∀ (l h : List (BitVec 12)) (s : State), s.thm.run = false →
    ∃ t, exec (.thermalUpdate l h) s = .next t ∧ only [.thm] s t ∧ t.thm = { s.thm with sensors := t.thm.sensors }) ∧
  (∀ (l h : List (BitVec 12)) (s : State), s.thm.run = true →
    ∃ t, exec (.thermalUpdate l h) s = .next t ∧ t.thm.updates = s.thm.updates + 1 ∧ t.thm.silent = false ∧ t.thm.debits = [] ∧
      (∀ c, c < 208 → (s.ctl c).st = .fenced ∨ (s.ctl c).st = .wiping → (t.ctl c).allow = 0) ∧
      only [.hdrs, .ctls, .host, .glob, .pwr, .sec, .evts, .thm] s t) ∧
  (∀ s : State,
    ∃ t, exec .allowanceSilence s = .next t ∧ t.thm.silent = true ∧
      (∀ c, c < 208 → (t.ctl c).allow = if (s.ctl c).st = .fenced ∨ (s.ctl c).st = .wiping then 0 else 32) ∧
      (∀ k, k < s.env.variant.stacks → fget none t.pwr.stackAllow k = some 160) ∧
      (t.hdr pgThm).stat = (s.hdr pgThm).stat ||| bitMask 4 ∧
      only [.hdrs, .ctls, .host, .glob, .pwr, .sec, .evts, .thm] s t) ∧
  (∀ (on : Bool) (s : State), on = true ∨ s.thm.run = false ∨ s.env.rails = false →
    exec (.thmRun on) s = .next { s with thm := { s.thm with run := on } }) ∧
  (∀ s : State, s.thm.run = true → s.env.rails = true →
    ∃ t, exec (.thmRun false) s = .next t ∧ t.thm.run = false ∧ t.thm.silent = true ∧
      (∀ c, c < 208 → (t.ctl c).allow = if (s.ctl c).st = .fenced ∨ (s.ctl c).st = .wiping then 0 else 32) ∧
      (∀ k, k < s.env.variant.stacks → fget none t.pwr.stackAllow k = some 160) ∧
      only [.ctls, .pwr, .sec, .thm] s t) ∧
  (∀ (v : Word) (s : State), s.thm.run = false → exec (.thmModelDataWrite v) s = .next { s with
    thm := { s.thm with model := fput 0 s.thm.modelIdx.toNat v s.thm.model, modelIdx := s.thm.modelIdx + 1 } }) ∧
  (∀ (v : Word) (s : State), s.thm.run = true → exec (.thmModelDataWrite v) s = .next s)

/-- SENSOR_SUSPECT marks a sensor that is neither SUSPECT nor FAULT and raises the interrupt; SENSOR_SUSPECT_CLEAR removes
the mark; SENSOR_FAULT marks FAULT and ends SUSPECT. No other sensor changes, and on a sensor already so marked nothing
changes. The clauses name die sensors and the coolant supervisor's separately. Covers SENSOR_SUSPECT,
SENSOR_SUSPECT_CLEAR, SENSOR_FAULT. Rules: R357, R358, R359, R377. -/
def Obligations.SensorMarkCommands : Prop :=
  (∀ (id : SensorId) (k : Nat) (s : State), sensorOf id = .inl k → (s.sensor k).suspect = false → (s.sensor k).fault = false →
    ∃ t, exec (.sensorSuspect id) s = .next t ∧ t.sensor k = { s.sensor k with suspect := true } ∧ (∀ j, j ≠ k → t.sensor j = s.sensor j) ∧
      (t.hdr pgThm).stat &&& bitMask 0 = bitMask 0 ∧ (t.hdr pgThm).trans = satInc (s.hdr pgThm).trans ∧
      only [.hdrs, .host, .glob, .evts, .thm] s t) ∧
  (∀ (id : SensorId) (k : Nat) (s : State), sensorOf id = .inl k → (s.sensor k).suspect = true ∨ (s.sensor k).fault = true →
    exec (.sensorSuspect id) s = .next s) ∧
  (∀ (id : SensorId) (k : Nat) (s : State), sensorOf id = .inr k → (fget {} s.cool.marks k).suspect = false →
      (fget {} s.cool.marks k).fault = false →
    ∃ t, exec (.sensorSuspect id) s = .next t ∧
        t.cool = { s.cool with marks := fput {} k { (fget {} s.cool.marks k : Sensor) with suspect := true } s.cool.marks } ∧
      only [.hdrs, .host, .glob, .cool, .hut] s t) ∧
  (∀ (id : SensorId) (k : Nat) (s : State), sensorOf id = .inr k → (fget {} s.cool.marks k : Sensor).suspect = true ∨
      (fget {} s.cool.marks k : Sensor).fault = true →
    exec (.sensorSuspect id) s = .next s) ∧
  (∀ (id : SensorId) (k : Nat) (s : State), sensorOf id = .inl k → (s.sensor k).suspect = true →
    ∃ t, exec (.sensorSuspectClear id) s = .next t ∧ t.sensor k = { s.sensor k with suspect := false } ∧ (∀ j, j ≠ k →
        t.sensor j = s.sensor j) ∧
      only [.hdrs, .host, .glob, .evts, .thm] s t) ∧
  (∀ (id : SensorId) (k : Nat) (s : State), sensorOf id = .inl k → (s.sensor k).suspect = false →
      exec (.sensorSuspectClear id) s = .next s) ∧
  (∀ (id : SensorId) (k : Nat) (s : State), sensorOf id = .inr k → (fget {} s.cool.marks k : Sensor).suspect = true →
    ∃ t, exec (.sensorSuspectClear id) s = .next t ∧
        t.cool = { s.cool with marks := fput {} k { (fget {} s.cool.marks k : Sensor) with suspect := false } s.cool.marks } ∧
      only [.hdrs, .cool, .hut] s t) ∧
  (∀ (id : SensorId) (k : Nat) (s : State), sensorOf id = .inr k → (fget {} s.cool.marks k : Sensor).suspect = false →
      exec (.sensorSuspectClear id) s = .next s) ∧
  (∀ (id : SensorId) (k : Nat) (s : State), sensorOf id = .inl k → (s.sensor k).fault = false →
    ∃ t, exec (.sensorFault id) s = .next t ∧ t.sensor k = { s.sensor k with fault := true, suspect := false } ∧ (∀ j, j ≠ k →
        t.sensor j = s.sensor j) ∧
      (208 ≤ k → only [.hdrs, .host, .glob, .evts, .thm] s t) ∧
      only [.hdrs, .cores, .ctls, .ctx, .fence, .host, .glob, .pwr, .evts, .thm, .cool, .hut] s t) ∧
  (∀ (id : SensorId) (k : Nat) (s : State), sensorOf id = .inl k → (s.sensor k).fault = true → exec (.sensorFault id) s = .next s) ∧
  (∀ (id : SensorId) (k : Nat) (s : State), sensorOf id = .inr k → (fget {} s.cool.marks k : Sensor).fault = false →
    ∃ t, exec (.sensorFault id) s = .next t ∧
        t.cool = { s.cool with marks := fput {} k { (fget {} s.cool.marks k : Sensor) with fault := true, suspect := false } s.cool.marks } ∧
      only [.hdrs, .host, .glob, .cool, .hut] s t) ∧
  (∀ (id : SensorId) (k : Nat) (s : State), sensorOf id = .inr k → (fget {} s.cool.marks k : Sensor).fault = true →
      exec (.sensorFault id) s = .next s)

/-- Each mode write sets MODE for the next PWM period. The start sequence of R420 counts attempts, blocks after the fourth,
and on a response runs the motor in its loop or at maximum; a tachometer that stays silent is marked broken. A driver
fault stops the channel. TACH_BROKEN needs EST at or above 20 % of RATED and a gap above 25 %. A PWM period stores the
observer's values and cuts the drive above the current limit, or takes the pending mode. TACH values are formed under
log entry 27. Covers MOTOR_MODE_OFF, MOTOR_MODE_START, MOTOR_MODE_LOOP, MOTOR_MODE_MAX, START_RESPONSE,
START_ATTEMPT_TIMEOUT, START_RETRY, MOTOR_DRIVER_FAULT, TACH_BROKEN, MOTOR_PWM_PERIOD. Rules: R419, R420, R417, R421,
R416, R433. -/
def Obligations.MotorCommands : Prop :=
  (∀ (m : Fin 6) (s : State) (c : Instr) (v : BitVec 2),
      (c, v) ∈ [(Instr.motorModeOff m, 0), (.motorModeStart m, 1), (.motorModeLoop m, 2), (.motorModeMax m, 3)] →
    ∃ t, exec c s = .next t ∧ (∀ k, t.motor k = if k = m.val then { s.motor m.val with mode := v, modeNew := true } else s.motor k) ∧
      only [.drv] s t) ∧
  (∀ (m : Fin 6) (s : State), (s.motor m.val).st = .starting → (s.motor m.val).pause = true →
    ∃ t, exec (.startRetry m) s = .next t ∧ (∀ k, t.motor k = if k = m.val then { s.motor m.val with pause := false } else s.motor k) ∧
        only [.drv] s t) ∧
  (∀ (m : Fin 6) (s : State), (s.motor m.val).st ≠ .starting ∨ (s.motor m.val).pause = false → exec (.startRetry m) s = .next s) ∧
  (∀ (m : Fin 6) (s : State), (s.motor m.val).st = .starting → (s.motor m.val).pause = false → (s.motor m.val).tries ≠ 3 →
    ∃ t, exec (.startAttemptTimeout m) s = .next t ∧
      (∀ k, t.motor k = if k = m.val then { s.motor m.val with tries := (s.motor m.val).tries + 1, pause := true } else s.motor k) ∧
      only [.hdrs, .drv, .hut] s t) ∧
  (∀ (m : Fin 6) (s : State), (s.motor m.val).st = .starting → (s.motor m.val).pause = false → (s.motor m.val).tries = 3 →
    ∃ t, exec (.startAttemptTimeout m) s = .next t ∧
      (∀ k, t.motor k = if k = m.val then { s.motor m.val with st := .blocked, pause := false, thenMax := false, response := false, blockedF := true } else s.motor k) ∧
      (t.hdr pgMtr).stat = (s.hdr pgMtr).stat ||| bitMask 0 ∧ (t.hdr pgMtr).perm = satInc (s.hdr pgMtr).perm ∧
      only [.hdrs, .host, .glob, .drv, .hut] s t) ∧
  (∀ (m : Fin 6) (s : State), (s.motor m.val).st ≠ .starting ∨ (s.motor m.val).pause = true → exec (.startAttemptTimeout m) s = .next s) ∧
  (∀ (m : Fin 6) (s : State),
    ∃ t, exec (.motorDriverFault m) s = .next t ∧
      (∀ k, t.motor k = if k = m.val then { s.motor m.val with st := .driverFault, pause := false, thenMax := false, response := false, drvFlt := true } else s.motor k) ∧
      (t.hdr pgMtr).stat = (s.hdr pgMtr).stat ||| bitMask 3 ∧ (t.hdr pgMtr).perm = satInc (s.hdr pgMtr).perm ∧
      only [.hdrs, .host, .glob, .drv, .hut] s t) ∧
  (∀ (m : Fin 6) (s : State), (s.motor m.val).st = .starting → (s.motor m.val).pause = false →
      (s.motor m.val).rated.toNat ≤ 20 * tachOf s m.val →
    ∃ t, exec (.startResponse m false) s = .next t ∧
      (∀ k, t.motor k = if k = m.val then { s.motor m.val with
        st := if (s.motor m.val).thenMax then .max else .running, mode := if (s.motor m.val).thenMax then 3 else 2
        modeNew := false, response := true, tries := 0 } else s.motor k) ∧ only [.drv] s t) ∧
  (∀ (m : Fin 6) (s : State), (s.motor m.val).st = .starting → (s.motor m.val).pause = false → tachOf s m.val = 0 →
      (s.motor m.val).rated.toNat ≤ 10 * (s.motor m.val).est.toNat →
    ∃ t, exec (.startResponse m true) s = .next t ∧
      (∀ k, t.motor k = if k = m.val then { s.motor m.val with
        st := if (s.motor m.val).thenMax then .max else .running, mode := if (s.motor m.val).thenMax then 3 else 2
        modeNew := false, response := true, tries := 0
        tachBroken := (s.motor m.val).tachBroken || decide ((s.motor m.val).ppr ≠ 0) } else s.motor k) ∧
      only [.hdrs, .host, .glob, .drv, .hut] s t) ∧
  (∀ (m : Fin 6) (b : Bool) (s : State), (s.motor m.val).st ≠ .starting ∨ (s.motor m.val).pause = true →
    exec (.startResponse m b) s = .next s) ∧
  (∀ (m : Fin 6) (s : State), (s.motor m.val).tachBroken = false → (s.motor m.val).rated.toNat ≤ 5 * (s.motor m.val).est.toNat →
      (s.motor m.val).est.toNat < 4 * ((tachOf s m.val - (s.motor m.val).est.toNat) + ((s.motor m.val).est.toNat - tachOf s m.val)) →
    ∃ t, exec (.tachBroken m) s = .next t ∧ (∀ k, t.motor k = if k = m.val then { s.motor m.val with tachBroken := true } else s.motor k) ∧
      (t.hdr pgMtr).stat = (s.hdr pgMtr).stat ||| bitMask 1 ∧ only [.hdrs, .host, .glob, .drv, .hut] s t) ∧
  (∀ (m : Fin 6) (s : State), (s.motor m.val).tachBroken = true ∨ 5 * (s.motor m.val).est.toNat < (s.motor m.val).rated.toNat ∨
      4 * ((tachOf s m.val - (s.motor m.val).est.toNat) + ((s.motor m.val).est.toNat - tachOf s m.val)) ≤ (s.motor m.val).est.toNat →
    exec (.tachBroken m) s = .next s) ∧
  (∀ (m : Fin 6) (ia ib ic id iq est angle : BitVec 16) (s : State), (s.motor m.val).modeNew = false →
    ∃ t hit, hit = (overCurrent (s.motor m.val) ia || overCurrent (s.motor m.val) ib || overCurrent (s.motor m.val) ic) ∧
      exec (.motorPwmPeriod m ia ib ic id iq est angle) s = .next t ∧
      (∀ k, t.motor k = if k = m.val then { s.motor m.val with
        id := id, iq := iq, est := est, angle := angle, cut := hit, ilimF := (s.motor m.val).ilimF || hit } else s.motor k) ∧
      only [.hdrs, .host, .glob, .drv, .hut] s t) ∧
  (∀ (m : Fin 6) (ia ib ic id iq est angle : BitVec 16) (s : State), (s.motor m.val).modeNew = true →
    ∃ t, exec (.motorPwmPeriod m ia ib ic id iq est angle) s = .next t ∧ (t.motor m.val).modeNew = false ∧
      (∀ k, k ≠ m.val → t.motor k = s.motor k) ∧
      ((s.motor m.val).mode = 0 → (t.motor m.val).st = .stopped) ∧
      ((s.motor m.val).mode = 1 → startBarred s m.val = false → (t.motor m.val).st = .starting ∧ (t.motor m.val).tries = 0) ∧
      ((s.motor m.val).mode = 2 → startBarred s m.val = false → (s.motor m.val).st = .stopped → (t.motor m.val).st = .running) ∧
      ((s.motor m.val).mode = 3 → startBarred s m.val = false → (s.motor m.val).st = .running ∨ (s.motor m.val).st = .max →
          (t.motor m.val).st = .max) ∧
      ((s.motor m.val).mode ≠ 0 → startBarred s m.val = true → (t.motor m.val).st = (s.motor m.val).st) ∧
      only [.hdrs, .host, .glob, .drv, .hut] s t)

/-- Entering a microcode word puts the channel in the phase that its operation names, or in FAULT for a reserved operation,
a reserved bit or a wrong operand. A command edge starts the program at ON_ENTRY or OFF_ENTRY unless the channel is
held. BOOST ends at its current or faults at its timeout; a deferred boost starts when its high side is free. Shunt
samples regulate within HYST. The coil model reduces at 155, releases at 145 and trips at 170 °C. Configuration and
microcode are written only while the channel is IDLE and ON is 0; any other write, or the LEAK code 3, is discarded and
raises REFUSED. Covers VALVE_ON_EDGE, VALVE_OFF_EDGE, VALVE_WORD_TIMER, BOOST_CURRENT_REACHED, BOOST_TIMEOUT,
DEFERRED_BOOST_START, COIL_MODEL_UPDATE, VALVE_CONFIG_WRITE, VALVE_SHUNT_SAMPLE. Rules: R415. -/
def Obligations.ValveCommands : Prop :=
  (∀ (v k : Nat) (s : State) (w : Nat), k < 64 → w = (fget 0 (s.valve v).ucode k).toNat → (s.valve v).st ≠ .deferred →
    (fld w 24 3 = 0 → fld w 28 4 = 1 → fld w 0 12 ≠ 0 → boostBlocked s v = false →
      ((enterWord v k s).valve v).st = .boost ∧ ((enterWord v k s).valve v).low = true ∧
          ((enterWord v k s).valve v).pc = BitVec.ofNat 6 k) ∧
    (fld w 24 3 = 0 → fld w 28 4 = 1 → fld w 0 12 ≠ 0 → boostBlocked s v = true → v < 4 →
      ((enterWord v k s).valve v).st = .deferred ∧ ((enterWord v k s).valve v).low = false ∧
      ((enterWord v k s).valve v).deferTs = s.env.ts ∧ ((enterWord v k s).valve v).defers = satInc (s.valve v).defers) ∧
    (fld w 24 3 = 0 → fld w 28 4 = 2 → fld w 0 12 ≠ 0 → ((enterWord v k s).valve v).st = .peak ∧
        ((enterWord v k s).valve v).low = (s.valve v).low) ∧
    (fld w 24 3 = 0 → fld w 28 4 = 3 → ((enterWord v k s).valve v).st = .hold ∧ ((enterWord v k s).valve v).low = (s.valve v).low) ∧
    (fld w 24 3 = 0 → fld w 28 4 = 4 → fld (fld w 12 12) 8 4 = 0 →
      ((enterWord v k s).valve v).st = .pwm ∧ ((enterWord v k s).valve v).low = (fld (fld w 12 12) 0 8 != 0)) ∧
    (fld w 24 3 = 0 → fld w 28 4 = 5 → ((enterWord v k s).valve v).st = .off ∧ ((enterWord v k s).valve v).low = false) ∧
    (fld w 24 3 = 0 → fld w 28 4 = 7 → fld w 0 12 = 0 → ((enterWord v k s).valve v).st = .idle ∧ ((enterWord v k s).valve v).low = false) ∧
    (fld w 24 3 ≠ 0 ∨ fld w 28 4 = 0 ∨ 8 ≤ fld w 28 4 ∨ ((fld w 28 4 = 1 ∨ fld w 28 4 = 2) ∧ fld w 0 12 = 0) ∨
        ((fld w 28 4 = 6 ∨ fld w 28 4 = 7) ∧ fld w 0 12 ≠ 0) ∨ (fld w 28 4 = 4 ∧ fld (fld w 12 12) 8 4 ≠ 0) →
      ((enterWord v k s).valve v).st = .fault ∧ ((enterWord v k s).valve v).low = false ∧
      ((enterWord v k s).hdr pgVlv).stat = (s.hdr pgVlv).stat ||| bitMask 1 ∧
          ((enterWord v k s).hdr pgVlv).perm = satInc (s.hdr pgVlv).perm) ∧
    (∀ u, u ≠ v → (enterWord v k s).valve u = s.valve u)) ∧
  ((∀ (v : Fin 4) (on : Bool) (c : Instr) (s : State), (c, on) ∈ [(Instr.valveOnEdge v, true), (.valveOffEdge v, false)] →
    ∃ t, exec c s = .next t ∧ ((s.valve v.val).on = on → t = s) ∧ (t.valve v.val).on = on ∧ (∀ u, u ≠ v.val → t.valve u = s.valve u) ∧
      ((s.valve v.val).on ≠ on → valveHeld s v.val = true ∨ (leakHold s (s.valve v.val).leased = true ∧ (s.valve v.val).leakTaken = true) →
        t.valve v.val = { s.valve v.val with on := on }) ∧
      ((s.valve v.val).on ≠ on → valveHeld s v.val = false → leakHold s (s.valve v.val).leased = false → (s.valve v.val).coilOt = true →
        145 < ((s.valve v.val).tc.getD 0) → t.valve v.val = { s.valve v.val with on := on }) ∧
      ((s.valve v.val).on ≠ on → valveHeld s v.val = false → leakHold s (s.valve v.val).leased = false → (s.valve v.val).coilOt = false →
        (s.valve v.val).st = .fault → on = false → t.valve v.val = { s.valve v.val with on := on }) ∧
      ((s.valve v.val).on ≠ on → valveHeld s v.val = false → leakHold s (s.valve v.val).leased = false → (s.valve v.val).coilOt = false →
        ((s.valve v.val).st ≠ .fault ∨ on = true) → ∃ u, (∀ k, u.valve k = if k = v.val then { s.valve v.val with
            on := on, prog := on, tc := some ((s.valve v.val).tc.getD (ambient s (s.valve v.val))) } else s.valve k) ∧ only [.drv] s u ∧
          t = enterWord v.val (if on then (s.valve v.val).onEntry.toNat else (s.valve v.val).offEntry.toNat) u) ∧
      only [.hdrs, .host, .glob, .drv, .hut] s t) ∧
  (∀ (v : Fin 4) (s : State), (s.valve v.val).st ∈ [ValveSt.peak, .hold, .pwm, .off] → wordTime (s.valve v.val) ≠ 0 →
    exec (.valveWordTimer v) s = .next (enterWord v.val ((s.valve v.val).pc.toNat + 1) s)) ∧
  (∀ (v : Fin 4) (s : State), (s.valve v.val).st ∉ [ValveSt.peak, .hold, .pwm, .off] ∨ wordTime (s.valve v.val) = 0 →
    exec (.valveWordTimer v) s = .next s) ∧
  (∀ (v : Fin 4) (s : State), (s.valve v.val).st = .boost →
    exec (.boostCurrentReached v) s = .next (enterWord v.val ((s.valve v.val).pc.toNat + 1) s)) ∧
  (∀ (v : Fin 4) (s : State), (s.valve v.val).st ≠ .boost →
    exec (.boostCurrentReached v) s = .next s ∧ exec (.boostTimeout v) s = .next s) ∧
  (∀ (v : Fin 4) (s : State), (s.valve v.val).st = .boost →
    ∃ t, exec (.boostTimeout v) s = .next t ∧
      (∀ k, t.valve k = if k = v.val then { s.valve v.val with st := .fault, low := false, steady := 0, prog := false } else s.valve k) ∧
      (t.hdr pgVlv).stat = (s.hdr pgVlv).stat ||| bitMask 1 ∧ (t.hdr pgVlv).perm = satInc (s.hdr pgVlv).perm ∧
      only [.hdrs, .host, .glob, .drv, .hut] s t) ∧
  (∀ (v : Fin 4) (s : State), (s.valve v.val).st = .deferred → boostBlocked s v.val = false →
    ∃ t, exec (.deferredBoostStart v) s = .next t ∧ (t.valve v.val).st = .boost ∧ (t.valve v.val).low = true ∧
      (t.valve v.val).deferMax = (if (s.valve v.val).deferMax.toNat < min 65535 ((s.env.ts - (s.valve v.val).deferTs).toNat / 100)
        then BitVec.ofNat 16 (min 65535 ((s.env.ts - (s.valve v.val).deferTs).toNat / 100)) else (s.valve v.val).deferMax) ∧
      (∀ u, u ≠ v.val → t.valve u = s.valve u) ∧ only [.hdrs, .drv, .hut] s t) ∧
  (∀ (v : Fin 4) (s : State), (s.valve v.val).st ≠ .deferred ∨ boostBlocked s v.val = true → exec (.deferredBoostStart v) s = .next s) ∧
  (∀ (v : Fin 4) (code : BitVec 12) (s : State),
    ∃ t, exec (.valveShuntSample v code) s = .next t ∧ (t.valve v.val).cur = code ∧ (∀ u, u ≠ v.val → t.valve u = s.valve u) ∧
      ((s.valve v.val).st = .peak ∨ (s.valve v.val).st = .hold → 1 ≤ (s.valve v.val).steady → (s.valve v.val).low = true →
        target (s.valve v.val) + (s.valve v.val).hyst.toNat ≤ code.toNat → (t.valve v.val).low = false) ∧
      ((s.valve v.val).st = .peak ∨ (s.valve v.val).st = .hold → 1 ≤ (s.valve v.val).steady → (s.valve v.val).low = false →
        target (s.valve v.val) ≠ 0 → code.toNat + (s.valve v.val).hyst.toNat ≤ target (s.valve v.val) → (t.valve v.val).low = true) ∧
      ((s.valve v.val).steady = 0 ∨ ((s.valve v.val).st ≠ .peak ∧ (s.valve v.val).st ≠ .hold) → (t.valve v.val).low = (s.valve v.val).low) ∧
      only [.drv] s t) ∧
  (∀ (v : Fin 4) (irms : BitVec 16) (s : State), (s.valve v.val).tc = none → exec (.coilModelUpdate v irms) s = .next s) ∧
  (∀ (v : Fin 4) (irms : BitVec 16) (s : State) (tc x : Rat), (s.valve v.val).tc = some tc →
      x = coilStep (s.valve v.val) (ambient s (s.valve v.val)) tc irms.toNat → (s.valve v.val).st ≠ .deferred →
    ∃ t, exec (.coilModelUpdate v irms) s = .next t ∧ (t.valve v.val).tc = some x ∧ (∀ u, u ≠ v.val → t.valve u = s.valve u) ∧
      (t.valve v.val).reduced = (if 155 ≤ x then true else if x ≤ 145 then false else (s.valve v.val).reduced) ∧
      (t.valve v.val).coilOt = (decide (170 ≤ x) || (s.valve v.val).coilOt) ∧
      (170 ≤ x → (s.valve v.val).coilOt = false → (t.valve v.val).st = .idle ∧ (t.valve v.val).low = false) ∧
      only [.hdrs, .host, .glob, .drv, .hut] s t) ∧
  (∀ (v : Fin 4) (w : Word) (s : State), (s.valve v.val).st = .idle → (s.valve v.val).on = false → fld w.toNat 16 2 ≠ 3 →
    ∃ t, exec (.valveConfigWrite v 0x048 w) s = .next t ∧ (∀ k, t.valve k = if k = v.val then { s.valve v.val with
        onEntry := w.extractLsb' 0 6, offEntry := w.extractLsb' 8 6, leak := w.extractLsb' 16 2
        leased := w.getLsbD 18, hyst := w.extractLsb' 24 8 } else s.valve k) ∧ only [.drv] s t) ∧
  (∀ (v : Fin 4) (off : BitVec 12) (w : Word) (s : State), (s.valve v.val).st = .idle → (s.valve v.val).on = false → 0x100 ≤ off.toNat →
      off.toNat < 0x200 →
    ∃ t, exec (.valveConfigWrite v off w) s = .next t ∧ (∀ k, t.valve k = if k = v.val then { s.valve v.val with
        ucode := fput 0 ((off.toNat - 0x100) / 4) w (s.valve v.val).ucode } else s.valve k) ∧ only [.drv] s t) ∧
  (∀ (v : Fin 4) (off : BitVec 12) (w : Word) (s : State), off.toNat = 0x048 ∨ (0x100 ≤ off.toNat ∧ off.toNat < 0x200) →
      (s.valve v.val).st ≠ .idle ∨ (s.valve v.val).on = true ∨ (off.toNat = 0x048 ∧ fld w.toNat 16 2 = 3) →
    exec (.valveConfigWrite v off w) s = .next (raise pgVlv 3 s)) ∧
  (∀ (v : Fin 4) (off : BitVec 12) (w : Word) (s : State), off.toNat ≠ 0x048 → off.toNat < 0x100 ∨ 0x200 ≤ off.toNat →
    exec (.valveConfigWrite v off w) s = .next s))

/-- AIN_CONVERSION stores the code and counts codes at either end; three at an end of a supervised input make INPUT_FAULT
mark it. A pulse edge is stored with its time. ROPE_BAND_CHANGE takes the band of the resistance; LEAK_LATCH sets the
latch and stops the channels whose LEAK_STOP is set. AGE_MEASUREMENT stores the ratio of currents under its conditions
and warns above 1.25. ACOUSTIC_CAP_UPDATE steps the cap in the APPLIANCE profile. Covers INPUT_FAULT, AGE_MEASUREMENT,
ACOUSTIC_CAP_UPDATE, ROPE_BAND_CHANGE, LEAK_LATCH, LEAK, AIN_CONVERSION, PULSE_INPUT_EDGE. Rules: R428, R422, R425,
R429, R430, R453, R426, R418, R427, R432. -/
def Obligations.InputAndRopeCommands : Prop :=
  (∀ (k : Fin 16) (code : BitVec 16) (s : State),
    ∃ t, exec (.ainConversion k code) s = .next t ∧ only [.drv] s t ∧
      (∀ j, t.input j = if j = k.val then { s.input k.val with raw := code, value := code.setWidth 24, conversions := (s.input k.val).conversions + 1, ends := if (s.input k.val).supv ∧ (0xFFC0 ≤ code.toNat ∨ code.toNat ≤ 0x40) then (s.input k.val).ends + 1 else 0 } else s.input j)) ∧
  (∀ (i : Fin 10) (s : State), i.val < 6 →
    ∃ t, exec (.pulseInputEdge i) s = .next t ∧ only [.drv] s t ∧ (t.motor i.val).pulses = pushTs 16 s.env.ts (s.motor i.val).pulses ∧
      (∀ m, m ≠ i.val → t.motor m = s.motor m) ∧ (∀ j, t.input j = s.input j)) ∧
  (∀ (i : Fin 10) (s : State), 6 ≤ i.val →
    ∃ t, exec (.pulseInputEdge i) s = .next t ∧ only [.drv] s t ∧
      (∀ j, t.input j = if j = 10 + i.val then { s.input (10 + i.val) with pulses := pushTs 2 s.env.ts (s.input (10 + i.val)).pulses } else s.input j)) ∧
  (∀ (kind : Fin 3) (idx : Fin 16) (k : Nat) (s : State), k = sensKey kind.val idx.val → supervised k (s.input k) = true →
      (s.input k).fault = false → 3 ≤ (s.input k).ends →
    ∃ t, exec (.inputFault kind idx) s = .next t ∧ (∀ j, t.input j = if j = k then { s.input k with fault := true } else s.input j) ∧
      (t.hdr pgSens).stat = (s.hdr pgSens).stat ||| bitMask 3 ∧ (t.hdr pgSens).perm = satInc (s.hdr pgSens).perm ∧
      only [.hdrs, .host, .glob, .drv, .hut] s t) ∧
  (∀ (kind : Fin 3) (idx : Fin 16) (k : Nat) (s : State), k = sensKey kind.val idx.val →
      supervised k (s.input k) = false ∨ (s.input k).fault = true ∨ (s.input k).ends < 3 →
    exec (.inputFault kind idx) s = .next s) ∧
  (∀ (r : Fin 4) (o : Nat) (s : State), (s.rope r.val).en = false → exec (.ropeBandChange r o) s = .next s) ∧
  (∀ (r : Fin 4) (o : Nat) (s : State) (b : Band), (s.rope r.val).en = true →
      b = (if o < 2000 then .leak else if o < 3500 then .marginal else if o < 7500 then .normal else if o < 20000 then .marginal else .opened) →
    ∃ t, exec (.ropeBandChange r o) s = .next t ∧
      (∀ j, t.rope j = if j = r.val then { s.rope r.val with band := b, leftTs := if b = .leak then none else if (s.rope r.val).band = .leak then some s.env.ts else (s.rope r.val).leftTs } else s.rope j) ∧
      (b = .opened → (s.rope r.val).band ≠ .opened → (t.hdr pgSens).stat = (s.hdr pgSens).stat ||| bitMask 1 ∧
          (t.hdr pgSens).perm = satInc (s.hdr pgSens).perm) ∧
      (b = .marginal → (s.rope r.val).band ≠ .marginal → (t.hdr pgSens).stat = (s.hdr pgSens).stat ||| bitMask 2 ∧
          (t.hdr pgSens).trans = satInc (s.hdr pgSens).trans) ∧
      (b = (s.rope r.val).band ∨ b = .leak ∨ b = .normal → t.hdrs = s.hdrs) ∧
      only [.hdrs, .host, .glob, .drv, .hut] s t) ∧
  (∀ (r : Fin 4) (s : State), (s.rope r.val).en = true → (s.rope r.val).band = .leak → (s.rope r.val).latch = false →
    ∃ t, exec (.leakLatch r) s = .next t ∧ (∀ j, t.rope j = if j = r.val then { s.rope r.val with latch := true } else s.rope j) ∧
      (t.hdr pgSens).stat &&& bitMask 0 = bitMask 0 ∧
      (∀ m, m < 6 → (s.motor m).leakStop = true → motorHeld s m = false → (t.motor m).st = .stopped ∧ (t.motor m).leakStopped = true) ∧
      (∀ m, m < 6 → (s.motor m).leakStop = false ∨ motorHeld s m = true → t.motor m = s.motor m) ∧
      only [.hdrs, .host, .glob, .loop, .drv, .cbus, .hut] s t) ∧
  (∀ (r : Fin 4) (s : State), (s.rope r.val).en = false ∨ (s.rope r.val).band ≠ .leak ∨ (s.rope r.val).latch = true →
    exec (.leakLatch r) s = .next s) ∧
  (∀ (m : Fin 6) (iq : BitVec 16) (s : State), (s.motor m.val).mode = 2 → (s.motor m.val).st = .running → (s.motor m.val).base ≠ 0 →
      (s.motor m.val).lastAge = none →
      50 * ((speedOf s m.val - (s.motor m.val).ref.toNat) + ((s.motor m.val).ref.toNat - speedOf s m.val)) ≤ (s.motor m.val).ref.toNat →
    ∃ t r, r = ageRatio iq.toNat (s.motor m.val).base.toNat ∧ exec (.ageMeasurement m iq) s = .next t ∧
      (∀ k, t.motor k = if k = m.val then { s.motor m.val with ratio := BitVec.ofNat 12 r, lastAge := some s.env.ts, ageWarn := decide (320 < r) || (s.motor m.val).ageWarn } else s.motor k) ∧
      (320 < r → (t.hdr pgMtr).stat = (s.hdr pgMtr).stat ||| bitMask 2) ∧
      only [.hdrs, .host, .glob, .drv, .hut] s t) ∧
  (∀ (m : Fin 6) (iq : BitVec 16) (s : State), (s.motor m.val).mode ≠ 2 ∨ (s.motor m.val).st ≠ .running ∨ (s.motor m.val).base = 0 ∨
      (∃ t : DWord, (s.motor m.val).lastAge = some t ∧ s.env.ts.toNat < t.toNat + 3600 * second) →
    exec (.ageMeasurement m iq) s = .next s) ∧
  (∀ s : State, s.cairn.policy.row = true → exec .acousticCapUpdate s = .next s) ∧
  (∀ (s : State) (a : Nat), s.cairn.policy.row = false → a = (if s.drv.windowSeen && s.drv.hot then max (acMin s) (acapOf s - acStep s)
      else if s.drv.windowSeen && s.drv.cool then min s.env.variant.peak (acapOf s + acStep s) else acapOf s) →
    ∃ t, exec .acousticCapUpdate s = .next t ∧
      t.drv = { s.drv with hot := true, cool := true, windowSeen := false, acap := if a = acapOf s then s.drv.acap else some (BitVec.ofNat 12 a) } ∧
      (a ≠ acapOf s → (t.hdr pgMtr).stat = (s.hdr pgMtr).stat ||| bitMask 4) ∧
      only [.hdrs, .host, .glob, .drv, .hut] s t)

/-- SLOT_LATCH of a slot computes the loop equation of R387 from its sources, or holds its output, or ends its activity
where it is not enabled. SLOT_OUTPUT_WRITE writes the pending output to the slot and, where it drives, to its motor or
valve destination. FOLLOWING_ERROR_TRIP takes the slot's action. LOOP_RUN starts and stops the engine and clears every
slot's activity. The other slots are untouched. Covers SLOT_LATCH, SLOT_OUTPUT_WRITE, FOLLOWING_ERROR_TRIP, LOOP_RUN.
Rules: R380, R391, R389, R379, R384, R385, R387, R388, R390. -/
def Obligations.LoopPeriods : Prop :=
  (∀ (i : SlotId) (s : State), s.loop.running = false → exec (.slotLatch i) s = .next s) ∧
  (∀ (i : SlotId) (s : State), s.loop.running = true → (s.slot i.val).en = false → s.loop.captActive = false →
    ∃ t, exec (.slotLatch i) s = .next t ∧
      (∀ k, t.slot k = if k = i.val then { s.slot i.val with active := false, pend := none, holding := false } else s.slot k) ∧
      ((s.slot i.val).active = false → t.drv = s.drv) ∧ only [.hdrs, .host, .glob, .loop, .drv, .hut] s t) ∧
  (∀ (i : SlotId) (s : State) (y : BitVec 24 × Bool) (q : Slot), q = s.slot i.val → s.loop.running = true → q.en = true → q.hold = true →
      q.active = true →
      s.loop.captActive = false → s.loop.held = [] → q.rsrc = 0xFF → s.loop.captActive = false →
      y = limit24 (align ((sourceOf s q.ysrc.toNat).getD (0, 0)).1 ((sourceOf s q.ysrc.toNat).getD (0, 0)).2 q.esig.toInt) →
    ∃ t, exec (.slotLatch i) s = .next t ∧ (t.slot i.val).holding = true ∧ (t.slot i.val).yPrev = y.1 ∧
      (t.slot i.val).pend = some { u := q.out, y := y.1, capture := false, drive := false } ∧ (t.slot i.val).int = q.int ∧
      (∀ k, k ≠ i.val → t.slot k = s.slot k) ∧ t.drv = s.drv ∧ only [.hdrs, .host, .glob, .loop, .drv, .hut] s t) ∧
  (∀ (i : SlotId) (s : State) (y r : BitVec 24 × Bool) (q : Slot) (p : Period), q = s.slot i.val → s.loop.running = true → q.en = true →
      q.hold = false →
      q.active = true → s.loop.captActive = false → s.loop.go = false → q.rsrc = 0xFF →
      y = limit24 (align ((sourceOf s q.ysrc.toNat).getD (0, 0)).1 ((sourceOf s q.ysrc.toNat).getD (0, 0)).2 q.esig.toInt) →
      r = limit24 q.setpt.toInt → p = compute q y.1.toInt r.1.toInt 0 (y.2 || r.2) (q.holding && q.bumpless) →
    ∃ t, exec (.slotLatch i) s = .next t ∧
      (t.slot i.val).pend = some { p.out with inj := 0, capture := false } ∧ (t.slot i.val).holding = false ∧
      (t.slot i.val).int = p.slot.int ∧ (t.slot i.val).d = p.slot.d ∧ (t.slot i.val).yPrev = p.slot.yPrev ∧
      (t.slot i.val).clampHi = p.slot.clampHi ∧ (t.slot i.val).clampLo = p.slot.clampLo ∧ (t.slot i.val).out = q.out ∧
      (t.slot i.val).feCount = feNext q p.err ∧
      (∀ k, k ≠ i.val → t.slot k = s.slot k) ∧ only [.hdrs, .host, .glob, .loop, .drv, .hut] s t) ∧
  (∀ (i : SlotId) (s : State), (s.slot i.val).pend = none → exec (.slotOutputWrite i) s = .next s) ∧
  (∀ (i : SlotId) (s : State) (o : SlotOut), (s.slot i.val).pend = some o →
    ∃ t, exec (.slotOutputWrite i) s = .next t ∧ (t.slot i.val).out = o.u ∧ (t.slot i.val).pend = none ∧
      (∀ k, k ≠ i.val → t.slot k = s.slot k) ∧
      (o.drive = false → t.drv = s.drv) ∧
      (o.drive = true → ∀ m, m < 6 → (s.slot i.val).dst.toNat = 0x40 + m →
        (t.motor m).dDest = (limit24 (align o.u.toInt (s.slot i.val).eout.toInt (-23))).1 ∧ (t.motor m).live = true) ∧
      (o.drive = true → ∀ m, m < 6 → (s.slot i.val).dst.toNat = 0x48 + m →
        (t.motor m).qDest = (limit24 (align o.u.toInt (s.slot i.val).eout.toInt (-23))).1 ∧ (t.motor m).live = true) ∧
      (o.drive = true → ∀ v, v < 4 → (s.slot i.val).dst.toNat = 0x60 + v →
        (t.valve v).dest = (limit24 (align o.u.toInt (s.slot i.val).eout.toInt 0)).1) ∧
      only [.hdrs, .host, .glob, .loop, .drv, .hut] s t) ∧
  (∀ (i : SlotId) (s : State), (s.slot i.val).en = true → (s.slot i.val).feTime ≠ 0 → (s.slot i.val).feCount = (s.slot i.val).feTime →
    ∃ t, exec (.followingErrorTrip i) s = .next t ∧
      (∀ k, t.slot k = if k = i.val then { s.slot i.val with feTrip := true, hold := (s.slot i.val).hold || decide ((s.slot i.val).feAct = 1), en := decide ((s.slot i.val).feAct ≠ 2) } else s.slot k) ∧
      (t.hdr pgLoop).stat &&& bitMask 0 = bitMask 0 ∧
      only [.hdrs, .host, .glob, .loop, .hut] s t) ∧
  (∀ (i : SlotId) (s : State), (s.slot i.val).en = false ∨ (s.slot i.val).feTime = 0 ∨ (s.slot i.val).feCount ≠ (s.slot i.val).feTime →
    exec (.followingErrorTrip i) s = .next s) ∧
  (∀ s : State, exec (.loopRun s.loop.run) s = .next s) ∧
  (∀ s : State, s.loop.run = false →
    ∃ t, exec (.loopRun true) s = .next t ∧ t.loop = { s.loop with run := true, running := true, runTs := s.env.ts } ∧ only [.hdrs, .loop,
        .hut] s t) ∧
  (∀ s : State, s.loop.run = true →
    ∃ t, exec (.loopRun false) s = .next t ∧ t.loop.run = false ∧ t.loop.running = false ∧ t.loop.pcount = pcountOf s ∧
        t.loop.captActive = false ∧
      t.loop.go = false ∧ t.loop.injActive = false ∧
      (∀ e ∈ s.loop.slots, (t.slot e.1).active = false ∧ (t.slot e.1).pend = none ∧ (t.slot e.1).holding = false ∧
          (t.slot e.1).en = (s.slot e.1).en) ∧
      only [.hdrs, .host, .glob, .loop, .drv, .hut] s t)

/-- A register write that a rule refuses changes only REFUSE and raises REFUSED; one that no rule refuses changes that
slot's field alone. Enabling and HOLD are refused alike. INJECT_GO stores the fields and, with GO set, an authorised
principal and no refusal, starts the injection and clears the capture. Covers LOOP_SLOT_ENABLE, HOLD_SET, HOLD_CLEAR,
LOOP_SLOT_REGISTER_WRITE, INJECT_GO. Rules: R381, R399, R400, R397, R392, R388, R389, R393, R395, R398. -/
def Obligations.LoopSlotCommands : Prop :=
  (∀ (i : SlotId) (off : BitVec 6) (v : Word) (s : State), off.toNat % 4 ≠ 0 → exec (.loopSlotRegisterWrite i off v) s = .next s) ∧
  (∀ (i : SlotId) (off : BitVec 6) (v : Word) (s : State), off.toNat % 4 = 0 → slotRefusal s i.val off.toNat v ≠ 0 →
    ∃ t, exec (.loopSlotRegisterWrite i off v) s = .next t ∧
      t.loop = { s.loop with refuse := ⟨BitVec.ofNat 5 i.val, false, BitVec.ofNat 6 (off.toNat / 4), BitVec.ofNat 3 (slotRefusal s i.val off.toNat v)⟩ } ∧
      (t.hdr pgLoop).stat = (s.hdr pgLoop).stat ||| bitMask 4 ∧ only [.hdrs, .host, .glob, .loop, .hut] s t) ∧
  (∀ (i : SlotId) (off : BitVec 6) (v : Word) (s : State), off.toNat % 4 = 0 → slotRefusal s i.val off.toNat v = 0 →
    ∃ t, exec (.loopSlotRegisterWrite i off v) s = .next t ∧ (∀ k,
        t.slot k = if k = i.val then slotWith (s.slot i.val) off.toNat v else s.slot k) ∧
      only [.hdrs, .host, .glob, .loop, .hut] s t) ∧
  (∀ (s : State) (i : Nat) (v : Word), (s.slot i).en = true → (s.slot i).holding = false → slotRefusal s i 0x0C v = 3 ∧
      slotRefusal s i 0x38 v = 3) ∧
  (∀ (i : SlotId) (on : Bool) (s : State), (s.slot i.val).feAct ≠ 3 → (on = true →
      enableRefusal s i.val { s.slot i.val with en := true } = 0) →
    ∃ t, exec (.loopSlotEnable i on) s = .next t ∧ (∀ k, t.slot k = if k = i.val then { s.slot i.val with en := on } else s.slot k) ∧
      only [.hdrs, .host, .glob, .loop, .hut] s t) ∧
  (∀ (i : SlotId) (s : State), (s.slot i.val).feAct ≠ 3 → enableRefusal s i.val { s.slot i.val with en := true } ≠ 0 →
    ∃ t, exec (.loopSlotEnable i true) s = .next t ∧
      t.loop = { s.loop with refuse := ⟨BitVec.ofNat 5 i.val, false, 0, BitVec.ofNat 3 (enableRefusal s i.val { s.slot i.val with en := true })⟩ } ∧
      only [.hdrs, .host, .glob, .loop, .hut] s t) ∧
  (∀ (i : SlotId) (on : Bool) (c : Instr) (s : State), (c, on) ∈ [(Instr.holdSet i, true), (.holdClear i, false)] →
      (s.slot i.val).feAct ≠ 3 → ((s.slot i.val).en = true → enableRefusal s i.val { s.slot i.val with hold := on } = 0) →
    ∃ t, exec c s = .next t ∧ (∀ k, t.slot k = if k = i.val then { s.slot i.val with hold := on } else s.slot k) ∧
      only [.hdrs, .host, .glob, .loop, .hut] s t) ∧
  (∀ (v : Word) (s : State), v.extractLsb' 6 2 ≠ 3 → v.getLsbD 8 = false →
    exec (.injectGo v) s = .next { s with loop := injFields v s.loop }) ∧
  (∀ (v : Word) (s : State) (a : Fin 8), v.extractLsb' 6 2 ≠ 3 → v.getLsbD 8 = true → s.loop.injAuth = some a → goRefused s v = false →
    ∃ t, exec (.injectGo v) s = .next t ∧ t.loop = { injFields v s.loop with
        go := true, aborted := false, injAuth := none, injActive := false, injDone := 0, lfsr := 0x7FFF, phi := 0
        captDone := false, captActive := false, captSkip := 0, capt := [] } ∧ only [.hdrs, .loop, .hut] s t) ∧
  (∀ (v : Word) (s : State) (n : Nat), (v.extractLsb' 6 2 = 3 ∧ n = 5) ∨ (v.extractLsb' 6 2 ≠ 3 ∧ v.getLsbD 8 = true ∧
      goRefused s v = true ∧ n = 6) →
    ∃ t, exec (.injectGo v) s = .next t ∧ t.loop = { s.loop with refuse := ⟨0, true, 0x11, BitVec.ofNat 3 n⟩ } ∧
      (t.hdr pgLoop).stat = (s.hdr pgLoop).stat ||| bitMask 4 ∧ only [.hdrs, .host, .glob, .loop, .hut] s t)

/-- BUS_OFF empties the transmit queue into CBUS_TX_DROP and either starts the recovery, where AUTOREC is set and the
interface entered bus-off fewer than four times in the last 60 s counting this entry, or halts. BUS_OFF_RECOVERY_DONE
returns the interface to active with its counters 0. CBUS_BUS_ERROR stores the counters and makes the interface passive
at 128. An interface that takes no part on the bus ignores them. Covers FRAME_RX, FRAME_TX_DONE, BUS_OFF,
BUS_OFF_RECOVERY_DONE, CBUS_BUS_ERROR. Rules: R445. -/
def Obligations.BusFaultCommands : Prop :=
  (∀ (i : IfId) (s : State), onBus (s.can i.val) = false ∨ s.env.variant.cbus ≤ i.val →
    exec (.busOff i) s = .next s ∧ (∀ a b, exec (.cbusBusError i a b) s = .next s) ∧ exec (.frameTxDone i) s = .next s ∧
    ∀ f, exec (.frameRx i f) s = .next s) ∧
  (∀ (i : IfId) (s : State), onBus (s.can i.val) = true → i.val < s.env.variant.cbus →
    ∃ t, exec (.busOff i) s = .next t ∧
      (∀ k, t.can k = if k = i.val then { s.can i.val with
          st := if (s.can i.val).autorec = true ∧ countWithin s.env.ts (60 * second) (pushTs 15 s.env.ts (s.can i.val).boffs) < 4 then .recovering else .halted
          queue := []
          boffs := pushTs 15 s.env.ts (s.can i.val).boffs
          txDrop := satAdd (s.can i.val).txDrop (s.can i.val).queue.length } else s.can k) ∧
      (t.hdr pgCbus).stat &&& bitMask 4 = bitMask 4 ∧
      ((t.can i.val).st = .halted → (t.hdr pgCbus).stat &&& bitMask 6 = bitMask 6) ∧
      only [.hdrs, .host, .glob, .cbus, .hut] s t) ∧
  (∀ (i : IfId) (s : State), (s.can i.val).st = .recovering →
    ∃ t, exec (.busOffRecoveryDone i) s = .next t ∧
      (∀ k, t.can k = if k = i.val then { s.can i.val with st := .active, txErr := 0, rxErr := 0 } else s.can k) ∧
      (t.hdr pgCbus).stat = (s.hdr pgCbus).stat ||| bitMask 5 ∧ only [.hdrs, .host, .glob, .cbus, .hut] s t) ∧
  (∀ (i : IfId) (s : State), (s.can i.val).st ≠ .recovering → exec (.busOffRecoveryDone i) s = .next s) ∧
  (∀ (i : IfId) (tec : BitVec 9) (rxe : Byte) (s : State), onBus (s.can i.val) = true → i.val < s.env.variant.cbus →
    ∃ t, exec (.cbusBusError i tec rxe) s = .next t ∧
      (∀ k, t.can k = if k = i.val then { s.can i.val with
          txErr := tec
          rxErr := rxe
          st := if 128 ≤ tec.toNat ∨ 128 ≤ rxe.toNat then .passive else .active } else s.can k) ∧
      ((s.can i.val).st = .active → 128 ≤ tec.toNat ∨ 128 ≤ rxe.toNat → (t.hdr pgCbus).stat &&& bitMask 3 = bitMask 3) ∧
      only [.hdrs, .host, .glob, .cbus, .hut] s t)

/-- FRAME_TX_DONE removes the frame of the lowest identifier and renews a held lease by its own LEASE. FRAME_TX_EXPIRY drops
frames older than 0.5 s. Bit timing is written only in INIT and within its limits. An object read locks it; its release
takes the shadow frame. FRAME_RX counts a frame without a 29-bit data identifier as unmatched, and writes a matching
frame to its unlocked object. SENDER_STATE_EXPIRY forgets a sender silent for 5 s. Covers FRAME_RX, OBJ_LOCK_READ,
OBJ_RELEASE, FRAME_TX_DONE, FRAME_TX_EXPIRY, CBUS_BIT_TIMING_WRITE, SENDER_STATE_EXPIRY. Rules: R441, R442, R443, R439,
R451, R438, R440, R447, R456. -/
def Obligations.BusFrameCommands : Prop :=
  (∀ (i : IfId) (s : State), (s.can i.val).queue = [] → exec (.frameTxDone i) s = .next s) ∧
  (∀ (i : IfId) (f : TxFrame) (s : State), onBus (s.can i.val) = true → (s.can i.val).listen = false → i.val < s.env.variant.cbus →
      lowest (s.can i.val).queue = some f →
    ∃ t, exec (.frameTxDone i) s = .next t ∧
      (∀ k, t.can k = if k = i.val then { s.can i.val with
          queue := (s.can i.val).queue.erase f
          sent := some f
          ownTref := if f.id.toNat / 2 ^ 18 = 0x010 then s.env.ts else (s.can i.val).ownTref } else s.can k) ∧
      (∀ g, t.group g = if leaseFrameOf f = some g ∧
          (s.group g).st = .holding then { s.group g with renewTs := some s.env.ts } else s.group g) ∧
      only [.cbus] s t) ∧
  (∀ (i : IfId) (s : State), ∃ t, exec (.frameTxExpiry i) s = .next t ∧
      (∀ k, (t.can k).queue = if k = i.val then (s.can i.val).queue.filter (fun f => decide (s.env.ts.toNat < f.ts.toNat + 50000000)) else (s.can k).queue) ∧
      (((s.can i.val).queue.filter (fun f => decide (f.ts.toNat + 50000000 ≤ s.env.ts.toNat)) = [] → t = s)) ∧
      only [.hdrs, .cbus, .hut] s t) ∧
  (∀ (i : IfId) (d : Bool) (v : Word) (s : State), i.val < s.env.variant.cbus → (s.can i.val).init = true →
      timingOk (if d then (s.can i.val).nbt else v &&& 0x07FFFFFF) (if d then v &&& 0x03FFFFFF else (s.can i.val).dbt) = true →
    ∃ t, exec (.cbusBitTimingWrite i d v) s = .next t ∧
      (∀ k, t.can k = if k = i.val then { s.can i.val with
          nbt := if d then (s.can i.val).nbt else v &&& 0x07FFFFFF
          dbt := if d then v &&& 0x03FFFFFF else (s.can i.val).dbt } else s.can k) ∧ only [.cbus] s t) ∧
  (∀ (i : IfId) (d : Bool) (v : Word) (s : State), (s.can i.val).init = false ∨
      timingOk (if d then (s.can i.val).nbt else v &&& 0x07FFFFFF) (if d then v &&& 0x03FFFFFF else (s.can i.val).dbt) = false →
    ∃ t, exec (.cbusBitTimingWrite i d v) s = .next t ∧ only [.hdrs, .hut] s t) ∧
  (∀ (i : IfId) (k : Fin 64) (s : State), ∃ t, exec (.objLockRead i k) s = .next t ∧
      fget {} (t.can i.val).objs k.val = { fget {} (s.can i.val).objs k.val with locked := true } ∧
      (∀ j, j ≠ k.val → fget {} (t.can i.val).objs j = fget {} (s.can i.val).objs j) ∧ (∀ n, n ≠ i.val → t.can n = s.can n) ∧
      t.reply.value = BitVec.ofNat 64 (leNat (padBytes 4 (fget {} (s.can i.val).objs k.val).frame.payload)) ∧ only [.reply, .cbus] s t) ∧
  (∀ (i : IfId) (k : Fin 64) (s : State), ∃ t, exec (.objRelease i k) s = .next t ∧
      fget {} (t.can i.val).objs k.val = (match (fget {} (s.can i.val).objs k.val).shadow with
        | some r => { fget {} (s.can i.val).objs k.val with locked := false, frame := r, full := true, shadow := none }
        | none => { fget {} (s.can i.val).objs k.val with locked := false, full := false }) ∧
      (∀ j, j ≠ k.val → fget {} (t.can i.val).objs j = fget {} (s.can i.val).objs j) ∧ (∀ n, n ≠ i.val → t.can n = s.can n) ∧
      only [.hdrs, .host, .glob, .cbus] s t) ∧
  (∀ (i : IfId) (f : CanFrame) (s : State), onBus (s.can i.val) = true → i.val < s.env.variant.cbus → f.extended = false ∨ f.remote = true →
    ∃ t, exec (.frameRx i f) s = .next t ∧
      (∀ k, t.can k = if k = i.val then { s.can i.val with rxUnm := satInc (s.can i.val).rxUnm } else s.can k) ∧ only [.cbus] s t) ∧
  (∀ (i : IfId) (k : Nat) (f : CanFrame) (s : State), onBus (s.can i.val) = true → i.val < s.env.variant.cbus →
      f.extended = true → f.remote = false → f.own = true → matchObj (s.can i.val) f.id = some k →
      (fget {} (s.can i.val).objs k).locked = false →
    ∃ t, exec (.frameRx i f) s = .next t ∧
      fget {} (t.can i.val).objs k = { fget {} (s.can i.val).objs k with
        frame := ⟨f.id, f.payload, f.sof, s.env.holdover⟩
        full := true
        lost := (fget {} (s.can i.val).objs k).lost || (fget {} (s.can i.val).objs k).full } ∧
      (t.hdr pgCbus).stat &&& bitMask 0 = bitMask 0 ∧ only [.hdrs, .host, .glob, .cbus, .hut] s t) ∧
  (∀ (src : BitVec 6) (s : State), ∃ t, exec (.senderStateExpiry src) s = .next t ∧
      (∀ k, fget none t.cbus.senders k = if k = src.toNat ∧ (∃ q, fget none s.cbus.senders k = some q ∧
          q.last.toNat + 500000000 ≤ s.env.ts.toNat) then none
        else fget none s.cbus.senders k) ∧ only [.cbus] s t)

/-- TREF from one sender twice on an interface gives that interface's offset, makes the sender master, and makes a BACKUP
fall silent where the sender is PRIMARY. TREF_SEND_DUE sends by the module's role. TREF_AGE_TIMEOUT invalidates an
offset 30 ms old and moves to the other interface or to none. LEAK_REPEAT queues LEAK on each interface while any latch
is set. Covers LEAK_REPEAT, TREF, TREF_SEND_DUE, TREF_AGE_TIMEOUT. Rules: R449, R447, R446, R430, R448, R450, R452. -/
def Obligations.BusTimeCommands : Prop :=
  (∀ (i : IfId) (src : BitVec 6) (role : Byte) (carried start : DWord) (s : State),
    ∃ t, exec (.tref i src role carried start) s = .next t ∧
      (∀ k, t.can k = if k = i.val then
          (match (s.can i.val).prevStart with
           | some (p, b) => if p = src then { s.can i.val with prevStart := some (src, start), offset := carried - b, offsetTs := some s.env.ts }
               else { s.can i.val with prevStart := some (src, start) }
           | none => { s.can i.val with prevStart := some (src, start) })
        else s.can k) ∧
      t.cbus.master = some src ∧
      t.cbus.primaryTs = (if role = 1 then some s.env.ts else s.cbus.primaryTs) ∧
      t.cbus.tmaster = (if role = 1 then s.cbus.tmaster && s.cbus.role != 2 else s.cbus.tmaster) ∧
      (s.cbus.master ≠ some src → (t.hdr pgCbus).stat = (s.hdr pgCbus).stat ||| bitMask 8) ∧
      (s.cbus.master = some src → t.hdrs = s.hdrs) ∧
      only [.hdrs, .host, .glob, .cbus, .hut] s t) ∧
  (∀ (s : State), s.cbus.role ≠ 1 → (s.cbus.role = 2 → ∃ p, s.cbus.primaryTs = some p ∧ s.env.ts.toNat < p.toNat + 3000000) →
    exec .trefSendDue s = .next { s with cbus := { s.cbus with tmaster := false } }) ∧
  (∀ (i : IfId) (s : State), i.val < s.env.variant.cbus → (s.can i.val).queue.length < 16 →
      s.cbus.role = 1 ∨ (s.cbus.role = 2 ∧ ∀ p, s.cbus.primaryTs = some p → p.toNat + 3000000 ≤ s.env.ts.toNat) →
    ∃ t, exec .trefSendDue s = .next t ∧ t.cbus.tmaster = true ∧ t.cbus.seq = s.cbus.seq + 1 ∧
      (t.can i.val).queue = (s.can i.val).queue ++ [⟨BitVec.ofNat 29 (0x010 * 2 ^ 18 + s.cbus.addr.toNat),
        leBytes 2 s.cbus.seq.toNat ++ [s.cbus.boot, 1] ++ ([s.cbus.role.setWidth 8, 0, 0, 0] ++ leBytes 8 (s.can i.val).ownTref.toNat),
            s.env.ts⟩] ∧
      (s.cbus.tmaster = false → (t.hdr pgCbus).stat &&& bitMask 8 = bitMask 8) ∧
      only [.hdrs, .host, .glob, .cbus, .hut] s t) ∧
  (∀ (i : IfId) (p : DWord) (s : State), (s.can i.val).offsetTs = some p → s.env.ts.toNat < p.toNat + 3000000 →
      exec (.trefAgeTimeout i) s = .next s) ∧
  (∀ (i : IfId) (s : State), (∀ p, (s.can i.val).offsetTs = some p → p.toNat + 3000000 ≤ s.env.ts.toNat) →
    ∃ t, exec (.trefAgeTimeout i) s = .next t ∧
      t.cbus.btimeValid = (offsetFresh s 0 || offsetFresh s 1) ∧ t.cbus.srcB = (!offsetFresh s 0 && offsetFresh s 1) ∧
      (∀ k, t.can k = s.can k) ∧
      t.cbus.master = (if s.cbus.btimeValid = true ∧ offsetFresh s 0 = false ∧ offsetFresh s 1 = false then none else s.cbus.master) ∧
      only [.hdrs, .host, .glob, .cbus, .hut] s t) ∧
  (∀ (s : State), anyLatch s = false → exec .leakRepeat s = .next s) ∧
  (∀ (i : IfId) (s : State), anyLatch s = true → i.val < s.env.variant.cbus → (s.can i.val).queue.length < 16 →
    ∃ t, exec .leakRepeat s = .next t ∧ t.cbus.seq = s.cbus.seq + 1 ∧
      (t.can i.val).queue = (s.can i.val).queue ++ [⟨BitVec.ofNat 29 (0x001 * 2 ^ 18 + s.cbus.addr.toNat),
        leBytes 2 s.cbus.seq.toNat ++ [s.cbus.boot, 1] ++
          ([BitVec.ofNat 8 ((s.rope 0).latch.toNat + 2 * (s.rope 1).latch.toNat + 4 * (s.rope 2).latch.toNat + 8 * (s.rope 3).latch.toNat),
            BitVec.ofNat 8 ((s.valve 0).leakTaken.toNat + 2 * (s.valve 1).leakTaken.toNat + 4 * (s.valve 2).leakTaken.toNat + 8 * (s.valve 3).leakTaken.toNat),
            0, 0] ++ leBytes 8 (if s.cbus.btimeValid then (busTime s).toNat else 0)), s.env.ts⟩] ∧
      only [.hdrs, .cbus, .hut] s t)

/-- A STANDBY group whose partner has not renewed for 300 ms waits to claim if the module is ready, else is BARRED. The
claim takes the next epoch and is sent; at the end of its wait the group is HOLDING. A holder renews, and one that could
not renew for 250 ms puts the group's motors and valves in their safe state and returns to STANDBY. In every other state
each changes nothing. Covers LEASE_RENEWAL_DUE, LEASE_HOLDER_TIMEOUT, LEASE_EXPIRY, LEASE_CLAIM_SEND,
LEASE_CLAIM_WAIT_END. Rules: R455, R456, R454, R458, R460. -/
def Obligations.LeaseCommands : Prop :=
  -- expiry
  (∀ (g : GroupId) (s : State), (s.group g.val).st ≠ .standby ∨ (s.group g.val).waiting = true ∨
      (∃ p, (s.group g.val).renewTs = some p ∧ s.env.ts.toNat < p.toNat + 30000000) → exec (.leaseExpiry g) s = .next s) ∧
  (∀ (g : GroupId) (s u : State), (s.group g.val).st = .standby → (s.group g.val).waiting = false →
      (∀ p, (s.group g.val).renewTs = some p → p.toNat + 30000000 ≤ s.env.ts.toNat) →
      u = s.onGroup g.val (fun q => { q with live := false }) →
    ∃ t, exec (.leaseExpiry g) s = .next t ∧
      (∀ k, t.group k = if k = g.val then
          (if readyNow u = true ∧ busUp u = true then { s.group g.val with live := false, waiting := true } else { s.group g.val with live := false, st := .barred })
        else s.group k) ∧
      (readyNow u = false ∨ busUp u = false → (t.hdr pgCbus).stat = (s.hdr pgCbus).stat ||| bitMask 7) ∧
      only [.hdrs, .host, .glob, .cbus] s t) ∧
  -- claim
  (∀ (g : GroupId) (s : State), (s.group g.val).st ≠ .standby ∨ (s.group g.val).waiting = false → exec (.leaseClaimSend g) s = .next s) ∧
  (∀ (g : GroupId) (i : IfId) (s : State), (s.group g.val).st = .standby → (s.group g.val).waiting = true →
      i.val < s.env.variant.cbus → (s.can i.val).queue.length < 16 →
    ∃ t, exec (.leaseClaimSend g) s = .next t ∧
      (∀ k, t.group k = if k = g.val then { s.group g.val with st := .claiming, epoch := (s.group g.val).epoch + 1, waiting := false } else s.group k) ∧
      (t.can i.val).queue = (s.can i.val).queue ++ [⟨BitVec.ofNat 29 (0x020 * 2 ^ 18 + s.cbus.addr.toNat),
        leBytes 2 s.cbus.seq.toNat ++ [s.cbus.boot, 1] ++ ([BitVec.ofNat 8 g.val, BitVec.ofNat 8 (1 + 4 * (s.group g.val).primary.toNat),
            0, 0]
          ++ leBytes 4 ((s.group g.val).epoch + 1).toNat ++ [0, 0, 0, 0]), s.env.ts⟩] ∧
      only [.hdrs, .host, .glob, .cbus, .hut] s t) ∧
  (∀ (g : GroupId) (s : State), (s.group g.val).st ≠ .claiming → exec (.leaseClaimWaitEnd g) s = .next s) ∧
  (∀ (g : GroupId) (s : State), (s.group g.val).st = .claiming →
    ∃ t, exec (.leaseClaimWaitEnd g) s = .next t ∧
      (∀ k, t.group k = if k = g.val then { s.group g.val with st := .holding, waiting := false, renewTs := some s.env.ts, live := true } else s.group k) ∧
      only [.hdrs, .host, .glob, .loop, .drv, .cbus, .hut] s t) ∧
  -- hold
  (∀ (g : GroupId) (s : State), (s.group g.val).st ≠ .holding → exec (.leaseRenewalDue g) s = .next s ∧
      exec (.leaseHolderTimeout g) s = .next s) ∧
  (∀ (g : GroupId) (s : State), (s.group g.val).st = .holding →
    ∃ t, exec (.leaseRenewalDue g) s = .next t ∧ t.cbus.groups = s.cbus.groups ∧
      (groupSlots s g.val = [] → ∀ i : IfId, i.val < s.env.variant.cbus → (s.can i.val).queue.length < 16 →
        (t.can i.val).queue = (s.can i.val).queue ++ [⟨BitVec.ofNat 29 (0x020 * 2 ^ 18 + s.cbus.addr.toNat),
          leBytes 2 s.cbus.seq.toNat ++ [s.cbus.boot, 1] ++ ([BitVec.ofNat 8 g.val, BitVec.ofNat 8 (4 * (s.group g.val).primary.toNat), 0,
              0]
            ++ leBytes 4 (s.group g.val).epoch.toNat ++ [0, 0, 0, 0]), s.env.ts⟩]) ∧
      only [.hdrs, .cbus, .hut] s t) ∧
  (∀ (g : GroupId) (p : DWord) (s : State), (s.group g.val).renewTs = some p → s.env.ts.toNat < p.toNat + 25000000 →
      exec (.leaseHolderTimeout g) s = .next s) ∧
  (∀ (g : GroupId) (s : State), (s.group g.val).st = .holding → (∀ p, (s.group g.val).renewTs = some p →
      p.toNat + 25000000 ≤ s.env.ts.toNat) →
    ∃ t, exec (.leaseHolderTimeout g) s = .next t ∧
      (∀ k, t.group k = if k = g.val then { s.group g.val with st := .standby, waiting := false } else s.group k) ∧
      (∀ m, m < 6 → (s.group g.val).motors.getLsbD m = true → (t.motor m).st = .stopped) ∧
      (∀ v, v < 4 → (s.group g.val).valves.getLsbD v = true → (t.valve v).st = .idle) ∧
      (t.hdr pgCbus).stat &&& bitMask 7 = bitMask 7 ∧
      only [.hdrs, .host, .glob, .drv, .cbus, .hut] s t)

/-- LEASE from the group's partner with a later epoch, or the same epoch and PRIMARY over a module that is not, makes a
holder yield with its channels safe, and a claimer return to STANDBY; an earlier epoch changes nothing; RELEASE makes a
STANDBY group claim or be BARRED. MIRROR is kept from the partner alone. LEAK from a plant peer sets the peer leak for 2
s. HEALTH is stored with its time, and the end of a partner's fitness raises the interrupt. SELF_TEST forms the module's
own bits and bars every group that lost its drives or its slots. Covers LEAK, PEER_LEAK_HOLD_END, LEASE, MIRROR, HEALTH,
SELF_TEST. Rules: R453, R457, R449, R459, R430, R448, R455, R456, R460. -/
def Obligations.TraverseAndHealthCommands : Prop :=
  (-- LEASE
  (∀ (src : BitVec 6) (g : GroupId) (c r p : Bool) (e : Word) (s : State), (s.group g.val).st = .unused ∨ (s.group g.val).partner ≠ src →
    ∃ t, exec (.lease src g c r p e) s = .next t ∧ (∀ k,
        ({ t.group k with heardTs := none } : Group) = { s.group k with heardTs := none }) ∧ only [.cbus] s t) ∧
  (∀ (src : BitVec 6) (g : GroupId) (c r p : Bool) (e : Word) (s : State) (u : Group), (s.group g.val).st ≠ .unused →
      (s.group g.val).partner = src →
      u = { s.group g.val with
        epoch := if (s.group g.val).epoch.toNat < e.toNat then e else (s.group g.val).epoch
        renewTs := some s.env.ts
        live := !r
        waiting := false
        heardTs := none } →
    ∃ t, exec (.lease src g c r p e) s = .next t ∧
      (∀ k, k ≠ g.val → ({ t.group k with heardTs := none } : Group) = { s.group k with heardTs := none }) ∧
      ((s.group g.val).st = .holding → (s.group g.val).epoch.toNat < e.toNat ∨ (e = (s.group g.val).epoch ∧ p = true ∧
          (s.group g.val).primary = false) →
        ({ t.group g.val with heardTs := none } : Group) = { u with st := .standby } ∧
        (∀ m, m < 6 → (s.group g.val).motors.getLsbD m = true → (t.motor m).st = .stopped) ∧
        (∀ v, v < 4 → (s.group g.val).valves.getLsbD v = true → (t.valve v).st = .idle)) ∧
      ((s.group g.val).st = .claiming → (s.group g.val).epoch.toNat < e.toNat ∨ (e = (s.group g.val).epoch ∧ p = true) →
        ({ t.group g.val with heardTs := none } : Group) = { u with st := .standby }) ∧
      ((s.group g.val).st = .holding ∧ e.toNat < (s.group g.val).epoch.toNat ∨ (s.group g.val).st = .claiming ∧
          e.toNat < (s.group g.val).epoch.toNat →
        ({ t.group g.val with heardTs := none } : Group) = { s.group g.val with heardTs := none }) ∧
      ((s.group g.val).st = .barred ∨ ((s.group g.val).st = .standby ∧ r = false) → ({ t.group g.val with heardTs := none } : Group) = u) ∧
      ((s.group g.val).st = .standby → r = true →
        ({ t.group g.val with heardTs := none } : Group) = { u with live := false, waiting := true } ∨
        ({ t.group g.val with heardTs := none } : Group) = { u with live := false, st := .barred }) ∧
      only [.hdrs, .host, .glob, .drv, .cbus, .hut] s t) ∧
  -- MIRROR
  (∀ (src : BitVec 6) (g : GroupId) (part : Byte) (e : Word) (es : List (SlotId × BitVec 24 × BitVec 24)) (s : State),
    ∃ t, exec (.mirror src g part e es) s = .next t ∧
      (∀ k, ({ t.group k with heardTs := none } : Group) = if k = g.val ∧ (s.group g.val).st ≠ .unused ∧ (s.group g.val).partner = src then
          { s.group k with
            heardTs := none
            mirrors := ⟨part, e, s.env.ts, es⟩ :: (s.group k).mirrors.filter (fun m => m.part != part && m.epoch == e) }
        else { s.group k with heardTs := none }) ∧ only [.cbus] s t) ∧
  -- LEAK
  (∀ (src : BitVec 6) (s : State), s.cairn.plant.peers.contains src = false →
    ∃ t, exec (.leak src) s = .next t ∧ (∀ k, ({ t.group k with heardTs := none } : Group) = { s.group k with heardTs := none }) ∧
      t.cbus.peerLeak = s.cbus.peerLeak ∧ only [.cbus] s t) ∧
  (∀ (src : BitVec 6) (s : State), s.cairn.plant.peers.contains src = true →
    ∃ t, exec (.leak src) s = .next t ∧ t.cbus.peerLeak = true ∧ t.cbus.peerTs = s.env.ts ∧ (s.cbus.peerLeak = true → t.drv = s.drv) ∧
      only [.hdrs, .host, .glob, .drv, .cbus, .hut] s t) ∧
  (∀ (s : State), s.cbus.peerLeak = false ∨ s.env.ts.toNat < s.cbus.peerTs.toNat + 200000000 → exec .peerLeakHoldEnd s = .next s) ∧
  (∀ (s : State), s.cbus.peerLeak = true → s.cbus.peerTs.toNat + 200000000 ≤ s.env.ts.toNat →
    ∃ t, exec .peerLeakHoldEnd s = .next t ∧ t.cbus = { s.cbus with peerLeak := false } ∧
      (anyLatch s = true → t.drv = s.drv) ∧ only [.hdrs, .host, .glob, .drv, .cbus, .hut] s t)) ∧
  ((∀ (src : BitVec 6) (bits ls co : Byte) (s : State),
    ∃ t, exec (.health src bits ls co) s = .next t ∧
      (∀ k, t.group k = if k < 4 ∧ (s.group k).st ≠ .unused ∧ (s.group k).partner = src then
          { s.group k with partnerHealth := bits, healthTs := some s.env.ts, heardTs := some s.env.ts } else s.group k) ∧
      (∀ k, k < 4 → (s.group k).st ≠ .unused → (s.group k).partner = src → (s.group k).partnerHealth.getLsbD 7 = true →
          bits.getLsbD 7 = false →
        (t.hdr pgCbus).stat &&& bitMask 10 = bitMask 10) ∧
      only [.hdrs, .host, .glob, .cbus, .hut] s t) ∧
  (∀ (a b d sl : Bool) (s : State),
    ∃ t, exec (.selfTest a b d sl) s = .next t ∧
      t.cbus.ownHealth = BitVec.ofNat 8 ((a && decide ((s.can 0).st = .active)).toNat
        + 2 * (b && decide ((s.can 1).st = .active) && decide (1 < s.env.variant.cbus)).toNat + 4 * d.toNat + 8 * (sharedSensorsOk s).toNat
        + 16 * sl.toNat + 32 * (bit5 s).toNat + 64 * (bit6 s).toNat
        + 128 * (d && sharedSensorsOk s && sl && bit5 s && ((a && decide ((s.can 0).st = .active))
            || (b && decide ((s.can 1).st = .active) && decide (1 < s.env.variant.cbus)))).toNat) ∧
      (d = false ∨ sl = false → ∀ k, k < 4 → (s.group k).st ≠ .unused → (t.group k).st = .barred) ∧
      only [.hdrs, .host, .glob, .drv, .cbus, .hut] s t))

/-- EVENT_PORT_WRITE queues the event with the timestamp copy, or counts an overflow where 256 wait. EVT_OVF_POLL moves the
queue to the hut book unless the power-fail flush has begun. HUT_BOOK_FLUSH_TIMER copies the book to flash.
RECORD_ALLOWANCE_TICK gives every code one record back. BOARD_ACTIVITY ends BMC_LATE, and silence sets it once.
AUTONOMOUS_MODE_ENTER takes AUTO_BOARD (by default RATED) as the board cap. Covers EVENT_PORT_WRITE, EVT_OVF_POLL,
HUT_BOOK_FLUSH_TIMER, RECORD_ALLOWANCE_TICK, BOARD_ACTIVITY, BMC_LATE, AUTONOMOUS_MODE_ENTER. Rules: R498, R516, R515,
R502, R35, R513. -/
def Obligations.HutBookAndBoardCommands : Prop :=
  (∀ (lo hi : Word) (s : State), s.evts.queue.length < 256 → exec (.eventPortWrite lo hi) s = .next { s with evts := { s.evts with
      queue := s.evts.queue ++ [⟨BitVec.ofNat 16 (lo.toNat % 65536), BitVec.ofNat 16 (lo.toNat / 65536), BitVec.ofNat 64 hi.toNat, s.env.tsCopy, s.env.holdover⟩] } }) ∧
  (∀ (lo hi : Word) (s : State), 256 ≤ s.evts.queue.length → ∃ t, exec (.eventPortWrite lo hi) s = .next t ∧
    t.evts = { s.evts with overflow := satInc s.evts.overflow } ∧ (t.hdr pgMbox).stat = (s.hdr pgMbox).stat ||| bitMask 2 ∧
    (t.hdr pgMbox).trans = satInc (s.hdr pgMbox).trans ∧ only [.hdrs, .host, .glob, .evts] s t) ∧
  (∀ (s : State), ∃ t, exec .evtOvfPoll s = .next t ∧ t.evts = {} ∧
    (s.hut.powerFail = false → t.hut.book.total = s.hut.book.total + BitVec.ofNat 64 s.evts.queue.length + BitVec.ofNat 64 s.evts.overflow.toNat) ∧
    (s.hut.powerFail = true → t.hut = s.hut) ∧ only [.hdrs, .evts, .hut] s t) ∧
  (∀ (s : State), s.hut.powerFail = true → exec .hutBookFlushTimer s = .next s) ∧
  (∀ (s : State), s.hut.powerFail = false → ∃ t, exec .hutBookFlushTimer s = .next t ∧ t.hut = { s.hut with flash := s.hut.book } ∧
    (t.hdr pgLog).stat = (s.hdr pgLog).stat ||| bitMask 0 ∧ only [.hdrs, .host, .glob, .hut] s t) ∧
  (∀ (s : State), fwf 0 s.hut.used = true → ∃ t, exec .recordAllowanceTick s = .next t ∧
    (∀ code, fget 0 t.hut.used code = fget 0 s.hut.used code - 1) ∧ fwf 0 t.hut.used = true ∧ t.hut = { s.hut with used := t.hut.used } ∧
        only [.hut] s t) ∧
  (∀ (s : State), exec .boardActivity s = .next { s with cairn := { s.cairn with bmcLate := false } }) ∧
  (∀ (s : State), s.cairn.bmcLate = true → exec .bmcLate s = .next s) ∧
  (∀ (s : State), s.cairn.bmcLate = false → ∃ t, exec .bmcLate s = .next t ∧ t.cairn = { s.cairn with bmcLate := true } ∧
    (s.hut.powerFail = false → t.hut.book.total = s.hut.book.total + 1) ∧ only [.hdrs, .hut, .cairn] s t) ∧
  (∀ (s : State), s.cairn.auto = true → exec .autonomousModeEnter s = .next s) ∧
  (∀ (s : State), s.cairn.auto = false → ∃ t, exec .autonomousModeEnter s = .next t ∧
    t.cairn = { s.cairn with auto := true, boardCap := s.cairn.policy.autoBoard.getD (BitVec.ofNat 12 s.env.variant.rated) } ∧
    (t.hdr pgLog).stat &&& bitMask 2 = bitMask 2 ∧ only [.hdrs, .host, .glob, .hut, .cairn] s t)

/-- An access of another size or alignment, or of a TDI in ERROR, is unsupported. A page that is not present reads as zero
and discards writes. By the page's owner, a write of 1 clears BLK_INT_STAT bits and BLK_INT_SET sets them; BLK_INT_EN
takes its bits; any other party's write is discarded. BLK_ERR_TRANS clears on the owner's read alone. Clearing
GLOBAL_IRQ_PEND keeps a bit that an event sets in the same cycle, and enabling a route whose source is pending sends its
message. Covers BLK_INT_SET_WRITE, GLOBAL_IRQ_PEND_CLEAR, GLOBAL_IRQ_ROUTE_WRITE, REGISTER_WRITE, REGISTER_READ. Rules:
R531, R539, R8, R3, R9, R10, R106, R290, R529, R538. -/
def Obligations.RegisterAndInterruptCommands : Prop :=
  ((∀ (who : Party) (off : BitVec 26) (size : Nat) (v : DWord) (s : State), (size ≠ 4 ∧ size ≠ 8) ∨ off.toNat % size ≠ 0 →
    exec (.registerRead who off size) s = .next { s with reply := { unsupported := true } } ∧
    exec (.registerWrite who off size v) s = .next { s with reply := { unsupported := true } }) ∧
  (∀ (f : FnId) (off : BitVec 26) (size : Nat) (v : DWord) (s : State), 0 < f.val → (s.fn f.val).tdi = .error →
    exec (.registerRead (.host f) off size) s = .next { s with reply := { unsupported := true } } ∧
    exec (.registerWrite (.host f) off size v) s = .next { s with reply := { unsupported := true } }) ∧
  (∀ (who : Party) (off : BitVec 26) (v : DWord) (s : State), who = .host 0 ∨ who = .camp ∨ who = .cairn → off.toNat % 4 = 0 →
      blkAt s.env.variant (off.toNat / 4096) = none →
    exec (.registerRead who off 4) s = .next { s with reply := {} } ∧ exec (.registerWrite who off 4 v) s = .next { s with reply := {} }) ∧
  (∀ (who : Party) (b : Blk) (pg : Nat) (off : BitVec 26) (v : DWord) (s : State), who = .camp ∨ who = .cairn →
      blkAt s.env.variant pg = some b → ownsPage s b who = true → off.toNat = pg * 4096 + 0x014 →
    ∃ t, exec (.registerWrite who off 4 v) s = .next t ∧ (t.hdr pg).stat = (s.hdr pg).stat &&& ~~~ (v.setWidth 32 &&& b.ints) ∧
        only [.reply, .hdrs] s t) ∧
  (∀ (who : Party) (b : Blk) (pg : Nat) (off : BitVec 26) (v : DWord) (s : State), who = .camp ∨ who = .cairn →
      blkAt s.env.variant pg = some b → ownsPage s b who = true → off.toNat = pg * 4096 + 0x018 →
    ∃ t, exec (.registerWrite who off 4 v) s = .next t ∧ (t.hdr pg).en = ((s.hdr pg).en &&& ~~~ b.ints) ||| (v.setWidth 32 &&& b.ints) ∧
        only [.reply, .hdrs] s t) ∧
  (∀ (who : Party) (b : Blk) (pg : Nat) (page : BitVec 14) (bits : Word) (s : State), who = .camp ∨ who = .cairn →
      blkAt s.env.variant pg = some b → ownsPage s b who = true → page.toNat = pg →
    ∃ t, exec (.blkIntSetWrite who page bits) s = .next t ∧ (t.hdr pg).stat = (s.hdr pg).stat ||| (bits &&& b.ints) ∧ only [.reply, .hdrs,
        .host, .glob] s t) ∧
  (∀ (who : Party) (b : Blk) (pg : Nat) (off : BitVec 26) (v : DWord) (s : State), who = .camp ∨ who = .cairn →
      blkAt s.env.variant pg = some b → b ≠ .mbox → ownsPage s b who = false → off.toNat / 4096 = pg → off.toNat % 4 = 0 →
          off.toNat % 4096 = 0x01C →
    ∃ t, exec (.registerWrite who off 4 v) s = .next t ∧ only [.reply] s t) ∧
  (∀ (who : Party) (b : Blk) (pg : Nat) (off : BitVec 26) (s : State), who = .camp ∨ who = .cairn → blkAt s.env.variant pg = some b →
    (off.toNat = pg * 4096 → exec (.registerRead who off 4) s = .next { s with reply := { value := (BitVec.ofNat 32 (b.ids.1 * 65536 + b.ids.2.2)).setWidth 64 } }) ∧
    (off.toNat = pg * 4096 + 0x014 →
        exec (.registerRead who off 4) s = .next { s with reply := { value := (s.hdr pg).stat.setWidth 64 } }) ∧
    (off.toNat = pg * 4096 + 0x018 → exec (.registerRead who off 4) s = .next { s with reply := { value := (s.hdr pg).en.setWidth 64 } }) ∧
    (off.toNat = pg * 4096 + 0x024 →
        exec (.registerRead who off 4) s = .next { s with reply := { value := (s.hdr pg).perm.setWidth 64 } }) ∧
    (off.toNat = pg * 4096 + 0x020 → ∃ t, exec (.registerRead who off 4) s = .next t ∧ t.reply.value = (s.hdr pg).trans.setWidth 64 ∧
      (clears b who = true → (t.hdr pg).trans = 0) ∧ (clears b who = false → t.hdrs = s.hdrs) ∧ only [.reply, .hdrs] s t))) ∧
  ((∀ (bits events : Word) (s : State), ∃ t, exec (.globalIrqPendClear bits events) s = .next t ∧
    (∀ k, k < 26 → t.glob.pend.getLsbD k = (events.getLsbD k || (s.glob.pend.getLsbD k && !bits.getLsbD k))) ∧
    t.glob.routes = s.glob.routes ∧ only [.host, .glob] s t) ∧
  (∀ (src : Fin 26) (v : Word) (s : State), ∃ t, exec (.globalIrqRouteWrite src v) s = .next t ∧
    (∀ k, t.route k = if k = src.val then v.extractLsb' 0 8 else s.route k) ∧ t.glob.pend = s.glob.pend ∧
    (∀ e, e = fget {} (s.fn 0).vecs (v.toNat % 128) →
      fget {} (t.fn 0).vecs (v.toNat % 128) =
        if (s.route src.val).getLsbD 7 = false ∧ v.getLsbD 7 = true ∧ s.glob.pend.getLsbD src.val = true then
          (if e.masked then { e with pending := true } else { e with sent := e.sent + 1 })
        else e) ∧ only [.host, .glob] s t))

/-- A command from a requester without the role it needs is DENIED and recorded, and with no firmware to answer it nothing
happens. With the role: READ answers the hut book, the ledger, the fault list or a mirror register; SET_BOARD_CAP sets
the cap and ends autonomous mode; MODULE_RESET puts the current generation in force; LEDGER_STAGE, COMMIT and REVERT
keep the generations in order and name the first failing entry; INJECT, FLOOR_RAISE, FAULT_CLEAR and LOG_CLEAR do what
their rules say. The ledger's layout is free (log entry 14). Covers READ, SET_BOARD_CAP, MODULE_RESET, LEDGER_STAGE,
LEDGER_COMMIT, LEDGER_REVERT, FW_STAGE, FW_VERIFY, FW_DISCARD, LATCH_CLEAR, RECOVER, FLOW_RESTART, LEASE_RELEASE,
INJECT, FLOOR_RAISE, FAULT_CLEAR, LOG_CLEAR. Rules: R500, R503, R509, R510, R512, R505, R432, R445, R375, R458, R392,
R472. -/
def Obligations.ManagementCommands : Prop :=
  (∀ (who : Principal) (cap : BitVec 12) (tag : BitVec 16) (bs : List Byte) (dom : FwDomain) (off : BitVec 24) (i : IfId) (g : GroupId)
      (what : ReadWhat) (c : Instr) (need : Role) (rom : Bool) (s : State),
    (c, need, rom) ∈ [(Instr.mgmtRead who what, Role.monitor, true), (.setBoardCap who cap, .operator, false), (.moduleReset who,
        .operator, false),
      (.ledgerStage who tag bs, .operator, false), (.ledgerCommit who, .operator, false), (.ledgerRevert who, .operator, false),
      (.fwStage who dom off bs, .operator, true), (.fwVerify who dom, .operator, true), (.fwDiscard who dom, .operator, false),
      (.latchClear who, .operator, false), (.mgmtRecover who i, .operator, false), (.flowRestart who, .operator, false),
      (.leaseRelease who g, .operator, false), (.mgmtInject who, .service, false), (.floorRaise who dom, .service, false),
      (.faultClear who, .service, false), (.logClear who, .service, false)] →
    (s.cairn.st = .rom ∨ s.cairn.st = .stopped → exec c s = .next { s with reply := {} }) ∧
    ((s.cairn.st = .running ∧ (roleIn s who).rank < need.rank) ∨ (s.cairn.st = .recovery ∧ (rom = false ∨
        (roleIn s who).rank < need.rank)) →
      ∃ t, exec c s = .next t ∧ t.reply.status = some .denied ∧ only [.reply, .hdrs, .hut] s t)) ∧
  ((∀ (who : Principal) (s : State), authorised s who .monitor true →
    exec (.mgmtRead who .hut) s = .next { s with reply := { status := some .ok, bytes := s.hut.book.ring.flatMap (fun e => e.2) } } ∧
    exec (.mgmtRead who .ledger) s = .next { s with reply := { status := some .ok, bytes := genBytes s.cairn.cur } } ∧
    exec (.mgmtRead who .faults) s = .next { s with reply := { status := some .ok, bytes := s.cairn.faults.flatMap FaultEnt.bytes } } ∧
    (∀ off v, mirrorReg s off.toNat = some v →
        exec (.mgmtRead who (.reg off)) s = .next { s with reply := { status := some .ok, value := BitVec.ofNat 64 v } }) ∧
    (∀ off, mirrorReg s off.toNat = none → exec (.mgmtRead who (.reg off)) s = .next { s with reply := { status := some .denied } })) ∧
  (∀ (who : Principal) (cap : BitVec 12) (s : State), authorised s who .operator false →
    ∃ t, exec (.setBoardCap who cap) s = .next t ∧ t.cairn = { s.cairn with boardCap := cap, auto := false } ∧ t.reply.status = some .ok ∧
        only [.reply, .hdrs, .hut, .cairn] s t) ∧
  (∀ (who : Principal) (s : State), authorised s who .operator false →
    ∃ t, exec (.moduleReset who) s = .next t ∧ t.reply.status = some .ok ∧ t.cairn.inforce = s.cairn.cur ∧ t.cool.st = .off ∧
      only [.reply, .env, .hdrs, .cores, .ctls, .ledge, .mesh, .hbm, .arbs, .arbSels, .ctx, .fence, .fab, .host, .glob, .pwr, .sec, .dbg,
          .thm, .cool, .loop, .drv, .hut, .cairn] s t) ∧
  (∀ (who : Principal) (tag : BitVec 16) (bs : List Byte) (s : State), authorised s who .operator false →
    ((entryBytes (s.cairn.staged.getD [] ++ [(tag, bs)])).length + 56 ≤ 8388608 →
      exec (.ledgerStage who tag bs) s = .next { s with cairn := { s.cairn with staged := some (s.cairn.staged.getD [] ++ [(tag, bs)]) }, reply := { status := some .ok } }) ∧
    (8388608 < (entryBytes (s.cairn.staged.getD [] ++ [(tag, bs)])).length + 56 →
      exec (.ledgerStage who tag bs) s = .next { s with reply := { status := some .denied } })) ∧
  (∀ (who : Principal) (s : State), authorised s who .operator false →
    (s.cairn.staged = none → exec (.ledgerCommit who) s = .next { s with reply := { status := some .denied } }) ∧
    (∀ es n, s.cairn.staged = some es → firstFailing s.env.variant es = some n →
      exec (.ledgerCommit who) s = .next { s with reply := { status := some .denied, value := BitVec.ofNat 64 n } }) ∧
    (∀ es, s.cairn.staged = some es → firstFailing s.env.variant es = none → ∃ t, exec (.ledgerCommit who) s = .next t ∧
      t.cairn = { s.cairn with cur := ⟨s.cairn.cur.num + 1, es⟩, prev := some s.cairn.cur, staged := none } ∧ t.reply.status = some .ok ∧
          only [.reply, .hdrs, .hut, .cairn] s t)) ∧
  (∀ (who : Principal) (s : State), authorised s who .operator false →
    (s.cairn.prev = none → exec (.ledgerRevert who) s = .next { s with reply := { status := some .denied } }) ∧
    (∀ p, s.cairn.prev = some p → ∃ t, exec (.ledgerRevert who) s = .next t ∧
      t.cairn = { s.cairn with cur := ⟨s.cairn.cur.num + 1, p.entries⟩, prev := some s.cairn.cur, staged := none } ∧
          t.reply.status = some .ok ∧ only [.reply, .hdrs, .hut, .cairn] s t)) ∧
  (∀ (who : Principal) (s : State), authorised s who .service false →
    exec (.mgmtInject who) s = .next { s with loop := { s.loop with injAuth := who }, reply := { status := some .ok } } ∧
    (∃ t, exec (.faultClear who) s = .next t ∧ t.cairn = { s.cairn with faults := [] } ∧ t.reply.status = some .ok ∧ only [.reply, .hdrs,
        .hut, .cairn] s t) ∧
    (∃ t, exec (.logClear who) s = .next t ∧ t.hut.clears = s.hut.clears + 1 ∧ t.reply.status = some .ok ∧
      (t.hdr pgLog).stat &&& bitMask 1 = bitMask 1 ∧ (s.hut.powerFail = false → t.hut.book.total = 1 ∧ t.hut.book.drop = 0) ∧ only [.reply,
          .hdrs, .host, .glob, .hut] s t)) ∧
  (∀ (who : Principal) (dom : FwDomain) (s : State), authorised s who .service false →
    ∃ t, exec (.floorRaise who dom) s = .next t ∧ t.reply.status = some .ok ∧
      t.sec = (match dom with
        | .camp => { s.sec with campFloor := if s.sec.campRun.toNat ≤ s.sec.campFloor.toNat then s.sec.campFloor else s.sec.campRun }
        | .cairn => { s.sec with cairnFloor := if s.sec.cairnRun.toNat ≤ s.sec.cairnFloor.toNat then s.sec.cairnFloor else s.sec.cairnRun }) ∧
      only [.reply, .hdrs, .sec, .hut] s t))

/-- FW_STAGE writes at most 1 KiB into the staging area of the domain and unmarks it; FW_VERIFY marks an image that
verifies; FW_DISCARD empties the area. RECOVER starts the recovery of a halted interface. LEASE_RELEASE makes a holder
safe and STANDBY. FLOW_RESTART begins a flow proof after a shutdown or a failed proof while POWER_EN is asserted.
LATCH_CLEAR clears the latches whose ropes allow it. Where its condition fails, each is DENIED. What an image's bytes
say is free (log entry 17). Covers FW_STAGE, FW_VERIFY, FW_DISCARD, LATCH_CLEAR, RECOVER, FLOW_RESTART, LEASE_RELEASE.
Rules: R505, R432, R445, R375, R458, R369, R500. -/
def Obligations.FirmwareAndRecoveryCommands : Prop :=
  (∀ (who : Principal) (dom : FwDomain) (off : BitVec 24) (bs : List Byte) (s : State), authorised s who .operator true →
    (1024 < bs.length ∨ FwDomain.size dom < off.toNat + bs.length →
        exec (.fwStage who dom off bs) s = .next { s with reply := { status := some .denied } }) ∧
    (bs.length ≤ 1024 → off.toNat + bs.length ≤ FwDomain.size dom → bs ≠ [] →
      ∃ t, exec (.fwStage who dom off bs) s = .next t ∧ t.reply.status = some .ok ∧
        (∀ a, memGet (t.img (stagingArea dom)).bytes a = if off.toNat ≤ a ∧
            a < off.toNat + bs.length then bs.getD (a - off.toNat) 0 else memGet (s.img (stagingArea dom)).bytes a) ∧
        (t.img (stagingArea dom)).verified = false ∧
            (t.img (stagingArea dom)).len = max (s.img (stagingArea dom)).len (off.toNat + bs.length) ∧
        (∀ k, k ≠ stagingArea dom → t.img k = s.img k) ∧ only [.reply, .cairn] s t)) ∧
  (∀ (who : Principal) (dom : FwDomain) (s : State), authorised s who .operator true →
    ((s.img (stagingArea dom)).len = 0 ∨ imageOk s dom (s.img (stagingArea dom)) = false →
        exec (.fwVerify who dom) s = .next { s with reply := { status := some .denied } }) ∧
    ((s.img (stagingArea dom)).len ≠ 0 → imageOk s dom (s.img (stagingArea dom)) = true →
      ∃ t, exec (.fwVerify who dom) s = .next t ∧ t.reply.status = some .ok ∧
        (∀ k, t.img k = if k = stagingArea dom then { s.img k with verified := true } else s.img k) ∧ only [.reply, .hdrs, .hut,
            .cairn] s t)) ∧
  (∀ (who : Principal) (dom : FwDomain) (s : State), authorised s who .operator false →
    ∃ t, exec (.fwDiscard who dom) s = .next t ∧ t.reply.status = some .ok ∧ (∀ k, t.img k = if k = stagingArea dom then {} else s.img k) ∧
        only [.reply, .cairn] s t) ∧
  (∀ (who : Principal) (i : IfId) (s : State), authorised s who .operator false →
    ((s.can i.val).st ≠ .halted → exec (.mgmtRecover who i) s = .next { s with reply := { status := some .denied } }) ∧
    ((s.can i.val).st = .halted → ∃ t, exec (.mgmtRecover who i) s = .next t ∧ t.reply.status = some .ok ∧
      (∀ k, t.can k = if k = i.val then { s.can k with st := .recovering } else s.can k) ∧ only [.reply, .cbus] s t)) ∧
  (∀ (who : Principal) (g : GroupId) (s : State), authorised s who .operator false →
    ((s.group g.val).st ≠ .holding → exec (.leaseRelease who g) s = .next { s with reply := { status := some .denied } }) ∧
    ((s.group g.val).st = .holding → ∃ t, exec (.leaseRelease who g) s = .next t ∧ t.reply.status = some .ok ∧
      (∀ k, t.group k = if k = g.val then { s.group k with st := .standby, waiting := false } else s.group k) ∧
      (∀ m, m < 6 → (s.group g.val).motors.getLsbD m = true → (t.motor m).st = .stopped) ∧
      (∀ v, v < 4 → (s.group g.val).valves.getLsbD v = true → (t.valve v).st = .idle) ∧
      only [.reply, .hdrs, .host, .glob, .drv, .cbus, .hut] s t)) ∧
  (∀ (who : Principal) (s : State), authorised s who .operator false →
    (s.cairn.powerEn = false ∨ (s.cool.st ≠ .shutdown ∧ (s.cool.st ≠ .off ∨ s.cool.proofFailed = false)) →
      exec (.flowRestart who) s = .next { s with reply := { status := some .denied } }) ∧
    (s.cairn.powerEn = true → s.cool.st = .shutdown ∨ (s.cool.st = .off ∧ s.cool.proofFailed = true) →
      ∃ t, exec (.flowRestart who) s = .next t ∧ t.reply.status = some .ok ∧
        t.cool = { s.cool with st := .proving, window := none, proofFailed := false, proofTs := s.env.ts } ∧
        t.pwr = { s.pwr with caps := { s.pwr.caps with cool := 0 } } ∧
        only [.reply, .hdrs, .host, .glob, .pwr, .cool, .loop, .drv, .hut] s t)) ∧
  (∀ (who : Principal) (s : State), authorised s who .operator false →
    ((∀ r, r < 4 → latchClears s r = false) → exec (.latchClear who) s = .next { s with reply := { status := some .denied } }) ∧
    ((∃ r, r < 4 ∧ latchClears s r = true) → ∃ t, exec (.latchClear who) s = .next t ∧ t.reply.status = some .ok ∧
      (∀ r, r < 4 → t.rope r = if latchClears s r = true then { s.rope r with latch := false } else s.rope r) ∧
      only [.reply, .hdrs, .host, .glob, .drv, .hut] s t))

/-- Each request ends with its half not busy and its completion bit set. FAULT adds an entry to the fault list where its
kind is defined; TRIP and READY are taken, READY reporting the module ready; SEEK moves the index within the generation
in force; EVENT is taken for codes 0x3000 to 0x3FFF; FLUSH copies the hut book; STATUS answers the generation numbers. A
CFGL_DATA read answers the word and advances the index. Response words that no rule names are free (log entry 32).
Covers FAULT, TRIP, READY, SEEK, EVENT, FLUSH, STATUS, CFGL_DATA_READ. Rules: R497, R524, R239, R472, R496, R516, R534. -/
def Obligations.MailboxRequests : Prop :=
  (∀ (kind : Byte) (unit unit2 : BitVec 16) (s : State), ∃ t, exec (.campFault kind unit unit2) s = .next t ∧
    (t.half true).busy = false ∧ (t.hdr pgMbox).stat.getLsbD 1 = true ∧
    t.reply.status = some (if kind.toNat ≤ 6 then .ok else .denied) ∧
    t.cairn.faults = (if kind.toNat ≤ 6 then s.cairn.faults ++ [⟨kind, unit, unit2⟩] else s.cairn.faults) ∧
    only [.reply, .hdrs, .host, .glob, .cairn] s t) ∧
  (∀ (ended : Byte) (diode : BitVec 16) (s : State), ∃ t, exec (.campTrip ended diode) s = .next t ∧
    (t.half true).busy = false ∧ (t.hdr pgMbox).stat.getLsbD 1 = true ∧ t.reply.status = some .ok ∧ only [.reply, .hdrs, .host, .glob,
        .cairn] s t) ∧
  (∀ (svn : Byte) (s : State), ∃ t, exec (.campReady svn) s = .next t ∧
    (t.half true).busy = false ∧ (t.hdr pgMbox).stat.getLsbD 1 = true ∧ t.reply.status = some .ok ∧ t.glob.ready = true ∧
    (s.sec.autoFloor = false → t.sec = { s.sec with campRun := svn.extractLsb' 0 6 }) ∧
    (s.glob.ready = false → (t.hdr pgGlobal).stat = (s.hdr pgGlobal).stat ||| bitMask 1) ∧
    only [.reply, .hdrs, .host, .glob, .sec, .hut, .cairn] s t) ∧
  (∀ (idx : Word) (s : State), ∃ t, exec (.campSeek idx) s = .next t ∧
    (t.half true).busy = false ∧ (t.hdr pgMbox).stat.getLsbD 1 = true ∧
    t.reply.status = some (if idx.toNat < genWords s.cairn.inforce then .ok else .denied) ∧
    t.cairn.cfgIdx = (if idx.toNat < genWords s.cairn.inforce then BitVec.ofNat 21 idx.toNat else s.cairn.cfgIdx) ∧
    only [.reply, .hdrs, .host, .glob, .cairn] s t) ∧
  (∀ (code value : BitVec 16) (arg : DWord) (s : State), ∃ t, exec (.hostEvent code value arg) s = .next t ∧
    (t.half false).busy = false ∧ (t.hdr pgMbox).stat.getLsbD 0 = true ∧
    t.reply.status = some (if 0x3000 ≤ code.toNat ∧ code.toNat ≤ 0x3FFF then .ok else .denied) ∧
    (0x3000 ≤ code.toNat ∧ code.toNat ≤ 0x3FFF → s.hut.powerFail = false → t.hut.book.total = s.hut.book.total + 1) ∧
    (¬ (0x3000 ≤ code.toNat ∧ code.toNat ≤ 0x3FFF) → t.hut = s.hut) ∧
    only [.reply, .hdrs, .host, .glob, .hut, .cairn] s t) ∧
  (∀ (s : State), ∃ t, exec .hostFlush s = .next t ∧
    (t.half false).busy = false ∧ (t.hdr pgMbox).stat.getLsbD 0 = true ∧ t.reply.status = some .ok ∧
    t.hut = { s.hut with flash := s.hut.book } ∧ (t.hdr pgLog).stat = (s.hdr pgLog).stat ||| bitMask 0 ∧
    only [.reply, .hdrs, .host, .glob, .hut, .cairn] s t) ∧
  (∀ (s : State), ∃ t, exec .hostStatus s = .next t ∧
    (t.half false).busy = false ∧ (t.hdr pgMbox).stat.getLsbD 0 = true ∧ t.reply.status = some .ok ∧
    fget 0 (t.half false).rsp 1 = s.cairn.cur.num ∧ fget 0 (t.half false).rsp 2 = ((s.cairn.prev.map (·.num)).getD 0) ∧
    fget 0 (t.half false).rsp 3 = s.cairn.inforce.num ∧
    only [.reply, .hdrs, .host, .glob, .cairn] s t) ∧
  (∀ (s : State), ∃ t, exec .cfglDataRead s = .next t ∧ t.cairn = { s.cairn with cfgIdx := s.cairn.cfgIdx + 1 } ∧
    (s.cairn.cfgIdx.toNat < genWords s.cairn.inforce → t.reply.value = (genWord s.cairn.inforce s.cairn.cfgIdx.toNat).setWidth 64) ∧
        only [.reply, .cairn] s t)

/-- On a ring of a TDI in ERROR they are unsupported. A tail or limit beyond the ring's size, or behind the last one, puts
the ring in error 2 and raises it; another is stored. Enabling a ring with a size of 2^4 to 2^15 clears it and starts
it; another size leaves it disabled with error 4. The physical function has one admin pair. Covers SQ_DOORBELL,
CQ_DOORBELL, SQ_ENABLE, CQ_ENABLE. Rules: R301, R298, R299, R314. -/
def Obligations.RingCommands : Prop :=
  (∀ (f : FnId) (i : RingId) (v : Word) (s : State), 0 < f.val → (s.fn f.val).tdi = .error →
    ∀ c ∈ [Instr.sqDoorbell f i v, .cqDoorbell f i v, .sqEnable f i v, .cqEnable f i v],
        exec c s = .next { s with reply := { unsupported := true } }) ∧
  (∀ (f : FnId) (i : RingId) (v : Word) (s : State), f.val = 0 → i.val ≠ 0 →
    ∀ c ∈ [Instr.sqDoorbell f i v, .cqDoorbell f i v, .sqEnable f i v, .cqEnable f i v], exec c s = .next s) ∧
  (∀ (f : FnId) (i : RingId) (v : Word) (s : State) (q : SqRing), (f.val = 0 ∧ i.val = 0) ∨ (0 < f.val ∧ (s.fn f.val).tdi ≠ .error) →
      q = s.sq f.val i.val →
    (q.en = false ∨ q.st = 2 → exec (.sqDoorbell f i v) s = .next s) ∧
    (q.en = true → q.st ≠ 2 → (v.setWidth 16 - q.head).toNat ≤ 2 ^ q.log2.toNat → (q.tail - q.head).toNat ≤ (v.setWidth 16 - q.head).toNat →
      ∃ t, exec (.sqDoorbell f i v) s = .next t ∧
        (∀ g j, t.sq g j = if g = f.val ∧ j = i.val then { q with tail := v.setWidth 16 } else s.sq g j) ∧ only [.host] s t) ∧
    (q.en = true → q.st ≠ 2 → 2 ^ q.log2.toNat < (v.setWidth 16 - q.head).toNat ∨ (v.setWidth 16 - q.head).toNat < (q.tail - q.head).toNat →
      ∃ t, exec (.sqDoorbell f i v) s = .next t ∧
        (∀ g j, t.sq g j = if g = f.val ∧ j = i.val then { q with err := 2 } else s.sq g j) ∧
        (t.hdr (fnPage f.val)).stat = (s.hdr (fnPage f.val)).stat ||| bitMask 1 ∧ only [.hdrs, .host, .glob] s t) ∧
    (v.getLsbD 8 = false → ∃ t, exec (.sqEnable f i v) s = .next t ∧
        (∀ g j, t.sq g j = if g = f.val ∧ j = i.val then { q with
          log2 := newLog2 q.en q.log2 v, cq := if f.val = 0 then 0 else BitVec.ofNat 2 (v.toNat / 32), en := false, st := 0 } else s.sq g j) ∧ only [.host] s t) ∧
    (v.getLsbD 8 = true → q.en = false → 4 ≤ (newLog2 q.en q.log2 v).toNat ∧ (newLog2 q.en q.log2 v).toNat ≤ 15 → ∃ t,
        exec (.sqEnable f i v) s = .next t ∧
        (∀ g j, t.sq g j = if g = f.val ∧ j = i.val then { q with
          log2 := newLog2 q.en q.log2 v, cq := if f.val = 0 then 0 else BitVec.ofNat 2 (v.toNat / 32), en := true, st := 1, err := 0, head := 0, tail := 0 } else s.sq g j) ∧ only [.host] s t) ∧
    (v.getLsbD 8 = true → q.en = false → ¬ (4 ≤ (newLog2 q.en q.log2 v).toNat ∧ (newLog2 q.en q.log2 v).toNat ≤ 15) → ∃ t,
        exec (.sqEnable f i v) s = .next t ∧
        (t.sq f.val i.val).en = false ∧ (t.sq f.val i.val).err = 4 ∧
            (t.hdr (fnPage f.val)).stat = (s.hdr (fnPage f.val)).stat ||| bitMask 1 ∧ only [.hdrs, .host, .glob] s t)) ∧
  (∀ (f : FnId) (i : RingId) (v : Word) (s : State) (q : CqRing), (f.val = 0 ∧ i.val = 0) ∨ (0 < f.val ∧ (s.fn f.val).tdi ≠ .error) →
      q = s.cq f.val i.val →
    (q.en = false → exec (.cqDoorbell f i v) s = .next s) ∧
    (q.en = true → (v.setWidth 16 - q.tail).toNat ≤ 2 ^ q.log2.toNat → (q.limit - q.tail).toNat ≤ (v.setWidth 16 - q.tail).toNat →
      ∃ t, exec (.cqDoorbell f i v) s = .next t ∧
        (∀ g j, t.cq g j = if g = f.val ∧ j = i.val then { q with limit := v.setWidth 16 } else s.cq g j) ∧ only [.host] s t) ∧
    (q.en = true → 2 ^ q.log2.toNat < (v.setWidth 16 - q.tail).toNat ∨ (v.setWidth 16 - q.tail).toNat < (q.limit - q.tail).toNat →
      ∃ t, exec (.cqDoorbell f i v) s = .next t ∧
        (∀ g j, t.cq g j = if g = f.val ∧ j = i.val then { q with err := true } else s.cq g j) ∧
        (t.hdr (fnPage f.val)).stat = (s.hdr (fnPage f.val)).stat ||| bitMask 2 ∧ only [.hdrs, .host, .glob] s t) ∧
    (v.getLsbD 31 = true → q.en = false → 4 ≤ (newLog2 q.en q.log2 v).toNat ∧ (newLog2 q.en q.log2 v).toNat ≤ 15 → ∃ t,
        exec (.cqEnable f i v) s = .next t ∧
        (∀ g j, t.cq g j = if g = f.val ∧ j = i.val then { q with
          log2 := newLog2 q.en q.log2 v, vec := BitVec.ofNat 7 (v.toNat / 256), coalCnt := BitVec.ofNat 8 (v.toNat / 65536), en := true, tail := 0, limit := 0, since := 0 } else s.cq g j) ∧ only [.host] s t) ∧
    (v.getLsbD 31 = false → ∃ t, exec (.cqEnable f i v) s = .next t ∧
        (∀ g j, t.cq g j = if g = f.val ∧ j = i.val then { q with
          log2 := newLog2 q.en q.log2 v, vec := BitVec.ofNat 7 (v.toNat / 256), coalCnt := BitVec.ofNat 8 (v.toNat / 65536), en := false } else s.cq g j) ∧ only [.host] s t))

/-- Commands of a function whose context is DISABLED or DRAINING complete DENIED, and of a SCRUBBING one with SCRUBBING; the
physical function may not send those of a context. PITCH that passes its checks joins the context's queue. ADMIT
compares the footprint with the partition. BIND binds the lowest-numbered FREE slot, and is DENIED where none is free or
the quota is used; UNBIND releases a slot of its own. NOP waits for the commands before it. CTXRD reads a register of a
context's page, and a CTXWR that a rule refuses sets CTX_REFUSE. Covers PITCH, COLL, WCOPY, BIND, UNBIND, ADMIT, WPAGE,
NOP, CTXRD, CTXWR, SEAL_OPEN, SEAL_ROTATE, SEAL_KEY, SEAL_PAGE. Rules: R210. -/
def Obligations.SubmissionCommands : Prop :=
  ((∀ (src : CmdSrc) (x : CtxId) (bs : List Byte) (op : Byte) (rank slot : BitVec 16) (a b d : DWord) (w w2 : Word) (tb : Byte) (s : State) (c : Instr),
    c ∈ [Instr.coll src bs, .wcopy src op rank a b d, .bind src, .unbind src slot, .admitCmd src a w, .sealOpen src a w w2,
        .sealRotate src a, .sealKey src a tb,
      .sealPage src w tb a] →
    (src.fn.val = 0 ∨ (src.fn.val = x.val + 1 ∧ ((s.cx x.val).st = .disabled ∨ (s.cx x.val).st = .draining)) →
      ∃ t, exec c s = .next t ∧ completed s t src .denied 0 ∧ only [.reply, .hdrs, .host, .glob] s t) ∧
    (src.fn.val = x.val + 1 → (s.cx x.val).st = .scrubbing →
      ∃ t, exec c s = .next t ∧ completed s t src .scrubbing 0 ∧ only [.reply, .hdrs, .host, .glob] s t)) ∧
  (∀ (src : CmdSrc) (x : CtxId) (first count : BitVec 16) (st : Byte) (target : Word) (s : State) (c : Instr), c ∈ [Instr.nop src,
      .wpage src first count st target] → src.fn.val = x.val + 1 →
    ((s.cx x.val).st = .disabled ∨ (s.cx x.val).st = .draining → ∃ t, exec c s = .next t ∧ completed s t src .denied 0 ∧ only [.reply,
        .hdrs, .host, .glob] s t) ∧
    ((s.cx x.val).st = .scrubbing → ∃ t, exec c s = .next t ∧ completed s t src .scrubbing 0 ∧ only [.reply, .hdrs, .host, .glob] s t)) ∧
  (∀ (src : CmdSrc) (x : CtxId) (lcore : Byte) (desc : DWord) (s : State),
    (src.fn.val = 0 ∨ (src.fn.val = x.val + 1 ∧ ((s.cx x.val).st = .disabled ∨ (s.cx x.val).st = .draining)) →
      ∃ t, exec (.pitch src lcore desc) s = .next t ∧ t.reply.status = some .denied ∧ only [.reply, .hdrs, .host, .glob] s t) ∧
    (src.fn.val = x.val + 1 → (s.cx x.val).st = .scrubbing →
      ∃ t, exec (.pitch src lcore desc) s = .next t ∧ t.reply.status = some .scrubbing ∧ only [.reply, .hdrs, .host, .glob] s t) ∧
    (src.fn.val = x.val + 1 → (s.cx x.val).st = .enabled → s.fence.logicalCount ≤ lcore.toNat ∨
        (s.cx x.val).team.getLsbD lcore.toNat = false →
      ∃ t, exec (.pitch src lcore desc) s = .next t ∧ t.reply.status = some .denied ∧ only [.reply, .hdrs, .host, .glob] s t) ∧
    (∀ bs, src.fn.val = x.val + 1 → (s.cx x.val).st = .enabled → lcore.toNat < s.fence.logicalCount →
        (s.cx x.val).team.getLsbD lcore.toNat = true →
      (s.sx x.val).sealedCtx = false → gaOk desc = true → inPartition (s.cx x.val) (gaSpace desc) (gaOff desc) 128 = true →
          gaRead s x.val desc 128 = some bs →
      descRefusal s x.val bs (PitchDesc.ofBytes bs) = none →
      ∃ t, exec (.pitch src lcore desc) s = .next t ∧
        (∀ y, t.cx y = if y = x.val then { s.cx x.val with queue := (s.cx x.val).queue ++ [{ desc := PitchDesc.ofBytes bs, ctx := x, lcore := lcore, src := some src }] } else s.cx y) ∧
        only [.ctx] s t))) ∧
  ((∀ (src : CmdSrc) (x : CtxId) (hbm : DWord) (ledge : Word) (s : State), src.fn.val = x.val + 1 → (s.cx x.val).st = .enabled →
    ∃ t, exec (.admitCmd src hbm ledge) s = .next t ∧
      completed s t src (if hbm.toNat ≤ (s.cx x.val).hbmSize.toNat * unit64M ∧
          ledge.toNat ≤ ((s.cx x.val).lmap.filter (fun e => e.2.getLsbD 15)).length then .ok else .footprint) 0 ∧
      only [.reply, .hdrs, .host, .glob] s t) ∧
  (∀ (src : CmdSrc) (x : CtxId) (s : State), src.fn.val = x.val + 1 → (s.cx x.val).st = .enabled →
    (∀ i, (List.range 256).find? (fun i => (fget {} s.ctx.sqs i).ctx.isNone) = some i → usedSlots s x < (s.cx x.val).quota.toNat →
      ∃ t, exec (.bind src) s = .next t ∧ completed s t src .ok i ∧ t.ctx = { s.ctx with sqs := fput {} i ⟨some x, false⟩ s.ctx.sqs } ∧
          only [.reply, .hdrs, .ctx, .host, .glob] s t) ∧
    ((List.range 256).find? (fun i => (fget {} s.ctx.sqs i).ctx.isNone) = none ∨ (s.cx x.val).quota.toNat ≤ usedSlots s x →
      ∃ t, exec (.bind src) s = .next t ∧ completed s t src .denied 0 ∧ only [.reply, .hdrs, .host, .glob] s t)) ∧
  (∀ (src : CmdSrc) (x : CtxId) (slot : BitVec 16) (s : State), src.fn.val = x.val + 1 → (s.cx x.val).st = .enabled →
    (slot.toNat < 256 → fget {} s.ctx.sqs slot.toNat = ⟨some x, false⟩ →
      ∃ t, exec (.unbind src slot) s = .next t ∧ completed s t src .ok 0 ∧
          t.ctx = { s.ctx with sqs := fput {} slot.toNat ⟨some x, true⟩ s.ctx.sqs } ∧ only [.reply, .hdrs, .ctx, .host, .glob] s t) ∧
    (256 ≤ slot.toNat ∨ fget {} s.ctx.sqs slot.toNat ≠ ⟨some x, false⟩ →
      ∃ t, exec (.unbind src slot) s = .next t ∧ completed s t src .denied 0 ∧ only [.reply, .hdrs, .host, .glob] s t)) ∧
  (∀ (src : CmdSrc) (s : State), src.fn.val = 0 → (s.fn 0).nops = [] → (s.sq 0 src.sq.val).inFlight = [] →
    ∃ t, exec (.nop src) s = .next t ∧ (t.fn 0).hold = (s.fn 0).hold ++ [recordFor src 2 (genericRec .ok 0 s) s] ∧ (t.fn 0).nops = [] ∧
        only [.hdrs, .host, .glob] s t) ∧
  (∀ (src : CmdSrc) (k : BitVec 16) (ks : List (BitVec 16)) (s : State), src.fn.val = 0 → (s.fn 0).nops = [] →
      (s.sq 0 src.sq.val).inFlight = k :: ks → k ≠ src.index →
    ∃ t, exec (.nop src) s = .next t ∧ (t.fn 0).hold = (s.fn 0).hold ∧ (t.fn 0).nops = [src] ∧ only [.host] s t) ∧
  (∀ (src : CmdSrc) (ctx : Byte) (off : BitVec 16) (v : Word) (s : State), src.fn.val ≠ 0 ∨ 16 ≤ ctx.toNat ∨ off.toNat % 4 ≠ 0 ∨
      0x1000 ≤ off.toNat →
    ∀ c ∈ [Instr.ctxrd src ctx off, .ctxwr src ctx off v], ∃ t, exec c s = .next t ∧ completed s t src .denied 0 ∧ only [.reply, .hdrs,
        .host, .glob] s t) ∧
  (∀ (src : CmdSrc) (ctx : Byte) (off : BitVec 16) (s : State), src.fn.val = 0 → ctx.toNat < 16 → off.toNat % 4 = 0 → 0x040 ≤ off.toNat →
      off.toNat < 0x1000 →
    ∃ t, exec (.ctxrd src ctx off) s = .next t ∧ completed s t src .ok (ctxRegs s ctx.toNat off.toNat) ∧ only [.reply, .hdrs, .host,
        .glob] s t) ∧
  (∀ (src : CmdSrc) (ctx : Byte) (off : BitVec 16) (v : Word) (r : Nat) (s : State), src.fn.val = 0 → ctx.toNat < 16 → off.toNat % 4 = 0 →
      off.toNat < 0x1000 →
      ctxwrRefusal s ctx.toNat off.toNat v = some r →
    ∃ t, exec (.ctxwr src ctx off v) s = .next t ∧ t.reply = { status := some .denied } ∧ t.ctx.refReason = BitVec.ofNat 4 r ∧
        t.ctx.refCtx = BitVec.ofNat 4 ctx.toNat ∧
      t.ctx.ctxs = s.ctx.ctxs ∧ only [.reply, .hdrs, .ctx, .host, .glob, .evts] s t))

/-- COLL checks its descriptor (DENIED, FOOTPRINT), then takes its slot: a receiver of a broadcast waits, and every other
rank starts with its own data read. WCOPY checks its operands; a copy of no bytes completes OK and a copy of one block
enters the list of copies and sends its block. WPAGE, where no page refuses, turns each NONE page at once and leaves the
others pending, and completes OK when none is left; its page numbers are relative to the function's range. A CTXWR that
no rule refuses writes the register and completes OK. SEAL_OPEN and SEAL_ROTATE write an offer for epoch 0 and for the
next epoch; SEAL_KEY takes a package that passes and makes its epoch current; SEAL_PAGE decrypts a page whose tag holds
into the range and marks it LOADED, and counts a tag that fails. Offers, packages, keys and tags are free functions (log
entry 20). Covers COLL, WCOPY, WPAGE, CTXWR, SEAL_OPEN, SEAL_ROTATE, SEAL_KEY, SEAL_PAGE. Rules: R271, R274, R296, R304,
R478, R479, R480, R305. -/
def Obligations.TransferAndSealCommands : Prop :=
  (-- COLL
  (∀ (src : CmdSrc) (x : CtxId) (d : List Byte) (s : State), src.fn.val = x.val + 1 → (s.cx x.val).st = .enabled →
    3 < leAt d 0 1 ∨ 1 < leAt d 1 1 ∨ 15 < leAt d 2 1 ∨ leAt d 3 1 ≠ 0 ∨ leAt d 6 2 = 0 ∨ (s.fx x.val).valid = false ∨
      groupSize s x.val ≤ (s.fx x.val).rank.toNat ∨ leAt d 24 4 = 0 ∨ (s.coll x.val (leAt d 2 1)).isSome = true →
    ∃ t, exec (.coll src d) s = .next t ∧ completed s t src .denied 0 ∧ only [.reply, .hdrs, .host, .glob] s t) ∧
  (∀ (src : CmdSrc) (x : CtxId) (d : List Byte) (k : Nat) (c : Coll) (s : State), src.fn.val = x.val + 1 → (s.cx x.val).st = .enabled →
    c = { op := leAt d 0 1, dtype := leAt d 1 1, root := leAt d 4 2, src := BitVec.ofNat 64 (leAt d 8 8), dst := BitVec.ofNat 64 (leAt d 16 8),
          count := leAt d 24 4, cmd := src } → k = leAt d 2 1 →
    c.op ≤ 3 → c.dtype ≤ 1 → k ≤ 15 → leAt d 3 1 = 0 → leAt d 6 2 ≠ 0 → gaOk c.src = true → gaOk c.dst = true → (c.op ≤ 1 →
        c.root < groupSize s x.val) →
    (s.fx x.val).valid = true → (s.fx x.val).rank.toNat < groupSize s x.val → c.count ≠ 0 → s.coll x.val k = none →
    meetsSealed s x.val (gaSpace c.src) (gaOff c.src) c.bytes = false →
    meetsSealed s x.val (gaSpace c.dst) (gaOff c.dst) (if c.op = 3 then groupSize s x.val * c.bytes else c.bytes) = false →
    (inPartition (s.cx x.val) (gaSpace c.src) (gaOff c.src) c.bytes = false ∨
        inPartition (s.cx x.val) (gaSpace c.dst) (gaOff c.dst) (if c.op = 3 then groupSize s x.val * c.bytes else c.bytes) = false →
      ∃ t, exec (.coll src d) s = .next t ∧ completed s t src .footprint 0 ∧ only [.reply, .hdrs, .host, .glob] s t) ∧
    (inPartition (s.cx x.val) (gaSpace c.src) (gaOff c.src) c.bytes = true →
      inPartition (s.cx x.val) (gaSpace c.dst) (gaOff c.dst) (if c.op = 3 then groupSize s x.val * c.bytes else c.bytes) = true →
      (c.op = 0 → (s.fx x.val).rank.toNat ≠ c.root → ∃ t, exec (.coll src d) s = .next t ∧ t.coll x.val k = some c ∧ only [.fab] s t) ∧
      (∀ own, ¬ (c.op = 0 ∧ (s.fx x.val).rank.toNat ≠ c.root) → gaRead s x.val c.src c.bytes = some own →
        ∃ u, exec (.coll src d) s = .next (castStep x k (reduceStep x k u)) ∧ u.coll x.val k = some { c with own := own } ∧
            only [.fab] s u))) ∧
  -- WCOPY
  (∀ (src : CmdSrc) (x : CtxId) (op : Byte) (rank : BitVec 16) (addr off len : DWord) (s : State), src.fn.val = x.val + 1 →
      (s.cx x.val).st = .enabled →
    (1 < op.toNat ∨ gaOk addr = false ∨ off.toNat % 256 ≠ 0 ∨ len.toNat % 256 ≠ 0 ∨ (s.fx x.val).valid = false ∨
        groupSize s x.val ≤ rank.toNat →
      ∃ t, exec (.wcopy src op rank addr off len) s = .next t ∧ completed s t src .denied 0 ∧ only [.reply, .hdrs, .host, .glob] s t) ∧
    (op.toNat ≤ 1 → gaOk addr = true → off.toNat % 256 = 0 → len.toNat % 256 = 0 → (s.fx x.val).valid = true →
        rank.toNat < groupSize s x.val →
      off.toNat / 256 + len.toNat / 256 ≤ 2 ^ 30 → meetsSealed s x.val (gaSpace addr) (gaOff addr) len.toNat = false →
      (inPartition (s.cx x.val) (gaSpace addr) (gaOff addr) len.toNat = false →
        ∃ t, exec (.wcopy src op rank addr off len) s = .next t ∧ completed s t src .footprint 0 ∧ only [.reply, .hdrs, .host, .glob] s t) ∧
      (inPartition (s.cx x.val) (gaSpace addr) (gaOff addr) len.toNat = true → len.toNat = 0 →
        ∃ t, exec (.wcopy src op rank addr off len) s = .next t ∧ completed s t src .ok 0 ∧ only [.reply, .hdrs, .host, .glob] s t) ∧
      (∀ node data, inPartition (s.cx x.val) (gaSpace addr) (gaOff addr) len.toNat = true → len.toNat = 256 →
          nodeOfRank s x.val rank.toNat = some node →
        gaRead s x.val addr (if op.toNat = 1 then 256 else 0) = some data →
        ∃ u, exec (.wcopy src op rank addr off len) s = .next (emitLater (mkBlock u node (u.fx x.val).job (if op.toNat = 1 then tyWinWr else tyWinRd) 0 4
            (off.toNat / 256 % 2 ^ 26) (off.toNat / 256 / 2 ^ 26) (data.take 256)) (some x) none u) ∧
          u.fab.copies = s.fab.copies ++ [{ cmd := src, ctx := x, write := op.toNat == 1, node := node, addr := addr, first := off.toNat / 256, left := [off.toNat / 256] }] ∧
          only [.fab] s u))) ∧
  -- WPAGE
  (∀ (src : CmdSrc) (x : CtxId) (first count : BitVec 16) (st : Byte) (target : Word) (s : State), src.fn.val = x.val + 1 →
      (s.cx x.val).st = .enabled →
    (count.toNat = 0 ∨ 512 < first.toNat + count.toNat ∨ 2 < st.toNat →
      ∃ t, exec (.wpage src first count st target) s = .next t ∧ completed s t src .denied 0 ∧ only [.reply, .hdrs, .host, .glob] s t) ∧
    (count.toNat ≠ 0 → first.toNat + count.toNat ≤ 512 → st.toNat ≤ 2 →
      (∀ i, i < count.toNat → pageRefusal s (512 * x.val + first.toNat + i) (pageCode st.toNat) (target.toNat + i) = none) →
      ∃ t, exec (.wpage src first count st target) s = .next t ∧
        (∀ i, i < count.toNat → t.page (512 * x.val + first.toNat + i) =
          let p := s.page (512 * x.val + first.toNat + i)
          if p.st = pageCode st.toNat then p
          else if p.st = .none then { st := pageCode st.toNat, target := BitVec.ofNat 18 (target.toNat + i), pend := none }
          else { p with pend := some (pageCode st.toNat) }) ∧
        (∀ k, k < 512 * x.val + first.toNat ∨ 512 * x.val + first.toNat + count.toNat ≤ k → t.page k = s.page k) ∧
        ((∀ i, i < count.toNat → (s.page (512 * x.val + first.toNat + i)).st = pageCode st.toNat ∨
            (s.page (512 * x.val + first.toNat + i)).st = .none) →
          t.reply = { status := some .ok }) ∧
        (∀ i, i < count.toNat → (s.page (512 * x.val + first.toNat + i)).st ≠ pageCode st.toNat →
            (s.page (512 * x.val + first.toNat + i)).st ≠ .none →
          only [.host] s t) ∧
        only [.reply, .hdrs, .host, .glob] s t)) ∧
  -- CTXWR
  (∀ (src : CmdSrc) (ctx : Byte) (off : BitVec 16) (v : Word) (s : State), src.fn.val = 0 → ctx.toNat < 16 → off.toNat % 4 = 0 →
      off.toNat < 0x1000 →
      ctxwrRefusal s ctx.toNat off.toNat v = none →
    exec (.ctxwr src ctx off v) s = .next (finishGeneric src .ok 0
      (if off.toNat < 0x040 then hdrWrite pgCtx .ctx off.toNat v s else ctxRegWrite ctx.toNat off.toNat v s)) ∧
    (finishGeneric src .ok 0 (if off.toNat < 0x040 then hdrWrite pgCtx .ctx off.toNat v s else ctxRegWrite ctx.toNat off.toNat v s)).reply = { status := some .ok })) ∧
  (-- SEAL_OPEN
  (∀ (src : CmdSrc) (x : CtxId) (a : DWord) (base size : Word) (o : List Byte) (s : State), src.fn.val = x.val + 1 →
      (s.cx x.val).st = .enabled →
    o = Config.offerBytes s.fresh (offerFacts s x.val base.toNat size.toNat 0) →
    ((s.sx x.val).sealedCtx = true ∨ (s.sx x.val).started = true ∨ rangeMapped s x.val base.toNat size.toNat = true ∨
        s.sec.trngFailX = true →
      ∃ t, exec (.sealOpen src a base size) s = .next t ∧ completed s t src .denied 0 ∧ only [.reply, .hdrs, .host, .glob] s t) ∧
    ((s.sx x.val).sealedCtx = false → (s.sx x.val).started = false → rangeMapped s x.val base.toNat size.toNat = false →
        s.sec.trngFailX = false →
      ((s.cx x.val).hbmSize.toNat * unit64M < (base.toNat + size.toNat) * 2 ^ 21 →
        ∃ t, exec (.sealOpen src a base size) s = .next t ∧ completed s t src .footprint 0 ∧ only [.reply, .hdrs, .host, .glob] s t) ∧
      ((base.toNat + size.toNat) * 2 ^ 21 ≤ (s.cx x.val).hbmSize.toNat * unit64M →
        gaOk a = true → gaSpace a = 2 → inPartition (s.cx x.val) 2 (gaOff a) o.length = true →
        (gaOff a + o.length ≤ (BitVec.ofNat 18 base.toNat).toNat * 2 ^ 21 ∨
          (BitVec.ofNat 18 base.toNat).toNat * 2 ^ 21 + (BitVec.ofNat 18 size.toNat).toNat * 2 ^ 21 ≤ gaOff a) →
        ∃ t, exec (.sealOpen src a base size) s = .next t ∧ t.reply = { status := some .ok } ∧
          (∀ y, t.sx y = if y = x.val then { s.sx x.val with
            sealedCtx := true, base := BitVec.ofNat 18 base.toNat, size := BitVec.ofNat 18 size.toNat, complete := false, offered := some 0, offer := o } else s.sx y) ∧
          t.hbm = (gaWrite x.val a o s).hbm ∧ t.fresh = s.fresh + 1 ∧ only [.reply, .hdrs, .ledge, .hbm, .host, .glob, .sec,
              .fresh] s t))) ∧
  -- SEAL_ROTATE
  (∀ (src : CmdSrc) (x : CtxId) (a : DWord) (s : State), src.fn.val = x.val + 1 → (s.cx x.val).st = .enabled →
    ((s.sx x.val).sealedCtx = false ∨ (s.sx x.val).cur = none ∨ s.sec.trngFailX = true →
      ∃ t, exec (.sealRotate src a) s = .next t ∧ completed s t src .denied 0 ∧ only [.reply, .hdrs, .host, .glob] s t) ∧
    (∀ (e : Byte) (o : List Byte), (s.sx x.val).cur = some e →
      (254 ≤ e.toNat → ∃ t, exec (.sealRotate src a) s = .next t ∧ completed s t src .denied 0 ∧ only [.reply, .hdrs, .host, .glob] s t) ∧
      ((s.sx x.val).sealedCtx = true → s.sec.trngFailX = false → e.toNat < 254 →
        o = Config.offerBytes s.fresh (offerFacts s x.val (s.sx x.val).base.toNat (s.sx x.val).size.toNat (e.toNat + 1)) →
            sealAddrOk s x.val a o.length = true →
        ∃ t, exec (.sealRotate src a) s = .next t ∧ t.reply = { status := some .ok } ∧
          (∀ y, t.sx y = if y = x.val then { s.sx x.val with offered := some (BitVec.ofNat 8 (e.toNat + 1)), offer := o } else s.sx y) ∧
          t.hbm = (gaWrite x.val a o s).hbm ∧ t.fresh = s.fresh + 1 ∧ only [.reply, .hdrs, .ledge, .hbm, .host, .glob, .sec,
              .fresh] s t))) ∧
  -- SEAL_KEY
  (∀ (src : CmdSrc) (x : CtxId) (a : DWord) (epoch : Byte) (s : State), src.fn.val = x.val + 1 → (s.cx x.val).st = .enabled →
    ((s.sx x.val).sealedCtx = false ∨ (s.sx x.val).offered ≠ some epoch ∨ sealAddrOk s x.val a Config.packageSize = false →
      ∃ t, exec (.sealKey src a epoch) s = .next t ∧ completed s t src .denied 0 ∧ only [.reply, .hdrs, .host, .glob] s t) ∧
    (∀ p, (s.sx x.val).sealedCtx = true → (s.sx x.val).offered = some epoch → sealAddrOk s x.val a Config.packageSize = true →
        gaRead s x.val a Config.packageSize = some p →
      (packageOk (s.sx x.val) epoch p = false →
        ∃ t, exec (.sealKey src a epoch) s = .next t ∧ completed s t src .denied 0 ∧ only [.reply, .hdrs, .host, .glob] s t) ∧
      (packageOk (s.sx x.val) epoch p = true →
        ∃ t, exec (.sealKey src a epoch) s = .next t ∧ t.reply = { status := some .ok } ∧
          (t.sx x.val).cur = some epoch ∧ (t.sx x.val).curKey = Config.pageKey (s.sx x.val).offer (Config.packageStr p 3) ∧
          (t.sx x.val).prev = (s.sx x.val).cur ∧ (t.sx x.val).prevKey = (s.sx x.val).curKey ∧ (t.sx x.val).offered = none ∧
          (t.sx x.val).model = Config.packageStr p 1 ∧ (t.sx x.val).pageCount = Config.packageNat p 1 ∧
              (t.sx x.val).loaded = (s.sx x.val).loaded ∧
          (t.sx x.val).vendorKey = (if epoch = 0 then Config.packageStr p 0 else (s.sx x.val).vendorKey) ∧
          (∀ y, y ≠ x.val → t.sx y = s.sx y) ∧ only [.reply, .hdrs, .host, .glob, .sec, .evts] s t))) ∧
  -- SEAL_PAGE
  (∀ (src : CmdSrc) (x : CtxId) (i : Word) (epoch : Byte) (a : DWord) (s : State), src.fn.val = x.val + 1 → (s.cx x.val).st = .enabled →
    ((s.sx x.val).sealedCtx = false ∨ ((s.sx x.val).cur ≠ some epoch ∧ (s.sx x.val).prev ≠ some epoch) ∨
        65536 ≤ fget 0 (s.sx x.val).perEpoch epoch.toNat ∨
        (fget none (s.sx x.val).loaded i.toNat).isSome = true ∨ sealAddrOk s x.val a 2097216 = false →
      ∃ t, exec (.sealPage src i epoch a) s = .next t ∧ completed s t src .denied 0 ∧ only [.reply, .hdrs, .host, .glob] s t) ∧
    (∀ key, (s.sx x.val).sealedCtx = true → epochKey (s.sx x.val) epoch = some key → fget 0 (s.sx x.val).perEpoch epoch.toNat < 65536 →
      fget none (s.sx x.val).loaded i.toNat = none → sealAddrOk s x.val a 2097216 = true →
      ((s.sx x.val).pageCount ≤ i.toNat →
        ∃ t, exec (.sealPage src i epoch a) s = .next t ∧ completed s t src .footprint 0 ∧ only [.reply, .hdrs, .host, .glob] s t) ∧
      (∀ bs, i.toNat < (s.sx x.val).pageCount → gaRead s x.val a 2097216 = some bs →
        ((bs.drop 2097152).take 16 = Config.pageTag key epoch.toNat i.toNat (s.sx x.val).model (bs.take 2097152) →
          ∃ t, exec (.sealPage src i epoch a) s = .next t ∧ t.reply = { status := some .ok } ∧
            (t.sx x.val).loaded = fput none i.toNat (some epoch) (s.sx x.val).loaded ∧
            (t.sx x.val).perEpoch = fput 0 epoch.toNat (fget 0 (s.sx x.val).perEpoch epoch.toNat + 1) (s.sx x.val).perEpoch ∧
            t.hbm = (gwrite x.val 2 (((s.sx x.val).base.toNat + i.toNat) * 2 ^ 21)
              (padBytes (2 ^ 21) (Config.pagePlain key epoch.toNat i.toNat (s.sx x.val).model (bs.take 2097152))) s).hbm ∧
            (∀ y, y ≠ x.val → t.sx y = s.sx y) ∧ only [.reply, .hdrs, .ledge, .hbm, .host, .glob, .sec, .evts] s t) ∧
        ((bs.drop 2097152).take 16 ≠ Config.pageTag key epoch.toNat i.toNat (s.sx x.val).model (bs.take 2097152) →
          ∃ t, exec (.sealPage src i epoch a) s = .next t ∧ t.reply = { status := some .denied } ∧ t.sec.tagFail = satInc s.sec.tagFail ∧
            t.sec.ctxs = s.sec.ctxs ∧ (t.hdr pgSec).stat &&& bitMask 1 = bitMask 1 ∧
            only [.reply, .hdrs, .ledge, .hbm, .host, .glob, .sec, .evts] s t)))))

/-- Each SPDM and TDISP request is answered from the facts it reports (the bytes are free, log entry 19). KEY_EXCHANGE opens
the lowest free session of four where the TRNG is healthy; FINISH authenticates a requester that verifies and ends the
session of one that does not; KEY_UPDATE, HEARTBEAT and END_SESSION need an authenticated session; a lost heartbeat ends
it. A TRNG health failure marks its die until it recovers. Covers TDISP_GET_VERSION, TDISP_GET_CAPABILITIES,
GET_DEVICE_INTERFACE_REPORT, GET_DEVICE_INTERFACE_STATE, TRNG_HEALTH_FAILURE, TRNG_HEALTH_RECOVER, SPDM_GET_VERSION,
SPDM_GET_CAPABILITIES, NEGOTIATE_ALGORITHMS, GET_DIGESTS, GET_CERTIFICATE, CHALLENGE, GET_MEASUREMENTS, KEY_EXCHANGE,
FINISH, KEY_UPDATE, HEARTBEAT, END_SESSION, SPDM_HEARTBEAT_LOSS. Rules: R312, R468, R470, R471, R466, R473, R489. -/
def Obligations.AttestationAndSessionCommands : Prop :=
  ((∀ (doe : Bool) (s : State),
    exec (.spdmGetVersion doe) s = .next { s with reply := { status := some .ok, bytes := Config.spdmBytes 0x84 (dieFacts s doe ++ [0x14]) } } ∧
    exec (.spdmGetCapabilities doe) s = .next { s with reply := { status := some .ok, bytes := Config.spdmBytes 0xE1 (dieFacts s doe) } } ∧
    exec (.negotiateAlgorithms doe) s = .next { s with reply := { status := some .ok, bytes := Config.spdmBytes 0xE3 (dieFacts s doe) } } ∧
    exec (.getDigests doe) s = .next { s with reply := { status := some .ok, bytes := Config.spdmBytes 0x81 (dieFacts s doe) } } ∧
    exec (.getCertificate doe) s = .next { s with reply := { status := some .ok, bytes := Config.spdmBytes 0x82 (dieFacts s doe) } } ∧
    exec (.challenge doe) s = .next { s with reply := { status := some .ok, bytes := Config.spdmBytes 0x83 (dieFacts s doe) } } ∧
    exec (.getMeasurements doe) s = .next { s with reply := { status := some .ok, bytes := Config.spdmBytes 0xE0 (dieFacts s doe ++ measurements s) } }) ∧
  (∀ (x : CtxId) (s : State),
    exec (.tdispGetVersion x) s = .next { s with reply := { status := some .ok, bytes := Config.spdmBytes 0x181 [BitVec.ofNat 8 x.val] } } ∧
    exec (.tdispGetCapabilities x) s = .next { s with reply := { status := some .ok, bytes := Config.spdmBytes 0x182 [BitVec.ofNat 8 x.val] } } ∧
    exec (.getDeviceInterfaceReport x) s = .next { s with reply := { status := some .ok, bytes := Config.spdmBytes 0x184 (interfaceReport x.val s) } } ∧
    exec (.getDeviceInterfaceState x) s = .next { s with reply := { status := some .ok, value := BitVec.ofNat 64 (tdiCode (s.fn (x.val + 1)).tdi) } })) ∧
  ((∀ (doe : Bool) (k : Nat) (s : State), (List.range 4).find? (fun k => !(s.sess doe k).isOpen) = some k →
      (if doe then s.sec.trngFailX else s.sec.trngFailC) = false →
    ∃ t, exec (.keyExchange doe) s = .next t ∧ t.reply.status = some .ok ∧ t.reply.value = BitVec.ofNat 64 k ∧
      (∀ d j, t.sess d j = if d = doe ∧ j = k then { isOpen := true } else s.sess d j) ∧ only [.reply, .sec, .fresh] s t) ∧
  (∀ (doe : Bool) (s : State), (List.range 4).find? (fun k => !(s.sess doe k).isOpen) = none ∨
      (if doe then s.sec.trngFailX else s.sec.trngFailC) = true →
    ∃ t, exec (.keyExchange doe) s = .next t ∧ t.reply.status = some .denied ∧ only [.reply] s t) ∧
  (∀ (doe : Bool) (k : Fin 4) (cert : List Byte) (s : State), (s.sess doe k.val).isOpen = true → (s.sess doe k.val).authed = false →
    (requesterOk s doe cert = true → ∃ t, exec (.finish doe k cert) s = .next t ∧ t.reply.status = some .ok ∧
      (∀ d j, t.sess d j = if d = doe ∧ j = k.val then { s.sess doe k.val with authed := true } else s.sess d j) ∧ only [.reply,
          .sec] s t) ∧
    (requesterOk s doe cert = false → ∃ t, exec (.finish doe k cert) s = .next t ∧ t.reply.status = some .denied ∧
      (∀ d j, t.sess d j = if d = doe ∧ j = k.val then {} else s.sess d j) ∧
      (doe = true ∨ s.env.dieUp = true → (t.hdr pgSec).stat &&& bitMask 3 = bitMask 3) ∧ only [.reply, .hdrs, .host, .glob, .sec, .evts,
          .hut] s t)) ∧
  (∀ (doe : Bool) (k : Fin 4) (cert : List Byte) (s : State), (s.sess doe k.val).isOpen = false ∨ (s.sess doe k.val).authed = true →
    ∃ t, exec (.finish doe k cert) s = .next t ∧ t.reply.status = some .denied ∧ only [.reply] s t) ∧
  (∀ (doe : Bool) (k : Fin 4) (s : State), (s.sess doe k.val).authed = false →
    ∀ c ∈ [Instr.keyUpdate doe k, .heartbeat doe k, .endSession doe k], ∃ t, exec c s = .next t ∧ t.reply.status = some .denied ∧
        only [.reply] s t) ∧
  (∀ (doe : Bool) (k : Fin 4) (s : State), (s.sess doe k.val).authed = true →
    (∃ t, exec (.keyUpdate doe k) s = .next t ∧ t.reply.status = some .ok ∧
      (∀ d j, t.sess d j = if d = doe ∧ j = k.val then { s.sess doe k.val with keyGen := (s.sess doe k.val).keyGen + 1 } else s.sess d j) ∧
          only [.reply, .sec] s t) ∧
    (∃ t, exec (.heartbeat doe k) s = .next t ∧ t.reply.status = some .ok ∧ only [.reply] s t) ∧
    (∃ t, exec (.endSession doe k) s = .next t ∧ t.reply.status = some .ok ∧
      (∀ d j, t.sess d j = if d = doe ∧ j = k.val then {} else s.sess d j) ∧ only [.reply, .sec] s t)) ∧
  (∀ (doe : Bool) (k : Fin 4) (s : State),
    ((s.sess doe k.val).isOpen = true → ∃ t, exec (.spdmHeartbeatLoss doe k) s = .next t ∧
      (∀ d j, t.sess d j = if d = doe ∧ j = k.val then {} else s.sess d j) ∧ only [.hdrs, .host, .glob, .sec, .evts, .hut] s t) ∧
    ((s.sess doe k.val).isOpen = false → exec (.spdmHeartbeatLoss doe k) s = .next s)) ∧
  (∀ (die : Bool) (s : State),
    (∃ t, exec (.trngHealthFailure die) s = .next t ∧
        t.sec = (if die then { s.sec with trngFailX := true } else { s.sec with trngFailC := true }) ∧
      (die = true → (t.hdr pgSec).stat &&& bitMask 0 = bitMask 0) ∧ only [.hdrs, .host, .glob, .sec, .evts, .hut] s t) ∧
    exec (.trngHealthRecover die) s = .next { s with sec := if die then { s.sec with trngFailX := false } else { s.sec with trngFailC := false } }))

/-- COMPLETION_POST writes the oldest holding record of a ring to host memory at the ring's tail where the device owns an
entry, and signals by COAL_CNT. A window access outside the window, of a page that is not open, or of a RUN TDI without
the TEE bit is refused and counted as its rule says; an open page reads and writes the context's HBM. WPAGE_TRANSITION
takes the pending state of a page that no transfer uses. Covers WPAGE_TRANSITION, COMPLETION_POST, COAL_TIME_EXPIRY,
WINDOW_ACCESS. Rules: R296, R309, R310, R292, R291, R295, R307, R308, R313. -/
def Obligations.CompletionAndWindowCommands : Prop :=
  ((∀ (f : FnId) (i : RingId) (s : State), (s.fn f.val).hold.find? (fun r => r.cq.toNat == i.val) = none ∨ (s.cq f.val i.val).owned = 0 →
    exec (.completionPost f i) s = .next s) ∧
  (∀ (f : FnId) (i : RingId) (r : HoldRec) (q : CqRing) (s : State), (s.fn f.val).hold.find? (fun r => r.cq.toNat == i.val) = some r →
      q = s.cq f.val i.val → q.owned ≠ 0 →
    ∃ t, exec (.completionPost f i) s = .next t ∧
        t.host.mem = memPut s.host.mem (q.base.toNat + 64 * (q.tail.toNat % 2 ^ q.log2.toNat)) r.bytes ∧
      (t.fn f.val).hold = (s.fn f.val).hold.erase r ∧
      t.cq f.val i.val = { q with tail := q.tail + 1, since := if q.coalCnt.toNat ≤ q.since + 1 then 0 else q.since + 1 } ∧
          only [.host] s t) ∧
  (∀ (f : FnId) (i : RingId) (s : State), (s.cq f.val i.val).since = 0 ∨ (s.cq f.val i.val).coalTime = 0 →
      exec (.coalTimeExpiry f i) s = .next s) ∧
  (∀ (f : FnId) (i : RingId) (s : State), (s.cq f.val i.val).since ≠ 0 → (s.cq f.val i.val).coalTime ≠ 0 →
    ∃ t, exec (.coalTimeExpiry f i) s = .next t ∧ t.cq f.val i.val = { s.cq f.val i.val with since := 0 } ∧ t.host.mem = s.host.mem ∧
        only [.host] s t)) ∧
  ((∀ (f : FnId) (off : BitVec 34) (len : Nat) (data : Option (List Byte)) (s : State), 0 < f.val → (s.fn f.val).tdi = .run →
    exec (.windowAccess f false off len data) s = .next { s with reply := { unsupported := true } }) ∧
  (∀ (f : FnId) (tee : Bool) (off : BitVec 34) (len : Nat) (data : Option (List Byte)) (s : State), tee = true ∨ f.val = 0 ∨
      (s.fn f.val).tdi ≠ .run →
    (windowPage f.val off.toNat = none ∨ windowPage f.val (off.toNat + len - 1) = none →
        exec (.windowAccess f tee off len data) s = .next { s with reply := { unsupported := true } }) ∧
    (∀ k k2, windowPage f.val off.toNat = some k → windowPage f.val (off.toNat + len - 1) = some k2 → pageOpen s f.val k = false ∨
        pageOpen s f.val k2 = false →
      ∃ t, exec (.windowAccess f tee off len data) s = .next t ∧ t.reply.unsupported = data.isNone ∧
          (t.fn f.val).winRefused = satInc (s.fn f.val).winRefused ∧
        (t.hdr (fnPage f.val)).stat = (s.hdr (fnPage f.val)).stat ||| bitMask 3 ∧ only [.reply, .hdrs, .host, .glob] s t) ∧
    (∀ k bs, windowPage f.val off.toNat = some k → windowPage f.val (off.toNat + len - 1) = some k → pageOpen s f.val k = true →
        data = some bs →
      exec (.windowAccess f tee off len data) s = .next { gwrite (k / 512) 2 ((s.page k).target.toNat * 2 ^ 21 + off.toNat % 2 ^ 21) (bs.take len) s with reply := {} }) ∧
    (∀ k bs, windowPage f.val off.toNat = some k → windowPage f.val (off.toNat + len - 1) = some k → pageOpen s f.val k = true →
        data = none →
        gread s (k / 512) 2 ((s.page k).target.toNat * 2 ^ 21 + off.toNat % 2 ^ 21) len = some bs →
      exec (.windowAccess f tee off len data) s = .next { s with reply := { bytes := bs } }) ∧
    (∀ k, windowPage f.val off.toNat = some k → windowPage f.val (off.toNat + len - 1) = some k → pageOpen s f.val k = true → data = none →
        gread s (k / 512) 2 ((s.page k).target.toNat * 2 ^ 21 + off.toNat % 2 ^ 21) len = none →
      ∃ t, exec (.windowAccess f tee off len data) s = .next t ∧ t.reply = { unsupported := true } ∧ only [.reply, .hdrs, .ledge, .mesh,
          .hbm, .host, .glob, .evts] s t)) ∧
  (∀ (page : BitVec 13) (s : State), (s.page page.toNat).pend = none ∨ ((s.page page.toNat).st = .device ∧ pageInUse s page.toNat = true) →
    exec (.wpageTransition page) s = .next s) ∧
  (∀ (page : BitVec 13) (want : PageSt) (s : State), (s.page page.toNat).pend = some want → (s.page page.toNat).st ≠ .device ∨
      pageInUse s page.toNat = false →
    ∃ t, exec (.wpageTransition page) s = .next t ∧
      (∀ k, t.page k = if k = page.toNat then { st := want, target := if want = .none then 0 else (s.page page.toNat).target, pend := none } else s.page k) ∧
      only [.reply, .hdrs, .host, .glob] s t))

/-- LOCK_INTERFACE, START_INTERFACE and STOP_INTERFACE move the TDI in order or are DENIED; STOP and an FLR of a live
context disable it. IDE_KM needs an open session and sets the stream's key; an integrity failure ends the stream and
puts its bound TDIs in ERROR. HOST_LINK_RESET clears every ring, the IDE streams, the interrupt routes and the bits of
the GLOBAL page and of HOST page 0. PCIE_LINK_UP stores the link and raises its change. Covers HOST_LINK_RESET,
PCIE_LINK_UP, VF_FLR, IDE_INTEGRITY_FAILURE, IDE_KM, LOCK_INTERFACE, START_INTERFACE, STOP_INTERFACE. Rules: R315, R287,
R316, R311, R313, R314, R286, R312, R541. -/
def Obligations.InterfaceAndLinkCommands : Prop :=
  ((∀ (x : CtxId) (s : State),
    ((s.fn (x.val + 1)).tdi = .unlocked → ∃ t, exec (.lockInterface x) s = .next t ∧ t.reply = { status := some .ok } ∧
      (∀ f, t.fn f = if f = x.val + 1 then { s.fn (x.val + 1) with tdi := .locked } else s.fn f) ∧ only [.reply, .host] s t) ∧
    ((s.fn (x.val + 1)).tdi ≠ .unlocked → exec (.lockInterface x) s = .next { s with reply := { status := some .denied } }) ∧
    ((s.fn (x.val + 1)).tdi = .locked → ∃ t, exec (.startInterface x) s = .next t ∧ t.reply = { status := some .ok } ∧
      (∀ f, t.fn f = if f = x.val + 1 then { s.fn (x.val + 1) with tdi := .run } else s.fn f) ∧ only [.reply, .host] s t) ∧
    ((s.fn (x.val + 1)).tdi ≠ .locked → exec (.startInterface x) s = .next { s with reply := { status := some .denied } }) ∧
    ((s.cx x.val).st = .disabled → ∃ t, exec (.stopInterface x) s = .next t ∧ t.reply = { status := some .ok } ∧
      (∀ f, t.fn f = if f = x.val + 1 then { s.fn (x.val + 1) with tdi := .unlocked } else s.fn f) ∧ only [.reply, .host] s t) ∧
    ((s.cx x.val).st ≠ .disabled → exec (.stopInterface x) s = .next { disableCtx x.val s with reply := { status := some .ok } }) ∧
    ((s.cx x.val).st = .disabled → ∃ t, exec (.vfFlr x) s = .next t ∧
      (∀ f, t.fn f = if f = x.val + 1 then { (s.fn (x.val + 1)).ringsReset with
        tdi := .unlocked, flr := false, hold := [], reserved := 0, nops := [] } else s.fn f) ∧ only [.host] s t) ∧
    ((s.cx x.val).st ≠ .disabled → ∃ u, exec (.vfFlr x) s = .next (disableCtx x.val u) ∧
      (∀ f, u.fn f = if f = x.val + 1 then { (s.fn (x.val + 1)).ringsReset with flr := true } else s.fn f) ∧ only [.host] s u)) ∧
  (∀ (k : Fin 4) (stream : Fin 5) (s : State),
    ((fget {} s.sec.doe k.val).isOpen = false → exec (.ideKm k stream) s = .next { s with reply := { status := some .denied } }) ∧
    ((fget {} s.sec.doe k.val).isOpen = true → ∃ t, exec (.ideKm k stream) s = .next t ∧ t.reply = { status := some .ok } ∧
      t.host = { s.host with
        ideKeys := stream.val :: s.host.ideKeys.erase stream.val, ideLink := s.host.ideLink || stream.val == 0,
        ideSel := if stream.val = 0 then s.host.ideSel else s.host.ideSel ||| (1#4 <<< (stream.val - 1)) } ∧ only [.reply, .host] s t)) ∧
  (∀ (stream : Fin 5) (bound : BitVec 16) (s : State), ∃ t, exec (.ideIntegrityFailure stream bound) s = .next t ∧
    t.host.ideLink = (s.host.ideLink && stream.val != 0) ∧
    t.host.ideSel = (if stream.val = 0 then s.host.ideSel else s.host.ideSel &&& ~~~ (1#4 <<< (stream.val - 1))) ∧
    t.host.aerFatal = s.host.aerFatal + 1 ∧
    (∀ f, (t.fn f).tdi = if 0 < f ∧ f ≤ 16 ∧ bound.getLsbD (f - 1) = true ∧ (s.fn f).tdi ≠ .unlocked then .error else (s.fn f).tdi) ∧
        only [.hdrs, .host, .glob] s t)) ∧
  ((∀ (flr : Bool) (s : State), ∃ t, exec (.hostLinkReset flr) s = .next t ∧
    (∀ f, f < 17 → (t.fn f).cqs = [] ∧ (((s.fn f).sqs.map (·.1)).Nodup → ∀ i, t.sq f i = { inFlight := (s.sq f i).inFlight }) ∧
      (t.fn f).tdi = (if 0 < f ∧ ((s.fn f).tdi = .locked ∨ (s.fn f).tdi = .run) then .error else (s.fn f).tdi)) ∧
    t.host.linkRst = satInc s.host.linkRst ∧ t.host.ideLink = false ∧ t.host.ideSel = 0 ∧ t.host.ideKeys = [] ∧
        t.host.up = (s.host.up && flr) ∧
    t.glob.pend = 0 ∧ t.glob.routes = [] ∧ (t.hdr pgGlobal).stat = 0 ∧ (t.hdr pgGlobal).en = 0 ∧ (t.hdr pgPf).stat = 0 ∧
        (t.hdr pgPf).en = 0 ∧
    only [.hdrs, .host, .glob] s t) ∧
  (∀ (rate : Fin 3) (width : BitVec 5) (s : State),
    (s.host.up = true → s.host.rate.toNat = rate.val → s.host.width = width → exec (.pcieLinkUp rate width) s = .next s) ∧
    (s.host.up = false ∨ s.host.rate.toNat ≠ rate.val ∨ s.host.width ≠ width → ∃ t, exec (.pcieLinkUp rate width) s = .next t ∧
      t.host.up = true ∧ t.host.rate = BitVec.ofNat 2 rate.val ∧ t.host.width = width ∧ t.host.flit = decide (0 < rate.val) ∧
      (t.hdr pgPf).stat &&& bitMask 4 = bitMask 4 ∧ (t.hdr (pgHost 0)).stat &&& bitMask 5 = bitMask 5 ∧ only [.hdrs, .host, .glob] s t)))

/-- Where the ring may not consume, nothing changes. An entry that cannot be read, or whose ownership bit is clear, halts
the ring with its error. A FENCE entry waits for the commands in flight. Any other entry is taken: HEAD advances, its
ownership returns to the host, a completion is reserved, and by its OPCODE and operands the command runs; an unknown
opcode, or an entry with a reserved bit set, completes DENIED. Covers PITCH, COLL, WCOPY, BIND, UNBIND, ADMIT, WPAGE,
NOP, CTXRD, CTXWR, DESCRIPTOR_CONSUME, SEAL_OPEN, SEAL_ROTATE, SEAL_KEY, SEAL_PAGE. Rules: R111, R271, R274, R210, R211,
R181, R296, R304, R302, R478, R479, R480. -/
def Obligations.DescriptorConsumption : Prop :=
  (∀ (f : FnId) (i : RingId) (entry : Option (List Byte)) (s : State), mayConsume s f.val i.val = false →
      exec (.descriptorConsume f i entry) s = .next s) ∧
  (∀ (f : FnId) (i : RingId) (entry : Option (List Byte)) (q : SqRing) (s : State), mayConsume s f.val i.val = true → q = s.sq f.val i.val →
    (entry = none ∨ (∃ e, entry = some e ∧ (entByte (padBytes 64 e) 63).getLsbD 7 = false)) →
    ∃ t, exec (.descriptorConsume f i entry) s = .next t ∧
      (∀ g j, t.sq g j = if g = f.val ∧
          j = i.val then { q with st := 2, err := if entry = none then 3 else 1, tail := q.head } else s.sq g j) ∧
      (t.hdr (fnPage f.val)).stat = (s.hdr (fnPage f.val)).stat ||| bitMask 1 ∧ only [.hdrs, .host, .glob] s t) ∧
  (∀ (f : FnId) (i : RingId) (e0 : List Byte) (e : List Byte) (s : State), mayConsume s f.val i.val = true → e = padBytes 64 e0 →
      (entByte e 63).getLsbD 7 = true →
    (entByte e 1).getLsbD 0 = true → (s.sq f.val i.val).inFlight ≠ [] → exec (.descriptorConsume f i (some e0)) s = .next s) ∧
  (∀ (f : FnId) (i : RingId) (e0 e : List Byte) (q : SqRing) (src : CmdSrc) (s : State), mayConsume s f.val i.val = true →
      e = padBytes 64 e0 → (entByte e 63).getLsbD 7 = true →
      (entByte e 1).getLsbD 0 = false ∨ (s.sq f.val i.val).inFlight = [] → q = s.sq f.val i.val → src = ⟨f, i, q.head,
          BitVec.ofNat 32 (leAt e 4 4)⟩ →
    ∃ u, (∀ g j, u.sq g j = if g = f.val ∧ j = i.val then { q with head := q.head + 1, inFlight := q.inFlight ++ [q.head] } else s.sq g j) ∧
      u.host.mem = memPut s.host.mem (q.base.toNat + 64 * (q.head.toNat % 2 ^ q.log2.toNat) + 63) [entByte e 63 &&& 0x7F] ∧
      (u.fn f.val).reserved = (s.fn f.val).reserved + 1 ∧ only [.host] s u ∧
      (operandBytes (entByte e 0).toNat = none → ∃ t, exec (.descriptorConsume f i (some e0)) s = .next t ∧ completed u t src .denied 0 ∧
          only [.reply, .hdrs, .host, .glob] s t) ∧
      (∀ used, operandBytes (entByte e 0).toNat = some used → entryClean e used = false →
        ∃ t, exec (.descriptorConsume f i (some e0)) s = .next t ∧ t.reply.status = some .denied ∧ only [.reply, .hdrs, .host, .glob] s t) ∧
      (∀ used, operandBytes (entByte e 0).toNat = some used → entryClean e used = true →
        ∀ p ∈ [((0x01 : Byte), Instr.pitch src (entByte e 8) (BitVec.ofNat 64 (leAt e 16 8))),
          (0x02, .coll src ((e.drop 8).take 28)),
          (0x03, .wcopy src (BitVec.ofNat 8 (leAt e 8 1)) (BitVec.ofNat 16 (leAt e 10 2)) (BitVec.ofNat 64 (leAt e 16 8)) (BitVec.ofNat 64 (leAt e 24 8)) (BitVec.ofNat 64 (leAt e 32 8))),
          (0x04, .bind src), (0x05, .unbind src (BitVec.ofNat 16 (leAt e 8 1))),
          (0x06, .admitCmd src (BitVec.ofNat 64 (leAt e 8 8)) (BitVec.ofNat 32 (leAt e 16 4))),
          (0x07, .wpage src (BitVec.ofNat 16 (leAt e 8 2)) (BitVec.ofNat 16 (leAt e 10 2)) (BitVec.ofNat 8 (leAt e 12 1)) (BitVec.ofNat 32 (leAt e 16 4))),
          (0x08, .nop src), (0x10, .sealOpen src (BitVec.ofNat 64 (leAt e 8 8)) (BitVec.ofNat 32 (leAt e 16 4)) (BitVec.ofNat 32 (leAt e 20 4))),
          (0x11, .sealRotate src (BitVec.ofNat 64 (leAt e 8 8))), (0x12, .sealKey src (BitVec.ofNat 64 (leAt e 8 8)) (entByte e 16)),
          (0x13, .sealPage src (BitVec.ofNat 32 (leAt e 8 4)) (entByte e 12) (BitVec.ofNat 64 (leAt e 16 8))),
          (0x20, .ctxrd src (BitVec.ofNat 8 (leAt e 8 1)) (BitVec.ofNat 16 (leAt e 10 2))),
          (0x21, .ctxwr src (BitVec.ofNat 8 (leAt e 8 1)) (BitVec.ofNat 16 (leAt e 10 2)) (BitVec.ofNat 32 (leAt e 12 4)))],
          entByte e 0 = p.1 → exec (.descriptorConsume f i (some e0)) s = exec p.2 u))

/-- A slot-table entry whose named contexts share a core is refused with reason 1, in the live and in the shadow table, and
so is a rope-team write that would make any entry share one; a LEN below 5 is refused with reason 5. A count of 0 or
above 64 is refused with reason 9, a barrier write while a pitch runs with reason 4, and HBM base and size, save area,
quota and ports outside DISABLED with reason 4. A refusal changes only CTX_REFUSE. A write that nothing refuses takes
its field, at once or as pending. Covers CTX_PARTITION_WRITE, CTX_TEAM_WRITE, CTX_SLOT_LIVE_WRITE,
CTX_SLOT_SHADOW_WRITE, CTX_SLOT_CNT_WRITE, CTX_SLOT_SWAP, CTX_BAR_VAL_WRITE. Rules: R192. -/
def Obligations.ContextConfiguration : Prop :=
  (∀ (x : CtxId) (off : BitVec 12) (v : Word) (i : Fin 6) (k : Fin 64) (s : State) (y r : Nat) (c : Instr),
    ((c = .ctxPartitionWrite x off v ∧ y = x.val ∧ partitionRefusal s x.val off.toNat v = some r) ∨
     (c = .ctxTeamWrite x i v ∧ y = x.val ∧ r = 1 ∧ ∃ m ∈ allMasks s,
         maskClash (fun z => if z = x.val then setTeamWord (s.cx x.val).teamNow i.val v else (s.cx z).teamNow) m = true) ∨
     ((c = .ctxSlotLiveWrite k v ∨ c = .ctxSlotShadowWrite k v) ∧ y = s.ctx.sel.toNat ∧ r = 1 ∧
         maskClash (fun z => (s.cx z).teamNow) (v.setWidth 16) = true) ∨
     ((c = .ctxSlotLiveWrite k v ∨ c = .ctxSlotShadowWrite k v) ∧ y = s.ctx.sel.toNat ∧ r = 5 ∧
         maskClash (fun z => (s.cx z).teamNow) (v.setWidth 16) = false ∧ v.toNat / 65536 < 5) ∨
     (c = .ctxSlotCntWrite v ∧ y = s.ctx.sel.toNat ∧ r = 9 ∧ ¬ (1 ≤ v.toNat % 128 ∧ v.toNat % 128 ≤ 64 ∧ 1 ≤ v.toNat / 65536 % 128 ∧
         v.toNat / 65536 % 128 ≤ 64)) ∨
     (c = .ctxBarValWrite x k v ∧ y = x.val ∧ r = 4 ∧ startedCount s x.val ≠ 0)) →
    ∃ t, exec c s = .next t ∧ t.ctx = { s.ctx with refReason := BitVec.ofNat 4 r, refCtx := BitVec.ofNat 4 y } ∧
      (t.hdr pgCtx).stat = (s.hdr pgCtx).stat ||| bitMask 5 ∧ only [.hdrs, .ctx, .host, .glob] s t) ∧
  (∀ (x : CtxId) (v : Word) (s : State), (s.cx x.val).st ≠ .disabled →
    partitionRefusal s x.val 0x04C v = some 4 ∧ partitionRefusal s x.val 0x058 v = some 4 ∧ partitionRefusal s x.val 0x05C v = some 4 ∧
        partitionRefusal s x.val 0x064 v = some 4) ∧
  (∀ (x : CtxId) (off : BitVec 12) (v : Word) (s : State) (c : Ctx), c = s.cx x.val → partitionRefusal s x.val off.toNat v = none →
    ∃ t, exec (.ctxPartitionWrite x off v) s = .next t ∧
      (∀ y, t.cx y = if y = x.val then
        (if off.toNat = 0x04C then { c with hbmBase := v.setWidth 13, hbmSize := BitVec.ofNat 13 (v.toNat / 65536) }
        else if off.toNat = 0x050 then { c with lmapIdx := v.setWidth 11 }
        else if off.toNat = 0x054 then { c with lmapPend := fput none c.lmapIdx.toNat (some (lmapVal v)) c.lmapPend }
        else if off.toNat = 0x058 then { c with saveEntry := v.setWidth 11, savev := v.getLsbD 31 }
        else if off.toNat = 0x05C then { c with quota := v.setWidth 9 }
        else if off.toNat = 0x060 then { c with capPend := some (v.setWidth 16) }
        else if off.toNat = 0x064 then { c with ports := v.setWidth 16 }
        else if off.toNat = 0x068 then { c with prioPend := some (v.setWidth 3) }
        else c) else s.cx y) ∧ only [.ctx] s t) ∧
  (∀ (x : CtxId) (i : Fin 6) (v : Word) (s : State),
    (∀ m ∈ allMasks s, maskClash (fun z => if z = x.val then setTeamWord (s.cx x.val).teamNow i.val v else (s.cx z).teamNow) m = false) →
    ∃ t, exec (.ctxTeamWrite x i v) s = .next t ∧
      (∀ y, t.cx y = if y = x.val then { s.cx x.val with teamPend := some (setTeamWord (s.cx x.val).teamNow i.val v) } else s.cx y) ∧
          only [.ctx] s t) ∧
  (∀ (k : Fin 64) (v : Word) (s : State), maskClash (fun z => (s.cx z).teamNow) (v.setWidth 16) = false → 5 ≤ v.toNat / 65536 →
    exec (.ctxSlotLiveWrite k v) s = .next { s with ctx := { s.ctx with live := fput {} k.val { mask := v.setWidth 16, len := BitVec.ofNat 16 (v.toNat / 65536) } s.ctx.live } } ∧
    exec (.ctxSlotShadowWrite k v) s = .next { s with ctx := { s.ctx with shadow := fput {} k.val { mask := v.setWidth 16, len := BitVec.ofNat 16 (v.toNat / 65536) } s.ctx.shadow } }) ∧
  (∀ (v : Word) (s : State), 1 ≤ v.toNat % 128 → v.toNat % 128 ≤ 64 → 1 ≤ v.toNat / 65536 % 128 → v.toNat / 65536 % 128 ≤ 64 →
    exec (.ctxSlotCntWrite v) s = .next { s with ctx := { s.ctx with livePend := some (v.setWidth 7), shadowCnt := BitVec.ofNat 7 (v.toNat / 65536) } }) ∧
  (∀ s : State, exec .ctxSlotSwap s = .next { s with ctx := { s.ctx with swap := true } }) ∧
  (∀ (x : CtxId) (k : Fin 64) (v : Word) (s : State), startedCount s x.val = 0 → ∃ t, exec (.ctxBarValWrite x k v) s = .next t ∧
    (∀ y, t.cx y = if y = x.val then { s.cx x.val with bars := fput 0 k.val v (s.cx x.val).bars } else s.cx y) ∧ only [.ctx] s t)

/-- ENABLE moves a DISABLED context to ENABLED with its barrier counters 0, and is refused with reason 4 in any other state.
DISABLE moves an ENABLED context to DRAINING and on to SCRUBBING when no started pitch remains, and is without effect in
any other state. DRAIN_TIMEOUT of a DRAINING context stops its one started pitch ABORTED and raises the bit, and does
nothing where none is left. SCRUB_DONE leaves the context DISABLED with its HBM partition and its Ledge granules zero. A
second read-back failure sets VERIFY_FAIL. In camp recovery no context is enabled. Covers ENABLE, DISABLE,
DRAIN_TIMEOUT, SCRUB_READBACK_FAIL, SCRUB_DONE. Rules: R189. -/
def Obligations.ContextLifeCycle : Prop :=
  ((∀ (x : CtxId) (s : State), s.cairn.campRecovery = true → exec (.enable x) s = .next s) ∧
  (∀ (x : CtxId) (s : State), s.cairn.campRecovery = false → (s.cx x.val).st ≠ .disabled → ∃ t, exec (.enable x) s = .next t ∧
    t.ctx = { s.ctx with refReason := 4, refCtx := BitVec.ofNat 4 x.val } ∧ (t.hdr pgCtx).stat = (s.hdr pgCtx).stat ||| bitMask 5 ∧
        only [.hdrs, .ctx, .host, .glob] s t) ∧
  (∀ (x : CtxId) (s : State), s.cairn.campRecovery = false → (s.cx x.val).st = .disabled → ∃ t, exec (.enable x) s = .next t ∧
    (∀ y, t.cx y = if y = x.val then { s.cx x.val with st := .enabled, progress := 0, bars := [] } else s.cx y) ∧
    fget 0 t.pwr.ctxE x.val = 0 ∧ (t.sx x.val).started = false ∧ only [.hdrs, .ctls, .ctx, .fab, .host, .glob, .pwr, .sec, .evts] s t) ∧
  (∀ (x : CtxId) (s : State), (s.cx x.val).st ≠ .enabled → exec (.disable x) s = .next s) ∧
  (∀ (x : CtxId) (s : State), (s.cx x.val).st = .enabled → ∃ t, exec (.disable x) s = .next t ∧
    ((t.cx x.val).st = .draining ∨ (t.cx x.val).st = .scrubbing) ∧ (∀ y, y ≠ x.val → (t.cx y).st = (s.cx y).st) ∧
    only [.reply, .hdrs, .cores, .ctls, .ctx, .fence, .fab, .host, .glob, .sec, .evts] s t) ∧
  (∀ (x : CtxId) (s : State), (s.cx x.val).st ≠ .draining → exec (.drainTimeout x) s = .next s) ∧
  (∀ (x : CtxId) (u : MemUnit) (again : Bool) (s : State), (s.cx x.val).st ≠ .scrubbing → exec (.scrubReadbackFail x u again) s = .next s ∧
      exec (.scrubDone x) s = .next s) ∧
  (∀ (x : CtxId) (u : MemUnit) (s : State), (s.cx x.val).st = .scrubbing →
    (∃ t, exec (.scrubReadbackFail x u false) s = .next t ∧ only [.hdrs, .host, .glob, .evts] s t) ∧
    (∃ t, exec (.scrubReadbackFail x u true) s = .next t ∧
      (∀ y, t.cx y = if y = x.val then { s.cx x.val with vfail := true } else s.cx y) ∧ only [.hdrs, .ledge, .hbm, .ctx, .host, .glob,
          .evts] s t)) ∧
  (∀ (x : CtxId) (s : State), (s.cx x.val).st = .scrubbing → ∃ t, exec (.scrubDone x) s = .next t ∧
    (∀ y, t.cx y = if y = x.val then { s.cx x.val with
      bars := [], st := .disabled, scrubActive := false, progress := 1000, saved := [], queue := [], freeing := true } else s.cx y) ∧
    (t.fn (x.val + 1)).tdi = .unlocked ∧
    (∀ a, (s.cx x.val).hbmBase.toNat * unit64M ≤ a → a < (s.cx x.val).hbmBase.toNat * unit64M + (s.cx x.val).hbmSize.toNat * unit64M →
        memGet t.hbm.mem a = 0) ∧
    (∀ e ∈ (s.cx x.val).lmap, e.2.getLsbD 15 = true → ∀ a, e.2.toNat % 4096 * 2 ^ 20 ≤ a → a < (e.2.toNat % 4096 + 1) * 2 ^ 20 →
        memGet t.ledge.mem a = 0) ∧
    (t.hdr pgCtx).stat &&& bitMask 2 = bitMask 2 ∧ only [.hdrs, .ledge, .hbm, .ctx, .fab, .host, .glob, .sec, .evts] s t)) ∧
  ((∀ (x : CtxId) (s : State), stoppable s x.val = [] → (s.cx x.val).saved = [] → (s.cx x.val).queue = [] → (∀ e ∈ s.cores,
      e.2.next = none) → exec (.drainTimeout x) s = .next s) ∧
  (∀ (x : CtxId) (c : Nat) (r : Run) (s : State), (s.cx x.val).st = .draining → stoppable s x.val = [c] → (s.cx x.val).saved = [] →
      (s.cx x.val).queue = [] →
    (∀ e ∈ s.cores, e.2.next = none) → (s.core c).run = some r → (s.core c).next = none → (s.ctl c).diodeFault = false →
    ∃ t, exec (.drainTimeout x) s = .next t ∧ (t.core c).run = none ∧ (t.core c).lastStatus = .aborted ∧
      (t.hdr pgCtx).stat &&& bitMask 1 = bitMask 1 ∧ only [.reply, .hdrs, .cores, .ctls, .ctx, .fence, .host, .glob, .pwr, .sec, .dbg,
          .evts] s t))

/-- SLOT_BOUNDARY when the slot has no epoch left takes the pending count and the next entry, or swaps the live and shadow
tables and starts at entry 0. A switched core resumes wiped, with the save record of the incoming context restored and
256 of the free tokens debited to it; it waits in a trip, under THROTTLE_N or without free tokens. A save record that
fails its read becomes stop records. STOP_RECORD takes one record. A fenced core ends its wipe FENCED, without owner or
logical number. Covers WIPE, STOP_RECORD, FENCE_WIPE_DONE, FENCE_WIPE_TIMEOUT, SLOT_BOUNDARY, CORE_SWITCH_RESUME,
RESTORE_BLOCK_FAIL, BIND. Rules: R132, R229, R232, R196, R201, R207, R210, R191, R197, R199, R200, R208. -/
def Obligations.SlotSwitchAndFenceCommands : Prop :=
  ((∀ s : State, s.ctx.left ≠ 0 → exec .slotBoundary s = .next s) ∧
  (∀ s : State, s.ctx.left = 0 → s.ctx.swap = false → ∃ t, exec .slotBoundary s = .next t ∧
    t.ctx.live = s.ctx.live ∧ t.ctx.shadow = s.ctx.shadow ∧ t.ctx.liveCnt = s.ctx.livePend.getD s.ctx.liveCnt ∧ t.ctx.livePend = none ∧
        t.ctx.swap = false ∧
    (∀ i, i = (if s.ctx.cur.toNat + 1 < (s.ctx.livePend.getD s.ctx.liveCnt).toNat then s.ctx.cur.toNat + 1 else 0) →
      t.ctx.cur = BitVec.ofNat 6 i ∧ t.ctx.curEnt = fget {} s.ctx.live i ∧ t.ctx.left = (fget {} s.ctx.live i).len.setWidth 24) ∧
    only [.reply, .hdrs, .cores, .ctls, .ledge, .mesh, .hbm, .ctx, .fence, .fab, .host, .glob, .pwr, .sec, .dbg, .evts] s t) ∧
  (∀ s : State, s.ctx.left = 0 → s.ctx.swap = true → ∃ t, exec .slotBoundary s = .next t ∧
    t.ctx.live = s.ctx.shadow ∧ t.ctx.shadow = s.ctx.live ∧ t.ctx.liveCnt = s.ctx.shadowCnt ∧
        t.ctx.shadowCnt = s.ctx.livePend.getD s.ctx.liveCnt ∧ t.ctx.swap = false ∧
    t.ctx.cur = 0 ∧ t.ctx.curEnt = fget {} s.ctx.shadow 0 ∧ t.ctx.left = (fget {} s.ctx.shadow 0).len.setWidth 24 ∧
    only [.reply, .hdrs, .cores, .ctls, .ledge, .mesh, .hbm, .ctx, .fence, .fab, .host, .glob, .pwr, .sec, .dbg, .evts] s t) ∧
  (∀ (c : CoreId) (s : State), (s.ctl c.val).switching = false → exec (.coreSwitchResume c) s = .next s) ∧
  (∀ (c : CoreId) (x : CtxId) (s : State), (s.ctl c.val).owner = some x → s.pwr.trip = true ∨ s.pwr.throttlePin = true ∨ s.pwr.free < 256 →
    exec (.coreSwitchResume c) s = .next s) ∧
  (∀ (c : CoreId) (s : State), (s.ctl c.val).switching = true → (s.ctl c.val).diodeFault = false → s.fence.waiting = [] →
      (s.ctl c.val).owner = none →
    ∃ t, exec (.coreSwitchResume c) s = .next t ∧ (∀ k, t.core k = if k = c.val then (s.core c.val).wipe else s.core k) ∧
      (∀ k, t.ctl k = if k = c.val then { s.ctl c.val with switching := false } else s.ctl k) ∧ only [.cores, .ctls] s t) ∧
  (∀ (c : CoreId) (x : CtxId) (s : State), (s.ctl c.val).switching = true → (s.ctl c.val).diodeFault = false → s.fence.waiting = [] →
      (s.ctl c.val).owner = some x →
      s.pwr.trip = false → s.pwr.throttlePin = false → 256 ≤ s.pwr.free →
    ∃ t, exec (.coreSwitchResume c) s = .next t ∧
      t.pwr = { s.pwr with free := s.pwr.free - 256, granted := s.pwr.granted + 256, ctxE := fput 0 x.val (fget 0 s.pwr.ctxE x.val + 256) s.pwr.ctxE } ∧
      (∀ k, t.core k = if k = c.val then
        (match fget none (s.cx x.val).saved (s.ctl c.val).logical.toNat with | none => (s.core c.val).wipe | some q => (s.core c.val).wipe.restore q) else s.core k) ∧
      (∀ k, t.ctl k = if k = c.val then { s.ctl c.val with switching := false } else s.ctl k) ∧
      fget none (t.cx x.val).saved (s.ctl c.val).logical.toNat = none ∧ only [.cores, .ctls, .ctx, .pwr] s t) ∧
  (∀ (c : CoreId) (u : MemUnit) (s : State), (s.ctl c.val).switching = false ∨ (s.ctl c.val).owner = none →
      exec (.restoreBlockFail c u) s = .next s) ∧
  (∀ (c : CoreId) (u : MemUnit) (x : CtxId) (js : List PitchJob) (s : State), (s.ctl c.val).switching = true →
      (s.ctl c.val).owner = some x →
      js = ((s.cx x.val).saved.filter (fun e => e.1 == (s.ctl c.val).logical.toNat)).filterMap (fun e => (e.2.bind (·.run)).map (·.job)) →
          js ≠ [] →
    ∃ t, exec (.restoreBlockFail c u) s = .next t ∧ t.mesh.refetch = satAdd s.mesh.refetch 3 ∧
      t.fence.stops = s.fence.stops ++ js.map (fun j => ⟨c.val, j, false, false, [], 0⟩) ∧
      (t.cx x.val).saved = (s.cx x.val).saved.filter (fun e => !(e.1 == (s.ctl c.val).logical.toNat)) ∧ only [.hdrs, .ledge, .mesh, .hbm,
          .ctx, .fence, .host, .glob, .evts] s t)) ∧
  ((∀ (c : CoreId) (s : State), s.fence.stops.find? (fun r => r.core == c.val) = none → exec (.stopRecord c) s = .next s) ∧
  (∀ (c : CoreId) (r : StopRec) (s : State), s.fence.stops.find? (fun r => r.core == c.val) = some r →
    ∃ t, exec (.stopRecord c) s = .next t ∧ t.fence.stops = s.fence.stops.erase r ∧
      only [.reply, .hdrs, .cores, .ctls, .ctx, .fence, .host, .glob, .pwr, .sec, .evts] s t) ∧
  (∀ (c : CoreId) (s : State) (i : Instr), i = .fenceWipeDone c ∨ i = .fenceWipeTimeout c → (s.ctl c.val).st = .wiping → ∃ t,
      exec i s = .next t ∧
    (∀ k, t.ctl k = if k = c.val then { s.ctl c.val with st := .fenced, logical := 0xFF, owner := none, wiping := false } else s.ctl k) ∧
    (∀ k, t.core k = if k = c.val ∧ i = .fenceWipeDone c then (s.core c.val).wipe else s.core k) ∧
    t.glob.capGen = s.glob.capGen + 1 ∧ (t.hdr pgGlobal).stat &&& bitMask 0 = bitMask 0 ∧ only [.hdrs, .cores, .ctls, .host, .glob] s t) ∧
  (∀ (c : CoreId) (s : State), (s.ctl c.val).st = .reserve → (s.ctl c.val).wiping = true →
    (∃ t, exec (.fenceWipeDone c) s = .next t ∧ (∀ k,
        t.ctl k = if k = c.val then { s.ctl c.val with wiping := false, wiped := true } else s.ctl k) ∧
      (∀ k, t.core k = if k = c.val then (s.core c.val).wipe else s.core k) ∧ only [.cores, .ctls] s t) ∧
    exec (.fenceWipeTimeout c) s = .next s) ∧
  (∀ (c : CoreId) (s : State), (s.ctl c.val).st ≠ .wiping → (s.ctl c.val).st ≠ .reserve ∨ (s.ctl c.val).wiping = false →
    exec (.fenceWipeDone c) s = .next s ∧ exec (.fenceWipeTimeout c) s = .next s))

/-- A command of an instruction that is not at the PC, or that a queue or a hazard holds, changes nothing. A word that does
not decode, or that its pitch may not use, stops the pitch DENIED with FAULT_PC at it. A word that issues while its unit
cannot start only advances the PC and joins its unit's queue. MOV OUT, SND and SIG are staged for the commit; WAT waits
for its barrier or its units, or goes on; WIPE clears the core's storage; END begins the commit. Covers MOV_OUT, SND,
SIG, WAT_BARRIER, WAT_LOCAL, WIPE, END, COMMIT. Rules: R126, R128, R130, R131, R132, R133, R134, R100, R101, R116, R129,
R332. -/
def Obligations.IssueCommands : Prop :=
  ((∀ (c : CoreId) (j : PitchInstr) (s : State), canIssue s c.val = false → exec (commandOf c j) s = .next s) ∧
  (∀ (c : CoreId) (j : PitchInstr) (w : DWord) (r : Run) (s : State), canIssue s c.val = true → (s.core c.val).word = some w →
      (s.core c.val).run = some r →
    (PitchInstr.decode w = none ∨ (∃ i, PitchInstr.decode w = some i ∧ pitchAllows s r i = false)) →
    exec (commandOf c j) s = .next (endRun c.val .denied (s.core c.val).pc s)) ∧
  (∀ (c : CoreId) (i j : PitchInstr) (w : DWord) (r : Run) (s : State), canIssue s c.val = true → (s.core c.val).word = some w →
      (s.core c.val).run = some r →
    PitchInstr.decode w = some i → pitchAllows s r i = true → mustWait r i = true ∨ commandOf c j ≠ commandOf c i →
        exec (commandOf c j) s = .next s) ∧
  (∀ (c : CoreId) (i : PitchInstr) (w : DWord) (r : Run) (s : State), poised s c.val r w i → unwatched s c.val →
      completesAtIssue i = false → holdsReserve s c.val = false →
    ∃ t, exec (commandOf c i) s = .next t ∧
      (∀ k, t.core k = if k = c.val then steppedCore (s.core c.val) { r with flights := r.flights ++ [flightOf (s.core c.val) i w] } else s.core k) ∧
          only [.cores] s t)) ∧
  (∀ (c : CoreId) (w : DWord) (r : Run) (i : PitchInstr) (s : State), poised s c.val r w i → unwatched s c.val → (∀ f ∈ r.flights,
      f.done = true) →
    (∀ reg roff pml len, i = .movOut reg roff pml len → ∃ t, exec (.movOut c) s = .next t ∧
      (∀ k, t.core k = if k = c.val then steppedCore (s.core c.val) { r with outs := r.outs ++ [⟨reg, roff, pml, PitchInstr.lines len⟩] } else s.core k) ∧
          only [.cores] s t) ∧
    (∀ node vl ch pml len, i = .snd node vl ch pml len → ∃ t, exec (.snd c) s = .next t ∧
      (∀ k, t.core k = if k = c.val then steppedCore (s.core c.val) { r with snds := r.snds ++ [⟨node, vl, ch, pml, PitchInstr.lines len⟩] } else s.core k) ∧
          only [.cores] s t) ∧
    (∀ ctr inc, i = .sig ctr inc → ∃ t, exec (.sig c) s = .next t ∧
      (∀ k, t.core k = if k = c.val then steppedCore (s.core c.val) { r with sigs := r.sigs ++ [(ctr, inc)] } else s.core k) ∧
          only [.cores] s t) ∧
    (∀ ctr target, i = .watBar ctr target → ∃ t, exec (.watBarrier c) s = .next t ∧
      (∀ k, t.core k = if k = c.val then (if barrierMet s r.job.ctx.val ctr target then steppedCore (s.core c.val) r else { steppedCore (s.core c.val) r with pstate := .waitBarrier }) else s.core k) ∧
          only [.cores] s t) ∧
    (∀ us, i = .watLocal us → ∃ t, exec (.watLocal c) s = .next t ∧
      (∀ k, t.core k = if k = c.val then (if unitsBusy r us then steppedCore (s.core c.val) { r with waitUnits := some us } else steppedCore (s.core c.val) r) else s.core k) ∧
          only [.cores] s t) ∧
    (i = .wipe → ∃ t, exec (.wipe c) s = .next t ∧
      (∀ k, t.core k = if k = c.val then (steppedCore (s.core c.val) r).clearStorage else s.core k) ∧ only [.cores] s t) ∧
    (i = .fin → ∃ t, exec (.pitchEnd c) s = .next t ∧
      (∀ k, t.core k = if k = c.val then { steppedCore (s.core c.val) { r with ended := true } with pstate := .commit } else s.core k) ∧
          only [.cores] s t))

/-- On a core where the word at PC is a vector instruction that nothing holds, each VEC command carries out its operation on
every lane, in FP32 or BF16, and changes only its destination register, the pitch memory it writes, and for the
conversions the counters and the flags of the pitch. Covers VEC_ADD, VEC_SUB, VEC_MUL, VEC_FMA, VEC_MIN, VEC_MAX,
VEC_CLT, VEC_CEQ, VEC_SEL, VEC_ABS, VEC_NEG, VEC_EXP, VEC_RCP, VEC_RSQ, VEC_RSUM, VEC_RMAX, VEC_BCAST, VEC_CVTH,
VEC_CVT4, VEC_CVT6, VEC_CVT8, VEC_VLD and VEC_VST. EXP, RCP and RSQ are free within their bounds (log entry 8). Rules:
R125, R94, R95, R67, R69, R91, R93. -/
def Obligations.VectorCommands : Prop :=
  ∀ (c : CoreId) (w : DWord) (r : Run) (op : VOp) (bf : Bool) (vd va vb vc : BitVec 5) (rm : BitVec 3) (addr : BitVec 21) (s : State) (k K : Core),
    alone s c.val r w (.vec op bf vd va vb vc rm addr) → k = s.core c.val → K = carriedCore k r (.vec op bf vd va vb vc rm addr) w →
    (∀ p ∈ [(VOp.add, map2 bf fpAdd (k.reg va.toNat) (k.reg vb.toNat)), (.sub, map2 bf fpSub (k.reg va.toNat) (k.reg vb.toNat)),
        (.mul, map2 bf fpMul (k.reg va.toNat) (k.reg vb.toNat)), (.fma, map3 bf fpFma (k.reg va.toNat) (k.reg vb.toNat) (k.reg vc.toNat)),
        (.min, raw2 bf (fpMin (fmtOf bf)) (k.reg va.toNat) (k.reg vb.toNat)), (.max,
            raw2 bf (fpMax (fmtOf bf)) (k.reg va.toNat) (k.reg vb.toNat)),
        (.clt, raw2 bf (fun x y => if fpLtIeee (fmtOf bf) x y then allOnes bf else 0) (k.reg va.toNat) (k.reg vb.toNat)),
        (.ceq, raw2 bf (fun x y => if fpEq (fmtOf bf) x y then allOnes bf else 0) (k.reg va.toNat) (k.reg vb.toNat)),
        (.sel, sel bf (k.reg va.toNat) (k.reg vb.toNat) (k.reg vc.toNat)),
        (.abs, ofRaw bf ((rawLanes bf (k.reg va.toNat)).map (fpAbs (fmtOf bf)))), (.neg,
            ofRaw bf ((rawLanes bf (k.reg va.toNat)).map (fpNeg (fmtOf bf)))),
        (.exp, map1 bf fpExp (k.reg va.toNat)), (.rcp, map1 bf fpRcp (k.reg va.toNat)), (.rsq, map1 bf fpRsq (k.reg va.toNat)),
        (.rsum, lane0 bf (reduce bf (addIn bf) ((List.range (vc.toNat + 1)).map (fun j => k.reg (va.toNat + j))))),
        (.rmax, lane0 bf (reduce bf (fpMax (fmtOf bf)) ((List.range (vc.toNat + 1)).map (fun j => k.reg (va.toNat + j))))),
        (.bcast, ofRaw bf ((rawLanes bf (k.reg va.toNat)).map (fun _ => (rawLanes bf (k.reg va.toNat)).headD 0))),
        (.vld, bytesReg (k.readPm addr.toNat 512))],
      op = p.1 → ∃ t, exec (commandOf c (.vec op bf vd va vb vc rm addr)) s = .next t ∧
        (∀ n, t.core n = if n = c.val then K.setReg vd.toNat p.2 else s.core n) ∧ only [.cores] s t) ∧
    (op = .vst → ∃ t, exec (.vecVst c) s = .next t ∧
        (∀ n, t.core n = if n = c.val then K.writePm addr.toNat (regBytes (k.reg va.toNat)) else s.core n) ∧ only [.cores] s t) ∧
    (∀ q, op = .cvth → q = cvth ((RMode.ofCode rm.toNat).getD .rne) r.job.desc.id r.ord.toNat (k.reg va.toNat) →
      ∃ t, exec (.vecCvth c) s = .next t ∧ (∀ n, n ≠ c.val → t.core n = s.core n) ∧ (t.core c.val).vec = (k.setReg vd.toNat q.1).vec ∧
          (t.core c.val).pm = k.pm ∧
        (t.core c.val).nanres = satAdd k.nanres q.2.nanres ∧
            (t.core c.val).ancStat = k.ancStat ||| BitVec.ofNat 4 (b2n q.2.inx + 2 * b2n q.2.sat + 4 * b2n q.2.nan) ∧
        (∀ r', (t.core c.val).run = some r' → r'.ord = r.ord + 1 ∧ r'.inx = (r.inx || q.2.inx) ∧ r'.sat = (r.sat || q.2.sat) ∧
            r'.nan = (r.nan || q.2.nan)) ∧ only [.cores] s t) ∧
    (∀ q, op = .cvt4 ∨ op = .cvt6 ∨ op = .cvt8 →
        q = cvtBlocks (if op = .cvt4 then 4 else if op = .cvt6 then 6 else 8) ((RMode.ofCode rm.toNat).getD .rne) r.job.desc.id r.ord.toNat (k.reg va.toNat) →
      ∃ t, exec (commandOf c (.vec op bf vd va vb vc rm addr)) s = .next t ∧ (∀ n, n ≠ c.val → t.core n = s.core n) ∧
          (t.core c.val).vec = k.vec ∧ (t.core c.val).pm = memPut k.pm addr.toNat q.1 ∧
        (t.core c.val).nanres = satAdd k.nanres q.2.nanres ∧
            (t.core c.val).ancStat = k.ancStat ||| BitVec.ofNat 4 (b2n q.2.inx + 2 * b2n q.2.sat + 4 * b2n q.2.nan) ∧
        (∀ r', (t.core c.val).run = some r' → r'.ord = r.ord + 1 ∧ r'.inx = (r.inx || q.2.inx) ∧ r'.sat = (r.sat || q.2.sat) ∧
            r'.nan = (r.nan || q.2.nan)) ∧ only [.cores] s t)

/-- WLD takes the bank that R118 chooses and stores the set from pitch memory or a region, invalid until it completes. WSW
activates the bank of R119, and with none DENIES the pitch. STR of a pairing that is not the active bank's is DENIED;
otherwise it adds each token's pass to the entry rows and columns that it names and touches no other anchor.
WLD_COMPLETE makes the bank valid; BANK_DRAIN_DONE makes a draining bank idle and invalid. Covers WLD, WLD_COMPLETE,
WSW, BANK_DRAIN_DONE, STR, STR_COMPLETE. Rules: R117, R118, R119, R85, R120, R121, R74, R76, R82, R84, R87. -/
def Obligations.GridCommands : Prop :=
  (∀ (c : CoreId) (w : DWord) (r : Run) (src : Bool) (p : BitVec 4) (reg : BitVec 3) (off : BitVec 26) (b : Bool) (bytes : List Byte) (s : State) (k K : Core),
    alone s c.val r w (.wld src p reg off) → k = s.core c.val → pickBank k r = some b → weightSource s c.val r src p reg off = some bytes →
    K = steppedCore k { r with flights := [{ flightOf k (.wld src p reg off) w with bank := some b }] } →
    ∃ t, exec (.wld c) s = .next t ∧ (∀ n,
        t.core n = if n = c.val then K.setBank b { k.bank b with valid := false, pair := p, set := bytes } else s.core n) ∧
        only [.cores] s t) ∧
  (∀ (c : CoreId) (w : DWord) (r : Run) (b : Bool) (s : State), alone s c.val r w .wsw → pickSwap (s.core c.val) = some b →
    ∃ t, exec (.wsw c) s = .next t ∧ (∀ n, t.core n = if n = c.val then swapBanks (steppedCore (s.core c.val) r) b else s.core n) ∧
        only [.cores] s t) ∧
  (∀ (c : CoreId) (w : DWord) (r : Run) (s : State), alone s c.val r w .wsw → pickSwap (s.core c.val) = none →
    ∃ u, exec (.wsw c) s = .next (endRun c.val .denied (s.core c.val).pc u) ∧ only [.cores] s u) ∧
  (∀ (c : CoreId) (w : DWord) (r : Run) (p : BitVec 4) (act : BitVec 15) (e0 : BitVec 8) (n : BitVec 9) (b : BitVec 2) (stride : BitVec 14) (s : State),
    alone s c.val r w (.str p act e0 n b stride) → (∀ bk, (s.core c.val).activeBank = some bk → bk.pair ≠ p) →
    ∃ u, exec (.str c) s = .next (endRun c.val .denied (s.core c.val).pc u) ∧ only [.cores] s u) ∧
  (∀ (c : CoreId) (w : DWord) (r : Run) (p : BitVec 4) (act : BitVec 15) (e0 : BitVec 8) (n : BitVec 9) (b : BitVec 2) (stride : BitVec 14) (bk : Bank) (fa fw : OpFmt) (g : Nat) (s : State) (k : Core),
    alone s c.val r w (.str p act e0 n b stride) → k = s.core c.val → k.activeBank = some bk → bk.pair = p → pairing p.toNat = some (fa,
        fw, g) → 16 * b.toNat + 64 / g ≤ 64 →
    ∃ t, exec (.str c) s = .next t ∧ (∀ m, m ≠ c.val → t.core m = s.core m) ∧
      t.core c.val = { carriedCore k r (.str p act e0 n b stride) w with anc := (t.core c.val).anc } ∧
      (∀ e a, a < 64 → (t.core c.val).anchor e a = if (e0.toNat ≤ e ∧ e < e0.toNat + n.toNat) ∧ 16 * b.toNat ≤ a ∧
          a < 16 * b.toNat + 64 / g then
        (k.anchor e a).pass (passPairs fa fw (k.readPm ((act.toNat + (e - e0.toNat) * stride.toNat) * 64) (64 * fa.bytes)) bk.set (a - 16 * b.toNat)) else k.anchor e a) ∧
            only [.cores] s t) ∧
  (∀ (c : CoreId) (s : State), (s.core c.val).run = none → exec (.wldComplete c) s = .next s ∧ exec (.strComplete c) s = .next s) ∧
  (∀ (c : CoreId) (s : State) (r : Run) (f : Flight), (s.core c.val).run = some r → s.dbg.tracing.contains c.val = false →
    (r.flights.find? (fun f => f.bank.isSome) = some f → holdsReserve s c.val = false → ∃ t, exec (.wldComplete c) s = .next t ∧
      (∀ n, t.core n = if n = c.val then { (s.core c.val).setBank (f.bank.getD false) { (s.core c.val).bank (f.bank.getD false) with valid := true, order := (s.core c.val).loads + 1 } with
        loads := (s.core c.val).loads + 1, wdog := 0, run := some { r with flights := r.flights.filter (fun g => g.pc != f.pc) } } else s.core n) ∧ only [.cores] s t) ∧
    (oldestDone r 1 = some f → ∃ t, exec (.strComplete c) s = .next t ∧
      (∀ n, t.core n = if n = c.val then { s.core c.val with wdog := 0, run := some { r with flights := r.flights.filter (fun g => g.pc != f.pc) } } else s.core n) ∧
          only [.cores] s t)) ∧
  (∀ (c : CoreId) (s : State), holdsReserve s c.val = false → ∃ t, exec (.bankDrainDone c) s = .next t ∧
    (∀ n, t.core n = if n = c.val then { s.core c.val with
      bankA := if (s.core c.val).bankA.st = .draining then { (s.core c.val).bankA with st := .idle, valid := false } else (s.core c.val).bankA
      bankB := if (s.core c.val).bankB.st = .draining then { (s.core c.val).bankB with st := .idle, valid := false } else (s.core c.val).bankB } else s.core n) ∧ only [.cores] s t)

/-- MOV IN copies the lines of its region to pitch memory, and a failed read ends the pitch with CRC. MOV LOCAL copies
within pitch memory, from the bytes before the copy. RCV takes its channel's next lines where enough have arrived and
counts them as taken; else it stays in its queue. Nothing else of the core changes but PC and its flight. Covers MOV_IN,
MOV_LOCAL, RCV. Rules: R126, R128, R109, R160. -/
def Obligations.MoveCommands : Prop :=
  (∀ (c : CoreId) (w : DWord) (r : Run) (reg : BitVec 3) (roff : BitVec 26) (pml : BitVec 15) (len : BitVec 12) (bs : List Byte) (s : State),
    alone s c.val r w (.movIn reg roff pml len) →
    gread s r.job.ctx.val (gaSpace (r.region reg).base) (gaOff (r.region reg).base + roff.toNat * 64) (PitchInstr.lines len * 64) = some bs →
    ∃ t, exec (.movIn c) s = .next t ∧
      (∀ n, t.core n = if n = c.val then (carriedCore (s.core c.val) r (.movIn reg roff pml len) w).writePm (pml.toNat * 64) bs else s.core n) ∧
          only [.cores] s t) ∧
  (∀ (c : CoreId) (w : DWord) (r : Run) (reg : BitVec 3) (roff : BitVec 26) (pml : BitVec 15) (len : BitVec 12) (s : State),
    alone s c.val r w (.movIn reg roff pml len) →
    gread s r.job.ctx.val (gaSpace (r.region reg).base) (gaOff (r.region reg).base + roff.toNat * 64) (PitchInstr.lines len * 64) = none →
    ∃ u, exec (.movIn c) s = .next (endRun c.val .crc (s.core c.val).pc u) ∧ only [.cores, .hdrs, .host, .glob, .mesh, .ledge, .hbm,
        .evts] s u) ∧
  (∀ (c : CoreId) (w : DWord) (r : Run) (src dst : BitVec 15) (len : BitVec 12) (s : State), alone s c.val r w (.movLocal src dst len) →
    ∃ t, exec (.movLocal c) s = .next t ∧
      (∀ n, t.core n = if n = c.val then (carriedCore (s.core c.val) r (.movLocal src dst len) w).writePm (dst.toNat * 64)
        ((s.core c.val).readPm (src.toNat * 64) (PitchInstr.lines len * 64)) else s.core n) ∧ only [.cores] s t) ∧
  (∀ (c : CoreId) (w : DWord) (r : Run) (ch : BitVec 4) (pml : BitVec 15) (len : BitVec 12) (bs : List Byte) (q : Chan) (s : State),
    alone s c.val r w (.rcv ch pml len) → q = s.chan r.job.ctx.val ch.toNat →
    r.takenOf ch.toNat + PitchInstr.lines len ≤ (q.wp - q.rp).toNat →
    chanLines s r.job.ctx.val ch.toNat (q.rp.toNat + r.takenOf ch.toNat) (PitchInstr.lines len) = some bs →
    ∃ t, exec (.rcv c) s = .next t ∧
      (∀ n, t.core n = if n = c.val then (carriedCore (s.core c.val) { r with taken := fput 0 ch.toNat (r.takenOf ch.toNat + PitchInstr.lines len) r.taken }
        (.rcv ch pml len) w).writePm (pml.toNat * 64) bs else s.core n) ∧ only [.cores] s t) ∧
  (∀ (c : CoreId) (w : DWord) (r : Run) (ch : BitVec 4) (pml : BitVec 15) (len : BitVec 12) (q : Chan) (s : State),
    alone s c.val r w (.rcv ch pml len) → q = s.chan r.job.ctx.val ch.toNat →
        (q.wp - q.rp).toNat < r.takenOf ch.toNat + PitchInstr.lines len →
    ∃ t, exec (.rcv c) s = .next t ∧
      (∀ n, t.core n = if n = c.val then steppedCore (s.core c.val) { r with flights := [flightOf (s.core c.val) (.rcv ch pml len) w] } else s.core n) ∧
          only [.cores] s t)

/-- ANC.CLR clears the entries of its rows with their window exponent. ANC.EXP writes the raw records and leaves the
entries. ANC.RD writes the converted rows to pitch memory or vector registers, clears the entries it read where CLR is
set, and adds its flags to the pitch and its counts to the core. ANC.MRG merges raw records into the entries. Residue
failures set the core error; entries outside the rows and columns named are untouched. Covers ANC_CLR, ANC_RD, ANC_EXP,
ANC_MRG. Rules: R122, R123, R124, R62, R51, R59, R60, R61, R66, R68, R69, R86. -/
def Obligations.AnchorCommands : Prop :=
  (∀ (c : CoreId) (w : DWord) (r : Run) (l : BitVec 10) (e0 : BitVec 8) (n : BitVec 9) (s : State), alone s c.val r w (.ancClr l e0 n) →
    ∃ t, exec (.ancClr c) s = .next t ∧ (∀ m, m ≠ c.val → t.core m = s.core m) ∧
      t.core c.val = { carriedCore (s.core c.val) r (.ancClr l e0 n) w with anc := (t.core c.val).anc } ∧
      (∀ e a, a < 64 → (t.core c.val).anchor e a = if e0.toNat ≤ e ∧
          e < e0.toNat + n.toNat then Anchor.cleared l else (s.core c.val).anchor e a) ∧ only [.cores] s t) ∧
  (∀ (c : CoreId) (w : DWord) (r : Run) (e0 : BitVec 8) (n : BitVec 9) (dst : BitVec 21) (cs cc : BitVec 2) (s : State) (k : Core) (es : List Anchor),
      alone s c.val r w (.ancExp e0 n dst cs cc) →
    k = s.core c.val → es = (List.range n.toNat).flatMap (fun i => (quarterCols cs cc).map (fun a => k.anchor (e0.toNat + i) a)) →
    ∃ t, exec (.ancExp c) s = .next t ∧ (∀ m, m ≠ c.val → t.core m = s.core m) ∧
      (t.core c.val).pm = memPut k.pm dst.toNat (es.flatMap Anchor.record) ∧ (t.core c.val).anc = k.anc ∧ (t.core c.val).vec = k.vec ∧
      (t.core c.val).unchk = satAdd k.unchk (joinReports (es.map checkEntry)).unchk ∧
      (t.core c.val).errCause = (if (joinReports (es.map checkEntry)).resfail then k.errCause ||| 1 else k.errCause) ∧
      (∀ r', (t.core c.val).run = some r' → r'.residue = (r.residue || (joinReports (es.map checkEntry)).resfail) ∧ r'.ord = r.ord) ∧
          only [.hdrs, .cores, .host, .glob] s t) ∧
  (∀ (c : CoreId) (w : DWord) (r : Run) (fmt : BitVec 4) (rm : BitVec 3) (clr vr : Bool) (e0 : BitVec 8) (n : BitVec 9) (dst : BitVec 21) (cs cc : BitVec 2) (md : RMode) (s : State) (k : Core)
      (recs : List (List Byte × Report)) (rep : Report),
    alone s c.val r w (.ancRd fmt rm clr vr e0 n dst cs cc) → RMode.ofCode rm.toNat = some md → k = s.core c.val →
    recs = (List.range n.toNat).map (fun i => rowRecord k fmt.toNat md r.job.desc.id r.ord.toNat (e0.toNat + i) cs cc) →
    rep = joinReports (recs.map (·.2) ++ (List.range n.toNat).flatMap (fun i => (quarterCols cs cc).map (fun a => checkEntry (k.anchor (e0.toNat + i) a)))) →
    ∃ t, exec (.ancRd c) s = .next t ∧ (∀ m, m ≠ c.val → t.core m = s.core m) ∧
      (vr = false → (t.core c.val).pm = memPut k.pm dst.toNat (recs.map (·.1)).flatten ∧ (t.core c.val).vec = k.vec) ∧
      (vr = true → (t.core c.val).pm = k.pm ∧ (t.core c.val).vec = ((List.range (n.toNat / 2)).foldl (fun k2 i =>
          k2.setReg (dst.toNat + i) (rowsToReg ((recs.map (·.1)).getD (2 * i) []) ((recs.map (·.1)).getD (2 * i + 1) []))) k).vec) ∧
      (cs.toNat + cc.toNat ≤ 3 → ∀ e a, a < 64 → (t.core c.val).anchor e a =
        if clr = true ∧ (e0.toNat ≤ e ∧ e < e0.toNat + n.toNat) ∧
            a ∈ quarterCols cs cc then Anchor.cleared (k.anchor e a).l else k.anchor e a) ∧
      (t.core c.val).ancStat = k.ancStat ||| BitVec.ofNat 4 (b2n rep.inx + 2 * b2n rep.sat + 4 * b2n rep.nan + 8 * b2n rep.resfail) ∧
      (t.core c.val).unchk = satAdd k.unchk rep.unchk ∧ (t.core c.val).nanres = satAdd k.nanres rep.nanres ∧
      (t.core c.val).errCause = (if rep.resfail then k.errCause ||| 1 else k.errCause) ∧
      (∀ r', (t.core c.val).run = some r' → r'.ord = r.ord + 1 ∧ r'.inx = (r.inx || rep.inx) ∧ r'.sat = (r.sat || rep.sat) ∧
          r'.nan = (r.nan || rep.nan) ∧ r'.residue = (r.residue || rep.resfail)) ∧
      only [.hdrs, .cores, .host, .glob] s t) ∧
  (∀ (c : CoreId) (w : DWord) (r : Run) (e0 : BitVec 8) (n : BitVec 9) (src : BitVec 21) (cs cc : BitVec 2) (s : State) (k : Core) (rd : Nat →
      Nat → RawRec),
    alone s c.val r w (.ancMrg e0 n src cs cc) → k = s.core c.val → cs.toNat + cc.toNat ≤ 3 →
    rd = (fun i j => RawRec.ofBytes (k.readPm (src.toNat + 32 * (i * (16 * (cc.toNat + 1)) + j)) 32)) →
    ∃ t, exec (.ancMrg c) s = .next t ∧ (∀ m, m ≠ c.val → t.core m = s.core m) ∧ (t.core c.val).pm = k.pm ∧ (t.core c.val).vec = k.vec ∧
      (∀ i j, i < n.toNat → j < 16 * (cc.toNat + 1) →
          (t.core c.val).anchor (e0.toNat + i) (16 * cs.toNat + j) = (k.anchor (e0.toNat + i) (16 * cs.toNat + j)).merge (rd i j)) ∧
      (∀ e a, a < 64 → ¬ (∃ i j, i < n.toNat ∧ j < 16 * (cc.toNat + 1) ∧ e = e0.toNat + i ∧ a = 16 * cs.toNat + j) →
          (t.core c.val).anchor e a = k.anchor e a) ∧
      ((∃ i j, i < n.toNat ∧ j < 16 * (cc.toNat + 1) ∧ (rd i j).residueFails = true) → (t.core c.val).errCause = k.errCause ||| 1) ∧
      ((∀ i j, i < n.toNat → j < 16 * (cc.toNat + 1) → (rd i j).residueFails = false) → (t.core c.val).errCause = k.errCause) ∧
      only [.hdrs, .cores, .host, .glob] s t)

/-- With no pitch, and on a pitch whose commit's first phase is past, the stops change nothing. CORE_ABORT ends a pitch
ABORTED and CYCLE_BUDGET_CUTOFF OVERRUN with the context's OVR set; SEQUENCER_WATCHDOG and PARITY_ERROR stop it with a
stop record and the core error. COMMIT of a drained pitch publishes its outputs and signals and ends it SATURATED,
INEXACT or OK. PROGRAM_FETCH takes a segment that ends in END, DENIES one that does not, and ends the pitch with CRC
where the read fails. Covers PROGRAM_FETCH, COMMIT, CYCLE_BUDGET_CUTOFF, SEQUENCER_WATCHDOG, PARITY_ERROR, CORE_ABORT.
Rules: R114, R134, R140, R102, R103, R107, R135, R137, R141, R142, R213, R334. -/
def Obligations.PitchRunCommands : Prop :=
  (∀ (c : CoreId) (s : State), (s.core c.val).run = none → exec (.coreAbort c) s = .next s ∧ exec (.commit c) s = .next s ∧
      exec (.cycleBudgetCutoff c) s = .next s ∧
    exec (.sequencerWatchdog c) s = .next s ∧ (∀ b, exec (.programFetch c b) s = .next s)) ∧
  (∀ (c : CoreId) (r : Run) (s : State), (s.core c.val).run = some r → drained r = true → exec (.coreAbort c) s = .next s ∧
      exec (.cycleBudgetCutoff c) s = .next s ∧ exec (.sequencerWatchdog c) s = .next s) ∧
  (∀ (c : CoreId) (r : Run) (s : State), lone s c.val r → drained r = false →
    (∃ t, exec (.coreAbort c) s = .next t ∧ pitchEnded s t c.val .aborted ∧ only [.reply, .hdrs, .cores, .ctls, .host, .glob, .pwr,
        .dbg] s t) ∧
    (r.started = true → ∃ t, exec (.cycleBudgetCutoff c) s = .next t ∧ pitchEnded s t c.val .overrun ∧ (t.cx r.job.ctx.val).ovr = true ∧
      (2 * r.job.desc.budget.toNat ≤ 0xFFFFFFFF → 2 * r.job.desc.budget.toNat ≤ (t.core c.val).cycles.toNat)) ∧
    (r.started = true → ∃ t, exec (.sequencerWatchdog c) s = .next t ∧ (t.core c.val).run = none ∧
        (t.core c.val).errCause = (s.core c.val).errCause ||| 2 ∧
      t.fence.stops = s.fence.stops ++ [⟨c.val, r.job, false, true, [], 1⟩] ∧ (t.hdr (pgCore c.val)).stat &&& bitMask 1 = bitMask 1 ∧
          (t.ctl c.val).bal = 0 ∧
      only [.hdrs, .cores, .ctls, .fence, .host, .glob, .pwr] s t)) ∧
  (∀ (c : CoreId) (unit : Fin 6) (ix : BitVec 20) (s : State), (s.core c.val).run = none → ∃ t, exec (.parityError c unit ix) s = .next t ∧
    (∀ k, t.core k = if k = c.val then { s.core c.val with
      parAddr := BitVec.ofNat 24 (unit.val + 16 * ix.toNat), parV := true, errCause := (s.core c.val).errCause ||| (1#8 <<< parityCause unit.val) } else s.core k) ∧
    (t.hdr (pgCore c.val)).stat &&& bitMask 1 = bitMask 1 ∧ only [.hdrs, .cores, .host, .glob] s t) ∧
  (∀ (c : CoreId) (unit : Fin 6) (ix : BitVec 20) (r : Run) (s : State), (s.core c.val).run = some r → (s.core c.val).next = none → ∃ t,
      exec (.parityError c unit ix) s = .next t ∧
    (t.core c.val).run = none ∧ t.fence.stops = s.fence.stops ++ [⟨c.val, r.job, false, true, [], parityCause unit.val⟩] ∧ only [.hdrs,
        .cores, .ctls, .fence, .host, .glob, .pwr] s t) ∧
  (∀ (c : CoreId) (r : Run) (s : State), (s.core c.val).run = some r → r.ended = false ∨ r.flights ≠ [] ∨ (s.ctl c.val).switching = true →
      exec (.commit c) s = .next s) ∧
  (∀ (c : CoreId) (r : Run) (s : State), lone s c.val r → r.ended = true → r.flights = [] → (s.ctl c.val).switching = false →
      r.residue = false →
      r.outs = [] → r.snds = [] → r.taken = [] → r.sigs = [] →
    ∃ t, exec (.commit c) s = .next t ∧ pitchEnded s t c.val (if r.sat then .saturated else if r.inx then .inexact else .ok)) ∧
  (∀ (c : CoreId) (r : Run) (s : State), (s.core c.val).run = some r → r.ended = true → r.flights = [] → (s.ctl c.val).switching = false →
      r.residue = false →
      holdsReserve s c.val = true → r.snds = [] → r.taken = [] → r.outs.all (outOk s r) = true →
    exec (.commit c) s = .next (endRun c.val (if r.sat then .saturated else if r.inx then .inexact else .ok) 0xFFFF
      (forAll r.sigs (fun e t => publishSig r.job.ctx.val e t) (forAll r.outs (fun m t =>
        gwrite r.job.ctx.val (gaSpace (r.region m.reg).base) (gaOff (r.region m.reg).base + m.roff.toNat * 64) ((t.core c.val).readPm (m.pml.toNat * 64) (m.lines * 64)) t) s)))) ∧
  (∀ (c : CoreId) (r : Run) (ws : List DWord) (s : State), (s.core c.val).run = some r → r.fetched = false → segment s r.job = some ws →
      endsInEnd ws = true → ∃ t, exec (.programFetch c false) s = .next t ∧
    (∀ k, t.core k = if k = c.val then { s.core c.val with
      ibuf := ws, run := some { r with fetched := true }, pstate := if r.granted = true ∧ (s.core c.val).pstate = .waitTokens then .run else (s.core c.val).pstate } else s.core k) ∧ only [.cores] s t) ∧
  (∀ (c : CoreId) (r : Run) (ws : List DWord) (s : State), (s.core c.val).run = some r → r.fetched = false → segment s r.job = some ws →
      endsInEnd ws = false →
    exec (.programFetch c false) s = .next (endRun c.val .denied (r.job.desc.progLen - 1) s)) ∧
  (∀ (c : CoreId) (r : Run) (b : Bool) (s : State), (s.core c.val).run = some r → r.fetched = false → b = true ∨ segment s r.job = none →
    ∃ u, exec (.programFetch c b) s = .next (endRun c.val .crc 0xFFFF u) ∧ only [.hdrs, .ledge, .mesh, .hbm, .host, .glob, .evts] s u) ∧
  (∀ (c : CoreId) (r : Run) (j : PitchJob) (ws : List DWord) (s : State), (s.core c.val).run = some r → r.fetched = true →
      (s.core c.val).next = some j → segment s j = some ws → endsInEnd ws = true →
    ∃ t, exec (.programFetch c false) s = .next t ∧ (∀ k,
        t.core k = if k = c.val then { s.core c.val with nextBuf := ws, nextFetched := true } else s.core k) ∧ only [.cores] s t)

/-- PITCH_DISPATCH starts the oldest queued pitch of a logical core on its idle core, or holds it as the next one, and does
nothing where the core is closed or has both. HALT holds and releases the sequencer, and its boundary raises HALT_ACK
once. INSTRUCTION_COMPLETE retires the oldest instruction that its unit has carried out. A WAT is released when its
counter has reached the target, or when its units are idle. Covers WAT_BARRIER_RELEASE, WAT_LOCAL_RELEASE,
PITCH_DISPATCH, CORE_HALT, HALT_BOUNDARY_REACHED, BIND, DBG_HALT, INSTRUCTION_COMPLETE. Rules: R130, R131, R194, R107,
R210, R491, R113, R114, R129, R193. -/
def Obligations.CoreControlCommands : Prop :=
  (∀ (l c : CoreId) (x : CtxId) (j : PitchJob) (s : State), physOf s l.val = some c.val → (s.ctl c.val).owner = some x →
      (s.cx x.val).queue.find? (fun j => j.lcore.toNat == l.val) = some j →
      coreOpen s c.val = true → heldByPage s j = false → shared s x l.val = false →
    ((s.core c.val).run = none → (s.core c.val).next = none → ∃ t, exec (.pitchDispatch l) s = .next t ∧
      (t.core c.val).run = some { job := { j with runs := j.runs + 1, reissue := false } } ∧ (t.core c.val).pc = 0 ∧
          (t.core c.val).pstate = .waitTokens ∧ (t.core c.val).pitchId = j.desc.id ∧
      (∀ y, t.cx y = if y = x.val then { s.cx x.val with queue := (s.cx x.val).queue.erase j } else s.cx y) ∧ only [.hdrs, .cores, .ctls,
          .ctx, .host, .glob, .sec, .dbg] s t) ∧
    ((s.core c.val).run ≠ none → (s.core c.val).next = none → ∃ t, exec (.pitchDispatch l) s = .next t ∧ (∀ k,
        t.core k = if k = c.val then { s.core c.val with next := some j } else s.core k) ∧
      (∀ y, t.cx y = if y = x.val then { s.cx x.val with queue := (s.cx x.val).queue.erase j } else s.cx y) ∧ only [.cores, .ctx] s t) ∧
    ((s.core c.val).next ≠ none → exec (.pitchDispatch l) s = .next s)) ∧
  (∀ (l : CoreId) (s : State), (physOf s l.val = none ∨ (∃ c, physOf s l.val = some c ∧ (coreOpen s c = false ∨ (s.ctl c).owner = none))) →
      exec (.pitchDispatch l) s = .next s) ∧
  (∀ (c : CoreId) (s : State),
    (∃ t, exec (.coreHalt c true) s = .next t ∧ (∀ k, t.ctl k = if k = c.val then { s.ctl c.val with halt := true } else s.ctl k) ∧
        only [.ctls] s t) ∧
    ((s.ctl c.val).dbgHalt = false → ∃ t, exec (.coreHalt c false) s = .next t ∧ (∀ k,
        t.ctl k = if k = c.val then { s.ctl c.val with halt := false, halted := false, stepping := false } else s.ctl k) ∧
        only [.ctls] s t) ∧
    ((s.ctl c.val).dbgHalt = true → ∃ t, exec (.coreHalt c false) s = .next t ∧ (∀ k,
        t.ctl k = if k = c.val then { s.ctl c.val with halt := false } else s.ctl k) ∧ only [.ctls] s t) ∧
    ((s.ctl c.val).halt = true ∨ (s.ctl c.val).dbgHalt = true → (s.ctl c.val).halted = false → (s.ctl c.val).stepping = false → ∃ t,
        exec (.haltBoundaryReached c) s = .next t ∧
      (∀ k, t.ctl k = if k = c.val then { s.ctl c.val with halted := true } else s.ctl k) ∧
          (t.hdr (pgCore c.val)).stat &&& bitMask 3 = bitMask 3 ∧ only [.hdrs, .ctls, .host, .glob] s t) ∧
    (((s.ctl c.val).halt = false ∧ (s.ctl c.val).dbgHalt = false) ∨ (s.ctl c.val).halted = true ∨ (s.ctl c.val).stepping = true →
        exec (.haltBoundaryReached c) s = .next s)) ∧
  (∀ (c : CoreId) (u : Fin 6) (r : Run) (f : Flight) (s : State), (s.core c.val).run = some r → holdsReserve s c.val = false →
      s.dbg.tracing.contains c.val = false →
    ((u.val = 2 ∨ u.val = 3 ∨ u.val = 4) → oldestDone r u.val = some f → ∃ t, exec (.instructionComplete c u) s = .next t ∧
      (∀ n, t.core n = if n = c.val then { s.core c.val with wdog := 0, run := some { r with flights := r.flights.filter (fun g => g.pc != f.pc) } } else s.core n) ∧
          only [.cores] s t) ∧
    (u.val = 0 ∨ u.val = 1 ∨ u.val = 5 ∨ oldestDone r u.val = none → exec (.instructionComplete c u) s = .next s)) ∧
  (∀ (c : CoreId) (r : Run) (ctr : BitVec 6) (target : Word) (s : State), (s.core c.val).run = some r →
      ((s.core c.val).ibuf[(s.core c.val).pc.toNat - 1]?).bind PitchInstr.decode = some (.watBar ctr target) →
    ((s.core c.val).pstate = .waitBarrier → (fget 0 (s.cx r.job.ctx.val).bars ctr.toNat - target).toNat < 2 ^ 31 → ∃ t,
        exec (.watBarrierRelease c) s = .next t ∧
      (∀ k, t.core k = if k = c.val then { s.core c.val with pstate := .run } else s.core k) ∧ only [.cores] s t) ∧
    ((s.core c.val).pstate ≠ .waitBarrier ∨ 2 ^ 31 ≤ (fget 0 (s.cx r.job.ctx.val).bars ctr.toNat - target).toNat →
        exec (.watBarrierRelease c) s = .next s)) ∧
  (∀ (c : CoreId) (r : Run) (us : BitVec 5) (s : State), (s.core c.val).run = some r → r.waitUnits = some us →
    ∃ t, exec (.watLocalRelease c) s = .next t ∧
      (∀ k, t.core k = if k = c.val then { s.core c.val with run := some { r with waitUnits := if r.flights.any (fun f => us.getLsbD f.unit.val) then some us else none } } else s.core k) ∧
          only [.cores] s t)

/-- MESH_BLOCK_FORWARD sends the block on by dimension order, whatever its CRC. Read data that arrives whole is answered;
with a bad CRC or poison it is fetched again, up to three times, then fails with CRC. A read request is answered with
the data, or with a NAK for a bad CRC; a write stores and is acknowledged, or is refused with a NAK. The end of a bank's
or a pseudo-channel's copy marks it retired and raises COPY_DONE. Covers MESH_BLOCK_FORWARD, MESH_READ_DATA_RX,
MESH_READ_REQUEST_RX, MESH_WRITE_RX, MESH_WRITE_ACK_RX, MESH_NAK_RX, LEDGE_SPARE_COPY_DONE, HBM_CORRECTED_ERROR,
HBM_RETIRE_COPY_DONE. Rules: R159, R160, R157, R161, R162, R151, R166, R169, R155, R156, R158. -/
def Obligations.MeshCommands : Prop :=
  (∀ (router : CoreId) (dir : Fin 5) (hdr : BitVec 128) (payload : List Byte) (s : State), ∃ t,
      exec (.meshBlockForward router dir hdr payload) s = .next t ∧
    t.mesh.sent = [(Fin.ofNat 5 (exitSide router.val (MHdr.ofBits hdr).dst (MHdr.ofBits hdr).vc), ⟨hdr, payload⟩)] ∧
    (crcOk hdr payload = true → only [.mesh] s t) ∧ only [.hdrs, .mesh, .host, .glob, .evts] s t) ∧
  (∀ (hdr : BitVec 128) (payload : List Byte) (hop : Option (CoreId × Fin 5)) (s : State),
    (crcOk hdr payload = true → (MHdr.ofBits hdr).poison = false → ∃ t, exec (.meshReadDataRx hdr payload hop) s = .next t ∧
      t.reply = { status := some .ok, bytes := payload } ∧ t.mesh.sent = [] ∧ t.cores = s.cores ∧ ((MHdr.ofBits hdr).attempt = 0 →
          only [.reply, .mesh] s t)) ∧
    ((crcOk hdr payload = false ∨ (MHdr.ofBits hdr).poison = true) → (MHdr.ofBits hdr).attempt < 3 → ∃ t,
        exec (.meshReadDataRx hdr payload hop) s = .next t ∧
      t.mesh.refetch = satInc s.mesh.refetch ∧
      (∀ vc, channelFor s 0 (MHdr.ofBits hdr).dst (MHdr.ofBits hdr).src = some vc → only [.mesh] s t ∧
        t.mesh.sent = [(Fin.ofNat 5 (exitSide (stopRouter (MHdr.ofBits hdr).dst) (MHdr.ofBits hdr).src vc),
          { MHdr.ofBits hdr with dst := (MHdr.ofBits hdr).src, src := (MHdr.ofBits hdr).dst, type := 0, vc := vc, len := 0, poison := false, attempt := (MHdr.ofBits hdr).attempt + 1 }.block [])])) ∧
    ((crcOk hdr payload = false ∨ (MHdr.ofBits hdr).poison = true) → 3 ≤ (MHdr.ofBits hdr).attempt → ∃ t,
        exec (.meshReadDataRx hdr payload hop) s = .next t ∧
      t.reply.status = some .crc ∧ only [.reply, .hdrs, .cores, .ctls, .ledge, .mesh, .hbm, .ctx, .fence, .host, .glob, .pwr, .sec, .dbg,
          .evts] s t)) ∧
  (∀ (hdr : BitVec 128) (s : State),
    (∀ p vc, crcOk hdr [] = true → targetPhys (MHdr.ofBits hdr).dst (MHdr.ofBits hdr).addr = some p →
        channelFor s 1 (MHdr.ofBits hdr).dst (MHdr.ofBits hdr).src = some vc →
      ∃ t, exec (.meshReadRequestRx hdr) s = .next t ∧ only [.mesh] s t ∧
        t.mesh.sent = [(Fin.ofNat 5 (exitSide (stopRouter (MHdr.ofBits hdr).dst) (MHdr.ofBits hdr).src vc),
          { MHdr.ofBits hdr with dst := (MHdr.ofBits hdr).src, src := (MHdr.ofBits hdr).dst, type := 1, vc := vc, poison := physBad s p }.block
            (memRead (if p.hbm then s.hbm.mem else s.ledge.mem) p.addr (64 * ((MHdr.ofBits hdr).len + 1))))]) ∧
    (∀ vc, crcOk hdr [] = false → channelFor s 1 (MHdr.ofBits hdr).dst (MHdr.ofBits hdr).src = some vc → ∃ t,
        exec (.meshReadRequestRx hdr) s = .next t ∧ only [.mesh] s t ∧
        t.mesh.sent = [(Fin.ofNat 5 (exitSide (stopRouter (MHdr.ofBits hdr).dst) (MHdr.ofBits hdr).src vc),
          { MHdr.ofBits hdr with dst := (MHdr.ofBits hdr).src, src := (MHdr.ofBits hdr).dst, type := 4, vc := vc, len := 0 }.block [])])) ∧
  (∀ (hdr : BitVec 128) (payload : List Byte) (p : Phys) (vc : Nat) (s : State),
      targetPhys (MHdr.ofBits hdr).dst (MHdr.ofBits hdr).addr = some p →
      channelFor s 1 (MHdr.ofBits hdr).dst (MHdr.ofBits hdr).src = some vc →
    (crcOk hdr payload = true → (p.hbm = true ∨ (fget {} s.ledge.banks (p.addr / 2 ^ 20)).st ≠ 3) → (MHdr.ofBits hdr).poison = false → ∃ t,
        exec (.meshWriteRx hdr payload) s = .next t ∧
      only [.ledge, .hbm, .mesh] s t ∧ t.ledge = (physPut p (payload.take (64 * ((MHdr.ofBits hdr).len + 1))) s).ledge ∧
          t.hbm = (physPut p (payload.take (64 * ((MHdr.ofBits hdr).len + 1))) s).hbm ∧
      t.mesh.sent = [(Fin.ofNat 5 (exitSide (stopRouter (MHdr.ofBits hdr).dst) (MHdr.ofBits hdr).src vc),
          { MHdr.ofBits hdr with dst := (MHdr.ofBits hdr).src, src := (MHdr.ofBits hdr).dst, type := 3, vc := vc, len := 0, poison := false }.block [])]) ∧
    ((crcOk hdr payload = false ∨ (p.hbm = false ∧ (fget {} s.ledge.banks (p.addr / 2 ^ 20)).st = 3)) → ∃ t,
        exec (.meshWriteRx hdr payload) s = .next t ∧ only [.mesh] s t ∧
      t.mesh.sent = [(Fin.ofNat 5 (exitSide (stopRouter (MHdr.ofBits hdr).dst) (MHdr.ofBits hdr).src vc),
          { MHdr.ofBits hdr with dst := (MHdr.ofBits hdr).src, src := (MHdr.ofBits hdr).dst, type := 4, vc := vc, len := 0, poison := false }.block [])])) ∧
  (∀ (hdr : BitVec 128) (s : State), ∃ t, exec (.meshWriteAckRx hdr) s = .next t ∧ t.mesh = { s.mesh with sent := [] } ∧
    (crcOk hdr [] = true → t.reply = { status := some .ok, value := BitVec.ofNat 64 (MHdr.ofBits hdr).tag }) ∧ (crcOk hdr [] = false →
        t.reply = s.reply) ∧ only [.reply, .mesh] s t) ∧
  (∀ (hdr : BitVec 128) (hop : Option (CoreId × Fin 5)) (s : State),
    ((MHdr.ofBits hdr).attempt < 3 → ∃ t, exec (.meshNakRx hdr hop) s = .next t ∧ t.mesh.refetch = satInc s.mesh.refetch ∧
      (∀ vc, channelFor s 0 (MHdr.ofBits hdr).dst (MHdr.ofBits hdr).src = some vc → only [.mesh] s t ∧
        t.mesh.sent = [(Fin.ofNat 5 (exitSide (stopRouter (MHdr.ofBits hdr).dst) (MHdr.ofBits hdr).src vc),
          { MHdr.ofBits hdr with dst := (MHdr.ofBits hdr).src, src := (MHdr.ofBits hdr).dst, type := 2, vc := vc, attempt := (MHdr.ofBits hdr).attempt + 1 }.block [])])) ∧
    (3 ≤ (MHdr.ofBits hdr).attempt → (s.core (MHdr.ofBits hdr).dst).run = none → hop = none → ∃ t, exec (.meshNakRx hdr hop) s = .next t ∧
      t.mesh = { s.mesh with sent := [], failed := satInc s.mesh.failed } ∧ (t.hdr pgMesh).stat &&& bitMask 2 = bitMask 2 ∧ only [.hdrs,
          .mesh, .host, .glob] s t)) ∧
  (∀ (g : BitVec 12) (s : State),
    ((fget {} s.ledge.banks g.toNat).st = 1 → ∃ t, exec (.ledgeSpareCopyDone g) s = .next t ∧
      (∀ k, fget {} t.ledge.banks k = if k = g.toNat then { fget {} s.ledge.banks g.toNat with st := 2, ptr := 4096 } else fget {} s.ledge.banks k) ∧
      t.ledge.mem = s.ledge.mem ∧ (t.hdr pgLedge).stat &&& bitMask 4 = bitMask 4 ∧ only [.hdrs, .ledge, .host, .glob] s t) ∧
    ((fget {} s.ledge.banks g.toNat).st ≠ 1 → exec (.ledgeSpareCopyDone g) s = .next s)) ∧
  (∀ (pc : BitVec 8) (s : State),
    ((fget {} s.hbm.pcs pc.toNat).st = 1 → ∃ t, exec (.hbmRetireCopyDone pc) s = .next t ∧
      (∀ k, k ≠ pc.toNat → fget {} t.hbm.pcs k = fget {} s.hbm.pcs k) ∧ (fget {} t.hbm.pcs pc.toNat).st = 2 ∧ t.hbm.mem = s.hbm.mem ∧
      (t.hdr (pgHbm (pc.toNat / 32))).stat &&& bitMask 4 = bitMask 4 ∧ only [.hdrs, .hbm, .host, .glob] s t) ∧
    ((fget {} s.hbm.pcs pc.toNat).st ≠ 1 → exec (.hbmRetireCopyDone pc) s = .next s) ∧
    (s.env.variant.pcs ≤ pc.toNat → exec (.hbmCorrectedError pc) s = .next s) ∧
    (pc.toNat < s.env.variant.pcs → ∃ t, exec (.hbmCorrectedError pc) s = .next t ∧ t.hbm.mem = s.hbm.mem ∧
        (t.hdr (pgHbm (pc.toNat / 32))).stat &&& bitMask 0 = bitMask 0 ∧ only [.hdrs, .hbm, .host, .glob, .evts] s t))

/-- ARB_REQUEST joins the requester's queue of four and, at an idle instance, grants the winner and debits its class.
ARB_RELEASE takes the head off and grants the next. ARB_CUTOFF at a non-zero MAX_HOLD records the holder and raises
ARB_CUT. ARB_AGED ages a waiting head once. Other instances are untouched. The energy of a grant unit is free (log entry
13). Covers ARB_REQUEST, ARB_RELEASE, ARB_AGED, ARB_CUTOFF. Rules: R172, R177, R174, R175, R173, R183, R327, R337. -/
def Obligations.ArbiterCommands : Prop :=
  (∀ (a : ArbId) (req : BitVec 8) (s : State),
    (ArbId.has a req.toNat = false → exec (.arbRequest a req) s = .next s) ∧
    (ArbId.has a req.toNat = true → (fget [] (s.arb a.key).queues req.toNat).length < 4 → a = .pwr ∨ (s.arb a.key).holder ≠ none → ∃ t,
        exec (.arbRequest a req) s = .next t ∧
      (∀ k, t.arb k = if k = a.key then { s.arb a.key with
        queues := fput [] req.toNat (fget [] (s.arb a.key).queues req.toNat ++ [{ t := (s.arb a.key).clock }]) (s.arb a.key).queues, clock := (s.arb a.key).clock + 1 } else s.arb k) ∧ only [.arbs] s t) ∧
    (ArbId.has a req.toNat = true → a ≠ .pwr → (s.arb a.key).holder = none → ∀ r, winner (arbQueue a req.toNat s) a = some r →
        classLeft s a ≠ 0 → ∃ t, exec (.arbRequest a req) s = .next t ∧
      (t.arb a.key).holder = some r ∧ (t.arb a.key).heldPrio = some (BitVec.ofNat 3 (prioOf s a r)) ∧ (∀ k, k ≠ a.key → t.arb k = s.arb k) ∧
      t.pwr.resv = debitClass s a s.pwr.resv ∧ only [.arbs, .pwr, .thm] s t)) ∧
  (∀ (a : ArbId) (s : State), (s.arb a.key).holder = none → exec (.arbRelease a) s = .next s ∧ exec (.arbCutoff a) s = .next s) ∧
  (∀ (a : ArbId) (r : Nat) (s : State), (s.arb a.key).holder = some r →
    (∃ t, exec (.arbRelease a) s = .next t ∧ (t.arb a.key).queues = (popHead r (s.arb a.key)).queues ∧ (∀ k, k ≠ a.key →
        t.arb k = s.arb k) ∧
      (winner (s.setArb a.key { popHead r (s.arb a.key) with holder := none, heldPrio := none }) a = none → (t.arb a.key).holder = none ∧
          only [.arbs] s t) ∧ only [.arbs, .pwr, .thm] s t) ∧
    (maxHoldOf s a = 0 → exec (.arbCutoff a) s = .next s) ∧
    (maxHoldOf s a ≠ 0 → ∃ t, exec (.arbCutoff a) s = .next t ∧ (t.arb a.key).cut = true ∧ (t.arb a.key).cuts = satInc (s.arb a.key).cuts ∧
        (t.arb a.key).queues = (s.arb a.key).queues ∧
      (t.arbSel (ArbId.place a).1).lastReq = BitVec.ofNat 8 r ∧ (t.arbSel (ArbId.place a).1).lastInst = BitVec.ofNat 12 (ArbId.place a).2 ∧
      (ArbId.cutBit a = true → (t.hdr (ArbId.place a).1).stat &&& bitMask 3 = bitMask 3) ∧ only [.hdrs, .arbs, .arbSels, .host, .glob,
          .pwr, .thm] s t)) ∧
  (∀ (a : ArbId) (req : BitVec 8) (h : ArbReq) (q : List ArbReq) (s : State), fget [] (s.arb a.key).queues req.toNat = h :: q →
    (h.aged = false → (s.arb a.key).holder ≠ some req.toNat → ∃ t, exec (.arbAged a req) s = .next t ∧
      (∀ k, t.arb k = if k = a.key then { s.arb a.key with queues := fput [] req.toNat ({ h with aged := true } :: q) (s.arb a.key).queues, aged := satInc (s.arb a.key).aged } else s.arb k) ∧
          only [.arbs] s t) ∧
    (h.aged = true ∨ (s.arb a.key).holder = some req.toNat → exec (.arbAged a req) s = .next s)) ∧
  (∀ (a : ArbId) (req : BitVec 8) (s : State), fget [] (s.arb a.key).queues req.toNat = [] → exec (.arbAged a req) s = .next s)

/-- On a selected core, debug HALT and its release act beside BLK_CTL's HALT, STEP runs one instruction of a halted core,
and tracing and its clear act on that core's ring alone. DBG_DATA_READ answers the word and latches the high half; a
masked core's memories read as zero with ZEROED set. TELEMETRY_INTERVAL takes a snapshot of every core. The order of the
weight banks is the model's (log entry 29). Covers DBG_HALT, DBG_STEP, DBG_TRACE, DBG_TRACE_CLR, DBG_DATA_READ,
TELEMETRY_INTERVAL. Rules: R491, R487, R486, R484, R485. -/
def Obligations.DebugCommands : Prop :=
  (∀ (s : State), ¬ s.dbg.sel.toNat < 208 → exec .dbgStep s = .next s ∧ exec .dbgTraceClr s = .next s ∧ (∀ on,
      exec (.dbgHalt on) s = .next s ∧ exec (.dbgTrace on) s = .next s)) ∧
  (∀ (c : Nat) (s : State), s.dbg.sel.toNat = c → c < 208 →
    (∃ t, exec (.dbgHalt true) s = .next t ∧ (∀ k, t.ctl k = if k = c then { s.ctl c with dbgHalt := true } else s.ctl k) ∧
      ((s.ctl c).dbgHalt = true → only [.ctls] s t) ∧ only [.hdrs, .ctls, .host, .glob, .evts] s t) ∧
    ((s.ctl c).halt = false → ∃ t, exec (.dbgHalt false) s = .next t ∧ (∀ k,
        t.ctl k = if k = c then { s.ctl c with dbgHalt := false, halted := false, stepping := false } else s.ctl k) ∧ only [.ctls] s t) ∧
    ((s.ctl c).halt = true → ∃ t, exec (.dbgHalt false) s = .next t ∧ (∀ k,
        t.ctl k = if k = c then { s.ctl c with dbgHalt := false } else s.ctl k) ∧ only [.ctls] s t) ∧
    ((s.ctl c).halted = true → ∃ t, exec .dbgStep s = .next t ∧ (∀ k,
        t.ctl k = if k = c then { s.ctl c with halted := false, stepping := true } else s.ctl k) ∧ only [.hdrs, .ctls, .host, .glob,
        .evts] s t) ∧
    ((s.ctl c).halted = false → exec .dbgStep s = .next s) ∧
    (∃ t, exec (.dbgTrace true) s = .next t ∧ t.dbg.tracing = c :: s.dbg.tracing.filter (fun k => k != c) ∧ t.dbg.rings = s.dbg.rings ∧
        only [.dbg] s t) ∧
    (∃ t, exec (.dbgTrace false) s = .next t ∧ t.dbg.tracing = s.dbg.tracing.filter (fun k => k != c) ∧ t.dbg.rings = s.dbg.rings ∧
        only [.dbg] s t) ∧
    (∃ t, exec .dbgTraceClr s = .next t ∧ (∀ k, fget {} t.dbg.rings k = if k = c then {} else fget {} s.dbg.rings k) ∧
        t.dbg.tracing = s.dbg.tracing ∧ only [.dbg] s t)) ∧
  (∀ (s : State), ∃ t, exec .dbgDataRead s = .next t ∧ t.reply = { value := BitVec.ofNat 64 (leAt (dbgFetch s).1 0 4) } ∧
      t.dbg.dataHi = BitVec.ofNat 32 (leAt (dbgFetch s).1 4 4) ∧ t.dbg.zeroed = (dbgFetch s).2 ∧
    ((dbgFetch s).2 = false → only [.reply, .dbg] s t) ∧ only [.reply, .hdrs, .host, .glob, .dbg, .evts] s t) ∧
  (∀ (c : Nat) (s : State), s.dbg.sel.toNat = c → c < 208 → s.dbg.space.toNat = 3 ∨ s.dbg.space.toNat = 4 ∨ s.dbg.space.toNat = 5 ∨
      s.dbg.space.toNat = 6 → masked s c = true → ∃ t, exec .dbgDataRead s = .next t ∧
    t.reply = { value := 0 } ∧ t.dbg.dataHi = 0 ∧ t.dbg.zeroed = true) ∧
  (∀ (s : State), ∃ t, exec .telemetryInterval s = .next t ∧ t.sec.sums = [] ∧ t.sec.ctxMark = s.pwr.ctxE ∧
    (∀ c, c < 208 → fget {} t.sec.snaps c = snapshot s c) ∧ only [.sec] s t)

/-- A port that is enabled trains where the node number is set. An agreed lane set of three or more goes on to KEYING and
sends its key message; fewer fail the port. Key messages of a good partner make it ready in each direction; one that is
not is counted as a failure; both directions bring the port UP or DEGRADED. Three failed attempts leave it DOWN. A
disable or a retrain exchanges RESET words first. A rotation begins, and its timeout resets the port. Key bytes are free
(log entry 10). Covers FAB_PORT_ENABLE, LANE_SET_AGREED, KEY_HELLO_RX, KEY_CT_RX, KEYS_ESTABLISHED, TRAINING_TIMEOUT,
FAB_PORT_DISABLE, FAB_RETRAIN, FAB_KEY_ROTATE, KEY_ROTATION_DUE, KEY_ROTATION_TIMEOUT. Rules: R248, R474, R279, R254,
R276, R247, R249, R250, R251, R284, R475. -/
def Obligations.PortCommands : Prop :=
  (∀ (p : PortId) (s : State), s.env.variant.ports ≤ p.val → exec (.fabPortEnable p) s = .next s) ∧
  (∀ (p : PortId) (s : State), p.val < s.env.variant.ports →
    ((s.port p.val).st = .down → s.fab.nodeV = true → ∃ t, exec (.fabPortEnable p) s = .next t ∧ only [.fab] s t ∧
      (∀ r, t.port r = if r = p.val then { s.port p.val with en := true, attempts := 0, st := .training, txReady := false, rxReady := false, rotating := false, txNext := false, newFirst := none, rxNext := false } else s.port r)) ∧
    ((s.port p.val).st ≠ .down ∨ s.fab.nodeV = false → ∃ t, exec (.fabPortEnable p) s = .next t ∧ only [.fab] s t ∧ (∀ r,
        t.port r = if r = p.val then { s.port p.val with en := true } else s.port r))) ∧
  (∀ (p : PortId) (lanes failed : BitVec 4) (s : State), (s.port p.val).st ≠ .training → exec (.laneSetAgreed p lanes failed) s = .next s) ∧
  (∀ (p : PortId) (lanes : BitVec 4) (s : State), (s.port p.val).st = .training →
    (3 ≤ laneCount (lanes &&& ~~~(s.port p.val).lanesRet) → 3 ≤ laneCount (~~~(s.port p.val).lanesRet) → s.sec.trngFailX = false → ∃ t,
        exec (.laneSetAgreed p lanes 0) s = .next t ∧
      (∀ r, t.port r = if r = p.val then { s.port p.val with st := .keying, lanesUp := lanes &&& ~~~(s.port p.val).lanesRet, lcws := [.key false (Config.keyBody p.val false s.fresh)] } else s.port r) ∧
          t.fresh = s.fresh + 1 ∧ only [.fab, .fresh] s t) ∧
    (3 ≤ laneCount (lanes &&& ~~~(s.port p.val).lanesRet) → 3 ≤ laneCount (~~~(s.port p.val).lanesRet) → s.sec.trngFailX = true → ∃ t,
        exec (.laneSetAgreed p lanes 0) s = .next t ∧
      (∀ r, t.port r = if r = p.val then { s.port p.val with st := .keying, lanesUp := lanes &&& ~~~(s.port p.val).lanesRet, lcws := [] } else s.port r) ∧
          only [.fab] s t) ∧
    (laneCount (lanes &&& ~~~(s.port p.val).lanesRet) < 3 → s.fab.held = [] → ∃ t, exec (.laneSetAgreed p lanes 0) s = .next t ∧
      (t.port p.val).st = .failed ∧ (t.port p.val).lanesUp = 0 ∧ (t.hdr (pgFab p.val)).stat &&& bitMask 1 = bitMask 1 ∧ (∀ r, r ≠ p.val →
          t.port r = s.port r))) ∧
  (∀ (p : PortId) (m : KeyMsg) (s : State), (s.port p.val).st = .keying →
    (partnerOk s m = true → s.sec.trngFailX = false → ∃ t, exec (.keyHelloRx p m) s = .next t ∧ t.fresh = s.fresh + 1 ∧ only [.fab,
        .fresh] s t ∧
      (∀ r, t.port r = if r = p.val then { s.port p.val with txReady := true, partnerNode := m.node, partnerPort := m.port, partnerV := true, lcws := (s.port p.val).lcws ++ [.key true (Config.keyBody p.val true s.fresh)] } else s.port r)) ∧
    (partnerOk s m = true → s.sec.trngFailX = true → exec (.keyHelloRx p m) s = .next s) ∧
    (partnerOk s m = false → ∃ t, exec (.keyHelloRx p m) s = .next t ∧ exec (.keyCtRx p m) s = .next t ∧ t.fab = s.fab ∧
        (t.hdr pgSec).perm = satInc (s.hdr pgSec).perm ∧ only [.hdrs, .host, .glob, .evts] s t) ∧
    (partnerOk s m = true → ∃ t, exec (.keyCtRx p m) s = .next t ∧ (∀ r,
        t.port r = if r = p.val then { s.port p.val with rxReady := true } else s.port r) ∧ only [.fab] s t)) ∧
  (∀ (p : PortId) (m : KeyMsg) (s : State), (s.port p.val).carries = true →
    (s.sec.trngFailX = false → ∃ t, exec (.keyHelloRx p m) s = .next t ∧ only [.fab, .fresh] s t ∧
      (∀ r, t.port r = if r = p.val then { s.port p.val with rotating := true, txNext := true, lcws := (s.port p.val).lcws ++ [.key true (Config.keyBody p.val true s.fresh)] } else s.port r)) ∧
    (∃ t, exec (.keyCtRx p m) s = .next t ∧ (∀ r, t.port r = if r = p.val then { s.port p.val with rxNext := true } else s.port r) ∧
        only [.fab] s t)) ∧
  (∀ (p : PortId) (s : State),
    ((s.port p.val).st ≠ .keying ∨ (s.port p.val).txReady = false ∨ (s.port p.val).rxReady = false →
        exec (.keysEstablished p) s = .next s) ∧
    ((s.port p.val).st = .keying → (s.port p.val).txReady = true → (s.port p.val).rxReady = true → s.fab.held = [] → ∃ t,
        exec (.keysEstablished p) s = .next t ∧
      (t.port p.val).st = (if laneCount (s.port p.val).lanesUp = 4 then .up else .degraded) ∧ (t.port p.val).attempts = 0 ∧
          (t.hdr (pgFab p.val)).stat &&& bitMask 0 = bitMask 0 ∧ (∀ r, r ≠ p.val → t.port r = s.port r))) ∧
  (∀ (p : PortId) (s : State),
    ((s.port p.val).st ≠ .training → (s.port p.val).st ≠ .keying → exec (.trainingTimeout p) s = .next s) ∧
    ((s.port p.val).st = .training ∨ (s.port p.val).st = .keying → (s.port p.val).attempts + 1 < 3 → ∃ t,
        exec (.trainingTimeout p) s = .next t ∧ only [.fab] s t ∧
      (∀ r, t.port r = if r = p.val then { s.port p.val with attempts := (s.port p.val).attempts + 1, st := .training, txReady := false, rxReady := false, rotating := false, txNext := false, newFirst := none, rxNext := false } else s.port r)) ∧
    ((s.port p.val).st = .training ∨ (s.port p.val).st = .keying → 3 ≤ (s.port p.val).attempts + 1 → s.fab.held = [] → ∃ t,
        exec (.trainingTimeout p) s = .next t ∧ (t.port p.val).st = .down ∧
      (t.port p.val).attempts = 0 ∧ (t.hdr (pgFab p.val)).stat &&& bitMask 1 = bitMask 1 ∧ (∀ r, r ≠ p.val → t.port r = s.port r))) ∧
  (∀ (p : PortId) (s : State),
    ((s.port p.val).st = .down ∨ (s.port p.val).st = .failed → exec (.fabRetrain p) s = .next s ∧
      ∃ t, exec (.fabPortDisable p) s = .next t ∧ (∀ r, t.port r = if r = p.val then { s.port p.val with en := false } else s.port r) ∧
          only [.fab] s t) ∧
    ((s.port p.val).st = .reset → ∃ t, exec (.fabPortDisable p) s = .next t ∧ (∀ r,
        t.port r = if r = p.val then { s.port p.val with en := false, disabling := true, retrainAfter := false } else s.port r) ∧
        only [.fab] s t) ∧
    ((s.port p.val).carries = true → s.fab.held = [] →
      (∃ t, exec (.fabPortDisable p) s = .next t ∧ (t.port p.val).st = .reset ∧ (t.port p.val).en = false ∧
          (t.port p.val).disabling = true ∧
        (t.port p.val).lcws = [Lcw.reset (Config.resetCause 2) (lastAccepted (s.port p.val)) ((List.range 4).map (occupied (s.port p.val)))] ∧
            (∀ r, r ≠ p.val → t.port r = s.port r)) ∧
      (∃ t, exec (.fabRetrain p) s = .next t ∧ (t.port p.val).st = .reset ∧ (t.port p.val).retrain = true ∧
          (t.port p.val).retrainAfter = true ∧
        (t.port p.val).lcws = [Lcw.reset (Config.resetCause 1) (lastAccepted (s.port p.val)) ((List.range 4).map (occupied (s.port p.val)))] ∧
            (∀ r, r ≠ p.val → t.port r = s.port r)))) ∧
  (∀ (p : PortId) (s : State), (s.port p.val).carries = true → (s.port p.val).rotating = false →
    (∃ t, exec (.fabKeyRotate p) s = .next t ∧ (∀ r,
        t.port r = if r = p.val then { s.port p.val with rotate := true, rotating := true } else s.port r) ∧ only [.fab] s t) ∧
    (∃ t, exec (.keyRotationDue p) s = .next t ∧ (∀ r, t.port r = if r = p.val then { s.port p.val with rotating := true } else s.port r) ∧
        only [.fab] s t)) ∧
  (∀ (p : PortId) (s : State), (s.port p.val).carries = false ∨ (s.port p.val).rotating = true →
    (∃ t, exec (.fabKeyRotate p) s = .next t ∧ (∀ r, t.port r = if r = p.val then { s.port p.val with rotate := true } else s.port r) ∧
        only [.fab] s t) ∧ exec (.keyRotationDue p) s = .next s) ∧
  (∀ (p : PortId) (s : State),
    ((s.port p.val).rotating = false → (s.port p.val).rxNext = false → exec (.keyRotationTimeout p) s = .next s) ∧
    ((s.port p.val).rotating = true ∨ (s.port p.val).rxNext = true → (s.port p.val).carries = true → s.fab.held = [] → ∃ t,
        exec (.keyRotationTimeout p) s = .next t ∧
      (t.port p.val).st = .reset ∧ (t.port p.val).rotating = false ∧ (t.port p.val).rxNext = false ∧ (t.port p.val).retrainAfter = true ∧
          (∀ r, r ≠ p.val → t.port r = s.port r)))

/-- A port that carries no traffic ignores them. A run out of sequence, with a bad CRC or of a wrong length is answered with
NAK and counted; a whole run with its tag is accepted into the receive buffer. ACKCR frees the blocks it covers and adds
credits. NAK and the acknowledge timeout send the runs again. AUDIT compares the counters at its block: a match counts,
a mismatch resets the port. RESET and its answer end the exchange and train the port again. Tags are free (log entry
10), and so is the cause (log entry 11). Covers FAB_TAG_RX, FAB_ACKCR_RX, FAB_NAK_RX, FAB_ACK_TIMEOUT, AUDIT_DUE, AUDIT,
RESET, RESET_ACK, FAB_RESET_EXCHANGE_TIMEOUT. Rules: R253, R252, R259, R260, R250, R251, R254, R257, R258, R275, R278. -/
def Obligations.LinkWordCommands : Prop :=
  (∀ (p : PortId) (s : State), (s.port p.val).carries = false →
    (∀ blocks tag lanes, exec (.fabTagRx p blocks tag lanes) s = .next s) ∧ (∀ last a b c d,
        exec (.fabAckcrRx p last a b c d) s = .next s) ∧ (∀ n lanes, exec (.fabNakRx p n lanes) s = .next s) ∧
    exec (.fabAckTimeout p) s = .next s ∧ exec (.auditDue p) s = .next s ∧ (∀ vl k a b l, exec (.audit p vl k a b l) s = .next s) ∧
    ((s.port p.val).st ≠ .reset → (∀ cause last a b c d, exec (.resetWord p cause last a b c d) s = .next s) ∧ (∀ last a b c d,
        exec (.resetAck p last a b c d) s = .next s) ∧ exec (.fabResetExchangeTimeout p) s = .next s)) ∧
  (∀ (p : PortId) (blocks : List FabBlock) (tag : BitVec 128) (s : State), (s.port p.val).carries = true →
    ((blocks.all (fun b => b.crc == blockCrc b)) = false ∨ inSequence (s.port p.val).rxExp blocks = false ∨ blocks = [] ∨
        8 < blocks.length → ∃ t, exec (.fabTagRx p blocks tag 0) s = .next t ∧
      (∀ r, t.port r = if r = p.val then { s.port p.val with lcws := [.nak (s.port p.val).rxExp], retries := satInc (s.port p.val).retries } else s.port r) ∧
          only [.hdrs, .fab, .host, .glob, .evts] s t)) ∧
  (∀ (p : PortId) (blocks : List FabBlock) (tag : BitVec 128) (lanes : BitVec 4) (gen run : Nat) (s : State),
      (s.port p.val).carries = true →
    (blocks.all (fun b => b.crc == blockCrc b)) = true → inSequence (s.port p.val).rxExp blocks = true → blocks ≠ [] → blocks.length ≤ 8 →
        (blocks.all (fun b => b.ke == (blocks.map (·.ke)).headD false)) = true →
    rxKey (s.port p.val) ((blocks.map (·.ke)).headD false) = some (gen, run) → tag = runTag p.val false gen run blocks →
        (s.port p.val).auditWait = [] →
    ∃ t, exec (.fabTagRx p blocks tag lanes) s = .next t ∧ (∀ r, r ≠ p.val → t.port r = s.port r) ∧
        (t.port p.val).rxExp = (s.port p.val).rxExp + BitVec.ofNat 12 blocks.length ∧
      (t.port p.val).rxBuf = (s.port p.val).rxBuf ++ (cipher p.val false gen run 0 blocks).filter credited ∧ (t.port p.val).rxGen = gen ∧
          (t.port p.val).rxRuns = BitVec.ofNat 64 (run + 1) ∧ only [.fab] s t) ∧
  (∀ (p : PortId) (last : BitVec 12) (a b c d : BitVec 6) (s : State), (s.port p.val).carries = true → (s.port p.val).newFirst = none →
      (s.port p.val).txq = [] →
    ∃ t, exec (.fabAckcrRx p last a b c d) s = .next t ∧ (∀ r, r ≠ p.val → t.port r = s.port r) ∧
        (t.port p.val).retry = dropCovered last (s.port p.val).retry ∧
      (∀ v, v < 4 → (t.port p.val).vl v = { (s.port p.val).vl v with k := ((s.port p.val).vl v).k + ([a, b, c, d].getD v 0).setWidth 32, sCred := ((s.port p.val).vl v).sCred + ([a, b, c, d].getD v 0).setWidth 32 }) ∧
          only [.fab] s t) ∧
  (∀ (p : PortId) (n : BitVec 12) (s : State), (s.port p.val).carries = true →
    ((s.port p.val).retry.find? (fun r => r.first == n) = none → ∀ lanes, exec (.fabNakRx p n lanes) s = .next s) ∧
    ((s.port p.val).retry = [] → exec (.fabAckTimeout p) s = .next s) ∧
    (∀ r, (s.port p.val).retry.find? (fun r => r.first == n) = some r → r.resent + 1 < 8 → ∃ t, exec (.fabNakRx p n 0) s = .next t ∧
        (t.port p.val).retries = satInc (s.port p.val).retries ∧
      (t.port p.val).retry = (s.port p.val).retry.map (fun x => if x.first = r.first then { x with resent := x.resent + 1 } else x) ∧
      (t.port p.val).lcws = ((s.port p.val).retry.dropWhile (fun x => x.first != r.first)).map (fun x => .tag x.first x.blocks.length x.tag) ∧
          (∀ q, q ≠ p.val → t.port q = s.port q) ∧ only [.hdrs, .fab, .host, .glob, .evts] s t) ∧
    (∀ r rs, (s.port p.val).retry = r :: rs → r.resent + 1 < 8 → ∃ t, exec (.fabAckTimeout p) s = .next t ∧
      (t.port p.val).lcws = (r :: rs).map (fun x => .tag x.first x.blocks.length x.tag) ∧ (∀ q, q ≠ p.val → t.port q = s.port q) ∧
          only [.hdrs, .fab, .host, .glob, .evts] s t)) ∧
  (∀ (p : PortId) (s : State), (s.port p.val).carries = true → ∃ t, exec (.auditDue p) s = .next t ∧
    (∀ r, t.port r = if r = p.val then { s.port p.val with lcws := (List.range 4).map (fun v => .audit v ((s.port p.val).vl v).k ((s.port p.val).vl v).sSent ((s.port p.val).vl v).sCred ((s.port p.val).nextLseq - 1)) } else s.port r) ∧
        only [.fab] s t) ∧
  (∀ (p : PortId) (vl : VlId) (k sSent sCred : Word) (l : BitVec 12) (s : State), (s.port p.val).carries = true →
    (lastAccepted (s.port p.val) ≠ l → ∃ t, exec (.audit p vl k sSent sCred l) s = .next t ∧
      (∀ r, t.port r = if r = p.val then { s.port p.val with auditWait := (s.port p.val).auditWait ++ [(vl.val, k, sSent, sCred, l)] } else s.port r) ∧
          only [.fab] s t) ∧
    (lastAccepted (s.port p.val) = l → auditPasses (s.port p.val) vl.val k sSent sCred = true → ∃ t,
        exec (.audit p vl k sSent sCred l) s = .next t ∧
      (∀ r, t.port r = if r = p.val then { s.port p.val with audits := satInc (s.port p.val).audits } else s.port r) ∧ only [.fab] s t) ∧
    (lastAccepted (s.port p.val) = l → auditPasses (s.port p.val) vl.val k sSent sCred = false → s.fab.held = [] → ∃ t,
        exec (.audit p vl k sSent sCred l) s = .next t ∧
      (t.port p.val).st = .reset ∧ (t.port p.val).mismatch = satInc16 (s.port p.val).mismatch ∧
          (t.port p.val).lastVl = BitVec.ofNat 2 vl.val ∧ (t.port p.val).retrainAfter = false ∧ (∀ r, r ≠ p.val → t.port r = s.port r))) ∧
  (∀ (p : PortId) (last : BitVec 12) (a b c d : BitVec 10) (s : State), (s.port p.val).st = .reset → (s.port p.val).disabling = false →
      (s.port p.val).retrainAfter = true →
    (∀ cause, ∃ t, exec (.resetWord p cause last a b c d) s = .next t ∧ (t.port p.val).st = .training ∧
        (t.port p.val).retry = dropCovered last (s.port p.val).retry ∧
      (t.port p.val).lcws = [.resetAck (lastAccepted (s.port p.val)) ((List.range 4).map (occupied (s.port p.val)))] ∧ (∀ r, r ≠ p.val →
          t.port r = s.port r) ∧ only [.fab] s t) ∧
    ((s.port p.val).exchanged = false → ∃ t, exec (.resetAck p last a b c d) s = .next t ∧ (t.port p.val).st = .training ∧
        (t.port p.val).exchanged = true ∧
      (t.port p.val).retry = dropCovered last (s.port p.val).retry ∧ (∀ r, r ≠ p.val → t.port r = s.port r) ∧ only [.fab] s t) ∧
    ((s.port p.val).exchanged = true → exec (.resetAck p last a b c d) s = .next s ∧ exec (.fabResetExchangeTimeout p) s = .next s) ∧
    ((s.port p.val).exchanged = false → (s.port p.val).retry = [] → (s.port p.val).partnerV = false → ∃ t,
        exec (.fabResetExchangeTimeout p) s = .next t ∧ (t.port p.val).st = .training ∧ (∀ r, r ≠ p.val → t.port r = s.port r) ∧
        only [.fab] s t))

/-- A block for another node goes to the port its route names or is held. A data block writes its channel's lines where
there is space, else waits. A returned block becomes a delivery record; window reads and writes are answered or returned
with their reason; the answers complete their copy command. A channel that waited too long is BROKEN. Delivery records
post in order or count as lost. A route write holds its node's blocks. Collective blocks join their slot and complete
it. Covers COLL, FAB_BLOCK_ROUTE, DATA, CHANNEL_SPACE_TIMEOUT, RETURN, DELIVERY_RECORD_POST, ROUTE_HOLD_EXPIRY,
FAB_RT_WRITE, COLL_BLOCK_RX, COLL_COMPLETE, COLL_TIMEOUT, WIN_WR, WIN_RD, WIN_RDD, WIN_ACK, CHANNEL_BROKEN_CLEAR. Rules:
R271, R262, R266, R268, R269, R263, R272, R273, R274, R285, R261, R264. -/
def Obligations.FabricBlockCommands : Prop :=
  (∀ (b : FabBlock) (p : PortId) (s : State), b ∉ (s.port p.val).rxBuf → (∀ o, exec (.fabBlockRoute b o (some p)) s = .next s) ∧
      exec (.dataBlock b (some p)) s = .next s ∧ exec (.returnBlock b (some p)) s = .next s ∧
    exec (.winWr b (some p)) s = .next s ∧ exec (.winRd b (some p)) s = .next s ∧ exec (.winRdd b (some p)) s = .next s ∧
        exec (.winAck b (some p)) s = .next s ∧ exec (.collBlockRx b (some p)) s = .next s) ∧
  (∀ (b : FabBlock) (o : Option CtxId) (s : State), b.dst ≠ s.fab.node →
    (∀ p, s.fab.holding.contains b.dst.toNat = false → routeOf s b o = .port p → portQuiet s p = true → ∃ t,
        exec (.fabBlockRoute b o none) s = .next t ∧
      (∀ r, t.port r = if r = p then { s.port p with txq := (s.port p).txq ++ [⟨{ b with vl := egressVl s p b.vl }, o⟩] } else s.port r) ∧
          only [.fab] s t) ∧
    (s.fab.holding.contains b.dst.toNat = true ∨ routeOf s b o = .wait → ∃ t, exec (.fabBlockRoute b o none) s = .next t ∧
        t.fab = { s.fab with held := s.fab.held ++ [⟨b.dst, b, o, none⟩] } ∧ only [.fab] s t)) ∧
  (∀ (b : FabBlock) (x : CtxId) (s : State), b.dst = s.fab.node → jobCtx s b.job = some x → (s.cx x.val).st = .enabled →
      (s.chan x.val b.ch.toNat).en = true → (s.chan x.val b.ch.toNat).broken = false →
      ((List.range (b.len.toNat + 1)).any (fun i => meetsSealed s x.val (gaSpace (lineAddr (s.chan x.val b.ch.toNat) ((s.chan x.val b.ch.toNat).wp.toNat + i))) (gaOff (lineAddr (s.chan x.val b.ch.toNat) ((s.chan x.val b.ch.toNat).wp.toNat + i))) 64)) = false →
    (hasSpace (s.chan x.val b.ch.toNat) b = true → (s.chan x.val b.ch.toNat).waiting = [] → ∃ t, exec (.dataBlock b none) s = .next t ∧
      (t.chan x.val b.ch.toNat).wp = (s.chan x.val b.ch.toNat).wp + BitVec.ofNat 32 (b.len.toNat + 1) ∧ only [.hdrs, .ledge, .hbm, .fab,
          .host, .glob] s t) ∧
    (hasSpace (s.chan x.val b.ch.toNat) b = false ∨ (s.chan x.val b.ch.toNat).waiting ≠ [] → ∃ t, exec (.dataBlock b none) s = .next t ∧
      t.chan x.val b.ch.toNat = { s.chan x.val b.ch.toNat with waiting := (s.chan x.val b.ch.toNat).waiting ++ [(b, none)] } ∧
          only [.fab] s t)) ∧
  (∀ (x : CtxId) (ch : Fin 16) (s : State),
    ((s.chan x.val ch.val).waiting = [] → exec (.channelSpaceTimeout x ch) s = .next s) ∧
    ((s.chan x.val ch.val).waiting ≠ [] → ∃ t, exec (.channelSpaceTimeout x ch) s = .next t ∧
        t.chan x.val ch.val = { s.chan x.val ch.val with broken := true, waiting := [] }) ∧
    ((s.chan x.val ch.val).broken = true → ∃ t, exec (.channelBrokenClear x ch) s = .next t ∧
        t.chan x.val ch.val = { s.chan x.val ch.val with broken := false, wp := 0, rp := 0 } ∧
      (∀ y k, y ≠ x.val ∨ k ≠ ch.val → t.chan y k = s.chan y k) ∧ only [.fab] s t) ∧
    ((s.chan x.val ch.val).broken = false → exec (.channelBrokenClear x ch) s = .next s)) ∧
  (∀ (b : FabBlock) (s : State), b.dst = s.fab.node →
    (jobCtx s b.job = none → ∃ t, exec (.returnBlock b none) s = .next t ∧ t.fab = { s.fab with undeliv := satInc s.fab.undeliv } ∧
        (t.hdr pgFabCommon).stat &&& bitMask 1 = bitMask 1 ∧ only [.hdrs, .fab, .host, .glob] s t) ∧
    (∀ x, jobCtx s b.job = some x → s.fab.copies = [] → s.fab.dlv = [] → ∃ t, exec (.returnBlock b none) s = .next t ∧
      t.fab.dlv = [⟨x, b.src, b.job, b.ch, Config.returnVl b.src.toNat b.job.toNat b.ch.toNat, BitVec.ofNat 4 b.addr.toNat, false, 1,
          s.env.ts⟩] ∧ only [.fab] s t) ∧
    (∀ r, winTarget s b = .inl r → exec (.winWr b none) s = .next (sendReturn b r none s) ∧
        exec (.winRd b none) s = .next (sendReturn b r none s)) ∧
    (∀ x o, winTarget s b = .inr (x, o) →
        exec (.winWr b none) s = .next (sendBack (winAnswer s b tyWinAck []) (gwrite x.val 2 o (validLines b) s)) ∧
      (∀ bs, gread s x.val 2 o 256 = some bs → exec (.winRd b none) s = .next (sendBack (winAnswer s { b with len := 3 } tyWinRdd bs) s)) ∧
      (gread s x.val 2 o 256 = none →
          exec (.winRd b none) s = .next (sendBack { winAnswer s { b with len := 3 } tyWinRdd [] with poison := true } (failedRead x.val 2 o 256 s)))) ∧
    (copyOf s b false = none → exec (.winRdd b none) s = .next s) ∧ (copyOf s b true = none → exec (.winAck b none) s = .next s) ∧
    (∀ w, copyOf s b false = some w → b.poison = true → ∃ t, exec (.winRdd b none) s = .next t ∧ completed s t w.cmd .crc 0 ∧
        t.fab = { s.fab with copies := s.fab.copies.erase w }) ∧
    (∀ w, copyOf s b false = some w → b.poison = false →
      exec (.winRdd b none) s = .next (answered w (winBlock b) (gaWrite w.ctx.val (w.addr + BitVec.ofNat 64 (256 * (winBlock b - w.first))) (validLines b) s))) ∧
    (∀ w, copyOf s b true = some w → w.left.erase (winBlock b) = [] → ∃ t, exec (.winAck b none) s = .next t ∧ completed s t w.cmd .ok 0 ∧
        t.fab = { s.fab with copies := s.fab.copies.erase w }) ∧
    (∀ w, copyOf s b true = some w → w.left.erase (winBlock b) ≠ [] → ∃ t, exec (.winAck b none) s = .next t ∧ only [.fab] s t ∧
      t.fab.copies = s.fab.copies.map (fun c => if c = w then { w with left := w.left.erase (winBlock b) } else c))) ∧
  (∀ (x : CtxId) (s : State),
    (s.fab.dlv.find? (fun d => d.ctx.val == x.val) = none → exec (.deliveryRecordPost x) s = .next s) ∧
    (∀ d, s.fab.dlv.find? (fun d => d.ctx.val == x.val) = some d → (s.fn (fnOf x.val)).hold.length + (s.fn (fnOf x.val)).reserved < 512 →
        ∃ t, exec (.deliveryRecordPost x) s = .next t ∧
      t.fab.dlv = s.fab.dlv.erase d ∧
          (t.fn (fnOf x.val)).hold = (s.fn (fnOf x.val)).hold ++ [{ cq := 0, kind := 1, sq := 0xFF, index := 0, tag := 0, record := dlvBytes d s }] ∧
          only [.hdrs, .fab, .host, .glob] s t) ∧
    (∀ d, s.fab.dlv.find? (fun d => d.ctx.val == x.val) = some d → 512 ≤ (s.fn (fnOf x.val)).hold.length + (s.fn (fnOf x.val)).reserved →
        ∃ t, exec (.deliveryRecordPost x) s = .next t ∧
      t.fab.dlv = s.fab.dlv.erase d ∧ (t.hdr (pgHost x.val)).stat &&& bitMask 6 = bitMask 6 ∧ only [.hdrs, .fab, .host, .glob] s t)) ∧
  (∀ (node ports : BitVec 16) (s : State),
    (s.fab.held = [] → ∃ t, exec (.routeHoldExpiry node) s = .next t ∧ t.fab = { s.fab with holding := s.fab.holding.erase node.toNat } ∧
        only [.fab] s t) ∧
    (fget 0 s.fab.routes node.toNat = ports → exec (.fabRtWrite node ports) s = .next s) ∧
    (fget 0 s.fab.routes node.toNat ≠ ports → ∃ t, exec (.fabRtWrite node ports) s = .next t ∧ (∀ n,
        fget 0 t.fab.routes n = if n = node.toNat then ports else fget 0 s.fab.routes n) ∧
      (s.fab.hold ≠ 0 → s.fab.holding.contains node.toNat = false → t.fab.holding = s.fab.holding ++ [node.toNat]) ∧
          (t.hdr pgFabCommon).stat &&& bitMask 3 = bitMask 3 ∧ only [.hdrs, .fab, .host, .glob] s t)) ∧
  (∀ (x : CtxId) (k : Fin 16) (s : State),
    (s.coll x.val k.val = none → exec (.collComplete x k) s = .next s ∧ exec (.collTimeout x k) s = .next s) ∧
    (∀ c, s.coll x.val k.val = some c →
      (∃ t, exec (.collTimeout x k) s = .next t ∧ t.coll x.val k.val = none ∧
          (t.fx x.val).abortedSlots = k.val :: (s.fx x.val).abortedSlots.erase k.val ∧ t.reply = { status := some .aborted } ∧
        (t.hdr pgFabCommon).stat &&& bitMask 2 = bitMask 2 ∧ only [.reply, .hdrs, .fab, .host, .glob] s t) ∧
      (collReady s x.val c = false → exec (.collComplete x k) s = .next s) ∧
      (c.status = .denied ∨ c.status = .residue → ∃ t, exec (.collComplete x k) s = .next t ∧ t.coll x.val k.val = none ∧
          completed s t c.cmd c.status 0) ∧
      (collReady s x.val c = true → c.status = .inexact → ∃ t, exec (.collComplete x k) s = .next t ∧ t.coll x.val k.val = none ∧
          (c.dtype ≠ 0 ∨ c.op ≠ 2 → t.reply.status = some .inexact) ∧
        only [.reply, .hdrs, .ledge, .hbm, .fab, .host, .glob] s t))) ∧
  (∀ (b : FabBlock) (x : CtxId) (s : State), b.dst = s.fab.node → jobCtx s b.job = some x → (s.cx x.val).st = .enabled →
      s.coll x.val b.ch.toNat = none →
    ((s.fx x.val).abortedSlots.contains b.ch.toNat = true → exec (.collBlockRx b none) s = .next (sendReturn b 6 none s)) ∧
    ((s.fx x.val).abortedSlots.contains b.ch.toNat = false → exec (.collBlockRx b none) s = .next s)) ∧
  (∀ (b : FabBlock) (x : CtxId) (c : Coll) (r : Nat) (s : State), b.dst = s.fab.node → jobCtx s b.job = some x →
      (s.cx x.val).st = .enabled → s.coll x.val b.ch.toNat = some c → c.op = 2 →
    (childrenOf (groupSize s x.val) c.treeRoot (s.fx x.val).rank.toNat).find? (fun r => nodeOfRank s x.val r == some b.src) = some r →
    exec (.collBlockRx b none) s = .next (reduceStep x b.ch.toNat (s.setColl x.val b.ch.toNat (some { c with up := fput [] r (fput [] b.addr.toNat (validLines b) (fget [] c.up r)) c.up }))))
end

