-- ==== Sys2Proof/Laws/Table.lean ====
section
/-! SUPPORT. The laws of the tables and memories: what a read after a write gives, and that every operation keeps the canonical
form. -/

namespace Sys2Proof.Machine

variable {β : Type} [DecidableEq β]

omit [DecidableEq β] in
theorem fget_append (d : β) (k : Nat) : ∀ m n : FMap β, (∀ e ∈ m, e.1 ≠ k) → fget d (m ++ n) k = fget d n k
  | [], _, _ => rfl
  | (j, v) :: m, n, h => by
    have hj : j ≠ k := h (j, v) (by simp)
    have := fget_append d k m n (fun e he => h e (by simp [he]))
    simp [fget, hj, this]

omit [DecidableEq β] in
theorem fget_append_left (d : β) (k : Nat) (n : FMap β) (hn : ∀ e ∈ n, e.1 ≠ k) :
    ∀ m : FMap β, fget d (m ++ n) k = fget d m k
  | [] => by
    induction n with
    | nil => rfl
    | cons e n ih =>
      have he : e.1 ≠ k := hn e (by simp)
      simp only [List.nil_append, fget, if_neg he] at ih ⊢
      exact ih (fun e h => hn e (by simp [h]))
  | (j, v) :: m => by
    have ih := fget_append_left d k n hn m
    simp only [List.cons_append, fget, ih]

omit [DecidableEq β] in
theorem fget_none (d : β) (k : Nat) (m : FMap β) (h : ∀ e ∈ m, e.1 ≠ k) : fget d m k = d :=
  fget_append_left d k m h []

omit [DecidableEq β] in
theorem fget_filter (d : β) (k : Nat) (p : Nat × β → Bool) (hp : ∀ v, p (k, v) = true) :
    ∀ m : FMap β, fget d (m.filter p) k = fget d m k
  | [] => rfl
  | (j, v) :: m => by
    have ih := fget_filter d k p hp m
    by_cases hj : j = k
    · subst hj; simp [List.filter, hp, fget]
    · by_cases hq : p (j, v) = true <;> simp [List.filter, hq, fget, hj, ih]

omit [DecidableEq β] in
theorem key_lt {m : FMap β} {a : Nat} {e : Nat × β} (h : e ∈ m.filter (fun c => decide (c.1 < a))) : e.1 < a := by
  simpa using (List.mem_filter.1 h).2

omit [DecidableEq β] in
theorem key_gt {m : FMap β} {a : Nat} {e : Nat × β} (h : e ∈ m.filter (fun c => decide (a < c.1))) : a < e.1 := by
  simpa using (List.mem_filter.1 h).2

theorem key_ge {m : List Host.Cell} {a : Nat} {e : Host.Cell} (h : e ∈ m.filter (fun c => decide (a ≤ c.1))) : a ≤ e.1 := by
  simpa using (List.mem_filter.1 h).2

/-- A write is read back, and no other key changes. -/
theorem fget_fput (d : β) (k j : Nat) (v : β) (m : FMap β) :
    fget d (fput d k v m) j = if j = k then v else fget d m j := by
  have hmid : ∀ e ∈ (if v = d then [] else [(k, v)]), e.1 = k := by
    intro e he; split at he <;> simp at he; simp [he]
  unfold fput
  rcases Nat.lt_trichotomy j k with h | h | h
  · rw [if_neg (show ¬ j = k by omega), List.append_assoc, fget_append_left, fget_filter d j _ (by simp [h]) m]
    intro e he
    rcases List.mem_append.1 he with he | he
    · have := hmid e he; omega
    · have := key_gt he; omega
  · subst h
    rw [if_pos rfl, fget_append_left, fget_append]
    · by_cases hv : v = d <;> simp [hv, fget]
    · intro e he; have := key_lt he; omega
    · intro e he; have := key_gt he; omega
  · rw [if_neg (show ¬ j = k by omega), fget_append, fget_filter d j _ (by simp [h]) m]
    intro e he
    rcases List.mem_append.1 he with he | he
    · have := key_lt he; omega
    · have := hmid e he; omega

/-! ### The canonical form -/

/-- The canonical form said entry by entry. -/
theorem fwf_iff (d : β) : ∀ m : FMap β,
    fwf d m = true ↔ m.Pairwise (fun a b => a.1 < b.1) ∧ ∀ e ∈ m, e.2 ≠ d
  | [] => by simp [fwf]
  | [(k, v)] => by simp [fwf]
  | (k, v) :: (k', v') :: m => by
    have ih := fwf_iff d ((k', v') :: m)
    simp only [fwf, Bool.and_eq_true, Bool.not_eq_true', decide_eq_false_iff_not, decide_eq_true_eq, ih]
    constructor
    · rintro ⟨⟨hv, hk⟩, hp, he⟩
      refine ⟨List.pairwise_cons.2 ⟨?_, hp⟩, ?_⟩
      · intro e h
        rcases List.mem_cons.1 h with rfl | h
        · exact hk
        · exact Nat.lt_trans hk ((List.pairwise_cons.1 hp).1 e h)
      · intro e h
        rcases List.mem_cons.1 h with rfl | h
        · exact hv
        · exact he e h
    · rintro ⟨hp, he⟩
      obtain ⟨h1, h2⟩ := List.pairwise_cons.1 hp
      exact ⟨⟨he (k, v) (by simp), h1 (k', v') (by simp)⟩, h2, fun e h => he e (List.mem_cons_of_mem _ h)⟩

/-- A part of a table that a test selects is canonical where the table is. -/
theorem fwf_filter (d : β) (m : FMap β) (p : Nat × β → Bool) (h : fwf d m = true) : fwf d (m.filter p) = true := by
  rw [fwf_iff] at *
  exact ⟨h.1.filter _, fun e he => h.2 e (List.mem_of_mem_filter he)⟩

/-- Setting an entry keeps the canonical form. -/
theorem fwf_fput (d : β) (k : Nat) (v : β) (m : FMap β) (h : fwf d m = true) : fwf d (fput d k v m) = true := by
  rw [fwf_iff] at *
  unfold fput
  constructor
  · rw [List.append_assoc, List.pairwise_append]
    refine ⟨h.1.filter _, ?_, ?_⟩
    · rw [List.pairwise_append]
      refine ⟨by split <;> simp, h.1.filter _, ?_⟩
      intro a ha b hb
      simp only [List.mem_filter, decide_eq_true_eq] at hb
      split at ha <;> simp at ha
      subst ha; exact hb.2
    · intro a ha b hb
      simp only [List.mem_filter, decide_eq_true_eq, List.mem_append] at ha hb
      rcases hb with hb | hb
      · split at hb <;> simp at hb
        subst hb; exact ha.2
      · exact Nat.lt_trans ha.2 hb.2
  · intro e he
    simp only [List.mem_append, List.mem_filter] at he
    rcases he with (he | he) | he
    · exact h.2 e he.1
    · split at he
      · simp at he
      · simp only [List.mem_singleton] at he; subst he; assumption
    · exact h.2 e he.1

theorem cellsOf_keys (a : Nat) : ∀ bs : List Byte, ∀ e ∈ cellsOf a bs, a ≤ e.1 ∧ e.1 < a + bs.length ∧ e.2 ≠ 0
  | [], e, h => by simp [cellsOf] at h
  | b :: bs, e, h => by
    simp only [cellsOf, List.mem_append] at h
    rcases h with h | h
    · split at h
      · simp at h
      · rename_i hb
        simp only [List.mem_singleton] at h; subst h
        exact ⟨Nat.le_refl _, by simp, hb⟩
    · obtain ⟨h1, h2, h3⟩ := cellsOf_keys (a + 1) bs e h
      simp only [List.length_cons]
      exact ⟨by omega, by omega, h3⟩

theorem cellsOf_pairwise (a : Nat) : ∀ bs : List Byte, (cellsOf a bs).Pairwise (fun x y => x.1 < y.1)
  | [] => by simp [cellsOf]
  | b :: bs => by
    simp only [cellsOf, List.pairwise_append]
    refine ⟨by split <;> simp, cellsOf_pairwise (a + 1) bs, ?_⟩
    intro x hx y hy
    have := (cellsOf_keys (a + 1) bs y hy).1
    split at hx <;> simp at hx
    subst hx; simp only; omega

/-- Storing a run of bytes keeps the canonical form. -/
theorem wf_memPut (m : List Host.Cell) (a : Nat) (bs : List Byte) (h : Memory.wf m = true) :
    Memory.wf (memPut m a bs) = true := by
  unfold Memory.wf at *
  rw [fwf_iff] at *
  unfold memPut
  constructor
  · rw [List.append_assoc, List.pairwise_append]
    refine ⟨h.1.filter _, ?_, ?_⟩
    · rw [List.pairwise_append]
      refine ⟨cellsOf_pairwise a bs, h.1.filter _, ?_⟩
      intro x hx y hy
      have := (cellsOf_keys a bs x hx).2.1
      simp only [List.mem_filter, decide_eq_true_eq] at hy
      omega
    · intro x hx y hy
      simp only [List.mem_filter, decide_eq_true_eq, List.mem_append] at hx hy
      rcases hy with hy | hy
      · have := (cellsOf_keys a bs y hy).1; omega
      · omega
  · intro e he
    simp only [List.mem_append, List.mem_filter] at he
    rcases he with (he | he) | he
    · exact h.2 e he.1
    · exact (cellsOf_keys a bs e he).2.2
    · exact h.2 e he.1

/-- Zeroing a range keeps the canonical form. -/
theorem wf_memZero (m : List Host.Cell) (a n : Nat) (h : Memory.wf m = true) : Memory.wf (memZero m a n) = true :=
  fwf_filter 0 m _ h

theorem fget_cellsOf (a j : Nat) : ∀ bs : List Byte,
    fget 0 (cellsOf a bs) j = if a ≤ j ∧ j < a + bs.length then bs.getD (j - a) 0 else 0
  | [] => by simp [cellsOf, fget]
  | b :: bs => by
    have ih := fget_cellsOf (a + 1) j bs
    have hout : ∀ e ∈ cellsOf (a + 1) bs, e.1 ≠ a := fun e he => by have := (cellsOf_keys (a + 1) bs e he).1; omega
    unfold cellsOf
    by_cases hj : j = a
    · subst hj
      rw [fget_append_left 0 j _ hout, if_pos (show j ≤ j ∧ j < j + (b :: bs).length from ⟨Nat.le_refl _, by simp⟩)]
      by_cases hb : b = 0
      · rw [if_pos hb]; simp [fget, hb]
      · rw [if_neg hb]; simp [fget]
    · rw [fget_append, ih]
      · by_cases hr : a + 1 ≤ j ∧ j < a + 1 + bs.length
        · rw [if_pos hr, if_pos ⟨by omega, by simp only [List.length_cons]; omega⟩, show j - a = (j - (a + 1)) + 1 by omega]
          simp
        · rw [if_neg hr, if_neg (by simp only [List.length_cons]; omega)]
      · intro e he
        split at he
        · simp at he
        · simp only [List.mem_singleton] at he; subst he; omega

/-- Read after write: a byte inside the stored run reads as stored, every other byte as before. -/
theorem memGet_memPut (m : List Host.Cell) (a j : Nat) (bs : List Byte) :
    memGet (memPut m a bs) j = if a ≤ j ∧ j < a + bs.length then bs.getD (j - a) 0 else memGet m j := by
  unfold memGet memPut
  by_cases h1 : j < a
  · rw [if_neg (by omega), List.append_assoc, fget_append_left, fget_filter 0 j _ (by simp [h1]) m]
    intro e he
    rcases List.mem_append.1 he with he | he
    · have := (cellsOf_keys a bs e he).1; omega
    · have := key_ge he; omega
  · rw [List.append_assoc, fget_append 0 j _ _ (fun e he => by have := key_lt he; omega)]
    by_cases h2 : j < a + bs.length
    · rw [fget_append_left, fget_cellsOf]
      · rw [if_pos ⟨by omega, h2⟩, if_pos ⟨by omega, h2⟩]
      · intro e he; have := key_ge he; omega
    · rw [if_neg (by omega), fget_append 0 j _ _ (fun e he => by have := cellsOf_keys a bs e he; omega)]
      exact fget_filter 0 j _ (by simp; omega) m

/-- Zeroing: a byte of the range reads as zero, every other byte as before. -/
theorem memGet_memZero (m : List Host.Cell) (a n j : Nat) : memGet (memZero m a n) j = if a ≤ j ∧ j < a + n then 0 else memGet m j := by
  unfold memGet memZero
  by_cases h : a ≤ j ∧ j < a + n
  · rw [if_pos h]; refine fget_none _ _ _ ?_
    intro e he hj
    have := (List.mem_filter.1 he).2
    simp [hj, h] at this
  · rw [if_neg h]; refine fget_filter _ _ _ ?_ _
    intro v; simp at *; omega

omit [DecidableEq β] in
theorem fget_below (d : β) (k : Nat) (m : FMap β) (h : ∀ e ∈ m, k < e.1) : fget d m k = d :=
  fget_none d k m (fun e he => Nat.ne_of_gt (h e he))

/-- Two tables in canonical form that read alike are the same data. -/
theorem fwf_ext (d : β) : ∀ m n : FMap β, fwf d m = true → fwf d n = true → (∀ k, fget d m k = fget d n k) → m = n
  | [], [], _, _, _ => rfl
  | [], (k, v) :: n, _, hn, h => by
    have := h k; rw [fwf_iff] at hn
    simp [fget] at this; exact absurd this.symm (hn.2 (k, v) (by simp))
  | (k, v) :: m, [], hm, _, h => by
    have := h k; rw [fwf_iff] at hm
    simp [fget] at this; exact absurd this (hm.2 (k, v) (by simp))
  | (k, v) :: m, (j, w) :: n, hm, hn, h => by
    have hm' := (fwf_iff d _).1 hm
    have hn' := (fwf_iff d _).1 hn
    have am := List.pairwise_cons.1 hm'.1
    have an := List.pairwise_cons.1 hn'.1
    have bm : fget d m k = d := fget_below d k m (fun e he => am.1 e he)
    have bn : fget d n j = d := fget_below d j n (fun e he => an.1 e he)
    have e1 : k = j := by
      rcases Nat.lt_trichotomy k j with hk | hk | hk
      · have := h k
        rw [fget, if_pos rfl, fget_below d k ((j, w) :: n) (by intro e he; rcases List.mem_cons.1 he with rfl | he; exact hk; exact Nat.lt_trans hk (an.1 e he))] at this
        exact absurd this (hm'.2 (k, v) (by simp))
      · exact hk
      · have := h j
        rw [fget_below d j ((k, v) :: m) (by intro e he; rcases List.mem_cons.1 he with rfl | he; exact hk; exact Nat.lt_trans hk (am.1 e he)), fget, if_pos rfl] at this
        exact absurd this.symm (hn'.2 (j, w) (by simp))
    subst e1
    have e2 : v = w := by have := h k; simpa [fget] using this
    subst e2
    have e3 : m = n := by
      refine fwf_ext d m n ((fwf_iff d m).2 ⟨am.2, fun e he => hm'.2 e (by simp [he])⟩) ((fwf_iff d n).2 ⟨an.2, fun e he => hn'.2 e (by simp [he])⟩) (fun i => ?_)
      by_cases hi : k = i
      · subst hi; rw [bm, bn]
      · have := h i; simpa [fget, hi] using this
    rw [e3]

/-- Writing back what a canonical table reads changes nothing. -/
theorem fput_fget (d : β) (k : Nat) (m : FMap β) (h : fwf d m = true) : fput d k (fget d m k) m = m :=
  fwf_ext d _ _ (fwf_fput d k _ m h) h (fun j => by rw [fget_fput]; split <;> simp_all)
end Sys2Proof.Machine
end

