-- ==== Sys2Proof/Laws/State.lean ====
section
/-! SUPPORT. What each update of a part of the state leaves in every part: one lemma per part and update, and the keyed
updates said in terms of their part's. -/

namespace Sys2Proof.Machine

variable (s : State)

/-! #### setCore -/

@[simp] theorem setCore_pending (n : Nat) (c : Core) : (s.setCore n c).pending = s.pending := rfl
@[simp] theorem setCore_reply (n : Nat) (c : Core) : (s.setCore n c).reply = s.reply := rfl
@[simp] theorem setCore_env (n : Nat) (c : Core) : (s.setCore n c).env = s.env := rfl
@[simp] theorem setCore_hdrs (n : Nat) (c : Core) : (s.setCore n c).hdrs = s.hdrs := rfl
@[simp] theorem setCore_cores (n : Nat) (c : Core) : (s.setCore n c).cores = fput {} n c s.cores := rfl
@[simp] theorem setCore_ctls (n : Nat) (c : Core) : (s.setCore n c).ctls = s.ctls := rfl
@[simp] theorem setCore_ledge (n : Nat) (c : Core) : (s.setCore n c).ledge = s.ledge := rfl
@[simp] theorem setCore_mesh (n : Nat) (c : Core) : (s.setCore n c).mesh = s.mesh := rfl
@[simp] theorem setCore_hbm (n : Nat) (c : Core) : (s.setCore n c).hbm = s.hbm := rfl
@[simp] theorem setCore_arbs (n : Nat) (c : Core) : (s.setCore n c).arbs = s.arbs := rfl
@[simp] theorem setCore_arbSels (n : Nat) (c : Core) : (s.setCore n c).arbSels = s.arbSels := rfl
@[simp] theorem setCore_ctx (n : Nat) (c : Core) : (s.setCore n c).ctx = s.ctx := rfl
@[simp] theorem setCore_fence (n : Nat) (c : Core) : (s.setCore n c).fence = s.fence := rfl
@[simp] theorem setCore_fab (n : Nat) (c : Core) : (s.setCore n c).fab = s.fab := rfl
@[simp] theorem setCore_host (n : Nat) (c : Core) : (s.setCore n c).host = s.host := rfl
@[simp] theorem setCore_glob (n : Nat) (c : Core) : (s.setCore n c).glob = s.glob := rfl
@[simp] theorem setCore_pwr (n : Nat) (c : Core) : (s.setCore n c).pwr = s.pwr := rfl
@[simp] theorem setCore_sec (n : Nat) (c : Core) : (s.setCore n c).sec = s.sec := rfl
@[simp] theorem setCore_dbg (n : Nat) (c : Core) : (s.setCore n c).dbg = s.dbg := rfl
@[simp] theorem setCore_evts (n : Nat) (c : Core) : (s.setCore n c).evts = s.evts := rfl
@[simp] theorem setCore_thm (n : Nat) (c : Core) : (s.setCore n c).thm = s.thm := rfl
@[simp] theorem setCore_cool (n : Nat) (c : Core) : (s.setCore n c).cool = s.cool := rfl
@[simp] theorem setCore_loop (n : Nat) (c : Core) : (s.setCore n c).loop = s.loop := rfl
@[simp] theorem setCore_drv (n : Nat) (c : Core) : (s.setCore n c).drv = s.drv := rfl
@[simp] theorem setCore_cbus (n : Nat) (c : Core) : (s.setCore n c).cbus = s.cbus := rfl
@[simp] theorem setCore_hut (n : Nat) (c : Core) : (s.setCore n c).hut = s.hut := rfl
@[simp] theorem setCore_cairn (n : Nat) (c : Core) : (s.setCore n c).cairn = s.cairn := rfl
@[simp] theorem setCore_fresh (n : Nat) (c : Core) : (s.setCore n c).fresh = s.fresh := rfl

/-! #### setCtl -/

@[simp] theorem setCtl_pending (n : Nat) (c : CoreCtl) : (s.setCtl n c).pending = s.pending := rfl
@[simp] theorem setCtl_reply (n : Nat) (c : CoreCtl) : (s.setCtl n c).reply = s.reply := rfl
@[simp] theorem setCtl_env (n : Nat) (c : CoreCtl) : (s.setCtl n c).env = s.env := rfl
@[simp] theorem setCtl_hdrs (n : Nat) (c : CoreCtl) : (s.setCtl n c).hdrs = s.hdrs := rfl
@[simp] theorem setCtl_cores (n : Nat) (c : CoreCtl) : (s.setCtl n c).cores = s.cores := rfl
@[simp] theorem setCtl_ctls (n : Nat) (c : CoreCtl) : (s.setCtl n c).ctls = fput {} n c s.ctls := rfl
@[simp] theorem setCtl_ledge (n : Nat) (c : CoreCtl) : (s.setCtl n c).ledge = s.ledge := rfl
@[simp] theorem setCtl_mesh (n : Nat) (c : CoreCtl) : (s.setCtl n c).mesh = s.mesh := rfl
@[simp] theorem setCtl_hbm (n : Nat) (c : CoreCtl) : (s.setCtl n c).hbm = s.hbm := rfl
@[simp] theorem setCtl_arbs (n : Nat) (c : CoreCtl) : (s.setCtl n c).arbs = s.arbs := rfl
@[simp] theorem setCtl_arbSels (n : Nat) (c : CoreCtl) : (s.setCtl n c).arbSels = s.arbSels := rfl
@[simp] theorem setCtl_ctx (n : Nat) (c : CoreCtl) : (s.setCtl n c).ctx = s.ctx := rfl
@[simp] theorem setCtl_fence (n : Nat) (c : CoreCtl) : (s.setCtl n c).fence = s.fence := rfl
@[simp] theorem setCtl_fab (n : Nat) (c : CoreCtl) : (s.setCtl n c).fab = s.fab := rfl
@[simp] theorem setCtl_host (n : Nat) (c : CoreCtl) : (s.setCtl n c).host = s.host := rfl
@[simp] theorem setCtl_glob (n : Nat) (c : CoreCtl) : (s.setCtl n c).glob = s.glob := rfl
@[simp] theorem setCtl_pwr (n : Nat) (c : CoreCtl) : (s.setCtl n c).pwr = s.pwr := rfl
@[simp] theorem setCtl_sec (n : Nat) (c : CoreCtl) : (s.setCtl n c).sec = s.sec := rfl
@[simp] theorem setCtl_dbg (n : Nat) (c : CoreCtl) : (s.setCtl n c).dbg = s.dbg := rfl
@[simp] theorem setCtl_evts (n : Nat) (c : CoreCtl) : (s.setCtl n c).evts = s.evts := rfl
@[simp] theorem setCtl_thm (n : Nat) (c : CoreCtl) : (s.setCtl n c).thm = s.thm := rfl
@[simp] theorem setCtl_cool (n : Nat) (c : CoreCtl) : (s.setCtl n c).cool = s.cool := rfl
@[simp] theorem setCtl_loop (n : Nat) (c : CoreCtl) : (s.setCtl n c).loop = s.loop := rfl
@[simp] theorem setCtl_drv (n : Nat) (c : CoreCtl) : (s.setCtl n c).drv = s.drv := rfl
@[simp] theorem setCtl_cbus (n : Nat) (c : CoreCtl) : (s.setCtl n c).cbus = s.cbus := rfl
@[simp] theorem setCtl_hut (n : Nat) (c : CoreCtl) : (s.setCtl n c).hut = s.hut := rfl
@[simp] theorem setCtl_cairn (n : Nat) (c : CoreCtl) : (s.setCtl n c).cairn = s.cairn := rfl
@[simp] theorem setCtl_fresh (n : Nat) (c : CoreCtl) : (s.setCtl n c).fresh = s.fresh := rfl

/-! #### setHdr -/

@[simp] theorem setHdr_pending (p : Nat) (h : Hdr) : (s.setHdr p h).pending = s.pending := rfl
@[simp] theorem setHdr_reply (p : Nat) (h : Hdr) : (s.setHdr p h).reply = s.reply := rfl
@[simp] theorem setHdr_env (p : Nat) (h : Hdr) : (s.setHdr p h).env = s.env := rfl
@[simp] theorem setHdr_hdrs (p : Nat) (h : Hdr) : (s.setHdr p h).hdrs = fput {} p h s.hdrs := rfl
@[simp] theorem setHdr_cores (p : Nat) (h : Hdr) : (s.setHdr p h).cores = s.cores := rfl
@[simp] theorem setHdr_ctls (p : Nat) (h : Hdr) : (s.setHdr p h).ctls = s.ctls := rfl
@[simp] theorem setHdr_ledge (p : Nat) (h : Hdr) : (s.setHdr p h).ledge = s.ledge := rfl
@[simp] theorem setHdr_mesh (p : Nat) (h : Hdr) : (s.setHdr p h).mesh = s.mesh := rfl
@[simp] theorem setHdr_hbm (p : Nat) (h : Hdr) : (s.setHdr p h).hbm = s.hbm := rfl
@[simp] theorem setHdr_arbs (p : Nat) (h : Hdr) : (s.setHdr p h).arbs = s.arbs := rfl
@[simp] theorem setHdr_arbSels (p : Nat) (h : Hdr) : (s.setHdr p h).arbSels = s.arbSels := rfl
@[simp] theorem setHdr_ctx (p : Nat) (h : Hdr) : (s.setHdr p h).ctx = s.ctx := rfl
@[simp] theorem setHdr_fence (p : Nat) (h : Hdr) : (s.setHdr p h).fence = s.fence := rfl
@[simp] theorem setHdr_fab (p : Nat) (h : Hdr) : (s.setHdr p h).fab = s.fab := rfl
@[simp] theorem setHdr_host (p : Nat) (h : Hdr) : (s.setHdr p h).host = s.host := rfl
@[simp] theorem setHdr_glob (p : Nat) (h : Hdr) : (s.setHdr p h).glob = s.glob := rfl
@[simp] theorem setHdr_pwr (p : Nat) (h : Hdr) : (s.setHdr p h).pwr = s.pwr := rfl
@[simp] theorem setHdr_sec (p : Nat) (h : Hdr) : (s.setHdr p h).sec = s.sec := rfl
@[simp] theorem setHdr_dbg (p : Nat) (h : Hdr) : (s.setHdr p h).dbg = s.dbg := rfl
@[simp] theorem setHdr_evts (p : Nat) (h : Hdr) : (s.setHdr p h).evts = s.evts := rfl
@[simp] theorem setHdr_thm (p : Nat) (h : Hdr) : (s.setHdr p h).thm = s.thm := rfl
@[simp] theorem setHdr_cool (p : Nat) (h : Hdr) : (s.setHdr p h).cool = s.cool := rfl
@[simp] theorem setHdr_loop (p : Nat) (h : Hdr) : (s.setHdr p h).loop = s.loop := rfl
@[simp] theorem setHdr_drv (p : Nat) (h : Hdr) : (s.setHdr p h).drv = s.drv := rfl
@[simp] theorem setHdr_cbus (p : Nat) (h : Hdr) : (s.setHdr p h).cbus = s.cbus := rfl
@[simp] theorem setHdr_hut (p : Nat) (h : Hdr) : (s.setHdr p h).hut = s.hut := rfl
@[simp] theorem setHdr_cairn (p : Nat) (h : Hdr) : (s.setHdr p h).cairn = s.cairn := rfl
@[simp] theorem setHdr_fresh (p : Nat) (h : Hdr) : (s.setHdr p h).fresh = s.fresh := rfl

/-! #### setArb -/

@[simp] theorem setArb_pending (k : Nat) (a : ArbInst) : (s.setArb k a).pending = s.pending := rfl
@[simp] theorem setArb_reply (k : Nat) (a : ArbInst) : (s.setArb k a).reply = s.reply := rfl
@[simp] theorem setArb_env (k : Nat) (a : ArbInst) : (s.setArb k a).env = s.env := rfl
@[simp] theorem setArb_hdrs (k : Nat) (a : ArbInst) : (s.setArb k a).hdrs = s.hdrs := rfl
@[simp] theorem setArb_cores (k : Nat) (a : ArbInst) : (s.setArb k a).cores = s.cores := rfl
@[simp] theorem setArb_ctls (k : Nat) (a : ArbInst) : (s.setArb k a).ctls = s.ctls := rfl
@[simp] theorem setArb_ledge (k : Nat) (a : ArbInst) : (s.setArb k a).ledge = s.ledge := rfl
@[simp] theorem setArb_mesh (k : Nat) (a : ArbInst) : (s.setArb k a).mesh = s.mesh := rfl
@[simp] theorem setArb_hbm (k : Nat) (a : ArbInst) : (s.setArb k a).hbm = s.hbm := rfl
@[simp] theorem setArb_arbs (k : Nat) (a : ArbInst) : (s.setArb k a).arbs = fput {} k a s.arbs := rfl
@[simp] theorem setArb_arbSels (k : Nat) (a : ArbInst) : (s.setArb k a).arbSels = s.arbSels := rfl
@[simp] theorem setArb_ctx (k : Nat) (a : ArbInst) : (s.setArb k a).ctx = s.ctx := rfl
@[simp] theorem setArb_fence (k : Nat) (a : ArbInst) : (s.setArb k a).fence = s.fence := rfl
@[simp] theorem setArb_fab (k : Nat) (a : ArbInst) : (s.setArb k a).fab = s.fab := rfl
@[simp] theorem setArb_host (k : Nat) (a : ArbInst) : (s.setArb k a).host = s.host := rfl
@[simp] theorem setArb_glob (k : Nat) (a : ArbInst) : (s.setArb k a).glob = s.glob := rfl
@[simp] theorem setArb_pwr (k : Nat) (a : ArbInst) : (s.setArb k a).pwr = s.pwr := rfl
@[simp] theorem setArb_sec (k : Nat) (a : ArbInst) : (s.setArb k a).sec = s.sec := rfl
@[simp] theorem setArb_dbg (k : Nat) (a : ArbInst) : (s.setArb k a).dbg = s.dbg := rfl
@[simp] theorem setArb_evts (k : Nat) (a : ArbInst) : (s.setArb k a).evts = s.evts := rfl
@[simp] theorem setArb_thm (k : Nat) (a : ArbInst) : (s.setArb k a).thm = s.thm := rfl
@[simp] theorem setArb_cool (k : Nat) (a : ArbInst) : (s.setArb k a).cool = s.cool := rfl
@[simp] theorem setArb_loop (k : Nat) (a : ArbInst) : (s.setArb k a).loop = s.loop := rfl
@[simp] theorem setArb_drv (k : Nat) (a : ArbInst) : (s.setArb k a).drv = s.drv := rfl
@[simp] theorem setArb_cbus (k : Nat) (a : ArbInst) : (s.setArb k a).cbus = s.cbus := rfl
@[simp] theorem setArb_hut (k : Nat) (a : ArbInst) : (s.setArb k a).hut = s.hut := rfl
@[simp] theorem setArb_cairn (k : Nat) (a : ArbInst) : (s.setArb k a).cairn = s.cairn := rfl
@[simp] theorem setArb_fresh (k : Nat) (a : ArbInst) : (s.setArb k a).fresh = s.fresh := rfl

/-! #### onArbSel -/

@[simp] theorem onArbSel_pending (p : Nat) (f : ArbSel → ArbSel) : (s.onArbSel p f).pending = s.pending := rfl
@[simp] theorem onArbSel_reply (p : Nat) (f : ArbSel → ArbSel) : (s.onArbSel p f).reply = s.reply := rfl
@[simp] theorem onArbSel_env (p : Nat) (f : ArbSel → ArbSel) : (s.onArbSel p f).env = s.env := rfl
@[simp] theorem onArbSel_hdrs (p : Nat) (f : ArbSel → ArbSel) : (s.onArbSel p f).hdrs = s.hdrs := rfl
@[simp] theorem onArbSel_cores (p : Nat) (f : ArbSel → ArbSel) : (s.onArbSel p f).cores = s.cores := rfl
@[simp] theorem onArbSel_ctls (p : Nat) (f : ArbSel → ArbSel) : (s.onArbSel p f).ctls = s.ctls := rfl
@[simp] theorem onArbSel_ledge (p : Nat) (f : ArbSel → ArbSel) : (s.onArbSel p f).ledge = s.ledge := rfl
@[simp] theorem onArbSel_mesh (p : Nat) (f : ArbSel → ArbSel) : (s.onArbSel p f).mesh = s.mesh := rfl
@[simp] theorem onArbSel_hbm (p : Nat) (f : ArbSel → ArbSel) : (s.onArbSel p f).hbm = s.hbm := rfl
@[simp] theorem onArbSel_arbs (p : Nat) (f : ArbSel → ArbSel) : (s.onArbSel p f).arbs = s.arbs := rfl
@[simp] theorem onArbSel_arbSels (p : Nat) (f : ArbSel → ArbSel) : (s.onArbSel p f).arbSels = fput {} p (f (s.arbSel p)) s.arbSels := rfl
@[simp] theorem onArbSel_ctx (p : Nat) (f : ArbSel → ArbSel) : (s.onArbSel p f).ctx = s.ctx := rfl
@[simp] theorem onArbSel_fence (p : Nat) (f : ArbSel → ArbSel) : (s.onArbSel p f).fence = s.fence := rfl
@[simp] theorem onArbSel_fab (p : Nat) (f : ArbSel → ArbSel) : (s.onArbSel p f).fab = s.fab := rfl
@[simp] theorem onArbSel_host (p : Nat) (f : ArbSel → ArbSel) : (s.onArbSel p f).host = s.host := rfl
@[simp] theorem onArbSel_glob (p : Nat) (f : ArbSel → ArbSel) : (s.onArbSel p f).glob = s.glob := rfl
@[simp] theorem onArbSel_pwr (p : Nat) (f : ArbSel → ArbSel) : (s.onArbSel p f).pwr = s.pwr := rfl
@[simp] theorem onArbSel_sec (p : Nat) (f : ArbSel → ArbSel) : (s.onArbSel p f).sec = s.sec := rfl
@[simp] theorem onArbSel_dbg (p : Nat) (f : ArbSel → ArbSel) : (s.onArbSel p f).dbg = s.dbg := rfl
@[simp] theorem onArbSel_evts (p : Nat) (f : ArbSel → ArbSel) : (s.onArbSel p f).evts = s.evts := rfl
@[simp] theorem onArbSel_thm (p : Nat) (f : ArbSel → ArbSel) : (s.onArbSel p f).thm = s.thm := rfl
@[simp] theorem onArbSel_cool (p : Nat) (f : ArbSel → ArbSel) : (s.onArbSel p f).cool = s.cool := rfl
@[simp] theorem onArbSel_loop (p : Nat) (f : ArbSel → ArbSel) : (s.onArbSel p f).loop = s.loop := rfl
@[simp] theorem onArbSel_drv (p : Nat) (f : ArbSel → ArbSel) : (s.onArbSel p f).drv = s.drv := rfl
@[simp] theorem onArbSel_cbus (p : Nat) (f : ArbSel → ArbSel) : (s.onArbSel p f).cbus = s.cbus := rfl
@[simp] theorem onArbSel_hut (p : Nat) (f : ArbSel → ArbSel) : (s.onArbSel p f).hut = s.hut := rfl
@[simp] theorem onArbSel_cairn (p : Nat) (f : ArbSel → ArbSel) : (s.onArbSel p f).cairn = s.cairn := rfl
@[simp] theorem onArbSel_fresh (p : Nat) (f : ArbSel → ArbSel) : (s.onArbSel p f).fresh = s.fresh := rfl

/-! #### setReply -/

@[simp] theorem setReply_pending (r : Reply) : (s.setReply r).pending = s.pending := rfl
@[simp] theorem setReply_reply (r : Reply) : (s.setReply r).reply = r := rfl
@[simp] theorem setReply_env (r : Reply) : (s.setReply r).env = s.env := rfl
@[simp] theorem setReply_hdrs (r : Reply) : (s.setReply r).hdrs = s.hdrs := rfl
@[simp] theorem setReply_cores (r : Reply) : (s.setReply r).cores = s.cores := rfl
@[simp] theorem setReply_ctls (r : Reply) : (s.setReply r).ctls = s.ctls := rfl
@[simp] theorem setReply_ledge (r : Reply) : (s.setReply r).ledge = s.ledge := rfl
@[simp] theorem setReply_mesh (r : Reply) : (s.setReply r).mesh = s.mesh := rfl
@[simp] theorem setReply_hbm (r : Reply) : (s.setReply r).hbm = s.hbm := rfl
@[simp] theorem setReply_arbs (r : Reply) : (s.setReply r).arbs = s.arbs := rfl
@[simp] theorem setReply_arbSels (r : Reply) : (s.setReply r).arbSels = s.arbSels := rfl
@[simp] theorem setReply_ctx (r : Reply) : (s.setReply r).ctx = s.ctx := rfl
@[simp] theorem setReply_fence (r : Reply) : (s.setReply r).fence = s.fence := rfl
@[simp] theorem setReply_fab (r : Reply) : (s.setReply r).fab = s.fab := rfl
@[simp] theorem setReply_host (r : Reply) : (s.setReply r).host = s.host := rfl
@[simp] theorem setReply_glob (r : Reply) : (s.setReply r).glob = s.glob := rfl
@[simp] theorem setReply_pwr (r : Reply) : (s.setReply r).pwr = s.pwr := rfl
@[simp] theorem setReply_sec (r : Reply) : (s.setReply r).sec = s.sec := rfl
@[simp] theorem setReply_dbg (r : Reply) : (s.setReply r).dbg = s.dbg := rfl
@[simp] theorem setReply_evts (r : Reply) : (s.setReply r).evts = s.evts := rfl
@[simp] theorem setReply_thm (r : Reply) : (s.setReply r).thm = s.thm := rfl
@[simp] theorem setReply_cool (r : Reply) : (s.setReply r).cool = s.cool := rfl
@[simp] theorem setReply_loop (r : Reply) : (s.setReply r).loop = s.loop := rfl
@[simp] theorem setReply_drv (r : Reply) : (s.setReply r).drv = s.drv := rfl
@[simp] theorem setReply_cbus (r : Reply) : (s.setReply r).cbus = s.cbus := rfl
@[simp] theorem setReply_hut (r : Reply) : (s.setReply r).hut = s.hut := rfl
@[simp] theorem setReply_cairn (r : Reply) : (s.setReply r).cairn = s.cairn := rfl
@[simp] theorem setReply_fresh (r : Reply) : (s.setReply r).fresh = s.fresh := rfl

/-! #### onEnv -/

@[simp] theorem onEnv_pending (f : Env → Env) : (s.onEnv f).pending = s.pending := rfl
@[simp] theorem onEnv_reply (f : Env → Env) : (s.onEnv f).reply = s.reply := rfl
@[simp] theorem onEnv_env (f : Env → Env) : (s.onEnv f).env = f s.env := rfl
@[simp] theorem onEnv_hdrs (f : Env → Env) : (s.onEnv f).hdrs = s.hdrs := rfl
@[simp] theorem onEnv_cores (f : Env → Env) : (s.onEnv f).cores = s.cores := rfl
@[simp] theorem onEnv_ctls (f : Env → Env) : (s.onEnv f).ctls = s.ctls := rfl
@[simp] theorem onEnv_ledge (f : Env → Env) : (s.onEnv f).ledge = s.ledge := rfl
@[simp] theorem onEnv_mesh (f : Env → Env) : (s.onEnv f).mesh = s.mesh := rfl
@[simp] theorem onEnv_hbm (f : Env → Env) : (s.onEnv f).hbm = s.hbm := rfl
@[simp] theorem onEnv_arbs (f : Env → Env) : (s.onEnv f).arbs = s.arbs := rfl
@[simp] theorem onEnv_arbSels (f : Env → Env) : (s.onEnv f).arbSels = s.arbSels := rfl
@[simp] theorem onEnv_ctx (f : Env → Env) : (s.onEnv f).ctx = s.ctx := rfl
@[simp] theorem onEnv_fence (f : Env → Env) : (s.onEnv f).fence = s.fence := rfl
@[simp] theorem onEnv_fab (f : Env → Env) : (s.onEnv f).fab = s.fab := rfl
@[simp] theorem onEnv_host (f : Env → Env) : (s.onEnv f).host = s.host := rfl
@[simp] theorem onEnv_glob (f : Env → Env) : (s.onEnv f).glob = s.glob := rfl
@[simp] theorem onEnv_pwr (f : Env → Env) : (s.onEnv f).pwr = s.pwr := rfl
@[simp] theorem onEnv_sec (f : Env → Env) : (s.onEnv f).sec = s.sec := rfl
@[simp] theorem onEnv_dbg (f : Env → Env) : (s.onEnv f).dbg = s.dbg := rfl
@[simp] theorem onEnv_evts (f : Env → Env) : (s.onEnv f).evts = s.evts := rfl
@[simp] theorem onEnv_thm (f : Env → Env) : (s.onEnv f).thm = s.thm := rfl
@[simp] theorem onEnv_cool (f : Env → Env) : (s.onEnv f).cool = s.cool := rfl
@[simp] theorem onEnv_loop (f : Env → Env) : (s.onEnv f).loop = s.loop := rfl
@[simp] theorem onEnv_drv (f : Env → Env) : (s.onEnv f).drv = s.drv := rfl
@[simp] theorem onEnv_cbus (f : Env → Env) : (s.onEnv f).cbus = s.cbus := rfl
@[simp] theorem onEnv_hut (f : Env → Env) : (s.onEnv f).hut = s.hut := rfl
@[simp] theorem onEnv_cairn (f : Env → Env) : (s.onEnv f).cairn = s.cairn := rfl
@[simp] theorem onEnv_fresh (f : Env → Env) : (s.onEnv f).fresh = s.fresh := rfl

/-! #### onCtxBlk -/

@[simp] theorem onCtxBlk_pending (f : CtxBlk → CtxBlk) : (s.onCtxBlk f).pending = s.pending := rfl
@[simp] theorem onCtxBlk_reply (f : CtxBlk → CtxBlk) : (s.onCtxBlk f).reply = s.reply := rfl
@[simp] theorem onCtxBlk_env (f : CtxBlk → CtxBlk) : (s.onCtxBlk f).env = s.env := rfl
@[simp] theorem onCtxBlk_hdrs (f : CtxBlk → CtxBlk) : (s.onCtxBlk f).hdrs = s.hdrs := rfl
@[simp] theorem onCtxBlk_cores (f : CtxBlk → CtxBlk) : (s.onCtxBlk f).cores = s.cores := rfl
@[simp] theorem onCtxBlk_ctls (f : CtxBlk → CtxBlk) : (s.onCtxBlk f).ctls = s.ctls := rfl
@[simp] theorem onCtxBlk_ledge (f : CtxBlk → CtxBlk) : (s.onCtxBlk f).ledge = s.ledge := rfl
@[simp] theorem onCtxBlk_mesh (f : CtxBlk → CtxBlk) : (s.onCtxBlk f).mesh = s.mesh := rfl
@[simp] theorem onCtxBlk_hbm (f : CtxBlk → CtxBlk) : (s.onCtxBlk f).hbm = s.hbm := rfl
@[simp] theorem onCtxBlk_arbs (f : CtxBlk → CtxBlk) : (s.onCtxBlk f).arbs = s.arbs := rfl
@[simp] theorem onCtxBlk_arbSels (f : CtxBlk → CtxBlk) : (s.onCtxBlk f).arbSels = s.arbSels := rfl
@[simp] theorem onCtxBlk_ctx (f : CtxBlk → CtxBlk) : (s.onCtxBlk f).ctx = f s.ctx := rfl
@[simp] theorem onCtxBlk_fence (f : CtxBlk → CtxBlk) : (s.onCtxBlk f).fence = s.fence := rfl
@[simp] theorem onCtxBlk_fab (f : CtxBlk → CtxBlk) : (s.onCtxBlk f).fab = s.fab := rfl
@[simp] theorem onCtxBlk_host (f : CtxBlk → CtxBlk) : (s.onCtxBlk f).host = s.host := rfl
@[simp] theorem onCtxBlk_glob (f : CtxBlk → CtxBlk) : (s.onCtxBlk f).glob = s.glob := rfl
@[simp] theorem onCtxBlk_pwr (f : CtxBlk → CtxBlk) : (s.onCtxBlk f).pwr = s.pwr := rfl
@[simp] theorem onCtxBlk_sec (f : CtxBlk → CtxBlk) : (s.onCtxBlk f).sec = s.sec := rfl
@[simp] theorem onCtxBlk_dbg (f : CtxBlk → CtxBlk) : (s.onCtxBlk f).dbg = s.dbg := rfl
@[simp] theorem onCtxBlk_evts (f : CtxBlk → CtxBlk) : (s.onCtxBlk f).evts = s.evts := rfl
@[simp] theorem onCtxBlk_thm (f : CtxBlk → CtxBlk) : (s.onCtxBlk f).thm = s.thm := rfl
@[simp] theorem onCtxBlk_cool (f : CtxBlk → CtxBlk) : (s.onCtxBlk f).cool = s.cool := rfl
@[simp] theorem onCtxBlk_loop (f : CtxBlk → CtxBlk) : (s.onCtxBlk f).loop = s.loop := rfl
@[simp] theorem onCtxBlk_drv (f : CtxBlk → CtxBlk) : (s.onCtxBlk f).drv = s.drv := rfl
@[simp] theorem onCtxBlk_cbus (f : CtxBlk → CtxBlk) : (s.onCtxBlk f).cbus = s.cbus := rfl
@[simp] theorem onCtxBlk_hut (f : CtxBlk → CtxBlk) : (s.onCtxBlk f).hut = s.hut := rfl
@[simp] theorem onCtxBlk_cairn (f : CtxBlk → CtxBlk) : (s.onCtxBlk f).cairn = s.cairn := rfl
@[simp] theorem onCtxBlk_fresh (f : CtxBlk → CtxBlk) : (s.onCtxBlk f).fresh = s.fresh := rfl

/-! #### onFence -/

@[simp] theorem onFence_pending (f : FenceBlk → FenceBlk) : (s.onFence f).pending = s.pending := rfl
@[simp] theorem onFence_reply (f : FenceBlk → FenceBlk) : (s.onFence f).reply = s.reply := rfl
@[simp] theorem onFence_env (f : FenceBlk → FenceBlk) : (s.onFence f).env = s.env := rfl
@[simp] theorem onFence_hdrs (f : FenceBlk → FenceBlk) : (s.onFence f).hdrs = s.hdrs := rfl
@[simp] theorem onFence_cores (f : FenceBlk → FenceBlk) : (s.onFence f).cores = s.cores := rfl
@[simp] theorem onFence_ctls (f : FenceBlk → FenceBlk) : (s.onFence f).ctls = s.ctls := rfl
@[simp] theorem onFence_ledge (f : FenceBlk → FenceBlk) : (s.onFence f).ledge = s.ledge := rfl
@[simp] theorem onFence_mesh (f : FenceBlk → FenceBlk) : (s.onFence f).mesh = s.mesh := rfl
@[simp] theorem onFence_hbm (f : FenceBlk → FenceBlk) : (s.onFence f).hbm = s.hbm := rfl
@[simp] theorem onFence_arbs (f : FenceBlk → FenceBlk) : (s.onFence f).arbs = s.arbs := rfl
@[simp] theorem onFence_arbSels (f : FenceBlk → FenceBlk) : (s.onFence f).arbSels = s.arbSels := rfl
@[simp] theorem onFence_ctx (f : FenceBlk → FenceBlk) : (s.onFence f).ctx = s.ctx := rfl
@[simp] theorem onFence_fence (f : FenceBlk → FenceBlk) : (s.onFence f).fence = f s.fence := rfl
@[simp] theorem onFence_fab (f : FenceBlk → FenceBlk) : (s.onFence f).fab = s.fab := rfl
@[simp] theorem onFence_host (f : FenceBlk → FenceBlk) : (s.onFence f).host = s.host := rfl
@[simp] theorem onFence_glob (f : FenceBlk → FenceBlk) : (s.onFence f).glob = s.glob := rfl
@[simp] theorem onFence_pwr (f : FenceBlk → FenceBlk) : (s.onFence f).pwr = s.pwr := rfl
@[simp] theorem onFence_sec (f : FenceBlk → FenceBlk) : (s.onFence f).sec = s.sec := rfl
@[simp] theorem onFence_dbg (f : FenceBlk → FenceBlk) : (s.onFence f).dbg = s.dbg := rfl
@[simp] theorem onFence_evts (f : FenceBlk → FenceBlk) : (s.onFence f).evts = s.evts := rfl
@[simp] theorem onFence_thm (f : FenceBlk → FenceBlk) : (s.onFence f).thm = s.thm := rfl
@[simp] theorem onFence_cool (f : FenceBlk → FenceBlk) : (s.onFence f).cool = s.cool := rfl
@[simp] theorem onFence_loop (f : FenceBlk → FenceBlk) : (s.onFence f).loop = s.loop := rfl
@[simp] theorem onFence_drv (f : FenceBlk → FenceBlk) : (s.onFence f).drv = s.drv := rfl
@[simp] theorem onFence_cbus (f : FenceBlk → FenceBlk) : (s.onFence f).cbus = s.cbus := rfl
@[simp] theorem onFence_hut (f : FenceBlk → FenceBlk) : (s.onFence f).hut = s.hut := rfl
@[simp] theorem onFence_cairn (f : FenceBlk → FenceBlk) : (s.onFence f).cairn = s.cairn := rfl
@[simp] theorem onFence_fresh (f : FenceBlk → FenceBlk) : (s.onFence f).fresh = s.fresh := rfl

/-! #### onFab -/

@[simp] theorem onFab_pending (f : FabState → FabState) : (s.onFab f).pending = s.pending := rfl
@[simp] theorem onFab_reply (f : FabState → FabState) : (s.onFab f).reply = s.reply := rfl
@[simp] theorem onFab_env (f : FabState → FabState) : (s.onFab f).env = s.env := rfl
@[simp] theorem onFab_hdrs (f : FabState → FabState) : (s.onFab f).hdrs = s.hdrs := rfl
@[simp] theorem onFab_cores (f : FabState → FabState) : (s.onFab f).cores = s.cores := rfl
@[simp] theorem onFab_ctls (f : FabState → FabState) : (s.onFab f).ctls = s.ctls := rfl
@[simp] theorem onFab_ledge (f : FabState → FabState) : (s.onFab f).ledge = s.ledge := rfl
@[simp] theorem onFab_mesh (f : FabState → FabState) : (s.onFab f).mesh = s.mesh := rfl
@[simp] theorem onFab_hbm (f : FabState → FabState) : (s.onFab f).hbm = s.hbm := rfl
@[simp] theorem onFab_arbs (f : FabState → FabState) : (s.onFab f).arbs = s.arbs := rfl
@[simp] theorem onFab_arbSels (f : FabState → FabState) : (s.onFab f).arbSels = s.arbSels := rfl
@[simp] theorem onFab_ctx (f : FabState → FabState) : (s.onFab f).ctx = s.ctx := rfl
@[simp] theorem onFab_fence (f : FabState → FabState) : (s.onFab f).fence = s.fence := rfl
@[simp] theorem onFab_fab (f : FabState → FabState) : (s.onFab f).fab = f s.fab := rfl
@[simp] theorem onFab_host (f : FabState → FabState) : (s.onFab f).host = s.host := rfl
@[simp] theorem onFab_glob (f : FabState → FabState) : (s.onFab f).glob = s.glob := rfl
@[simp] theorem onFab_pwr (f : FabState → FabState) : (s.onFab f).pwr = s.pwr := rfl
@[simp] theorem onFab_sec (f : FabState → FabState) : (s.onFab f).sec = s.sec := rfl
@[simp] theorem onFab_dbg (f : FabState → FabState) : (s.onFab f).dbg = s.dbg := rfl
@[simp] theorem onFab_evts (f : FabState → FabState) : (s.onFab f).evts = s.evts := rfl
@[simp] theorem onFab_thm (f : FabState → FabState) : (s.onFab f).thm = s.thm := rfl
@[simp] theorem onFab_cool (f : FabState → FabState) : (s.onFab f).cool = s.cool := rfl
@[simp] theorem onFab_loop (f : FabState → FabState) : (s.onFab f).loop = s.loop := rfl
@[simp] theorem onFab_drv (f : FabState → FabState) : (s.onFab f).drv = s.drv := rfl
@[simp] theorem onFab_cbus (f : FabState → FabState) : (s.onFab f).cbus = s.cbus := rfl
@[simp] theorem onFab_hut (f : FabState → FabState) : (s.onFab f).hut = s.hut := rfl
@[simp] theorem onFab_cairn (f : FabState → FabState) : (s.onFab f).cairn = s.cairn := rfl
@[simp] theorem onFab_fresh (f : FabState → FabState) : (s.onFab f).fresh = s.fresh := rfl

/-! #### onHost -/

@[simp] theorem onHost_pending (f : HostBlk → HostBlk) : (s.onHost f).pending = s.pending := rfl
@[simp] theorem onHost_reply (f : HostBlk → HostBlk) : (s.onHost f).reply = s.reply := rfl
@[simp] theorem onHost_env (f : HostBlk → HostBlk) : (s.onHost f).env = s.env := rfl
@[simp] theorem onHost_hdrs (f : HostBlk → HostBlk) : (s.onHost f).hdrs = s.hdrs := rfl
@[simp] theorem onHost_cores (f : HostBlk → HostBlk) : (s.onHost f).cores = s.cores := rfl
@[simp] theorem onHost_ctls (f : HostBlk → HostBlk) : (s.onHost f).ctls = s.ctls := rfl
@[simp] theorem onHost_ledge (f : HostBlk → HostBlk) : (s.onHost f).ledge = s.ledge := rfl
@[simp] theorem onHost_mesh (f : HostBlk → HostBlk) : (s.onHost f).mesh = s.mesh := rfl
@[simp] theorem onHost_hbm (f : HostBlk → HostBlk) : (s.onHost f).hbm = s.hbm := rfl
@[simp] theorem onHost_arbs (f : HostBlk → HostBlk) : (s.onHost f).arbs = s.arbs := rfl
@[simp] theorem onHost_arbSels (f : HostBlk → HostBlk) : (s.onHost f).arbSels = s.arbSels := rfl
@[simp] theorem onHost_ctx (f : HostBlk → HostBlk) : (s.onHost f).ctx = s.ctx := rfl
@[simp] theorem onHost_fence (f : HostBlk → HostBlk) : (s.onHost f).fence = s.fence := rfl
@[simp] theorem onHost_fab (f : HostBlk → HostBlk) : (s.onHost f).fab = s.fab := rfl
@[simp] theorem onHost_host (f : HostBlk → HostBlk) : (s.onHost f).host = f s.host := rfl
@[simp] theorem onHost_glob (f : HostBlk → HostBlk) : (s.onHost f).glob = s.glob := rfl
@[simp] theorem onHost_pwr (f : HostBlk → HostBlk) : (s.onHost f).pwr = s.pwr := rfl
@[simp] theorem onHost_sec (f : HostBlk → HostBlk) : (s.onHost f).sec = s.sec := rfl
@[simp] theorem onHost_dbg (f : HostBlk → HostBlk) : (s.onHost f).dbg = s.dbg := rfl
@[simp] theorem onHost_evts (f : HostBlk → HostBlk) : (s.onHost f).evts = s.evts := rfl
@[simp] theorem onHost_thm (f : HostBlk → HostBlk) : (s.onHost f).thm = s.thm := rfl
@[simp] theorem onHost_cool (f : HostBlk → HostBlk) : (s.onHost f).cool = s.cool := rfl
@[simp] theorem onHost_loop (f : HostBlk → HostBlk) : (s.onHost f).loop = s.loop := rfl
@[simp] theorem onHost_drv (f : HostBlk → HostBlk) : (s.onHost f).drv = s.drv := rfl
@[simp] theorem onHost_cbus (f : HostBlk → HostBlk) : (s.onHost f).cbus = s.cbus := rfl
@[simp] theorem onHost_hut (f : HostBlk → HostBlk) : (s.onHost f).hut = s.hut := rfl
@[simp] theorem onHost_cairn (f : HostBlk → HostBlk) : (s.onHost f).cairn = s.cairn := rfl
@[simp] theorem onHost_fresh (f : HostBlk → HostBlk) : (s.onHost f).fresh = s.fresh := rfl

/-! #### onGlob -/

@[simp] theorem onGlob_pending (f : GlobBlk → GlobBlk) : (s.onGlob f).pending = s.pending := rfl
@[simp] theorem onGlob_reply (f : GlobBlk → GlobBlk) : (s.onGlob f).reply = s.reply := rfl
@[simp] theorem onGlob_env (f : GlobBlk → GlobBlk) : (s.onGlob f).env = s.env := rfl
@[simp] theorem onGlob_hdrs (f : GlobBlk → GlobBlk) : (s.onGlob f).hdrs = s.hdrs := rfl
@[simp] theorem onGlob_cores (f : GlobBlk → GlobBlk) : (s.onGlob f).cores = s.cores := rfl
@[simp] theorem onGlob_ctls (f : GlobBlk → GlobBlk) : (s.onGlob f).ctls = s.ctls := rfl
@[simp] theorem onGlob_ledge (f : GlobBlk → GlobBlk) : (s.onGlob f).ledge = s.ledge := rfl
@[simp] theorem onGlob_mesh (f : GlobBlk → GlobBlk) : (s.onGlob f).mesh = s.mesh := rfl
@[simp] theorem onGlob_hbm (f : GlobBlk → GlobBlk) : (s.onGlob f).hbm = s.hbm := rfl
@[simp] theorem onGlob_arbs (f : GlobBlk → GlobBlk) : (s.onGlob f).arbs = s.arbs := rfl
@[simp] theorem onGlob_arbSels (f : GlobBlk → GlobBlk) : (s.onGlob f).arbSels = s.arbSels := rfl
@[simp] theorem onGlob_ctx (f : GlobBlk → GlobBlk) : (s.onGlob f).ctx = s.ctx := rfl
@[simp] theorem onGlob_fence (f : GlobBlk → GlobBlk) : (s.onGlob f).fence = s.fence := rfl
@[simp] theorem onGlob_fab (f : GlobBlk → GlobBlk) : (s.onGlob f).fab = s.fab := rfl
@[simp] theorem onGlob_host (f : GlobBlk → GlobBlk) : (s.onGlob f).host = s.host := rfl
@[simp] theorem onGlob_glob (f : GlobBlk → GlobBlk) : (s.onGlob f).glob = f s.glob := rfl
@[simp] theorem onGlob_pwr (f : GlobBlk → GlobBlk) : (s.onGlob f).pwr = s.pwr := rfl
@[simp] theorem onGlob_sec (f : GlobBlk → GlobBlk) : (s.onGlob f).sec = s.sec := rfl
@[simp] theorem onGlob_dbg (f : GlobBlk → GlobBlk) : (s.onGlob f).dbg = s.dbg := rfl
@[simp] theorem onGlob_evts (f : GlobBlk → GlobBlk) : (s.onGlob f).evts = s.evts := rfl
@[simp] theorem onGlob_thm (f : GlobBlk → GlobBlk) : (s.onGlob f).thm = s.thm := rfl
@[simp] theorem onGlob_cool (f : GlobBlk → GlobBlk) : (s.onGlob f).cool = s.cool := rfl
@[simp] theorem onGlob_loop (f : GlobBlk → GlobBlk) : (s.onGlob f).loop = s.loop := rfl
@[simp] theorem onGlob_drv (f : GlobBlk → GlobBlk) : (s.onGlob f).drv = s.drv := rfl
@[simp] theorem onGlob_cbus (f : GlobBlk → GlobBlk) : (s.onGlob f).cbus = s.cbus := rfl
@[simp] theorem onGlob_hut (f : GlobBlk → GlobBlk) : (s.onGlob f).hut = s.hut := rfl
@[simp] theorem onGlob_cairn (f : GlobBlk → GlobBlk) : (s.onGlob f).cairn = s.cairn := rfl
@[simp] theorem onGlob_fresh (f : GlobBlk → GlobBlk) : (s.onGlob f).fresh = s.fresh := rfl

/-! #### onPwr -/

@[simp] theorem onPwr_pending (f : PwrBlk → PwrBlk) : (s.onPwr f).pending = s.pending := rfl
@[simp] theorem onPwr_reply (f : PwrBlk → PwrBlk) : (s.onPwr f).reply = s.reply := rfl
@[simp] theorem onPwr_env (f : PwrBlk → PwrBlk) : (s.onPwr f).env = s.env := rfl
@[simp] theorem onPwr_hdrs (f : PwrBlk → PwrBlk) : (s.onPwr f).hdrs = s.hdrs := rfl
@[simp] theorem onPwr_cores (f : PwrBlk → PwrBlk) : (s.onPwr f).cores = s.cores := rfl
@[simp] theorem onPwr_ctls (f : PwrBlk → PwrBlk) : (s.onPwr f).ctls = s.ctls := rfl
@[simp] theorem onPwr_ledge (f : PwrBlk → PwrBlk) : (s.onPwr f).ledge = s.ledge := rfl
@[simp] theorem onPwr_mesh (f : PwrBlk → PwrBlk) : (s.onPwr f).mesh = s.mesh := rfl
@[simp] theorem onPwr_hbm (f : PwrBlk → PwrBlk) : (s.onPwr f).hbm = s.hbm := rfl
@[simp] theorem onPwr_arbs (f : PwrBlk → PwrBlk) : (s.onPwr f).arbs = s.arbs := rfl
@[simp] theorem onPwr_arbSels (f : PwrBlk → PwrBlk) : (s.onPwr f).arbSels = s.arbSels := rfl
@[simp] theorem onPwr_ctx (f : PwrBlk → PwrBlk) : (s.onPwr f).ctx = s.ctx := rfl
@[simp] theorem onPwr_fence (f : PwrBlk → PwrBlk) : (s.onPwr f).fence = s.fence := rfl
@[simp] theorem onPwr_fab (f : PwrBlk → PwrBlk) : (s.onPwr f).fab = s.fab := rfl
@[simp] theorem onPwr_host (f : PwrBlk → PwrBlk) : (s.onPwr f).host = s.host := rfl
@[simp] theorem onPwr_glob (f : PwrBlk → PwrBlk) : (s.onPwr f).glob = s.glob := rfl
@[simp] theorem onPwr_pwr (f : PwrBlk → PwrBlk) : (s.onPwr f).pwr = f s.pwr := rfl
@[simp] theorem onPwr_sec (f : PwrBlk → PwrBlk) : (s.onPwr f).sec = s.sec := rfl
@[simp] theorem onPwr_dbg (f : PwrBlk → PwrBlk) : (s.onPwr f).dbg = s.dbg := rfl
@[simp] theorem onPwr_evts (f : PwrBlk → PwrBlk) : (s.onPwr f).evts = s.evts := rfl
@[simp] theorem onPwr_thm (f : PwrBlk → PwrBlk) : (s.onPwr f).thm = s.thm := rfl
@[simp] theorem onPwr_cool (f : PwrBlk → PwrBlk) : (s.onPwr f).cool = s.cool := rfl
@[simp] theorem onPwr_loop (f : PwrBlk → PwrBlk) : (s.onPwr f).loop = s.loop := rfl
@[simp] theorem onPwr_drv (f : PwrBlk → PwrBlk) : (s.onPwr f).drv = s.drv := rfl
@[simp] theorem onPwr_cbus (f : PwrBlk → PwrBlk) : (s.onPwr f).cbus = s.cbus := rfl
@[simp] theorem onPwr_hut (f : PwrBlk → PwrBlk) : (s.onPwr f).hut = s.hut := rfl
@[simp] theorem onPwr_cairn (f : PwrBlk → PwrBlk) : (s.onPwr f).cairn = s.cairn := rfl
@[simp] theorem onPwr_fresh (f : PwrBlk → PwrBlk) : (s.onPwr f).fresh = s.fresh := rfl

/-! #### onLedge -/

@[simp] theorem onLedge_pending (f : LedgeBlk → LedgeBlk) : (s.onLedge f).pending = s.pending := rfl
@[simp] theorem onLedge_reply (f : LedgeBlk → LedgeBlk) : (s.onLedge f).reply = s.reply := rfl
@[simp] theorem onLedge_env (f : LedgeBlk → LedgeBlk) : (s.onLedge f).env = s.env := rfl
@[simp] theorem onLedge_hdrs (f : LedgeBlk → LedgeBlk) : (s.onLedge f).hdrs = s.hdrs := rfl
@[simp] theorem onLedge_cores (f : LedgeBlk → LedgeBlk) : (s.onLedge f).cores = s.cores := rfl
@[simp] theorem onLedge_ctls (f : LedgeBlk → LedgeBlk) : (s.onLedge f).ctls = s.ctls := rfl
@[simp] theorem onLedge_ledge (f : LedgeBlk → LedgeBlk) : (s.onLedge f).ledge = f s.ledge := rfl
@[simp] theorem onLedge_mesh (f : LedgeBlk → LedgeBlk) : (s.onLedge f).mesh = s.mesh := rfl
@[simp] theorem onLedge_hbm (f : LedgeBlk → LedgeBlk) : (s.onLedge f).hbm = s.hbm := rfl
@[simp] theorem onLedge_arbs (f : LedgeBlk → LedgeBlk) : (s.onLedge f).arbs = s.arbs := rfl
@[simp] theorem onLedge_arbSels (f : LedgeBlk → LedgeBlk) : (s.onLedge f).arbSels = s.arbSels := rfl
@[simp] theorem onLedge_ctx (f : LedgeBlk → LedgeBlk) : (s.onLedge f).ctx = s.ctx := rfl
@[simp] theorem onLedge_fence (f : LedgeBlk → LedgeBlk) : (s.onLedge f).fence = s.fence := rfl
@[simp] theorem onLedge_fab (f : LedgeBlk → LedgeBlk) : (s.onLedge f).fab = s.fab := rfl
@[simp] theorem onLedge_host (f : LedgeBlk → LedgeBlk) : (s.onLedge f).host = s.host := rfl
@[simp] theorem onLedge_glob (f : LedgeBlk → LedgeBlk) : (s.onLedge f).glob = s.glob := rfl
@[simp] theorem onLedge_pwr (f : LedgeBlk → LedgeBlk) : (s.onLedge f).pwr = s.pwr := rfl
@[simp] theorem onLedge_sec (f : LedgeBlk → LedgeBlk) : (s.onLedge f).sec = s.sec := rfl
@[simp] theorem onLedge_dbg (f : LedgeBlk → LedgeBlk) : (s.onLedge f).dbg = s.dbg := rfl
@[simp] theorem onLedge_evts (f : LedgeBlk → LedgeBlk) : (s.onLedge f).evts = s.evts := rfl
@[simp] theorem onLedge_thm (f : LedgeBlk → LedgeBlk) : (s.onLedge f).thm = s.thm := rfl
@[simp] theorem onLedge_cool (f : LedgeBlk → LedgeBlk) : (s.onLedge f).cool = s.cool := rfl
@[simp] theorem onLedge_loop (f : LedgeBlk → LedgeBlk) : (s.onLedge f).loop = s.loop := rfl
@[simp] theorem onLedge_drv (f : LedgeBlk → LedgeBlk) : (s.onLedge f).drv = s.drv := rfl
@[simp] theorem onLedge_cbus (f : LedgeBlk → LedgeBlk) : (s.onLedge f).cbus = s.cbus := rfl
@[simp] theorem onLedge_hut (f : LedgeBlk → LedgeBlk) : (s.onLedge f).hut = s.hut := rfl
@[simp] theorem onLedge_cairn (f : LedgeBlk → LedgeBlk) : (s.onLedge f).cairn = s.cairn := rfl
@[simp] theorem onLedge_fresh (f : LedgeBlk → LedgeBlk) : (s.onLedge f).fresh = s.fresh := rfl

/-! #### onMesh -/

@[simp] theorem onMesh_pending (f : MeshState → MeshState) : (s.onMesh f).pending = s.pending := rfl
@[simp] theorem onMesh_reply (f : MeshState → MeshState) : (s.onMesh f).reply = s.reply := rfl
@[simp] theorem onMesh_env (f : MeshState → MeshState) : (s.onMesh f).env = s.env := rfl
@[simp] theorem onMesh_hdrs (f : MeshState → MeshState) : (s.onMesh f).hdrs = s.hdrs := rfl
@[simp] theorem onMesh_cores (f : MeshState → MeshState) : (s.onMesh f).cores = s.cores := rfl
@[simp] theorem onMesh_ctls (f : MeshState → MeshState) : (s.onMesh f).ctls = s.ctls := rfl
@[simp] theorem onMesh_ledge (f : MeshState → MeshState) : (s.onMesh f).ledge = s.ledge := rfl
@[simp] theorem onMesh_mesh (f : MeshState → MeshState) : (s.onMesh f).mesh = f s.mesh := rfl
@[simp] theorem onMesh_hbm (f : MeshState → MeshState) : (s.onMesh f).hbm = s.hbm := rfl
@[simp] theorem onMesh_arbs (f : MeshState → MeshState) : (s.onMesh f).arbs = s.arbs := rfl
@[simp] theorem onMesh_arbSels (f : MeshState → MeshState) : (s.onMesh f).arbSels = s.arbSels := rfl
@[simp] theorem onMesh_ctx (f : MeshState → MeshState) : (s.onMesh f).ctx = s.ctx := rfl
@[simp] theorem onMesh_fence (f : MeshState → MeshState) : (s.onMesh f).fence = s.fence := rfl
@[simp] theorem onMesh_fab (f : MeshState → MeshState) : (s.onMesh f).fab = s.fab := rfl
@[simp] theorem onMesh_host (f : MeshState → MeshState) : (s.onMesh f).host = s.host := rfl
@[simp] theorem onMesh_glob (f : MeshState → MeshState) : (s.onMesh f).glob = s.glob := rfl
@[simp] theorem onMesh_pwr (f : MeshState → MeshState) : (s.onMesh f).pwr = s.pwr := rfl
@[simp] theorem onMesh_sec (f : MeshState → MeshState) : (s.onMesh f).sec = s.sec := rfl
@[simp] theorem onMesh_dbg (f : MeshState → MeshState) : (s.onMesh f).dbg = s.dbg := rfl
@[simp] theorem onMesh_evts (f : MeshState → MeshState) : (s.onMesh f).evts = s.evts := rfl
@[simp] theorem onMesh_thm (f : MeshState → MeshState) : (s.onMesh f).thm = s.thm := rfl
@[simp] theorem onMesh_cool (f : MeshState → MeshState) : (s.onMesh f).cool = s.cool := rfl
@[simp] theorem onMesh_loop (f : MeshState → MeshState) : (s.onMesh f).loop = s.loop := rfl
@[simp] theorem onMesh_drv (f : MeshState → MeshState) : (s.onMesh f).drv = s.drv := rfl
@[simp] theorem onMesh_cbus (f : MeshState → MeshState) : (s.onMesh f).cbus = s.cbus := rfl
@[simp] theorem onMesh_hut (f : MeshState → MeshState) : (s.onMesh f).hut = s.hut := rfl
@[simp] theorem onMesh_cairn (f : MeshState → MeshState) : (s.onMesh f).cairn = s.cairn := rfl
@[simp] theorem onMesh_fresh (f : MeshState → MeshState) : (s.onMesh f).fresh = s.fresh := rfl

/-! #### onHbm -/

@[simp] theorem onHbm_pending (f : HbmBlk → HbmBlk) : (s.onHbm f).pending = s.pending := rfl
@[simp] theorem onHbm_reply (f : HbmBlk → HbmBlk) : (s.onHbm f).reply = s.reply := rfl
@[simp] theorem onHbm_env (f : HbmBlk → HbmBlk) : (s.onHbm f).env = s.env := rfl
@[simp] theorem onHbm_hdrs (f : HbmBlk → HbmBlk) : (s.onHbm f).hdrs = s.hdrs := rfl
@[simp] theorem onHbm_cores (f : HbmBlk → HbmBlk) : (s.onHbm f).cores = s.cores := rfl
@[simp] theorem onHbm_ctls (f : HbmBlk → HbmBlk) : (s.onHbm f).ctls = s.ctls := rfl
@[simp] theorem onHbm_ledge (f : HbmBlk → HbmBlk) : (s.onHbm f).ledge = s.ledge := rfl
@[simp] theorem onHbm_mesh (f : HbmBlk → HbmBlk) : (s.onHbm f).mesh = s.mesh := rfl
@[simp] theorem onHbm_hbm (f : HbmBlk → HbmBlk) : (s.onHbm f).hbm = f s.hbm := rfl
@[simp] theorem onHbm_arbs (f : HbmBlk → HbmBlk) : (s.onHbm f).arbs = s.arbs := rfl
@[simp] theorem onHbm_arbSels (f : HbmBlk → HbmBlk) : (s.onHbm f).arbSels = s.arbSels := rfl
@[simp] theorem onHbm_ctx (f : HbmBlk → HbmBlk) : (s.onHbm f).ctx = s.ctx := rfl
@[simp] theorem onHbm_fence (f : HbmBlk → HbmBlk) : (s.onHbm f).fence = s.fence := rfl
@[simp] theorem onHbm_fab (f : HbmBlk → HbmBlk) : (s.onHbm f).fab = s.fab := rfl
@[simp] theorem onHbm_host (f : HbmBlk → HbmBlk) : (s.onHbm f).host = s.host := rfl
@[simp] theorem onHbm_glob (f : HbmBlk → HbmBlk) : (s.onHbm f).glob = s.glob := rfl
@[simp] theorem onHbm_pwr (f : HbmBlk → HbmBlk) : (s.onHbm f).pwr = s.pwr := rfl
@[simp] theorem onHbm_sec (f : HbmBlk → HbmBlk) : (s.onHbm f).sec = s.sec := rfl
@[simp] theorem onHbm_dbg (f : HbmBlk → HbmBlk) : (s.onHbm f).dbg = s.dbg := rfl
@[simp] theorem onHbm_evts (f : HbmBlk → HbmBlk) : (s.onHbm f).evts = s.evts := rfl
@[simp] theorem onHbm_thm (f : HbmBlk → HbmBlk) : (s.onHbm f).thm = s.thm := rfl
@[simp] theorem onHbm_cool (f : HbmBlk → HbmBlk) : (s.onHbm f).cool = s.cool := rfl
@[simp] theorem onHbm_loop (f : HbmBlk → HbmBlk) : (s.onHbm f).loop = s.loop := rfl
@[simp] theorem onHbm_drv (f : HbmBlk → HbmBlk) : (s.onHbm f).drv = s.drv := rfl
@[simp] theorem onHbm_cbus (f : HbmBlk → HbmBlk) : (s.onHbm f).cbus = s.cbus := rfl
@[simp] theorem onHbm_hut (f : HbmBlk → HbmBlk) : (s.onHbm f).hut = s.hut := rfl
@[simp] theorem onHbm_cairn (f : HbmBlk → HbmBlk) : (s.onHbm f).cairn = s.cairn := rfl
@[simp] theorem onHbm_fresh (f : HbmBlk → HbmBlk) : (s.onHbm f).fresh = s.fresh := rfl

/-! #### onEvts -/

@[simp] theorem onEvts_pending (f : EvtPort → EvtPort) : (s.onEvts f).pending = s.pending := rfl
@[simp] theorem onEvts_reply (f : EvtPort → EvtPort) : (s.onEvts f).reply = s.reply := rfl
@[simp] theorem onEvts_env (f : EvtPort → EvtPort) : (s.onEvts f).env = s.env := rfl
@[simp] theorem onEvts_hdrs (f : EvtPort → EvtPort) : (s.onEvts f).hdrs = s.hdrs := rfl
@[simp] theorem onEvts_cores (f : EvtPort → EvtPort) : (s.onEvts f).cores = s.cores := rfl
@[simp] theorem onEvts_ctls (f : EvtPort → EvtPort) : (s.onEvts f).ctls = s.ctls := rfl
@[simp] theorem onEvts_ledge (f : EvtPort → EvtPort) : (s.onEvts f).ledge = s.ledge := rfl
@[simp] theorem onEvts_mesh (f : EvtPort → EvtPort) : (s.onEvts f).mesh = s.mesh := rfl
@[simp] theorem onEvts_hbm (f : EvtPort → EvtPort) : (s.onEvts f).hbm = s.hbm := rfl
@[simp] theorem onEvts_arbs (f : EvtPort → EvtPort) : (s.onEvts f).arbs = s.arbs := rfl
@[simp] theorem onEvts_arbSels (f : EvtPort → EvtPort) : (s.onEvts f).arbSels = s.arbSels := rfl
@[simp] theorem onEvts_ctx (f : EvtPort → EvtPort) : (s.onEvts f).ctx = s.ctx := rfl
@[simp] theorem onEvts_fence (f : EvtPort → EvtPort) : (s.onEvts f).fence = s.fence := rfl
@[simp] theorem onEvts_fab (f : EvtPort → EvtPort) : (s.onEvts f).fab = s.fab := rfl
@[simp] theorem onEvts_host (f : EvtPort → EvtPort) : (s.onEvts f).host = s.host := rfl
@[simp] theorem onEvts_glob (f : EvtPort → EvtPort) : (s.onEvts f).glob = s.glob := rfl
@[simp] theorem onEvts_pwr (f : EvtPort → EvtPort) : (s.onEvts f).pwr = s.pwr := rfl
@[simp] theorem onEvts_sec (f : EvtPort → EvtPort) : (s.onEvts f).sec = s.sec := rfl
@[simp] theorem onEvts_dbg (f : EvtPort → EvtPort) : (s.onEvts f).dbg = s.dbg := rfl
@[simp] theorem onEvts_evts (f : EvtPort → EvtPort) : (s.onEvts f).evts = f s.evts := rfl
@[simp] theorem onEvts_thm (f : EvtPort → EvtPort) : (s.onEvts f).thm = s.thm := rfl
@[simp] theorem onEvts_cool (f : EvtPort → EvtPort) : (s.onEvts f).cool = s.cool := rfl
@[simp] theorem onEvts_loop (f : EvtPort → EvtPort) : (s.onEvts f).loop = s.loop := rfl
@[simp] theorem onEvts_drv (f : EvtPort → EvtPort) : (s.onEvts f).drv = s.drv := rfl
@[simp] theorem onEvts_cbus (f : EvtPort → EvtPort) : (s.onEvts f).cbus = s.cbus := rfl
@[simp] theorem onEvts_hut (f : EvtPort → EvtPort) : (s.onEvts f).hut = s.hut := rfl
@[simp] theorem onEvts_cairn (f : EvtPort → EvtPort) : (s.onEvts f).cairn = s.cairn := rfl
@[simp] theorem onEvts_fresh (f : EvtPort → EvtPort) : (s.onEvts f).fresh = s.fresh := rfl

/-! #### onSec -/

@[simp] theorem onSec_pending (f : SecBlk → SecBlk) : (s.onSec f).pending = s.pending := rfl
@[simp] theorem onSec_reply (f : SecBlk → SecBlk) : (s.onSec f).reply = s.reply := rfl
@[simp] theorem onSec_env (f : SecBlk → SecBlk) : (s.onSec f).env = s.env := rfl
@[simp] theorem onSec_hdrs (f : SecBlk → SecBlk) : (s.onSec f).hdrs = s.hdrs := rfl
@[simp] theorem onSec_cores (f : SecBlk → SecBlk) : (s.onSec f).cores = s.cores := rfl
@[simp] theorem onSec_ctls (f : SecBlk → SecBlk) : (s.onSec f).ctls = s.ctls := rfl
@[simp] theorem onSec_ledge (f : SecBlk → SecBlk) : (s.onSec f).ledge = s.ledge := rfl
@[simp] theorem onSec_mesh (f : SecBlk → SecBlk) : (s.onSec f).mesh = s.mesh := rfl
@[simp] theorem onSec_hbm (f : SecBlk → SecBlk) : (s.onSec f).hbm = s.hbm := rfl
@[simp] theorem onSec_arbs (f : SecBlk → SecBlk) : (s.onSec f).arbs = s.arbs := rfl
@[simp] theorem onSec_arbSels (f : SecBlk → SecBlk) : (s.onSec f).arbSels = s.arbSels := rfl
@[simp] theorem onSec_ctx (f : SecBlk → SecBlk) : (s.onSec f).ctx = s.ctx := rfl
@[simp] theorem onSec_fence (f : SecBlk → SecBlk) : (s.onSec f).fence = s.fence := rfl
@[simp] theorem onSec_fab (f : SecBlk → SecBlk) : (s.onSec f).fab = s.fab := rfl
@[simp] theorem onSec_host (f : SecBlk → SecBlk) : (s.onSec f).host = s.host := rfl
@[simp] theorem onSec_glob (f : SecBlk → SecBlk) : (s.onSec f).glob = s.glob := rfl
@[simp] theorem onSec_pwr (f : SecBlk → SecBlk) : (s.onSec f).pwr = s.pwr := rfl
@[simp] theorem onSec_sec (f : SecBlk → SecBlk) : (s.onSec f).sec = f s.sec := rfl
@[simp] theorem onSec_dbg (f : SecBlk → SecBlk) : (s.onSec f).dbg = s.dbg := rfl
@[simp] theorem onSec_evts (f : SecBlk → SecBlk) : (s.onSec f).evts = s.evts := rfl
@[simp] theorem onSec_thm (f : SecBlk → SecBlk) : (s.onSec f).thm = s.thm := rfl
@[simp] theorem onSec_cool (f : SecBlk → SecBlk) : (s.onSec f).cool = s.cool := rfl
@[simp] theorem onSec_loop (f : SecBlk → SecBlk) : (s.onSec f).loop = s.loop := rfl
@[simp] theorem onSec_drv (f : SecBlk → SecBlk) : (s.onSec f).drv = s.drv := rfl
@[simp] theorem onSec_cbus (f : SecBlk → SecBlk) : (s.onSec f).cbus = s.cbus := rfl
@[simp] theorem onSec_hut (f : SecBlk → SecBlk) : (s.onSec f).hut = s.hut := rfl
@[simp] theorem onSec_cairn (f : SecBlk → SecBlk) : (s.onSec f).cairn = s.cairn := rfl
@[simp] theorem onSec_fresh (f : SecBlk → SecBlk) : (s.onSec f).fresh = s.fresh := rfl

/-! #### onDbg -/

@[simp] theorem onDbg_pending (f : DbgBlk → DbgBlk) : (s.onDbg f).pending = s.pending := rfl
@[simp] theorem onDbg_reply (f : DbgBlk → DbgBlk) : (s.onDbg f).reply = s.reply := rfl
@[simp] theorem onDbg_env (f : DbgBlk → DbgBlk) : (s.onDbg f).env = s.env := rfl
@[simp] theorem onDbg_hdrs (f : DbgBlk → DbgBlk) : (s.onDbg f).hdrs = s.hdrs := rfl
@[simp] theorem onDbg_cores (f : DbgBlk → DbgBlk) : (s.onDbg f).cores = s.cores := rfl
@[simp] theorem onDbg_ctls (f : DbgBlk → DbgBlk) : (s.onDbg f).ctls = s.ctls := rfl
@[simp] theorem onDbg_ledge (f : DbgBlk → DbgBlk) : (s.onDbg f).ledge = s.ledge := rfl
@[simp] theorem onDbg_mesh (f : DbgBlk → DbgBlk) : (s.onDbg f).mesh = s.mesh := rfl
@[simp] theorem onDbg_hbm (f : DbgBlk → DbgBlk) : (s.onDbg f).hbm = s.hbm := rfl
@[simp] theorem onDbg_arbs (f : DbgBlk → DbgBlk) : (s.onDbg f).arbs = s.arbs := rfl
@[simp] theorem onDbg_arbSels (f : DbgBlk → DbgBlk) : (s.onDbg f).arbSels = s.arbSels := rfl
@[simp] theorem onDbg_ctx (f : DbgBlk → DbgBlk) : (s.onDbg f).ctx = s.ctx := rfl
@[simp] theorem onDbg_fence (f : DbgBlk → DbgBlk) : (s.onDbg f).fence = s.fence := rfl
@[simp] theorem onDbg_fab (f : DbgBlk → DbgBlk) : (s.onDbg f).fab = s.fab := rfl
@[simp] theorem onDbg_host (f : DbgBlk → DbgBlk) : (s.onDbg f).host = s.host := rfl
@[simp] theorem onDbg_glob (f : DbgBlk → DbgBlk) : (s.onDbg f).glob = s.glob := rfl
@[simp] theorem onDbg_pwr (f : DbgBlk → DbgBlk) : (s.onDbg f).pwr = s.pwr := rfl
@[simp] theorem onDbg_sec (f : DbgBlk → DbgBlk) : (s.onDbg f).sec = s.sec := rfl
@[simp] theorem onDbg_dbg (f : DbgBlk → DbgBlk) : (s.onDbg f).dbg = f s.dbg := rfl
@[simp] theorem onDbg_evts (f : DbgBlk → DbgBlk) : (s.onDbg f).evts = s.evts := rfl
@[simp] theorem onDbg_thm (f : DbgBlk → DbgBlk) : (s.onDbg f).thm = s.thm := rfl
@[simp] theorem onDbg_cool (f : DbgBlk → DbgBlk) : (s.onDbg f).cool = s.cool := rfl
@[simp] theorem onDbg_loop (f : DbgBlk → DbgBlk) : (s.onDbg f).loop = s.loop := rfl
@[simp] theorem onDbg_drv (f : DbgBlk → DbgBlk) : (s.onDbg f).drv = s.drv := rfl
@[simp] theorem onDbg_cbus (f : DbgBlk → DbgBlk) : (s.onDbg f).cbus = s.cbus := rfl
@[simp] theorem onDbg_hut (f : DbgBlk → DbgBlk) : (s.onDbg f).hut = s.hut := rfl
@[simp] theorem onDbg_cairn (f : DbgBlk → DbgBlk) : (s.onDbg f).cairn = s.cairn := rfl
@[simp] theorem onDbg_fresh (f : DbgBlk → DbgBlk) : (s.onDbg f).fresh = s.fresh := rfl

/-! #### onThm -/

@[simp] theorem onThm_pending (f : ThmBlk → ThmBlk) : (s.onThm f).pending = s.pending := rfl
@[simp] theorem onThm_reply (f : ThmBlk → ThmBlk) : (s.onThm f).reply = s.reply := rfl
@[simp] theorem onThm_env (f : ThmBlk → ThmBlk) : (s.onThm f).env = s.env := rfl
@[simp] theorem onThm_hdrs (f : ThmBlk → ThmBlk) : (s.onThm f).hdrs = s.hdrs := rfl
@[simp] theorem onThm_cores (f : ThmBlk → ThmBlk) : (s.onThm f).cores = s.cores := rfl
@[simp] theorem onThm_ctls (f : ThmBlk → ThmBlk) : (s.onThm f).ctls = s.ctls := rfl
@[simp] theorem onThm_ledge (f : ThmBlk → ThmBlk) : (s.onThm f).ledge = s.ledge := rfl
@[simp] theorem onThm_mesh (f : ThmBlk → ThmBlk) : (s.onThm f).mesh = s.mesh := rfl
@[simp] theorem onThm_hbm (f : ThmBlk → ThmBlk) : (s.onThm f).hbm = s.hbm := rfl
@[simp] theorem onThm_arbs (f : ThmBlk → ThmBlk) : (s.onThm f).arbs = s.arbs := rfl
@[simp] theorem onThm_arbSels (f : ThmBlk → ThmBlk) : (s.onThm f).arbSels = s.arbSels := rfl
@[simp] theorem onThm_ctx (f : ThmBlk → ThmBlk) : (s.onThm f).ctx = s.ctx := rfl
@[simp] theorem onThm_fence (f : ThmBlk → ThmBlk) : (s.onThm f).fence = s.fence := rfl
@[simp] theorem onThm_fab (f : ThmBlk → ThmBlk) : (s.onThm f).fab = s.fab := rfl
@[simp] theorem onThm_host (f : ThmBlk → ThmBlk) : (s.onThm f).host = s.host := rfl
@[simp] theorem onThm_glob (f : ThmBlk → ThmBlk) : (s.onThm f).glob = s.glob := rfl
@[simp] theorem onThm_pwr (f : ThmBlk → ThmBlk) : (s.onThm f).pwr = s.pwr := rfl
@[simp] theorem onThm_sec (f : ThmBlk → ThmBlk) : (s.onThm f).sec = s.sec := rfl
@[simp] theorem onThm_dbg (f : ThmBlk → ThmBlk) : (s.onThm f).dbg = s.dbg := rfl
@[simp] theorem onThm_evts (f : ThmBlk → ThmBlk) : (s.onThm f).evts = s.evts := rfl
@[simp] theorem onThm_thm (f : ThmBlk → ThmBlk) : (s.onThm f).thm = f s.thm := rfl
@[simp] theorem onThm_cool (f : ThmBlk → ThmBlk) : (s.onThm f).cool = s.cool := rfl
@[simp] theorem onThm_loop (f : ThmBlk → ThmBlk) : (s.onThm f).loop = s.loop := rfl
@[simp] theorem onThm_drv (f : ThmBlk → ThmBlk) : (s.onThm f).drv = s.drv := rfl
@[simp] theorem onThm_cbus (f : ThmBlk → ThmBlk) : (s.onThm f).cbus = s.cbus := rfl
@[simp] theorem onThm_hut (f : ThmBlk → ThmBlk) : (s.onThm f).hut = s.hut := rfl
@[simp] theorem onThm_cairn (f : ThmBlk → ThmBlk) : (s.onThm f).cairn = s.cairn := rfl
@[simp] theorem onThm_fresh (f : ThmBlk → ThmBlk) : (s.onThm f).fresh = s.fresh := rfl

/-! #### onDrv -/

@[simp] theorem onDrv_pending (f : DriveBlk → DriveBlk) : (s.onDrv f).pending = s.pending := rfl
@[simp] theorem onDrv_reply (f : DriveBlk → DriveBlk) : (s.onDrv f).reply = s.reply := rfl
@[simp] theorem onDrv_env (f : DriveBlk → DriveBlk) : (s.onDrv f).env = s.env := rfl
@[simp] theorem onDrv_hdrs (f : DriveBlk → DriveBlk) : (s.onDrv f).hdrs = s.hdrs := rfl
@[simp] theorem onDrv_cores (f : DriveBlk → DriveBlk) : (s.onDrv f).cores = s.cores := rfl
@[simp] theorem onDrv_ctls (f : DriveBlk → DriveBlk) : (s.onDrv f).ctls = s.ctls := rfl
@[simp] theorem onDrv_ledge (f : DriveBlk → DriveBlk) : (s.onDrv f).ledge = s.ledge := rfl
@[simp] theorem onDrv_mesh (f : DriveBlk → DriveBlk) : (s.onDrv f).mesh = s.mesh := rfl
@[simp] theorem onDrv_hbm (f : DriveBlk → DriveBlk) : (s.onDrv f).hbm = s.hbm := rfl
@[simp] theorem onDrv_arbs (f : DriveBlk → DriveBlk) : (s.onDrv f).arbs = s.arbs := rfl
@[simp] theorem onDrv_arbSels (f : DriveBlk → DriveBlk) : (s.onDrv f).arbSels = s.arbSels := rfl
@[simp] theorem onDrv_ctx (f : DriveBlk → DriveBlk) : (s.onDrv f).ctx = s.ctx := rfl
@[simp] theorem onDrv_fence (f : DriveBlk → DriveBlk) : (s.onDrv f).fence = s.fence := rfl
@[simp] theorem onDrv_fab (f : DriveBlk → DriveBlk) : (s.onDrv f).fab = s.fab := rfl
@[simp] theorem onDrv_host (f : DriveBlk → DriveBlk) : (s.onDrv f).host = s.host := rfl
@[simp] theorem onDrv_glob (f : DriveBlk → DriveBlk) : (s.onDrv f).glob = s.glob := rfl
@[simp] theorem onDrv_pwr (f : DriveBlk → DriveBlk) : (s.onDrv f).pwr = s.pwr := rfl
@[simp] theorem onDrv_sec (f : DriveBlk → DriveBlk) : (s.onDrv f).sec = s.sec := rfl
@[simp] theorem onDrv_dbg (f : DriveBlk → DriveBlk) : (s.onDrv f).dbg = s.dbg := rfl
@[simp] theorem onDrv_evts (f : DriveBlk → DriveBlk) : (s.onDrv f).evts = s.evts := rfl
@[simp] theorem onDrv_thm (f : DriveBlk → DriveBlk) : (s.onDrv f).thm = s.thm := rfl
@[simp] theorem onDrv_cool (f : DriveBlk → DriveBlk) : (s.onDrv f).cool = s.cool := rfl
@[simp] theorem onDrv_loop (f : DriveBlk → DriveBlk) : (s.onDrv f).loop = s.loop := rfl
@[simp] theorem onDrv_drv (f : DriveBlk → DriveBlk) : (s.onDrv f).drv = f s.drv := rfl
@[simp] theorem onDrv_cbus (f : DriveBlk → DriveBlk) : (s.onDrv f).cbus = s.cbus := rfl
@[simp] theorem onDrv_hut (f : DriveBlk → DriveBlk) : (s.onDrv f).hut = s.hut := rfl
@[simp] theorem onDrv_cairn (f : DriveBlk → DriveBlk) : (s.onDrv f).cairn = s.cairn := rfl
@[simp] theorem onDrv_fresh (f : DriveBlk → DriveBlk) : (s.onDrv f).fresh = s.fresh := rfl

/-! #### onLoop -/

@[simp] theorem onLoop_pending (f : LoopBlk → LoopBlk) : (s.onLoop f).pending = s.pending := rfl
@[simp] theorem onLoop_reply (f : LoopBlk → LoopBlk) : (s.onLoop f).reply = s.reply := rfl
@[simp] theorem onLoop_env (f : LoopBlk → LoopBlk) : (s.onLoop f).env = s.env := rfl
@[simp] theorem onLoop_hdrs (f : LoopBlk → LoopBlk) : (s.onLoop f).hdrs = s.hdrs := rfl
@[simp] theorem onLoop_cores (f : LoopBlk → LoopBlk) : (s.onLoop f).cores = s.cores := rfl
@[simp] theorem onLoop_ctls (f : LoopBlk → LoopBlk) : (s.onLoop f).ctls = s.ctls := rfl
@[simp] theorem onLoop_ledge (f : LoopBlk → LoopBlk) : (s.onLoop f).ledge = s.ledge := rfl
@[simp] theorem onLoop_mesh (f : LoopBlk → LoopBlk) : (s.onLoop f).mesh = s.mesh := rfl
@[simp] theorem onLoop_hbm (f : LoopBlk → LoopBlk) : (s.onLoop f).hbm = s.hbm := rfl
@[simp] theorem onLoop_arbs (f : LoopBlk → LoopBlk) : (s.onLoop f).arbs = s.arbs := rfl
@[simp] theorem onLoop_arbSels (f : LoopBlk → LoopBlk) : (s.onLoop f).arbSels = s.arbSels := rfl
@[simp] theorem onLoop_ctx (f : LoopBlk → LoopBlk) : (s.onLoop f).ctx = s.ctx := rfl
@[simp] theorem onLoop_fence (f : LoopBlk → LoopBlk) : (s.onLoop f).fence = s.fence := rfl
@[simp] theorem onLoop_fab (f : LoopBlk → LoopBlk) : (s.onLoop f).fab = s.fab := rfl
@[simp] theorem onLoop_host (f : LoopBlk → LoopBlk) : (s.onLoop f).host = s.host := rfl
@[simp] theorem onLoop_glob (f : LoopBlk → LoopBlk) : (s.onLoop f).glob = s.glob := rfl
@[simp] theorem onLoop_pwr (f : LoopBlk → LoopBlk) : (s.onLoop f).pwr = s.pwr := rfl
@[simp] theorem onLoop_sec (f : LoopBlk → LoopBlk) : (s.onLoop f).sec = s.sec := rfl
@[simp] theorem onLoop_dbg (f : LoopBlk → LoopBlk) : (s.onLoop f).dbg = s.dbg := rfl
@[simp] theorem onLoop_evts (f : LoopBlk → LoopBlk) : (s.onLoop f).evts = s.evts := rfl
@[simp] theorem onLoop_thm (f : LoopBlk → LoopBlk) : (s.onLoop f).thm = s.thm := rfl
@[simp] theorem onLoop_cool (f : LoopBlk → LoopBlk) : (s.onLoop f).cool = s.cool := rfl
@[simp] theorem onLoop_loop (f : LoopBlk → LoopBlk) : (s.onLoop f).loop = f s.loop := rfl
@[simp] theorem onLoop_drv (f : LoopBlk → LoopBlk) : (s.onLoop f).drv = s.drv := rfl
@[simp] theorem onLoop_cbus (f : LoopBlk → LoopBlk) : (s.onLoop f).cbus = s.cbus := rfl
@[simp] theorem onLoop_hut (f : LoopBlk → LoopBlk) : (s.onLoop f).hut = s.hut := rfl
@[simp] theorem onLoop_cairn (f : LoopBlk → LoopBlk) : (s.onLoop f).cairn = s.cairn := rfl
@[simp] theorem onLoop_fresh (f : LoopBlk → LoopBlk) : (s.onLoop f).fresh = s.fresh := rfl

/-! #### onCbus -/

@[simp] theorem onCbus_pending (f : CbusBlk → CbusBlk) : (s.onCbus f).pending = s.pending := rfl
@[simp] theorem onCbus_reply (f : CbusBlk → CbusBlk) : (s.onCbus f).reply = s.reply := rfl
@[simp] theorem onCbus_env (f : CbusBlk → CbusBlk) : (s.onCbus f).env = s.env := rfl
@[simp] theorem onCbus_hdrs (f : CbusBlk → CbusBlk) : (s.onCbus f).hdrs = s.hdrs := rfl
@[simp] theorem onCbus_cores (f : CbusBlk → CbusBlk) : (s.onCbus f).cores = s.cores := rfl
@[simp] theorem onCbus_ctls (f : CbusBlk → CbusBlk) : (s.onCbus f).ctls = s.ctls := rfl
@[simp] theorem onCbus_ledge (f : CbusBlk → CbusBlk) : (s.onCbus f).ledge = s.ledge := rfl
@[simp] theorem onCbus_mesh (f : CbusBlk → CbusBlk) : (s.onCbus f).mesh = s.mesh := rfl
@[simp] theorem onCbus_hbm (f : CbusBlk → CbusBlk) : (s.onCbus f).hbm = s.hbm := rfl
@[simp] theorem onCbus_arbs (f : CbusBlk → CbusBlk) : (s.onCbus f).arbs = s.arbs := rfl
@[simp] theorem onCbus_arbSels (f : CbusBlk → CbusBlk) : (s.onCbus f).arbSels = s.arbSels := rfl
@[simp] theorem onCbus_ctx (f : CbusBlk → CbusBlk) : (s.onCbus f).ctx = s.ctx := rfl
@[simp] theorem onCbus_fence (f : CbusBlk → CbusBlk) : (s.onCbus f).fence = s.fence := rfl
@[simp] theorem onCbus_fab (f : CbusBlk → CbusBlk) : (s.onCbus f).fab = s.fab := rfl
@[simp] theorem onCbus_host (f : CbusBlk → CbusBlk) : (s.onCbus f).host = s.host := rfl
@[simp] theorem onCbus_glob (f : CbusBlk → CbusBlk) : (s.onCbus f).glob = s.glob := rfl
@[simp] theorem onCbus_pwr (f : CbusBlk → CbusBlk) : (s.onCbus f).pwr = s.pwr := rfl
@[simp] theorem onCbus_sec (f : CbusBlk → CbusBlk) : (s.onCbus f).sec = s.sec := rfl
@[simp] theorem onCbus_dbg (f : CbusBlk → CbusBlk) : (s.onCbus f).dbg = s.dbg := rfl
@[simp] theorem onCbus_evts (f : CbusBlk → CbusBlk) : (s.onCbus f).evts = s.evts := rfl
@[simp] theorem onCbus_thm (f : CbusBlk → CbusBlk) : (s.onCbus f).thm = s.thm := rfl
@[simp] theorem onCbus_cool (f : CbusBlk → CbusBlk) : (s.onCbus f).cool = s.cool := rfl
@[simp] theorem onCbus_loop (f : CbusBlk → CbusBlk) : (s.onCbus f).loop = s.loop := rfl
@[simp] theorem onCbus_drv (f : CbusBlk → CbusBlk) : (s.onCbus f).drv = s.drv := rfl
@[simp] theorem onCbus_cbus (f : CbusBlk → CbusBlk) : (s.onCbus f).cbus = f s.cbus := rfl
@[simp] theorem onCbus_hut (f : CbusBlk → CbusBlk) : (s.onCbus f).hut = s.hut := rfl
@[simp] theorem onCbus_cairn (f : CbusBlk → CbusBlk) : (s.onCbus f).cairn = s.cairn := rfl
@[simp] theorem onCbus_fresh (f : CbusBlk → CbusBlk) : (s.onCbus f).fresh = s.fresh := rfl

/-! #### onHut -/

@[simp] theorem onHut_pending (f : HutBlk → HutBlk) : (s.onHut f).pending = s.pending := rfl
@[simp] theorem onHut_reply (f : HutBlk → HutBlk) : (s.onHut f).reply = s.reply := rfl
@[simp] theorem onHut_env (f : HutBlk → HutBlk) : (s.onHut f).env = s.env := rfl
@[simp] theorem onHut_hdrs (f : HutBlk → HutBlk) : (s.onHut f).hdrs = s.hdrs := rfl
@[simp] theorem onHut_cores (f : HutBlk → HutBlk) : (s.onHut f).cores = s.cores := rfl
@[simp] theorem onHut_ctls (f : HutBlk → HutBlk) : (s.onHut f).ctls = s.ctls := rfl
@[simp] theorem onHut_ledge (f : HutBlk → HutBlk) : (s.onHut f).ledge = s.ledge := rfl
@[simp] theorem onHut_mesh (f : HutBlk → HutBlk) : (s.onHut f).mesh = s.mesh := rfl
@[simp] theorem onHut_hbm (f : HutBlk → HutBlk) : (s.onHut f).hbm = s.hbm := rfl
@[simp] theorem onHut_arbs (f : HutBlk → HutBlk) : (s.onHut f).arbs = s.arbs := rfl
@[simp] theorem onHut_arbSels (f : HutBlk → HutBlk) : (s.onHut f).arbSels = s.arbSels := rfl
@[simp] theorem onHut_ctx (f : HutBlk → HutBlk) : (s.onHut f).ctx = s.ctx := rfl
@[simp] theorem onHut_fence (f : HutBlk → HutBlk) : (s.onHut f).fence = s.fence := rfl
@[simp] theorem onHut_fab (f : HutBlk → HutBlk) : (s.onHut f).fab = s.fab := rfl
@[simp] theorem onHut_host (f : HutBlk → HutBlk) : (s.onHut f).host = s.host := rfl
@[simp] theorem onHut_glob (f : HutBlk → HutBlk) : (s.onHut f).glob = s.glob := rfl
@[simp] theorem onHut_pwr (f : HutBlk → HutBlk) : (s.onHut f).pwr = s.pwr := rfl
@[simp] theorem onHut_sec (f : HutBlk → HutBlk) : (s.onHut f).sec = s.sec := rfl
@[simp] theorem onHut_dbg (f : HutBlk → HutBlk) : (s.onHut f).dbg = s.dbg := rfl
@[simp] theorem onHut_evts (f : HutBlk → HutBlk) : (s.onHut f).evts = s.evts := rfl
@[simp] theorem onHut_thm (f : HutBlk → HutBlk) : (s.onHut f).thm = s.thm := rfl
@[simp] theorem onHut_cool (f : HutBlk → HutBlk) : (s.onHut f).cool = s.cool := rfl
@[simp] theorem onHut_loop (f : HutBlk → HutBlk) : (s.onHut f).loop = s.loop := rfl
@[simp] theorem onHut_drv (f : HutBlk → HutBlk) : (s.onHut f).drv = s.drv := rfl
@[simp] theorem onHut_cbus (f : HutBlk → HutBlk) : (s.onHut f).cbus = s.cbus := rfl
@[simp] theorem onHut_hut (f : HutBlk → HutBlk) : (s.onHut f).hut = f s.hut := rfl
@[simp] theorem onHut_cairn (f : HutBlk → HutBlk) : (s.onHut f).cairn = s.cairn := rfl
@[simp] theorem onHut_fresh (f : HutBlk → HutBlk) : (s.onHut f).fresh = s.fresh := rfl

/-! #### onCairn -/

@[simp] theorem onCairn_pending (f : CairnBlk → CairnBlk) : (s.onCairn f).pending = s.pending := rfl
@[simp] theorem onCairn_reply (f : CairnBlk → CairnBlk) : (s.onCairn f).reply = s.reply := rfl
@[simp] theorem onCairn_env (f : CairnBlk → CairnBlk) : (s.onCairn f).env = s.env := rfl
@[simp] theorem onCairn_hdrs (f : CairnBlk → CairnBlk) : (s.onCairn f).hdrs = s.hdrs := rfl
@[simp] theorem onCairn_cores (f : CairnBlk → CairnBlk) : (s.onCairn f).cores = s.cores := rfl
@[simp] theorem onCairn_ctls (f : CairnBlk → CairnBlk) : (s.onCairn f).ctls = s.ctls := rfl
@[simp] theorem onCairn_ledge (f : CairnBlk → CairnBlk) : (s.onCairn f).ledge = s.ledge := rfl
@[simp] theorem onCairn_mesh (f : CairnBlk → CairnBlk) : (s.onCairn f).mesh = s.mesh := rfl
@[simp] theorem onCairn_hbm (f : CairnBlk → CairnBlk) : (s.onCairn f).hbm = s.hbm := rfl
@[simp] theorem onCairn_arbs (f : CairnBlk → CairnBlk) : (s.onCairn f).arbs = s.arbs := rfl
@[simp] theorem onCairn_arbSels (f : CairnBlk → CairnBlk) : (s.onCairn f).arbSels = s.arbSels := rfl
@[simp] theorem onCairn_ctx (f : CairnBlk → CairnBlk) : (s.onCairn f).ctx = s.ctx := rfl
@[simp] theorem onCairn_fence (f : CairnBlk → CairnBlk) : (s.onCairn f).fence = s.fence := rfl
@[simp] theorem onCairn_fab (f : CairnBlk → CairnBlk) : (s.onCairn f).fab = s.fab := rfl
@[simp] theorem onCairn_host (f : CairnBlk → CairnBlk) : (s.onCairn f).host = s.host := rfl
@[simp] theorem onCairn_glob (f : CairnBlk → CairnBlk) : (s.onCairn f).glob = s.glob := rfl
@[simp] theorem onCairn_pwr (f : CairnBlk → CairnBlk) : (s.onCairn f).pwr = s.pwr := rfl
@[simp] theorem onCairn_sec (f : CairnBlk → CairnBlk) : (s.onCairn f).sec = s.sec := rfl
@[simp] theorem onCairn_dbg (f : CairnBlk → CairnBlk) : (s.onCairn f).dbg = s.dbg := rfl
@[simp] theorem onCairn_evts (f : CairnBlk → CairnBlk) : (s.onCairn f).evts = s.evts := rfl
@[simp] theorem onCairn_thm (f : CairnBlk → CairnBlk) : (s.onCairn f).thm = s.thm := rfl
@[simp] theorem onCairn_cool (f : CairnBlk → CairnBlk) : (s.onCairn f).cool = s.cool := rfl
@[simp] theorem onCairn_loop (f : CairnBlk → CairnBlk) : (s.onCairn f).loop = s.loop := rfl
@[simp] theorem onCairn_drv (f : CairnBlk → CairnBlk) : (s.onCairn f).drv = s.drv := rfl
@[simp] theorem onCairn_cbus (f : CairnBlk → CairnBlk) : (s.onCairn f).cbus = s.cbus := rfl
@[simp] theorem onCairn_hut (f : CairnBlk → CairnBlk) : (s.onCairn f).hut = s.hut := rfl
@[simp] theorem onCairn_cairn (f : CairnBlk → CairnBlk) : (s.onCairn f).cairn = f s.cairn := rfl
@[simp] theorem onCairn_fresh (f : CairnBlk → CairnBlk) : (s.onCairn f).fresh = s.fresh := rfl

/-! #### Keyed updates -/

theorem onCore_def (n : Nat) (f : Core → Core) : s.onCore n f = s.setCore n (f (s.core n)) := rfl
theorem onCtl_def (n : Nat) (f : CoreCtl → CoreCtl) : s.onCtl n f = s.setCtl n (f (s.ctl n)) := rfl
theorem onHdr_def (p : Nat) (f : Hdr → Hdr) : s.onHdr p f = s.setHdr p (f (s.hdr p)) := rfl
theorem onCx_def (x : Nat) (f : Ctx → Ctx) :
    s.onCx x f = s.onCtxBlk (fun b => { b with ctxs := fput {} x (f (s.cx x)) b.ctxs }) := rfl
theorem onPort_def (p : Nat) (f : Port → Port) :
    s.onPort p f = s.onFab (fun b => { b with ports := fput {} p (f (s.port p)) b.ports }) := rfl
theorem onFx_def (x : Nat) (f : FabCtx → FabCtx) :
    s.onFx x f = s.onFab (fun b => { b with ctxs := fput {} x (f (s.fx x)) b.ctxs }) := rfl
theorem onFn_def (f : Nat) (g : FnHost → FnHost) :
    s.onFn f g = s.onHost (fun b => { b with fns := fput {} f (g (s.fn f)) b.fns }) := rfl
theorem onSx_def (x : Nat) (f : SecCtx → SecCtx) :
    s.onSx x f = s.onSec (fun q => { q with ctxs := fput {} x (f (fget {} q.ctxs x)) q.ctxs }) := rfl

/-! #### Reading back a keyed part -/

@[simp] theorem core_setCore (n m : Nat) (c : Core) : (s.setCore n c).core m = if m = n then c else s.core m :=
  fget_fput ({} : Core) n m c s.cores
@[simp] theorem ctl_setCtl (n m : Nat) (c : CoreCtl) : (s.setCtl n c).ctl m = if m = n then c else s.ctl m :=
  fget_fput ({} : CoreCtl) n m c s.ctls
@[simp] theorem hdr_setHdr (n m : Nat) (h : Hdr) : (s.setHdr n h).hdr m = if m = n then h else s.hdr m :=
  fget_fput ({} : Hdr) n m h s.hdrs
theorem core_onCore (n : Nat) (f : Core → Core) : (s.onCore n f).core n = f (s.core n) := by
  simp [onCore_def]
theorem ctl_onCtl (n : Nat) (f : CoreCtl → CoreCtl) : (s.onCtl n f).ctl n = f (s.ctl n) := by
  simp [onCtl_def]
theorem hdr_onHdr (n : Nat) (f : Hdr → Hdr) : (s.onHdr n f).hdr n = f (s.hdr n) := by
  simp [onHdr_def]
theorem cx_onCx (n m : Nat) (f : Ctx → Ctx) : (s.onCx n f).cx m = if m = n then f (s.cx n) else s.cx m :=
  fget_fput ({} : Ctx) n m (f (s.cx n)) s.ctx.ctxs
theorem port_onPort (n m : Nat) (f : Port → Port) : (s.onPort n f).port m = if m = n then f (s.port n) else s.port m :=
  fget_fput ({} : Port) n m (f (s.port n)) s.fab.ports
theorem fn_onFn (n m : Nat) (f : FnHost → FnHost) : (s.onFn n f).fn m = if m = n then f (s.fn n) else s.fn m :=
  fget_fput ({} : FnHost) n m (f (s.fn n)) s.host.fns
theorem valve_onValve (n m : Nat) (f : Valve → Valve) :
    (s.onValve n f).valve m = if m = n then f (s.valve n) else s.valve m :=
  fget_fput ({} : Valve) n m (f (s.valve n)) s.drv.valves
theorem motor_onMotor (n m : Nat) (f : Motor → Motor) :
    (s.onMotor n f).motor m = if m = n then f (s.motor n) else s.motor m :=
  fget_fput ({} : Motor) n m (f (s.motor n)) s.drv.motors
theorem slot_onSlot (n m : Nat) (f : Slot → Slot) : (s.onSlot n f).slot m = if m = n then f (s.slot n) else s.slot m :=
  fget_fput ({} : Slot) n m (f (s.slot n)) s.loop.slots
theorem can_onCan (n m : Nat) (f : CanIf → CanIf) : (s.onCan n f).can m = if m = n then f (s.can n) else s.can m :=
  fget_fput ({} : CanIf) n m (f (s.can n)) s.cbus.ifs

end Sys2Proof.Machine
end

