-- ==== Sys2Proof/Laws/Core.lean ====
section
/-! SUPPORT. What the issue of a pitch instruction does: one lemma per shared operation of the sequencer and of the unit
queues. -/

namespace Sys2Proof.Machine

open Sys2Proof.Safety

theorem fput_fput [DecidableEq β] (d : β) (k : Nat) (v w : β) (m : FMap β) :
    fput d k v (fput d k w m) = fput d k v m := by
  have e1 : ∀ l : FMap β, (l.filter (fun c => decide (c.1 < k))).filter (fun c => decide (k < c.1)) = [] := by
    intro l; rw [List.filter_filter, List.filter_eq_nil_iff]; intro a _; simp; omega
  have e2 : ∀ l : FMap β, (l.filter (fun c => decide (k < c.1))).filter (fun c => decide (c.1 < k)) = [] := by
    intro l; rw [List.filter_filter, List.filter_eq_nil_iff]; intro a _; simp; omega
  have e3 : (if w = d then [] else [(k, w)]).filter (fun c => decide (c.1 < k)) = [] := by split <;> simp
  have e4 : (if w = d then [] else [(k, w)]).filter (fun c => decide (k < c.1)) = [] := by split <;> simp
  simp only [fput, List.filter_append, e1, e2, e3, e4, List.filter_filter, Bool.and_self, List.append_nil, List.nil_append]

@[simp] theorem setCore_setCore (s : State) (n : Nat) (a b : Core) : (s.setCore n a).setCore n b = s.setCore n b := by
  simp [State.setCore, fput_fput]

@[simp] theorem onCore_setCore (s : State) (n : Nat) (a : Core) (f : Core → Core) :
    State.onCore n f (s.setCore n a) = s.setCore n (f a) := by
  simp [State.onCore]

@[simp] theorem onCore_onCore (s : State) (n : Nat) (f g : Core → Core) :
    State.onCore n g (s.onCore n f) = s.onCore n (fun k => g (f k)) := by
  simp [State.onCore]

@[simp] theorem onCtl_onCtl (s : State) (n : Nat) (f g : CoreCtl → CoreCtl) :
    State.onCtl n g (s.onCtl n f) = s.onCtl n (fun k => g (f k)) := by
  simp [State.onCtl, State.setCtl, State.ctl, fget_fput, fput_fput]

@[simp] theorem setCore_ctl (s : State) (n m : Nat) (a : Core) : (s.setCore n a).ctl m = s.ctl m := rfl
@[simp] theorem setCore_cx (s : State) (n m : Nat) (a : Core) : (s.setCore n a).cx m = s.cx m := rfl
@[simp] theorem setCore_chan (s : State) (n x c : Nat) (a : Core) : (s.setCore n a).chan x c = s.chan x c := rfl

theorem trace_off {c : Nat} (kind x status idx op : Nat) (id : DWord) {s : State} (h : s.dbg.tracing.contains c = false) :
    trace c kind x status idx op id s = s := by
  simp only [trace, h, Bool.false_and, Bool.false_eq_true, if_false]

theorem issued_unwatched {c : Nat} (w : DWord) {s : State} {r : Run} (h : unwatched s c) (hr : (s.core c).run = some r) :
    issued c w s = s.setCore c (steppedCore (s.core c) r) := by
  simp only [issued, hr, trace_off _ _ _ _ _ _ h.1, h.2]
  simp [State.onCore, Core.onRun, steppedCore, hr]

theorem issueWith_poised {c : Nat} {r : Run} {w : DWord} {i : PitchInstr} {s : State} (want : PitchInstr → Bool)
    (eff : Nat → PitchInstr → State → State) (h : poised s c r w i) (hw : want i = true) :
    issueWith want eff c s =
      pumpUnits c (eff c i (if completesAtIssue i then issued c w s else enqueue c (flightOf (s.core c) i w) (issued c w s))) := by
  obtain ⟨h1, h2, h3, h4, h5, h6⟩ := h
  simp [issueWith, h1, h2, h3, h4, h5, h6, hw, flightOf]

theorem pumpUnits_held {c : Nat} {s : State} (h : holdsReserve s c = false) : pumpUnits c s = s := by
  simp [pumpUnits, h]

theorem pumpN_none {n c : Nat} {s : State} {r : Run} (hr : (s.core c).run = some r)
    (h : r.flights.all (fun f => f.done) = true) : pumpN n c s = s := by
  cases n with
  | zero => rfl
  | succ n =>
    have : unitOrder s c = [] := by
      simp only [unitOrder, hr, List.map_eq_nil_iff, List.filter_eq_nil_iff]
      intro f hf; simp [List.all_eq_true.mp h f hf]
    simp [pumpN, this]

theorem pumpUnits_none {c : Nat} {s : State} {r : Run} (hr : (s.core c).run = some r)
    (h : r.flights.all (fun f => f.done) = true) : pumpUnits c s = s := by
  unfold pumpUnits; split
  · exact pumpN_none hr h
  · rfl

theorem pumpN_idle {n c : Nat} {s : State} (hr : (s.core c).run = none) : pumpN n c s = s := by
  cases n with
  | zero => rfl
  | succ n => simp [pumpN, unitOrder, hr]

theorem pumpUnits_idle {c : Nat} {s : State} (hr : (s.core c).run = none) : pumpUnits c s = s := by
  unfold pumpUnits; split
  · exact pumpN_idle hr
  · rfl

/-! ### One instruction alone on its core -/

/-- A core whose one instruction is in its queue. -/
def queuedCore (k : Core) (r : Run) (i : PitchInstr) (w : DWord) : Core := steppedCore k { r with flights := [flightOf k i w] }

/-- The pitch of a core whose one instruction is in its queue. -/
def queuedRun (k : Core) (r : Run) (i : PitchInstr) (w : DWord) : Run :=
  { r with started := true, flights := [flightOf k i w] }

theorem unitStep_alone {c : Nat} {r : Run} {w : DWord} {i : PitchInstr} {s : State} :
    unitStep c (unitNo i).val (s.setCore c (queuedCore (s.core c) r i w)) =
      match (unitNo i).val with
      | 0 => loadStep c (flightOf (s.core c) i w) (queuedRun (s.core c) r i w) (s.setCore c (queuedCore (s.core c) r i w))
      | 1 => gridStep c (flightOf (s.core c) i w) (queuedRun (s.core c) r i w) (s.setCore c (queuedCore (s.core c) r i w))
      | 2 => anchorStep c (flightOf (s.core c) i w) (queuedRun (s.core c) r i w) (s.setCore c (queuedCore (s.core c) r i w))
      | 3 => vecStep c (flightOf (s.core c) i w) (queuedRun (s.core c) r i w) (s.setCore c (queuedCore (s.core c) r i w))
      | _ => moveStep c (flightOf (s.core c) i w) (queuedRun (s.core c) r i w) (s.setCore c (queuedCore (s.core c) r i w)) := by
  have hr : ((s.setCore c (queuedCore (s.core c) r i w)).core c).run = some (queuedRun (s.core c) r i w) := by
    simp [queuedCore, steppedCore, queuedRun]
  have ho : oldestOpen (queuedRun (s.core c) r i w) (unitNo i).val = some (flightOf (s.core c) i w) := by
    simp [oldestOpen, queuedRun, flightOf]
  simp only [unitStep, hr, ho] <;> rfl

theorem issueAs_alone {c : Nat} {r : Run} {w : DWord} {i : PitchInstr} {s t : State} (want : PitchInstr → Bool)
    (h : alone s c r w i) (hw : want i = true) (hq : completesAtIssue i = false)
    (hs : unitStep c (unitNo i).val (s.setCore c (queuedCore (s.core c) r i w)) = some t) (ht : pumpN 23 c t = t) :
    issueAs want c s = t := by
  obtain ⟨hp, h0, hres, hu⟩ := h
  have hsw : (s.ctl c).switching = false := by
    have := hp.1; simp only [canIssue, hp.2.1] at this
    simpa using (by revert this; cases (s.ctl c).switching <;> simp)
  have e1 : enqueue c (flightOf (s.core c) i w) (issued c w s) = s.setCore c (queuedCore (s.core c) r i w) := by
    rw [issued_unwatched w hu hp.2.1]
    simp [enqueue, Core.onRun, queuedCore, steppedCore, h0]
  rw [issueAs, issueWith_poised want _ hp hw, hq]
  simp only [Bool.false_eq_true, if_false, e1]
  have hres' : holdsReserve (s.setCore c (queuedCore (s.core c) r i w)) c = true := hres
  have hord : unitOrder (s.setCore c (queuedCore (s.core c) r i w)) c = [(unitNo i).val] := by
    simp [unitOrder, queuedCore, steppedCore, oldestOpen, flightOf]
  simp only [pumpUnits, hres', setCore_ctl, hsw, Bool.not_false, Bool.and_self, if_true]
  rw [pumpN, hord]
  simp [hs, ht]

theorem markDone_alone {c : Nat} {r : Run} {w : DWord} {i : PitchInstr} {s : State} {k : Core}
    (hk : k.run = some { r with started := true, flights := [flightOf (s.core c) i w] }) :
    markDone c (flightOf (s.core c) i w).pc (s.setCore c k) =
      s.setCore c { k with run := some { r with started := true, flights := [{ flightOf (s.core c) i w with done := true }] } } := by
  simp [markDone, Core.onRun, hk]

theorem pumpN_done {n c : Nat} {s : State} {k : Core} {r : Run} (hk : k.run = some r)
    (h : r.flights.all (fun f => f.done) = true) : pumpN n c (s.setCore c k) = s.setCore c k :=
  pumpN_none (r := r) (by simp [hk]) h

theorem foldl_anc {α : Type} (f : Core → α → Core) (hf : ∀ k a, f k a = { k with anc := (f k a).anc }) :
    ∀ (l : List α) (k : Core), l.foldl f k = { k with anc := (l.foldl f k).anc }
  | [], _ => rfl
  | a :: l, k => by
    rw [List.foldl_cons, foldl_anc f hf l (f k a), hf k a]

theorem clearRows_eq (k : Core) (l : BitVec 10) (e0 n : Nat) :
    clearRows k l e0 n = { k with anc := (clearRows k l e0 n).anc } :=
  foldl_anc _ (fun k1 _ => foldl_anc _ (fun _ _ => rfl) _ k1) _ k

theorem setAnchor_get (k : Core) (e a e' a' : Nat) (x : Anchor) (h : a < 64) (h' : a' < 64) :
    (k.setAnchor e a x).anchor e' a' = if e' = e ∧ a' = a then x else k.anchor e' a' := by
  simp only [Core.setAnchor, Core.anchor, fget_fput]
  have : (e' * 64 + a' = e * 64 + a) ↔ (e' = e ∧ a' = a) := by omega
  simp [this]

theorem clearRow_get (l : BitVec 10) (e e' a' : Nat) (h' : a' < 64) : ∀ (m : Nat) (k : Core), m ≤ 64 →
    ((List.range m).foldl (fun k2 a => k2.setAnchor e a (Anchor.cleared l)) k).anchor e' a' =
      if e' = e ∧ a' < m then Anchor.cleared l else k.anchor e' a'
  | 0, k, _ => by simp
  | m + 1, k, hm => by
    rw [List.range_succ, List.foldl_append, List.foldl_cons, List.foldl_nil, setAnchor_get _ _ _ _ _ _ (by omega) h',
      clearRow_get l e e' a' h' m k (by omega)]
    by_cases h1 : e' = e <;> by_cases h2 : a' = m <;> by_cases h3 : a' < m <;> simp [h1, h2, h3] <;> try omega

/-- R51, R122: what a clear leaves in every entry. -/
theorem clearRows_get (k : Core) (l : BitVec 10) (e0 e a : Nat) (ha : a < 64) : ∀ n : Nat,
    (clearRows k l e0 n).anchor e a = if e0 ≤ e ∧ e < e0 + n then Anchor.cleared l else k.anchor e a
  | 0 => by simp [clearRows]
  | n + 1 => by
    have ih := clearRows_get k l e0 e a ha n
    simp only [clearRows] at ih ⊢
    rw [List.range_succ (n := n), List.foldl_append, List.foldl_cons, List.foldl_nil, clearRow_get l (e0 + n) e a ha 64 _ (by omega), ih]
    by_cases h1 : e = e0 + n
    · simp [h1, ha]
    · rw [if_neg (show ¬ (e = e0 + n ∧ a < 64) from fun h => h1 h.1)]
      exact if_congr (by omega) rfl rfl

theorem decode_ok {w : DWord} {i : PitchInstr} (h : PitchInstr.decode w = some i) : PitchInstr.ok i = true := by
  unfold PitchInstr.decode at h
  split at h
  · split at h
    · cases h; rename_i h; exact h.2
    · cases h
  · cases h

theorem passRow_get (e off e' a' : Nat) (g : Nat → Option (List Pair)) (h' : a' < 64) : ∀ (m : Nat) (k : Core), off + m ≤ 64 →
    ((List.range m).foldl (fun k2 col => k2.setAnchor e (off + col) ((k2.anchor e (off + col)).pass (g col))) k).anchor e' a' =
      if e' = e ∧ off ≤ a' ∧ a' < off + m then (k.anchor e' a').pass (g (a' - off)) else k.anchor e' a'
  | 0, k, _ => by rw [if_neg (by omega)]; rfl
  | m + 1, k, hm => by
    have ih := fun x hx => passRow_get e off e x g hx m k (by omega)
    rw [List.range_succ, List.foldl_append, List.foldl_cons, List.foldl_nil, setAnchor_get _ _ _ _ _ _ (by omega) h',
      passRow_get e off e' a' g h' m k (by omega)]
    by_cases h1 : e' = e
    · by_cases h2 : a' = off + m
      · subst h1 h2
        rw [if_pos ⟨rfl, rfl⟩, if_pos ⟨rfl, by omega, by omega⟩, ih _ h', if_neg (by omega)]
        congr 2; omega
      · rw [if_neg (fun h => h2 h.2)]
        exact if_congr (by omega) rfl rfl
    · rw [if_neg (fun h => h1 h.1), if_neg (fun h => h1 h.1), if_neg (fun h => h1 h.1)]

theorem streamTokens_eq (k : Core) (b : Bank) (p : BitVec 4) (act e0 t off stride : Nat) :
    streamTokens k b p act e0 t off stride = { k with anc := (streamTokens k b p act e0 t off stride).anc } := by
  unfold streamTokens; split
  · rfl
  · exact foldl_anc _ (fun k1 _ => foldl_anc _ (fun _ _ => rfl) _ k1) _ k

/-- R52, R77, R87: what a stream of tokens leaves in every entry. -/
theorem streamTokens_get (k : Core) (b : Bank) (p : BitVec 4) (act e0 off stride : Nat) {fa fw : OpFmt} {g : Nat}
    (hp : pairing p.toNat = some (fa, fw, g)) (hg : off + 64 / g ≤ 64) (e a : Nat) (ha : a < 64) : ∀ t : Nat,
    (streamTokens k b p act e0 t off stride).anchor e a =
      if (e0 ≤ e ∧ e < e0 + t) ∧ off ≤ a ∧ a < off + 64 / g then
        (k.anchor e a).pass (passPairs fa fw (k.readPm ((act + (e - e0) * stride) * 64) (64 * fa.bytes)) b.set (a - off))
      else k.anchor e a
  | 0 => by rw [if_neg (by omega)]; simp [streamTokens, hp]
  | t + 1 => by
    have ih := streamTokens_get k b p act e0 off stride hp hg e a ha t
    have he := streamTokens_eq k b p act e0 t off stride
    simp only [streamTokens, hp] at ih he ⊢
    rw [List.range_succ (n := t), List.foldl_append, List.foldl_cons, List.foldl_nil,
      passRow_get (e0 + t) off e a _ ha _ _ hg, ih]
    have hpm := congrArg Core.pm he
    simp only [Core.readPm] at hpm ⊢
    rw [hpm]
    by_cases h1 : e = e0 + t
    · subst h1
      rw [if_neg (show ¬ ((e0 ≤ e0 + t ∧ e0 + t < e0 + t) ∧ _) by omega)]
      have h3 : e0 + t - e0 = t := by omega
      simp [h3]
    · rw [if_neg (fun h => h1 h.1)]
      exact if_congr (by omega) rfl rfl

/-! ### Conversions and merges -/

theorem report_clean (rs : List Report) (h : ∀ r ∈ rs, r.resfail = false) : (joinReports rs).resfail = false := by
  have : ∀ (l : List Report) (a : Report), a.resfail = false → (∀ r ∈ l, r.resfail = false) → (l.foldl Report.and a).resfail = false := by
    intro l
    induction l with
    | nil => intro a ha _; exact ha
    | cons b l ih => intro a ha hl; exact ih _ (by simp [Report.and, ha, hl b (by simp)]) (fun r hr => hl r (by simp [hr]))
  exact this rs {} rfl h

theorem applyReport_clean {c : Nat} {q : Report} {s : State} {K : Core} (h : q.resfail = false) :
    applyReport c q (s.setCore c K) = s.setCore c
      (({ K with ancStat := K.ancStat ||| BitVec.ofNat 4 (b2n q.inx + 2 * b2n q.sat + 4 * b2n q.nan), unchk := satAdd K.unchk q.unchk,
                 nanres := satAdd K.nanres q.nanres }).onRun (fun z => { z with
        inx := z.inx || q.inx, sat := z.sat || q.sat, nan := z.nan || q.nan })) := by
  simp [applyReport, h, when, b2n]

theorem rowFp_clean (k : Core) (f : FpFmt) (md : RMode) (id : DWord) (ord e : Nat) (cols : List Nat) :
    (rowFp k f md id ord e cols).2.resfail = false := by
  refine report_clean _ (fun r hr => ?_)
  simp only [List.map_map, List.mem_map, Function.comp] at hr
  obtain ⟨a, _, rfl⟩ := hr
  unfold readFp; split <;> rfl

theorem rowBlocks_clean (k : Core) (w : Nat) (md : RMode) (id : DWord) (ord e : Nat) (qs : List Nat) :
    (rowBlocks k w md id ord e qs).2.resfail = false := by
  refine report_clean _ (fun r hr => ?_)
  simp only [List.map_map, List.mem_map, Function.comp] at hr
  obtain ⟨a, _, rfl⟩ := hr
  unfold readBlock; simp only; split <;> rfl

theorem rowRecord_clean (k : Core) (fmt : Nat) (md : RMode) (id : DWord) (ord e : Nat) (cs cc : BitVec 2) :
    (rowRecord k fmt md id ord e cs cc).2.resfail = false := by
  unfold rowRecord; split
  · exact rowFp_clean _ _ _ _ _ _ _
  · exact rowFp_clean _ _ _ _ _ _ _
  all_goals exact rowBlocks_clean _ _ _ _ _ _ _

theorem clearRead_eq (k : Core) (e0 n : Nat) (cols : List Nat) :
    clearRead k e0 n cols = { k with anc := (clearRead k e0 n cols).anc } :=
  foldl_anc _ (fun k1 _ => foldl_anc _ (fun _ _ => rfl) _ k1) _ k

theorem clearCols_get (e e' a' : Nat) (h' : a' < 64) : ∀ (cols : List Nat) (k : Core), (∀ a ∈ cols, a < 64) →
    (cols.foldl (fun k2 a => k2.setAnchor e a (Anchor.cleared (k2.anchor e a).l)) k).anchor e' a' =
      if e' = e ∧ a' ∈ cols then Anchor.cleared (k.anchor e' a').l else k.anchor e' a'
  | [], k, _ => by simp
  | a :: cols, k, h => by
    rw [List.foldl_cons, clearCols_get e e' a' h' cols _ (fun x hx => h x (by simp [hx])), setAnchor_get _ _ _ _ _ _ (h a (by simp)) h']
    by_cases h1 : e' = e <;> by_cases h2 : a' = a <;> by_cases h3 : a' ∈ cols <;> simp [h1, h2, h3, Anchor.cleared]

theorem clearRead_get (k : Core) (e0 : Nat) (cols : List Nat) (hc : ∀ a ∈ cols, a < 64) (e a : Nat) (ha : a < 64) : ∀ n : Nat,
    (clearRead k e0 n cols).anchor e a =
      if (e0 ≤ e ∧ e < e0 + n) ∧ a ∈ cols then Anchor.cleared (k.anchor e a).l else k.anchor e a
  | 0 => by rw [if_neg (by omega)]; simp [clearRead]
  | n + 1 => by
    have ih := clearRead_get k e0 cols hc e a ha n
    simp only [clearRead] at ih ⊢
    rw [List.range_succ (n := n), List.foldl_append, List.foldl_cons, List.foldl_nil, clearCols_get (e0 + n) e a ha cols _ hc, ih]
    by_cases h1 : e = e0 + n
    · subst h1
      rw [if_neg (show ¬ ((e0 ≤ e0 + n ∧ e0 + n < e0 + n) ∧ a ∈ cols) by omega)]
      simp
    · rw [if_neg (fun h => h1 h.1)]
      exact if_congr (by constructor <;> rintro ⟨h, h'⟩ <;> exact ⟨by omega, h'⟩) rfl rfl

theorem quarterCols_lt {cs cc : BitVec 2} (h : cs.toNat + cc.toNat ≤ 3) : ∀ a ∈ quarterCols cs cc, a < 64 := by
  intro a ha; simp [quarterCols] at ha; obtain ⟨b, hb, rfl⟩ := ha; omega

/-- A fold of merges at distinct places: an entry that a record names merges it, and no other changes. -/
theorem mergeAll_get (e a : Nat) (ha : a < 64) : ∀ (l : List ((Nat × Nat) × RawRec)) (k : Core),
    (l.map (·.1)).Nodup → (∀ x ∈ l, x.1.2 < 64) →
    let t := l.foldl (fun k2 (x : (Nat × Nat) × RawRec) => k2.setAnchor x.1.1 x.1.2 ((k2.anchor x.1.1 x.1.2).merge x.2)) k
    (∀ q, ((e, a), q) ∈ l → t.anchor e a = (k.anchor e a).merge q) ∧ ((e, a) ∉ l.map (·.1) → t.anchor e a = k.anchor e a)
  | [], k, _, _ => by simp
  | x :: l, k, hn, hl => by
    obtain ⟨⟨e1, a1⟩, v⟩ := x
    have h1 : a1 < 64 := hl ((e1, a1), v) (by simp)
    simp only [List.map_cons, List.nodup_cons] at hn
    have ih := mergeAll_get e a ha l (k.setAnchor e1 a1 ((k.anchor e1 a1).merge v)) hn.2 (fun y hy => hl y (by simp [hy]))
    rw [setAnchor_get _ _ _ _ _ _ h1 ha] at ih
    refine ⟨fun q hq => ?_, fun hq => ?_⟩
    · rcases List.mem_cons.1 hq with hq | hq
      · cases hq
        rw [List.foldl_cons, ih.2 hn.1, if_pos ⟨rfl, rfl⟩]
      · rw [List.foldl_cons, ih.1 q hq, if_neg]
        rintro ⟨h2, h3⟩; exact hn.1 (List.mem_map.2 ⟨((e, a), q), hq, by rw [h2, h3]⟩)
    · simp only [List.map_cons, List.mem_cons, not_or] at hq
      rw [List.foldl_cons, ih.2 hq.2, if_neg]
      rintro ⟨rfl, rfl⟩; exact hq.1 rfl

end Sys2Proof.Machine
end

