-- ==== Sys2Proof/Laws/Frames.lean ====
section
/-! SUPPORT. What the shared operations leave: interrupt bits and messages, error counters, events, completions, the trace. -/

namespace Sys2Proof.Machine

variable (s : State)

@[simp] theorem onCore_same (n : Nat) (f : Core → Core) :
    (s.onCore n f).pending = s.pending ∧ (s.onCore n f).reply = s.reply ∧ (s.onCore n f).env = s.env ∧
    (s.onCore n f).hdrs = s.hdrs ∧ (s.onCore n f).ctls = s.ctls ∧ (s.onCore n f).ledge = s.ledge ∧
    (s.onCore n f).mesh = s.mesh ∧ (s.onCore n f).hbm = s.hbm ∧ (s.onCore n f).arbs = s.arbs ∧
    (s.onCore n f).arbSels = s.arbSels ∧ (s.onCore n f).ctx = s.ctx ∧ (s.onCore n f).fence = s.fence ∧
    (s.onCore n f).fab = s.fab ∧ (s.onCore n f).host = s.host ∧ (s.onCore n f).glob = s.glob ∧ (s.onCore n f).pwr = s.pwr ∧
    (s.onCore n f).sec = s.sec ∧ (s.onCore n f).dbg = s.dbg ∧ (s.onCore n f).evts = s.evts ∧ (s.onCore n f).thm = s.thm ∧
    (s.onCore n f).cool = s.cool ∧ (s.onCore n f).loop = s.loop ∧ (s.onCore n f).drv = s.drv ∧
    (s.onCore n f).cbus = s.cbus ∧ (s.onCore n f).hut = s.hut ∧ (s.onCore n f).cairn = s.cairn ∧
    (s.onCore n f).fresh = s.fresh := by
  (repeat' apply And.intro) <;> rfl
@[simp] theorem onCtl_same (n : Nat) (f : CoreCtl → CoreCtl) :
    (s.onCtl n f).pending = s.pending ∧ (s.onCtl n f).reply = s.reply ∧ (s.onCtl n f).env = s.env ∧
    (s.onCtl n f).hdrs = s.hdrs ∧ (s.onCtl n f).cores = s.cores ∧ (s.onCtl n f).ledge = s.ledge ∧
    (s.onCtl n f).mesh = s.mesh ∧ (s.onCtl n f).hbm = s.hbm ∧ (s.onCtl n f).arbs = s.arbs ∧
    (s.onCtl n f).arbSels = s.arbSels ∧ (s.onCtl n f).ctx = s.ctx ∧ (s.onCtl n f).fence = s.fence ∧
    (s.onCtl n f).fab = s.fab ∧ (s.onCtl n f).host = s.host ∧ (s.onCtl n f).glob = s.glob ∧ (s.onCtl n f).pwr = s.pwr ∧
    (s.onCtl n f).sec = s.sec ∧ (s.onCtl n f).dbg = s.dbg ∧ (s.onCtl n f).evts = s.evts ∧ (s.onCtl n f).thm = s.thm ∧
    (s.onCtl n f).cool = s.cool ∧ (s.onCtl n f).loop = s.loop ∧ (s.onCtl n f).drv = s.drv ∧ (s.onCtl n f).cbus = s.cbus ∧
    (s.onCtl n f).hut = s.hut ∧ (s.onCtl n f).cairn = s.cairn ∧ (s.onCtl n f).fresh = s.fresh := by
  (repeat' apply And.intro) <;> rfl
@[simp] theorem onHdr_same (p : Nat) (f : Hdr → Hdr) :
    (s.onHdr p f).pending = s.pending ∧ (s.onHdr p f).reply = s.reply ∧ (s.onHdr p f).env = s.env ∧
    (s.onHdr p f).cores = s.cores ∧ (s.onHdr p f).ctls = s.ctls ∧ (s.onHdr p f).ledge = s.ledge ∧
    (s.onHdr p f).mesh = s.mesh ∧ (s.onHdr p f).hbm = s.hbm ∧ (s.onHdr p f).arbs = s.arbs ∧
    (s.onHdr p f).arbSels = s.arbSels ∧ (s.onHdr p f).ctx = s.ctx ∧ (s.onHdr p f).fence = s.fence ∧
    (s.onHdr p f).fab = s.fab ∧ (s.onHdr p f).host = s.host ∧ (s.onHdr p f).glob = s.glob ∧ (s.onHdr p f).pwr = s.pwr ∧
    (s.onHdr p f).sec = s.sec ∧ (s.onHdr p f).dbg = s.dbg ∧ (s.onHdr p f).evts = s.evts ∧ (s.onHdr p f).thm = s.thm ∧
    (s.onHdr p f).cool = s.cool ∧ (s.onHdr p f).loop = s.loop ∧ (s.onHdr p f).drv = s.drv ∧ (s.onHdr p f).cbus = s.cbus ∧
    (s.onHdr p f).hut = s.hut ∧ (s.onHdr p f).cairn = s.cairn ∧ (s.onHdr p f).fresh = s.fresh := by
  (repeat' apply And.intro) <;> rfl
@[simp] theorem setCx_same (x : Nat) (c : Ctx) :
    (s.setCx x c).pending = s.pending ∧ (s.setCx x c).reply = s.reply ∧ (s.setCx x c).env = s.env ∧
    (s.setCx x c).hdrs = s.hdrs ∧ (s.setCx x c).cores = s.cores ∧ (s.setCx x c).ctls = s.ctls ∧
    (s.setCx x c).ledge = s.ledge ∧ (s.setCx x c).mesh = s.mesh ∧ (s.setCx x c).hbm = s.hbm ∧ (s.setCx x c).arbs = s.arbs ∧
    (s.setCx x c).arbSels = s.arbSels ∧ (s.setCx x c).fence = s.fence ∧ (s.setCx x c).fab = s.fab ∧
    (s.setCx x c).host = s.host ∧ (s.setCx x c).glob = s.glob ∧ (s.setCx x c).pwr = s.pwr ∧ (s.setCx x c).sec = s.sec ∧
    (s.setCx x c).dbg = s.dbg ∧ (s.setCx x c).evts = s.evts ∧ (s.setCx x c).thm = s.thm ∧ (s.setCx x c).cool = s.cool ∧
    (s.setCx x c).loop = s.loop ∧ (s.setCx x c).drv = s.drv ∧ (s.setCx x c).cbus = s.cbus ∧ (s.setCx x c).hut = s.hut ∧
    (s.setCx x c).cairn = s.cairn ∧ (s.setCx x c).fresh = s.fresh := by
  (repeat' apply And.intro) <;> rfl
@[simp] theorem onCx_same (x : Nat) (f : Ctx → Ctx) :
    (s.onCx x f).pending = s.pending ∧ (s.onCx x f).reply = s.reply ∧ (s.onCx x f).env = s.env ∧
    (s.onCx x f).hdrs = s.hdrs ∧ (s.onCx x f).cores = s.cores ∧ (s.onCx x f).ctls = s.ctls ∧ (s.onCx x f).ledge = s.ledge ∧
    (s.onCx x f).mesh = s.mesh ∧ (s.onCx x f).hbm = s.hbm ∧ (s.onCx x f).arbs = s.arbs ∧ (s.onCx x f).arbSels = s.arbSels ∧
    (s.onCx x f).fence = s.fence ∧ (s.onCx x f).fab = s.fab ∧ (s.onCx x f).host = s.host ∧ (s.onCx x f).glob = s.glob ∧
    (s.onCx x f).pwr = s.pwr ∧ (s.onCx x f).sec = s.sec ∧ (s.onCx x f).dbg = s.dbg ∧ (s.onCx x f).evts = s.evts ∧
    (s.onCx x f).thm = s.thm ∧ (s.onCx x f).cool = s.cool ∧ (s.onCx x f).loop = s.loop ∧ (s.onCx x f).drv = s.drv ∧
    (s.onCx x f).cbus = s.cbus ∧ (s.onCx x f).hut = s.hut ∧ (s.onCx x f).cairn = s.cairn ∧ (s.onCx x f).fresh = s.fresh := by
  (repeat' apply And.intro) <;> rfl
@[simp] theorem setPort_same (p : Nat) (q : Port) :
    (s.setPort p q).pending = s.pending ∧ (s.setPort p q).reply = s.reply ∧ (s.setPort p q).env = s.env ∧
    (s.setPort p q).hdrs = s.hdrs ∧ (s.setPort p q).cores = s.cores ∧ (s.setPort p q).ctls = s.ctls ∧
    (s.setPort p q).ledge = s.ledge ∧ (s.setPort p q).mesh = s.mesh ∧ (s.setPort p q).hbm = s.hbm ∧
    (s.setPort p q).arbs = s.arbs ∧ (s.setPort p q).arbSels = s.arbSels ∧ (s.setPort p q).ctx = s.ctx ∧
    (s.setPort p q).fence = s.fence ∧ (s.setPort p q).host = s.host ∧ (s.setPort p q).glob = s.glob ∧
    (s.setPort p q).pwr = s.pwr ∧ (s.setPort p q).sec = s.sec ∧ (s.setPort p q).dbg = s.dbg ∧
    (s.setPort p q).evts = s.evts ∧ (s.setPort p q).thm = s.thm ∧ (s.setPort p q).cool = s.cool ∧
    (s.setPort p q).loop = s.loop ∧ (s.setPort p q).drv = s.drv ∧ (s.setPort p q).cbus = s.cbus ∧
    (s.setPort p q).hut = s.hut ∧ (s.setPort p q).cairn = s.cairn ∧ (s.setPort p q).fresh = s.fresh := by
  (repeat' apply And.intro) <;> rfl
@[simp] theorem onPort_same (p : Nat) (f : Port → Port) :
    (s.onPort p f).pending = s.pending ∧ (s.onPort p f).reply = s.reply ∧ (s.onPort p f).env = s.env ∧
    (s.onPort p f).hdrs = s.hdrs ∧ (s.onPort p f).cores = s.cores ∧ (s.onPort p f).ctls = s.ctls ∧
    (s.onPort p f).ledge = s.ledge ∧ (s.onPort p f).mesh = s.mesh ∧ (s.onPort p f).hbm = s.hbm ∧
    (s.onPort p f).arbs = s.arbs ∧ (s.onPort p f).arbSels = s.arbSels ∧ (s.onPort p f).ctx = s.ctx ∧
    (s.onPort p f).fence = s.fence ∧ (s.onPort p f).host = s.host ∧ (s.onPort p f).glob = s.glob ∧
    (s.onPort p f).pwr = s.pwr ∧ (s.onPort p f).sec = s.sec ∧ (s.onPort p f).dbg = s.dbg ∧ (s.onPort p f).evts = s.evts ∧
    (s.onPort p f).thm = s.thm ∧ (s.onPort p f).cool = s.cool ∧ (s.onPort p f).loop = s.loop ∧ (s.onPort p f).drv = s.drv ∧
    (s.onPort p f).cbus = s.cbus ∧ (s.onPort p f).hut = s.hut ∧ (s.onPort p f).cairn = s.cairn ∧
    (s.onPort p f).fresh = s.fresh := by
  (repeat' apply And.intro) <;> rfl
@[simp] theorem setFx_same (x : Nat) (c : FabCtx) :
    (s.setFx x c).pending = s.pending ∧ (s.setFx x c).reply = s.reply ∧ (s.setFx x c).env = s.env ∧
    (s.setFx x c).hdrs = s.hdrs ∧ (s.setFx x c).cores = s.cores ∧ (s.setFx x c).ctls = s.ctls ∧
    (s.setFx x c).ledge = s.ledge ∧ (s.setFx x c).mesh = s.mesh ∧ (s.setFx x c).hbm = s.hbm ∧ (s.setFx x c).arbs = s.arbs ∧
    (s.setFx x c).arbSels = s.arbSels ∧ (s.setFx x c).ctx = s.ctx ∧ (s.setFx x c).fence = s.fence ∧
    (s.setFx x c).host = s.host ∧ (s.setFx x c).glob = s.glob ∧ (s.setFx x c).pwr = s.pwr ∧ (s.setFx x c).sec = s.sec ∧
    (s.setFx x c).dbg = s.dbg ∧ (s.setFx x c).evts = s.evts ∧ (s.setFx x c).thm = s.thm ∧ (s.setFx x c).cool = s.cool ∧
    (s.setFx x c).loop = s.loop ∧ (s.setFx x c).drv = s.drv ∧ (s.setFx x c).cbus = s.cbus ∧ (s.setFx x c).hut = s.hut ∧
    (s.setFx x c).cairn = s.cairn ∧ (s.setFx x c).fresh = s.fresh := by
  (repeat' apply And.intro) <;> rfl
@[simp] theorem onFx_same (x : Nat) (f : FabCtx → FabCtx) :
    (s.onFx x f).pending = s.pending ∧ (s.onFx x f).reply = s.reply ∧ (s.onFx x f).env = s.env ∧
    (s.onFx x f).hdrs = s.hdrs ∧ (s.onFx x f).cores = s.cores ∧ (s.onFx x f).ctls = s.ctls ∧ (s.onFx x f).ledge = s.ledge ∧
    (s.onFx x f).mesh = s.mesh ∧ (s.onFx x f).hbm = s.hbm ∧ (s.onFx x f).arbs = s.arbs ∧ (s.onFx x f).arbSels = s.arbSels ∧
    (s.onFx x f).ctx = s.ctx ∧ (s.onFx x f).fence = s.fence ∧ (s.onFx x f).host = s.host ∧ (s.onFx x f).glob = s.glob ∧
    (s.onFx x f).pwr = s.pwr ∧ (s.onFx x f).sec = s.sec ∧ (s.onFx x f).dbg = s.dbg ∧ (s.onFx x f).evts = s.evts ∧
    (s.onFx x f).thm = s.thm ∧ (s.onFx x f).cool = s.cool ∧ (s.onFx x f).loop = s.loop ∧ (s.onFx x f).drv = s.drv ∧
    (s.onFx x f).cbus = s.cbus ∧ (s.onFx x f).hut = s.hut ∧ (s.onFx x f).cairn = s.cairn ∧ (s.onFx x f).fresh = s.fresh := by
  (repeat' apply And.intro) <;> rfl
@[simp] theorem setChan_same (x k : Nat) (c : Chan) :
    (s.setChan x k c).pending = s.pending ∧ (s.setChan x k c).reply = s.reply ∧ (s.setChan x k c).env = s.env ∧
    (s.setChan x k c).hdrs = s.hdrs ∧ (s.setChan x k c).cores = s.cores ∧ (s.setChan x k c).ctls = s.ctls ∧
    (s.setChan x k c).ledge = s.ledge ∧ (s.setChan x k c).mesh = s.mesh ∧ (s.setChan x k c).hbm = s.hbm ∧
    (s.setChan x k c).arbs = s.arbs ∧ (s.setChan x k c).arbSels = s.arbSels ∧ (s.setChan x k c).ctx = s.ctx ∧
    (s.setChan x k c).fence = s.fence ∧ (s.setChan x k c).host = s.host ∧ (s.setChan x k c).glob = s.glob ∧
    (s.setChan x k c).pwr = s.pwr ∧ (s.setChan x k c).sec = s.sec ∧ (s.setChan x k c).dbg = s.dbg ∧
    (s.setChan x k c).evts = s.evts ∧ (s.setChan x k c).thm = s.thm ∧ (s.setChan x k c).cool = s.cool ∧
    (s.setChan x k c).loop = s.loop ∧ (s.setChan x k c).drv = s.drv ∧ (s.setChan x k c).cbus = s.cbus ∧
    (s.setChan x k c).hut = s.hut ∧ (s.setChan x k c).cairn = s.cairn ∧ (s.setChan x k c).fresh = s.fresh := by
  (repeat' apply And.intro) <;> rfl
@[simp] theorem onChan_same (x k : Nat) (f : Chan → Chan) :
    (s.onChan x k f).pending = s.pending ∧ (s.onChan x k f).reply = s.reply ∧ (s.onChan x k f).env = s.env ∧
    (s.onChan x k f).hdrs = s.hdrs ∧ (s.onChan x k f).cores = s.cores ∧ (s.onChan x k f).ctls = s.ctls ∧
    (s.onChan x k f).ledge = s.ledge ∧ (s.onChan x k f).mesh = s.mesh ∧ (s.onChan x k f).hbm = s.hbm ∧
    (s.onChan x k f).arbs = s.arbs ∧ (s.onChan x k f).arbSels = s.arbSels ∧ (s.onChan x k f).ctx = s.ctx ∧
    (s.onChan x k f).fence = s.fence ∧ (s.onChan x k f).host = s.host ∧ (s.onChan x k f).glob = s.glob ∧
    (s.onChan x k f).pwr = s.pwr ∧ (s.onChan x k f).sec = s.sec ∧ (s.onChan x k f).dbg = s.dbg ∧
    (s.onChan x k f).evts = s.evts ∧ (s.onChan x k f).thm = s.thm ∧ (s.onChan x k f).cool = s.cool ∧
    (s.onChan x k f).loop = s.loop ∧ (s.onChan x k f).drv = s.drv ∧ (s.onChan x k f).cbus = s.cbus ∧
    (s.onChan x k f).hut = s.hut ∧ (s.onChan x k f).cairn = s.cairn ∧ (s.onChan x k f).fresh = s.fresh := by
  (repeat' apply And.intro) <;> rfl
@[simp] theorem setFn_same (f : Nat) (h : FnHost) :
    (s.setFn f h).pending = s.pending ∧ (s.setFn f h).reply = s.reply ∧ (s.setFn f h).env = s.env ∧
    (s.setFn f h).hdrs = s.hdrs ∧ (s.setFn f h).cores = s.cores ∧ (s.setFn f h).ctls = s.ctls ∧
    (s.setFn f h).ledge = s.ledge ∧ (s.setFn f h).mesh = s.mesh ∧ (s.setFn f h).hbm = s.hbm ∧ (s.setFn f h).arbs = s.arbs ∧
    (s.setFn f h).arbSels = s.arbSels ∧ (s.setFn f h).ctx = s.ctx ∧ (s.setFn f h).fence = s.fence ∧
    (s.setFn f h).fab = s.fab ∧ (s.setFn f h).glob = s.glob ∧ (s.setFn f h).pwr = s.pwr ∧ (s.setFn f h).sec = s.sec ∧
    (s.setFn f h).dbg = s.dbg ∧ (s.setFn f h).evts = s.evts ∧ (s.setFn f h).thm = s.thm ∧ (s.setFn f h).cool = s.cool ∧
    (s.setFn f h).loop = s.loop ∧ (s.setFn f h).drv = s.drv ∧ (s.setFn f h).cbus = s.cbus ∧ (s.setFn f h).hut = s.hut ∧
    (s.setFn f h).cairn = s.cairn ∧ (s.setFn f h).fresh = s.fresh := by
  (repeat' apply And.intro) <;> rfl
@[simp] theorem onFn_same (f : Nat) (g : FnHost → FnHost) :
    (s.onFn f g).pending = s.pending ∧ (s.onFn f g).reply = s.reply ∧ (s.onFn f g).env = s.env ∧
    (s.onFn f g).hdrs = s.hdrs ∧ (s.onFn f g).cores = s.cores ∧ (s.onFn f g).ctls = s.ctls ∧ (s.onFn f g).ledge = s.ledge ∧
    (s.onFn f g).mesh = s.mesh ∧ (s.onFn f g).hbm = s.hbm ∧ (s.onFn f g).arbs = s.arbs ∧ (s.onFn f g).arbSels = s.arbSels ∧
    (s.onFn f g).ctx = s.ctx ∧ (s.onFn f g).fence = s.fence ∧ (s.onFn f g).fab = s.fab ∧ (s.onFn f g).glob = s.glob ∧
    (s.onFn f g).pwr = s.pwr ∧ (s.onFn f g).sec = s.sec ∧ (s.onFn f g).dbg = s.dbg ∧ (s.onFn f g).evts = s.evts ∧
    (s.onFn f g).thm = s.thm ∧ (s.onFn f g).cool = s.cool ∧ (s.onFn f g).loop = s.loop ∧ (s.onFn f g).drv = s.drv ∧
    (s.onFn f g).cbus = s.cbus ∧ (s.onFn f g).hut = s.hut ∧ (s.onFn f g).cairn = s.cairn ∧ (s.onFn f g).fresh = s.fresh := by
  (repeat' apply And.intro) <;> rfl
@[simp] theorem onSq_same (f i : Nat) (g : SqRing → SqRing) :
    (s.onSq f i g).pending = s.pending ∧ (s.onSq f i g).reply = s.reply ∧ (s.onSq f i g).env = s.env ∧
    (s.onSq f i g).hdrs = s.hdrs ∧ (s.onSq f i g).cores = s.cores ∧ (s.onSq f i g).ctls = s.ctls ∧
    (s.onSq f i g).ledge = s.ledge ∧ (s.onSq f i g).mesh = s.mesh ∧ (s.onSq f i g).hbm = s.hbm ∧
    (s.onSq f i g).arbs = s.arbs ∧ (s.onSq f i g).arbSels = s.arbSels ∧ (s.onSq f i g).ctx = s.ctx ∧
    (s.onSq f i g).fence = s.fence ∧ (s.onSq f i g).fab = s.fab ∧ (s.onSq f i g).glob = s.glob ∧
    (s.onSq f i g).pwr = s.pwr ∧ (s.onSq f i g).sec = s.sec ∧ (s.onSq f i g).dbg = s.dbg ∧ (s.onSq f i g).evts = s.evts ∧
    (s.onSq f i g).thm = s.thm ∧ (s.onSq f i g).cool = s.cool ∧ (s.onSq f i g).loop = s.loop ∧ (s.onSq f i g).drv = s.drv ∧
    (s.onSq f i g).cbus = s.cbus ∧ (s.onSq f i g).hut = s.hut ∧ (s.onSq f i g).cairn = s.cairn ∧
    (s.onSq f i g).fresh = s.fresh := by
  (repeat' apply And.intro) <;> rfl
@[simp] theorem onCq_same (f i : Nat) (g : CqRing → CqRing) :
    (s.onCq f i g).pending = s.pending ∧ (s.onCq f i g).reply = s.reply ∧ (s.onCq f i g).env = s.env ∧
    (s.onCq f i g).hdrs = s.hdrs ∧ (s.onCq f i g).cores = s.cores ∧ (s.onCq f i g).ctls = s.ctls ∧
    (s.onCq f i g).ledge = s.ledge ∧ (s.onCq f i g).mesh = s.mesh ∧ (s.onCq f i g).hbm = s.hbm ∧
    (s.onCq f i g).arbs = s.arbs ∧ (s.onCq f i g).arbSels = s.arbSels ∧ (s.onCq f i g).ctx = s.ctx ∧
    (s.onCq f i g).fence = s.fence ∧ (s.onCq f i g).fab = s.fab ∧ (s.onCq f i g).glob = s.glob ∧
    (s.onCq f i g).pwr = s.pwr ∧ (s.onCq f i g).sec = s.sec ∧ (s.onCq f i g).dbg = s.dbg ∧ (s.onCq f i g).evts = s.evts ∧
    (s.onCq f i g).thm = s.thm ∧ (s.onCq f i g).cool = s.cool ∧ (s.onCq f i g).loop = s.loop ∧ (s.onCq f i g).drv = s.drv ∧
    (s.onCq f i g).cbus = s.cbus ∧ (s.onCq f i g).hut = s.hut ∧ (s.onCq f i g).cairn = s.cairn ∧
    (s.onCq f i g).fresh = s.fresh := by
  (repeat' apply And.intro) <;> rfl
@[simp] theorem setPage_same (k : Nat) (p : WinPage) :
    (s.setPage k p).pending = s.pending ∧ (s.setPage k p).reply = s.reply ∧ (s.setPage k p).env = s.env ∧
    (s.setPage k p).hdrs = s.hdrs ∧ (s.setPage k p).cores = s.cores ∧ (s.setPage k p).ctls = s.ctls ∧
    (s.setPage k p).ledge = s.ledge ∧ (s.setPage k p).mesh = s.mesh ∧ (s.setPage k p).hbm = s.hbm ∧
    (s.setPage k p).arbs = s.arbs ∧ (s.setPage k p).arbSels = s.arbSels ∧ (s.setPage k p).ctx = s.ctx ∧
    (s.setPage k p).fence = s.fence ∧ (s.setPage k p).fab = s.fab ∧ (s.setPage k p).glob = s.glob ∧
    (s.setPage k p).pwr = s.pwr ∧ (s.setPage k p).sec = s.sec ∧ (s.setPage k p).dbg = s.dbg ∧
    (s.setPage k p).evts = s.evts ∧ (s.setPage k p).thm = s.thm ∧ (s.setPage k p).cool = s.cool ∧
    (s.setPage k p).loop = s.loop ∧ (s.setPage k p).drv = s.drv ∧ (s.setPage k p).cbus = s.cbus ∧
    (s.setPage k p).hut = s.hut ∧ (s.setPage k p).cairn = s.cairn ∧ (s.setPage k p).fresh = s.fresh := by
  (repeat' apply And.intro) <;> rfl
@[simp] theorem onSx_same (x : Nat) (f : SecCtx → SecCtx) :
    (s.onSx x f).pending = s.pending ∧ (s.onSx x f).reply = s.reply ∧ (s.onSx x f).env = s.env ∧
    (s.onSx x f).hdrs = s.hdrs ∧ (s.onSx x f).cores = s.cores ∧ (s.onSx x f).ctls = s.ctls ∧ (s.onSx x f).ledge = s.ledge ∧
    (s.onSx x f).mesh = s.mesh ∧ (s.onSx x f).hbm = s.hbm ∧ (s.onSx x f).arbs = s.arbs ∧ (s.onSx x f).arbSels = s.arbSels ∧
    (s.onSx x f).ctx = s.ctx ∧ (s.onSx x f).fence = s.fence ∧ (s.onSx x f).fab = s.fab ∧ (s.onSx x f).host = s.host ∧
    (s.onSx x f).glob = s.glob ∧ (s.onSx x f).pwr = s.pwr ∧ (s.onSx x f).dbg = s.dbg ∧ (s.onSx x f).evts = s.evts ∧
    (s.onSx x f).thm = s.thm ∧ (s.onSx x f).cool = s.cool ∧ (s.onSx x f).loop = s.loop ∧ (s.onSx x f).drv = s.drv ∧
    (s.onSx x f).cbus = s.cbus ∧ (s.onSx x f).hut = s.hut ∧ (s.onSx x f).cairn = s.cairn ∧ (s.onSx x f).fresh = s.fresh := by
  (repeat' apply And.intro) <;> rfl
@[simp] theorem onSlot_same (i : Nat) (f : Slot → Slot) :
    (s.onSlot i f).pending = s.pending ∧ (s.onSlot i f).reply = s.reply ∧ (s.onSlot i f).env = s.env ∧
    (s.onSlot i f).hdrs = s.hdrs ∧ (s.onSlot i f).cores = s.cores ∧ (s.onSlot i f).ctls = s.ctls ∧
    (s.onSlot i f).ledge = s.ledge ∧ (s.onSlot i f).mesh = s.mesh ∧ (s.onSlot i f).hbm = s.hbm ∧
    (s.onSlot i f).arbs = s.arbs ∧ (s.onSlot i f).arbSels = s.arbSels ∧ (s.onSlot i f).ctx = s.ctx ∧
    (s.onSlot i f).fence = s.fence ∧ (s.onSlot i f).fab = s.fab ∧ (s.onSlot i f).host = s.host ∧
    (s.onSlot i f).glob = s.glob ∧ (s.onSlot i f).pwr = s.pwr ∧ (s.onSlot i f).sec = s.sec ∧ (s.onSlot i f).dbg = s.dbg ∧
    (s.onSlot i f).evts = s.evts ∧ (s.onSlot i f).thm = s.thm ∧ (s.onSlot i f).cool = s.cool ∧ (s.onSlot i f).drv = s.drv ∧
    (s.onSlot i f).cbus = s.cbus ∧ (s.onSlot i f).hut = s.hut ∧ (s.onSlot i f).cairn = s.cairn ∧
    (s.onSlot i f).fresh = s.fresh := by
  (repeat' apply And.intro) <;> rfl
@[simp] theorem onCan_same (i : Nat) (f : CanIf → CanIf) :
    (s.onCan i f).pending = s.pending ∧ (s.onCan i f).reply = s.reply ∧ (s.onCan i f).env = s.env ∧
    (s.onCan i f).hdrs = s.hdrs ∧ (s.onCan i f).cores = s.cores ∧ (s.onCan i f).ctls = s.ctls ∧
    (s.onCan i f).ledge = s.ledge ∧ (s.onCan i f).mesh = s.mesh ∧ (s.onCan i f).hbm = s.hbm ∧ (s.onCan i f).arbs = s.arbs ∧
    (s.onCan i f).arbSels = s.arbSels ∧ (s.onCan i f).ctx = s.ctx ∧ (s.onCan i f).fence = s.fence ∧
    (s.onCan i f).fab = s.fab ∧ (s.onCan i f).host = s.host ∧ (s.onCan i f).glob = s.glob ∧ (s.onCan i f).pwr = s.pwr ∧
    (s.onCan i f).sec = s.sec ∧ (s.onCan i f).dbg = s.dbg ∧ (s.onCan i f).evts = s.evts ∧ (s.onCan i f).thm = s.thm ∧
    (s.onCan i f).cool = s.cool ∧ (s.onCan i f).loop = s.loop ∧ (s.onCan i f).drv = s.drv ∧ (s.onCan i f).hut = s.hut ∧
    (s.onCan i f).cairn = s.cairn ∧ (s.onCan i f).fresh = s.fresh := by
  (repeat' apply And.intro) <;> rfl
@[simp] theorem onObj_same (i k : Nat) (f : RxObj → RxObj) :
    (s.onObj i k f).pending = s.pending ∧ (s.onObj i k f).reply = s.reply ∧ (s.onObj i k f).env = s.env ∧
    (s.onObj i k f).hdrs = s.hdrs ∧ (s.onObj i k f).cores = s.cores ∧ (s.onObj i k f).ctls = s.ctls ∧
    (s.onObj i k f).ledge = s.ledge ∧ (s.onObj i k f).mesh = s.mesh ∧ (s.onObj i k f).hbm = s.hbm ∧
    (s.onObj i k f).arbs = s.arbs ∧ (s.onObj i k f).arbSels = s.arbSels ∧ (s.onObj i k f).ctx = s.ctx ∧
    (s.onObj i k f).fence = s.fence ∧ (s.onObj i k f).fab = s.fab ∧ (s.onObj i k f).host = s.host ∧
    (s.onObj i k f).glob = s.glob ∧ (s.onObj i k f).pwr = s.pwr ∧ (s.onObj i k f).sec = s.sec ∧
    (s.onObj i k f).dbg = s.dbg ∧ (s.onObj i k f).evts = s.evts ∧ (s.onObj i k f).thm = s.thm ∧
    (s.onObj i k f).cool = s.cool ∧ (s.onObj i k f).loop = s.loop ∧ (s.onObj i k f).drv = s.drv ∧
    (s.onObj i k f).hut = s.hut ∧ (s.onObj i k f).cairn = s.cairn ∧ (s.onObj i k f).fresh = s.fresh := by
  (repeat' apply And.intro) <;> rfl
@[simp] theorem onGroup_same (g : Nat) (f : Group → Group) :
    (s.onGroup g f).pending = s.pending ∧ (s.onGroup g f).reply = s.reply ∧ (s.onGroup g f).env = s.env ∧
    (s.onGroup g f).hdrs = s.hdrs ∧ (s.onGroup g f).cores = s.cores ∧ (s.onGroup g f).ctls = s.ctls ∧
    (s.onGroup g f).ledge = s.ledge ∧ (s.onGroup g f).mesh = s.mesh ∧ (s.onGroup g f).hbm = s.hbm ∧
    (s.onGroup g f).arbs = s.arbs ∧ (s.onGroup g f).arbSels = s.arbSels ∧ (s.onGroup g f).ctx = s.ctx ∧
    (s.onGroup g f).fence = s.fence ∧ (s.onGroup g f).fab = s.fab ∧ (s.onGroup g f).host = s.host ∧
    (s.onGroup g f).glob = s.glob ∧ (s.onGroup g f).pwr = s.pwr ∧ (s.onGroup g f).sec = s.sec ∧
    (s.onGroup g f).dbg = s.dbg ∧ (s.onGroup g f).evts = s.evts ∧ (s.onGroup g f).thm = s.thm ∧
    (s.onGroup g f).cool = s.cool ∧ (s.onGroup g f).loop = s.loop ∧ (s.onGroup g f).drv = s.drv ∧
    (s.onGroup g f).hut = s.hut ∧ (s.onGroup g f).cairn = s.cairn ∧ (s.onGroup g f).fresh = s.fresh := by
  (repeat' apply And.intro) <;> rfl
@[simp] theorem onCool_same (f : CoolSup → CoolSup) :
    (s.onCool f).pending = s.pending ∧ (s.onCool f).reply = s.reply ∧ (s.onCool f).env = s.env ∧
    (s.onCool f).hdrs = s.hdrs ∧ (s.onCool f).cores = s.cores ∧ (s.onCool f).ctls = s.ctls ∧ (s.onCool f).ledge = s.ledge ∧
    (s.onCool f).mesh = s.mesh ∧ (s.onCool f).hbm = s.hbm ∧ (s.onCool f).arbs = s.arbs ∧ (s.onCool f).arbSels = s.arbSels ∧
    (s.onCool f).ctx = s.ctx ∧ (s.onCool f).fence = s.fence ∧ (s.onCool f).fab = s.fab ∧ (s.onCool f).host = s.host ∧
    (s.onCool f).glob = s.glob ∧ (s.onCool f).pwr = s.pwr ∧ (s.onCool f).sec = s.sec ∧ (s.onCool f).dbg = s.dbg ∧
    (s.onCool f).evts = s.evts ∧ (s.onCool f).thm = s.thm ∧ (s.onCool f).loop = s.loop ∧ (s.onCool f).drv = s.drv ∧
    (s.onCool f).cbus = s.cbus ∧ (s.onCool f).hut = s.hut ∧ (s.onCool f).cairn = s.cairn ∧ (s.onCool f).fresh = s.fresh := by
  (repeat' apply And.intro) <;> rfl
@[simp] theorem onValve_same (v : Nat) (f : Valve → Valve) :
    (s.onValve v f).pending = s.pending ∧ (s.onValve v f).reply = s.reply ∧ (s.onValve v f).env = s.env ∧
    (s.onValve v f).hdrs = s.hdrs ∧ (s.onValve v f).cores = s.cores ∧ (s.onValve v f).ctls = s.ctls ∧
    (s.onValve v f).ledge = s.ledge ∧ (s.onValve v f).mesh = s.mesh ∧ (s.onValve v f).hbm = s.hbm ∧
    (s.onValve v f).arbs = s.arbs ∧ (s.onValve v f).arbSels = s.arbSels ∧ (s.onValve v f).ctx = s.ctx ∧
    (s.onValve v f).fence = s.fence ∧ (s.onValve v f).fab = s.fab ∧ (s.onValve v f).host = s.host ∧
    (s.onValve v f).glob = s.glob ∧ (s.onValve v f).pwr = s.pwr ∧ (s.onValve v f).sec = s.sec ∧
    (s.onValve v f).dbg = s.dbg ∧ (s.onValve v f).evts = s.evts ∧ (s.onValve v f).thm = s.thm ∧
    (s.onValve v f).cool = s.cool ∧ (s.onValve v f).loop = s.loop ∧ (s.onValve v f).cbus = s.cbus ∧
    (s.onValve v f).hut = s.hut ∧ (s.onValve v f).cairn = s.cairn ∧ (s.onValve v f).fresh = s.fresh := by
  (repeat' apply And.intro) <;> rfl
@[simp] theorem onMotor_same (m : Nat) (f : Motor → Motor) :
    (s.onMotor m f).pending = s.pending ∧ (s.onMotor m f).reply = s.reply ∧ (s.onMotor m f).env = s.env ∧
    (s.onMotor m f).hdrs = s.hdrs ∧ (s.onMotor m f).cores = s.cores ∧ (s.onMotor m f).ctls = s.ctls ∧
    (s.onMotor m f).ledge = s.ledge ∧ (s.onMotor m f).mesh = s.mesh ∧ (s.onMotor m f).hbm = s.hbm ∧
    (s.onMotor m f).arbs = s.arbs ∧ (s.onMotor m f).arbSels = s.arbSels ∧ (s.onMotor m f).ctx = s.ctx ∧
    (s.onMotor m f).fence = s.fence ∧ (s.onMotor m f).fab = s.fab ∧ (s.onMotor m f).host = s.host ∧
    (s.onMotor m f).glob = s.glob ∧ (s.onMotor m f).pwr = s.pwr ∧ (s.onMotor m f).sec = s.sec ∧
    (s.onMotor m f).dbg = s.dbg ∧ (s.onMotor m f).evts = s.evts ∧ (s.onMotor m f).thm = s.thm ∧
    (s.onMotor m f).cool = s.cool ∧ (s.onMotor m f).loop = s.loop ∧ (s.onMotor m f).cbus = s.cbus ∧
    (s.onMotor m f).hut = s.hut ∧ (s.onMotor m f).cairn = s.cairn ∧ (s.onMotor m f).fresh = s.fresh := by
  (repeat' apply And.intro) <;> rfl
@[simp] theorem onInput_same (k : Nat) (f : Input → Input) :
    (s.onInput k f).pending = s.pending ∧ (s.onInput k f).reply = s.reply ∧ (s.onInput k f).env = s.env ∧
    (s.onInput k f).hdrs = s.hdrs ∧ (s.onInput k f).cores = s.cores ∧ (s.onInput k f).ctls = s.ctls ∧
    (s.onInput k f).ledge = s.ledge ∧ (s.onInput k f).mesh = s.mesh ∧ (s.onInput k f).hbm = s.hbm ∧
    (s.onInput k f).arbs = s.arbs ∧ (s.onInput k f).arbSels = s.arbSels ∧ (s.onInput k f).ctx = s.ctx ∧
    (s.onInput k f).fence = s.fence ∧ (s.onInput k f).fab = s.fab ∧ (s.onInput k f).host = s.host ∧
    (s.onInput k f).glob = s.glob ∧ (s.onInput k f).pwr = s.pwr ∧ (s.onInput k f).sec = s.sec ∧
    (s.onInput k f).dbg = s.dbg ∧ (s.onInput k f).evts = s.evts ∧ (s.onInput k f).thm = s.thm ∧
    (s.onInput k f).cool = s.cool ∧ (s.onInput k f).loop = s.loop ∧ (s.onInput k f).cbus = s.cbus ∧
    (s.onInput k f).hut = s.hut ∧ (s.onInput k f).cairn = s.cairn ∧ (s.onInput k f).fresh = s.fresh := by
  (repeat' apply And.intro) <;> rfl
@[simp] theorem onRope_same (r : Nat) (f : Rope → Rope) :
    (s.onRope r f).pending = s.pending ∧ (s.onRope r f).reply = s.reply ∧ (s.onRope r f).env = s.env ∧
    (s.onRope r f).hdrs = s.hdrs ∧ (s.onRope r f).cores = s.cores ∧ (s.onRope r f).ctls = s.ctls ∧
    (s.onRope r f).ledge = s.ledge ∧ (s.onRope r f).mesh = s.mesh ∧ (s.onRope r f).hbm = s.hbm ∧
    (s.onRope r f).arbs = s.arbs ∧ (s.onRope r f).arbSels = s.arbSels ∧ (s.onRope r f).ctx = s.ctx ∧
    (s.onRope r f).fence = s.fence ∧ (s.onRope r f).fab = s.fab ∧ (s.onRope r f).host = s.host ∧
    (s.onRope r f).glob = s.glob ∧ (s.onRope r f).pwr = s.pwr ∧ (s.onRope r f).sec = s.sec ∧ (s.onRope r f).dbg = s.dbg ∧
    (s.onRope r f).evts = s.evts ∧ (s.onRope r f).thm = s.thm ∧ (s.onRope r f).cool = s.cool ∧
    (s.onRope r f).loop = s.loop ∧ (s.onRope r f).cbus = s.cbus ∧ (s.onRope r f).hut = s.hut ∧
    (s.onRope r f).cairn = s.cairn ∧ (s.onRope r f).fresh = s.fresh := by
  (repeat' apply And.intro) <;> rfl
@[simp] theorem onVec_same (f k : Nat) (g : MsixVec → MsixVec) :
    (s.onVec f k g).pending = s.pending ∧ (s.onVec f k g).reply = s.reply ∧ (s.onVec f k g).env = s.env ∧
    (s.onVec f k g).hdrs = s.hdrs ∧ (s.onVec f k g).cores = s.cores ∧ (s.onVec f k g).ctls = s.ctls ∧
    (s.onVec f k g).ledge = s.ledge ∧ (s.onVec f k g).mesh = s.mesh ∧ (s.onVec f k g).hbm = s.hbm ∧
    (s.onVec f k g).arbs = s.arbs ∧ (s.onVec f k g).arbSels = s.arbSels ∧ (s.onVec f k g).ctx = s.ctx ∧
    (s.onVec f k g).fence = s.fence ∧ (s.onVec f k g).fab = s.fab ∧ (s.onVec f k g).glob = s.glob ∧
    (s.onVec f k g).pwr = s.pwr ∧ (s.onVec f k g).sec = s.sec ∧ (s.onVec f k g).dbg = s.dbg ∧
    (s.onVec f k g).evts = s.evts ∧ (s.onVec f k g).thm = s.thm ∧ (s.onVec f k g).cool = s.cool ∧
    (s.onVec f k g).loop = s.loop ∧ (s.onVec f k g).drv = s.drv ∧ (s.onVec f k g).cbus = s.cbus ∧
    (s.onVec f k g).hut = s.hut ∧ (s.onVec f k g).cairn = s.cairn ∧ (s.onVec f k g).fresh = s.fresh := by
  (repeat' apply And.intro) <;> rfl
@[simp] theorem onBook_same (f : Book → Book) :
    (s.onBook f).pending = s.pending ∧ (s.onBook f).reply = s.reply ∧ (s.onBook f).env = s.env ∧
    (s.onBook f).hdrs = s.hdrs ∧ (s.onBook f).cores = s.cores ∧ (s.onBook f).ctls = s.ctls ∧ (s.onBook f).ledge = s.ledge ∧
    (s.onBook f).mesh = s.mesh ∧ (s.onBook f).hbm = s.hbm ∧ (s.onBook f).arbs = s.arbs ∧ (s.onBook f).arbSels = s.arbSels ∧
    (s.onBook f).ctx = s.ctx ∧ (s.onBook f).fence = s.fence ∧ (s.onBook f).fab = s.fab ∧ (s.onBook f).host = s.host ∧
    (s.onBook f).glob = s.glob ∧ (s.onBook f).pwr = s.pwr ∧ (s.onBook f).sec = s.sec ∧ (s.onBook f).dbg = s.dbg ∧
    (s.onBook f).evts = s.evts ∧ (s.onBook f).thm = s.thm ∧ (s.onBook f).cool = s.cool ∧ (s.onBook f).loop = s.loop ∧
    (s.onBook f).drv = s.drv ∧ (s.onBook f).cbus = s.cbus ∧ (s.onBook f).cairn = s.cairn ∧ (s.onBook f).fresh = s.fresh := by
  (repeat' apply And.intro) <;> rfl
@[simp] theorem onSess_same (d : Bool) (k : Nat) (f : Session → Session) :
    (s.onSess d k f).pending = s.pending ∧ (s.onSess d k f).reply = s.reply ∧ (s.onSess d k f).env = s.env ∧
    (s.onSess d k f).hdrs = s.hdrs ∧ (s.onSess d k f).cores = s.cores ∧ (s.onSess d k f).ctls = s.ctls ∧
    (s.onSess d k f).ledge = s.ledge ∧ (s.onSess d k f).mesh = s.mesh ∧ (s.onSess d k f).hbm = s.hbm ∧
    (s.onSess d k f).arbs = s.arbs ∧ (s.onSess d k f).arbSels = s.arbSels ∧ (s.onSess d k f).ctx = s.ctx ∧
    (s.onSess d k f).fence = s.fence ∧ (s.onSess d k f).fab = s.fab ∧ (s.onSess d k f).host = s.host ∧
    (s.onSess d k f).glob = s.glob ∧ (s.onSess d k f).pwr = s.pwr ∧ (s.onSess d k f).dbg = s.dbg ∧
    (s.onSess d k f).evts = s.evts ∧ (s.onSess d k f).thm = s.thm ∧ (s.onSess d k f).cool = s.cool ∧
    (s.onSess d k f).loop = s.loop ∧ (s.onSess d k f).drv = s.drv ∧ (s.onSess d k f).cbus = s.cbus ∧
    (s.onSess d k f).hut = s.hut ∧ (s.onSess d k f).cairn = s.cairn ∧ (s.onSess d k f).fresh = s.fresh := by
  cases d <;> (repeat' apply And.intro) <;> rfl
@[simp] theorem onHalf_same (c : Bool) (f : MboxHalf → MboxHalf) :
    (s.onHalf c f).pending = s.pending ∧ (s.onHalf c f).reply = s.reply ∧ (s.onHalf c f).env = s.env ∧
    (s.onHalf c f).hdrs = s.hdrs ∧ (s.onHalf c f).cores = s.cores ∧ (s.onHalf c f).ctls = s.ctls ∧
    (s.onHalf c f).ledge = s.ledge ∧ (s.onHalf c f).mesh = s.mesh ∧ (s.onHalf c f).hbm = s.hbm ∧
    (s.onHalf c f).arbs = s.arbs ∧ (s.onHalf c f).arbSels = s.arbSels ∧ (s.onHalf c f).ctx = s.ctx ∧
    (s.onHalf c f).fence = s.fence ∧ (s.onHalf c f).fab = s.fab ∧ (s.onHalf c f).host = s.host ∧
    (s.onHalf c f).glob = s.glob ∧ (s.onHalf c f).pwr = s.pwr ∧ (s.onHalf c f).sec = s.sec ∧ (s.onHalf c f).dbg = s.dbg ∧
    (s.onHalf c f).evts = s.evts ∧ (s.onHalf c f).thm = s.thm ∧ (s.onHalf c f).cool = s.cool ∧
    (s.onHalf c f).loop = s.loop ∧ (s.onHalf c f).drv = s.drv ∧ (s.onHalf c f).cbus = s.cbus ∧ (s.onHalf c f).hut = s.hut ∧
    (s.onHalf c f).fresh = s.fresh := by
  cases c <;> (repeat' apply And.intro) <;> rfl
@[simp] theorem setImg_same (k : Nat) (a : ImgArea) :
    (s.setImg k a).pending = s.pending ∧ (s.setImg k a).reply = s.reply ∧ (s.setImg k a).env = s.env ∧
    (s.setImg k a).hdrs = s.hdrs ∧ (s.setImg k a).cores = s.cores ∧ (s.setImg k a).ctls = s.ctls ∧
    (s.setImg k a).ledge = s.ledge ∧ (s.setImg k a).mesh = s.mesh ∧ (s.setImg k a).hbm = s.hbm ∧
    (s.setImg k a).arbs = s.arbs ∧ (s.setImg k a).arbSels = s.arbSels ∧ (s.setImg k a).ctx = s.ctx ∧
    (s.setImg k a).fence = s.fence ∧ (s.setImg k a).fab = s.fab ∧ (s.setImg k a).host = s.host ∧
    (s.setImg k a).glob = s.glob ∧ (s.setImg k a).pwr = s.pwr ∧ (s.setImg k a).sec = s.sec ∧ (s.setImg k a).dbg = s.dbg ∧
    (s.setImg k a).evts = s.evts ∧ (s.setImg k a).thm = s.thm ∧ (s.setImg k a).cool = s.cool ∧
    (s.setImg k a).loop = s.loop ∧ (s.setImg k a).drv = s.drv ∧ (s.setImg k a).cbus = s.cbus ∧ (s.setImg k a).hut = s.hut ∧
    (s.setImg k a).fresh = s.fresh := by
  (repeat' apply And.intro) <;> rfl
@[simp] theorem onSensor_same (k : Nat) (f : Sensor → Sensor) :
    (s.onSensor k f).pending = s.pending ∧ (s.onSensor k f).reply = s.reply ∧ (s.onSensor k f).env = s.env ∧
    (s.onSensor k f).hdrs = s.hdrs ∧ (s.onSensor k f).cores = s.cores ∧ (s.onSensor k f).ctls = s.ctls ∧
    (s.onSensor k f).ledge = s.ledge ∧ (s.onSensor k f).mesh = s.mesh ∧ (s.onSensor k f).hbm = s.hbm ∧
    (s.onSensor k f).arbs = s.arbs ∧ (s.onSensor k f).arbSels = s.arbSels ∧ (s.onSensor k f).ctx = s.ctx ∧
    (s.onSensor k f).fence = s.fence ∧ (s.onSensor k f).fab = s.fab ∧ (s.onSensor k f).host = s.host ∧
    (s.onSensor k f).glob = s.glob ∧ (s.onSensor k f).pwr = s.pwr ∧ (s.onSensor k f).sec = s.sec ∧
    (s.onSensor k f).dbg = s.dbg ∧ (s.onSensor k f).evts = s.evts ∧ (s.onSensor k f).cool = s.cool ∧
    (s.onSensor k f).loop = s.loop ∧ (s.onSensor k f).drv = s.drv ∧ (s.onSensor k f).cbus = s.cbus ∧
    (s.onSensor k f).hut = s.hut ∧ (s.onSensor k f).cairn = s.cairn ∧ (s.onSensor k f).fresh = s.fresh := by
  (repeat' apply And.intro) <;> rfl
@[simp] theorem onMark_same (k : Nat) (f : Sensor → Sensor) :
    (s.onMark k f).pending = s.pending ∧ (s.onMark k f).reply = s.reply ∧ (s.onMark k f).env = s.env ∧
    (s.onMark k f).hdrs = s.hdrs ∧ (s.onMark k f).cores = s.cores ∧ (s.onMark k f).ctls = s.ctls ∧
    (s.onMark k f).ledge = s.ledge ∧ (s.onMark k f).mesh = s.mesh ∧ (s.onMark k f).hbm = s.hbm ∧
    (s.onMark k f).arbs = s.arbs ∧ (s.onMark k f).arbSels = s.arbSels ∧ (s.onMark k f).ctx = s.ctx ∧
    (s.onMark k f).fence = s.fence ∧ (s.onMark k f).fab = s.fab ∧ (s.onMark k f).host = s.host ∧
    (s.onMark k f).glob = s.glob ∧ (s.onMark k f).pwr = s.pwr ∧ (s.onMark k f).sec = s.sec ∧ (s.onMark k f).dbg = s.dbg ∧
    (s.onMark k f).evts = s.evts ∧ (s.onMark k f).thm = s.thm ∧ (s.onMark k f).loop = s.loop ∧ (s.onMark k f).drv = s.drv ∧
    (s.onMark k f).cbus = s.cbus ∧ (s.onMark k f).hut = s.hut ∧ (s.onMark k f).cairn = s.cairn ∧
    (s.onMark k f).fresh = s.fresh := by
  (repeat' apply And.intro) <;> rfl
@[simp] theorem setColl_same (x k : Nat) (c : Option Coll) :
    (s.setColl x k c).pending = s.pending ∧ (s.setColl x k c).reply = s.reply ∧ (s.setColl x k c).env = s.env ∧
    (s.setColl x k c).hdrs = s.hdrs ∧ (s.setColl x k c).cores = s.cores ∧ (s.setColl x k c).ctls = s.ctls ∧
    (s.setColl x k c).ledge = s.ledge ∧ (s.setColl x k c).mesh = s.mesh ∧ (s.setColl x k c).hbm = s.hbm ∧
    (s.setColl x k c).arbs = s.arbs ∧ (s.setColl x k c).arbSels = s.arbSels ∧ (s.setColl x k c).ctx = s.ctx ∧
    (s.setColl x k c).fence = s.fence ∧ (s.setColl x k c).host = s.host ∧ (s.setColl x k c).glob = s.glob ∧
    (s.setColl x k c).pwr = s.pwr ∧ (s.setColl x k c).sec = s.sec ∧ (s.setColl x k c).dbg = s.dbg ∧
    (s.setColl x k c).evts = s.evts ∧ (s.setColl x k c).thm = s.thm ∧ (s.setColl x k c).cool = s.cool ∧
    (s.setColl x k c).loop = s.loop ∧ (s.setColl x k c).drv = s.drv ∧ (s.setColl x k c).cbus = s.cbus ∧
    (s.setColl x k c).hut = s.hut ∧ (s.setColl x k c).cairn = s.cairn ∧ (s.setColl x k c).fresh = s.fresh := by
  (repeat' apply And.intro) <;> rfl
@[simp] theorem sendVec_same (f v : Nat) :
    (sendVec f v s).pending = s.pending ∧ (sendVec f v s).reply = s.reply ∧ (sendVec f v s).env = s.env ∧
    (sendVec f v s).hdrs = s.hdrs ∧ (sendVec f v s).cores = s.cores ∧ (sendVec f v s).ctls = s.ctls ∧
    (sendVec f v s).ledge = s.ledge ∧ (sendVec f v s).mesh = s.mesh ∧ (sendVec f v s).hbm = s.hbm ∧
    (sendVec f v s).arbs = s.arbs ∧ (sendVec f v s).arbSels = s.arbSels ∧ (sendVec f v s).ctx = s.ctx ∧
    (sendVec f v s).fence = s.fence ∧ (sendVec f v s).fab = s.fab ∧ (sendVec f v s).glob = s.glob ∧
    (sendVec f v s).pwr = s.pwr ∧ (sendVec f v s).sec = s.sec ∧ (sendVec f v s).dbg = s.dbg ∧
    (sendVec f v s).evts = s.evts ∧ (sendVec f v s).thm = s.thm ∧ (sendVec f v s).cool = s.cool ∧
    (sendVec f v s).loop = s.loop ∧ (sendVec f v s).drv = s.drv ∧ (sendVec f v s).cbus = s.cbus ∧
    (sendVec f v s).hut = s.hut ∧ (sendVec f v s).cairn = s.cairn ∧ (sendVec f v s).fresh = s.fresh := by
  unfold sendVec; simp
@[simp] theorem pendSource_same (n : Nat) :
    (pendSource n s).pending = s.pending ∧ (pendSource n s).reply = s.reply ∧ (pendSource n s).env = s.env ∧
    (pendSource n s).hdrs = s.hdrs ∧ (pendSource n s).cores = s.cores ∧ (pendSource n s).ctls = s.ctls ∧
    (pendSource n s).ledge = s.ledge ∧ (pendSource n s).mesh = s.mesh ∧ (pendSource n s).hbm = s.hbm ∧
    (pendSource n s).arbs = s.arbs ∧ (pendSource n s).arbSels = s.arbSels ∧ (pendSource n s).ctx = s.ctx ∧
    (pendSource n s).fence = s.fence ∧ (pendSource n s).fab = s.fab ∧ (pendSource n s).pwr = s.pwr ∧
    (pendSource n s).sec = s.sec ∧ (pendSource n s).dbg = s.dbg ∧ (pendSource n s).evts = s.evts ∧
    (pendSource n s).thm = s.thm ∧ (pendSource n s).cool = s.cool ∧ (pendSource n s).loop = s.loop ∧
    (pendSource n s).drv = s.drv ∧ (pendSource n s).cbus = s.cbus ∧ (pendSource n s).hut = s.hut ∧
    (pendSource n s).cairn = s.cairn ∧ (pendSource n s).fresh = s.fresh := by
  unfold pendSource; dsimp only; split <;> simp
@[simp] theorem signalPage_same (p : Nat) :
    (signalPage p s).pending = s.pending ∧ (signalPage p s).reply = s.reply ∧ (signalPage p s).env = s.env ∧
    (signalPage p s).hdrs = s.hdrs ∧ (signalPage p s).cores = s.cores ∧ (signalPage p s).ctls = s.ctls ∧
    (signalPage p s).ledge = s.ledge ∧ (signalPage p s).mesh = s.mesh ∧ (signalPage p s).hbm = s.hbm ∧
    (signalPage p s).arbs = s.arbs ∧ (signalPage p s).arbSels = s.arbSels ∧ (signalPage p s).ctx = s.ctx ∧
    (signalPage p s).fence = s.fence ∧ (signalPage p s).fab = s.fab ∧ (signalPage p s).pwr = s.pwr ∧
    (signalPage p s).sec = s.sec ∧ (signalPage p s).dbg = s.dbg ∧ (signalPage p s).evts = s.evts ∧
    (signalPage p s).thm = s.thm ∧ (signalPage p s).cool = s.cool ∧ (signalPage p s).loop = s.loop ∧
    (signalPage p s).drv = s.drv ∧ (signalPage p s).cbus = s.cbus ∧ (signalPage p s).hut = s.hut ∧
    (signalPage p s).cairn = s.cairn ∧ (signalPage p s).fresh = s.fresh := by
  unfold signalPage; (repeat' split) <;> simp
@[simp] theorem raiseBits_same (p : Nat) (b : Word) :
    (raiseBits p b s).pending = s.pending ∧ (raiseBits p b s).reply = s.reply ∧ (raiseBits p b s).env = s.env ∧
    (raiseBits p b s).cores = s.cores ∧ (raiseBits p b s).ctls = s.ctls ∧ (raiseBits p b s).ledge = s.ledge ∧
    (raiseBits p b s).mesh = s.mesh ∧ (raiseBits p b s).hbm = s.hbm ∧ (raiseBits p b s).arbs = s.arbs ∧
    (raiseBits p b s).arbSels = s.arbSels ∧ (raiseBits p b s).ctx = s.ctx ∧ (raiseBits p b s).fence = s.fence ∧
    (raiseBits p b s).fab = s.fab ∧ (raiseBits p b s).pwr = s.pwr ∧ (raiseBits p b s).sec = s.sec ∧
    (raiseBits p b s).dbg = s.dbg ∧ (raiseBits p b s).evts = s.evts ∧ (raiseBits p b s).thm = s.thm ∧
    (raiseBits p b s).cool = s.cool ∧ (raiseBits p b s).loop = s.loop ∧ (raiseBits p b s).drv = s.drv ∧
    (raiseBits p b s).cbus = s.cbus ∧ (raiseBits p b s).hut = s.hut ∧ (raiseBits p b s).cairn = s.cairn ∧
    (raiseBits p b s).fresh = s.fresh := by
  unfold raiseBits; simp; try (repeat' split) <;> simp
@[simp] theorem raise_same (p n : Nat) :
    (raise p n s).pending = s.pending ∧ (raise p n s).reply = s.reply ∧ (raise p n s).env = s.env ∧
    (raise p n s).cores = s.cores ∧ (raise p n s).ctls = s.ctls ∧ (raise p n s).ledge = s.ledge ∧
    (raise p n s).mesh = s.mesh ∧ (raise p n s).hbm = s.hbm ∧ (raise p n s).arbs = s.arbs ∧
    (raise p n s).arbSels = s.arbSels ∧ (raise p n s).ctx = s.ctx ∧ (raise p n s).fence = s.fence ∧
    (raise p n s).fab = s.fab ∧ (raise p n s).pwr = s.pwr ∧ (raise p n s).sec = s.sec ∧ (raise p n s).dbg = s.dbg ∧
    (raise p n s).evts = s.evts ∧ (raise p n s).thm = s.thm ∧ (raise p n s).cool = s.cool ∧ (raise p n s).loop = s.loop ∧
    (raise p n s).drv = s.drv ∧ (raise p n s).cbus = s.cbus ∧ (raise p n s).hut = s.hut ∧ (raise p n s).cairn = s.cairn ∧
    (raise p n s).fresh = s.fresh := by
  unfold raise; simp
@[simp] theorem errTrans_same (p : Nat) :
    (errTrans p s).pending = s.pending ∧ (errTrans p s).reply = s.reply ∧ (errTrans p s).env = s.env ∧
    (errTrans p s).cores = s.cores ∧ (errTrans p s).ctls = s.ctls ∧ (errTrans p s).ledge = s.ledge ∧
    (errTrans p s).mesh = s.mesh ∧ (errTrans p s).hbm = s.hbm ∧ (errTrans p s).arbs = s.arbs ∧
    (errTrans p s).arbSels = s.arbSels ∧ (errTrans p s).ctx = s.ctx ∧ (errTrans p s).fence = s.fence ∧
    (errTrans p s).fab = s.fab ∧ (errTrans p s).host = s.host ∧ (errTrans p s).glob = s.glob ∧ (errTrans p s).pwr = s.pwr ∧
    (errTrans p s).sec = s.sec ∧ (errTrans p s).dbg = s.dbg ∧ (errTrans p s).evts = s.evts ∧ (errTrans p s).thm = s.thm ∧
    (errTrans p s).cool = s.cool ∧ (errTrans p s).loop = s.loop ∧ (errTrans p s).drv = s.drv ∧
    (errTrans p s).cbus = s.cbus ∧ (errTrans p s).hut = s.hut ∧ (errTrans p s).cairn = s.cairn ∧
    (errTrans p s).fresh = s.fresh := by
  unfold errTrans; simp
@[simp] theorem errTransN_same (p n : Nat) :
    (errTransN p n s).pending = s.pending ∧ (errTransN p n s).reply = s.reply ∧ (errTransN p n s).env = s.env ∧
    (errTransN p n s).cores = s.cores ∧ (errTransN p n s).ctls = s.ctls ∧ (errTransN p n s).ledge = s.ledge ∧
    (errTransN p n s).mesh = s.mesh ∧ (errTransN p n s).hbm = s.hbm ∧ (errTransN p n s).arbs = s.arbs ∧
    (errTransN p n s).arbSels = s.arbSels ∧ (errTransN p n s).ctx = s.ctx ∧ (errTransN p n s).fence = s.fence ∧
    (errTransN p n s).fab = s.fab ∧ (errTransN p n s).host = s.host ∧ (errTransN p n s).glob = s.glob ∧
    (errTransN p n s).pwr = s.pwr ∧ (errTransN p n s).sec = s.sec ∧ (errTransN p n s).dbg = s.dbg ∧
    (errTransN p n s).evts = s.evts ∧ (errTransN p n s).thm = s.thm ∧ (errTransN p n s).cool = s.cool ∧
    (errTransN p n s).loop = s.loop ∧ (errTransN p n s).drv = s.drv ∧ (errTransN p n s).cbus = s.cbus ∧
    (errTransN p n s).hut = s.hut ∧ (errTransN p n s).cairn = s.cairn ∧ (errTransN p n s).fresh = s.fresh := by
  unfold errTransN; simp
@[simp] theorem errPerm_same (p : Nat) :
    (errPerm p s).pending = s.pending ∧ (errPerm p s).reply = s.reply ∧ (errPerm p s).env = s.env ∧
    (errPerm p s).cores = s.cores ∧ (errPerm p s).ctls = s.ctls ∧ (errPerm p s).ledge = s.ledge ∧
    (errPerm p s).mesh = s.mesh ∧ (errPerm p s).hbm = s.hbm ∧ (errPerm p s).arbs = s.arbs ∧
    (errPerm p s).arbSels = s.arbSels ∧ (errPerm p s).ctx = s.ctx ∧ (errPerm p s).fence = s.fence ∧
    (errPerm p s).fab = s.fab ∧ (errPerm p s).host = s.host ∧ (errPerm p s).glob = s.glob ∧ (errPerm p s).pwr = s.pwr ∧
    (errPerm p s).sec = s.sec ∧ (errPerm p s).dbg = s.dbg ∧ (errPerm p s).evts = s.evts ∧ (errPerm p s).thm = s.thm ∧
    (errPerm p s).cool = s.cool ∧ (errPerm p s).loop = s.loop ∧ (errPerm p s).drv = s.drv ∧ (errPerm p s).cbus = s.cbus ∧
    (errPerm p s).hut = s.hut ∧ (errPerm p s).cairn = s.cairn ∧ (errPerm p s).fresh = s.fresh := by
  unfold errPerm; simp
@[simp] theorem campEvent_same (c v a : Nat) :
    (campEvent c v a s).pending = s.pending ∧ (campEvent c v a s).reply = s.reply ∧ (campEvent c v a s).env = s.env ∧
    (campEvent c v a s).cores = s.cores ∧ (campEvent c v a s).ctls = s.ctls ∧ (campEvent c v a s).ledge = s.ledge ∧
    (campEvent c v a s).mesh = s.mesh ∧ (campEvent c v a s).hbm = s.hbm ∧ (campEvent c v a s).arbs = s.arbs ∧
    (campEvent c v a s).arbSels = s.arbSels ∧ (campEvent c v a s).ctx = s.ctx ∧ (campEvent c v a s).fence = s.fence ∧
    (campEvent c v a s).fab = s.fab ∧ (campEvent c v a s).pwr = s.pwr ∧ (campEvent c v a s).sec = s.sec ∧
    (campEvent c v a s).dbg = s.dbg ∧ (campEvent c v a s).thm = s.thm ∧ (campEvent c v a s).cool = s.cool ∧
    (campEvent c v a s).loop = s.loop ∧ (campEvent c v a s).drv = s.drv ∧ (campEvent c v a s).cbus = s.cbus ∧
    (campEvent c v a s).hut = s.hut ∧ (campEvent c v a s).cairn = s.cairn ∧ (campEvent c v a s).fresh = s.fresh := by
  unfold campEvent; simp; try (repeat' split) <;> simp
@[simp] theorem capChange_same  :
    (capChange s).pending = s.pending ∧ (capChange s).reply = s.reply ∧ (capChange s).env = s.env ∧
    (capChange s).cores = s.cores ∧ (capChange s).ctls = s.ctls ∧ (capChange s).ledge = s.ledge ∧
    (capChange s).mesh = s.mesh ∧ (capChange s).hbm = s.hbm ∧ (capChange s).arbs = s.arbs ∧
    (capChange s).arbSels = s.arbSels ∧ (capChange s).ctx = s.ctx ∧ (capChange s).fence = s.fence ∧
    (capChange s).fab = s.fab ∧ (capChange s).pwr = s.pwr ∧ (capChange s).sec = s.sec ∧ (capChange s).dbg = s.dbg ∧
    (capChange s).evts = s.evts ∧ (capChange s).thm = s.thm ∧ (capChange s).cool = s.cool ∧ (capChange s).loop = s.loop ∧
    (capChange s).drv = s.drv ∧ (capChange s).cbus = s.cbus ∧ (capChange s).hut = s.hut ∧ (capChange s).cairn = s.cairn ∧
    (capChange s).fresh = s.fresh := by
  unfold capChange; simp
@[simp] theorem noteUse_same (u e : Nat) :
    (noteUse u e s).pending = s.pending ∧ (noteUse u e s).reply = s.reply ∧ (noteUse u e s).env = s.env ∧
    (noteUse u e s).hdrs = s.hdrs ∧ (noteUse u e s).cores = s.cores ∧ (noteUse u e s).ctls = s.ctls ∧
    (noteUse u e s).ledge = s.ledge ∧ (noteUse u e s).mesh = s.mesh ∧ (noteUse u e s).hbm = s.hbm ∧
    (noteUse u e s).arbs = s.arbs ∧ (noteUse u e s).arbSels = s.arbSels ∧ (noteUse u e s).ctx = s.ctx ∧
    (noteUse u e s).fence = s.fence ∧ (noteUse u e s).fab = s.fab ∧ (noteUse u e s).host = s.host ∧
    (noteUse u e s).glob = s.glob ∧ (noteUse u e s).pwr = s.pwr ∧ (noteUse u e s).sec = s.sec ∧
    (noteUse u e s).dbg = s.dbg ∧ (noteUse u e s).evts = s.evts ∧ (noteUse u e s).cool = s.cool ∧
    (noteUse u e s).loop = s.loop ∧ (noteUse u e s).drv = s.drv ∧ (noteUse u e s).cbus = s.cbus ∧
    (noteUse u e s).hut = s.hut ∧ (noteUse u e s).cairn = s.cairn ∧ (noteUse u e s).fresh = s.fresh := by
  unfold noteUse; simp
@[simp] theorem noteSum_same (k c : Nat) (v : Int) :
    (noteSum k c v s).pending = s.pending ∧ (noteSum k c v s).reply = s.reply ∧ (noteSum k c v s).env = s.env ∧
    (noteSum k c v s).hdrs = s.hdrs ∧ (noteSum k c v s).cores = s.cores ∧ (noteSum k c v s).ctls = s.ctls ∧
    (noteSum k c v s).ledge = s.ledge ∧ (noteSum k c v s).mesh = s.mesh ∧ (noteSum k c v s).hbm = s.hbm ∧
    (noteSum k c v s).arbs = s.arbs ∧ (noteSum k c v s).arbSels = s.arbSels ∧ (noteSum k c v s).ctx = s.ctx ∧
    (noteSum k c v s).fence = s.fence ∧ (noteSum k c v s).fab = s.fab ∧ (noteSum k c v s).host = s.host ∧
    (noteSum k c v s).glob = s.glob ∧ (noteSum k c v s).pwr = s.pwr ∧ (noteSum k c v s).dbg = s.dbg ∧
    (noteSum k c v s).evts = s.evts ∧ (noteSum k c v s).thm = s.thm ∧ (noteSum k c v s).cool = s.cool ∧
    (noteSum k c v s).loop = s.loop ∧ (noteSum k c v s).drv = s.drv ∧ (noteSum k c v s).cbus = s.cbus ∧
    (noteSum k c v s).hut = s.hut ∧ (noteSum k c v s).cairn = s.cairn ∧ (noteSum k c v s).fresh = s.fresh := by
  unfold noteSum; simp
@[simp] theorem hutCount_same (c : Nat) (v : BitVec 16) (ts : DWord) (o : Bool) :
    (hutCount c v ts o s).pending = s.pending ∧ (hutCount c v ts o s).reply = s.reply ∧ (hutCount c v ts o s).env = s.env ∧
    (hutCount c v ts o s).cores = s.cores ∧ (hutCount c v ts o s).ctls = s.ctls ∧ (hutCount c v ts o s).ledge = s.ledge ∧
    (hutCount c v ts o s).mesh = s.mesh ∧ (hutCount c v ts o s).hbm = s.hbm ∧ (hutCount c v ts o s).arbs = s.arbs ∧
    (hutCount c v ts o s).arbSels = s.arbSels ∧ (hutCount c v ts o s).ctx = s.ctx ∧ (hutCount c v ts o s).fence = s.fence ∧
    (hutCount c v ts o s).fab = s.fab ∧ (hutCount c v ts o s).host = s.host ∧ (hutCount c v ts o s).glob = s.glob ∧
    (hutCount c v ts o s).pwr = s.pwr ∧ (hutCount c v ts o s).sec = s.sec ∧ (hutCount c v ts o s).dbg = s.dbg ∧
    (hutCount c v ts o s).evts = s.evts ∧ (hutCount c v ts o s).thm = s.thm ∧ (hutCount c v ts o s).cool = s.cool ∧
    (hutCount c v ts o s).loop = s.loop ∧ (hutCount c v ts o s).drv = s.drv ∧ (hutCount c v ts o s).cbus = s.cbus ∧
    (hutCount c v ts o s).cairn = s.cairn ∧ (hutCount c v ts o s).fresh = s.fresh := by
  unfold hutCount; simp [when]; try (repeat' split) <;> simp
@[simp] theorem hutRecord_same (c : Nat) (v : BitVec 16) (ts : DWord) (o d : Bool) (a : List Byte) :
    (hutRecord c v ts o d a s).pending = s.pending ∧ (hutRecord c v ts o d a s).reply = s.reply ∧
    (hutRecord c v ts o d a s).env = s.env ∧ (hutRecord c v ts o d a s).hdrs = s.hdrs ∧
    (hutRecord c v ts o d a s).cores = s.cores ∧ (hutRecord c v ts o d a s).ctls = s.ctls ∧
    (hutRecord c v ts o d a s).ledge = s.ledge ∧ (hutRecord c v ts o d a s).mesh = s.mesh ∧
    (hutRecord c v ts o d a s).hbm = s.hbm ∧ (hutRecord c v ts o d a s).arbs = s.arbs ∧
    (hutRecord c v ts o d a s).arbSels = s.arbSels ∧ (hutRecord c v ts o d a s).ctx = s.ctx ∧
    (hutRecord c v ts o d a s).fence = s.fence ∧ (hutRecord c v ts o d a s).fab = s.fab ∧
    (hutRecord c v ts o d a s).host = s.host ∧ (hutRecord c v ts o d a s).glob = s.glob ∧
    (hutRecord c v ts o d a s).pwr = s.pwr ∧ (hutRecord c v ts o d a s).sec = s.sec ∧
    (hutRecord c v ts o d a s).dbg = s.dbg ∧ (hutRecord c v ts o d a s).evts = s.evts ∧
    (hutRecord c v ts o d a s).thm = s.thm ∧ (hutRecord c v ts o d a s).cool = s.cool ∧
    (hutRecord c v ts o d a s).loop = s.loop ∧ (hutRecord c v ts o d a s).drv = s.drv ∧
    (hutRecord c v ts o d a s).cbus = s.cbus ∧ (hutRecord c v ts o d a s).cairn = s.cairn ∧
    (hutRecord c v ts o d a s).fresh = s.fresh := by
  unfold hutRecord; simp
@[simp] theorem hutAt_same (f d : Bool) (c : Nat) (v : BitVec 16) (a : List Byte) (ts : DWord) (o : Bool) :
    (hutAt f d c v a ts o s).pending = s.pending ∧ (hutAt f d c v a ts o s).reply = s.reply ∧
    (hutAt f d c v a ts o s).env = s.env ∧ (hutAt f d c v a ts o s).cores = s.cores ∧
    (hutAt f d c v a ts o s).ctls = s.ctls ∧ (hutAt f d c v a ts o s).ledge = s.ledge ∧
    (hutAt f d c v a ts o s).mesh = s.mesh ∧ (hutAt f d c v a ts o s).hbm = s.hbm ∧ (hutAt f d c v a ts o s).arbs = s.arbs ∧
    (hutAt f d c v a ts o s).arbSels = s.arbSels ∧ (hutAt f d c v a ts o s).ctx = s.ctx ∧
    (hutAt f d c v a ts o s).fence = s.fence ∧ (hutAt f d c v a ts o s).fab = s.fab ∧
    (hutAt f d c v a ts o s).host = s.host ∧ (hutAt f d c v a ts o s).glob = s.glob ∧ (hutAt f d c v a ts o s).pwr = s.pwr ∧
    (hutAt f d c v a ts o s).sec = s.sec ∧ (hutAt f d c v a ts o s).dbg = s.dbg ∧ (hutAt f d c v a ts o s).evts = s.evts ∧
    (hutAt f d c v a ts o s).thm = s.thm ∧ (hutAt f d c v a ts o s).cool = s.cool ∧ (hutAt f d c v a ts o s).loop = s.loop ∧
    (hutAt f d c v a ts o s).drv = s.drv ∧ (hutAt f d c v a ts o s).cbus = s.cbus ∧
    (hutAt f d c v a ts o s).cairn = s.cairn ∧ (hutAt f d c v a ts o s).fresh = s.fresh := by
  unfold hutAt; simp; try (repeat' split) <;> simp
@[simp] theorem cairnEvent_same (c v : Nat) (a : List Byte) :
    (cairnEvent c v a s).pending = s.pending ∧ (cairnEvent c v a s).reply = s.reply ∧ (cairnEvent c v a s).env = s.env ∧
    (cairnEvent c v a s).cores = s.cores ∧ (cairnEvent c v a s).ctls = s.ctls ∧ (cairnEvent c v a s).ledge = s.ledge ∧
    (cairnEvent c v a s).mesh = s.mesh ∧ (cairnEvent c v a s).hbm = s.hbm ∧ (cairnEvent c v a s).arbs = s.arbs ∧
    (cairnEvent c v a s).arbSels = s.arbSels ∧ (cairnEvent c v a s).ctx = s.ctx ∧ (cairnEvent c v a s).fence = s.fence ∧
    (cairnEvent c v a s).fab = s.fab ∧ (cairnEvent c v a s).host = s.host ∧ (cairnEvent c v a s).glob = s.glob ∧
    (cairnEvent c v a s).pwr = s.pwr ∧ (cairnEvent c v a s).sec = s.sec ∧ (cairnEvent c v a s).dbg = s.dbg ∧
    (cairnEvent c v a s).evts = s.evts ∧ (cairnEvent c v a s).thm = s.thm ∧ (cairnEvent c v a s).cool = s.cool ∧
    (cairnEvent c v a s).loop = s.loop ∧ (cairnEvent c v a s).drv = s.drv ∧ (cairnEvent c v a s).cbus = s.cbus ∧
    (cairnEvent c v a s).cairn = s.cairn ∧ (cairnEvent c v a s).fresh = s.fresh := by
  unfold cairnEvent; simp
@[simp] theorem cairnCount_same (c v : Nat) :
    (cairnCount c v s).pending = s.pending ∧ (cairnCount c v s).reply = s.reply ∧ (cairnCount c v s).env = s.env ∧
    (cairnCount c v s).cores = s.cores ∧ (cairnCount c v s).ctls = s.ctls ∧ (cairnCount c v s).ledge = s.ledge ∧
    (cairnCount c v s).mesh = s.mesh ∧ (cairnCount c v s).hbm = s.hbm ∧ (cairnCount c v s).arbs = s.arbs ∧
    (cairnCount c v s).arbSels = s.arbSels ∧ (cairnCount c v s).ctx = s.ctx ∧ (cairnCount c v s).fence = s.fence ∧
    (cairnCount c v s).fab = s.fab ∧ (cairnCount c v s).host = s.host ∧ (cairnCount c v s).glob = s.glob ∧
    (cairnCount c v s).pwr = s.pwr ∧ (cairnCount c v s).sec = s.sec ∧ (cairnCount c v s).dbg = s.dbg ∧
    (cairnCount c v s).evts = s.evts ∧ (cairnCount c v s).thm = s.thm ∧ (cairnCount c v s).cool = s.cool ∧
    (cairnCount c v s).loop = s.loop ∧ (cairnCount c v s).drv = s.drv ∧ (cairnCount c v s).cbus = s.cbus ∧
    (cairnCount c v s).cairn = s.cairn ∧ (cairnCount c v s).fresh = s.fresh := by
  unfold cairnCount; (repeat' split) <;> simp
@[simp] theorem cairnEventForced_same (c v : Nat) :
    (cairnEventForced c v s).pending = s.pending ∧ (cairnEventForced c v s).reply = s.reply ∧
    (cairnEventForced c v s).env = s.env ∧ (cairnEventForced c v s).cores = s.cores ∧
    (cairnEventForced c v s).ctls = s.ctls ∧ (cairnEventForced c v s).ledge = s.ledge ∧
    (cairnEventForced c v s).mesh = s.mesh ∧ (cairnEventForced c v s).hbm = s.hbm ∧ (cairnEventForced c v s).arbs = s.arbs ∧
    (cairnEventForced c v s).arbSels = s.arbSels ∧ (cairnEventForced c v s).ctx = s.ctx ∧
    (cairnEventForced c v s).fence = s.fence ∧ (cairnEventForced c v s).fab = s.fab ∧
    (cairnEventForced c v s).host = s.host ∧ (cairnEventForced c v s).glob = s.glob ∧ (cairnEventForced c v s).pwr = s.pwr ∧
    (cairnEventForced c v s).sec = s.sec ∧ (cairnEventForced c v s).dbg = s.dbg ∧ (cairnEventForced c v s).evts = s.evts ∧
    (cairnEventForced c v s).thm = s.thm ∧ (cairnEventForced c v s).cool = s.cool ∧ (cairnEventForced c v s).loop = s.loop ∧
    (cairnEventForced c v s).drv = s.drv ∧ (cairnEventForced c v s).cbus = s.cbus ∧
    (cairnEventForced c v s).cairn = s.cairn ∧ (cairnEventForced c v s).fresh = s.fresh := by
  unfold cairnEventForced; simp
@[simp] theorem flushBook_same  :
    (flushBook s).pending = s.pending ∧ (flushBook s).reply = s.reply ∧ (flushBook s).env = s.env ∧
    (flushBook s).cores = s.cores ∧ (flushBook s).ctls = s.ctls ∧ (flushBook s).ledge = s.ledge ∧
    (flushBook s).mesh = s.mesh ∧ (flushBook s).hbm = s.hbm ∧ (flushBook s).arbs = s.arbs ∧
    (flushBook s).arbSels = s.arbSels ∧ (flushBook s).ctx = s.ctx ∧ (flushBook s).fence = s.fence ∧
    (flushBook s).fab = s.fab ∧ (flushBook s).pwr = s.pwr ∧ (flushBook s).sec = s.sec ∧ (flushBook s).dbg = s.dbg ∧
    (flushBook s).evts = s.evts ∧ (flushBook s).thm = s.thm ∧ (flushBook s).cool = s.cool ∧ (flushBook s).loop = s.loop ∧
    (flushBook s).drv = s.drv ∧ (flushBook s).cbus = s.cbus ∧ (flushBook s).cairn = s.cairn ∧ (flushBook s).fresh = s.fresh := by
  unfold flushBook; simp
@[simp] theorem deliver_same (f : Nat) (r : HoldRec) :
    (deliver f r s).pending = s.pending ∧ (deliver f r s).reply = s.reply ∧ (deliver f r s).env = s.env ∧
    (deliver f r s).cores = s.cores ∧ (deliver f r s).ctls = s.ctls ∧ (deliver f r s).ledge = s.ledge ∧
    (deliver f r s).mesh = s.mesh ∧ (deliver f r s).hbm = s.hbm ∧ (deliver f r s).arbs = s.arbs ∧
    (deliver f r s).arbSels = s.arbSels ∧ (deliver f r s).ctx = s.ctx ∧ (deliver f r s).fence = s.fence ∧
    (deliver f r s).fab = s.fab ∧ (deliver f r s).pwr = s.pwr ∧ (deliver f r s).sec = s.sec ∧ (deliver f r s).dbg = s.dbg ∧
    (deliver f r s).evts = s.evts ∧ (deliver f r s).thm = s.thm ∧ (deliver f r s).cool = s.cool ∧
    (deliver f r s).loop = s.loop ∧ (deliver f r s).drv = s.drv ∧ (deliver f r s).cbus = s.cbus ∧
    (deliver f r s).hut = s.hut ∧ (deliver f r s).cairn = s.cairn ∧ (deliver f r s).fresh = s.fresh := by
  unfold deliver; dsimp only [when]; split <;> simp
@[simp] theorem closeCmd_same (c : CmdSrc) (k : Nat) (b : List Byte) :
    (closeCmd c k b s).pending = s.pending ∧ (closeCmd c k b s).reply = s.reply ∧ (closeCmd c k b s).env = s.env ∧
    (closeCmd c k b s).cores = s.cores ∧ (closeCmd c k b s).ctls = s.ctls ∧ (closeCmd c k b s).ledge = s.ledge ∧
    (closeCmd c k b s).mesh = s.mesh ∧ (closeCmd c k b s).hbm = s.hbm ∧ (closeCmd c k b s).arbs = s.arbs ∧
    (closeCmd c k b s).arbSels = s.arbSels ∧ (closeCmd c k b s).ctx = s.ctx ∧ (closeCmd c k b s).fence = s.fence ∧
    (closeCmd c k b s).fab = s.fab ∧ (closeCmd c k b s).pwr = s.pwr ∧ (closeCmd c k b s).sec = s.sec ∧
    (closeCmd c k b s).dbg = s.dbg ∧ (closeCmd c k b s).evts = s.evts ∧ (closeCmd c k b s).thm = s.thm ∧
    (closeCmd c k b s).cool = s.cool ∧ (closeCmd c k b s).loop = s.loop ∧ (closeCmd c k b s).drv = s.drv ∧
    (closeCmd c k b s).cbus = s.cbus ∧ (closeCmd c k b s).hut = s.hut ∧ (closeCmd c k b s).cairn = s.cairn ∧
    (closeCmd c k b s).fresh = s.fresh := by
  unfold closeCmd; simp
@[simp] theorem drainNops_same : ∀ (n f i : Nat) (s : State),
    (drainNops n f i s).pending = s.pending ∧ (drainNops n f i s).reply = s.reply ∧ (drainNops n f i s).env = s.env ∧
    (drainNops n f i s).cores = s.cores ∧ (drainNops n f i s).ctls = s.ctls ∧ (drainNops n f i s).ledge = s.ledge ∧
    (drainNops n f i s).mesh = s.mesh ∧ (drainNops n f i s).hbm = s.hbm ∧ (drainNops n f i s).arbs = s.arbs ∧
    (drainNops n f i s).arbSels = s.arbSels ∧ (drainNops n f i s).ctx = s.ctx ∧ (drainNops n f i s).fence = s.fence ∧
    (drainNops n f i s).fab = s.fab ∧ (drainNops n f i s).pwr = s.pwr ∧ (drainNops n f i s).sec = s.sec ∧
    (drainNops n f i s).dbg = s.dbg ∧ (drainNops n f i s).evts = s.evts ∧ (drainNops n f i s).thm = s.thm ∧
    (drainNops n f i s).cool = s.cool ∧ (drainNops n f i s).loop = s.loop ∧ (drainNops n f i s).drv = s.drv ∧
    (drainNops n f i s).cbus = s.cbus ∧ (drainNops n f i s).hut = s.hut ∧ (drainNops n f i s).cairn = s.cairn ∧
    (drainNops n f i s).fresh = s.fresh
  | 0, _, _, _ => by simp [drainNops]
  | n + 1, f, i, s => by
    unfold drainNops
    split
    · simp
    · split
      · simp
      · simp only [drainNops_same n]; simp
@[simp] theorem finish_same (c : CmdSrc) (k : Nat) (b : List Byte) :
    (finish c k b s).pending = s.pending ∧ (finish c k b s).reply = s.reply ∧ (finish c k b s).env = s.env ∧
    (finish c k b s).cores = s.cores ∧ (finish c k b s).ctls = s.ctls ∧ (finish c k b s).ledge = s.ledge ∧
    (finish c k b s).mesh = s.mesh ∧ (finish c k b s).hbm = s.hbm ∧ (finish c k b s).arbs = s.arbs ∧
    (finish c k b s).arbSels = s.arbSels ∧ (finish c k b s).ctx = s.ctx ∧ (finish c k b s).fence = s.fence ∧
    (finish c k b s).fab = s.fab ∧ (finish c k b s).pwr = s.pwr ∧ (finish c k b s).sec = s.sec ∧
    (finish c k b s).dbg = s.dbg ∧ (finish c k b s).evts = s.evts ∧ (finish c k b s).thm = s.thm ∧
    (finish c k b s).cool = s.cool ∧ (finish c k b s).loop = s.loop ∧ (finish c k b s).drv = s.drv ∧
    (finish c k b s).cbus = s.cbus ∧ (finish c k b s).hut = s.hut ∧ (finish c k b s).cairn = s.cairn ∧
    (finish c k b s).fresh = s.fresh := by
  unfold finish; simp
@[simp] theorem finishGeneric_same (c : CmdSrc) (st : Status) (v : Nat) :
    (finishGeneric c st v s).pending = s.pending ∧ (finishGeneric c st v s).env = s.env ∧
    (finishGeneric c st v s).cores = s.cores ∧ (finishGeneric c st v s).ctls = s.ctls ∧
    (finishGeneric c st v s).ledge = s.ledge ∧ (finishGeneric c st v s).mesh = s.mesh ∧
    (finishGeneric c st v s).hbm = s.hbm ∧ (finishGeneric c st v s).arbs = s.arbs ∧
    (finishGeneric c st v s).arbSels = s.arbSels ∧ (finishGeneric c st v s).ctx = s.ctx ∧
    (finishGeneric c st v s).fence = s.fence ∧ (finishGeneric c st v s).fab = s.fab ∧ (finishGeneric c st v s).pwr = s.pwr ∧
    (finishGeneric c st v s).sec = s.sec ∧ (finishGeneric c st v s).dbg = s.dbg ∧ (finishGeneric c st v s).evts = s.evts ∧
    (finishGeneric c st v s).thm = s.thm ∧ (finishGeneric c st v s).cool = s.cool ∧ (finishGeneric c st v s).loop = s.loop ∧
    (finishGeneric c st v s).drv = s.drv ∧ (finishGeneric c st v s).cbus = s.cbus ∧ (finishGeneric c st v s).hut = s.hut ∧
    (finishGeneric c st v s).cairn = s.cairn ∧ (finishGeneric c st v s).fresh = s.fresh := by
  unfold finishGeneric; simp
@[simp] theorem refusePitch_same (c : CmdSrc) (st : Status) (l : Byte) (id : DWord) (x : Nat) :
    (refusePitch c st l id x s).pending = s.pending ∧ (refusePitch c st l id x s).env = s.env ∧
    (refusePitch c st l id x s).cores = s.cores ∧ (refusePitch c st l id x s).ctls = s.ctls ∧
    (refusePitch c st l id x s).ledge = s.ledge ∧ (refusePitch c st l id x s).mesh = s.mesh ∧
    (refusePitch c st l id x s).hbm = s.hbm ∧ (refusePitch c st l id x s).arbs = s.arbs ∧
    (refusePitch c st l id x s).arbSels = s.arbSels ∧ (refusePitch c st l id x s).ctx = s.ctx ∧
    (refusePitch c st l id x s).fence = s.fence ∧ (refusePitch c st l id x s).fab = s.fab ∧
    (refusePitch c st l id x s).pwr = s.pwr ∧ (refusePitch c st l id x s).sec = s.sec ∧
    (refusePitch c st l id x s).dbg = s.dbg ∧ (refusePitch c st l id x s).evts = s.evts ∧
    (refusePitch c st l id x s).thm = s.thm ∧ (refusePitch c st l id x s).cool = s.cool ∧
    (refusePitch c st l id x s).loop = s.loop ∧ (refusePitch c st l id x s).drv = s.drv ∧
    (refusePitch c st l id x s).cbus = s.cbus ∧ (refusePitch c st l id x s).hut = s.hut ∧
    (refusePitch c st l id x s).cairn = s.cairn ∧ (refusePitch c st l id x s).fresh = s.fresh := by
  unfold refusePitch; simp
@[simp] theorem finishPitch_same (j : PitchJob) (e : PitchEnd) :
    (finishPitch j e s).pending = s.pending ∧ (finishPitch j e s).env = s.env ∧ (finishPitch j e s).cores = s.cores ∧
    (finishPitch j e s).ctls = s.ctls ∧ (finishPitch j e s).ledge = s.ledge ∧ (finishPitch j e s).mesh = s.mesh ∧
    (finishPitch j e s).hbm = s.hbm ∧ (finishPitch j e s).arbs = s.arbs ∧ (finishPitch j e s).arbSels = s.arbSels ∧
    (finishPitch j e s).ctx = s.ctx ∧ (finishPitch j e s).fence = s.fence ∧ (finishPitch j e s).fab = s.fab ∧
    (finishPitch j e s).pwr = s.pwr ∧ (finishPitch j e s).sec = s.sec ∧ (finishPitch j e s).dbg = s.dbg ∧
    (finishPitch j e s).evts = s.evts ∧ (finishPitch j e s).thm = s.thm ∧ (finishPitch j e s).cool = s.cool ∧
    (finishPitch j e s).loop = s.loop ∧ (finishPitch j e s).drv = s.drv ∧ (finishPitch j e s).cbus = s.cbus ∧
    (finishPitch j e s).hut = s.hut ∧ (finishPitch j e s).cairn = s.cairn ∧ (finishPitch j e s).fresh = s.fresh := by
  unfold finishPitch; simp; try (repeat' split) <;> simp
@[simp] theorem abortJob_same (j : PitchJob) :
    (abortJob j s).pending = s.pending ∧ (abortJob j s).env = s.env ∧ (abortJob j s).cores = s.cores ∧
    (abortJob j s).ctls = s.ctls ∧ (abortJob j s).ledge = s.ledge ∧ (abortJob j s).mesh = s.mesh ∧
    (abortJob j s).hbm = s.hbm ∧ (abortJob j s).arbs = s.arbs ∧ (abortJob j s).arbSels = s.arbSels ∧
    (abortJob j s).ctx = s.ctx ∧ (abortJob j s).fence = s.fence ∧ (abortJob j s).fab = s.fab ∧ (abortJob j s).pwr = s.pwr ∧
    (abortJob j s).sec = s.sec ∧ (abortJob j s).dbg = s.dbg ∧ (abortJob j s).evts = s.evts ∧ (abortJob j s).thm = s.thm ∧
    (abortJob j s).cool = s.cool ∧ (abortJob j s).loop = s.loop ∧ (abortJob j s).drv = s.drv ∧
    (abortJob j s).cbus = s.cbus ∧ (abortJob j s).hut = s.hut ∧ (abortJob j s).cairn = s.cairn ∧
    (abortJob j s).fresh = s.fresh := by
  unfold abortJob; simp
@[simp] theorem trace_same (c k x t i o : Nat) (d : DWord) :
    (trace c k x t i o d s).pending = s.pending ∧ (trace c k x t i o d s).reply = s.reply ∧
    (trace c k x t i o d s).env = s.env ∧ (trace c k x t i o d s).cores = s.cores ∧ (trace c k x t i o d s).ctls = s.ctls ∧
    (trace c k x t i o d s).ledge = s.ledge ∧ (trace c k x t i o d s).mesh = s.mesh ∧ (trace c k x t i o d s).hbm = s.hbm ∧
    (trace c k x t i o d s).arbs = s.arbs ∧ (trace c k x t i o d s).arbSels = s.arbSels ∧
    (trace c k x t i o d s).ctx = s.ctx ∧ (trace c k x t i o d s).fence = s.fence ∧ (trace c k x t i o d s).fab = s.fab ∧
    (trace c k x t i o d s).pwr = s.pwr ∧ (trace c k x t i o d s).sec = s.sec ∧ (trace c k x t i o d s).evts = s.evts ∧
    (trace c k x t i o d s).thm = s.thm ∧ (trace c k x t i o d s).cool = s.cool ∧ (trace c k x t i o d s).loop = s.loop ∧
    (trace c k x t i o d s).drv = s.drv ∧ (trace c k x t i o d s).cbus = s.cbus ∧ (trace c k x t i o d s).hut = s.hut ∧
    (trace c k x t i o d s).cairn = s.cairn ∧ (trace c k x t i o d s).fresh = s.fresh := by
  unfold trace; simp [when]; try (repeat' split) <;> simp
@[simp] theorem haltAck_same (c : Nat) :
    (haltAck c s).pending = s.pending ∧ (haltAck c s).reply = s.reply ∧ (haltAck c s).env = s.env ∧
    (haltAck c s).cores = s.cores ∧ (haltAck c s).ctls = s.ctls ∧ (haltAck c s).ledge = s.ledge ∧
    (haltAck c s).mesh = s.mesh ∧ (haltAck c s).hbm = s.hbm ∧ (haltAck c s).arbs = s.arbs ∧
    (haltAck c s).arbSels = s.arbSels ∧ (haltAck c s).ctx = s.ctx ∧ (haltAck c s).fence = s.fence ∧
    (haltAck c s).fab = s.fab ∧ (haltAck c s).pwr = s.pwr ∧ (haltAck c s).sec = s.sec ∧ (haltAck c s).dbg = s.dbg ∧
    (haltAck c s).evts = s.evts ∧ (haltAck c s).thm = s.thm ∧ (haltAck c s).cool = s.cool ∧ (haltAck c s).loop = s.loop ∧
    (haltAck c s).drv = s.drv ∧ (haltAck c s).cbus = s.cbus ∧ (haltAck c s).hut = s.hut ∧ (haltAck c s).cairn = s.cairn ∧
    (haltAck c s).fresh = s.fresh := by
  unfold haltAck; simp [when]; try (repeat' split) <;> simp
@[simp] theorem setCause_same (c b : Nat) :
    (setCause c b s).pending = s.pending ∧ (setCause c b s).reply = s.reply ∧ (setCause c b s).env = s.env ∧
    (setCause c b s).ctls = s.ctls ∧ (setCause c b s).ledge = s.ledge ∧ (setCause c b s).mesh = s.mesh ∧
    (setCause c b s).hbm = s.hbm ∧ (setCause c b s).arbs = s.arbs ∧ (setCause c b s).arbSels = s.arbSels ∧
    (setCause c b s).ctx = s.ctx ∧ (setCause c b s).fence = s.fence ∧ (setCause c b s).fab = s.fab ∧
    (setCause c b s).pwr = s.pwr ∧ (setCause c b s).sec = s.sec ∧ (setCause c b s).dbg = s.dbg ∧
    (setCause c b s).evts = s.evts ∧ (setCause c b s).thm = s.thm ∧ (setCause c b s).cool = s.cool ∧
    (setCause c b s).loop = s.loop ∧ (setCause c b s).drv = s.drv ∧ (setCause c b s).cbus = s.cbus ∧
    (setCause c b s).hut = s.hut ∧ (setCause c b s).cairn = s.cairn ∧ (setCause c b s).fresh = s.fresh := by
  unfold setCause; simp
@[simp] theorem returnBalance_same (c : Nat) :
    (returnBalance c s).pending = s.pending ∧ (returnBalance c s).reply = s.reply ∧ (returnBalance c s).env = s.env ∧
    (returnBalance c s).hdrs = s.hdrs ∧ (returnBalance c s).cores = s.cores ∧ (returnBalance c s).ledge = s.ledge ∧
    (returnBalance c s).mesh = s.mesh ∧ (returnBalance c s).hbm = s.hbm ∧ (returnBalance c s).arbs = s.arbs ∧
    (returnBalance c s).arbSels = s.arbSels ∧ (returnBalance c s).ctx = s.ctx ∧ (returnBalance c s).fence = s.fence ∧
    (returnBalance c s).fab = s.fab ∧ (returnBalance c s).host = s.host ∧ (returnBalance c s).glob = s.glob ∧
    (returnBalance c s).sec = s.sec ∧ (returnBalance c s).dbg = s.dbg ∧ (returnBalance c s).evts = s.evts ∧
    (returnBalance c s).thm = s.thm ∧ (returnBalance c s).cool = s.cool ∧ (returnBalance c s).loop = s.loop ∧
    (returnBalance c s).drv = s.drv ∧ (returnBalance c s).cbus = s.cbus ∧ (returnBalance c s).hut = s.hut ∧
    (returnBalance c s).cairn = s.cairn ∧ (returnBalance c s).fresh = s.fresh := by
  unfold returnBalance; simp

theorem hdr_onHdr_ne (p q : Nat) (f : Hdr → Hdr) : (s.onHdr p f).hdr q = if q = p then f (s.hdr p) else s.hdr q := by
  simp [State.onHdr, State.hdr, State.setHdr, fget_fput]

/-- R529, R531: what raising bits leaves in every page's header. -/
theorem raiseBits_hdr (p q : Nat) (b : Word) :
    (raiseBits p b s).hdr q = if q = p then { s.hdr p with stat := (s.hdr p).stat ||| b } else s.hdr q := by
  unfold raiseBits; dsimp only; split
  · rw [State.hdr, (signalPage_same (s.onHdr p _) p).2.2.2.1]; exact hdr_onHdr_ne s p q _
  · exact hdr_onHdr_ne s p q _

theorem raise_hdr (p q n : Nat) :
    (raise p n s).hdr q = if q = p then { s.hdr p with stat := (s.hdr p).stat ||| bitMask n } else s.hdr q := raiseBits_hdr s p q _

theorem errTrans_hdr (p q : Nat) :
    (errTrans p s).hdr q = if q = p then { s.hdr p with trans := satInc (s.hdr p).trans } else s.hdr q := hdr_onHdr_ne s p q _

theorem errPerm_hdr (p q : Nat) :
    (errPerm p s).hdr q = if q = p then { s.hdr p with perm := satInc (s.hdr p).perm } else s.hdr q := hdr_onHdr_ne s p q _

/-- R498: an event of the compute die touches the mailbox's header alone. -/
theorem campEvent_hdr (c v a q : Nat) (h : q ≠ pgMbox) : (campEvent c v a s).hdr q = s.hdr q := by
  unfold campEvent; dsimp only; split
  · rfl
  · rw [raise_hdr, if_neg h, errTrans_hdr, if_neg h]; rfl

/-- R538: of the GLOBAL page, an event changes the pending sources alone. -/
theorem raiseBits_glob (p : Nat) (b : Word) : (raiseBits p b s).glob = { s.glob with pend := (raiseBits p b s).glob.pend } := by
  unfold raiseBits signalPage pendSource; dsimp only
  split
  · split
    · split
      · simp
      · simp
    · split <;> simp
  · simp

theorem raise_glob (p n : Nat) : (raise p n s).glob = { s.glob with pend := (raise p n s).glob.pend } := raiseBits_glob s p _

end Sys2Proof.Machine
end

