-- ==== Sys2Proof/Laws/Only.lean ====
section
/-! SUPPORT. What each operation of the model can touch: one lemma per operation, said once for every state. -/

namespace Sys2Proof.Machine

open Sys2Proof.Safety

theorem only_refl (T : List Part) (s : State) : only T s s := by intro p _; cases p <;> rfl

theorem only_trans {T : List Part} {s t u : State} (h : only T s t) (h' : only T t u) : only T s u := by
  intro p hp; have a := h p hp; have b := h' p hp; cases p <;> exact b.trans a

theorem only_symm {T : List Part} {s t : State} (h : only T s t) : only T t s := by
  intro p hp; have a := h p hp; cases p <;> exact a.symm

theorem only_mono {T T' : List Part} {s t : State} (h : only T s t) (hT : T ⊆ T') : only T' s t :=
  fun p hp => h p (fun hq => hp (hT hq))

/-- A change that touches some parts changes nothing about the other parts. -/
theorem only_step {T T' : List Part} {s t u : State} (h : only T' s t) (hT : T' ⊆ T) : only T u t ↔ only T u s :=
  ⟨fun a => only_trans a (only_symm (only_mono h hT)), fun a => only_trans a (only_mono h hT)⟩

theorem only_of {T : List Part} {s t : State} (h : ∀ p, p ∉ T → Part.same s t p) : only T s t := h

@[simp] theorem only_self (T : List Part) (s : State) : only T s s ↔ True := iff_true_intro (only_refl T s)

@[simp] theorem only_ite (T : List Part) (u s t : State) (c : Prop) [Decidable c] (h : only T s t) : only T u (if c then t else s) ↔ only T u s := by
  split
  · exact only_step h (fun _ a => a)
  · rfl

@[simp] theorem only_ite' (T : List Part) (u s t : State) (c : Prop) [Decidable c] (h : only T s t) : only T u (if c then s else t) ↔ only T u s := by
  split
  · rfl
  · exact only_step h (fun _ a => a)

@[simp] theorem only_when (T : List Part) (b : Bool) (f : State → State) (u s : State) (h : ∀ t, only T t (f t)) :
    only T u (when b f s) ↔ only T u s := by
  unfold when; split
  · exact only_step (h s) (fun _ a => a)
  · rfl

theorem only_if {T : List Part} {s a b : State} {c : Prop} [Decidable c] (ha : only T s a) (hb : only T s b) : only T s (if c then a else b) := by
  split <;> assumption

theorem forAll_keeps {α : Type} {T : List Part} {f : α → State → State} (h : ∀ x t, only T t (f x t)) :
    ∀ (xs : List α) (s : State), only T s (forAll xs f s) := by
  intro xs; induction xs with
  | nil => intro s; exact only_refl T s
  | cons a l ih => intro s; exact only_trans (h a s) (ih (f a s))

@[simp] theorem only_forAll {α : Type} (T : List Part) (f : α → State → State) (u s : State) (xs : List α)
    (h : ∀ x t, only T t (f x t)) : only T u (forAll xs f s) ↔ only T u s :=
  only_step (forAll_keeps h xs s) (fun _ a => a)

theorem fold_keeps {α β : Type} {T : List Part} {f : State × β → α → State × β} (h : ∀ b x, only T b.1 (f b x).1) :
    ∀ (xs : List α) (b : State × β), only T b.1 (xs.foldl f b).1 := by
  intro xs; induction xs with
  | nil => intro b; exact only_refl T b.1
  | cons a l ih => intro b; exact only_trans (h b a) (ih (f b a))

@[simp] theorem onEnv_only (f : Env → Env) (T : List Part) (u s : State) (h0 : [.env] ⊆ T) :
    only T u (s.onEnv f) ↔ only T u s :=
  only_step (only_of (by intro p hp; cases p <;> first | rfl | simp at hp)) h0

@[simp] theorem onCtxBlk_only (f : CtxBlk → CtxBlk) (T : List Part) (u s : State) (h0 : [.ctx] ⊆ T) :
    only T u (s.onCtxBlk f) ↔ only T u s :=
  only_step (only_of (by intro p hp; cases p <;> first | rfl | simp at hp)) h0

@[simp] theorem onFence_only (f : FenceBlk → FenceBlk) (T : List Part) (u s : State) (h0 : [.fence] ⊆ T) :
    only T u (s.onFence f) ↔ only T u s :=
  only_step (only_of (by intro p hp; cases p <;> first | rfl | simp at hp)) h0

@[simp] theorem onFab_only (f : FabState → FabState) (T : List Part) (u s : State) (h0 : [.fab] ⊆ T) :
    only T u (s.onFab f) ↔ only T u s :=
  only_step (only_of (by intro p hp; cases p <;> first | rfl | simp at hp)) h0

@[simp] theorem onHost_only (f : HostBlk → HostBlk) (T : List Part) (u s : State) (h0 : [.host] ⊆ T) :
    only T u (s.onHost f) ↔ only T u s :=
  only_step (only_of (by intro p hp; cases p <;> first | rfl | simp at hp)) h0

@[simp] theorem onGlob_only (f : GlobBlk → GlobBlk) (T : List Part) (u s : State) (h0 : [.glob] ⊆ T) :
    only T u (s.onGlob f) ↔ only T u s :=
  only_step (only_of (by intro p hp; cases p <;> first | rfl | simp at hp)) h0

@[simp] theorem onPwr_only (f : PwrBlk → PwrBlk) (T : List Part) (u s : State) (h0 : [.pwr] ⊆ T) :
    only T u (s.onPwr f) ↔ only T u s :=
  only_step (only_of (by intro p hp; cases p <;> first | rfl | simp at hp)) h0

@[simp] theorem onLedge_only (f : LedgeBlk → LedgeBlk) (T : List Part) (u s : State) (h0 : [.ledge] ⊆ T) :
    only T u (s.onLedge f) ↔ only T u s :=
  only_step (only_of (by intro p hp; cases p <;> first | rfl | simp at hp)) h0

@[simp] theorem onMesh_only (f : MeshState → MeshState) (T : List Part) (u s : State) (h0 : [.mesh] ⊆ T) :
    only T u (s.onMesh f) ↔ only T u s :=
  only_step (only_of (by intro p hp; cases p <;> first | rfl | simp at hp)) h0

@[simp] theorem onHbm_only (f : HbmBlk → HbmBlk) (T : List Part) (u s : State) (h0 : [.hbm] ⊆ T) :
    only T u (s.onHbm f) ↔ only T u s :=
  only_step (only_of (by intro p hp; cases p <;> first | rfl | simp at hp)) h0

@[simp] theorem onEvts_only (f : EvtPort → EvtPort) (T : List Part) (u s : State) (h0 : [.evts] ⊆ T) :
    only T u (s.onEvts f) ↔ only T u s :=
  only_step (only_of (by intro p hp; cases p <;> first | rfl | simp at hp)) h0

@[simp] theorem onSec_only (f : SecBlk → SecBlk) (T : List Part) (u s : State) (h0 : [.sec] ⊆ T) :
    only T u (s.onSec f) ↔ only T u s :=
  only_step (only_of (by intro p hp; cases p <;> first | rfl | simp at hp)) h0

@[simp] theorem onDbg_only (f : DbgBlk → DbgBlk) (T : List Part) (u s : State) (h0 : [.dbg] ⊆ T) :
    only T u (s.onDbg f) ↔ only T u s :=
  only_step (only_of (by intro p hp; cases p <;> first | rfl | simp at hp)) h0

@[simp] theorem onThm_only (f : ThmBlk → ThmBlk) (T : List Part) (u s : State) (h0 : [.thm] ⊆ T) :
    only T u (s.onThm f) ↔ only T u s :=
  only_step (only_of (by intro p hp; cases p <;> first | rfl | simp at hp)) h0

@[simp] theorem onLoop_only (f : LoopBlk → LoopBlk) (T : List Part) (u s : State) (h0 : [.loop] ⊆ T) :
    only T u (s.onLoop f) ↔ only T u s :=
  only_step (only_of (by intro p hp; cases p <;> first | rfl | simp at hp)) h0

@[simp] theorem onDrv_only (f : DriveBlk → DriveBlk) (T : List Part) (u s : State) (h0 : [.drv] ⊆ T) :
    only T u (s.onDrv f) ↔ only T u s :=
  only_step (only_of (by intro p hp; cases p <;> first | rfl | simp at hp)) h0

@[simp] theorem onCbus_only (f : CbusBlk → CbusBlk) (T : List Part) (u s : State) (h0 : [.cbus] ⊆ T) :
    only T u (s.onCbus f) ↔ only T u s :=
  only_step (only_of (by intro p hp; cases p <;> first | rfl | simp at hp)) h0

@[simp] theorem onHut_only (f : HutBlk → HutBlk) (T : List Part) (u s : State) (h0 : [.hut] ⊆ T) :
    only T u (s.onHut f) ↔ only T u s :=
  only_step (only_of (by intro p hp; cases p <;> first | rfl | simp at hp)) h0

@[simp] theorem onCairn_only (f : CairnBlk → CairnBlk) (T : List Part) (u s : State) (h0 : [.cairn] ⊆ T) :
    only T u (s.onCairn f) ↔ only T u s :=
  only_step (only_of (by intro p hp; cases p <;> first | rfl | simp at hp)) h0

@[simp] theorem setCore_only (n : Nat) (c : Core) (T : List Part) (u s : State) (h0 : [.cores] ⊆ T) :
    only T u (s.setCore n c) ↔ only T u s :=
  only_step (only_of (by intro p hp; cases p <;> first | rfl | simp at hp)) h0

@[simp] theorem setCtl_only (n : Nat) (c : CoreCtl) (T : List Part) (u s : State) (h0 : [.ctls] ⊆ T) :
    only T u (s.setCtl n c) ↔ only T u s :=
  only_step (only_of (by intro p hp; cases p <;> first | rfl | simp at hp)) h0

@[simp] theorem setHdr_only (n : Nat) (c : Hdr) (T : List Part) (u s : State) (h0 : [.hdrs] ⊆ T) :
    only T u (s.setHdr n c) ↔ only T u s :=
  only_step (only_of (by intro p hp; cases p <;> first | rfl | simp at hp)) h0

@[simp] theorem setArb_only (n : Nat) (c : ArbInst) (T : List Part) (u s : State) (h0 : [.arbs] ⊆ T) :
    only T u (s.setArb n c) ↔ only T u s :=
  only_step (only_of (by intro p hp; cases p <;> first | rfl | simp at hp)) h0

@[simp] theorem onArbSel_only (n : Nat) (c : ArbSel → ArbSel) (T : List Part) (u s : State) (h0 : [.arbSels] ⊆ T) :
    only T u (s.onArbSel n c) ↔ only T u s :=
  only_step (only_of (by intro p hp; cases p <;> first | rfl | simp at hp)) h0

@[simp] theorem setReply_only (r : Reply) (T : List Part) (u s : State) (h0 : [.reply] ⊆ T) :
    only T u (s.setReply r) ↔ only T u s :=
  only_step (only_of (by intro p hp; cases p <;> first | rfl | simp at hp)) h0

@[simp] theorem onCore_only (n : Nat) (f : Core → Core) (T : List Part) (u s : State) (h0 : [.cores] ⊆ T) :
    only T u (s.onCore n f) ↔ only T u s :=
  only_step (only_of (by intro p hp; cases p <;> first | rfl | simp at hp)) h0

@[simp] theorem onCtl_only (n : Nat) (f : CoreCtl → CoreCtl) (T : List Part) (u s : State) (h0 : [.ctls] ⊆ T) :
    only T u (s.onCtl n f) ↔ only T u s :=
  only_step (only_of (by intro p hp; cases p <;> first | rfl | simp at hp)) h0

@[simp] theorem onHdr_only (p : Nat) (f : Hdr → Hdr) (T : List Part) (u s : State) (h0 : [.hdrs] ⊆ T) :
    only T u (s.onHdr p f) ↔ only T u s :=
  only_step (only_of (by intro p hp; cases p <;> first | rfl | simp at hp)) h0

@[simp] theorem setCx_only (x : Nat) (c : Ctx) (T : List Part) (u s : State) (h0 : [.ctx] ⊆ T) :
    only T u (s.setCx x c) ↔ only T u s :=
  only_step (only_of (by intro p hp; cases p <;> first | rfl | simp at hp)) h0

@[simp] theorem onCx_only (x : Nat) (f : Ctx → Ctx) (T : List Part) (u s : State) (h0 : [.ctx] ⊆ T) :
    only T u (s.onCx x f) ↔ only T u s :=
  only_step (only_of (by intro p hp; cases p <;> first | rfl | simp at hp)) h0

@[simp] theorem setPort_only (p : Nat) (q : Port) (T : List Part) (u s : State) (h0 : [.fab] ⊆ T) :
    only T u (s.setPort p q) ↔ only T u s :=
  only_step (only_of (by intro p hp; cases p <;> first | rfl | simp at hp)) h0

@[simp] theorem onPort_only (p : Nat) (f : Port → Port) (T : List Part) (u s : State) (h0 : [.fab] ⊆ T) :
    only T u (s.onPort p f) ↔ only T u s :=
  only_step (only_of (by intro p hp; cases p <;> first | rfl | simp at hp)) h0

@[simp] theorem setFx_only (x : Nat) (c : FabCtx) (T : List Part) (u s : State) (h0 : [.fab] ⊆ T) :
    only T u (s.setFx x c) ↔ only T u s :=
  only_step (only_of (by intro p hp; cases p <;> first | rfl | simp at hp)) h0

@[simp] theorem onFx_only (x : Nat) (f : FabCtx → FabCtx) (T : List Part) (u s : State) (h0 : [.fab] ⊆ T) :
    only T u (s.onFx x f) ↔ only T u s :=
  only_step (only_of (by intro p hp; cases p <;> first | rfl | simp at hp)) h0

@[simp] theorem setChan_only (x k : Nat) (c : Chan) (T : List Part) (u s : State) (h0 : [.fab] ⊆ T) :
    only T u (s.setChan x k c) ↔ only T u s :=
  only_step (only_of (by intro p hp; cases p <;> first | rfl | simp at hp)) h0

@[simp] theorem onChan_only (x k : Nat) (f : Chan → Chan) (T : List Part) (u s : State) (h0 : [.fab] ⊆ T) :
    only T u (s.onChan x k f) ↔ only T u s :=
  only_step (only_of (by intro p hp; cases p <;> first | rfl | simp at hp)) h0

@[simp] theorem setFn_only (f : Nat) (h : FnHost) (T : List Part) (u s : State) (h0 : [.host] ⊆ T) :
    only T u (s.setFn f h) ↔ only T u s :=
  only_step (only_of (by intro p hp; cases p <;> first | rfl | simp at hp)) h0

@[simp] theorem onFn_only (f : Nat) (g : FnHost → FnHost) (T : List Part) (u s : State) (h0 : [.host] ⊆ T) :
    only T u (s.onFn f g) ↔ only T u s :=
  only_step (only_of (by intro p hp; cases p <;> first | rfl | simp at hp)) h0

@[simp] theorem onSq_only (f i : Nat) (g : SqRing → SqRing) (T : List Part) (u s : State) (h0 : [.host] ⊆ T) :
    only T u (s.onSq f i g) ↔ only T u s :=
  only_step (only_of (by intro p hp; cases p <;> first | rfl | simp at hp)) h0

@[simp] theorem onCq_only (f i : Nat) (g : CqRing → CqRing) (T : List Part) (u s : State) (h0 : [.host] ⊆ T) :
    only T u (s.onCq f i g) ↔ only T u s :=
  only_step (only_of (by intro p hp; cases p <;> first | rfl | simp at hp)) h0

@[simp] theorem setPage_only (k : Nat) (p : WinPage) (T : List Part) (u s : State) (h0 : [.host] ⊆ T) :
    only T u (s.setPage k p) ↔ only T u s :=
  only_step (only_of (by intro p hp; cases p <;> first | rfl | simp at hp)) h0

@[simp] theorem onSx_only (x : Nat) (f : SecCtx → SecCtx) (T : List Part) (u s : State) (h0 : [.sec] ⊆ T) :
    only T u (s.onSx x f) ↔ only T u s :=
  only_step (only_of (by intro p hp; cases p <;> first | rfl | simp at hp)) h0

@[simp] theorem onSlot_only (i : Nat) (f : Slot → Slot) (T : List Part) (u s : State) (h0 : [.loop] ⊆ T) :
    only T u (s.onSlot i f) ↔ only T u s :=
  only_step (only_of (by intro p hp; cases p <;> first | rfl | simp at hp)) h0

@[simp] theorem onCan_only (i : Nat) (f : CanIf → CanIf) (T : List Part) (u s : State) (h0 : [.cbus] ⊆ T) :
    only T u (s.onCan i f) ↔ only T u s :=
  only_step (only_of (by intro p hp; cases p <;> first | rfl | simp at hp)) h0

@[simp] theorem onObj_only (i k : Nat) (f : RxObj → RxObj) (T : List Part) (u s : State) (h0 : [.cbus] ⊆ T) :
    only T u (s.onObj i k f) ↔ only T u s :=
  only_step (only_of (by intro p hp; cases p <;> first | rfl | simp at hp)) h0

@[simp] theorem onGroup_only (g : Nat) (f : Group → Group) (T : List Part) (u s : State) (h0 : [.cbus] ⊆ T) :
    only T u (s.onGroup g f) ↔ only T u s :=
  only_step (only_of (by intro p hp; cases p <;> first | rfl | simp at hp)) h0

@[simp] theorem onCool_only (f : CoolSup → CoolSup) (T : List Part) (u s : State) (h0 : [.cool] ⊆ T) :
    only T u (s.onCool f) ↔ only T u s :=
  only_step (only_of (by intro p hp; cases p <;> first | rfl | simp at hp)) h0

@[simp] theorem onValve_only (v : Nat) (f : Valve → Valve) (T : List Part) (u s : State) (h0 : [.drv] ⊆ T) :
    only T u (s.onValve v f) ↔ only T u s :=
  only_step (only_of (by intro p hp; cases p <;> first | rfl | simp at hp)) h0

@[simp] theorem onMotor_only (m : Nat) (f : Motor → Motor) (T : List Part) (u s : State) (h0 : [.drv] ⊆ T) :
    only T u (s.onMotor m f) ↔ only T u s :=
  only_step (only_of (by intro p hp; cases p <;> first | rfl | simp at hp)) h0

@[simp] theorem onInput_only (k : Nat) (f : Input → Input) (T : List Part) (u s : State) (h0 : [.drv] ⊆ T) :
    only T u (s.onInput k f) ↔ only T u s :=
  only_step (only_of (by intro p hp; cases p <;> first | rfl | simp at hp)) h0

@[simp] theorem onRope_only (r : Nat) (f : Rope → Rope) (T : List Part) (u s : State) (h0 : [.drv] ⊆ T) :
    only T u (s.onRope r f) ↔ only T u s :=
  only_step (only_of (by intro p hp; cases p <;> first | rfl | simp at hp)) h0

@[simp] theorem onVec_only (f k : Nat) (g : MsixVec → MsixVec) (T : List Part) (u s : State) (h0 : [.host] ⊆ T) :
    only T u (s.onVec f k g) ↔ only T u s :=
  only_step (only_of (by intro p hp; cases p <;> first | rfl | simp at hp)) h0

@[simp] theorem onBook_only (f : Book → Book) (T : List Part) (u s : State) (h0 : [.hut] ⊆ T) :
    only T u (s.onBook f) ↔ only T u s :=
  only_step (only_of (by intro p hp; cases p <;> first | rfl | simp at hp)) h0

@[simp] theorem onSess_only (d : Bool) (k : Nat) (f : Session → Session) (T : List Part) (u s : State) (h0 : [.sec] ⊆ T) :
    only T u (s.onSess d k f) ↔ only T u s :=
  only_step (only_of (by intro p hp; cases d <;> cases p <;> first | rfl | simp at hp)) h0

@[simp] theorem onHalf_only (c : Bool) (f : MboxHalf → MboxHalf) (T : List Part) (u s : State) (h0 : [.cairn] ⊆ T) :
    only T u (s.onHalf c f) ↔ only T u s :=
  only_step (only_of (by intro p hp; cases c <;> cases p <;> first | rfl | simp at hp)) h0

@[simp] theorem setImg_only (k : Nat) (a : ImgArea) (T : List Part) (u s : State) (h0 : [.cairn] ⊆ T) :
    only T u (s.setImg k a) ↔ only T u s :=
  only_step (only_of (by intro p hp; cases p <;> first | rfl | simp at hp)) h0

@[simp] theorem onSensor_only (k : Nat) (f : Sensor → Sensor) (T : List Part) (u s : State) (h0 : [.thm] ⊆ T) :
    only T u (s.onSensor k f) ↔ only T u s :=
  only_step (only_of (by intro p hp; cases p <;> first | rfl | simp at hp)) h0

@[simp] theorem onMark_only (k : Nat) (f : Sensor → Sensor) (T : List Part) (u s : State) (h0 : [.cool] ⊆ T) :
    only T u (s.onMark k f) ↔ only T u s :=
  only_step (only_of (by intro p hp; cases p <;> first | rfl | simp at hp)) h0

@[simp] theorem setColl_only (x k : Nat) (c : Option Coll) (T : List Part) (u s : State) (h0 : [.fab] ⊆ T) :
    only T u (s.setColl x k c) ↔ only T u s :=
  only_step (only_of (by intro p hp; cases p <;> first | rfl | simp at hp)) h0

end Sys2Proof.Machine
end

