-- ==== Sys2Proof/Laws/OnlyCore.lean ====
section
/-! SUPPORT. What each operation can touch: the core, its units, the sequencer and the fence. -/

set_option linter.all false

namespace Sys2Proof.Machine

open Sys2Proof.Safety

@[simp] theorem noteUse_only (u e : Nat) (T : List Part) (u0 s : State) (h0 : [.thm] ⊆ T) :
    only T u0 ((noteUse u e s)) ↔ only T u0 s := by
  refine only_step (T' := [.thm]) ?_ h0; unfold noteUse; simp

@[simp] theorem noteSum_only (kind core : Nat) (v : Int) (T : List Part) (u s : State) (h0 : [.sec] ⊆ T) :
    only T u ((noteSum kind core v s)) ↔ only T u s := by
  refine only_step (T' := [.sec]) ?_ h0; unfold noteSum; simp

@[simp] theorem sendVec_only (f v : Nat) (T : List Part) (u s : State) (h0 : [.host] ⊆ T) :
    only T u ((sendVec f v s)) ↔ only T u s := by
  refine only_step (T' := [.host]) ?_ h0; unfold sendVec; simp

@[simp] theorem pendSource_only (src : Nat) (T : List Part) (u s : State) (h0 : [.host, .glob] ⊆ T) :
    only T u ((pendSource src s)) ↔ only T u s := by
  refine only_step (T' := [.host, .glob]) ?_ h0; unfold pendSource; simp

@[simp] theorem signalPage_only (p : Nat) (T : List Part) (u s : State) (h0 : [.host, .glob] ⊆ T) :
    only T u ((signalPage p s)) ↔ only T u s := by
  refine only_step (T' := [.host, .glob]) ?_ h0; unfold signalPage; (repeat' split) <;> simp

@[simp] theorem raiseBits_only (p : Nat) (bits : Word) (T : List Part) (u s : State) (h0 : [.hdrs, .host, .glob] ⊆ T) :
    only T u ((raiseBits p bits s)) ↔ only T u s := by
  refine only_step (T' := [.hdrs, .host, .glob]) ?_ h0; unfold raiseBits; simp

@[simp] theorem raise_only (p n : Nat) (T : List Part) (u s : State) (h0 : [.hdrs, .host, .glob] ⊆ T) :
    only T u ((raise p n s)) ↔ only T u s := by
  refine only_step (T' := [.hdrs, .host, .glob]) ?_ h0; unfold raise; simp

@[simp] theorem errTrans_only (p : Nat) (T : List Part) (u s : State) (h0 : [.hdrs] ⊆ T) :
    only T u ((errTrans p s)) ↔ only T u s := by
  refine only_step (T' := [.hdrs]) ?_ h0; unfold errTrans; simp

@[simp] theorem errTransN_only (p n : Nat) (T : List Part) (u s : State) (h0 : [.hdrs] ⊆ T) :
    only T u ((errTransN p n s)) ↔ only T u s := by
  refine only_step (T' := [.hdrs]) ?_ h0; unfold errTransN; simp

@[simp] theorem errPerm_only (p : Nat) (T : List Part) (u s : State) (h0 : [.hdrs] ⊆ T) :
    only T u ((errPerm p s)) ↔ only T u s := by
  refine only_step (T' := [.hdrs]) ?_ h0; unfold errPerm; simp

@[simp] theorem campEvent_only (code value : Nat) (arg : Nat) (T : List Part) (u s : State) (h0 : [.hdrs, .host, .glob,
    .evts] ⊆ T) :
    only T u ((campEvent code value arg s)) ↔ only T u s := by
  refine only_step (T' := [.hdrs, .host, .glob, .evts]) ?_ h0; unfold campEvent; (repeat' split) <;> simp

@[simp] theorem capChange_only  (T : List Part) (u s : State) (h0 : [.hdrs, .host, .glob] ⊆ T) :
    only T u ((capChange s)) ↔ only T u s := by
  refine only_step (T' := [.hdrs, .host, .glob]) ?_ h0; unfold capChange; simp

@[simp] theorem physPut_only (p : Phys) (bs : List Byte) (T : List Part) (u s : State) (h0 : [.ledge, .hbm] ⊆ T) :
    only T u ((physPut p bs s)) ↔ only T u s := by
  refine only_step (T' := [.ledge, .hbm]) ?_ h0; unfold physPut; (repeat' split) <;> simp

@[simp] theorem physZero_only (p : Phys) (n : Nat) (T : List Part) (u s : State) (h0 : [.ledge, .hbm] ⊆ T) :
    only T u ((physZero p n s)) ↔ only T u s := by
  refine only_step (T' := [.ledge, .hbm]) ?_ h0; unfold physZero; (repeat' split) <;> simp

@[simp] theorem gwrite_only (x : Nat) (space o : Nat) (bs : List Byte) (T : List Part) (u s : State) (h0 : [.ledge, .hbm] ⊆ T) :
    only T u ((gwrite x space o bs s)) ↔ only T u s := by
  have key : only [.ledge, .hbm] s ((gwrite x space o bs s)) := by
    unfold gwrite; try dsimp only
    (repeat' first | with_reducible apply only_if | split) <;> first | (simp; done) | (refine forAll_keeps ?_ _ _; intro x t; (try dsimp only); (repeat' split) <;> simp; done) | (refine only_trans ?_ (forAll_keeps (T := [.ledge, .hbm]) (by (intro x t; (try dsimp only); (repeat' split) <;> simp; done)) _ _); simp; done) | (simp; (refine only_trans ?_ (forAll_keeps (T := [.ledge, .hbm]) (by (intro x t; (try dsimp only); (repeat' split) <;> simp; done)) _ _); simp; done)) | (intro p hp; cases p <;> first | rfl | (simp at hp; done)) | (simp; intro p hp; cases p <;> first | rfl | (simp at hp; done)) | simp
  exact only_step key h0

@[simp] theorem gaWrite_only (x : Nat) (a : DWord) (bs : List Byte) (T : List Part) (u s : State) (h0 : [.ledge, .hbm] ⊆ T) :
    only T u ((gaWrite x a bs s)) ↔ only T u s := by
  refine only_step (T' := [.ledge, .hbm]) ?_ h0; unfold gaWrite; simp

@[simp] theorem deliver_only (f : Nat) (r : HoldRec) (T : List Part) (u s : State) (h0 : [.hdrs, .host, .glob] ⊆ T) :
    only T u ((deliver f r s)) ↔ only T u s := by
  refine only_step (T' := [.hdrs, .host, .glob]) ?_ h0; unfold deliver; simp

@[simp] theorem closeCmd_only (c : CmdSrc) (kind : Nat) (bytes : List Byte) (T : List Part) (u s : State) (h0 : [.hdrs,
    .host, .glob] ⊆ T) :
    only T u ((closeCmd c kind bytes s)) ↔ only T u s := by
  refine only_step (T' := [.hdrs, .host, .glob]) ?_ h0; unfold closeCmd; simp

theorem drainNops_key : ∀ (n f i : Nat) (s : State), only [.hdrs, .host, .glob] s (drainNops n f i s)
  | 0, _, _, _ => only_refl _ _
  | n + 1, f, i, s => by
    unfold drainNops; split
    · simp
    · split
      · simp
      · exact only_trans (by simp) (drainNops_key n f i _)
@[simp] theorem drainNops_only (n f i : Nat) (T : List Part) (u s : State) (h0 : [.hdrs, .host, .glob] ⊆ T) :
    only T u (drainNops n f i s) ↔ only T u s := only_step (drainNops_key n f i s) h0

@[simp] theorem finish_only (c : CmdSrc) (kind : Nat) (bytes : List Byte) (T : List Part) (u s : State) (h0 : [.hdrs, .host,
    .glob] ⊆ T) :
    only T u ((finish c kind bytes s)) ↔ only T u s := by
  refine only_step (T' := [.hdrs, .host, .glob]) ?_ h0; unfold finish; simp

@[simp] theorem finishGeneric_only (c : CmdSrc) (st : Status) (result : Nat) (T : List Part) (u s : State) (h0 : [.reply,
    .hdrs, .host, .glob] ⊆ T) :
    only T u ((finishGeneric c st result s)) ↔ only T u s := by
  refine only_step (T' := [.reply, .hdrs, .host, .glob]) ?_ h0; unfold finishGeneric; simp

@[simp] theorem finishPitch_only (j : PitchJob) (e : PitchEnd) (T : List Part) (u s : State) (h0 : [.reply, .hdrs, .host,
    .glob] ⊆ T) :
    only T u ((finishPitch j e s)) ↔ only T u s := by
  refine only_step (T' := [.reply, .hdrs, .host, .glob]) ?_ h0; unfold finishPitch; (repeat' split) <;> simp

@[simp] theorem refusePitch_only (c : CmdSrc) (st : Status) (lcore : Byte) (id : DWord) (x : Nat) (T : List Part) (u s :
    State) (h0 : [.reply, .hdrs, .host, .glob] ⊆ T) :
    only T u ((refusePitch c st lcore id x s)) ↔ only T u s := by
  refine only_step (T' := [.reply, .hdrs, .host, .glob]) ?_ h0; unfold refusePitch; simp

@[simp] theorem abortJob_only (j : PitchJob) (T : List Part) (u s : State) (h0 : [.reply, .hdrs, .host, .glob] ⊆ T) :
    only T u ((abortJob j s)) ↔ only T u s := by
  refine only_step (T' := [.reply, .hdrs, .host, .glob]) ?_ h0; unfold abortJob; simp

@[simp] theorem onLink_only (k : Nat) (f : Link → Link) (T : List Part) (u s : State) (h0 : [.mesh] ⊆ T) :
    only T u ((onLink k f s)) ↔ only T u s := by
  refine only_step (T' := [.mesh]) ?_ h0; unfold onLink; simp

@[simp] theorem retireLink_only (router dir : Nat) (T : List Part) (u s : State) (h0 : [.hdrs, .mesh, .host, .glob, .evts] ⊆
    T) :
    only T u ((retireLink router dir s)) ↔ only T u s := by
  refine only_step (T' := [.hdrs, .mesh, .host, .glob, .evts]) ?_ h0; unfold retireLink; (repeat' split) <;> simp

@[simp] theorem countHopErr_only (router dir : Nat) (T : List Part) (u s : State) (h0 : [.hdrs, .mesh, .host, .glob, .evts] ⊆
    T) :
    only T u ((countHopErr router dir s)) ↔ only T u s := by
  refine only_step (T' := [.hdrs, .mesh, .host, .glob, .evts]) ?_ h0; unfold countHopErr; simp

@[simp] theorem countLinkFail_only (router dir : Nat) (T : List Part) (u s : State) (h0 : [.hdrs, .mesh, .host, .glob, .evts]
    ⊆ T) :
    only T u ((countLinkFail router dir s)) ↔ only T u s := by
  refine only_step (T' := [.hdrs, .mesh, .host, .glob, .evts]) ?_ h0; unfold countLinkFail; simp

@[simp] theorem onBank_only (g : Nat) (f : LBank → LBank) (T : List Part) (u s : State) (h0 : [.ledge] ⊆ T) :
    only T u ((onBank g f s)) ↔ only T u s := by
  refine only_step (T' := [.ledge]) ?_ h0; unfold onBank; simp

@[simp] theorem retireBank_only (g : Nat) (T : List Part) (u s : State) (h0 : [.hdrs, .ledge, .host, .glob, .evts] ⊆ T) :
    only T u ((retireBank g s)) ↔ only T u s := by
  refine only_step (T' := [.hdrs, .ledge, .host, .glob, .evts]) ?_ h0; unfold retireBank; dsimp only; (repeat' split) <;> simp

@[simp] theorem countCorrected_only (g : Nat) (T : List Part) (u s : State) (h0 : [.hdrs, .ledge, .host, .glob, .evts] ⊆ T) :
    only T u ((countCorrected g s)) ↔ only T u s := by
  refine only_step (T' := [.hdrs, .ledge, .host, .glob, .evts]) ?_ h0; unfold countCorrected; simp

@[simp] theorem countBankFail_only (g : Nat) (T : List Part) (u s : State) (h0 : [.hdrs, .ledge, .host, .glob, .evts] ⊆ T) :
    only T u ((countBankFail g s)) ↔ only T u s := by
  refine only_step (T' := [.hdrs, .ledge, .host, .glob, .evts]) ?_ h0; unfold countBankFail; simp

@[simp] theorem onPc_only (q : Nat) (f : PChan → PChan) (T : List Part) (u s : State) (h0 : [.hbm] ⊆ T) :
    only T u ((onPc q f s)) ↔ only T u s := by
  refine only_step (T' := [.hbm]) ?_ h0; unfold onPc; simp

@[simp] theorem retirePc_only (q : Nat) (T : List Part) (u s : State) (h0 : [.hdrs, .hbm, .host, .glob, .evts] ⊆ T) :
    only T u ((retirePc q s)) ↔ only T u s := by
  refine only_step (T' := [.hdrs, .hbm, .host, .glob, .evts]) ?_ h0; unfold retirePc; (repeat' split) <;> simp

@[simp] theorem countPcCorrected_only (q : Nat) (T : List Part) (u s : State) (h0 : [.hdrs, .hbm, .host, .glob, .evts] ⊆ T) :
    only T u ((countPcCorrected q s)) ↔ only T u s := by
  refine only_step (T' := [.hdrs, .hbm, .host, .glob, .evts]) ?_ h0; unfold countPcCorrected; simp

@[simp] theorem countPcFail_only (q : Nat) (T : List Part) (u s : State) (h0 : [.hdrs, .hbm, .host, .glob, .evts] ⊆ T) :
    only T u ((countPcFail q s)) ↔ only T u s := by
  refine only_step (T' := [.hdrs, .hbm, .host, .glob, .evts]) ?_ h0; unfold countPcFail; simp

@[simp] theorem countRefetchOk_only (u : MemUnit) (T : List Part) (u0 s : State) (h0 : [.hdrs, .host, .glob, .evts] ⊆ T) :
    only T u0 ((countRefetchOk u s)) ↔ only T u0 s := by
  refine only_step (T' := [.hdrs, .host, .glob, .evts]) ?_ h0; unfold countRefetchOk; (repeat' split) <;> simp

@[simp] theorem countUnitFail_only (u : MemUnit) (T : List Part) (u0 s : State) (h0 : [.hdrs, .ledge, .hbm, .host, .glob,
    .evts] ⊆ T) :
    only T u0 ((countUnitFail u s)) ↔ only T u0 s := by
  refine only_step (T' := [.hdrs, .ledge, .hbm, .host, .glob, .evts]) ?_ h0; unfold countUnitFail; (repeat' split) <;> simp

@[simp] theorem countFailed_only  (T : List Part) (u s : State) (h0 : [.hdrs, .mesh, .host, .glob] ⊆ T) :
    only T u ((countFailed s)) ↔ only T u s := by
  refine only_step (T' := [.hdrs, .mesh, .host, .glob]) ?_ h0; unfold countFailed; simp

@[simp] theorem failedRead_only (x space o n : Nat) (T : List Part) (u s : State) (h0 : [.hdrs, .ledge, .mesh, .hbm, .host,
    .glob, .evts] ⊆ T) :
    only T u ((failedRead x space o n s)) ↔ only T u s := by
  refine only_step (T' := [.hdrs, .ledge, .mesh, .hbm, .host, .glob, .evts]) ?_ h0; unfold failedRead; dsimp only; (repeat' split) <;> simp

@[simp] theorem retireUnit_only (u : MemUnit) (T : List Part) (u0 s : State) (h0 : [.hdrs, .ledge, .hbm, .host, .glob, .evts]
    ⊆ T) :
    only T u0 ((retireUnit u s)) ↔ only T u0 s := by
  refine only_step (T' := [.hdrs, .ledge, .hbm, .host, .glob, .evts]) ?_ h0; unfold retireUnit; (repeat' split) <;> simp

@[simp] theorem trace_only (c kind x status idx op : Nat) (id : DWord) (T : List Part) (u s : State) (h0 : [.hdrs, .host,
    .glob, .dbg] ⊆ T) :
    only T u ((trace c kind x status idx op id s)) ↔ only T u s := by
  refine only_step (T' := [.hdrs, .host, .glob, .dbg]) ?_ h0; unfold trace; (repeat' split) <;> simp

@[simp] theorem haltAck_only (c : Nat) (T : List Part) (u s : State) (h0 : [.hdrs, .host, .glob] ⊆ T) :
    only T u ((haltAck c s)) ↔ only T u s := by
  refine only_step (T' := [.hdrs, .host, .glob]) ?_ h0; unfold haltAck; simp

@[simp] theorem setCause_only (c bitNo : Nat) (T : List Part) (u s : State) (h0 : [.hdrs, .cores, .host, .glob] ⊆ T) :
    only T u ((setCause c bitNo s)) ↔ only T u s := by
  refine only_step (T' := [.hdrs, .cores, .host, .glob]) ?_ h0; unfold setCause; simp

@[simp] theorem returnBalance_only (c : Nat) (T : List Part) (u s : State) (h0 : [.ctls, .pwr] ⊆ T) :
    only T u ((returnBalance c s)) ↔ only T u s := by
  refine only_step (T' := [.ctls, .pwr]) ?_ h0; unfold returnBalance; simp

@[simp] theorem requeue_only (js : List PitchJob) (T : List Part) (u s : State) (h0 : [.ctx] ⊆ T) :
    only T u ((requeue js s)) ↔ only T u s := by
  refine only_step (T' := [.ctx]) ?_ h0; unfold requeue; simp

@[simp] theorem unpend_only (c : Nat) (T : List Part) (u s : State) (h0 : [.cores, .ctx] ⊆ T) :
    only T u ((unpend c s)) ↔ only T u s := by
  refine only_step (T' := [.cores, .ctx]) ?_ h0; unfold unpend; (repeat' split) <;> simp

@[simp] theorem wipeOwned_only (x : Nat) (T : List Part) (u s : State) (h0 : [.cores, .ctls] ⊆ T) :
    only T u ((wipeOwned x s)) ↔ only T u s := by
  have key : only [.cores, .ctls] s ((wipeOwned x s)) := by
    unfold wipeOwned; try dsimp only
    (repeat' first | with_reducible apply only_if | split) <;> first | (simp; done) | (refine forAll_keeps ?_ _ _; intro x t; (try dsimp only); (repeat' split) <;> simp; done) | (refine only_trans ?_ (forAll_keeps (T := [.cores, .ctls]) (by (intro x t; (try dsimp only); (repeat' split) <;> simp; done)) _ _); simp; done) | (simp; (refine only_trans ?_ (forAll_keeps (T := [.cores, .ctls]) (by (intro x t; (try dsimp only); (repeat' split) <;> simp; done)) _ _); simp; done)) | (intro p hp; cases p <;> first | rfl | (simp at hp; done)) | (simp; intro p hp; cases p <;> first | rfl | (simp at hp; done)) | simp
  exact only_step key h0

@[simp] theorem dropPages_only (x : Nat) (T : List Part) (u s : State) (h0 : [.reply, .hdrs, .host, .glob] ⊆ T) :
    only T u ((dropPages x s)) ↔ only T u s := by
  refine only_step (T' := [.reply, .hdrs, .host, .glob]) ?_ h0; unfold dropPages; simp

@[simp] theorem eraseSeal_only (x : Nat) (T : List Part) (u s : State) (h0 : [.sec] ⊆ T) :
    only T u ((eraseSeal x s)) ↔ only T u s := by
  refine only_step (T' := [.sec]) ?_ h0; unfold eraseSeal; simp

@[simp] theorem startScrub_only (x : Nat) (T : List Part) (u s : State) (h0 : [.reply, .hdrs, .cores, .ctls, .ctx, .host,
    .glob, .sec, .evts] ⊆ T) :
    only T u ((startScrub x s)) ↔ only T u s := by
  refine only_step (T' := [.reply, .hdrs, .cores, .ctls, .ctx, .host, .glob, .sec, .evts]) ?_ h0; unfold startScrub; simp

@[simp] theorem checkDrain_only (x : Nat) (T : List Part) (u s : State) (h0 : [.reply, .hdrs, .cores, .ctls, .ctx, .host,
    .glob, .sec, .evts] ⊆ T) :
    only T u ((checkDrain x s)) ↔ only T u s := by
  refine only_step (T' := [.reply, .hdrs, .cores, .ctls, .ctx, .host, .glob, .sec, .evts]) ?_ h0; unfold checkDrain; simp

@[simp] theorem startRun_only (c : Nat) (j : PitchJob) (fetched : Bool) (T : List Part) (u s : State) (h0 : [.reply, .hdrs,
    .cores, .ctls, .ctx, .fence, .host, .glob, .sec, .dbg, .evts] ⊆ T) :
    only T u ((startRun c j fetched s)) ↔ only T u s := by
  refine only_step (T' := [.reply, .hdrs, .cores, .ctls, .ctx, .fence, .host, .glob, .sec, .dbg, .evts]) ?_ h0; unfold startRun; simp

@[simp] theorem startNext_only (c : Nat) (T : List Part) (u s : State) (h0 : [.reply, .hdrs, .cores, .ctls, .ctx, .fence,
    .host, .glob, .sec, .dbg, .evts] ⊆ T) :
    only T u ((startNext c s)) ↔ only T u s := by
  refine only_step (T' := [.reply, .hdrs, .cores, .ctls, .ctx, .fence, .host, .glob, .sec, .dbg, .evts]) ?_ h0; unfold startNext; (repeat' split) <;> simp

@[simp] theorem wipePlanned_only  (T : List Part) (u s : State) (h0 : [.ctls] ⊆ T) :
    only T u ((wipePlanned s)) ↔ only T u s := by
  have key : only [.ctls] s ((wipePlanned s)) := by
    unfold wipePlanned; try dsimp only
    (repeat' first | with_reducible apply only_if | split) <;> first | (simp; done) | (refine forAll_keeps ?_ _ _; intro x t; (try dsimp only); (repeat' split) <;> simp; done) | (refine only_trans ?_ (forAll_keeps (T := [.ctls]) (by (intro x t; (try dsimp only); (repeat' split) <;> simp; done)) _ _); simp; done) | (simp; (refine only_trans ?_ (forAll_keeps (T := [.ctls]) (by (intro x t; (try dsimp only); (repeat' split) <;> simp; done)) _ _); simp; done)) | (intro p hp; cases p <;> first | rfl | (simp at hp; done)) | (simp; intro p hp; cases p <;> first | rfl | (simp at hp; done)) | simp
  exact only_step key h0

@[simp] theorem fenceCore_only (c : Nat) (T : List Part) (u s : State) (h0 : [.hdrs, .cores, .ctls, .ctx, .fence, .host,
    .glob, .pwr, .evts] ⊆ T) :
    only T u ((fenceCore c s)) ↔ only T u s := by
  refine only_step (T' := [.hdrs, .cores, .ctls, .ctx, .fence, .host, .glob, .pwr, .evts]) ?_ h0; unfold fenceCore; dsimp only; (repeat' split) <;> simp

@[simp] theorem fenceIfDue_only (c : Nat) (T : List Part) (u s : State) (h0 : [.hdrs, .cores, .ctls, .ctx, .fence, .host,
    .glob, .pwr, .evts] ⊆ T) :
    only T u ((fenceIfDue c s)) ↔ only T u s := by
  refine only_step (T' := [.hdrs, .cores, .ctls, .ctx, .fence, .host, .glob, .pwr, .evts]) ?_ h0; unfold fenceIfDue; simp

@[simp] theorem endRun_only (c : Nat) (st : Status) (faultPc : BitVec 16) (T : List Part) (u s : State) (h0 : [.reply, .hdrs,
    .cores, .ctls, .ctx, .fence, .host, .glob, .pwr, .sec, .dbg, .evts] ⊆ T) :
    only T u ((endRun c st faultPc s)) ↔ only T u s := by
  refine only_step (T' := [.reply, .hdrs, .cores, .ctls, .ctx, .fence, .host, .glob, .pwr, .sec, .dbg, .evts]) ?_ h0; unfold endRun; dsimp only; (repeat' split) <;> simp

@[simp] theorem stopRun_only (c : Nat) (counted : Bool) (source : Nat) (T : List Part) (u s : State) (h0 : [.cores, .ctls,
    .ctx, .fence, .pwr] ⊆ T) :
    only T u ((stopRun c counted source s)) ↔ only T u s := by
  refine only_step (T' := [.cores, .ctls, .ctx, .fence, .pwr]) ?_ h0; unfold stopRun; (repeat' split) <;> simp

@[simp] theorem refuseWord_only (c : Nat) (T : List Part) (u s : State) (h0 : [.reply, .hdrs, .cores, .ctls, .ctx, .fence,
    .host, .glob, .pwr, .sec, .dbg, .evts] ⊆ T) :
    only T u ((refuseWord c s)) ↔ only T u s := by
  refine only_step (T' := [.reply, .hdrs, .cores, .ctls, .ctx, .fence, .host, .glob, .pwr, .sec, .dbg, .evts]) ?_ h0; unfold refuseWord; simp

@[simp] theorem issued_only (c : Nat) (w : DWord) (T : List Part) (u s : State) (h0 : [.hdrs, .cores, .ctls, .host, .glob,
    .dbg] ⊆ T) :
    only T u ((issued c w s)) ↔ only T u s := by
  refine only_step (T' := [.hdrs, .cores, .ctls, .host, .glob, .dbg]) ?_ h0; unfold issued; (repeat' split) <;> simp

@[simp] theorem enqueue_only (c : Nat) (f : Flight) (T : List Part) (u s : State) (h0 : [.cores] ⊆ T) :
    only T u ((enqueue c f s)) ↔ only T u s := by
  refine only_step (T' := [.cores]) ?_ h0; unfold enqueue; simp

@[simp] theorem markDone_only (c pc : Nat) (T : List Part) (u s : State) (h0 : [.cores] ⊆ T) :
    only T u ((markDone c pc s)) ↔ only T u s := by
  refine only_step (T' := [.cores]) ?_ h0; unfold markDone; simp

@[simp] theorem retire_only (c pc : Nat) (T : List Part) (u s : State) (h0 : [.hdrs, .cores, .host, .glob, .dbg] ⊆ T) :
    only T u ((retire c pc s)) ↔ only T u s := by
  refine only_step (T' := [.hdrs, .cores, .host, .glob, .dbg]) ?_ h0; unfold retire; (repeat' split) <;> simp

theorem loadStep_key (c : Nat) (f : Flight) (r : Run) (s t : State) (h : loadStep c f r s = some t) : only [.reply, .hdrs, .cores, .ctls, .ledge, .mesh, .hbm, .ctx, .fence, .host, .glob, .pwr, .sec, .dbg, .evts] s t := by
  unfold loadStep at h; (try dsimp only at h)
  (repeat' split at h) <;> first | (simp at h; done) | (simp only [Option.some.injEq] at h; subst h; simp; done) | (simp only [Option.some.injEq] at h; subst h; (repeat' split) <;> simp)

theorem gridStep_key (c : Nat) (f : Flight) (r : Run) (s t : State) (h : gridStep c f r s = some t) : only [.reply, .hdrs, .cores, .ctls, .ctx, .fence, .host, .glob, .pwr, .sec, .dbg, .evts] s t := by
  unfold gridStep at h; (try dsimp only at h)
  (repeat' split at h) <;> first | (simp at h; done) | (simp only [Option.some.injEq] at h; subst h; simp; done) | (simp only [Option.some.injEq] at h; subst h; (repeat' split) <;> simp)

@[simp] theorem applyReport_only (c : Nat) (r : Report) (T : List Part) (u s : State) (h0 : [.hdrs, .cores, .host, .glob] ⊆ T) :
    only T u ((applyReport c r s)) ↔ only T u s := by
  refine only_step (T' := [.hdrs, .cores, .host, .glob]) ?_ h0; unfold applyReport; simp

@[simp] theorem readOut_only (c : Nat) (fmt : BitVec 4) (rm : BitVec 3) (clr vr : Bool) (e0 : BitVec 8) (n : BitVec 9) (dst :
    BitVec 21) (cs cc : BitVec 2) (T : List Part) (u s : State) (h0 : [.hdrs, .cores, .host, .glob] ⊆ T) :
    only T u ((readOut c fmt rm clr vr e0 n dst cs cc s)) ↔ only T u s := by
  refine only_step (T' := [.hdrs, .cores, .host, .glob]) ?_ h0; unfold readOut; (repeat' split) <;> simp

@[simp] theorem exportRows_only (c : Nat) (e0 n dst : Nat) (cs cc : BitVec 2) (T : List Part) (u s : State) (h0 : [.hdrs,
    .cores, .host, .glob] ⊆ T) :
    only T u ((exportRows c e0 n dst cs cc s)) ↔ only T u s := by
  refine only_step (T' := [.hdrs, .cores, .host, .glob]) ?_ h0; unfold exportRows; simp

@[simp] theorem mergeRows_only (c : Nat) (e0 n src : Nat) (cs cc : BitVec 2) (T : List Part) (u s : State) (h0 : [.hdrs,
    .cores, .host, .glob] ⊆ T) :
    only T u ((mergeRows c e0 n src cs cc s)) ↔ only T u s := by
  refine only_step (T' := [.hdrs, .cores, .host, .glob]) ?_ h0; unfold mergeRows; simp

@[simp] theorem anchorWork_only (c : Nat) (i : PitchInstr) (T : List Part) (u s : State) (h0 : [.hdrs, .cores, .host, .glob]
    ⊆ T) :
    only T u ((anchorWork c i s)) ↔ only T u s := by
  refine only_step (T' := [.hdrs, .cores, .host, .glob]) ?_ h0; unfold anchorWork; (repeat' split) <;> simp

theorem anchorStep_key (c : Nat) (f : Flight) (r : Run) (s t : State) (h : anchorStep c f r s = some t) : only [.hdrs, .cores, .host, .glob] s t := by
  unfold anchorStep at h; (try dsimp only at h)
  (repeat' split at h) <;> first | (simp at h; done) | (simp only [Option.some.injEq] at h; subst h; simp; done) | (simp only [Option.some.injEq] at h; subst h; (repeat' split) <;> simp)

theorem vecStep_key (c : Nat) (f : Flight) (r : Run) (s t : State) (h : vecStep c f r s = some t) : only [.hdrs, .cores, .host, .glob] s t := by
  unfold vecStep at h; (try dsimp only at h)
  (repeat' split at h) <;> first | (simp at h; done) | (simp only [Option.some.injEq] at h; subst h; simp; done) | (simp only [Option.some.injEq] at h; subst h; (repeat' split) <;> simp)

@[simp] theorem pumpTx_only (p : Nat) (T : List Part) (u s : State) (h0 : [.fab] ⊆ T) :
    only T u ((pumpTx p s)) ↔ only T u s := by
  refine only_step (T' := [.fab]) ?_ h0; unfold pumpTx; simp

@[simp] theorem queueOn_only (p : Nat) (b : FabBlock) (origin : Option CtxId) (T : List Part) (u s : State) (h0 : [.fab] ⊆ T) :
    only T u ((queueOn p b origin s)) ↔ only T u s := by
  refine only_step (T' := [.fab]) ?_ h0; unfold queueOn; simp

@[simp] theorem freeBuf_only (inPort : Option PortId) (b : FabBlock) (T : List Part) (u s : State) (h0 : [.hdrs, .fab, .host,
    .glob, .evts] ⊆ T) :
    only T u ((freeBuf inPort b s)) ↔ only T u s := by
  refine only_step (T' := [.hdrs, .fab, .host, .glob, .evts]) ?_ h0; unfold freeBuf; dsimp only; (repeat' split) <;> simp

@[simp] theorem recordReturn_only (x : CtxId) (node : BitVec 16) (job : BitVec 12) (ch : BitVec 4) (vl : BitVec 2) (reason :
    BitVec 4) (unknown : Bool) (T : List Part) (u s : State) (h0 : [.fab] ⊆ T) :
    only T u ((recordReturn x node job ch vl reason unknown s)) ↔ only T u s := by
  refine only_step (T' := [.fab]) ?_ h0; unfold recordReturn; dsimp only; (repeat' split) <;> simp

@[simp] theorem endCopy_only (w : WinCopy) (st : Status) (T : List Part) (u s : State) (h0 : [.reply, .hdrs, .fab, .host,
    .glob] ⊆ T) :
    only T u ((endCopy w st s)) ↔ only T u s := by
  refine only_step (T' := [.reply, .hdrs, .fab, .host, .glob]) ?_ h0; unfold endCopy; simp

@[simp] theorem takeReturn_only (b : FabBlock) (T : List Part) (u s : State) (h0 : [.reply, .hdrs, .fab, .host, .glob] ⊆ T) :
    only T u ((takeReturn b s)) ↔ only T u s := by
  refine only_step (T' := [.reply, .hdrs, .fab, .host, .glob]) ?_ h0; unfold takeReturn; dsimp only; (repeat' split) <;> simp

@[simp] theorem answered_only (w : WinCopy) (k : Nat) (T : List Part) (u s : State) (h0 : [.reply, .hdrs, .fab, .host, .glob]
    ⊆ T) :
    only T u ((answered w k s)) ↔ only T u s := by
  refine only_step (T' := [.reply, .hdrs, .fab, .host, .glob]) ?_ h0; unfold answered; dsimp only; (repeat' split) <;> simp

@[simp] theorem takeAck_only (b : FabBlock) (T : List Part) (u s : State) (h0 : [.reply, .hdrs, .fab, .host, .glob] ⊆ T) :
    only T u ((takeAck b s)) ↔ only T u s := by
  refine only_step (T' := [.reply, .hdrs, .fab, .host, .glob]) ?_ h0; unfold takeAck; (repeat' split) <;> simp

@[simp] theorem takeRdd_only (b : FabBlock) (T : List Part) (u s : State) (h0 : [.reply, .hdrs, .ledge, .hbm, .fab, .host,
    .glob] ⊆ T) :
    only T u ((takeRdd b s)) ↔ only T u s := by
  refine only_step (T' := [.reply, .hdrs, .ledge, .hbm, .fab, .host, .glob]) ?_ h0; unfold takeRdd; (repeat' split) <;> simp

@[simp] theorem sendBack_only (b : FabBlock) (T : List Part) (u s : State) (h0 : [.reply, .hdrs, .ledge, .hbm, .fab, .host,
    .glob] ⊆ T) :
    only T u ((sendBack b s)) ↔ only T u s := by
  refine only_step (T' := [.reply, .hdrs, .ledge, .hbm, .fab, .host, .glob]) ?_ h0; unfold sendBack; (repeat' split) <;> simp

@[simp] theorem sendReturn_only (b : FabBlock) (reason : Nat) (inPort : Option PortId) (T : List Part) (u s : State) (h0 :
    [.reply, .hdrs, .ledge, .hbm, .fab, .host, .glob, .evts] ⊆ T) :
    only T u ((sendReturn b reason inPort s)) ↔ only T u s := by
  refine only_step (T' := [.reply, .hdrs, .ledge, .hbm, .fab, .host, .glob, .evts]) ?_ h0; unfold sendReturn; simp

@[simp] theorem putLines_only (x ch : Nat) (b : FabBlock) (T : List Part) (u s : State) (h0 : [.ledge, .hbm, .fab] ⊆ T) :
    only T u ((putLines x ch b s)) ↔ only T u s := by
  refine only_step (T' := [.ledge, .hbm, .fab]) ?_ h0; unfold putLines; simp

@[simp] theorem deliverData_only (b : FabBlock) (inPort : Option PortId) (T : List Part) (u s : State) (h0 : [.reply, .hdrs,
    .ledge, .hbm, .fab, .host, .glob, .evts] ⊆ T) :
    only T u ((deliverData b inPort s)) ↔ only T u s := by
  refine only_step (T' := [.reply, .hdrs, .ledge, .hbm, .fab, .host, .glob, .evts]) ?_ h0; unfold deliverData; dsimp only; (repeat' split) <;> simp

theorem drainChan_key : ∀ (n x ch : Nat) (s : State), only [.hdrs, .ledge, .hbm, .fab, .host, .glob, .evts] s (drainChan n x ch s)
  | 0, _, _, _ => only_refl _ _
  | n + 1, x, ch, s => by
    unfold drainChan; dsimp only; split
    · simp
    · split
      · exact only_trans (by simp) (drainChan_key n x ch _)
      · simp
@[simp] theorem drainChan_only (n x ch : Nat) (T : List Part) (u s : State) (h0 : [.hdrs, .ledge, .hbm, .fab, .host, .glob,
    .evts] ⊆ T) :
    only T u (drainChan n x ch s) ↔ only T u s := only_step (drainChan_key n x ch s) h0

@[simp] theorem returnWaiting_only (x ch reason : Nat) (T : List Part) (u s : State) (h0 : [.reply, .hdrs, .ledge, .hbm,
    .fab, .host, .glob, .evts] ⊆ T) :
    only T u ((returnWaiting x ch reason s)) ↔ only T u s := by
  refine only_step (T' := [.reply, .hdrs, .ledge, .hbm, .fab, .host, .glob, .evts]) ?_ h0; unfold returnWaiting; simp

@[simp] theorem takeWinWr_only (b : FabBlock) (inPort : Option PortId) (T : List Part) (u s : State) (h0 : [.reply, .hdrs,
    .ledge, .hbm, .fab, .host, .glob, .evts] ⊆ T) :
    only T u ((takeWinWr b inPort s)) ↔ only T u s := by
  refine only_step (T' := [.reply, .hdrs, .ledge, .hbm, .fab, .host, .glob, .evts]) ?_ h0; unfold takeWinWr; (repeat' split) <;> simp

@[simp] theorem takeWinRd_only (b : FabBlock) (inPort : Option PortId) (T : List Part) (u s : State) (h0 : [.reply, .hdrs,
    .ledge, .mesh, .hbm, .fab, .host, .glob, .evts] ⊆ T) :
    only T u ((takeWinRd b inPort s)) ↔ only T u s := by
  refine only_step (T' := [.reply, .hdrs, .ledge, .mesh, .hbm, .fab, .host, .glob, .evts]) ?_ h0; unfold takeWinRd; (repeat' split) <;> simp

@[simp] theorem emit_only (b : FabBlock) (origin : Option CtxId) (inPort : Option PortId) (T : List Part) (u s : State) (h0 :
    [.reply, .hdrs, .ledge, .mesh, .hbm, .fab, .host, .glob, .evts] ⊆ T) :
    only T u ((emit b origin inPort s).st) ↔ only T u s := by
  refine only_step (T' := [.reply, .hdrs, .ledge, .mesh, .hbm, .fab, .host, .glob, .evts]) ?_ h0; unfold emit; (repeat' split) <;> simp

@[simp] theorem emitLater_only (b : FabBlock) (origin : Option CtxId) (inPort : Option PortId) (T : List Part) (u s : State)
    (h0 : [.reply, .hdrs, .ledge, .mesh, .hbm, .fab, .host, .glob, .evts] ⊆ T) :
    only T u ((emitLater b origin inPort s)) ↔ only T u s := by
  refine only_step (T' := [.reply, .hdrs, .ledge, .mesh, .hbm, .fab, .host, .glob, .evts]) ?_ h0; unfold emitLater; dsimp only; (repeat' split) <;> simp

@[simp] theorem releaseHeld_only  (T : List Part) (u s : State) (h0 : [.reply, .hdrs, .ledge, .mesh, .hbm, .fab, .host,
    .glob, .evts] ⊆ T) :
    only T u ((releaseHeld s)) ↔ only T u s := by
  refine only_step (T' := [.reply, .hdrs, .ledge, .mesh, .hbm, .fab, .host, .glob, .evts]) ?_ h0; unfold releaseHeld; simp

@[simp] theorem startHold_only (node : Nat) (T : List Part) (u s : State) (h0 : [.hdrs, .fab, .host, .glob] ⊆ T) :
    only T u ((startHold node s)) ↔ only T u s := by
  refine only_step (T' := [.hdrs, .fab, .host, .glob]) ?_ h0; unfold startHold; simp

@[simp] theorem portChanged_only (p : Nat) (T : List Part) (u s : State) (h0 : [.reply, .hdrs, .ledge, .mesh, .hbm, .fab,
    .host, .glob, .evts] ⊆ T) :
    only T u ((portChanged p s)) ↔ only T u s := by
  refine only_step (T' := [.reply, .hdrs, .ledge, .mesh, .hbm, .fab, .host, .glob, .evts]) ?_ h0; unfold portChanged; simp

@[simp] theorem portDown_only (p : Nat) (st : PortSt) (T : List Part) (u s : State) (h0 : [.reply, .hdrs, .ledge, .mesh,
    .hbm, .fab, .host, .glob, .evts] ⊆ T) :
    only T u ((portDown p st s)) ↔ only T u s := by
  refine only_step (T' := [.reply, .hdrs, .ledge, .mesh, .hbm, .fab, .host, .glob, .evts]) ?_ h0; unfold portDown; dsimp only; (repeat' split) <;> simp

@[simp] theorem startTraining_only (p : Nat) (T : List Part) (u s : State) (h0 : [.fab] ⊆ T) :
    only T u ((startTraining p s)) ↔ only T u s := by
  refine only_step (T' := [.fab]) ?_ h0; unfold startTraining; simp

@[simp] theorem enterUp_only (p : Nat) (T : List Part) (u s : State) (h0 : [.reply, .hdrs, .ledge, .mesh, .hbm, .fab, .host,
    .glob, .evts] ⊆ T) :
    only T u ((enterUp p s)) ↔ only T u s := by
  refine only_step (T' := [.reply, .hdrs, .ledge, .mesh, .hbm, .fab, .host, .glob, .evts]) ?_ h0; unfold enterUp; simp

@[simp] theorem disposeBlocks_only (p : Nat) (bs : List TxBlk) (T : List Part) (u s : State) (h0 : [.reply, .hdrs, .ledge,
    .hbm, .fab, .host, .glob, .evts] ⊆ T) :
    only T u ((disposeBlocks p bs s)) ↔ only T u s := by
  have key : only [.reply, .hdrs, .ledge, .hbm, .fab, .host, .glob, .evts] s ((disposeBlocks p bs s)) := by
    unfold disposeBlocks; try dsimp only
    (repeat' first | with_reducible apply only_if | split) <;> first | (simp; done) | (refine forAll_keeps ?_ _ _; intro x t; (try dsimp only); (repeat' split) <;> simp; done) | (refine only_trans ?_ (forAll_keeps (T := [.reply, .hdrs, .ledge, .hbm, .fab, .host, .glob, .evts]) (by (intro x t; (try dsimp only); (repeat' split) <;> simp; done)) _ _); simp; done) | (simp; (refine only_trans ?_ (forAll_keeps (T := [.reply, .hdrs, .ledge, .hbm, .fab, .host, .glob, .evts]) (by (intro x t; (try dsimp only); (repeat' split) <;> simp; done)) _ _); simp; done)) | (intro p hp; cases p <;> first | rfl | (simp at hp; done)) | (simp; intro p hp; cases p <;> first | rfl | (simp at hp; done)) | simp
  exact only_step key h0

@[simp] theorem afterExchange_only (p : Nat) (T : List Part) (u s : State) (h0 : [.reply, .hdrs, .ledge, .mesh, .hbm, .fab,
    .host, .glob, .evts] ⊆ T) :
    only T u ((afterExchange p s)) ↔ only T u s := by
  refine only_step (T' := [.reply, .hdrs, .ledge, .mesh, .hbm, .fab, .host, .glob, .evts]) ?_ h0; unfold afterExchange; dsimp only; (repeat' split) <;> simp

@[simp] theorem beginReset_only (p : Nat) (why : Nat) (T : List Part) (u s : State) (h0 : [.reply, .hdrs, .ledge, .mesh,
    .hbm, .fab, .host, .glob, .evts] ⊆ T) :
    only T u ((beginReset p why s)) ↔ only T u s := by
  refine only_step (T' := [.reply, .hdrs, .ledge, .mesh, .hbm, .fab, .host, .glob, .evts]) ?_ h0; unfold beginReset; dsimp only; (repeat' split) <;> simp

@[simp] theorem exchange_only (p : Nat) (last : BitVec 12) (os : List Nat) (T : List Part) (u s : State) (h0 : [.fab] ⊆ T) :
    only T u ((exchange p last os s)) ↔ only T u s := by
  refine only_step (T' := [.fab]) ?_ h0; unfold exchange; simp

@[simp] theorem retireLane_only (p l : Nat) (T : List Part) (u s : State) (h0 : [.hdrs, .fab, .host, .glob, .evts] ⊆ T) :
    only T u ((retireLane p l s)) ↔ only T u s := by
  refine only_step (T' := [.hdrs, .fab, .host, .glob, .evts]) ?_ h0; unfold retireLane; simp

@[simp] theorem countRetry_only (p : Nat) (lanes : BitVec 4) (T : List Part) (u s : State) (h0 : [.reply, .hdrs, .ledge,
    .mesh, .hbm, .fab, .host, .glob, .evts] ⊆ T) :
    only T u ((countRetry p lanes s)) ↔ only T u s := by
  refine only_step (T' := [.reply, .hdrs, .ledge, .mesh, .hbm, .fab, .host, .glob, .evts]) ?_ h0; unfold countRetry; dsimp only; (repeat' split) <;> simp

theorem moveStep_key (c : Nat) (f : Flight) (r : Run) (s t : State) (h : moveStep c f r s = some t) : only [.reply, .hdrs, .cores, .ctls, .ledge, .mesh, .hbm, .ctx, .fence, .host, .glob, .pwr, .sec, .dbg, .evts] s t := by
  unfold moveStep at h; (try dsimp only at h)
  (repeat' split at h) <;> first | (simp at h; done) | (simp only [Option.some.injEq] at h; subst h; simp; done) | (simp only [Option.some.injEq] at h; subst h; (repeat' split) <;> simp)

theorem unitStep_key (c v : Nat) (s t : State) (h : unitStep c v s = some t) : only [.reply, .hdrs, .cores, .ctls, .ledge, .mesh, .hbm, .ctx, .fence, .host, .glob, .pwr, .sec, .dbg, .evts] s t := by
  unfold unitStep at h; split at h
  · simp at h
  · split at h
    · simp at h
    · split at h
      · exact only_mono (loadStep_key _ _ _ _ _ h) (by simp)
      · exact only_mono (gridStep_key _ _ _ _ _ h) (by simp)
      · exact only_mono (anchorStep_key _ _ _ _ _ h) (by simp)
      · exact only_mono (vecStep_key _ _ _ _ _ h) (by simp)
      · exact only_mono (moveStep_key _ _ _ _ _ h) (by simp)

theorem pumpN_key : ∀ (n c : Nat) (s : State), only [.reply, .hdrs, .cores, .ctls, .ledge, .mesh, .hbm, .ctx, .fence, .host, .glob, .pwr, .sec, .dbg, .evts] s (pumpN n c s)
  | 0, _, _ => only_refl _ _
  | n + 1, c, s => by
    unfold pumpN; split
    · rename_i t h
      obtain ⟨v, -, hv⟩ := List.exists_of_findSome?_eq_some h
      exact only_trans (only_mono (unitStep_key _ _ _ _ hv) (by simp)) (pumpN_key n c t)
    · simp
@[simp] theorem pumpN_only (n c : Nat) (T : List Part) (u s : State) (h0 : [.reply, .hdrs, .cores, .ctls, .ledge, .mesh,
    .hbm, .ctx, .fence, .host, .glob, .pwr, .sec, .dbg, .evts] ⊆ T) :
    only T u (pumpN n c s) ↔ only T u s := only_step (pumpN_key n c s) h0

@[simp] theorem pumpUnits_only (c : Nat) (T : List Part) (u s : State) (h0 : [.reply, .hdrs, .cores, .ctls, .ledge, .mesh,
    .hbm, .ctx, .fence, .host, .glob, .pwr, .sec, .dbg, .evts] ⊆ T) :
    only T u ((pumpUnits c s)) ↔ only T u s := by
  refine only_step (T' := [.reply, .hdrs, .cores, .ctls, .ledge, .mesh, .hbm, .ctx, .fence, .host, .glob, .pwr, .sec, .dbg, .evts]) ?_ h0; unfold pumpUnits; simp

theorem issueWith_key (want : PitchInstr → Bool) (eff : Nat → PitchInstr → State → State)
    (he : ∀ c i s, only [.reply, .hdrs, .cores, .ctls, .ledge, .mesh, .hbm, .ctx, .fence, .host, .glob, .pwr, .sec, .dbg, .evts] s (eff c i s)) (c : Nat) (s : State) : only [.reply, .hdrs, .cores, .ctls, .ledge, .mesh, .hbm, .ctx, .fence, .host, .glob, .pwr, .sec, .dbg, .evts] s (issueWith want eff c s) := by
  have h1 : ∀ t, only [.reply, .hdrs, .cores, .ctls, .ledge, .mesh, .hbm, .ctx, .fence, .host, .glob, .pwr, .sec, .dbg, .evts] t (pumpUnits c t) := fun t => by simp
  unfold issueWith; (try dsimp only)
  (repeat' split) <;> first | (simp; done) | (refine only_trans (only_trans ?_ (he _ _ _)) (h1 _); simp)

@[simp] theorem issueAs_only (want : PitchInstr → Bool) (c : Nat) (T : List Part) (u s : State) (h0 : [.reply, .hdrs, .cores,
    .ctls, .ledge, .mesh, .hbm, .ctx, .fence, .host, .glob, .pwr, .sec, .dbg, .evts] ⊆ T) :
    only T u ((issueAs want c s)) ↔ only T u s := by
  have key : only [.reply, .hdrs, .cores, .ctls, .ledge, .mesh, .hbm, .ctx, .fence, .host, .glob, .pwr, .sec, .dbg, .evts] s ((issueAs want c s)) := by
    exact issueWith_key want _ (fun c i s => by simp) c s
  exact only_step key h0

@[simp] theorem ready_only (c : Nat) (T : List Part) (u s : State) (h0 : [.cores] ⊆ T) :
    only T u ((ready c s)) ↔ only T u s := by
  refine only_step (T' := [.cores]) ?_ h0; unfold ready; simp

@[simp] theorem programFetch_only (c : Nat) (crcFail : Bool) (T : List Part) (u s : State) (h0 : [.reply, .hdrs, .cores,
    .ctls, .ledge, .mesh, .hbm, .ctx, .fence, .host, .glob, .pwr, .sec, .dbg, .evts] ⊆ T) :
    only T u ((programFetch c crcFail s)) ↔ only T u s := by
  refine only_step (T' := [.reply, .hdrs, .cores, .ctls, .ledge, .mesh, .hbm, .ctx, .fence, .host, .glob, .pwr, .sec, .dbg, .evts]) ?_ h0; unfold programFetch; (repeat' split) <;> simp

@[simp] theorem dispatch_only (l : Nat) (T : List Part) (u s : State) (h0 : [.reply, .hdrs, .cores, .ctls, .ctx, .fence,
    .host, .glob, .sec, .dbg, .evts] ⊆ T) :
    only T u ((dispatch l s)) ↔ only T u s := by
  refine only_step (T' := [.reply, .hdrs, .cores, .ctls, .ctx, .fence, .host, .glob, .sec, .dbg, .evts]) ?_ h0; unfold dispatch; (repeat' split) <;> simp

@[simp] theorem publishOut_only (c : Nat) (r : Run) (m : OutMove) (T : List Part) (u s : State) (h0 : [.ledge, .hbm] ⊆ T) :
    only T u ((publishOut c r m s)) ↔ only T u s := by
  refine only_step (T' := [.ledge, .hbm]) ?_ h0; unfold publishOut; simp

@[simp] theorem publishSnd_only (c : Nat) (r : Run) (m : SndMove) (T : List Part) (u s : State) (h0 : [.reply, .hdrs, .ledge,
    .mesh, .hbm, .fab, .host, .glob, .evts] ⊆ T) :
    only T u ((publishSnd c r m s).1) ↔ only T u s := by
  have key : only [.reply, .hdrs, .ledge, .mesh, .hbm, .fab, .host, .glob, .evts] s ((publishSnd c r m s).1) := by
    unfold publishSnd; exact fold_keeps (T := [.reply, .hdrs, .ledge, .mesh, .hbm, .fab, .host, .glob, .evts]) (by intro b x; simp) _ (s, false)
  exact only_step key h0

@[simp] theorem publishReads_only (r : Run) (T : List Part) (u s : State) (h0 : [.hdrs, .ledge, .hbm, .fab, .host, .glob,
    .evts] ⊆ T) :
    only T u ((publishReads r s)) ↔ only T u s := by
  refine only_step (T' := [.hdrs, .ledge, .hbm, .fab, .host, .glob, .evts]) ?_ h0; unfold publishReads; simp

@[simp] theorem publishSig_only (x : Nat) (e : BitVec 6 × BitVec 16) (T : List Part) (u s : State) (h0 : [.ctx] ⊆ T) :
    only T u ((publishSig x e s)) ↔ only T u s := by
  refine only_step (T' := [.ctx]) ?_ h0; unfold publishSig; simp

@[simp] theorem publish_only (c : Nat) (r : Run) (T : List Part) (u s : State) (h0 : [.reply, .hdrs, .cores, .ctls, .ledge,
    .mesh, .hbm, .ctx, .fence, .fab, .host, .glob, .pwr, .sec, .dbg, .evts] ⊆ T) :
    only T u ((publish c r s)) ↔ only T u s := by
  have key : only [.reply, .hdrs, .cores, .ctls, .ledge, .mesh, .hbm, .ctx, .fence, .fab, .host, .glob, .pwr, .sec, .dbg, .evts] s ((publish c r s)) := by
    have h1 : ∀ t, only [.reply, .hdrs, .cores, .ctls, .ledge, .mesh, .hbm, .ctx, .fence, .fab, .host, .glob, .pwr, .sec, .dbg, .evts] t (r.snds.foldl (fun (t, lost) m => let e := publishSnd c r m t; (e.1, lost || e.2)) (t, false)).1 :=
      fun t => fold_keeps (T := [.reply, .hdrs, .cores, .ctls, .ledge, .mesh, .hbm, .ctx, .fence, .fab, .host, .glob, .pwr, .sec, .dbg, .evts]) (by intro b x; simp) _ (t, false)
    unfold publish; dsimp only; simp; exact only_trans (by simp) (h1 _)
  exact only_step key h0

@[simp] theorem commit_only (c : Nat) (T : List Part) (u s : State) (h0 : [.reply, .hdrs, .cores, .ctls, .ledge, .mesh, .hbm,
    .ctx, .fence, .fab, .host, .glob, .pwr, .sec, .dbg, .evts] ⊆ T) :
    only T u ((commit c s)) ↔ only T u s := by
  refine only_step (T' := [.reply, .hdrs, .cores, .ctls, .ledge, .mesh, .hbm, .ctx, .fence, .fab, .host, .glob, .pwr, .sec, .dbg, .evts]) ?_ h0; unfold commit; (repeat' split) <;> simp

@[simp] theorem cutoff_only (c : Nat) (T : List Part) (u s : State) (h0 : [.reply, .hdrs, .cores, .ctls, .ctx, .fence, .host,
    .glob, .pwr, .sec, .dbg, .evts] ⊆ T) :
    only T u ((cutoff c s)) ↔ only T u s := by
  refine only_step (T' := [.reply, .hdrs, .cores, .ctls, .ctx, .fence, .host, .glob, .pwr, .sec, .dbg, .evts]) ?_ h0; unfold cutoff; (repeat' split) <;> simp

@[simp] theorem watchdog_only (c : Nat) (T : List Part) (u s : State) (h0 : [.hdrs, .cores, .ctls, .ctx, .fence, .host,
    .glob, .pwr] ⊆ T) :
    only T u ((watchdog c s)) ↔ only T u s := by
  refine only_step (T' := [.hdrs, .cores, .ctls, .ctx, .fence, .host, .glob, .pwr]) ?_ h0; unfold watchdog; (repeat' split) <;> simp

@[simp] theorem reachBoundary_only (c : Nat) (T : List Part) (u s : State) (h0 : [.hdrs, .ctls, .host, .glob, .evts] ⊆ T) :
    only T u ((reachBoundary c s)) ↔ only T u s := by
  refine only_step (T' := [.hdrs, .ctls, .host, .glob, .evts]) ?_ h0; unfold reachBoundary; simp

@[simp] theorem unhold_only (c : Nat) (T : List Part) (u s : State) (h0 : [.ctls] ⊆ T) :
    only T u ((unhold c s)) ↔ only T u s := by
  refine only_step (T' := [.ctls]) ?_ h0; unfold unhold; simp

@[simp] theorem placeReissue_only (j : PitchJob) (l : Nat) (T : List Part) (u s : State) (h0 : [.hdrs, .cores, .ctx, .host,
    .glob, .evts] ⊆ T) :
    only T u ((placeReissue j l s)) ↔ only T u s := by
  refine only_step (T' := [.hdrs, .cores, .ctx, .host, .glob, .evts]) ?_ h0; unfold placeReissue; (repeat' split) <;> simp

@[simp] theorem reissue_only (j : PitchJob) (T : List Part) (u s : State) (h0 : [.reply, .hdrs, .cores, .ctls, .ctx, .fence,
    .host, .glob, .sec, .evts] ⊆ T) :
    only T u ((reissue j s)) ↔ only T u s := by
  refine only_step (T' := [.reply, .hdrs, .cores, .ctls, .ctx, .fence, .host, .glob, .sec, .evts]) ?_ h0; unfold reissue; dsimp only; (repeat' split) <;> simp

@[simp] theorem retryWaiting_only  (T : List Part) (u s : State) (h0 : [.reply, .hdrs, .cores, .ctls, .ctx, .fence, .host,
    .glob, .sec, .evts] ⊆ T) :
    only T u ((retryWaiting s)) ↔ only T u s := by
  refine only_step (T' := [.reply, .hdrs, .cores, .ctls, .ctx, .fence, .host, .glob, .sec, .evts]) ?_ h0; unfold retryWaiting; simp

@[simp] theorem countCore_only (c source : Nat) (T : List Part) (u s : State) (h0 : [.hdrs, .ctls, .host, .glob, .evts] ⊆ T) :
    only T u ((countCore c source s)) ↔ only T u s := by
  refine only_step (T' := [.hdrs, .ctls, .host, .glob, .evts]) ?_ h0; unfold countCore; simp

@[simp] theorem giveUp_only (r : StopRec) (T : List Part) (u s : State) (h0 : [.reply, .hdrs, .cores, .ctls, .ctx, .host,
    .glob, .sec, .evts] ⊆ T) :
    only T u ((giveUp r s)) ↔ only T u s := by
  refine only_step (T' := [.reply, .hdrs, .cores, .ctls, .ctx, .host, .glob, .sec, .evts]) ?_ h0; unfold giveUp; (repeat' split) <;> simp

@[simp] theorem stopRecord_only (c : Nat) (T : List Part) (u s : State) (h0 : [.reply, .hdrs, .cores, .ctls, .ctx, .fence,
    .host, .glob, .pwr, .sec, .evts] ⊆ T) :
    only T u ((stopRecord c s)) ↔ only T u s := by
  refine only_step (T' := [.reply, .hdrs, .cores, .ctls, .ctx, .fence, .host, .glob, .pwr, .sec, .evts]) ?_ h0; unfold stopRecord; dsimp only; (repeat' split) <;> simp

@[simp] theorem wipeOver_only (c : Nat) (done : Bool) (T : List Part) (u s : State) (h0 : [.hdrs, .cores, .ctls, .host,
    .glob] ⊆ T) :
    only T u ((wipeOver c done s)) ↔ only T u s := by
  refine only_step (T' := [.hdrs, .cores, .ctls, .host, .glob]) ?_ h0; unfold wipeOver; dsimp only; (repeat' split) <;> simp

end Sys2Proof.Machine
end

