-- ==== Sys2Proof/Laws/OnlyCard.lean ====
section
/-! SUPPORT. What each operation can touch: the fabric, collectives, contexts, memory and arbiters. -/

set_option linter.all false

namespace Sys2Proof.Machine

open Sys2Proof.Safety

@[simp] theorem enablePort_only (p : Nat) (T : List Part) (u s : State) (h0 : [.fab] ⊆ T) :
    only T u ((enablePort p s)) ↔ only T u s := by
  refine only_step (T' := [.fab]) ?_ h0; unfold enablePort; (repeat' split) <;> simp

@[simp] theorem drawTrng_only  (T : List Part) (u s : State) (h0 : [.fresh] ⊆ T) :
    only T u ((drawTrng s)) ↔ only T u s := by
  have key : only [.fresh] s ((drawTrng s)) := by
    unfold drawTrng; try dsimp only
    (repeat' first | with_reducible apply only_if | split) <;> first | (simp; done) | (refine forAll_keeps ?_ _ _; intro x t; (try dsimp only); (repeat' split) <;> simp; done) | (refine only_trans ?_ (forAll_keeps (T := [.fresh]) (by (intro x t; (try dsimp only); (repeat' split) <;> simp; done)) _ _); simp; done) | (simp; (refine only_trans ?_ (forAll_keeps (T := [.fresh]) (by (intro x t; (try dsimp only); (repeat' split) <;> simp; done)) _ _); simp; done)) | (intro p hp; cases p <;> first | rfl | (simp at hp; done)) | (simp; intro p hp; cases p <;> first | rfl | (simp at hp; done)) | simp
  exact only_step key h0

@[simp] theorem sendKey_only (p : Nat) (ct : Bool) (T : List Part) (u s : State) (h0 : [.fab, .fresh] ⊆ T) :
    only T u ((sendKey p ct s)) ↔ only T u s := by
  refine only_step (T' := [.fab, .fresh]) ?_ h0; unfold sendKey; simp

@[simp] theorem laneSet_only (p : Nat) (lanes failed : BitVec 4) (T : List Part) (u s : State) (h0 : [.reply, .hdrs, .ledge,
    .mesh, .hbm, .fab, .host, .glob, .evts, .fresh] ⊆ T) :
    only T u ((laneSet p lanes failed s)) ↔ only T u s := by
  refine only_step (T' := [.reply, .hdrs, .ledge, .mesh, .hbm, .fab, .host, .glob, .evts, .fresh]) ?_ h0; unfold laneSet; dsimp only; (repeat' split) <;> simp

@[simp] theorem trainingTimeout_only (p : Nat) (T : List Part) (u s : State) (h0 : [.reply, .hdrs, .ledge, .mesh, .hbm, .fab,
    .host, .glob, .evts] ⊆ T) :
    only T u ((trainingTimeout p s)) ↔ only T u s := by
  refine only_step (T' := [.reply, .hdrs, .ledge, .mesh, .hbm, .fab, .host, .glob, .evts]) ?_ h0; unfold trainingTimeout; dsimp only; (repeat' split) <;> simp

@[simp] theorem disablePort_only (p : Nat) (T : List Part) (u s : State) (h0 : [.reply, .hdrs, .ledge, .mesh, .hbm, .fab,
    .host, .glob, .evts] ⊆ T) :
    only T u ((disablePort p s)) ↔ only T u s := by
  refine only_step (T' := [.reply, .hdrs, .ledge, .mesh, .hbm, .fab, .host, .glob, .evts]) ?_ h0; unfold disablePort; dsimp only; (repeat' split) <;> simp

@[simp] theorem retrainPort_only (p : Nat) (T : List Part) (u s : State) (h0 : [.reply, .hdrs, .ledge, .mesh, .hbm, .fab,
    .host, .glob, .evts] ⊆ T) :
    only T u ((retrainPort p s)) ↔ only T u s := by
  refine only_step (T' := [.reply, .hdrs, .ledge, .mesh, .hbm, .fab, .host, .glob, .evts]) ?_ h0; unfold retrainPort; simp

@[simp] theorem startRotation_only (p : Nat) (T : List Part) (u s : State) (h0 : [.fab] ⊆ T) :
    only T u ((startRotation p s)) ↔ only T u s := by
  refine only_step (T' := [.fab]) ?_ h0; unfold startRotation; simp

@[simp] theorem rotatePort_only (p : Nat) (T : List Part) (u s : State) (h0 : [.fab] ⊆ T) :
    only T u ((rotatePort p s)) ↔ only T u s := by
  refine only_step (T' := [.fab]) ?_ h0; unfold rotatePort; simp

@[simp] theorem judgeAudit_only (p v : Nat) (k sSent sCred : Word) (T : List Part) (u s : State) (h0 : [.reply, .hdrs,
    .ledge, .mesh, .hbm, .fab, .host, .glob, .evts] ⊆ T) :
    only T u ((judgeAudit p v k sSent sCred s)) ↔ only T u s := by
  refine only_step (T' := [.reply, .hdrs, .ledge, .mesh, .hbm, .fab, .host, .glob, .evts]) ?_ h0; unfold judgeAudit; (repeat' split) <;> simp

@[simp] theorem acceptRun_only (p gen run : Nat) (bs : List FabBlock) (T : List Part) (u s : State) (h0 : [.reply, .hdrs,
    .ledge, .mesh, .hbm, .fab, .host, .glob, .evts] ⊆ T) :
    only T u ((acceptRun p gen run bs s)) ↔ only T u s := by
  have key : only [.reply, .hdrs, .ledge, .mesh, .hbm, .fab, .host, .glob, .evts] s ((acceptRun p gen run bs s)) := by
    unfold acceptRun; try dsimp only
    (repeat' first | with_reducible apply only_if | split) <;> first | (simp; done) | (refine forAll_keeps ?_ _ _; intro x t; (try dsimp only); (repeat' split) <;> simp; done) | (refine only_trans ?_ (forAll_keeps (T := [.reply, .hdrs, .ledge, .mesh, .hbm, .fab, .host, .glob, .evts]) (by (intro x t; (try dsimp only); (repeat' split) <;> simp; done)) _ _); simp; done) | (simp; (refine only_trans ?_ (forAll_keeps (T := [.reply, .hdrs, .ledge, .mesh, .hbm, .fab, .host, .glob, .evts]) (by (intro x t; (try dsimp only); (repeat' split) <;> simp; done)) _ _); simp; done)) | (intro p hp; cases p <;> first | rfl | (simp at hp; done)) | (simp; intro p hp; cases p <;> first | rfl | (simp at hp; done)) | simp
  exact only_step key h0

@[simp] theorem refuseRun_only (p : Nat) (lanes : BitVec 4) (T : List Part) (u s : State) (h0 : [.reply, .hdrs, .ledge,
    .mesh, .hbm, .fab, .host, .glob, .evts] ⊆ T) :
    only T u ((refuseRun p lanes s)) ↔ only T u s := by
  refine only_step (T' := [.reply, .hdrs, .ledge, .mesh, .hbm, .fab, .host, .glob, .evts]) ?_ h0; unfold refuseRun; simp

@[simp] theorem tagRx_only (p : Nat) (bs : List FabBlock) (tag : BitVec 128) (lanes : BitVec 4) (T : List Part) (u s : State)
    (h0 : [.reply, .hdrs, .ledge, .mesh, .hbm, .fab, .host, .glob, .evts] ⊆ T) :
    only T u ((tagRx p bs tag lanes s)) ↔ only T u s := by
  refine only_step (T' := [.reply, .hdrs, .ledge, .mesh, .hbm, .fab, .host, .glob, .evts]) ?_ h0; unfold tagRx; dsimp only; (repeat' split) <;> simp

@[simp] theorem rotationDone_only (p : Nat) (last : BitVec 12) (T : List Part) (u s : State) (h0 : [.hdrs, .fab, .host,
    .glob, .evts] ⊆ T) :
    only T u ((rotationDone p last s)) ↔ only T u s := by
  refine only_step (T' := [.hdrs, .fab, .host, .glob, .evts]) ?_ h0; unfold rotationDone; (repeat' split) <;> simp

@[simp] theorem ackRx_only (p : Nat) (last : BitVec 12) (crs : List (BitVec 6)) (T : List Part) (u s : State) (h0 : [.hdrs,
    .fab, .host, .glob, .evts] ⊆ T) :
    only T u ((ackRx p last crs s)) ↔ only T u s := by
  refine only_step (T' := [.hdrs, .fab, .host, .glob, .evts]) ?_ h0; unfold ackRx; simp

@[simp] theorem resendFrom_only (p : Nat) (first : Option (BitVec 12)) (lanes : BitVec 4) (T : List Part) (u s : State) (h0 :
    [.reply, .hdrs, .ledge, .mesh, .hbm, .fab, .host, .glob, .evts] ⊆ T) :
    only T u ((resendFrom p first lanes s)) ↔ only T u s := by
  refine only_step (T' := [.reply, .hdrs, .ledge, .mesh, .hbm, .fab, .host, .glob, .evts]) ?_ h0; unfold resendFrom; dsimp only; (repeat' split) <;> simp

@[simp] theorem resetRx_only (p : Nat) (cause : Byte) (last : BitVec 12) (os : List Nat) (T : List Part) (u s : State) (h0 :
    [.reply, .hdrs, .ledge, .mesh, .hbm, .fab, .host, .glob, .evts] ⊆ T) :
    only T u ((resetRx p cause last os s)) ↔ only T u s := by
  refine only_step (T' := [.reply, .hdrs, .ledge, .mesh, .hbm, .fab, .host, .glob, .evts]) ?_ h0; unfold resetRx; dsimp only; (repeat' split) <;> simp

@[simp] theorem exchangeTimeout_only (p : Nat) (T : List Part) (u s : State) (h0 : [.reply, .hdrs, .ledge, .mesh, .hbm, .fab,
    .host, .glob, .evts] ⊆ T) :
    only T u ((exchangeTimeout p s)) ↔ only T u s := by
  refine only_step (T' := [.reply, .hdrs, .ledge, .mesh, .hbm, .fab, .host, .glob, .evts]) ?_ h0; unfold exchangeTimeout; dsimp only; (repeat' split) <;> simp

@[simp] theorem postDelivery_only (x : Nat) (T : List Part) (u s : State) (h0 : [.hdrs, .fab, .host, .glob] ⊆ T) :
    only T u ((postDelivery x s)) ↔ only T u s := by
  refine only_step (T' := [.hdrs, .fab, .host, .glob]) ?_ h0; unfold postDelivery; dsimp only; (repeat' split) <;> simp

@[simp] theorem writeRoute_only (node ports : BitVec 16) (T : List Part) (u s : State) (h0 : [.hdrs, .fab, .host, .glob] ⊆ T) :
    only T u ((writeRoute node ports s)) ↔ only T u s := by
  refine only_step (T' := [.hdrs, .fab, .host, .glob]) ?_ h0; unfold writeRoute; simp

@[simp] theorem clearBroken_only (x ch : Nat) (T : List Part) (u s : State) (h0 : [.fab] ⊆ T) :
    only T u ((clearBroken x ch s)) ↔ only T u s := by
  refine only_step (T' := [.fab]) ?_ h0; unfold clearBroken; simp

@[simp] theorem sendTransfer_only (x : CtxId) (k rank base : Nat) (bytes : List Byte) (T : List Part) (u s : State) (h0 :
    [.reply, .hdrs, .ledge, .mesh, .hbm, .fab, .host, .glob, .evts] ⊆ T) :
    only T u ((sendTransfer x k rank base bytes s)) ↔ only T u s := by
  refine only_step (T' := [.reply, .hdrs, .ledge, .mesh, .hbm, .fab, .host, .glob, .evts]) ?_ h0; unfold sendTransfer; (repeat' split) <;> simp

@[simp] theorem gotResult_only (x : CtxId) (k o root base : Nat) (bytes : List Byte) (T : List Part) (u s : State) (h0 :
    [.reply, .hdrs, .ledge, .mesh, .hbm, .fab, .host, .glob, .evts] ⊆ T) :
    only T u ((gotResult x k o root base bytes s)) ↔ only T u s := by
  refine only_step (T' := [.reply, .hdrs, .ledge, .mesh, .hbm, .fab, .host, .glob, .evts]) ?_ h0; unfold gotResult; (repeat' split) <;> simp

@[simp] theorem reduceStep_only (x : CtxId) (k : Nat) (T : List Part) (u s : State) (h0 : [.reply, .hdrs, .ledge, .mesh,
    .hbm, .fab, .host, .glob, .evts] ⊆ T) :
    only T u ((reduceStep x k s)) ↔ only T u s := by
  refine only_step (T' := [.reply, .hdrs, .ledge, .mesh, .hbm, .fab, .host, .glob, .evts]) ?_ h0; unfold reduceStep; dsimp only; (repeat' split) <;> simp

@[simp] theorem castStep_only (x : CtxId) (k : Nat) (T : List Part) (u s : State) (h0 : [.reply, .hdrs, .ledge, .mesh, .hbm,
    .fab, .host, .glob, .evts] ⊆ T) :
    only T u ((castStep x k s)) ↔ only T u s := by
  refine only_step (T' := [.reply, .hdrs, .ledge, .mesh, .hbm, .fab, .host, .glob, .evts]) ?_ h0; unfold castStep; dsimp only; (repeat' split) <;> simp

@[simp] theorem collRx_only (b : FabBlock) (inPort : Option PortId) (T : List Part) (u s : State) (h0 : [.reply, .hdrs,
    .ledge, .mesh, .hbm, .fab, .host, .glob, .evts] ⊆ T) :
    only T u ((collRx b inPort s)) ↔ only T u s := by
  refine only_step (T' := [.reply, .hdrs, .ledge, .mesh, .hbm, .fab, .host, .glob, .evts]) ?_ h0; unfold collRx; dsimp only; (repeat' split) <;> simp

@[simp] theorem collComplete_only (x : CtxId) (k : Nat) (T : List Part) (u s : State) (h0 : [.reply, .hdrs, .ledge, .hbm,
    .fab, .host, .glob] ⊆ T) :
    only T u ((collComplete x k s)) ↔ only T u s := by
  have key : only [.reply, .hdrs, .ledge, .hbm, .fab, .host, .glob] s ((collComplete x k s)) := by
    unfold collComplete; split
    · exact only_refl _ _
    · rename_i c _; split
      · exact only_refl _ _
      · have h1 : ∀ (b : Bool) (t : State), only [.reply, .hdrs, .ledge, .hbm, .fab, .host, .glob] t (if b then forAll c.result (fun e t => match e.2 with
            | some bs => gaWrite x.val (c.dst + BitVec.ofNat 64 (e.1 * c.bytes)) bs t
            | none => t) t else t) := by
          intro b t; split
          · exact forAll_keeps (by intro e t; split <;> simp) _ _
          · exact only_refl _ _
        have h2 := h1 (c.status == .ok || c.status == .inexact || c.status == .saturated) s
        simp at h2 ⊢; exact h2
  exact only_step key h0

@[simp] theorem abortColl_only (x k : Nat) (T : List Part) (u s : State) (h0 : [.reply, .hdrs, .fab, .host, .glob] ⊆ T) :
    only T u ((abortColl x k s)) ↔ only T u s := by
  refine only_step (T' := [.reply, .hdrs, .fab, .host, .glob]) ?_ h0; unfold abortColl; (repeat' split) <;> simp

@[simp] theorem abortColls_only (x : Nat) (T : List Part) (u s : State) (h0 : [.reply, .hdrs, .fab, .host, .glob] ⊆ T) :
    only T u ((abortColls x s)) ↔ only T u s := by
  refine only_step (T' := [.reply, .hdrs, .fab, .host, .glob]) ?_ h0; unfold abortColls; simp

@[simp] theorem submitColl_only (src : CmdSrc) (x : CtxId) (d : List Byte) (T : List Part) (u s : State) (h0 : [.reply,
    .hdrs, .ledge, .mesh, .hbm, .fab, .host, .glob, .evts] ⊆ T) :
    only T u ((submitColl src x d s)) ↔ only T u s := by
  refine only_step (T' := [.reply, .hdrs, .ledge, .mesh, .hbm, .fab, .host, .glob, .evts]) ?_ h0; unfold submitColl; dsimp only; (repeat' split) <;> simp

@[simp] theorem submitWcopy_only (src : CmdSrc) (x : CtxId) (op rank : Nat) (addr off len : DWord) (T : List Part) (u s :
    State) (h0 : [.reply, .hdrs, .ledge, .mesh, .hbm, .ctx, .fab, .host, .glob, .evts] ⊆ T) :
    only T u ((submitWcopy src x op rank addr off len s)) ↔ only T u s := by
  have key : only [.reply, .hdrs, .ledge, .mesh, .hbm, .ctx, .fab, .host, .glob, .evts] s ((submitWcopy src x op rank addr off len s)) := by
    unfold submitWcopy; try dsimp only
    (repeat' first | with_reducible apply only_if | split) <;> first | (simp; done) | (refine forAll_keeps ?_ _ _; intro x t; (try dsimp only); (repeat' split) <;> simp; done) | (refine only_trans ?_ (forAll_keeps (T := [.reply, .hdrs, .ledge, .mesh, .hbm, .ctx, .fab, .host, .glob, .evts]) (by (intro x t; (try dsimp only); (repeat' split) <;> simp; done)) _ _); simp; done) | (simp; (refine only_trans ?_ (forAll_keeps (T := [.reply, .hdrs, .ledge, .mesh, .hbm, .ctx, .fab, .host, .glob, .evts]) (by (intro x t; (try dsimp only); (repeat' split) <;> simp; done)) _ _); simp; done)) | (intro p hp; cases p <;> first | rfl | (simp at hp; done)) | (simp; intro p hp; cases p <;> first | rfl | (simp at hp; done)) | simp
  exact only_step key h0

@[simp] theorem refuseWrite_only (x reason : Nat) (T : List Part) (u s : State) (h0 : [.hdrs, .ctx, .host, .glob] ⊆ T) :
    only T u ((refuseWrite x reason s)) ↔ only T u s := by
  refine only_step (T' := [.hdrs, .ctx, .host, .glob]) ?_ h0; unfold refuseWrite; simp

@[simp] theorem partitionTake_only (x off : Nat) (v : Word) (T : List Part) (u s : State) (h0 : [.ctx] ⊆ T) :
    only T u ((partitionTake x off v s)) ↔ only T u s := by
  refine only_step (T' := [.ctx]) ?_ h0; unfold partitionTake; simp

@[simp] theorem writeChecked_only (T : List Part) (x : Nat) (why : Option Nat) (take : State → State) (u s : State)
    (h : ∀ t, only T t (take t)) (h0 : [.ctx, .hdrs, .host, .glob] ⊆ T) : only T u (writeChecked x why take s) ↔ only T u s := by
  unfold writeChecked; split
  · exact refuseWrite_only _ _ T u s (fun a b => h0 (by simp at b ⊢; tauto))
  · exact only_step (h s) (fun _ a => a)

@[simp] theorem writeTeam_only (x i : Nat) (v : Word) (T : List Part) (u s : State) (h0 : [.hdrs, .ctx, .host, .glob] ⊆ T) :
    only T u ((writeTeam x i v s)) ↔ only T u s := by
  refine only_step (T' := [.hdrs, .ctx, .host, .glob]) ?_ h0; unfold writeTeam; simp

@[simp] theorem writeLive_only (x i : Nat) (v : Word) (T : List Part) (u s : State) (h0 : [.hdrs, .ctx, .host, .glob] ⊆ T) :
    only T u ((writeLive x i v s)) ↔ only T u s := by
  refine only_step (T' := [.hdrs, .ctx, .host, .glob]) ?_ h0; unfold writeLive; simp

@[simp] theorem writeShadow_only (x i : Nat) (v : Word) (T : List Part) (u s : State) (h0 : [.hdrs, .ctx, .host, .glob] ⊆ T) :
    only T u ((writeShadow x i v s)) ↔ only T u s := by
  refine only_step (T' := [.hdrs, .ctx, .host, .glob]) ?_ h0; unfold writeShadow; simp

@[simp] theorem writeCounts_only (x : Nat) (v : Word) (T : List Part) (u s : State) (h0 : [.hdrs, .ctx, .host, .glob] ⊆ T) :
    only T u ((writeCounts x v s)) ↔ only T u s := by
  refine only_step (T' := [.hdrs, .ctx, .host, .glob]) ?_ h0; unfold writeCounts; simp

@[simp] theorem writeBar_only (x ctr : Nat) (v : Word) (T : List Part) (u s : State) (h0 : [.hdrs, .ctx, .host, .glob] ⊆ T) :
    only T u ((writeBar x ctr v s)) ↔ only T u s := by
  refine only_step (T' := [.hdrs, .ctx, .host, .glob]) ?_ h0; unfold writeBar; simp

@[simp] theorem claimCores_only  (T : List Part) (u s : State) (h0 : [.ctls] ⊆ T) :
    only T u ((claimCores s)) ↔ only T u s := by
  have key : only [.ctls] s ((claimCores s)) := by
    unfold claimCores; try dsimp only
    (repeat' first | with_reducible apply only_if | split) <;> first | (simp; done) | (refine forAll_keeps ?_ _ _; intro x t; (try dsimp only); (repeat' split) <;> simp; done) | (refine only_trans ?_ (forAll_keeps (T := [.ctls]) (by (intro x t; (try dsimp only); (repeat' split) <;> simp; done)) _ _); simp; done) | (simp; (refine only_trans ?_ (forAll_keeps (T := [.ctls]) (by (intro x t; (try dsimp only); (repeat' split) <;> simp; done)) _ _); simp; done)) | (intro p hp; cases p <;> first | rfl | (simp at hp; done)) | (simp; intro p hp; cases p <;> first | rfl | (simp at hp; done)) | simp
  exact only_step key h0

@[simp] theorem zeroCounters_only (x : Nat) (T : List Part) (u s : State) (h0 : [.ctx, .fab] ⊆ T) :
    only T u ((zeroCounters x s)) ↔ only T u s := by
  refine only_step (T' := [.ctx, .fab]) ?_ h0; unfold zeroCounters; simp

@[simp] theorem enableCtx_only (x : Nat) (T : List Part) (u s : State) (h0 : [.hdrs, .ctls, .ctx, .fab, .host, .glob, .pwr,
    .sec, .evts] ⊆ T) :
    only T u ((enableCtx x s)) ↔ only T u s := by
  refine only_step (T' := [.hdrs, .ctls, .ctx, .fab, .host, .glob, .pwr, .sec, .evts]) ?_ h0; unfold enableCtx; (repeat' split) <;> simp

@[simp] theorem pullUnstarted_only (x : Nat) (keep : PitchJob → Bool) (T : List Part) (u s : State) (h0 : [.cores, .ctx] ⊆ T) :
    only T u ((pullUnstarted x keep s).1) ↔ only T u s := by
  have key : only [.cores, .ctx] s ((pullUnstarted x keep s).1) := by
    unfold pullUnstarted; try dsimp only
    (repeat' first | with_reducible apply only_if | split) <;> first | (simp; done) | (refine forAll_keeps ?_ _ _; intro x t; (try dsimp only); (repeat' split) <;> simp; done) | (refine only_trans ?_ (forAll_keeps (T := [.cores, .ctx]) (by (intro x t; (try dsimp only); (repeat' split) <;> simp; done)) _ _); simp; done) | (simp; (refine only_trans ?_ (forAll_keeps (T := [.cores, .ctx]) (by (intro x t; (try dsimp only); (repeat' split) <;> simp; done)) _ _); simp; done)) | (intro p hp; cases p <;> first | rfl | (simp at hp; done)) | (simp; intro p hp; cases p <;> first | rfl | (simp at hp; done)) | simp
  exact only_step key h0

@[simp] theorem abortAll_only (js : List PitchJob) (T : List Part) (u s : State) (h0 : [.reply, .hdrs, .host, .glob] ⊆ T) :
    only T u ((abortAll js s)) ↔ only T u s := by
  refine only_step (T' := [.reply, .hdrs, .host, .glob]) ?_ h0; unfold abortAll; simp

@[simp] theorem disableCtx_only (x : Nat) (T : List Part) (u s : State) (h0 : [.reply, .hdrs, .cores, .ctls, .ctx, .fence,
    .fab, .host, .glob, .sec, .evts] ⊆ T) :
    only T u ((disableCtx x s)) ↔ only T u s := by
  refine only_step (T' := [.reply, .hdrs, .cores, .ctls, .ctx, .fence, .fab, .host, .glob, .sec, .evts]) ?_ h0; unfold disableCtx; simp

@[simp] theorem pullSaved_only (x : Nat) (sel : Nat → Bool) (T : List Part) (u s : State) (h0 : [.ctx] ⊆ T) :
    only T u ((pullSaved x sel s).1) ↔ only T u s := by
  refine only_step (T' := [.ctx]) ?_ h0; unfold pullSaved; simp

@[simp] theorem drainTimeout_only (x : Nat) (T : List Part) (u s : State) (h0 : [.reply, .hdrs, .cores, .ctls, .ctx, .fence,
    .host, .glob, .pwr, .sec, .dbg, .evts] ⊆ T) :
    only T u ((drainTimeout x s)) ↔ only T u s := by
  refine only_step (T' := [.reply, .hdrs, .cores, .ctls, .ctx, .fence, .host, .glob, .pwr, .sec, .dbg, .evts]) ?_ h0; unfold drainTimeout; dsimp only; (repeat' split) <;> simp

@[simp] theorem readbackFail_only (x : Nat) (u : MemUnit) (again : Bool) (T : List Part) (u0 s : State) (h0 : [.hdrs, .ledge,
    .hbm, .ctx, .host, .glob, .evts] ⊆ T) :
    only T u0 ((readbackFail x u again s)) ↔ only T u0 s := by
  refine only_step (T' := [.hdrs, .ledge, .hbm, .ctx, .host, .glob, .evts]) ?_ h0; unfold readbackFail; (repeat' split) <;> simp

@[simp] theorem zeroPartitions_only (x : Nat) (T : List Part) (u s : State) (h0 : [.ledge, .hbm] ⊆ T) :
    only T u ((zeroPartitions x s)) ↔ only T u s := by
  refine only_step (T' := [.ledge, .hbm]) ?_ h0; unfold zeroPartitions; simp

@[simp] theorem reachDisabled_only (x : Nat) (T : List Part) (u s : State) (h0 : [.host] ⊆ T) :
    only T u ((reachDisabled x s)) ↔ only T u s := by
  refine only_step (T' := [.host]) ?_ h0; unfold reachDisabled; simp

@[simp] theorem scrubDone_only (x : Nat) (T : List Part) (u s : State) (h0 : [.hdrs, .ledge, .hbm, .ctx, .fab, .host, .glob,
    .sec, .evts] ⊆ T) :
    only T u ((scrubDone x s)) ↔ only T u s := by
  refine only_step (T' := [.hdrs, .ledge, .hbm, .ctx, .fab, .host, .glob, .sec, .evts]) ?_ h0; unfold scrubDone; simp

@[simp] theorem applyMap_only (x : Nat) (T : List Part) (u s : State) (h0 : [.ledge, .hbm, .ctx] ⊆ T) :
    only T u ((applyMap x s)) ↔ only T u s := by
  have key : only [.ledge, .hbm, .ctx] s ((applyMap x s)) := by
    unfold applyMap; try dsimp only
    (repeat' first | with_reducible apply only_if | split) <;> first | (simp; done) | (refine forAll_keeps ?_ _ _; intro x t; (try dsimp only); (repeat' split) <;> simp; done) | (refine only_trans ?_ (forAll_keeps (T := [.ledge, .hbm, .ctx]) (by (intro x t; (try dsimp only); (repeat' split) <;> simp; done)) _ _); simp; done) | (simp; (refine only_trans ?_ (forAll_keeps (T := [.ledge, .hbm, .ctx]) (by (intro x t; (try dsimp only); (repeat' split) <;> simp; done)) _ _); simp; done)) | (intro p hp; cases p <;> first | rfl | (simp at hp; done)) | (simp; intro p hp; cases p <;> first | rfl | (simp at hp; done)) | simp
  exact only_step key h0

@[simp] theorem stopSaved_only (c : Nat) (js : List PitchJob) (T : List Part) (u s : State) (h0 : [.fence] ⊆ T) :
    only T u ((stopSaved c js s)) ↔ only T u s := by
  refine only_step (T' := [.fence]) ?_ h0; unfold stopSaved; simp

@[simp] theorem loseCore_only (x l : Nat) (empty : Bool) (T : List Part) (u s : State) (h0 : [.reply, .hdrs, .cores, .ctls,
    .ctx, .fence, .host, .glob, .pwr, .sec, .dbg, .evts] ⊆ T) :
    only T u ((loseCore x l empty s)) ↔ only T u s := by
  refine only_step (T' := [.reply, .hdrs, .cores, .ctls, .ctx, .fence, .host, .glob, .pwr, .sec, .dbg, .evts]) ?_ h0; unfold loseCore; dsimp only; (repeat' split) <;> simp

@[simp] theorem applyWaiting_only (x : Nat) (T : List Part) (u s : State) (h0 : [.reply, .hdrs, .cores, .ctls, .ledge, .hbm,
    .ctx, .fence, .host, .glob, .pwr, .sec, .dbg, .evts] ⊆ T) :
    only T u ((applyWaiting x s)) ↔ only T u s := by
  refine only_step (T' := [.reply, .hdrs, .cores, .ctls, .ledge, .hbm, .ctx, .fence, .host, .glob, .pwr, .sec, .dbg, .evts]) ?_ h0; unfold applyWaiting; simp

@[simp] theorem freeSlots_only  (T : List Part) (u s : State) (h0 : [.ctx] ⊆ T) :
    only T u ((freeSlots s)) ↔ only T u s := by
  have key : only [.ctx] s ((freeSlots s)) := by
    have h1 : ∀ (l : List Nat) (t : State), only [.ctx] t (forAll l (fun x t => if (t.cx x).freeing then t.onCx x (fun c => { c with freeing := false }) else t) t) :=
      fun l t => forAll_keeps (by intro x t; split <;> simp) l t
    exact only_trans (by intro p hp; cases p <;> first | rfl | (simp at hp; done)) (h1 _ _)
  exact only_step key h0

@[simp] theorem promote_only  (T : List Part) (u s : State) (h0 : [.hdrs, .ctls, .fence, .host, .glob, .evts] ⊆ T) :
    only T u ((promote s)) ↔ only T u s := by
  have key : only [.hdrs, .ctls, .fence, .host, .glob, .evts] s ((promote s)) := by
    unfold promote; try dsimp only
    (repeat' first | with_reducible apply only_if | split) <;> first | (simp; done) | (refine forAll_keeps ?_ _ _; intro x t; (try dsimp only); (repeat' split) <;> simp; done) | (refine only_trans ?_ (forAll_keeps (T := [.hdrs, .ctls, .fence, .host, .glob, .evts]) (by (intro x t; (try dsimp only); (repeat' split) <;> simp; done)) _ _); simp; done) | (simp; (refine only_trans ?_ (forAll_keeps (T := [.hdrs, .ctls, .fence, .host, .glob, .evts]) (by (intro x t; (try dsimp only); (repeat' split) <;> simp; done)) _ _); simp; done)) | (intro p hp; cases p <;> first | rfl | (simp at hp; done)) | (simp; intro p hp; cases p <;> first | rfl | (simp at hp; done)) | simp
  exact only_step key h0

@[simp] theorem reduceOne_only (f : Nat) (T : List Part) (u s : State) (h0 : [.reply, .hdrs, .cores, .ctls, .ctx, .fence,
    .host, .glob, .pwr, .sec, .dbg, .evts] ⊆ T) :
    only T u ((reduceOne f s)) ↔ only T u s := by
  refine only_step (T' := [.reply, .hdrs, .cores, .ctls, .ctx, .fence, .host, .glob, .pwr, .sec, .dbg, .evts]) ?_ h0; unfold reduceOne; dsimp only; (repeat' split) <;> simp

theorem shrink_key : ∀ (n : Nat) (s : State), only [.reply, .hdrs, .cores, .ctls, .ctx, .fence, .host, .glob, .pwr, .sec, .dbg, .evts] s (shrink n s)
  | 0, _ => only_refl _ _
  | n + 1, s => by
    unfold shrink; split
    · simp
    · exact only_trans (by simp) (shrink_key n _)
@[simp] theorem shrink_only (n : Nat) (T : List Part) (u s : State) (h0 : [.reply, .hdrs, .cores, .ctls, .ctx, .fence, .host,
    .glob, .pwr, .sec, .dbg, .evts] ⊆ T) :
    only T u (shrink n s) ↔ only T u s := only_step (shrink_key n s) h0

@[simp] theorem nextEntry_only  (T : List Part) (u s : State) (h0 : [.hdrs, .ctx, .host, .glob] ⊆ T) :
    only T u ((nextEntry s)) ↔ only T u s := by
  have key : only [.hdrs, .ctx, .host, .glob] s ((nextEntry s)) := by
    unfold nextEntry; dsimp only; split
    · rw [raise_only _ _ _ _ _ (by simp)]; intro p hp; cases p <;> first | rfl | (simp at hp; done)
    · intro p hp; cases p <;> first | rfl | (simp at hp; done)
  exact only_step key h0

@[simp] theorem switchOut_only (c l : Nat) (T : List Part) (u s : State) (h0 : [.cores, .ctls, .ctx, .fence, .pwr] ⊆ T) :
    only T u ((switchOut c l s)) ↔ only T u s := by
  refine only_step (T' := [.cores, .ctls, .ctx, .fence, .pwr]) ?_ h0; unfold switchOut; (repeat' split) <;> simp

@[simp] theorem switchCore_only (c : Nat) (new : Option CtxId) (T : List Part) (u s : State) (h0 : [.cores, .ctls, .ctx,
    .fence, .pwr] ⊆ T) :
    only T u ((switchCore c new s)) ↔ only T u s := by
  refine only_step (T' := [.cores, .ctls, .ctx, .fence, .pwr]) ?_ h0; unfold switchCore; simp

@[simp] theorem switchCores_only  (T : List Part) (u s : State) (h0 : [.reply, .hdrs, .cores, .ctls, .ledge, .mesh, .hbm,
    .ctx, .fence, .fab, .host, .glob, .pwr, .sec, .dbg, .evts] ⊆ T) :
    only T u ((switchCores s)) ↔ only T u s := by
  have key : only [.reply, .hdrs, .cores, .ctls, .ledge, .mesh, .hbm, .ctx, .fence, .fab, .host, .glob, .pwr, .sec, .dbg, .evts] s ((switchCores s)) := by
    unfold switchCores; try dsimp only
    (repeat' first | with_reducible apply only_if | split) <;> first | (simp; done) | (refine forAll_keeps ?_ _ _; intro x t; (try dsimp only); (repeat' split) <;> simp; done) | (refine only_trans ?_ (forAll_keeps (T := [.reply, .hdrs, .cores, .ctls, .ledge, .mesh, .hbm, .ctx, .fence, .fab, .host, .glob, .pwr, .sec, .dbg, .evts]) (by (intro x t; (try dsimp only); (repeat' split) <;> simp; done)) _ _); simp; done) | (simp; (refine only_trans ?_ (forAll_keeps (T := [.reply, .hdrs, .cores, .ctls, .ledge, .mesh, .hbm, .ctx, .fence, .fab, .host, .glob, .pwr, .sec, .dbg, .evts]) (by (intro x t; (try dsimp only); (repeat' split) <;> simp; done)) _ _); simp; done)) | (intro p hp; cases p <;> first | rfl | (simp at hp; done)) | (simp; intro p hp; cases p <;> first | rfl | (simp at hp; done)) | simp
  exact only_step key h0

@[simp] theorem slotBoundary_only  (T : List Part) (u s : State) (h0 : [.reply, .hdrs, .cores, .ctls, .ledge, .mesh, .hbm,
    .ctx, .fence, .fab, .host, .glob, .pwr, .sec, .dbg, .evts] ⊆ T) :
    only T u ((slotBoundary s)) ↔ only T u s := by
  refine only_step (T' := [.reply, .hdrs, .cores, .ctls, .ledge, .mesh, .hbm, .ctx, .fence, .fab, .host, .glob, .pwr, .sec, .dbg, .evts]) ?_ h0; unfold slotBoundary; (repeat' split) <;> simp

theorem payFrom_key (x : Option CtxId) (s t : State) (h : payFrom x s = some t) : only [.pwr] s t := by
  unfold payFrom at h; split at h
  · cases h; exact only_refl _ _
  · split at h
    · cases h
    · cases h; simp

@[simp] theorem resume_only (c : Nat) (T : List Part) (u s : State) (h0 : [.reply, .hdrs, .cores, .ctls, .ctx, .fence, .host,
    .glob, .pwr, .sec, .evts] ⊆ T) :
    only T u ((resume c s)) ↔ only T u s := by
  have key : only [.reply, .hdrs, .cores, .ctls, .ctx, .fence, .host, .glob, .pwr, .sec, .evts] s ((resume c s)) := by
    unfold resume; split
    · exact only_refl _ _
    · split
      · exact only_refl _ _
      · rename_i s1 hp
        refine only_trans (only_mono (payFrom_key _ _ _ hp) (by simp)) ?_
        dsimp only; (repeat' split) <;> simp
  exact only_step key h0

@[simp] theorem restoreFail_only (c : Nat) (u : MemUnit) (T : List Part) (u0 s : State) (h0 : [.hdrs, .ledge, .mesh, .hbm,
    .ctx, .fence, .host, .glob, .evts] ⊆ T) :
    only T u0 ((restoreFail c u s)) ↔ only T u0 s := by
  refine only_step (T' := [.hdrs, .ledge, .mesh, .hbm, .ctx, .fence, .host, .glob, .evts]) ?_ h0; unfold restoreFail; dsimp only; (repeat' split) <;> simp

@[simp] theorem submitBind_only (src : CmdSrc) (x : CtxId) (T : List Part) (u s : State) (h0 : [.reply, .hdrs, .ctx, .host,
    .glob] ⊆ T) :
    only T u ((submitBind src x s)) ↔ only T u s := by
  refine only_step (T' := [.reply, .hdrs, .ctx, .host, .glob]) ?_ h0; unfold submitBind; (repeat' split) <;> simp

@[simp] theorem submitUnbind_only (src : CmdSrc) (x : CtxId) (slot : Nat) (T : List Part) (u s : State) (h0 : [.reply, .hdrs,
    .ctx, .host, .glob] ⊆ T) :
    only T u ((submitUnbind src x slot s)) ↔ only T u s := by
  refine only_step (T' := [.reply, .hdrs, .ctx, .host, .glob]) ?_ h0; unfold submitUnbind; (repeat' split) <;> simp

@[simp] theorem meshSent_only (bs : List (Nat × MeshBlk)) (T : List Part) (u s : State) (h0 : [.mesh] ⊆ T) :
    only T u ((meshSent bs s)) ↔ only T u s := by
  refine only_step (T' := [.mesh]) ?_ h0; unfold meshSent; simp

@[simp] theorem meshSend_only (h : MHdr) (payload : List Byte) (T : List Part) (u s : State) (h0 : [.hdrs, .mesh, .host,
    .glob] ⊆ T) :
    only T u ((meshSend h payload s)) ↔ only T u s := by
  refine only_step (T' := [.hdrs, .mesh, .host, .glob]) ?_ h0; unfold meshSend; (repeat' split) <;> simp

@[simp] theorem meshForward_only (router dir : Nat) (hdr : BitVec 128) (payload : List Byte) (T : List Part) (u s : State)
    (h0 : [.hdrs, .mesh, .host, .glob, .evts] ⊆ T) :
    only T u ((meshForward router dir hdr payload s)) ↔ only T u s := by
  refine only_step (T' := [.hdrs, .mesh, .host, .glob, .evts]) ?_ h0; unfold meshForward; simp

@[simp] theorem readFailed_only (c ctx : Nat) (T : List Part) (u s : State) (h0 : [.reply, .hdrs, .cores, .ctls, .ctx,
    .fence, .host, .glob, .pwr, .sec, .dbg, .evts] ⊆ T) :
    only T u ((readFailed c ctx s)) ↔ only T u s := by
  refine only_step (T' := [.reply, .hdrs, .cores, .ctls, .ctx, .fence, .host, .glob, .pwr, .sec, .dbg, .evts]) ?_ h0; unfold readFailed; (repeat' split) <;> simp

@[simp] theorem countTransfer_only (stop addr : Nat) (poison : Bool) (hop : Option (CoreId × Fin 5)) (T : List Part) (u s :
    State) (h0 : [.hdrs, .ledge, .mesh, .hbm, .host, .glob, .evts] ⊆ T) :
    only T u ((countTransfer stop addr poison hop s)) ↔ only T u s := by
  refine only_step (T' := [.hdrs, .ledge, .mesh, .hbm, .host, .glob, .evts]) ?_ h0; unfold countTransfer; (repeat' split) <;> simp

@[simp] theorem readDataRx_only (hdr : BitVec 128) (payload : List Byte) (hop : Option (CoreId × Fin 5)) (T : List Part) (u s
    : State) (h0 : [.reply, .hdrs, .cores, .ctls, .ledge, .mesh, .hbm, .ctx, .fence, .host, .glob, .pwr, .sec, .dbg, .evts] ⊆ T) :
    only T u ((readDataRx hdr payload hop s)) ↔ only T u s := by
  refine only_step (T' := [.reply, .hdrs, .cores, .ctls, .ledge, .mesh, .hbm, .ctx, .fence, .host, .glob, .pwr, .sec, .dbg, .evts]) ?_ h0; unfold readDataRx; dsimp only; (repeat' split) <;> simp

@[simp] theorem readRequestRx_only (hdr : BitVec 128) (T : List Part) (u s : State) (h0 : [.hdrs, .mesh, .host, .glob] ⊆ T) :
    only T u ((readRequestRx hdr s)) ↔ only T u s := by
  refine only_step (T' := [.hdrs, .mesh, .host, .glob]) ?_ h0; unfold readRequestRx; dsimp only; (repeat' split) <;> simp

@[simp] theorem poisonBlock_only (p : Phys) (T : List Part) (u s : State) (h0 : [.ledge, .hbm] ⊆ T) :
    only T u ((poisonBlock p s)) ↔ only T u s := by
  refine only_step (T' := [.ledge, .hbm]) ?_ h0; unfold poisonBlock; (repeat' split) <;> simp

@[simp] theorem writeRx_only (hdr : BitVec 128) (payload : List Byte) (T : List Part) (u s : State) (h0 : [.hdrs, .ledge,
    .mesh, .hbm, .host, .glob] ⊆ T) :
    only T u ((writeRx hdr payload s)) ↔ only T u s := by
  refine only_step (T' := [.hdrs, .ledge, .mesh, .hbm, .host, .glob]) ?_ h0; unfold writeRx; dsimp only; (repeat' split) <;> simp

@[simp] theorem writeFailed_only (c ctx : Nat) (T : List Part) (u s : State) (h0 : [.cores, .ctls, .ctx, .fence, .pwr] ⊆ T) :
    only T u ((writeFailed c ctx s)) ↔ only T u s := by
  refine only_step (T' := [.cores, .ctls, .ctx, .fence, .pwr]) ?_ h0; unfold writeFailed; (repeat' split) <;> simp

@[simp] theorem nakRx_only (hdr : BitVec 128) (hop : Option (CoreId × Fin 5)) (T : List Part) (u s : State) (h0 : [.hdrs,
    .cores, .ctls, .mesh, .ctx, .fence, .host, .glob, .pwr, .evts] ⊆ T) :
    only T u ((nakRx hdr hop s)) ↔ only T u s := by
  refine only_step (T' := [.hdrs, .cores, .ctls, .mesh, .ctx, .fence, .host, .glob, .pwr, .evts]) ?_ h0; unfold nakRx; dsimp only; (repeat' split) <;> simp

@[simp] theorem spareCopied_only (g : Nat) (T : List Part) (u s : State) (h0 : [.hdrs, .ledge, .host, .glob] ⊆ T) :
    only T u ((spareCopied g s)) ↔ only T u s := by
  refine only_step (T' := [.hdrs, .ledge, .host, .glob]) ?_ h0; unfold spareCopied; simp

@[simp] theorem retireCopied_only (q : Nat) (T : List Part) (u s : State) (h0 : [.hdrs, .hbm, .host, .glob] ⊆ T) :
    only T u ((retireCopied q s)) ↔ only T u s := by
  refine only_step (T' := [.hdrs, .hbm, .host, .glob]) ?_ h0; unfold retireCopied; simp

@[simp] theorem arbitrate_only (a : ArbId) (T : List Part) (u s : State) (h0 : [.arbs, .pwr, .thm] ⊆ T) :
    only T u ((arbitrate a s)) ↔ only T u s := by
  refine only_step (T' := [.arbs, .pwr, .thm]) ?_ h0; unfold arbitrate; dsimp only; (repeat' split) <;> simp

@[simp] theorem arbQueue_only (a : ArbId) (r : Nat) (T : List Part) (u s : State) (h0 : [.arbs] ⊆ T) :
    only T u ((arbQueue a r s)) ↔ only T u s := by
  refine only_step (T' := [.arbs]) ?_ h0; unfold arbQueue; simp

@[simp] theorem arbRequest_only (a : ArbId) (r : Nat) (T : List Part) (u s : State) (h0 : [.arbs, .pwr, .thm] ⊆ T) :
    only T u ((arbRequest a r s)) ↔ only T u s := by
  refine only_step (T' := [.arbs, .pwr, .thm]) ?_ h0; unfold arbRequest; (repeat' split) <;> simp

@[simp] theorem arbRelease_only (a : ArbId) (T : List Part) (u s : State) (h0 : [.arbs, .pwr, .thm] ⊆ T) :
    only T u ((arbRelease a s)) ↔ only T u s := by
  refine only_step (T' := [.arbs, .pwr, .thm]) ?_ h0; unfold arbRelease; dsimp only; (repeat' split) <;> simp

@[simp] theorem arbAge_only (a : ArbId) (r : Nat) (T : List Part) (u s : State) (h0 : [.arbs] ⊆ T) :
    only T u ((arbAge a r s)) ↔ only T u s := by
  refine only_step (T' := [.arbs]) ?_ h0; unfold arbAge; dsimp only; (repeat' split) <;> simp

@[simp] theorem arbCut_only (a : ArbId) (T : List Part) (u s : State) (h0 : [.hdrs, .arbs, .arbSels, .host, .glob, .pwr,
    .thm] ⊆ T) :
    only T u ((arbCut a s)) ↔ only T u s := by
  refine only_step (T' := [.hdrs, .arbs, .arbSels, .host, .glob, .pwr, .thm]) ?_ h0; unfold arbCut; dsimp only; (repeat' split) <;> simp

end Sys2Proof.Machine
end

