-- ==== Sys2Proof/Laws/OnlyPlant.lean ====
section
/-! SUPPORT. What each operation can touch: the hut book, the drives, the belay loop, the coolant bus and the ledger. -/

set_option linter.all false

namespace Sys2Proof.Machine

open Sys2Proof.Safety

@[simp] theorem hutCount_only (code : Nat) (v : BitVec 16) (ts : DWord) (ho : Bool) (T : List Part) (u s : State) (h0 :
    [.hdrs, .hut] ⊆ T) :
    only T u ((hutCount code v ts ho s)) ↔ only T u s := by
  refine only_step (T' := [.hdrs, .hut]) ?_ h0; unfold hutCount; simp

@[simp] theorem hutRecord_only (code : Nat) (v : BitVec 16) (ts : DWord) (ho compute : Bool) (arg : List Byte) (T : List
    Part) (u s : State) (h0 : [.hut] ⊆ T) :
    only T u ((hutRecord code v ts ho compute arg s)) ↔ only T u s := by
  refine only_step (T' := [.hut]) ?_ h0; unfold hutRecord; simp

@[simp] theorem hutAt_only (force compute : Bool) (code : Nat) (v : BitVec 16) (arg : List Byte) (ts : DWord) (ho : Bool) (T
    : List Part) (u s : State) (h0 : [.hdrs, .hut] ⊆ T) :
    only T u ((hutAt force compute code v arg ts ho s)) ↔ only T u s := by
  refine only_step (T' := [.hdrs, .hut]) ?_ h0; unfold hutAt; dsimp only; (repeat' split) <;> simp

@[simp] theorem cairnEvent_only (code value : Nat) (arg : List Byte) (T : List Part) (u s : State) (h0 : [.hdrs, .hut] ⊆ T) :
    only T u ((cairnEvent code value arg s)) ↔ only T u s := by
  refine only_step (T' := [.hdrs, .hut]) ?_ h0; unfold cairnEvent; simp

@[simp] theorem cairnCount_only (code value : Nat) (T : List Part) (u s : State) (h0 : [.hdrs, .hut] ⊆ T) :
    only T u ((cairnCount code value s)) ↔ only T u s := by
  refine only_step (T' := [.hdrs, .hut]) ?_ h0; unfold cairnCount; simp

@[simp] theorem cairnEventForced_only (code value : Nat) (T : List Part) (u s : State) (h0 : [.hdrs, .hut] ⊆ T) :
    only T u ((cairnEventForced code value s)) ↔ only T u s := by
  refine only_step (T' := [.hdrs, .hut]) ?_ h0; unfold cairnEventForced; simp

@[simp] theorem evtPoll_only  (T : List Part) (u s : State) (h0 : [.hdrs, .evts, .hut] ⊆ T) :
    only T u ((evtPoll s)) ↔ only T u s := by
  refine only_step (T' := [.hdrs, .evts, .hut]) ?_ h0; unfold evtPoll; dsimp only; (repeat' split) <;> simp

@[simp] theorem flushBook_only  (T : List Part) (u s : State) (h0 : [.hdrs, .host, .glob, .hut] ⊆ T) :
    only T u ((flushBook s)) ↔ only T u s := by
  refine only_step (T' := [.hdrs, .host, .glob, .hut]) ?_ h0; unfold flushBook; simp

@[simp] theorem clearBook_only (who : Nat) (cert : List Byte) (T : List Part) (u s : State) (h0 : [.hdrs, .host, .glob, .hut]
    ⊆ T) :
    only T u ((clearBook who cert s)) ↔ only T u s := by
  refine only_step (T' := [.hdrs, .host, .glob, .hut]) ?_ h0; unfold clearBook; simp

@[simp] theorem endDefer_only (v : Nat) (T : List Part) (u s : State) (h0 : [.hdrs, .drv, .hut] ⊆ T) :
    only T u ((endDefer v s)) ↔ only T u s := by
  refine only_step (T' := [.hdrs, .drv, .hut]) ?_ h0; unfold endDefer; simp

@[simp] theorem valveSafe_only (v : Nat) (T : List Part) (u s : State) (h0 : [.hdrs, .drv, .hut] ⊆ T) :
    only T u ((valveSafe v s)) ↔ only T u s := by
  refine only_step (T' := [.hdrs, .drv, .hut]) ?_ h0; unfold valveSafe; simp

@[simp] theorem valveFault_only (v : Nat) (T : List Part) (u s : State) (h0 : [.hdrs, .host, .glob, .drv, .hut] ⊆ T) :
    only T u ((valveFault v s)) ↔ only T u s := by
  refine only_step (T' := [.hdrs, .host, .glob, .drv, .hut]) ?_ h0; unfold valveFault; simp

@[simp] theorem valveStart_only (v : Nat) (st : ValveSt) (low : Bool) (T : List Part) (u s : State) (h0 : [.drv] ⊆ T) :
    only T u ((valveStart v st low s)) ↔ only T u s := by
  refine only_step (T' := [.drv]) ?_ h0; unfold valveStart; simp

theorem startWord_key : ∀ (v n k : Nat) (s : State), only [.hdrs, .host, .glob, .drv, .hut] s (startWord v n k s)
  | _, 0, _, s => by unfold startWord; simp
  | v, n + 1, k, s => by
    have ih := fun a t => startWord_key v n a t
    unfold startWord; dsimp only
    (repeat' apply only_if) <;> first | (simp; done) | (refine only_trans ?_ (ih _ _); simp)
@[simp] theorem startWord_only (v n k : Nat) (T : List Part) (u s : State) (h0 : [.hdrs, .host, .glob, .drv, .hut] ⊆ T) :
    only T u (startWord v n k s) ↔ only T u s := only_step (startWord_key v n k s) h0

@[simp] theorem enterWord_only (v k : Nat) (T : List Part) (u s : State) (h0 : [.hdrs, .host, .glob, .drv, .hut] ⊆ T) :
    only T u ((enterWord v k s)) ↔ only T u s := by
  refine only_step (T' := [.hdrs, .host, .glob, .drv, .hut]) ?_ h0; unfold enterWord; simp

@[simp] theorem startCommand_only (v : Nat) (on : Bool) (T : List Part) (u s : State) (h0 : [.hdrs, .host, .glob, .drv, .hut]
    ⊆ T) :
    only T u ((startCommand v on s)) ↔ only T u s := by
  refine only_step (T' := [.hdrs, .host, .glob, .drv, .hut]) ?_ h0; unfold startCommand; simp

@[simp] theorem valveEdge_only (v : Nat) (on : Bool) (T : List Part) (u s : State) (h0 : [.hdrs, .host, .glob, .drv, .hut] ⊆
    T) :
    only T u ((valveEdge v on s)) ↔ only T u s := by
  refine only_step (T' := [.hdrs, .host, .glob, .drv, .hut]) ?_ h0; unfold valveEdge; dsimp only; (repeat' split) <;> simp

@[simp] theorem valveTimer_only (v : Nat) (T : List Part) (u s : State) (h0 : [.hdrs, .host, .glob, .drv, .hut] ⊆ T) :
    only T u ((valveTimer v s)) ↔ only T u s := by
  refine only_step (T' := [.hdrs, .host, .glob, .drv, .hut]) ?_ h0; unfold valveTimer; simp

@[simp] theorem boostReached_only (v : Nat) (T : List Part) (u s : State) (h0 : [.hdrs, .host, .glob, .drv, .hut] ⊆ T) :
    only T u ((boostReached v s)) ↔ only T u s := by
  refine only_step (T' := [.hdrs, .host, .glob, .drv, .hut]) ?_ h0; unfold boostReached; simp

@[simp] theorem boostTimeout_only (v : Nat) (T : List Part) (u s : State) (h0 : [.hdrs, .host, .glob, .drv, .hut] ⊆ T) :
    only T u ((boostTimeout v s)) ↔ only T u s := by
  refine only_step (T' := [.hdrs, .host, .glob, .drv, .hut]) ?_ h0; unfold boostTimeout; simp

@[simp] theorem deferredStart_only (v : Nat) (T : List Part) (u s : State) (h0 : [.hdrs, .drv, .hut] ⊆ T) :
    only T u ((deferredStart v s)) ↔ only T u s := by
  refine only_step (T' := [.hdrs, .drv, .hut]) ?_ h0; unfold deferredStart; simp

@[simp] theorem shunt_only (v : Nat) (code : BitVec 12) (T : List Part) (u s : State) (h0 : [.drv] ⊆ T) :
    only T u ((shunt v code s)) ↔ only T u s := by
  refine only_step (T' := [.drv]) ?_ h0; unfold shunt; simp

@[simp] theorem coilUpdate_only (v irms : Nat) (T : List Part) (u s : State) (h0 : [.hdrs, .host, .glob, .drv, .hut] ⊆ T) :
    only T u ((coilUpdate v irms s)) ↔ only T u s := by
  refine only_step (T' := [.hdrs, .host, .glob, .drv, .hut]) ?_ h0; unfold coilUpdate; dsimp only; (repeat' split) <;> simp

@[simp] theorem leakEntry_only (v : Nat) (T : List Part) (u s : State) (h0 : [.hdrs, .host, .glob, .drv, .hut] ⊆ T) :
    only T u ((leakEntry v s)) ↔ only T u s := by
  refine only_step (T' := [.hdrs, .host, .glob, .drv, .hut]) ?_ h0; unfold leakEntry; dsimp only; (repeat' split) <;> simp

@[simp] theorem actOnCommand_only (v : Nat) (T : List Part) (u s : State) (h0 : [.hdrs, .host, .glob, .drv, .hut] ⊆ T) :
    only T u ((actOnCommand v s)) ↔ only T u s := by
  refine only_step (T' := [.hdrs, .host, .glob, .drv, .hut]) ?_ h0; unfold actOnCommand; simp

@[simp] theorem valveConfig_only (v off : Nat) (w : Word) (T : List Part) (u s : State) (h0 : [.hdrs, .host, .glob, .drv] ⊆ T) :
    only T u ((valveConfig v off w s)) ↔ only T u s := by
  refine only_step (T' := [.hdrs, .host, .glob, .drv]) ?_ h0; unfold valveConfig; dsimp only; (repeat' split) <;> simp

@[simp] theorem motorSafe_only (m : Nat) (T : List Part) (u s : State) (h0 : [.drv] ⊆ T) :
    only T u ((motorSafe m s)) ↔ only T u s := by
  refine only_step (T' := [.drv]) ?_ h0; unfold motorSafe; simp

@[simp] theorem motorDestSafe_only (m : Nat) (T : List Part) (u s : State) (h0 : [.drv] ⊆ T) :
    only T u ((motorDestSafe m s)) ↔ only T u s := by
  refine only_step (T' := [.drv]) ?_ h0; unfold motorDestSafe; simp

@[simp] theorem leakStop_only (m : Nat) (T : List Part) (u s : State) (h0 : [.drv] ⊆ T) :
    only T u ((leakStop m s)) ↔ only T u s := by
  refine only_step (T' := [.drv]) ?_ h0; unfold leakStop; simp

@[simp] theorem motorMode_only (m : Nat) (mode : BitVec 2) (T : List Part) (u s : State) (h0 : [.drv] ⊆ T) :
    only T u ((motorMode m mode s)) ↔ only T u s := by
  refine only_step (T' := [.drv]) ?_ h0; unfold motorMode; simp

@[simp] theorem motorKick_only (m : Nat) (thenMax : Bool) (T : List Part) (u s : State) (h0 : [.drv] ⊆ T) :
    only T u ((motorKick m thenMax s)) ↔ only T u s := by
  refine only_step (T' := [.drv]) ?_ h0; unfold motorKick; simp

@[simp] theorem applyMode_only (m : Nat) (T : List Part) (u s0 : State) (h0 : [.hdrs, .host, .glob, .drv, .hut] ⊆ T) :
    only T u ((applyMode m s0)) ↔ only T u s0 := by
  refine only_step (T' := [.hdrs, .host, .glob, .drv, .hut]) ?_ h0; unfold applyMode; dsimp only; (repeat' split) <;> simp

@[simp] theorem leakOver_only (valves motors : List Nat) (T : List Part) (u s : State) (h0 : [.hdrs, .host, .glob, .drv,
    .hut] ⊆ T) :
    only T u ((leakOver valves motors s)) ↔ only T u s := by
  have key : only [.hdrs, .host, .glob, .drv, .hut] s ((leakOver valves motors s)) := by
    unfold leakOver; try dsimp only
    (repeat' first | with_reducible apply only_if | split) <;> first | (simp; done) | (refine forAll_keeps ?_ _ _; intro x t; (try dsimp only); (repeat' split) <;> simp; done) | (refine only_trans ?_ (forAll_keeps (T := [.hdrs, .host, .glob, .drv, .hut]) (by (intro x t; (try dsimp only); (repeat' split) <;> simp; done)) _ _); simp; done) | (simp; (refine only_trans ?_ (forAll_keeps (T := [.hdrs, .host, .glob, .drv, .hut]) (by (intro x t; (try dsimp only); (repeat' split) <;> simp; done)) _ _); simp; done)) | (intro p hp; cases p <;> first | rfl | (simp at hp; done)) | (simp; intro p hp; cases p <;> first | rfl | (simp at hp; done)) | simp
  exact only_step key h0

@[simp] theorem pwmPeriod_only (m : Nat) (ia ib ic id iq est angle : BitVec 16) (T : List Part) (u s : State) (h0 : [.hdrs,
    .host, .glob, .drv, .hut] ⊆ T) :
    only T u ((pwmPeriod m ia ib ic id iq est angle s)) ↔ only T u s := by
  refine only_step (T' := [.hdrs, .host, .glob, .drv, .hut]) ?_ h0; unfold pwmPeriod; simp

@[simp] theorem startResponse_only (m : Nat) (byEst : Bool) (T : List Part) (u s : State) (h0 : [.hdrs, .host, .glob, .drv,
    .hut] ⊆ T) :
    only T u ((startResponse m byEst s)) ↔ only T u s := by
  refine only_step (T' := [.hdrs, .host, .glob, .drv, .hut]) ?_ h0; unfold startResponse; dsimp only; (repeat' split) <;> simp

@[simp] theorem startTimeout_only (m : Nat) (T : List Part) (u s : State) (h0 : [.hdrs, .host, .glob, .drv, .hut] ⊆ T) :
    only T u ((startTimeout m s)) ↔ only T u s := by
  refine only_step (T' := [.hdrs, .host, .glob, .drv, .hut]) ?_ h0; unfold startTimeout; dsimp only; (repeat' split) <;> simp

@[simp] theorem startRetry_only (m : Nat) (T : List Part) (u s : State) (h0 : [.drv] ⊆ T) :
    only T u ((startRetry m s)) ↔ only T u s := by
  refine only_step (T' := [.drv]) ?_ h0; unfold startRetry; simp

@[simp] theorem driverFault_only (m : Nat) (T : List Part) (u s : State) (h0 : [.hdrs, .host, .glob, .drv, .hut] ⊆ T) :
    only T u ((driverFault m s)) ↔ only T u s := by
  refine only_step (T' := [.hdrs, .host, .glob, .drv, .hut]) ?_ h0; unfold driverFault; simp

@[simp] theorem tachBreak_only (m : Nat) (T : List Part) (u s : State) (h0 : [.hdrs, .host, .glob, .drv, .hut] ⊆ T) :
    only T u ((tachBreak m s)) ↔ only T u s := by
  refine only_step (T' := [.hdrs, .host, .glob, .drv, .hut]) ?_ h0; unfold tachBreak; simp

@[simp] theorem ageMeasure_only (m meanIq : Nat) (T : List Part) (u s : State) (h0 : [.hdrs, .host, .glob, .drv, .hut] ⊆ T) :
    only T u ((ageMeasure m meanIq s)) ↔ only T u s := by
  refine only_step (T' := [.hdrs, .host, .glob, .drv, .hut]) ?_ h0; unfold ageMeasure; dsimp only; (repeat' split) <;> simp

@[simp] theorem acousticUpdate_only  (T : List Part) (u s : State) (h0 : [.hdrs, .host, .glob, .drv, .hut] ⊆ T) :
    only T u ((acousticUpdate s)) ↔ only T u s := by
  refine only_step (T' := [.hdrs, .host, .glob, .drv, .hut]) ?_ h0; unfold acousticUpdate; (repeat' split) <;> simp

@[simp] theorem driveDest_only (dst : Nat) (v : BitVec 24) (T : List Part) (u s : State) (h0 : [.drv] ⊆ T) :
    only T u ((driveDest dst v s)) ↔ only T u s := by
  refine only_step (T' := [.drv]) ?_ h0; unfold driveDest; (repeat' split) <;> simp

@[simp] theorem safeDest_only (dst : Nat) (T : List Part) (u s : State) (h0 : [.drv] ⊆ T) :
    only T u ((safeDest dst s)) ↔ only T u s := by
  refine only_step (T' := [.drv]) ?_ h0; unfold safeDest; (repeat' split) <;> simp

@[simp] theorem endInjection_only (cause : Nat) (T : List Part) (u s : State) (h0 : [.hdrs, .host, .glob, .loop, .hut] ⊆ T) :
    only T u ((endInjection cause s)) ↔ only T u s := by
  refine only_step (T' := [.hdrs, .host, .glob, .loop, .hut]) ?_ h0; unfold endInjection; simp

@[simp] theorem endBound_only (i cause : Nat) (T : List Part) (u s : State) (h0 : [.hdrs, .host, .glob, .loop, .hut] ⊆ T) :
    only T u ((endBound i cause s)) ↔ only T u s := by
  refine only_step (T' := [.hdrs, .host, .glob, .loop, .hut]) ?_ h0; unfold endBound; simp

@[simp] theorem noteSat_only (i : Nat) (first : Bool) (f : Slot → Slot) (T : List Part) (u s : State) (h0 : [.hdrs, .host,
    .glob, .loop, .hut] ⊆ T) :
    only T u ((noteSat i first f s)) ↔ only T u s := by
  refine only_step (T' := [.hdrs, .host, .glob, .loop, .hut]) ?_ h0; unfold noteSat; (repeat' split) <;> simp

@[simp] theorem noteStop_only (i : Nat) (T : List Part) (u s : State) (h0 : [.hdrs, .loop, .hut] ⊆ T) :
    only T u ((noteStop i s)) ↔ only T u s := by
  refine only_step (T' := [.hdrs, .loop, .hut]) ?_ h0; unfold noteStop; dsimp only; (repeat' split) <;> simp

@[simp] theorem noteFlags_only (i : Nat) (p : Period) (T : List Part) (u s : State) (h0 : [.hdrs, .host, .glob, .loop, .hut]
    ⊆ T) :
    only T u ((noteFlags i p s)) ↔ only T u s := by
  refine only_step (T' := [.hdrs, .host, .glob, .loop, .hut]) ?_ h0; unfold noteFlags; simp

@[simp] theorem capturePut_only (e : CaptEnt) (T : List Part) (u s : State) (h0 : [.hdrs, .host, .glob, .loop, .hut] ⊆ T) :
    only T u ((capturePut e s)) ↔ only T u s := by
  refine only_step (T' := [.hdrs, .host, .glob, .loop, .hut]) ?_ h0; unfold capturePut; (repeat' split) <;> simp

@[simp] theorem applyHeld_only (i : Nat) (T : List Part) (u s : State) (h0 : [.loop] ⊆ T) :
    only T u ((applyHeld i s)) ↔ only T u s := by
  refine only_step (T' := [.loop]) ?_ h0; unfold applyHeld; simp

@[simp] theorem slotStop_only (i : Nat) (T : List Part) (u s : State) (h0 : [.hdrs, .host, .glob, .loop, .drv, .hut] ⊆ T) :
    only T u ((slotStop i s)) ↔ only T u s := by
  refine only_step (T' := [.hdrs, .host, .glob, .loop, .drv, .hut]) ?_ h0; unfold slotStop; simp

@[simp] theorem slotCompute_only (i : Nat) (T : List Part) (u s : State) (h0 : [.hdrs, .host, .glob, .loop, .drv,
    .hut] ⊆ T) :
    only T u ((slotCompute i s)) ↔ only T u s := by
  have key : only [.hdrs, .host, .glob, .loop, .drv, .hut] s ((slotCompute i s)) := by
    unfold slotCompute; extract_lets q0 src ys rs q e rel; clear_value q0 src ys rs q e rel; split; rename_i take l1 _; refine only_if ?_ ?_
    · dsimp only; simp
    · extract_lets inj; clear_value inj; split; rename_i val l2 _
      extract_lets a1 a2 l3 r p a6 a7 q1 s1 s2; clear_value a1 l3 r p a6 a7 q1
      have h1 : only [.hdrs, .host, .glob, .loop, .drv, .hut] s s1 := by simp [s1]
      have h2 : only [.hdrs, .host, .glob, .loop, .drv, .hut] s s2 := by
        refine only_if ?_ h1
        rw [onDrv_only _ _ _ _ (by simp)]; exact h1
      refine only_if ?_ h2
      rw [endInjection_only _ _ _ _ (by simp)]; exact h2
  exact only_step key h0

@[simp] theorem slotLatch_only (i : Nat) (T : List Part) (u s : State) (h0 : [.hdrs, .host, .glob, .loop, .drv, .hut]
    ⊆ T) :
    only T u ((slotLatch i s)) ↔ only T u s := by
  refine only_step (T' := [.hdrs, .host, .glob, .loop, .drv, .hut]) ?_ h0; unfold slotLatch; (repeat' split) <;> simp

@[simp] theorem slotWrite_only (i : Nat) (T : List Part) (u s : State) (h0 : [.hdrs, .host, .glob, .loop, .drv, .hut] ⊆ T) :
    only T u ((slotWrite i s)) ↔ only T u s := by
  refine only_step (T' := [.hdrs, .host, .glob, .loop, .drv, .hut]) ?_ h0; unfold slotWrite; dsimp only; (repeat' split) <;> simp

@[simp] theorem feTrip_only (i : Nat) (T : List Part) (u s : State) (h0 : [.hdrs, .host, .glob, .loop, .hut] ⊆ T) :
    only T u ((feTrip i s)) ↔ only T u s := by
  refine only_step (T' := [.hdrs, .host, .glob, .loop, .hut]) ?_ h0; unfold feTrip; dsimp only; (repeat' split) <;> simp

@[simp] theorem loopRun_only (on : Bool) (T : List Part) (u s : State) (h0 : [.hdrs, .host, .glob, .loop, .drv, .hut] ⊆ T) :
    only T u ((loopRun on s)) ↔ only T u s := by
  refine only_step (T' := [.hdrs, .host, .glob, .loop, .drv, .hut]) ?_ h0; unfold loopRun; (repeat' split) <;> simp

@[simp] theorem refuseSlot_only (slot : Nat) (page : Bool) (reg reason : Nat) (T : List Part) (u s : State) (h0 : [.hdrs,
    .host, .glob, .loop, .hut] ⊆ T) :
    only T u ((refuseSlot slot page reg reason s)) ↔ only T u s := by
  refine only_step (T' := [.hdrs, .host, .glob, .loop, .hut]) ?_ h0; unfold refuseSlot; simp

@[simp] theorem slotRegWrite_only (i off : Nat) (v : Word) (T : List Part) (u s : State) (h0 : [.hdrs, .host, .glob, .loop,
    .hut] ⊆ T) :
    only T u ((slotRegWrite i off v s)) ↔ only T u s := by
  refine only_step (T' := [.hdrs, .host, .glob, .loop, .hut]) ?_ h0; unfold slotRegWrite; dsimp only; (repeat' split) <;> simp

@[simp] theorem slotEnable_only (i : Nat) (on : Bool) (T : List Part) (u s : State) (h0 : [.hdrs, .host, .glob, .loop, .hut]
    ⊆ T) :
    only T u ((slotEnable i on s)) ↔ only T u s := by
  refine only_step (T' := [.hdrs, .host, .glob, .loop, .hut]) ?_ h0; unfold slotEnable; simp

@[simp] theorem slotHold_only (i : Nat) (on : Bool) (T : List Part) (u s : State) (h0 : [.hdrs, .host, .glob, .loop, .hut] ⊆
    T) :
    only T u ((slotHold i on s)) ↔ only T u s := by
  refine only_step (T' := [.hdrs, .host, .glob, .loop, .hut]) ?_ h0; unfold slotHold; simp

@[simp] theorem injectGo_only (v : Word) (T : List Part) (u s : State) (h0 : [.hdrs, .host, .glob, .loop, .hut] ⊆ T) :
    only T u ((injectGo v s)) ↔ only T u s := by
  refine only_step (T' := [.hdrs, .host, .glob, .loop, .hut]) ?_ h0; unfold injectGo; (repeat' split) <;> simp

@[simp] theorem countDrop_only (i n : Nat) (T : List Part) (u s : State) (h0 : [.hdrs, .cbus, .hut] ⊆ T) :
    only T u ((countDrop i n s)) ↔ only T u s := by
  refine only_step (T' := [.hdrs, .cbus, .hut]) ?_ h0; unfold countDrop; simp

@[simp] theorem queueFrame_only (i : Nat) (f : TxFrame) (isLeak : Bool) (T : List Part) (u s : State) (h0 : [.hdrs, .cbus,
    .hut] ⊆ T) :
    only T u ((queueFrame i f isLeak s)) ↔ only T u s := by
  refine only_step (T' := [.hdrs, .cbus, .hut]) ?_ h0; unfold queueFrame; dsimp only; (repeat' split) <;> simp

@[simp] theorem sendTraverse_only (mid : Nat) (body : Nat → List Byte) (T : List Part) (u s : State) (h0 : [.hdrs, .cbus,
    .hut] ⊆ T) :
    only T u ((sendTraverse mid body s)) ↔ only T u s := by
  refine only_step (T' := [.hdrs, .cbus, .hut]) ?_ h0; unfold sendTraverse; simp

@[simp] theorem sendLeak_only  (T : List Part) (u s : State) (h0 : [.hdrs, .cbus, .hut] ⊆ T) :
    only T u ((sendLeak s)) ↔ only T u s := by
  refine only_step (T' := [.hdrs, .cbus, .hut]) ?_ h0; unfold sendLeak; simp

@[simp] theorem txDone_only (i : Nat) (T : List Part) (u s : State) (h0 : [.cbus] ⊆ T) :
    only T u ((txDone i s)) ↔ only T u s := by
  refine only_step (T' := [.cbus]) ?_ h0; unfold txDone; dsimp only; (repeat' split) <;> simp

@[simp] theorem txExpiry_only (i : Nat) (T : List Part) (u s : State) (h0 : [.hdrs, .cbus, .hut] ⊆ T) :
    only T u ((txExpiry i s)) ↔ only T u s := by
  refine only_step (T' := [.hdrs, .cbus, .hut]) ?_ h0; unfold txExpiry; simp

@[simp] theorem busOff_only (i : Nat) (T : List Part) (u s : State) (h0 : [.hdrs, .host, .glob, .cbus, .hut] ⊆ T) :
    only T u ((busOff i s)) ↔ only T u s := by
  refine only_step (T' := [.hdrs, .host, .glob, .cbus, .hut]) ?_ h0; unfold busOff; dsimp only; (repeat' split) <;> simp

@[simp] theorem recoveryDone_only (i : Nat) (T : List Part) (u s : State) (h0 : [.hdrs, .host, .glob, .cbus, .hut] ⊆ T) :
    only T u ((recoveryDone i s)) ↔ only T u s := by
  refine only_step (T' := [.hdrs, .host, .glob, .cbus, .hut]) ?_ h0; unfold recoveryDone; simp

@[simp] theorem busError_only (i : Nat) (tec : BitVec 9) (rxe : BitVec 8) (T : List Part) (u s : State) (h0 : [.hdrs, .host,
    .glob, .cbus, .hut] ⊆ T) :
    only T u ((busError i tec rxe s)) ↔ only T u s := by
  refine only_step (T' := [.hdrs, .host, .glob, .cbus, .hut]) ?_ h0; unfold busError; dsimp only; (repeat' split) <;> simp

@[simp] theorem timingWrite_only (i : Nat) (dbt : Bool) (v : Word) (T : List Part) (u s : State) (h0 : [.hdrs, .cbus, .hut] ⊆
    T) :
    only T u ((timingWrite i dbt v s)) ↔ only T u s := by
  refine only_step (T' := [.hdrs, .cbus, .hut]) ?_ h0; unfold timingWrite; dsimp only; (repeat' split) <;> simp

@[simp] theorem setInit_only (i : Nat) (on : Bool) (T : List Part) (u s : State) (h0 : [.cbus] ⊆ T) :
    only T u ((setInit i on s)) ↔ only T u s := by
  refine only_step (T' := [.cbus]) ?_ h0; unfold setInit; simp

@[simp] theorem setLost_only (i k : Nat) (T : List Part) (u s : State) (h0 : [.hdrs, .host, .glob, .cbus, .hut] ⊆ T) :
    only T u ((setLost i k s)) ↔ only T u s := by
  refine only_step (T' := [.hdrs, .host, .glob, .cbus, .hut]) ?_ h0; unfold setLost; simp

@[simp] theorem storeFrame_only (i k : Nat) (f : CanFrame) (T : List Part) (u s : State) (h0 : [.hdrs, .host, .glob, .cbus,
    .hut] ⊆ T) :
    only T u ((storeFrame i k f s)) ↔ only T u s := by
  refine only_step (T' := [.hdrs, .host, .glob, .cbus, .hut]) ?_ h0; unfold storeFrame; dsimp only; (repeat' split) <;> simp

@[simp] theorem objLock_only (i k : Nat) (T : List Part) (u s : State) (h0 : [.reply, .cbus] ⊆ T) :
    only T u ((objLock i k s)) ↔ only T u s := by
  refine only_step (T' := [.reply, .cbus]) ?_ h0; unfold objLock; simp

@[simp] theorem objRelease_only (i k : Nat) (T : List Part) (u s : State) (h0 : [.hdrs, .host, .glob, .cbus] ⊆ T) :
    only T u ((objRelease i k s)) ↔ only T u s := by
  refine only_step (T' := [.hdrs, .host, .glob, .cbus]) ?_ h0; unfold objRelease; dsimp only; (repeat' split) <;> simp

@[simp] theorem timeSource_only  (T : List Part) (u s : State) (h0 : [.cbus] ⊆ T) :
    only T u ((timeSource s)) ↔ only T u s := by
  refine only_step (T' := [.cbus]) ?_ h0; unfold timeSource; simp

@[simp] theorem masterEvent_only  (T : List Part) (u s : State) (h0 : [.hdrs, .host, .glob, .hut] ⊆ T) :
    only T u ((masterEvent s)) ↔ only T u s := by
  refine only_step (T' := [.hdrs, .host, .glob, .hut]) ?_ h0; unfold masterEvent; simp

@[simp] theorem trefRx_only (i : Nat) (src : BitVec 6) (role : Byte) (carried start : DWord) (T : List Part) (u s : State)
    (h0 : [.hdrs, .host, .glob, .cbus, .hut] ⊆ T) :
    only T u ((trefRx i src role carried start s)) ↔ only T u s := by
  refine only_step (T' := [.hdrs, .host, .glob, .cbus, .hut]) ?_ h0; unfold trefRx; dsimp only; (repeat' split) <;> simp

@[simp] theorem trefAge_only (i : Nat) (T : List Part) (u s : State) (h0 : [.hdrs, .host, .glob, .cbus, .hut] ⊆ T) :
    only T u ((trefAge i s)) ↔ only T u s := by
  refine only_step (T' := [.hdrs, .host, .glob, .cbus, .hut]) ?_ h0; unfold trefAge; (repeat' split) <;> simp

@[simp] theorem trefSend_only  (T : List Part) (u s : State) (h0 : [.hdrs, .host, .glob, .cbus, .hut] ⊆ T) :
    only T u ((trefSend s)) ↔ only T u s := by
  refine only_step (T' := [.hdrs, .host, .glob, .cbus, .hut]) ?_ h0; unfold trefSend; dsimp only; (repeat' split) <;> simp

@[simp] theorem senderExpiry_only (src : Nat) (T : List Part) (u s : State) (h0 : [.cbus] ⊆ T) :
    only T u ((senderExpiry src s)) ↔ only T u s := by
  refine only_step (T' := [.cbus]) ?_ h0; unfold senderExpiry; (repeat' split) <;> simp

@[simp] theorem groupSafe_only (g : Nat) (T : List Part) (u s : State) (h0 : [.hdrs, .drv, .hut] ⊆ T) :
    only T u ((groupSafe g s)) ↔ only T u s := by
  refine only_step (T' := [.hdrs, .drv, .hut]) ?_ h0; unfold groupSafe; simp

@[simp] theorem leaseState_only (g : Nat) (st : LeaseSt) (T : List Part) (u s : State) (h0 : [.hdrs, .host, .glob, .cbus] ⊆ T) :
    only T u ((leaseState g st s)) ↔ only T u s := by
  refine only_step (T' := [.hdrs, .host, .glob, .cbus]) ?_ h0; unfold leaseState; simp

@[simp] theorem sendLease_only (g : Nat) (claim release : Bool) (T : List Part) (u s : State) (h0 : [.hdrs, .cbus, .hut] ⊆ T) :
    only T u ((sendLease g claim release s)) ↔ only T u s := by
  refine only_step (T' := [.hdrs, .cbus, .hut]) ?_ h0; unfold sendLease; simp

@[simp] theorem sendMirrors_only (g : Nat) (T : List Part) (u s : State) (h0 : [.hdrs, .cbus, .hut] ⊆ T) :
    only T u ((sendMirrors g s)) ↔ only T u s := by
  refine only_step (T' := [.hdrs, .cbus, .hut]) ?_ h0; unfold sendMirrors; simp

@[simp] theorem barGroup_only (g : Nat) (T : List Part) (u s : State) (h0 : [.hdrs, .host, .glob, .drv, .cbus, .hut] ⊆ T) :
    only T u ((barGroup g s)) ↔ only T u s := by
  refine only_step (T' := [.hdrs, .host, .glob, .drv, .cbus, .hut]) ?_ h0; unfold barGroup; simp

@[simp] theorem applyReady_only (ready : Bool) (T : List Part) (u s : State) (h0 : [.hdrs, .host, .glob, .drv, .cbus,
    .hut] ⊆ T) :
    only T u ((applyReady ready s)) ↔ only T u s := by
  have key : only [.hdrs, .host, .glob, .drv, .cbus, .hut] s ((applyReady ready s)) := by
    unfold applyReady; try dsimp only
    (repeat' first | with_reducible apply only_if | split) <;> first | (simp; done) | (refine forAll_keeps ?_ _ _; intro x t; (try dsimp only); (repeat' split) <;> simp; done) | (refine only_trans ?_ (forAll_keeps (T := [.hdrs, .host, .glob, .drv, .cbus, .hut]) (by (intro x t; (try dsimp only); (repeat' split) <;> simp; done)) _ _); simp; done) | (simp; (refine only_trans ?_ (forAll_keeps (T := [.hdrs, .host, .glob, .drv, .cbus, .hut]) (by (intro x t; (try dsimp only); (repeat' split) <;> simp; done)) _ _); simp; done)) | (intro p hp; cases p <;> first | rfl | (simp at hp; done)) | (simp; intro p hp; cases p <;> first | rfl | (simp at hp; done)) | simp
  exact only_step key h0

@[simp] theorem selfTest_only (rbA rbB drivers slots : Bool) (T : List Part) (u s : State) (h0 : [.hdrs, .host,
    .glob, .drv, .cbus, .hut] ⊆ T) :
    only T u ((selfTest rbA rbB drivers slots s)) ↔ only T u s := by
  refine only_step (T' := [.hdrs, .host, .glob, .drv, .cbus, .hut]) ?_ h0; unfold selfTest; simp

@[simp] theorem expireLease_only (g : Nat) (T : List Part) (u s : State) (h0 : [.hdrs, .host, .glob, .cbus] ⊆ T) :
    only T u ((expireLease g s)) ↔ only T u s := by
  refine only_step (T' := [.hdrs, .host, .glob, .cbus]) ?_ h0; unfold expireLease; dsimp only; (repeat' split) <;> simp

@[simp] theorem leaseExpiry_only (g : Nat) (T : List Part) (u s : State) (h0 : [.hdrs, .host, .glob, .cbus] ⊆ T) :
    only T u ((leaseExpiry g s)) ↔ only T u s := by
  refine only_step (T' := [.hdrs, .host, .glob, .cbus]) ?_ h0; unfold leaseExpiry; simp

@[simp] theorem claimSend_only (g : Nat) (T : List Part) (u s : State) (h0 : [.hdrs, .host, .glob, .cbus, .hut] ⊆ T) :
    only T u ((claimSend g s)) ↔ only T u s := by
  refine only_step (T' := [.hdrs, .host, .glob, .cbus, .hut]) ?_ h0; unfold claimSend; simp

@[simp] theorem loadMirrors_only (g : Nat) (T : List Part) (u s : State) (h0 : [.loop] ⊆ T) :
    only T u ((loadMirrors g s)) ↔ only T u s := by
  refine only_step (T' := [.loop]) ?_ h0; unfold loadMirrors; simp

@[simp] theorem claimEnd_only (g : Nat) (T : List Part) (u s : State) (h0 : [.hdrs, .host, .glob, .loop, .drv, .cbus, .hut] ⊆
    T) :
    only T u ((claimEnd g s)) ↔ only T u s := by
  have key : only [.hdrs, .host, .glob, .loop, .drv, .cbus, .hut] s ((claimEnd g s)) := by
    have h : ∀ v t, only [.hdrs, .host, .glob, .loop, .drv, .cbus, .hut] t (claimEnd.actOnCommandUnlessLeak v t) := by
      intro v t; unfold claimEnd.actOnCommandUnlessLeak; split <;> simp
    unfold claimEnd; dsimp only; refine only_if (only_trans ?_ (forAll_keeps h _ _)) (only_refl _ _)
    rw [only_forAll _ _ _ _ _ (by intro m t; simp)]
    refine only_if ?_ (by simp)
    simp
  exact only_step key h0

@[simp] theorem renewalDue_only (g : Nat) (T : List Part) (u s : State) (h0 : [.hdrs, .cbus, .hut] ⊆ T) :
    only T u ((renewalDue g s)) ↔ only T u s := by
  refine only_step (T' := [.hdrs, .cbus, .hut]) ?_ h0; unfold renewalDue; simp

@[simp] theorem holderTimeout_only (g : Nat) (T : List Part) (u s : State) (h0 : [.hdrs, .host, .glob, .drv, .cbus, .hut] ⊆ T) :
    only T u ((holderTimeout g s)) ↔ only T u s := by
  refine only_step (T' := [.hdrs, .host, .glob, .drv, .cbus, .hut]) ?_ h0; unfold holderTimeout; simp

@[simp] theorem heard_only (src : BitVec 6) (T : List Part) (u s : State) (h0 : [.cbus] ⊆ T) :
    only T u ((heard src s)) ↔ only T u s := by
  have key : only [.cbus] s ((heard src s)) := by
    unfold heard; try dsimp only
    (repeat' first | with_reducible apply only_if | split) <;> first | (simp; done) | (refine forAll_keeps ?_ _ _; intro x t; (try dsimp only); (repeat' split) <;> simp; done) | (refine only_trans ?_ (forAll_keeps (T := [.cbus]) (by (intro x t; (try dsimp only); (repeat' split) <;> simp; done)) _ _); simp; done) | (simp; (refine only_trans ?_ (forAll_keeps (T := [.cbus]) (by (intro x t; (try dsimp only); (repeat' split) <;> simp; done)) _ _); simp; done)) | (intro p hp; cases p <;> first | rfl | (simp at hp; done)) | (simp; intro p hp; cases p <;> first | rfl | (simp at hp; done)) | simp
  exact only_step key h0

@[simp] theorem leaseRx_only (src : BitVec 6) (g : Nat) (release primary : Bool) (epoch : Word) (T : List Part) (u s0 :
    State) (h0 : [.hdrs, .host, .glob, .drv, .cbus, .hut] ⊆ T) :
    only T u ((leaseRx src g release primary epoch s0)) ↔ only T u s0 := by
  refine only_step (T' := [.hdrs, .host, .glob, .drv, .cbus, .hut]) ?_ h0; unfold leaseRx; dsimp only; (repeat' split) <;> simp

@[simp] theorem mirrorRx_only (src : BitVec 6) (g : Nat) (part : Byte) (epoch : Word) (es : List (SlotId × BitVec 24 × BitVec
    24)) (T : List Part) (u s0 : State) (h0 : [.cbus] ⊆ T) :
    only T u ((mirrorRx src g part epoch es s0)) ↔ only T u s0 := by
  refine only_step (T' := [.cbus]) ?_ h0; unfold mirrorRx; simp

@[simp] theorem healthRx_only (src : BitVec 6) (bits : Byte) (T : List Part) (u s0 : State) (h0 : [.hdrs, .host, .glob,
    .cbus, .hut] ⊆ T) :
    only T u ((healthRx src bits s0)) ↔ only T u s0 := by
  have key : only [.hdrs, .host, .glob, .cbus, .hut] s0 ((healthRx src bits s0)) := by
    unfold healthRx; try dsimp only
    (repeat' first | with_reducible apply only_if | split) <;> first | (simp; done) | (refine forAll_keeps ?_ _ _; intro x t; (try dsimp only); (repeat' split) <;> simp; done) | (refine only_trans ?_ (forAll_keeps (T := [.hdrs, .host, .glob, .cbus, .hut]) (by (intro x t; (try dsimp only); (repeat' split) <;> simp; done)) _ _); simp; done) | (simp; (refine only_trans ?_ (forAll_keeps (T := [.hdrs, .host, .glob, .cbus, .hut]) (by (intro x t; (try dsimp only); (repeat' split) <;> simp; done)) _ _); simp; done)) | (intro p hp; cases p <;> first | rfl | (simp at hp; done)) | (simp; intro p hp; cases p <;> first | rfl | (simp at hp; done)) | simp
  exact only_step key h0

@[simp] theorem leakRx_only (src : BitVec 6) (T : List Part) (u s0 : State) (h0 : [.hdrs, .host, .glob, .drv, .cbus, .hut] ⊆
    T) :
    only T u ((leakRx src s0)) ↔ only T u s0 := by
  refine only_step (T' := [.hdrs, .host, .glob, .drv, .cbus, .hut]) ?_ h0; unfold leakRx; dsimp only; (repeat' split) <;> simp

@[simp] theorem peerLeakEnd_only  (T : List Part) (u s : State) (h0 : [.hdrs, .host, .glob, .drv, .cbus, .hut] ⊆ T) :
    only T u ((peerLeakEnd s)) ↔ only T u s := by
  refine only_step (T' := [.hdrs, .host, .glob, .drv, .cbus, .hut]) ?_ h0; unfold peerLeakEnd; (repeat' split) <;> simp

@[simp] theorem actMsg_only (mid : Nat) (src : BitVec 6) (p : List Byte) (T : List Part) (u s : State) (h0 : [.hdrs, .host,
    .glob, .drv, .cbus, .hut] ⊆ T) :
    only T u ((actMsg mid src p s)) ↔ only T u s := by
  refine only_step (T' := [.hdrs, .host, .glob, .drv, .cbus, .hut]) ?_ h0; unfold actMsg; dsimp only; (repeat' split) <;> simp

@[simp] theorem traverseRx_only (i : Nat) (f : CanFrame) (T : List Part) (u s : State) (h0 : [.hdrs, .host, .glob, .drv,
    .cbus, .hut] ⊆ T) :
    only T u ((traverseRx i f s)) ↔ only T u s := by
  refine only_step (T' := [.hdrs, .host, .glob, .drv, .cbus, .hut]) ?_ h0; unfold traverseRx; dsimp only; (repeat' split) <;> simp

@[simp] theorem frameRx_only (i : Nat) (f : CanFrame) (T : List Part) (u s : State) (h0 : [.hdrs, .host, .glob, .drv, .cbus,
    .hut] ⊆ T) :
    only T u ((frameRx i f s)) ↔ only T u s := by
  refine only_step (T' := [.hdrs, .host, .glob, .drv, .cbus, .hut]) ?_ h0; unfold frameRx; dsimp only; (repeat' split) <;> simp

@[simp] theorem convert_only (k : Nat) (code : BitVec 16) (value : BitVec 24) (T : List Part) (u s : State) (h0 : [.drv] ⊆ T) :
    only T u ((convert k code value s)) ↔ only T u s := by
  refine only_step (T' := [.drv]) ?_ h0; unfold convert; simp

@[simp] theorem ainConvert_only (k : Nat) (code : BitVec 16) (T : List Part) (u s : State) (h0 : [.drv] ⊆ T) :
    only T u ((ainConvert k code s)) ↔ only T u s := by
  refine only_step (T' := [.drv]) ?_ h0; unfold ainConvert; simp

@[simp] theorem flowSample_only (i : Nat) (code : BitVec 16) (T : List Part) (u s : State) (h0 : [.drv] ⊆ T) :
    only T u ((flowSample i code s)) ↔ only T u s := by
  refine only_step (T' := [.drv]) ?_ h0; unfold flowSample; dsimp only; (repeat' split) <;> simp

@[simp] theorem thermSample_only (i : Nat) (code : BitVec 16) (T : List Part) (u s : State) (h0 : [.drv] ⊆ T) :
    only T u ((thermSample i code s)) ↔ only T u s := by
  refine only_step (T' := [.drv]) ?_ h0; unfold thermSample; simp

@[simp] theorem pulseEdge_only (k : Nat) (T : List Part) (u s : State) (h0 : [.drv] ⊆ T) :
    only T u ((pulseEdge k s)) ↔ only T u s := by
  refine only_step (T' := [.drv]) ?_ h0; unfold pulseEdge; dsimp only; (repeat' split) <;> simp

@[simp] theorem inputFault_only (k : Nat) (T : List Part) (u s : State) (h0 : [.hdrs, .host, .glob, .drv, .hut] ⊆ T) :
    only T u ((inputFault k s)) ↔ only T u s := by
  refine only_step (T' := [.hdrs, .host, .glob, .drv, .hut]) ?_ h0; unfold inputFault; simp

@[simp] theorem ropeChange_only (r ohms : Nat) (T : List Part) (u s : State) (h0 : [.hdrs, .host, .glob, .drv, .hut] ⊆ T) :
    only T u ((ropeChange r ohms s)) ↔ only T u s := by
  refine only_step (T' := [.hdrs, .host, .glob, .drv, .hut]) ?_ h0; unfold ropeChange; dsimp only; (repeat' split) <;> simp

@[simp] theorem leakLatch_only (r : Nat) (T : List Part) (u s : State) (h0 : [.hdrs, .host, .glob, .loop, .drv, .cbus, .hut]
    ⊆ T) :
    only T u ((leakLatch r s)) ↔ only T u s := by
  refine only_step (T' := [.hdrs, .host, .glob, .loop, .drv, .cbus, .hut]) ?_ h0; unfold leakLatch; dsimp only; (repeat' split) <;> simp

@[simp] theorem clearLatches_only (who : Nat) (T : List Part) (u s : State) (h0 : [.hdrs, .host, .glob, .drv, .hut] ⊆ T) :
    only T u ((clearLatches who s)) ↔ only T u s := by
  refine only_step (T' := [.hdrs, .host, .glob, .drv, .hut]) ?_ h0; unfold clearLatches; simp

@[simp] theorem applyCoefs_only (es : List (BitVec 16 × List Byte)) (T : List Part) (u s : State) (h0 : [.loop] ⊆ T) :
    only T u ((applyCoefs es s)) ↔ only T u s := by
  have key : only [.loop] s ((applyCoefs es s)) := by
    unfold applyCoefs; try dsimp only
    (repeat' first | with_reducible apply only_if | split) <;> first | (simp; done) | (refine forAll_keeps ?_ _ _; intro x t; (try dsimp only); (repeat' split) <;> simp; done) | (refine only_trans ?_ (forAll_keeps (T := [.loop]) (by (intro x t; (try dsimp only); (repeat' split) <;> simp; done)) _ _); simp; done) | (simp; (refine only_trans ?_ (forAll_keeps (T := [.loop]) (by (intro x t; (try dsimp only); (repeat' split) <;> simp; done)) _ _); simp; done)) | (intro p hp; cases p <;> first | rfl | (simp at hp; done)) | (simp; intro p hp; cases p <;> first | rfl | (simp at hp; done)) | simp
  exact only_step key h0

@[simp] theorem applyAgeing_only (es : List (BitVec 16 × List Byte)) (T : List Part) (u s : State) (h0 : [.drv] ⊆ T) :
    only T u ((applyAgeing es s)) ↔ only T u s := by
  refine only_step (T' := [.drv]) ?_ h0; unfold applyAgeing; (repeat' split) <;> simp

@[simp] theorem applyModuleReset_only  (T : List Part) (u s : State) (h0 : [.sec, .loop, .drv, .cairn] ⊆ T) :
    only T u ((applyModuleReset s)) ↔ only T u s := by
  refine only_step (T' := [.sec, .loop, .drv, .cairn]) ?_ h0; unfold applyModuleReset; simp

@[simp] theorem applyPlan_only (es : List (BitVec 16 × List Byte)) (T : List Part) (u s : State) (h0 : [.loop] ⊆ T) :
    only T u ((applyPlan es s)) ↔ only T u s := by
  refine only_step (T' := [.loop]) ?_ h0; unfold applyPlan; (repeat' split) <;> simp

@[simp] theorem applyDrives_only (es : List (BitVec 16 × List Byte)) (T : List Part) (u s : State) (h0 : [.hdrs, .host,
    .glob, .drv] ⊆ T) :
    only T u ((applyDrives es s)) ↔ only T u s := by
  have key : only [.hdrs, .host, .glob, .drv] s ((applyDrives es s)) := by
    unfold applyDrives; split
    · exact only_refl _ _
    · dsimp only; rw [onDrv_only _ _ _ _ (by simp)]
      refine only_trans (forAll_keeps (T := [.hdrs, .host, .glob, .drv]) ?_ _ _) (forAll_keeps (T := [.hdrs, .host, .glob, .drv]) ?_ _ _)
      · intro v t; rw [onValve_only _ _ _ _ _ (by simp), valveConfig_only _ _ _ _ _ _ (by simp)]
        exact forAll_keeps (by intro k t; simp) _ _
      · intro m t; simp
  exact only_step key h0

@[simp] theorem applyInputs_only (es : List (BitVec 16 × List Byte)) (T : List Part) (u s : State) (h0 : [.drv] ⊆ T) :
    only T u ((applyInputs es s)) ↔ only T u s := by
  refine only_step (T' := [.drv]) ?_ h0; unfold applyInputs; (repeat' split) <;> simp

@[simp] theorem applyBus_only (es : List (BitVec 16 × List Byte)) (T : List Part) (u s : State) (h0 : [.cbus] ⊆ T) :
    only T u ((applyBus es s)) ↔ only T u s := by
  refine only_step (T' := [.cbus]) ?_ h0; unfold applyBus; (repeat' split) <;> simp

@[simp] theorem applyStandby_only  (T : List Part) (u s : State) (h0 : [.hdrs, .host, .glob, .sec, .loop, .drv, .cbus, .hut,
    .cairn] ⊆ T) :
    only T u ((applyStandby s)) ↔ only T u s := by
  refine only_step (T' := [.hdrs, .host, .glob, .sec, .loop, .drv, .cbus, .hut, .cairn]) ?_ h0; unfold applyStandby; simp

@[simp] theorem enableInts_only (ps : List Nat) (T : List Part) (u s : State) (h0 : [.hdrs] ⊆ T) :
    only T u ((enableInts ps s)) ↔ only T u s := by
  have key : only [.hdrs] s ((enableInts ps s)) := by
    unfold enableInts; try dsimp only
    (repeat' first | with_reducible apply only_if | split) <;> first | (simp; done) | (refine forAll_keeps ?_ _ _; intro x t; (try dsimp only); (repeat' split) <;> simp; done) | (refine only_trans ?_ (forAll_keeps (T := [.hdrs]) (by (intro x t; (try dsimp only); (repeat' split) <;> simp; done)) _ _); simp; done) | (simp; (refine only_trans ?_ (forAll_keeps (T := [.hdrs]) (by (intro x t; (try dsimp only); (repeat' split) <;> simp; done)) _ _); simp; done)) | (intro p hp; cases p <;> first | rfl | (simp at hp; done)) | (simp; intro p hp; cases p <;> first | rfl | (simp at hp; done)) | simp
  exact only_step key h0

end Sys2Proof.Machine
end

