-- ==== Sys2Proof/Laws/OnlyHost.lean ====
section
/-! SUPPORT. What each operation can touch: the host, power, thermal control, start-up and management. -/

set_option linter.all false

namespace Sys2Proof.Machine

open Sys2Proof.Safety

@[simp] theorem hdrWrite_only (p : Nat) (b : Blk) (off : Nat) (v : Word) (T : List Part) (u s : State) (h0 : [.hdrs, .host,
    .glob] ⊆ T) :
    only T u ((hdrWrite p b off v s)) ↔ only T u s := by
  refine only_step (T' := [.hdrs, .host, .glob]) ?_ h0; unfold hdrWrite; (repeat' split) <;> simp

@[simp] theorem ctxRegWrite_only (x off : Nat) (v : Word) (T : List Part) (u s : State) (h0 : [.reply, .hdrs, .cores, .ctls,
    .ctx, .fence, .fab, .host, .glob, .pwr, .sec, .evts] ⊆ T) :
    only T u ((ctxRegWrite x off v s)) ↔ only T u s := by
  have key : only [.reply, .hdrs, .cores, .ctls, .ctx, .fence, .fab, .host, .glob, .pwr, .sec, .evts] s ((ctxRegWrite x off v s)) := by
    unfold ctxRegWrite; try dsimp only
    (repeat' first | with_reducible apply only_if | split) <;> first | (simp; done) | (refine forAll_keeps ?_ _ _; intro x t; (try dsimp only); (repeat' split) <;> simp; done) | (refine only_trans ?_ (forAll_keeps (T := [.reply, .hdrs, .cores, .ctls, .ctx, .fence, .fab, .host, .glob, .pwr, .sec, .evts]) (by (intro x t; (try dsimp only); (repeat' split) <;> simp; done)) _ _); simp; done) | (simp; (refine only_trans ?_ (forAll_keeps (T := [.reply, .hdrs, .cores, .ctls, .ctx, .fence, .fab, .host, .glob, .pwr, .sec, .evts]) (by (intro x t; (try dsimp only); (repeat' split) <;> simp; done)) _ _); simp; done)) | (intro p hp; cases p <;> first | rfl | (simp at hp; done)) | (simp; intro p hp; cases p <;> first | rfl | (simp at hp; done)) | simp
  exact only_step key h0

@[simp] theorem forContext_only (T : List Part) (src : CmdSrc) (act : CtxId → State → State) (u s : State)
    (h : ∀ x t, only T t (act x t)) (h0 : [.reply, .hdrs, .host, .glob] ⊆ T) : only T u (forContext src act s) ↔ only T u s := by
  have hf : ∀ st, only T u (finishGeneric src st 0 s) ↔ only T u s := fun st => finishGeneric_only _ _ _ T u s h0
  unfold forContext; split
  · exact hf _
  · dsimp only; split
    · exact hf _
    · exact only_step (h _ s) (fun _ a => a)
    · exact hf _

@[simp] theorem submitPitch_only (src : CmdSrc) (x : CtxId) (lcore : Byte) (a : DWord) (T : List Part) (u s : State) (h0 :
    [.reply, .hdrs, .ledge, .mesh, .hbm, .ctx, .host, .glob, .evts] ⊆ T) :
    only T u ((submitPitch src x lcore a s)) ↔ only T u s := by
  refine only_step (T' := [.reply, .hdrs, .ledge, .mesh, .hbm, .ctx, .host, .glob, .evts]) ?_ h0; unfold submitPitch; dsimp only; (repeat' split) <;> simp

@[simp] theorem pitchCmd_only (src : CmdSrc) (lcore : Byte) (desc : DWord) (T : List Part) (u s : State) (h0 : [.reply,
    .hdrs, .ledge, .mesh, .hbm, .ctx, .host, .glob, .evts] ⊆ T) :
    only T u ((pitchCmd src lcore desc s)) ↔ only T u s := by
  refine only_step (T' := [.reply, .hdrs, .ledge, .mesh, .hbm, .ctx, .host, .glob, .evts]) ?_ h0; unfold pitchCmd; dsimp only; (repeat' split) <;> simp

@[simp] theorem admitCmd_only (src : CmdSrc) (x : CtxId) (hbm : DWord) (ledge : Word) (T : List Part) (u s : State) (h0 :
    [.reply, .hdrs, .host, .glob] ⊆ T) :
    only T u ((admitCmd src x hbm ledge s)) ↔ only T u s := by
  refine only_step (T' := [.reply, .hdrs, .host, .glob]) ?_ h0; unfold admitCmd; simp

@[simp] theorem nopWait_only (src : CmdSrc) (T : List Part) (u s : State) (h0 : [.hdrs, .host, .glob] ⊆ T) :
    only T u ((nopWait src s)) ↔ only T u s := by
  refine only_step (T' := [.hdrs, .host, .glob]) ?_ h0; unfold nopWait; simp

@[simp] theorem changePage_only (k : Nat) (want : PageSt) (t : Nat) (T : List Part) (u s : State) (h0 : [.host] ⊆ T) :
    only T u ((changePage k want t s)) ↔ only T u s := by
  refine only_step (T' := [.host]) ?_ h0; unfold changePage; dsimp only; (repeat' split) <;> simp

@[simp] theorem wpageCmd_only (src : CmdSrc) (first count st : Nat) (target : Word) (T : List Part) (u s : State) (h0 :
    [.reply, .hdrs, .host, .glob] ⊆ T) :
    only T u ((wpageCmd src first count st target s)) ↔ only T u s := by
  refine only_step (T' := [.reply, .hdrs, .host, .glob]) ?_ h0; unfold wpageCmd; dsimp only; (repeat' split) <;> simp

@[simp] theorem pageTurn_only (k : Nat) (T : List Part) (u s : State) (h0 : [.reply, .hdrs, .host, .glob] ⊆ T) :
    only T u ((pageTurn k s)) ↔ only T u s := by
  refine only_step (T' := [.reply, .hdrs, .host, .glob]) ?_ h0; unfold pageTurn; dsimp only; (repeat' split) <;> simp

@[simp] theorem ctxrdCmd_only (src : CmdSrc) (ctx off : Nat) (T : List Part) (u s : State) (h0 : [.reply, .hdrs, .host,
    .glob] ⊆ T) :
    only T u ((ctxrdCmd src ctx off s)) ↔ only T u s := by
  refine only_step (T' := [.reply, .hdrs, .host, .glob]) ?_ h0; unfold ctxrdCmd; (repeat' split) <;> simp

@[simp] theorem ctxwrCmd_only (src : CmdSrc) (x off : Nat) (v : Word) (T : List Part) (u s : State) (h0 : [.reply, .hdrs,
    .cores, .ctls, .ctx, .fence, .fab, .host, .glob, .pwr, .sec, .evts] ⊆ T) :
    only T u ((ctxwrCmd src x off v s)) ↔ only T u s := by
  refine only_step (T' := [.reply, .hdrs, .cores, .ctls, .ctx, .fence, .fab, .host, .glob, .pwr, .sec, .evts]) ?_ h0; unfold ctxwrCmd; (repeat' split) <;> simp

@[simp] theorem ringError_only (f b : Nat) (T : List Part) (u s : State) (h0 : [.hdrs, .host, .glob] ⊆ T) :
    only T u ((ringError f b s)) ↔ only T u s := by
  refine only_step (T' := [.hdrs, .host, .glob]) ?_ h0; unfold ringError; simp

@[simp] theorem sqDoorbell_only (f i : Nat) (v : Word) (T : List Part) (u s : State) (h0 : [.hdrs, .host, .glob] ⊆ T) :
    only T u ((sqDoorbell f i v s)) ↔ only T u s := by
  refine only_step (T' := [.hdrs, .host, .glob]) ?_ h0; unfold sqDoorbell; dsimp only; (repeat' split) <;> simp

@[simp] theorem unsupported_only  (T : List Part) (u s : State) (h0 : [.reply] ⊆ T) :
    only T u ((unsupported s)) ↔ only T u s := by
  refine only_step (T' := [.reply]) ?_ h0; unfold unsupported; simp

@[simp] theorem cqDoorbell_only (f i : Nat) (v : Word) (T : List Part) (u s : State) (h0 : [.hdrs, .host, .glob] ⊆ T) :
    only T u ((cqDoorbell f i v s)) ↔ only T u s := by
  refine only_step (T' := [.hdrs, .host, .glob]) ?_ h0; unfold cqDoorbell; dsimp only; (repeat' split) <;> simp

@[simp] theorem writeSqCfg_only (f i : Nat) (v : Word) (T : List Part) (u s : State) (h0 : [.hdrs, .host, .glob] ⊆ T) :
    only T u ((writeSqCfg f i v s)) ↔ only T u s := by
  refine only_step (T' := [.hdrs, .host, .glob]) ?_ h0; unfold writeSqCfg; dsimp only; (repeat' split) <;> simp

@[simp] theorem writeCqCfg_only (f i : Nat) (v : Word) (T : List Part) (u s : State) (h0 : [.hdrs, .host, .glob] ⊆ T) :
    only T u ((writeCqCfg f i v s)) ↔ only T u s := by
  refine only_step (T' := [.hdrs, .host, .glob]) ?_ h0; unfold writeCqCfg; dsimp only; (repeat' split) <;> simp

@[simp] theorem coalesce_only (f i : Nat) (T : List Part) (u s : State) (h0 : [.host] ⊆ T) :
    only T u ((coalesce f i s)) ↔ only T u s := by
  refine only_step (T' := [.host]) ?_ h0; unfold coalesce; simp

@[simp] theorem postOne_only (f i : Nat) (T : List Part) (u s : State) (h0 : [.host] ⊆ T) :
    only T u ((postOne f i s)) ↔ only T u s := by
  refine only_step (T' := [.host]) ?_ h0; unfold postOne; (repeat' split) <;> simp

@[simp] theorem coalExpiry_only (f i : Nat) (T : List Part) (u s : State) (h0 : [.host] ⊆ T) :
    only T u ((coalExpiry f i s)) ↔ only T u s := by
  refine only_step (T' := [.host]) ?_ h0; unfold coalExpiry; simp

@[simp] theorem refuseWindow_only (f : Nat) (read : Bool) (T : List Part) (u s : State) (h0 : [.reply, .hdrs, .host, .glob] ⊆
    T) :
    only T u ((refuseWindow f read s)) ↔ only T u s := by
  refine only_step (T' := [.reply, .hdrs, .host, .glob]) ?_ h0; unfold refuseWindow; (repeat' split) <;> simp

@[simp] theorem windowWrite_only (k k2 off : Nat) (bs : List Byte) (T : List Part) (u s : State) (h0 : [.ledge, .hbm] ⊆ T) :
    only T u ((windowWrite k k2 off bs s)) ↔ only T u s := by
  refine only_step (T' := [.ledge, .hbm]) ?_ h0; unfold windowWrite; dsimp only; (repeat' split) <;> simp

@[simp] theorem windowRead_only (k k2 off len : Nat) (T : List Part) (u s : State) (h0 : [.reply, .hdrs, .ledge, .mesh, .hbm,
    .host, .glob, .evts] ⊆ T) :
    only T u ((windowRead k k2 off len s)) ↔ only T u s := by
  refine only_step (T' := [.reply, .hdrs, .ledge, .mesh, .hbm, .host, .glob, .evts]) ?_ h0; unfold windowRead; dsimp only; (repeat' split) <;> simp

@[simp] theorem windowAccess_only (f : Nat) (tee : Bool) (off len : Nat) (data : Option (List Byte)) (T : List Part) (u s :
    State) (h0 : [.reply, .hdrs, .ledge, .mesh, .hbm, .host, .glob, .evts] ⊆ T) :
    only T u ((windowAccess f tee off len data s)) ↔ only T u s := by
  refine only_step (T' := [.reply, .hdrs, .ledge, .mesh, .hbm, .host, .glob, .evts]) ?_ h0; unfold windowAccess; (repeat' split) <;> simp

@[simp] theorem tdiError_only (x : Nat) (T : List Part) (u s : State) (h0 : [.hdrs, .host, .glob] ⊆ T) :
    only T u ((tdiError x s)) ↔ only T u s := by
  refine only_step (T' := [.hdrs, .host, .glob]) ?_ h0; unfold tdiError; simp

@[simp] theorem hostLinkReset_only (flr : Bool) (T : List Part) (u s : State) (h0 : [.hdrs, .host, .glob] ⊆ T) :
    only T u ((hostLinkReset flr s)) ↔ only T u s := by
  have key : only [.hdrs, .host, .glob] s ((hostLinkReset flr s)) := by
    have h1 : only [.hdrs, .host, .glob] s (forAll (List.range 17) (fun f t => t.onFn f FnHost.ringsReset) s) := forAll_keeps (by intro f t; simp) _ _
    have h2 : ∀ t, only [.hdrs, .host, .glob] t (forAll (List.range 16) (fun x t => let d := (t.fn (fnOf x)).tdi
        if d = .locked ∨ d = .run then tdiError x t else t) t) := fun t => forAll_keeps (by intro x t; dsimp only; split <;> simp) _ _
    unfold hostLinkReset; dsimp only
    rw [onHdr_only _ _ _ _ _ (by simp), onHdr_only _ _ _ _ _ (by simp), onGlob_only _ _ _ _ (by simp), errPerm_only _ _ _ _ (by simp), onHost_only _ _ _ _ (by simp)]
    exact only_trans h1 (h2 _)
  exact only_step key h0

@[simp] theorem linkUp_only (rate : Nat) (width : BitVec 5) (T : List Part) (u s : State) (h0 : [.hdrs, .host, .glob] ⊆ T) :
    only T u ((linkUp rate width s)) ↔ only T u s := by
  refine only_step (T' := [.hdrs, .host, .glob]) ?_ h0; unfold linkUp; simp

@[simp] theorem vfFlr_only (x : Nat) (T : List Part) (u s : State) (h0 : [.reply, .hdrs, .cores, .ctls, .ctx, .fence, .fab,
    .host, .glob, .sec, .evts] ⊆ T) :
    only T u ((vfFlr x s)) ↔ only T u s := by
  refine only_step (T' := [.reply, .hdrs, .cores, .ctls, .ctx, .fence, .fab, .host, .glob, .sec, .evts]) ?_ h0; unfold vfFlr; dsimp only; (repeat' split) <;> simp

@[simp] theorem ideFailure_only (stream : Nat) (bound : BitVec 16) (T : List Part) (u s : State) (h0 : [.hdrs, .host, .glob]
    ⊆ T) :
    only T u ((ideFailure stream bound s)) ↔ only T u s := by
  have key : only [.hdrs, .host, .glob] s ((ideFailure stream bound s)) := by
    unfold ideFailure; try dsimp only
    (repeat' first | with_reducible apply only_if | split) <;> first | (simp; done) | (refine forAll_keeps ?_ _ _; intro x t; (try dsimp only); (repeat' split) <;> simp; done) | (refine only_trans ?_ (forAll_keeps (T := [.hdrs, .host, .glob]) (by (intro x t; (try dsimp only); (repeat' split) <;> simp; done)) _ _); simp; done) | (simp; (refine only_trans ?_ (forAll_keeps (T := [.hdrs, .host, .glob]) (by (intro x t; (try dsimp only); (repeat' split) <;> simp; done)) _ _); simp; done)) | (intro p hp; cases p <;> first | rfl | (simp at hp; done)) | (simp; intro p hp; cases p <;> first | rfl | (simp at hp; done)) | simp
  exact only_step key h0

@[simp] theorem ideKm_only (sess stream : Nat) (T : List Part) (u s : State) (h0 : [.reply, .host] ⊆ T) :
    only T u ((ideKm sess stream s)) ↔ only T u s := by
  refine only_step (T' := [.reply, .host]) ?_ h0; unfold ideKm; (repeat' split) <;> simp

@[simp] theorem lockTdi_only (x : Nat) (T : List Part) (u s : State) (h0 : [.reply, .host] ⊆ T) :
    only T u ((lockTdi x s)) ↔ only T u s := by
  refine only_step (T' := [.reply, .host]) ?_ h0; unfold lockTdi; (repeat' split) <;> simp

@[simp] theorem startTdi_only (x : Nat) (T : List Part) (u s : State) (h0 : [.reply, .host] ⊆ T) :
    only T u ((startTdi x s)) ↔ only T u s := by
  refine only_step (T' := [.reply, .host]) ?_ h0; unfold startTdi; (repeat' split) <;> simp

@[simp] theorem stopTdi_only (x : Nat) (T : List Part) (u s : State) (h0 : [.reply, .hdrs, .cores, .ctls, .ctx, .fence, .fab,
    .host, .glob, .sec, .evts] ⊆ T) :
    only T u ((stopTdi x s)) ↔ only T u s := by
  refine only_step (T' := [.reply, .hdrs, .cores, .ctls, .ctx, .fence, .fab, .host, .glob, .sec, .evts]) ?_ h0; unfold stopTdi; (repeat' split) <;> simp

@[simp] theorem pwrEvent_only (code unit : Nat) (T : List Part) (u s : State) (h0 : [.hdrs, .host, .glob, .evts] ⊆ T) :
    only T u ((pwrEvent code unit s)) ↔ only T u s := by
  refine only_step (T' := [.hdrs, .host, .glob, .evts]) ?_ h0; unfold pwrEvent; simp

@[simp] theorem boundaryModes_only  (T : List Part) (u s : State) (h0 : [.hdrs, .ctls, .host, .glob, .pwr, .evts] ⊆ T) :
    only T u ((boundaryModes s)) ↔ only T u s := by
  refine only_step (T' := [.hdrs, .ctls, .host, .glob, .pwr, .evts]) ?_ h0; unfold boundaryModes; dsimp only; (repeat' split) <;> simp

@[simp] theorem divide_only  (T : List Part) (u s : State) (h0 : [.ctls, .pwr] ⊆ T) :
    only T u ((divide s)) ↔ only T u s := by
  have key : only [.ctls, .pwr] s ((divide s)) := by
    unfold divide; try dsimp only
    (repeat' first | with_reducible apply only_if | split) <;> first | (simp; done) | (refine forAll_keeps ?_ _ _; intro x t; (try dsimp only); (repeat' split) <;> simp; done) | (refine only_trans ?_ (forAll_keeps (T := [.ctls, .pwr]) (by (intro x t; (try dsimp only); (repeat' split) <;> simp; done)) _ _); simp; done) | (simp; (refine only_trans ?_ (forAll_keeps (T := [.ctls, .pwr]) (by (intro x t; (try dsimp only); (repeat' split) <;> simp; done)) _ _); simp; done)) | (intro p hp; cases p <;> first | rfl | (simp at hp; done)) | (simp; intro p hp; cases p <;> first | rfl | (simp at hp; done)) | simp
  exact only_step key h0

@[simp] theorem epochBoundary_only  (T : List Part) (u s : State) (h0 : [.hdrs, .ctls, .ctx, .host, .glob, .pwr, .evts] ⊆ T) :
    only T u ((epochBoundary s)) ↔ only T u s := by
  refine only_step (T' := [.hdrs, .ctls, .ctx, .host, .glob, .pwr, .evts]) ?_ h0; unfold epochBoundary; simp

@[simp] theorem topUp_only (c : Nat) (T : List Part) (u s : State) (h0 : [.hdrs, .cores, .host, .glob, .pwr, .evts] ⊆ T) :
    only T u ((topUp c s)) ↔ only T u s := by
  refine only_step (T' := [.hdrs, .cores, .host, .glob, .pwr, .evts]) ?_ h0; unfold topUp; (repeat' split) <;> simp

@[simp] theorem payCore_only (c i : Nat) (T : List Part) (u s : State) (h0 : [.ctls, .pwr] ⊆ T) :
    only T u ((payCore c i s)) ↔ only T u s := by
  refine only_step (T' := [.ctls, .pwr]) ?_ h0; unfold payCore; (repeat' split) <;> simp

@[simp] theorem installment_only (c : Nat) (T : List Part) (u s : State) (h0 : [.reply, .hdrs, .cores, .ctls, .ledge, .mesh,
    .hbm, .arbs, .ctx, .fence, .host, .glob, .pwr, .sec, .dbg, .evts] ⊆ T) :
    only T u ((installment c s)) ↔ only T u s := by
  refine only_step (T' := [.reply, .hdrs, .cores, .ctls, .ledge, .mesh, .hbm, .arbs, .ctx, .fence, .host, .glob, .pwr, .sec, .dbg, .evts]) ?_ h0; unfold installment; simp

@[simp] theorem charge_only (r : Run) (e : Nat) (T : List Part) (u s : State) (h0 : [.pwr] ⊆ T) :
    only T u ((charge r e s)) ↔ only T u s := by
  refine only_step (T' := [.pwr]) ?_ h0; unfold charge; simp

@[simp] theorem meterDebit_only (c events : Nat) (T : List Part) (u s : State) (h0 : [.hdrs, .cores, .ctls, .host, .glob,
    .pwr, .evts, .thm] ⊆ T) :
    only T u ((meterDebit c events s)) ↔ only T u s := by
  refine only_step (T' := [.hdrs, .cores, .ctls, .host, .glob, .pwr, .evts, .thm]) ?_ h0; unfold meterDebit; (repeat' split) <;> simp

@[simp] theorem heartbeat_only (seq : BitVec 16) (T : List Part) (u s : State) (h0 : [.hdrs, .host, .glob, .pwr, .evts] ⊆ T) :
    only T u ((heartbeat seq s)) ↔ only T u s := by
  have key : only [.hdrs, .host, .glob, .pwr, .evts] s ((heartbeat seq s)) := by
    unfold heartbeat; try dsimp only
    (repeat' first | with_reducible apply only_if | split) <;> first | (simp; done) | (refine forAll_keeps ?_ _ _; intro x t; (try dsimp only); (repeat' split) <;> simp; done) | (refine only_trans ?_ (forAll_keeps (T := [.hdrs, .host, .glob, .pwr, .evts]) (by (intro x t; (try dsimp only); (repeat' split) <;> simp; done)) _ _); simp; done) | (simp; (refine only_trans ?_ (forAll_keeps (T := [.hdrs, .host, .glob, .pwr, .evts]) (by (intro x t; (try dsimp only); (repeat' split) <;> simp; done)) _ _); simp; done)) | (intro p hp; cases p <;> first | rfl | (simp at hp; done)) | (simp; intro p hp; cases p <;> first | rfl | (simp at hp; done)) | simp
  exact only_step key h0

@[simp] theorem trip_only (diode : Nat) (T : List Part) (u s : State) (h0 : [.hdrs, .ctls, .host, .glob, .pwr, .evts] ⊆ T) :
    only T u ((trip diode s)) ↔ only T u s := by
  refine only_step (T' := [.hdrs, .ctls, .host, .glob, .pwr, .evts]) ?_ h0; unfold trip; (repeat' split) <;> simp

@[simp] theorem dropCompute_only  (T : List Part) (u s : State) (h0 : [.env, .hdrs, .cores, .ctls, .ledge, .mesh, .hbm,
    .arbs, .arbSels, .ctx, .fence, .fab, .host, .glob, .pwr, .sec, .dbg, .thm] ⊆ T) :
    only T u ((dropCompute s)) ↔ only T u s := by
  have key : only [.env, .hdrs, .cores, .ctls, .ledge, .mesh, .hbm, .arbs, .arbSels, .ctx, .fence, .fab, .host, .glob, .pwr, .sec, .dbg, .thm] s ((dropCompute s)) := by
    unfold dropCompute; try dsimp only
    (repeat' first | with_reducible apply only_if | split) <;> first | (simp; done) | (refine forAll_keeps ?_ _ _; intro x t; (try dsimp only); (repeat' split) <;> simp; done) | (refine only_trans ?_ (forAll_keeps (T := [.env, .hdrs, .cores, .ctls, .ledge, .mesh, .hbm, .arbs, .arbSels, .ctx, .fence, .fab, .host, .glob, .pwr, .sec, .dbg, .thm]) (by (intro x t; (try dsimp only); (repeat' split) <;> simp; done)) _ _); simp; done) | (simp; (refine only_trans ?_ (forAll_keeps (T := [.env, .hdrs, .cores, .ctls, .ledge, .mesh, .hbm, .arbs, .arbSels, .ctx, .fence, .fab, .host, .glob, .pwr, .sec, .dbg, .thm]) (by (intro x t; (try dsimp only); (repeat' split) <;> simp; done)) _ _); simp; done)) | (intro p hp; cases p <;> first | rfl | (simp at hp; done)) | (simp; intro p hp; cases p <;> first | rfl | (simp at hp; done)) | simp
  exact only_step key h0

@[simp] theorem moduleReset_only  (T : List Part) (u s : State) (h0 : [.env, .hdrs, .cores, .ctls, .ledge, .mesh, .hbm,
    .arbs, .arbSels, .ctx, .fence, .fab, .host, .glob, .pwr, .sec, .dbg, .thm, .cool, .loop, .drv, .cairn] ⊆ T) :
    only T u ((moduleReset s)) ↔ only T u s := by
  have key : only [.env, .hdrs, .cores, .ctls, .ledge, .mesh, .hbm, .arbs, .arbSels, .ctx, .fence, .fab, .host, .glob, .pwr, .sec, .dbg, .thm, .cool, .loop, .drv, .cairn] s ((moduleReset s)) := by
    have h1 : only [.env, .hdrs, .cores, .ctls, .ledge, .mesh, .hbm, .arbs, .arbSels, .ctx, .fence, .fab, .host, .glob, .pwr, .sec, .dbg, .thm, .cool, .loop, .drv, .cairn] s (applyModuleReset s) := by simp
    unfold moduleReset; dsimp only; rw [onCairn_only _ _ _ _ (by simp), dropCompute_only _ _ _ (by simp)]
    exact only_trans h1 (by intro p hp; cases p <;> first | rfl | (simp at hp; done))
  exact only_step key h0

@[simp] theorem restoreCore_only (e : FaultEnt) (T : List Part) (u s : State) (h0 : [.hdrs, .ctls, .fence] ⊆ T) :
    only T u ((restoreCore e s)) ↔ only T u s := by
  refine only_step (T' := [.hdrs, .ctls, .fence]) ?_ h0; unfold restoreCore; dsimp only; (repeat' split) <;> simp

@[simp] theorem restoreUnit_only (e : FaultEnt) (T : List Part) (u s : State) (h0 : [.hdrs, .ledge, .mesh, .hbm, .fab, .host,
    .glob, .evts] ⊆ T) :
    only T u ((restoreUnit e s)) ↔ only T u s := by
  refine only_step (T' := [.hdrs, .ledge, .mesh, .hbm, .fab, .host, .glob, .evts]) ?_ h0; unfold restoreUnit; (repeat' split) <;> simp

@[simp] theorem settleCores_only  (T : List Part) (u s : State) (h0 : [.hdrs, .ctls, .fence] ⊆ T) :
    only T u ((settleCores s)) ↔ only T u s := by
  refine only_step (T' := [.hdrs, .ctls, .fence]) ?_ h0; unfold settleCores; simp

@[simp] theorem restoreFaults_only  (T : List Part) (u s : State) (h0 : [.hdrs, .ctls, .ledge, .mesh, .hbm, .fence, .fab,
    .host, .glob, .evts] ⊆ T) :
    only T u ((restoreFaults s)) ↔ only T u s := by
  have key : only [.hdrs, .ctls, .ledge, .mesh, .hbm, .fence, .fab, .host, .glob, .evts] s ((restoreFaults s)) := by
    have h1 : only [.hdrs, .ctls, .ledge, .mesh, .hbm, .fence, .fab, .host, .glob, .evts] s { s with ctls := shippedMap (shippedCores s), fence := { s.fence with logicalCount := (shippedCores s).length, unbacked := [] } } := (by intro p hp; cases p <;> first | rfl | (simp at hp; done))
    unfold restoreFaults; dsimp only
    refine only_trans ?_ (forAll_keeps (by intro x t; simp) _ _)
    rw [settleCores_only _ _ _ (by simp)]
    exact only_trans h1 (forAll_keeps (by intro x t; simp) _ _)
  exact only_step key h0

@[simp] theorem thmRaise_only (n : Nat) (T : List Part) (u s : State) (h0 : [.hdrs, .host, .glob] ⊆ T) :
    only T u ((thmRaise n s)) ↔ only T u s := by
  refine only_step (T' := [.hdrs, .host, .glob]) ?_ h0; unfold thmRaise; simp

@[simp] theorem pumpStart_only (m : Nat) (T : List Part) (u s : State) (h0 : [.drv] ⊆ T) :
    only T u ((pumpStart m s)) ↔ only T u s := by
  refine only_step (T' := [.drv]) ?_ h0; unfold pumpStart; simp

@[simp] theorem pumpsMax_only  (T : List Part) (u s : State) (h0 : [.cool, .drv] ⊆ T) :
    only T u ((pumpsMax s)) ↔ only T u s := by
  refine only_step (T' := [.cool, .drv]) ?_ h0; unfold pumpsMax; simp

@[simp] theorem pumpsLoop_only  (T : List Part) (u s : State) (h0 : [.cool, .drv] ⊆ T) :
    only T u ((pumpsLoop s)) ↔ only T u s := by
  refine only_step (T' := [.cool, .drv]) ?_ h0; unfold pumpsLoop; simp

@[simp] theorem pumpsSafe_only  (T : List Part) (u s : State) (h0 : [.cool, .drv] ⊆ T) :
    only T u ((pumpsSafe s)) ↔ only T u s := by
  have key : only [.cool, .drv] s ((pumpsSafe s)) := by
    unfold pumpsSafe; try dsimp only
    (repeat' first | with_reducible apply only_if | split) <;> first | (simp; done) | (refine forAll_keeps ?_ _ _; intro x t; (try dsimp only); (repeat' split) <;> simp; done) | (refine only_trans ?_ (forAll_keeps (T := [.cool, .drv]) (by (intro x t; (try dsimp only); (repeat' split) <;> simp; done)) _ _); simp; done) | (simp; (refine only_trans ?_ (forAll_keeps (T := [.cool, .drv]) (by (intro x t; (try dsimp only); (repeat' split) <;> simp; done)) _ _); simp; done)) | (intro p hp; cases p <;> first | rfl | (simp at hp; done)) | (simp; intro p hp; cases p <;> first | rfl | (simp at hp; done)) | simp
  exact only_step key h0

@[simp] theorem coolSet_only (st : CoolSt) (T : List Part) (u s : State) (h0 : [.hdrs, .host, .glob, .cool, .loop, .hut] ⊆ T) :
    only T u ((coolSet st s)) ↔ only T u s := by
  refine only_step (T' := [.hdrs, .host, .glob, .cool, .loop, .hut]) ?_ h0; unfold coolSet; dsimp only; (repeat' split) <;> simp

@[simp] theorem commitZero_only  (T : List Part) (u s : State) (h0 : [.pwr, .cool] ⊆ T) :
    only T u ((commitZero s)) ↔ only T u s := by
  refine only_step (T' := [.pwr, .cool]) ?_ h0; unfold commitZero; simp

@[simp] theorem coolLevel_only  (T : List Part) (u s : State) (h0 : [.hdrs, .host, .glob, .cool, .loop, .hut] ⊆ T) :
    only T u ((coolLevel s)) ↔ only T u s := by
  refine only_step (T' := [.hdrs, .host, .glob, .cool, .loop, .hut]) ?_ h0; unfold coolLevel; simp

@[simp] theorem beginProof_only  (T : List Part) (u s : State) (h0 : [.hdrs, .host, .glob, .pwr, .cool, .loop, .drv, .hut] ⊆
    T) :
    only T u ((beginProof s)) ↔ only T u s := by
  refine only_step (T' := [.hdrs, .host, .glob, .pwr, .cool, .loop, .drv, .hut]) ?_ h0; unfold beginProof; simp

@[simp] theorem beginAuto_only  (T : List Part) (u s : State) (h0 : [.hdrs, .host, .glob, .pwr, .cool, .loop, .drv, .hut] ⊆ T) :
    only T u ((beginAuto s)) ↔ only T u s := by
  refine only_step (T' := [.hdrs, .host, .glob, .pwr, .cool, .loop, .drv, .hut]) ?_ h0; unfold beginAuto; simp

@[simp] theorem flowProofStart_only  (T : List Part) (u s : State) (h0 : [.hdrs, .host, .glob, .pwr, .cool, .loop, .drv,
    .hut] ⊆ T) :
    only T u ((flowProofStart s)) ↔ only T u s := by
  refine only_step (T' := [.hdrs, .host, .glob, .pwr, .cool, .loop, .drv, .hut]) ?_ h0; unfold flowProofStart; simp

@[simp] theorem flowProofPass_only  (T : List Part) (u s : State) (h0 : [.env, .hdrs, .host, .glob, .pwr, .cool, .loop, .hut,
    .cairn] ⊆ T) :
    only T u ((flowProofPass s)) ↔ only T u s := by
  have key : only [.env, .hdrs, .host, .glob, .pwr, .cool, .loop, .hut, .cairn] s ((flowProofPass s)) := by
    unfold flowProofPass; try dsimp only
    (repeat' first | with_reducible apply only_if | split) <;> first | (simp; done) | (refine forAll_keeps ?_ _ _; intro x t; (try dsimp only); (repeat' split) <;> simp; done) | (refine only_trans ?_ (forAll_keeps (T := [.env, .hdrs, .host, .glob, .pwr, .cool, .loop, .hut, .cairn]) (by (intro x t; (try dsimp only); (repeat' split) <;> simp; done)) _ _); simp; done) | (simp; (refine only_trans ?_ (forAll_keeps (T := [.env, .hdrs, .host, .glob, .pwr, .cool, .loop, .hut, .cairn]) (by (intro x t; (try dsimp only); (repeat' split) <;> simp; done)) _ _); simp; done)) | (intro p hp; cases p <;> first | rfl | (simp at hp; done)) | (simp; intro p hp; cases p <;> first | rfl | (simp at hp; done)) | simp
  exact only_step key h0

@[simp] theorem flowProofTimeout_only  (T : List Part) (u s : State) (h0 : [.hdrs, .host, .glob, .cool, .loop, .drv, .hut,
    .cairn] ⊆ T) :
    only T u ((flowProofTimeout s)) ↔ only T u s := by
  refine only_step (T' := [.hdrs, .host, .glob, .cool, .loop, .drv, .hut, .cairn]) ?_ h0; unfold flowProofTimeout; simp

@[simp] theorem autoFlowProof_only  (T : List Part) (u s : State) (h0 : [.hdrs, .host, .glob, .pwr, .cool, .loop, .drv, .hut]
    ⊆ T) :
    only T u ((autoFlowProof s)) ↔ only T u s := by
  refine only_step (T' := [.hdrs, .host, .glob, .pwr, .cool, .loop, .drv, .hut]) ?_ h0; unfold autoFlowProof; simp

@[simp] theorem coolShutdown_only (cause : Nat) (T : List Part) (u s : State) (h0 : [.env, .hdrs, .cores, .ctls, .ledge,
    .mesh, .hbm, .arbs, .arbSels, .ctx, .fence, .fab, .host, .glob, .pwr, .sec, .dbg, .thm, .cool, .loop, .drv, .hut, .cairn] ⊆ T) :
    only T u ((coolShutdown cause s)) ↔ only T u s := by
  refine only_step (T' := [.env, .hdrs, .cores, .ctls, .ledge, .mesh, .hbm, .arbs, .arbSels, .ctx, .fence, .fab, .host, .glob, .pwr, .sec, .dbg, .thm, .cool, .loop, .drv, .hut, .cairn]) ?_ h0; unfold coolShutdown; simp

@[simp] theorem suddenStopTimeout_only  (T : List Part) (u s : State) (h0 : [.env, .hdrs, .cores, .ctls, .ledge, .mesh, .hbm,
    .arbs, .arbSels, .ctx, .fence, .fab, .host, .glob, .pwr, .sec, .dbg, .thm, .cool, .loop, .drv, .hut, .cairn] ⊆ T) :
    only T u ((suddenStopTimeout s)) ↔ only T u s := by
  refine only_step (T' := [.env, .hdrs, .cores, .ctls, .ledge, .mesh, .hbm, .arbs, .arbSels, .ctx, .fence, .fab, .host, .glob, .pwr, .sec, .dbg, .thm, .cool, .loop, .drv, .hut, .cairn]) ?_ h0; unfold suddenStopTimeout; simp

@[simp] theorem lowFlowTimeout_only  (T : List Part) (u s : State) (h0 : [.env, .hdrs, .cores, .ctls, .ledge, .mesh, .hbm,
    .arbs, .arbSels, .ctx, .fence, .fab, .host, .glob, .pwr, .sec, .dbg, .thm, .cool, .loop, .drv, .hut, .cairn] ⊆ T) :
    only T u ((lowFlowTimeout s)) ↔ only T u s := by
  refine only_step (T' := [.env, .hdrs, .cores, .ctls, .ledge, .mesh, .hbm, .arbs, .arbSels, .ctx, .fence, .fab, .host, .glob, .pwr, .sec, .dbg, .thm, .cool, .loop, .drv, .hut, .cairn]) ?_ h0; unfold lowFlowTimeout; simp

@[simp] theorem standbyPumpStart_only  (T : List Part) (u s : State) (h0 : [.drv] ⊆ T) :
    only T u ((standbyPumpStart s)) ↔ only T u s := by
  refine only_step (T' := [.drv]) ?_ h0; unfold standbyPumpStart; (repeat' split) <;> simp

@[simp] theorem shutdownPumpRelease_only  (T : List Part) (u s : State) (h0 : [.cool, .drv] ⊆ T) :
    only T u ((shutdownPumpRelease s)) ↔ only T u s := by
  refine only_step (T' := [.cool, .drv]) ?_ h0; unfold shutdownPumpRelease; simp

@[simp] theorem suddenStop_only (ref : Nat) (T : List Part) (u s : State) (h0 : [.hdrs, .host, .glob, .pwr, .cool, .loop,
    .drv, .hut] ⊆ T) :
    only T u ((suddenStop ref s)) ↔ only T u s := by
  refine only_step (T' := [.hdrs, .host, .glob, .pwr, .cool, .loop, .drv, .hut]) ?_ h0; unfold suddenStop; simp

@[simp] theorem recovered_only  (T : List Part) (u s : State) (h0 : [.hdrs, .host, .glob, .cool, .loop, .drv, .hut] ⊆ T) :
    only T u ((recovered s)) ↔ only T u s := by
  refine only_step (T' := [.hdrs, .host, .glob, .cool, .loop, .drv, .hut]) ?_ h0; unfold recovered; simp

@[simp] theorem sampleInputs_only (th flow : List (BitVec 16)) (T : List Part) (u s : State) (h0 : [.drv] ⊆ T) :
    only T u ((sampleInputs th flow s)) ↔ only T u s := by
  refine only_step (T' := [.drv]) ?_ h0; unfold sampleInputs; simp

@[simp] theorem inletFlags_only  (T : List Part) (u s : State) (h0 : [.hdrs, .cool, .hut] ⊆ T) :
    only T u ((inletFlags s)) ↔ only T u s := by
  refine only_step (T' := [.hdrs, .cool, .hut]) ?_ h0; unfold inletFlags; simp

@[simp] theorem recoverStep_only  (T : List Part) (u s : State) (h0 : [.hdrs, .host, .glob, .cool, .loop, .drv, .hut] ⊆ T) :
    only T u ((recoverStep s)) ↔ only T u s := by
  refine only_step (T' := [.hdrs, .host, .glob, .cool, .loop, .drv, .hut]) ?_ h0; unfold recoverStep; simp

@[simp] theorem coolSample_only  (T : List Part) (u s : State) (h0 : [.hdrs, .host, .glob, .pwr, .cool, .loop, .drv, .hut] ⊆
    T) :
    only T u ((coolSample s)) ↔ only T u s := by
  refine only_step (T' := [.hdrs, .host, .glob, .pwr, .cool, .loop, .drv, .hut]) ?_ h0; unfold coolSample; dsimp only; (repeat' split) <;> simp

@[simp] theorem capUpdate_only (meas : BitVec 24) (T : List Part) (u s : State) (h0 : [.hdrs, .host, .glob, .pwr, .evts,
    .thm, .cool] ⊆ T) :
    only T u ((capUpdate meas s)) ↔ only T u s := by
  refine only_step (T' := [.hdrs, .host, .glob, .pwr, .evts, .thm, .cool]) ?_ h0; unfold capUpdate; simp

@[simp] theorem guardStep_only (c : Nat) (t : Rat) (T : List Part) (u s : State) (h0 : [.hdrs, .ctls, .host, .glob, .evts] ⊆
    T) :
    only T u ((guardStep c t s)) ↔ only T u s := by
  refine only_step (T' := [.hdrs, .ctls, .host, .glob, .evts]) ?_ h0; unfold guardStep; dsimp only; (repeat' split) <;> simp

@[simp] theorem diodeSample_only (d : Nat) (temp : BitVec 12) (T : List Part) (u s : State) (h0 : [.hdrs, .ctls, .host,
    .glob, .sec, .evts, .thm] ⊆ T) :
    only T u ((diodeSample d temp s)) ↔ only T u s := by
  refine only_step (T' := [.hdrs, .ctls, .host, .glob, .sec, .evts, .thm]) ?_ h0; unfold diodeSample; simp

@[simp] theorem hardwareTrip_only (d : Nat) (T : List Part) (u s : State) (h0 : [.hdrs, .ctls, .host, .glob, .pwr, .evts] ⊆ T) :
    only T u ((hardwareTrip d s)) ↔ only T u s := by
  refine only_step (T' := [.hdrs, .ctls, .host, .glob, .pwr, .evts]) ?_ h0; unfold hardwareTrip; simp

@[simp] theorem dieEvent_only (code k : Nat) (T : List Part) (u s : State) (h0 : [.hdrs, .host, .glob, .evts] ⊆ T) :
    only T u ((dieEvent code k s)) ↔ only T u s := by
  refine only_step (T' := [.hdrs, .host, .glob, .evts]) ?_ h0; unfold dieEvent; simp

@[simp] theorem senseLevel_only (k : Nat) (was : Bool) (T : List Part) (u s : State) (h0 : [.hdrs, .host, .glob, .thm] ⊆ T) :
    only T u ((senseLevel k was s)) ↔ only T u s := by
  refine only_step (T' := [.hdrs, .host, .glob, .thm]) ?_ h0; unfold senseLevel; simp

@[simp] theorem coolEvent_only (code k : Nat) (T : List Part) (u s : State) (h0 : [.hdrs, .hut] ⊆ T) :
    only T u ((coolEvent code k s)) ↔ only T u s := by
  refine only_step (T' := [.hdrs, .hut]) ?_ h0; unfold coolEvent; simp

@[simp] theorem markSuspect_only (id : SensorId) (T : List Part) (u s : State) (h0 : [.hdrs, .host, .glob, .evts, .thm,
    .cool, .hut] ⊆ T) :
    only T u ((markSuspect id s)) ↔ only T u s := by
  refine only_step (T' := [.hdrs, .host, .glob, .evts, .thm, .cool, .hut]) ?_ h0; unfold markSuspect; dsimp only; (repeat' split) <;> simp

@[simp] theorem clearSuspect_only (id : SensorId) (T : List Part) (u s : State) (h0 : [.hdrs, .host, .glob, .evts, .thm,
    .cool, .hut] ⊆ T) :
    only T u ((clearSuspect id s)) ↔ only T u s := by
  refine only_step (T' := [.hdrs, .host, .glob, .evts, .thm, .cool, .hut]) ?_ h0; unfold clearSuspect; (repeat' split) <;> simp

@[simp] theorem coreDiodeFault_only (c : Nat) (T : List Part) (u s : State) (h0 : [.hdrs, .cores, .ctls, .ctx, .fence, .host,
    .glob, .pwr, .evts] ⊆ T) :
    only T u ((coreDiodeFault c s)) ↔ only T u s := by
  refine only_step (T' := [.hdrs, .cores, .ctls, .ctx, .fence, .host, .glob, .pwr, .evts]) ?_ h0; unfold coreDiodeFault; simp

@[simp] theorem markFault_only (id : SensorId) (T : List Part) (u s : State) (h0 : [.hdrs, .cores, .ctls, .ctx, .fence,
    .host, .glob, .pwr, .evts, .thm, .cool, .hut] ⊆ T) :
    only T u ((markFault id s)) ↔ only T u s := by
  refine only_step (T' := [.hdrs, .cores, .ctls, .ctx, .fence, .host, .glob, .pwr, .evts, .thm, .cool, .hut]) ?_ h0; unfold markFault; (repeat' split) <;> simp

@[simp] theorem storeTemps_only (ledgeT hbmT : List (BitVec 12)) (T : List Part) (u s : State) (h0 : [.thm] ⊆ T) :
    only T u ((storeTemps ledgeT hbmT s)) ↔ only T u s := by
  refine only_step (T' := [.thm]) ?_ h0; unfold storeTemps; simp

@[simp] theorem siteEvents_only (s : State) (k : Nat) (q : Site) (T : List Part) (u t : State) (h0 : [.hdrs, .host, .glob,
    .evts] ⊆ T) :
    only T u ((siteEvents s k q t)) ↔ only T u t := by
  refine only_step (T' := [.hdrs, .host, .glob, .evts]) ?_ h0; unfold siteEvents; simp

@[simp] theorem loadAllow_only (cores : List (Nat × BitVec 12)) (sts : List (Nat × Nat)) (T : List Part) (u s : State) (h0 :
    [.ctls, .pwr, .sec] ⊆ T) :
    only T u ((loadAllow cores sts s)) ↔ only T u s := by
  refine only_step (T' := [.ctls, .pwr, .sec]) ?_ h0; unfold loadAllow; simp

@[simp] theorem noteSite_only (k : Nat) (q : Site) (T : List Part) (u s : State) (h0 : [.sec] ⊆ T) :
    only T u ((noteSite k q s)) ↔ only T u s := by
  refine only_step (T' := [.sec]) ?_ h0; unfold noteSite; simp

@[simp] theorem updateModel_only  (T : List Part) (u s : State) (h0 : [.hdrs, .ctls, .host, .glob, .pwr, .sec, .evts, .thm] ⊆
    T) :
    only T u ((updateModel s)) ↔ only T u s := by
  refine only_step (T' := [.hdrs, .ctls, .host, .glob, .pwr, .sec, .evts, .thm]) ?_ h0; unfold updateModel; simp

@[simp] theorem thermalUpdate_only (ledgeT hbmT : List (BitVec 12)) (T : List Part) (u s : State) (h0 : [.hdrs, .ctls, .host,
    .glob, .pwr, .sec, .evts, .thm] ⊆ T) :
    only T u ((thermalUpdate ledgeT hbmT s)) ↔ only T u s := by
  refine only_step (T' := [.hdrs, .ctls, .host, .glob, .pwr, .sec, .evts, .thm]) ?_ h0; unfold thermalUpdate; simp

@[simp] theorem fallbackAllow_only  (T : List Part) (u s : State) (h0 : [.ctls, .pwr, .sec, .thm] ⊆ T) :
    only T u ((fallbackAllow s)) ↔ only T u s := by
  refine only_step (T' := [.ctls, .pwr, .sec, .thm]) ?_ h0; unfold fallbackAllow; simp

@[simp] theorem allowanceSilence_only  (T : List Part) (u s : State) (h0 : [.hdrs, .ctls, .host, .glob, .pwr, .sec, .evts,
    .thm] ⊆ T) :
    only T u ((allowanceSilence s)) ↔ only T u s := by
  refine only_step (T' := [.hdrs, .ctls, .host, .glob, .pwr, .sec, .evts, .thm]) ?_ h0; unfold allowanceSilence; simp

@[simp] theorem thmRun_only (on : Bool) (T : List Part) (u s : State) (h0 : [.ctls, .pwr, .sec, .thm] ⊆ T) :
    only T u ((thmRun on s)) ↔ only T u s := by
  refine only_step (T' := [.ctls, .pwr, .sec, .thm]) ?_ h0; unfold thmRun; simp

@[simp] theorem modelWrite_only (v : Word) (T : List Part) (u s : State) (h0 : [.thm] ⊆ T) :
    only T u ((modelWrite v s)) ↔ only T u s := by
  refine only_step (T' := [.thm]) ?_ h0; unfold modelWrite; simp

@[simp] theorem activate_only (d : FwDomain) (T : List Part) (u s : State) (h0 : [.hdrs, .hut, .cairn] ⊆ T) :
    only T u ((activate d s)) ↔ only T u s := by
  refine only_step (T' := [.hdrs, .hut, .cairn]) ?_ h0; unfold activate; dsimp only; (repeat' split) <;> simp

@[simp] theorem bootState_only  (T : List Part) (u s : State) (h0 : [.reply, .env, .hdrs, .cores, .ctls, .ledge, .mesh, .hbm,
    .arbs, .arbSels, .ctx, .fence, .fab, .host, .glob, .pwr, .sec, .dbg, .evts, .thm, .cool, .loop, .drv, .cbus, .hut, .cairn] ⊆ T) :
    only T u ((bootState s)) ↔ only T u s := by
  have key : only [.reply, .env, .hdrs, .cores, .ctls, .ledge, .mesh, .hbm, .arbs, .arbSels, .ctx, .fence, .fab, .host, .glob, .pwr, .sec, .dbg, .evts, .thm, .cool, .loop, .drv, .cbus, .hut, .cairn] s ((bootState s)) := by
    exact (by intro p hp; cases p <;> first | rfl | (simp at hp; done))
  exact only_step key h0

@[simp] theorem standbyReset_only  (T : List Part) (u s : State) (h0 : [.reply, .env, .hdrs, .cores, .ctls, .ledge, .mesh,
    .hbm, .arbs, .arbSels, .ctx, .fence, .fab, .host, .glob, .pwr, .sec, .dbg, .evts, .thm, .cool, .loop, .drv, .cbus, .hut, .cairn] ⊆ T) :
    only T u ((standbyReset s)) ↔ only T u s := by
  refine only_step (T' := [.reply, .env, .hdrs, .cores, .ctls, .ledge, .mesh, .hbm, .arbs, .arbSels, .ctx, .fence, .fab, .host, .glob, .pwr, .sec, .dbg, .evts, .thm, .cool, .loop, .drv, .cbus, .hut, .cairn]) ?_ h0; unfold standbyReset; simp

@[simp] theorem allSafe_only  (T : List Part) (u s : State) (h0 : [.hdrs, .drv, .hut] ⊆ T) :
    only T u ((allSafe s)) ↔ only T u s := by
  refine only_step (T' := [.hdrs, .drv, .hut]) ?_ h0; unfold allSafe; simp

@[simp] theorem setModFault_only (on : Bool) (T : List Part) (u s : State) (h0 : [.cairn] ⊆ T) :
    only T u ((setModFault on s)) ↔ only T u s := by
  refine only_step (T' := [.cairn]) ?_ h0; unfold setModFault; simp

@[simp] theorem standbyFalling_only  (T : List Part) (u s : State) (h0 : [.hdrs, .host, .glob, .drv, .hut] ⊆ T) :
    only T u ((standbyFalling s)) ↔ only T u s := by
  refine only_step (T' := [.hdrs, .host, .glob, .drv, .hut]) ?_ h0; unfold standbyFalling; simp

@[simp] theorem powerLost_only  (T : List Part) (u s : State) (h0 : [.reply, .env, .hdrs, .cores, .ctls, .ledge, .mesh, .hbm,
    .arbs, .arbSels, .ctx, .fence, .fab, .host, .glob, .pwr, .sec, .dbg, .evts, .thm, .cool, .loop, .drv, .cbus, .hut, .cairn] ⊆ T) :
    only T u ((powerLost s)) ↔ only T u s := by
  have key : only [.reply, .env, .hdrs, .cores, .ctls, .ledge, .mesh, .hbm, .arbs, .arbSels, .ctx, .fence, .fab, .host, .glob, .pwr, .sec, .dbg, .evts, .thm, .cool, .loop, .drv, .cbus, .hut, .cairn] s ((powerLost s)) := by
    unfold powerLost; try dsimp only
    (repeat' first | with_reducible apply only_if | split) <;> first | (simp; done) | (refine forAll_keeps ?_ _ _; intro x t; (try dsimp only); (repeat' split) <;> simp; done) | (refine only_trans ?_ (forAll_keeps (T := [.reply, .env, .hdrs, .cores, .ctls, .ledge, .mesh, .hbm, .arbs, .arbSels, .ctx, .fence, .fab, .host, .glob, .pwr, .sec, .dbg, .evts, .thm, .cool, .loop, .drv, .cbus, .hut, .cairn]) (by (intro x t; (try dsimp only); (repeat' split) <;> simp; done)) _ _); simp; done) | (simp; (refine only_trans ?_ (forAll_keeps (T := [.reply, .env, .hdrs, .cores, .ctls, .ledge, .mesh, .hbm, .arbs, .arbSels, .ctx, .fence, .fab, .host, .glob, .pwr, .sec, .dbg, .evts, .thm, .cool, .loop, .drv, .cbus, .hut, .cairn]) (by (intro x t; (try dsimp only); (repeat' split) <;> simp; done)) _ _); simp; done)) | (intro p hp; cases p <;> first | rfl | (simp at hp; done)) | (simp; intro p hp; cases p <;> first | rfl | (simp at hp; done)) | simp
  exact only_step key h0

@[simp] theorem watchdogExpiry_only  (T : List Part) (u s : State) (h0 : [.reply, .env, .hdrs, .cores, .ctls, .ledge, .mesh,
    .hbm, .arbs, .arbSels, .ctx, .fence, .fab, .host, .glob, .pwr, .sec, .dbg, .evts, .thm, .cool, .loop, .drv, .cbus, .hut, .cairn] ⊆ T) :
    only T u ((watchdogExpiry s)) ↔ only T u s := by
  refine only_step (T' := [.reply, .env, .hdrs, .cores, .ctls, .ledge, .mesh, .hbm, .arbs, .arbSels, .ctx, .fence, .fab, .host, .glob, .pwr, .sec, .dbg, .evts, .thm, .cool, .loop, .drv, .cbus, .hut, .cairn]) ?_ h0; unfold watchdogExpiry; simp

@[simp] theorem railsOff_only  (T : List Part) (u s : State) (h0 : [.env, .hdrs, .cores, .ctls, .ledge, .mesh, .hbm, .arbs,
    .arbSels, .ctx, .fence, .fab, .host, .glob, .pwr, .sec, .dbg, .thm, .cool, .loop, .drv, .hut, .cairn] ⊆ T) :
    only T u ((railsOff s)) ↔ only T u s := by
  refine only_step (T' := [.env, .hdrs, .cores, .ctls, .ledge, .mesh, .hbm, .arbs, .arbSels, .ctx, .fence, .fab, .host, .glob, .pwr, .sec, .dbg, .thm, .cool, .loop, .drv, .hut, .cairn]) ?_ h0; unfold railsOff; simp

@[simp] theorem inputOut_only (dv : Nat) (T : List Part) (u s : State) (h0 : [.env, .hdrs, .cores, .ctls, .ledge, .mesh,
    .hbm, .arbs, .arbSels, .ctx, .fence, .fab, .host, .glob, .pwr, .sec, .dbg, .thm, .cool, .loop, .drv, .hut, .cairn] ⊆ T) :
    only T u ((inputOut dv s)) ↔ only T u s := by
  refine only_step (T' := [.env, .hdrs, .cores, .ctls, .ledge, .mesh, .hbm, .arbs, .arbSels, .ctx, .fence, .fab, .host, .glob, .pwr, .sec, .dbg, .thm, .cool, .loop, .drv, .hut, .cairn]) ?_ h0; unfold inputOut; simp

@[simp] theorem inputBack_only  (T : List Part) (u s : State) (h0 : [.hdrs, .host, .glob, .pwr, .cool, .loop, .drv, .hut,
    .cairn] ⊆ T) :
    only T u ((inputBack s)) ↔ only T u s := by
  refine only_step (T' := [.hdrs, .host, .glob, .pwr, .cool, .loop, .drv, .hut, .cairn]) ?_ h0; unfold inputBack; (repeat' split) <;> simp

@[simp] theorem powerEnOn_only  (T : List Part) (u s : State) (h0 : [.hdrs, .cool, .hut, .cairn] ⊆ T) :
    only T u ((powerEnOn s)) ↔ only T u s := by
  refine only_step (T' := [.hdrs, .cool, .hut, .cairn]) ?_ h0; unfold powerEnOn; simp

@[simp] theorem powerEnOff_only  (T : List Part) (u s : State) (h0 : [.env, .hdrs, .cores, .ctls, .ledge, .mesh, .hbm, .arbs,
    .arbSels, .ctx, .fence, .fab, .host, .glob, .pwr, .sec, .dbg, .thm, .cool, .loop, .drv, .hut, .cairn] ⊆ T) :
    only T u ((powerEnOff s)) ↔ only T u s := by
  refine only_step (T' := [.env, .hdrs, .cores, .ctls, .ledge, .mesh, .hbm, .arbs, .arbSels, .ctx, .fence, .fab, .host, .glob, .pwr, .sec, .dbg, .thm, .cool, .loop, .drv, .hut, .cairn]) ?_ h0; unfold powerEnOff; (repeat' split) <;> simp

@[simp] theorem powerDownPumps_only  (T : List Part) (u s : State) (h0 : [.cool, .drv, .cairn] ⊆ T) :
    only T u ((powerDownPumps s)) ↔ only T u s := by
  refine only_step (T' := [.cool, .drv, .cairn]) ?_ h0; unfold powerDownPumps; (repeat' split) <;> simp

@[simp] theorem referenceLoss_only  (T : List Part) (u s : State) (h0 : [.env, .hdrs, .cores, .ctls, .ledge, .mesh, .hbm,
    .arbs, .arbSels, .ctx, .fence, .fab, .host, .glob, .pwr, .sec, .dbg, .thm, .cool, .loop, .drv, .cbus, .hut, .cairn] ⊆ T) :
    only T u ((referenceLoss s)) ↔ only T u s := by
  have key : only [.env, .hdrs, .cores, .ctls, .ledge, .mesh, .hbm, .arbs, .arbSels, .ctx, .fence, .fab, .host, .glob, .pwr, .sec, .dbg, .thm, .cool, .loop, .drv, .cbus, .hut, .cairn] s ((referenceLoss s)) := by
    unfold referenceLoss; try dsimp only
    (repeat' first | with_reducible apply only_if | split) <;> first | (simp; done) | (refine forAll_keeps ?_ _ _; intro x t; (try dsimp only); (repeat' split) <;> simp; done) | (refine only_trans ?_ (forAll_keeps (T := [.env, .hdrs, .cores, .ctls, .ledge, .mesh, .hbm, .arbs, .arbSels, .ctx, .fence, .fab, .host, .glob, .pwr, .sec, .dbg, .thm, .cool, .loop, .drv, .cbus, .hut, .cairn]) (by (intro x t; (try dsimp only); (repeat' split) <;> simp; done)) _ _); simp; done) | (simp; (refine only_trans ?_ (forAll_keeps (T := [.env, .hdrs, .cores, .ctls, .ledge, .mesh, .hbm, .arbs, .arbSels, .ctx, .fence, .fab, .host, .glob, .pwr, .sec, .dbg, .thm, .cool, .loop, .drv, .cbus, .hut, .cairn]) (by (intro x t; (try dsimp only); (repeat' split) <;> simp; done)) _ _); simp; done)) | (intro p hp; cases p <;> first | rfl | (simp at hp; done)) | (simp; intro p hp; cases p <;> first | rfl | (simp at hp; done)) | simp
  exact only_step key h0

@[simp] theorem referenceReturn_only  (T : List Part) (u s : State) (h0 : [.env, .hdrs, .host, .glob, .pwr, .cool, .loop,
    .drv, .cbus, .hut, .cairn] ⊆ T) :
    only T u ((referenceReturn s)) ↔ only T u s := by
  have key : only [.env, .hdrs, .host, .glob, .pwr, .cool, .loop, .drv, .cbus, .hut, .cairn] s ((referenceReturn s)) := by
    unfold referenceReturn; split
    · exact only_refl _ _
    · extract_lets ev s1 s2 s3
      have h1 : only [.env, .hdrs, .host, .glob, .pwr, .cool, .loop, .drv, .cbus, .hut, .cairn] s s1 := by
        simp only [s1]; rw [cairnEventForced_only _ _ _ _ _ (by simp)]; exact (by intro p hp; cases p <;> first | rfl | (simp at hp; done))
      have h2 : only [.env, .hdrs, .host, .glob, .pwr, .cool, .loop, .drv, .cbus, .hut, .cairn] s s2 := only_trans h1 (forAll_keeps (by intro i t; split <;> simp) _ _)
      have h3 : only [.env, .hdrs, .host, .glob, .pwr, .cool, .loop, .drv, .cbus, .hut, .cairn] s s3 := only_if (by rw [setModFault_only _ _ _ _ (by simp)]; exact h2) h2
      exact only_if (by rw [beginAuto_only _ _ _ (by simp)]; exact h3) h3
  exact only_step key h0

@[simp] theorem imageVerified_only  (T : List Part) (u s : State) (h0 : [.hdrs, .cores, .ctls, .ctx, .fence, .host, .glob,
    .pwr, .sec, .loop, .drv, .cbus, .hut, .cairn] ⊆ T) :
    only T u ((imageVerified s)) ↔ only T u s := by
  refine only_step (T' := [.hdrs, .cores, .ctls, .ctx, .fence, .host, .glob, .pwr, .sec, .loop, .drv, .cbus, .hut, .cairn]) ?_ h0; unfold imageVerified; (repeat' split) <;> simp

@[simp] theorem sensorCheck_only  (T : List Part) (u s : State) (h0 : [.hdrs, .hut, .cairn] ⊆ T) :
    only T u ((sensorCheck s)) ↔ only T u s := by
  refine only_step (T' := [.hdrs, .hut, .cairn]) ?_ h0; unfold sensorCheck; (repeat' split) <;> simp

@[simp] theorem dieRelease_only  (T : List Part) (u s : State) (h0 : [.env, .hdrs, .ctls, .pwr, .sec, .thm] ⊆ T) :
    only T u ((dieRelease s)) ↔ only T u s := by
  have key : only [.env, .hdrs, .ctls, .pwr, .sec, .thm] s ((dieRelease s)) := by
    unfold dieRelease; split
    · extract_lets ev s1 s2
      have h1 : only [.env, .hdrs, .ctls, .pwr, .sec, .thm] s s1 := (by intro p hp; cases p <;> first | rfl | (simp at hp; done))
      have h2 : only [.env, .hdrs, .ctls, .pwr, .sec, .thm] s s2 := only_trans h1 (forAll_keeps (by intro i t; simp) _ _)
      rw [enableInts_only _ _ _ _ (by simp), fallbackAllow_only _ _ _ (by simp)]; exact h2
    · exact only_refl _ _
  exact only_step key h0

@[simp] theorem campStart_only  (T : List Part) (u s : State) (h0 : [.hdrs, .sec, .hut, .cairn] ⊆ T) :
    only T u ((campStart s)) ↔ only T u s := by
  refine only_step (T' := [.hdrs, .sec, .hut, .cairn]) ?_ h0; unfold campStart; dsimp only; (repeat' split) <;> simp

@[simp] theorem akGenerated_only  (T : List Part) (u s : State) (h0 : [.sec, .fresh] ⊆ T) :
    only T u ((akGenerated s)) ↔ only T u s := by
  have key : only [.sec, .fresh] s ((akGenerated s)) := by
    unfold akGenerated; try dsimp only
    (repeat' first | with_reducible apply only_if | split) <;> first | (simp; done) | (refine forAll_keeps ?_ _ _; intro x t; (try dsimp only); (repeat' split) <;> simp; done) | (refine only_trans ?_ (forAll_keeps (T := [.sec, .fresh]) (by (intro x t; (try dsimp only); (repeat' split) <;> simp; done)) _ _); simp; done) | (simp; (refine only_trans ?_ (forAll_keeps (T := [.sec, .fresh]) (by (intro x t; (try dsimp only); (repeat' split) <;> simp; done)) _ _); simp; done)) | (intro p hp; cases p <;> first | rfl | (simp at hp; done)) | (simp; intro p hp; cases p <;> first | rfl | (simp at hp; done)) | simp
  exact only_step key h0

@[simp] theorem zeroFill_only  (T : List Part) (u s : State) (h0 : [.ledge, .hbm, .sec] ⊆ T) :
    only T u ((zeroFill s)) ↔ only T u s := by
  refine only_step (T' := [.ledge, .hbm, .sec]) ?_ h0; unfold zeroFill; simp

@[simp] theorem cairnRecovery_only  (T : List Part) (u s : State) (h0 : [.env, .hdrs, .cores, .ctls, .ledge, .mesh, .hbm,
    .arbs, .arbSels, .ctx, .fence, .fab, .host, .glob, .pwr, .sec, .dbg, .thm, .cool, .loop, .drv, .hut, .cairn] ⊆ T) :
    only T u ((cairnRecovery s)) ↔ only T u s := by
  refine only_step (T' := [.env, .hdrs, .cores, .ctls, .ledge, .mesh, .hbm, .arbs, .arbSels, .ctx, .fence, .fab, .host, .glob, .pwr, .sec, .dbg, .thm, .cool, .loop, .drv, .hut, .cairn]) ?_ h0; unfold cairnRecovery; simp

@[simp] theorem stepTimeout_only (n : Nat) (T : List Part) (u s : State) (h0 : [.env, .hdrs, .cores, .ctls, .ledge, .mesh,
    .hbm, .arbs, .arbSels, .ctx, .fence, .fab, .host, .glob, .pwr, .sec, .dbg, .thm, .cool, .loop, .drv, .hut, .cairn] ⊆ T) :
    only T u ((stepTimeout n s)) ↔ only T u s := by
  refine only_step (T' := [.env, .hdrs, .cores, .ctls, .ledge, .mesh, .hbm, .arbs, .arbSels, .ctx, .fence, .fab, .host, .glob, .pwr, .sec, .dbg, .thm, .cool, .loop, .drv, .hut, .cairn]) ?_ h0; unfold stepTimeout; (repeat' split) <;> simp

@[simp] theorem heartbeatToggle_only  (T : List Part) (u s : State) (h0 : [.hdrs, .host, .glob, .pwr, .evts, .cairn] ⊆ T) :
    only T u ((heartbeatToggle s)) ↔ only T u s := by
  refine only_step (T' := [.hdrs, .host, .glob, .pwr, .evts, .cairn]) ?_ h0; unfold heartbeatToggle; simp

@[simp] theorem answer_only (st : Status) (T : List Part) (u s : State) (h0 : [.reply] ⊆ T) :
    only T u ((answer st s)) ↔ only T u s := by
  refine only_step (T' := [.reply]) ?_ h0; unfold answer; simp

@[simp] theorem raiseFloor_only (d : FwDomain) (T : List Part) (u s : State) (h0 : [.hdrs, .sec, .hut] ⊆ T) :
    only T u ((raiseFloor d s)) ↔ only T u s := by
  refine only_step (T' := [.hdrs, .sec, .hut]) ?_ h0; unfold raiseFloor; simp

@[simp] theorem reportReady_only (svn : Byte) (T : List Part) (u s : State) (h0 : [.hdrs, .host, .glob, .sec, .hut] ⊆
    T) :
    only T u ((reportReady svn s)) ↔ only T u s := by
  refine only_step (T' := [.hdrs, .host, .glob, .sec, .hut]) ?_ h0; unfold reportReady; simp

@[simp] theorem request_only (camp : Bool) (h : MboxHalf) (T : List Part) (u s : State) (h0 : [.hdrs, .host, .glob,
    .sec, .hut, .cairn] ⊆ T) :
    only T u ((request camp h s).1) ↔ only T u s := by
  refine only_step (T' := [.hdrs, .host, .glob, .sec, .hut, .cairn]) ?_ h0; unfold request; dsimp only; (repeat' split) <;> simp

@[simp] theorem mailbox_only (camp : Bool) (T : List Part) (u s : State) (h0 : [.hdrs, .host, .glob, .sec, .hut,
    .cairn] ⊆ T) :
    only T u ((mailbox camp s)) ↔ only T u s := by
  refine only_step (T' := [.hdrs, .host, .glob, .sec, .hut, .cairn]) ?_ h0; unfold mailbox; simp

@[simp] theorem storeReq_only (camp : Bool) (bs : List Byte) (T : List Part) (u s : State) (h0 : [.cairn] ⊆ T) :
    only T u ((storeReq camp bs s)) ↔ only T u s := by
  refine only_step (T' := [.cairn]) ?_ h0; unfold storeReq; simp

@[simp] theorem postRequest_only (camp : Bool) (bs : List Byte) (T : List Part) (u s : State) (h0 : [.reply, .hdrs,
    .host, .glob, .sec, .hut, .cairn] ⊆ T) :
    only T u ((postRequest camp bs s)) ↔ only T u s := by
  refine only_step (T' := [.reply, .hdrs, .host, .glob, .sec, .hut, .cairn]) ?_ h0; unfold postRequest; simp

@[simp] theorem cfglRead_only  (T : List Part) (u s : State) (h0 : [.reply, .cairn] ⊆ T) :
    only T u ((cfglRead s)) ↔ only T u s := by
  refine only_step (T' := [.reply, .cairn]) ?_ h0; unfold cfglRead; simp

@[simp] theorem bmcLate_only  (T : List Part) (u s : State) (h0 : [.hdrs, .hut, .cairn] ⊆ T) :
    only T u ((bmcLate s)) ↔ only T u s := by
  refine only_step (T' := [.hdrs, .hut, .cairn]) ?_ h0; unfold bmcLate; simp

@[simp] theorem autonomous_only  (T : List Part) (u s : State) (h0 : [.hdrs, .host, .glob, .hut, .cairn] ⊆ T) :
    only T u ((autonomous s)) ↔ only T u s := by
  refine only_step (T' := [.hdrs, .host, .glob, .hut, .cairn]) ?_ h0; unfold autonomous; simp

@[simp] theorem mgmt_only (T : List Part) (need : Role) (inRom : Bool) (n : Nat) (who : Principal) (act : State → State) (u s
    : State)
    (h : ∀ t, only T t (act t)) (h0 : [.reply, .hdrs, .hut] ⊆ T) : only T u (mgmt need inRom n who act s) ↔ only T u s := by
  unfold mgmt; (repeat' split)
  · exact setReply_only _ _ _ _ (fun a b => h0 (by simp at b ⊢; tauto))
  · rw [answer_only _ _ _ _ (fun a b => h0 (by simp at b ⊢; tauto)), cairnEvent_only _ _ _ _ _ _ (fun a b => h0 (by simp at b ⊢; tauto))]
  · exact only_step (h s) (fun _ a => a)

@[simp] theorem orDenied_only (T : List Part) (ok : Bool) (act : State → State) (u s : State)
    (h : ∀ t, only T t (act t)) (h0 : [.reply] ⊆ T) : only T u (orDenied ok act s) ↔ only T u s := by
  unfold orDenied; split
  · rw [answer_only _ _ _ _ h0]; exact only_step (h s) (fun _ a => a)
  · exact answer_only _ _ _ _ h0

@[simp] theorem setBoardCap_only (cap : BitVec 12) (T : List Part) (u s : State) (h0 : [.hdrs, .hut, .cairn] ⊆ T) :
    only T u ((setBoardCap cap s)) ↔ only T u s := by
  refine only_step (T' := [.hdrs, .hut, .cairn]) ?_ h0; unfold setBoardCap; simp

@[simp] theorem ledgerCommit_only  (T : List Part) (u s : State) (h0 : [.reply, .hdrs, .hut, .cairn] ⊆ T) :
    only T u ((ledgerCommit s)) ↔ only T u s := by
  refine only_step (T' := [.reply, .hdrs, .hut, .cairn]) ?_ h0; unfold ledgerCommit; (repeat' split) <;> simp

@[simp] theorem ledgerRevert_only  (T : List Part) (u s : State) (h0 : [.reply, .hdrs, .hut, .cairn] ⊆ T) :
    only T u ((ledgerRevert s)) ↔ only T u s := by
  refine only_step (T' := [.reply, .hdrs, .hut, .cairn]) ?_ h0; unfold ledgerRevert; (repeat' split) <;> simp

@[simp] theorem fwStage_only (d : FwDomain) (off : Nat) (bs : List Byte) (T : List Part) (u s : State) (h0 : [.reply, .cairn]
    ⊆ T) :
    only T u ((fwStage d off bs s)) ↔ only T u s := by
  refine only_step (T' := [.reply, .cairn]) ?_ h0; unfold fwStage; simp

@[simp] theorem fwVerify_only (d : FwDomain) (T : List Part) (u s : State) (h0 : [.reply, .hdrs, .hut, .cairn] ⊆ T) :
    only T u ((fwVerify d s)) ↔ only T u s := by
  refine only_step (T' := [.reply, .hdrs, .hut, .cairn]) ?_ h0; unfold fwVerify; simp

@[simp] theorem leaseRelease_only (g : Nat) (T : List Part) (u s : State) (h0 : [.hdrs, .host, .glob, .drv, .cbus, .hut] ⊆ T) :
    only T u ((leaseRelease g s)) ↔ only T u s := by
  refine only_step (T' := [.hdrs, .host, .glob, .drv, .cbus, .hut]) ?_ h0; unfold leaseRelease; simp

@[simp] theorem trngFail_only (die : Bool) (T : List Part) (u s : State) (h0 : [.hdrs, .host, .glob, .sec, .evts, .hut] ⊆ T) :
    only T u ((trngFail die s)) ↔ only T u s := by
  refine only_step (T' := [.hdrs, .host, .glob, .sec, .evts, .hut]) ?_ h0; unfold trngFail; (repeat' split) <;> simp

@[simp] theorem refusePartner_only (p : Nat) (T : List Part) (u s : State) (h0 : [.hdrs, .host, .glob, .evts] ⊆ T) :
    only T u ((refusePartner p s)) ↔ only T u s := by
  refine only_step (T' := [.hdrs, .host, .glob, .evts]) ?_ h0; unfold refusePartner; simp

@[simp] theorem keyHello_only (p : Nat) (m : KeyMsg) (T : List Part) (u s : State) (h0 : [.reply, .hdrs, .ledge, .mesh, .hbm,
    .fab, .host, .glob, .evts, .fresh] ⊆ T) :
    only T u ((keyHello p m s)) ↔ only T u s := by
  refine only_step (T' := [.reply, .hdrs, .ledge, .mesh, .hbm, .fab, .host, .glob, .evts, .fresh]) ?_ h0; unfold keyHello; dsimp only; (repeat' split) <;> simp

@[simp] theorem keyCt_only (p : Nat) (m : KeyMsg) (T : List Part) (u s : State) (h0 : [.hdrs, .fab, .host, .glob, .evts] ⊆ T) :
    only T u ((keyCt p m s)) ↔ only T u s := by
  refine only_step (T' := [.hdrs, .fab, .host, .glob, .evts]) ?_ h0; unfold keyCt; dsimp only; (repeat' split) <;> simp

@[simp] theorem respond_only (req : Nat) (facts : List Byte) (T : List Part) (u s : State) (h0 : [.reply] ⊆ T) :
    only T u ((respond req facts s)) ↔ only T u s := by
  refine only_step (T' := [.reply]) ?_ h0; unfold respond; simp

@[simp] theorem keyExchange_only (doe : Bool) (T : List Part) (u s : State) (h0 : [.reply, .sec, .fresh] ⊆ T) :
    only T u ((keyExchange doe s)) ↔ only T u s := by
  refine only_step (T' := [.reply, .sec, .fresh]) ?_ h0; unfold keyExchange; (repeat' split) <;> simp

@[simp] theorem authFailed_only (doe : Bool) (T : List Part) (u s : State) (h0 : [.hdrs, .host, .glob, .evts, .hut] ⊆ T) :
    only T u ((authFailed doe s)) ↔ only T u s := by
  refine only_step (T' := [.hdrs, .host, .glob, .evts, .hut]) ?_ h0; unfold authFailed; (repeat' split) <;> simp

@[simp] theorem finishSess_only (doe : Bool) (k : Nat) (cert : List Byte) (T : List Part) (u s : State) (h0 : [.reply, .hdrs,
    .host, .glob, .sec, .evts, .hut] ⊆ T) :
    only T u ((finishSess doe k cert s)) ↔ only T u s := by
  refine only_step (T' := [.reply, .hdrs, .host, .glob, .sec, .evts, .hut]) ?_ h0; unfold finishSess; (repeat' split) <;> simp

@[simp] theorem inSess_only (T : List Part) (doe : Bool) (k : Nat) (act : State → State) (u s : State)
    (h : ∀ t, only T t (act t)) (h0 : [.reply] ⊆ T) : only T u (inSess doe k act s) ↔ only T u s := by
  unfold inSess; split
  · exact only_step (h s) (fun _ a => a)
  · exact answer_only _ _ _ _ h0

@[simp] theorem heartbeatLoss_only (doe : Bool) (k : Nat) (T : List Part) (u s : State) (h0 : [.hdrs, .host, .glob, .sec,
    .evts, .hut] ⊆ T) :
    only T u ((heartbeatLoss doe k s)) ↔ only T u s := by
  refine only_step (T' := [.hdrs, .host, .glob, .sec, .evts, .hut]) ?_ h0; unfold heartbeatLoss; (repeat' split) <;> simp

end Sys2Proof.Machine
end

