-- ==== Sys2Proof/Laws/OnlyRegs.lean ====
section
/-! SUPPORT. What each operation can touch: the registers, sealed delivery, the rings and the tick. -/

set_option linter.all false

namespace Sys2Proof.Machine

open Sys2Proof.Safety

@[simp] theorem coreRegWrite_only (c off : Nat) (v : Word) (T : List Part) (u s : State) (h0 : [.reply, .hdrs, .cores, .ctls,
    .ctx, .fence, .host, .glob, .pwr, .sec, .dbg, .evts] ⊆ T) :
    only T u ((coreRegWrite c off v s)) ↔ only T u s := by
  refine only_step (T' := [.reply, .hdrs, .cores, .ctls, .ctx, .fence, .host, .glob, .pwr, .sec, .dbg, .evts]) ?_ h0; unfold coreRegWrite; (repeat' split) <;> simp

@[simp] theorem coreRegFx_only (camp : Bool) (c off : Nat) (T : List Part) (u s : State) (h0 : [.cores] ⊆ T) :
    only T u ((coreRegFx camp c off s)) ↔ only T u s := by
  refine only_step (T' := [.cores]) ?_ h0; unfold coreRegFx; (repeat' split) <;> simp

@[simp] theorem telemetryInterval_only  (T : List Part) (u s : State) (h0 : [.sec] ⊆ T) :
    only T u ((telemetryInterval s)) ↔ only T u s := by
  refine only_step (T' := [.sec]) ?_ h0; unfold telemetryInterval; simp

@[simp] theorem onDbgCore_only (T : List Part) (f : Nat → State → State) (u s : State)
    (h : ∀ c t, only T t (f c t)) : only T u (onDbgCore f s) ↔ only T u s := by
  unfold onDbgCore; split
  · exact only_step (h _ s) (fun _ a => a)
  · rfl

@[simp] theorem dbgHalt_only (on : Bool) (c : Nat) (T : List Part) (u s : State) (h0 : [.hdrs, .ctls, .host, .glob, .evts] ⊆
    T) :
    only T u ((dbgHalt on c s)) ↔ only T u s := by
  refine only_step (T' := [.hdrs, .ctls, .host, .glob, .evts]) ?_ h0; unfold dbgHalt; simp

@[simp] theorem dbgStep_only (c : Nat) (T : List Part) (u s : State) (h0 : [.hdrs, .ctls, .host, .glob, .evts] ⊆ T) :
    only T u ((dbgStep c s)) ↔ only T u s := by
  refine only_step (T' := [.hdrs, .ctls, .host, .glob, .evts]) ?_ h0; unfold dbgStep; simp

@[simp] theorem dbgTrace_only (on : Bool) (c : Nat) (T : List Part) (u s : State) (h0 : [.dbg] ⊆ T) :
    only T u ((dbgTrace on c s)) ↔ only T u s := by
  refine only_step (T' := [.dbg]) ?_ h0; unfold dbgTrace; simp

@[simp] theorem dbgTraceClr_only (c : Nat) (T : List Part) (u s : State) (h0 : [.dbg] ⊆ T) :
    only T u ((dbgTraceClr c s)) ↔ only T u s := by
  refine only_step (T' := [.dbg]) ?_ h0; unfold dbgTraceClr; simp

@[simp] theorem dbgDataRead_only  (T : List Part) (u s : State) (h0 : [.reply, .hdrs, .host, .glob, .dbg, .evts] ⊆ T) :
    only T u ((dbgDataRead s)) ↔ only T u s := by
  refine only_step (T' := [.reply, .hdrs, .host, .glob, .dbg, .evts]) ?_ h0; unfold dbgDataRead; simp

@[simp] theorem dbgRegWrite_only (off : Nat) (v : Word) (T : List Part) (u s : State) (h0 : [.hdrs, .ctls, .host, .glob,
    .dbg, .evts] ⊆ T) :
    only T u ((dbgRegWrite off v s)) ↔ only T u s := by
  have key : only [.hdrs, .ctls, .host, .glob, .dbg, .evts] s ((dbgRegWrite off v s)) := by
    unfold dbgRegWrite; split
    · simp
    · rw [onDbgCore_only _ _ _ _ (fun c t => by
        dsimp only
        rw [only_when _ _ _ _ _ (fun t => by simp), only_when _ _ _ _ _ (fun t => by simp)]; simp)]; exact only_refl _ _
    all_goals simp
  exact only_step key h0

@[simp] theorem wldComplete_only (c : Nat) (T : List Part) (u s : State) (h0 : [.reply, .hdrs, .cores, .ctls, .ledge, .mesh,
    .hbm, .ctx, .fence, .host, .glob, .pwr, .sec, .dbg, .evts] ⊆ T) :
    only T u ((wldComplete c s)) ↔ only T u s := by
  refine only_step (T' := [.reply, .hdrs, .cores, .ctls, .ledge, .mesh, .hbm, .ctx, .fence, .host, .glob, .pwr, .sec, .dbg, .evts]) ?_ h0; unfold wldComplete; (repeat' split) <;> simp

@[simp] theorem bankDrained_only (c : Nat) (T : List Part) (u s : State) (h0 : [.reply, .hdrs, .cores, .ctls, .ledge, .mesh,
    .hbm, .ctx, .fence, .host, .glob, .pwr, .sec, .dbg, .evts] ⊆ T) :
    only T u ((bankDrained c s)) ↔ only T u s := by
  refine only_step (T' := [.reply, .hdrs, .cores, .ctls, .ledge, .mesh, .hbm, .ctx, .fence, .host, .glob, .pwr, .sec, .dbg, .evts]) ?_ h0; unfold bankDrained; simp

@[simp] theorem strComplete_only (c : Nat) (T : List Part) (u s : State) (h0 : [.hdrs, .cores, .host, .glob, .dbg] ⊆ T) :
    only T u ((strComplete c s)) ↔ only T u s := by
  refine only_step (T' := [.hdrs, .cores, .host, .glob, .dbg]) ?_ h0; unfold strComplete; (repeat' split) <;> simp

@[simp] theorem onArbAt_only (pg : Nat) (b : Blk) (f : ArbInst → ArbInst) (T : List Part) (u s : State) (h0 : [.arbs] ⊆ T) :
    only T u ((onArbAt pg b f s)) ↔ only T u s := by
  refine only_step (T' := [.arbs]) ?_ h0; unfold onArbAt; (repeat' split) <;> simp

@[simp] theorem arbRegWrite_only (pg : Nat) (b : Blk) (off : Nat) (v : Word) (T : List Part) (u s : State) (h0 : [.arbs,
    .arbSels] ⊆ T) :
    only T u ((arbRegWrite pg b off v s)) ↔ only T u s := by
  refine only_step (T' := [.arbs, .arbSels]) ?_ h0; unfold arbRegWrite; (repeat' split) <;> simp

@[simp] theorem arbRegFx_only (pg : Nat) (b : Blk) (off : Nat) (T : List Part) (u s : State) (h0 : [.arbs] ⊆ T) :
    only T u ((arbRegFx pg b off s)) ↔ only T u s := by
  refine only_step (T' := [.arbs]) ?_ h0; unfold arbRegFx; (repeat' split) <;> simp

@[simp] theorem ledgeRegWrite_only (off : Nat) (v : Word) (T : List Part) (u s : State) (h0 : [.ledge] ⊆ T) :
    only T u ((ledgeRegWrite off v s)) ↔ only T u s := by
  refine only_step (T' := [.ledge]) ?_ h0; unfold ledgeRegWrite; (repeat' split) <;> simp

@[simp] theorem meshRegWrite_only (off : Nat) (v : Word) (T : List Part) (u s : State) (h0 : [.mesh] ⊆ T) :
    only T u ((meshRegWrite off v s)) ↔ only T u s := by
  refine only_step (T' := [.mesh]) ?_ h0; unfold meshRegWrite; (repeat' split) <;> simp

@[simp] theorem meshRegFx_only (off : Nat) (T : List Part) (u s : State) (h0 : [.mesh] ⊆ T) :
    only T u ((meshRegFx off s)) ↔ only T u s := by
  refine only_step (T' := [.mesh]) ?_ h0; unfold meshRegFx; (repeat' split) <;> simp

@[simp] theorem hbmRegWrite_only (k off : Nat) (v : Word) (T : List Part) (u s : State) (h0 : [.hbm] ⊆ T) :
    only T u ((hbmRegWrite k off v s)) ↔ only T u s := by
  refine only_step (T' := [.hbm]) ?_ h0; unfold hbmRegWrite; (repeat' split) <;> simp

@[simp] theorem pendClear_only (bits events : Word) (T : List Part) (u s : State) (h0 : [.host, .glob] ⊆ T) :
    only T u ((pendClear bits events s)) ↔ only T u s := by
  refine only_step (T' := [.host, .glob]) ?_ h0; unfold pendClear; simp

@[simp] theorem writeRouteReg_only (src : Nat) (v : Word) (T : List Part) (u s : State) (h0 : [.host, .glob] ⊆ T) :
    only T u ((writeRouteReg src v s)) ↔ only T u s := by
  refine only_step (T' := [.host, .glob]) ?_ h0; unfold writeRouteReg; simp

@[simp] theorem globalRegWrite_only (off : Nat) (v : Word) (T : List Part) (u s : State) (h0 : [.host, .glob] ⊆ T) :
    only T u ((globalRegWrite off v s)) ↔ only T u s := by
  refine only_step (T' := [.host, .glob]) ?_ h0; unfold globalRegWrite; (repeat' split) <;> simp

@[simp] theorem globalRegFx_only (off : Nat) (T : List Part) (u s : State) (h0 : [.glob] ⊆ T) :
    only T u ((globalRegFx off s)) ↔ only T u s := by
  refine only_step (T' := [.glob]) ?_ h0; unfold globalRegFx; (repeat' split) <;> simp

@[simp] theorem sqRegWrite_only (f i o : Nat) (v : Word) (T : List Part) (u s : State) (h0 : [.hdrs, .host, .glob] ⊆ T) :
    only T u ((sqRegWrite f i o v s)) ↔ only T u s := by
  refine only_step (T' := [.hdrs, .host, .glob]) ?_ h0; unfold sqRegWrite; (repeat' split) <;> simp

@[simp] theorem cqRegWrite_only (f i o : Nat) (v : Word) (T : List Part) (u s : State) (h0 : [.hdrs, .host, .glob] ⊆ T) :
    only T u ((cqRegWrite f i o v s)) ↔ only T u s := by
  refine only_step (T' := [.hdrs, .host, .glob]) ?_ h0; unfold cqRegWrite; (repeat' split) <;> simp

@[simp] theorem hostUpperWrite_only (off : Nat) (v : Word) (T : List Part) (u s : State) (h0 : [.hdrs, .host, .glob] ⊆ T) :
    only T u ((hostUpperWrite off v s)) ↔ only T u s := by
  refine only_step (T' := [.hdrs, .host, .glob]) ?_ h0; unfold hostUpperWrite; (repeat' split) <;> simp

@[simp] theorem hostLowerWrite_only (n off : Nat) (v : Word) (T : List Part) (u s : State) (h0 : [.hdrs, .host, .glob] ⊆ T) :
    only T u ((hostLowerWrite n off v s)) ↔ only T u s := by
  refine only_step (T' := [.hdrs, .host, .glob]) ?_ h0; unfold hostLowerWrite; (repeat' split) <;> simp

@[simp] theorem hostRegFx_only (n off : Nat) (T : List Part) (u s : State) (h0 : [.host] ⊆ T) :
    only T u ((hostRegFx n off s)) ↔ only T u s := by
  refine only_step (T' := [.host]) ?_ h0; unfold hostRegFx; (repeat' split) <;> simp

@[simp] theorem vecRegWrite_only (f k o : Nat) (v : Word) (T : List Part) (u s : State) (h0 : [.host] ⊆ T) :
    only T u ((vecRegWrite f k o v s)) ↔ only T u s := by
  refine only_step (T' := [.host]) ?_ h0; unfold vecRegWrite; (repeat' split) <;> simp

@[simp] theorem stage_only (c : Nat) (i : PitchInstr) (T : List Part) (u s : State) (h0 : [.cores] ⊆ T) :
    only T u ((stage c i s)) ↔ only T u s := by
  refine only_step (T' := [.cores]) ?_ h0; unfold stage; simp

@[simp] theorem watBarEffect_only (c : Nat) (i : PitchInstr) (T : List Part) (u s : State) (h0 : [.cores] ⊆ T) :
    only T u ((watBarEffect c i s)) ↔ only T u s := by
  refine only_step (T' := [.cores]) ?_ h0; unfold watBarEffect; (repeat' split) <;> simp

@[simp] theorem releaseBarrier_only (c : Nat) (T : List Part) (u s : State) (h0 : [.cores] ⊆ T) :
    only T u ((releaseBarrier c s)) ↔ only T u s := by
  refine only_step (T' := [.cores]) ?_ h0; unfold releaseBarrier; dsimp only; (repeat' split) <;> simp

@[simp] theorem watLocalEffect_only (c : Nat) (i : PitchInstr) (T : List Part) (u s : State) (h0 : [.cores] ⊆ T) :
    only T u ((watLocalEffect c i s)) ↔ only T u s := by
  refine only_step (T' := [.cores]) ?_ h0; unfold watLocalEffect; (repeat' split) <;> simp

@[simp] theorem wipeEffect_only (c : Nat) (_i : PitchInstr) (T : List Part) (u s : State) (h0 : [.cores] ⊆ T) :
    only T u ((wipeEffect c _i s)) ↔ only T u s := by
  refine only_step (T' := [.cores]) ?_ h0; unfold wipeEffect; simp

@[simp] theorem endEffect_only (c : Nat) (_i : PitchInstr) (T : List Part) (u s : State) (h0 : [.reply, .hdrs, .cores, .ctls,
    .ledge, .mesh, .hbm, .ctx, .fence, .fab, .host, .glob, .pwr, .sec, .dbg, .evts] ⊆ T) :
    only T u ((endEffect c _i s)) ↔ only T u s := by
  refine only_step (T' := [.reply, .hdrs, .cores, .ctls, .ledge, .mesh, .hbm, .ctx, .fence, .fab, .host, .glob, .pwr, .sec, .dbg, .evts]) ?_ h0; unfold endEffect; simp

@[simp] theorem completeUnit_only (c : Nat) (u : Nat) (T : List Part) (u0 s : State) (h0 : [.reply, .hdrs, .cores, .ctls,
    .ledge, .mesh, .hbm, .ctx, .fence, .host, .glob, .pwr, .sec, .dbg, .evts] ⊆ T) :
    only T u0 ((completeUnit c u s)) ↔ only T u0 s := by
  refine only_step (T' := [.reply, .hdrs, .cores, .ctls, .ledge, .mesh, .hbm, .ctx, .fence, .host, .glob, .pwr, .sec, .dbg, .evts]) ?_ h0; unfold completeUnit; dsimp only; (repeat' split) <;> simp

@[simp] theorem loopRegWrite_only (off : Nat) (v : Word) (T : List Part) (u s : State) (h0 : [.hdrs, .host, .glob, .loop,
    .drv, .hut] ⊆ T) :
    only T u ((loopRegWrite off v s)) ↔ only T u s := by
  refine only_step (T' := [.hdrs, .host, .glob, .loop, .drv, .hut]) ?_ h0; unfold loopRegWrite; (repeat' split) <;> simp

@[simp] theorem vlvRegWrite_only (off : Nat) (v : Word) (T : List Part) (u s : State) (h0 : [.hdrs, .host, .glob, .drv, .hut]
    ⊆ T) :
    only T u ((vlvRegWrite off v s)) ↔ only T u s := by
  refine only_step (T' := [.hdrs, .host, .glob, .drv, .hut]) ?_ h0; unfold vlvRegWrite; (repeat' split) <;> simp

@[simp] theorem vlvRegFx_only (own : Bool) (off : Nat) (T : List Part) (u s : State) (h0 : [.drv] ⊆ T) :
    only T u ((vlvRegFx own off s)) ↔ only T u s := by
  refine only_step (T' := [.drv]) ?_ h0; unfold vlvRegFx; (repeat' split) <;> simp

@[simp] theorem mtrChWrite_only (m off : Nat) (v : Word) (T : List Part) (u s : State) (h0 : [.drv] ⊆ T) :
    only T u ((mtrChWrite m off v s)) ↔ only T u s := by
  refine only_step (T' := [.drv]) ?_ h0; unfold mtrChWrite; (repeat' split) <;> simp

@[simp] theorem mtrRegWrite_only (off : Nat) (v : Word) (T : List Part) (u s : State) (h0 : [.drv] ⊆ T) :
    only T u ((mtrRegWrite off v s)) ↔ only T u s := by
  refine only_step (T' := [.drv]) ?_ h0; unfold mtrRegWrite; (repeat' split) <;> simp

@[simp] theorem ropeEnable_only (r : Nat) (on : Bool) (T : List Part) (u s : State) (h0 : [.drv] ⊆ T) :
    only T u ((ropeEnable r on s)) ↔ only T u s := by
  refine only_step (T' := [.drv]) ?_ h0; unfold ropeEnable; simp

@[simp] theorem sensRegWrite_only (off : Nat) (v : Word) (T : List Part) (u s : State) (h0 : [.drv] ⊆ T) :
    only T u ((sensRegWrite off v s)) ↔ only T u s := by
  refine only_step (T' := [.drv]) ?_ h0; unfold sensRegWrite; (repeat' split) <;> simp

@[simp] theorem leaseChannels_only (g : Nat) (v : Word) (T : List Part) (u s : State) (h0 : [.cbus] ⊆ T) :
    only T u ((leaseChannels g v s)) ↔ only T u s := by
  refine only_step (T' := [.cbus]) ?_ h0; unfold leaseChannels; simp

@[simp] theorem canRegWrite_only (i off : Nat) (v : Word) (T : List Part) (u s : State) (h0 : [.hdrs, .host, .glob, .cbus,
    .hut] ⊆ T) :
    only T u ((canRegWrite i off v s)) ↔ only T u s := by
  refine only_step (T' := [.hdrs, .host, .glob, .cbus, .hut]) ?_ h0; unfold canRegWrite; (repeat' split) <;> simp

@[simp] theorem cbusRegWrite_only (off : Nat) (v : Word) (T : List Part) (u s : State) (h0 : [.hdrs, .host, .glob, .cbus,
    .hut] ⊆ T) :
    only T u ((cbusRegWrite off v s)) ↔ only T u s := by
  refine only_step (T' := [.hdrs, .host, .glob, .cbus, .hut]) ?_ h0; unfold cbusRegWrite; (repeat' split) <;> simp

@[simp] theorem cbusRegFx_only (own : Bool) (off : Nat) (T : List Part) (u s : State) (h0 : [.cbus] ⊆ T) :
    only T u ((cbusRegFx own off s)) ↔ only T u s := by
  refine only_step (T' := [.cbus]) ?_ h0; unfold cbusRegFx; (repeat' split) <;> simp

@[simp] theorem logRegWrite_only (off : Nat) (v : Word) (T : List Part) (u s : State) (h0 : [.hut] ⊆ T) :
    only T u ((logRegWrite off v s)) ↔ only T u s := by
  refine only_step (T' := [.hut]) ?_ h0; unfold logRegWrite; (repeat' split) <;> simp

@[simp] theorem logRegFx_only (off : Nat) (T : List Part) (u s : State) (h0 : [.hut] ⊆ T) :
    only T u ((logRegFx off s)) ↔ only T u s := by
  refine only_step (T' := [.hut]) ?_ h0; unfold logRegFx; (repeat' split) <;> simp

@[simp] theorem mboxHostWrite_only (off : Nat) (v : Word) (T : List Part) (u s : State) (h0 : [.hdrs, .cores, .host, .glob,
    .sec, .hut, .cairn] ⊆ T) :
    only T u ((mboxHostWrite off v s)) ↔ only T u s := by
  refine only_step (T' := [.hdrs, .cores, .host, .glob, .sec, .hut, .cairn]) ?_ h0; unfold mboxHostWrite; (repeat' split) <;> simp

@[simp] theorem mboxCampWrite_only (off : Nat) (v : Word) (T : List Part) (u s : State) (h0 : [.hdrs, .cores, .host, .glob,
    .sec, .evts, .hut, .cairn] ⊆ T) :
    only T u ((mboxCampWrite off v s)) ↔ only T u s := by
  refine only_step (T' := [.hdrs, .cores, .host, .glob, .sec, .evts, .hut, .cairn]) ?_ h0; unfold mboxCampWrite; (repeat' split) <;> simp

@[simp] theorem mboxRegFx_only (own : Bool) (off : Nat) (T : List Part) (u s : State) (h0 : [.evts] ⊆ T) :
    only T u ((mboxRegFx own off s)) ↔ only T u s := by
  refine only_step (T' := [.evts]) ?_ h0; unfold mboxRegFx; (repeat' split) <;> simp

@[simp] theorem cfglRegWrite_only (off : Nat) (v : Word) (T : List Part) (u s : State) (h0 : [.cairn] ⊆ T) :
    only T u ((cfglRegWrite off v s)) ↔ only T u s := by
  refine only_step (T' := [.cairn]) ?_ h0; unfold cfglRegWrite; simp

@[simp] theorem cfglRegFx_only (camp : Bool) (off : Nat) (T : List Part) (u s : State) (h0 : [.cairn] ⊆ T) :
    only T u ((cfglRegFx camp off s)) ↔ only T u s := by
  refine only_step (T' := [.cairn]) ?_ h0; unfold cfglRegFx; simp

@[simp] theorem writeCredits_only (p v : Nat) (c : BitVec 10) (T : List Part) (u s : State) (h0 : [.fab] ⊆ T) :
    only T u ((writeCredits p v c s)) ↔ only T u s := by
  refine only_step (T' := [.fab]) ?_ h0; unfold writeCredits; simp

@[simp] theorem fabRegWrite_only (p off : Nat) (v : Word) (T : List Part) (u s : State) (h0 : [.reply, .hdrs, .ledge, .mesh,
    .hbm, .fab, .host, .glob, .evts] ⊆ T) :
    only T u ((fabRegWrite p off v s)) ↔ only T u s := by
  refine only_step (T' := [.reply, .hdrs, .ledge, .mesh, .hbm, .fab, .host, .glob, .evts]) ?_ h0; unfold fabRegWrite; (repeat' split) <;> simp

@[simp] theorem fabRegFx_only (p off : Nat) (T : List Part) (u s : State) (h0 : [.fab] ⊆ T) :
    only T u ((fabRegFx p off s)) ↔ only T u s := by
  refine only_step (T' := [.fab]) ?_ h0; unfold fabRegFx; (repeat' split) <;> simp

@[simp] theorem writeNode_only (v : Word) (T : List Part) (u s : State) (h0 : [.fab] ⊆ T) :
    only T u ((writeNode v s)) ↔ only T u s := by
  have key : only [.fab] s ((writeNode v s)) := by
    unfold writeNode; try dsimp only
    (repeat' first | with_reducible apply only_if | split) <;> first | (simp; done) | (refine forAll_keeps ?_ _ _; intro x t; (try dsimp only); (repeat' split) <;> simp; done) | (refine only_trans ?_ (forAll_keeps (T := [.fab]) (by (intro x t; (try dsimp only); (repeat' split) <;> simp; done)) _ _); simp; done) | (simp; (refine only_trans ?_ (forAll_keeps (T := [.fab]) (by (intro x t; (try dsimp only); (repeat' split) <;> simp; done)) _ _); simp; done)) | (intro p hp; cases p <;> first | rfl | (simp at hp; done)) | (simp; intro p hp; cases p <;> first | rfl | (simp at hp; done)) | simp
  exact only_step key h0

@[simp] theorem writeJob_only (x : Nat) (v : Word) (T : List Part) (u s : State) (h0 : [.fab] ⊆ T) :
    only T u ((writeJob x v s)) ↔ only T u s := by
  refine only_step (T' := [.fab]) ?_ h0; unfold writeJob; simp

@[simp] theorem fabCommonWrite_only (off : Nat) (v : Word) (T : List Part) (u s : State) (h0 : [.hdrs, .fab, .host, .glob] ⊆
    T) :
    only T u ((fabCommonWrite off v s)) ↔ only T u s := by
  refine only_step (T' := [.hdrs, .fab, .host, .glob]) ?_ h0; unfold fabCommonWrite; (repeat' split) <;> simp

@[simp] theorem fabCommonFx_only (off : Nat) (T : List Part) (u s : State) (h0 : [.fab] ⊆ T) :
    only T u ((fabCommonFx off s)) ↔ only T u s := by
  refine only_step (T' := [.fab]) ?_ h0; unfold fabCommonFx; (repeat' split) <;> simp

@[simp] theorem pwrRegWrite_only (off : Nat) (v : Word) (T : List Part) (u s : State) (h0 : [.pwr] ⊆ T) :
    only T u ((pwrRegWrite off v s)) ↔ only T u s := by
  refine only_step (T' := [.pwr]) ?_ h0; unfold pwrRegWrite; (repeat' split) <;> simp

@[simp] theorem pwrSpWrite_only (off : Nat) (v : Word) (T : List Part) (u s : State) (h0 : [.hdrs, .host, .glob, .pwr, .evts,
    .cool] ⊆ T) :
    only T u ((pwrSpWrite off v s)) ↔ only T u s := by
  refine only_step (T' := [.hdrs, .host, .glob, .pwr, .evts, .cool]) ?_ h0; unfold pwrSpWrite; (repeat' split) <;> simp

@[simp] theorem pwrRegFx_only (camp host : Bool) (off : Nat) (T : List Part) (u s : State) (h0 : [.pwr] ⊆ T) :
    only T u ((pwrRegFx camp host off s)) ↔ only T u s := by
  refine only_step (T' := [.pwr]) ?_ h0; unfold pwrRegFx; (repeat' split) <;> simp

@[simp] theorem thmRegWrite_only (off : Nat) (v : Word) (T : List Part) (u s : State) (h0 : [.ctls, .pwr, .sec, .thm] ⊆ T) :
    only T u ((thmRegWrite off v s)) ↔ only T u s := by
  refine only_step (T' := [.ctls, .pwr, .sec, .thm]) ?_ h0; unfold thmRegWrite; (repeat' split) <;> simp

@[simp] theorem thmSpWrite_only (off : Nat) (v : Word) (T : List Part) (u s : State) (h0 : [.thm] ⊆ T) :
    only T u ((thmSpWrite off v s)) ↔ only T u s := by
  refine only_step (T' := [.thm]) ?_ h0; unfold thmSpWrite; (repeat' split) <;> simp

@[simp] theorem writeTelem_only (x : Nat) (v : Word) (T : List Part) (u s : State) (h0 : [.sec] ⊆ T) :
    only T u ((writeTelem x v s)) ↔ only T u s := by
  refine only_step (T' := [.sec]) ?_ h0; unfold writeTelem; simp

@[simp] theorem secRegWrite_only (off : Nat) (v : Word) (T : List Part) (u s : State) (h0 : [.sec] ⊆ T) :
    only T u ((secRegWrite off v s)) ↔ only T u s := by
  refine only_step (T' := [.sec]) ?_ h0; unfold secRegWrite; (repeat' split) <;> simp

@[simp] theorem secSpWrite_only (off : Nat) (v : Word) (T : List Part) (u s : State) (h0 : [.sec] ⊆ T) :
    only T u ((secSpWrite off v s)) ↔ only T u s := by
  refine only_step (T' := [.sec]) ?_ h0; unfold secSpWrite; (repeat' split) <;> simp

@[simp] theorem secRegFx_only (camp : Bool) (off : Nat) (T : List Part) (u s : State) (h0 : [.sec] ⊆ T) :
    only T u ((secRegFx camp off s)) ↔ only T u s := by
  refine only_step (T' := [.sec]) ?_ h0; unfold secRegFx; (repeat' split) <;> simp

@[simp] theorem makeOffer_only (src : CmdSrc) (x epoch : Nat) (a : DWord) (base size : Nat) (take : SecCtx → SecCtx) (T :
    List Part) (u s : State) (h0 : [.reply, .hdrs, .ledge, .hbm, .host, .glob, .sec, .fresh] ⊆ T) :
    only T u ((makeOffer src x epoch a base size take s)) ↔ only T u s := by
  refine only_step (T' := [.reply, .hdrs, .ledge, .hbm, .host, .glob, .sec, .fresh]) ?_ h0; unfold makeOffer; dsimp only; (repeat' split) <;> simp

@[simp] theorem sealOpen_only (src : CmdSrc) (a : DWord) (base size : Nat) (x : CtxId) (T : List Part) (u s : State) (h0 :
    [.reply, .hdrs, .ledge, .hbm, .host, .glob, .sec, .fresh] ⊆ T) :
    only T u ((sealOpen src a base size x s)) ↔ only T u s := by
  refine only_step (T' := [.reply, .hdrs, .ledge, .hbm, .host, .glob, .sec, .fresh]) ?_ h0; unfold sealOpen; dsimp only; (repeat' split) <;> simp

@[simp] theorem sealRotate_only (src : CmdSrc) (a : DWord) (x : CtxId) (T : List Part) (u s : State) (h0 : [.reply, .hdrs,
    .ledge, .hbm, .host, .glob, .sec, .fresh] ⊆ T) :
    only T u ((sealRotate src a x s)) ↔ only T u s := by
  refine only_step (T' := [.reply, .hdrs, .ledge, .hbm, .host, .glob, .sec, .fresh]) ?_ h0; unfold sealRotate; dsimp only; (repeat' split) <;> simp

@[simp] theorem acceptKey_only (x : Nat) (epoch : Byte) (p : List Byte) (T : List Part) (u s : State) (h0 : [.hdrs, .host,
    .glob, .sec, .evts] ⊆ T) :
    only T u ((acceptKey x epoch p s)) ↔ only T u s := by
  refine only_step (T' := [.hdrs, .host, .glob, .sec, .evts]) ?_ h0; unfold acceptKey; simp

@[simp] theorem sealDone_only (x : Nat) (T : List Part) (u s : State) (h0 : [.hdrs, .host, .glob, .sec, .evts] ⊆ T) :
    only T u ((sealDone x s)) ↔ only T u s := by
  refine only_step (T' := [.hdrs, .host, .glob, .sec, .evts]) ?_ h0; unfold sealDone; simp

@[simp] theorem sealKey_only (src : CmdSrc) (a : DWord) (epoch : Byte) (x : CtxId) (T : List Part) (u s : State) (h0 :
    [.reply, .hdrs, .ledge, .mesh, .hbm, .host, .glob, .sec, .evts] ⊆ T) :
    only T u ((sealKey src a epoch x s)) ↔ only T u s := by
  refine only_step (T' := [.reply, .hdrs, .ledge, .mesh, .hbm, .host, .glob, .sec, .evts]) ?_ h0; unfold sealKey; dsimp only; (repeat' split) <;> simp

@[simp] theorem clearPage_only (q : Option Phys) (T : List Part) (u s : State) (h0 : [.ledge, .hbm] ⊆ T) :
    only T u (clearPage q s) ↔ only T u s := by
  refine only_step (T' := [.ledge, .hbm]) ?_ h0; cases q
  · exact only_refl _ _
  · exact (physZero_only _ _ _ _ _ (by simp)).2 (only_refl _ _)

@[simp] theorem pageTagFailed_only (x i : Nat) (T : List Part) (u s : State) (h0 : [.hdrs, .ledge, .hbm, .host, .glob, .sec,
    .evts] ⊆ T) :
    only T u ((pageTagFailed x i s)) ↔ only T u s := by
  refine only_step (T' := [.hdrs, .ledge, .hbm, .host, .glob, .sec, .evts]) ?_ h0; unfold pageTagFailed; rw [raise_only _ _ _ _ _ (by simp), errTrans_only _ _ _ _ (by simp), campEvent_only _ _ _ _ _ _ (by simp), onSec_only _ _ _ _ (by simp), clearPage_only _ _ _ _ (by simp)]; exact only_refl _ _

@[simp] theorem pageLoaded_only (x i : Nat) (epoch : Byte) (bs : List Byte) (T : List Part) (u s : State) (h0 : [.hdrs,
    .ledge, .hbm, .host, .glob, .sec, .evts] ⊆ T) :
    only T u ((pageLoaded x i epoch bs s)) ↔ only T u s := by
  have key : only [.hdrs, .ledge, .hbm, .host, .glob, .sec, .evts] s ((pageLoaded x i epoch bs s)) := by
    unfold pageLoaded; generalize padBytes (2 ^ 21) bs = pb; extract_lets o; clear_value o
    rw [sealDone_only _ _ _ _ (by simp), onSx_only _ _ _ _ _ (by simp), gwrite_only _ _ _ _ _ _ _ (by simp)]; exact only_refl _ _
  exact only_step key h0

@[simp] theorem takePage_only (src : CmdSrc) (i : Nat) (epoch : Byte) (a : DWord) (x : Nat) (key : List Byte) (got : Option (List Byte))
    (T : List Part) (u s : State) (h0 : [.reply, .hdrs, .ledge, .mesh, .hbm, .host, .glob, .sec, .evts] ⊆ T) : only T u (takePage src i epoch a x key got s) ↔ only T u s := by
  refine only_step (T' := [.reply, .hdrs, .ledge, .mesh, .hbm, .host, .glob, .sec, .evts]) ?_ h0
  have hf : ∀ st n t, only [.reply, .hdrs, .ledge, .mesh, .hbm, .host, .glob, .sec, .evts] s t → only [.reply, .hdrs, .ledge, .mesh, .hbm, .host, .glob, .sec, .evts] s (finishGeneric src st n t) := fun st n t ht => (finishGeneric_only _ _ _ _ _ _ (by simp)).2 ht
  cases got
  · exact hf _ _ _ ((failedRead_only _ _ _ _ _ _ _ (by simp)).2 (only_refl _ _))
  · exact only_if (hf _ _ _ ((pageLoaded_only _ _ _ _ _ _ _ (by simp)).2 (only_refl _ _))) (hf _ _ _ ((pageTagFailed_only _ _ _ _ _ (by simp)).2 (only_refl _ _)))

@[simp] theorem sealPageWith_only (src : CmdSrc) (i : Nat) (epoch : Byte) (a : DWord) (x : Nat) (key : Option (List Byte))
    (T : List Part) (u s : State) (h0 : [.reply, .hdrs, .ledge, .mesh, .hbm, .host, .glob, .sec, .evts] ⊆ T) : only T u (sealPageWith src i epoch a x key s) ↔ only T u s := by
  refine only_step (T' := [.reply, .hdrs, .ledge, .mesh, .hbm, .host, .glob, .sec, .evts]) ?_ h0
  have hf : ∀ st n t, only [.reply, .hdrs, .ledge, .mesh, .hbm, .host, .glob, .sec, .evts] s t → only [.reply, .hdrs, .ledge, .mesh, .hbm, .host, .glob, .sec, .evts] s (finishGeneric src st n t) := fun st n t ht => (finishGeneric_only _ _ _ _ _ _ (by simp)).2 ht
  cases key
  · exact hf _ _ _ (only_refl _ _)
  · exact only_if (hf _ _ _ (only_refl _ _)) (only_if (hf _ _ _ (only_refl _ _)) ((takePage_only _ _ _ _ _ _ _ _ _ _ (by simp)).2 (only_refl _ _)))

@[simp] theorem sealPage_only (src : CmdSrc) (i : Nat) (epoch : Byte) (a : DWord) (x : CtxId) (T : List Part) (u s : State)
    (h0 : [.reply, .hdrs, .ledge, .mesh, .hbm, .host, .glob, .sec, .evts] ⊆ T) :
    only T u ((sealPage src i epoch a x s)) ↔ only T u s := by
  refine only_step (T' := [.reply, .hdrs, .ledge, .mesh, .hbm, .host, .glob, .sec, .evts]) ?_ h0
  have hf : ∀ st n t, only [.reply, .hdrs, .ledge, .mesh, .hbm, .host, .glob, .sec, .evts] s t → only [.reply, .hdrs, .ledge, .mesh, .hbm, .host, .glob, .sec, .evts] s (finishGeneric src st n t) := fun st n t ht => (finishGeneric_only _ _ _ _ _ _ (by simp)).2 ht
  exact only_if (hf _ _ _ (only_refl _ _)) ((sealPageWith_only _ _ _ _ _ _ _ _ _ (by simp)).2 (only_refl _ _))

@[simp] theorem refuseEntry_only (src : CmdSrc) (e : List Byte) (T : List Part) (u s : State) (h0 : [.reply, .hdrs, .host,
    .glob] ⊆ T) :
    only T u ((refuseEntry src e s)) ↔ only T u s := by
  refine only_step (T' := [.reply, .hdrs, .host, .glob]) ?_ h0; unfold refuseEntry; (repeat' split) <;> simp

@[simp] theorem runEntry_only (src : CmdSrc) (e : List Byte) (T : List Part) (u s : State) (h0 : [.reply, .hdrs, .cores,
    .ctls, .ledge, .mesh, .hbm, .ctx, .fence, .fab, .host, .glob, .pwr, .sec, .evts, .fresh] ⊆ T) :
    only T u ((runEntry src e s)) ↔ only T u s := by
  have key : only [.reply, .hdrs, .cores, .ctls, .ledge, .mesh, .hbm, .ctx, .fence, .fab, .host, .glob, .pwr, .sec, .evts, .fresh] s ((runEntry src e s)) := by
    unfold runEntry; try dsimp only
    (repeat' first | with_reducible apply only_if | split) <;> first | (simp; done) | (refine forAll_keeps ?_ _ _; intro x t; (try dsimp only); (repeat' split) <;> simp; done) | (refine only_trans ?_ (forAll_keeps (T := [.reply, .hdrs, .cores, .ctls, .ledge, .mesh, .hbm, .ctx, .fence, .fab, .host, .glob, .pwr, .sec, .evts, .fresh]) (by (intro x t; (try dsimp only); (repeat' split) <;> simp; done)) _ _); simp; done) | (simp; (refine only_trans ?_ (forAll_keeps (T := [.reply, .hdrs, .cores, .ctls, .ledge, .mesh, .hbm, .ctx, .fence, .fab, .host, .glob, .pwr, .sec, .evts, .fresh]) (by (intro x t; (try dsimp only); (repeat' split) <;> simp; done)) _ _); simp; done)) | (intro p hp; cases p <;> first | rfl | (simp at hp; done)) | (simp; intro p hp; cases p <;> first | rfl | (simp at hp; done)) | simp
  exact only_step key h0

@[simp] theorem stopRing_only (f i err : Nat) (T : List Part) (u s : State) (h0 : [.hdrs, .host, .glob] ⊆ T) :
    only T u ((stopRing f i err s)) ↔ only T u s := by
  refine only_step (T' := [.hdrs, .host, .glob]) ?_ h0; unfold stopRing; simp

@[simp] theorem takeEntry_only (f i : Nat) (e : List Byte) (T : List Part) (u s : State) (h0 : [.host] ⊆ T) :
    only T u ((takeEntry f i e s)) ↔ only T u s := by
  refine only_step (T' := [.host]) ?_ h0; unfold takeEntry; simp

@[simp] theorem consume_only (f : FnId) (i : RingId) (entry : Option (List Byte)) (T : List Part) (u s : State) (h0 :
    [.reply, .hdrs, .cores, .ctls, .ledge, .mesh, .hbm, .ctx, .fence, .fab, .host, .glob, .pwr, .sec, .evts, .fresh] ⊆ T) :
    only T u ((consume f i entry s)) ↔ only T u s := by
  refine only_step (T' := [.reply, .hdrs, .cores, .ctls, .ledge, .mesh, .hbm, .ctx, .fence, .fab, .host, .glob, .pwr, .sec, .evts, .fresh]) ?_ h0; unfold consume; dsimp only; (repeat' split) <;> simp

@[simp] theorem readFx_only (who : Party) (b : Blk) (pg off : Nat) (T : List Part) (u s : State) (h0 : [.reply, .hdrs,
    .cores, .mesh, .arbs, .fab, .host, .glob, .pwr, .sec, .dbg, .evts, .drv, .cbus, .hut, .cairn] ⊆ T) :
    only T u ((readFx who b pg off s)) ↔ only T u s := by
  refine only_step (T' := [.reply, .hdrs, .cores, .mesh, .arbs, .fab, .host, .glob, .pwr, .sec, .dbg, .evts, .drv, .cbus, .hut, .cairn]) ?_ h0; unfold readFx; (repeat' split) <;> simp

@[simp] theorem ownerWrite_only (b : Blk) (off : Nat) (v : Word) (T : List Part) (u s : State) (h0 : [.reply, .hdrs, .cores,
    .ctls, .ledge, .mesh, .hbm, .ctx, .fence, .fab, .host, .glob, .pwr, .sec, .dbg, .evts, .thm, .loop, .drv, .cbus, .hut, .cairn] ⊆ T) :
    only T u ((ownerWrite b off v s)) ↔ only T u s := by
  refine only_step (T' := [.reply, .hdrs, .cores, .ctls, .ledge, .mesh, .hbm, .ctx, .fence, .fab, .host, .glob, .pwr, .sec, .dbg, .evts, .thm, .loop, .drv, .cbus, .hut, .cairn]) ?_ h0; unfold ownerWrite; (repeat' split) <;> simp

@[simp] theorem headerWrite_only (m : Word) (pg off : Nat) (v : Word) (T : List Part) (u s : State) (h0 : [.hdrs, .host,
    .glob] ⊆ T) :
    only T u ((headerWrite m pg off v s)) ↔ only T u s := by
  refine only_step (T' := [.hdrs, .host, .glob]) ?_ h0; unfold headerWrite; (repeat' split) <;> simp

@[simp] theorem regWrite_only (who : Party) (b : Blk) (pg off : Nat) (v : Word) (T : List Part) (u s : State) (h0 : [.reply,
    .hdrs, .cores, .ctls, .ledge, .mesh, .hbm, .arbs, .arbSels, .ctx, .fence, .fab, .host, .glob, .pwr, .sec, .dbg, .evts, .thm, .cool, .loop, .drv, .cbus, .hut, .cairn] ⊆ T) :
    only T u ((regWrite who b pg off v s)) ↔ only T u s := by
  refine only_step (T' := [.reply, .hdrs, .cores, .ctls, .ledge, .mesh, .hbm, .arbs, .arbSels, .ctx, .fence, .fab, .host, .glob, .pwr, .sec, .dbg, .evts, .thm, .cool, .loop, .drv, .cbus, .hut, .cairn]) ?_ h0; unfold regWrite; (repeat' split) <;> simp

@[simp] theorem placeFx_only (who : Party) (p : Place) (T : List Part) (u s : State) (h0 : [.reply, .hdrs, .cores, .mesh,
    .arbs, .fab, .host, .glob, .pwr, .sec, .dbg, .evts, .drv, .cbus, .hut, .cairn] ⊆ T) :
    only T u (placeFx who p s) ↔ only T u s := by
  unfold placeFx; split
  · exact readFx_only _ _ _ _ _ _ _ (List.Subset.trans (by simp) h0)
  · rfl

@[simp] theorem placeWrite_only (who : Party) (v : Word) (p : Place) (T : List Part) (u s : State) (h0 : [.reply,
    .hdrs, .cores, .ctls, .ledge, .mesh, .hbm, .arbs, .arbSels, .ctx, .fence, .fab, .host, .glob, .pwr, .sec, .dbg, .evts, .thm, .cool, .loop, .drv, .cbus, .hut, .cairn] ⊆ T) :
    only T u (placeWrite who v p s) ↔ only T u s := by
  unfold placeWrite; split
  · exact regWrite_only _ _ _ _ _ _ _ _ (List.Subset.trans (by simp) h0)
  · exact vecRegWrite_only _ _ _ _ _ _ _ (List.Subset.trans (by simp) h0)
  · rfl

@[simp] theorem readAt_only (who : Party) (off size : Nat) (T : List Part) (u s : State) (h0 : [.reply, .hdrs, .cores, .mesh,
    .arbs, .fab, .host, .glob, .pwr, .sec, .dbg, .evts, .drv, .cbus, .hut, .cairn] ⊆ T) :
    only T u ((readAt who off size s)) ↔ only T u s := by
  refine only_step (T' := [.reply, .hdrs, .cores, .mesh, .arbs, .fab, .host, .glob, .pwr, .sec, .dbg, .evts, .drv, .cbus, .hut, .cairn]) ?_ h0; unfold readAt; (repeat' split) <;> simp

@[simp] theorem registerRead_only (who : Party) (off size : Nat) (T : List Part) (u s : State) (h0 : [.reply, .hdrs, .cores,
    .mesh, .arbs, .fab, .host, .glob, .pwr, .sec, .dbg, .evts, .drv, .cbus, .hut, .cairn] ⊆ T) :
    only T u ((registerRead who off size s)) ↔ only T u s := by
  refine only_step (T' := [.reply, .hdrs, .cores, .mesh, .arbs, .fab, .host, .glob, .pwr, .sec, .dbg, .evts, .drv, .cbus, .hut, .cairn]) ?_ h0; unfold registerRead; (repeat' split) <;> simp

@[simp] theorem writeAt_only (who : Party) (off size : Nat) (v : DWord) (T : List Part) (u s : State) (h0 : [
    .reply, .hdrs, .cores, .ctls, .ledge, .mesh, .hbm, .arbs, .arbSels, .ctx, .fence, .fab, .host, .glob, .pwr, .sec, .dbg, .evts, .thm, .cool, .loop, .drv, .cbus, .hut, .cairn] ⊆ T) :
    only T u ((writeAt who off size v s)) ↔ only T u s := by
  refine only_step (T' := [.reply, .hdrs, .cores, .ctls, .ledge, .mesh, .hbm, .arbs, .arbSels, .ctx, .fence, .fab, .host, .glob, .pwr, .sec, .dbg, .evts, .thm, .cool, .loop, .drv, .cbus, .hut, .cairn]) ?_ h0; unfold writeAt; simp

@[simp] theorem registerWrite_only (who : Party) (off size : Nat) (v : DWord) (T : List Part) (u s : State) (h0 : [
    .reply, .hdrs, .cores, .ctls, .ledge, .mesh, .hbm, .arbs, .arbSels, .ctx, .fence, .fab, .host, .glob, .pwr, .sec, .dbg, .evts, .thm, .cool, .loop, .drv, .cbus, .hut, .cairn] ⊆ T) :
    only T u ((registerWrite who off size v s)) ↔ only T u s := by
  refine only_step (T' := [.reply, .hdrs, .cores, .ctls, .ledge, .mesh, .hbm, .arbs, .arbSels, .ctx, .fence, .fab, .host, .glob, .pwr, .sec, .dbg, .evts, .thm, .cool, .loop, .drv, .cbus, .hut, .cairn]) ?_ h0; unfold registerWrite; (repeat' split) <;> simp

@[simp] theorem readWhat_only (w : ReadWhat) (T : List Part) (u s : State) (h0 : [.reply] ⊆ T) :
    only T u ((readWhat w s)) ↔ only T u s := by
  refine only_step (T' := [.reply]) ?_ h0; unfold readWhat; (repeat' split) <;> simp

@[simp] theorem tick_only  (T : List Part) (u s : State) (h0 : [.env, .cores] ⊆ T) :
    only T u ((tick s)) ↔ only T u s := by
  have key : only [.env, .cores] s ((tick s)) := by
    unfold tick; try dsimp only
    (repeat' first | with_reducible apply only_if | split) <;> first | (simp; done) | (refine forAll_keeps ?_ _ _; intro x t; (try dsimp only); (repeat' split) <;> simp; done) | (refine only_trans ?_ (forAll_keeps (T := [.env, .cores]) (by (intro x t; (try dsimp only); (repeat' split) <;> simp; done)) _ _); simp; done) | (simp; (refine only_trans ?_ (forAll_keeps (T := [.env, .cores]) (by (intro x t; (try dsimp only); (repeat' split) <;> simp; done)) _ _); simp; done)) | (intro p hp; cases p <;> first | rfl | (simp at hp; done)) | (simp; intro p hp; cases p <;> first | rfl | (simp at hp; done)) | simp
  exact only_step key h0

end Sys2Proof.Machine
end

