-- ==== Sys2Proof/Laws/Slots.lean ====
section
/-! SUPPORT. What the rules of contexts and cores leave: the slot tables, the running entry and the count of the slot. -/

set_option linter.all false

namespace Sys2Proof.Machine

/-- The part of the context unit that only the slot commands change (R191, R197–R200). -/
def CtxBlk.tables (b : CtxBlk) : List (FMap SlotEnt) × List (BitVec 7) × Option (BitVec 7) × BitVec 6 × SlotEnt × BitVec 24 × Bool :=
  ([b.live, b.shadow], [b.liveCnt, b.shadowCnt], b.livePend, b.cur, b.curEnt, b.left, b.swap)

@[simp] theorem tables_ctxs (b : CtxBlk) (m : FMap Ctx) : CtxBlk.tables { b with ctxs := m } = b.tables := rfl

@[simp] theorem tables_sqs (b : CtxBlk) (m : FMap SeqSlot) : CtxBlk.tables { b with sqs := m } = b.tables := rfl

@[simp] theorem onCx_tables (s : State) (x : Nat) (f : Ctx → Ctx) : (s.onCx x f).ctx.tables = s.ctx.tables := rfl

@[simp] theorem forAll_tables {α : Type} (f : α → State → State) (h : ∀ x t, (f x t).ctx.tables = t.ctx.tables) :
    ∀ (xs : List α) (s : State), (forAll xs f s).ctx.tables = s.ctx.tables := by
  intro xs; induction xs with
  | nil => intro s; rfl
  | cons a l ih => intro s; exact (ih (f a s)).trans (h a s)

@[simp] theorem ite_tables (c : Prop) [Decidable c] (a b : State) : (if c then a else b).ctx.tables = if c then a.ctx.tables else b.ctx.tables := by
  split <;> rfl

@[simp] theorem when_tables (b : Bool) (f : State → State) (h : ∀ t, (f t).ctx.tables = t.ctx.tables) (s : State) :
    (when b f s).ctx.tables = s.ctx.tables := by
  unfold when; split <;> simp [h]
theorem fold_tables {α β : Type} (f : State × β → α → State × β) (h : ∀ b x, (f b x).1.ctx.tables = b.1.ctx.tables) :
    ∀ (xs : List α) (b : State × β), (xs.foldl f b).1.ctx.tables = b.1.ctx.tables := by
  intro xs; induction xs with
  | nil => intro b; rfl
  | cons a l ih => intro b; exact (ih (f b a)).trans (h b a)

@[simp] theorem physPut_tables (p : Phys) (bs : List Byte) (s : State) :
    (physPut p bs s).ctx.tables = s.ctx.tables := by
  unfold physPut; try dsimp only
  (repeat' split) <;> simp

@[simp] theorem physZero_tables (p : Phys) (n : Nat) (s : State) :
    (physZero p n s).ctx.tables = s.ctx.tables := by
  unfold physZero; try dsimp only
  (repeat' split) <;> simp

@[simp] theorem gwrite_tables (x : Nat) (space o : Nat) (bs : List Byte) (s : State) :
    (gwrite x space o bs s).ctx.tables = s.ctx.tables := by
  unfold gwrite; split
  · split <;> simp
  · exact forAll_tables _ (by intro x t; dsimp only; (repeat' split) <;> simp) _ _

@[simp] theorem gaWrite_tables (x : Nat) (a : DWord) (bs : List Byte) (s : State) :
    (gaWrite x a bs s).ctx.tables = s.ctx.tables := by
  unfold gaWrite; try dsimp only
  (repeat' split) <;> simp

@[simp] theorem onBank_tables (g : Nat) (f : LBank → LBank) (s : State) :
    (onBank g f s).ctx.tables = s.ctx.tables := by
  unfold onBank; try dsimp only
  (repeat' split) <;> simp

@[simp] theorem retireBank_tables (g : Nat) (s : State) :
    (retireBank g s).ctx.tables = s.ctx.tables := by
  unfold retireBank; try dsimp only
  (repeat' split) <;> simp

@[simp] theorem countBankFail_tables (g : Nat) (s : State) :
    (countBankFail g s).ctx.tables = s.ctx.tables := by
  unfold countBankFail; try dsimp only
  (repeat' split) <;> simp

@[simp] theorem onPc_tables (q : Nat) (f : PChan → PChan) (s : State) :
    (onPc q f s).ctx.tables = s.ctx.tables := by
  unfold onPc; try dsimp only
  (repeat' split) <;> simp

@[simp] theorem retirePc_tables (q : Nat) (s : State) :
    (retirePc q s).ctx.tables = s.ctx.tables := by
  unfold retirePc; try dsimp only
  (repeat' split) <;> simp

@[simp] theorem countPcFail_tables (q : Nat) (s : State) :
    (countPcFail q s).ctx.tables = s.ctx.tables := by
  unfold countPcFail; try dsimp only
  (repeat' split) <;> simp

@[simp] theorem countUnitFail_tables (u : MemUnit) (s : State) :
    (countUnitFail u s).ctx.tables = s.ctx.tables := by
  unfold countUnitFail; try dsimp only
  (repeat' split) <;> simp

@[simp] theorem countFailed_tables (s : State) :
    (countFailed s).ctx.tables = s.ctx.tables := by
  unfold countFailed; try dsimp only
  (repeat' split) <;> simp

@[simp] theorem failedRead_tables (x space o n : Nat) (s : State) :
    (failedRead x space o n s).ctx.tables = s.ctx.tables := by
  unfold failedRead; try dsimp only
  (repeat' split) <;> simp

@[simp] theorem requeue_tables (js : List PitchJob) (s : State) :
    (requeue js s).ctx.tables = s.ctx.tables := by
  unfold requeue; refine forAll_tables _ ?_ _ _; intro j t; rfl

@[simp] theorem unpend_tables (c : Nat) (s : State) :
    (unpend c s).ctx.tables = s.ctx.tables := by
  unfold unpend; try dsimp only
  (repeat' split) <;> simp

@[simp] theorem wipeOwned_tables (x : Nat) (s : State) :
    (wipeOwned x s).ctx.tables = s.ctx.tables := by
  unfold wipeOwned; try dsimp only
  (repeat' split) <;> simp

@[simp] theorem dropPages_tables (x : Nat) (s : State) :
    (dropPages x s).ctx.tables = s.ctx.tables := by
  unfold dropPages; try dsimp only
  (repeat' split) <;> simp

@[simp] theorem eraseSeal_tables (x : Nat) (s : State) :
    (eraseSeal x s).ctx.tables = s.ctx.tables := by
  unfold eraseSeal; try dsimp only
  (repeat' split) <;> simp

@[simp] theorem startScrub_tables (x : Nat) (s : State) :
    (startScrub x s).ctx.tables = s.ctx.tables := by
  unfold startScrub; try dsimp only
  (repeat' split) <;> simp

@[simp] theorem checkDrain_tables (x : Nat) (s : State) :
    (checkDrain x s).ctx.tables = s.ctx.tables := by
  unfold checkDrain; try dsimp only
  (repeat' split) <;> simp

@[simp] theorem startRun_tables (c : Nat) (j : PitchJob) (fetched : Bool) (s : State) :
    (startRun c j fetched s).ctx.tables = s.ctx.tables := by
  unfold startRun; try dsimp only
  (repeat' split) <;> simp

@[simp] theorem startNext_tables (c : Nat) (s : State) :
    (startNext c s).ctx.tables = s.ctx.tables := by
  unfold startNext; try dsimp only
  (repeat' split) <;> simp

@[simp] theorem wipePlanned_tables (s : State) :
    (wipePlanned s).ctx.tables = s.ctx.tables := by
  unfold wipePlanned; try dsimp only
  (repeat' split) <;> simp

@[simp] theorem fenceCore_tables (c : Nat) (s : State) :
    (fenceCore c s).ctx.tables = s.ctx.tables := by
  unfold fenceCore; try dsimp only
  (repeat' split) <;> simp

@[simp] theorem fenceIfDue_tables (c : Nat) (s : State) :
    (fenceIfDue c s).ctx.tables = s.ctx.tables := by
  unfold fenceIfDue; try dsimp only
  (repeat' split) <;> simp

@[simp] theorem endRun_tables (c : Nat) (st : Status) (faultPc : BitVec 16) (s : State) :
    (endRun c st faultPc s).ctx.tables = s.ctx.tables := by
  unfold endRun; try dsimp only
  (repeat' split) <;> simp

@[simp] theorem stopRun_tables (c : Nat) (counted : Bool) (source : Nat) (s : State) :
    (stopRun c counted source s).ctx.tables = s.ctx.tables := by
  unfold stopRun; try dsimp only
  (repeat' split) <;> simp

@[simp] theorem pumpTx_tables (p : Nat) (s : State) :
    (pumpTx p s).ctx.tables = s.ctx.tables := by
  unfold pumpTx; try dsimp only
  (repeat' split) <;> simp

@[simp] theorem queueOn_tables (p : Nat) (b : FabBlock) (origin : Option CtxId) (s : State) :
    (queueOn p b origin s).ctx.tables = s.ctx.tables := by
  unfold queueOn; try dsimp only
  (repeat' split) <;> simp

@[simp] theorem freeBuf_tables (inPort : Option PortId) (b : FabBlock) (s : State) :
    (freeBuf inPort b s).ctx.tables = s.ctx.tables := by
  unfold freeBuf; try dsimp only
  (repeat' split) <;> simp

@[simp] theorem recordReturn_tables (x : CtxId) (node : BitVec 16) (job : BitVec 12) (ch : BitVec 4) (vl : BitVec 2) (reason : BitVec 4) (unknown : Bool) (s : State) :
    (recordReturn x node job ch vl reason unknown s).ctx.tables = s.ctx.tables := by
  unfold recordReturn; try dsimp only
  (repeat' split) <;> simp

@[simp] theorem endCopy_tables (w : WinCopy) (st : Status) (s : State) :
    (endCopy w st s).ctx.tables = s.ctx.tables := by
  unfold endCopy; try dsimp only
  (repeat' split) <;> simp

@[simp] theorem takeReturn_tables (b : FabBlock) (s : State) :
    (takeReturn b s).ctx.tables = s.ctx.tables := by
  unfold takeReturn; try dsimp only
  (repeat' split) <;> simp

@[simp] theorem answered_tables (w : WinCopy) (k : Nat) (s : State) :
    (answered w k s).ctx.tables = s.ctx.tables := by
  unfold answered; try dsimp only
  (repeat' split) <;> simp

@[simp] theorem takeAck_tables (b : FabBlock) (s : State) :
    (takeAck b s).ctx.tables = s.ctx.tables := by
  unfold takeAck; try dsimp only
  (repeat' split) <;> simp

@[simp] theorem takeRdd_tables (b : FabBlock) (s : State) :
    (takeRdd b s).ctx.tables = s.ctx.tables := by
  unfold takeRdd; try dsimp only
  (repeat' split) <;> simp

@[simp] theorem sendBack_tables (b : FabBlock) (s : State) :
    (sendBack b s).ctx.tables = s.ctx.tables := by
  unfold sendBack; try dsimp only
  (repeat' split) <;> simp

@[simp] theorem sendReturn_tables (b : FabBlock) (reason : Nat) (inPort : Option PortId) (s : State) :
    (sendReturn b reason inPort s).ctx.tables = s.ctx.tables := by
  unfold sendReturn; try dsimp only
  (repeat' split) <;> simp

@[simp] theorem putLines_tables (x ch : Nat) (b : FabBlock) (s : State) :
    (putLines x ch b s).ctx.tables = s.ctx.tables := by
  unfold putLines; try dsimp only
  (repeat' split) <;> simp

@[simp] theorem drainChan_tables : ∀ (n x ch : Nat) (s : State), (drainChan n x ch s).ctx.tables = s.ctx.tables
  | 0, _, _, _ => rfl
  | n + 1, x, ch, s => by
    unfold drainChan; dsimp only; split
    · rfl
    · split
      · rw [drainChan_tables n]; simp
      · rfl

@[simp] theorem deliverData_tables (b : FabBlock) (inPort : Option PortId) (s : State) :
    (deliverData b inPort s).ctx.tables = s.ctx.tables := by
  unfold deliverData; try dsimp only
  (repeat' split) <;> simp

@[simp] theorem takeWinWr_tables (b : FabBlock) (inPort : Option PortId) (s : State) :
    (takeWinWr b inPort s).ctx.tables = s.ctx.tables := by
  unfold takeWinWr; try dsimp only
  (repeat' split) <;> simp

@[simp] theorem takeWinRd_tables (b : FabBlock) (inPort : Option PortId) (s : State) :
    (takeWinRd b inPort s).ctx.tables = s.ctx.tables := by
  unfold takeWinRd; try dsimp only
  (repeat' split) <;> simp

@[simp] theorem emit_tables (b : FabBlock) (origin : Option CtxId) (inPort : Option PortId) (s : State) :
    (emit b origin inPort s).st.ctx.tables = s.ctx.tables := by
  unfold emit; try dsimp only
  (repeat' split) <;> simp

@[simp] theorem publishOut_tables (c : Nat) (r : Run) (m : OutMove) (s : State) :
    (publishOut c r m s).ctx.tables = s.ctx.tables := by
  unfold publishOut; try dsimp only
  (repeat' split) <;> simp

@[simp] theorem publishSnd_tables (c : Nat) (r : Run) (m : SndMove) (s : State) :
    (publishSnd c r m s).1.ctx.tables = s.ctx.tables := by
  unfold publishSnd; exact fold_tables _ (by intro b x; simp) _ _ 

@[simp] theorem publishReads_tables (r : Run) (s : State) :
    (publishReads r s).ctx.tables = s.ctx.tables := by
  unfold publishReads; try dsimp only
  (repeat' split) <;> simp

@[simp] theorem publishSig_tables (x : Nat) (e : BitVec 6 × BitVec 16) (s : State) :
    (publishSig x e s).ctx.tables = s.ctx.tables := by
  unfold publishSig; try dsimp only
  (repeat' split) <;> simp

@[simp] theorem publish_tables (c : Nat) (r : Run) (s : State) :
    (publish c r s).ctx.tables = s.ctx.tables := by
  unfold publish; dsimp only; simp only [endRun_tables, publishReads_tables]; rw [forAll_tables _ (by intro x t; simp), publishReads_tables]
  refine (fold_tables _ (by intro b x; simp) _ _).trans ?_; exact forAll_tables _ (by intro x t; simp) _ _

@[simp] theorem commit_tables (c : Nat) (s : State) :
    (commit c s).ctx.tables = s.ctx.tables := by
  unfold commit; try dsimp only
  (repeat' split) <;> simp

@[simp] theorem placeReissue_tables (j : PitchJob) (l : Nat) (s : State) :
    (placeReissue j l s).ctx.tables = s.ctx.tables := by
  unfold placeReissue; try dsimp only
  (repeat' split) <;> simp

@[simp] theorem reissue_tables (j : PitchJob) (s : State) :
    (reissue j s).ctx.tables = s.ctx.tables := by
  unfold reissue; try dsimp only
  (repeat' split) <;> simp

@[simp] theorem retryWaiting_tables (s : State) :
    (retryWaiting s).ctx.tables = s.ctx.tables := by
  unfold retryWaiting; try dsimp only
  (repeat' split) <;> simp

@[simp] theorem abortAll_tables (js : List PitchJob) (s : State) :
    (abortAll js s).ctx.tables = s.ctx.tables := by
  unfold abortAll; try dsimp only
  (repeat' split) <;> simp

@[simp] theorem pullSaved_tables (x : Nat) (sel : Nat → Bool) (s : State) :
    (pullSaved x sel s).1.ctx.tables = s.ctx.tables := by
  unfold pullSaved; try dsimp only
  (repeat' split) <;> simp

@[simp] theorem applyMap_tables (x : Nat) (s : State) :
    (applyMap x s).ctx.tables = s.ctx.tables := by
  unfold applyMap; simp only [onCx_tables]; exact forAll_tables _ (by intro x t; (repeat' split) <;> simp) _ _

@[simp] theorem stopSaved_tables (c : Nat) (js : List PitchJob) (s : State) :
    (stopSaved c js s).ctx.tables = s.ctx.tables := by
  unfold stopSaved; try dsimp only
  (repeat' split) <;> simp

@[simp] theorem loseCore_tables (x l : Nat) (empty : Bool) (s : State) :
    (loseCore x l empty s).ctx.tables = s.ctx.tables := by
  unfold loseCore; try dsimp only
  (repeat' split) <;> simp

@[simp] theorem applyWaiting_tables (x : Nat) (s : State) :
    (applyWaiting x s).ctx.tables = s.ctx.tables := by
  unfold applyWaiting; try dsimp only
  (repeat' split) <;> simp

@[simp] theorem freeSlots_tables (s : State) :
    (freeSlots s).ctx.tables = s.ctx.tables := by
  unfold freeSlots; try dsimp only
  (repeat' split) <;> simp

@[simp] theorem promote_tables (s : State) :
    (promote s).ctx.tables = s.ctx.tables := by
  unfold promote; try dsimp only
  (repeat' split) <;> simp

@[simp] theorem reduceOne_tables (f : Nat) (s : State) :
    (reduceOne f s).ctx.tables = s.ctx.tables := by
  unfold reduceOne; dsimp only; simp only [capChange_same, campEvent_same, onFence_ctx]
  split
  all_goals (try simp only [onCtl_same]); refine (forAll_tables _ ?_ _ _).trans (forAll_tables _ ?_ _ _)
  all_goals intro x t
  all_goals first | rfl | simp

@[simp] theorem shrink_tables : ∀ (n : Nat) (s : State), (shrink n s).ctx.tables = s.ctx.tables
  | 0, _ => rfl
  | n + 1, s => by
    unfold shrink; split
    · rfl
    · rw [shrink_tables n]; simp

@[simp] theorem switchOut_tables (c l : Nat) (s : State) :
    (switchOut c l s).ctx.tables = s.ctx.tables := by
  unfold switchOut; try dsimp only
  (repeat' split) <;> simp

@[simp] theorem switchCore_tables (c : Nat) (new : Option CtxId) (s : State) :
    (switchCore c new s).ctx.tables = s.ctx.tables := by
  unfold switchCore; try dsimp only
  (repeat' split) <;> simp

@[simp] theorem switchCores_tables (s : State) :
    (switchCores s).ctx.tables = s.ctx.tables := by
  unfold switchCores; try dsimp only
  (repeat' split) <;> simp
end Sys2Proof.Machine
end

