-- ==== Sys2Proof/Laws/Host.lean ====
section
/-! SUPPORT. What the delivery of records and of interrupts leaves of a function's rings, and how to read what a command left. -/

set_option linter.all false

namespace Sys2Proof.Machine

open Sys2Proof.Safety

/-- A part that a command does not touch is unchanged. -/
theorem kept {T : List Part} {s t : State} (p : Part) (h : only T s t) (hp : p ∉ T := by simp) : Part.same s t p := h p hp

theorem cx_congr {s t : State} {x : Nat} (h : t.ctx = s.ctx) : t.cx x = s.cx x := by simp only [State.cx, h]

theorem hdr_congr {s t : State} {p : Nat} (h : t.hdrs = s.hdrs) : t.hdr p = s.hdr p := by simp only [State.hdr, h]

theorem fc_eq {src : CmdSrc} {x : CtxId} {s : State} {act : CtxId → State → State} (h : src.fn.val = x.val + 1) (he : (s.cx x.val).st = .enabled) : forContext src act s = act x s := by
  have e : (Fin.ofNat 16 (src.fn.val - 1) : CtxId) = x := by
    apply Fin.ext; simp [h]
  simp only [forContext, h, Nat.add_sub_cancel]
  have : (Fin.ofNat 16 x.val : CtxId) = x := by apply Fin.ext; simp
  simp [this, he]
theorem sendVec_fn (f v g : Nat) (s : State) : (sendVec f v s).fn g = { s.fn g with vecs := ((sendVec f v s).fn g).vecs } := by
  unfold sendVec; rw [fn_onFn]; split <;> simp_all
theorem pendSource_fn (n g : Nat) (s : State) : (pendSource n s).fn g = { s.fn g with vecs := ((pendSource n s).fn g).vecs } := by
  have h : ∀ (q : GlobBlk → GlobBlk) (t : State), (t.onGlob q).fn g = t.fn g := fun _ _ => rfl
  unfold pendSource; dsimp only; split
  · rw [sendVec_fn]; simp only [h]
  · simp only [h]
theorem signalPage_fn (p g : Nat) (s : State) : (signalPage p s).fn g = { s.fn g with vecs := ((signalPage p s).fn g).vecs } := by
  unfold signalPage; (repeat' split)
  · exact pendSource_fn _ _ _
  · exact sendVec_fn _ _ _ _
  · rfl
  all_goals first | rfl | exact pendSource_fn _ _ _ | exact sendVec_fn _ _ _ _
theorem raiseBits_fn (p : Nat) (b : Word) (g : Nat) (s : State) : (raiseBits p b s).fn g = { s.fn g with vecs := ((raiseBits p b s).fn g).vecs } := by
  have h : ∀ q t, (State.onHdr p q t).fn g = t.fn g := fun _ _ => rfl
  unfold raiseBits; dsimp only; split
  · rw [signalPage_fn]; simp only [h]
  · simp only [h]
theorem raise_fn (p n g : Nat) (s : State) : (raise p n s).fn g = { s.fn g with vecs := ((raise p n s).fn g).vecs } := raiseBits_fn p _ g s
theorem deliver_fn (f g : Nat) (r : HoldRec) (s : State) : (deliver f r s).fn g = { (if g = f then { s.fn f with hold := (s.fn f).hold ++ [r] } else s.fn g) with vecs := ((deliver f r s).fn g).vecs } := by
  unfold deliver; dsimp only [when]; split
  · rw [raise_fn, fn_onFn]
  · rw [fn_onFn]
theorem sq_eq (f i : Nat) (s : State) : s.sq f i = fget {} (s.fn f).sqs i := rfl

theorem onHost_mem_fn (s : State) (f : HostBlk → List Host.Cell) (g : Nat) :
    (s.onHost (fun h => { h with mem := f h })).fn g = s.fn g := rfl

@[simp] theorem setPage_page (s : State) (k : Nat) (q : WinPage) : (s.setPage k q).page k = q := by simp [State.page, State.setPage, fget_fput]
theorem sendVec_host (f v : Nat) (s : State) : (sendVec f v s).host = { s.host with fns := (sendVec f v s).host.fns } := rfl

theorem pendSource_host (n : Nat) (s : State) : (pendSource n s).host = { s.host with fns := (pendSource n s).host.fns } := by
  unfold pendSource; dsimp only; split <;> rfl

theorem signalPage_host (p : Nat) (s : State) : (signalPage p s).host = { s.host with fns := (signalPage p s).host.fns } := by
  unfold signalPage; (repeat' split)
  all_goals first | exact pendSource_host _ _ | rfl

theorem raise_host (p n : Nat) (s : State) : (raise p n s).host = { s.host with fns := (raise p n s).host.fns } := by
  unfold raise raiseBits; dsimp only; split
  · exact signalPage_host _ _
  · rfl

/-! #### What a completion leaves of the pages' headers -/

theorem deliver_hdr (f q : Nat) (r : HoldRec) (s : State) (h : q ≠ fnPage f) : (deliver f r s).hdr q = s.hdr q := by
  unfold deliver; dsimp only [when]; split
  · rw [raise_hdr, if_neg h]; rfl
  · rfl

theorem closeCmd_hdr (c : CmdSrc) (k q : Nat) (bs : List Byte) (s : State) (h : q ≠ fnPage c.fn.val) : (closeCmd c k bs s).hdr q = s.hdr q :=
  deliver_hdr _ _ _ _ h

theorem drainNops_hdr (f i q : Nat) (h : ∀ g : FnId, q ≠ fnPage g.val) : ∀ n s, (drainNops n f i s).hdr q = s.hdr q := by
  intro n; induction n with
  | zero => intro s; rfl
  | succ n ih =>
    intro s; unfold drainNops; split
    · rfl
    · split
      · rfl
      · dsimp only; rw [ih, closeCmd_hdr _ _ _ _ _ (h _)]; rfl

theorem finish_hdr (c : CmdSrc) (k q : Nat) (bs : List Byte) (s : State) (h : ∀ g : FnId, q ≠ fnPage g.val) : (finish c k bs s).hdr q = s.hdr q := by
  unfold finish; dsimp only; rw [drainNops_hdr _ _ _ h, closeCmd_hdr _ _ _ _ _ (h _)]

theorem finishGeneric_hdr (c : CmdSrc) (st : Status) (v q : Nat) (s : State) (h : ∀ g : FnId, q ≠ fnPage g.val) :
    (finishGeneric c st v s).hdr q = s.hdr q := by
  have e : ∀ r t, (State.setReply r t).hdr q = t.hdr q := fun _ _ => rfl
  unfold finishGeneric; rw [e, finish_hdr _ _ _ _ _ h]

/-! #### Loops -/

/-- A loop over the numbers below `n` in which each round changes one entry of a table: what each entry becomes. -/
theorem forAll_range_at {β : Type} (g : State → Nat → β) (f : Nat → State → State) (F : Nat → β → β)
    (hne : ∀ x t y, y ≠ x → g (f x t) y = g t y) (hx : ∀ x t, g (f x t) x = F x (g t x)) (s : State) :
    ∀ n y, g (forAll (List.range n) f s) y = if y < n then F y (g s y) else g s y := by
  intro n; induction n with
  | zero => intro y; simp [forAll]
  | succ n ih =>
    intro y
    have e : forAll (List.range (n + 1)) f s = f n (forAll (List.range n) f s) := by
      simp [forAll, List.range_succ, List.foldl_append]
    rw [e]
    by_cases h : y = n
    · subst h; rw [hx, ih, if_neg (by omega), if_pos (by omega)]
    · rw [hne _ _ _ h, ih]
      by_cases h' : y < n
      · rw [if_pos h', if_pos (by omega)]
      · rw [if_neg h', if_neg (by omega)]

/-- A loop keeps what each of its rounds keeps. -/
theorem forAll_same {α β : Type} (g : State → β) (f : α → State → State) (h : ∀ x t, g (f x t) = g t) (xs : List α) (s : State) :
    g (forAll xs f s) = g s := by
  unfold forAll; induction xs generalizing s with
  | nil => rfl
  | cons a l ih => simp only [List.foldl_cons]; rw [ih, h]

end Sys2Proof.Machine
end

