-- ==== Sys2Proof/Laws/Plant.lean ====
section
/-! SUPPORT. What the supervisor, the pumps, the heartbeat and a module reset leave, each said once. -/

set_option linter.all false

/- One theorem at a time: the threads of many at once take more memory than a check may use. -/
set_option Elab.async false

namespace Sys2Proof.Machine

open Sys2Proof.Safety

theorem onSensor_sensor (s : State) (k j : Nat) (f : Sensor → Sensor) : (s.onSensor k f).sensor j = if j = k then f (s.sensor k) else s.sensor j := by
  simp only [State.sensor, State.onSensor, onThm_thm, fget_fput]

theorem sensor_congr {s t : State} (k : Nat) (h : t.thm.sensors = s.thm.sensors) : t.sensor k = s.sensor k := by simp only [State.sensor, h]

theorem ctl_congr {s t : State} (k : Nat) (h : t.ctls = s.ctls) : t.ctl k = s.ctl k := by simp only [State.ctl, h]

theorem forAll_map {α β : Type} (g : α → β) (f : β → State → State) (xs : List α) (s : State) : forAll (xs.map g) f s = forAll xs (fun a t => f (g a) t) s := by
  unfold forAll; rw [List.foldl_map]

/-- A record of Cairn changes the hut book and its counts alone. -/
theorem cairnEvent_cool (c v : Nat) (a : List Byte) (s : State) : (cairnEvent c v a s).cool = s.cool := kept .cool (T := [.hdrs, .hut]) (by simp)

theorem cairnEvent_cairn (c v : Nat) (a : List Byte) (s : State) : (cairnEvent c v a s).cairn = s.cairn := kept .cairn (T := [.hdrs, .hut]) (by simp)

theorem cairnEvent_env (c v : Nat) (a : List Byte) (s : State) : (cairnEvent c v a s).env = s.env := kept .env (T := [.hdrs, .hut]) (by simp)

/-- What the supervisor's change of state leaves. -/
theorem coolSet_cool (st : CoolSt) (s : State) : (coolSet st s).cool = { s.cool with st := st } := by
  have ht : ∀ n (t : State), (thmRaise n t).cool = t.cool := fun n t => kept .cool (T := [.hdrs, .host, .glob]) (by simp)
  have he : ∀ n (t : State), (endInjection n t).cool = t.cool := fun n t => kept .cool (T := [.hdrs, .host, .glob, .loop, .hut]) (by simp)
  unfold coolSet; extract_lets old s1 s2
  split
  · next h => rw [h]
  · have h1 : s1.cool = { s.cool with st := st } := by rw [ht]; rfl
    have h2 : s2.cool = s1.cool := by simp only [s2]; split <;> [exact cairnEvent_cool _ _ _ _; (split <;> [exact cairnEvent_cool _ _ _ _; rfl])]
    split
    · rw [he, h2, h1]
    · rw [h2, h1]

theorem coolSet_same (st : CoolSt) (s : State) : (coolSet st s).env = s.env ∧ (coolSet st s).cairn = s.cairn ∧ (coolSet st s).pwr = s.pwr ∧ (coolSet st s).cores = s.cores :=
  ⟨kept .env (T := [.hdrs, .host, .glob, .cool, .loop, .hut]) (by simp), kept .cairn (T := [.hdrs, .host, .glob, .cool, .loop, .hut]) (by simp),
   kept .pwr (T := [.hdrs, .host, .glob, .cool, .loop, .hut]) (by simp), kept .cores (T := [.hdrs, .host, .glob, .cool, .loop, .hut]) (by simp)⟩

theorem drvOnly_cool {s t : State} (h : only [.drv] s t) : t.cool = s.cool := h .cool (by simp)

theorem drvOnly_env {s t : State} (h : only [.drv] s t) : t.env = s.env := h .env (by simp)

theorem drvOnly_cairn {s t : State} (h : only [.drv] s t) : t.cairn = s.cairn := h .cairn (by simp)

theorem pumpsLoop_cool (s : State) : (pumpsLoop s).cool = { s.cool with maxed := [] } := by
  unfold pumpsLoop
  show ({ (forAll s.cool.maxed (fun m t => motorMode m 2 t) s).cool with maxed := [] } : CoolSup) = _
  rw [drvOnly_cool (by simp : only [.drv] s (forAll s.cool.maxed (fun m t => motorMode m 2 t) s))]

theorem pumpsMax_cool (s : State) : (pumpsMax s).cool = { s.cool with maxed := pumpNums s } := by
  unfold pumpsMax
  show ({ (forAll (pumpNums s) (fun m t => motorMode m 3 t) s).cool with maxed := pumpNums s } : CoolSup) = _
  rw [drvOnly_cool (by simp : only [.drv] s (forAll (pumpNums s) (fun m t => motorMode m 3 t) s))]

theorem pumpsSafe_keeps (s : State) : only [.cool, .drv] s (pumpsSafe s) := by simp

theorem pumpsSafe_cool (s : State) : (pumpsSafe s).cool = { s.cool with maxed := [] } := by
  unfold pumpsSafe
  generalize hu : forAll _ _ s = u
  have : only [.drv] s u := by rw [← hu]; refine forAll_keeps ?_ _ _; intro m t; (try dsimp only); split <;> simp
  show ({ u.cool with maxed := [] } : CoolSup) = _
  rw [drvOnly_cool this]

/-- What the start of a proof leaves. -/
theorem beginProof_fields (s : State) : (beginProof s).cool = { s.cool with st := .proving, window := none, proofFailed := false, proofTs := s.env.ts } ∧
    (beginProof s).pwr = { s.pwr with caps := { s.pwr.caps with cool := 0 } } := by
  unfold beginProof; extract_lets s1
  have h : only [.drv] (coolSet .proving s) s1 := by simp only [s1]; simp
  have h1 : s1.cool = { s.cool with st := .proving } := by rw [drvOnly_cool h, coolSet_cool]
  have h2 : s1.pwr = s.pwr := (h .pwr (by simp)).trans (coolSet_same _ _).2.2.1
  clear_value s1
  refine ⟨?_, ?_⟩
  · show ({ s1.cool with window := none, proofFailed := false, proofTs := s.env.ts } : CoolSup) = _; rw [h1]
  · show ({ s1.pwr with caps := { s1.pwr.caps with cool := 0 } } : PwrBlk) = _; rw [h2]

/-- What a heartbeat leaves. -/
theorem heartbeat_fields (seq : BitVec 16) (s : State) : (heartbeat seq s).pwr.committed = s.pwr.caps ∧ (heartbeat seq s).pwr.caps = s.pwr.caps ∧ (heartbeat seq s).pwr.hbSeq = seq ∧ (heartbeat seq s).pwr.hbTs = some s.env.tsCopy := by
  have hm : ∀ p : PwrBlk, (updateMeter p).1.committed = p.committed ∧ (updateMeter p).1.caps = p.caps ∧ (updateMeter p).1.hbSeq = p.hbSeq ∧ (updateMeter p).1.hbTs = p.hbTs := by
    intro p; unfold updateMeter; extract_lets ms ds em ed q sat
    split
    · exact ⟨rfl, rfl, rfl, rfl⟩
    · split <;> exact ⟨rfl, rfl, rfl, rfl⟩
  have hp : ∀ c v (t : State), (pwrEvent c v t).pwr = t.pwr := by intro c v t; unfold pwrEvent; simp
  have hr : ∀ c v (t : State), (raise c v t).pwr = t.pwr := by intro c v t; simp
  unfold heartbeat; extract_lets p good
  obtain ⟨a, b, c, d⟩ := hm { p with committed := p.caps, hbSeq := seq, hbTs := some s.env.tsCopy, hbGood := good }
  generalize updateMeter _ = u at *
  dsimp only; split
  · rw [hp, hr]; exact ⟨a, b, c, d⟩
  · exact ⟨a, b, c, d⟩

theorem heartbeat_thm (seq : BitVec 16) (s : State) : (heartbeat seq s).thm = s.thm := kept .thm (T := [.hdrs, .host, .glob, .pwr, .evts]) (by simp)

/-- What a module reset leaves. -/
theorem moduleReset_fields (s : State) : (moduleReset s).env.rails = false ∧ (moduleReset s).cores = [] ∧ (moduleReset s).env.ts = s.env.ts := by
  refine ⟨rfl, rfl, ?_⟩
  show (applyModuleReset s).env.ts = _
  rw [(kept .env (T := [.cool, .drv, .loop, .fab, .cairn, .thm, .pwr, .sec]) (by simp) : (applyModuleReset s).env = s.env)]

theorem applyModuleReset_cairn (s : State) : (applyModuleReset s).cairn = { s.cairn with
    inforce := s.cairn.cur, policy := policyOf s.cairn.cur.entries, cfgIdx := 0 } := by
  unfold applyModuleReset; extract_lets g p changed s1 s2
  have h2 : s2.cairn = s1.cairn := by
    simp only [s2]; split
    · exact kept .cairn (T := [.drv, .loop]) (by simp)
    · rfl
  show (applyAgeing g.entries s2).cairn = _
  rw [(kept .cairn (T := [.drv]) (by simp) : (applyAgeing g.entries s2).cairn = s2.cairn), h2]; rfl

theorem moduleReset_cairn (s : State) : (moduleReset s).cairn = { s.cairn with
    inforce := s.cairn.cur, policy := policyOf s.cairn.cur.entries, cfgIdx := 0, campRun := false, campRecovery := false } := by
  show ({ (applyModuleReset s).cairn with campRun := false, campRecovery := false } : CairnBlk) = _
  rw [applyModuleReset_cairn]

theorem moduleReset_cool (s : State) : (moduleReset s).cool = { s.cool with marks := [] } := by
  show ({ (applyModuleReset s).cool with marks := [] } : CoolSup) = _
  rw [(kept .cool (T := [.sec, .loop, .drv, .cairn]) (by simp) : (applyModuleReset s).cool = s.cool)]

theorem moduleReset_env (s : State) : (moduleReset s).env = { s.env with rails := false, dieUp := false } := by
  show ({ (applyModuleReset s).env with rails := false, dieUp := false } : Env) = _
  rw [(kept .env (T := [.sec, .loop, .drv, .cairn]) (by simp) : (applyModuleReset s).env = s.env)]

/-! ### What passes by a record, an interrupt or an error count -/

theorem slot_congr {s t : State} (k : Nat) (h : t.loop.slots = s.loop.slots) : t.slot k = s.slot k := by simp only [State.slot, h]
theorem valve_congr {s t : State} (k : Nat) (h : t.drv.valves = s.drv.valves) : t.valve k = s.valve k := by simp only [State.valve, h]
theorem motor_congr {s t : State} (k : Nat) (h : t.drv.motors = s.drv.motors) : t.motor k = s.motor k := by simp only [State.motor, h]
theorem input_congr {s t : State} (k : Nat) (h : t.drv.inputs = s.drv.inputs) : t.input k = s.input k := by simp only [State.input, h]
theorem rope_congr {s t : State} (k : Nat) (h : t.drv.ropes = s.drv.ropes) : t.rope k = s.rope k := by simp only [State.rope, h]
theorem can_congr {s t : State} (k : Nat) (h : t.cbus.ifs = s.cbus.ifs) : t.can k = s.can k := by simp only [State.can, h]
theorem input_onInput (s : State) (n m : Nat) (f : Input → Input) : (s.onInput n f).input m = if m = n then f (s.input n) else s.input m :=
  fget_fput ({} : Input) n m (f (s.input n)) s.drv.inputs
theorem rope_onRope (s : State) (n m : Nat) (f : Rope → Rope) : (s.onRope n f).rope m = if m = n then f (s.rope n) else s.rope m :=
  fget_fput ({} : Rope) n m (f (s.rope n)) s.drv.ropes
@[simp] theorem cairnEvent_loop (c v : Nat) (a : List Byte) (s : State) : (cairnEvent c v a s).loop = s.loop := kept .loop (T := [.hdrs, .hut]) (by simp)
@[simp] theorem cairnEvent_drv (c v : Nat) (a : List Byte) (s : State) : (cairnEvent c v a s).drv = s.drv := kept .drv (T := [.hdrs, .hut]) (by simp)
@[simp] theorem cairnEvent_cbus (c v : Nat) (a : List Byte) (s : State) : (cairnEvent c v a s).cbus = s.cbus := kept .cbus (T := [.hdrs, .hut]) (by simp)
@[simp] theorem cairnCount_loop (c v : Nat) (s : State) : (cairnCount c v s).loop = s.loop := kept .loop (T := [.hdrs, .hut]) (by simp)
@[simp] theorem raise_loop' (p n : Nat) (s : State) : (raise p n s).loop = s.loop := kept .loop (T := [.hdrs, .host, .glob]) (by simp)
@[simp] theorem raise_drv' (p n : Nat) (s : State) : (raise p n s).drv = s.drv := kept .drv (T := [.hdrs, .host, .glob]) (by simp)
@[simp] theorem errPerm_loop' (p : Nat) (s : State) : (errPerm p s).loop = s.loop := rfl
@[simp] theorem errPerm_drv' (p : Nat) (s : State) : (errPerm p s).drv = s.drv := rfl
@[simp] theorem errTrans_loop' (p : Nat) (s : State) : (errTrans p s).loop = s.loop := rfl
@[simp] theorem errTrans_drv' (p : Nat) (s : State) : (errTrans p s).drv = s.drv := rfl

/-- A record of Cairn counts on the page of the log alone. -/
theorem cairnEvent_hdr (c v q : Nat) (a : List Byte) (s : State) (h : q ≠ pgLog) : (cairnEvent c v a s).hdr q = s.hdr q := by
  have hc : ∀ (w : BitVec 16) (ts : DWord) (b : Bool) (t : State), (hutCount c w ts b t).hdr q = t.hdr q := by
    intro w ts b t; unfold hutCount; dsimp only; unfold when; split
    · rw [errTrans_hdr, if_neg h]; rfl
    · rfl
  have hr : ∀ (w : BitVec 16) (ts : DWord) (b b' : Bool) (t : State), (hutRecord c w ts b b' a t).hdr q = t.hdr q := fun _ _ _ _ _ => rfl
  unfold cairnEvent hutAt; dsimp only; split
  · rfl
  · rw [if_neg (by simp)]; split
    · rw [hr]; exact hc _ _ _ _
    · exact hc _ _ _ _

/-! ### The end of an injection, and the sticky flags -/

theorem endInjection_slots (n : Nat) (s : State) : (endInjection n s).loop.slots = s.loop.slots := by
  unfold endInjection; split
  · rw [raise_loop', cairnEvent_loop]; rfl
  · rfl
theorem endBound_slots (i n : Nat) (s : State) : (endBound i n s).loop.slots = s.loop.slots := by
  unfold endBound; split; exacts [endInjection_slots _ _, rfl]
theorem capturePut_slots (e : CaptEnt) (s : State) : (capturePut e s).loop.slots = s.loop.slots := by
  unfold capturePut; split
  · dsimp only; split
    · rw [raise_loop', cairnEvent_loop]; rfl
    · rfl
  · rfl
theorem noteSat_slot (i k : Nat) (b : Bool) (f : Slot → Slot) (s : State) : (noteSat i b f s).slot k = if k = i then f (s.slot i) else s.slot k := by
  unfold noteSat; dsimp only
  have : ∀ t : State, (if b = true then raise pgLoop 1 (cairnEvent 0x6002 i [] t) else cairnCount 0x6002 i t).loop = t.loop := by
    intro t; split
    · rw [raise_loop', cairnEvent_loop]
    · rw [cairnCount_loop]
  rw [slot_congr k (congrArg LoopBlk.slots (this _)), slot_congr k (congrArg LoopBlk.slots (errTrans_loop' _ _)), slot_onSlot]

/-! ### A valve channel's program touches that channel alone -/

/-- Of the drives, one valve channel alone differs. -/
def onlyValve (v : Nat) (s t : State) : Prop :=
  t.drv = { s.drv with valves := t.drv.valves } ∧ ∀ k, k ≠ v → t.valve k = s.valve k

theorem onlyValve_refl (v : Nat) (s : State) : onlyValve v s s := ⟨rfl, fun _ _ => rfl⟩
theorem onlyValve_trans {v : Nat} {s t u : State} (h : onlyValve v s t) (h' : onlyValve v t u) : onlyValve v s u :=
  ⟨by rw [h'.1, h.1], fun k hk => (h'.2 k hk).trans (h.2 k hk)⟩
theorem onlyValve_drv {v : Nat} {s t : State} (h : t.drv = s.drv) : onlyValve v s t :=
  ⟨by rw [h], fun k _ => valve_congr k (congrArg DriveBlk.valves h)⟩
theorem onlyValve_on (v : Nat) (f : Valve → Valve) (s : State) : onlyValve v s (s.onValve v f) :=
  ⟨rfl, fun k hk => by rw [valve_onValve, if_neg hk]⟩
theorem onlyValve_if {v : Nat} {s a b : State} {c : Prop} [Decidable c] (ha : onlyValve v s a) (hb : onlyValve v s b) :
    onlyValve v s (if c then a else b) := by split <;> assumption

theorem endDefer_valve (v : Nat) (s : State) : onlyValve v s (endDefer v s) := by
  unfold endDefer; dsimp only
  exact onlyValve_if (onlyValve_trans (onlyValve_on v _ s) (onlyValve_drv (cairnEvent_drv _ _ _ _))) (onlyValve_refl _ _)
theorem valveSafe_valve (v : Nat) (s : State) : onlyValve v s (valveSafe v s) :=
  onlyValve_trans (endDefer_valve v s) (onlyValve_on v _ _)
theorem valveFault_valve (v : Nat) (s : State) : onlyValve v s (valveFault v s) := by
  refine onlyValve_trans (onlyValve_trans (valveSafe_valve v s) (onlyValve_on v (fun q => { q with st := .fault }) _)) (onlyValve_drv ?_)
  unfold valveFault; rw [errPerm_drv', raise_drv']
theorem valveStart_valve (v : Nat) (st : ValveSt) (low : Bool) (s : State) : onlyValve v s (valveStart v st low s) := onlyValve_on v _ s
theorem startWord_valve (v : Nat) : ∀ (fuel k : Nat) (s : State), onlyValve v s (startWord v fuel k s) := by
  intro fuel; induction fuel with
  | zero => intro k s; exact valveFault_valve v s
  | succ n ih =>
    intro k s0; unfold startWord; dsimp only
    refine onlyValve_if (valveFault_valve v s0) ?_
    refine onlyValve_trans (onlyValve_on v (fun q => { q with pc := BitVec.ofNat 6 k }) s0) ?_
    generalize s0.onValve v _ = s
    have hd : onlyValve v s (raise pgVlv 0 (errTrans pgVlv (s.onValve v (fun q => { q with
            st := .deferred, low := false, steady := 0, deferTs := s.env.ts, defers := satInc q.defers })))) :=
      onlyValve_trans (onlyValve_on v _ s) (onlyValve_drv (by rw [raise_drv', errTrans_drv']))
    repeat' with_reducible refine onlyValve_if ?_ ?_
    all_goals with_reducible first | exact valveFault_valve v s | exact valveStart_valve v _ _ s | exact hd | exact ih _ _
theorem enterWord_valve (v k : Nat) (s : State) : onlyValve v s (enterWord v k s) :=
  onlyValve_trans (endDefer_valve v s) (startWord_valve v _ _ _)
theorem startCommand_valve (v : Nat) (on : Bool) (s : State) : onlyValve v s (startCommand v on s) :=
  onlyValve_trans (onlyValve_on v _ s) (enterWord_valve v _ _)
theorem leakEntry_valve (v : Nat) (s : State) : onlyValve v s (leakEntry v s) := by
  unfold leakEntry; dsimp only
  refine onlyValve_if (onlyValve_refl _ _) ?_
  have h1 : onlyValve v s (cairnEvent 0x7005 v [] (s.onValve v (fun q => { q with leakTaken := true }))) :=
    onlyValve_trans (onlyValve_on v _ s) (onlyValve_drv (cairnEvent_drv _ _ _ _))
  refine onlyValve_if h1 ?_
  exact onlyValve_if (onlyValve_trans h1 (onlyValve_trans (onlyValve_on v _ _) (enterWord_valve v _ _)))
    (onlyValve_trans h1 (onlyValve_trans (onlyValve_on v _ _) (enterWord_valve v _ _)))

/-! ### Messages and leases -/

theorem group_onGroup (s : State) (n m : Nat) (f : Group → Group) : (s.onGroup n f).group m = if m = n then f (s.group n) else s.group m :=
  fget_fput ({} : Group) n m (f (s.group n)) s.cbus.groups
theorem group_congr {s t : State} (k : Nat) (h : t.cbus.groups = s.cbus.groups) : t.group k = s.group k := by simp only [State.group, h]
@[simp] theorem raise_cbus' (p n : Nat) (s : State) : (raise p n s).cbus = s.cbus := kept .cbus (T := [.hdrs, .host, .glob]) (by simp)
@[simp] theorem errPerm_cbus' (p : Nat) (s : State) : (errPerm p s).cbus = s.cbus := rfl
@[simp] theorem errTrans_cbus' (p : Nat) (s : State) : (errTrans p s).cbus = s.cbus := rfl

/-- What a discarded frame leaves of the interface. -/
theorem countDrop_cbus (i n : Nat) (s : State) : (countDrop i n s).cbus = (s.onCan i (fun c => { c with txDrop := satAdd c.txDrop n })).cbus :=
  forAll_same (fun t => t.cbus) (fun (_ : Nat) t => cairnEvent 0x8006 i [] t) (by intro x t; exact cairnEvent_cbus _ _ _ _) _ _
theorem countDrop_can (i n k : Nat) (s : State) : (countDrop i n s).can k = if k = i then { s.can i with txDrop := satAdd (s.can i).txDrop n } else s.can k := by
  rw [can_congr (s := s.onCan i (fun c => { c with txDrop := satAdd c.txDrop n })) k (congrArg CbusBlk.ifs (countDrop_cbus i n s)), can_onCan]
theorem onCan_cbus (i : Nat) (f : CanIf → CanIf) (s : State) : (s.onCan i f).cbus = { s.cbus with ifs := (s.onCan i f).cbus.ifs } := rfl
theorem queueFrame_cbus (i : Nat) (f : TxFrame) (l : Bool) (s : State) : (queueFrame i f l s).cbus = { s.cbus with ifs := (queueFrame i f l s).cbus.ifs } := by
  unfold queueFrame; dsimp only; split
  · rfl
  · split
    · rw [countDrop_cbus]; rfl
    · rw [countDrop_cbus]; rfl
theorem queueFrame_other (i k : Nat) (f : TxFrame) (l : Bool) (s : State) (h : k ≠ i) : (queueFrame i f l s).can k = s.can k := by
  unfold queueFrame; dsimp only; split
  · rw [can_onCan, if_neg h]
  · split
    · rw [countDrop_can, if_neg h, can_onCan, if_neg h]
    · rw [countDrop_can, if_neg h]
theorem queueFrame_room (i : Nat) (f : TxFrame) (l : Bool) (s : State) (h : (s.can i).queue.length < 16) :
    (queueFrame i f l s).can i = { s.can i with queue := (s.can i).queue ++ [f] } := by
  unfold queueFrame; dsimp only; rw [if_pos h, can_onCan, if_pos rfl]

/-- A message changes the queues of the interfaces and the sequence number alone. -/
theorem sendTraverse_cbus (mid : Nat) (body : Nat → List Byte) (s : State) : (sendTraverse mid body s).cbus =
    { s.cbus with seq := s.cbus.seq + 1, ifs := (sendTraverse mid body s).cbus.ifs } := by
  unfold sendTraverse; extract_lets head id s1
  have : ∀ (xs : List Nat) (t : State), (forAll xs (fun i t => queueFrame i ⟨id, head ++ body i, s.env.ts⟩ (mid == 1) t) t).cbus =
      { t.cbus with ifs := (forAll xs (fun i t => queueFrame i ⟨id, head ++ body i, s.env.ts⟩ (mid == 1) t) t).cbus.ifs } := by
    intro xs; induction xs with
    | nil => intro t; rfl
    | cons x xs ih =>
      intro t; show (forAll xs _ (queueFrame x _ _ t)).cbus = _
      rw [ih, queueFrame_cbus]; rfl
  exact this (canIfs s) s1
theorem sendTraverse_queue (mid : Nat) (body : Nat → List Byte) (s : State) (i : Nat) (hi : i < s.env.variant.cbus) (h : (s.can i).queue.length < 16) :
    ((sendTraverse mid body s).can i).queue = (s.can i).queue ++ [⟨traverseId s mid, traverseHead s ++ body i, s.env.ts⟩] := by
  unfold sendTraverse; extract_lets head id s1
  have key : ∀ (n : Nat) (t : State), (t.can i).queue.length < 16 → ((forAll (List.range n) (fun i t => queueFrame i ⟨id, head ++ body i, s.env.ts⟩ (mid == 1) t) t).can i) =
      if i < n then { t.can i with queue := (t.can i).queue ++ [⟨id, head ++ body i, s.env.ts⟩] } else t.can i := by
    intro n; induction n with
    | zero => intro t _; rfl
    | succ n ih =>
      intro t ht
      have e : forAll (List.range (n + 1)) (fun i t => queueFrame i ⟨id, head ++ body i, s.env.ts⟩ (mid == 1) t) t =
          queueFrame n ⟨id, head ++ body n, s.env.ts⟩ (mid == 1) (forAll (List.range n) (fun i t => queueFrame i ⟨id, head ++ body i, s.env.ts⟩ (mid == 1) t) t) := by
        unfold forAll; rw [List.range_succ, List.foldl_append]; rfl
      rw [e]
      by_cases h1 : i = n
      · subst h1
        have h0 := ih t ht; rw [if_neg (lt_irrefl _)] at h0
        rw [queueFrame_room _ _ _ _ (by rw [h0]; exact ht), h0, if_pos (by omega)]
      · rw [queueFrame_other _ _ _ _ _ h1, ih t ht]
        by_cases h2 : i < n
        · rw [if_pos h2, if_pos (by omega)]
        · rw [if_neg h2, if_neg (by omega)]
  have e1 : ∀ k, s1.can k = s.can k := fun _ => rfl
  have := key s.env.variant.cbus s1 (by rw [e1]; exact h)
  rw [if_pos hi, e1] at this
  exact congrArg CanIf.queue this

theorem leaseState_group (g k : Nat) (st : LeaseSt) (s : State) : (leaseState g st s).group k =
    if k = g then (if (s.group g).st = st then s.group g else { s.group g with st := st, waiting := false }) else s.group k := by
  unfold leaseState; split
  · next h => split
              · next h2 => rw [h2]
              · rfl
  · next h => rw [group_congr k (congrArg CbusBlk.groups (raise_cbus' _ _ _)), group_onGroup]
/-- A message heard marks the partner's time alone. -/
theorem heard_group (src : BitVec 6) (k : Nat) (s : State) : ({ (heard src s).group k with heardTs := none } : Group) = { s.group k with heardTs := none } := by
  unfold heard
  refine forAll_same (fun t => ({ t.group k with heardTs := none } : Group)) _ ?_ _ _
  intro x t; dsimp only; split
  · rw [group_onGroup]; split
    · next h => rw [h]
    · rfl
  · rfl
theorem heard_only' (src : BitVec 6) (s : State) : only [.cbus] s (heard src s) := by simp

/-! ### Channels and messages of a leased group -/

theorem forAll_reach {P : State → Nat → Prop} (f : Nat → State → State) (hx : ∀ x t, P (f x t) x) (hk : ∀ x t y, P t y → P (f x t) y) :
    ∀ (xs : List Nat) (t : State) (g : Nat), g ∈ xs ∨ P t g → P (forAll xs f t) g := by
  intro xs; induction xs with
  | nil => intro t g h; rcases h with h | h; exacts [absurd h List.not_mem_nil, h]
  | cons x xs ih =>
    intro t g h
    show P (forAll xs f (f x t)) g
    refine ih _ _ ?_
    rcases h with h | h
    · rcases List.mem_cons.1 h with h | h
      · right; rw [h]; exact hx x t
      · left; exact h
    · right; exact hk _ _ _ h
theorem groupSafe_group (g k : Nat) (s : State) : (groupSafe g s).group k = s.group k := group_congr k (congrArg CbusBlk.groups (kept .cbus (T := [.hdrs, .drv, .hut]) (by simp)))
theorem cairnEvent_group (c v k : Nat) (a : List Byte) (s : State) : (cairnEvent c v a s).group k = s.group k := group_congr _ (congrArg CbusBlk.groups (cairnEvent_cbus _ _ _ _))
theorem sendLease_groups (g k : Nat) (a b : Bool) (s : State) : (sendLease g a b s).cbus.groups = s.cbus.groups := by unfold sendLease; rw [sendTraverse_cbus]
theorem sendMirrors_groups (g : Nat) (s : State) : (sendMirrors g s).cbus.groups = s.cbus.groups := by
  unfold sendMirrors; exact forAll_same (fun t => t.cbus.groups) _ (by intro x t; rw [sendTraverse_cbus]) _ _
theorem groupSafe_reach (g : Nat) (s : State) : (∀ m, m < 6 → (s.group g).motors.getLsbD m = true → ((groupSafe g s).motor m).st = .stopped) ∧
      (∀ v, v < 4 → (s.group g).valves.getLsbD v = true → ((groupSafe g s).valve v).st = .idle) := by
  unfold groupSafe
  have hm : ∀ (x : Nat) (t : State) (k : Nat), (motorSafe x t).motor k = if k = x then { t.motor x with st := .stopped, pause := false, thenMax := false, response := false } else t.motor k := by
    intro x t k; unfold motorSafe; rw [motor_onMotor]
  have hv : ∀ (x : Nat) (t : State), ((valveSafe x t).valve x).st = .idle := by intro x t; unfold valveSafe; rw [valve_onValve, if_pos rfl]
  refine ⟨?_, ?_⟩
  · intro m h1 h2
    have e : ∀ t : State, (forAll (groupValves (s.group g)) valveSafe t).drv.motors = t.drv.motors := fun t => forAll_same (fun t => t.drv.motors) _ (by
      intro x t; rw [(valveSafe_valve x t).1]) _ _
    rw [motor_congr m (e _)]
    refine forAll_reach (P := fun t m => (t.motor m).st = .stopped) motorSafe (by intro x t; rw [hm, if_pos rfl]) (by
      intro x t y hy; rw [hm]; split
      · rfl
      · exact hy) _ _ _ (Or.inl ?_)
    unfold groupMotors; rw [List.mem_filter, List.mem_range]; exact ⟨h1, h2⟩
  · intro v h1 h2
    refine forAll_reach (P := fun t v => (t.valve v).st = .idle) valveSafe hv (by
      intro x t y hy; by_cases h : y = x
      · rw [h]; exact hv x t
      · rw [(valveSafe_valve x t).2 y h]; exact hy) _ _ _ (Or.inl ?_)
    unfold groupValves; rw [List.mem_filter, List.mem_range]; exact ⟨h1, h2⟩

end Sys2Proof.Machine

set_option Elab.async true
end

