-- ==== Sys2Proof/Laws/Mgmt.lean ====
section
/-! SUPPORT. What the mailbox, the hut book and the management commands leave. -/

namespace Sys2Proof.Machine

open Sys2Proof.Safety

theorem half_onHalf (b c : Bool) (f : MboxHalf → MboxHalf) (s : State) : (s.onHalf b f).half c = if c = b then f (s.half b) else s.half c := by
  cases b <;> cases c <;> rfl
theorem foldl_words (g : Nat → Word) (k : Nat) : ∀ (n : Nat) (m : FMap Word), fget 0 ((List.range n).foldl (fun m k => fput 0 k (g k) m) m) k = if k < n then g k else fget 0 m k := by
  intro n; induction n with
  | zero => intro m; rfl
  | succ n ih =>
    intro m; rw [List.range_succ, List.foldl_append, List.foldl_cons, List.foldl_nil, fget_fput, ih]
    by_cases h : k = n
    · rw [if_pos h, h, if_pos (by omega)]
    · rw [if_neg h]; by_cases h2 : k < n
      · rw [if_pos h2, if_pos (by omega)]
      · rw [if_neg h2, if_neg (by omega)]
theorem word_byte (a b c d : Byte) (j : Nat) (h : j < 4) : (BitVec.ofNat 32 (leNat [a, b, c, d])).extractLsb' (8 * j) 8 = [a, b, c, d].getD j 0 := by
  have ha := a.isLt; have hb := b.isLt; have hc := c.isLt; have hd := d.isLt
  apply BitVec.eq_of_toNat_eq
  rw [BitVec.extractLsb'_toNat, BitVec.toNat_ofNat, Nat.shiftRight_eq_div_pow]
  simp only [leNat]
  match j, h with
  | 0, _ => simp; omega
  | 1, _ => simp; omega
  | 2, _ => simp; omega
  | 3, _ => simp; omega
theorem padBytes_length (n : Nat) (bs : List Byte) : (padBytes n bs).length = n := by unfold padBytes; simp
theorem padBytes_get (n k : Nat) (bs : List Byte) (h : k < n) : (padBytes n bs).getD k 0 = bs.getD k 0 := by
  unfold padBytes; simp only [List.getD_eq_getElem?_getD, List.getElem?_take, h, if_true]
  by_cases h2 : k < bs.length
  · rw [List.getElem?_append_left h2]
  · rw [List.getElem?_append_right (by omega), List.getElem?_eq_none (l := bs) (by omega), List.getElem?_replicate]; split <;> rfl
theorem take_four (l : List Byte) (k : Nat) (h : k + 4 ≤ l.length) : (l.drop k).take 4 = [l.getD k 0, l.getD (k + 1) 0, l.getD (k + 2) 0, l.getD (k + 3) 0] := by
  have e : ∀ i, k + i < l.length → l.getD (k + i) 0 = l[k + i]?.getD 0 := fun i _ => by rw [List.getD_eq_getElem?_getD]
  apply List.ext_getElem?; intro i
  rw [List.getElem?_take]
  match i with
  | 0 => simp [List.getElem?_drop, List.getD_eq_getElem?_getD]; rw [List.getElem?_eq_getElem (by omega)]; rfl
  | 1 => simp [List.getElem?_drop, List.getD_eq_getElem?_getD]; rw [List.getElem?_eq_getElem (by omega)]; rfl
  | 2 => simp [List.getElem?_drop, List.getD_eq_getElem?_getD]; rw [List.getElem?_eq_getElem (by omega)]; rfl
  | 3 => simp [List.getElem?_drop, List.getD_eq_getElem?_getD]; rw [List.getElem?_eq_getElem (by omega)]; rfl
  | i + 4 => simp
theorem reqByte_store (camp : Bool) (bs : List Byte) (s : State) (k : Nat) (h : k < 32) : reqByte ((storeReq camp bs s).half camp) k = bs.getD k 0 := by
  unfold storeReq; rw [half_onHalf, if_pos rfl]; unfold reqByte
  show (fget 0 ((List.range 8).foldl (fun m k => fput 0 k (BitVec.ofNat 32 (leAt (padBytes 32 bs) (4 * k) 4)) m) []) (k / 4)).extractLsb' _ 8 = _
  rw [foldl_words (fun k => BitVec.ofNat 32 (leAt (padBytes 32 bs) (4 * k) 4)), if_pos (by omega)]
  unfold leAt; rw [take_four _ _ (by rw [padBytes_length]; omega), word_byte _ _ _ _ _ (by omega)]
  rw [← padBytes_get 32 k bs h]
  have : k = 4 * (k / 4) + k % 4 := by omega
  generalize k / 4 = q at *; generalize hr : k % 4 = r at *
  have hr4 : r < 4 := by omega
  subst this
  match r, hr4 with
  | 0, _ => rfl
  | 1, _ => rfl
  | 2, _ => rfl
  | 3, _ => rfl
theorem leNat_leBytes : ∀ (n v : Nat), leNat (leBytes n v) = v % 256 ^ n := by
  intro n; induction n with
  | zero => intro v; simp [leBytes, leNat]; omega
  | succ n ih => intro v; simp only [leBytes, leNat, ih, BitVec.toNat_ofNat]; have h := Nat.mod_mul (x := v) (a := 256) (b := 256 ^ n); rw [show 256 ^ (n + 1) = 256 * 256 ^ n by rw [Nat.pow_succ, Nat.mul_comm], h]
/-- What a request leaves. -/
theorem postRequest_fields (camp : Bool) (bs : List Byte) (s : State) (r : State × Status × List Word)
    (hr : request camp ((storeReq camp bs s).half camp) (storeReq camp bs s) = r) :
    (postRequest camp bs s).reply.status = some r.2.1 ∧ ((postRequest camp bs s).half camp).busy = false ∧
    ((postRequest camp bs s).hdr pgMbox).stat.getLsbD camp.toNat = true ∧ (∀ b, b ≠ camp → (postRequest camp bs s).half b = r.1.half b) ∧
    (postRequest camp bs s).sec = r.1.sec ∧ (postRequest camp bs s).hut = r.1.hut ∧ (postRequest camp bs s).glob.ready = r.1.glob.ready ∧
    (∀ p, p ≠ pgMbox → (postRequest camp bs s).hdr p = r.1.hdr p) ∧
    (postRequest camp bs s).cairn.faults = r.1.cairn.faults ∧ (postRequest camp bs s).cairn.cfgIdx = r.1.cairn.cfgIdx ∧
    (∀ k, k < 6 → k < r.2.2.length → fget 0 ((postRequest camp bs s).half camp).rsp k = r.2.2.getD k 0) ∧
    (∀ T : List Part, only T s r.1 → [.reply, .hdrs, .host, .glob, .cairn] ⊆ T → only T s (postRequest camp bs s)) := by
  have key : ∃ rsp : FMap Word, mailbox camp (storeReq camp bs s) = raise pgMbox camp.toNat (r.1.onHalf camp (fun q => { q with busy := false, status := r.2.1.code, rsp := rsp })) ∧
      (∀ k, k < 6 → k < r.2.2.length → fget 0 rsp k = r.2.2.getD k 0) := by
    refine ⟨_, by unfold mailbox; dsimp only; rw [hr], ?_⟩
    intro k h6 hk
    have ez : ∀ g : Nat → Word, (((List.range 6).map g).zipIdx).foldl (fun m (e : Word × Nat) => fput 0 e.2 e.1 m) ([] : FMap Word) = (List.range 6).foldl (fun m k => fput 0 k (g k) m) [] := fun g => rfl
    rw [ez, foldl_words, if_pos h6]
    rw [List.getD_eq_getElem _ _ hk, List.getD_eq_getElem _ _ hk]
  obtain ⟨rsp, key, hrsp⟩ := key
  have hre : (postRequest camp bs s).reply.status = some r.2.1 := by unfold postRequest; dsimp only; rw [hr]; rfl
  have hx : ∃ rp, postRequest camp bs s = (raise pgMbox camp.toNat (r.1.onHalf camp (fun q => { q with busy := false, status := r.2.1.code, rsp := rsp }))).setReply rp := by
    unfold postRequest; rw [key]; exact ⟨_, rfl⟩
  obtain ⟨rp, hx⟩ := hx
  refine ⟨hre, ?_⟩; rw [hx]
  generalize hv : r.1.onHalf camp (fun q => { q with busy := false, status := r.2.1.code, rsp := rsp }) = v
  have hc : ((raise pgMbox camp.toNat v).setReply rp).cairn = v.cairn := by show (raise _ _ _).cairn = _; exact kept .cairn (T := [.hdrs, .host, .glob]) (by simp)
  have hh : ∀ b, ((raise pgMbox camp.toNat v).setReply rp).half b = v.half b := by intro b; unfold State.half; rw [hc]
  have hvc : ∀ b, v.half b = if b = camp then { r.1.half camp with busy := false, status := r.2.1.code, rsp := rsp } else r.1.half b := by intro b; rw [← hv, half_onHalf]
  refine ⟨?_, ?_, ?_, ?_, ?_, ?_, ?_, ?_, ?_, ?_, ?_⟩
  · rw [hh, hvc, if_pos rfl]
  · show ((raise _ _ _).hdr _).stat.getLsbD _ = true; rw [raise_hdr, if_pos rfl]; cases camp <;> simp [bitMask]
  · intro b hb; rw [hh, hvc, if_neg hb]
  · show (raise _ _ _).sec = _; rw [(kept .sec (T := [.hdrs, .host, .glob]) (by simp) : (raise pgMbox camp.toNat v).sec = v.sec), ← hv]; rfl
  · show (raise _ _ _).hut = _; rw [(kept .hut (T := [.hdrs, .host, .glob]) (by simp) : (raise pgMbox camp.toNat v).hut = v.hut), ← hv]; rfl
  · show (raise _ _ _).glob.ready = _; rw [raise_glob, ← hv]; rfl
  · intro p hp; show (raise _ _ _).hdr p = _; rw [raise_hdr, if_neg hp, ← hv]; rfl
  · rw [hc, ← hv]; cases camp <;> rfl
  · rw [hc, ← hv]; cases camp <;> rfl
  · intro k h6 hk; rw [hh, hvc, if_pos rfl]; exact hrsp k h6 hk
  · intro T hT h0
    refine only_trans hT (only_mono (T := [.reply, .hdrs, .host, .glob, .cairn]) ?_ h0); rw [← hv]; simp

theorem reqNat_store (camp : Bool) (bs : List Byte) (s : State) (k n : Nat) (h : k + n ≤ 32) : reqNat ((storeReq camp bs s).half camp) k n = leNat ((List.range n).map (fun i => bs.getD (k + i) 0)) := by
  unfold reqNat; congr 1; apply List.map_congr_left; intro i hi; rw [List.mem_range] at hi; exact reqByte_store _ _ _ _ (by omega)
theorem leNat_two (v : Nat) : leNat (leBytes 2 v) = v % 65536 := leNat_leBytes 2 v
theorem leNat_four (v : Nat) : leNat (leBytes 4 v) = v % 4294967296 := leNat_leBytes 4 v
theorem storeReq_shape (camp : Bool) (bs : List Byte) (s : State) : ∃ R, storeReq camp bs s = s.onHalf camp (fun h => { h with req := R }) := ⟨_, rfl⟩
theorem storeReq_fields (camp : Bool) (bs : List Byte) (s : State) : (storeReq camp bs s).cairn.faults = s.cairn.faults ∧ (storeReq camp bs s).cairn.cfgIdx = s.cairn.cfgIdx ∧ (storeReq camp bs s).cairn.inforce = s.cairn.inforce ∧
    (storeReq camp bs s).cairn.cur = s.cairn.cur ∧ (∀ b, b ≠ camp → (storeReq camp bs s).half b = s.half b) ∧ (storeReq camp bs s).hut = s.hut ∧ (storeReq camp bs s).sec = s.sec ∧ (storeReq camp bs s).glob = s.glob ∧
    (storeReq camp bs s).env = s.env ∧ (storeReq camp bs s).hdrs = s.hdrs ∧ ∀ T : List Part, [.cairn] ⊆ T → only T s (storeReq camp bs s) := by
  refine ⟨?_, ?_, ?_, ?_, ?_, ?_, ?_, ?_, ?_, ?_, fun T hT => (storeReq_only camp bs T s s hT).2 (only_refl _ _)⟩ <;>
    (obtain ⟨R, e⟩ := storeReq_shape camp bs s; rw [e]; first | (intro b hb; rw [half_onHalf, if_neg hb]) | (cases camp <;> rfl))
theorem cairnEvent_sec' (c v : Nat) (a : List Byte) (s : State) : (cairnEvent c v a s).sec = s.sec := kept .sec (T := [.hdrs, .hut]) (by simp)
theorem flushBook_cairn (s : State) : (flushBook s).cairn = s.cairn := kept .cairn (T := [.hdrs, .host, .glob, .hut]) (by simp)
theorem raise_hut (p n : Nat) (s : State) : (raise p n s).hut = s.hut := kept .hut (T := [.hdrs, .host, .glob]) (by simp)
theorem raise_cairn (p n : Nat) (s : State) : (raise p n s).cairn = s.cairn := kept .cairn (T := [.hdrs, .host, .glob]) (by simp)
theorem raiseFloor_camp (s : State) : (raiseFloor .camp s).sec = { s.sec with campFloor := if s.sec.campRun.toNat ≤ s.sec.campFloor.toNat then s.sec.campFloor else s.sec.campRun } := by
  unfold raiseFloor; extract_lets n; split
  · rename_i h; rw [if_pos (show s.sec.campRun.toNat ≤ s.sec.campFloor.toNat from h)]
  · rename_i h; rw [if_neg (show ¬ s.sec.campRun.toNat ≤ s.sec.campFloor.toNat from h)]
    rw [cairnEvent_sec']
    show ({ s.sec with campFloor := BitVec.ofNat 6 n } : SecBlk) = _
    simp only [n, svnRun, BitVec.ofNat_toNat, BitVec.setWidth_eq]; rfl
theorem raiseFloor_cairn (s : State) : (raiseFloor .cairn s).sec = { s.sec with cairnFloor := if s.sec.cairnRun.toNat ≤ s.sec.cairnFloor.toNat then s.sec.cairnFloor else s.sec.cairnRun } := by
  unfold raiseFloor; extract_lets n; split
  · rename_i h; rw [if_pos (show s.sec.cairnRun.toNat ≤ s.sec.cairnFloor.toNat from h)]
  · rename_i h; rw [if_neg (show ¬ s.sec.cairnRun.toNat ≤ s.sec.cairnFloor.toNat from h)]
    rw [cairnEvent_sec']
    show ({ s.sec with cairnFloor := BitVec.ofNat 6 n } : SecBlk) = _
    simp only [n, svnRun, BitVec.ofNat_toNat, BitVec.setWidth_eq]; rfl
theorem hutAt_total (f cp : Bool) (code : Nat) (v : BitVec 16) (arg : List Byte) (ts : DWord) (ho : Bool) (s : State) (h : s.hut.powerFail = false) :
    (hutAt f cp code v arg ts ho s).hut.powerFail = false ∧ (hutAt f cp code v arg ts ho s).hut.book.total = s.hut.book.total + 1 := by
  have hc : (hutCount code v ts ho s).hut.powerFail = false ∧ (hutCount code v ts ho s).hut.book.total = s.hut.book.total + 1 := by
    unfold hutCount when; dsimp only; split <;> exact ⟨h, rfl⟩
  have hr : ∀ u : State, (hutRecord code v ts ho cp arg u).hut.powerFail = u.hut.powerFail ∧ (hutRecord code v ts ho cp arg u).hut.book.total = u.hut.book.total := by
    have hp : ∀ (us : List (List Byte)) (b : Book), (putUnits us b).total = b.total := by
      intro us; unfold putUnits; induction us with
      | nil => intro b; rfl
      | cons a us ih => intro b; rw [List.foldl_cons, ih]
    intro u; unfold hutRecord; dsimp only [State.onHut]; refine ⟨rfl, ?_⟩; split
    · unfold putM500; dsimp only; rw [hp]; split
      · rw [hp]
      · rfl
    · rfl
  unfold hutAt; rw [h]; dsimp only; rw [if_neg (by simp)]; split
  · rw [(hr _).1, (hr _).2]; exact hc
  · split
    · rw [(hr _).1, (hr _).2]; exact hc
    · exact hc
theorem campEvent_ctl (a b d : Nat) (s : State) (k : Nat) : (campEvent a b d s).ctl k = s.ctl k := ctl_congr k (kept .ctls (T := [.hdrs, .host, .glob, .evts]) (by simp))
theorem campEvent_reply (a b d : Nat) (s : State) : (campEvent a b d s).reply = s.reply := kept .reply (T := [.hdrs, .host, .glob, .evts]) (by simp)
theorem campEvent_dbg (a b d : Nat) (s : State) : (campEvent a b d s).dbg = s.dbg := kept .dbg (T := [.hdrs, .host, .glob, .evts]) (by simp)
theorem raise_evts (p n : Nat) (s : State) : (raise p n s).evts = s.evts := kept .evts (T := [.hdrs, .host, .glob]) (by simp)
theorem leAt_zero (bs : List Byte) (k n : Nat) (h : ∀ b ∈ bs, b = 0) : leAt bs k n = 0 := by
  have : ∀ (l : List Byte), (∀ b ∈ l, b = 0) → leNat l = 0 := by
    intro l; induction l with
    | nil => intro _; rfl
    | cons a l ih => intro hl; unfold leNat; rw [hl a (by simp), ih (fun b hb => hl b (by simp [hb]))]; rfl
  unfold leAt; apply this; intro b hb; exact h b (List.mem_of_mem_drop (List.mem_of_mem_take hb))

theorem leaseState_drv' (g : Nat) (st : LeaseSt) (s : State) : (leaseState g st s).drv = s.drv := kept .drv (T := [.hdrs, .host, .glob, .cbus]) (by simp)
theorem sendLease_drv' (g : Nat) (a b : Bool) (s : State) : (sendLease g a b s).drv = s.drv := kept .drv (T := [.hdrs, .cbus, .hut]) (by simp)

end Sys2Proof.Machine
end

