-- ==== Sys2Proof/Laws/Exec1.lean ====
section
/-! SUPPORT. The parts of the state that each command can change, 1 of 3. -/

namespace Sys2Proof.Machine

open Sys2Proof.Safety

theorem standbyReset_leaves (s : State) : ∃ t, exec (.standbyReset) s = .next t ∧ only [.reply, .env, .hdrs, .cores, .ctls, .ledge, .mesh, .hbm, .arbs, .arbSels, .ctx, .fence, .fab, .host, .glob, .pwr, .sec, .dbg, .evts, .thm, .cool, .loop, .drv, .cbus, .hut, .cairn] s t := by
  refine ⟨_, rfl, ?_⟩; simp

theorem standbyFallingThreshold_leaves (s : State) : ∃ t, exec (.standbyFallingThreshold) s = .next t ∧ only [.hdrs, .host, .glob, .drv, .hut] s t := by
  refine ⟨_, rfl, ?_⟩; simp

theorem inputOutOfRange_leaves : ∀ deciVolts (s : State), ∃ t, exec (.inputOutOfRange deciVolts) s = .next t ∧ only [.env, .hdrs, .cores, .ctls, .ledge, .mesh, .hbm, .arbs, .arbSels, .ctx, .fence, .fab, .host, .glob, .pwr, .sec, .dbg, .thm, .cool, .loop, .drv, .hut, .cairn] s t := by
  intro deciVolts s; refine ⟨_, rfl, ?_⟩; simp

theorem inputBackInRange_leaves : ∀ deciVolts (s : State), ∃ t, exec (.inputBackInRange deciVolts) s = .next t ∧ only [.hdrs, .host, .glob, .pwr, .cool, .loop, .drv, .hut, .cairn] s t := by
  intro deciVolts s; refine ⟨_, rfl, ?_⟩; simp

theorem powerEnAsserted_leaves (s : State) : ∃ t, exec (.powerEnAsserted) s = .next t ∧ only [.hdrs, .cool, .hut, .cairn] s t := by
  refine ⟨_, rfl, ?_⟩; simp

theorem powerEnReleased_leaves (s : State) : ∃ t, exec (.powerEnReleased) s = .next t ∧ only [.env, .hdrs, .cores, .ctls, .ledge, .mesh, .hbm, .arbs, .arbSels, .ctx, .fence, .fab, .host, .glob, .pwr, .sec, .dbg, .thm, .cool, .loop, .drv, .hut, .cairn] s t := by
  refine ⟨_, rfl, ?_⟩; simp

theorem powerDownPumpSafe_leaves (s : State) : ∃ t, exec (.powerDownPumpSafe) s = .next t ∧ only [.cool, .drv, .cairn] s t := by
  refine ⟨_, rfl, ?_⟩; simp

theorem referenceLoss_leaves (s : State) : ∃ t, exec (.referenceLoss) s = .next t ∧ only [.env, .hdrs, .cores, .ctls, .ledge, .mesh, .hbm, .arbs, .arbSels, .ctx, .fence, .fab, .host, .glob, .pwr, .sec, .dbg, .thm, .cool, .loop, .drv, .cbus, .hut, .cairn] s t := by
  refine ⟨_, rfl, ?_⟩; simp

theorem referenceReturn_leaves (s : State) : ∃ t, exec (.referenceReturn) s = .next t ∧ only [.env, .hdrs, .host, .glob, .pwr, .cool, .loop, .drv, .cbus, .hut, .cairn] s t := by
  refine ⟨_, rfl, ?_⟩; simp

theorem cairnWatchdogExpiry_leaves (s : State) : ∃ t, exec (.cairnWatchdogExpiry) s = .next t ∧ only [.reply, .env, .hdrs, .cores, .ctls, .ledge, .mesh, .hbm, .arbs, .arbSels, .ctx, .fence, .fab, .host, .glob, .pwr, .sec, .dbg, .evts, .thm, .cool, .loop, .drv, .cbus, .hut, .cairn] s t := by
  refine ⟨_, rfl, ?_⟩; simp

theorem hostLinkReset_leaves : ∀ flr (s : State), ∃ t, exec (.hostLinkReset flr) s = .next t ∧ only [.hdrs, .host, .glob] s t := by
  intro flr s; refine ⟨_, rfl, ?_⟩; simp

theorem pcieLinkUp_leaves : ∀ rate width (s : State), ∃ t, exec (.pcieLinkUp rate width) s = .next t ∧ only [.hdrs, .host, .glob] s t := by
  intro rate width s; refine ⟨_, rfl, ?_⟩; simp

theorem throttleNAsserted_leaves (s : State) : ∃ t, exec (.throttleNAsserted) s = .next t ∧ only [.hdrs, .host, .glob, .pwr, .evts] s t := by
  refine ⟨_, rfl, ?_⟩; simp

theorem throttleNReleased_leaves (s : State) : ∃ t, exec (.throttleNReleased) s = .next t ∧ only [.hdrs, .host, .glob, .pwr, .evts] s t := by
  refine ⟨_, rfl, ?_⟩; simp

theorem cairnImageVerified_leaves (s : State) : ∃ t, exec (.cairnImageVerified) s = .next t ∧ only [.hdrs, .cores, .ctls, .ctx, .fence, .host, .glob, .pwr, .sec, .loop, .drv, .cbus, .hut, .cairn] s t := by
  refine ⟨_, rfl, ?_⟩; simp

theorem startupSensorCheck_leaves (s : State) : ∃ t, exec (.startupSensorCheck) s = .next t ∧ only [.hdrs, .hut, .cairn] s t := by
  refine ⟨_, rfl, ?_⟩; simp

theorem flowProofStart_leaves (s : State) : ∃ t, exec (.flowProofStart) s = .next t ∧ only [.hdrs, .host, .glob, .pwr, .cool, .loop, .drv, .hut] s t := by
  refine ⟨_, rfl, ?_⟩; simp

theorem flowProofPass_leaves (s : State) : ∃ t, exec (.flowProofPass) s = .next t ∧ only [.env, .hdrs, .host, .glob, .pwr, .cool, .loop, .hut, .cairn] s t := by
  refine ⟨_, rfl, ?_⟩; simp

theorem flowProofTimeout_leaves (s : State) : ∃ t, exec (.flowProofTimeout) s = .next t ∧ only [.hdrs, .host, .glob, .cool, .loop, .drv, .hut, .cairn] s t := by
  refine ⟨_, rfl, ?_⟩; simp

theorem computeDieResetRelease_leaves (s : State) : ∃ t, exec (.computeDieResetRelease) s = .next t ∧ only [.env, .hdrs, .ctls, .pwr, .sec, .thm] s t := by
  refine ⟨_, rfl, ?_⟩; simp

theorem campCoresStart_leaves (s : State) : ∃ t, exec (.campCoresStart) s = .next t ∧ only [.hdrs, .sec, .hut, .cairn] s t := by
  refine ⟨_, rfl, ?_⟩; simp

theorem trainingComplete_leaves (s : State) : ∃ t, exec (.trainingComplete) s = .next t ∧ only [.hdrs, .ctls, .ledge, .mesh, .hbm, .fence, .fab, .host, .glob, .evts] s t := by
  refine ⟨_, rfl, ?_⟩; simp

theorem akXGenerated_leaves (s : State) : ∃ t, exec (.akXGenerated) s = .next t ∧ only [.sec, .fresh] s t := by
  refine ⟨_, rfl, ?_⟩; simp

theorem zeroFillDone_leaves (s : State) : ∃ t, exec (.zeroFillDone) s = .next t ∧ only [.ledge, .hbm, .sec] s t := by
  refine ⟨_, rfl, ?_⟩; simp

theorem startupStepTimeout_leaves : ∀ stepNo (s : State), ∃ t, exec (.startupStepTimeout stepNo) s = .next t ∧ only [.env, .hdrs, .cores, .ctls, .ledge, .mesh, .hbm, .arbs, .arbSels, .ctx, .fence, .fab, .host, .glob, .pwr, .sec, .dbg, .thm, .cool, .loop, .drv, .hut, .cairn] s t := by
  intro stepNo s; refine ⟨_, rfl, ?_⟩; simp

theorem modHeartbeatToggle_leaves (s : State) : ∃ t, exec (.modHeartbeatToggle) s = .next t ∧ only [.hdrs, .host, .glob, .pwr, .evts, .cairn] s t := by
  refine ⟨_, rfl, ?_⟩; simp

theorem wld_leaves : ∀ c (s : State), ∃ t, exec (.wld c) s = .next t ∧ only [.reply, .hdrs, .cores, .ctls, .ledge, .mesh, .hbm, .ctx, .fence, .host, .glob, .pwr, .sec, .dbg, .evts] s t := by
  intro c s; refine ⟨_, rfl, ?_⟩; simp

theorem wldComplete_leaves : ∀ c (s : State), ∃ t, exec (.wldComplete c) s = .next t ∧ only [.reply, .hdrs, .cores, .ctls, .ledge, .mesh, .hbm, .ctx, .fence, .host, .glob, .pwr, .sec, .dbg, .evts] s t := by
  intro c s; refine ⟨_, rfl, ?_⟩; simp

theorem wsw_leaves : ∀ c (s : State), ∃ t, exec (.wsw c) s = .next t ∧ only [.reply, .hdrs, .cores, .ctls, .ledge, .mesh, .hbm, .ctx, .fence, .host, .glob, .pwr, .sec, .dbg, .evts] s t := by
  intro c s; refine ⟨_, rfl, ?_⟩; simp

theorem bankDrainDone_leaves : ∀ c (s : State), ∃ t, exec (.bankDrainDone c) s = .next t ∧ only [.reply, .hdrs, .cores, .ctls, .ledge, .mesh, .hbm, .ctx, .fence, .host, .glob, .pwr, .sec, .dbg, .evts] s t := by
  intro c s; refine ⟨_, rfl, ?_⟩; simp

theorem str_leaves : ∀ c (s : State), ∃ t, exec (.str c) s = .next t ∧ only [.reply, .hdrs, .cores, .ctls, .ledge, .mesh, .hbm, .ctx, .fence, .host, .glob, .pwr, .sec, .dbg, .evts] s t := by
  intro c s; refine ⟨_, rfl, ?_⟩; simp

theorem strComplete_leaves : ∀ c (s : State), ∃ t, exec (.strComplete c) s = .next t ∧ only [.hdrs, .cores, .host, .glob, .dbg] s t := by
  intro c s; refine ⟨_, rfl, ?_⟩; simp

theorem ancClr_leaves : ∀ c (s : State), ∃ t, exec (.ancClr c) s = .next t ∧ only [.reply, .hdrs, .cores, .ctls, .ledge, .mesh, .hbm, .ctx, .fence, .host, .glob, .pwr, .sec, .dbg, .evts] s t := by
  intro c s; refine ⟨_, rfl, ?_⟩; simp

theorem ancRd_leaves : ∀ c (s : State), ∃ t, exec (.ancRd c) s = .next t ∧ only [.reply, .hdrs, .cores, .ctls, .ledge, .mesh, .hbm, .ctx, .fence, .host, .glob, .pwr, .sec, .dbg, .evts] s t := by
  intro c s; refine ⟨_, rfl, ?_⟩; simp

theorem ancExp_leaves : ∀ c (s : State), ∃ t, exec (.ancExp c) s = .next t ∧ only [.reply, .hdrs, .cores, .ctls, .ledge, .mesh, .hbm, .ctx, .fence, .host, .glob, .pwr, .sec, .dbg, .evts] s t := by
  intro c s; refine ⟨_, rfl, ?_⟩; simp

theorem ancMrg_leaves : ∀ c (s : State), ∃ t, exec (.ancMrg c) s = .next t ∧ only [.reply, .hdrs, .cores, .ctls, .ledge, .mesh, .hbm, .ctx, .fence, .host, .glob, .pwr, .sec, .dbg, .evts] s t := by
  intro c s; refine ⟨_, rfl, ?_⟩; simp

theorem vecAdd_leaves : ∀ c (s : State), ∃ t, exec (.vecAdd c) s = .next t ∧ only [.reply, .hdrs, .cores, .ctls, .ledge, .mesh, .hbm, .ctx, .fence, .host, .glob, .pwr, .sec, .dbg, .evts] s t := by
  intro c s; refine ⟨_, rfl, ?_⟩; simp

theorem vecSub_leaves : ∀ c (s : State), ∃ t, exec (.vecSub c) s = .next t ∧ only [.reply, .hdrs, .cores, .ctls, .ledge, .mesh, .hbm, .ctx, .fence, .host, .glob, .pwr, .sec, .dbg, .evts] s t := by
  intro c s; refine ⟨_, rfl, ?_⟩; simp

theorem vecMul_leaves : ∀ c (s : State), ∃ t, exec (.vecMul c) s = .next t ∧ only [.reply, .hdrs, .cores, .ctls, .ledge, .mesh, .hbm, .ctx, .fence, .host, .glob, .pwr, .sec, .dbg, .evts] s t := by
  intro c s; refine ⟨_, rfl, ?_⟩; simp

theorem vecFma_leaves : ∀ c (s : State), ∃ t, exec (.vecFma c) s = .next t ∧ only [.reply, .hdrs, .cores, .ctls, .ledge, .mesh, .hbm, .ctx, .fence, .host, .glob, .pwr, .sec, .dbg, .evts] s t := by
  intro c s; refine ⟨_, rfl, ?_⟩; simp

theorem vecMin_leaves : ∀ c (s : State), ∃ t, exec (.vecMin c) s = .next t ∧ only [.reply, .hdrs, .cores, .ctls, .ledge, .mesh, .hbm, .ctx, .fence, .host, .glob, .pwr, .sec, .dbg, .evts] s t := by
  intro c s; refine ⟨_, rfl, ?_⟩; simp

theorem vecMax_leaves : ∀ c (s : State), ∃ t, exec (.vecMax c) s = .next t ∧ only [.reply, .hdrs, .cores, .ctls, .ledge, .mesh, .hbm, .ctx, .fence, .host, .glob, .pwr, .sec, .dbg, .evts] s t := by
  intro c s; refine ⟨_, rfl, ?_⟩; simp

theorem vecClt_leaves : ∀ c (s : State), ∃ t, exec (.vecClt c) s = .next t ∧ only [.reply, .hdrs, .cores, .ctls, .ledge, .mesh, .hbm, .ctx, .fence, .host, .glob, .pwr, .sec, .dbg, .evts] s t := by
  intro c s; refine ⟨_, rfl, ?_⟩; simp

theorem vecCeq_leaves : ∀ c (s : State), ∃ t, exec (.vecCeq c) s = .next t ∧ only [.reply, .hdrs, .cores, .ctls, .ledge, .mesh, .hbm, .ctx, .fence, .host, .glob, .pwr, .sec, .dbg, .evts] s t := by
  intro c s; refine ⟨_, rfl, ?_⟩; simp

theorem vecSel_leaves : ∀ c (s : State), ∃ t, exec (.vecSel c) s = .next t ∧ only [.reply, .hdrs, .cores, .ctls, .ledge, .mesh, .hbm, .ctx, .fence, .host, .glob, .pwr, .sec, .dbg, .evts] s t := by
  intro c s; refine ⟨_, rfl, ?_⟩; simp

theorem vecAbs_leaves : ∀ c (s : State), ∃ t, exec (.vecAbs c) s = .next t ∧ only [.reply, .hdrs, .cores, .ctls, .ledge, .mesh, .hbm, .ctx, .fence, .host, .glob, .pwr, .sec, .dbg, .evts] s t := by
  intro c s; refine ⟨_, rfl, ?_⟩; simp

theorem vecNeg_leaves : ∀ c (s : State), ∃ t, exec (.vecNeg c) s = .next t ∧ only [.reply, .hdrs, .cores, .ctls, .ledge, .mesh, .hbm, .ctx, .fence, .host, .glob, .pwr, .sec, .dbg, .evts] s t := by
  intro c s; refine ⟨_, rfl, ?_⟩; simp

theorem vecExp_leaves : ∀ c (s : State), ∃ t, exec (.vecExp c) s = .next t ∧ only [.reply, .hdrs, .cores, .ctls, .ledge, .mesh, .hbm, .ctx, .fence, .host, .glob, .pwr, .sec, .dbg, .evts] s t := by
  intro c s; refine ⟨_, rfl, ?_⟩; simp

theorem vecRcp_leaves : ∀ c (s : State), ∃ t, exec (.vecRcp c) s = .next t ∧ only [.reply, .hdrs, .cores, .ctls, .ledge, .mesh, .hbm, .ctx, .fence, .host, .glob, .pwr, .sec, .dbg, .evts] s t := by
  intro c s; refine ⟨_, rfl, ?_⟩; simp

theorem vecRsq_leaves : ∀ c (s : State), ∃ t, exec (.vecRsq c) s = .next t ∧ only [.reply, .hdrs, .cores, .ctls, .ledge, .mesh, .hbm, .ctx, .fence, .host, .glob, .pwr, .sec, .dbg, .evts] s t := by
  intro c s; refine ⟨_, rfl, ?_⟩; simp

theorem vecRsum_leaves : ∀ c (s : State), ∃ t, exec (.vecRsum c) s = .next t ∧ only [.reply, .hdrs, .cores, .ctls, .ledge, .mesh, .hbm, .ctx, .fence, .host, .glob, .pwr, .sec, .dbg, .evts] s t := by
  intro c s; refine ⟨_, rfl, ?_⟩; simp

theorem vecRmax_leaves : ∀ c (s : State), ∃ t, exec (.vecRmax c) s = .next t ∧ only [.reply, .hdrs, .cores, .ctls, .ledge, .mesh, .hbm, .ctx, .fence, .host, .glob, .pwr, .sec, .dbg, .evts] s t := by
  intro c s; refine ⟨_, rfl, ?_⟩; simp

theorem vecBcast_leaves : ∀ c (s : State), ∃ t, exec (.vecBcast c) s = .next t ∧ only [.reply, .hdrs, .cores, .ctls, .ledge, .mesh, .hbm, .ctx, .fence, .host, .glob, .pwr, .sec, .dbg, .evts] s t := by
  intro c s; refine ⟨_, rfl, ?_⟩; simp

theorem vecCvth_leaves : ∀ c (s : State), ∃ t, exec (.vecCvth c) s = .next t ∧ only [.reply, .hdrs, .cores, .ctls, .ledge, .mesh, .hbm, .ctx, .fence, .host, .glob, .pwr, .sec, .dbg, .evts] s t := by
  intro c s; refine ⟨_, rfl, ?_⟩; simp

theorem vecCvt4_leaves : ∀ c (s : State), ∃ t, exec (.vecCvt4 c) s = .next t ∧ only [.reply, .hdrs, .cores, .ctls, .ledge, .mesh, .hbm, .ctx, .fence, .host, .glob, .pwr, .sec, .dbg, .evts] s t := by
  intro c s; refine ⟨_, rfl, ?_⟩; simp

theorem vecCvt6_leaves : ∀ c (s : State), ∃ t, exec (.vecCvt6 c) s = .next t ∧ only [.reply, .hdrs, .cores, .ctls, .ledge, .mesh, .hbm, .ctx, .fence, .host, .glob, .pwr, .sec, .dbg, .evts] s t := by
  intro c s; refine ⟨_, rfl, ?_⟩; simp

theorem vecCvt8_leaves : ∀ c (s : State), ∃ t, exec (.vecCvt8 c) s = .next t ∧ only [.reply, .hdrs, .cores, .ctls, .ledge, .mesh, .hbm, .ctx, .fence, .host, .glob, .pwr, .sec, .dbg, .evts] s t := by
  intro c s; refine ⟨_, rfl, ?_⟩; simp

theorem vecVld_leaves : ∀ c (s : State), ∃ t, exec (.vecVld c) s = .next t ∧ only [.reply, .hdrs, .cores, .ctls, .ledge, .mesh, .hbm, .ctx, .fence, .host, .glob, .pwr, .sec, .dbg, .evts] s t := by
  intro c s; refine ⟨_, rfl, ?_⟩; simp

theorem vecVst_leaves : ∀ c (s : State), ∃ t, exec (.vecVst c) s = .next t ∧ only [.reply, .hdrs, .cores, .ctls, .ledge, .mesh, .hbm, .ctx, .fence, .host, .glob, .pwr, .sec, .dbg, .evts] s t := by
  intro c s; refine ⟨_, rfl, ?_⟩; simp

theorem movIn_leaves : ∀ c (s : State), ∃ t, exec (.movIn c) s = .next t ∧ only [.reply, .hdrs, .cores, .ctls, .ledge, .mesh, .hbm, .ctx, .fence, .host, .glob, .pwr, .sec, .dbg, .evts] s t := by
  intro c s; refine ⟨_, rfl, ?_⟩; simp

theorem movOut_leaves : ∀ c (s : State), ∃ t, exec (.movOut c) s = .next t ∧ only [.reply, .hdrs, .cores, .ctls, .ledge, .mesh, .hbm, .ctx, .fence, .host, .glob, .pwr, .sec, .dbg, .evts] s t := by
  intro c s; refine ⟨_, rfl, ?_⟩; exact issueWith_key _ _ (by intro c i s; simp) _ _

theorem movLocal_leaves : ∀ c (s : State), ∃ t, exec (.movLocal c) s = .next t ∧ only [.reply, .hdrs, .cores, .ctls, .ledge, .mesh, .hbm, .ctx, .fence, .host, .glob, .pwr, .sec, .dbg, .evts] s t := by
  intro c s; refine ⟨_, rfl, ?_⟩; simp

theorem snd_leaves : ∀ c (s : State), ∃ t, exec (.snd c) s = .next t ∧ only [.reply, .hdrs, .cores, .ctls, .ledge, .mesh, .hbm, .ctx, .fence, .host, .glob, .pwr, .sec, .dbg, .evts] s t := by
  intro c s; refine ⟨_, rfl, ?_⟩; exact issueWith_key _ _ (by intro c i s; simp) _ _

theorem rcv_leaves : ∀ c (s : State), ∃ t, exec (.rcv c) s = .next t ∧ only [.reply, .hdrs, .cores, .ctls, .ledge, .mesh, .hbm, .ctx, .fence, .host, .glob, .pwr, .sec, .dbg, .evts] s t := by
  intro c s; refine ⟨_, rfl, ?_⟩; simp

theorem sig_leaves : ∀ c (s : State), ∃ t, exec (.sig c) s = .next t ∧ only [.reply, .hdrs, .cores, .ctls, .ledge, .mesh, .hbm, .ctx, .fence, .host, .glob, .pwr, .sec, .dbg, .evts] s t := by
  intro c s; refine ⟨_, rfl, ?_⟩; exact issueWith_key _ _ (by intro c i s; simp) _ _

theorem watBarrier_leaves : ∀ c (s : State), ∃ t, exec (.watBarrier c) s = .next t ∧ only [.reply, .hdrs, .cores, .ctls, .ledge, .mesh, .hbm, .ctx, .fence, .host, .glob, .pwr, .sec, .dbg, .evts] s t := by
  intro c s; refine ⟨_, rfl, ?_⟩; exact issueWith_key _ _ (by intro c i s; simp) _ _

theorem watBarrierRelease_leaves : ∀ c (s : State), ∃ t, exec (.watBarrierRelease c) s = .next t ∧ only [.cores] s t := by
  intro c s; refine ⟨_, rfl, ?_⟩; simp

theorem watLocal_leaves : ∀ c (s : State), ∃ t, exec (.watLocal c) s = .next t ∧ only [.reply, .hdrs, .cores, .ctls, .ledge, .mesh, .hbm, .ctx, .fence, .host, .glob, .pwr, .sec, .dbg, .evts] s t := by
  intro c s; refine ⟨_, rfl, ?_⟩; exact issueWith_key _ _ (by intro c i s; simp) _ _

theorem watLocalRelease_leaves : ∀ c (s : State), ∃ t, exec (.watLocalRelease c) s = .next t ∧ only [.cores] s t := by
  intro c s; refine ⟨_, rfl, ?_⟩; simp

theorem wipe_leaves : ∀ c (s : State), ∃ t, exec (.wipe c) s = .next t ∧ only [.reply, .hdrs, .cores, .ctls, .ledge, .mesh, .hbm, .ctx, .fence, .host, .glob, .pwr, .sec, .dbg, .evts] s t := by
  intro c s; refine ⟨_, rfl, ?_⟩; exact issueWith_key _ _ (by intro c i s; simp) _ _

theorem pitchEnd_leaves : ∀ c (s : State), ∃ t, exec (.pitchEnd c) s = .next t ∧ only [.reply, .hdrs, .cores, .ctls, .ledge, .mesh, .hbm, .ctx, .fence, .host, .glob, .pwr, .sec, .dbg, .evts] s t := by
  intro c s; refine ⟨_, rfl, ?_⟩; exact issueWith_key _ _ (by intro c i s; unfold endEffect; simp) _ _

theorem programFetch_leaves : ∀ c crcFail (s : State), ∃ t, exec (.programFetch c crcFail) s = .next t ∧ only [.reply, .hdrs, .cores, .ctls, .ledge, .mesh, .hbm, .ctx, .fence, .host, .glob, .pwr, .sec, .dbg, .evts] s t := by
  intro c crcFail s; refine ⟨_, rfl, ?_⟩; simp

theorem pitchDispatch_leaves : ∀ l (s : State), ∃ t, exec (.pitchDispatch l) s = .next t ∧ only [.reply, .hdrs, .cores, .ctls, .ctx, .fence, .host, .glob, .sec, .dbg, .evts] s t := by
  intro l s; refine ⟨_, rfl, ?_⟩; simp

theorem tokenInstallment_leaves : ∀ c (s : State), ∃ t, exec (.tokenInstallment c) s = .next t ∧ only [.reply, .hdrs, .cores, .ctls, .ledge, .mesh, .hbm, .arbs, .ctx, .fence, .host, .glob, .pwr, .sec, .dbg, .evts] s t := by
  intro c s; refine ⟨_, rfl, ?_⟩; simp

theorem meterDebit_leaves : ∀ c events (s : State), ∃ t, exec (.meterDebit c events) s = .next t ∧ only [.hdrs, .cores, .ctls, .host, .glob, .pwr, .evts, .thm] s t := by
  intro c events s; refine ⟨_, rfl, ?_⟩; simp

theorem commit_leaves : ∀ c (s : State), ∃ t, exec (.commit c) s = .next t ∧ only [.reply, .hdrs, .cores, .ctls, .ledge, .mesh, .hbm, .ctx, .fence, .fab, .host, .glob, .pwr, .sec, .dbg, .evts] s t := by
  intro c s; refine ⟨_, rfl, ?_⟩; simp

theorem cycleBudgetCutoff_leaves : ∀ c (s : State), ∃ t, exec (.cycleBudgetCutoff c) s = .next t ∧ only [.reply, .hdrs, .cores, .ctls, .ctx, .fence, .host, .glob, .pwr, .sec, .dbg, .evts] s t := by
  intro c s; refine ⟨_, rfl, ?_⟩; simp

theorem sequencerWatchdog_leaves : ∀ c (s : State), ∃ t, exec (.sequencerWatchdog c) s = .next t ∧ only [.hdrs, .cores, .ctls, .ctx, .fence, .host, .glob, .pwr] s t := by
  intro c s; refine ⟨_, rfl, ?_⟩; simp

theorem parityError_leaves : ∀ c unit index (s : State), ∃ t, exec (.parityError c unit index) s = .next t ∧ only [.hdrs, .cores, .ctls, .ctx, .fence, .host, .glob, .pwr] s t := by
  intro c unit index s; refine ⟨_, rfl, ?_⟩; simp

theorem coreAbort_leaves : ∀ c (s : State), ∃ t, exec (.coreAbort c) s = .next t ∧ only [.reply, .hdrs, .cores, .ctls, .ctx, .fence, .host, .glob, .pwr, .sec, .dbg, .evts] s t := by
  intro c s; refine ⟨_, rfl, ?_⟩; (repeat' first | with_reducible apply only_if | split) <;> simp

theorem coreHalt_leaves : ∀ c on (s : State), ∃ t, exec (.coreHalt c on) s = .next t ∧ only [.ctls] s t := by
  intro c on s; refine ⟨_, rfl, ?_⟩; simp

theorem haltBoundaryReached_leaves : ∀ c (s : State), ∃ t, exec (.haltBoundaryReached c) s = .next t ∧ only [.hdrs, .ctls, .host, .glob, .evts] s t := by
  intro c s; refine ⟨_, rfl, ?_⟩; simp

theorem stopRecord_leaves : ∀ c (s : State), ∃ t, exec (.stopRecord c) s = .next t ∧ only [.reply, .hdrs, .cores, .ctls, .ctx, .fence, .host, .glob, .pwr, .sec, .evts] s t := by
  intro c s; refine ⟨_, rfl, ?_⟩; simp

theorem fenceWipeDone_leaves : ∀ c (s : State), ∃ t, exec (.fenceWipeDone c) s = .next t ∧ only [.hdrs, .cores, .ctls, .host, .glob] s t := by
  intro c s; refine ⟨_, rfl, ?_⟩; simp

theorem fenceWipeTimeout_leaves : ∀ c (s : State), ∃ t, exec (.fenceWipeTimeout c) s = .next t ∧ only [.hdrs, .cores, .ctls, .host, .glob] s t := by
  intro c s; refine ⟨_, rfl, ?_⟩; simp

theorem epochBoundary_leaves (s : State) : ∃ t, exec (.epochBoundary) s = .next t ∧ only [.hdrs, .ctls, .ctx, .host, .glob, .pwr, .evts] s t := by
  refine ⟨_, rfl, ?_⟩; simp

theorem slotBoundary_leaves (s : State) : ∃ t, exec (.slotBoundary) s = .next t ∧ only [.reply, .hdrs, .cores, .ctls, .ledge, .mesh, .hbm, .ctx, .fence, .fab, .host, .glob, .pwr, .sec, .dbg, .evts] s t := by
  refine ⟨_, rfl, ?_⟩; simp

theorem coreSwitchResume_leaves : ∀ c (s : State), ∃ t, exec (.coreSwitchResume c) s = .next t ∧ only [.reply, .hdrs, .cores, .ctls, .ctx, .fence, .host, .glob, .pwr, .sec, .evts] s t := by
  intro c s; refine ⟨_, rfl, ?_⟩; simp

theorem restoreBlockFail_leaves : ∀ c unit (s : State), ∃ t, exec (.restoreBlockFail c unit) s = .next t ∧ only [.hdrs, .ledge, .mesh, .hbm, .ctx, .fence, .host, .glob, .evts] s t := by
  intro c unit s; refine ⟨_, rfl, ?_⟩; simp

theorem meshBlockForward_leaves : ∀ router dir hdr payload (s : State), ∃ t, exec (.meshBlockForward router dir hdr payload) s = .next t ∧ only [.hdrs, .mesh, .host, .glob, .evts] s t := by
  intro router dir hdr payload s; refine ⟨_, rfl, ?_⟩; simp

theorem meshReadDataRx_leaves : ∀ hdr payload hopErr (s : State), ∃ t, exec (.meshReadDataRx hdr payload hopErr) s = .next t ∧ only [.reply, .hdrs, .cores, .ctls, .ledge, .mesh, .hbm, .ctx, .fence, .host, .glob, .pwr, .sec, .dbg, .evts] s t := by
  intro hdr payload hopErr s; refine ⟨_, rfl, ?_⟩; simp

theorem meshReadRequestRx_leaves : ∀ hdr (s : State), ∃ t, exec (.meshReadRequestRx hdr) s = .next t ∧ only [.hdrs, .mesh, .host, .glob] s t := by
  intro hdr s; refine ⟨_, rfl, ?_⟩; simp

theorem meshWriteRx_leaves : ∀ hdr payload (s : State), ∃ t, exec (.meshWriteRx hdr payload) s = .next t ∧ only [.hdrs, .ledge, .mesh, .hbm, .host, .glob] s t := by
  intro hdr payload s; refine ⟨_, rfl, ?_⟩; simp

theorem meshWriteAckRx_leaves : ∀ hdr (s : State), ∃ t, exec (.meshWriteAckRx hdr) s = .next t ∧ only [.reply, .mesh] s t := by
  intro hdr s; refine ⟨_, rfl, ?_⟩; simp

theorem meshNakRx_leaves : ∀ hdr hopErr (s : State), ∃ t, exec (.meshNakRx hdr hopErr) s = .next t ∧ only [.hdrs, .cores, .ctls, .mesh, .ctx, .fence, .host, .glob, .pwr, .evts] s t := by
  intro hdr hopErr s; refine ⟨_, rfl, ?_⟩; simp

theorem ledgeSpareCopyDone_leaves : ∀ g (s : State), ∃ t, exec (.ledgeSpareCopyDone g) s = .next t ∧ only [.hdrs, .ledge, .host, .glob] s t := by
  intro g s; refine ⟨_, rfl, ?_⟩; simp

theorem hbmCorrectedError_leaves : ∀ pc (s : State), ∃ t, exec (.hbmCorrectedError pc) s = .next t ∧ only [.hdrs, .hbm, .host, .glob, .evts] s t := by
  intro pc s; refine ⟨_, rfl, ?_⟩; simp

theorem hbmRetireCopyDone_leaves : ∀ pc (s : State), ∃ t, exec (.hbmRetireCopyDone pc) s = .next t ∧ only [.hdrs, .hbm, .host, .glob] s t := by
  intro pc s; refine ⟨_, rfl, ?_⟩; simp

theorem arbRequest_leaves : ∀ a req (s : State), ∃ t, exec (.arbRequest a req) s = .next t ∧ only [.arbs, .pwr, .thm] s t := by
  intro a req s; refine ⟨_, rfl, ?_⟩; simp

theorem arbRelease_leaves : ∀ a (s : State), ∃ t, exec (.arbRelease a) s = .next t ∧ only [.arbs, .pwr, .thm] s t := by
  intro a s; refine ⟨_, rfl, ?_⟩; simp

theorem arbAged_leaves : ∀ a req (s : State), ∃ t, exec (.arbAged a req) s = .next t ∧ only [.arbs] s t := by
  intro a req s; refine ⟨_, rfl, ?_⟩; simp

theorem arbCutoff_leaves : ∀ a (s : State), ∃ t, exec (.arbCutoff a) s = .next t ∧ only [.hdrs, .arbs, .arbSels, .host, .glob, .pwr, .thm] s t := by
  intro a s; refine ⟨_, rfl, ?_⟩; simp

theorem enable_leaves : ∀ x (s : State), ∃ t, exec (.enable x) s = .next t ∧ only [.hdrs, .ctls, .ctx, .fab, .host, .glob, .pwr, .sec, .evts] s t := by
  intro x s; refine ⟨_, rfl, ?_⟩; simp

theorem disable_leaves : ∀ x (s : State), ∃ t, exec (.disable x) s = .next t ∧ only [.reply, .hdrs, .cores, .ctls, .ctx, .fence, .fab, .host, .glob, .sec, .evts] s t := by
  intro x s; refine ⟨_, rfl, ?_⟩; simp

theorem drainTimeout_leaves : ∀ x (s : State), ∃ t, exec (.drainTimeout x) s = .next t ∧ only [.reply, .hdrs, .cores, .ctls, .ctx, .fence, .host, .glob, .pwr, .sec, .dbg, .evts] s t := by
  intro x s; refine ⟨_, rfl, ?_⟩; simp

theorem scrubReadbackFail_leaves : ∀ x unit again (s : State), ∃ t, exec (.scrubReadbackFail x unit again) s = .next t ∧ only [.hdrs, .ledge, .hbm, .ctx, .host, .glob, .evts] s t := by
  intro x unit again s; refine ⟨_, rfl, ?_⟩; simp

theorem scrubDone_leaves : ∀ x (s : State), ∃ t, exec (.scrubDone x) s = .next t ∧ only [.hdrs, .ledge, .hbm, .ctx, .fab, .host, .glob, .sec, .evts] s t := by
  intro x s; refine ⟨_, rfl, ?_⟩; simp

theorem ctxPartitionWrite_leaves : ∀ x off v (s : State), ∃ t, exec (.ctxPartitionWrite x off v) s = .next t ∧ only [.hdrs, .ctx, .host, .glob] s t := by
  intro x off v s; refine ⟨_, rfl, ?_⟩; simp

end Sys2Proof.Machine
end

