-- ==== Sys2Proof/Laws/Exec2.lean ====
section
/-! SUPPORT. The parts of the state that each command can change, 2 of 3. -/

namespace Sys2Proof.Machine

open Sys2Proof.Safety

theorem ctxTeamWrite_leaves : ∀ x ix v (s : State), ∃ t, exec (.ctxTeamWrite x ix v) s = .next t ∧ only [.hdrs, .ctx, .host, .glob] s t := by
  intro x ix v s; refine ⟨_, rfl, ?_⟩; simp

theorem ctxSlotLiveWrite_leaves : ∀ ix v (s : State), ∃ t, exec (.ctxSlotLiveWrite ix v) s = .next t ∧ only [.hdrs, .ctx, .host, .glob] s t := by
  intro ix v s; refine ⟨_, rfl, ?_⟩; simp

theorem ctxSlotShadowWrite_leaves : ∀ ix v (s : State), ∃ t, exec (.ctxSlotShadowWrite ix v) s = .next t ∧ only [.hdrs, .ctx, .host, .glob] s t := by
  intro ix v s; refine ⟨_, rfl, ?_⟩; simp

theorem ctxSlotCntWrite_leaves : ∀ v (s : State), ∃ t, exec (.ctxSlotCntWrite v) s = .next t ∧ only [.hdrs, .ctx, .host, .glob] s t := by
  intro v s; refine ⟨_, rfl, ?_⟩; simp

theorem ctxSlotSwap_leaves (s : State) : ∃ t, exec (.ctxSlotSwap) s = .next t ∧ only [.ctx] s t := by
  refine ⟨_, rfl, ?_⟩; simp

theorem ctxBarValWrite_leaves : ∀ x ctr v (s : State), ∃ t, exec (.ctxBarValWrite x ctr v) s = .next t ∧ only [.hdrs, .ctx, .host, .glob] s t := by
  intro x ctr v s; refine ⟨_, rfl, ?_⟩; simp

theorem pitch_leaves : ∀ src lcore desc (s : State), ∃ t, exec (.pitch src lcore desc) s = .next t ∧ only [.reply, .hdrs, .ledge, .mesh, .hbm, .ctx, .host, .glob, .evts] s t := by
  intro src lcore desc s; refine ⟨_, rfl, ?_⟩; simp

theorem coll_leaves : ∀ src d (s : State), ∃ t, exec (.coll src d) s = .next t ∧ only [.reply, .hdrs, .ledge, .mesh, .hbm, .fab, .host, .glob, .evts] s t := by
  intro src d s; refine ⟨_, rfl, ?_⟩; simp

theorem wcopy_leaves : ∀ src op rank addr off len (s : State), ∃ t, exec (.wcopy src op rank addr off len) s = .next t ∧ only [.reply, .hdrs, .ledge, .mesh, .hbm, .ctx, .fab, .host, .glob, .evts] s t := by
  intro src op rank addr off len s; refine ⟨_, rfl, ?_⟩; simp

theorem bind_leaves : ∀ src (s : State), ∃ t, exec (.bind src) s = .next t ∧ only [.reply, .hdrs, .ctx, .host, .glob] s t := by
  intro src s; refine ⟨_, rfl, ?_⟩; simp

theorem unbind_leaves : ∀ src slot (s : State), ∃ t, exec (.unbind src slot) s = .next t ∧ only [.reply, .hdrs, .ctx, .host, .glob] s t := by
  intro src slot s; refine ⟨_, rfl, ?_⟩; simp

theorem admitCmd_leaves : ∀ src hbm ledge (s : State), ∃ t, exec (.admitCmd src hbm ledge) s = .next t ∧ only [.reply, .hdrs, .host, .glob] s t := by
  intro src hbm ledge s; refine ⟨_, rfl, ?_⟩; simp

theorem wpage_leaves : ∀ src first count st target (s : State), ∃ t, exec (.wpage src first count st target) s = .next t ∧ only [.reply, .hdrs, .host, .glob] s t := by
  intro src first count st target s; refine ⟨_, rfl, ?_⟩; (repeat' first | with_reducible apply only_if | split) <;> simp

theorem wpageTransition_leaves : ∀ page (s : State), ∃ t, exec (.wpageTransition page) s = .next t ∧ only [.reply, .hdrs, .host, .glob] s t := by
  intro page s; refine ⟨_, rfl, ?_⟩; simp

theorem nop_leaves : ∀ src (s : State), ∃ t, exec (.nop src) s = .next t ∧ only [.reply, .hdrs, .host, .glob] s t := by
  intro src s; refine ⟨_, rfl, ?_⟩; (repeat' first | with_reducible apply only_if | split) <;> simp

theorem ctxrd_leaves : ∀ src ctx off (s : State), ∃ t, exec (.ctxrd src ctx off) s = .next t ∧ only [.reply, .hdrs, .host, .glob] s t := by
  intro src ctx off s; refine ⟨_, rfl, ?_⟩; simp

theorem ctxwr_leaves : ∀ src ctx off v (s : State), ∃ t, exec (.ctxwr src ctx off v) s = .next t ∧ only [.reply, .hdrs, .cores, .ctls, .ctx, .fence, .fab, .host, .glob, .pwr, .sec, .evts] s t := by
  intro src ctx off v s; refine ⟨_, rfl, ?_⟩; (repeat' first | with_reducible apply only_if | split) <;> simp

theorem sqDoorbell_leaves : ∀ f ix v (s : State), ∃ t, exec (.sqDoorbell f ix v) s = .next t ∧ only [.reply, .hdrs, .host, .glob] s t := by
  intro f ix v s; refine ⟨_, rfl, ?_⟩; (repeat' first | with_reducible apply only_if | split) <;> simp

theorem cqDoorbell_leaves : ∀ f ix v (s : State), ∃ t, exec (.cqDoorbell f ix v) s = .next t ∧ only [.reply, .hdrs, .host, .glob] s t := by
  intro f ix v s; refine ⟨_, rfl, ?_⟩; (repeat' first | with_reducible apply only_if | split) <;> simp

theorem sqEnable_leaves : ∀ f ix v (s : State), ∃ t, exec (.sqEnable f ix v) s = .next t ∧ only [.reply, .hdrs, .host, .glob] s t := by
  intro f ix v s; refine ⟨_, rfl, ?_⟩; (repeat' first | with_reducible apply only_if | split) <;> simp

theorem cqEnable_leaves : ∀ f ix v (s : State), ∃ t, exec (.cqEnable f ix v) s = .next t ∧ only [.reply, .hdrs, .host, .glob] s t := by
  intro f ix v s; refine ⟨_, rfl, ?_⟩; (repeat' first | with_reducible apply only_if | split) <;> simp

theorem descriptorConsume_leaves : ∀ f ix entry (s : State), ∃ t, exec (.descriptorConsume f ix entry) s = .next t ∧ only [.reply, .hdrs, .cores, .ctls, .ledge, .mesh, .hbm, .ctx, .fence, .fab, .host, .glob, .pwr, .sec, .evts, .fresh] s t := by
  intro f ix entry s; refine ⟨_, rfl, ?_⟩; simp

theorem completionPost_leaves : ∀ f ix (s : State), ∃ t, exec (.completionPost f ix) s = .next t ∧ only [.host] s t := by
  intro f ix s; refine ⟨_, rfl, ?_⟩; simp

theorem coalTimeExpiry_leaves : ∀ f ix (s : State), ∃ t, exec (.coalTimeExpiry f ix) s = .next t ∧ only [.host] s t := by
  intro f ix s; refine ⟨_, rfl, ?_⟩; simp

theorem windowAccess_leaves : ∀ f tee off len data (s : State), ∃ t, exec (.windowAccess f tee off len data) s = .next t ∧ only [.reply, .hdrs, .ledge, .mesh, .hbm, .host, .glob, .evts] s t := by
  intro f tee off len data s; refine ⟨_, rfl, ?_⟩; simp

theorem vfFlr_leaves : ∀ x (s : State), ∃ t, exec (.vfFlr x) s = .next t ∧ only [.reply, .hdrs, .cores, .ctls, .ctx, .fence, .fab, .host, .glob, .sec, .evts] s t := by
  intro x s; refine ⟨_, rfl, ?_⟩; simp

theorem ideIntegrityFailure_leaves : ∀ stream bound (s : State), ∃ t, exec (.ideIntegrityFailure stream bound) s = .next t ∧ only [.hdrs, .host, .glob] s t := by
  intro stream bound s; refine ⟨_, rfl, ?_⟩; simp

theorem ideKm_leaves : ∀ sess stream (s : State), ∃ t, exec (.ideKm sess stream) s = .next t ∧ only [.reply, .host] s t := by
  intro sess stream s; refine ⟨_, rfl, ?_⟩; simp

theorem tdispGetVersion_leaves : ∀ x (s : State), ∃ t, exec (.tdispGetVersion x) s = .next t ∧ only [.reply] s t := by
  intro x s; refine ⟨_, rfl, ?_⟩; simp

theorem tdispGetCapabilities_leaves : ∀ x (s : State), ∃ t, exec (.tdispGetCapabilities x) s = .next t ∧ only [.reply] s t := by
  intro x s; refine ⟨_, rfl, ?_⟩; simp

theorem lockInterface_leaves : ∀ x (s : State), ∃ t, exec (.lockInterface x) s = .next t ∧ only [.reply, .host] s t := by
  intro x s; refine ⟨_, rfl, ?_⟩; simp

theorem getDeviceInterfaceReport_leaves : ∀ x (s : State), ∃ t, exec (.getDeviceInterfaceReport x) s = .next t ∧ only [.reply] s t := by
  intro x s; refine ⟨_, rfl, ?_⟩; simp

theorem getDeviceInterfaceState_leaves : ∀ x (s : State), ∃ t, exec (.getDeviceInterfaceState x) s = .next t ∧ only [.reply] s t := by
  intro x s; refine ⟨_, rfl, ?_⟩; simp

theorem startInterface_leaves : ∀ x (s : State), ∃ t, exec (.startInterface x) s = .next t ∧ only [.reply, .host] s t := by
  intro x s; refine ⟨_, rfl, ?_⟩; simp

theorem stopInterface_leaves : ∀ x (s : State), ∃ t, exec (.stopInterface x) s = .next t ∧ only [.reply, .hdrs, .cores, .ctls, .ctx, .fence, .fab, .host, .glob, .sec, .evts] s t := by
  intro x s; refine ⟨_, rfl, ?_⟩; simp

theorem fabPortEnable_leaves : ∀ p (s : State), ∃ t, exec (.fabPortEnable p) s = .next t ∧ only [.fab] s t := by
  intro p s; refine ⟨_, rfl, ?_⟩; simp

theorem laneSetAgreed_leaves : ∀ p lanes failed (s : State), ∃ t, exec (.laneSetAgreed p lanes failed) s = .next t ∧ only [.reply, .hdrs, .ledge, .mesh, .hbm, .fab, .host, .glob, .evts, .fresh] s t := by
  intro p lanes failed s; refine ⟨_, rfl, ?_⟩; simp

theorem keyHelloRx_leaves : ∀ p m (s : State), ∃ t, exec (.keyHelloRx p m) s = .next t ∧ only [.reply, .hdrs, .ledge, .mesh, .hbm, .fab, .host, .glob, .evts, .fresh] s t := by
  intro p m s; refine ⟨_, rfl, ?_⟩; simp

theorem keyCtRx_leaves : ∀ p m (s : State), ∃ t, exec (.keyCtRx p m) s = .next t ∧ only [.hdrs, .fab, .host, .glob, .evts] s t := by
  intro p m s; refine ⟨_, rfl, ?_⟩; simp

theorem keysEstablished_leaves : ∀ p (s : State), ∃ t, exec (.keysEstablished p) s = .next t ∧ only [.reply, .hdrs, .ledge, .mesh, .hbm, .fab, .host, .glob, .evts] s t := by
  intro p s; refine ⟨_, rfl, ?_⟩; simp

theorem trainingTimeout_leaves : ∀ p (s : State), ∃ t, exec (.trainingTimeout p) s = .next t ∧ only [.reply, .hdrs, .ledge, .mesh, .hbm, .fab, .host, .glob, .evts] s t := by
  intro p s; refine ⟨_, rfl, ?_⟩; simp

theorem fabPortDisable_leaves : ∀ p (s : State), ∃ t, exec (.fabPortDisable p) s = .next t ∧ only [.reply, .hdrs, .ledge, .mesh, .hbm, .fab, .host, .glob, .evts] s t := by
  intro p s; refine ⟨_, rfl, ?_⟩; simp

theorem fabRetrain_leaves : ∀ p (s : State), ∃ t, exec (.fabRetrain p) s = .next t ∧ only [.reply, .hdrs, .ledge, .mesh, .hbm, .fab, .host, .glob, .evts] s t := by
  intro p s; refine ⟨_, rfl, ?_⟩; simp

theorem fabKeyRotate_leaves : ∀ p (s : State), ∃ t, exec (.fabKeyRotate p) s = .next t ∧ only [.fab] s t := by
  intro p s; refine ⟨_, rfl, ?_⟩; simp

theorem keyRotationDue_leaves : ∀ p (s : State), ∃ t, exec (.keyRotationDue p) s = .next t ∧ only [.fab] s t := by
  intro p s; refine ⟨_, rfl, ?_⟩; simp

theorem keyRotationTimeout_leaves : ∀ p (s : State), ∃ t, exec (.keyRotationTimeout p) s = .next t ∧ only [.reply, .hdrs, .ledge, .mesh, .hbm, .fab, .host, .glob, .evts] s t := by
  intro p s; refine ⟨_, rfl, ?_⟩; simp

theorem fabTagRx_leaves : ∀ p blocks tag lanes (s : State), ∃ t, exec (.fabTagRx p blocks tag lanes) s = .next t ∧ only [.reply, .hdrs, .ledge, .mesh, .hbm, .fab, .host, .glob, .evts] s t := by
  intro p blocks tag lanes s; refine ⟨_, rfl, ?_⟩; simp

theorem fabAckcrRx_leaves : ∀ p last cr0 cr1 cr2 cr3 (s : State), ∃ t, exec (.fabAckcrRx p last cr0 cr1 cr2 cr3) s = .next t ∧ only [.hdrs, .fab, .host, .glob, .evts] s t := by
  intro p last cr0 cr1 cr2 cr3 s; refine ⟨_, rfl, ?_⟩; simp

theorem fabNakRx_leaves : ∀ p lseq lanes (s : State), ∃ t, exec (.fabNakRx p lseq lanes) s = .next t ∧ only [.reply, .hdrs, .ledge, .mesh, .hbm, .fab, .host, .glob, .evts] s t := by
  intro p lseq lanes s; refine ⟨_, rfl, ?_⟩; (repeat' first | with_reducible apply only_if | split) <;> simp

theorem fabAckTimeout_leaves : ∀ p (s : State), ∃ t, exec (.fabAckTimeout p) s = .next t ∧ only [.reply, .hdrs, .ledge, .mesh, .hbm, .fab, .host, .glob, .evts] s t := by
  intro p s; refine ⟨_, rfl, ?_⟩; (repeat' first | with_reducible apply only_if | split) <;> simp

theorem auditDue_leaves : ∀ p (s : State), ∃ t, exec (.auditDue p) s = .next t ∧ only [.fab] s t := by
  intro p s; refine ⟨_, rfl, ?_⟩; simp

theorem audit_leaves : ∀ p vl k sSent sCred lseq (s : State), ∃ t, exec (.audit p vl k sSent sCred lseq) s = .next t ∧ only [.reply, .hdrs, .ledge, .mesh, .hbm, .fab, .host, .glob, .evts] s t := by
  intro p vl k sSent sCred lseq s; refine ⟨_, rfl, ?_⟩; (repeat' first | with_reducible apply only_if | split) <;> simp

theorem resetWord_leaves : ∀ p cause last o0 o1 o2 o3 (s : State), ∃ t, exec (.resetWord p cause last o0 o1 o2 o3) s = .next t ∧ only [.reply, .hdrs, .ledge, .mesh, .hbm, .fab, .host, .glob, .evts] s t := by
  intro p cause last o0 o1 o2 o3 s; refine ⟨_, rfl, ?_⟩; simp

theorem resetAck_leaves : ∀ p last o0 o1 o2 o3 (s : State), ∃ t, exec (.resetAck p last o0 o1 o2 o3) s = .next t ∧ only [.reply, .hdrs, .ledge, .mesh, .hbm, .fab, .host, .glob, .evts] s t := by
  intro p last o0 o1 o2 o3 s; refine ⟨_, rfl, ?_⟩; simp

theorem fabBlockRoute_leaves : ∀ b origin inPort (s : State), ∃ t, exec (.fabBlockRoute b origin inPort) s = .next t ∧ only [.reply, .hdrs, .ledge, .mesh, .hbm, .fab, .host, .glob, .evts] s t := by
  intro b origin inPort s; refine ⟨_, rfl, ?_⟩; simp

theorem dataBlock_leaves : ∀ b inPort (s : State), ∃ t, exec (.dataBlock b inPort) s = .next t ∧ only [.reply, .hdrs, .ledge, .hbm, .fab, .host, .glob, .evts] s t := by
  intro b inPort s; refine ⟨_, rfl, ?_⟩; simp

theorem channelSpaceTimeout_leaves : ∀ x ch (s : State), ∃ t, exec (.channelSpaceTimeout x ch) s = .next t ∧ only [.reply, .hdrs, .ledge, .hbm, .fab, .host, .glob, .evts] s t := by
  intro x ch s; refine ⟨_, rfl, ?_⟩; simp

theorem returnBlock_leaves : ∀ b inPort (s : State), ∃ t, exec (.returnBlock b inPort) s = .next t ∧ only [.reply, .hdrs, .fab, .host, .glob, .evts] s t := by
  intro b inPort s; refine ⟨_, rfl, ?_⟩; simp

theorem deliveryRecordPost_leaves : ∀ x (s : State), ∃ t, exec (.deliveryRecordPost x) s = .next t ∧ only [.hdrs, .fab, .host, .glob] s t := by
  intro x s; refine ⟨_, rfl, ?_⟩; simp

theorem routeHoldExpiry_leaves : ∀ node (s : State), ∃ t, exec (.routeHoldExpiry node) s = .next t ∧ only [.reply, .hdrs, .ledge, .mesh, .hbm, .fab, .host, .glob, .evts] s t := by
  intro node s; refine ⟨_, rfl, ?_⟩; simp

theorem fabRtWrite_leaves : ∀ node ports (s : State), ∃ t, exec (.fabRtWrite node ports) s = .next t ∧ only [.hdrs, .fab, .host, .glob] s t := by
  intro node ports s; refine ⟨_, rfl, ?_⟩; simp

theorem collBlockRx_leaves : ∀ b inPort (s : State), ∃ t, exec (.collBlockRx b inPort) s = .next t ∧ only [.reply, .hdrs, .ledge, .mesh, .hbm, .fab, .host, .glob, .evts] s t := by
  intro b inPort s; refine ⟨_, rfl, ?_⟩; simp

theorem collComplete_leaves : ∀ x slot (s : State), ∃ t, exec (.collComplete x slot) s = .next t ∧ only [.reply, .hdrs, .ledge, .hbm, .fab, .host, .glob] s t := by
  intro x slot s; refine ⟨_, rfl, ?_⟩; simp

theorem collTimeout_leaves : ∀ x slot (s : State), ∃ t, exec (.collTimeout x slot) s = .next t ∧ only [.reply, .hdrs, .fab, .host, .glob] s t := by
  intro x slot s; refine ⟨_, rfl, ?_⟩; simp

theorem winWr_leaves : ∀ b inPort (s : State), ∃ t, exec (.winWr b inPort) s = .next t ∧ only [.reply, .hdrs, .ledge, .hbm, .fab, .host, .glob, .evts] s t := by
  intro b inPort s; refine ⟨_, rfl, ?_⟩; simp

theorem winRd_leaves : ∀ b inPort (s : State), ∃ t, exec (.winRd b inPort) s = .next t ∧ only [.reply, .hdrs, .ledge, .mesh, .hbm, .fab, .host, .glob, .evts] s t := by
  intro b inPort s; refine ⟨_, rfl, ?_⟩; simp

theorem winRdd_leaves : ∀ b inPort (s : State), ∃ t, exec (.winRdd b inPort) s = .next t ∧ only [.reply, .hdrs, .ledge, .hbm, .fab, .host, .glob, .evts] s t := by
  intro b inPort s; refine ⟨_, rfl, ?_⟩; simp

theorem winAck_leaves : ∀ b inPort (s : State), ∃ t, exec (.winAck b inPort) s = .next t ∧ only [.reply, .hdrs, .fab, .host, .glob, .evts] s t := by
  intro b inPort s; refine ⟨_, rfl, ?_⟩; simp

theorem channelBrokenClear_leaves : ∀ x ch (s : State), ∃ t, exec (.channelBrokenClear x ch) s = .next t ∧ only [.fab] s t := by
  intro x ch s; refine ⟨_, rfl, ?_⟩; simp

theorem fallbackTimeout_leaves (s : State) : ∃ t, exec (.fallbackTimeout) s = .next t ∧ only [.hdrs, .ctls, .host, .glob, .pwr, .evts] s t := by
  refine ⟨_, rfl, ?_⟩; simp

theorem pwrHbWrite_leaves : ∀ seq (s : State), ∃ t, exec (.pwrHbWrite seq) s = .next t ∧ only [.hdrs, .host, .glob, .pwr, .evts] s t := by
  intro seq s; refine ⟨_, rfl, ?_⟩; simp

theorem cairnCapUpdate_leaves : ∀ meas (s : State), ∃ t, exec (.cairnCapUpdate meas) s = .next t ∧ only [.hdrs, .host, .glob, .pwr, .evts, .thm, .cool] s t := by
  intro meas s; refine ⟨_, rfl, ?_⟩; simp

theorem hardwareTrip_leaves : ∀ diode (s : State), ∃ t, exec (.hardwareTrip diode) s = .next t ∧ only [.hdrs, .ctls, .host, .glob, .pwr, .evts] s t := by
  intro diode s; refine ⟨_, rfl, ?_⟩; simp

theorem tripEnd_leaves (s : State) : ∃ t, exec (.tripEnd) s = .next t ∧ only [.hdrs, .ctls, .host, .glob, .pwr, .evts] s t := by
  refine ⟨_, rfl, ?_⟩; simp

theorem diodeSample_leaves : ∀ diode temp (s : State), ∃ t, exec (.diodeSample diode temp) s = .next t ∧ only [.hdrs, .ctls, .host, .glob, .sec, .evts, .thm] s t := by
  intro diode temp s; refine ⟨_, rfl, ?_⟩; simp

theorem thermalUpdate_leaves : ∀ ledgeT hbmT (s : State), ∃ t, exec (.thermalUpdate ledgeT hbmT) s = .next t ∧ only [.hdrs, .ctls, .host, .glob, .pwr, .sec, .evts, .thm] s t := by
  intro ledgeT hbmT s; refine ⟨_, rfl, ?_⟩; simp

theorem allowanceSilence_leaves (s : State) : ∃ t, exec (.allowanceSilence) s = .next t ∧ only [.hdrs, .ctls, .host, .glob, .pwr, .sec, .evts, .thm] s t := by
  refine ⟨_, rfl, ?_⟩; simp

theorem thmRun_leaves : ∀ on (s : State), ∃ t, exec (.thmRun on) s = .next t ∧ only [.ctls, .pwr, .sec, .thm] s t := by
  intro on s; refine ⟨_, rfl, ?_⟩; simp

theorem thmModelDataWrite_leaves : ∀ v (s : State), ∃ t, exec (.thmModelDataWrite v) s = .next t ∧ only [.thm] s t := by
  intro v s; refine ⟨_, rfl, ?_⟩; simp

theorem sensorSuspect_leaves : ∀ sensor (s : State), ∃ t, exec (.sensorSuspect sensor) s = .next t ∧ only [.hdrs, .host, .glob, .evts, .thm, .cool, .hut] s t := by
  intro sensor s; refine ⟨_, rfl, ?_⟩; simp

theorem sensorSuspectClear_leaves : ∀ sensor (s : State), ∃ t, exec (.sensorSuspectClear sensor) s = .next t ∧ only [.hdrs, .host, .glob, .evts, .thm, .cool, .hut] s t := by
  intro sensor s; refine ⟨_, rfl, ?_⟩; simp

theorem sensorFault_leaves : ∀ sensor (s : State), ∃ t, exec (.sensorFault sensor) s = .next t ∧ only [.hdrs, .cores, .ctls, .ctx, .fence, .host, .glob, .pwr, .evts, .thm, .cool, .hut] s t := by
  intro sensor s; refine ⟨_, rfl, ?_⟩; simp

theorem inputFault_leaves : ∀ kind idx (s : State), ∃ t, exec (.inputFault kind idx) s = .next t ∧ only [.hdrs, .host, .glob, .drv, .hut] s t := by
  intro kind idx s; refine ⟨_, rfl, ?_⟩; simp

theorem coolantSample_leaves : ∀ th flow (s : State), ∃ t, exec (.coolantSample th flow) s = .next t ∧ only [.hdrs, .host, .glob, .pwr, .cool, .loop, .drv, .hut] s t := by
  intro th flow s; refine ⟨_, rfl, ?_⟩; simp

theorem suddenStopTimeout_leaves (s : State) : ∃ t, exec (.suddenStopTimeout) s = .next t ∧ only [.env, .hdrs, .cores, .ctls, .ledge, .mesh, .hbm, .arbs, .arbSels, .ctx, .fence, .fab, .host, .glob, .pwr, .sec, .dbg, .thm, .cool, .loop, .drv, .hut, .cairn] s t := by
  refine ⟨_, rfl, ?_⟩; simp

theorem lowFlowTimeout_leaves (s : State) : ∃ t, exec (.lowFlowTimeout) s = .next t ∧ only [.env, .hdrs, .cores, .ctls, .ledge, .mesh, .hbm, .arbs, .arbSels, .ctx, .fence, .fab, .host, .glob, .pwr, .sec, .dbg, .thm, .cool, .loop, .drv, .hut, .cairn] s t := by
  refine ⟨_, rfl, ?_⟩; simp

theorem standbyPumpStart_leaves (s : State) : ∃ t, exec (.standbyPumpStart) s = .next t ∧ only [.drv] s t := by
  refine ⟨_, rfl, ?_⟩; simp

theorem shutdownPumpRelease_leaves (s : State) : ∃ t, exec (.shutdownPumpRelease) s = .next t ∧ only [.cool, .drv] s t := by
  refine ⟨_, rfl, ?_⟩; simp

theorem autoFlowProof_leaves (s : State) : ∃ t, exec (.autoFlowProof) s = .next t ∧ only [.hdrs, .host, .glob, .pwr, .cool, .loop, .drv, .hut] s t := by
  refine ⟨_, rfl, ?_⟩; simp

theorem implausSet_leaves (s : State) : ∃ t, exec (.implausSet) s = .next t ∧ only [.hdrs, .cool, .hut] s t := by
  refine ⟨_, rfl, ?_⟩; simp

theorem implausClear_leaves (s : State) : ∃ t, exec (.implausClear) s = .next t ∧ only [.cool] s t := by
  refine ⟨_, rfl, ?_⟩; simp

theorem slotLatch_leaves : ∀ ix (s : State), ∃ t, exec (.slotLatch ix) s = .next t ∧ only [.hdrs, .host, .glob, .loop, .drv, .hut] s t := by
  intro ix s; refine ⟨_, rfl, ?_⟩; simp

theorem slotOutputWrite_leaves : ∀ ix (s : State), ∃ t, exec (.slotOutputWrite ix) s = .next t ∧ only [.hdrs, .host, .glob, .loop, .drv, .hut] s t := by
  intro ix s; refine ⟨_, rfl, ?_⟩; simp

theorem followingErrorTrip_leaves : ∀ ix (s : State), ∃ t, exec (.followingErrorTrip ix) s = .next t ∧ only [.hdrs, .host, .glob, .loop, .hut] s t := by
  intro ix s; refine ⟨_, rfl, ?_⟩; simp

theorem loopRun_leaves : ∀ on (s : State), ∃ t, exec (.loopRun on) s = .next t ∧ only [.hdrs, .host, .glob, .loop, .drv, .hut] s t := by
  intro on s; refine ⟨_, rfl, ?_⟩; simp

theorem loopSlotEnable_leaves : ∀ ix on (s : State), ∃ t, exec (.loopSlotEnable ix on) s = .next t ∧ only [.hdrs, .host, .glob, .loop, .hut] s t := by
  intro ix on s; refine ⟨_, rfl, ?_⟩; simp

theorem holdSet_leaves : ∀ ix (s : State), ∃ t, exec (.holdSet ix) s = .next t ∧ only [.hdrs, .host, .glob, .loop, .hut] s t := by
  intro ix s; refine ⟨_, rfl, ?_⟩; simp

theorem holdClear_leaves : ∀ ix (s : State), ∃ t, exec (.holdClear ix) s = .next t ∧ only [.hdrs, .host, .glob, .loop, .hut] s t := by
  intro ix s; refine ⟨_, rfl, ?_⟩; simp

theorem loopSlotRegisterWrite_leaves : ∀ ix off v (s : State), ∃ t, exec (.loopSlotRegisterWrite ix off v) s = .next t ∧ only [.hdrs, .host, .glob, .loop, .hut] s t := by
  intro ix off v s; refine ⟨_, rfl, ?_⟩; simp

theorem injectGo_leaves : ∀ v (s : State), ∃ t, exec (.injectGo v) s = .next t ∧ only [.hdrs, .host, .glob, .loop, .hut] s t := by
  intro v s; refine ⟨_, rfl, ?_⟩; simp

theorem valveOnEdge_leaves : ∀ v (s : State), ∃ t, exec (.valveOnEdge v) s = .next t ∧ only [.hdrs, .host, .glob, .drv, .hut] s t := by
  intro v s; refine ⟨_, rfl, ?_⟩; simp

theorem valveOffEdge_leaves : ∀ v (s : State), ∃ t, exec (.valveOffEdge v) s = .next t ∧ only [.hdrs, .host, .glob, .drv, .hut] s t := by
  intro v s; refine ⟨_, rfl, ?_⟩; simp

theorem valveWordTimer_leaves : ∀ v (s : State), ∃ t, exec (.valveWordTimer v) s = .next t ∧ only [.hdrs, .host, .glob, .drv, .hut] s t := by
  intro v s; refine ⟨_, rfl, ?_⟩; simp

theorem boostCurrentReached_leaves : ∀ v (s : State), ∃ t, exec (.boostCurrentReached v) s = .next t ∧ only [.hdrs, .host, .glob, .drv, .hut] s t := by
  intro v s; refine ⟨_, rfl, ?_⟩; simp

theorem boostTimeout_leaves : ∀ v (s : State), ∃ t, exec (.boostTimeout v) s = .next t ∧ only [.hdrs, .host, .glob, .drv, .hut] s t := by
  intro v s; refine ⟨_, rfl, ?_⟩; simp

theorem deferredBoostStart_leaves : ∀ v (s : State), ∃ t, exec (.deferredBoostStart v) s = .next t ∧ only [.hdrs, .drv, .hut] s t := by
  intro v s; refine ⟨_, rfl, ?_⟩; simp

theorem coilModelUpdate_leaves : ∀ v irms (s : State), ∃ t, exec (.coilModelUpdate v irms) s = .next t ∧ only [.hdrs, .host, .glob, .drv, .hut] s t := by
  intro v irms s; refine ⟨_, rfl, ?_⟩; simp

theorem valveConfigWrite_leaves : ∀ v off w (s : State), ∃ t, exec (.valveConfigWrite v off w) s = .next t ∧ only [.hdrs, .host, .glob, .drv] s t := by
  intro v off w s; refine ⟨_, rfl, ?_⟩; simp

end Sys2Proof.Machine
end

