-- ==== Sys2Proof/Laws/Exec3.lean ====
section
/-! SUPPORT. The parts of the state that each command can change, 3 of 3. -/

namespace Sys2Proof.Machine

open Sys2Proof.Safety

theorem motorModeOff_leaves : ∀ m (s : State), ∃ t, exec (.motorModeOff m) s = .next t ∧ only [.drv] s t := by
  intro m s; refine ⟨_, rfl, ?_⟩; simp

theorem motorModeStart_leaves : ∀ m (s : State), ∃ t, exec (.motorModeStart m) s = .next t ∧ only [.drv] s t := by
  intro m s; refine ⟨_, rfl, ?_⟩; simp

theorem motorModeLoop_leaves : ∀ m (s : State), ∃ t, exec (.motorModeLoop m) s = .next t ∧ only [.drv] s t := by
  intro m s; refine ⟨_, rfl, ?_⟩; simp

theorem motorModeMax_leaves : ∀ m (s : State), ∃ t, exec (.motorModeMax m) s = .next t ∧ only [.drv] s t := by
  intro m s; refine ⟨_, rfl, ?_⟩; simp

theorem startResponse_leaves : ∀ m byEst (s : State), ∃ t, exec (.startResponse m byEst) s = .next t ∧ only [.hdrs, .host, .glob, .drv, .hut] s t := by
  intro m byEst s; refine ⟨_, rfl, ?_⟩; simp

theorem startAttemptTimeout_leaves : ∀ m (s : State), ∃ t, exec (.startAttemptTimeout m) s = .next t ∧ only [.hdrs, .host, .glob, .drv, .hut] s t := by
  intro m s; refine ⟨_, rfl, ?_⟩; simp

theorem startRetry_leaves : ∀ m (s : State), ∃ t, exec (.startRetry m) s = .next t ∧ only [.drv] s t := by
  intro m s; refine ⟨_, rfl, ?_⟩; simp

theorem motorDriverFault_leaves : ∀ m (s : State), ∃ t, exec (.motorDriverFault m) s = .next t ∧ only [.hdrs, .host, .glob, .drv, .hut] s t := by
  intro m s; refine ⟨_, rfl, ?_⟩; simp

theorem tachBroken_leaves : ∀ m (s : State), ∃ t, exec (.tachBroken m) s = .next t ∧ only [.hdrs, .host, .glob, .drv, .hut] s t := by
  intro m s; refine ⟨_, rfl, ?_⟩; simp

theorem ageMeasurement_leaves : ∀ m meanIq (s : State), ∃ t, exec (.ageMeasurement m meanIq) s = .next t ∧ only [.hdrs, .host, .glob, .drv, .hut] s t := by
  intro m meanIq s; refine ⟨_, rfl, ?_⟩; simp

theorem acousticCapUpdate_leaves (s : State) : ∃ t, exec (.acousticCapUpdate) s = .next t ∧ only [.hdrs, .host, .glob, .drv, .hut] s t := by
  refine ⟨_, rfl, ?_⟩; simp

theorem ropeBandChange_leaves : ∀ r ohms (s : State), ∃ t, exec (.ropeBandChange r ohms) s = .next t ∧ only [.hdrs, .host, .glob, .drv, .hut] s t := by
  intro r ohms s; refine ⟨_, rfl, ?_⟩; simp

theorem leakLatch_leaves : ∀ r (s : State), ∃ t, exec (.leakLatch r) s = .next t ∧ only [.hdrs, .host, .glob, .loop, .drv, .cbus, .hut] s t := by
  intro r s; refine ⟨_, rfl, ?_⟩; simp

theorem leakRepeat_leaves (s : State) : ∃ t, exec (.leakRepeat) s = .next t ∧ only [.hdrs, .cbus, .hut] s t := by
  refine ⟨_, rfl, ?_⟩; simp

theorem frameRx_leaves : ∀ ix f (s : State), ∃ t, exec (.frameRx ix f) s = .next t ∧ only [.hdrs, .host, .glob, .drv, .cbus, .hut] s t := by
  intro ix f s; refine ⟨_, rfl, ?_⟩; simp

theorem objLockRead_leaves : ∀ ix k (s : State), ∃ t, exec (.objLockRead ix k) s = .next t ∧ only [.reply, .cbus] s t := by
  intro ix k s; refine ⟨_, rfl, ?_⟩; simp

theorem objRelease_leaves : ∀ ix k (s : State), ∃ t, exec (.objRelease ix k) s = .next t ∧ only [.hdrs, .host, .glob, .cbus] s t := by
  intro ix k s; refine ⟨_, rfl, ?_⟩; simp

theorem frameTxDone_leaves : ∀ ix (s : State), ∃ t, exec (.frameTxDone ix) s = .next t ∧ only [.cbus] s t := by
  intro ix s; refine ⟨_, rfl, ?_⟩; simp

theorem frameTxExpiry_leaves : ∀ ix (s : State), ∃ t, exec (.frameTxExpiry ix) s = .next t ∧ only [.hdrs, .cbus, .hut] s t := by
  intro ix s; refine ⟨_, rfl, ?_⟩; simp

theorem busOff_leaves : ∀ ix (s : State), ∃ t, exec (.busOff ix) s = .next t ∧ only [.hdrs, .host, .glob, .cbus, .hut] s t := by
  intro ix s; refine ⟨_, rfl, ?_⟩; simp

theorem busOffRecoveryDone_leaves : ∀ ix (s : State), ∃ t, exec (.busOffRecoveryDone ix) s = .next t ∧ only [.hdrs, .host, .glob, .cbus, .hut] s t := by
  intro ix s; refine ⟨_, rfl, ?_⟩; simp

theorem cbusBitTimingWrite_leaves : ∀ ix dbt v (s : State), ∃ t, exec (.cbusBitTimingWrite ix dbt v) s = .next t ∧ only [.hdrs, .cbus, .hut] s t := by
  intro ix dbt v s; refine ⟨_, rfl, ?_⟩; simp

theorem leak_leaves : ∀ src (s : State), ∃ t, exec (.leak src) s = .next t ∧ only [.hdrs, .host, .glob, .drv, .cbus, .hut] s t := by
  intro src s; refine ⟨_, rfl, ?_⟩; simp

theorem peerLeakHoldEnd_leaves (s : State) : ∃ t, exec (.peerLeakHoldEnd) s = .next t ∧ only [.hdrs, .host, .glob, .drv, .cbus, .hut] s t := by
  refine ⟨_, rfl, ?_⟩; simp

theorem tref_leaves : ∀ ix src role carried start (s : State), ∃ t, exec (.tref ix src role carried start) s = .next t ∧ only [.hdrs, .host, .glob, .cbus, .hut] s t := by
  intro ix src role carried start s; refine ⟨_, rfl, ?_⟩; simp

theorem trefSendDue_leaves (s : State) : ∃ t, exec (.trefSendDue) s = .next t ∧ only [.hdrs, .host, .glob, .cbus, .hut] s t := by
  refine ⟨_, rfl, ?_⟩; simp

theorem lease_leaves : ∀ src g claim release primary epoch (s : State), ∃ t, exec (.lease src g claim release primary epoch) s = .next t ∧ only [.hdrs, .host, .glob, .drv, .cbus, .hut] s t := by
  intro src g claim release primary epoch s; refine ⟨_, rfl, ?_⟩; simp

theorem mirror_leaves : ∀ src g part epoch entries (s : State), ∃ t, exec (.mirror src g part epoch entries) s = .next t ∧ only [.cbus] s t := by
  intro src g part epoch entries s; refine ⟨_, rfl, ?_⟩; simp

theorem health_leaves : ∀ src bits leaseStates cool (s : State), ∃ t, exec (.health src bits leaseStates cool) s = .next t ∧ only [.hdrs, .host, .glob, .cbus, .hut] s t := by
  intro src bits leaseStates cool s; refine ⟨_, rfl, ?_⟩; simp

theorem leaseRenewalDue_leaves : ∀ g (s : State), ∃ t, exec (.leaseRenewalDue g) s = .next t ∧ only [.hdrs, .cbus, .hut] s t := by
  intro g s; refine ⟨_, rfl, ?_⟩; simp

theorem leaseHolderTimeout_leaves : ∀ g (s : State), ∃ t, exec (.leaseHolderTimeout g) s = .next t ∧ only [.hdrs, .host, .glob, .drv, .cbus, .hut] s t := by
  intro g s; refine ⟨_, rfl, ?_⟩; simp

theorem leaseExpiry_leaves : ∀ g (s : State), ∃ t, exec (.leaseExpiry g) s = .next t ∧ only [.hdrs, .host, .glob, .cbus] s t := by
  intro g s; refine ⟨_, rfl, ?_⟩; simp

theorem leaseClaimSend_leaves : ∀ g (s : State), ∃ t, exec (.leaseClaimSend g) s = .next t ∧ only [.hdrs, .host, .glob, .cbus, .hut] s t := by
  intro g s; refine ⟨_, rfl, ?_⟩; simp

theorem leaseClaimWaitEnd_leaves : ∀ g (s : State), ∃ t, exec (.leaseClaimWaitEnd g) s = .next t ∧ only [.hdrs, .host, .glob, .loop, .drv, .cbus, .hut] s t := by
  intro g s; refine ⟨_, rfl, ?_⟩; simp

theorem selfTest_leaves : ∀ readBackA readBackB drivers slots (s : State), ∃ t, exec (.selfTest readBackA readBackB drivers slots) s = .next t ∧ only [.hdrs, .host, .glob, .drv, .cbus, .hut] s t := by
  intro readBackA readBackB drivers slots s; refine ⟨_, rfl, ?_⟩; simp

theorem senderStateExpiry_leaves : ∀ src (s : State), ∃ t, exec (.senderStateExpiry src) s = .next t ∧ only [.cbus] s t := by
  intro src s; refine ⟨_, rfl, ?_⟩; simp

theorem sealOpen_leaves : ∀ src offer base size (s : State), ∃ t, exec (.sealOpen src offer base size) s = .next t ∧ only [.reply, .hdrs, .ledge, .hbm, .host, .glob, .sec, .fresh] s t := by
  intro src offer base size s; refine ⟨_, rfl, ?_⟩; simp

theorem sealRotate_leaves : ∀ src offer (s : State), ∃ t, exec (.sealRotate src offer) s = .next t ∧ only [.reply, .hdrs, .ledge, .hbm, .host, .glob, .sec, .fresh] s t := by
  intro src offer s; refine ⟨_, rfl, ?_⟩; simp

theorem sealKey_leaves : ∀ src pkg epoch (s : State), ∃ t, exec (.sealKey src pkg epoch) s = .next t ∧ only [.reply, .hdrs, .ledge, .mesh, .hbm, .host, .glob, .sec, .evts] s t := by
  intro src pkg epoch s; refine ⟨_, rfl, ?_⟩; simp

theorem sealPage_leaves : ∀ src page epoch staging (s : State), ∃ t, exec (.sealPage src page epoch staging) s = .next t ∧ only [.reply, .hdrs, .ledge, .mesh, .hbm, .host, .glob, .sec, .evts] s t := by
  intro src page epoch staging s; refine ⟨_, rfl, ?_⟩; simp

theorem trngHealthFailure_leaves : ∀ die (s : State), ∃ t, exec (.trngHealthFailure die) s = .next t ∧ only [.hdrs, .host, .glob, .sec, .evts, .hut] s t := by
  intro die s; refine ⟨_, rfl, ?_⟩; simp

theorem trngHealthRecover_leaves : ∀ die (s : State), ∃ t, exec (.trngHealthRecover die) s = .next t ∧ only [.sec] s t := by
  intro die s; refine ⟨_, rfl, ?_⟩; simp

theorem spdmGetVersion_leaves : ∀ doe (s : State), ∃ t, exec (.spdmGetVersion doe) s = .next t ∧ only [.reply] s t := by
  intro doe s; refine ⟨_, rfl, ?_⟩; simp

theorem spdmGetCapabilities_leaves : ∀ doe (s : State), ∃ t, exec (.spdmGetCapabilities doe) s = .next t ∧ only [.reply] s t := by
  intro doe s; refine ⟨_, rfl, ?_⟩; simp

theorem negotiateAlgorithms_leaves : ∀ doe (s : State), ∃ t, exec (.negotiateAlgorithms doe) s = .next t ∧ only [.reply] s t := by
  intro doe s; refine ⟨_, rfl, ?_⟩; simp

theorem getDigests_leaves : ∀ doe (s : State), ∃ t, exec (.getDigests doe) s = .next t ∧ only [.reply] s t := by
  intro doe s; refine ⟨_, rfl, ?_⟩; simp

theorem getCertificate_leaves : ∀ doe (s : State), ∃ t, exec (.getCertificate doe) s = .next t ∧ only [.reply] s t := by
  intro doe s; refine ⟨_, rfl, ?_⟩; simp

theorem challenge_leaves : ∀ doe (s : State), ∃ t, exec (.challenge doe) s = .next t ∧ only [.reply] s t := by
  intro doe s; refine ⟨_, rfl, ?_⟩; simp

theorem getMeasurements_leaves : ∀ doe (s : State), ∃ t, exec (.getMeasurements doe) s = .next t ∧ only [.reply] s t := by
  intro doe s; refine ⟨_, rfl, ?_⟩; simp

theorem keyExchange_leaves : ∀ doe (s : State), ∃ t, exec (.keyExchange doe) s = .next t ∧ only [.reply, .sec, .fresh] s t := by
  intro doe s; refine ⟨_, rfl, ?_⟩; simp

theorem finish_leaves : ∀ doe sess cert (s : State), ∃ t, exec (.finish doe sess cert) s = .next t ∧ only [.reply, .hdrs, .host, .glob, .sec, .evts, .hut] s t := by
  intro doe sess cert s; refine ⟨_, rfl, ?_⟩; simp

theorem keyUpdate_leaves : ∀ doe sess (s : State), ∃ t, exec (.keyUpdate doe sess) s = .next t ∧ only [.reply, .sec] s t := by
  intro doe sess s; refine ⟨_, rfl, ?_⟩; simp

theorem heartbeat_leaves : ∀ doe sess (s : State), ∃ t, exec (.heartbeat doe sess) s = .next t ∧ only [.reply] s t := by
  intro doe sess s; refine ⟨_, rfl, ?_⟩; simp

theorem endSession_leaves : ∀ doe sess (s : State), ∃ t, exec (.endSession doe sess) s = .next t ∧ only [.reply, .sec] s t := by
  intro doe sess s; refine ⟨_, rfl, ?_⟩; simp

theorem spdmHeartbeatLoss_leaves : ∀ doe sess (s : State), ∃ t, exec (.spdmHeartbeatLoss doe sess) s = .next t ∧ only [.hdrs, .host, .glob, .sec, .evts, .hut] s t := by
  intro doe sess s; refine ⟨_, rfl, ?_⟩; simp

theorem dbgHalt_leaves : ∀ on (s : State), ∃ t, exec (.dbgHalt on) s = .next t ∧ only [.hdrs, .ctls, .host, .glob, .evts] s t := by
  intro on s; refine ⟨_, rfl, ?_⟩; simp

theorem dbgStep_leaves (s : State) : ∃ t, exec (.dbgStep) s = .next t ∧ only [.hdrs, .ctls, .host, .glob, .evts] s t := by
  refine ⟨_, rfl, ?_⟩; simp

theorem dbgTrace_leaves : ∀ on (s : State), ∃ t, exec (.dbgTrace on) s = .next t ∧ only [.dbg] s t := by
  intro on s; refine ⟨_, rfl, ?_⟩; simp

theorem dbgTraceClr_leaves (s : State) : ∃ t, exec (.dbgTraceClr) s = .next t ∧ only [.dbg] s t := by
  refine ⟨_, rfl, ?_⟩; simp

theorem dbgDataRead_leaves (s : State) : ∃ t, exec (.dbgDataRead) s = .next t ∧ only [.reply, .hdrs, .host, .glob, .dbg, .evts] s t := by
  refine ⟨_, rfl, ?_⟩; simp

theorem campFault_leaves : ∀ kind unit unit2 (s : State), ∃ t, exec (.campFault kind unit unit2) s = .next t ∧ only [.reply, .hdrs, .host, .glob, .sec, .hut, .cairn] s t := by
  intro kind unit unit2 s; refine ⟨_, rfl, ?_⟩; simp

theorem campTrip_leaves : ∀ ended diode (s : State), ∃ t, exec (.campTrip ended diode) s = .next t ∧ only [.reply, .hdrs, .host, .glob, .sec, .hut, .cairn] s t := by
  intro ended diode s; refine ⟨_, rfl, ?_⟩; simp

theorem campReady_leaves : ∀ svn (s : State), ∃ t, exec (.campReady svn) s = .next t ∧ only [.reply, .hdrs, .host, .glob, .sec, .hut, .cairn] s t := by
  intro svn s; refine ⟨_, rfl, ?_⟩; simp

theorem campSeek_leaves : ∀ idx (s : State), ∃ t, exec (.campSeek idx) s = .next t ∧ only [.reply, .hdrs, .host, .glob, .sec, .hut, .cairn] s t := by
  intro idx s; refine ⟨_, rfl, ?_⟩; simp

theorem hostEvent_leaves : ∀ code value arg (s : State), ∃ t, exec (.hostEvent code value arg) s = .next t ∧ only [.reply, .hdrs, .host, .glob, .sec, .hut, .cairn] s t := by
  intro code value arg s; refine ⟨_, rfl, ?_⟩; simp

theorem hostFlush_leaves (s : State) : ∃ t, exec (.hostFlush) s = .next t ∧ only [.reply, .hdrs, .host, .glob, .sec, .hut, .cairn] s t := by
  refine ⟨_, rfl, ?_⟩; simp

theorem hostStatus_leaves (s : State) : ∃ t, exec (.hostStatus) s = .next t ∧ only [.reply, .hdrs, .host, .glob, .sec, .hut, .cairn] s t := by
  refine ⟨_, rfl, ?_⟩; simp

theorem eventPortWrite_leaves : ∀ lo hi (s : State), ∃ t, exec (.eventPortWrite lo hi) s = .next t ∧ only [.hdrs, .host, .glob, .evts] s t := by
  intro lo hi s; refine ⟨_, rfl, ?_⟩; simp

theorem evtOvfPoll_leaves (s : State) : ∃ t, exec (.evtOvfPoll) s = .next t ∧ only [.hdrs, .evts, .hut] s t := by
  refine ⟨_, rfl, ?_⟩; simp

theorem hutBookFlushTimer_leaves (s : State) : ∃ t, exec (.hutBookFlushTimer) s = .next t ∧ only [.hdrs, .host, .glob, .hut] s t := by
  refine ⟨_, rfl, ?_⟩; simp

theorem recordAllowanceTick_leaves (s : State) : ∃ t, exec (.recordAllowanceTick) s = .next t ∧ only [.hut] s t := by
  refine ⟨_, rfl, ?_⟩; simp

theorem boardActivity_leaves (s : State) : ∃ t, exec (.boardActivity) s = .next t ∧ only [.hdrs, .hut, .cairn] s t := by
  refine ⟨_, rfl, ?_⟩; simp

theorem bmcLate_leaves (s : State) : ∃ t, exec (.bmcLate) s = .next t ∧ only [.hdrs, .hut, .cairn] s t := by
  refine ⟨_, rfl, ?_⟩; simp

theorem autonomousModeEnter_leaves (s : State) : ∃ t, exec (.autonomousModeEnter) s = .next t ∧ only [.hdrs, .host, .glob, .hut, .cairn] s t := by
  refine ⟨_, rfl, ?_⟩; simp

theorem mgmtRead_leaves : ∀ who what (s : State), ∃ t, exec (.mgmtRead who what) s = .next t ∧ only [.reply, .hdrs, .hut] s t := by
  intro who what s; refine ⟨_, rfl, ?_⟩; simp

theorem setBoardCap_leaves : ∀ who cap (s : State), ∃ t, exec (.setBoardCap who cap) s = .next t ∧ only [.reply, .hdrs, .hut, .cairn] s t := by
  intro who cap s; refine ⟨_, rfl, ?_⟩; simp

theorem moduleReset_leaves : ∀ who (s : State), ∃ t, exec (.moduleReset who) s = .next t ∧ only [.reply, .env, .hdrs, .cores, .ctls, .ledge, .mesh, .hbm, .arbs, .arbSels, .ctx, .fence, .fab, .host, .glob, .pwr, .sec, .dbg, .thm, .cool, .loop, .drv, .hut, .cairn] s t := by
  intro who s; refine ⟨_, rfl, ?_⟩; simp

theorem ledgerStage_leaves : ∀ who tag bytes (s : State), ∃ t, exec (.ledgerStage who tag bytes) s = .next t ∧ only [.reply, .hdrs, .hut, .cairn] s t := by
  intro who tag bytes s; refine ⟨_, rfl, ?_⟩; exact (mgmt_only _ _ _ _ _ _ _ _ (fun t => (orDenied_only _ _ _ _ _ (fun u => by simp) (by simp)).2 (only_refl _ _)) (by simp)).2 (only_refl _ _)

theorem ledgerCommit_leaves : ∀ who (s : State), ∃ t, exec (.ledgerCommit who) s = .next t ∧ only [.reply, .hdrs, .hut, .cairn] s t := by
  intro who s; refine ⟨_, rfl, ?_⟩; simp

theorem ledgerRevert_leaves : ∀ who (s : State), ∃ t, exec (.ledgerRevert who) s = .next t ∧ only [.reply, .hdrs, .hut, .cairn] s t := by
  intro who s; refine ⟨_, rfl, ?_⟩; simp

theorem fwStage_leaves : ∀ who dom off bytes (s : State), ∃ t, exec (.fwStage who dom off bytes) s = .next t ∧ only [.reply, .hdrs, .hut, .cairn] s t := by
  intro who dom off bytes s; refine ⟨_, rfl, ?_⟩; simp

theorem fwVerify_leaves : ∀ who dom (s : State), ∃ t, exec (.fwVerify who dom) s = .next t ∧ only [.reply, .hdrs, .hut, .cairn] s t := by
  intro who dom s; refine ⟨_, rfl, ?_⟩; simp

theorem fwDiscard_leaves : ∀ who dom (s : State), ∃ t, exec (.fwDiscard who dom) s = .next t ∧ only [.reply, .hdrs, .hut, .cairn] s t := by
  intro who dom s; refine ⟨_, rfl, ?_⟩; simp

theorem latchClear_leaves : ∀ who (s : State), ∃ t, exec (.latchClear who) s = .next t ∧ only [.reply, .hdrs, .host, .glob, .drv, .hut] s t := by
  intro who s; refine ⟨_, rfl, ?_⟩; exact (mgmt_only _ _ _ _ _ _ _ _ (fun t => (orDenied_only _ _ _ _ _ (fun u => by simp) (by simp)).2 (only_refl _ _)) (by simp)).2 (only_refl _ _)

theorem mgmtRecover_leaves : ∀ who ix (s : State), ∃ t, exec (.mgmtRecover who ix) s = .next t ∧ only [.reply, .hdrs, .cbus, .hut] s t := by
  intro who ix s; refine ⟨_, rfl, ?_⟩; exact (mgmt_only _ _ _ _ _ _ _ _ (fun t => (orDenied_only _ _ _ _ _ (fun u => by simp) (by simp)).2 (only_refl _ _)) (by simp)).2 (only_refl _ _)

theorem flowRestart_leaves : ∀ who (s : State), ∃ t, exec (.flowRestart who) s = .next t ∧ only [.reply, .hdrs, .host, .glob, .pwr, .cool, .loop, .drv, .hut] s t := by
  intro who s; refine ⟨_, rfl, ?_⟩; exact (mgmt_only _ _ _ _ _ _ _ _ (fun t => (orDenied_only _ _ _ _ _ (fun u => by simp) (by simp)).2 (only_refl _ _)) (by simp)).2 (only_refl _ _)

theorem leaseRelease_leaves : ∀ who g (s : State), ∃ t, exec (.leaseRelease who g) s = .next t ∧ only [.reply, .hdrs, .host, .glob, .drv, .cbus, .hut] s t := by
  intro who g s; refine ⟨_, rfl, ?_⟩; exact (mgmt_only _ _ _ _ _ _ _ _ (fun t => (orDenied_only _ _ _ _ _ (fun u => by simp) (by simp)).2 (only_refl _ _)) (by simp)).2 (only_refl _ _)

theorem mgmtInject_leaves : ∀ who (s : State), ∃ t, exec (.mgmtInject who) s = .next t ∧ only [.reply, .hdrs, .loop, .hut] s t := by
  intro who s; refine ⟨_, rfl, ?_⟩; simp

theorem floorRaise_leaves : ∀ who dom (s : State), ∃ t, exec (.floorRaise who dom) s = .next t ∧ only [.reply, .hdrs, .sec, .hut] s t := by
  intro who dom s; refine ⟨_, rfl, ?_⟩; simp

theorem faultClear_leaves : ∀ who (s : State), ∃ t, exec (.faultClear who) s = .next t ∧ only [.reply, .hdrs, .hut, .cairn] s t := by
  intro who s; refine ⟨_, rfl, ?_⟩; simp

theorem logClear_leaves : ∀ who (s : State), ∃ t, exec (.logClear who) s = .next t ∧ only [.reply, .hdrs, .host, .glob, .hut] s t := by
  intro who s; refine ⟨_, rfl, ?_⟩; simp

theorem blkIntSetWrite_leaves : ∀ who page bits (s : State), ∃ t, exec (.blkIntSetWrite who page bits) s = .next t ∧ only [.reply, .hdrs, .cores, .ctls, .ledge, .mesh, .hbm, .arbs, .arbSels, .ctx, .fence, .fab, .host, .glob, .pwr, .sec, .dbg, .evts, .thm, .cool, .loop, .drv, .cbus, .hut, .cairn] s t := by
  intro who page bits s; refine ⟨_, rfl, ?_⟩; simp

theorem globalIrqPendClear_leaves : ∀ bits events (s : State), ∃ t, exec (.globalIrqPendClear bits events) s = .next t ∧ only [.host, .glob] s t := by
  intro bits events s; refine ⟨_, rfl, ?_⟩; simp

theorem globalIrqRouteWrite_leaves : ∀ src v (s : State), ∃ t, exec (.globalIrqRouteWrite src v) s = .next t ∧ only [.host, .glob] s t := by
  intro src v s; refine ⟨_, rfl, ?_⟩; simp

theorem pwrFreeRead_leaves (s : State) : ∃ t, exec (.pwrFreeRead) s = .next t ∧ only [.reply, .pwr] s t := by
  refine ⟨_, rfl, ?_⟩; simp

theorem cfglDataRead_leaves (s : State) : ∃ t, exec (.cfglDataRead) s = .next t ∧ only [.reply, .cairn] s t := by
  refine ⟨_, rfl, ?_⟩; simp

theorem registerWrite_leaves : ∀ who off size v (s : State), ∃ t, exec (.registerWrite who off size v) s = .next t ∧ only [.reply, .hdrs, .cores, .ctls, .ledge, .mesh, .hbm, .arbs, .arbSels, .ctx, .fence, .fab, .host, .glob, .pwr, .sec, .dbg, .evts, .thm, .cool, .loop, .drv, .cbus, .hut, .cairn] s t := by
  intro who off size v s; refine ⟨_, rfl, ?_⟩; simp

theorem motorPwmPeriod_leaves : ∀ m ia ib ic id iq est angle (s : State), ∃ t, exec (.motorPwmPeriod m ia ib ic id iq est angle) s = .next t ∧ only [.hdrs, .host, .glob, .drv, .hut] s t := by
  intro m ia ib ic id iq est angle s; refine ⟨_, rfl, ?_⟩; simp

theorem valveShuntSample_leaves : ∀ v code (s : State), ∃ t, exec (.valveShuntSample v code) s = .next t ∧ only [.drv] s t := by
  intro v code s; refine ⟨_, rfl, ?_⟩; simp

theorem ainConversion_leaves : ∀ k code (s : State), ∃ t, exec (.ainConversion k code) s = .next t ∧ only [.drv] s t := by
  intro k code s; refine ⟨_, rfl, ?_⟩; simp

theorem pulseInputEdge_leaves : ∀ input (s : State), ∃ t, exec (.pulseInputEdge input) s = .next t ∧ only [.drv] s t := by
  intro input s; refine ⟨_, rfl, ?_⟩; simp

theorem cbusBusError_leaves : ∀ ix tec rec (s : State), ∃ t, exec (.cbusBusError ix tec rec) s = .next t ∧ only [.hdrs, .host, .glob, .cbus, .hut] s t := by
  intro ix tec rec s; refine ⟨_, rfl, ?_⟩; simp

theorem trefAgeTimeout_leaves : ∀ ix (s : State), ∃ t, exec (.trefAgeTimeout ix) s = .next t ∧ only [.hdrs, .host, .glob, .cbus, .hut] s t := by
  intro ix s; refine ⟨_, rfl, ?_⟩; simp

theorem telemetryInterval_leaves (s : State) : ∃ t, exec (.telemetryInterval) s = .next t ∧ only [.sec] s t := by
  refine ⟨_, rfl, ?_⟩; simp

theorem fabResetExchangeTimeout_leaves : ∀ p (s : State), ∃ t, exec (.fabResetExchangeTimeout p) s = .next t ∧ only [.reply, .hdrs, .ledge, .mesh, .hbm, .fab, .host, .glob, .evts] s t := by
  intro p s; refine ⟨_, rfl, ?_⟩; simp

theorem standbyPowerLost_leaves (s : State) : ∃ t, exec (.standbyPowerLost) s = .next t ∧ only [.reply, .env, .hdrs, .cores, .ctls, .ledge, .mesh, .hbm, .arbs, .arbSels, .ctx, .fence, .fab, .host, .glob, .pwr, .sec, .dbg, .evts, .thm, .cool, .loop, .drv, .cbus, .hut, .cairn] s t := by
  refine ⟨_, rfl, ?_⟩; simp

theorem registerRead_leaves : ∀ who off size (s : State), ∃ t, exec (.registerRead who off size) s = .next t ∧ only [.reply, .hdrs, .cores, .mesh, .arbs, .fab, .host, .glob, .pwr, .sec, .dbg, .evts, .drv, .cbus, .hut, .cairn] s t := by
  intro who off size s; refine ⟨_, rfl, ?_⟩; simp

theorem instructionComplete_leaves : ∀ c unit (s : State), ∃ t, exec (.instructionComplete c unit) s = .next t ∧ only [.reply, .hdrs, .cores, .ctls, .ledge, .mesh, .hbm, .ctx, .fence, .host, .glob, .pwr, .sec, .dbg, .evts] s t := by
  intro c unit s; refine ⟨_, rfl, ?_⟩; simp

end Sys2Proof.Machine
end

