-- ==== Sys2Proof/Laws/Words.lean ====
section
/-! SUPPORT. Fields laid into a 64-bit word and read back. -/

namespace Sys2Proof.PitchInstr

theorem at64_same {n lo : Nat} (v : BitVec n) (h : lo + n ≤ 64) : (at64 n v lo).extractLsb' lo n = v := by
  apply BitVec.eq_of_getLsbD_eq; intro i hi
  unfold at64; rw [BitVec.getLsbD_extractLsb', BitVec.getLsbD_shiftLeft, BitVec.getLsbD_setWidth]
  have e : lo + i - lo = i := by omega
  rw [e, decide_eq_true hi, decide_eq_true (show lo + i < 64 by omega), decide_eq_false (show ¬ lo + i < lo by omega), decide_eq_true (show i < 64 by omega)]; simp

theorem at64_off {n lo lo' m : Nat} (v : BitVec n) (h : lo + n ≤ lo' ∨ lo' + m ≤ lo) : (at64 n v lo).extractLsb' lo' m = 0#m := by
  apply BitVec.eq_of_getLsbD_eq; intro i hi
  unfold at64; rw [BitVec.getLsbD_extractLsb', BitVec.getLsbD_shiftLeft, BitVec.getLsbD_setWidth]
  rcases h with h | h
  · have : v.getLsbD (lo' + i - lo) = false := BitVec.getLsbD_of_ge _ _ (by omega)
    simp [this]
  · have : lo' + i < lo := by omega
    simp [this]

theorem or_ext {m lo : Nat} (a b : DWord) : (a ||| b).extractLsb' lo m = a.extractLsb' lo m ||| b.extractLsb' lo m := by
  apply BitVec.eq_of_getLsbD_eq; intro i hi
  simp only [BitVec.getLsbD_extractLsb', BitVec.getLsbD_or]; cases decide (i < m) <;> rfl

theorem at64_bit {lo : Nat} (b : Bool) (h : lo < 64) : (at64 1 (BitVec.ofBool b) lo).getLsbD lo = b := by
  have e := congrArg (fun x => x.getLsbD 0) (at64_same (BitVec.ofBool b) (show lo + 1 ≤ 64 by omega))
  rw [BitVec.getLsbD_extractLsb'] at e; cases b <;> simpa using e

theorem at64_nobit {n lo j : Nat} (v : BitVec n) (h : lo + n ≤ j ∨ j < lo) : (at64 n v lo).getLsbD j = false := by
  have e := congrArg (fun x => x.getLsbD 0) (at64_off v (lo' := j) (m := 1) (show lo + n ≤ j ∨ j + 1 ≤ lo by omega))
  rw [BitVec.getLsbD_extractLsb'] at e; simpa using e

theorem code_back : ∀ op : VOp, VOp.ofCode op.code = some op := by intro op; cases op <;> rfl

end Sys2Proof.PitchInstr
end

