-- ==== Sys2Proof/Tests/Slice0.lean ====
section
/-! SUPPORT. Tests of the model on small states. A theorem `witness_<Name>` gives, for each clause of the statement of that
name that has hypotheses, a state and operands that meet them together. A clause whose hypothesis speaks of a free value
(that an image, a chain, a signature, a tag or a package verifies, or an opaque length) has none: Lean cannot evaluate it. -/

set_option Elab.async false

namespace Sys2Proof.Tests

open Sys2Proof Sys2Proof.Machine Sys2Proof.Safety

/-! ### The words of pitch instructions, written out from the tables of R115 to R133 -/

/-- R117: opcode 0x01 in [63:58], [57] = 1, [56:53] = 9, [52:50] = 2, [49:24] = 5. -/
theorem test_decode_wld : PitchInstr.decode 0x0728000005000000 = some (.wld true 9 2 5) := by decide

/-- R119: opcode 0x02 in [63:58]. -/
theorem test_decode_wsw : PitchInstr.decode 0x0800000000000000 = some (.wsw) := by decide

/-- R120: opcode 0x03 in [63:58], [57:54] = 9, [53:39] = 3, [38:31] = 4, [30:22] = 5, [21:20] = 1, [19:6] = 6. -/
theorem test_decode_str : PitchInstr.decode 0x0E40018201500180 = some (.str 9 3 4 5 1 6) := by decide

/-- R122: opcode 0x08 in [63:58], [57:48] = 512, [47:40] = 7, [39:31] = 9. -/
theorem test_decode_ancClr : PitchInstr.decode 0x2200070480000000 = some (.ancClr 0x200 7 9) := by decide

/-- R123: opcode 0x09 in [63:58], [57:54] = 1, [53:51] = 4, [50] = 1, [49] = 0, [48:41] = 3, [40:32] = 2, [31:11] = 64, [10:9] = 1, [8:7] = 2. -/
theorem test_decode_ancRd : PitchInstr.decode 0x2464060200020300 = some (.ancRd 1 4 true false 3 2 64 1 2) := by decide

/-- R124: opcode 0x0A in [63:58], [48:41] = 3, [40:32] = 2, [31:11] = 64, [10:9] = 0, [8:7] = 3. -/
theorem test_decode_ancExp : PitchInstr.decode 0x2800060200020180 = some (.ancExp 3 2 64 0 3) := by decide

/-- R124: opcode 0x0B in [63:58], [48:41] = 3, [40:32] = 2, [31:11] = 64, [10:9] = 0, [8:7] = 3. -/
theorem test_decode_ancMrg : PitchInstr.decode 0x2C00060200020180 = some (.ancMrg 3 2 64 0 3) := by decide

/-- R125: opcode 0x10 in [63:58], [57:52] = 2, [51:50] = 1, [49:45] = 1, [44:40] = 2, [39:35] = 3. -/
theorem test_decode_vecSub : PitchInstr.decode 0x4024221800000000 = some (.vec .sub true 1 2 3 0 0 0) := by decide

/-- R126: opcode 0x18 in [63:58], [57:56] = 1, [55:53] = 5, [52:27] = 7, [26:12] = 8, [11:0] = 9. -/
theorem test_decode_movOut : PitchInstr.decode 0x61A0000038008009 = some (.movOut 5 7 8 9) := by decide

/-- R126: opcode 0x18 in [63:58], [57:56] = 2, [55:41] = 7, [26:12] = 8, [11:0] = 9. -/
theorem test_decode_movLocal : PitchInstr.decode 0x62000E0000008009 = some (.movLocal 7 8 9) := by decide

/-- R128: opcode 0x28 in [63:58], [57:42] = 4660, [41:40] = 2, [39:36] = 5, [35:21] = 6, [20:9] = 7. -/
theorem test_decode_snd : PitchInstr.decode 0xA048D25000C00E00 = some (.snd 0x1234 2 5 6 7) := by decide

/-- R128: opcode 0x29 in [63:58], [57:54] = 5, [53:39] = 6, [38:27] = 7. -/
theorem test_decode_rcv : PitchInstr.decode 0xA540030038000000 = some (.rcv 5 6 7) := by decide

/-- R129: opcode 0x20 in [63:58], [57:52] = 63, [51:36] = 1. -/
theorem test_decode_sig : PitchInstr.decode 0x83F0001000000000 = some (.sig 63 1) := by decide

/-- R129: opcode 0x21 in [63:58], [57] = 0, [56:51] = 62, [31:0] = 9. -/
theorem test_decode_watBarrier : PitchInstr.decode 0x85F0000000000009 = some (.watBar 62 9) := by decide

/-- R129: opcode 0x21 in [63:58], [57] = 1, [56:51] = 17. -/
theorem test_decode_watLocal : PitchInstr.decode 0x8688000000000000 = some (.watLocal 17) := by decide

/-- R132: opcode 0x30 in [63:58]. -/
theorem test_decode_wipe : PitchInstr.decode 0xC000000000000000 = some (.wipe) := by decide

/-- R133: opcode 0x3F in [63:58]. -/
theorem test_decode_end : PitchInstr.decode 0xFC00000000000000 = some (.fin) := by decide

/-- R133, R116: a reserved bit of END is set. -/
theorem test_decode_reserved_bit : PitchInstr.decode 0xFC00000000000001 = none := by decide

/-- R115, R116: opcode 0x04 is reserved. -/
theorem test_decode_reserved_opcode : PitchInstr.decode 0x1000000000000000 = none := by decide

/-! ### Ill-formed commands: one for each check -/

/-- R286: no such width. -/
theorem test_refuses_width : Instr.wellFormed (.pcieLinkUp 0 3) = false := by decide

/-- R157: a payload that is no whole number of lines. -/
theorem test_refuses_meshPayload : Instr.wellFormed (.meshWriteRx 0 [0]) = false := by decide

/-- R271, R303: the operands of a descriptor are 28 bytes. -/
theorem test_refuses_collLength : Instr.wellFormed (.coll ⟨1, 0, 0, 0⟩ []) = false := by decide

/-- R298: the physical function has ring 0 alone. -/
theorem test_refuses_ring : Instr.wellFormed (.bind ⟨0, 1, 0, 0⟩) = false := by decide

/-- R298, for a doorbell. -/
theorem test_refuses_ringOfFunction : Instr.wellFormed (.sqDoorbell 0 1 0) = false := by decide

/-- R298: an entry is 64 bytes. -/
theorem test_refuses_entryLength : Instr.wellFormed (.descriptorConsume 0 0 (some [0])) = false := by decide

/-- R290: an access of no bytes. -/
theorem test_refuses_windowLength : Instr.wellFormed (.windowAccess 1 false 0 0 none) = false := by decide

/-- The data of a write is as long as the write. -/
theorem test_refuses_windowData : Instr.wellFormed (.windowAccess 1 false 0 4 (some [0])) = false := by decide

/-- R275: a run has 1 to 8 blocks. -/
theorem test_refuses_runLength : Instr.wellFormed (.fabTagRx 0 [] 0 0) = false := by decide

/-- R249: a payload is 256 bytes or none. -/
theorem test_refuses_blockPayload : Instr.wellFormed (.winAck { src := 0, dst := 0, job := 0, type := 0, vl := 0, ch := 0, addr := 0, len := 0, ke := false, poison := false, lseq := 0, payload := [0], crc := 0 } none) = false := by decide

/-- R354: eight stacks at most. -/
theorem test_refuses_hbmReadings : Instr.wellFormed (.thermalUpdate [] (List.replicate 9 0)) = false := by decide

/-- R367: eight thermistors and four flow inputs. -/
theorem test_refuses_coolantSample : Instr.wellFormed (.coolantSample [] []) = false := by decide

/-- R441: no frame has 9 bytes. -/
theorem test_refuses_frameLength : Instr.wellFormed (.frameRx 0 ⟨true, false, 0, List.replicate 9 0, 0, false⟩) = false := by decide

/-- R453: a frame has 7 entries at most. -/
theorem test_refuses_mirrorEntries : Instr.wellFormed (.mirror 0 0 0 0 (List.replicate 8 (0, 0, 0))) = false := by decide

/-- R470: a requester on I3C presents a certificate. -/
theorem test_refuses_noCertificate : Instr.wellFormed (.finish false 0 []) = false := by decide

/-- R505: 1,024 bytes at most. -/
theorem test_refuses_stageLength : Instr.wellFormed (.fwStage none .cairn 0 (List.replicate 1025 0)) = false := by
  simp only [Instr.wellFormed, List.length_replicate]; decide

/-- R290: an access is naturally aligned. -/
theorem test_refuses_accessAlignment : Instr.wellFormed (.registerRead .camp 2 4) = false := by decide

/-! ### Witnesses

Small terms of the operands, and a state with nothing set. -/

def zb : FabBlock := { src := 0, dst := 0, job := 0, type := 0, vl := 0, ch := 0, addr := 0, len := 0, ke := false, poison := false, lseq := 0, payload := [], crc := 0 }
def z1 : CmdSrc := ⟨1, 0, 0, 0⟩
def z0 : CmdSrc := ⟨0, 0, 0, 0⟩
def zd : PitchDesc := { id := 0, progBase := 0, progLen := 1, fw := false, budget := 0, energy := 0, regions := [] }
def zj : PitchJob := { desc := zd, ctx := 0, lcore := 0, src := some z1 }
def zr : Run := { job := zj, fetched := true, granted := true }
def zk : KeyMsg := ⟨[], [], [], [], false, 0, 0⟩
def zc : Coll := { op := 2, dtype := 1, root := 0, src := 0, dst := 0, count := 1, cmd := z1 }
def zu : MemUnit := .hbmPc 0
def zw : WinCopy := ⟨z1, 0, false, 0, 0, 0, [0]⟩
def zh : HoldRec := ⟨0, 2, 0, 0, 0, []⟩
def zs : StopRec := ⟨0, zj, false, true, [], 0⟩
def zf : Flight := { pc := 0, unit := 1, word := 0, done := true, bank := some false }
def zt : TxFrame := ⟨0, [], 0⟩
def zcf : CanFrame := ⟨true, false, 0, [], 0, true⟩
def zrr : RawRec := ⟨0, 0, 0, false, false, false⟩
def Z : State := {}

/-- A module with an OPERATOR and more as principal 0. -/
def zm : State := Z.onCairn (fun o => { o with st := .running, policy := { roles := [(0, .service)] } })

/-- A value of 8 MiB makes a generation too long. -/
theorem long_value (bs : List Byte) (h : 8388608 ≤ bs.length) : authorised zm (some 0) .operator false ∧
    8388608 < (entryBytes (zm.cairn.staged.getD [] ++ [(0, bs)])).length + 56 := by
  refine ⟨by unfold authorised; decide, ?_⟩
  show 8388608 < (entryBytes [(0, bs)]).length + 56
  simp [entryBytes]; omega

theorem witness_TimestampAndRails :
    (∃ (c : Instr) (s : State) (t : State), (exec c s = .next t) ∧ (c ≠ .standbyReset) ∧ (c ≠ .cairnWatchdogExpiry) ∧ (c ≠ .standbyPowerLost)) ∧
    (∃ (s : State) (t : State), ((s.env.dieUp = true → s.env.rails = true)) ∧ (step s = .next t) ∧ (t.env.dieUp = true)) ∧
    (∃ (s : State), (s.pending = [])) :=
  ⟨⟨(.faultClear none : Instr), (Z), ((Z)), by refine ⟨?_, ?_, ?_, ?_⟩ <;> first | decide | rfl⟩,
   ⟨((Z.onEnv (fun e => { e with rails := true, dieUp := true }))), (tick ((Z.onEnv (fun e => { e with rails := true, dieUp := true })))), by refine ⟨?_, ?_, ?_⟩ <;> first | decide | rfl⟩,
   ⟨(Z), by decide⟩⟩

theorem witness_StatusCodes :
    (∃ (a : Status) (b : Status), (a.code = b.code)) :=
  ⟨(.ok : Status), (.ok : Status), by decide⟩

theorem witness_PitchOpcodes :
    (∃ (w : DWord) (i : PitchInstr), (PitchInstr.decode w = some i)) ∧
    (∃ (w : DWord), ((w.extractLsb' 58 6).toNat ∉ [0x01, 0x02, 0x03, 0x08, 0x09, 0x0A, 0x0B, 0x10, 0x18, 0x20, 0x21, 0x28, 0x29, 0x30, 0x3F])) :=
  ⟨⟨(0xFC00000000000000 : DWord), (.fin : PitchInstr), by decide⟩,
   ⟨(0 : DWord), by decide⟩⟩

theorem witness_PitchEncodingRoundTrip :
    (∃ (i : PitchInstr), (i.ok = true)) ∧
    (∃ (w : DWord) (i : PitchInstr), (PitchInstr.decode w = some i)) :=
  ⟨⟨(.fin : PitchInstr), by decide⟩,
   ⟨(0xFC00000000000000 : DWord), (.fin : PitchInstr), by decide⟩⟩

theorem witness_EndWordBeginsCommit :
    (∃ (c : CoreId) (r : Run) (s : State), (alone s c.val r 0xFC00000000000000 .fin)) :=
  ⟨(0 : CoreId), (zr : Run), ((((Z.onCore 0 (fun o => { o with run := some zr, ibuf := [0xFC00000000000000], pstate := .run })).onCtl 0 (fun o => { o with st := .active, owner := some 0, bal := 100000 })).onCx 0 (fun o => { o with st := .enabled }))), by unfold alone poised unwatched; decide +kernel⟩

theorem witness_PassArithmetic :
    (∃ (ps : List Pair) (x : _), (ps ≠ []) ∧ (x ∈ ps)) ∧
    (∃ (ps : List Pair), (ps ≠ [])) ∧
    (∃ (ps : List Pair) (qs : List Pair), (ps.Perm qs)) ∧
    (∃ (e : Anchor) (w : Window) (h : Int) (d : Int), (h = w.p - 28 - e.l.toInt) ∧ (d = (if 0 ≤ h then w.w * 2 ^ h.toNat else w.w / 2 ^ (-h).toNat))) ∧
    (∃ (e : Anchor) (w : Window) (h : Int) (d : Int), (h = w.p - 28 - e.l.toInt) ∧ (d = (if 0 ≤ h then w.w * 2 ^ h.toNat else w.w / 2 ^ (-h).toNat)) ∧ (e.sat = true)) ∧
    (∃ (e : Anchor) (w : Window) (h : Int) (d : Int), (h = w.p - 28 - e.l.toInt) ∧ (d = (if 0 ≤ h then w.w * 2 ^ h.toNat else w.w / 2 ^ (-h).toNat)) ∧ (e.sat = false) ∧ (-2 ^ 127 ≤ e.a.toInt + d) ∧ (e.a.toInt + d ≤ 2 ^ 127 - 1)) ∧
    (∃ (e : Anchor) (w : Window) (h : Int) (d : Int), (h = w.p - 28 - e.l.toInt) ∧ (d = (if 0 ≤ h then w.w * 2 ^ h.toNat else w.w / 2 ^ (-h).toNat)) ∧ (e.sat = false) ∧ (2 ^ 127 - 1 < e.a.toInt + d)) ∧
    (∃ (e : Anchor) (w : Window) (h : Int) (d : Int), (h = w.p - 28 - e.l.toInt) ∧ (d = (if 0 ≤ h then w.w * 2 ^ h.toNat else w.w / 2 ^ (-h).toNat)) ∧ (e.sat = false) ∧ (e.a.toInt + d < -2 ^ 127)) :=
  ⟨⟨([⟨1, 0, 0⟩] : List Pair), (⟨1, 0, 0⟩), by decide⟩,
   ⟨([⟨1, 0, 0⟩] : List Pair), by decide⟩,
   ⟨([] : List Pair), ([] : List Pair), by decide⟩,
   ⟨({} : Anchor), (⟨0, 0, false, 0⟩ : Window), ((⟨0, 0, false, 0⟩ : Window).p - 28 - ({} : Anchor).l.toInt : Int), ((if 0 ≤ ((⟨0, 0, false, 0⟩ : Window).p - 28 - ({} : Anchor).l.toInt : Int) then (⟨0, 0, false, 0⟩ : Window).w * 2 ^ ((⟨0, 0, false, 0⟩ : Window).p - 28 - ({} : Anchor).l.toInt : Int).toNat else (⟨0, 0, false, 0⟩ : Window).w / 2 ^ (-((⟨0, 0, false, 0⟩ : Window).p - 28 - ({} : Anchor).l.toInt : Int)).toNat) : Int), by decide⟩,
   ⟨({ a := 0, sat := true } : Anchor), (⟨0, 0, false, 0⟩ : Window), ((-28 : Int) : Int), ((0 : Int) : Int), by decide⟩,
   ⟨({} : Anchor), (⟨0, 0, false, 0⟩ : Window), ((⟨0, 0, false, 0⟩ : Window).p - 28 - ({} : Anchor).l.toInt : Int), ((if 0 ≤ ((⟨0, 0, false, 0⟩ : Window).p - 28 - ({} : Anchor).l.toInt : Int) then (⟨0, 0, false, 0⟩ : Window).w * 2 ^ ((⟨0, 0, false, 0⟩ : Window).p - 28 - ({} : Anchor).l.toInt : Int).toNat else (⟨0, 0, false, 0⟩ : Window).w / 2 ^ (-((⟨0, 0, false, 0⟩ : Window).p - 28 - ({} : Anchor).l.toInt : Int)).toNat) : Int), by decide⟩,
   ⟨({ a := BitVec.ofInt 128 (2 ^ 127 - 1) } : Anchor), (⟨1, 28, false, 0⟩ : Window), ((0 : Int) : Int), ((1 : Int) : Int), by decide⟩,
   ⟨({ a := BitVec.ofInt 128 (-2 ^ 127) } : Anchor), (⟨-1, 28, false, 0⟩ : Window), ((0 : Int) : Int), ((-1 : Int) : Int), by decide⟩⟩

theorem witness_ResidueHolds :
    (∃ (fa : OpFmt) (fw : OpFmt) (a : List Byte) (w : List Byte) (ps : List Pair) (x : _), (rowPairs fa fw a w = some ps) ∧ (x ∈ ps)) ∧
    (∃ (e : Anchor) (ps : Option (List Pair)), (e.residueFails = false) ∧ ((∀ qs, ps = some qs → ∀ x ∈ qs, x.r = mod7 x.s))) ∧
    (∃ (e : Anchor) (r : RawRec), (e.residueFails = false) ∧ (r.residueFails = false)) :=
  ⟨⟨(.bs4 : OpFmt), (.bs4 : OpFmt), ([] : List Byte), ([] : List Byte), ([⟨0, -254, 0⟩] : List Pair), (⟨0, -254, 0⟩), by decide⟩,
   ⟨({} : Anchor), (none : Option (List Pair)), by decide⟩,
   ⟨({} : Anchor), (zrr : RawRec), by decide⟩⟩

theorem witness_MemoryKept :
    (∃ (s : State) (t : State), (memoryOk s) ∧ (step s = .next t)) :=
  ⟨(Z), (tick (Z)), by exact ⟨by unfold memoryOk; decide, rfl⟩⟩

theorem witness_LimitsAndFloorsKept :
    (∃ (s : State) (t : State), (limitsOk s) ∧ (step s = .next t)) ∧
    (∃ (s : State) (t : State), (step s = .next t)) :=
  ⟨⟨(Z), (tick (Z)), by exact ⟨by unfold limitsOk; decide, rfl⟩⟩,
   ⟨(Z), (tick (Z)), by rfl⟩⟩

theorem witness_InputCommands :
    (∃ (s : State), (s.env.rails = true)) ∧
    (∃ (s : State), (s.env.rails = false)) ∧
    (∃ (s : State), (s.cairn.inputBad = true) ∧ (mayRestart s = true) ∧ (s.env.holdover = false)) ∧
    (∃ (s : State), (s.cairn.inputBad = true) ∧ (mayRestart s = false ∨ s.env.holdover = true)) ∧
    (∃ (s : State), (s.cairn.inputBad = false)) :=
  ⟨⟨((Z.onEnv (fun o => { o with rails := true }))), by decide⟩,
   ⟨((Z.onEnv (fun o => { o with rails := false }))), by decide⟩,
   ⟨((((Z.onCairn (fun o => { o with inputBad := true })).onEnv (fun o => { o with holdover := false })).onCairn (fun o => { o with powerEn := true, checked := true }))), by decide⟩,
   ⟨((Z.onCairn (fun o => { o with inputBad := true }))), by decide⟩,
   ⟨((Z.onCairn (fun o => { o with inputBad := false }))), by decide⟩⟩

theorem witness_PowerPinCommands :
    (∃ (s : State), (s.cairn.powerEn = false)) ∧
    (∃ (s : State), (s.cairn.powerEn = true)) ∧
    (∃ (s : State) (d : DWord), (s.cairn.downTs = some d) ∧ (d.toNat + 30 * second ≤ s.env.ts.toNat)) ∧
    (∃ (s : State), ((∀ d, s.cairn.downTs = some d → s.env.ts.toNat < d.toNat + 30 * second))) ∧
    (∃ (s : State), (s.env.holdover = false)) ∧
    (∃ (s : State), (s.env.holdover = true)) :=
  ⟨⟨((Z.onCairn (fun o => { o with powerEn := false }))), by decide⟩,
   ⟨((Z.onCairn (fun o => { o with powerEn := true }))), by decide⟩,
   ⟨(((Z.onCairn (fun o => { o with downTs := some (0 : DWord) })).onEnv (fun o => { o with ts := 0x100000000000000 }))), (0 : DWord), by decide⟩,
   ⟨(Z), by intro _ h; cases h⟩,
   ⟨((Z.onEnv (fun o => { o with holdover := false }))), by decide⟩,
   ⟨((Z.onEnv (fun o => { o with holdover := true }))), by decide⟩⟩

theorem witness_StandbyResets :
    (∃ (s : State), ((s.img 1).len = 0) ∧ ((s.img 3).len = 0)) :=
  ⟨(Z), by decide⟩

theorem witness_StartUpCommands :
    (∃ (s : State), (s.cairn.st = .rom)) ∧
    (∃ (s : State), (s.cairn.st ≠ .rom)) ∧
    (∃ (s : State), (s.cairn.st = .running) ∧ (s.cairn.checked = false) ∧ (checkFailure s = none)) ∧
    (∃ (s : State) (f : Nat × Nat), (s.cairn.st = .running) ∧ (s.cairn.checked = false) ∧ (checkFailure s = some f)) ∧
    (∃ (s : State), (s.cairn.st ≠ .running ∨ s.cairn.checked = true)) ∧
    (∃ (s : State), (s.env.rails = true) ∧ (s.env.dieUp = false)) ∧
    (∃ (s : State), (s.env.rails = false ∨ s.env.dieUp = true)) ∧
    (∃ (s : State), (s.cairn.faults = [])) ∧
    (∃ (s : State) (u : BitVec 16), (s.cairn.faults = [⟨6, u, 0⟩])) ∧
    (∃ (s : State), (s.sec.trngFailX = false)) ∧
    (∃ (s : State), (s.sec.trngFailX = true)) ∧
    (∃ (s : State), (s.cairn.repeated = true)) ∧
    (∃ (s : State), (s.cairn.repeated = false) ∧ (autoCount s < 3)) ∧
    (∃ (s : State), (s.cairn.st = .running ∨ s.cairn.st = .recovery)) ∧
    (∃ (s : State), (s.cairn.st = .rom ∨ s.cairn.st = .stopped)) :=
  ⟨⟨((Z.onCairn (fun o => { o with st := .rom }))), by decide⟩,
   ⟨((Z.onCairn (fun o => { o with st := .running }))), by decide⟩,
   ⟨(((Z.onCairn (fun o => { o with st := .running })).onCairn (fun o => { o with checked := false }))), by decide⟩,
   ⟨((((Z.onCairn (fun o => { o with st := .running })).onCairn (fun o => { o with checked := false })).onCairn (fun o => { o with st := .running, plant := { assigned := [0] } }))), ((0, 0) : Nat × Nat), by decide⟩,
   ⟨(Z), by decide⟩,
   ⟨(((Z.onEnv (fun o => { o with rails := true })).onEnv (fun o => { o with dieUp := false }))), by decide⟩,
   ⟨((Z.onEnv (fun o => { o with rails := false }))), by decide⟩,
   ⟨((Z.onCairn (fun o => { o with faults := [] }))), by decide⟩,
   ⟨((Z.onCairn (fun o => { o with faults := [⟨6, (0 : BitVec 16), 0⟩] }))), (0 : BitVec 16), by decide⟩,
   ⟨((Z.onSec (fun o => { o with trngFailX := false }))), by decide⟩,
   ⟨((Z.onSec (fun o => { o with trngFailX := true }))), by decide⟩,
   ⟨((Z.onCairn (fun o => { o with repeated := true }))), by decide⟩,
   ⟨((Z.onCairn (fun o => { o with repeated := false }))), by decide⟩,
   ⟨((Z.onCairn (fun o => { o with st := .running }))), by decide⟩,
   ⟨((Z.onCairn (fun o => { o with st := .rom }))), by decide⟩⟩

theorem witness_FlowProofCommands :
    (∃ (s : State), ((s.cool.st = .off && s.cairn.checked && s.cairn.powerEn && !s.cool.proofFailed && !s.cairn.barred && !s.env.rails) = true)) ∧
    (∃ (s : State), ((s.cool.st = .off && s.cairn.checked && s.cairn.powerEn && !s.cool.proofFailed && !s.cairn.barred && !s.env.rails) = false)) ∧
    (∃ (s : State) (n : Nat), (s.cool.st = .proving) ∧ (s.cool.window = some n) ∧ (s.cairn.policy.proofMs ≤ n) ∧ (s.cairn.inputBad = false) ∧ (s.env.holdover = false)) ∧
    (∃ (s : State) (n : Nat), (s.cool.st = .proving) ∧ (s.cool.window = some n) ∧ (s.cairn.policy.proofMs ≤ n) ∧ (s.cairn.inputBad = true ∨ s.env.holdover = true)) ∧
    (∃ (s : State), (s.cool.st ≠ .proving ∨ s.cool.window = none)) ∧
    (∃ (s : State) (n : Nat), (s.cool.window = some n) ∧ (n < s.cairn.policy.proofMs)) ∧
    (∃ (s : State), (s.cool.st = .proving) ∧ ((∀ n, s.cool.window = some n → n < s.cairn.policy.proofMs)) ∧ (s.cool.proofTs.toNat + s.cairn.policy.timeoutMs * 100000 ≤ s.env.ts.toNat)) ∧
    (∃ (s : State), (s.cool.st ≠ .proving ∨ s.env.ts.toNat < s.cool.proofTs.toNat + s.cairn.policy.timeoutMs * 100000)) ∧
    (∃ (s : State) (n : Nat), (s.cool.window = some n) ∧ (s.cairn.policy.proofMs ≤ n)) ∧
    (∃ (s : State), (s.cool.st = .shutdown) ∧ (s.cairn.powerEn = true) ∧ (s.cool.shutTs.toNat + 10 * second ≤ s.env.ts.toNat) ∧ (autoCount s < 3)) ∧
    (∃ (s : State), (s.cool.st ≠ .shutdown ∨ s.cairn.powerEn = false ∨ s.env.ts.toNat < s.cool.shutTs.toNat + 10 * second ∨ 3 ≤ autoCount s)) :=
  ⟨⟨((Z.onCairn (fun o => { o with checked := true, powerEn := true }))), by decide⟩,
   ⟨(Z), by decide⟩,
   ⟨((((((Z.onCool (fun o => { o with st := .proving })).onCool (fun o => { o with window := some (2000 : Nat) })).onCairn (fun o => { o with inputBad := false })).onEnv (fun o => { o with holdover := false })).onCool (fun o => { o with window := some 2000 }))), (2000 : Nat), by decide⟩,
   ⟨((((((Z.onCool (fun o => { o with st := .proving })).onCool (fun o => { o with window := some (2000 : Nat) })).onCairn (fun o => { o with inputBad := true })).onCool (fun o => { o with window := some 2000 })).onCairn (fun o => { o with inputBad := true }))), (2000 : Nat), by decide⟩,
   ⟨(Z), by decide⟩,
   ⟨((Z.onCool (fun o => { o with window := some (0 : Nat) }))), (0 : Nat), by decide⟩,
   ⟨(((Z.onCool (fun o => { o with st := .proving })).onEnv (fun o => { o with ts := 0x100000000000000 }))), by decide⟩,
   ⟨(Z), by decide⟩,
   ⟨(((Z.onCool (fun o => { o with window := some (2000 : Nat) })).onCool (fun o => { o with window := some 2000 }))), (2000 : Nat), by decide⟩,
   ⟨((((Z.onCool (fun o => { o with st := .shutdown })).onCairn (fun o => { o with powerEn := true })).onEnv (fun o => { o with ts := 0x100000000000000 }))), by decide⟩,
   ⟨(Z), by decide⟩⟩

theorem witness_CoolantCommands :
    (∃ (s : State), (s.cool.st = .stopped) ∧ (s.cool.stopTs.toNat + 2 * second ≤ s.env.ts.toNat)) ∧
    (∃ (s : State), (s.cool.st ≠ .stopped ∨ s.env.ts.toNat < s.cool.stopTs.toNat + 2 * second)) ∧
    (∃ (s : State), (s.env.rails = true) ∧ (2000 < s.cool.lowFor)) ∧
    (∃ (s : State), (s.env.rails = false ∨ s.cool.lowFor ≤ 2000)) ∧
    (∃ (s : State) (m : Fin 6), (s.cairn.plant.spare = some m) ∧ ((s.cool.st = .normal ∨ s.cool.st = .low)) ∧ (dutyLimited s = true) ∧ ((s.motor m.val).st ≠ .running) ∧ ((s.motor m.val).st ≠ .max)) ∧
    (∃ (s : State), (s.cairn.plant.spare = none ∨ (s.cool.st ≠ .normal ∧ s.cool.st ≠ .low) ∨ dutyLimited s = false)) ∧
    (∃ (s : State) (m : Fin 6), (s.cairn.plant.spare = some m) ∧ ((s.motor m.val).st = .running ∨ (s.motor m.val).st = .max)) ∧
    (∃ (s : State), (s.cool.maxed ≠ []) ∧ (s.cool.st ≠ .stopped) ∧ (s.cool.shutTs.toNat + 60 * second ≤ s.env.ts.toNat)) ∧
    (∃ (s : State), (s.cool.maxed = [] ∨ s.cool.st = .stopped ∨ s.env.ts.toNat < s.cool.shutTs.toNat + 60 * second)) ∧
    (∃ (s : State), (s.cool.implaus = false)) ∧
    (∃ (s : State), (s.cool.implaus = true)) ∧
    (∃ (th : List (BitVec 16)) (flow : List (BitVec 16)) (s : State) (u : State), (u = sampleInputs th flow s)) :=
  ⟨⟨(((Z.onCool (fun o => { o with st := .stopped })).onEnv (fun o => { o with ts := 0x100000000000000 }))), by decide⟩,
   ⟨(Z), by decide⟩,
   ⟨(((Z.onEnv (fun o => { o with rails := true })).onCool (fun o => { o with lowFor := 2001 }))), by decide⟩,
   ⟨((Z.onEnv (fun o => { o with rails := false }))), by decide⟩,
   ⟨((((((Z.onCool (fun o => { o with st := .normal })).onCairn (fun o => { o with plant := { spare := some 0, duty := some 1 } })).onMotor 1 (fun o => { o with st := .max })).onSlot 0 (fun o => { o with setpt := 1 })).onMotor 0 (fun o => { o with st := .stopped }))), (0 : Fin 6), by refine ⟨?_, ?_, ?_, ?_, ?_⟩ <;> first | decide +kernel | rfl⟩,
   ⟨(Z), by decide⟩,
   ⟨((((Z.onMotor (0 : Fin 6).val (fun o => { o with st := .running })).onCairn (fun o => { o with plant := { spare := some 0 } })).onMotor 0 (fun o => { o with st := .running }))), (0 : Fin 6), by decide⟩,
   ⟨((((Z.onEnv (fun o => { o with ts := 0x100000000000000 })).onCool (fun o => { o with maxed := [0] })).onEnv (fun o => { o with ts := 0x100000000000000 }))), by decide⟩,
   ⟨((Z.onCool (fun o => { o with maxed := [] }))), by decide⟩,
   ⟨((Z.onCool (fun o => { o with implaus := false }))), by decide⟩,
   ⟨((Z.onCool (fun o => { o with implaus := true }))), by decide⟩,
   ⟨([] : List (BitVec 16)), ([] : List (BitVec 16)), (Z), (sampleInputs ([] : List (BitVec 16)) ([] : List (BitVec 16)) (Z)), by decide⟩⟩

theorem witness_PowerModeAndCapCommands :
    (∃ (s : State), (s.pwr.throttlePin = false)) ∧
    (∃ (s : State), (s.pwr.throttlePin = true)) ∧
    (∃ (d : Fin 240) (s : State), ((s.sensor d.val).fault = true)) ∧
    (∃ (d : Fin 240) (s : State), ((s.sensor d.val).fault = false) ∧ (s.pwr.trip = true)) ∧
    (∃ (d : Fin 240) (s : State), ((s.sensor d.val).fault = false) ∧ (s.pwr.trip = false)) :=
  ⟨⟨((Z.onPwr (fun o => { o with throttlePin := false }))), by decide⟩,
   ⟨((Z.onPwr (fun o => { o with throttlePin := true }))), by decide⟩,
   ⟨(0 : Fin 240), ((Z.onSensor (0 : Fin 240).val (fun o => { o with fault := true }))), by decide⟩,
   ⟨(0 : Fin 240), (((Z.onSensor (0 : Fin 240).val (fun o => { o with fault := false })).onPwr (fun o => { o with trip := true }))), by decide⟩,
   ⟨(0 : Fin 240), (((Z.onSensor (0 : Fin 240).val (fun o => { o with fault := false })).onPwr (fun o => { o with trip := false }))), by decide⟩⟩

theorem witness_EpochAndTokenCommands :
    (∃ (s : State) (u : State), (u = boundaryModes { s with pwr := { s.pwr with epoch := s.pwr.epoch + 1, hist := trimHist 100000 (pushHist s.pwr.b.toNat s.pwr.hist) } })) ∧
    (∃ (c : CoreId) (s : State), ((s.core c.val).run = none)) ∧
    (∃ (c : CoreId) (s : State), (topUp c.val s = s) ∧ (cutByAllowance s c.val = false) ∧ (eligible s c.val = true) ∧ (grantTurn s c.val = true)) ∧
    (∃ (c : CoreId) (s : State), (topUp c.val s = s) ∧ (cutByAllowance s c.val = false) ∧ (eligible s c.val = false ∨ grantTurn s c.val = false)) ∧
    (∃ (c : CoreId) (e : BitVec 24) (s : State) (r : Run) (d : Nat), ((s.core c.val).run = some r) ∧ (d = min (e.toNat * s.pwr.meterK.toNat / 1024) (s.ctl c.val).bal)) :=
  ⟨⟨(Z), (boundaryModes { (Z) with pwr := { (Z).pwr with epoch := (Z).pwr.epoch + 1, hist := trimHist 100000 (pushHist (Z).pwr.b.toNat (Z).pwr.hist) } }), by decide⟩,
   ⟨(0 : CoreId), ((Z.onCore (0 : CoreId).val (fun o => { o with run := none }))), by decide⟩,
   ⟨(0 : CoreId), ((((Z.onCore 0 (fun o => { o with run := some { zr with job := { zj with desc := { zd with energy := 1000 } } } })).onCtl 0 (fun o => { o with st := .active, allow := 4000, bal := 500 })).onPwr (fun o => { o with free := 100000, b := 4000 }))), by decide⟩,
   ⟨(0 : CoreId), (Z), by decide⟩,
   ⟨(0 : CoreId), (0 : BitVec 24), ((Z.onCore (0 : CoreId).val (fun o => { o with run := some (zr : Run) }))), (zr : Run), (min ((0 : BitVec 24).toNat * ((Z.onCore (0 : CoreId).val (fun o => { o with run := some (zr : Run) }))).pwr.meterK.toNat / 1024) (((Z.onCore (0 : CoreId).val (fun o => { o with run := some (zr : Run) }))).ctl (0 : CoreId).val).bal : Nat), by decide⟩⟩

theorem witness_ThermalCommands :
    (∃ (s : State), (s.thm.run = false)) ∧
    (∃ (s : State), (s.thm.run = true)) ∧
    (∃ (on : Bool) (s : State), (on = true ∨ s.thm.run = false ∨ s.env.rails = false)) ∧
    (∃ (s : State), (s.thm.run = true) ∧ (s.env.rails = true)) :=
  ⟨⟨((Z.onThm (fun o => { o with run := false }))), by decide⟩,
   ⟨((Z.onThm (fun o => { o with run := true }))), by decide⟩,
   ⟨(false : Bool), (Z), by decide⟩,
   ⟨(((Z.onThm (fun o => { o with run := true })).onEnv (fun o => { o with rails := true }))), by decide⟩⟩

theorem witness_SensorMarkCommands :
    (∃ (id : SensorId) (k : Nat) (s : State), (sensorOf id = .inl k) ∧ ((s.sensor k).suspect = false) ∧ ((s.sensor k).fault = false)) ∧
    (∃ (id : SensorId) (k : Nat) (s : State), (sensorOf id = .inl k) ∧ ((s.sensor k).suspect = true ∨ (s.sensor k).fault = true)) ∧
    (∃ (id : SensorId) (k : Nat) (s : State), (sensorOf id = .inr k) ∧ ((fget {} s.cool.marks k).suspect = false) ∧ ((fget {} s.cool.marks k).fault = false)) ∧
    (∃ (id : SensorId) (k : Nat) (s : State), (sensorOf id = .inr k) ∧ ((fget {} s.cool.marks k : Sensor).suspect = true ∨ (fget {} s.cool.marks k : Sensor).fault = true)) ∧
    (∃ (id : SensorId) (k : Nat) (s : State), (sensorOf id = .inl k) ∧ ((s.sensor k).suspect = true)) ∧
    (∃ (id : SensorId) (k : Nat) (s : State), (sensorOf id = .inl k) ∧ ((s.sensor k).suspect = false)) ∧
    (∃ (id : SensorId) (k : Nat) (s : State), (sensorOf id = .inr k) ∧ ((fget {} s.cool.marks k : Sensor).suspect = true)) ∧
    (∃ (id : SensorId) (k : Nat) (s : State), (sensorOf id = .inr k) ∧ ((fget {} s.cool.marks k : Sensor).suspect = false)) ∧
    (∃ (id : SensorId) (k : Nat) (s : State), (sensorOf id = .inl k) ∧ ((s.sensor k).fault = false)) ∧
    (∃ (id : SensorId) (k : Nat) (s : State), (sensorOf id = .inl k) ∧ ((s.sensor k).fault = true)) ∧
    (∃ (id : SensorId) (k : Nat) (s : State), (sensorOf id = .inr k) ∧ ((fget {} s.cool.marks k : Sensor).fault = false)) ∧
    (∃ (id : SensorId) (k : Nat) (s : State), (sensorOf id = .inr k) ∧ ((fget {} s.cool.marks k : Sensor).fault = true)) :=
  ⟨⟨(.core 0 : SensorId), (0 : Nat), (((Z.onSensor (0 : Nat) (fun o => { o with suspect := false })).onSensor (0 : Nat) (fun o => { o with fault := false }))), by decide⟩,
   ⟨(.core 0 : SensorId), (0 : Nat), ((Z.onSensor (0 : Nat) (fun o => { o with suspect := true }))), by decide⟩,
   ⟨(.therm 0 : SensorId), (32 : Nat), ((Z.onCool (fun o => { o with marks := [(32, { suspect := false, fault := false })] }))), by decide⟩,
   ⟨(.therm 0 : SensorId), (32 : Nat), ((Z.onCool (fun o => { o with marks := [(32, { suspect := true, fault := true })] }))), by decide⟩,
   ⟨(.core 0 : SensorId), (0 : Nat), ((Z.onSensor (0 : Nat) (fun o => { o with suspect := true }))), by decide⟩,
   ⟨(.core 0 : SensorId), (0 : Nat), ((Z.onSensor (0 : Nat) (fun o => { o with suspect := false }))), by decide⟩,
   ⟨(.therm 0 : SensorId), (32 : Nat), ((Z.onCool (fun o => { o with marks := [(32, { suspect := true, fault := false })] }))), by decide⟩,
   ⟨(.therm 0 : SensorId), (32 : Nat), ((Z.onCool (fun o => { o with marks := [(32, { suspect := false, fault := false })] }))), by decide⟩,
   ⟨(.core 0 : SensorId), (0 : Nat), ((Z.onSensor (0 : Nat) (fun o => { o with fault := false }))), by decide⟩,
   ⟨(.core 0 : SensorId), (0 : Nat), ((Z.onSensor (0 : Nat) (fun o => { o with fault := true }))), by decide⟩,
   ⟨(.therm 0 : SensorId), (32 : Nat), ((Z.onCool (fun o => { o with marks := [(32, { suspect := false, fault := false })] }))), by decide⟩,
   ⟨(.therm 0 : SensorId), (32 : Nat), ((Z.onCool (fun o => { o with marks := [(32, { suspect := false, fault := true })] }))), by decide⟩⟩

theorem witness_MotorCommands :
    (∃ (m : Fin 6) (c : Instr) (v : BitVec 2), ((c, v) ∈ [(Instr.motorModeOff m, 0), (.motorModeStart m, 1), (.motorModeLoop m, 2), (.motorModeMax m, 3)])) ∧
    (∃ (m : Fin 6) (s : State), ((s.motor m.val).st = .starting) ∧ ((s.motor m.val).pause = true)) ∧
    (∃ (m : Fin 6) (s : State), ((s.motor m.val).st ≠ .starting ∨ (s.motor m.val).pause = false)) ∧
    (∃ (m : Fin 6) (s : State), ((s.motor m.val).st = .starting) ∧ ((s.motor m.val).pause = false) ∧ ((s.motor m.val).tries ≠ 3)) ∧
    (∃ (m : Fin 6) (s : State), ((s.motor m.val).st = .starting) ∧ ((s.motor m.val).pause = false) ∧ ((s.motor m.val).tries = 3)) ∧
    (∃ (m : Fin 6) (s : State), ((s.motor m.val).st ≠ .starting ∨ (s.motor m.val).pause = true)) ∧
    (∃ (m : Fin 6) (s : State), ((s.motor m.val).st = .starting) ∧ ((s.motor m.val).pause = false) ∧ ((s.motor m.val).rated.toNat ≤ 20 * tachOf s m.val)) ∧
    (∃ (m : Fin 6) (s : State), ((s.motor m.val).st = .starting) ∧ ((s.motor m.val).pause = false) ∧ (tachOf s m.val = 0) ∧ ((s.motor m.val).rated.toNat ≤ 10 * (s.motor m.val).est.toNat)) ∧
    (∃ (m : Fin 6) (s : State), ((s.motor m.val).tachBroken = false) ∧ ((s.motor m.val).rated.toNat ≤ 5 * (s.motor m.val).est.toNat) ∧ ((s.motor m.val).est.toNat < 4 * ((tachOf s m.val - (s.motor m.val).est.toNat) + ((s.motor m.val).est.toNat - tachOf s m.val)))) ∧
    (∃ (m : Fin 6) (s : State), ((s.motor m.val).tachBroken = true ∨ 5 * (s.motor m.val).est.toNat < (s.motor m.val).rated.toNat ∨ 4 * ((tachOf s m.val - (s.motor m.val).est.toNat) + ((s.motor m.val).est.toNat - tachOf s m.val)) ≤ (s.motor m.val).est.toNat)) ∧
    (∃ (m : Fin 6) (s : State), ((s.motor m.val).modeNew = false)) ∧
    (∃ (m : Fin 6) (s : State), ((s.motor m.val).modeNew = true)) :=
  ⟨⟨(0 : Fin 6), (Instr.motorModeOff (0 : Fin 6) : Instr), (0 : BitVec 2), by decide⟩,
   ⟨(0 : Fin 6), (((Z.onMotor (0 : Fin 6).val (fun o => { o with st := .starting })).onMotor (0 : Fin 6).val (fun o => { o with pause := true }))), by decide⟩,
   ⟨(0 : Fin 6), (Z), by decide⟩,
   ⟨(0 : Fin 6), (((Z.onMotor (0 : Fin 6).val (fun o => { o with st := .starting })).onMotor (0 : Fin 6).val (fun o => { o with pause := false }))), by decide⟩,
   ⟨(0 : Fin 6), ((((Z.onMotor (0 : Fin 6).val (fun o => { o with st := .starting })).onMotor (0 : Fin 6).val (fun o => { o with pause := false })).onMotor (0 : Fin 6).val (fun o => { o with tries := 3 }))), by decide⟩,
   ⟨(0 : Fin 6), (Z), by decide⟩,
   ⟨(0 : Fin 6), (((Z.onMotor (0 : Fin 6).val (fun o => { o with st := .starting })).onMotor (0 : Fin 6).val (fun o => { o with pause := false }))), by decide⟩,
   ⟨(0 : Fin 6), (((Z.onMotor (0 : Fin 6).val (fun o => { o with st := .starting })).onMotor (0 : Fin 6).val (fun o => { o with pause := false }))), by decide⟩,
   ⟨(0 : Fin 6), (((Z.onMotor (0 : Fin 6).val (fun o => { o with tachBroken := false })).onMotor 0 (fun o => { o with est := 100 }))), by decide⟩,
   ⟨(0 : Fin 6), ((Z.onMotor (0 : Fin 6).val (fun o => { o with tachBroken := true }))), by decide⟩,
   ⟨(0 : Fin 6), ((Z.onMotor (0 : Fin 6).val (fun o => { o with modeNew := false }))), by decide⟩,
   ⟨(0 : Fin 6), ((Z.onMotor (0 : Fin 6).val (fun o => { o with modeNew := true }))), by decide⟩⟩

theorem witness_ValveCommands :
    (∃ (v : Nat) (k : Nat) (s : State) (w : Nat), (k < 64) ∧ (w = (fget 0 (s.valve v).ucode k).toNat) ∧ ((s.valve v).st ≠ .deferred) ∧ (fld w 24 3 = 0) ∧ (fld w 28 4 = 1) ∧ (fld w 0 12 ≠ 0) ∧ (boostBlocked s v = false)) ∧
    (∃ (v : Nat) (k : Nat) (s : State) (w : Nat), (k < 64) ∧ (w = (fget 0 (s.valve v).ucode k).toNat) ∧ ((s.valve v).st ≠ .deferred) ∧ (fld w 24 3 = 0) ∧ (fld w 28 4 = 1) ∧ (fld w 0 12 ≠ 0) ∧ (boostBlocked s v = true) ∧ (v < 4)) ∧
    (∃ (v : Nat) (k : Nat) (s : State) (w : Nat), (k < 64) ∧ (w = (fget 0 (s.valve v).ucode k).toNat) ∧ ((s.valve v).st ≠ .deferred) ∧ (fld w 24 3 = 0) ∧ (fld w 28 4 = 2) ∧ (fld w 0 12 ≠ 0)) ∧
    (∃ (v : Nat) (k : Nat) (s : State) (w : Nat), (k < 64) ∧ (w = (fget 0 (s.valve v).ucode k).toNat) ∧ ((s.valve v).st ≠ .deferred) ∧ (fld w 24 3 = 0) ∧ (fld w 28 4 = 3)) ∧
    (∃ (v : Nat) (k : Nat) (s : State) (w : Nat), (k < 64) ∧ (w = (fget 0 (s.valve v).ucode k).toNat) ∧ ((s.valve v).st ≠ .deferred) ∧ (fld w 24 3 = 0) ∧ (fld w 28 4 = 4) ∧ (fld (fld w 12 12) 8 4 = 0)) ∧
    (∃ (v : Nat) (k : Nat) (s : State) (w : Nat), (k < 64) ∧ (w = (fget 0 (s.valve v).ucode k).toNat) ∧ ((s.valve v).st ≠ .deferred) ∧ (fld w 24 3 = 0) ∧ (fld w 28 4 = 5)) ∧
    (∃ (v : Nat) (k : Nat) (s : State) (w : Nat), (k < 64) ∧ (w = (fget 0 (s.valve v).ucode k).toNat) ∧ ((s.valve v).st ≠ .deferred) ∧ (fld w 24 3 = 0) ∧ (fld w 28 4 = 7) ∧ (fld w 0 12 = 0)) ∧
    (∃ (v : Nat) (k : Nat) (s : State) (w : Nat), (k < 64) ∧ (w = (fget 0 (s.valve v).ucode k).toNat) ∧ ((s.valve v).st ≠ .deferred) ∧ (fld w 24 3 ≠ 0 ∨ fld w 28 4 = 0 ∨ 8 ≤ fld w 28 4 ∨ ((fld w 28 4 = 1 ∨ fld w 28 4 = 2) ∧ fld w 0 12 = 0) ∨ ((fld w 28 4 = 6 ∨ fld w 28 4 = 7) ∧ fld w 0 12 ≠ 0) ∨ (fld w 28 4 = 4 ∧ fld (fld w 12 12) 8 4 ≠ 0))) ∧
    (∃ (v : Nat) (k : Nat) (s : State) (w : Nat) (u : _), (k < 64) ∧ (w = (fget 0 (s.valve v).ucode k).toNat) ∧ ((s.valve v).st ≠ .deferred) ∧ (u ≠ v)) ∧
    (∃ (v : Fin 4) (on : Bool) (c : Instr), ((c, on) ∈ [(Instr.valveOnEdge v, true), (.valveOffEdge v, false)])) ∧
    (∃ (v : Fin 4) (s : State), ((s.valve v.val).st ∈ [ValveSt.peak, .hold, .pwm, .off]) ∧ (wordTime (s.valve v.val) ≠ 0)) ∧
    (∃ (v : Fin 4) (s : State), ((s.valve v.val).st ∉ [ValveSt.peak, .hold, .pwm, .off] ∨ wordTime (s.valve v.val) = 0)) ∧
    (∃ (v : Fin 4) (s : State), ((s.valve v.val).st = .boost)) ∧
    (∃ (v : Fin 4) (s : State), ((s.valve v.val).st ≠ .boost)) ∧
    (∃ (v : Fin 4) (s : State), ((s.valve v.val).st = .deferred) ∧ (boostBlocked s v.val = false)) ∧
    (∃ (v : Fin 4) (s : State), ((s.valve v.val).st ≠ .deferred ∨ boostBlocked s v.val = true)) ∧
    (∃ (v : Fin 4) (s : State), ((s.valve v.val).tc = none)) ∧
    (∃ (v : Fin 4) (irms : BitVec 16) (s : State) (tc : Rat) (x : Rat), ((s.valve v.val).tc = some tc) ∧ (x = coilStep (s.valve v.val) (ambient s (s.valve v.val)) tc irms.toNat) ∧ ((s.valve v.val).st ≠ .deferred)) ∧
    (∃ (v : Fin 4) (w : Word) (s : State), ((s.valve v.val).st = .idle) ∧ ((s.valve v.val).on = false) ∧ (fld w.toNat 16 2 ≠ 3)) ∧
    (∃ (v : Fin 4) (off : BitVec 12) (s : State), ((s.valve v.val).st = .idle) ∧ ((s.valve v.val).on = false) ∧ (0x100 ≤ off.toNat) ∧ (off.toNat < 0x200)) ∧
    (∃ (v : Fin 4) (off : BitVec 12) (w : Word) (s : State), (off.toNat = 0x048 ∨ (0x100 ≤ off.toNat ∧ off.toNat < 0x200)) ∧ ((s.valve v.val).st ≠ .idle ∨ (s.valve v.val).on = true ∨ (off.toNat = 0x048 ∧ fld w.toNat 16 2 = 3))) ∧
    (∃ (off : BitVec 12), (off.toNat ≠ 0x048) ∧ (off.toNat < 0x100 ∨ 0x200 ≤ off.toNat)) :=
  ⟨⟨(0 : Nat), (0 : Nat), (((Z.onValve (0 : Nat) (fun o => { o with st := .idle })).onValve 0 (fun o => { o with st := .idle, ucode := [(0, 0x10000001)] }))), ((0x10000001 : BitVec 32).toNat : Nat), by decide⟩,
   ⟨(0 : Nat), (0 : Nat), ((((Z.onValve (0 : Nat) (fun o => { o with st := .idle })).onValve 0 (fun o => { o with st := .idle, ucode := [(0, 0x10000001)] })).onValve 1 (fun o => { o with st := .boost }))), ((0x10000001 : BitVec 32).toNat : Nat), by decide⟩,
   ⟨(0 : Nat), (0 : Nat), (((Z.onValve (0 : Nat) (fun o => { o with st := .idle })).onValve 0 (fun o => { o with st := .idle, ucode := [(0, 0x20000001)] }))), ((0x20000001 : BitVec 32).toNat : Nat), by decide⟩,
   ⟨(0 : Nat), (0 : Nat), (((Z.onValve (0 : Nat) (fun o => { o with st := .idle })).onValve 0 (fun o => { o with st := .idle, ucode := [(0, 0x30000000)] }))), ((0x30000000 : BitVec 32).toNat : Nat), by decide⟩,
   ⟨(0 : Nat), (0 : Nat), (((Z.onValve (0 : Nat) (fun o => { o with st := .idle })).onValve 0 (fun o => { o with st := .idle, ucode := [(0, 0x40000000)] }))), ((0x40000000 : BitVec 32).toNat : Nat), by decide⟩,
   ⟨(0 : Nat), (0 : Nat), (((Z.onValve (0 : Nat) (fun o => { o with st := .idle })).onValve 0 (fun o => { o with st := .idle, ucode := [(0, 0x50000000)] }))), ((0x50000000 : BitVec 32).toNat : Nat), by decide⟩,
   ⟨(0 : Nat), (0 : Nat), (((Z.onValve (0 : Nat) (fun o => { o with st := .idle })).onValve 0 (fun o => { o with st := .idle, ucode := [(0, 0x70000000)] }))), ((0x70000000 : BitVec 32).toNat : Nat), by decide⟩,
   ⟨(0 : Nat), (0 : Nat), ((Z.onValve (0 : Nat) (fun o => { o with st := .idle }))), ((fget 0 (((Z.onValve (0 : Nat) (fun o => { o with st := .idle }))).valve (0 : Nat)).ucode (0 : Nat)).toNat : Nat), by decide⟩,
   ⟨(0 : Nat), (0 : Nat), ((Z.onValve (0 : Nat) (fun o => { o with st := .idle }))), (0 : Nat), (1), by decide⟩,
   ⟨(0 : Fin 4), (true : Bool), (Instr.valveOnEdge (0 : Fin 4) : Instr), by decide⟩,
   ⟨(0 : Fin 4), ((Z.onValve 0 (fun o => { o with st := .peak, ucode := [(0, 0x10000001)] }))), by decide⟩,
   ⟨(0 : Fin 4), (Z), by decide⟩,
   ⟨(0 : Fin 4), ((Z.onValve (0 : Fin 4).val (fun o => { o with st := .boost }))), by decide⟩,
   ⟨(0 : Fin 4), ((Z.onValve (0 : Fin 4).val (fun o => { o with st := .idle }))), by decide⟩,
   ⟨(0 : Fin 4), ((Z.onValve (0 : Fin 4).val (fun o => { o with st := .deferred }))), by decide⟩,
   ⟨(0 : Fin 4), ((Z.onValve (0 : Fin 4).val (fun o => { o with st := .idle }))), by decide⟩,
   ⟨(0 : Fin 4), ((Z.onValve (0 : Fin 4).val (fun o => { o with tc := none }))), by decide⟩,
   ⟨(0 : Fin 4), (0 : BitVec 16), (((Z.onValve (0 : Fin 4).val (fun o => { o with tc := some (0 : Rat) })).onValve (0 : Fin 4).val (fun o => { o with st := .idle }))), (0 : Rat), (coilStep ((((Z.onValve (0 : Fin 4).val (fun o => { o with tc := some (0 : Rat) })).onValve (0 : Fin 4).val (fun o => { o with st := .idle }))).valve (0 : Fin 4).val) (ambient (((Z.onValve (0 : Fin 4).val (fun o => { o with tc := some (0 : Rat) })).onValve (0 : Fin 4).val (fun o => { o with st := .idle }))) ((((Z.onValve (0 : Fin 4).val (fun o => { o with tc := some (0 : Rat) })).onValve (0 : Fin 4).val (fun o => { o with st := .idle }))).valve (0 : Fin 4).val)) (0 : Rat) (0 : BitVec 16).toNat : Rat), by refine ⟨?_, ?_, ?_⟩ <;> first | decide | rfl⟩,
   ⟨(0 : Fin 4), (0 : Word), (((Z.onValve (0 : Fin 4).val (fun o => { o with st := .idle })).onValve (0 : Fin 4).val (fun o => { o with on := false }))), by decide⟩,
   ⟨(0 : Fin 4), (0x100 : BitVec 12), (((Z.onValve (0 : Fin 4).val (fun o => { o with st := .idle })).onValve (0 : Fin 4).val (fun o => { o with on := false }))), by decide⟩,
   ⟨(0 : Fin 4), (0x100 : BitVec 12), (0 : Word), (((Z.onValve (0 : Fin 4).val (fun o => { o with st := .hold })).onValve 0 (fun o => { o with on := true }))), by decide⟩,
   ⟨(0 : BitVec 12), by decide⟩⟩

theorem witness_InputAndRopeCommands :
    (∃ (i : Fin 10), (i.val < 6)) ∧
    (∃ (i : Fin 10), (6 ≤ i.val)) ∧
    (∃ (kind : Fin 3) (idx : Fin 16) (k : Nat) (s : State), (k = sensKey kind.val idx.val) ∧ (supervised k (s.input k) = true) ∧ ((s.input k).fault = false) ∧ (3 ≤ (s.input k).ends)) ∧
    (∃ (kind : Fin 3) (idx : Fin 16) (k : Nat) (s : State), (k = sensKey kind.val idx.val) ∧ (supervised k (s.input k) = false ∨ (s.input k).fault = true ∨ (s.input k).ends < 3)) ∧
    (∃ (r : Fin 4) (s : State), ((s.rope r.val).en = false)) ∧
    (∃ (r : Fin 4) (o : Nat) (s : State) (b : Band), ((s.rope r.val).en = true) ∧ (b = (if o < 2000 then .leak else if o < 3500 then .marginal else if o < 7500 then .normal else if o < 20000 then .marginal else .opened))) ∧
    (∃ (r : Fin 4) (s : State), ((s.rope r.val).en = true) ∧ ((s.rope r.val).band = .leak) ∧ ((s.rope r.val).latch = false)) ∧
    (∃ (r : Fin 4) (s : State), ((s.rope r.val).en = false ∨ (s.rope r.val).band ≠ .leak ∨ (s.rope r.val).latch = true)) ∧
    (∃ (m : Fin 6) (s : State), ((s.motor m.val).mode = 2) ∧ ((s.motor m.val).st = .running) ∧ ((s.motor m.val).base ≠ 0) ∧ ((s.motor m.val).lastAge = none) ∧ (50 * ((speedOf s m.val - (s.motor m.val).ref.toNat) + ((s.motor m.val).ref.toNat - speedOf s m.val)) ≤ (s.motor m.val).ref.toNat)) ∧
    (∃ (m : Fin 6) (s : State), ((s.motor m.val).mode ≠ 2 ∨ (s.motor m.val).st ≠ .running ∨ (s.motor m.val).base = 0 ∨ (∃ t : DWord, (s.motor m.val).lastAge = some t ∧ s.env.ts.toNat < t.toNat + 3600 * second))) ∧
    (∃ (s : State), (s.cairn.policy.row = true)) ∧
    (∃ (s : State) (a : Nat), (s.cairn.policy.row = false) ∧ (a = (if s.drv.windowSeen && s.drv.hot then max (acMin s) (acapOf s - acStep s) else if s.drv.windowSeen && s.drv.cool then min s.env.variant.peak (acapOf s + acStep s) else acapOf s))) :=
  ⟨⟨(0 : Fin 10), by decide⟩,
   ⟨(6 : Fin 10), by decide⟩,
   ⟨(2 : Fin 3), (0 : Fin 16), (32 : Nat), (((Z.onInput (32 : Nat) (fun o => { o with fault := false })).onInput 32 (fun o => { o with ends := 3 }))), by decide⟩,
   ⟨(0 : Fin 3), (0 : Fin 16), (sensKey (0 : Fin 3).val (0 : Fin 16).val : Nat), (Z), by decide⟩,
   ⟨(0 : Fin 4), ((Z.onRope (0 : Fin 4).val (fun o => { o with en := false }))), by decide⟩,
   ⟨(0 : Fin 4), (0 : Nat), ((Z.onRope 0 (fun q => { q with en := true }))), (Band.leak : Band), by decide⟩,
   ⟨(0 : Fin 4), ((((Z.onRope (0 : Fin 4).val (fun o => { o with en := true })).onRope (0 : Fin 4).val (fun o => { o with band := .leak })).onRope (0 : Fin 4).val (fun o => { o with latch := false }))), by decide⟩,
   ⟨(0 : Fin 4), ((Z.onRope (0 : Fin 4).val (fun o => { o with en := false }))), by decide⟩,
   ⟨(0 : Fin 6), (((((Z.onMotor (0 : Fin 6).val (fun o => { o with mode := 2 })).onMotor (0 : Fin 6).val (fun o => { o with st := .running })).onMotor (0 : Fin 6).val (fun o => { o with base := 1 })).onMotor (0 : Fin 6).val (fun o => { o with lastAge := none }))), by decide⟩,
   ⟨(0 : Fin 6), (Z), by decide⟩,
   ⟨((Z.onCairn (fun o => { o with policy := { row := true } }))), by decide⟩,
   ⟨(Z), ((if (Z).drv.windowSeen && (Z).drv.hot then max (acMin (Z)) (acapOf (Z) - acStep (Z)) else if (Z).drv.windowSeen && (Z).drv.cool then min (Z).env.variant.peak (acapOf (Z) + acStep (Z)) else acapOf (Z)) : Nat), by decide⟩⟩

theorem witness_LoopPeriods :
    (∃ (s : State), (s.loop.running = false)) ∧
    (∃ (i : SlotId) (s : State), (s.loop.running = true) ∧ ((s.slot i.val).en = false) ∧ (s.loop.captActive = false)) ∧
    (∃ (i : SlotId) (s : State) (y : BitVec 24 × Bool) (q : Slot), (q = s.slot i.val) ∧ (s.loop.running = true) ∧ (q.en = true) ∧ (q.hold = true) ∧ (q.active = true) ∧ (s.loop.captActive = false) ∧ (s.loop.held = []) ∧ (q.rsrc = 0xFF) ∧ (s.loop.captActive = false) ∧ (y = limit24 (align ((sourceOf s q.ysrc.toNat).getD (0, 0)).1 ((sourceOf s q.ysrc.toNat).getD (0, 0)).2 q.esig.toInt))) ∧
    (∃ (i : SlotId) (s : State) (y : BitVec 24 × Bool) (r : BitVec 24 × Bool) (q : Slot) (p : Period), (q = s.slot i.val) ∧ (s.loop.running = true) ∧ (q.en = true) ∧ (q.hold = false) ∧ (q.active = true) ∧ (s.loop.captActive = false) ∧ (s.loop.go = false) ∧ (q.rsrc = 0xFF) ∧ (y = limit24 (align ((sourceOf s q.ysrc.toNat).getD (0, 0)).1 ((sourceOf s q.ysrc.toNat).getD (0, 0)).2 q.esig.toInt)) ∧ (r = limit24 q.setpt.toInt) ∧ (p = compute q y.1.toInt r.1.toInt 0 (y.2 || r.2) (q.holding && q.bumpless))) ∧
    (∃ (i : SlotId) (s : State), ((s.slot i.val).pend = none)) ∧
    (∃ (i : SlotId) (s : State) (o : SlotOut), ((s.slot i.val).pend = some o)) ∧
    (∃ (i : SlotId) (s : State), ((s.slot i.val).en = true) ∧ ((s.slot i.val).feTime ≠ 0) ∧ ((s.slot i.val).feCount = (s.slot i.val).feTime)) ∧
    (∃ (i : SlotId) (s : State), ((s.slot i.val).en = false ∨ (s.slot i.val).feTime = 0 ∨ (s.slot i.val).feCount ≠ (s.slot i.val).feTime)) ∧
    (∃ (s : State), (s.loop.run = false)) ∧
    (∃ (s : State), (s.loop.run = true)) :=
  ⟨⟨((Z.onLoop (fun o => { o with running := false }))), by decide⟩,
   ⟨(0 : SlotId), ((((Z.onLoop (fun o => { o with running := true })).onSlot (0 : SlotId).val (fun o => { o with en := false })).onLoop (fun o => { o with captActive := false }))), by decide⟩,
   ⟨(0 : SlotId), ((((((Z.onLoop (fun o => { o with running := true })).onLoop (fun o => { o with captActive := false })).onLoop (fun o => { o with held := [] })).onLoop (fun o => { o with captActive := false })).onSlot 0 (fun o => { o with en := true, hold := true, active := true }))), (limit24 (align ((sourceOf ((((((Z.onLoop (fun o => { o with running := true })).onLoop (fun o => { o with captActive := false })).onLoop (fun o => { o with held := [] })).onLoop (fun o => { o with captActive := false })).onSlot 0 (fun o => { o with en := true, hold := true, active := true }))) (((((((Z.onLoop (fun o => { o with running := true })).onLoop (fun o => { o with captActive := false })).onLoop (fun o => { o with held := [] })).onLoop (fun o => { o with captActive := false })).onSlot 0 (fun o => { o with en := true, hold := true, active := true }))).slot (0 : SlotId).val : Slot).ysrc.toNat).getD (0, 0)).1 ((sourceOf ((((((Z.onLoop (fun o => { o with running := true })).onLoop (fun o => { o with captActive := false })).onLoop (fun o => { o with held := [] })).onLoop (fun o => { o with captActive := false })).onSlot 0 (fun o => { o with en := true, hold := true, active := true }))) (((((((Z.onLoop (fun o => { o with running := true })).onLoop (fun o => { o with captActive := false })).onLoop (fun o => { o with held := [] })).onLoop (fun o => { o with captActive := false })).onSlot 0 (fun o => { o with en := true, hold := true, active := true }))).slot (0 : SlotId).val : Slot).ysrc.toNat).getD (0, 0)).2 (((((((Z.onLoop (fun o => { o with running := true })).onLoop (fun o => { o with captActive := false })).onLoop (fun o => { o with held := [] })).onLoop (fun o => { o with captActive := false })).onSlot 0 (fun o => { o with en := true, hold := true, active := true }))).slot (0 : SlotId).val : Slot).esig.toInt) : BitVec 24 × Bool), (((((((Z.onLoop (fun o => { o with running := true })).onLoop (fun o => { o with captActive := false })).onLoop (fun o => { o with held := [] })).onLoop (fun o => { o with captActive := false })).onSlot 0 (fun o => { o with en := true, hold := true, active := true }))).slot (0 : SlotId).val : Slot), by decide⟩,
   ⟨(0 : SlotId), (((((Z.onLoop (fun o => { o with running := true })).onLoop (fun o => { o with captActive := false })).onLoop (fun o => { o with go := false })).onSlot 0 (fun o => { o with en := true, active := true }))), (limit24 (align ((sourceOf (((((Z.onLoop (fun o => { o with running := true })).onLoop (fun o => { o with captActive := false })).onLoop (fun o => { o with go := false })).onSlot 0 (fun o => { o with en := true, active := true }))) ((((((Z.onLoop (fun o => { o with running := true })).onLoop (fun o => { o with captActive := false })).onLoop (fun o => { o with go := false })).onSlot 0 (fun o => { o with en := true, active := true }))).slot (0 : SlotId).val : Slot).ysrc.toNat).getD (0, 0)).1 ((sourceOf (((((Z.onLoop (fun o => { o with running := true })).onLoop (fun o => { o with captActive := false })).onLoop (fun o => { o with go := false })).onSlot 0 (fun o => { o with en := true, active := true }))) ((((((Z.onLoop (fun o => { o with running := true })).onLoop (fun o => { o with captActive := false })).onLoop (fun o => { o with go := false })).onSlot 0 (fun o => { o with en := true, active := true }))).slot (0 : SlotId).val : Slot).ysrc.toNat).getD (0, 0)).2 ((((((Z.onLoop (fun o => { o with running := true })).onLoop (fun o => { o with captActive := false })).onLoop (fun o => { o with go := false })).onSlot 0 (fun o => { o with en := true, active := true }))).slot (0 : SlotId).val : Slot).esig.toInt) : BitVec 24 × Bool), (limit24 ((((((Z.onLoop (fun o => { o with running := true })).onLoop (fun o => { o with captActive := false })).onLoop (fun o => { o with go := false })).onSlot 0 (fun o => { o with en := true, active := true }))).slot (0 : SlotId).val : Slot).setpt.toInt : BitVec 24 × Bool), ((((((Z.onLoop (fun o => { o with running := true })).onLoop (fun o => { o with captActive := false })).onLoop (fun o => { o with go := false })).onSlot 0 (fun o => { o with en := true, active := true }))).slot (0 : SlotId).val : Slot), (compute ((((((Z.onLoop (fun o => { o with running := true })).onLoop (fun o => { o with captActive := false })).onLoop (fun o => { o with go := false })).onSlot 0 (fun o => { o with en := true, active := true }))).slot (0 : SlotId).val : Slot) (limit24 (align ((sourceOf (((((Z.onLoop (fun o => { o with running := true })).onLoop (fun o => { o with captActive := false })).onLoop (fun o => { o with go := false })).onSlot 0 (fun o => { o with en := true, active := true }))) ((((((Z.onLoop (fun o => { o with running := true })).onLoop (fun o => { o with captActive := false })).onLoop (fun o => { o with go := false })).onSlot 0 (fun o => { o with en := true, active := true }))).slot (0 : SlotId).val : Slot).ysrc.toNat).getD (0, 0)).1 ((sourceOf (((((Z.onLoop (fun o => { o with running := true })).onLoop (fun o => { o with captActive := false })).onLoop (fun o => { o with go := false })).onSlot 0 (fun o => { o with en := true, active := true }))) ((((((Z.onLoop (fun o => { o with running := true })).onLoop (fun o => { o with captActive := false })).onLoop (fun o => { o with go := false })).onSlot 0 (fun o => { o with en := true, active := true }))).slot (0 : SlotId).val : Slot).ysrc.toNat).getD (0, 0)).2 ((((((Z.onLoop (fun o => { o with running := true })).onLoop (fun o => { o with captActive := false })).onLoop (fun o => { o with go := false })).onSlot 0 (fun o => { o with en := true, active := true }))).slot (0 : SlotId).val : Slot).esig.toInt) : BitVec 24 × Bool).1.toInt (limit24 ((((((Z.onLoop (fun o => { o with running := true })).onLoop (fun o => { o with captActive := false })).onLoop (fun o => { o with go := false })).onSlot 0 (fun o => { o with en := true, active := true }))).slot (0 : SlotId).val : Slot).setpt.toInt : BitVec 24 × Bool).1.toInt 0 ((limit24 (align ((sourceOf (((((Z.onLoop (fun o => { o with running := true })).onLoop (fun o => { o with captActive := false })).onLoop (fun o => { o with go := false })).onSlot 0 (fun o => { o with en := true, active := true }))) ((((((Z.onLoop (fun o => { o with running := true })).onLoop (fun o => { o with captActive := false })).onLoop (fun o => { o with go := false })).onSlot 0 (fun o => { o with en := true, active := true }))).slot (0 : SlotId).val : Slot).ysrc.toNat).getD (0, 0)).1 ((sourceOf (((((Z.onLoop (fun o => { o with running := true })).onLoop (fun o => { o with captActive := false })).onLoop (fun o => { o with go := false })).onSlot 0 (fun o => { o with en := true, active := true }))) ((((((Z.onLoop (fun o => { o with running := true })).onLoop (fun o => { o with captActive := false })).onLoop (fun o => { o with go := false })).onSlot 0 (fun o => { o with en := true, active := true }))).slot (0 : SlotId).val : Slot).ysrc.toNat).getD (0, 0)).2 ((((((Z.onLoop (fun o => { o with running := true })).onLoop (fun o => { o with captActive := false })).onLoop (fun o => { o with go := false })).onSlot 0 (fun o => { o with en := true, active := true }))).slot (0 : SlotId).val : Slot).esig.toInt) : BitVec 24 × Bool).2 || (limit24 ((((((Z.onLoop (fun o => { o with running := true })).onLoop (fun o => { o with captActive := false })).onLoop (fun o => { o with go := false })).onSlot 0 (fun o => { o with en := true, active := true }))).slot (0 : SlotId).val : Slot).setpt.toInt : BitVec 24 × Bool).2) (((((((Z.onLoop (fun o => { o with running := true })).onLoop (fun o => { o with captActive := false })).onLoop (fun o => { o with go := false })).onSlot 0 (fun o => { o with en := true, active := true }))).slot (0 : SlotId).val : Slot).holding && ((((((Z.onLoop (fun o => { o with running := true })).onLoop (fun o => { o with captActive := false })).onLoop (fun o => { o with go := false })).onSlot 0 (fun o => { o with en := true, active := true }))).slot (0 : SlotId).val : Slot).bumpless) : Period), by refine ⟨?_, ?_, ?_, ?_, ?_, ?_, ?_, ?_, ?_, ?_, ?_⟩ <;> first | decide | rfl⟩,
   ⟨(0 : SlotId), ((Z.onSlot (0 : SlotId).val (fun o => { o with pend := none }))), by decide⟩,
   ⟨(0 : SlotId), ((Z.onSlot 0 (fun q => { q with pend := some {} }))), (({} : SlotOut) : SlotOut), by decide⟩,
   ⟨(0 : SlotId), ((Z.onSlot 0 (fun o => { o with en := true, feTime := 1, feCount := 1 }))), by decide⟩,
   ⟨(0 : SlotId), ((Z.onSlot (0 : SlotId).val (fun o => { o with en := false }))), by decide⟩,
   ⟨((Z.onLoop (fun o => { o with run := false }))), by decide⟩,
   ⟨((Z.onLoop (fun o => { o with run := true }))), by decide⟩⟩

theorem witness_LoopSlotCommands :
    (∃ (off : BitVec 6), (off.toNat % 4 ≠ 0)) ∧
    (∃ (i : SlotId) (off : BitVec 6) (v : Word) (s : State), (off.toNat % 4 = 0) ∧ (slotRefusal s i.val off.toNat v ≠ 0)) ∧
    (∃ (i : SlotId) (off : BitVec 6) (v : Word) (s : State), (off.toNat % 4 = 0) ∧ (slotRefusal s i.val off.toNat v = 0)) ∧
    (∃ (s : State) (i : Nat), ((s.slot i).en = true) ∧ ((s.slot i).holding = false)) ∧
    (∃ (i : SlotId) (on : Bool) (s : State), ((s.slot i.val).feAct ≠ 3) ∧ ((on = true → enableRefusal s i.val { s.slot i.val with en := true } = 0))) ∧
    (∃ (i : SlotId) (s : State), ((s.slot i.val).feAct ≠ 3) ∧ (enableRefusal s i.val { s.slot i.val with en := true } ≠ 0)) ∧
    (∃ (i : SlotId) (on : Bool) (c : Instr) (s : State), ((c, on) ∈ [(Instr.holdSet i, true), (.holdClear i, false)]) ∧ ((s.slot i.val).feAct ≠ 3) ∧ (((s.slot i.val).en = true → enableRefusal s i.val { s.slot i.val with hold := on } = 0))) ∧
    (∃ (v : Word), (v.extractLsb' 6 2 ≠ 3) ∧ (v.getLsbD 8 = false)) ∧
    (∃ (v : Word) (s : State) (a : Fin 8), (v.extractLsb' 6 2 ≠ 3) ∧ (v.getLsbD 8 = true) ∧ (s.loop.injAuth = some a) ∧ (goRefused s v = false)) ∧
    (∃ (v : Word) (s : State) (n : Nat), ((v.extractLsb' 6 2 = 3 ∧ n = 5) ∨ (v.extractLsb' 6 2 ≠ 3 ∧ v.getLsbD 8 = true ∧ goRefused s v = true ∧ n = 6))) :=
  ⟨⟨(1 : BitVec 6), by decide⟩,
   ⟨(0 : SlotId), (0x04 : BitVec 6), (1 : Word), (Z), by decide⟩,
   ⟨(0 : SlotId), (0 : BitVec 6), (0 : Word), (Z), by decide⟩,
   ⟨(((Z.onSlot (0 : Nat) (fun o => { o with en := true })).onSlot (0 : Nat) (fun o => { o with holding := false }))), (0 : Nat), by decide⟩,
   ⟨(0 : SlotId), (false : Bool), (Z), by decide⟩,
   ⟨(0 : SlotId), (Z), by decide⟩,
   ⟨(0 : SlotId), (true : Bool), (Instr.holdSet (0 : SlotId) : Instr), (Z), by decide⟩,
   ⟨(0 : Word), by decide⟩,
   ⟨(0x100 : Word), ((((Z.onLoop (fun o => { o with injAuth := some (0 : Fin 8) })).onSlot 0 (fun o => { o with en := true })).onLoop (fun o => { o with injAuth := some 0 }))), (0 : Fin 8), by decide⟩,
   ⟨(0xC0 : Word), (Z), (5 : Nat), by decide⟩⟩

theorem witness_BusFaultCommands :
    (∃ (i : IfId) (s : State), (onBus (s.can i.val) = false ∨ s.env.variant.cbus ≤ i.val)) ∧
    (∃ (i : IfId) (s : State), (onBus (s.can i.val) = true) ∧ (i.val < s.env.variant.cbus)) ∧
    (∃ (i : IfId) (s : State), ((s.can i.val).st = .recovering)) ∧
    (∃ (i : IfId) (s : State), ((s.can i.val).st ≠ .recovering)) :=
  ⟨⟨(0 : IfId), (Z), by decide⟩,
   ⟨(0 : IfId), ((Z.onCan 0 (fun o => { o with init := false, st := .active }))), by decide⟩,
   ⟨(0 : IfId), ((Z.onCan (0 : IfId).val (fun o => { o with st := .recovering }))), by decide⟩,
   ⟨(0 : IfId), (Z), by decide⟩⟩

theorem witness_BusFrameCommands :
    (∃ (i : IfId) (s : State), ((s.can i.val).queue = [])) ∧
    (∃ (i : IfId) (f : TxFrame) (s : State), (onBus (s.can i.val) = true) ∧ ((s.can i.val).listen = false) ∧ (i.val < s.env.variant.cbus) ∧ (lowest (s.can i.val).queue = some f)) ∧
    (∃ (i : IfId) (d : Bool) (v : Word) (s : State), (i.val < s.env.variant.cbus) ∧ ((s.can i.val).init = true) ∧ (timingOk (if d then (s.can i.val).nbt else v &&& 0x07FFFFFF) (if d then v &&& 0x03FFFFFF else (s.can i.val).dbt) = true)) ∧
    (∃ (i : IfId) (d : Bool) (v : Word) (s : State), ((s.can i.val).init = false ∨ timingOk (if d then (s.can i.val).nbt else v &&& 0x07FFFFFF) (if d then v &&& 0x03FFFFFF else (s.can i.val).dbt) = false)) ∧
    (∃ (i : IfId) (f : CanFrame) (s : State), (onBus (s.can i.val) = true) ∧ (i.val < s.env.variant.cbus) ∧ (f.extended = false ∨ f.remote = true)) ∧
    (∃ (i : IfId) (k : Nat) (f : CanFrame) (s : State), (onBus (s.can i.val) = true) ∧ (i.val < s.env.variant.cbus) ∧ (f.extended = true) ∧ (f.remote = false) ∧ (f.own = true) ∧ (matchObj (s.can i.val) f.id = some k) ∧ ((fget {} (s.can i.val).objs k).locked = false)) :=
  ⟨⟨(0 : IfId), ((Z.onCan (0 : IfId).val (fun o => { o with queue := [] }))), by decide⟩,
   ⟨(0 : IfId), (zt : TxFrame), (((Z.onCan (0 : IfId).val (fun o => { o with listen := false })).onCan 0 (fun o => { o with init := false, st := .active, queue := [zt] }))), by decide⟩,
   ⟨(0 : IfId), (true : Bool), (0 : Word), ((Z.onCan (0 : IfId).val (fun o => { o with init := true }))), by decide⟩,
   ⟨(0 : IfId), (false : Bool), (0 : Word), ((Z.onCan (0 : IfId).val (fun o => { o with init := false }))), by decide⟩,
   ⟨(0 : IfId), ({ zcf with remote := true } : CanFrame), ((Z.onCan 0 (fun o => { o with init := false, st := .active }))), by decide⟩,
   ⟨(0 : IfId), (0 : Nat), (zcf : CanFrame), ((Z.onCan 0 (fun o => { o with init := false, st := .active, objs := [(0, { en := true })] }))), by decide⟩⟩

theorem witness_BusTimeCommands :
    (∃ (s : State), (s.cbus.role ≠ 1) ∧ ((s.cbus.role = 2 → ∃ p, s.cbus.primaryTs = some p ∧ s.env.ts.toNat < p.toNat + 3000000))) ∧
    (∃ (i : IfId) (s : State), (i.val < s.env.variant.cbus) ∧ ((s.can i.val).queue.length < 16) ∧ (s.cbus.role = 1 ∨ (s.cbus.role = 2 ∧ ∀ p, s.cbus.primaryTs = some p → p.toNat + 3000000 ≤ s.env.ts.toNat))) ∧
    (∃ (i : IfId) (p : DWord) (s : State), ((s.can i.val).offsetTs = some p) ∧ (s.env.ts.toNat < p.toNat + 3000000)) ∧
    (∃ (i : IfId) (s : State), ((∀ p, (s.can i.val).offsetTs = some p → p.toNat + 3000000 ≤ s.env.ts.toNat))) ∧
    (∃ (s : State), (anyLatch s = false)) ∧
    (∃ (i : IfId) (s : State), (anyLatch s = true) ∧ (i.val < s.env.variant.cbus) ∧ ((s.can i.val).queue.length < 16)) :=
  ⟨⟨(Z), by decide⟩,
   ⟨(0 : IfId), ((Z.onCbus (fun o => { o with role := 1 }))), by decide⟩,
   ⟨(0 : IfId), (0 : DWord), ((Z.onCan (0 : IfId).val (fun o => { o with offsetTs := some (0 : DWord) }))), by decide⟩,
   ⟨(0 : IfId), ((Z.onEnv (fun o => { o with ts := 0x100000000000000 }))), by intro _ h; cases h⟩,
   ⟨(Z), by decide⟩,
   ⟨(0 : IfId), ((Z.onRope 0 (fun o => { o with latch := true }))), by decide⟩⟩

theorem witness_LeaseCommands :
    (∃ (g : GroupId) (s : State), ((s.group g.val).st ≠ .standby ∨ (s.group g.val).waiting = true ∨ (∃ p, (s.group g.val).renewTs = some p ∧ s.env.ts.toNat < p.toNat + 30000000))) ∧
    (∃ (g : GroupId) (s : State) (u : State), ((s.group g.val).st = .standby) ∧ ((s.group g.val).waiting = false) ∧ ((∀ p, (s.group g.val).renewTs = some p → p.toNat + 30000000 ≤ s.env.ts.toNat)) ∧ (u = s.onGroup g.val (fun q => { q with live := false }))) ∧
    (∃ (g : GroupId) (s : State), ((s.group g.val).st ≠ .standby ∨ (s.group g.val).waiting = false)) ∧
    (∃ (g : GroupId) (i : IfId) (s : State), ((s.group g.val).st = .standby) ∧ ((s.group g.val).waiting = true) ∧ (i.val < s.env.variant.cbus) ∧ ((s.can i.val).queue.length < 16)) ∧
    (∃ (g : GroupId) (s : State), ((s.group g.val).st ≠ .claiming)) ∧
    (∃ (g : GroupId) (s : State), ((s.group g.val).st = .claiming)) ∧
    (∃ (g : GroupId) (s : State), ((s.group g.val).st ≠ .holding)) ∧
    (∃ (g : GroupId) (s : State), ((s.group g.val).st = .holding)) ∧
    (∃ (g : GroupId) (p : DWord) (s : State), ((s.group g.val).renewTs = some p) ∧ (s.env.ts.toNat < p.toNat + 25000000)) ∧
    (∃ (g : GroupId) (s : State), ((s.group g.val).st = .holding) ∧ ((∀ p, (s.group g.val).renewTs = some p → p.toNat + 25000000 ≤ s.env.ts.toNat))) :=
  ⟨⟨(0 : GroupId), (Z), by decide⟩,
   ⟨(0 : GroupId), ((((Z.onGroup (0 : GroupId).val (fun o => { o with st := .standby })).onGroup (0 : GroupId).val (fun o => { o with waiting := false })).onEnv (fun o => { o with ts := 0x100000000000000 }))), (((((Z.onGroup (0 : GroupId).val (fun o => { o with st := .standby })).onGroup (0 : GroupId).val (fun o => { o with waiting := false })).onEnv (fun o => { o with ts := 0x100000000000000 }))).onGroup (0 : GroupId).val (fun q => { q with live := false })), by refine ⟨?_, ?_, ?_, ?_⟩ <;> first | (intro _ h; cases h; done) | decide⟩,
   ⟨(0 : GroupId), (Z), by decide⟩,
   ⟨(0 : GroupId), (0 : IfId), (((Z.onGroup (0 : GroupId).val (fun o => { o with st := .standby })).onGroup (0 : GroupId).val (fun o => { o with waiting := true }))), by decide⟩,
   ⟨(0 : GroupId), (Z), by decide⟩,
   ⟨(0 : GroupId), ((Z.onGroup (0 : GroupId).val (fun o => { o with st := .claiming }))), by decide⟩,
   ⟨(0 : GroupId), (Z), by decide⟩,
   ⟨(0 : GroupId), ((Z.onGroup (0 : GroupId).val (fun o => { o with st := .holding }))), by decide⟩,
   ⟨(0 : GroupId), (0 : DWord), ((Z.onGroup (0 : GroupId).val (fun o => { o with renewTs := some (0 : DWord) }))), by decide⟩,
   ⟨(0 : GroupId), (((Z.onGroup (0 : GroupId).val (fun o => { o with st := .holding })).onEnv (fun o => { o with ts := 0x100000000000000 }))), by refine ⟨?_, ?_⟩ <;> first | (intro _ h; cases h; done) | decide⟩⟩

theorem witness_TraverseAndHealthCommands :
    (∃ (src : BitVec 6) (g : GroupId) (r : Bool) (e : Word) (s : State) (u : Group), ((s.group g.val).st ≠ .unused) ∧ ((s.group g.val).partner = src) ∧ (u = { s.group g.val with epoch := if (s.group g.val).epoch.toNat < e.toNat then e else (s.group g.val).epoch, renewTs := some s.env.ts, live := !r, waiting := false, heardTs := none })) ∧
    (∃ (src : BitVec 6) (s : State), (s.cairn.plant.peers.contains src = false)) ∧
    (∃ (src : BitVec 6) (s : State), (s.cairn.plant.peers.contains src = true)) ∧
    (∃ (s : State), (s.cbus.peerLeak = false ∨ s.env.ts.toNat < s.cbus.peerTs.toNat + 200000000)) ∧
    (∃ (s : State), (s.cbus.peerLeak = true) ∧ (s.cbus.peerTs.toNat + 200000000 ≤ s.env.ts.toNat)) :=
  ⟨⟨(0 : BitVec 6), (0 : GroupId), (false : Bool), (0 : Word), (((Z.onGroup (0 : GroupId).val (fun o => { o with partner := (0 : BitVec 6) })).onGroup 0 (fun o => { o with st := .holding, partner := 0 }))), ({ Z.group 0 with st := .holding, renewTs := some 0, live := true } : Group), by decide⟩,
   ⟨(0 : BitVec 6), (Z), by decide⟩,
   ⟨(0 : BitVec 6), ((Z.onCairn (fun o => { o with plant := { peers := [0] } }))), by decide⟩,
   ⟨((Z.onCbus (fun o => { o with peerLeak := false }))), by decide⟩,
   ⟨(((Z.onCbus (fun o => { o with peerLeak := true })).onEnv (fun o => { o with ts := 0x100000000000000 }))), by decide⟩⟩

theorem witness_HutBookAndBoardCommands :
    (∃ (s : State), (s.evts.queue.length < 256)) ∧
    (∃ (s : State), (256 ≤ s.evts.queue.length)) ∧
    (∃ (s : State), (s.hut.powerFail = true)) ∧
    (∃ (s : State), (s.hut.powerFail = false)) ∧
    (∃ (s : State), (fwf 0 s.hut.used = true)) ∧
    (∃ (s : State), (s.cairn.bmcLate = true)) ∧
    (∃ (s : State), (s.cairn.bmcLate = false)) ∧
    (∃ (s : State), (s.cairn.auto = true)) ∧
    (∃ (s : State), (s.cairn.auto = false)) :=
  ⟨⟨(Z), by decide⟩,
   ⟨((Z.onEvts (fun o => { o with queue := List.replicate 256 ⟨0, 0, 0, 0, false⟩ }))), by exact le_of_eq (List.length_replicate ..).symm⟩,
   ⟨((Z.onHut (fun o => { o with powerFail := true }))), by decide⟩,
   ⟨((Z.onHut (fun o => { o with powerFail := false }))), by decide⟩,
   ⟨(Z), by decide⟩,
   ⟨((Z.onCairn (fun o => { o with bmcLate := true }))), by decide⟩,
   ⟨((Z.onCairn (fun o => { o with bmcLate := false }))), by decide⟩,
   ⟨((Z.onCairn (fun o => { o with auto := true }))), by decide⟩,
   ⟨((Z.onCairn (fun o => { o with auto := false }))), by decide⟩⟩

theorem witness_RegisterAndInterruptCommands :
    (∃ (off : BitVec 26) (size : Nat), ((size ≠ 4 ∧ size ≠ 8) ∨ off.toNat % size ≠ 0)) ∧
    (∃ (f : FnId) (s : State), (0 < f.val) ∧ ((s.fn f.val).tdi = .error)) ∧
    (∃ (who : Party) (off : BitVec 26) (s : State), (who = .host 0 ∨ who = .camp ∨ who = .cairn) ∧ (off.toNat % 4 = 0) ∧ (blkAt s.env.variant (off.toNat / 4096) = none)) ∧
    (∃ (who : Party) (b : Blk) (pg : Nat) (off : BitVec 26) (s : State), (who = .camp ∨ who = .cairn) ∧ (blkAt s.env.variant pg = some b) ∧ (ownsPage s b who = true) ∧ (off.toNat = pg * 4096 + 0x014)) ∧
    (∃ (who : Party) (b : Blk) (pg : Nat) (off : BitVec 26) (s : State), (who = .camp ∨ who = .cairn) ∧ (blkAt s.env.variant pg = some b) ∧ (ownsPage s b who = true) ∧ (off.toNat = pg * 4096 + 0x018)) ∧
    (∃ (who : Party) (b : Blk) (pg : Nat) (page : BitVec 14) (s : State), (who = .camp ∨ who = .cairn) ∧ (blkAt s.env.variant pg = some b) ∧ (ownsPage s b who = true) ∧ (page.toNat = pg)) ∧
    (∃ (who : Party) (b : Blk) (pg : Nat) (off : BitVec 26) (s : State), (who = .camp ∨ who = .cairn) ∧ (blkAt s.env.variant pg = some b) ∧ (b ≠ .mbox) ∧ (ownsPage s b who = false) ∧ (off.toNat / 4096 = pg) ∧ (off.toNat % 4 = 0) ∧ (off.toNat % 4096 = 0x01C)) ∧
    (∃ (who : Party) (b : Blk) (pg : Nat) (off : BitVec 26) (s : State), (who = .camp ∨ who = .cairn) ∧ (blkAt s.env.variant pg = some b) ∧ (off.toNat = pg * 4096)) ∧
    (∃ (who : Party) (b : Blk) (pg : Nat) (off : BitVec 26) (s : State), (who = .camp ∨ who = .cairn) ∧ (blkAt s.env.variant pg = some b) ∧ (off.toNat = pg * 4096 + 0x014)) ∧
    (∃ (who : Party) (b : Blk) (pg : Nat) (off : BitVec 26) (s : State), (who = .camp ∨ who = .cairn) ∧ (blkAt s.env.variant pg = some b) ∧ (off.toNat = pg * 4096 + 0x018)) ∧
    (∃ (who : Party) (b : Blk) (pg : Nat) (off : BitVec 26) (s : State), (who = .camp ∨ who = .cairn) ∧ (blkAt s.env.variant pg = some b) ∧ (off.toNat = pg * 4096 + 0x024)) ∧
    (∃ (who : Party) (b : Blk) (pg : Nat) (off : BitVec 26) (s : State), (who = .camp ∨ who = .cairn) ∧ (blkAt s.env.variant pg = some b) ∧ (off.toNat = pg * 4096 + 0x020)) :=
  ⟨⟨(0 : BitVec 26), (0 : Nat), by decide⟩,
   ⟨(1 : FnId), (((Z.onFn (1 : FnId).val (fun o => { o with tdi := .error })).onFn 1 (fun o => { o with tdi := .error }))), by decide⟩,
   ⟨(.camp : Party), (0x3000000 : BitVec 26), (Z), by decide⟩,
   ⟨(.camp : Party), (.pwr : Blk), (pgPwr : Nat), (BitVec.ofNat 26 (pgPwr * 4096 + 20) : BitVec 26), (Z), by decide⟩,
   ⟨(.camp : Party), (.pwr : Blk), (pgPwr : Nat), (BitVec.ofNat 26 (pgPwr * 4096 + 24) : BitVec 26), (Z), by decide⟩,
   ⟨(.camp : Party), (.pwr : Blk), (pgPwr : Nat), (BitVec.ofNat 14 pgPwr : BitVec 14), (Z), by decide⟩,
   ⟨(.camp : Party), (.vlv : Blk), (pgVlv : Nat), (BitVec.ofNat 26 (pgVlv * 4096 + 0x1C) : BitVec 26), (Z), by decide⟩,
   ⟨(.camp : Party), (.pwr : Blk), (pgPwr : Nat), (BitVec.ofNat 26 (pgPwr * 4096 + 0) : BitVec 26), (Z), by decide⟩,
   ⟨(.camp : Party), (.pwr : Blk), (pgPwr : Nat), (BitVec.ofNat 26 (pgPwr * 4096 + 20) : BitVec 26), (Z), by decide⟩,
   ⟨(.camp : Party), (.pwr : Blk), (pgPwr : Nat), (BitVec.ofNat 26 (pgPwr * 4096 + 24) : BitVec 26), (Z), by decide⟩,
   ⟨(.camp : Party), (.pwr : Blk), (pgPwr : Nat), (BitVec.ofNat 26 (pgPwr * 4096 + 36) : BitVec 26), (Z), by decide⟩,
   ⟨(.camp : Party), (.pwr : Blk), (pgPwr : Nat), (BitVec.ofNat 26 (pgPwr * 4096 + 32) : BitVec 26), (Z), by decide⟩⟩

theorem witness_ManagementCommands :
    (∃ (who : Principal) (cap : BitVec 12) (tag : BitVec 16) (bs : List Byte) (dom : FwDomain) (off : BitVec 24) (i : IfId) (g : GroupId) (what : ReadWhat) (c : Instr) (need : Role) (rom : Bool) (s : State), ((c, need, rom) ∈ [(Instr.mgmtRead who what, Role.monitor, true), (.setBoardCap who cap, .operator, false), (.moduleReset who, .operator, false), (.ledgerStage who tag bs, .operator, false), (.ledgerCommit who, .operator, false), (.ledgerRevert who, .operator, false), (.fwStage who dom off bs, .operator, true), (.fwVerify who dom, .operator, true), (.fwDiscard who dom, .operator, false), (.latchClear who, .operator, false), (.mgmtRecover who i, .operator, false), (.flowRestart who, .operator, false), (.leaseRelease who g, .operator, false), (.mgmtInject who, .service, false), (.floorRaise who dom, .service, false), (.faultClear who, .service, false), (.logClear who, .service, false)]) ∧ (s.cairn.st = .rom ∨ s.cairn.st = .stopped)) ∧
    (∃ (who : Principal) (cap : BitVec 12) (tag : BitVec 16) (bs : List Byte) (dom : FwDomain) (off : BitVec 24) (i : IfId) (g : GroupId) (what : ReadWhat) (c : Instr) (need : Role) (rom : Bool) (s : State), ((c, need, rom) ∈ [(Instr.mgmtRead who what, Role.monitor, true), (.setBoardCap who cap, .operator, false), (.moduleReset who, .operator, false), (.ledgerStage who tag bs, .operator, false), (.ledgerCommit who, .operator, false), (.ledgerRevert who, .operator, false), (.fwStage who dom off bs, .operator, true), (.fwVerify who dom, .operator, true), (.fwDiscard who dom, .operator, false), (.latchClear who, .operator, false), (.mgmtRecover who i, .operator, false), (.flowRestart who, .operator, false), (.leaseRelease who g, .operator, false), (.mgmtInject who, .service, false), (.floorRaise who dom, .service, false), (.faultClear who, .service, false), (.logClear who, .service, false)]) ∧ ((s.cairn.st = .running ∧ (roleIn s who).rank < need.rank) ∨ (s.cairn.st = .recovery ∧ (rom = false ∨ (roleIn s who).rank < need.rank)))) ∧
    (∃ (who : Principal) (s : State), (authorised s who .monitor true)) ∧
    (∃ (who : Principal) (s : State) (off : BitVec 26) (v : Nat), (authorised s who .monitor true) ∧ (mirrorReg s off.toNat = some v)) ∧
    (∃ (who : Principal) (s : State) (off : BitVec 26), (authorised s who .monitor true) ∧ (mirrorReg s off.toNat = none)) ∧
    (∃ (who : Principal) (s : State), (authorised s who .operator false)) ∧
    (∃ (who : Principal) (tag : BitVec 16) (bs : List Byte) (s : State), (authorised s who .operator false) ∧ ((entryBytes (s.cairn.staged.getD [] ++ [(tag, bs)])).length + 56 ≤ 8388608)) ∧
    (∃ (who : Principal) (tag : BitVec 16) (bs : List Byte) (s : State), (authorised s who .operator false) ∧ (8388608 < (entryBytes (s.cairn.staged.getD [] ++ [(tag, bs)])).length + 56)) ∧
    (∃ (who : Principal) (s : State), (authorised s who .operator false) ∧ (s.cairn.staged = none)) ∧
    (∃ (who : Principal) (s : State) (es : _) (n : _), (authorised s who .operator false) ∧ (s.cairn.staged = some es) ∧ (firstFailing s.env.variant es = some n)) ∧
    (∃ (who : Principal) (s : State) (es : _), (authorised s who .operator false) ∧ (s.cairn.staged = some es) ∧ (firstFailing s.env.variant es = none)) ∧
    (∃ (who : Principal) (s : State), (authorised s who .operator false) ∧ (s.cairn.prev = none)) ∧
    (∃ (who : Principal) (s : State) (p : _), (authorised s who .operator false) ∧ (s.cairn.prev = some p)) ∧
    (∃ (who : Principal) (s : State), (authorised s who .service false)) :=
  ⟨⟨(none : Principal), (0 : BitVec 12), (0 : BitVec 16), ([] : List Byte), (.cairn : FwDomain), (0 : BitVec 24), (0 : IfId), (0 : GroupId), (.hut : ReadWhat), (Instr.mgmtRead (none : Principal) (.hut : ReadWhat) : Instr), (Role.monitor : Role), (true : Bool), ((Z.onCairn (fun o => { o with st := .rom }))), by decide⟩,
   ⟨(none : Principal), (0 : BitVec 12), (0 : BitVec 16), ([] : List Byte), (.cairn : FwDomain), (0 : BitVec 24), (0 : IfId), (0 : GroupId), (.hut : ReadWhat), (Instr.mgmtRead (none : Principal) (.hut : ReadWhat) : Instr), (Role.monitor : Role), (true : Bool), ((Z.onCairn (fun o => { o with st := .running }))), by decide⟩,
   ⟨(some 0 : Principal), ((Z.onCairn (fun o => { o with st := .running, policy := { roles := [(0, .service)] } }))), by unfold authorised; decide⟩,
   ⟨(some 0 : Principal), ((Z.onCairn (fun o => { o with st := .running, policy := { roles := [(0, .service)] } }))), (BitVec.ofNat 26 (4096 * pgLog) : BitVec 26), (placeRead Z .cairn (bar0Place Z (4096 * pgLog)) : Nat), by unfold authorised; decide⟩,
   ⟨(some 0 : Principal), ((Z.onCairn (fun o => { o with st := .running, policy := { roles := [(0, .service)] } }))), ((1 : BitVec 26) : BitVec 26), by unfold authorised; decide⟩,
   ⟨(some 0 : Principal), ((Z.onCairn (fun o => { o with st := .running, policy := { roles := [(0, .service)] } }))), by unfold authorised; decide⟩,
   ⟨(some 0 : Principal), (0 : BitVec 16), ([] : List Byte), ((Z.onCairn (fun o => { o with st := .running, policy := { roles := [(0, .service)] } }))), by unfold authorised; decide⟩,
   ⟨some 0, 0, List.replicate 8388608 0, zm, long_value _ (List.length_replicate ..).ge⟩,
   ⟨(some 0 : Principal), (((Z.onCairn (fun o => { o with staged := none })).onCairn (fun o => { o with st := .running, policy := { roles := [(0, .service)] } }))), by unfold authorised; decide⟩,
   ⟨(some 0 : Principal), ((((Z.onCairn (fun o => { o with staged := some ([((0 : BitVec 16), ([] : List Byte))]) })).onCairn (fun o => { o with st := .running, policy := { roles := [(0, .service)] } })).onCairn (fun o => { o with staged := some [(0, [])], st := .running, policy := { roles := [(0, .service)] } }))), ([((0 : BitVec 16), ([] : List Byte))]), (0), by unfold authorised; decide⟩,
   ⟨(some 0 : Principal), ((((Z.onCairn (fun o => { o with staged := some ([]) })).onCairn (fun o => { o with st := .running, policy := { roles := [(0, .service)] } })).onCairn (fun o => { o with staged := some [], st := .running, policy := { roles := [(0, .service)] } }))), ([]), by unfold authorised; decide⟩,
   ⟨(some 0 : Principal), (((Z.onCairn (fun o => { o with prev := none })).onCairn (fun o => { o with st := .running, policy := { roles := [(0, .service)] } }))), by unfold authorised; decide⟩,
   ⟨(some 0 : Principal), ((((Z.onCairn (fun o => { o with prev := some (({} : Gen)) })).onCairn (fun o => { o with st := .running, policy := { roles := [(0, .service)] } })).onCairn (fun o => { o with prev := some {}, st := .running, policy := { roles := [(0, .service)] } }))), (({} : Gen)), by unfold authorised; decide⟩,
   ⟨(some 0 : Principal), ((Z.onCairn (fun o => { o with st := .running, policy := { roles := [(0, .service)] } }))), by unfold authorised; decide⟩⟩

theorem witness_FirmwareAndRecoveryCommands :
    (∃ (who : Principal) (dom : FwDomain) (off : BitVec 24) (bs : List Byte) (s : State), (authorised s who .operator true) ∧ (1024 < bs.length ∨ FwDomain.size dom < off.toNat + bs.length)) ∧
    (∃ (who : Principal) (dom : FwDomain) (off : BitVec 24) (bs : List Byte) (s : State), (authorised s who .operator true) ∧ (bs.length ≤ 1024) ∧ (off.toNat + bs.length ≤ FwDomain.size dom) ∧ (bs ≠ [])) ∧
    (∃ (who : Principal) (dom : FwDomain) (s : State), (authorised s who .operator true) ∧ ((s.img (stagingArea dom)).len = 0 ∨ imageOk s dom (s.img (stagingArea dom)) = false)) ∧
    (∃ (who : Principal) (s : State), (authorised s who .operator false)) ∧
    (∃ (who : Principal) (i : IfId) (s : State), (authorised s who .operator false) ∧ ((s.can i.val).st ≠ .halted)) ∧
    (∃ (who : Principal) (i : IfId) (s : State), (authorised s who .operator false) ∧ ((s.can i.val).st = .halted)) ∧
    (∃ (who : Principal) (g : GroupId) (s : State), (authorised s who .operator false) ∧ ((s.group g.val).st ≠ .holding)) ∧
    (∃ (who : Principal) (g : GroupId) (s : State), (authorised s who .operator false) ∧ ((s.group g.val).st = .holding)) ∧
    (∃ (who : Principal) (s : State), (authorised s who .operator false) ∧ (s.cairn.powerEn = false ∨ (s.cool.st ≠ .shutdown ∧ (s.cool.st ≠ .off ∨ s.cool.proofFailed = false)))) ∧
    (∃ (who : Principal) (s : State), (authorised s who .operator false) ∧ (s.cairn.powerEn = true) ∧ (s.cool.st = .shutdown ∨ (s.cool.st = .off ∧ s.cool.proofFailed = true))) ∧
    (∃ (who : Principal) (s : State), (authorised s who .operator false) ∧ ((∀ r, r < 4 → latchClears s r = false))) ∧
    (∃ (who : Principal) (s : State), (authorised s who .operator false) ∧ ((∃ r, r < 4 ∧ latchClears s r = true))) :=
  ⟨⟨(some 0 : Principal), (.cairn : FwDomain), (0xFFFFFF : BitVec 24), ([0] : List Byte), ((Z.onCairn (fun o => { o with st := .running, policy := { roles := [(0, .service)] } }))), by unfold authorised; decide⟩,
   ⟨(some 0 : Principal), (.cairn : FwDomain), (0 : BitVec 24), ([0] : List Byte), ((Z.onCairn (fun o => { o with st := .running, policy := { roles := [(0, .service)] } }))), by unfold authorised; decide⟩,
   ⟨(some 0 : Principal), (.cairn : FwDomain), ((Z.onCairn (fun o => { o with st := .running, policy := { roles := [(0, .service)] } }))), by unfold authorised; decide⟩,
   ⟨(some 0 : Principal), ((Z.onCairn (fun o => { o with st := .running, policy := { roles := [(0, .service)] } }))), by unfold authorised; decide⟩,
   ⟨(some 0 : Principal), (0 : IfId), ((Z.onCairn (fun o => { o with st := .running, policy := { roles := [(0, .service)] } }))), by unfold authorised; decide⟩,
   ⟨(some 0 : Principal), (0 : IfId), ((((Z.onCan (0 : IfId).val (fun o => { o with st := .halted })).onCairn (fun o => { o with st := .running, policy := { roles := [(0, .service)] } })).onCan 0 (fun o => { o with st := .halted }))), by unfold authorised; decide⟩,
   ⟨(some 0 : Principal), (0 : GroupId), ((Z.onCairn (fun o => { o with st := .running, policy := { roles := [(0, .service)] } }))), by unfold authorised; decide⟩,
   ⟨(some 0 : Principal), (0 : GroupId), ((((Z.onGroup (0 : GroupId).val (fun o => { o with st := .holding })).onCairn (fun o => { o with st := .running, policy := { roles := [(0, .service)] } })).onGroup 0 (fun o => { o with st := .holding }))), by unfold authorised; decide⟩,
   ⟨(some 0 : Principal), (((Z.onCairn (fun o => { o with powerEn := false })).onCairn (fun o => { o with st := .running, policy := { roles := [(0, .service)] } }))), by unfold authorised; decide⟩,
   ⟨(some 0 : Principal), ((((((Z.onCairn (fun o => { o with powerEn := true })).onCool (fun o => { o with st := .shutdown })).onCairn (fun o => { o with st := .running, policy := { roles := [(0, .service)] } })).onCairn (fun o => { o with powerEn := true, st := .running, policy := { roles := [(0, .service)] } })).onCool (fun o => { o with st := .shutdown }))), by unfold authorised; decide⟩,
   ⟨(some 0 : Principal), ((Z.onCairn (fun o => { o with st := .running, policy := { roles := [(0, .service)] } }))), by unfold authorised; decide⟩,
   ⟨(some 0 : Principal), ((((Z.onCairn (fun o => { o with st := .running, policy := { roles := [(0, .service)] } })).onRope 0 (fun o => { o with latch := true, band := .normal, leftTs := some 0 })).onEnv (fun o => { o with ts := 0x100000000000000 }))), by unfold authorised; decide⟩⟩

theorem witness_RingCommands :
    (∃ (f : FnId) (i : RingId) (v : Word) (s : State) (c : _), (0 < f.val) ∧ ((s.fn f.val).tdi = .error) ∧ (c ∈ [Instr.sqDoorbell f i v, .cqDoorbell f i v, .sqEnable f i v, .cqEnable f i v])) ∧
    (∃ (f : FnId) (i : RingId) (v : Word) (c : _), (f.val = 0) ∧ (i.val ≠ 0) ∧ (c ∈ [Instr.sqDoorbell f i v, .cqDoorbell f i v, .sqEnable f i v, .cqEnable f i v])) ∧
    (∃ (f : FnId) (i : RingId) (s : State) (q : SqRing), ((f.val = 0 ∧ i.val = 0) ∨ (0 < f.val ∧ (s.fn f.val).tdi ≠ .error)) ∧ (q = s.sq f.val i.val) ∧ (q.en = false ∨ q.st = 2)) ∧
    (∃ (f : FnId) (i : RingId) (v : Word) (s : State) (q : SqRing), ((f.val = 0 ∧ i.val = 0) ∨ (0 < f.val ∧ (s.fn f.val).tdi ≠ .error)) ∧ (q = s.sq f.val i.val) ∧ (q.en = true) ∧ (q.st ≠ 2) ∧ ((v.setWidth 16 - q.head).toNat ≤ 2 ^ q.log2.toNat) ∧ ((q.tail - q.head).toNat ≤ (v.setWidth 16 - q.head).toNat)) ∧
    (∃ (f : FnId) (i : RingId) (v : Word) (s : State) (q : SqRing), ((f.val = 0 ∧ i.val = 0) ∨ (0 < f.val ∧ (s.fn f.val).tdi ≠ .error)) ∧ (q = s.sq f.val i.val) ∧ (q.en = true) ∧ (q.st ≠ 2) ∧ (2 ^ q.log2.toNat < (v.setWidth 16 - q.head).toNat ∨ (v.setWidth 16 - q.head).toNat < (q.tail - q.head).toNat)) ∧
    (∃ (f : FnId) (i : RingId) (v : Word) (s : State) (q : SqRing), ((f.val = 0 ∧ i.val = 0) ∨ (0 < f.val ∧ (s.fn f.val).tdi ≠ .error)) ∧ (q = s.sq f.val i.val) ∧ (v.getLsbD 8 = false)) ∧
    (∃ (f : FnId) (i : RingId) (v : Word) (s : State) (q : SqRing), ((f.val = 0 ∧ i.val = 0) ∨ (0 < f.val ∧ (s.fn f.val).tdi ≠ .error)) ∧ (q = s.sq f.val i.val) ∧ (v.getLsbD 8 = true) ∧ (q.en = false) ∧ (4 ≤ (newLog2 q.en q.log2 v).toNat ∧ (newLog2 q.en q.log2 v).toNat ≤ 15)) ∧
    (∃ (f : FnId) (i : RingId) (v : Word) (s : State) (q : SqRing), ((f.val = 0 ∧ i.val = 0) ∨ (0 < f.val ∧ (s.fn f.val).tdi ≠ .error)) ∧ (q = s.sq f.val i.val) ∧ (v.getLsbD 8 = true) ∧ (q.en = false) ∧ (¬ (4 ≤ (newLog2 q.en q.log2 v).toNat ∧ (newLog2 q.en q.log2 v).toNat ≤ 15))) ∧
    (∃ (f : FnId) (i : RingId) (s : State) (q : CqRing), ((f.val = 0 ∧ i.val = 0) ∨ (0 < f.val ∧ (s.fn f.val).tdi ≠ .error)) ∧ (q = s.cq f.val i.val) ∧ (q.en = false)) ∧
    (∃ (f : FnId) (i : RingId) (v : Word) (s : State) (q : CqRing), ((f.val = 0 ∧ i.val = 0) ∨ (0 < f.val ∧ (s.fn f.val).tdi ≠ .error)) ∧ (q = s.cq f.val i.val) ∧ (q.en = true) ∧ ((v.setWidth 16 - q.tail).toNat ≤ 2 ^ q.log2.toNat) ∧ ((q.limit - q.tail).toNat ≤ (v.setWidth 16 - q.tail).toNat)) ∧
    (∃ (f : FnId) (i : RingId) (v : Word) (s : State) (q : CqRing), ((f.val = 0 ∧ i.val = 0) ∨ (0 < f.val ∧ (s.fn f.val).tdi ≠ .error)) ∧ (q = s.cq f.val i.val) ∧ (q.en = true) ∧ (2 ^ q.log2.toNat < (v.setWidth 16 - q.tail).toNat ∨ (v.setWidth 16 - q.tail).toNat < (q.limit - q.tail).toNat)) ∧
    (∃ (f : FnId) (i : RingId) (v : Word) (s : State) (q : CqRing), ((f.val = 0 ∧ i.val = 0) ∨ (0 < f.val ∧ (s.fn f.val).tdi ≠ .error)) ∧ (q = s.cq f.val i.val) ∧ (v.getLsbD 31 = true) ∧ (q.en = false) ∧ (4 ≤ (newLog2 q.en q.log2 v).toNat ∧ (newLog2 q.en q.log2 v).toNat ≤ 15)) ∧
    (∃ (f : FnId) (i : RingId) (v : Word) (s : State) (q : CqRing), ((f.val = 0 ∧ i.val = 0) ∨ (0 < f.val ∧ (s.fn f.val).tdi ≠ .error)) ∧ (q = s.cq f.val i.val) ∧ (v.getLsbD 31 = false)) :=
  ⟨⟨(1 : FnId), (0 : RingId), (0 : Word), (((Z.onFn (1 : FnId).val (fun o => { o with tdi := .error })).onFn 1 (fun o => { o with tdi := .error }))), (Instr.sqDoorbell (1 : FnId) (0 : RingId) (0 : Word)), by decide⟩,
   ⟨(0 : FnId), (1 : RingId), (0 : Word), (Instr.sqDoorbell (0 : FnId) (1 : RingId) (0 : Word)), by decide⟩,
   ⟨(0 : FnId), (0 : RingId), (Z), ((Z).sq (0 : FnId).val (0 : RingId).val : SqRing), by decide⟩,
   ⟨(0 : FnId), (0 : RingId), (1 : Word), ((Z.onSq 0 0 (fun o => { o with en := true, st := 1, log2 := 4 }))), (((Z.onSq 0 0 (fun o => { o with en := true, st := 1, log2 := 4 }))).sq (0 : FnId).val (0 : RingId).val : SqRing), by decide⟩,
   ⟨(0 : FnId), (0 : RingId), (100 : Word), ((Z.onSq 0 0 (fun o => { o with en := true, st := 1, log2 := 4 }))), (((Z.onSq 0 0 (fun o => { o with en := true, st := 1, log2 := 4 }))).sq (0 : FnId).val (0 : RingId).val : SqRing), by decide⟩,
   ⟨(0 : FnId), (0 : RingId), (0 : Word), (Z), ((Z).sq (0 : FnId).val (0 : RingId).val : SqRing), by decide⟩,
   ⟨(0 : FnId), (0 : RingId), (0x108 : Word), (Z), ((Z).sq (0 : FnId).val (0 : RingId).val : SqRing), by decide⟩,
   ⟨(0 : FnId), (0 : RingId), (0x100 : Word), (Z), ((Z).sq (0 : FnId).val (0 : RingId).val : SqRing), by decide⟩,
   ⟨(0 : FnId), (0 : RingId), (Z), ((Z).cq (0 : FnId).val (0 : RingId).val : CqRing), by decide⟩,
   ⟨(0 : FnId), (0 : RingId), (1 : Word), ((Z.onCq 0 0 (fun o => { o with en := true, log2 := 4 }))), (((Z.onCq 0 0 (fun o => { o with en := true, log2 := 4 }))).cq (0 : FnId).val (0 : RingId).val : CqRing), by decide⟩,
   ⟨(0 : FnId), (0 : RingId), (100 : Word), ((Z.onCq 0 0 (fun o => { o with en := true, log2 := 4 }))), (((Z.onCq 0 0 (fun o => { o with en := true, log2 := 4 }))).cq (0 : FnId).val (0 : RingId).val : CqRing), by decide⟩,
   ⟨(0 : FnId), (0 : RingId), (0x80000008 : Word), (Z), ((Z).cq (0 : FnId).val (0 : RingId).val : CqRing), by decide⟩,
   ⟨(0 : FnId), (0 : RingId), (0 : Word), (Z), ((Z).cq (0 : FnId).val (0 : RingId).val : CqRing), by decide⟩⟩

theorem witness_SubmissionCommands :
    (∃ (src : CmdSrc) (x : CtxId) (bs : List Byte) (op : Byte) (rank : BitVec 16) (slot : BitVec 16) (a : DWord) (b : DWord) (d : DWord) (w : Word) (w2 : Word) (tb : Byte) (s : State) (c : Instr), (c ∈ [Instr.coll src bs, .wcopy src op rank a b d, .bind src, .unbind src slot, .admitCmd src a w, .sealOpen src a w w2, .sealRotate src a, .sealKey src a tb, .sealPage src w tb a]) ∧ (src.fn.val = 0 ∨ (src.fn.val = x.val + 1 ∧ ((s.cx x.val).st = .disabled ∨ (s.cx x.val).st = .draining)))) ∧
    (∃ (src : CmdSrc) (x : CtxId) (bs : List Byte) (op : Byte) (rank : BitVec 16) (slot : BitVec 16) (a : DWord) (b : DWord) (d : DWord) (w : Word) (w2 : Word) (tb : Byte) (s : State) (c : Instr), (c ∈ [Instr.coll src bs, .wcopy src op rank a b d, .bind src, .unbind src slot, .admitCmd src a w, .sealOpen src a w w2, .sealRotate src a, .sealKey src a tb, .sealPage src w tb a]) ∧ (src.fn.val = x.val + 1) ∧ ((s.cx x.val).st = .scrubbing)) ∧
    (∃ (src : CmdSrc) (x : CtxId) (first : BitVec 16) (count : BitVec 16) (st : Byte) (target : Word) (s : State) (c : Instr), (c ∈ [Instr.nop src, .wpage src first count st target]) ∧ (src.fn.val = x.val + 1) ∧ ((s.cx x.val).st = .disabled ∨ (s.cx x.val).st = .draining)) ∧
    (∃ (src : CmdSrc) (x : CtxId) (first : BitVec 16) (count : BitVec 16) (st : Byte) (target : Word) (s : State) (c : Instr), (c ∈ [Instr.nop src, .wpage src first count st target]) ∧ (src.fn.val = x.val + 1) ∧ ((s.cx x.val).st = .scrubbing)) ∧
    (∃ (src : CmdSrc) (x : CtxId) (s : State), (src.fn.val = 0 ∨ (src.fn.val = x.val + 1 ∧ ((s.cx x.val).st = .disabled ∨ (s.cx x.val).st = .draining)))) ∧
    (∃ (src : CmdSrc) (x : CtxId) (s : State), (src.fn.val = x.val + 1) ∧ ((s.cx x.val).st = .scrubbing)) ∧
    (∃ (src : CmdSrc) (x : CtxId) (lcore : Byte) (s : State), (src.fn.val = x.val + 1) ∧ ((s.cx x.val).st = .enabled) ∧ (s.fence.logicalCount ≤ lcore.toNat ∨ (s.cx x.val).team.getLsbD lcore.toNat = false)) ∧
    (∃ (src : CmdSrc) (x : CtxId) (lcore : Byte) (desc : DWord) (s : State) (bs : _), (src.fn.val = x.val + 1) ∧ ((s.cx x.val).st = .enabled) ∧ (lcore.toNat < s.fence.logicalCount) ∧ ((s.cx x.val).team.getLsbD lcore.toNat = true) ∧ ((s.sx x.val).sealedCtx = false) ∧ (gaOk desc = true) ∧ (inPartition (s.cx x.val) (gaSpace desc) (gaOff desc) 128 = true) ∧ (gaRead s x.val desc 128 = some bs) ∧ (descRefusal s x.val bs (PitchDesc.ofBytes bs) = none)) ∧
    (∃ (src : CmdSrc) (x : CtxId) (s : State), (src.fn.val = x.val + 1) ∧ ((s.cx x.val).st = .enabled)) ∧
    (∃ (src : CmdSrc) (x : CtxId) (s : State) (i : _), (src.fn.val = x.val + 1) ∧ ((s.cx x.val).st = .enabled) ∧ ((List.range 256).find? (fun i => (fget {} s.ctx.sqs i).ctx.isNone) = some i) ∧ (usedSlots s x < (s.cx x.val).quota.toNat)) ∧
    (∃ (src : CmdSrc) (x : CtxId) (s : State), (src.fn.val = x.val + 1) ∧ ((s.cx x.val).st = .enabled) ∧ ((List.range 256).find? (fun i => (fget {} s.ctx.sqs i).ctx.isNone) = none ∨ (s.cx x.val).quota.toNat ≤ usedSlots s x)) ∧
    (∃ (src : CmdSrc) (x : CtxId) (slot : BitVec 16) (s : State), (src.fn.val = x.val + 1) ∧ ((s.cx x.val).st = .enabled) ∧ (slot.toNat < 256) ∧ (fget {} s.ctx.sqs slot.toNat = ⟨some x, false⟩)) ∧
    (∃ (src : CmdSrc) (x : CtxId) (slot : BitVec 16) (s : State), (src.fn.val = x.val + 1) ∧ ((s.cx x.val).st = .enabled) ∧ (256 ≤ slot.toNat ∨ fget {} s.ctx.sqs slot.toNat ≠ ⟨some x, false⟩)) ∧
    (∃ (src : CmdSrc) (s : State), (src.fn.val = 0) ∧ ((s.fn 0).nops = []) ∧ ((s.sq 0 src.sq.val).inFlight = [])) ∧
    (∃ (src : CmdSrc) (k : BitVec 16) (ks : List (BitVec 16)) (s : State), (src.fn.val = 0) ∧ ((s.fn 0).nops = []) ∧ ((s.sq 0 src.sq.val).inFlight = k :: ks) ∧ (k ≠ src.index)) ∧
    (∃ (src : CmdSrc) (ctx : Byte) (off : BitVec 16) (v : Word) (c : _), (src.fn.val ≠ 0 ∨ 16 ≤ ctx.toNat ∨ off.toNat % 4 ≠ 0 ∨ 0x1000 ≤ off.toNat) ∧ (c ∈ [Instr.ctxrd src ctx off, .ctxwr src ctx off v])) ∧
    (∃ (src : CmdSrc) (ctx : Byte) (off : BitVec 16), (src.fn.val = 0) ∧ (ctx.toNat < 16) ∧ (off.toNat % 4 = 0) ∧ (0x040 ≤ off.toNat) ∧ (off.toNat < 0x1000)) ∧
    (∃ (src : CmdSrc) (ctx : Byte) (off : BitVec 16) (v : Word) (r : Nat) (s : State), (src.fn.val = 0) ∧ (ctx.toNat < 16) ∧ (off.toNat % 4 = 0) ∧ (off.toNat < 0x1000) ∧ (ctxwrRefusal s ctx.toNat off.toNat v = some r)) :=
  ⟨⟨(z1 : CmdSrc), (0 : CtxId), ([] : List Byte), (0 : Byte), (0 : BitVec 16), (0 : BitVec 16), (0 : DWord), (0 : DWord), (0 : DWord), (0 : Word), (0 : Word), (0 : Byte), (Z), (Instr.coll (z1 : CmdSrc) ([] : List Byte) : Instr), by decide⟩,
   ⟨(z1 : CmdSrc), (0 : CtxId), ([] : List Byte), (0 : Byte), (0 : BitVec 16), (0 : BitVec 16), (0 : DWord), (0 : DWord), (0 : DWord), (0 : Word), (0 : Word), (0 : Byte), ((Z.onCx (0 : CtxId).val (fun o => { o with st := .scrubbing }))), (Instr.coll (z1 : CmdSrc) ([] : List Byte) : Instr), by decide⟩,
   ⟨(z1 : CmdSrc), (0 : CtxId), (0 : BitVec 16), (0 : BitVec 16), (0 : Byte), (0 : Word), ((Z.onCx (0 : CtxId).val (fun o => { o with st := .disabled }))), (Instr.nop (z1 : CmdSrc) : Instr), by decide⟩,
   ⟨(z1 : CmdSrc), (0 : CtxId), (0 : BitVec 16), (0 : BitVec 16), (0 : Byte), (0 : Word), ((Z.onCx (0 : CtxId).val (fun o => { o with st := .scrubbing }))), (Instr.nop (z1 : CmdSrc) : Instr), by decide⟩,
   ⟨(z1 : CmdSrc), (0 : CtxId), (Z), by decide⟩,
   ⟨(z1 : CmdSrc), (0 : CtxId), ((Z.onCx (0 : CtxId).val (fun o => { o with st := .scrubbing }))), by decide⟩,
   ⟨(z1 : CmdSrc), (0 : CtxId), (0 : Byte), ((Z.onCx (0 : CtxId).val (fun o => { o with st := .enabled }))), by decide⟩,
   ⟨(z1 : CmdSrc), (0 : CtxId), (0 : Byte), (0x2000000000000000 : DWord), ((((((Z.onCx (0 : CtxId).val (fun o => { o with st := .enabled })).onSx (0 : CtxId).val (fun o => { o with sealedCtx := false })).onCx 0 (fun o => { o with st := .enabled, hbmSize := 100, team := 1 })).onFence (fun o => { o with logicalCount := 192 })).onHbm (fun o => { o with mem := [(15, 0x20), (16, 1), (20, 1)] }))), ((List.replicate 15 (0 : Byte) ++ [0x20, 1, 0, 0, 0, 1] ++ List.replicate 107 0)), by decide⟩,
   ⟨(z1 : CmdSrc), (0 : CtxId), ((Z.onCx (0 : CtxId).val (fun o => { o with st := .enabled }))), by decide⟩,
   ⟨(z1 : CmdSrc), (0 : CtxId), (((Z.onCx (0 : CtxId).val (fun o => { o with st := .enabled })).onCx 0 (fun o => { o with st := .enabled, quota := 1 }))), (0), by decide⟩,
   ⟨(z1 : CmdSrc), (0 : CtxId), ((Z.onCx (0 : CtxId).val (fun o => { o with st := .enabled }))), by decide⟩,
   ⟨(z1 : CmdSrc), (0 : CtxId), (0 : BitVec 16), (((Z.onCx (0 : CtxId).val (fun o => { o with st := .enabled })).onCtxBlk (fun o => { o with sqs := [(0, ⟨some 0, false⟩)] }))), by decide⟩,
   ⟨(z1 : CmdSrc), (0 : CtxId), (0 : BitVec 16), ((Z.onCx (0 : CtxId).val (fun o => { o with st := .enabled }))), by decide⟩,
   ⟨(z0 : CmdSrc), (((Z.onFn 0 (fun o => { o with nops := [] })).onSq 0 (z0 : CmdSrc).sq.val (fun o => { o with inFlight := [] }))), by decide⟩,
   ⟨(z0 : CmdSrc), (1 : BitVec 16), ([] : List (BitVec 16)), ((((Z.onFn 0 (fun o => { o with nops := [] })).onSq 0 (z0 : CmdSrc).sq.val (fun o => { o with inFlight := (1 : BitVec 16) :: ([] : List (BitVec 16)) })).onSq 0 0 (fun o => { o with inFlight := [1] }))), by decide⟩,
   ⟨(z1 : CmdSrc), (0 : Byte), (0 : BitVec 16), (0 : Word), (Instr.ctxrd (z1 : CmdSrc) (0 : Byte) (0 : BitVec 16)), by decide⟩,
   ⟨(z0 : CmdSrc), (0 : Byte), (0x40 : BitVec 16), by decide⟩,
   ⟨(z0 : CmdSrc), (0 : Byte), (0x100 : BitVec 16), (0 : Word), (9 : Nat), (Z), by decide⟩⟩

theorem witness_TransferAndSealCommands :
    (∃ (src : CmdSrc) (x : CtxId) (d : List Byte) (k : Nat) (c : Coll) (s : State), (src.fn.val = x.val + 1) ∧ ((s.cx x.val).st = .enabled) ∧ (c = { op := leAt d 0 1, dtype := leAt d 1 1, root := leAt d 4 2, src := BitVec.ofNat 64 (leAt d 8 8), dst := BitVec.ofNat 64 (leAt d 16 8), count := leAt d 24 4, cmd := src }) ∧ (k = leAt d 2 1) ∧ (c.op ≤ 3) ∧ (c.dtype ≤ 1) ∧ (k ≤ 15) ∧ (leAt d 3 1 = 0) ∧ (leAt d 6 2 ≠ 0) ∧ (gaOk c.src = true) ∧ (gaOk c.dst = true) ∧ ((c.op ≤ 1 → c.root < groupSize s x.val)) ∧ ((s.fx x.val).valid = true) ∧ ((s.fx x.val).rank.toNat < groupSize s x.val) ∧ (c.count ≠ 0) ∧ (s.coll x.val k = none) ∧ (meetsSealed s x.val (gaSpace c.src) (gaOff c.src) c.bytes = false) ∧ (meetsSealed s x.val (gaSpace c.dst) (gaOff c.dst) (if c.op = 3 then groupSize s x.val * c.bytes else c.bytes) = false) ∧ (inPartition (s.cx x.val) (gaSpace c.src) (gaOff c.src) c.bytes = false ∨ inPartition (s.cx x.val) (gaSpace c.dst) (gaOff c.dst) (if c.op = 3 then groupSize s x.val * c.bytes else c.bytes) = false)) ∧
    (∃ (src : CmdSrc) (x : CtxId) (d : List Byte) (k : Nat) (c : Coll) (s : State), (src.fn.val = x.val + 1) ∧ ((s.cx x.val).st = .enabled) ∧ (c = { op := leAt d 0 1, dtype := leAt d 1 1, root := leAt d 4 2, src := BitVec.ofNat 64 (leAt d 8 8), dst := BitVec.ofNat 64 (leAt d 16 8), count := leAt d 24 4, cmd := src }) ∧ (k = leAt d 2 1) ∧ (c.op ≤ 3) ∧ (c.dtype ≤ 1) ∧ (k ≤ 15) ∧ (leAt d 3 1 = 0) ∧ (leAt d 6 2 ≠ 0) ∧ (gaOk c.src = true) ∧ (gaOk c.dst = true) ∧ ((c.op ≤ 1 → c.root < groupSize s x.val)) ∧ ((s.fx x.val).valid = true) ∧ ((s.fx x.val).rank.toNat < groupSize s x.val) ∧ (c.count ≠ 0) ∧ (s.coll x.val k = none) ∧ (meetsSealed s x.val (gaSpace c.src) (gaOff c.src) c.bytes = false) ∧ (meetsSealed s x.val (gaSpace c.dst) (gaOff c.dst) (if c.op = 3 then groupSize s x.val * c.bytes else c.bytes) = false) ∧ (inPartition (s.cx x.val) (gaSpace c.src) (gaOff c.src) c.bytes = true) ∧ (inPartition (s.cx x.val) (gaSpace c.dst) (gaOff c.dst) (if c.op = 3 then groupSize s x.val * c.bytes else c.bytes) = true) ∧ (c.op = 0) ∧ ((s.fx x.val).rank.toNat ≠ c.root)) ∧
    (∃ (src : CmdSrc) (x : CtxId) (d : List Byte) (k : Nat) (c : Coll) (s : State) (own : _), (src.fn.val = x.val + 1) ∧ ((s.cx x.val).st = .enabled) ∧ (c = { op := leAt d 0 1, dtype := leAt d 1 1, root := leAt d 4 2, src := BitVec.ofNat 64 (leAt d 8 8), dst := BitVec.ofNat 64 (leAt d 16 8), count := leAt d 24 4, cmd := src }) ∧ (k = leAt d 2 1) ∧ (c.op ≤ 3) ∧ (c.dtype ≤ 1) ∧ (k ≤ 15) ∧ (leAt d 3 1 = 0) ∧ (leAt d 6 2 ≠ 0) ∧ (gaOk c.src = true) ∧ (gaOk c.dst = true) ∧ ((c.op ≤ 1 → c.root < groupSize s x.val)) ∧ ((s.fx x.val).valid = true) ∧ ((s.fx x.val).rank.toNat < groupSize s x.val) ∧ (c.count ≠ 0) ∧ (s.coll x.val k = none) ∧ (meetsSealed s x.val (gaSpace c.src) (gaOff c.src) c.bytes = false) ∧ (meetsSealed s x.val (gaSpace c.dst) (gaOff c.dst) (if c.op = 3 then groupSize s x.val * c.bytes else c.bytes) = false) ∧ (inPartition (s.cx x.val) (gaSpace c.src) (gaOff c.src) c.bytes = true) ∧ (inPartition (s.cx x.val) (gaSpace c.dst) (gaOff c.dst) (if c.op = 3 then groupSize s x.val * c.bytes else c.bytes) = true) ∧ (¬ (c.op = 0 ∧ (s.fx x.val).rank.toNat ≠ c.root)) ∧ (gaRead s x.val c.src c.bytes = some own)) ∧
    (∃ (src : CmdSrc) (x : CtxId) (op : Byte) (rank : BitVec 16) (addr : DWord) (off : DWord) (len : DWord) (s : State), (src.fn.val = x.val + 1) ∧ ((s.cx x.val).st = .enabled) ∧ (1 < op.toNat ∨ gaOk addr = false ∨ off.toNat % 256 ≠ 0 ∨ len.toNat % 256 ≠ 0 ∨ (s.fx x.val).valid = false ∨ groupSize s x.val ≤ rank.toNat)) ∧
    (∃ (src : CmdSrc) (x : CtxId) (op : Byte) (rank : BitVec 16) (addr : DWord) (off : DWord) (len : DWord) (s : State), (src.fn.val = x.val + 1) ∧ ((s.cx x.val).st = .enabled) ∧ (op.toNat ≤ 1) ∧ (gaOk addr = true) ∧ (off.toNat % 256 = 0) ∧ (len.toNat % 256 = 0) ∧ ((s.fx x.val).valid = true) ∧ (rank.toNat < groupSize s x.val) ∧ (off.toNat / 256 + len.toNat / 256 ≤ 2 ^ 30) ∧ (meetsSealed s x.val (gaSpace addr) (gaOff addr) len.toNat = false) ∧ (inPartition (s.cx x.val) (gaSpace addr) (gaOff addr) len.toNat = false)) ∧
    (∃ (src : CmdSrc) (x : CtxId) (op : Byte) (rank : BitVec 16) (addr : DWord) (off : DWord) (len : DWord) (s : State), (src.fn.val = x.val + 1) ∧ ((s.cx x.val).st = .enabled) ∧ (op.toNat ≤ 1) ∧ (gaOk addr = true) ∧ (off.toNat % 256 = 0) ∧ (len.toNat % 256 = 0) ∧ ((s.fx x.val).valid = true) ∧ (rank.toNat < groupSize s x.val) ∧ (off.toNat / 256 + len.toNat / 256 ≤ 2 ^ 30) ∧ (meetsSealed s x.val (gaSpace addr) (gaOff addr) len.toNat = false) ∧ (inPartition (s.cx x.val) (gaSpace addr) (gaOff addr) len.toNat = true) ∧ (len.toNat = 0)) ∧
    (∃ (src : CmdSrc) (x : CtxId) (op : Byte) (rank : BitVec 16) (addr : DWord) (off : DWord) (len : DWord) (s : State) (node : _) (data : _), (src.fn.val = x.val + 1) ∧ ((s.cx x.val).st = .enabled) ∧ (op.toNat ≤ 1) ∧ (gaOk addr = true) ∧ (off.toNat % 256 = 0) ∧ (len.toNat % 256 = 0) ∧ ((s.fx x.val).valid = true) ∧ (rank.toNat < groupSize s x.val) ∧ (off.toNat / 256 + len.toNat / 256 ≤ 2 ^ 30) ∧ (meetsSealed s x.val (gaSpace addr) (gaOff addr) len.toNat = false) ∧ (inPartition (s.cx x.val) (gaSpace addr) (gaOff addr) len.toNat = true) ∧ (len.toNat = 256) ∧ (nodeOfRank s x.val rank.toNat = some node) ∧ (gaRead s x.val addr (if op.toNat = 1 then 256 else 0) = some data)) ∧
    (∃ (src : CmdSrc) (x : CtxId) (first : BitVec 16) (count : BitVec 16) (st : Byte) (s : State), (src.fn.val = x.val + 1) ∧ ((s.cx x.val).st = .enabled) ∧ (count.toNat = 0 ∨ 512 < first.toNat + count.toNat ∨ 2 < st.toNat)) ∧
    (∃ (src : CmdSrc) (x : CtxId) (first : BitVec 16) (count : BitVec 16) (st : Byte) (target : Word) (s : State), (src.fn.val = x.val + 1) ∧ ((s.cx x.val).st = .enabled) ∧ (count.toNat ≠ 0) ∧ (first.toNat + count.toNat ≤ 512) ∧ (st.toNat ≤ 2) ∧ ((∀ i, i < count.toNat → pageRefusal s (512 * x.val + first.toNat + i) (pageCode st.toNat) (target.toNat + i) = none))) ∧
    (∃ (src : CmdSrc) (ctx : Byte) (off : BitVec 16) (v : Word) (s : State), (src.fn.val = 0) ∧ (ctx.toNat < 16) ∧ (off.toNat % 4 = 0) ∧ (off.toNat < 0x1000) ∧ (ctxwrRefusal s ctx.toNat off.toNat v = none)) ∧
    (∃ (src : CmdSrc) (x : CtxId) (s : State), (src.fn.val = x.val + 1) ∧ ((s.cx x.val).st = .enabled) ∧ ((s.sx x.val).sealedCtx = false ∨ (s.sx x.val).cur = none ∨ s.sec.trngFailX = true)) ∧
    (∃ (src : CmdSrc) (x : CtxId) (s : State) (e : Byte), (src.fn.val = x.val + 1) ∧ ((s.cx x.val).st = .enabled) ∧ ((s.sx x.val).cur = some e) ∧ (254 ≤ e.toNat)) ∧
    (∃ (src : CmdSrc) (x : CtxId) (a : DWord) (epoch : Byte) (s : State), (src.fn.val = x.val + 1) ∧ ((s.cx x.val).st = .enabled) ∧ ((s.sx x.val).sealedCtx = false ∨ (s.sx x.val).offered ≠ some epoch ∨ sealAddrOk s x.val a Config.packageSize = false)) ∧
    (∃ (src : CmdSrc) (x : CtxId) (i : Word) (epoch : Byte) (a : DWord) (s : State), (src.fn.val = x.val + 1) ∧ ((s.cx x.val).st = .enabled) ∧ ((s.sx x.val).sealedCtx = false ∨ ((s.sx x.val).cur ≠ some epoch ∧ (s.sx x.val).prev ≠ some epoch) ∨ 65536 ≤ fget 0 (s.sx x.val).perEpoch epoch.toNat ∨ (fget none (s.sx x.val).loaded i.toNat).isSome = true ∨ sealAddrOk s x.val a 2097216 = false)) ∧
    (∃ (src : CmdSrc) (x : CtxId) (i : Word) (epoch : Byte) (a : DWord) (s : State) (key : _), (src.fn.val = x.val + 1) ∧ ((s.cx x.val).st = .enabled) ∧ ((s.sx x.val).sealedCtx = true) ∧ (epochKey (s.sx x.val) epoch = some key) ∧ (fget 0 (s.sx x.val).perEpoch epoch.toNat < 65536) ∧ (fget none (s.sx x.val).loaded i.toNat = none) ∧ (sealAddrOk s x.val a 2097216 = true) ∧ ((s.sx x.val).pageCount ≤ i.toNat)) :=
  ⟨⟨(z1 : CmdSrc), (0 : CtxId), ([2, 1, 0, 0, 0, 0, 1, 0,  0, 0, 0, 0, 0, 0, 0, 0x20,  0, 0, 0, 0, 0, 0, 0, 0x20,  1, 0, 0, 0] : List Byte), (leAt ([2, 1, 0, 0, 0, 0, 1, 0,  0, 0, 0, 0, 0, 0, 0, 0x20,  0, 0, 0, 0, 0, 0, 0, 0x20,  1, 0, 0, 0] : List Byte) 2 1 : Nat), ({ op := leAt ([2, 1, 0, 0, 0, 0, 1, 0,  0, 0, 0, 0, 0, 0, 0, 0x20,  0, 0, 0, 0, 0, 0, 0, 0x20,  1, 0, 0, 0] : List Byte) 0 1, dtype := leAt ([2, 1, 0, 0, 0, 0, 1, 0,  0, 0, 0, 0, 0, 0, 0, 0x20,  0, 0, 0, 0, 0, 0, 0, 0x20,  1, 0, 0, 0] : List Byte) 1 1, root := leAt ([2, 1, 0, 0, 0, 0, 1, 0,  0, 0, 0, 0, 0, 0, 0, 0x20,  0, 0, 0, 0, 0, 0, 0, 0x20,  1, 0, 0, 0] : List Byte) 4 2, src := BitVec.ofNat 64 (leAt ([2, 1, 0, 0, 0, 0, 1, 0,  0, 0, 0, 0, 0, 0, 0, 0x20,  0, 0, 0, 0, 0, 0, 0, 0x20,  1, 0, 0, 0] : List Byte) 8 8), dst := BitVec.ofNat 64 (leAt ([2, 1, 0, 0, 0, 0, 1, 0,  0, 0, 0, 0, 0, 0, 0, 0x20,  0, 0, 0, 0, 0, 0, 0, 0x20,  1, 0, 0, 0] : List Byte) 16 8), count := leAt ([2, 1, 0, 0, 0, 0, 1, 0,  0, 0, 0, 0, 0, 0, 0, 0x20,  0, 0, 0, 0, 0, 0, 0, 0x20,  1, 0, 0, 0] : List Byte) 24 4, cmd := (z1 : CmdSrc) } : Coll), (((((Z.onCx (0 : CtxId).val (fun o => { o with st := .enabled })).onFx (0 : CtxId).val (fun o => { o with valid := true })).onCx 0 (fun o => o)).onFx 0 (fun o => { o with valid := true, grpN := 2 }))), by decide⟩,
   ⟨(z1 : CmdSrc), (0 : CtxId), ([0, 1, 0, 0, 0, 0, 1, 0,  0, 0, 0, 0, 0, 0, 0, 0x20,  0, 0, 0, 0, 0, 0, 0, 0x20,  1, 0, 0, 0] : List Byte), (leAt ([0, 1, 0, 0, 0, 0, 1, 0,  0, 0, 0, 0, 0, 0, 0, 0x20,  0, 0, 0, 0, 0, 0, 0, 0x20,  1, 0, 0, 0] : List Byte) 2 1 : Nat), ({ op := leAt ([0, 1, 0, 0, 0, 0, 1, 0,  0, 0, 0, 0, 0, 0, 0, 0x20,  0, 0, 0, 0, 0, 0, 0, 0x20,  1, 0, 0, 0] : List Byte) 0 1, dtype := leAt ([0, 1, 0, 0, 0, 0, 1, 0,  0, 0, 0, 0, 0, 0, 0, 0x20,  0, 0, 0, 0, 0, 0, 0, 0x20,  1, 0, 0, 0] : List Byte) 1 1, root := leAt ([0, 1, 0, 0, 0, 0, 1, 0,  0, 0, 0, 0, 0, 0, 0, 0x20,  0, 0, 0, 0, 0, 0, 0, 0x20,  1, 0, 0, 0] : List Byte) 4 2, src := BitVec.ofNat 64 (leAt ([0, 1, 0, 0, 0, 0, 1, 0,  0, 0, 0, 0, 0, 0, 0, 0x20,  0, 0, 0, 0, 0, 0, 0, 0x20,  1, 0, 0, 0] : List Byte) 8 8), dst := BitVec.ofNat 64 (leAt ([0, 1, 0, 0, 0, 0, 1, 0,  0, 0, 0, 0, 0, 0, 0, 0x20,  0, 0, 0, 0, 0, 0, 0, 0x20,  1, 0, 0, 0] : List Byte) 16 8), count := leAt ([0, 1, 0, 0, 0, 0, 1, 0,  0, 0, 0, 0, 0, 0, 0, 0x20,  0, 0, 0, 0, 0, 0, 0, 0x20,  1, 0, 0, 0] : List Byte) 24 4, cmd := (z1 : CmdSrc) } : Coll), (((((Z.onCx (0 : CtxId).val (fun o => { o with st := .enabled })).onFx (0 : CtxId).val (fun o => { o with valid := true })).onCx 0 (fun o => { o with st := .enabled, hbmSize := 100 })).onFx 0 (fun o => { o with valid := true, grpN := 2, rank := 1 }))), by decide⟩,
   ⟨(z1 : CmdSrc), (0 : CtxId), ([2, 1, 0, 0, 0, 0, 1, 0,  0, 0, 0, 0, 0, 0, 0, 0x20,  0, 0, 0, 0, 0, 0, 0, 0x20,  1, 0, 0, 0] : List Byte), (leAt ([2, 1, 0, 0, 0, 0, 1, 0,  0, 0, 0, 0, 0, 0, 0, 0x20,  0, 0, 0, 0, 0, 0, 0, 0x20,  1, 0, 0, 0] : List Byte) 2 1 : Nat), ({ op := leAt ([2, 1, 0, 0, 0, 0, 1, 0,  0, 0, 0, 0, 0, 0, 0, 0x20,  0, 0, 0, 0, 0, 0, 0, 0x20,  1, 0, 0, 0] : List Byte) 0 1, dtype := leAt ([2, 1, 0, 0, 0, 0, 1, 0,  0, 0, 0, 0, 0, 0, 0, 0x20,  0, 0, 0, 0, 0, 0, 0, 0x20,  1, 0, 0, 0] : List Byte) 1 1, root := leAt ([2, 1, 0, 0, 0, 0, 1, 0,  0, 0, 0, 0, 0, 0, 0, 0x20,  0, 0, 0, 0, 0, 0, 0, 0x20,  1, 0, 0, 0] : List Byte) 4 2, src := BitVec.ofNat 64 (leAt ([2, 1, 0, 0, 0, 0, 1, 0,  0, 0, 0, 0, 0, 0, 0, 0x20,  0, 0, 0, 0, 0, 0, 0, 0x20,  1, 0, 0, 0] : List Byte) 8 8), dst := BitVec.ofNat 64 (leAt ([2, 1, 0, 0, 0, 0, 1, 0,  0, 0, 0, 0, 0, 0, 0, 0x20,  0, 0, 0, 0, 0, 0, 0, 0x20,  1, 0, 0, 0] : List Byte) 16 8), count := leAt ([2, 1, 0, 0, 0, 0, 1, 0,  0, 0, 0, 0, 0, 0, 0, 0x20,  0, 0, 0, 0, 0, 0, 0, 0x20,  1, 0, 0, 0] : List Byte) 24 4, cmd := (z1 : CmdSrc) } : Coll), (((((Z.onCx (0 : CtxId).val (fun o => { o with st := .enabled })).onFx (0 : CtxId).val (fun o => { o with valid := true })).onCx 0 (fun o => { o with st := .enabled, hbmSize := 100 })).onFx 0 (fun o => { o with valid := true, grpN := 2 }))), ([0, 0, 0, 0]), by decide⟩,
   ⟨(z1 : CmdSrc), (0 : CtxId), (0 : Byte), (0 : BitVec 16), (0 : DWord), (0 : DWord), (0 : DWord), ((Z.onCx (0 : CtxId).val (fun o => { o with st := .enabled }))), by decide⟩,
   ⟨(z1 : CmdSrc), (0 : CtxId), (0 : Byte), (0 : BitVec 16), (0x2000000000000000 : DWord), (0 : DWord), (256 : DWord), (((((Z.onCx (0 : CtxId).val (fun o => { o with st := .enabled })).onFx (0 : CtxId).val (fun o => { o with valid := true })).onCx 0 (fun o => o)).onFx 0 (fun o => { o with valid := true, grpN := 2 }))), by decide⟩,
   ⟨(z1 : CmdSrc), (0 : CtxId), (0 : Byte), (0 : BitVec 16), (0x2000000000000000 : DWord), (0 : DWord), (0 : DWord), (((((Z.onCx (0 : CtxId).val (fun o => { o with st := .enabled })).onFx (0 : CtxId).val (fun o => { o with valid := true })).onCx 0 (fun o => { o with st := .enabled, hbmSize := 100 })).onFx 0 (fun o => { o with valid := true, grpN := 2 }))), by decide⟩,
   ⟨(z1 : CmdSrc), (0 : CtxId), (0 : Byte), (0 : BitVec 16), (0x2000000000000000 : DWord), (0 : DWord), (256 : DWord), (((((Z.onCx (0 : CtxId).val (fun o => { o with st := .enabled })).onFx (0 : CtxId).val (fun o => { o with valid := true })).onCx 0 (fun o => { o with st := .enabled, hbmSize := 100 })).onFx 0 (fun o => { o with valid := true, grpN := 2 }))), ((0 : BitVec 16)), (([] : List Byte)), by decide⟩,
   ⟨(z1 : CmdSrc), (0 : CtxId), (0 : BitVec 16), (0 : BitVec 16), (0 : Byte), ((Z.onCx (0 : CtxId).val (fun o => { o with st := .enabled }))), by decide⟩,
   ⟨(z1 : CmdSrc), (0 : CtxId), (0 : BitVec 16), (1 : BitVec 16), (0 : Byte), (0 : Word), ((Z.onCx (0 : CtxId).val (fun o => { o with st := .enabled }))), by decide⟩,
   ⟨(z0 : CmdSrc), (0 : Byte), (0x54 : BitVec 16), (0 : Word), (Z), by decide⟩,
   ⟨(z1 : CmdSrc), (0 : CtxId), (((Z.onCx (0 : CtxId).val (fun o => { o with st := .enabled })).onSx (0 : CtxId).val (fun o => { o with sealedCtx := false }))), by decide⟩,
   ⟨(z1 : CmdSrc), (0 : CtxId), ((((Z.onCx (0 : CtxId).val (fun o => { o with st := .enabled })).onSx (0 : CtxId).val (fun o => { o with cur := some (254 : Byte) })).onSx 0 (fun o => { o with cur := some 254 }))), (254 : Byte), by decide⟩,
   ⟨(z1 : CmdSrc), (0 : CtxId), (0 : DWord), (0 : Byte), (((Z.onCx (0 : CtxId).val (fun o => { o with st := .enabled })).onSx (0 : CtxId).val (fun o => { o with sealedCtx := false }))), by decide⟩,
   ⟨(z1 : CmdSrc), (0 : CtxId), (0 : Word), (0 : Byte), (0 : DWord), (((Z.onCx (0 : CtxId).val (fun o => { o with st := .enabled })).onSx (0 : CtxId).val (fun o => { o with sealedCtx := false }))), by decide⟩,
   ⟨(z1 : CmdSrc), (0 : CtxId), (0 : Word), (0 : Byte), (0x2000000000000000 : DWord), (((((Z.onCx (0 : CtxId).val (fun o => { o with st := .enabled })).onSx (0 : CtxId).val (fun o => { o with sealedCtx := true })).onCx 0 (fun o => { o with st := .enabled, hbmSize := 100 })).onSx 0 (fun o => { o with sealedCtx := true, cur := some 0, curKey := [1], base := 1000 }))), (([1] : List Byte)), by decide⟩⟩

theorem witness_AttestationAndSessionCommands :
    (∃ (doe : Bool) (k : Nat) (s : State), ((List.range 4).find? (fun k => !(s.sess doe k).isOpen) = some k) ∧ ((if doe then s.sec.trngFailX else s.sec.trngFailC) = false)) ∧
    (∃ (doe : Bool) (s : State), ((List.range 4).find? (fun k => !(s.sess doe k).isOpen) = none ∨ (if doe then s.sec.trngFailX else s.sec.trngFailC) = true)) ∧
    (∃ (doe : Bool) (k : Fin 4) (cert : List Byte) (s : State), ((s.sess doe k.val).isOpen = true) ∧ ((s.sess doe k.val).authed = false) ∧ (requesterOk s doe cert = true)) ∧
    (∃ (doe : Bool) (k : Fin 4) (s : State), ((s.sess doe k.val).isOpen = false ∨ (s.sess doe k.val).authed = true)) ∧
    (∃ (doe : Bool) (k : Fin 4) (s : State) (c : _), ((s.sess doe k.val).authed = false) ∧ (c ∈ [Instr.keyUpdate doe k, .heartbeat doe k, .endSession doe k])) ∧
    (∃ (doe : Bool) (k : Fin 4) (s : State), ((s.sess doe k.val).authed = true)) ∧
    (∃ (doe : Bool) (k : Fin 4) (s : State), ((s.sess doe k.val).isOpen = true)) ∧
    (∃ (doe : Bool) (k : Fin 4) (s : State), ((s.sess doe k.val).isOpen = false)) :=
  ⟨⟨(false : Bool), (0 : Nat), (Z), by decide⟩,
   ⟨(false : Bool), ((Z.onSec (fun o => { o with trngFailC := true }))), by decide⟩,
   ⟨(true : Bool), (0 : Fin 4), ([] : List Byte), (((Z.onSess (true : Bool) (0 : Fin 4).val (fun o => { o with isOpen := true })).onSess (true : Bool) (0 : Fin 4).val (fun o => { o with authed := false }))), by decide⟩,
   ⟨(false : Bool), (0 : Fin 4), ((Z.onSess (false : Bool) (0 : Fin 4).val (fun o => { o with isOpen := false }))), by decide⟩,
   ⟨(false : Bool), (0 : Fin 4), ((Z.onSess (false : Bool) (0 : Fin 4).val (fun o => { o with authed := false }))), (Instr.keyUpdate (false : Bool) (0 : Fin 4)), by decide⟩,
   ⟨(false : Bool), (0 : Fin 4), ((Z.onSess (false : Bool) (0 : Fin 4).val (fun o => { o with authed := true }))), by decide⟩,
   ⟨(false : Bool), (0 : Fin 4), ((Z.onSess (false : Bool) (0 : Fin 4).val (fun o => { o with isOpen := true }))), by decide⟩,
   ⟨(false : Bool), (0 : Fin 4), ((Z.onSess (false : Bool) (0 : Fin 4).val (fun o => { o with isOpen := false }))), by decide⟩⟩

theorem witness_CompletionAndWindowCommands :
    (∃ (f : FnId) (i : RingId) (s : State), ((s.fn f.val).hold.find? (fun r => r.cq.toNat == i.val) = none ∨ (s.cq f.val i.val).owned = 0)) ∧
    (∃ (f : FnId) (i : RingId) (r : HoldRec) (q : CqRing) (s : State), ((s.fn f.val).hold.find? (fun r => r.cq.toNat == i.val) = some r) ∧ (q = s.cq f.val i.val) ∧ (q.owned ≠ 0)) ∧
    (∃ (f : FnId) (i : RingId) (s : State), ((s.cq f.val i.val).since = 0 ∨ (s.cq f.val i.val).coalTime = 0)) ∧
    (∃ (f : FnId) (i : RingId) (s : State), ((s.cq f.val i.val).since ≠ 0) ∧ ((s.cq f.val i.val).coalTime ≠ 0)) ∧
    (∃ (f : FnId) (s : State), (0 < f.val) ∧ ((s.fn f.val).tdi = .run)) ∧
    (∃ (f : FnId) (tee : Bool) (off : BitVec 34) (len : Nat) (s : State), (tee = true ∨ f.val = 0 ∨ (s.fn f.val).tdi ≠ .run) ∧ (windowPage f.val off.toNat = none ∨ windowPage f.val (off.toNat + len - 1) = none)) ∧
    (∃ (f : FnId) (tee : Bool) (off : BitVec 34) (len : Nat) (s : State) (k : _) (k2 : _), (tee = true ∨ f.val = 0 ∨ (s.fn f.val).tdi ≠ .run) ∧ (windowPage f.val off.toNat = some k) ∧ (windowPage f.val (off.toNat + len - 1) = some k2) ∧ (pageOpen s f.val k = false ∨ pageOpen s f.val k2 = false)) ∧
    (∃ (f : FnId) (tee : Bool) (off : BitVec 34) (len : Nat) (data : Option (List Byte)) (s : State) (k : _) (bs : _), (tee = true ∨ f.val = 0 ∨ (s.fn f.val).tdi ≠ .run) ∧ (windowPage f.val off.toNat = some k) ∧ (windowPage f.val (off.toNat + len - 1) = some k) ∧ (pageOpen s f.val k = true) ∧ (data = some bs)) ∧
    (∃ (f : FnId) (tee : Bool) (off : BitVec 34) (len : Nat) (data : Option (List Byte)) (s : State) (k : _) (bs : _), (tee = true ∨ f.val = 0 ∨ (s.fn f.val).tdi ≠ .run) ∧ (windowPage f.val off.toNat = some k) ∧ (windowPage f.val (off.toNat + len - 1) = some k) ∧ (pageOpen s f.val k = true) ∧ (data = none) ∧ (gread s (k / 512) 2 ((s.page k).target.toNat * 2 ^ 21 + off.toNat % 2 ^ 21) len = some bs)) ∧
    (∃ (f : FnId) (tee : Bool) (off : BitVec 34) (len : Nat) (data : Option (List Byte)) (s : State) (k : _), (tee = true ∨ f.val = 0 ∨ (s.fn f.val).tdi ≠ .run) ∧ (windowPage f.val off.toNat = some k) ∧ (windowPage f.val (off.toNat + len - 1) = some k) ∧ (pageOpen s f.val k = true) ∧ (data = none) ∧ (gread s (k / 512) 2 ((s.page k).target.toNat * 2 ^ 21 + off.toNat % 2 ^ 21) len = none)) ∧
    (∃ (page : BitVec 13) (s : State), ((s.page page.toNat).pend = none ∨ ((s.page page.toNat).st = .device ∧ pageInUse s page.toNat = true))) ∧
    (∃ (page : BitVec 13) (want : PageSt) (s : State), ((s.page page.toNat).pend = some want) ∧ ((s.page page.toNat).st ≠ .device ∨ pageInUse s page.toNat = false)) :=
  ⟨⟨(0 : FnId), (0 : RingId), (Z), by decide⟩,
   ⟨(0 : FnId), (0 : RingId), ({ zh with cq := 0 } : HoldRec), ((((Z.onFn 0 (fun o => { o with hold := [{ zh with cq := 0 }] })).onCq 0 0 (fun o => { o with limit := 5, en := true }))).cq (0 : FnId).val (0 : RingId).val : CqRing), (((Z.onFn 0 (fun o => { o with hold := [{ zh with cq := 0 }] })).onCq 0 0 (fun o => { o with limit := 5, en := true }))), by decide⟩,
   ⟨(0 : FnId), (0 : RingId), ((Z.onCq (0 : FnId).val (0 : RingId).val (fun o => { o with since := 0 }))), by decide⟩,
   ⟨(0 : FnId), (0 : RingId), (((Z.onCq (0 : FnId).val (0 : RingId).val (fun o => { o with since := 1 })).onCq (0 : FnId).val (0 : RingId).val (fun o => { o with coalTime := 1 }))), by decide⟩,
   ⟨(1 : FnId), (((Z.onFn (1 : FnId).val (fun o => { o with tdi := .run })).onFn 1 (fun o => { o with tdi := .run }))), by decide⟩,
   ⟨(1 : FnId), (false : Bool), (0x3FFFFFFFF : BitVec 34), (0 : Nat), ((Z.onEnv (fun o => o))), by decide⟩,
   ⟨(0 : FnId), (false : Bool), (0 : BitVec 34), (0 : Nat), (Z), (0), (0), by decide⟩,
   ⟨(0 : FnId), (false : Bool), (0 : BitVec 34), (1 : Nat), (some [0] : Option (List Byte)), ((Z.onHost (fun o => { o with pages := [(0, { st := .host })] }))), (0), ([0]), by decide⟩,
   ⟨(0 : FnId), (false : Bool), (0 : BitVec 34), (1 : Nat), (none : Option (List Byte)), (((Z.onHost (fun o => { o with pages := [(0, { st := .host })] })).onCx 0 (fun o => { o with st := .enabled, hbmSize := 100 }))), (0), (([0] : List Byte)), by decide⟩,
   ⟨(0 : FnId), (false : Bool), (0 : BitVec 34), (1 : Nat), (none : Option (List Byte)), ((Z.onHost (fun o => { o with pages := [(0, { st := .host })] }))), (0), by decide⟩,
   ⟨(0 : BitVec 13), (Z), by decide⟩,
   ⟨(0 : BitVec 13), (.none : PageSt), ((Z.onHost (fun o => { o with pages := [(0, { st := .host, pend := some .none })] }))), by decide⟩⟩

theorem witness_InterfaceAndLinkCommands :
    (∃ (x : CtxId) (s : State), ((s.fn (x.val + 1)).tdi = .unlocked)) ∧
    (∃ (x : CtxId) (s : State), ((s.fn (x.val + 1)).tdi ≠ .unlocked)) ∧
    (∃ (x : CtxId) (s : State), ((s.fn (x.val + 1)).tdi = .locked)) ∧
    (∃ (x : CtxId) (s : State), ((s.fn (x.val + 1)).tdi ≠ .locked)) ∧
    (∃ (x : CtxId) (s : State), ((s.cx x.val).st = .disabled)) ∧
    (∃ (x : CtxId) (s : State), ((s.cx x.val).st ≠ .disabled)) ∧
    (∃ (k : Fin 4) (s : State), ((fget {} s.sec.doe k.val).isOpen = false)) ∧
    (∃ (k : Fin 4) (s : State), ((fget {} s.sec.doe k.val).isOpen = true)) ∧
    (∃ (rate : Fin 3) (width : BitVec 5) (s : State), (s.host.up = true) ∧ (s.host.rate.toNat = rate.val) ∧ (s.host.width = width)) ∧
    (∃ (rate : Fin 3) (width : BitVec 5) (s : State), (s.host.up = false ∨ s.host.rate.toNat ≠ rate.val ∨ s.host.width ≠ width)) :=
  ⟨⟨(0 : CtxId), ((Z.onFn ((0 : CtxId).val + 1) (fun o => { o with tdi := .unlocked }))), by decide⟩,
   ⟨(0 : CtxId), ((Z.onFn ((0 : CtxId).val + 1) (fun o => { o with tdi := .error }))), by decide⟩,
   ⟨(0 : CtxId), ((Z.onFn ((0 : CtxId).val + 1) (fun o => { o with tdi := .locked }))), by decide⟩,
   ⟨(0 : CtxId), ((Z.onFn ((0 : CtxId).val + 1) (fun o => { o with tdi := .error }))), by decide⟩,
   ⟨(0 : CtxId), ((Z.onCx (0 : CtxId).val (fun o => { o with st := .disabled }))), by decide⟩,
   ⟨(0 : CtxId), ((Z.onCx (0 : CtxId).val (fun o => { o with st := .scrubbing }))), by decide⟩,
   ⟨(0 : Fin 4), (Z), by decide⟩,
   ⟨(0 : Fin 4), ((Z.onSec (fun o => { o with doe := [(0, { isOpen := true })] }))), by decide⟩,
   ⟨(0 : Fin 3), (0 : BitVec 5), (((Z.onHost (fun o => { o with up := true })).onHost (fun o => { o with width := (0 : BitVec 5) }))), by decide⟩,
   ⟨(0 : Fin 3), (0 : BitVec 5), ((Z.onHost (fun o => { o with up := false }))), by decide⟩⟩

theorem witness_DescriptorConsumption :
    (∃ (f : FnId) (i : RingId) (s : State), (mayConsume s f.val i.val = false)) ∧
    (∃ (f : FnId) (i : RingId) (entry : Option (List Byte)) (q : SqRing) (s : State), (mayConsume s f.val i.val = true) ∧ (q = s.sq f.val i.val) ∧ ((entry = none ∨ (∃ e, entry = some e ∧ (entByte (padBytes 64 e) 63).getLsbD 7 = false)))) ∧
    (∃ (f : FnId) (i : RingId) (e0 : List Byte) (e : List Byte) (s : State), (mayConsume s f.val i.val = true) ∧ (e = padBytes 64 e0) ∧ ((entByte e 63).getLsbD 7 = true) ∧ ((entByte e 1).getLsbD 0 = true) ∧ ((s.sq f.val i.val).inFlight ≠ [])) ∧
    (∃ (f : FnId) (i : RingId) (e0 : List Byte) (e : List Byte) (q : SqRing) (src : CmdSrc) (s : State), (mayConsume s f.val i.val = true) ∧ (e = padBytes 64 e0) ∧ ((entByte e 63).getLsbD 7 = true) ∧ ((entByte e 1).getLsbD 0 = false ∨ (s.sq f.val i.val).inFlight = []) ∧ (q = s.sq f.val i.val) ∧ (src = ⟨f, i, q.head, BitVec.ofNat 32 (leAt e 4 4)⟩)) :=
  ⟨⟨(0 : FnId), (0 : RingId), (Z), by decide⟩,
   ⟨(0 : FnId), (0 : RingId), (none : Option (List Byte)), (((Z.onSq 0 0 (fun o => { o with en := true, st := 1, log2 := 4, tail := 1 }))).sq (0 : FnId).val (0 : RingId).val : SqRing), ((Z.onSq 0 0 (fun o => { o with en := true, st := 1, log2 := 4, tail := 1 }))), by decide⟩,
   ⟨(0 : FnId), (0 : RingId), ([0, 1] ++ List.replicate 61 0 ++ [0x80] : List Byte), ([0, 1] ++ List.replicate 61 0 ++ [0x80] : List Byte), ((Z.onSq 0 0 (fun o => { o with en := true, st := 1, log2 := 4, tail := 1, inFlight := [1] }))), by decide⟩,
   ⟨(0 : FnId), (0 : RingId), (List.replicate 63 0 ++ [0x80] : List Byte), (List.replicate 63 0 ++ [0x80] : List Byte), (((Z.onSq 0 0 (fun o => { o with en := true, st := 1, log2 := 4, tail := 1 }))).sq (0 : FnId).val (0 : RingId).val : SqRing), (⟨(0 : FnId), (0 : RingId), (((Z.onSq 0 0 (fun o => { o with en := true, st := 1, log2 := 4, tail := 1 }))).sq (0 : FnId).val (0 : RingId).val : SqRing).head, BitVec.ofNat 32 (leAt (List.replicate 63 0 ++ [0x80] : List Byte) 4 4)⟩ : CmdSrc), ((Z.onSq 0 0 (fun o => { o with en := true, st := 1, log2 := 4, tail := 1 }))), by decide⟩⟩

theorem witness_ContextConfiguration :
    (∃ (x : CtxId) (off : BitVec 12) (v : Word) (i : Fin 6) (k : Fin 64) (s : State) (y : Nat) (r : Nat) (c : Instr), (((c = .ctxPartitionWrite x off v ∧ y = x.val ∧ partitionRefusal s x.val off.toNat v = some r) ∨ (c = .ctxTeamWrite x i v ∧ y = x.val ∧ r = 1 ∧ ∃ m ∈ allMasks s, maskClash (fun z => if z = x.val then setTeamWord (s.cx x.val).teamNow i.val v else (s.cx z).teamNow) m = true) ∨ ((c = .ctxSlotLiveWrite k v ∨ c = .ctxSlotShadowWrite k v) ∧ y = s.ctx.sel.toNat ∧ r = 1 ∧ maskClash (fun z => (s.cx z).teamNow) (v.setWidth 16) = true) ∨ ((c = .ctxSlotLiveWrite k v ∨ c = .ctxSlotShadowWrite k v) ∧ y = s.ctx.sel.toNat ∧ r = 5 ∧ maskClash (fun z => (s.cx z).teamNow) (v.setWidth 16) = false ∧ v.toNat / 65536 < 5) ∨ (c = .ctxSlotCntWrite v ∧ y = s.ctx.sel.toNat ∧ r = 9 ∧ ¬ (1 ≤ v.toNat % 128 ∧ v.toNat % 128 ≤ 64 ∧ 1 ≤ v.toNat / 65536 % 128 ∧ v.toNat / 65536 % 128 ≤ 64)) ∨ (c = .ctxBarValWrite x k v ∧ y = x.val ∧ r = 4 ∧ startedCount s x.val ≠ 0)))) ∧
    (∃ (x : CtxId) (s : State), ((s.cx x.val).st ≠ .disabled)) ∧
    (∃ (x : CtxId) (off : BitVec 12) (v : Word) (s : State) (c : Ctx), (c = s.cx x.val) ∧ (partitionRefusal s x.val off.toNat v = none)) ∧
    (∃ (x : CtxId) (i : Fin 6) (v : Word) (s : State), ((∀ m ∈ allMasks s, maskClash (fun z => if z = x.val then setTeamWord (s.cx x.val).teamNow i.val v else (s.cx z).teamNow) m = false))) ∧
    (∃ (v : Word) (s : State), (maskClash (fun z => (s.cx z).teamNow) (v.setWidth 16) = false) ∧ (5 ≤ v.toNat / 65536)) ∧
    (∃ (v : Word), (1 ≤ v.toNat % 128) ∧ (v.toNat % 128 ≤ 64) ∧ (1 ≤ v.toNat / 65536 % 128) ∧ (v.toNat / 65536 % 128 ≤ 64)) ∧
    (∃ (x : CtxId) (s : State), (startedCount s x.val = 0)) :=
  ⟨⟨(0 : CtxId), (0 : BitVec 12), (0 : Word), (0 : Fin 6), (0 : Fin 64), (Z), (0 : Nat), (9 : Nat), (.ctxSlotCntWrite 0 : Instr), by decide⟩,
   ⟨(0 : CtxId), ((Z.onCx (0 : CtxId).val (fun o => { o with st := .scrubbing }))), by decide⟩,
   ⟨(0 : CtxId), (0 : BitVec 12), (0 : Word), (Z), ((Z).cx (0 : CtxId).val : Ctx), by decide⟩,
   ⟨(0 : CtxId), (0 : Fin 6), (0 : Word), (Z), by intro _ h; cases h⟩,
   ⟨(0x50000 : Word), (Z), by decide⟩,
   ⟨(0x10001 : Word), by decide⟩,
   ⟨(0 : CtxId), (Z), by decide⟩⟩

theorem witness_ContextLifeCycle :
    (∃ (s : State), (s.cairn.campRecovery = true)) ∧
    (∃ (x : CtxId) (s : State), (s.cairn.campRecovery = false) ∧ ((s.cx x.val).st ≠ .disabled)) ∧
    (∃ (x : CtxId) (s : State), (s.cairn.campRecovery = false) ∧ ((s.cx x.val).st = .disabled)) ∧
    (∃ (x : CtxId) (s : State), ((s.cx x.val).st ≠ .enabled)) ∧
    (∃ (x : CtxId) (s : State), ((s.cx x.val).st = .enabled)) ∧
    (∃ (x : CtxId) (s : State), ((s.cx x.val).st ≠ .draining)) ∧
    (∃ (x : CtxId) (s : State), ((s.cx x.val).st ≠ .scrubbing)) ∧
    (∃ (x : CtxId) (s : State), ((s.cx x.val).st = .scrubbing)) ∧
    (∃ (x : CtxId) (s : State), (stoppable s x.val = []) ∧ ((s.cx x.val).saved = []) ∧ ((s.cx x.val).queue = []) ∧ ((∀ e ∈ s.cores, e.2.next = none))) ∧
    (∃ (x : CtxId) (c : Nat) (r : Run) (s : State), ((s.cx x.val).st = .draining) ∧ (stoppable s x.val = [c]) ∧ ((s.cx x.val).saved = []) ∧ ((s.cx x.val).queue = []) ∧ ((∀ e ∈ s.cores, e.2.next = none)) ∧ ((s.core c).run = some r) ∧ ((s.core c).next = none) ∧ ((s.ctl c).diodeFault = false)) :=
  ⟨⟨((Z.onCairn (fun o => { o with campRecovery := true }))), by decide⟩,
   ⟨(0 : CtxId), (((Z.onCairn (fun o => { o with campRecovery := false })).onCx (0 : CtxId).val (fun o => { o with st := .scrubbing }))), by decide⟩,
   ⟨(0 : CtxId), (((Z.onCairn (fun o => { o with campRecovery := false })).onCx (0 : CtxId).val (fun o => { o with st := .disabled }))), by decide⟩,
   ⟨(0 : CtxId), ((Z.onCx (0 : CtxId).val (fun o => { o with st := .scrubbing }))), by decide⟩,
   ⟨(0 : CtxId), ((Z.onCx (0 : CtxId).val (fun o => { o with st := .enabled }))), by decide⟩,
   ⟨(0 : CtxId), ((Z.onCx (0 : CtxId).val (fun o => { o with st := .scrubbing }))), by decide⟩,
   ⟨(0 : CtxId), ((Z.onCx (0 : CtxId).val (fun o => { o with st := .enabled }))), by decide⟩,
   ⟨(0 : CtxId), ((Z.onCx (0 : CtxId).val (fun o => { o with st := .scrubbing }))), by decide⟩,
   ⟨(0 : CtxId), (((Z.onCx (0 : CtxId).val (fun o => { o with saved := [] })).onCx (0 : CtxId).val (fun o => { o with queue := [] }))), by decide⟩,
   ⟨(0 : CtxId), (0 : Nat), (zr : Run), (((((((Z.onCx (0 : CtxId).val (fun o => { o with st := .draining })).onCx (0 : CtxId).val (fun o => { o with saved := [] })).onCx (0 : CtxId).val (fun o => { o with queue := [] })).onCore (0 : Nat) (fun o => { o with run := some (zr : Run) })).onCore (0 : Nat) (fun o => { o with next := none })).onCtl (0 : Nat) (fun o => { o with diodeFault := false }))), by decide⟩⟩

theorem witness_SlotSwitchAndFenceCommands :
    (∃ (s : State), (s.ctx.left ≠ 0)) ∧
    (∃ (s : State), (s.ctx.left = 0) ∧ (s.ctx.swap = false)) ∧
    (∃ (s : State), (s.ctx.left = 0) ∧ (s.ctx.swap = true)) ∧
    (∃ (c : CoreId) (s : State), ((s.ctl c.val).switching = false)) ∧
    (∃ (c : CoreId) (x : CtxId) (s : State), ((s.ctl c.val).owner = some x) ∧ (s.pwr.trip = true ∨ s.pwr.throttlePin = true ∨ s.pwr.free < 256)) ∧
    (∃ (c : CoreId) (s : State), ((s.ctl c.val).switching = true) ∧ ((s.ctl c.val).diodeFault = false) ∧ (s.fence.waiting = []) ∧ ((s.ctl c.val).owner = none)) ∧
    (∃ (c : CoreId) (x : CtxId) (s : State), ((s.ctl c.val).switching = true) ∧ ((s.ctl c.val).diodeFault = false) ∧ (s.fence.waiting = []) ∧ ((s.ctl c.val).owner = some x) ∧ (s.pwr.trip = false) ∧ (s.pwr.throttlePin = false) ∧ (256 ≤ s.pwr.free)) ∧
    (∃ (c : CoreId) (s : State), ((s.ctl c.val).switching = false ∨ (s.ctl c.val).owner = none)) ∧
    (∃ (c : CoreId) (x : CtxId) (js : List PitchJob) (s : State), ((s.ctl c.val).switching = true) ∧ ((s.ctl c.val).owner = some x) ∧ (js = ((s.cx x.val).saved.filter (fun e => e.1 == (s.ctl c.val).logical.toNat)).filterMap (fun e => (e.2.bind (·.run)).map (·.job))) ∧ (js ≠ [])) ∧
    (∃ (c : CoreId) (s : State), (s.fence.stops.find? (fun r => r.core == c.val) = none)) ∧
    (∃ (c : CoreId) (r : StopRec) (s : State), (s.fence.stops.find? (fun r => r.core == c.val) = some r)) ∧
    (∃ (c : CoreId) (s : State) (i : Instr), (i = .fenceWipeDone c ∨ i = .fenceWipeTimeout c) ∧ ((s.ctl c.val).st = .wiping)) ∧
    (∃ (c : CoreId) (s : State), ((s.ctl c.val).st = .reserve) ∧ ((s.ctl c.val).wiping = true)) ∧
    (∃ (c : CoreId) (s : State), ((s.ctl c.val).st ≠ .wiping) ∧ ((s.ctl c.val).st ≠ .reserve ∨ (s.ctl c.val).wiping = false)) :=
  ⟨⟨((Z.onCtxBlk (fun o => { o with left := 1 }))), by decide⟩,
   ⟨(((Z.onCtxBlk (fun o => { o with left := 0 })).onCtxBlk (fun o => { o with swap := false }))), by decide⟩,
   ⟨(((Z.onCtxBlk (fun o => { o with left := 0 })).onCtxBlk (fun o => { o with swap := true }))), by decide⟩,
   ⟨(0 : CoreId), ((Z.onCtl (0 : CoreId).val (fun o => { o with switching := false }))), by decide⟩,
   ⟨(0 : CoreId), (0 : CtxId), (((Z.onCtl (0 : CoreId).val (fun o => { o with owner := some (0 : CtxId) })).onPwr (fun o => { o with trip := true }))), by decide⟩,
   ⟨(0 : CoreId), (((((Z.onCtl (0 : CoreId).val (fun o => { o with switching := true })).onCtl (0 : CoreId).val (fun o => { o with diodeFault := false })).onFence (fun o => { o with waiting := [] })).onCtl (0 : CoreId).val (fun o => { o with owner := none }))), by decide⟩,
   ⟨(0 : CoreId), (0 : CtxId), (((((((((Z.onCtl (0 : CoreId).val (fun o => { o with switching := true })).onCtl (0 : CoreId).val (fun o => { o with diodeFault := false })).onFence (fun o => { o with waiting := [] })).onCtl (0 : CoreId).val (fun o => { o with owner := some (0 : CtxId) })).onPwr (fun o => { o with trip := false })).onPwr (fun o => { o with throttlePin := false })).onCtl 0 (fun o => { o with switching := true, owner := some 0 })).onPwr (fun o => { o with free := 256 }))), by decide⟩,
   ⟨(0 : CoreId), ((Z.onCtl (0 : CoreId).val (fun o => { o with switching := false }))), by decide⟩,
   ⟨(0 : CoreId), (0 : CtxId), ([zj] : List PitchJob), (((((Z.onCtl (0 : CoreId).val (fun o => { o with switching := true })).onCtl (0 : CoreId).val (fun o => { o with owner := some (0 : CtxId) })).onCtl 0 (fun o => { o with switching := true, owner := some 0, logical := 0 })).onCx 0 (fun o => { o with saved := [(0, some { run := some zr })] }))), by decide⟩,
   ⟨(0 : CoreId), (Z), by decide⟩,
   ⟨(0 : CoreId), (zs : StopRec), ((Z.onFence (fun o => { o with stops := [zs] }))), by decide⟩,
   ⟨(0 : CoreId), (((Z.onCtl (0 : CoreId).val (fun o => { o with st := .wiping })).onCtl 0 (fun o => { o with st := .wiping }))), (.fenceWipeDone 0 : Instr), by decide⟩,
   ⟨(0 : CoreId), (((Z.onCtl (0 : CoreId).val (fun o => { o with st := .reserve })).onCtl (0 : CoreId).val (fun o => { o with wiping := true }))), by decide⟩,
   ⟨(0 : CoreId), (Z), by decide⟩⟩

theorem witness_IssueCommands :
    (∃ (c : CoreId) (s : State), (canIssue s c.val = false)) ∧
    (∃ (c : CoreId) (w : DWord) (r : Run) (s : State), (canIssue s c.val = true) ∧ ((s.core c.val).word = some w) ∧ ((s.core c.val).run = some r) ∧ ((PitchInstr.decode w = none ∨ (∃ i, PitchInstr.decode w = some i ∧ pitchAllows s r i = false)))) ∧
    (∃ (c : CoreId) (i : PitchInstr) (j : PitchInstr) (w : DWord) (r : Run) (s : State), (canIssue s c.val = true) ∧ ((s.core c.val).word = some w) ∧ ((s.core c.val).run = some r) ∧ (PitchInstr.decode w = some i) ∧ (pitchAllows s r i = true) ∧ (mustWait r i = true ∨ commandOf c j ≠ commandOf c i)) ∧
    (∃ (c : CoreId) (i : PitchInstr) (w : DWord) (r : Run) (s : State), (poised s c.val r w i) ∧ (unwatched s c.val) ∧ (completesAtIssue i = false) ∧ (holdsReserve s c.val = false)) ∧
    (∃ (c : CoreId) (w : DWord) (r : Run) (i : PitchInstr) (s : State) (reg : _) (roff : _) (pml : _) (len : _), (poised s c.val r w i) ∧ (unwatched s c.val) ∧ ((∀ f ∈ r.flights, f.done = true)) ∧ (i = .movOut reg roff pml len)) ∧
    (∃ (c : CoreId) (w : DWord) (r : Run) (i : PitchInstr) (s : State) (node : _) (vl : _) (ch : _) (pml : _) (len : _), (poised s c.val r w i) ∧ (unwatched s c.val) ∧ ((∀ f ∈ r.flights, f.done = true)) ∧ (i = .snd node vl ch pml len)) ∧
    (∃ (c : CoreId) (w : DWord) (r : Run) (i : PitchInstr) (s : State) (ctr : _) (inc : _), (poised s c.val r w i) ∧ (unwatched s c.val) ∧ ((∀ f ∈ r.flights, f.done = true)) ∧ (i = .sig ctr inc)) ∧
    (∃ (c : CoreId) (w : DWord) (r : Run) (i : PitchInstr) (s : State) (ctr : _) (target : _), (poised s c.val r w i) ∧ (unwatched s c.val) ∧ ((∀ f ∈ r.flights, f.done = true)) ∧ (i = .watBar ctr target)) ∧
    (∃ (c : CoreId) (w : DWord) (r : Run) (i : PitchInstr) (s : State) (us : _), (poised s c.val r w i) ∧ (unwatched s c.val) ∧ ((∀ f ∈ r.flights, f.done = true)) ∧ (i = .watLocal us)) ∧
    (∃ (c : CoreId) (w : DWord) (r : Run) (i : PitchInstr) (s : State), (poised s c.val r w i) ∧ (unwatched s c.val) ∧ ((∀ f ∈ r.flights, f.done = true)) ∧ (i = .wipe)) ∧
    (∃ (c : CoreId) (w : DWord) (r : Run) (i : PitchInstr) (s : State), (poised s c.val r w i) ∧ (unwatched s c.val) ∧ ((∀ f ∈ r.flights, f.done = true)) ∧ (i = .fin)) :=
  ⟨⟨(0 : CoreId), (Z), by decide⟩,
   ⟨(0 : CoreId), (0 : DWord), (zr : Run), ((Z.onCore 0 (fun o => { o with run := some zr, ibuf := [0], pstate := .run }))), by decide⟩,
   ⟨(0 : CoreId), (.fin : PitchInstr), (.wipe : PitchInstr), (PitchInstr.encode (.fin) : DWord), (zr : Run), ((Z.onCore 0 (fun o => { o with run := some zr, ibuf := [PitchInstr.encode .fin], pstate := .run }))), by decide⟩,
   ⟨(0 : CoreId), (.wsw : PitchInstr), (PitchInstr.encode (.wsw) : DWord), (zr : Run), ((Z.onCore 0 (fun o => { o with run := some zr, ibuf := [PitchInstr.encode (.wsw)], pstate := .run }))), by unfold poised unwatched; decide +kernel⟩,
   ⟨(0 : CoreId), (PitchInstr.encode (.movOut 0 0 0 1) : DWord), ({ zr with job := { zj with desc := { zd with regions := [{ base := 0x2000000000000000, len := 4096, kind := 2 }] } } } : Run), (.movOut 0 0 0 1 : PitchInstr), (((Z.onCore 0 (fun o => { o with run := some { zr with job := { zj with desc := { zd with regions := [{ base := 0x2000000000000000, len := 4096, kind := 2 }] } } }, ibuf := [PitchInstr.encode (.movOut 0 0 0 1)], pstate := .run })).onCtl 0 (fun o => { o with bal := 1000 }))), ((0 : BitVec 3)), ((0 : BitVec 26)), ((0 : BitVec 15)), ((1 : BitVec 12)), by unfold poised unwatched; decide +kernel⟩,
   ⟨(0 : CoreId), (PitchInstr.encode (.snd 0 0 0 0 1) : DWord), (zr : Run), (.snd 0 0 0 0 1 : PitchInstr), (((Z.onCore 0 (fun o => { o with run := some zr, ibuf := [PitchInstr.encode (.snd 0 0 0 0 1)], pstate := .run })).onCtl 0 (fun o => { o with bal := 1000 }))), ((0 : BitVec 16)), ((0 : BitVec 2)), ((0 : BitVec 4)), ((0 : BitVec 15)), ((1 : BitVec 12)), by unfold poised unwatched; decide +kernel⟩,
   ⟨(0 : CoreId), (PitchInstr.encode (.sig 0 1) : DWord), (zr : Run), (.sig 0 1 : PitchInstr), (((Z.onCore 0 (fun o => { o with run := some zr, ibuf := [PitchInstr.encode (.sig 0 1)], pstate := .run })).onCtl 0 (fun o => { o with bal := 1000 }))), ((0 : BitVec 6)), ((1 : BitVec 16)), by unfold poised unwatched; decide +kernel⟩,
   ⟨(0 : CoreId), (PitchInstr.encode (.watBar 0 1) : DWord), (zr : Run), (.watBar 0 1 : PitchInstr), (((Z.onCore 0 (fun o => { o with run := some zr, ibuf := [PitchInstr.encode (.watBar 0 1)], pstate := .run })).onCtl 0 (fun o => { o with bal := 1000 }))), ((0 : BitVec 6)), ((1 : BitVec 32)), by unfold poised unwatched; decide +kernel⟩,
   ⟨(0 : CoreId), (PitchInstr.encode (.watLocal 1) : DWord), (zr : Run), (.watLocal 1 : PitchInstr), (((Z.onCore 0 (fun o => { o with run := some zr, ibuf := [PitchInstr.encode (.watLocal 1)], pstate := .run })).onCtl 0 (fun o => { o with bal := 1000 }))), ((1 : BitVec 5)), by unfold poised unwatched; decide +kernel⟩,
   ⟨(0 : CoreId), (PitchInstr.encode (.wipe) : DWord), ({ zr with job := { zj with desc := { zd with fw := true } } } : Run), (.wipe : PitchInstr), (((Z.onCore 0 (fun o => { o with run := some { zr with job := { zj with desc := { zd with fw := true } } }, ibuf := [PitchInstr.encode (.wipe)], pstate := .run })).onCtl 0 (fun o => { o with bal := 1000 }))), by unfold poised unwatched; decide +kernel⟩,
   ⟨(0 : CoreId), (PitchInstr.encode (.fin) : DWord), (zr : Run), (.fin : PitchInstr), (((Z.onCore 0 (fun o => { o with run := some zr, ibuf := [PitchInstr.encode (.fin)], pstate := .run })).onCtl 0 (fun o => { o with bal := 1000 }))), by unfold poised unwatched; decide +kernel⟩⟩

theorem witness_VectorCommands :
    (∃ (c : CoreId) (w : DWord) (r : Run) (op : VOp) (bf : Bool) (vd : BitVec 5) (va : BitVec 5) (vb : BitVec 5) (vc : BitVec 5) (rm : BitVec 3) (addr : BitVec 21) (s : State) (k : Core) (K : Core) (p : _), (alone s c.val r w (.vec op bf vd va vb vc rm addr)) ∧ (k = s.core c.val) ∧ (K = carriedCore k r (.vec op bf vd va vb vc rm addr) w) ∧ (op = p.1) ∧ (p ∈ [(VOp.add, map2 bf fpAdd (k.reg va.toNat) (k.reg vb.toNat)), (.sub, map2 bf fpSub (k.reg va.toNat) (k.reg vb.toNat)), (.mul, map2 bf fpMul (k.reg va.toNat) (k.reg vb.toNat)), (.fma, map3 bf fpFma (k.reg va.toNat) (k.reg vb.toNat) (k.reg vc.toNat)), (.min, raw2 bf (fpMin (fmtOf bf)) (k.reg va.toNat) (k.reg vb.toNat)), (.max, raw2 bf (fpMax (fmtOf bf)) (k.reg va.toNat) (k.reg vb.toNat)), (.clt, raw2 bf (fun x y => if fpLtIeee (fmtOf bf) x y then allOnes bf else 0) (k.reg va.toNat) (k.reg vb.toNat)), (.ceq, raw2 bf (fun x y => if fpEq (fmtOf bf) x y then allOnes bf else 0) (k.reg va.toNat) (k.reg vb.toNat)), (.sel, sel bf (k.reg va.toNat) (k.reg vb.toNat) (k.reg vc.toNat)), (.abs, ofRaw bf ((rawLanes bf (k.reg va.toNat)).map (fpAbs (fmtOf bf)))), (.neg, ofRaw bf ((rawLanes bf (k.reg va.toNat)).map (fpNeg (fmtOf bf)))), (.exp, map1 bf fpExp (k.reg va.toNat)), (.rcp, map1 bf fpRcp (k.reg va.toNat)), (.rsq, map1 bf fpRsq (k.reg va.toNat)), (.rsum, lane0 bf (reduce bf (addIn bf) ((List.range (vc.toNat + 1)).map (fun j => k.reg (va.toNat + j))))), (.rmax, lane0 bf (reduce bf (fpMax (fmtOf bf)) ((List.range (vc.toNat + 1)).map (fun j => k.reg (va.toNat + j))))), (.bcast, ofRaw bf ((rawLanes bf (k.reg va.toNat)).map (fun _ => (rawLanes bf (k.reg va.toNat)).headD 0))), (.vld, bytesReg (k.readPm addr.toNat 512))])) ∧
    (∃ (c : CoreId) (w : DWord) (r : Run) (op : VOp) (bf : Bool) (vd : BitVec 5) (va : BitVec 5) (vb : BitVec 5) (vc : BitVec 5) (rm : BitVec 3) (addr : BitVec 21) (s : State) (k : Core) (K : Core), (alone s c.val r w (.vec op bf vd va vb vc rm addr)) ∧ (k = s.core c.val) ∧ (K = carriedCore k r (.vec op bf vd va vb vc rm addr) w) ∧ (op = .vst)) ∧
    (∃ (c : CoreId) (w : DWord) (r : Run) (op : VOp) (bf : Bool) (vd : BitVec 5) (va : BitVec 5) (vb : BitVec 5) (vc : BitVec 5) (rm : BitVec 3) (addr : BitVec 21) (s : State) (k : Core) (K : Core) (q : _), (alone s c.val r w (.vec op bf vd va vb vc rm addr)) ∧ (k = s.core c.val) ∧ (K = carriedCore k r (.vec op bf vd va vb vc rm addr) w) ∧ (op = .cvth) ∧ (q = cvth ((RMode.ofCode rm.toNat).getD .rne) r.job.desc.id r.ord.toNat (k.reg va.toNat))) ∧
    (∃ (c : CoreId) (w : DWord) (r : Run) (op : VOp) (bf : Bool) (vd : BitVec 5) (va : BitVec 5) (vb : BitVec 5) (vc : BitVec 5) (rm : BitVec 3) (addr : BitVec 21) (s : State) (k : Core) (K : Core) (q : _), (alone s c.val r w (.vec op bf vd va vb vc rm addr)) ∧ (k = s.core c.val) ∧ (K = carriedCore k r (.vec op bf vd va vb vc rm addr) w) ∧ (op = .cvt4 ∨ op = .cvt6 ∨ op = .cvt8) ∧ (q = cvtBlocks (if op = .cvt4 then 4 else if op = .cvt6 then 6 else 8) ((RMode.ofCode rm.toNat).getD .rne) r.job.desc.id r.ord.toNat (k.reg va.toNat))) :=
  ⟨⟨(0 : CoreId), (PitchInstr.encode (.vec .add false 0 0 0 0 0 0) : DWord), (zr : Run), (.add : VOp), (false : Bool), (0 : BitVec 5), (0 : BitVec 5), (0 : BitVec 5), (0 : BitVec 5), (0 : BitVec 3), (0 : BitVec 21), (((Z.onCore 0 (fun o => { o with run := some zr, ibuf := [PitchInstr.encode (.vec .add false 0 0 0 0 0 0)], pstate := .run })).onCtl 0 (fun o => { o with bal := 1000 }))), ((((Z.onCore 0 (fun o => { o with run := some zr, ibuf := [PitchInstr.encode (.vec .add false 0 0 0 0 0 0)], pstate := .run })).onCtl 0 (fun o => { o with bal := 1000 }))).core (0 : CoreId).val : Core), (carriedCore ((((Z.onCore 0 (fun o => { o with run := some zr, ibuf := [PitchInstr.encode (.vec .add false 0 0 0 0 0 0)], pstate := .run })).onCtl 0 (fun o => { o with bal := 1000 }))).core (0 : CoreId).val : Core) (zr : Run) (.vec (.add : VOp) (false : Bool) (0 : BitVec 5) (0 : BitVec 5) (0 : BitVec 5) (0 : BitVec 5) (0 : BitVec 3) (0 : BitVec 21)) (PitchInstr.encode (.vec .add false 0 0 0 0 0 0) : DWord) : Core), ((VOp.add, map2 false fpAdd ((Z.core 0).reg 0) ((Z.core 0).reg 0))), by unfold alone poised unwatched; decide +kernel⟩,
   ⟨(0 : CoreId), (PitchInstr.encode (.vec .vst false 0 0 0 0 0 0) : DWord), (zr : Run), (.vst : VOp), (false : Bool), (0 : BitVec 5), (0 : BitVec 5), (0 : BitVec 5), (0 : BitVec 5), (0 : BitVec 3), (0 : BitVec 21), (((Z.onCore 0 (fun o => { o with run := some zr, ibuf := [PitchInstr.encode (.vec .vst false 0 0 0 0 0 0)], pstate := .run })).onCtl 0 (fun o => { o with bal := 1000 }))), ((((Z.onCore 0 (fun o => { o with run := some zr, ibuf := [PitchInstr.encode (.vec .vst false 0 0 0 0 0 0)], pstate := .run })).onCtl 0 (fun o => { o with bal := 1000 }))).core (0 : CoreId).val : Core), (carriedCore ((((Z.onCore 0 (fun o => { o with run := some zr, ibuf := [PitchInstr.encode (.vec .vst false 0 0 0 0 0 0)], pstate := .run })).onCtl 0 (fun o => { o with bal := 1000 }))).core (0 : CoreId).val : Core) (zr : Run) (.vec (.vst : VOp) (false : Bool) (0 : BitVec 5) (0 : BitVec 5) (0 : BitVec 5) (0 : BitVec 5) (0 : BitVec 3) (0 : BitVec 21)) (PitchInstr.encode (.vec .vst false 0 0 0 0 0 0) : DWord) : Core), by unfold alone poised unwatched; decide +kernel⟩,
   ⟨(0 : CoreId), (PitchInstr.encode (.vec .cvth false 0 0 0 0 0 0) : DWord), (zr : Run), (.cvth : VOp), (false : Bool), (0 : BitVec 5), (0 : BitVec 5), (0 : BitVec 5), (0 : BitVec 5), (0 : BitVec 3), (0 : BitVec 21), (((Z.onCore 0 (fun o => { o with run := some zr, ibuf := [PitchInstr.encode (.vec .cvth false 0 0 0 0 0 0)], pstate := .run })).onCtl 0 (fun o => { o with bal := 1000 }))), ((((Z.onCore 0 (fun o => { o with run := some zr, ibuf := [PitchInstr.encode (.vec .cvth false 0 0 0 0 0 0)], pstate := .run })).onCtl 0 (fun o => { o with bal := 1000 }))).core (0 : CoreId).val : Core), (carriedCore ((((Z.onCore 0 (fun o => { o with run := some zr, ibuf := [PitchInstr.encode (.vec .cvth false 0 0 0 0 0 0)], pstate := .run })).onCtl 0 (fun o => { o with bal := 1000 }))).core (0 : CoreId).val : Core) (zr : Run) (.vec (.cvth : VOp) (false : Bool) (0 : BitVec 5) (0 : BitVec 5) (0 : BitVec 5) (0 : BitVec 5) (0 : BitVec 3) (0 : BitVec 21)) (PitchInstr.encode (.vec .cvth false 0 0 0 0 0 0) : DWord) : Core), (cvth ((RMode.ofCode (0 : BitVec 3).toNat).getD .rne) (zr : Run).job.desc.id (zr : Run).ord.toNat (((((Z.onCore 0 (fun o => { o with run := some zr, ibuf := [PitchInstr.encode (.vec .cvth false 0 0 0 0 0 0)], pstate := .run })).onCtl 0 (fun o => { o with bal := 1000 }))).core (0 : CoreId).val : Core).reg (0 : BitVec 5).toNat)), by unfold alone poised unwatched; decide +kernel⟩,
   ⟨(0 : CoreId), (PitchInstr.encode (.vec .cvt4 false 0 0 0 0 0 0) : DWord), (zr : Run), (.cvt4 : VOp), (false : Bool), (0 : BitVec 5), (0 : BitVec 5), (0 : BitVec 5), (0 : BitVec 5), (0 : BitVec 3), (0 : BitVec 21), (((Z.onCore 0 (fun o => { o with run := some zr, ibuf := [PitchInstr.encode (.vec .cvt4 false 0 0 0 0 0 0)], pstate := .run })).onCtl 0 (fun o => { o with bal := 1000 }))), ((((Z.onCore 0 (fun o => { o with run := some zr, ibuf := [PitchInstr.encode (.vec .cvt4 false 0 0 0 0 0 0)], pstate := .run })).onCtl 0 (fun o => { o with bal := 1000 }))).core (0 : CoreId).val : Core), (carriedCore ((((Z.onCore 0 (fun o => { o with run := some zr, ibuf := [PitchInstr.encode (.vec .cvt4 false 0 0 0 0 0 0)], pstate := .run })).onCtl 0 (fun o => { o with bal := 1000 }))).core (0 : CoreId).val : Core) (zr : Run) (.vec (.cvt4 : VOp) (false : Bool) (0 : BitVec 5) (0 : BitVec 5) (0 : BitVec 5) (0 : BitVec 5) (0 : BitVec 3) (0 : BitVec 21)) (PitchInstr.encode (.vec .cvt4 false 0 0 0 0 0 0) : DWord) : Core), (cvtBlocks (if (.cvt4 : VOp) = .cvt4 then 4 else if (.cvt4 : VOp) = .cvt6 then 6 else 8) ((RMode.ofCode (0 : BitVec 3).toNat).getD .rne) (zr : Run).job.desc.id (zr : Run).ord.toNat (((((Z.onCore 0 (fun o => { o with run := some zr, ibuf := [PitchInstr.encode (.vec .cvt4 false 0 0 0 0 0 0)], pstate := .run })).onCtl 0 (fun o => { o with bal := 1000 }))).core (0 : CoreId).val : Core).reg (0 : BitVec 5).toNat)), by unfold alone poised unwatched; decide +kernel⟩⟩

theorem witness_GridCommands :
    (∃ (c : CoreId) (w : DWord) (r : Run) (src : Bool) (p : BitVec 4) (reg : BitVec 3) (off : BitVec 26) (b : Bool) (bytes : List Byte) (s : State) (k : Core) (K : Core), (alone s c.val r w (.wld src p reg off)) ∧ (k = s.core c.val) ∧ (pickBank k r = some b) ∧ (weightSource s c.val r src p reg off = some bytes) ∧ (K = steppedCore k { r with flights := [{ flightOf k (.wld src p reg off) w with bank := some b }] })) ∧
    (∃ (c : CoreId) (w : DWord) (r : Run) (b : Bool) (s : State), (alone s c.val r w .wsw) ∧ (pickSwap (s.core c.val) = some b)) ∧
    (∃ (c : CoreId) (w : DWord) (r : Run) (s : State), (alone s c.val r w .wsw) ∧ (pickSwap (s.core c.val) = none)) ∧
    (∃ (c : CoreId) (w : DWord) (r : Run) (p : BitVec 4) (act : BitVec 15) (e0 : BitVec 8) (n : BitVec 9) (b : BitVec 2) (stride : BitVec 14) (s : State), (alone s c.val r w (.str p act e0 n b stride)) ∧ ((∀ bk, (s.core c.val).activeBank = some bk → bk.pair ≠ p))) ∧
    (∃ (c : CoreId) (w : DWord) (r : Run) (p : BitVec 4) (act : BitVec 15) (e0 : BitVec 8) (n : BitVec 9) (b : BitVec 2) (stride : BitVec 14) (bk : Bank) (fa : OpFmt) (fw : OpFmt) (g : Nat) (s : State) (k : Core), (alone s c.val r w (.str p act e0 n b stride)) ∧ (k = s.core c.val) ∧ (k.activeBank = some bk) ∧ (bk.pair = p) ∧ (pairing p.toNat = some (fa, fw, g)) ∧ (16 * b.toNat + 64 / g ≤ 64)) ∧
    (∃ (c : CoreId) (s : State), ((s.core c.val).run = none)) ∧
    (∃ (c : CoreId) (s : State) (r : Run) (f : Flight), ((s.core c.val).run = some r) ∧ (s.dbg.tracing.contains c.val = false) ∧ (r.flights.find? (fun f => f.bank.isSome) = some f) ∧ (holdsReserve s c.val = false)) ∧
    (∃ (c : CoreId) (s : State) (r : Run) (f : Flight), ((s.core c.val).run = some r) ∧ (s.dbg.tracing.contains c.val = false) ∧ (oldestDone r 1 = some f)) ∧
    (∃ (c : CoreId) (s : State), (holdsReserve s c.val = false)) :=
  ⟨⟨(0 : CoreId), (PitchInstr.encode (.wld false 0 0 0) : DWord), (zr : Run), (false : Bool), (0 : BitVec 4), (0 : BitVec 3), (0 : BitVec 26), (false : Bool), ((({} : Core).readPm (0 * 64) (PitchInstr.setBytes 0)) : List Byte), (((Z.onCore 0 (fun o => { o with run := some zr, ibuf := [PitchInstr.encode (.wld false 0 0 0)], pstate := .run })).onCtl 0 (fun o => { o with bal := 1000 }))), ((((Z.onCore 0 (fun o => { o with run := some zr, ibuf := [PitchInstr.encode (.wld false 0 0 0)], pstate := .run })).onCtl 0 (fun o => { o with bal := 1000 }))).core (0 : CoreId).val : Core), (steppedCore ((((Z.onCore 0 (fun o => { o with run := some zr, ibuf := [PitchInstr.encode (.wld false 0 0 0)], pstate := .run })).onCtl 0 (fun o => { o with bal := 1000 }))).core (0 : CoreId).val : Core) { (zr : Run) with flights := [{ flightOf ((((Z.onCore 0 (fun o => { o with run := some zr, ibuf := [PitchInstr.encode (.wld false 0 0 0)], pstate := .run })).onCtl 0 (fun o => { o with bal := 1000 }))).core (0 : CoreId).val : Core) (.wld (false : Bool) (0 : BitVec 4) (0 : BitVec 3) (0 : BitVec 26)) (PitchInstr.encode (.wld false 0 0 0) : DWord) with bank := some (false : Bool) }] } : Core), by refine ⟨?_, ?_, ?_, ?_, ?_⟩ <;> first | (unfold alone poised unwatched; decide +kernel) | rfl⟩,
   ⟨(0 : CoreId), (PitchInstr.encode (.wsw) : DWord), (zr : Run), (false : Bool), ((((Z.onCore 0 (fun o => { o with run := some zr, ibuf := [PitchInstr.encode (.wsw)], pstate := .run })).onCtl 0 (fun o => { o with bal := 1000 })).onCore 0 (fun o => { o with bankA := { valid := true } }))), by unfold alone poised unwatched; decide +kernel⟩,
   ⟨(0 : CoreId), (PitchInstr.encode (.wsw) : DWord), (zr : Run), (((Z.onCore 0 (fun o => { o with run := some zr, ibuf := [PitchInstr.encode (.wsw)], pstate := .run })).onCtl 0 (fun o => { o with bal := 1000 }))), by unfold alone poised unwatched; decide +kernel⟩,
   ⟨(0 : CoreId), (PitchInstr.encode (.str 0 0 0 1 0 1) : DWord), (zr : Run), (0 : BitVec 4), (0 : BitVec 15), (0 : BitVec 8), (1 : BitVec 9), (0 : BitVec 2), (1 : BitVec 14), (((Z.onCore 0 (fun o => { o with run := some zr, ibuf := [PitchInstr.encode (.str 0 0 0 1 0 1)], pstate := .run })).onCtl 0 (fun o => { o with bal := 1000 }))), by unfold alone poised unwatched; decide +kernel⟩,
   ⟨(0 : CoreId), (PitchInstr.encode (.str 0 0 0 1 0 1) : DWord), (zr : Run), (0 : BitVec 4), (0 : BitVec 15), (0 : BitVec 8), (1 : BitVec 9), (0 : BitVec 2), (1 : BitVec 14), ({ st := .active, valid := true } : Bank), (.bs4 : OpFmt), (.bs4 : OpFmt), (1 : Nat), ((((Z.onCore 0 (fun o => { o with run := some zr, ibuf := [PitchInstr.encode (.str 0 0 0 1 0 1)], pstate := .run })).onCtl 0 (fun o => { o with bal := 1000 })).onCore 0 (fun o => { o with bankA := { st := .active, valid := true } }))), (((((Z.onCore 0 (fun o => { o with run := some zr, ibuf := [PitchInstr.encode (.str 0 0 0 1 0 1)], pstate := .run })).onCtl 0 (fun o => { o with bal := 1000 })).onCore 0 (fun o => { o with bankA := { st := .active, valid := true } }))).core (0 : CoreId).val : Core), by unfold alone poised unwatched; decide +kernel⟩,
   ⟨(0 : CoreId), ((Z.onCore (0 : CoreId).val (fun o => { o with run := none }))), by decide⟩,
   ⟨(0 : CoreId), (((Z.onCore (0 : CoreId).val (fun o => { o with run := some ({ zr with flights := [zf] } : Run) })).onCore 0 (fun o => { o with run := some { zr with flights := [zf] } }))), ({ zr with flights := [zf] } : Run), (zf : Flight), by decide⟩,
   ⟨(0 : CoreId), (((Z.onCore (0 : CoreId).val (fun o => { o with run := some ({ zr with flights := [zf] } : Run) })).onCore 0 (fun o => { o with run := some { zr with flights := [zf] } }))), ({ zr with flights := [zf] } : Run), (zf : Flight), by decide⟩,
   ⟨(0 : CoreId), (Z), by decide⟩⟩

theorem witness_MoveCommands :
    (∃ (c : CoreId) (w : DWord) (r : Run) (reg : BitVec 3) (roff : BitVec 26) (pml : BitVec 15) (len : BitVec 12) (bs : List Byte) (s : State), (alone s c.val r w (.movIn reg roff pml len)) ∧ (gread s r.job.ctx.val (gaSpace (r.region reg).base) (gaOff (r.region reg).base + roff.toNat * 64) (PitchInstr.lines len * 64) = some bs)) ∧
    (∃ (c : CoreId) (w : DWord) (r : Run) (reg : BitVec 3) (roff : BitVec 26) (pml : BitVec 15) (len : BitVec 12) (s : State), (alone s c.val r w (.movIn reg roff pml len)) ∧ (gread s r.job.ctx.val (gaSpace (r.region reg).base) (gaOff (r.region reg).base + roff.toNat * 64) (PitchInstr.lines len * 64) = none)) ∧
    (∃ (c : CoreId) (w : DWord) (r : Run) (src : BitVec 15) (dst : BitVec 15) (len : BitVec 12) (s : State), (alone s c.val r w (.movLocal src dst len))) ∧
    (∃ (c : CoreId) (w : DWord) (r : Run) (ch : BitVec 4) (pml : BitVec 15) (len : BitVec 12) (bs : List Byte) (q : Chan) (s : State), (alone s c.val r w (.rcv ch pml len)) ∧ (q = s.chan r.job.ctx.val ch.toNat) ∧ (r.takenOf ch.toNat + PitchInstr.lines len ≤ (q.wp - q.rp).toNat) ∧ (chanLines s r.job.ctx.val ch.toNat (q.rp.toNat + r.takenOf ch.toNat) (PitchInstr.lines len) = some bs)) ∧
    (∃ (c : CoreId) (w : DWord) (r : Run) (ch : BitVec 4) (pml : BitVec 15) (len : BitVec 12) (q : Chan) (s : State), (alone s c.val r w (.rcv ch pml len)) ∧ (q = s.chan r.job.ctx.val ch.toNat) ∧ ((q.wp - q.rp).toNat < r.takenOf ch.toNat + PitchInstr.lines len)) :=
  ⟨⟨(0 : CoreId), (PitchInstr.encode (.movIn 0 0 0 1) : DWord), ({ zr with job := { zj with desc := { zd with regions := [{ base := 0x2000000000000000, len := 4096, kind := 1 }] } } } : Run), (0 : BitVec 3), (0 : BitVec 26), (0 : BitVec 15), (1 : BitVec 12), ((List.replicate 64 0) : List Byte), ((((Z.onCore 0 (fun o => { o with run := some { zr with job := { zj with desc := { zd with regions := [{ base := 0x2000000000000000, len := 4096, kind := 1 }] } } }, ibuf := [PitchInstr.encode (.movIn 0 0 0 1)], pstate := .run })).onCtl 0 (fun o => { o with bal := 1000 })).onCx 0 (fun o => { o with hbmSize := 100 }))), by unfold alone poised unwatched; decide +kernel⟩,
   ⟨(0 : CoreId), (PitchInstr.encode (.movIn 0 0 0 1) : DWord), ({ zr with job := { zj with desc := { zd with regions := [{ base := 0x2000000000000000, len := 4096, kind := 1 }] } } } : Run), (0 : BitVec 3), (0 : BitVec 26), (0 : BitVec 15), (1 : BitVec 12), (((Z.onCore 0 (fun o => { o with run := some { zr with job := { zj with desc := { zd with regions := [{ base := 0x2000000000000000, len := 4096, kind := 1 }] } } }, ibuf := [PitchInstr.encode (.movIn 0 0 0 1)], pstate := .run })).onCtl 0 (fun o => { o with bal := 1000 }))), by unfold alone poised unwatched; decide +kernel⟩,
   ⟨(0 : CoreId), (PitchInstr.encode (.movLocal 0 0 0) : DWord), (zr : Run), (0 : BitVec 15), (0 : BitVec 15), (0 : BitVec 12), (((Z.onCore 0 (fun o => { o with run := some zr, ibuf := [PitchInstr.encode (.movLocal 0 0 0)], pstate := .run })).onCtl 0 (fun o => { o with bal := 1000 }))), by unfold alone poised unwatched; decide +kernel⟩,
   ⟨(0 : CoreId), (PitchInstr.encode (.rcv 0 0 1) : DWord), (zr : Run), (0 : BitVec 4), (0 : BitVec 15), (1 : BitVec 12), ((List.replicate 64 0) : List Byte), ((((((Z.onCore 0 (fun o => { o with run := some zr, ibuf := [PitchInstr.encode (.rcv 0 0 1)], pstate := .run })).onCtl 0 (fun o => { o with bal := 1000 })).onCx 0 (fun o => { o with hbmSize := 100 })).onChan 0 0 (fun o => { o with addr := 0x2000000000000000, size := 1, wp := 1 }))).chan (zr : Run).job.ctx.val (0 : BitVec 4).toNat : Chan), (((((Z.onCore 0 (fun o => { o with run := some zr, ibuf := [PitchInstr.encode (.rcv 0 0 1)], pstate := .run })).onCtl 0 (fun o => { o with bal := 1000 })).onCx 0 (fun o => { o with hbmSize := 100 })).onChan 0 0 (fun o => { o with addr := 0x2000000000000000, size := 1, wp := 1 }))), by unfold alone poised unwatched; decide +kernel⟩,
   ⟨(0 : CoreId), (PitchInstr.encode (.rcv 0 0 0) : DWord), (zr : Run), (0 : BitVec 4), (0 : BitVec 15), (0 : BitVec 12), ((((Z.onCore 0 (fun o => { o with run := some zr, ibuf := [PitchInstr.encode (.rcv 0 0 0)], pstate := .run })).onCtl 0 (fun o => { o with bal := 1000 }))).chan (zr : Run).job.ctx.val (0 : BitVec 4).toNat : Chan), (((Z.onCore 0 (fun o => { o with run := some zr, ibuf := [PitchInstr.encode (.rcv 0 0 0)], pstate := .run })).onCtl 0 (fun o => { o with bal := 1000 }))), by unfold alone poised unwatched; decide +kernel⟩⟩

theorem witness_AnchorCommands :
    (∃ (c : CoreId) (w : DWord) (r : Run) (l : BitVec 10) (e0 : BitVec 8) (n : BitVec 9) (s : State), (alone s c.val r w (.ancClr l e0 n))) ∧
    (∃ (c : CoreId) (w : DWord) (r : Run) (e0 : BitVec 8) (n : BitVec 9) (dst : BitVec 21) (cs : BitVec 2) (cc : BitVec 2) (s : State) (k : Core) (es : List Anchor), (alone s c.val r w (.ancExp e0 n dst cs cc)) ∧ (k = s.core c.val) ∧ (es = (List.range n.toNat).flatMap (fun i => (quarterCols cs cc).map (fun a => k.anchor (e0.toNat + i) a)))) ∧
    (∃ (c : CoreId) (w : DWord) (r : Run) (fmt : BitVec 4) (rm : BitVec 3) (clr : Bool) (vr : Bool) (e0 : BitVec 8) (n : BitVec 9) (dst : BitVec 21) (cs : BitVec 2) (cc : BitVec 2) (md : RMode) (s : State) (k : Core) (recs : List (List Byte × Report)) (rep : Report), (alone s c.val r w (.ancRd fmt rm clr vr e0 n dst cs cc)) ∧ (RMode.ofCode rm.toNat = some md) ∧ (k = s.core c.val) ∧ (recs = (List.range n.toNat).map (fun i => rowRecord k fmt.toNat md r.job.desc.id r.ord.toNat (e0.toNat + i) cs cc)) ∧ (rep = joinReports (recs.map (·.2) ++ (List.range n.toNat).flatMap (fun i => (quarterCols cs cc).map (fun a => checkEntry (k.anchor (e0.toNat + i) a)))))) ∧
    (∃ (c : CoreId) (w : DWord) (r : Run) (e0 : BitVec 8) (n : BitVec 9) (src : BitVec 21) (cs : BitVec 2) (cc : BitVec 2) (s : State) (k : Core) (rd : Nat → Nat → RawRec), (alone s c.val r w (.ancMrg e0 n src cs cc)) ∧ (k = s.core c.val) ∧ (cs.toNat + cc.toNat ≤ 3) ∧ (rd = (fun i j => RawRec.ofBytes (k.readPm (src.toNat + 32 * (i * (16 * (cc.toNat + 1)) + j)) 32)))) :=
  ⟨⟨(0 : CoreId), (PitchInstr.encode (.ancClr 0 0 1) : DWord), (zr : Run), (0 : BitVec 10), (0 : BitVec 8), (1 : BitVec 9), (((Z.onCore 0 (fun o => { o with run := some zr, ibuf := [PitchInstr.encode (.ancClr 0 0 1)], pstate := .run })).onCtl 0 (fun o => { o with bal := 1000 }))), by unfold alone poised unwatched; decide +kernel⟩,
   ⟨(0 : CoreId), (PitchInstr.encode (.ancExp 0 1 0 0 0) : DWord), (zr : Run), (0 : BitVec 8), (1 : BitVec 9), (0 : BitVec 21), (0 : BitVec 2), (0 : BitVec 2), (((Z.onCore 0 (fun o => { o with run := some zr, ibuf := [PitchInstr.encode (.ancExp 0 1 0 0 0)], pstate := .run })).onCtl 0 (fun o => { o with bal := 1000 }))), ((((Z.onCore 0 (fun o => { o with run := some zr, ibuf := [PitchInstr.encode (.ancExp 0 1 0 0 0)], pstate := .run })).onCtl 0 (fun o => { o with bal := 1000 }))).core (0 : CoreId).val : Core), ((List.range (1 : BitVec 9).toNat).flatMap (fun i => (quarterCols (0 : BitVec 2) (0 : BitVec 2)).map (fun a => ((((Z.onCore 0 (fun o => { o with run := some zr, ibuf := [PitchInstr.encode (.ancExp 0 1 0 0 0)], pstate := .run })).onCtl 0 (fun o => { o with bal := 1000 }))).core (0 : CoreId).val : Core).anchor ((0 : BitVec 8).toNat + i) a)) : List Anchor), by unfold alone poised unwatched; decide +kernel⟩,
   ⟨(0 : CoreId), (PitchInstr.encode (.ancRd 2 0 false false 0 1 0 0 0) : DWord), (zr : Run), (2 : BitVec 4), (0 : BitVec 3), (false : Bool), (false : Bool), (0 : BitVec 8), (1 : BitVec 9), (0 : BitVec 21), (0 : BitVec 2), (0 : BitVec 2), (.rne : RMode), (((Z.onCore 0 (fun o => { o with run := some zr, ibuf := [PitchInstr.encode (.ancRd 2 0 false false 0 1 0 0 0)], pstate := .run })).onCtl 0 (fun o => { o with bal := 1000 }))), ((((Z.onCore 0 (fun o => { o with run := some zr, ibuf := [PitchInstr.encode (.ancRd 2 0 false false 0 1 0 0 0)], pstate := .run })).onCtl 0 (fun o => { o with bal := 1000 }))).core (0 : CoreId).val : Core), ((List.range (1 : BitVec 9).toNat).map (fun i => rowRecord ((((Z.onCore 0 (fun o => { o with run := some zr, ibuf := [PitchInstr.encode (.ancRd 2 0 false false 0 1 0 0 0)], pstate := .run })).onCtl 0 (fun o => { o with bal := 1000 }))).core (0 : CoreId).val : Core) (2 : BitVec 4).toNat (.rne : RMode) (zr : Run).job.desc.id (zr : Run).ord.toNat ((0 : BitVec 8).toNat + i) (0 : BitVec 2) (0 : BitVec 2)) : List (List Byte × Report)), (joinReports (((List.range (1 : BitVec 9).toNat).map (fun i => rowRecord ((((Z.onCore 0 (fun o => { o with run := some zr, ibuf := [PitchInstr.encode (.ancRd 2 0 false false 0 1 0 0 0)], pstate := .run })).onCtl 0 (fun o => { o with bal := 1000 }))).core (0 : CoreId).val : Core) (2 : BitVec 4).toNat (.rne : RMode) (zr : Run).job.desc.id (zr : Run).ord.toNat ((0 : BitVec 8).toNat + i) (0 : BitVec 2) (0 : BitVec 2)) : List (List Byte × Report)).map (·.2) ++ (List.range (1 : BitVec 9).toNat).flatMap (fun i => (quarterCols (0 : BitVec 2) (0 : BitVec 2)).map (fun a => checkEntry (((((Z.onCore 0 (fun o => { o with run := some zr, ibuf := [PitchInstr.encode (.ancRd 2 0 false false 0 1 0 0 0)], pstate := .run })).onCtl 0 (fun o => { o with bal := 1000 }))).core (0 : CoreId).val : Core).anchor ((0 : BitVec 8).toNat + i) a)))) : Report), by unfold alone poised unwatched; decide +kernel⟩,
   ⟨(0 : CoreId), (PitchInstr.encode (.ancMrg 0 1 0 0 0) : DWord), (zr : Run), (0 : BitVec 8), (1 : BitVec 9), (0 : BitVec 21), (0 : BitVec 2), (0 : BitVec 2), (((Z.onCore 0 (fun o => { o with run := some zr, ibuf := [PitchInstr.encode (.ancMrg 0 1 0 0 0)], pstate := .run })).onCtl 0 (fun o => { o with bal := 1000 }))), ((((Z.onCore 0 (fun o => { o with run := some zr, ibuf := [PitchInstr.encode (.ancMrg 0 1 0 0 0)], pstate := .run })).onCtl 0 (fun o => { o with bal := 1000 }))).core (0 : CoreId).val : Core), ((fun i j => RawRec.ofBytes (((((Z.onCore 0 (fun o => { o with run := some zr, ibuf := [PitchInstr.encode (.ancMrg 0 1 0 0 0)], pstate := .run })).onCtl 0 (fun o => { o with bal := 1000 }))).core (0 : CoreId).val : Core).readPm ((0 : BitVec 21).toNat + 32 * (i * (16 * ((0 : BitVec 2).toNat + 1)) + j)) 32)) : Nat → Nat → RawRec), by refine ⟨?_, ?_, ?_, ?_⟩ <;> first | (unfold alone poised unwatched; decide +kernel) | rfl | decide⟩⟩

theorem witness_PitchRunCommands :
    (∃ (c : CoreId) (s : State), ((s.core c.val).run = none)) ∧
    (∃ (c : CoreId) (r : Run) (s : State), ((s.core c.val).run = some r) ∧ (drained r = true)) ∧
    (∃ (c : CoreId) (r : Run) (s : State), (lone s c.val r) ∧ (drained r = false)) ∧
    (∃ (c : CoreId) (r : Run) (s : State), (lone s c.val r) ∧ (drained r = false) ∧ (r.started = true)) ∧
    (∃ (c : CoreId) (r : Run) (s : State), ((s.core c.val).run = some r) ∧ ((s.core c.val).next = none)) ∧
    (∃ (c : CoreId) (r : Run) (s : State), ((s.core c.val).run = some r) ∧ (r.ended = false ∨ r.flights ≠ [] ∨ (s.ctl c.val).switching = true)) ∧
    (∃ (c : CoreId) (r : Run) (s : State), (lone s c.val r) ∧ (r.ended = true) ∧ (r.flights = []) ∧ ((s.ctl c.val).switching = false) ∧ (r.residue = false) ∧ (r.outs = []) ∧ (r.snds = []) ∧ (r.taken = []) ∧ (r.sigs = [])) ∧
    (∃ (c : CoreId) (r : Run) (s : State), ((s.core c.val).run = some r) ∧ (r.ended = true) ∧ (r.flights = []) ∧ ((s.ctl c.val).switching = false) ∧ (r.residue = false) ∧ (holdsReserve s c.val = true) ∧ (r.snds = []) ∧ (r.taken = []) ∧ (r.outs.all (outOk s r) = true)) ∧
    (∃ (c : CoreId) (r : Run) (ws : List DWord) (s : State), ((s.core c.val).run = some r) ∧ (r.fetched = false) ∧ (segment s r.job = some ws) ∧ (endsInEnd ws = true)) ∧
    (∃ (c : CoreId) (r : Run) (ws : List DWord) (s : State), ((s.core c.val).run = some r) ∧ (r.fetched = false) ∧ (segment s r.job = some ws) ∧ (endsInEnd ws = false)) ∧
    (∃ (c : CoreId) (r : Run) (b : Bool) (s : State), ((s.core c.val).run = some r) ∧ (r.fetched = false) ∧ (b = true ∨ segment s r.job = none)) ∧
    (∃ (c : CoreId) (r : Run) (j : PitchJob) (ws : List DWord) (s : State), ((s.core c.val).run = some r) ∧ (r.fetched = true) ∧ ((s.core c.val).next = some j) ∧ (segment s j = some ws) ∧ (endsInEnd ws = true)) :=
  ⟨⟨(0 : CoreId), ((Z.onCore (0 : CoreId).val (fun o => { o with run := none }))), by decide⟩,
   ⟨(0 : CoreId), ({ zr with ended := true } : Run), ((Z.onCore 0 (fun o => { o with run := some { zr with ended := true } }))), by decide⟩,
   ⟨(0 : CoreId), (zr : Run), ((Z.onCore 0 (fun o => { o with run := some zr }))), by unfold lone; decide⟩,
   ⟨(0 : CoreId), ({ zr with started := true } : Run), ((Z.onCore 0 (fun o => { o with run := some { zr with started := true } }))), by unfold lone; decide⟩,
   ⟨(0 : CoreId), (zr : Run), (((Z.onCore (0 : CoreId).val (fun o => { o with run := some (zr : Run) })).onCore (0 : CoreId).val (fun o => { o with next := none }))), by decide⟩,
   ⟨(0 : CoreId), (zr : Run), ((Z.onCore (0 : CoreId).val (fun o => { o with run := some (zr : Run) }))), by decide⟩,
   ⟨(0 : CoreId), ({ zr with ended := true } : Run), ((Z.onCore 0 (fun o => { o with run := some { zr with ended := true } }))), by unfold lone; decide⟩,
   ⟨(0 : CoreId), ({ zr with ended := true } : Run), (((((Z.onCore (0 : CoreId).val (fun o => { o with run := some ({ zr with ended := true } : Run) })).onCtl (0 : CoreId).val (fun o => { o with switching := false })).onCore 0 (fun o => { o with run := some { zr with ended := true } })).onCtl 0 (fun o => { o with bal := 1000 }))), by decide⟩,
   ⟨(0 : CoreId), ({ job := { zj with desc := { zd with progBase := 0x2000000000000000 } } } : Run), ([0xFC00000000000000] : List DWord), (((((Z.onCore (0 : CoreId).val (fun o => { o with run := some ({ job := { zj with desc := { zd with progBase := 0x2000000000000000 } } } : Run) })).onCore 0 (fun o => { o with run := some { job := { zj with desc := { zd with progBase := 0x2000000000000000 } } } })).onCx 0 (fun o => { o with hbmSize := 100 })).onHbm (fun o => { o with mem := [(7, 0xFC)] }))), by decide⟩,
   ⟨(0 : CoreId), ({ job := { zj with desc := { zd with progBase := 0x2000000000000000 } } } : Run), ([0] : List DWord), ((((Z.onCore (0 : CoreId).val (fun o => { o with run := some ({ job := { zj with desc := { zd with progBase := 0x2000000000000000 } } } : Run) })).onCore 0 (fun o => { o with run := some { job := { zj with desc := { zd with progBase := 0x2000000000000000 } } } })).onCx 0 (fun o => { o with hbmSize := 100 }))), by decide⟩,
   ⟨(0 : CoreId), ({ zr with fetched := false } : Run), (true : Bool), ((Z.onCore 0 (fun o => { o with run := some { zr with fetched := false } }))), by decide⟩,
   ⟨(0 : CoreId), (zr : Run), ({ zj with desc := { zd with progBase := 0x2000000000000000 } } : PitchJob), ([0xFC00000000000000] : List DWord), (((((((Z.onCore (0 : CoreId).val (fun o => { o with run := some (zr : Run) })).onCore (0 : CoreId).val (fun o => { o with next := some ({ zj with desc := { zd with progBase := 0x2000000000000000 } } : PitchJob) })).onCore 0 (fun o => { o with run := some zr })).onCx 0 (fun o => { o with hbmSize := 100 })).onHbm (fun o => { o with mem := [(7, 0xFC)] })).onCore 0 (fun o => { o with run := some zr, next := some { zj with desc := { zd with progBase := 0x2000000000000000 } } }))), by decide⟩⟩

theorem witness_CoreControlCommands :
    (∃ (l : CoreId) (c : CoreId) (x : CtxId) (j : PitchJob) (s : State), (physOf s l.val = some c.val) ∧ ((s.ctl c.val).owner = some x) ∧ ((s.cx x.val).queue.find? (fun j => j.lcore.toNat == l.val) = some j) ∧ (coreOpen s c.val = true) ∧ (heldByPage s j = false) ∧ (shared s x l.val = false) ∧ ((s.core c.val).run = none) ∧ ((s.core c.val).next = none)) ∧
    (∃ (l : CoreId) (c : CoreId) (x : CtxId) (j : PitchJob) (s : State), (physOf s l.val = some c.val) ∧ ((s.ctl c.val).owner = some x) ∧ ((s.cx x.val).queue.find? (fun j => j.lcore.toNat == l.val) = some j) ∧ (coreOpen s c.val = true) ∧ (heldByPage s j = false) ∧ (shared s x l.val = false) ∧ ((s.core c.val).run ≠ none) ∧ ((s.core c.val).next = none)) ∧
    (∃ (l : CoreId) (c : CoreId) (x : CtxId) (j : PitchJob) (s : State), (physOf s l.val = some c.val) ∧ ((s.ctl c.val).owner = some x) ∧ ((s.cx x.val).queue.find? (fun j => j.lcore.toNat == l.val) = some j) ∧ (coreOpen s c.val = true) ∧ (heldByPage s j = false) ∧ (shared s x l.val = false) ∧ ((s.core c.val).next ≠ none)) ∧
    (∃ (l : CoreId) (s : State), ((physOf s l.val = none ∨ (∃ c, physOf s l.val = some c ∧ (coreOpen s c = false ∨ (s.ctl c).owner = none))))) ∧
    (∃ (c : CoreId) (s : State), ((s.ctl c.val).dbgHalt = false)) ∧
    (∃ (c : CoreId) (s : State), ((s.ctl c.val).dbgHalt = true)) ∧
    (∃ (c : CoreId) (s : State), ((s.ctl c.val).halt = true ∨ (s.ctl c.val).dbgHalt = true) ∧ ((s.ctl c.val).halted = false) ∧ ((s.ctl c.val).stepping = false)) ∧
    (∃ (c : CoreId) (s : State), (((s.ctl c.val).halt = false ∧ (s.ctl c.val).dbgHalt = false) ∨ (s.ctl c.val).halted = true ∨ (s.ctl c.val).stepping = true)) ∧
    (∃ (c : CoreId) (u : Fin 6) (r : Run) (f : Flight) (s : State), ((s.core c.val).run = some r) ∧ (holdsReserve s c.val = false) ∧ (s.dbg.tracing.contains c.val = false) ∧ ((u.val = 2 ∨ u.val = 3 ∨ u.val = 4)) ∧ (oldestDone r u.val = some f)) ∧
    (∃ (c : CoreId) (u : Fin 6) (r : Run) (s : State), ((s.core c.val).run = some r) ∧ (holdsReserve s c.val = false) ∧ (s.dbg.tracing.contains c.val = false) ∧ (u.val = 0 ∨ u.val = 1 ∨ u.val = 5 ∨ oldestDone r u.val = none)) ∧
    (∃ (c : CoreId) (r : Run) (ctr : BitVec 6) (target : Word) (s : State), ((s.core c.val).run = some r) ∧ (((s.core c.val).ibuf[(s.core c.val).pc.toNat - 1]?).bind PitchInstr.decode = some (.watBar ctr target)) ∧ ((s.core c.val).pstate = .waitBarrier) ∧ ((fget 0 (s.cx r.job.ctx.val).bars ctr.toNat - target).toNat < 2 ^ 31)) ∧
    (∃ (c : CoreId) (r : Run) (ctr : BitVec 6) (target : Word) (s : State), ((s.core c.val).run = some r) ∧ (((s.core c.val).ibuf[(s.core c.val).pc.toNat - 1]?).bind PitchInstr.decode = some (.watBar ctr target)) ∧ ((s.core c.val).pstate ≠ .waitBarrier ∨ 2 ^ 31 ≤ (fget 0 (s.cx r.job.ctx.val).bars ctr.toNat - target).toNat)) ∧
    (∃ (c : CoreId) (r : Run) (us : BitVec 5) (s : State), ((s.core c.val).run = some r) ∧ (r.waitUnits = some us)) :=
  ⟨⟨(0 : CoreId), (0 : CoreId), (0 : CtxId), (zj : PitchJob), (((((((Z.onCtl (0 : CoreId).val (fun o => { o with owner := some (0 : CtxId) })).onCore (0 : CoreId).val (fun o => { o with run := none })).onCore (0 : CoreId).val (fun o => { o with next := none })).onCtl 0 (fun o => { o with st := .active, logical := 0, owner := some 0 })).onCx 0 (fun o => { o with st := .enabled, team := 1, queue := [zj] })).onCtxBlk (fun o => { o with live := [(0, { mask := 1 })] }))), by refine ⟨?_, ?_, ?_, ?_, ?_, ?_, ?_, ?_⟩ <;> first | decide +kernel | rfl⟩,
   ⟨(0 : CoreId), (0 : CoreId), (0 : CtxId), (zj : PitchJob), (((((((Z.onCtl (0 : CoreId).val (fun o => { o with owner := some (0 : CtxId) })).onCore (0 : CoreId).val (fun o => { o with next := none })).onCtl 0 (fun o => { o with st := .active, logical := 0, owner := some 0 })).onCx 0 (fun o => { o with st := .enabled, team := 1, queue := [zj] })).onCtxBlk (fun o => { o with live := [(0, { mask := 1 })] })).onCore 0 (fun o => { o with run := some zr }))), by refine ⟨?_, ?_, ?_, ?_, ?_, ?_, ?_, ?_⟩ <;> first | decide +kernel | rfl⟩,
   ⟨(0 : CoreId), (0 : CoreId), (0 : CtxId), (zj : PitchJob), ((((((Z.onCtl (0 : CoreId).val (fun o => { o with owner := some (0 : CtxId) })).onCtl 0 (fun o => { o with st := .active, logical := 0, owner := some 0 })).onCx 0 (fun o => { o with st := .enabled, team := 1, queue := [zj] })).onCtxBlk (fun o => { o with live := [(0, { mask := 1 })] })).onCore 0 (fun o => { o with next := some zj }))), by refine ⟨?_, ?_, ?_, ?_, ?_, ?_, ?_⟩ <;> first | decide +kernel | rfl⟩,
   ⟨(0 : CoreId), (Z), by decide⟩,
   ⟨(0 : CoreId), ((Z.onCtl (0 : CoreId).val (fun o => { o with dbgHalt := false }))), by decide⟩,
   ⟨(0 : CoreId), ((Z.onCtl (0 : CoreId).val (fun o => { o with dbgHalt := true }))), by decide⟩,
   ⟨(0 : CoreId), ((((Z.onCtl (0 : CoreId).val (fun o => { o with halt := true })).onCtl (0 : CoreId).val (fun o => { o with halted := false })).onCtl (0 : CoreId).val (fun o => { o with stepping := false }))), by decide⟩,
   ⟨(0 : CoreId), (Z), by decide⟩,
   ⟨(0 : CoreId), (2 : Fin 6), ({ zr with flights := [{ zf with unit := 2 }] } : Run), ({ zf with unit := 2 } : Flight), ((Z.onCore 0 (fun o => { o with run := some { zr with flights := [{ zf with unit := 2 }] } }))), by decide⟩,
   ⟨(0 : CoreId), (0 : Fin 6), (zr : Run), ((Z.onCore (0 : CoreId).val (fun o => { o with run := some (zr : Run) }))), by decide⟩,
   ⟨(0 : CoreId), (zr : Run), (0 : BitVec 6), (0 : Word), ((Z.onCore 0 (fun o => { o with run := some zr, ibuf := [PitchInstr.encode (.watBar 0 0)], pc := 1, pstate := .waitBarrier }))), by decide⟩,
   ⟨(0 : CoreId), (zr : Run), (0 : BitVec 6), (0 : Word), ((Z.onCore 0 (fun o => { o with run := some zr, ibuf := [PitchInstr.encode (.watBar 0 0)], pc := 1, pstate := .run }))), by decide⟩,
   ⟨(0 : CoreId), ({ zr with waitUnits := some 0 } : Run), (0 : BitVec 5), ((Z.onCore 0 (fun o => { o with run := some { zr with waitUnits := some 0 } }))), by decide⟩⟩

theorem witness_MeshCommands :
    (∃ (hdr : BitVec 128) (payload : List Byte), (crcOk hdr payload = true) ∧ ((MHdr.ofBits hdr).poison = false)) ∧
    (∃ (hdr : BitVec 128) (payload : List Byte), ((crcOk hdr payload = false ∨ (MHdr.ofBits hdr).poison = true)) ∧ ((MHdr.ofBits hdr).attempt < 3)) ∧
    (∃ (hdr : BitVec 128) (payload : List Byte), ((crcOk hdr payload = false ∨ (MHdr.ofBits hdr).poison = true)) ∧ (3 ≤ (MHdr.ofBits hdr).attempt)) ∧
    (∃ (hdr : BitVec 128) (s : State) (p : _) (vc : _), (crcOk hdr [] = true) ∧ (targetPhys (MHdr.ofBits hdr).dst (MHdr.ofBits hdr).addr = some p) ∧ (channelFor s 1 (MHdr.ofBits hdr).dst (MHdr.ofBits hdr).src = some vc)) ∧
    (∃ (hdr : BitVec 128) (s : State) (vc : _), (crcOk hdr [] = false) ∧ (channelFor s 1 (MHdr.ofBits hdr).dst (MHdr.ofBits hdr).src = some vc)) ∧
    (∃ (hdr : BitVec 128) (payload : List Byte) (p : Phys) (vc : Nat) (s : State), (targetPhys (MHdr.ofBits hdr).dst (MHdr.ofBits hdr).addr = some p) ∧ (channelFor s 1 (MHdr.ofBits hdr).dst (MHdr.ofBits hdr).src = some vc) ∧ (crcOk hdr payload = true) ∧ ((p.hbm = true ∨ (fget {} s.ledge.banks (p.addr / 2 ^ 20)).st ≠ 3)) ∧ ((MHdr.ofBits hdr).poison = false)) ∧
    (∃ (hdr : BitVec 128) (payload : List Byte) (p : Phys) (vc : Nat) (s : State), (targetPhys (MHdr.ofBits hdr).dst (MHdr.ofBits hdr).addr = some p) ∧ (channelFor s 1 (MHdr.ofBits hdr).dst (MHdr.ofBits hdr).src = some vc) ∧ ((crcOk hdr payload = false ∨ (p.hbm = false ∧ (fget {} s.ledge.banks (p.addr / 2 ^ 20)).st = 3)))) ∧
    (∃ (hdr : BitVec 128), ((MHdr.ofBits hdr).attempt < 3)) ∧
    (∃ (hdr : BitVec 128) (hop : Option (CoreId × Fin 5)) (s : State), (3 ≤ (MHdr.ofBits hdr).attempt) ∧ ((s.core (MHdr.ofBits hdr).dst).run = none) ∧ (hop = none)) ∧
    (∃ (g : BitVec 12) (s : State), ((fget {} s.ledge.banks g.toNat).st = 1)) ∧
    (∃ (g : BitVec 12) (s : State), ((fget {} s.ledge.banks g.toNat).st ≠ 1)) ∧
    (∃ (pc : BitVec 8) (s : State), ((fget {} s.hbm.pcs pc.toNat).st = 1)) ∧
    (∃ (pc : BitVec 8) (s : State), ((fget {} s.hbm.pcs pc.toNat).st ≠ 1)) ∧
    (∃ (pc : BitVec 8) (s : State), (s.env.variant.pcs ≤ pc.toNat)) ∧
    (∃ (pc : BitVec 8) (s : State), (pc.toNat < s.env.variant.pcs)) :=
  ⟨⟨((BitVec.ofNat 128 (0 + meshCrc 0 [] * 2 ^ 96)) : BitVec 128), ([] : List Byte), by refine ⟨?_, ?_⟩ <;> first | decide +kernel | rfl⟩,
   ⟨(0 : BitVec 128), ([] : List Byte), by refine ⟨?_, ?_⟩ <;> first | decide +kernel | rfl⟩,
   ⟨(BitVec.ofNat 128 (3 * 2 ^ 43) : BitVec 128), ([] : List Byte), by refine ⟨?_, ?_⟩ <;> first | decide +kernel | rfl⟩,
   ⟨((BitVec.ofNat 128 (1 + meshCrc 1 [] * 2 ^ 96)) : BitVec 128), (Z), ((⟨false, 0⟩ : Phys)), (2), by refine ⟨?_, ?_, ?_⟩ <;> first | decide +kernel | rfl⟩,
   ⟨(0 : BitVec 128), (Z), (2), by refine ⟨?_, ?_⟩ <;> first | decide +kernel | rfl⟩,
   ⟨((BitVec.ofNat 128 (1 + meshCrc 1 [] * 2 ^ 96)) : BitVec 128), ([] : List Byte), ((⟨false, 0⟩ : Phys) : Phys), (2 : Nat), (Z), by refine ⟨?_, ?_, ?_, ?_, ?_⟩ <;> first | decide +kernel | rfl⟩,
   ⟨(1 : BitVec 128), ([] : List Byte), ((⟨false, 0⟩ : Phys) : Phys), (2 : Nat), (Z), by refine ⟨?_, ?_, ?_⟩ <;> first | decide +kernel | rfl⟩,
   ⟨(0 : BitVec 128), by decide⟩,
   ⟨(BitVec.ofNat 128 (3 * 2 ^ 43) : BitVec 128), (none : Option (CoreId × Fin 5)), (Z), by decide⟩,
   ⟨(0 : BitVec 12), ((Z.onLedge (fun o => { o with banks := [(0, { st := 1 })] }))), by decide⟩,
   ⟨(0 : BitVec 12), (Z), by decide⟩,
   ⟨(0 : BitVec 8), ((Z.onHbm (fun o => { o with pcs := [(0, { st := 1 })] }))), by decide⟩,
   ⟨(0 : BitVec 8), (Z), by decide⟩,
   ⟨(255 : BitVec 8), ((Z.onEnv (fun o => { o with variant := .m712 }))), by decide⟩,
   ⟨(0 : BitVec 8), (Z), by decide⟩⟩

theorem witness_ArbiterCommands :
    (∃ (a : ArbId) (req : BitVec 8), (ArbId.has a req.toNat = false)) ∧
    (∃ (a : ArbId) (req : BitVec 8) (s : State), (ArbId.has a req.toNat = true) ∧ ((fget [] (s.arb a.key).queues req.toNat).length < 4) ∧ (a = .pwr ∨ (s.arb a.key).holder ≠ none)) ∧
    (∃ (a : ArbId) (req : BitVec 8) (s : State) (r : _), (ArbId.has a req.toNat = true) ∧ (a ≠ .pwr) ∧ ((s.arb a.key).holder = none) ∧ (winner (arbQueue a req.toNat s) a = some r) ∧ (classLeft s a ≠ 0)) ∧
    (∃ (a : ArbId) (s : State), ((s.arb a.key).holder = none)) ∧
    (∃ (a : ArbId) (r : Nat) (s : State), ((s.arb a.key).holder = some r)) ∧
    (∃ (a : ArbId) (r : Nat) (s : State), ((s.arb a.key).holder = some r) ∧ (maxHoldOf s a = 0)) ∧
    (∃ (a : ArbId) (r : Nat) (s : State), ((s.arb a.key).holder = some r) ∧ (maxHoldOf s a ≠ 0)) ∧
    (∃ (a : ArbId) (req : BitVec 8) (h : ArbReq) (q : List ArbReq) (s : State), (fget [] (s.arb a.key).queues req.toNat = h :: q) ∧ (h.aged = false) ∧ ((s.arb a.key).holder ≠ some req.toNat)) ∧
    (∃ (a : ArbId) (req : BitVec 8) (h : ArbReq) (q : List ArbReq) (s : State), (fget [] (s.arb a.key).queues req.toNat = h :: q) ∧ (h.aged = true ∨ (s.arb a.key).holder = some req.toNat)) ∧
    (∃ (a : ArbId) (req : BitVec 8) (s : State), (fget [] (s.arb a.key).queues req.toNat = [])) :=
  ⟨⟨(.fab 0 : ArbId), (255 : BitVec 8), by decide⟩,
   ⟨(.pwr : ArbId), (0 : BitVec 8), (Z), by decide⟩,
   ⟨(.fab 0 : ArbId), (0 : BitVec 8), ((Z.onPwr (fun o => { o with resv := { fab := [(0, 1)] } }))), (0), by decide⟩,
   ⟨(.fab 0 : ArbId), (Z), by decide⟩,
   ⟨(.fab 0 : ArbId), (0 : Nat), (((Z.setArb (ArbId.fab 0).key { holder := some 0 }))), by decide⟩,
   ⟨(.fab 0 : ArbId), (0 : Nat), (((Z.setArb (ArbId.fab 0).key { holder := some 0, maxHold := some 0 }))), by decide⟩,
   ⟨(.fab 0 : ArbId), (0 : Nat), (((Z.setArb (ArbId.fab 0).key { holder := some 0, maxHold := some 1 }))), by decide⟩,
   ⟨(.fab 0 : ArbId), (0 : BitVec 8), ({ t := 0, aged := false } : ArbReq), ([] : List ArbReq), (((Z.setArb (ArbId.fab 0).key { queues := [(0, [{ t := 0 }])] }))), by decide⟩,
   ⟨(.fab 0 : ArbId), (0 : BitVec 8), ({ t := 0, aged := true } : ArbReq), ([] : List ArbReq), (((Z.setArb (ArbId.fab 0).key { queues := [(0, [{ t := 0, aged := true }])] }))), by decide⟩,
   ⟨(.fab 0 : ArbId), (0 : BitVec 8), (Z), by decide⟩⟩

theorem witness_DebugCommands :
    (∃ (s : State), (¬ s.dbg.sel.toNat < 208)) ∧
    (∃ (c : Nat) (s : State), (s.dbg.sel.toNat = c) ∧ (c < 208)) ∧
    (∃ (c : Nat) (s : State), (s.dbg.sel.toNat = c) ∧ (c < 208) ∧ ((s.ctl c).halt = false)) ∧
    (∃ (c : Nat) (s : State), (s.dbg.sel.toNat = c) ∧ (c < 208) ∧ ((s.ctl c).halt = true)) ∧
    (∃ (c : Nat) (s : State), (s.dbg.sel.toNat = c) ∧ (c < 208) ∧ ((s.ctl c).halted = true)) ∧
    (∃ (c : Nat) (s : State), (s.dbg.sel.toNat = c) ∧ (c < 208) ∧ ((s.ctl c).halted = false)) ∧
    (∃ (c : Nat) (s : State), (s.dbg.sel.toNat = c) ∧ (c < 208) ∧ (s.dbg.space.toNat = 3 ∨ s.dbg.space.toNat = 4 ∨ s.dbg.space.toNat = 5 ∨ s.dbg.space.toNat = 6) ∧ (masked s c = true)) :=
  ⟨⟨((Z.onDbg (fun o => { o with sel := 255 }))), by decide⟩,
   ⟨(0 : Nat), (Z), by decide⟩,
   ⟨(0 : Nat), ((Z.onCtl (0 : Nat) (fun o => { o with halt := false }))), by decide⟩,
   ⟨(0 : Nat), ((Z.onCtl (0 : Nat) (fun o => { o with halt := true }))), by decide⟩,
   ⟨(0 : Nat), ((Z.onCtl (0 : Nat) (fun o => { o with halted := true }))), by decide⟩,
   ⟨(0 : Nat), ((Z.onCtl (0 : Nat) (fun o => { o with halted := false }))), by decide⟩,
   ⟨(0 : Nat), ((((Z.onDbg (fun o => { o with space := 3 })).onCtl 0 (fun o => { o with owner := some 0 })).onSx 0 (fun o => { o with sealedCtx := true }))), by decide⟩⟩

theorem witness_PortCommands :
    (∃ (p : PortId) (s : State), (s.env.variant.ports ≤ p.val)) ∧
    (∃ (p : PortId) (s : State), (p.val < s.env.variant.ports) ∧ ((s.port p.val).st = .down) ∧ (s.fab.nodeV = true)) ∧
    (∃ (p : PortId) (s : State), (p.val < s.env.variant.ports) ∧ ((s.port p.val).st ≠ .down ∨ s.fab.nodeV = false)) ∧
    (∃ (p : PortId) (s : State), ((s.port p.val).st ≠ .training)) ∧
    (∃ (p : PortId) (lanes : BitVec 4) (s : State), ((s.port p.val).st = .training) ∧ (3 ≤ laneCount (lanes &&& ~~~(s.port p.val).lanesRet)) ∧ (3 ≤ laneCount (~~~(s.port p.val).lanesRet)) ∧ (s.sec.trngFailX = false)) ∧
    (∃ (p : PortId) (lanes : BitVec 4) (s : State), ((s.port p.val).st = .training) ∧ (3 ≤ laneCount (lanes &&& ~~~(s.port p.val).lanesRet)) ∧ (3 ≤ laneCount (~~~(s.port p.val).lanesRet)) ∧ (s.sec.trngFailX = true)) ∧
    (∃ (p : PortId) (lanes : BitVec 4) (s : State), ((s.port p.val).st = .training) ∧ (laneCount (lanes &&& ~~~(s.port p.val).lanesRet) < 3) ∧ (s.fab.held = [])) ∧
    (∃ (p : PortId) (s : State), ((s.port p.val).carries = true) ∧ (s.sec.trngFailX = false)) ∧
    (∃ (p : PortId) (s : State), ((s.port p.val).carries = true)) ∧
    (∃ (p : PortId) (s : State), ((s.port p.val).st ≠ .keying ∨ (s.port p.val).txReady = false ∨ (s.port p.val).rxReady = false)) ∧
    (∃ (p : PortId) (s : State), ((s.port p.val).st = .keying) ∧ ((s.port p.val).txReady = true) ∧ ((s.port p.val).rxReady = true) ∧ (s.fab.held = [])) ∧
    (∃ (p : PortId) (s : State), ((s.port p.val).st ≠ .training) ∧ ((s.port p.val).st ≠ .keying)) ∧
    (∃ (p : PortId) (s : State), ((s.port p.val).st = .training ∨ (s.port p.val).st = .keying) ∧ ((s.port p.val).attempts + 1 < 3)) ∧
    (∃ (p : PortId) (s : State), ((s.port p.val).st = .training ∨ (s.port p.val).st = .keying) ∧ (3 ≤ (s.port p.val).attempts + 1) ∧ (s.fab.held = [])) ∧
    (∃ (p : PortId) (s : State), ((s.port p.val).st = .down ∨ (s.port p.val).st = .failed)) ∧
    (∃ (p : PortId) (s : State), ((s.port p.val).st = .reset)) ∧
    (∃ (p : PortId) (s : State), ((s.port p.val).carries = true) ∧ (s.fab.held = [])) ∧
    (∃ (p : PortId) (s : State), ((s.port p.val).carries = true) ∧ ((s.port p.val).rotating = false)) ∧
    (∃ (p : PortId) (s : State), ((s.port p.val).carries = false ∨ (s.port p.val).rotating = true)) ∧
    (∃ (p : PortId) (s : State), ((s.port p.val).rotating = false) ∧ ((s.port p.val).rxNext = false)) ∧
    (∃ (p : PortId) (s : State), ((s.port p.val).rotating = true ∨ (s.port p.val).rxNext = true) ∧ ((s.port p.val).carries = true) ∧ (s.fab.held = [])) :=
  ⟨⟨(0 : PortId), ((Z.onEnv (fun o => { o with variant := .m712 }))), by decide⟩,
   ⟨(0 : PortId), (((Z.onPort (0 : PortId).val (fun o => { o with st := .down })).onFab (fun o => { o with nodeV := true }))), by decide⟩,
   ⟨(0 : PortId), (Z), by decide⟩,
   ⟨(0 : PortId), (Z), by decide⟩,
   ⟨(0 : PortId), (0xF : BitVec 4), ((((Z.onPort (0 : PortId).val (fun o => { o with st := .training })).onSec (fun o => { o with trngFailX := false })).onPort 0 (fun o => { o with st := .training }))), by decide⟩,
   ⟨(0 : PortId), (0xF : BitVec 4), (((((Z.onPort (0 : PortId).val (fun o => { o with st := .training })).onSec (fun o => { o with trngFailX := true })).onPort 0 (fun o => { o with st := .training })).onSec (fun o => { o with trngFailX := true }))), by decide⟩,
   ⟨(0 : PortId), (0 : BitVec 4), (((Z.onPort (0 : PortId).val (fun o => { o with st := .training })).onFab (fun o => { o with held := [] }))), by decide⟩,
   ⟨(0 : PortId), (((Z.onPort (0 : PortId).val (fun o => { o with st := .up })).onSec (fun o => { o with trngFailX := false }))), by decide⟩,
   ⟨(0 : PortId), ((Z.onPort (0 : PortId).val (fun o => { o with st := .up }))), by decide⟩,
   ⟨(0 : PortId), (Z), by decide⟩,
   ⟨(0 : PortId), (((((Z.onPort (0 : PortId).val (fun o => { o with st := .keying })).onPort (0 : PortId).val (fun o => { o with txReady := true })).onPort (0 : PortId).val (fun o => { o with rxReady := true })).onFab (fun o => { o with held := [] }))), by decide⟩,
   ⟨(0 : PortId), (Z), by decide⟩,
   ⟨(0 : PortId), ((Z.onPort (0 : PortId).val (fun o => { o with st := .training }))), by decide⟩,
   ⟨(0 : PortId), ((((Z.onPort (0 : PortId).val (fun o => { o with st := .training })).onFab (fun o => { o with held := [] })).onPort 0 (fun o => { o with st := .training, attempts := 2 }))), by decide⟩,
   ⟨(0 : PortId), ((Z.onPort (0 : PortId).val (fun o => { o with st := .down }))), by decide⟩,
   ⟨(0 : PortId), ((Z.onPort (0 : PortId).val (fun o => { o with st := .reset }))), by decide⟩,
   ⟨(0 : PortId), (((Z.onPort (0 : PortId).val (fun o => { o with st := .up })).onFab (fun o => { o with held := [] }))), by decide⟩,
   ⟨(0 : PortId), (((Z.onPort (0 : PortId).val (fun o => { o with st := .up })).onPort (0 : PortId).val (fun o => { o with rotating := false }))), by decide⟩,
   ⟨(0 : PortId), ((Z.onPort (0 : PortId).val (fun o => { o with st := .down }))), by decide⟩,
   ⟨(0 : PortId), (((Z.onPort (0 : PortId).val (fun o => { o with rotating := false })).onPort (0 : PortId).val (fun o => { o with rxNext := false }))), by decide⟩,
   ⟨(0 : PortId), ((((Z.onPort (0 : PortId).val (fun o => { o with rotating := true })).onPort (0 : PortId).val (fun o => { o with st := .up })).onFab (fun o => { o with held := [] }))), by decide⟩⟩

theorem witness_LinkWordCommands :
    (∃ (p : PortId) (s : State), ((s.port p.val).carries = false)) ∧
    (∃ (p : PortId) (s : State), ((s.port p.val).carries = false) ∧ ((s.port p.val).st ≠ .reset)) ∧
    (∃ (p : PortId) (blocks : List FabBlock) (s : State), ((s.port p.val).carries = true) ∧ ((blocks.all (fun b => b.crc == blockCrc b)) = false ∨ inSequence (s.port p.val).rxExp blocks = false ∨ blocks = [] ∨ 8 < blocks.length)) ∧
    (∃ (p : PortId) (blocks : List FabBlock) (tag : BitVec 128) (gen : Nat) (run : Nat) (s : State), ((s.port p.val).carries = true) ∧ ((blocks.all (fun b => b.crc == blockCrc b)) = true) ∧ (inSequence (s.port p.val).rxExp blocks = true) ∧ (blocks ≠ []) ∧ (blocks.length ≤ 8) ∧ ((blocks.all (fun b => b.ke == (blocks.map (·.ke)).headD false)) = true) ∧ (rxKey (s.port p.val) ((blocks.map (·.ke)).headD false) = some (gen, run)) ∧ (tag = runTag p.val false gen run blocks) ∧ ((s.port p.val).auditWait = [])) ∧
    (∃ (p : PortId) (s : State), ((s.port p.val).carries = true) ∧ ((s.port p.val).newFirst = none) ∧ ((s.port p.val).txq = [])) ∧
    (∃ (p : PortId) (n : BitVec 12) (s : State), ((s.port p.val).carries = true) ∧ ((s.port p.val).retry.find? (fun r => r.first == n) = none)) ∧
    (∃ (p : PortId) (s : State), ((s.port p.val).carries = true) ∧ ((s.port p.val).retry = [])) ∧
    (∃ (p : PortId) (n : BitVec 12) (s : State) (r : _), ((s.port p.val).carries = true) ∧ ((s.port p.val).retry.find? (fun r => r.first == n) = some r) ∧ (r.resent + 1 < 8)) ∧
    (∃ (p : PortId) (s : State) (r : _) (rs : _), ((s.port p.val).carries = true) ∧ ((s.port p.val).retry = r :: rs) ∧ (r.resent + 1 < 8)) ∧
    (∃ (p : PortId) (s : State), ((s.port p.val).carries = true)) ∧
    (∃ (p : PortId) (l : BitVec 12) (s : State), ((s.port p.val).carries = true) ∧ (lastAccepted (s.port p.val) ≠ l)) ∧
    (∃ (p : PortId) (vl : VlId) (k : Word) (sSent : Word) (sCred : Word) (l : BitVec 12) (s : State), ((s.port p.val).carries = true) ∧ (lastAccepted (s.port p.val) = l) ∧ (auditPasses (s.port p.val) vl.val k sSent sCred = true)) ∧
    (∃ (p : PortId) (vl : VlId) (k : Word) (sSent : Word) (sCred : Word) (l : BitVec 12) (s : State), ((s.port p.val).carries = true) ∧ (lastAccepted (s.port p.val) = l) ∧ (auditPasses (s.port p.val) vl.val k sSent sCred = false) ∧ (s.fab.held = [])) ∧
    (∃ (p : PortId) (s : State), ((s.port p.val).st = .reset) ∧ ((s.port p.val).disabling = false) ∧ ((s.port p.val).retrainAfter = true)) ∧
    (∃ (p : PortId) (s : State), ((s.port p.val).st = .reset) ∧ ((s.port p.val).disabling = false) ∧ ((s.port p.val).retrainAfter = true) ∧ ((s.port p.val).exchanged = false)) ∧
    (∃ (p : PortId) (s : State), ((s.port p.val).st = .reset) ∧ ((s.port p.val).disabling = false) ∧ ((s.port p.val).retrainAfter = true) ∧ ((s.port p.val).exchanged = true)) ∧
    (∃ (p : PortId) (s : State), ((s.port p.val).st = .reset) ∧ ((s.port p.val).disabling = false) ∧ ((s.port p.val).retrainAfter = true) ∧ ((s.port p.val).exchanged = false) ∧ ((s.port p.val).retry = []) ∧ ((s.port p.val).partnerV = false)) :=
  ⟨⟨(0 : PortId), ((Z.onPort (0 : PortId).val (fun o => { o with st := .down }))), by decide⟩,
   ⟨(0 : PortId), ((Z.onPort (0 : PortId).val (fun o => { o with st := .down }))), by decide⟩,
   ⟨(0 : PortId), ([] : List FabBlock), ((Z.onPort (0 : PortId).val (fun o => { o with st := .up }))), by decide⟩,
   ⟨(0 : PortId), ([{ zb with crc := blockCrc zb }] : List FabBlock), (runTag 0 false 0 0 [{ zb with crc := blockCrc zb }] : BitVec 128), (0 : Nat), (0 : Nat), ((((Z.onPort (0 : PortId).val (fun o => { o with st := .up })).onPort (0 : PortId).val (fun o => { o with auditWait := [] })).onPort 0 (fun o => { o with st := .up }))), by refine ⟨?_, ?_, ?_, ?_, ?_, ?_, ?_, ?_, ?_⟩ <;> first | decide +kernel | rfl⟩,
   ⟨(0 : PortId), ((((Z.onPort (0 : PortId).val (fun o => { o with st := .up })).onPort (0 : PortId).val (fun o => { o with newFirst := none })).onPort (0 : PortId).val (fun o => { o with txq := [] }))), by decide⟩,
   ⟨(0 : PortId), (0 : BitVec 12), ((Z.onPort (0 : PortId).val (fun o => { o with st := .up }))), by decide⟩,
   ⟨(0 : PortId), (((Z.onPort (0 : PortId).val (fun o => { o with st := .up })).onPort (0 : PortId).val (fun o => { o with retry := [] }))), by decide⟩,
   ⟨(0 : PortId), (0 : BitVec 12), (((Z.onPort (0 : PortId).val (fun o => { o with st := .up })).onPort 0 (fun o => { o with st := .up, retry := [{ first := 0, blocks := [], plain := [], tag := 0 }] }))), (({ first := 0, blocks := [], plain := [], tag := 0 } : FabRun)), by decide⟩,
   ⟨(0 : PortId), ((((Z.onPort (0 : PortId).val (fun o => { o with st := .up })).onPort (0 : PortId).val (fun o => { o with retry := (({ first := 0, blocks := [], plain := [], tag := 0 } : FabRun)) :: (([] : List FabRun)) })).onPort 0 (fun o => { o with st := .up, retry := [{ first := 0, blocks := [], plain := [], tag := 0 }] }))), (({ first := 0, blocks := [], plain := [], tag := 0 } : FabRun)), (([] : List FabRun)), by decide⟩,
   ⟨(0 : PortId), ((Z.onPort (0 : PortId).val (fun o => { o with st := .up }))), by decide⟩,
   ⟨(0 : PortId), (0 : BitVec 12), ((Z.onPort (0 : PortId).val (fun o => { o with st := .up }))), by decide⟩,
   ⟨(0 : PortId), (0 : VlId), (128 : Word), (0 : Word), (0 : Word), (0xFFF : BitVec 12), (((Z.onPort (0 : PortId).val (fun o => { o with st := .up })).onPort 0 (fun o => { o with st := .up }))), by decide⟩,
   ⟨(0 : PortId), (0 : VlId), (0 : Word), (0 : Word), (0 : Word), (0xFFF : BitVec 12), ((((Z.onPort (0 : PortId).val (fun o => { o with st := .up })).onFab (fun o => { o with held := [] })).onPort 0 (fun o => { o with st := .up }))), by decide⟩,
   ⟨(0 : PortId), ((((Z.onPort (0 : PortId).val (fun o => { o with st := .reset })).onPort (0 : PortId).val (fun o => { o with disabling := false })).onPort (0 : PortId).val (fun o => { o with retrainAfter := true }))), by decide⟩,
   ⟨(0 : PortId), (((((Z.onPort (0 : PortId).val (fun o => { o with st := .reset })).onPort (0 : PortId).val (fun o => { o with disabling := false })).onPort (0 : PortId).val (fun o => { o with retrainAfter := true })).onPort (0 : PortId).val (fun o => { o with exchanged := false }))), by decide⟩,
   ⟨(0 : PortId), (((((Z.onPort (0 : PortId).val (fun o => { o with st := .reset })).onPort (0 : PortId).val (fun o => { o with disabling := false })).onPort (0 : PortId).val (fun o => { o with retrainAfter := true })).onPort (0 : PortId).val (fun o => { o with exchanged := true }))), by decide⟩,
   ⟨(0 : PortId), (((((((Z.onPort (0 : PortId).val (fun o => { o with st := .reset })).onPort (0 : PortId).val (fun o => { o with disabling := false })).onPort (0 : PortId).val (fun o => { o with retrainAfter := true })).onPort (0 : PortId).val (fun o => { o with exchanged := false })).onPort (0 : PortId).val (fun o => { o with retry := [] })).onPort (0 : PortId).val (fun o => { o with partnerV := false }))), by decide⟩⟩

theorem witness_FabricBlockCommands :
    (∃ (b : FabBlock) (p : PortId) (s : State), (b ∉ (s.port p.val).rxBuf)) ∧
    (∃ (b : FabBlock) (o : Option CtxId) (s : State) (p : _), (b.dst ≠ s.fab.node) ∧ (s.fab.holding.contains b.dst.toNat = false) ∧ (routeOf s b o = .port p) ∧ (portQuiet s p = true)) ∧
    (∃ (b : FabBlock) (o : Option CtxId) (s : State), (b.dst ≠ s.fab.node) ∧ (s.fab.holding.contains b.dst.toNat = true ∨ routeOf s b o = .wait)) ∧
    (∃ (b : FabBlock) (x : CtxId) (s : State), (b.dst = s.fab.node) ∧ (jobCtx s b.job = some x) ∧ ((s.cx x.val).st = .enabled) ∧ ((s.chan x.val b.ch.toNat).en = true) ∧ ((s.chan x.val b.ch.toNat).broken = false) ∧ (((List.range (b.len.toNat + 1)).any (fun i => meetsSealed s x.val (gaSpace (lineAddr (s.chan x.val b.ch.toNat) ((s.chan x.val b.ch.toNat).wp.toNat + i))) (gaOff (lineAddr (s.chan x.val b.ch.toNat) ((s.chan x.val b.ch.toNat).wp.toNat + i))) 64)) = false) ∧ (hasSpace (s.chan x.val b.ch.toNat) b = true) ∧ ((s.chan x.val b.ch.toNat).waiting = [])) ∧
    (∃ (b : FabBlock) (x : CtxId) (s : State), (b.dst = s.fab.node) ∧ (jobCtx s b.job = some x) ∧ ((s.cx x.val).st = .enabled) ∧ ((s.chan x.val b.ch.toNat).en = true) ∧ ((s.chan x.val b.ch.toNat).broken = false) ∧ (((List.range (b.len.toNat + 1)).any (fun i => meetsSealed s x.val (gaSpace (lineAddr (s.chan x.val b.ch.toNat) ((s.chan x.val b.ch.toNat).wp.toNat + i))) (gaOff (lineAddr (s.chan x.val b.ch.toNat) ((s.chan x.val b.ch.toNat).wp.toNat + i))) 64)) = false) ∧ (hasSpace (s.chan x.val b.ch.toNat) b = false ∨ (s.chan x.val b.ch.toNat).waiting ≠ [])) ∧
    (∃ (x : CtxId) (ch : Fin 16) (s : State), ((s.chan x.val ch.val).waiting = [])) ∧
    (∃ (x : CtxId) (ch : Fin 16) (s : State), ((s.chan x.val ch.val).waiting ≠ [])) ∧
    (∃ (x : CtxId) (ch : Fin 16) (s : State), ((s.chan x.val ch.val).broken = true)) ∧
    (∃ (x : CtxId) (ch : Fin 16) (s : State), ((s.chan x.val ch.val).broken = false)) ∧
    (∃ (b : FabBlock) (s : State), (b.dst = s.fab.node) ∧ (jobCtx s b.job = none)) ∧
    (∃ (b : FabBlock) (s : State) (x : _), (b.dst = s.fab.node) ∧ (jobCtx s b.job = some x) ∧ (s.fab.copies = []) ∧ (s.fab.dlv = [])) ∧
    (∃ (b : FabBlock) (s : State) (r : _), (b.dst = s.fab.node) ∧ (winTarget s b = .inl r)) ∧
    (∃ (b : FabBlock) (s : State) (x : CtxId) (o : Nat), (b.dst = s.fab.node) ∧ (winTarget s b = .inr (x, o))) ∧
    (∃ (b : FabBlock) (s : State) (x : CtxId) (o : Nat) (bs : _), (b.dst = s.fab.node) ∧ (winTarget s b = .inr (x, o)) ∧ (gread s x.val 2 o 256 = some bs)) ∧
    (∃ (b : FabBlock) (s : State) (x : CtxId) (o : Nat), (b.dst = s.fab.node) ∧ (winTarget s b = .inr (x, o)) ∧ (gread s x.val 2 o 256 = none)) ∧
    (∃ (b : FabBlock) (s : State), (b.dst = s.fab.node) ∧ (copyOf s b false = none)) ∧
    (∃ (b : FabBlock) (s : State), (b.dst = s.fab.node) ∧ (copyOf s b true = none)) ∧
    (∃ (b : FabBlock) (s : State) (w : _), (b.dst = s.fab.node) ∧ (copyOf s b false = some w) ∧ (b.poison = true)) ∧
    (∃ (b : FabBlock) (s : State) (w : _), (b.dst = s.fab.node) ∧ (copyOf s b false = some w) ∧ (b.poison = false)) ∧
    (∃ (b : FabBlock) (s : State) (w : _), (b.dst = s.fab.node) ∧ (copyOf s b true = some w) ∧ (w.left.erase (winBlock b) = [])) ∧
    (∃ (b : FabBlock) (s : State) (w : _), (b.dst = s.fab.node) ∧ (copyOf s b true = some w) ∧ (w.left.erase (winBlock b) ≠ [])) ∧
    (∃ (x : CtxId) (s : State), (s.fab.dlv.find? (fun d => d.ctx.val == x.val) = none)) ∧
    (∃ (x : CtxId) (s : State) (d : _), (s.fab.dlv.find? (fun d => d.ctx.val == x.val) = some d) ∧ ((s.fn (fnOf x.val)).hold.length + (s.fn (fnOf x.val)).reserved < 512)) ∧
    (∃ (x : CtxId) (s : State) (d : _), (s.fab.dlv.find? (fun d => d.ctx.val == x.val) = some d) ∧ (512 ≤ (s.fn (fnOf x.val)).hold.length + (s.fn (fnOf x.val)).reserved)) ∧
    (∃ (s : State), (s.fab.held = [])) ∧
    (∃ (node : BitVec 16) (ports : BitVec 16) (s : State), (fget 0 s.fab.routes node.toNat = ports)) ∧
    (∃ (node : BitVec 16) (ports : BitVec 16) (s : State), (fget 0 s.fab.routes node.toNat ≠ ports)) ∧
    (∃ (x : CtxId) (k : Fin 16) (s : State), (s.coll x.val k.val = none)) ∧
    (∃ (x : CtxId) (k : Fin 16) (s : State) (c : _), (s.coll x.val k.val = some c)) ∧
    (∃ (x : CtxId) (k : Fin 16) (s : State) (c : _), (s.coll x.val k.val = some c) ∧ (collReady s x.val c = false)) ∧
    (∃ (x : CtxId) (k : Fin 16) (s : State) (c : _), (s.coll x.val k.val = some c) ∧ (c.status = .denied ∨ c.status = .residue)) ∧
    (∃ (x : CtxId) (k : Fin 16) (s : State) (c : _), (s.coll x.val k.val = some c) ∧ (collReady s x.val c = true) ∧ (c.status = .inexact)) ∧
    (∃ (b : FabBlock) (x : CtxId) (s : State), (b.dst = s.fab.node) ∧ (jobCtx s b.job = some x) ∧ ((s.cx x.val).st = .enabled) ∧ (s.coll x.val b.ch.toNat = none) ∧ ((s.fx x.val).abortedSlots.contains b.ch.toNat = true)) ∧
    (∃ (b : FabBlock) (x : CtxId) (s : State), (b.dst = s.fab.node) ∧ (jobCtx s b.job = some x) ∧ ((s.cx x.val).st = .enabled) ∧ (s.coll x.val b.ch.toNat = none) ∧ ((s.fx x.val).abortedSlots.contains b.ch.toNat = false)) ∧
    (∃ (b : FabBlock) (x : CtxId) (c : Coll) (r : Nat) (s : State), (b.dst = s.fab.node) ∧ (jobCtx s b.job = some x) ∧ ((s.cx x.val).st = .enabled) ∧ (s.coll x.val b.ch.toNat = some c) ∧ (c.op = 2) ∧ ((childrenOf (groupSize s x.val) c.treeRoot (s.fx x.val).rank.toNat).find? (fun r => nodeOfRank s x.val r == some b.src) = some r)) :=
  ⟨⟨(zb : FabBlock), (0 : PortId), (Z), by decide⟩,
   ⟨({ zb with dst := 1 } : FabBlock), (some 0 : Option CtxId), ((((Z.onFab (fun q => { q with routes := [(1, 1)], holding := [] })).onPort 0 (fun q => { q with st := .up })).onCx 0 (fun q => { q with ports := 1, st := .scrubbing }))), (0), by refine ⟨?_, ?_, ?_, ?_⟩ <;> first | decide +kernel | rfl⟩,
   ⟨({ zb with dst := 1 } : FabBlock), (none : Option CtxId), ((Z.onFab (fun q => { q with routes := [(1, 1)], holding := [1] }))), by decide⟩,
   ⟨(zb : FabBlock), (0 : CtxId), ((((((((Z.onCx (0 : CtxId).val (fun o => { o with st := .enabled })).onChan (0 : CtxId).val (zb : FabBlock).ch.toNat (fun o => { o with en := true })).onChan (0 : CtxId).val (zb : FabBlock).ch.toNat (fun o => { o with broken := false })).onChan (0 : CtxId).val (zb : FabBlock).ch.toNat (fun o => { o with waiting := [] })).onChan 0 0 (fun o => { o with en := true, size := 4, addr := 0x2000000000000000 })).onCx 0 (fun o => { o with st := .enabled })).onFx 0 (fun o => { o with valid := true, winEn := true, winSize := 1 }))), by decide⟩,
   ⟨(zb : FabBlock), (0 : CtxId), (((((((Z.onCx (0 : CtxId).val (fun o => { o with st := .enabled })).onChan (0 : CtxId).val (zb : FabBlock).ch.toNat (fun o => { o with en := true })).onChan (0 : CtxId).val (zb : FabBlock).ch.toNat (fun o => { o with broken := false })).onChan 0 0 (fun o => { o with en := true, size := 4, addr := 0x2000000000000000, wp := 4 })).onCx 0 (fun o => { o with st := .enabled })).onFx 0 (fun o => { o with valid := true, winEn := true, winSize := 1 }))), by decide⟩,
   ⟨(0 : CtxId), (0 : Fin 16), ((Z.onChan (0 : CtxId).val (0 : Fin 16).val (fun o => { o with waiting := [] }))), by decide⟩,
   ⟨(0 : CtxId), (0 : Fin 16), ((Z.onChan 0 0 (fun o => { o with waiting := [(zb, none)] }))), by decide⟩,
   ⟨(0 : CtxId), (0 : Fin 16), ((Z.onChan (0 : CtxId).val (0 : Fin 16).val (fun o => { o with broken := true }))), by decide⟩,
   ⟨(0 : CtxId), (0 : Fin 16), ((Z.onChan (0 : CtxId).val (0 : Fin 16).val (fun o => { o with broken := false }))), by decide⟩,
   ⟨(zb : FabBlock), (Z), by decide⟩,
   ⟨(zb : FabBlock), (((((Z.onFab (fun o => { o with copies := [] })).onFab (fun o => { o with dlv := [] })).onCx 0 (fun o => { o with st := .enabled, hbmSize := 4 })).onFx 0 (fun o => { o with valid := true, winEn := true, winSize := 1 }))), ((0 : CtxId)), by decide⟩,
   ⟨(zb : FabBlock), (Z), (2), by decide⟩,
   ⟨(zb : FabBlock), (((Z.onCx 0 (fun q => { q with st := .enabled, hbmSize := 4 })).onFx 0 (fun q => { q with valid := true, winEn := true, winSize := 1 }))), ((0 : CtxId) : CtxId), (0 : Nat), by decide⟩,
   ⟨(zb : FabBlock), (((Z.onCx 0 (fun q => { q with st := .enabled, hbmSize := 4 })).onFx 0 (fun q => { q with valid := true, winEn := true, winSize := 1 }))), ((0 : CtxId) : CtxId), (0 : Nat), ((List.replicate 256 (0 : Byte))), by refine ⟨?_, ?_, ?_⟩ <;> first | decide +kernel | rfl⟩,
   ⟨(zb : FabBlock), ((((Z.onCx 0 (fun q => { q with st := .enabled, hbmSize := 4 })).onFx 0 (fun q => { q with valid := true, winEn := true, winSize := 1 })).onHbm (fun q => { q with poison := [0] }))), ((0 : CtxId) : CtxId), (0 : Nat), by decide⟩,
   ⟨(zb : FabBlock), (Z), by decide⟩,
   ⟨(zb : FabBlock), (Z), by decide⟩,
   ⟨({ zb with poison := true } : FabBlock), ((((Z.onCx 0 (fun o => { o with st := .enabled, hbmSize := 4 })).onFx 0 (fun o => { o with valid := true, winEn := true, winSize := 1 })).onFab (fun o => { o with copies := [{ cmd := z1, ctx := 0, write := false, node := 0, addr := 0, first := 0, left := [0] }] }))), (({ cmd := z1, ctx := 0, write := false, node := 0, addr := 0, first := 0, left := [0] } : WinCopy)), by decide⟩,
   ⟨(zb : FabBlock), ((((Z.onCx 0 (fun o => { o with st := .enabled, hbmSize := 4 })).onFx 0 (fun o => { o with valid := true, winEn := true, winSize := 1 })).onFab (fun o => { o with copies := [{ cmd := z1, ctx := 0, write := false, node := 0, addr := 0, first := 0, left := [0] }] }))), (({ cmd := z1, ctx := 0, write := false, node := 0, addr := 0, first := 0, left := [0] } : WinCopy)), by decide⟩,
   ⟨(zb : FabBlock), ((((Z.onCx 0 (fun o => { o with st := .enabled, hbmSize := 4 })).onFx 0 (fun o => { o with valid := true, winEn := true, winSize := 1 })).onFab (fun o => { o with copies := [{ cmd := z1, ctx := 0, write := true, node := 0, addr := 0, first := 0, left := [0] }] }))), (({ cmd := z1, ctx := 0, write := true, node := 0, addr := 0, first := 0, left := [0] } : WinCopy)), by decide⟩,
   ⟨(zb : FabBlock), ((((Z.onCx 0 (fun o => { o with st := .enabled, hbmSize := 4 })).onFx 0 (fun o => { o with valid := true, winEn := true, winSize := 1 })).onFab (fun o => { o with copies := [{ cmd := z1, ctx := 0, write := true, node := 0, addr := 0, first := 0, left := [0, 1] }] }))), (({ cmd := z1, ctx := 0, write := true, node := 0, addr := 0, first := 0, left := [0, 1] } : WinCopy)), by decide⟩,
   ⟨(0 : CtxId), (Z), by decide⟩,
   ⟨(0 : CtxId), ((Z.onFab (fun o => { o with dlv := [{ ctx := 0, node := 0, job := 0, ch := 0, vl := 0, reason := 0, unknown := false, count := 1, first := 0 }] }))), (({ ctx := 0, node := 0, job := 0, ch := 0, vl := 0, reason := 0, unknown := false, count := 1, first := 0 } : DlvRec)), by decide⟩,
   ⟨(0 : CtxId), (((Z.onFab (fun o => { o with dlv := [{ ctx := 0, node := 0, job := 0, ch := 0, vl := 0, reason := 0, unknown := false, count := 1, first := 0 }] })).onFn 1 (fun o => { o with reserved := 512 }))), (({ ctx := 0, node := 0, job := 0, ch := 0, vl := 0, reason := 0, unknown := false, count := 1, first := 0 } : DlvRec)), by decide⟩,
   ⟨((Z.onFab (fun o => { o with held := [] }))), by decide⟩,
   ⟨(0 : BitVec 16), (0 : BitVec 16), (Z), by decide⟩,
   ⟨(0 : BitVec 16), (1 : BitVec 16), (Z), by decide⟩,
   ⟨(0 : CtxId), (0 : Fin 16), (Z), by decide⟩,
   ⟨(0 : CtxId), (0 : Fin 16), (((Z.setColl (0 : CtxId).val (0 : Fin 16).val (some ((zc : Coll)))).onFx 0 (fun o => { o with colls := [(0, some zc)] }))), ((zc : Coll)), by decide⟩,
   ⟨(0 : CtxId), (0 : Fin 16), (((Z.setColl (0 : CtxId).val (0 : Fin 16).val (some ((zc : Coll)))).onFx 0 (fun o => { o with colls := [(0, some zc)] }))), ((zc : Coll)), by decide⟩,
   ⟨(0 : CtxId), (0 : Fin 16), (((Z.setColl (0 : CtxId).val (0 : Fin 16).val (some (({ zc with status := .denied } : Coll)))).onFx 0 (fun o => { o with colls := [(0, some { zc with status := .denied })] }))), (({ zc with status := .denied } : Coll)), by decide⟩,
   ⟨(0 : CtxId), (0 : Fin 16), (((Z.setColl (0 : CtxId).val (0 : Fin 16).val (some (({ zc with status := .inexact, result := [(0, some [])] } : Coll)))).onFx 0 (fun o => { o with colls := [(0, some { zc with status := .inexact, result := [(0, some [])] })] }))), (({ zc with status := .inexact, result := [(0, some [])] } : Coll)), by decide⟩,
   ⟨(zb : FabBlock), (0 : CtxId), ((((Z.onCx (0 : CtxId).val (fun o => { o with st := .enabled })).onCx 0 (fun o => { o with st := .enabled })).onFx 0 (fun o => { o with valid := true, abortedSlots := [0] }))), by decide⟩,
   ⟨(zb : FabBlock), (0 : CtxId), ((((Z.onCx (0 : CtxId).val (fun o => { o with st := .enabled })).onCx 0 (fun o => { o with st := .enabled })).onFx 0 (fun o => { o with valid := true }))), by decide⟩,
   ⟨(zb : FabBlock), (0 : CtxId), (zc : Coll), (1 : Nat), (((((Z.onCx (0 : CtxId).val (fun o => { o with st := .enabled })).setColl (0 : CtxId).val (zb : FabBlock).ch.toNat (some (zc : Coll))).onCx 0 (fun o => { o with st := .enabled, hbmSize := 4 })).onFx 0 (fun o => { o with valid := true, grpN := 2, colls := [(0, some zc)] }))), by decide⟩⟩

end Sys2Proof.Tests

set_option Elab.async true
end

section
/-! The completion statuses and their codes (R12). -/

namespace Sys2Proof

/-- The table of R12 read from the code to the status; the reserved codes 0xB to 0xF name no status. -/
def Status.ofCode (c : BitVec 4) : Option Status :=
  match c.toNat with
  | 0x0 => some .ok | 0x1 => some .inexact | 0x2 => some .saturated | 0x3 => some .overrun | 0x4 => some .aborted
  | 0x5 => some .footprint | 0x6 => some .residue | 0x7 => some .crc | 0x8 => some .undeliverable
  | 0x9 => some .denied | 0xA => some .scrubbing | _ => none

@[simp] theorem Status.ofCode_code (st : Status) : Status.ofCode st.code = some st := by
  cases st <;> rfl

theorem Status.ofCode_eq_none_iff (c : BitVec 4) : Status.ofCode c = none ↔ 0xB ≤ c.toNat := by
  revert c
  decide

/-- A code that names a status is not one of the reserved codes. -/
theorem Status.code_toNat_lt (st : Status) : st.code.toNat < 0xB := by
  have hne : Status.ofCode st.code ≠ none := by simp
  rwa [ne_eq, Status.ofCode_eq_none_iff, not_le] at hne

/-- Reading the table back gives the status again, so two statuses cannot share a code. -/
theorem Status.code_injective : Function.Injective Status.code := fun a b h =>
  Option.some_injective _ <|
    calc some a = Status.ofCode a.code := a.ofCode_code.symm
      _ = Status.ofCode b.code := by rw [h]
      _ = some b := b.ofCode_code

/-- Settles O4: each code is read off the table of R12, whose inverse `Status.ofCode` separates the statuses and
leaves the reserved codes out. -/
theorem statusCodes : Obligations.StatusCodes :=
  ⟨rfl, rfl, rfl, rfl, rfl, rfl, rfl, rfl, rfl, rfl, rfl, Status.code_toNat_lt, fun _ _ h => Status.code_injective h⟩

end Sys2Proof
end

section
/-! The state after reset (R23, R190, R322, R353, R378): its memories, its contexts and its limited registers. -/

namespace Sys2Proof

open Machine Safety

/-- A state that lists no byte, no core and no context has no memory out of canonical form. -/
theorem memoryOk_of_empty {s : State} (hledge : s.ledge.mem = []) (hhbm : s.hbm.mem = []) (hhost : s.host.mem = [])
    (hcores : s.cores = []) (hctxs : s.ctx.ctxs = []) : memoryOk s := by
  have hnil : Memory.wf [] = true := rfl
  refine ⟨hledge ▸ hnil, hhbm ▸ hnil, hhost ▸ hnil, ?_, ?_⟩
  · simp [hcores]
  · simp [hctxs]

/-- A context that the table does not list reads as the default context. -/
theorem cx_of_ctxs_eq_nil {s : State} (hctxs : s.ctx.ctxs = []) (x : Nat) : s.cx x = {} := by
  rw [State.cx, hctxs, fget]

theorem reset_memoryOk : memoryOk State.reset :=
  memoryOk_of_empty rfl rfl rfl rfl rfl

/-- The defaults of the guard thresholds, RESERVE and the temperature targets, each within its limit. -/
theorem reset_limitsOk : limitsOk State.reset := by
  unfold limitsOk
  decide

/-- R190: no context is listed at reset, and the default context is DISABLED. -/
theorem reset_cx_disabled (x : Nat) : (State.reset.cx x).st = .disabled := by
  rw [cx_of_ctxs_eq_nil rfl]

/-- Settles O12: the memories and contexts are in form because their tables are empty at reset, and each register holds
the default that the state gives it. -/
theorem resetMeetsInvariants : Obligations.ResetMeetsInvariants :=
  ⟨reset_memoryOk, reset_limitsOk, rfl, rfl, rfl, rfl, rfl, rfl, rfl, fun x => reset_cx_disabled x.val, rfl, rfl, rfl, rfl⟩

end Sys2Proof
end

section
/-! SUPPORT. The exact arithmetic of a pass and of an anchor entry (R45–R54, R58): what the shifter keeps, drops and
reports, the window of a pass as a function of its exponent and its pairs, and the saturating addition. -/

namespace Sys2Proof.Machine

/-! ### The shifter (R47, R52) -/

theorem shiftRes_v (v : Int) (r : Nat) (k : Int) :
    (shiftRes v r k).v = if 0 ≤ k then v * 2 ^ k.toNat else v / 2 ^ (-k).toNat := by
  unfold shiftRes
  split <;> rfl

/-- Only a right shift drops bits, and it reports whether one of them is non-zero. -/
theorem shiftRes_inx (v : Int) (r : Nat) (k : Int) :
    (shiftRes v r k).inx = (decide (k < 0) && decide (v % 2 ^ (-k).toNat ≠ 0)) := by
  unfold shiftRes
  split
  case isTrue hk => simp [not_lt.mpr hk]
  case isFalse hk => rw [Bool.eq_iff_iff]; simp [not_le.mp hk]

/-! ### The window (R45–R48) -/

theorem maxExp_eq_foldl (ps : List Pair) (m : Int) : maxExp ps m = (ps.map Pair.p).foldl max m := by
  induction ps generalizing m with
  | nil => rfl
  | cons x ps ih => exact ih (max m x.p)

/-- R45: the exponent of a pass is the largest exponent of its pairs. -/
theorem window_p {ps : List Pair} (hps : ps ≠ []) : (ps.map Pair.p).max? = some (window ps).p := by
  cases ps with
  | nil => exact absurd rfl hps
  | cons x ps => rw [List.map_cons, List.max?_cons', ← maxExp_eq_foldl]; rfl

/-- R47: what a pair adds to a window whose exponent is `p`. -/
def Pair.contribution (p : Int) (x : Pair) : Shifted := shiftRes x.s x.r (28 - (p - x.p))

theorem Pair.contribution_v (p : Int) (x : Pair) : (x.contribution p).v =
    if p - x.p ≤ 28 then x.s * 2 ^ (28 - (p - x.p)).toNat else x.s / 2 ^ (p - x.p - 28).toNat := by
  simp only [contribution, shiftRes_v, sub_nonneg, neg_sub]

theorem Pair.contribution_inx (p : Int) (x : Pair) :
    (x.contribution p).inx = true ↔ 28 < p - x.p ∧ x.s % 2 ^ (p - x.p - 28).toNat ≠ 0 := by
  simp only [contribution, shiftRes_inx, neg_sub, sub_neg, Bool.and_eq_true, decide_eq_true_eq]

/-- The window that the pairs `ps` form at the exponent `p`. -/
def windowAt (p : Int) (ps : List Pair) : Window where
  w := (ps.map (fun x => (x.contribution p).v)).sum
  p := p
  inx := ps.any (fun x => (x.contribution p).inx)
  r := (ps.map (fun x => (x.contribution p).r)).sum % 7

/-- A window depends on its exponent and on the contributions at that exponent alone. -/
theorem window_eq_windowAt (ps : List Pair) : window ps = windowAt (window ps).p ps := by
  cases ps with
  | nil => rfl
  | cons x ps => simp [window, windowAt, Pair.contribution, Function.comp_def]

theorem windowAt_perm (p : Int) {ps qs : List Pair} (h : ps.Perm qs) : windowAt p ps = windowAt p qs := by
  simp only [windowAt, (h.map _).sum_eq, h.any_eq]

theorem window_p_perm {ps qs : List Pair} (h : ps.Perm qs) : (window ps).p = (window qs).p := by
  by_cases hps : ps = []
  · subst hps
    rw [List.nil_perm.mp h]
  · have hqs : qs ≠ [] := fun hq => hps (List.perm_nil.mp (hq ▸ h))
    obtain ⟨hmem, hle⟩ := List.max?_eq_some_iff.mp (window_p hqs)
    have hmax : (ps.map Pair.p).max? = some (window qs).p := List.max?_eq_some_iff.mpr
      ⟨(h.map _).mem_iff.mpr hmem, fun b hb => hle b ((h.map _).mem_iff.mp hb)⟩
    exact Option.some_injective _ ((window_p hps).symm.trans hmax)

/-! ### The saturating addition (R54) -/

namespace Anchor

variable (e : Anchor) (x : Shifted)

@[simp] theorem addExact_l : (e.addExact x).l = e.l := by
  simp only [addExact]
  split_ifs <;> rfl

@[simp] theorem addExact_nan : (e.addExact x).nan = e.nan := by
  simp only [addExact]
  split_ifs <;> rfl

@[simp] theorem addExact_inx : (e.addExact x).inx = (e.inx || x.inx) := by
  simp only [addExact]
  split_ifs <;> rfl

@[simp] theorem addExact_res : (e.addExact x).res = BitVec.ofNat 3 ((e.res.toNat + x.r) % 7) := by
  simp only [addExact]
  split_ifs <;> rfl

variable {e x}

theorem addExact_of_sat (hs : e.sat = true) : (e.addExact x).a = e.a ∧ (e.addExact x).sat = true := by
  simp [addExact, hs]

theorem addExact_of_gt (hs : e.sat = false) (hgt : 2 ^ 127 - 1 < e.a.toInt + x.v) :
    (e.addExact x).a.toInt = 2 ^ 127 - 1 ∧ (e.addExact x).sat = true := by
  simp only [addExact, hs, Bool.false_eq_true, if_false, gt_iff_lt, if_pos hgt]
  decide

theorem addExact_of_lt (hs : e.sat = false) (hlt : e.a.toInt + x.v < -2 ^ 127) :
    (e.addExact x).a.toInt = -2 ^ 127 ∧ (e.addExact x).sat = true := by
  have hle : ¬ 2 ^ 127 - 1 < e.a.toInt + x.v := by omega
  simp only [addExact, hs, Bool.false_eq_true, if_false, gt_iff_lt, if_neg hle, if_pos hlt]
  decide

theorem addExact_of_fits (hs : e.sat = false) (hge : -2 ^ 127 ≤ e.a.toInt + x.v)
    (hle : e.a.toInt + x.v ≤ 2 ^ 127 - 1) :
    (e.addExact x).a.toInt = e.a.toInt + x.v ∧ (e.addExact x).sat = false := by
  simp only [addExact, hs, Bool.false_eq_true, if_false, gt_iff_lt, if_neg (not_lt.mpr hle), if_neg (not_lt.mpr hge)]
  exact ⟨BitVec.toInt_ofInt_eq_self (by decide) hge (by omega), trivial⟩

/-- An entry that an addition leaves unsaturated holds the exact sum. -/
theorem addExact_exact (h : (e.addExact x).sat = false) :
    e.sat = false ∧ (e.addExact x).a.toInt = e.a.toInt + x.v := by
  have hs : e.sat = false := by
    by_contra hs
    simp [addExact_of_sat (Bool.eq_true_of_not_eq_false hs)] at h
  have hle : e.a.toInt + x.v ≤ 2 ^ 127 - 1 := by
    by_contra hgt
    simp [addExact_of_gt hs (not_le.mp hgt)] at h
  have hge : -2 ^ 127 ≤ e.a.toInt + x.v := by
    by_contra hlt
    simp [addExact_of_lt hs (not_le.mp hlt)] at h
  exact ⟨hs, (addExact_of_fits hs hge hle).1⟩

end Anchor

end Sys2Proof.Machine
end

section
/-! The residue path (R57–R62), read in the integers modulo 7: each step of the path commutes with the step of the
datapath that it follows, so the stored residue of an entry stays the residue of its value. -/

namespace Sys2Proof.Machine

/-! ### Residues as elements of `ZMod 7` (R58) -/

theorem mod7_lt (x : Int) : mod7 x < 7 := by
  unfold mod7
  omega

/-- The residue of the integer `x % 7`, cast back, is `x` modulo 7. -/
theorem cast_toNat_emod_seven (x : Int) : (((x % 7).toNat : Nat) : ZMod 7) = x := by
  rw [ZMod.natCast_toNat 7 (Int.emod_nonneg x (by decide))]
  exact ZMod.intCast_mod x 7

@[simp] theorem cast_mod7 (x : Int) : (mod7 x : ZMod 7) = x := cast_toNat_emod_seven x

@[simp] theorem cast_mod_seven (n : Nat) : ((n % 7 : Nat) : ZMod 7) = n := ZMod.natCast_mod n 7

/-- A reduced number is the residue of `x` exactly when the two agree modulo 7. -/
theorem mod_seven_eq_mod7_iff {n : Nat} {x : Int} : n % 7 = mod7 x ↔ (n : ZMod 7) = x := by
  rw [← cast_mod7 x, ZMod.natCast_eq_natCast_iff', Nat.mod_eq_of_lt (mod7_lt x)]

theorem two_pow_three_mod_seven : (2 : ZMod 7) ^ 3 = 1 := by decide

theorem cast_pow2mod7 (k : Nat) : (pow2mod7 k : ZMod 7) = 2 ^ k := by
  rw [pow_eq_pow_mod k two_pow_three_mod_seven]
  unfold pow2mod7
  have hk : k % 3 < 3 := Nat.mod_lt k (by decide)
  interval_cases k % 3 <;> rfl

theorem two_pow_mul_cast_inv2mod7 (j : Nat) : (2 : ZMod 7) ^ j * (inv2mod7 j : ZMod 7) = 1 := by
  rw [pow_eq_pow_mod j two_pow_three_mod_seven]
  unfold inv2mod7
  have hj : j % 3 < 3 := Nat.mod_lt j (by decide)
  interval_cases j % 3 <;> decide

/-- R58: the shifter's residue follows its value. A left shift multiplies both by a power of two; a right shift takes
the dropped bits off both and divides, in the residue by the inverse of the power. -/
theorem cast_shiftRes_r {v : Int} {r : Nat} (h : (r : ZMod 7) = v) (k : Int) :
    ((shiftRes v r k).r : ZMod 7) = (shiftRes v r k).v := by
  unfold shiftRes
  split
  case isTrue => simp [h, cast_pow2mod7]
  case isFalse =>
    have hdiv : (v : ZMod 7) - (v % 2 ^ (-k).toNat : Int) = 2 ^ (-k).toNat * (v / 2 ^ (-k).toNat : Int) := by
      have hv := congrArg (Int.cast (R := ZMod 7)) (Int.emod_add_mul_ediv v (2 ^ (-k).toNat))
      push_cast at hv
      linear_combination -hv
    simp only [cast_mod_seven, Nat.cast_mul, cast_toNat_emod_seven, Int.cast_sub, Int.cast_natCast, h, hdiv]
    linear_combination ((v / 2 ^ (-k).toNat : Int) : ZMod 7) * two_pow_mul_cast_inv2mod7 (-k).toNat

/-- The residue of a window is the residue of its value, when each pair carries the residue of its product sum. -/
theorem cast_window_r {ps : List Pair} (h : ∀ x ∈ ps, x.r = mod7 x.s) :
    ((window ps).r : ZMod 7) = (window ps).w := by
  rw [window_eq_windowAt]
  simp only [windowAt, cast_mod_seven, Nat.cast_list_sum, Int.cast_list_sum, List.map_map]
  refine congrArg List.sum (List.map_congr_left fun x hx => cast_shiftRes_r ?_ _)
  rw [h x hx, cast_mod7]

/-! ### The pairs of a grid row (R44, R58) -/

theorem mod7_mul (a b : Int) : mod7 a * mod7 b % 7 = mod7 (a * b) :=
  mod_seven_eq_mod7_iff.mpr (by simp)

/-- R58: the product sum of the reduced mantissas is the residue of the product sum. -/
theorem mod7_sum_mul (as bs : List Int) :
    (List.zipWith (fun x y => mod7 x * mod7 y) as bs).sum % 7 = mod7 (List.zipWith (· * ·) as bs).sum := by
  rw [mod_seven_eq_mod7_iff, Nat.cast_list_sum, Int.cast_list_sum, List.map_zipWith, List.map_zipWith]
  simp

theorem exists_of_mem_mapM {α β : Type} {f : α → Option β} {as : List α} {bs : List β} (h : as.mapM f = some bs)
    {b : β} (hb : b ∈ bs) : ∃ a, f a = some b := by
  induction as generalizing bs with
  | nil =>
    obtain rfl : [] = bs := by simpa using h
    cases hb
  | cons a as ih =>
    simp only [List.mapM_cons, Option.bind_eq_bind, Option.bind_eq_some_iff, Option.pure_def, Option.some.injEq] at h
    obtain ⟨c, hc, cs, hcs, rfl⟩ := h
    rcases List.mem_cons.mp hb with rfl | hb
    · exact ⟨a, hc⟩
    · exact ih hcs hb

/-- R44: a BF16 row has a pair of its own for each element pair. -/
theorem rowPairs_bf16_mem {fw : OpFmt} {a w : List Byte} {ps : List Pair} (h : rowPairs .bf16 fw a w = some ps)
    {x : Pair} (hx : x ∈ ps) :
    ∃ ma mb xa xb : Int, x = ⟨ma * mb, xa + xb, mod7 ma * mod7 mb % 7⟩ := by
  obtain ⟨i, hi⟩ := exists_of_mem_mapM h hx
  split at hi
  case h_1 ma xa mb xb _ _ => exact ⟨ma, mb, xa, xb, (Option.some_injective _ hi).symm⟩
  case h_2 => cases hi

/-- R44: a row of block formats has one pair, the product sum of the two blocks. -/
theorem rowPairs_block_mem {fa fw : OpFmt} (hfa : fa ≠ .bf16) {a w : List Byte} {ps : List Pair}
    (h : rowPairs fa fw a w = some ps) {x : Pair} (hx : x ∈ ps) :
    ∃ (ma mb : List Int) (p : Int), x = ⟨(List.zipWith (· * ·) ma mb).sum, p,
      (List.zipWith (fun u v => mod7 u * mod7 v) ma mb).sum % 7⟩ := by
  have hblock : ∃ (ma mb : List Int) (p : Int), ps = [⟨(List.zipWith (· * ·) ma mb).sum, p,
      (List.zipWith (fun u v => mod7 u * mod7 v) ma mb).sum % 7⟩] := by
    cases fa
    case bf16 => exact absurd rfl hfa
    all_goals
      simp only [rowPairs, Option.ite_none_left_eq_some, Option.some.injEq] at h
      exact ⟨_, _, _, h.2.symm⟩
  obtain ⟨ma, mb, p, rfl⟩ := hblock
  exact ⟨ma, mb, p, List.mem_singleton.mp hx⟩

theorem rowPairs_residue {fa fw : OpFmt} {a w : List Byte} {ps : List Pair} (h : rowPairs fa fw a w = some ps)
    {x : Pair} (hx : x ∈ ps) : x.r = mod7 x.s := by
  by_cases hfa : fa = .bf16
  · subst hfa
    obtain ⟨ma, mb, xa, xb, rfl⟩ := rowPairs_bf16_mem h hx
    exact mod7_mul ma mb
  · obtain ⟨ma, mb, p, rfl⟩ := rowPairs_block_mem hfa h hx
    exact mod7_sum_mul ma mb

/-! ### The check (R57, R59, R60) -/

/-- A check of a stored residue: 7 is no residue, so the comparison alone decides. -/
theorem residue_check_eq_false_iff (a : Int) (res : BitVec 3) :
    (res.toNat == 7 || mod7 a != res.toNat) = false ↔ mod7 a = res.toNat := by
  have hlt := mod7_lt a
  simp only [Bool.or_eq_false_iff, beq_eq_false_iff_ne, bne_eq_false_iff_eq]
  omega

theorem Anchor.residueFails_eq_false_iff (e : Anchor) :
    e.residueFails = false ↔ (e.sat = false → e.nan = false → mod7 e.a.toInt = e.res.toNat) := by
  rw [← residue_check_eq_false_iff]
  cases hs : e.sat <;> cases hn : e.nan <;> simp [residueFails, checked, hs, hn]

theorem RawRec.residue_of_residueFails_eq_false {r : RawRec} (h : r.residueFails = false) (hs : r.sat = false)
    (hn : r.nan = false) : mod7 r.a.toInt = r.res.toNat := by
  rw [← residue_check_eq_false_iff]
  simpa [residueFails, hs, hn] using (Bool.or_eq_false_iff.mp h).2

/-- Adding an addend that carries its residue leaves the residue of an unsaturated entry right. -/
theorem Anchor.addExact_residue {e : Anchor} {x : Shifted} (he : e.residueFails = false) (hn : e.nan = false)
    (hx : (x.r : ZMod 7) = x.v) (hs : (e.addExact x).sat = false) :
    mod7 (e.addExact x).a.toInt = (e.addExact x).res.toNat := by
  obtain ⟨hs0, ha⟩ := addExact_exact hs
  have hres : mod7 e.a.toInt = e.res.toNat := e.residueFails_eq_false_iff.mp he hs0 hn
  have hstored : (e.addExact x).res.toNat = (e.res.toNat + x.r) % 7 := by
    rw [addExact_res, BitVec.toNat_ofNat]
    omega
  rw [hstored, ha, eq_comm, mod_seven_eq_mod7_iff]
  push_cast
  rw [← hres, cast_mod7, hx]

theorem Anchor.residueFails_addPass {e : Anchor} {w : Window} (he : e.residueFails = false)
    (hw : (w.r : ZMod 7) = w.w) : (e.addPass w).residueFails = false := by
  rw [residueFails_eq_false_iff]
  intro hs hn
  exact addExact_residue he (by simpa [addPass] using hn) (cast_shiftRes_r hw _) hs

/-- R49 and R60: a pass that is not a number sets NAN, and the entry is no longer checked. -/
theorem Anchor.residueFails_pass {e : Anchor} {ps : Option (List Pair)} (he : e.residueFails = false)
    (hps : ∀ qs, ps = some qs → ∀ x ∈ qs, x.r = mod7 x.s) : (e.pass ps).residueFails = false := by
  cases ps with
  | none => simp [pass, residueFails_eq_false_iff]
  | some qs => exact residueFails_addPass he (cast_window_r (hps qs rfl))

/-- R62: a merged record that passes its check carries the residue of its VALUE, unless it brings SAT or NAN, which
take the entry out of the check. -/
theorem Anchor.residueFails_merge {e : Anchor} {r : RawRec} (he : e.residueFails = false)
    (hr : r.residueFails = false) : (e.merge r).residueFails = false := by
  rw [residueFails_eq_false_iff]
  intro hs hn
  obtain ⟨hs, hrs⟩ := Bool.or_eq_false_iff.mp hs
  obtain ⟨hn, hrn⟩ := Bool.or_eq_false_iff.mp hn
  have hres := RawRec.residue_of_residueFails_eq_false hr hrs hrn
  exact addExact_residue he (by simpa using hn) (cast_shiftRes_r (by rw [← hres, cast_mod7]) _) hs

theorem Anchor.residueFails_cleared (l : BitVec 10) : (cleared l).residueFails = false :=
  (residueFails_eq_false_iff _).mpr fun _ _ => rfl

end Sys2Proof.Machine

namespace Sys2Proof

open Machine

/-- Settles O9: shift, window and addition each commute with reduction modulo 7, so the stored residue of a checked entry
is that of its value. -/
theorem residueHolds : Obligations.ResidueHolds :=
  ⟨Anchor.residueFails_cleared, fun _ _ _ _ _ h _ hx => rowPairs_residue h hx, fun _ _ => Anchor.residueFails_pass,
    fun _ _ => Anchor.residueFails_merge⟩

end Sys2Proof
end

section
/-! The exact sum of a pass in its window and its aligned, saturating addition into an entry (R47, R48, R52, R54). -/

namespace Sys2Proof.Machine

theorem le_window_p {ps : List Pair} {x : Pair} (hx : x ∈ ps) : x.p ≤ (window ps).p :=
  (List.max?_eq_some_iff.mp (window_p (List.ne_nil_of_mem hx))).2 _ (List.mem_map_of_mem hx)

theorem exists_window_p {ps : List Pair} (hps : ps ≠ []) : ∃ x ∈ ps, x.p = (window ps).p :=
  List.mem_map.mp (List.max?_eq_some_iff.mp (window_p hps)).1

theorem window_w (ps : List Pair) : (window ps).w = (ps.map (fun x =>
    if (window ps).p - x.p ≤ 28 then x.s * 2 ^ (28 - ((window ps).p - x.p)).toNat
    else x.s / 2 ^ ((window ps).p - x.p - 28).toNat)).sum := by
  simp only [← Pair.contribution_v]
  exact congrArg Window.w (window_eq_windowAt ps)

theorem window_inx (ps : List Pair) : (window ps).inx = true ↔
    ∃ x ∈ ps, 28 < (window ps).p - x.p ∧ x.s % 2 ^ ((window ps).p - x.p - 28).toNat ≠ 0 := by
  simp only [← Pair.contribution_inx]
  rw [congrArg Window.inx (window_eq_windowAt ps)]
  exact List.any_eq_true

/-- R48: the order of the pairs has no effect on a pass. -/
theorem window_perm {ps qs : List Pair} (h : ps.Perm qs) : window ps = window qs :=
  calc window ps = windowAt (window ps).p ps := window_eq_windowAt ps
    _ = windowAt (window qs).p qs := by rw [window_p_perm h, windowAt_perm _ h]
    _ = window qs := (window_eq_windowAt qs).symm

end Sys2Proof.Machine

namespace Sys2Proof

open Machine

/-- Settles O8: the window is read off its contributions at the largest exponent, and the entry's four outcomes are those
of the saturating addition of the aligned window. -/
theorem passArithmetic : Obligations.PassArithmetic := by
  refine ⟨fun ps hps => ⟨fun x hx => le_window_p hx, exists_window_p hps, window_w ps, window_inx ps⟩,
    fun ps qs h => window_perm h, ?_⟩
  rintro e w h d rfl hd
  rw [← shiftRes_v w.w w.r] at hd
  subst hd
  refine ⟨e.addExact_l _, e.addExact_nan _, ?_, fun hs => Anchor.addExact_of_sat hs,
    fun hs hge hle => Anchor.addExact_of_fits hs hge hle, fun hs hgt => Anchor.addExact_of_gt hs hgt,
    fun hs hlt => Anchor.addExact_of_lt hs hlt⟩
  rw [Anchor.addPass, Anchor.addExact_inx, shiftRes_inx, Bool.or_assoc, Bool.or_comm w.inx]

end Sys2Proof
end

section
/-! The memories of a state and what a change of the state may do to them (R97, R146, R165, R203). Each operation of the
model has one equation here or below, which simp uses to go back along a chain of operations:
`Keeps u (op s) ↔ Keeps u s` for one that changes no memory, `Keeps u (op s) ↔ Keeps u s ∨ StillKeeps u (op s)` for one
that writes and keeps the form. -/

namespace Sys2Proof.Machine

open Sys2Proof.Safety

/-! ### Entries of tables -/

/-- Every entry that a table lists meets a predicate. -/
def Entries {β : Type} (P : β → Prop) (m : FMap β) : Prop := ∀ e ∈ m, P e.2

section
variable {β : Type} {P : β → Prop} {m : FMap β}

theorem Entries.fget {d : β} (hm : Entries P m) (hd : P d) (k : Nat) : P (fget d m k) := by
  induction m with
  | nil => exact hd
  | cons e m ih =>
    unfold Machine.fget
    split
    · exact hm e List.mem_cons_self
    · exact ih fun e' he' => hm e' (List.mem_cons_of_mem e he')

theorem Entries.fput [DecidableEq β] {d v : β} (hm : Entries P m) (hv : P v) (k : Nat) :
    Entries P (fput d k v m) := by
  intro e he
  simp only [Machine.fput, List.mem_append, List.mem_filter] at he
  obtain (⟨he, -⟩ | he) | ⟨he, -⟩ := he
  · exact hm e he
  · split at he
    · cases he
    · rw [List.mem_singleton.mp he]; exact hv
  · exact hm e he

theorem Entries.filter (hm : Entries P m) (p : Nat × β → Bool) : Entries P (m.filter p) :=
  fun e he => hm e (List.mem_of_mem_filter he)

end

/-! ### The five memories -/

/-- The pitch memory of every save record of a context is in canonical form (R203). -/
def SavedOk (m : FMap (Option Core)) : Prop := Entries (fun q => ∀ k, q = some k → Memory.wf k.pm) m

/-- The pitch memory of every core is in canonical form (R97). -/
def CoresOk (m : FMap Core) : Prop := Entries (fun k => Memory.wf k.pm) m

/-- The save records of every context have their pitch memory in canonical form (R203). -/
def CtxsOk (m : FMap Ctx) : Prop := Entries (fun c => SavedOk c.saved) m

theorem memoryOk_iff (s : State) : memoryOk s ↔
    Memory.wf s.ledge.mem ∧ Memory.wf s.hbm.mem ∧ Memory.wf s.host.mem ∧ CoresOk s.cores ∧ CtxsOk s.ctx.ctxs :=
  Iff.rfl

@[simp] theorem savedOk_nil : SavedOk [] := by simp [SavedOk, Entries]

theorem coresOk_nil : CoresOk [] := by simp [CoresOk, Entries]

theorem ctxsOk_nil : CtxsOk [] := by simp [CtxsOk, Entries]

@[simp] theorem savedOk_fput_none (m : FMap (Option Core)) (l : Nat) :
    (SavedOk m → SavedOk (fput none l none m)) ↔ True :=
  iff_true_intro fun h => Entries.fput h (by simp) l

@[simp] theorem savedOk_filter (m : FMap (Option Core)) (p : Nat × Option Core → Bool) :
    (SavedOk m → SavedOk (m.filter p)) ↔ True :=
  iff_true_intro fun h => Entries.filter h p

@[simp] theorem wf_memPut_imp (m : List Host.Cell) (a : Nat) (bs : List Byte) :
    (Memory.wf m = true → Memory.wf (memPut m a bs) = true) ↔ True :=
  iff_true_intro (wf_memPut m a bs)

@[simp] theorem wf_memZero_imp (m : List Host.Cell) (a n : Nat) :
    (Memory.wf m = true → Memory.wf (memZero m a n) = true) ↔ True :=
  iff_true_intro (wf_memZero m a n)

section
variable {s : State} (h : memoryOk s)
include h

theorem memoryOk_core (c : Nat) : Memory.wf (s.core c).pm = true :=
  Entries.fget (P := fun k : Core => Memory.wf k.pm) h.2.2.2.1 rfl c

theorem memoryOk_cx (x : Nat) : SavedOk (s.cx x).saved :=
  Entries.fget (P := fun c : Ctx => SavedOk c.saved) h.2.2.2.2 savedOk_nil x

theorem memoryOk_saved {x l : Nat} {k : Core} (hk : fget none (s.cx x).saved l = some k) : Memory.wf k.pm = true :=
  Entries.fget (P := fun q : Option Core => ∀ k, q = some k → Memory.wf k.pm) (memoryOk_cx h x) (by simp) l k hk

end

/-! ### Changes that keep the form -/

/-- Where the memories of `u` are in canonical form, those of `s` are. -/
def Keeps (u s : State) : Prop := memoryOk u → memoryOk s

/-- `Keeps` under a name that no simp lemma rewrites. -/
def StillKeeps (u s : State) : Prop := Keeps u s

@[simp] theorem keeps_self (s : State) : Keeps s s := id

theorem Keeps.trans {u s t : State} (h : Keeps u s) (h' : Keeps s t) : Keeps u t := h' ∘ h

/-- A change from `s` to `t` that keeps the form, as an equivalence, so that simp can go back along a chain of
changes: `t` keeps the form of `u` where `s` did, and may do so where `s` did not (a write can mend a memory). -/
theorem Keeps.iff_or {s t : State} (h : Keeps s t) (u : State) : Keeps u t ↔ Keeps u s ∨ StillKeeps u t :=
  ⟨Or.inr, fun h' => h'.elim (·.trans h) id⟩

/-- A change that touches no memory. -/
theorem keeps_iff_of_eq {s t : State} (hledge : t.ledge.mem = s.ledge.mem) (hhbm : t.hbm.mem = s.hbm.mem)
    (hhost : t.host.mem = s.host.mem) (hcores : t.cores = s.cores) (hctx : t.ctx.ctxs = s.ctx.ctxs) (u : State) :
    Keeps u t ↔ Keeps u s := by
  simp only [Keeps, memoryOk_iff, hledge, hhbm, hhost, hcores, hctx]

/-- The parts of the state that hold no memory. -/
abbrev plainParts : List Part :=
  [.pending, .reply, .env, .hdrs, .ctls, .mesh, .arbs, .arbSels, .fence, .fab, .glob, .pwr, .sec, .dbg, .evts, .thm,
    .cool, .loop, .drv, .cbus, .hut, .cairn, .fresh]

theorem keeps_iff_of_only {s t : State} (h : only plainParts s t) (u : State) : Keeps u t ↔ Keeps u s := by
  have hledge : t.ledge = s.ledge := h .ledge (by decide)
  have hhbm : t.hbm = s.hbm := h .hbm (by decide)
  have hhost : t.host = s.host := h .host (by decide)
  have hcores : t.cores = s.cores := h .cores (by decide)
  have hctx : t.ctx = s.ctx := h .ctx (by decide)
  exact keeps_iff_of_eq (by rw [hledge]) (by rw [hhbm]) (by rw [hhost]) hcores (by rw [hctx]) u

@[simp] theorem keeps_ite (u a b : State) (c : Prop) [Decidable c] :
    Keeps u (if c then a else b) ↔ if c then Keeps u a else Keeps u b := by
  split <;> rfl

section
variable {u s : State}

@[simp] theorem keeps_when (b : Bool) (f : State → State) :
    Keeps u (when b f s) ↔ if b = true then Keeps u (f s) else Keeps u s :=
  keeps_ite u (f s) s (b = true)

theorem keeps_forAll {α : Type} {f : α → State → State} (h : ∀ x t, Keeps t (f x t)) (xs : List α) (s : State) :
    Keeps s (forAll xs f s) := by
  unfold forAll
  induction xs generalizing s with
  | nil => exact keeps_self s
  | cons x xs ih => exact (h x s).trans (ih (f x s))

@[simp] theorem keeps_forAll_same {α : Type} (f : α → State → State) (xs : List α)
    (h : ∀ u x t, Keeps u (f x t) ↔ Keeps u t) : Keeps u (forAll xs f s) ↔ Keeps u s := by
  unfold forAll
  induction xs generalizing s with
  | nil => exact Iff.rfl
  | cons x xs ih => exact ih.trans (h u x s)

@[simp] theorem keeps_forAll_iff {α : Type} (f : α → State → State) (xs : List α) (h : ∀ x t, Keeps t (f x t)) :
    Keeps u (forAll xs f s) ↔ Keeps u s ∨ StillKeeps u (forAll xs f s) :=
  (keeps_forAll h xs s).iff_or u

theorem keeps_foldl {α β : Type} {f : State × β → α → State × β} (h : ∀ b x, Keeps b.1 (f b x).1) (xs : List α)
    (b : State × β) : Keeps b.1 (xs.foldl f b).1 := by
  induction xs generalizing b with
  | nil => exact keeps_self b.1
  | cons x xs ih => exact (h b x).trans (ih (f b x))

/-- A state written out with the parts of `s` that hold the memories. -/
@[simp] theorem keeps_mk (pending reply env hdrs ctls mesh arbs arbSels fence fab glob pwr sec dbg evts thm cool loop
    drv cbus hut cairn fresh) :
    Keeps u (State.mk pending reply env hdrs s.cores ctls s.ledge mesh s.hbm arbs arbSels s.ctx fence fab s.host glob
      pwr sec dbg evts thm cool loop drv cbus hut cairn fresh) ↔ Keeps u s := Iff.rfl

/-! ### What the operations on a core do to its pitch memory

The proofs are `(rfl)` so that simp takes these as equations to rewrite with, also where it discharges a hypothesis. -/

@[simp] theorem onRun_pm (k : Core) (f : Run → Run) : (k.onRun f).pm = k.pm := (rfl)
@[simp] theorem vacate_pm (k : Core) (st : Status) : (k.vacate st).pm = k.pm := (rfl)
@[simp] theorem wipe_pm (k : Core) : k.wipe.pm = [] := (rfl)
@[simp] theorem clearStorage_pm (k : Core) : k.clearStorage.pm = [] := (rfl)
@[simp] theorem setAnchor_pm (k : Core) (e a : Nat) (x : Anchor) : (k.setAnchor e a x).pm = k.pm := (rfl)
@[simp] theorem setReg_pm (k : Core) (n : Nat) (ws : List Word) : (k.setReg n ws).pm = k.pm := (rfl)
@[simp] theorem writePm_pm (k : Core) (a : Nat) (bs : List Byte) : (k.writePm a bs).pm = memPut k.pm a bs := (rfl)
@[simp] theorem wf_nil : Memory.wf [] = true := rfl

@[simp] theorem setBank_pm (k : Core) (b : Bool) (v : Bank) : (k.setBank b v).pm = k.pm := by
  cases b <;> rfl

@[simp] theorem swapBanks_pm (k : Core) (b : Bool) : (swapBanks k b).pm = k.pm := by
  simp [swapBanks]

theorem foldl_pm {α : Type} (f : Core → α → Core) (h : ∀ k a, (f k a).pm = k.pm) (l : List α) (k : Core) :
    (l.foldl f k).pm = k.pm := by
  induction l generalizing k with
  | nil => rfl
  | cons a l ih => exact (ih (f k a)).trans (h k a)

@[simp] theorem clearRows_pm (k : Core) (l : BitVec 10) (e0 n : Nat) : (clearRows k l e0 n).pm = k.pm := by
  rw [clearRows_eq]

@[simp] theorem clearRead_pm (k : Core) (e0 n : Nat) (cols : List Nat) : (clearRead k e0 n cols).pm = k.pm := by
  rw [clearRead_eq]

@[simp] theorem streamTokens_pm (k : Core) (b : Bank) (p : BitVec 4) (act e0 t off stride : Nat) :
    (streamTokens k b p act e0 t off stride).pm = k.pm := by
  rw [streamTokens_eq]

@[simp] theorem mendHbm_mem (first n : Nat) (b : HbmBlk) : (mendHbm first n b).mem = b.mem := by
  unfold mendHbm
  split <;> rfl

@[simp] theorem mendLedge_mem (first n : Nat) (l : LedgeBlk) : (mendLedge first n l).mem = l.mem := (rfl)

/-- The record that a pitch leaves keeps part of the core's pitch memory. -/
theorem record_wf (k : Core) (r : Run) (h : Memory.wf k.pm) : Memory.wf (k.record r).pm = true :=
  fwf_filter 0 k.pm _ h

/-! ### The updates of the parts that hold a memory -/

@[simp] theorem keeps_onLedge (f : LedgeBlk → LedgeBlk) (h : ∀ b, (f b).mem = b.mem) :
    Keeps u (s.onLedge f) ↔ Keeps u s :=
  keeps_iff_of_eq (s := s) (t := s.onLedge f) (h _) rfl rfl rfl rfl u

theorem keeps_onLedge_write (f : LedgeBlk → LedgeBlk) (h : ∀ l, Memory.wf l.mem → Memory.wf (f l).mem) :
    Keeps s (s.onLedge f) :=
  fun ⟨hledge, hrest⟩ => ⟨h _ hledge, hrest⟩

@[simp] theorem keeps_onLedge_iff (f : LedgeBlk → LedgeBlk) (h : ∀ l, Memory.wf l.mem → Memory.wf (f l).mem) :
    Keeps u (s.onLedge f) ↔ Keeps u s ∨ StillKeeps u (s.onLedge f) :=
  (keeps_onLedge_write f h).iff_or u

@[simp] theorem keeps_onHbm (f : HbmBlk → HbmBlk) (h : ∀ b, (f b).mem = b.mem) : Keeps u (s.onHbm f) ↔ Keeps u s :=
  keeps_iff_of_eq (s := s) (t := s.onHbm f) rfl (h _) rfl rfl rfl u

theorem keeps_onHbm_write (f : HbmBlk → HbmBlk) (h : ∀ b, Memory.wf b.mem → Memory.wf (f b).mem) :
    Keeps s (s.onHbm f) :=
  fun ⟨hledge, hhbm, hrest⟩ => ⟨hledge, h _ hhbm, hrest⟩

@[simp] theorem keeps_onHbm_iff (f : HbmBlk → HbmBlk) (h : ∀ b, Memory.wf b.mem → Memory.wf (f b).mem) :
    Keeps u (s.onHbm f) ↔ Keeps u s ∨ StillKeeps u (s.onHbm f) :=
  (keeps_onHbm_write f h).iff_or u

theorem keeps_clearHbm (first n : Nat) : Keeps s (s.onHbm fun b => mendHbm first n { b with mem := [] }) :=
  keeps_onHbm_write _ fun _ _ => by rw [mendHbm_mem, wf_nil]

theorem keeps_clearLedge (first n : Nat) : Keeps s (s.onLedge fun l => mendLedge first n { l with mem := [] }) :=
  keeps_onLedge_write _ fun _ _ => by rw [mendLedge_mem, wf_nil]

@[simp] theorem keeps_onHost (f : HostBlk → HostBlk) (h : ∀ b, (f b).mem = b.mem) : Keeps u (s.onHost f) ↔ Keeps u s :=
  keeps_iff_of_eq (s := s) (t := s.onHost f) rfl rfl (h _) rfl rfl u

theorem keeps_onHost_write (f : HostBlk → HostBlk) (h : ∀ b, Memory.wf b.mem → Memory.wf (f b).mem) :
    Keeps s (s.onHost f) :=
  fun ⟨hledge, hhbm, hhost, hrest⟩ => ⟨hledge, hhbm, h _ hhost, hrest⟩

@[simp] theorem keeps_onHost_iff (f : HostBlk → HostBlk) (h : ∀ b, Memory.wf b.mem → Memory.wf (f b).mem) :
    Keeps u (s.onHost f) ↔ Keeps u s ∨ StillKeeps u (s.onHost f) :=
  (keeps_onHost_write f h).iff_or u

theorem keeps_setCore (n : Nat) {k : Core} (h : memoryOk s → Memory.wf k.pm) : Keeps s (s.setCore n k) :=
  fun hs =>
    have ⟨hledge, hhbm, hhost, hcores, hctx⟩ := (memoryOk_iff s).mp hs
    ⟨hledge, hhbm, hhost, hcores.fput (h hs) n, hctx⟩

@[simp] theorem keeps_setCore_of_core (n : Nat) (k : Core) (h : Memory.wf (s.core n).pm → Memory.wf k.pm) :
    Keeps u (s.setCore n k) ↔ Keeps u s ∨ StillKeeps u (s.setCore n k) :=
  (keeps_setCore n fun hs => h (memoryOk_core hs n)).iff_or u

@[simp] theorem keeps_onCore (n : Nat) (f : Core → Core) (h : ∀ k, Memory.wf k.pm → Memory.wf (f k).pm) :
    Keeps u (s.onCore n f) ↔ Keeps u s ∨ StillKeeps u (s.onCore n f) :=
  (keeps_setCore n fun hs => h _ (memoryOk_core hs n)).iff_or u

@[simp] theorem keeps_onCtxBlk (f : CtxBlk → CtxBlk) (h : ∀ b, (f b).ctxs = b.ctxs) :
    Keeps u (s.onCtxBlk f) ↔ Keeps u s :=
  keeps_iff_of_eq (s := s) (t := s.onCtxBlk f) rfl rfl rfl rfl (h _) u

theorem keeps_setCx (x : Nat) {c : Ctx} (h : memoryOk s → SavedOk c.saved) : Keeps s (s.setCx x c) :=
  fun hs =>
    have ⟨hledge, hhbm, hhost, hcores, hctx⟩ := (memoryOk_iff s).mp hs
    ⟨hledge, hhbm, hhost, hcores, hctx.fput (h hs) x⟩

@[simp] theorem keeps_onCx (x : Nat) (f : Ctx → Ctx) (h : ∀ c, SavedOk c.saved → SavedOk (f c).saved) :
    Keeps u (s.onCx x f) ↔ Keeps u s ∨ StillKeeps u (s.onCx x f) :=
  (keeps_setCx x fun hs => h _ (memoryOk_cx hs x)).iff_or u

/-- A core takes back its record (R203). -/
theorem keeps_onCore_restore (n : Nat) {x l : Nat} {q : Core} (hq : fget none (s.cx x).saved l = some q) :
    Keeps s (s.onCore n fun k => k.restore q) :=
  keeps_setCore n fun hs => (memoryOk_saved hs hq :)

/-- A context takes the record of a core (R203). -/
theorem keeps_onCx_save (x l : Nat) {k : Core} (h : Memory.wf k.pm) :
    Keeps s (s.onCx x fun c => { c with saved := fput none l (some k) c.saved }) :=
  keeps_setCx x fun hs => Entries.fput (memoryOk_cx hs x) (fun _ hk => Option.some.inj hk ▸ h) l

@[simp] theorem keeps_onFn (f : Nat) (g : FnHost → FnHost) : Keeps u (s.onFn f g) ↔ Keeps u s := Iff.rfl
@[simp] theorem keeps_onSq (f i : Nat) (g : SqRing → SqRing) : Keeps u (s.onSq f i g) ↔ Keeps u s := Iff.rfl
@[simp] theorem keeps_onCq (f i : Nat) (g : CqRing → CqRing) : Keeps u (s.onCq f i g) ↔ Keeps u s := Iff.rfl
@[simp] theorem keeps_setPage (k : Nat) (p : WinPage) : Keeps u (s.setPage k p) ↔ Keeps u s := Iff.rfl
@[simp] theorem keeps_onVec (f k : Nat) (g : MsixVec → MsixVec) : Keeps u (s.onVec f k g) ↔ Keeps u s := Iff.rfl

@[simp] theorem keeps_onFence (f : FenceBlk → FenceBlk) : Keeps u (s.onFence f) ↔ Keeps u s := Iff.rfl
@[simp] theorem keeps_onFab (f : FabState → FabState) : Keeps u (s.onFab f) ↔ Keeps u s := Iff.rfl
@[simp] theorem keeps_onGlob (f : GlobBlk → GlobBlk) : Keeps u (s.onGlob f) ↔ Keeps u s := Iff.rfl
@[simp] theorem keeps_onPwr (f : PwrBlk → PwrBlk) : Keeps u (s.onPwr f) ↔ Keeps u s := Iff.rfl
@[simp] theorem keeps_onMesh (f : MeshState → MeshState) : Keeps u (s.onMesh f) ↔ Keeps u s := Iff.rfl
@[simp] theorem keeps_onEvts (f : EvtPort → EvtPort) : Keeps u (s.onEvts f) ↔ Keeps u s := Iff.rfl
@[simp] theorem keeps_onSec (f : SecBlk → SecBlk) : Keeps u (s.onSec f) ↔ Keeps u s := Iff.rfl
@[simp] theorem keeps_onDbg (f : DbgBlk → DbgBlk) : Keeps u (s.onDbg f) ↔ Keeps u s := Iff.rfl
@[simp] theorem keeps_onThm (f : ThmBlk → ThmBlk) : Keeps u (s.onThm f) ↔ Keeps u s := Iff.rfl
@[simp] theorem keeps_onLoop (f : LoopBlk → LoopBlk) : Keeps u (s.onLoop f) ↔ Keeps u s := Iff.rfl
@[simp] theorem keeps_onDrv (f : DriveBlk → DriveBlk) : Keeps u (s.onDrv f) ↔ Keeps u s := Iff.rfl
@[simp] theorem keeps_onCbus (f : CbusBlk → CbusBlk) : Keeps u (s.onCbus f) ↔ Keeps u s := Iff.rfl
@[simp] theorem keeps_onHut (f : HutBlk → HutBlk) : Keeps u (s.onHut f) ↔ Keeps u s := Iff.rfl
@[simp] theorem keeps_onCairn (f : CairnBlk → CairnBlk) : Keeps u (s.onCairn f) ↔ Keeps u s := Iff.rfl
@[simp] theorem keeps_setArb (n : Nat) (c : ArbInst) : Keeps u (s.setArb n c) ↔ Keeps u s := Iff.rfl
@[simp] theorem keeps_onArbSel (n : Nat) (c : ArbSel → ArbSel) : Keeps u (s.onArbSel n c) ↔ Keeps u s := Iff.rfl
@[simp] theorem keeps_setReply (r : Reply) : Keeps u (s.setReply r) ↔ Keeps u s := Iff.rfl
@[simp] theorem keeps_onCtl (n : Nat) (f : CoreCtl → CoreCtl) : Keeps u (s.onCtl n f) ↔ Keeps u s := Iff.rfl
@[simp] theorem keeps_onHdr (p : Nat) (f : Hdr → Hdr) : Keeps u (s.onHdr p f) ↔ Keeps u s := Iff.rfl
@[simp] theorem keeps_setPort (p : Nat) (q : Port) : Keeps u (s.setPort p q) ↔ Keeps u s := Iff.rfl
@[simp] theorem keeps_onPort (p : Nat) (f : Port → Port) : Keeps u (s.onPort p f) ↔ Keeps u s := Iff.rfl
@[simp] theorem keeps_onFx (x : Nat) (f : FabCtx → FabCtx) : Keeps u (s.onFx x f) ↔ Keeps u s := Iff.rfl
@[simp] theorem keeps_onChan (x k : Nat) (f : Chan → Chan) : Keeps u (s.onChan x k f) ↔ Keeps u s := Iff.rfl
@[simp] theorem keeps_onSx (x : Nat) (f : SecCtx → SecCtx) : Keeps u (s.onSx x f) ↔ Keeps u s := Iff.rfl
@[simp] theorem keeps_onSlot (i : Nat) (f : Slot → Slot) : Keeps u (s.onSlot i f) ↔ Keeps u s := Iff.rfl
@[simp] theorem keeps_onCan (i : Nat) (f : CanIf → CanIf) : Keeps u (s.onCan i f) ↔ Keeps u s := Iff.rfl
@[simp] theorem keeps_onObj (i k : Nat) (f : RxObj → RxObj) : Keeps u (s.onObj i k f) ↔ Keeps u s := Iff.rfl
@[simp] theorem keeps_onGroup (g : Nat) (f : Group → Group) : Keeps u (s.onGroup g f) ↔ Keeps u s := Iff.rfl
@[simp] theorem keeps_onCool (f : CoolSup → CoolSup) : Keeps u (s.onCool f) ↔ Keeps u s := Iff.rfl
@[simp] theorem keeps_onValve (v : Nat) (f : Valve → Valve) : Keeps u (s.onValve v f) ↔ Keeps u s := Iff.rfl
@[simp] theorem keeps_onMotor (m : Nat) (f : Motor → Motor) : Keeps u (s.onMotor m f) ↔ Keeps u s := Iff.rfl
@[simp] theorem keeps_onInput (k : Nat) (f : Input → Input) : Keeps u (s.onInput k f) ↔ Keeps u s := Iff.rfl
@[simp] theorem keeps_onRope (r : Nat) (f : Rope → Rope) : Keeps u (s.onRope r f) ↔ Keeps u s := Iff.rfl

@[simp] theorem keeps_onSess (d : Bool) (k : Nat) (f : Session → Session) :
    Keeps u (s.onSess d k f) ↔ Keeps u s := keeps_iff_of_only (by simp) u

@[simp] theorem keeps_onHalf (c : Bool) (f : MboxHalf → MboxHalf) : Keeps u (s.onHalf c f) ↔ Keeps u s :=
  keeps_iff_of_only (by simp) u

@[simp] theorem keeps_setImg (k : Nat) (a : ImgArea) : Keeps u (s.setImg k a) ↔ Keeps u s := Iff.rfl
@[simp] theorem keeps_onSensor (k : Nat) (f : Sensor → Sensor) : Keeps u (s.onSensor k f) ↔ Keeps u s := Iff.rfl
@[simp] theorem keeps_onMark (k : Nat) (f : Sensor → Sensor) : Keeps u (s.onMark k f) ↔ Keeps u s := Iff.rfl
@[simp] theorem keeps_setColl (x k : Nat) (c : Option Coll) : Keeps u (s.setColl x k c) ↔ Keeps u s := Iff.rfl

end
end Sys2Proof.Machine
end

section
/-! Events, the store and the completion of commands. -/

namespace Sys2Proof.Machine

open Sys2Proof.Safety

variable {u s : State}

@[simp] theorem keeps_noteUse (w e : Nat) : Keeps u (noteUse w e s) ↔ Keeps u s := keeps_iff_of_only (by simp) u

@[simp] theorem keeps_noteSum (kind core : Nat) (v : Int) : Keeps u (noteSum kind core v s) ↔ Keeps u s :=
  keeps_iff_of_only (by simp) u

@[simp] theorem keeps_sendVec (f v : Nat) : Keeps u (sendVec f v s) ↔ Keeps u s := by
  unfold sendVec; simp

@[simp] theorem keeps_pendSource (src : Nat) : Keeps u (pendSource src s) ↔ Keeps u s := by
  unfold pendSource; simp

@[simp] theorem keeps_signalPage (p : Nat) : Keeps u (signalPage p s) ↔ Keeps u s := by
  unfold signalPage
  (repeat' split) <;> simp

@[simp] theorem keeps_raiseBits (p : Nat) (bits : Word) : Keeps u (raiseBits p bits s) ↔ Keeps u s := by
  unfold raiseBits; simp

@[simp] theorem keeps_raise (p n : Nat) : Keeps u (raise p n s) ↔ Keeps u s := by
  unfold raise; simp

@[simp] theorem keeps_errTrans (p : Nat) : Keeps u (errTrans p s) ↔ Keeps u s := keeps_iff_of_only (by simp) u
@[simp] theorem keeps_errPerm (p : Nat) : Keeps u (errPerm p s) ↔ Keeps u s := keeps_iff_of_only (by simp) u

@[simp] theorem keeps_campEvent (code value : Nat) (arg : Nat) :
    Keeps u (campEvent code value arg s) ↔ Keeps u s := by
  unfold campEvent; simp

@[simp] theorem keeps_capChange : Keeps u (capChange s) ↔ Keeps u s := by
  unfold capChange; simp

@[simp] theorem keeps_physPut (p : Phys) (bs : List Byte) :
    Keeps u (physPut p bs s) ↔ Keeps u s ∨ StillKeeps u (physPut p bs s) :=
  Keeps.iff_or (by unfold physPut; simp) u

@[simp] theorem keeps_physZero (p : Phys) (n : Nat) :
    Keeps u (physZero p n s) ↔ Keeps u s ∨ StillKeeps u (physZero p n s) :=
  Keeps.iff_or (by unfold physZero; simp) u

/-- A write by address reaches the store granule by granule. -/
@[simp] theorem keeps_gwrite (x space o : Nat) (bs : List Byte) :
    Keeps u (gwrite x space o bs s) ↔ Keeps u s ∨ StillKeeps u (gwrite x space o bs s) := by
  refine Keeps.iff_or ?_ u
  unfold gwrite; split
  · split <;> simp
  · exact keeps_forAll (fun e t => by dsimp only; split <;> simp) _ s

@[simp] theorem keeps_gaWrite (x : Nat) (a : DWord) (bs : List Byte) :
    Keeps u (gaWrite x a bs s) ↔ Keeps u s ∨ StillKeeps u (gaWrite x a bs s) :=
  Keeps.iff_or (by unfold gaWrite; simp) u

@[simp] theorem keeps_deliver (f : Nat) (r : HoldRec) : Keeps u (deliver f r s) ↔ Keeps u s := by
  unfold deliver; simp

@[simp] theorem keeps_closeCmd (c : CmdSrc) (kind : Nat) (bytes : List Byte) :
    Keeps u (closeCmd c kind bytes s) ↔ Keeps u s := by
  unfold closeCmd; simp

@[simp] theorem keeps_drainNops (n f i : Nat) : Keeps u (drainNops n f i s) ↔ Keeps u s := by
  induction n generalizing s with
  | zero => exact Iff.rfl
  | succ n ih => unfold drainNops; (repeat' split) <;> simp [ih]

@[simp] theorem keeps_finish (c : CmdSrc) (kind : Nat) (bytes : List Byte) :
    Keeps u (finish c kind bytes s) ↔ Keeps u s := by
  unfold finish; simp

@[simp] theorem keeps_finishGeneric (c : CmdSrc) (st : Status) (result : Nat) :
    Keeps u (finishGeneric c st result s) ↔ Keeps u s := by
  unfold finishGeneric; simp

@[simp] theorem keeps_finishPitch (j : PitchJob) (e : PitchEnd) : Keeps u (finishPitch j e s) ↔ Keeps u s := by
  unfold finishPitch
  (repeat' split) <;> simp

@[simp] theorem keeps_refusePitch (c : CmdSrc) (st : Status) (lcore : Byte) (id : DWord) (x : Nat) :
    Keeps u (refusePitch c st lcore id x s) ↔ Keeps u s := by
  unfold refusePitch; simp

@[simp] theorem keeps_abortJob (j : PitchJob) : Keeps u (abortJob j s) ↔ Keeps u s := by
  unfold abortJob; simp

@[simp] theorem keeps_onLink (k : Nat) (f : Link → Link) : Keeps u (onLink k f s) ↔ Keeps u s :=
  keeps_iff_of_only (by simp) u

@[simp] theorem keeps_retireLink (router dir : Nat) : Keeps u (retireLink router dir s) ↔ Keeps u s := by
  unfold retireLink
  (repeat' split) <;> simp

@[simp] theorem keeps_countHopErr (router dir : Nat) : Keeps u (countHopErr router dir s) ↔ Keeps u s := by
  unfold countHopErr; simp

@[simp] theorem keeps_countLinkFail (router dir : Nat) : Keeps u (countLinkFail router dir s) ↔ Keeps u s := by
  unfold countLinkFail; simp

@[simp] theorem keeps_onBank (g : Nat) (f : LBank → LBank) : Keeps u (onBank g f s) ↔ Keeps u s := by
  unfold onBank; simp

@[simp] theorem keeps_retireBank (g : Nat) : Keeps u (retireBank g s) ↔ Keeps u s := by
  unfold retireBank; simp

@[simp] theorem keeps_countBankFail (g : Nat) : Keeps u (countBankFail g s) ↔ Keeps u s := by
  unfold countBankFail; simp

@[simp] theorem keeps_onPc (q : Nat) (f : PChan → PChan) : Keeps u (onPc q f s) ↔ Keeps u s := by
  unfold onPc; simp

@[simp] theorem keeps_retirePc (q : Nat) : Keeps u (retirePc q s) ↔ Keeps u s := by
  unfold retirePc; simp

@[simp] theorem keeps_countPcCorrected (q : Nat) : Keeps u (countPcCorrected q s) ↔ Keeps u s := by
  unfold countPcCorrected; simp

@[simp] theorem keeps_countPcFail (q : Nat) : Keeps u (countPcFail q s) ↔ Keeps u s := by
  unfold countPcFail; simp

@[simp] theorem keeps_countRefetchOk (w : MemUnit) : Keeps u (countRefetchOk w s) ↔ Keeps u s := by
  unfold countRefetchOk
  (repeat' split) <;> simp

@[simp] theorem keeps_countUnitFail (w : MemUnit) : Keeps u (countUnitFail w s) ↔ Keeps u s := by
  unfold countUnitFail
  (repeat' split) <;> simp

@[simp] theorem keeps_countFailed : Keeps u (countFailed s) ↔ Keeps u s := by
  unfold countFailed; simp

@[simp] theorem keeps_failedRead (x space o n : Nat) : Keeps u (failedRead x space o n s) ↔ Keeps u s := by
  unfold failedRead; dsimp only
  (repeat' split) <;> simp

@[simp] theorem keeps_retireUnit (w : MemUnit) : Keeps u (retireUnit w s) ↔ Keeps u s := by
  unfold retireUnit
  (repeat' split) <;> simp

end Sys2Proof.Machine
end

section
/-! The pitch cores: how a pitch starts, ends and changes its core. -/

namespace Sys2Proof.Machine

open Sys2Proof.Safety

variable {u s : State}

@[simp] theorem keeps_trace (c kind x status idx op : Nat) (id : DWord) :
    Keeps u (trace c kind x status idx op id s) ↔ Keeps u s := by
  unfold trace; simp

@[simp] theorem keeps_haltAck (c : Nat) : Keeps u (haltAck c s) ↔ Keeps u s := by
  unfold haltAck; simp

@[simp] theorem keeps_setCause (c bitNo : Nat) :
    Keeps u (setCause c bitNo s) ↔ Keeps u s ∨ StillKeeps u (setCause c bitNo s) :=
  Keeps.iff_or (by unfold setCause; simp) u

@[simp] theorem keeps_returnBalance (c : Nat) : Keeps u (returnBalance c s) ↔ Keeps u s :=
  keeps_iff_of_only (by simp) u

@[simp] theorem keeps_requeue (js : List PitchJob) :
    Keeps u (requeue js s) ↔ Keeps u s ∨ StillKeeps u (requeue js s) :=
  Keeps.iff_or (by unfold requeue; simp) u

@[simp] theorem keeps_unpend (c : Nat) : Keeps u (unpend c s) ↔ Keeps u s ∨ StillKeeps u (unpend c s) :=
  Keeps.iff_or (by unfold unpend; (repeat' split) <;> simp) u

@[simp] theorem keeps_wipeOwned (x : Nat) : Keeps u (wipeOwned x s) ↔ Keeps u s ∨ StillKeeps u (wipeOwned x s) :=
  Keeps.iff_or (by unfold wipeOwned; simp) u

@[simp] theorem keeps_dropPages (x : Nat) : Keeps u (dropPages x s) ↔ Keeps u s := by
  unfold dropPages; simp

@[simp] theorem keeps_eraseSeal (x : Nat) : Keeps u (eraseSeal x s) ↔ Keeps u s := keeps_iff_of_only (by simp) u

@[simp] theorem keeps_startScrub (x : Nat) : Keeps u (startScrub x s) ↔ Keeps u s ∨ StillKeeps u (startScrub x s) :=
  Keeps.iff_or (by unfold startScrub; simp) u

@[simp] theorem keeps_checkDrain (x : Nat) : Keeps u (checkDrain x s) ↔ Keeps u s ∨ StillKeeps u (checkDrain x s) :=
  Keeps.iff_or (by unfold checkDrain; simp) u

@[simp] theorem keeps_startRun (c : Nat) (j : PitchJob) (fetched : Bool) :
    Keeps u (startRun c j fetched s) ↔ Keeps u s ∨ StillKeeps u (startRun c j fetched s) :=
  Keeps.iff_or (by unfold startRun; simp) u

@[simp] theorem keeps_startNext (c : Nat) : Keeps u (startNext c s) ↔ Keeps u s ∨ StillKeeps u (startNext c s) :=
  Keeps.iff_or (by unfold startNext; (repeat' split) <;> simp) u

@[simp] theorem keeps_wipePlanned : Keeps u (wipePlanned s) ↔ Keeps u s := keeps_iff_of_only (by simp) u

@[simp] theorem keeps_fenceCore (c : Nat) : Keeps u (fenceCore c s) ↔ Keeps u s ∨ StillKeeps u (fenceCore c s) :=
  Keeps.iff_or (by unfold fenceCore; simp) u

@[simp] theorem keeps_fenceIfDue (c : Nat) : Keeps u (fenceIfDue c s) ↔ Keeps u s ∨ StillKeeps u (fenceIfDue c s) :=
  Keeps.iff_or (by unfold fenceIfDue; simp) u

@[simp] theorem keeps_endRun (c : Nat) (st : Status) (faultPc : BitVec 16) :
    Keeps u (endRun c st faultPc s) ↔ Keeps u s ∨ StillKeeps u (endRun c st faultPc s) :=
  Keeps.iff_or (by unfold endRun; (repeat' split) <;> simp) u

@[simp] theorem keeps_stopRun (c : Nat) (counted : Bool) (source : Nat) :
    Keeps u (stopRun c counted source s) ↔ Keeps u s ∨ StillKeeps u (stopRun c counted source s) :=
  Keeps.iff_or (by unfold stopRun; (repeat' split) <;> simp) u

@[simp] theorem keeps_refuseWord (c : Nat) : Keeps u (refuseWord c s) ↔ Keeps u s ∨ StillKeeps u (refuseWord c s) :=
  Keeps.iff_or (by unfold refuseWord; simp) u

@[simp] theorem keeps_issued (c : Nat) (w : DWord) :
    Keeps u (issued c w s) ↔ Keeps u s ∨ StillKeeps u (issued c w s) :=
  Keeps.iff_or (by unfold issued; (repeat' split) <;> simp) u

@[simp] theorem keeps_enqueue (c : Nat) (f : Flight) :
    Keeps u (enqueue c f s) ↔ Keeps u s ∨ StillKeeps u (enqueue c f s) :=
  Keeps.iff_or (by unfold enqueue; simp) u

@[simp] theorem keeps_markDone (c pc : Nat) :
    Keeps u (markDone c pc s) ↔ Keeps u s ∨ StillKeeps u (markDone c pc s) :=
  Keeps.iff_or (by unfold markDone; simp) u

@[simp] theorem keeps_retire (c pc : Nat) : Keeps u (retire c pc s) ↔ Keeps u s ∨ StillKeeps u (retire c pc s) :=
  Keeps.iff_or (by unfold retire; (repeat' split) <;> simp) u

theorem keeps_of_loadStep {c : Nat} {f : Flight} {r : Run} {t : State} (h : loadStep c f r s = some t) : Keeps s t := by
  unfold loadStep at h
  (repeat' split at h) <;> cases h <;> simp

theorem keeps_of_gridStep {c : Nat} {f : Flight} {r : Run} {t : State} (h : gridStep c f r s = some t) : Keeps s t := by
  unfold gridStep at h
  dsimp only at h
  (repeat' split at h) <;> cases h <;> simp

@[simp] theorem keeps_applyReport (c : Nat) (r : Report) :
    Keeps u (applyReport c r s) ↔ Keeps u s ∨ StillKeeps u (applyReport c r s) :=
  Keeps.iff_or (by unfold applyReport; simp) u

@[simp] theorem keeps_readOut (c : Nat) (fmt : BitVec 4) (rm : BitVec 3) (clr vr : Bool) (e0 : BitVec 8) (n : BitVec 9)
    (dst : BitVec 21) (cs cc : BitVec 2) :
    Keeps u (readOut c fmt rm clr vr e0 n dst cs cc s) ↔
      Keeps u s ∨ StillKeeps u (readOut c fmt rm clr vr e0 n dst cs cc s) := by
  refine Keeps.iff_or ?_ u
  unfold readOut; split
  · cases clr <;> cases vr <;> simp [foldl_pm]
  · exact keeps_self s

@[simp] theorem keeps_exportRows (c : Nat) (e0 n dst : Nat) (cs cc : BitVec 2) :
    Keeps u (exportRows c e0 n dst cs cc s) ↔ Keeps u s ∨ StillKeeps u (exportRows c e0 n dst cs cc s) :=
  Keeps.iff_or (by unfold exportRows; simp) u

@[simp] theorem keeps_mergeRows (c : Nat) (e0 n src : Nat) (cs cc : BitVec 2) :
    Keeps u (mergeRows c e0 n src cs cc s) ↔ Keeps u s ∨ StillKeeps u (mergeRows c e0 n src cs cc s) := by
  refine Keeps.iff_or ?_ u
  unfold mergeRows; simp [foldl_pm]

@[simp] theorem keeps_anchorWork (c : Nat) (i : PitchInstr) :
    Keeps u (anchorWork c i s) ↔ Keeps u s ∨ StillKeeps u (anchorWork c i s) :=
  Keeps.iff_or (by unfold anchorWork; (repeat' split) <;> simp) u

theorem keeps_of_anchorStep {c : Nat} {f : Flight} {r : Run} {t : State} (h : anchorStep c f r s = some t) :
    Keeps s t := by
  unfold anchorStep at h
  split at h
  · cases h
  split at h <;> cases h
  simp

theorem keeps_of_vecStep {c : Nat} {f : Flight} {r : Run} {t : State} (h : vecStep c f r s = some t) : Keeps s t := by
  unfold vecStep at h
  dsimp only at h
  (repeat' split at h) <;> cases h <;> simp

end Sys2Proof.Machine
end

section
/-! Fabric ports and the data that they deliver. -/

namespace Sys2Proof.Machine

open Sys2Proof.Safety

variable {u s : State}

@[simp] theorem keeps_pumpTx (p : Nat) : Keeps u (pumpTx p s) ↔ Keeps u s := keeps_iff_of_only (by simp) u

@[simp] theorem keeps_queueOn (p : Nat) (b : FabBlock) (origin : Option CtxId) :
    Keeps u (queueOn p b origin s) ↔ Keeps u s := keeps_iff_of_only (by simp) u

@[simp] theorem keeps_freeBuf (inPort : Option PortId) (b : FabBlock) : Keeps u (freeBuf inPort b s) ↔ Keeps u s := by
  unfold freeBuf
  (repeat' split) <;> simp

@[simp] theorem keeps_recordReturn (x : CtxId) (node : BitVec 16) (job : BitVec 12) (ch : BitVec 4)
    (vl : BitVec 2) (reason : BitVec 4) (unknown : Bool) :
    Keeps u (recordReturn x node job ch vl reason unknown s) ↔
      Keeps u s := keeps_iff_of_only (by simp) u

@[simp] theorem keeps_endCopy (w : WinCopy) (st : Status) : Keeps u (endCopy w st s) ↔ Keeps u s := by
  unfold endCopy; simp

@[simp] theorem keeps_takeReturn (b : FabBlock) : Keeps u (takeReturn b s) ↔ Keeps u s := by
  unfold takeReturn; dsimp only
  (repeat' split) <;> simp

@[simp] theorem keeps_answered (w : WinCopy) (k : Nat) : Keeps u (answered w k s) ↔ Keeps u s := by
  unfold answered; simp

@[simp] theorem keeps_takeAck (b : FabBlock) : Keeps u (takeAck b s) ↔ Keeps u s := by
  unfold takeAck
  (repeat' split) <;> simp

@[simp] theorem keeps_takeRdd (b : FabBlock) : Keeps u (takeRdd b s) ↔ Keeps u s ∨ StillKeeps u (takeRdd b s) :=
  Keeps.iff_or (by unfold takeRdd; (repeat' split) <;> simp) u

@[simp] theorem keeps_sendBack (b : FabBlock) : Keeps u (sendBack b s) ↔ Keeps u s ∨ StillKeeps u (sendBack b s) :=
  Keeps.iff_or (by unfold sendBack; (repeat' split) <;> simp) u

@[simp] theorem keeps_sendReturn (b : FabBlock) (reason : Nat) (inPort : Option PortId) :
    Keeps u (sendReturn b reason inPort s) ↔ Keeps u s ∨ StillKeeps u (sendReturn b reason inPort s) :=
  Keeps.iff_or (by unfold sendReturn; simp) u

@[simp] theorem keeps_putLines (x ch : Nat) (b : FabBlock) :
    Keeps u (putLines x ch b s) ↔ Keeps u s ∨ StillKeeps u (putLines x ch b s) :=
  Keeps.iff_or (by unfold putLines; simp) u

@[simp] theorem keeps_deliverData (b : FabBlock) (inPort : Option PortId) :
    Keeps u (deliverData b inPort s) ↔ Keeps u s ∨ StillKeeps u (deliverData b inPort s) :=
  Keeps.iff_or (by unfold deliverData; (repeat' split) <;> simp) u

@[simp] theorem keeps_drainChan (n x ch : Nat) :
    Keeps u (drainChan n x ch s) ↔ Keeps u s ∨ StillKeeps u (drainChan n x ch s) := by
  refine Keeps.iff_or ?_ u
  induction n generalizing s with
  | zero => exact keeps_self s
  | succ n ih =>
    unfold drainChan; dsimp only; (repeat' split)
    · exact keeps_self s
    · exact Keeps.trans (by simp) ih
    · exact keeps_self s

@[simp] theorem keeps_returnWaiting (x ch reason : Nat) :
    Keeps u (returnWaiting x ch reason s) ↔ Keeps u s ∨ StillKeeps u (returnWaiting x ch reason s) :=
  Keeps.iff_or (by unfold returnWaiting; simp) u

@[simp] theorem keeps_takeWinWr (b : FabBlock) (inPort : Option PortId) :
    Keeps u (takeWinWr b inPort s) ↔ Keeps u s ∨ StillKeeps u (takeWinWr b inPort s) :=
  Keeps.iff_or (by unfold takeWinWr; (repeat' split) <;> simp) u

@[simp] theorem keeps_takeWinRd (b : FabBlock) (inPort : Option PortId) :
    Keeps u (takeWinRd b inPort s) ↔ Keeps u s ∨ StillKeeps u (takeWinRd b inPort s) :=
  Keeps.iff_or (by unfold takeWinRd; (repeat' split) <;> simp) u

@[simp] theorem keeps_emit (b : FabBlock) (origin : Option CtxId) (inPort : Option PortId) :
    Keeps u ((emit b origin inPort s).st) ↔ Keeps u s ∨ StillKeeps u ((emit b origin inPort s).st) :=
  Keeps.iff_or (by unfold emit; (repeat' split) <;> simp) u

@[simp] theorem keeps_emitLater (b : FabBlock) (origin : Option CtxId) (inPort : Option PortId) :
    Keeps u (emitLater b origin inPort s) ↔ Keeps u s ∨ StillKeeps u (emitLater b origin inPort s) :=
  Keeps.iff_or (by unfold emitLater; dsimp only; (repeat' split) <;> simp) u

@[simp] theorem keeps_releaseHeld : Keeps u (releaseHeld s) ↔ Keeps u s ∨ StillKeeps u (releaseHeld s) :=
  Keeps.iff_or (by unfold releaseHeld; simp) u

@[simp] theorem keeps_startHold (node : Nat) : Keeps u (startHold node s) ↔ Keeps u s := by
  unfold startHold; simp

@[simp] theorem keeps_portChanged (p : Nat) :
    Keeps u (portChanged p s) ↔ Keeps u s ∨ StillKeeps u (portChanged p s) :=
  Keeps.iff_or (by unfold portChanged; simp) u

@[simp] theorem keeps_portDown (p : Nat) (st : PortSt) :
    Keeps u (portDown p st s) ↔ Keeps u s ∨ StillKeeps u (portDown p st s) :=
  Keeps.iff_or (by unfold portDown; simp) u

@[simp] theorem keeps_startTraining (p : Nat) : Keeps u (startTraining p s) ↔ Keeps u s :=
  keeps_iff_of_only (by simp) u

@[simp] theorem keeps_enterUp (p : Nat) : Keeps u (enterUp p s) ↔ Keeps u s ∨ StillKeeps u (enterUp p s) :=
  Keeps.iff_or (by unfold enterUp; simp) u

@[simp] theorem keeps_disposeBlocks (p : Nat) (bs : List TxBlk) :
    Keeps u (disposeBlocks p bs s) ↔ Keeps u s ∨ StillKeeps u (disposeBlocks p bs s) := by
  refine Keeps.iff_or ?_ u
  unfold disposeBlocks; dsimp only; split
  · simp
  · exact keeps_forAll (fun b t => by (repeat' split) <;> simp) bs s

@[simp] theorem keeps_afterExchange (p : Nat) :
    Keeps u (afterExchange p s) ↔ Keeps u s ∨ StillKeeps u (afterExchange p s) :=
  Keeps.iff_or (by unfold afterExchange; simp) u

@[simp] theorem keeps_beginReset (p : Nat) (why : Nat) :
    Keeps u (beginReset p why s) ↔ Keeps u s ∨ StillKeeps u (beginReset p why s) :=
  Keeps.iff_or (by unfold beginReset; simp) u

@[simp] theorem keeps_exchange (p : Nat) (last : BitVec 12) (os : List Nat) :
    Keeps u (exchange p last os s) ↔ Keeps u s := keeps_iff_of_only (by simp) u

@[simp] theorem keeps_retireLane (p l : Nat) : Keeps u (retireLane p l s) ↔ Keeps u s := by
  unfold retireLane; simp

@[simp] theorem keeps_countRetry (p : Nat) (lanes : BitVec 4) :
    Keeps u (countRetry p lanes s) ↔ Keeps u s ∨ StillKeeps u (countRetry p lanes s) :=
  Keeps.iff_or (by unfold countRetry; simp) u

end Sys2Proof.Machine
end

section
/-! The steps of a core and the rules of a pitch. -/

namespace Sys2Proof.Machine

open Sys2Proof.Safety

variable {u s : State}

theorem keeps_of_moveStep {c : Nat} {f : Flight} {r : Run} {t : State} (h : moveStep c f r s = some t) : Keeps s t := by
  unfold moveStep at h
  dsimp only at h
  (repeat' split at h) <;> cases h <;> simp

/-- A step of a unit, whichever unit takes it. -/
theorem keeps_of_unitStep {c w : Nat} {t : State} (h : unitStep c w s = some t) : Keeps s t := by
  unfold unitStep at h
  split at h
  · cases h
  split at h
  · cases h
  split at h
  · exact keeps_of_loadStep h
  · exact keeps_of_gridStep h
  · exact keeps_of_anchorStep h
  · exact keeps_of_vecStep h
  · exact keeps_of_moveStep h

/-- The units of a core step until none can. -/
@[simp] theorem keeps_pumpN (n c : Nat) : Keeps u (pumpN n c s) ↔ Keeps u s ∨ StillKeeps u (pumpN n c s) := by
  refine Keeps.iff_or ?_ u
  induction n generalizing s with
  | zero => exact keeps_self s
  | succ n ih =>
    unfold pumpN; split
    · next t ht =>
      obtain ⟨w, -, hw⟩ := List.exists_of_findSome?_eq_some ht
      exact (keeps_of_unitStep hw).trans ih
    · exact keeps_self s

@[simp] theorem keeps_pumpUnits (c : Nat) : Keeps u (pumpUnits c s) ↔ Keeps u s ∨ StillKeeps u (pumpUnits c s) :=
  Keeps.iff_or (by unfold pumpUnits; simp) u

/-- An issued instruction keeps the form where its effect at issue does. -/
@[simp] theorem keeps_issueWith (want : PitchInstr → Bool) (eff : Nat → PitchInstr → State → State) (c : Nat)
    (h : ∀ c i t, Keeps t (eff c i t)) :
    Keeps u (issueWith want eff c s) ↔ Keeps u s ∨ StillKeeps u (issueWith want eff c s) := by
  have heff : ∀ u i t, Keeps u (eff c i t) ↔ Keeps u t ∨ StillKeeps u (eff c i t) := fun u i t => (h c i t).iff_or u
  refine Keeps.iff_or ?_ u
  unfold issueWith; dsimp only; (repeat' split) <;> simp [heff]

@[simp] theorem keeps_issueAs (want : PitchInstr → Bool) (c : Nat) :
    Keeps u (issueAs want c s) ↔ Keeps u s ∨ StillKeeps u (issueAs want c s) :=
  keeps_issueWith want (fun _ _ t => t) c fun _ _ t => keeps_self t

@[simp] theorem keeps_ready (c : Nat) : Keeps u (ready c s) ↔ Keeps u s ∨ StillKeeps u (ready c s) := by
  refine Keeps.iff_or ?_ u
  unfold ready
  exact keeps_setCore c fun hs => by
    have := memoryOk_core hs c
    dsimp only; (repeat' split) <;> assumption

@[simp] theorem keeps_programFetch (c : Nat) (crcFail : Bool) :
    Keeps u (programFetch c crcFail s) ↔ Keeps u s ∨ StillKeeps u (programFetch c crcFail s) :=
  Keeps.iff_or (by unfold programFetch; (repeat' split) <;> simp) u

@[simp] theorem keeps_dispatch (l : Nat) : Keeps u (dispatch l s) ↔ Keeps u s ∨ StillKeeps u (dispatch l s) :=
  Keeps.iff_or (by unfold dispatch; (repeat' split) <;> simp) u

@[simp] theorem keeps_publishOut (c : Nat) (r : Run) (m : OutMove) :
    Keeps u (publishOut c r m s) ↔ Keeps u s ∨ StillKeeps u (publishOut c r m s) :=
  Keeps.iff_or (by unfold publishOut; simp) u

theorem keeps_publishSnd (c : Nat) (r : Run) (m : SndMove) (s : State) : Keeps s (publishSnd c r m s).1 :=
  keeps_foldl (fun _ _ => by simp) (sndBlocks s c r m) (s, false)

@[simp] theorem keeps_publishReads (r : Run) :
    Keeps u (publishReads r s) ↔ Keeps u s ∨ StillKeeps u (publishReads r s) :=
  Keeps.iff_or (by unfold publishReads; simp) u

@[simp] theorem keeps_publishSig (x : Nat) (e : BitVec 6 × BitVec 16) :
    Keeps u (publishSig x e s) ↔ Keeps u s ∨ StillKeeps u (publishSig x e s) :=
  Keeps.iff_or (by unfold publishSig; simp) u

/-- The outputs, messages and signals of a pitch go out one after the other. -/
@[simp] theorem keeps_publish (c : Nat) (r : Run) :
    Keeps u (publish c r s) ↔ Keeps u s ∨ StillKeeps u (publish c r s) := by
  refine Keeps.iff_or ?_ u
  have houts : Keeps s (forAll r.outs (fun m t => publishOut c r m t) s) := by simp
  have hsnds := keeps_foldl (f := fun b m => ((publishSnd c r m b.1).1, b.2 || (publishSnd c r m b.1).2))
    (fun b m => keeps_publishSnd c r m b.1) r.snds (forAll r.outs (fun m t => publishOut c r m t) s, false)
  unfold publish; simp [houts.trans hsnds]

@[simp] theorem keeps_commit (c : Nat) : Keeps u (commit c s) ↔ Keeps u s ∨ StillKeeps u (commit c s) :=
  Keeps.iff_or (by unfold commit; (repeat' split) <;> simp) u

@[simp] theorem keeps_cutoff (c : Nat) : Keeps u (cutoff c s) ↔ Keeps u s ∨ StillKeeps u (cutoff c s) :=
  Keeps.iff_or (by unfold cutoff; (repeat' split) <;> simp) u

@[simp] theorem keeps_watchdog (c : Nat) : Keeps u (watchdog c s) ↔ Keeps u s ∨ StillKeeps u (watchdog c s) :=
  Keeps.iff_or (by unfold watchdog; (repeat' split) <;> simp) u

@[simp] theorem keeps_reachBoundary (c : Nat) : Keeps u (reachBoundary c s) ↔ Keeps u s := by
  unfold reachBoundary; simp

@[simp] theorem keeps_unhold (c : Nat) : Keeps u (unhold c s) ↔ Keeps u s := keeps_iff_of_only (by simp) u

@[simp] theorem keeps_placeReissue (j : PitchJob) (l : Nat) :
    Keeps u (placeReissue j l s) ↔ Keeps u s ∨ StillKeeps u (placeReissue j l s) :=
  Keeps.iff_or (by unfold placeReissue; (repeat' split) <;> simp) u

@[simp] theorem keeps_reissue (j : PitchJob) : Keeps u (reissue j s) ↔ Keeps u s ∨ StillKeeps u (reissue j s) :=
  Keeps.iff_or (by unfold reissue; dsimp only; (repeat' split) <;> simp) u

@[simp] theorem keeps_retryWaiting : Keeps u (retryWaiting s) ↔ Keeps u s ∨ StillKeeps u (retryWaiting s) :=
  Keeps.iff_or (by unfold retryWaiting; simp) u

@[simp] theorem keeps_countCore (c source : Nat) : Keeps u (countCore c source s) ↔ Keeps u s := by
  unfold countCore; simp

@[simp] theorem keeps_giveUp (r : StopRec) : Keeps u (giveUp r s) ↔ Keeps u s ∨ StillKeeps u (giveUp r s) :=
  Keeps.iff_or (by unfold giveUp; (repeat' split) <;> simp) u

@[simp] theorem keeps_stopRecord (c : Nat) : Keeps u (stopRecord c s) ↔ Keeps u s ∨ StillKeeps u (stopRecord c s) :=
  Keeps.iff_or (by unfold stopRecord; (repeat' split) <;> simp) u

@[simp] theorem keeps_wipeOver (c : Nat) (done : Bool) :
    Keeps u (wipeOver c done s) ↔ Keeps u s ∨ StillKeeps u (wipeOver c done s) :=
  Keeps.iff_or (by unfold wipeOver; simp) u

end Sys2Proof.Machine
end

section
/-! Port training, key rotation and collectives. -/

namespace Sys2Proof.Machine

open Sys2Proof.Safety

variable {u s : State}

@[simp] theorem keeps_enablePort (p : Nat) : Keeps u (enablePort p s) ↔ Keeps u s := keeps_iff_of_only (by simp) u
@[simp] theorem keeps_drawTrng : Keeps u (drawTrng s) ↔ Keeps u s := keeps_iff_of_only (by simp) u

@[simp] theorem keeps_sendKey (p : Nat) (ct : Bool) : Keeps u (sendKey p ct s) ↔ Keeps u s :=
  keeps_iff_of_only (by simp) u

@[simp] theorem keeps_laneSet (p : Nat) (lanes failed : BitVec 4) :
    Keeps u (laneSet p lanes failed s) ↔ Keeps u s ∨ StillKeeps u (laneSet p lanes failed s) :=
  Keeps.iff_or (by unfold laneSet; simp) u

@[simp] theorem keeps_trainingTimeout (p : Nat) :
    Keeps u (trainingTimeout p s) ↔ Keeps u s ∨ StillKeeps u (trainingTimeout p s) :=
  Keeps.iff_or (by unfold trainingTimeout; simp) u

@[simp] theorem keeps_disablePort (p : Nat) :
    Keeps u (disablePort p s) ↔ Keeps u s ∨ StillKeeps u (disablePort p s) :=
  Keeps.iff_or (by unfold disablePort; dsimp only; (repeat' split) <;> simp) u

@[simp] theorem keeps_retrainPort (p : Nat) :
    Keeps u (retrainPort p s) ↔ Keeps u s ∨ StillKeeps u (retrainPort p s) :=
  Keeps.iff_or (by unfold retrainPort; simp) u

@[simp] theorem keeps_startRotation (p : Nat) : Keeps u (startRotation p s) ↔ Keeps u s :=
  keeps_iff_of_only (by simp) u

@[simp] theorem keeps_rotatePort (p : Nat) : Keeps u (rotatePort p s) ↔ Keeps u s := keeps_iff_of_only (by simp) u

@[simp] theorem keeps_judgeAudit (p v : Nat) (k sSent sCred : Word) :
    Keeps u (judgeAudit p v k sSent sCred s) ↔ Keeps u s ∨ StillKeeps u (judgeAudit p v k sSent sCred s) :=
  Keeps.iff_or (by unfold judgeAudit; simp) u

@[simp] theorem keeps_acceptRun (p gen run : Nat) (bs : List FabBlock) :
    Keeps u (acceptRun p gen run bs s) ↔ Keeps u s ∨ StillKeeps u (acceptRun p gen run bs s) :=
  Keeps.iff_or (by unfold acceptRun; simp) u

@[simp] theorem keeps_refuseRun (p : Nat) (lanes : BitVec 4) :
    Keeps u (refuseRun p lanes s) ↔ Keeps u s ∨ StillKeeps u (refuseRun p lanes s) :=
  Keeps.iff_or (by unfold refuseRun; simp) u

@[simp] theorem keeps_tagRx (p : Nat) (bs : List FabBlock) (tag : BitVec 128) (lanes : BitVec 4) :
    Keeps u (tagRx p bs tag lanes s) ↔ Keeps u s ∨ StillKeeps u (tagRx p bs tag lanes s) :=
  Keeps.iff_or (by unfold tagRx; dsimp only; (repeat' split) <;> simp) u

@[simp] theorem keeps_rotationDone (p : Nat) (last : BitVec 12) : Keeps u (rotationDone p last s) ↔ Keeps u s := by
  unfold rotationDone
  (repeat' split) <;> simp

@[simp] theorem keeps_ackRx (p : Nat) (last : BitVec 12) (crs : List (BitVec 6)) :
    Keeps u (ackRx p last crs s) ↔ Keeps u s := by
  unfold ackRx; simp

@[simp] theorem keeps_resendFrom (p : Nat) (first : Option (BitVec 12)) (lanes : BitVec 4) :
    Keeps u (resendFrom p first lanes s) ↔ Keeps u s ∨ StillKeeps u (resendFrom p first lanes s) :=
  Keeps.iff_or (by unfold resendFrom; dsimp only; (repeat' split) <;> simp) u

@[simp] theorem keeps_resetRx (p : Nat) (cause : Byte) (last : BitVec 12) (os : List Nat) :
    Keeps u (resetRx p cause last os s) ↔ Keeps u s ∨ StillKeeps u (resetRx p cause last os s) :=
  Keeps.iff_or (by unfold resetRx; simp) u

@[simp] theorem keeps_exchangeTimeout (p : Nat) :
    Keeps u (exchangeTimeout p s) ↔ Keeps u s ∨ StillKeeps u (exchangeTimeout p s) :=
  Keeps.iff_or (by unfold exchangeTimeout; dsimp only; (repeat' split) <;> simp) u

@[simp] theorem keeps_postDelivery (x : Nat) : Keeps u (postDelivery x s) ↔ Keeps u s := by
  unfold postDelivery
  (repeat' split) <;> simp

@[simp] theorem keeps_writeRoute (node ports : BitVec 16) : Keeps u (writeRoute node ports s) ↔ Keeps u s := by
  unfold writeRoute; simp

@[simp] theorem keeps_clearBroken (x ch : Nat) : Keeps u (clearBroken x ch s) ↔ Keeps u s :=
  keeps_iff_of_only (by simp) u

@[simp] theorem keeps_sendTransfer (x : CtxId) (k rank base : Nat) (bytes : List Byte) :
    Keeps u (sendTransfer x k rank base bytes s) ↔ Keeps u s ∨ StillKeeps u (sendTransfer x k rank base bytes s) :=
  Keeps.iff_or (by unfold sendTransfer; (repeat' split) <;> simp) u

@[simp] theorem keeps_gotResult (x : CtxId) (k o root base : Nat) (bytes : List Byte) :
    Keeps u (gotResult x k o root base bytes s) ↔ Keeps u s ∨ StillKeeps u (gotResult x k o root base bytes s) :=
  Keeps.iff_or (by unfold gotResult; (repeat' split) <;> simp) u

@[simp] theorem keeps_reduceStep (x : CtxId) (k : Nat) :
    Keeps u (reduceStep x k s) ↔ Keeps u s ∨ StillKeeps u (reduceStep x k s) :=
  Keeps.iff_or (by unfold reduceStep; dsimp only; (repeat' split) <;> simp) u

@[simp] theorem keeps_castStep (x : CtxId) (k : Nat) :
    Keeps u (castStep x k s) ↔ Keeps u s ∨ StillKeeps u (castStep x k s) :=
  Keeps.iff_or (by unfold castStep; (repeat' split) <;> simp) u

@[simp] theorem keeps_collRx (b : FabBlock) (inPort : Option PortId) :
    Keeps u (collRx b inPort s) ↔ Keeps u s ∨ StillKeeps u (collRx b inPort s) :=
  Keeps.iff_or (by unfold collRx; dsimp only; (repeat' split) <;> simp) u

/-- A collective that is ready writes its result line by line. -/
@[simp] theorem keeps_collComplete (x : CtxId) (k : Nat) :
    Keeps u (collComplete x k s) ↔ Keeps u s ∨ StillKeeps u (collComplete x k s) := by
  refine Keeps.iff_or ?_ u
  unfold collComplete; dsimp only; split
  · exact keeps_self s
  split
  · exact keeps_self s
  rw [keeps_finishGeneric, keeps_setColl]
  split
  · exact keeps_forAll (fun e t => by split <;> simp) _ s
  · exact keeps_self s

@[simp] theorem keeps_abortColl (x k : Nat) : Keeps u (abortColl x k s) ↔ Keeps u s := by
  unfold abortColl
  (repeat' split) <;> simp

@[simp] theorem keeps_abortColls (x : Nat) : Keeps u (abortColls x s) ↔ Keeps u s := by
  unfold abortColls; simp

@[simp] theorem keeps_submitColl (src : CmdSrc) (x : CtxId) (d : List Byte) :
    Keeps u (submitColl src x d s) ↔ Keeps u s ∨ StillKeeps u (submitColl src x d s) :=
  Keeps.iff_or (by unfold submitColl; dsimp only; (repeat' split) <;> simp) u

@[simp] theorem keeps_submitWcopy (src : CmdSrc) (x : CtxId) (op rank : Nat) (addr off len : DWord) :
    Keeps u (submitWcopy src x op rank addr off len s) ↔ Keeps u s ∨
      StillKeeps u (submitWcopy src x op rank addr off len s) :=
  Keeps.iff_or (by unfold submitWcopy; (repeat' split) <;> simp) u

end Sys2Proof.Machine
end

section
/-! Contexts, their slots and the save records. -/

namespace Sys2Proof.Machine

open Sys2Proof.Safety

variable {u s : State}

@[simp] theorem keeps_refuseWrite (x reason : Nat) :
    Keeps u (refuseWrite x reason s) ↔ Keeps u s ∨ StillKeeps u (refuseWrite x reason s) :=
  Keeps.iff_or (by unfold refuseWrite; simp) u

@[simp] theorem keeps_partitionTake (x off : Nat) (v : Word) :
    Keeps u (partitionTake x off v s) ↔ Keeps u s ∨ StillKeeps u (partitionTake x off v s) :=
  Keeps.iff_or (by unfold partitionTake; (repeat' split) <;> simp) u

@[simp] theorem keeps_writeChecked (x : Nat) (why : Option Nat) (take : State → State) (h : ∀ t, Keeps t (take t)) :
    Keeps u (writeChecked x why take s) ↔ Keeps u s ∨ StillKeeps u (writeChecked x why take s) := by
  refine Keeps.iff_or ?_ u
  unfold writeChecked; split <;> simp [h]

@[simp] theorem keeps_writeTeam (x i : Nat) (v : Word) :
    Keeps u (writeTeam x i v s) ↔ Keeps u s ∨ StillKeeps u (writeTeam x i v s) :=
  Keeps.iff_or (by unfold writeTeam; simp) u

@[simp] theorem keeps_writeLive (x i : Nat) (v : Word) :
    Keeps u (writeLive x i v s) ↔ Keeps u s ∨ StillKeeps u (writeLive x i v s) :=
  Keeps.iff_or (by unfold writeLive; simp) u

@[simp] theorem keeps_writeShadow (x i : Nat) (v : Word) :
    Keeps u (writeShadow x i v s) ↔ Keeps u s ∨ StillKeeps u (writeShadow x i v s) :=
  Keeps.iff_or (by unfold writeShadow; simp) u

@[simp] theorem keeps_writeCounts (x : Nat) (v : Word) :
    Keeps u (writeCounts x v s) ↔ Keeps u s ∨ StillKeeps u (writeCounts x v s) :=
  Keeps.iff_or (by unfold writeCounts; simp) u

@[simp] theorem keeps_writeBar (x ctr : Nat) (v : Word) :
    Keeps u (writeBar x ctr v s) ↔ Keeps u s ∨ StillKeeps u (writeBar x ctr v s) :=
  Keeps.iff_or (by unfold writeBar; simp) u

@[simp] theorem keeps_claimCores : Keeps u (claimCores s) ↔ Keeps u s := keeps_iff_of_only (by simp) u

@[simp] theorem keeps_zeroCounters (x : Nat) :
    Keeps u (zeroCounters x s) ↔ Keeps u s ∨ StillKeeps u (zeroCounters x s) :=
  Keeps.iff_or (by unfold zeroCounters; simp) u

@[simp] theorem keeps_enableCtx (x : Nat) : Keeps u (enableCtx x s) ↔ Keeps u s ∨ StillKeeps u (enableCtx x s) :=
  Keeps.iff_or (by unfold enableCtx; simp) u

@[simp] theorem keeps_pullUnstarted (x : Nat) (keep : PitchJob → Bool) :
    Keeps u ((pullUnstarted x keep s).1) ↔ Keeps u s ∨ StillKeeps u ((pullUnstarted x keep s).1) :=
  Keeps.iff_or (by unfold pullUnstarted; simp) u

@[simp] theorem keeps_abortAll (js : List PitchJob) : Keeps u (abortAll js s) ↔ Keeps u s := by
  unfold abortAll; simp

@[simp] theorem keeps_disableCtx (x : Nat) : Keeps u (disableCtx x s) ↔ Keeps u s ∨ StillKeeps u (disableCtx x s) :=
  Keeps.iff_or (by unfold disableCtx; simp) u

@[simp] theorem keeps_pullSaved (x : Nat) (sel : Nat → Bool) :
    Keeps u ((pullSaved x sel s).1) ↔ Keeps u s ∨ StillKeeps u ((pullSaved x sel s).1) :=
  Keeps.iff_or (by unfold pullSaved; simp) u

@[simp] theorem keeps_drainTimeout (x : Nat) :
    Keeps u (drainTimeout x s) ↔ Keeps u s ∨ StillKeeps u (drainTimeout x s) :=
  Keeps.iff_or (by unfold drainTimeout; simp) u

@[simp] theorem keeps_readbackFail (x : Nat) (w : MemUnit) (again : Bool) :
    Keeps u (readbackFail x w again s) ↔ Keeps u s ∨ StillKeeps u (readbackFail x w again s) :=
  Keeps.iff_or (by unfold readbackFail; simp) u

@[simp] theorem keeps_zeroPartitions (x : Nat) :
    Keeps u (zeroPartitions x s) ↔ Keeps u s ∨ StillKeeps u (zeroPartitions x s) :=
  Keeps.iff_or (by unfold zeroPartitions; simp) u

@[simp] theorem keeps_reachDisabled (x : Nat) : Keeps u (reachDisabled x s) ↔ Keeps u s := by
  unfold reachDisabled; simp

@[simp] theorem keeps_scrubDone (x : Nat) : Keeps u (scrubDone x s) ↔ Keeps u s ∨ StillKeeps u (scrubDone x s) :=
  Keeps.iff_or (by unfold scrubDone; simp) u

/-- A granule newly mapped in place of a lost one is cleared (R152, R186). -/
@[simp] theorem keeps_applyMap (x : Nat) : Keeps u (applyMap x s) ↔ Keeps u s ∨ StillKeeps u (applyMap x s) := by
  refine Keeps.iff_or ?_ u
  unfold applyMap
  refine Keeps.trans (keeps_forAll (fun e t => ?_) _ s) (keeps_setCx x fun hs => memoryOk_cx hs x)
  dsimp only; (repeat' split) <;> simp

@[simp] theorem keeps_stopSaved (c : Nat) (js : List PitchJob) : Keeps u (stopSaved c js s) ↔ Keeps u s :=
  keeps_iff_of_only (by simp) u

@[simp] theorem keeps_loseCore (x l : Nat) (empty : Bool) :
    Keeps u (loseCore x l empty s) ↔ Keeps u s ∨ StillKeeps u (loseCore x l empty s) :=
  Keeps.iff_or (by unfold loseCore; dsimp only; (repeat' split) <;> simp) u

@[simp] theorem keeps_applyWaiting (x : Nat) :
    Keeps u (applyWaiting x s) ↔ Keeps u s ∨ StillKeeps u (applyWaiting x s) :=
  Keeps.iff_or (by unfold applyWaiting; simp) u

@[simp] theorem keeps_freeSlots : Keeps u (freeSlots s) ↔ Keeps u s ∨ StillKeeps u (freeSlots s) :=
  Keeps.iff_or (by unfold freeSlots; simp) u

@[simp] theorem keeps_promote : Keeps u (promote s) ↔ Keeps u s := by
  unfold promote; simp

@[simp] theorem keeps_reduceOne (f : Nat) : Keeps u (reduceOne f s) ↔ Keeps u s ∨ StillKeeps u (reduceOne f s) :=
  Keeps.iff_or (by unfold reduceOne; dsimp only; (repeat' split) <;> simp) u

@[simp] theorem keeps_shrink (n : Nat) : Keeps u (shrink n s) ↔ Keeps u s ∨ StillKeeps u (shrink n s) := by
  refine Keeps.iff_or ?_ u
  induction n generalizing s with
  | zero => exact keeps_self s
  | succ n ih =>
    unfold shrink; split
    · exact keeps_self s
    · exact Keeps.trans (by simp) ih

/-- R199, R200: the next entry of the rotation leaves the contexts themselves. -/
@[simp] theorem keeps_nextEntry : Keeps u (nextEntry s) ↔ Keeps u s := by
  unfold nextEntry; dsimp only; split
  · rw [keeps_raise]; exact Iff.rfl
  · exact Iff.rfl

/-- R201, R203: the record that a context saves has the kept part of the memory of the core. -/
@[simp] theorem keeps_switchOut (c l : Nat) :
    Keeps u (switchOut c l s) ↔ Keeps u s ∨ StillKeeps u (switchOut c l s) := by
  refine Keeps.iff_or ?_ u
  unfold switchOut; dsimp only; (repeat' split)
  · exact keeps_self s
  · next r _ _ =>
    have hbalance : Keeps s (returnBalance c s) := by simp
    have hsaved : Keeps s ((returnBalance c s).onCx r.job.ctx.val fun x =>
        { x with saved := fput none l (some ((s.core c).record r)) x.saved }) :=
      fun hs => keeps_onCx_save _ l (record_wf (s.core c) r (memoryOk_core hs c)) (hbalance hs)
    exact hsaved.trans (keeps_setCore c fun hs => memoryOk_core hs c)
  · simp

@[simp] theorem keeps_switchCore (c : Nat) (new : Option CtxId) :
    Keeps u (switchCore c new s) ↔ Keeps u s ∨ StillKeeps u (switchCore c new s) :=
  Keeps.iff_or (by unfold switchCore; simp) u

@[simp] theorem keeps_switchCores : Keeps u (switchCores s) ↔ Keeps u s ∨ StillKeeps u (switchCores s) :=
  Keeps.iff_or (by unfold switchCores; simp) u

@[simp] theorem keeps_slotBoundary : Keeps u (slotBoundary s) ↔ Keeps u s ∨ StillKeeps u (slotBoundary s) :=
  Keeps.iff_or (by unfold slotBoundary; simp) u

/-- The tokens that a resume costs touch no memory. -/
theorem keeps_of_payFrom {x : Option CtxId} {t : State} (h : payFrom x s = some t) : Keeps s t := by
  unfold payFrom at h
  (repeat' split at h) <;> cases h <;> simp

/-- R201: a core that resumes is wiped, then takes its record back. -/
@[simp] theorem keeps_resume (c : Nat) : Keeps u (resume c s) ↔ Keeps u s ∨ StillKeeps u (resume c s) := by
  refine Keeps.iff_or ?_ u
  unfold resume; dsimp only; split
  · exact keeps_self s
  split
  · exact keeps_self s
  next s1 hpay =>
    refine (keeps_of_payFrom hpay).trans ?_
    split
    · simp
    split
    · simp
    next q hq =>
      have hwiped : Keeps s1 ((s1.onCore c Core.wipe).onCtl c fun q => { q with switching := false }) := by simp
      simp [hwiped.trans (keeps_onCore_restore c hq)]

@[simp] theorem keeps_restoreFail (c : Nat) (w : MemUnit) :
    Keeps u (restoreFail c w s) ↔ Keeps u s ∨ StillKeeps u (restoreFail c w s) :=
  Keeps.iff_or (by unfold restoreFail; dsimp only; (repeat' split) <;> simp) u

@[simp] theorem keeps_submitBind (src : CmdSrc) (x : CtxId) :
    Keeps u (submitBind src x s) ↔ Keeps u s ∨ StillKeeps u (submitBind src x s) :=
  Keeps.iff_or (by unfold submitBind; (repeat' split) <;> simp) u

@[simp] theorem keeps_submitUnbind (src : CmdSrc) (x : CtxId) (slot : Nat) :
    Keeps u (submitUnbind src x slot s) ↔ Keeps u s ∨ StillKeeps u (submitUnbind src x slot s) :=
  Keeps.iff_or (by unfold submitUnbind; simp) u

end Sys2Proof.Machine
end

section
/-! The mesh, the arbiters and the event log. -/

namespace Sys2Proof.Machine

open Sys2Proof.Safety

variable {u s : State}

@[simp] theorem keeps_meshSent (bs : List (Nat × MeshBlk)) : Keeps u (meshSent bs s) ↔ Keeps u s :=
  keeps_iff_of_only (by simp) u

@[simp] theorem keeps_meshSend (h : MHdr) (payload : List Byte) : Keeps u (meshSend h payload s) ↔ Keeps u s := by
  unfold meshSend
  (repeat' split) <;> simp

@[simp] theorem keeps_meshForward (router dir : Nat) (hdr : BitVec 128) (payload : List Byte) :
    Keeps u (meshForward router dir hdr payload s) ↔ Keeps u s := by
  unfold meshForward; simp

@[simp] theorem keeps_readFailed (c ctx : Nat) :
    Keeps u (readFailed c ctx s) ↔ Keeps u s ∨ StillKeeps u (readFailed c ctx s) :=
  Keeps.iff_or (by unfold readFailed; (repeat' split) <;> simp) u

@[simp] theorem keeps_countTransfer (stop addr : Nat) (poison : Bool) (hop : Option (CoreId × Fin 5)) :
    Keeps u (countTransfer stop addr poison hop s) ↔ Keeps u s := by
  unfold countTransfer
  (repeat' split) <;> simp

@[simp] theorem keeps_readDataRx (hdr : BitVec 128) (payload : List Byte) (hop : Option (CoreId × Fin 5)) :
    Keeps u (readDataRx hdr payload hop s) ↔ Keeps u s ∨ StillKeeps u (readDataRx hdr payload hop s) :=
  Keeps.iff_or (by unfold readDataRx; dsimp only; (repeat' split) <;> simp) u

@[simp] theorem keeps_readRequestRx (hdr : BitVec 128) : Keeps u (readRequestRx hdr s) ↔ Keeps u s := by
  unfold readRequestRx; dsimp only
  (repeat' split) <;> simp

@[simp] theorem keeps_poisonBlock (p : Phys) : Keeps u (poisonBlock p s) ↔ Keeps u s := by
  unfold poisonBlock; simp

@[simp] theorem keeps_writeRx (hdr : BitVec 128) (payload : List Byte) :
    Keeps u (writeRx hdr payload s) ↔ Keeps u s ∨ StillKeeps u (writeRx hdr payload s) :=
  Keeps.iff_or (by unfold writeRx; dsimp only; (repeat' split) <;> simp) u

@[simp] theorem keeps_writeFailed (c ctx : Nat) :
    Keeps u (writeFailed c ctx s) ↔ Keeps u s ∨ StillKeeps u (writeFailed c ctx s) :=
  Keeps.iff_or (by unfold writeFailed; (repeat' split) <;> simp) u

@[simp] theorem keeps_nakRx (hdr : BitVec 128) (hop : Option (CoreId × Fin 5)) :
    Keeps u (nakRx hdr hop s) ↔ Keeps u s ∨ StillKeeps u (nakRx hdr hop s) :=
  Keeps.iff_or (by unfold nakRx; (repeat' split) <;> simp) u

@[simp] theorem keeps_spareCopied (g : Nat) : Keeps u (spareCopied g s) ↔ Keeps u s := by
  unfold spareCopied; simp

@[simp] theorem keeps_retireCopied (q : Nat) : Keeps u (retireCopied q s) ↔ Keeps u s := by
  unfold retireCopied; simp

@[simp] theorem keeps_arbitrate (a : ArbId) : Keeps u (arbitrate a s) ↔ Keeps u s := keeps_iff_of_only (by simp) u

@[simp] theorem keeps_arbRequest (a : ArbId) (r : Nat) : Keeps u (arbRequest a r s) ↔ Keeps u s :=
  keeps_iff_of_only (by simp) u

@[simp] theorem keeps_arbRelease (a : ArbId) : Keeps u (arbRelease a s) ↔ Keeps u s := keeps_iff_of_only (by simp) u

@[simp] theorem keeps_arbAge (a : ArbId) (r : Nat) : Keeps u (arbAge a r s) ↔ Keeps u s :=
  keeps_iff_of_only (by simp) u

@[simp] theorem keeps_arbCut (a : ArbId) : Keeps u (arbCut a s) ↔ Keeps u s := by
  unfold arbCut; dsimp only
  (repeat' split) <;> simp

@[simp] theorem keeps_hutAt (force compute : Bool) (code : Nat) (v : BitVec 16) (arg : List Byte) (ts : DWord)
    (ho : Bool) :
    Keeps u (hutAt force compute code v arg ts ho s) ↔
      Keeps u s := keeps_iff_of_only (by simp) u

@[simp] theorem keeps_cairnEvent (code value : Nat) (arg : List Byte) :
    Keeps u (cairnEvent code value arg s) ↔ Keeps u s := keeps_iff_of_only (by simp) u

@[simp] theorem keeps_cairnCount (code value : Nat) : Keeps u (cairnCount code value s) ↔ Keeps u s :=
  keeps_iff_of_only (by simp) u

@[simp] theorem keeps_cairnEventForced (code value : Nat) :
    Keeps u (cairnEventForced code value s) ↔ Keeps u s := keeps_iff_of_only (by simp) u

@[simp] theorem keeps_evtPoll : Keeps u (evtPoll s) ↔ Keeps u s := keeps_iff_of_only (by simp) u

@[simp] theorem keeps_flushBook : Keeps u (flushBook s) ↔ Keeps u s := by
  unfold flushBook; simp

@[simp] theorem keeps_clearBook (who : Nat) (cert : List Byte) : Keeps u (clearBook who cert s) ↔ Keeps u s := by
  unfold clearBook; simp

end Sys2Proof.Machine
end

section
/-! The plant: valves, motors, loops, the control bus and the sensors. -/

namespace Sys2Proof.Machine

open Sys2Proof.Safety

variable {u s : State}

@[simp] theorem keeps_endDefer (v : Nat) : Keeps u (endDefer v s) ↔ Keeps u s := keeps_iff_of_only (by simp) u
@[simp] theorem keeps_valveSafe (v : Nat) : Keeps u (valveSafe v s) ↔ Keeps u s := keeps_iff_of_only (by simp) u

@[simp] theorem keeps_valveFault (v : Nat) : Keeps u (valveFault v s) ↔ Keeps u s := by
  unfold valveFault; simp

@[simp] theorem keeps_valveStart (v : Nat) (st : ValveSt) (low : Bool) :
    Keeps u (valveStart v st low s) ↔ Keeps u s := keeps_iff_of_only (by simp) u

@[simp] theorem keeps_startWord (v n k : Nat) : Keeps u (startWord v n k s) ↔ Keeps u s := by
  induction n generalizing k s with
  | zero => exact keeps_valveFault v
  | succ n ih => unfold startWord; simp [ih]

@[simp] theorem keeps_enterWord (v k : Nat) : Keeps u (enterWord v k s) ↔ Keeps u s := by
  unfold enterWord; simp

@[simp] theorem keeps_startCommand (v : Nat) (on : Bool) : Keeps u (startCommand v on s) ↔ Keeps u s := by
  unfold startCommand; simp

@[simp] theorem keeps_valveEdge (v : Nat) (on : Bool) : Keeps u (valveEdge v on s) ↔ Keeps u s := by
  unfold valveEdge; simp

@[simp] theorem keeps_valveTimer (v : Nat) : Keeps u (valveTimer v s) ↔ Keeps u s := by
  unfold valveTimer; simp

@[simp] theorem keeps_boostReached (v : Nat) : Keeps u (boostReached v s) ↔ Keeps u s := by
  unfold boostReached; simp

@[simp] theorem keeps_boostTimeout (v : Nat) : Keeps u (boostTimeout v s) ↔ Keeps u s := by
  unfold boostTimeout; simp

@[simp] theorem keeps_deferredStart (v : Nat) : Keeps u (deferredStart v s) ↔ Keeps u s :=
  keeps_iff_of_only (by simp) u

@[simp] theorem keeps_shunt (v : Nat) (code : BitVec 12) : Keeps u (shunt v code s) ↔ Keeps u s :=
  keeps_iff_of_only (by simp) u

@[simp] theorem keeps_coilUpdate (v irms : Nat) : Keeps u (coilUpdate v irms s) ↔ Keeps u s := by
  unfold coilUpdate; dsimp only
  (repeat' split) <;> simp

@[simp] theorem keeps_leakEntry (v : Nat) : Keeps u (leakEntry v s) ↔ Keeps u s := by
  unfold leakEntry; simp

@[simp] theorem keeps_actOnCommand (v : Nat) : Keeps u (actOnCommand v s) ↔ Keeps u s := by
  unfold actOnCommand; simp

@[simp] theorem keeps_valveConfig (v off : Nat) (w : Word) : Keeps u (valveConfig v off w s) ↔ Keeps u s := by
  unfold valveConfig; simp

@[simp] theorem keeps_motorSafe (m : Nat) : Keeps u (motorSafe m s) ↔ Keeps u s := keeps_iff_of_only (by simp) u
@[simp] theorem keeps_leakStop (m : Nat) : Keeps u (leakStop m s) ↔ Keeps u s := keeps_iff_of_only (by simp) u

@[simp] theorem keeps_motorMode (m : Nat) (mode : BitVec 2) : Keeps u (motorMode m mode s) ↔ Keeps u s :=
  keeps_iff_of_only (by simp) u

@[simp] theorem keeps_motorKick (m : Nat) (thenMax : Bool) : Keeps u (motorKick m thenMax s) ↔ Keeps u s :=
  keeps_iff_of_only (by simp) u

@[simp] theorem keeps_applyMode (m : Nat) : Keeps u (applyMode m s) ↔ Keeps u s := by
  unfold applyMode; simp

@[simp] theorem keeps_leakOver (valves motors : List Nat) : Keeps u (leakOver valves motors s) ↔ Keeps u s := by
  unfold leakOver; simp

@[simp] theorem keeps_pwmPeriod (m : Nat) (ia ib ic id iq est angle : BitVec 16) :
    Keeps u (pwmPeriod m ia ib ic id iq est angle s) ↔ Keeps u s := by
  unfold pwmPeriod; simp

@[simp] theorem keeps_startResponse (m : Nat) (byEst : Bool) : Keeps u (startResponse m byEst s) ↔ Keeps u s := by
  unfold startResponse; simp

@[simp] theorem keeps_startTimeout (m : Nat) : Keeps u (startTimeout m s) ↔ Keeps u s := by
  unfold startTimeout; simp

@[simp] theorem keeps_startRetry (m : Nat) : Keeps u (startRetry m s) ↔ Keeps u s := keeps_iff_of_only (by simp) u

@[simp] theorem keeps_driverFault (m : Nat) : Keeps u (driverFault m s) ↔ Keeps u s := by
  unfold driverFault; simp

@[simp] theorem keeps_tachBreak (m : Nat) : Keeps u (tachBreak m s) ↔ Keeps u s := by
  unfold tachBreak; simp

@[simp] theorem keeps_ageMeasure (m meanIq : Nat) : Keeps u (ageMeasure m meanIq s) ↔ Keeps u s := by
  unfold ageMeasure; simp

@[simp] theorem keeps_acousticUpdate : Keeps u (acousticUpdate s) ↔ Keeps u s := by
  unfold acousticUpdate; simp

@[simp] theorem keeps_driveDest (dst : Nat) (v : BitVec 24) : Keeps u (driveDest dst v s) ↔ Keeps u s :=
  keeps_iff_of_only (by simp) u

@[simp] theorem keeps_safeDest (dst : Nat) : Keeps u (safeDest dst s) ↔ Keeps u s := keeps_iff_of_only (by simp) u

@[simp] theorem keeps_endInjection (cause : Nat) : Keeps u (endInjection cause s) ↔ Keeps u s := by
  unfold endInjection; simp

@[simp] theorem keeps_endBound (i cause : Nat) : Keeps u (endBound i cause s) ↔ Keeps u s := by
  unfold endBound; simp

@[simp] theorem keeps_noteSat (i : Nat) (first : Bool) (f : Slot → Slot) :
    Keeps u (noteSat i first f s) ↔ Keeps u s := by
  unfold noteSat; simp

@[simp] theorem keeps_noteStop (i : Nat) : Keeps u (noteStop i s) ↔ Keeps u s := keeps_iff_of_only (by simp) u

@[simp] theorem keeps_noteFlags (i : Nat) (p : Period) : Keeps u (noteFlags i p s) ↔ Keeps u s := by
  unfold noteFlags; simp

@[simp] theorem keeps_capturePut (e : CaptEnt) : Keeps u (capturePut e s) ↔ Keeps u s := by
  unfold capturePut; simp

@[simp] theorem keeps_applyHeld (i : Nat) : Keeps u (applyHeld i s) ↔ Keeps u s := keeps_iff_of_only (by simp) u

@[simp] theorem keeps_slotStop (i : Nat) : Keeps u (slotStop i s) ↔ Keeps u s := by
  unfold slotStop; simp

@[simp] theorem keeps_slotCompute (i : Nat) : Keeps u (slotCompute i s) ↔ Keeps u s := by
  unfold slotCompute; simp

@[simp] theorem keeps_slotLatch (i : Nat) : Keeps u (slotLatch i s) ↔ Keeps u s := by
  unfold slotLatch; simp

@[simp] theorem keeps_slotWrite (i : Nat) : Keeps u (slotWrite i s) ↔ Keeps u s := by
  unfold slotWrite; dsimp only
  (repeat' split) <;> simp

@[simp] theorem keeps_feTrip (i : Nat) : Keeps u (feTrip i s) ↔ Keeps u s := by
  unfold feTrip; simp

@[simp] theorem keeps_loopRun (on : Bool) : Keeps u (loopRun on s) ↔ Keeps u s := by
  unfold loopRun; simp

@[simp] theorem keeps_refuseSlot (slot : Nat) (page : Bool) (reg reason : Nat) :
    Keeps u (refuseSlot slot page reg reason s) ↔ Keeps u s := by
  unfold refuseSlot; simp

@[simp] theorem keeps_slotRegWrite (i off : Nat) (v : Word) : Keeps u (slotRegWrite i off v s) ↔ Keeps u s := by
  unfold slotRegWrite; simp

@[simp] theorem keeps_slotEnable (i : Nat) (on : Bool) : Keeps u (slotEnable i on s) ↔ Keeps u s := by
  unfold slotEnable; simp

@[simp] theorem keeps_slotHold (i : Nat) (on : Bool) : Keeps u (slotHold i on s) ↔ Keeps u s := by
  unfold slotHold; simp

@[simp] theorem keeps_injectGo (v : Word) : Keeps u (injectGo v s) ↔ Keeps u s := by
  unfold injectGo; simp

@[simp] theorem keeps_countDrop (i n : Nat) : Keeps u (countDrop i n s) ↔ Keeps u s := keeps_iff_of_only (by simp) u

@[simp] theorem keeps_sendTraverse (mid : Nat) (body : Nat → List Byte) :
    Keeps u (sendTraverse mid body s) ↔ Keeps u s := keeps_iff_of_only (by simp) u

@[simp] theorem keeps_sendLeak : Keeps u (sendLeak s) ↔ Keeps u s := keeps_iff_of_only (by simp) u
@[simp] theorem keeps_txDone (i : Nat) : Keeps u (txDone i s) ↔ Keeps u s := keeps_iff_of_only (by simp) u
@[simp] theorem keeps_txExpiry (i : Nat) : Keeps u (txExpiry i s) ↔ Keeps u s := keeps_iff_of_only (by simp) u

@[simp] theorem keeps_busOff (i : Nat) : Keeps u (busOff i s) ↔ Keeps u s := by
  unfold busOff; simp

@[simp] theorem keeps_recoveryDone (i : Nat) : Keeps u (recoveryDone i s) ↔ Keeps u s := by
  unfold recoveryDone; simp

@[simp] theorem keeps_busError (i : Nat) (tec : BitVec 9) (rxe : BitVec 8) :
    Keeps u (busError i tec rxe s) ↔ Keeps u s := by
  unfold busError; simp

@[simp] theorem keeps_timingWrite (i : Nat) (dbt : Bool) (v : Word) :
    Keeps u (timingWrite i dbt v s) ↔ Keeps u s := keeps_iff_of_only (by simp) u

@[simp] theorem keeps_setInit (i : Nat) (on : Bool) : Keeps u (setInit i on s) ↔ Keeps u s :=
  keeps_iff_of_only (by simp) u

@[simp] theorem keeps_setLost (i k : Nat) : Keeps u (setLost i k s) ↔ Keeps u s := by
  unfold setLost; simp

@[simp] theorem keeps_storeFrame (i k : Nat) (f : CanFrame) : Keeps u (storeFrame i k f s) ↔ Keeps u s := by
  unfold storeFrame; simp

@[simp] theorem keeps_objLock (i k : Nat) : Keeps u (objLock i k s) ↔ Keeps u s := keeps_iff_of_only (by simp) u

@[simp] theorem keeps_objRelease (i k : Nat) : Keeps u (objRelease i k s) ↔ Keeps u s := by
  unfold objRelease; dsimp only
  (repeat' split) <;> simp

@[simp] theorem keeps_timeSource : Keeps u (timeSource s) ↔ Keeps u s := keeps_iff_of_only (by simp) u

@[simp] theorem keeps_masterEvent : Keeps u (masterEvent s) ↔ Keeps u s := by
  unfold masterEvent; simp

@[simp] theorem keeps_trefRx (i : Nat) (src : BitVec 6) (role : Byte) (carried start : DWord) :
    Keeps u (trefRx i src role carried start s) ↔ Keeps u s := by
  unfold trefRx; dsimp only
  (repeat' split) <;> simp

@[simp] theorem keeps_trefAge (i : Nat) : Keeps u (trefAge i s) ↔ Keeps u s := by
  unfold trefAge; simp

@[simp] theorem keeps_trefSend : Keeps u (trefSend s) ↔ Keeps u s := by
  unfold trefSend; simp

@[simp] theorem keeps_senderExpiry (src : Nat) : Keeps u (senderExpiry src s) ↔ Keeps u s :=
  keeps_iff_of_only (by simp) u

@[simp] theorem keeps_groupSafe (g : Nat) : Keeps u (groupSafe g s) ↔ Keeps u s := keeps_iff_of_only (by simp) u

@[simp] theorem keeps_leaseState (g : Nat) (st : LeaseSt) : Keeps u (leaseState g st s) ↔ Keeps u s := by
  unfold leaseState; simp

@[simp] theorem keeps_sendLease (g : Nat) (claim release : Bool) :
    Keeps u (sendLease g claim release s) ↔ Keeps u s := keeps_iff_of_only (by simp) u

@[simp] theorem keeps_barGroup (g : Nat) : Keeps u (barGroup g s) ↔ Keeps u s := by
  unfold barGroup; simp

@[simp] theorem keeps_applyReady (ready : Bool) : Keeps u (applyReady ready s) ↔ Keeps u s := by
  unfold applyReady; simp

@[simp] theorem keeps_selfTest (rbA rbB drivers slots : Bool) :
    Keeps u (selfTest rbA rbB drivers slots s) ↔ Keeps u s := by
  unfold selfTest; simp

@[simp] theorem keeps_expireLease (g : Nat) : Keeps u (expireLease g s) ↔ Keeps u s := by
  unfold expireLease; simp

@[simp] theorem keeps_leaseExpiry (g : Nat) : Keeps u (leaseExpiry g s) ↔ Keeps u s := by
  unfold leaseExpiry; simp

@[simp] theorem keeps_claimSend (g : Nat) : Keeps u (claimSend g s) ↔ Keeps u s := by
  unfold claimSend; simp

@[simp] theorem keeps_loadMirrors (g : Nat) : Keeps u (loadMirrors g s) ↔ Keeps u s := keeps_iff_of_only (by simp) u

@[simp] theorem keeps_claimEnd (g : Nat) : Keeps u (claimEnd g s) ↔ Keeps u s := by
  unfold claimEnd; dsimp only; split
  · have hact : ∀ u v t, Keeps u (claimEnd.actOnCommandUnlessLeak v t) ↔ Keeps u t := by
      intro u v t; unfold claimEnd.actOnCommandUnlessLeak; split <;> simp
    split <;> simp [hact]
  · exact Iff.rfl

@[simp] theorem keeps_renewalDue (g : Nat) : Keeps u (renewalDue g s) ↔ Keeps u s := keeps_iff_of_only (by simp) u

@[simp] theorem keeps_holderTimeout (g : Nat) : Keeps u (holderTimeout g s) ↔ Keeps u s := by
  unfold holderTimeout; simp

@[simp] theorem keeps_heard (src : BitVec 6) : Keeps u (heard src s) ↔ Keeps u s := keeps_iff_of_only (by simp) u

@[simp] theorem keeps_leaseRx (src : BitVec 6) (g : Nat) (release primary : Bool) (epoch : Word) :
    Keeps u (leaseRx src g release primary epoch s) ↔ Keeps u s := by
  unfold leaseRx; simp

@[simp] theorem keeps_mirrorRx (src : BitVec 6) (g : Nat) (part : Byte) (epoch : Word) (es : List
    (SlotId × BitVec 24 × BitVec 24)) :
    Keeps u (mirrorRx src g part epoch es s) ↔
      Keeps u s := keeps_iff_of_only (by simp) u

@[simp] theorem keeps_healthRx (src : BitVec 6) (bits : Byte) : Keeps u (healthRx src bits s) ↔ Keeps u s := by
  unfold healthRx; simp

@[simp] theorem keeps_leakRx (src : BitVec 6) : Keeps u (leakRx src s) ↔ Keeps u s := by
  unfold leakRx; simp

@[simp] theorem keeps_peerLeakEnd : Keeps u (peerLeakEnd s) ↔ Keeps u s := by
  unfold peerLeakEnd; simp

@[simp] theorem keeps_actMsg (mid : Nat) (src : BitVec 6) (p : List Byte) :
    Keeps u (actMsg mid src p s) ↔ Keeps u s := by
  unfold actMsg; simp

@[simp] theorem keeps_traverseRx (i : Nat) (f : CanFrame) : Keeps u (traverseRx i f s) ↔ Keeps u s := by
  unfold traverseRx; simp

@[simp] theorem keeps_frameRx (i : Nat) (f : CanFrame) : Keeps u (frameRx i f s) ↔ Keeps u s := by
  unfold frameRx; dsimp only
  (repeat' split) <;> simp

@[simp] theorem keeps_ainConvert (k : Nat) (code : BitVec 16) : Keeps u (ainConvert k code s) ↔ Keeps u s :=
  keeps_iff_of_only (by simp) u

@[simp] theorem keeps_pulseEdge (k : Nat) : Keeps u (pulseEdge k s) ↔ Keeps u s := keeps_iff_of_only (by simp) u

@[simp] theorem keeps_inputFault (k : Nat) : Keeps u (inputFault k s) ↔ Keeps u s := by
  unfold inputFault; simp

@[simp] theorem keeps_ropeChange (r ohms : Nat) : Keeps u (ropeChange r ohms s) ↔ Keeps u s := by
  unfold ropeChange; simp

@[simp] theorem keeps_leakLatch (r : Nat) : Keeps u (leakLatch r s) ↔ Keeps u s := by
  unfold leakLatch; simp

@[simp] theorem keeps_clearLatches (who : Nat) : Keeps u (clearLatches who s) ↔ Keeps u s := by
  unfold clearLatches; simp

@[simp] theorem keeps_applyModuleReset : Keeps u (applyModuleReset s) ↔ Keeps u s := keeps_iff_of_only (by simp) u

@[simp] theorem keeps_applyPlan (es : List (BitVec 16 × List Byte)) : Keeps u (applyPlan es s) ↔ Keeps u s :=
  keeps_iff_of_only (by simp) u

@[simp] theorem keeps_applyDrives (es : List (BitVec 16 × List Byte)) : Keeps u (applyDrives es s) ↔ Keeps u s := by
  unfold applyDrives
  (repeat' split) <;> simp

@[simp] theorem keeps_applyInputs (es : List (BitVec 16 × List Byte)) :
    Keeps u (applyInputs es s) ↔ Keeps u s := keeps_iff_of_only (by simp) u

@[simp] theorem keeps_applyBus (es : List (BitVec 16 × List Byte)) : Keeps u (applyBus es s) ↔ Keeps u s :=
  keeps_iff_of_only (by simp) u

@[simp] theorem keeps_applyStandby : Keeps u (applyStandby s) ↔ Keeps u s := by
  unfold applyStandby; simp

end Sys2Proof.Machine
end

section
/-! The rings of the host, its windows and TDISP. -/

namespace Sys2Proof.Machine

open Sys2Proof.Safety

variable {u s : State}

@[simp] theorem keeps_enableInts (ps : List Nat) : Keeps u (enableInts ps s) ↔ Keeps u s :=
  keeps_iff_of_only (by simp) u

@[simp] theorem keeps_hdrWrite (p : Nat) (b : Blk) (off : Nat) (v : Word) :
    Keeps u (hdrWrite p b off v s) ↔ Keeps u s := by
  unfold hdrWrite
  (repeat' split) <;> simp

@[simp] theorem keeps_ctxRegWrite (x off : Nat) (v : Word) :
    Keeps u (ctxRegWrite x off v s) ↔ Keeps u s ∨ StillKeeps u (ctxRegWrite x off v s) :=
  Keeps.iff_or (by unfold ctxRegWrite; simp) u

@[simp] theorem keeps_forContext (src : CmdSrc) (act : CtxId → State → State) (h : ∀ x t, Keeps t (act x t)) :
    Keeps u (forContext src act s) ↔ Keeps u s ∨ StillKeeps u (forContext src act s) := by
  refine Keeps.iff_or ?_ u
  unfold forContext; dsimp only; (repeat' split) <;> simp [h]

@[simp] theorem keeps_submitPitch (src : CmdSrc) (x : CtxId) (lcore : Byte) (a : DWord) :
    Keeps u (submitPitch src x lcore a s) ↔ Keeps u s ∨ StillKeeps u (submitPitch src x lcore a s) :=
  Keeps.iff_or (by unfold submitPitch; dsimp only; (repeat' split) <;> simp) u

@[simp] theorem keeps_pitchCmd (src : CmdSrc) (lcore : Byte) (desc : DWord) :
    Keeps u (pitchCmd src lcore desc s) ↔ Keeps u s ∨ StillKeeps u (pitchCmd src lcore desc s) :=
  Keeps.iff_or (by unfold pitchCmd; dsimp only; (repeat' split) <;> simp) u

@[simp] theorem keeps_admitCmd (src : CmdSrc) (x : CtxId) (hbm : DWord) (ledge : Word) :
    Keeps u (admitCmd src x hbm ledge s) ↔ Keeps u s := by
  unfold admitCmd; simp

@[simp] theorem keeps_nopWait (src : CmdSrc) : Keeps u (nopWait src s) ↔ Keeps u s := by
  unfold nopWait; simp

@[simp] theorem keeps_changePage (k : Nat) (want : PageSt) (t : Nat) :
    Keeps u (changePage k want t s) ↔ Keeps u s := by
  unfold changePage; simp

@[simp] theorem keeps_wpageCmd (src : CmdSrc) (first count st : Nat) (target : Word) :
    Keeps u (wpageCmd src first count st target s) ↔ Keeps u s := by
  unfold wpageCmd; dsimp only
  (repeat' split) <;> simp

@[simp] theorem keeps_pageTurn (k : Nat) : Keeps u (pageTurn k s) ↔ Keeps u s := by
  unfold pageTurn; dsimp only
  (repeat' split) <;> simp

@[simp] theorem keeps_ctxrdCmd (src : CmdSrc) (ctx off : Nat) : Keeps u (ctxrdCmd src ctx off s) ↔ Keeps u s := by
  unfold ctxrdCmd; simp

@[simp] theorem keeps_ctxwrCmd (src : CmdSrc) (x off : Nat) (v : Word) :
    Keeps u (ctxwrCmd src x off v s) ↔ Keeps u s ∨ StillKeeps u (ctxwrCmd src x off v s) :=
  Keeps.iff_or (by unfold ctxwrCmd; (repeat' split) <;> simp) u

@[simp] theorem keeps_ringError (f b : Nat) : Keeps u (ringError f b s) ↔ Keeps u s := by
  unfold ringError; simp

@[simp] theorem keeps_sqDoorbell (f i : Nat) (v : Word) : Keeps u (sqDoorbell f i v s) ↔ Keeps u s := by
  unfold sqDoorbell; simp

@[simp] theorem keeps_unsupported : Keeps u (unsupported s) ↔ Keeps u s := keeps_iff_of_only (by simp) u

@[simp] theorem keeps_cqDoorbell (f i : Nat) (v : Word) : Keeps u (cqDoorbell f i v s) ↔ Keeps u s := by
  unfold cqDoorbell; simp

@[simp] theorem keeps_writeSqCfg (f i : Nat) (v : Word) : Keeps u (writeSqCfg f i v s) ↔ Keeps u s := by
  unfold writeSqCfg; simp

@[simp] theorem keeps_writeCqCfg (f i : Nat) (v : Word) : Keeps u (writeCqCfg f i v s) ↔ Keeps u s := by
  unfold writeCqCfg; simp

@[simp] theorem keeps_coalesce (f i : Nat) : Keeps u (coalesce f i s) ↔ Keeps u s := by
  unfold coalesce; simp

@[simp] theorem keeps_postOne (f i : Nat) : Keeps u (postOne f i s) ↔ Keeps u s ∨ StillKeeps u (postOne f i s) := by
  refine Keeps.iff_or ?_ u
  unfold postOne; dsimp only; (repeat' split) <;> simp

@[simp] theorem keeps_coalExpiry (f i : Nat) : Keeps u (coalExpiry f i s) ↔ Keeps u s := by
  unfold coalExpiry; simp

@[simp] theorem keeps_refuseWindow (f : Nat) (read : Bool) : Keeps u (refuseWindow f read s) ↔ Keeps u s := by
  unfold refuseWindow; simp

@[simp] theorem keeps_windowWrite (k k2 off : Nat) (bs : List Byte) :
    Keeps u (windowWrite k k2 off bs s) ↔ Keeps u s ∨ StillKeeps u (windowWrite k k2 off bs s) :=
  Keeps.iff_or (by unfold windowWrite; simp) u

@[simp] theorem keeps_windowRead (k k2 off len : Nat) :
    Keeps u (windowRead k k2 off len s) ↔ Keeps u s ∨ StillKeeps u (windowRead k k2 off len s) :=
  Keeps.iff_or (by unfold windowRead; dsimp only; (repeat' split) <;> simp) u

@[simp] theorem keeps_windowAccess (f : Nat) (tee : Bool) (off len : Nat) (data : Option (List Byte)) :
    Keeps u (windowAccess f tee off len data s) ↔ Keeps u s ∨ StillKeeps u (windowAccess f tee off len data s) :=
  Keeps.iff_or (by unfold windowAccess; (repeat' split) <;> simp) u

@[simp] theorem keeps_tdiError (x : Nat) : Keeps u (tdiError x s) ↔ Keeps u s := by
  unfold tdiError; simp

@[simp] theorem keeps_hostLinkReset (flr : Bool) : Keeps u (hostLinkReset flr s) ↔ Keeps u s := by
  unfold hostLinkReset; simp

@[simp] theorem keeps_linkUp (rate : Nat) (width : BitVec 5) : Keeps u (linkUp rate width s) ↔ Keeps u s := by
  unfold linkUp; simp

@[simp] theorem keeps_vfFlr (x : Nat) : Keeps u (vfFlr x s) ↔ Keeps u s ∨ StillKeeps u (vfFlr x s) :=
  Keeps.iff_or (by unfold vfFlr; simp) u

@[simp] theorem keeps_ideFailure (stream : Nat) (bound : BitVec 16) :
    Keeps u (ideFailure stream bound s) ↔ Keeps u s := by
  unfold ideFailure; simp

@[simp] theorem keeps_ideKm (sess stream : Nat) : Keeps u (ideKm sess stream s) ↔ Keeps u s := by
  unfold ideKm; simp

@[simp] theorem keeps_lockTdi (x : Nat) : Keeps u (lockTdi x s) ↔ Keeps u s := by
  unfold lockTdi; simp

@[simp] theorem keeps_startTdi (x : Nat) : Keeps u (startTdi x s) ↔ Keeps u s := by
  unfold startTdi; simp

@[simp] theorem keeps_stopTdi (x : Nat) : Keeps u (stopTdi x s) ↔ Keeps u s ∨ StillKeeps u (stopTdi x s) :=
  Keeps.iff_or (by unfold stopTdi; simp) u

end Sys2Proof.Machine
end

section
/-! Power, cooling and temperature. -/

namespace Sys2Proof.Machine

open Sys2Proof.Safety

variable {u s : State}

@[simp] theorem keeps_pwrEvent (code unit : Nat) : Keeps u (pwrEvent code unit s) ↔ Keeps u s := by
  unfold pwrEvent; simp

@[simp] theorem keeps_boundaryModes : Keeps u (boundaryModes s) ↔ Keeps u s := by
  unfold boundaryModes; simp

@[simp] theorem keeps_divide : Keeps u (divide s) ↔ Keeps u s := keeps_iff_of_only (by simp) u

@[simp] theorem keeps_epochBoundary : Keeps u (epochBoundary s) ↔ Keeps u s ∨ StillKeeps u (epochBoundary s) :=
  Keeps.iff_or (by unfold epochBoundary; simp) u

@[simp] theorem keeps_topUp (c : Nat) : Keeps u (topUp c s) ↔ Keeps u s ∨ StillKeeps u (topUp c s) :=
  Keeps.iff_or (by unfold topUp; (repeat' split) <;> simp) u

@[simp] theorem keeps_payCore (c i : Nat) : Keeps u (payCore c i s) ↔ Keeps u s := keeps_iff_of_only (by simp) u

@[simp] theorem keeps_installment (c : Nat) :
    Keeps u (installment c s) ↔ Keeps u s ∨ StillKeeps u (installment c s) :=
  Keeps.iff_or (by unfold installment; simp) u

@[simp] theorem keeps_charge (r : Run) (e : Nat) : Keeps u (charge r e s) ↔ Keeps u s := keeps_iff_of_only (by simp) u

@[simp] theorem keeps_meterDebit (c events : Nat) :
    Keeps u (meterDebit c events s) ↔ Keeps u s ∨ StillKeeps u (meterDebit c events s) :=
  Keeps.iff_or (by unfold meterDebit; (repeat' split) <;> simp) u

@[simp] theorem keeps_heartbeat (seq : BitVec 16) : Keeps u (heartbeat seq s) ↔ Keeps u s := by
  unfold heartbeat; simp

@[simp] theorem keeps_trip (diode : Nat) : Keeps u (trip diode s) ↔ Keeps u s := by
  unfold trip; simp

/-- Only the host memory outlives the rails; the empty ones are in canonical form. -/
@[simp] theorem keeps_dropCompute : Keeps u (dropCompute s) ↔ Keeps u s ∨ StillKeeps u (dropCompute s) := by
  refine Keeps.iff_or ?_ u
  exact fun hs => ⟨rfl, rfl, hs.2.2.1, coresOk_nil, ctxsOk_nil⟩

@[simp] theorem keeps_moduleReset : Keeps u (moduleReset s) ↔ Keeps u s ∨ StillKeeps u (moduleReset s) :=
  Keeps.iff_or (by unfold moduleReset; simp) u

@[simp] theorem keeps_restoreCore (e : FaultEnt) : Keeps u (restoreCore e s) ↔ Keeps u s :=
  keeps_iff_of_only (by simp) u

/-- A recorded fault takes its unit out; the bytes of its store stay. -/
@[simp] theorem keeps_restoreUnit (e : FaultEnt) :
    Keeps u (restoreUnit e s) ↔ Keeps u s ∨ StillKeeps u (restoreUnit e s) := by
  refine Keeps.iff_or ?_ u
  have hledge : Keeps s (retireBank e.unit.toNat s) := by simp
  have hhbm : Keeps s (retirePc e.unit.toNat s) := by simp
  unfold restoreUnit; dsimp only; split
  · simp
  split
  · rw [keeps_errPerm]
    exact fun hs => ⟨(hledge hs).1, hs.2⟩
  split
  · rw [keeps_errPerm]
    exact fun hs => ⟨hs.1, (hhbm hs).2.1, hs.2.2⟩
  split <;> simp

@[simp] theorem keeps_settleCores : Keeps u (settleCores s) ↔ Keeps u s := keeps_iff_of_only (by simp) u

@[simp] theorem keeps_restoreFaults : Keeps u (restoreFaults s) ↔ Keeps u s ∨ StillKeeps u (restoreFaults s) :=
  Keeps.iff_or (by unfold restoreFaults; simp) u

@[simp] theorem keeps_thmRaise (n : Nat) : Keeps u (thmRaise n s) ↔ Keeps u s := by
  unfold thmRaise; simp

@[simp] theorem keeps_pumpStart (m : Nat) : Keeps u (pumpStart m s) ↔ Keeps u s := keeps_iff_of_only (by simp) u
@[simp] theorem keeps_pumpsMax : Keeps u (pumpsMax s) ↔ Keeps u s := keeps_iff_of_only (by simp) u
@[simp] theorem keeps_pumpsLoop : Keeps u (pumpsLoop s) ↔ Keeps u s := keeps_iff_of_only (by simp) u
@[simp] theorem keeps_pumpsSafe : Keeps u (pumpsSafe s) ↔ Keeps u s := keeps_iff_of_only (by simp) u

@[simp] theorem keeps_coolSet (st : CoolSt) : Keeps u (coolSet st s) ↔ Keeps u s := by
  unfold coolSet; simp

@[simp] theorem keeps_commitZero : Keeps u (commitZero s) ↔ Keeps u s := keeps_iff_of_only (by simp) u

@[simp] theorem keeps_coolLevel : Keeps u (coolLevel s) ↔ Keeps u s := by
  unfold coolLevel; simp

@[simp] theorem keeps_beginProof : Keeps u (beginProof s) ↔ Keeps u s := by
  unfold beginProof; simp

@[simp] theorem keeps_beginAuto : Keeps u (beginAuto s) ↔ Keeps u s := by
  unfold beginAuto; simp

@[simp] theorem keeps_flowProofStart : Keeps u (flowProofStart s) ↔ Keeps u s := by
  unfold flowProofStart; simp

@[simp] theorem keeps_flowProofPass : Keeps u (flowProofPass s) ↔ Keeps u s := by
  unfold flowProofPass; simp

@[simp] theorem keeps_flowProofTimeout : Keeps u (flowProofTimeout s) ↔ Keeps u s := by
  unfold flowProofTimeout; simp

@[simp] theorem keeps_autoFlowProof : Keeps u (autoFlowProof s) ↔ Keeps u s := by
  unfold autoFlowProof; simp

@[simp] theorem keeps_coolShutdown (cause : Nat) :
    Keeps u (coolShutdown cause s) ↔ Keeps u s ∨ StillKeeps u (coolShutdown cause s) :=
  Keeps.iff_or (by unfold coolShutdown; simp) u

@[simp] theorem keeps_suddenStopTimeout :
    Keeps u (suddenStopTimeout s) ↔ Keeps u s ∨ StillKeeps u (suddenStopTimeout s) :=
  Keeps.iff_or (by unfold suddenStopTimeout; simp) u

@[simp] theorem keeps_lowFlowTimeout : Keeps u (lowFlowTimeout s) ↔ Keeps u s ∨ StillKeeps u (lowFlowTimeout s) :=
  Keeps.iff_or (by unfold lowFlowTimeout; simp) u

@[simp] theorem keeps_standbyPumpStart : Keeps u (standbyPumpStart s) ↔ Keeps u s := keeps_iff_of_only (by simp) u

@[simp] theorem keeps_shutdownPumpRelease : Keeps u (shutdownPumpRelease s) ↔ Keeps u s :=
  keeps_iff_of_only (by simp) u

@[simp] theorem keeps_suddenStop (ref : Nat) : Keeps u (suddenStop ref s) ↔ Keeps u s := by
  unfold suddenStop; simp

@[simp] theorem keeps_recovered : Keeps u (recovered s) ↔ Keeps u s := by
  unfold recovered; simp

@[simp] theorem keeps_sampleInputs (th flow : List (BitVec 16)) :
    Keeps u (sampleInputs th flow s) ↔ Keeps u s := keeps_iff_of_only (by simp) u

@[simp] theorem keeps_inletFlags : Keeps u (inletFlags s) ↔ Keeps u s := keeps_iff_of_only (by simp) u

@[simp] theorem keeps_recoverStep : Keeps u (recoverStep s) ↔ Keeps u s := by
  unfold recoverStep; simp

@[simp] theorem keeps_coolSample : Keeps u (coolSample s) ↔ Keeps u s := by
  unfold coolSample
  (repeat' split) <;> simp

@[simp] theorem keeps_capUpdate (meas : BitVec 24) : Keeps u (capUpdate meas s) ↔ Keeps u s := by
  unfold capUpdate; simp

@[simp] theorem keeps_guardStep (c : Nat) (t : Rat) : Keeps u (guardStep c t s) ↔ Keeps u s := by
  unfold guardStep; simp

@[simp] theorem keeps_diodeSample (d : Nat) (temp : BitVec 12) : Keeps u (diodeSample d temp s) ↔ Keeps u s := by
  unfold diodeSample; simp

@[simp] theorem keeps_hardwareTrip (d : Nat) : Keeps u (hardwareTrip d s) ↔ Keeps u s := by
  unfold hardwareTrip; simp

@[simp] theorem keeps_dieEvent (code k : Nat) : Keeps u (dieEvent code k s) ↔ Keeps u s := by
  unfold dieEvent; simp

@[simp] theorem keeps_senseLevel (k : Nat) (was : Bool) : Keeps u (senseLevel k was s) ↔ Keeps u s := by
  unfold senseLevel; simp

@[simp] theorem keeps_coolEvent (code k : Nat) : Keeps u (coolEvent code k s) ↔ Keeps u s :=
  keeps_iff_of_only (by simp) u

@[simp] theorem keeps_markSuspect (id : SensorId) : Keeps u (markSuspect id s) ↔ Keeps u s := by
  unfold markSuspect
  (repeat' split) <;> simp

@[simp] theorem keeps_clearSuspect (id : SensorId) : Keeps u (clearSuspect id s) ↔ Keeps u s := by
  unfold clearSuspect
  (repeat' split) <;> simp

@[simp] theorem keeps_coreDiodeFault (c : Nat) :
    Keeps u (coreDiodeFault c s) ↔ Keeps u s ∨ StillKeeps u (coreDiodeFault c s) :=
  Keeps.iff_or (by unfold coreDiodeFault; simp) u

@[simp] theorem keeps_markFault (id : SensorId) :
    Keeps u (markFault id s) ↔ Keeps u s ∨ StillKeeps u (markFault id s) :=
  Keeps.iff_or (by unfold markFault; (repeat' split) <;> simp) u

@[simp] theorem keeps_storeTemps (ledgeT hbmT : List (BitVec 12)) :
    Keeps u (storeTemps ledgeT hbmT s) ↔ Keeps u s := keeps_iff_of_only (by simp) u

@[simp] theorem keeps_siteEvents (r : State) (k : Nat) (q : Site) : Keeps u (siteEvents r k q s) ↔ Keeps u s := by
  unfold siteEvents; simp

@[simp] theorem keeps_loadAllow (cores : List (Nat × BitVec 12)) (sts : List (Nat × Nat)) :
    Keeps u (loadAllow cores sts s) ↔ Keeps u s := keeps_iff_of_only (by simp) u

@[simp] theorem keeps_noteSite (k : Nat) (q : Site) : Keeps u (noteSite k q s) ↔ Keeps u s :=
  keeps_iff_of_only (by simp) u

@[simp] theorem keeps_updateModel : Keeps u (updateModel s) ↔ Keeps u s := by
  unfold updateModel; simp

@[simp] theorem keeps_thermalUpdate (ledgeT hbmT : List (BitVec 12)) :
    Keeps u (thermalUpdate ledgeT hbmT s) ↔ Keeps u s := by
  unfold thermalUpdate; simp

@[simp] theorem keeps_fallbackAllow : Keeps u (fallbackAllow s) ↔ Keeps u s := keeps_iff_of_only (by simp) u

@[simp] theorem keeps_allowanceSilence : Keeps u (allowanceSilence s) ↔ Keeps u s := by
  unfold allowanceSilence; simp

@[simp] theorem keeps_thmRun (on : Bool) : Keeps u (thmRun on s) ↔ Keeps u s := keeps_iff_of_only (by simp) u
@[simp] theorem keeps_modelWrite (v : Word) : Keeps u (modelWrite v s) ↔ Keeps u s := keeps_iff_of_only (by simp) u

end Sys2Proof.Machine
end

section
/-! Standby, the rails, the boot and the management commands. -/

namespace Sys2Proof.Machine

open Sys2Proof.Safety

variable {u s : State}

@[simp] theorem keeps_activate (d : FwDomain) : Keeps u (activate d s) ↔ Keeps u s := keeps_iff_of_only (by simp) u

/-- Only the host memory is there after a boot; the empty ones are in canonical form. -/
@[simp] theorem keeps_bootState : Keeps u (bootState s) ↔ Keeps u s ∨ StillKeeps u (bootState s) := by
  refine Keeps.iff_or ?_ u
  exact fun hs => ⟨rfl, rfl, hs.2.2.1, coresOk_nil, ctxsOk_nil⟩

@[simp] theorem keeps_standbyReset : Keeps u (standbyReset s) ↔ Keeps u s ∨ StillKeeps u (standbyReset s) :=
  Keeps.iff_or (by unfold standbyReset; simp) u

@[simp] theorem keeps_allSafe : Keeps u (allSafe s) ↔ Keeps u s := keeps_iff_of_only (by simp) u
@[simp] theorem keeps_setModFault (on : Bool) : Keeps u (setModFault on s) ↔ Keeps u s := keeps_iff_of_only (by simp) u

@[simp] theorem keeps_standbyFalling : Keeps u (standbyFalling s) ↔ Keeps u s := by
  unfold standbyFalling; simp

@[simp] theorem keeps_powerLost : Keeps u (powerLost s) ↔ Keeps u s ∨ StillKeeps u (powerLost s) :=
  Keeps.iff_or (by unfold powerLost; simp) u

@[simp] theorem keeps_watchdogExpiry : Keeps u (watchdogExpiry s) ↔ Keeps u s ∨ StillKeeps u (watchdogExpiry s) :=
  Keeps.iff_or (by unfold watchdogExpiry; simp) u

@[simp] theorem keeps_railsOff : Keeps u (railsOff s) ↔ Keeps u s ∨ StillKeeps u (railsOff s) :=
  Keeps.iff_or (by unfold railsOff; simp) u

@[simp] theorem keeps_inputOut (dv : Nat) : Keeps u (inputOut dv s) ↔ Keeps u s ∨ StillKeeps u (inputOut dv s) :=
  Keeps.iff_or (by unfold inputOut; simp) u

@[simp] theorem keeps_inputBack : Keeps u (inputBack s) ↔ Keeps u s := by
  unfold inputBack; simp

@[simp] theorem keeps_powerEnOn : Keeps u (powerEnOn s) ↔ Keeps u s := keeps_iff_of_only (by simp) u

@[simp] theorem keeps_powerEnOff : Keeps u (powerEnOff s) ↔ Keeps u s ∨ StillKeeps u (powerEnOff s) :=
  Keeps.iff_or (by unfold powerEnOff; simp) u

@[simp] theorem keeps_powerDownPumps : Keeps u (powerDownPumps s) ↔ Keeps u s := keeps_iff_of_only (by simp) u

@[simp] theorem keeps_referenceLoss : Keeps u (referenceLoss s) ↔ Keeps u s ∨ StillKeeps u (referenceLoss s) :=
  Keeps.iff_or (by unfold referenceLoss; simp) u

@[simp] theorem keeps_referenceReturn : Keeps u (referenceReturn s) ↔ Keeps u s := by
  unfold referenceReturn; simp

@[simp] theorem keeps_imageVerified : Keeps u (imageVerified s) ↔ Keeps u s ∨ StillKeeps u (imageVerified s) :=
  Keeps.iff_or (by unfold imageVerified; simp) u

@[simp] theorem keeps_sensorCheck : Keeps u (sensorCheck s) ↔ Keeps u s := keeps_iff_of_only (by simp) u
@[simp] theorem keeps_dieRelease : Keeps u (dieRelease s) ↔ Keeps u s := keeps_iff_of_only (by simp) u
@[simp] theorem keeps_campStart : Keeps u (campStart s) ↔ Keeps u s := keeps_iff_of_only (by simp) u
@[simp] theorem keeps_akGenerated : Keeps u (akGenerated s) ↔ Keeps u s := keeps_iff_of_only (by simp) u

/-- R171, R483: both stores are cleared. -/
@[simp] theorem keeps_zeroFill : Keeps u (zeroFill s) ↔ Keeps u s ∨ StillKeeps u (zeroFill s) := by
  refine Keeps.iff_or ?_ u
  rw [zeroFill, keeps_onSec]
  exact (keeps_clearHbm 0 (s.env.variant.hbmBytes / 256)).trans (keeps_clearLedge _ _)

@[simp] theorem keeps_cairnRecovery : Keeps u (cairnRecovery s) ↔ Keeps u s ∨ StillKeeps u (cairnRecovery s) :=
  Keeps.iff_or (by unfold cairnRecovery; simp) u

@[simp] theorem keeps_stepTimeout (n : Nat) :
    Keeps u (stepTimeout n s) ↔ Keeps u s ∨ StillKeeps u (stepTimeout n s) :=
  Keeps.iff_or (by unfold stepTimeout; simp) u

@[simp] theorem keeps_heartbeatToggle : Keeps u (heartbeatToggle s) ↔ Keeps u s := by
  unfold heartbeatToggle; simp

@[simp] theorem keeps_answer (st : Status) : Keeps u (answer st s) ↔ Keeps u s := keeps_iff_of_only (by simp) u
@[simp] theorem keeps_raiseFloor (d : FwDomain) : Keeps u (raiseFloor d s) ↔ Keeps u s := keeps_iff_of_only (by simp) u

@[simp] theorem keeps_reportReady (svn : Byte) : Keeps u (reportReady svn s) ↔ Keeps u s := by
  unfold reportReady; simp

@[simp] theorem keeps_request (camp : Bool) (h : MboxHalf) : Keeps u ((request camp h s).1) ↔ Keeps u s := by
  unfold request; dsimp only
  (repeat' split) <;> simp

@[simp] theorem keeps_mailbox (camp : Bool) : Keeps u (mailbox camp s) ↔ Keeps u s := by
  unfold mailbox; simp

@[simp] theorem keeps_storeReq (camp : Bool) (bs : List Byte) : Keeps u (storeReq camp bs s) ↔ Keeps u s :=
  keeps_iff_of_only (by simp) u

@[simp] theorem keeps_postRequest (camp : Bool) (bs : List Byte) : Keeps u (postRequest camp bs s) ↔ Keeps u s := by
  unfold postRequest; simp

@[simp] theorem keeps_cfglRead : Keeps u (cfglRead s) ↔ Keeps u s := keeps_iff_of_only (by simp) u
@[simp] theorem keeps_bmcLate : Keeps u (bmcLate s) ↔ Keeps u s := keeps_iff_of_only (by simp) u

@[simp] theorem keeps_autonomous : Keeps u (autonomous s) ↔ Keeps u s := by
  unfold autonomous; simp

@[simp] theorem keeps_mgmt (need : Role) (inRom : Bool) (n : Nat) (who : Principal)
    (act : State → State) (h : ∀ t, Keeps t (act t)) :
    Keeps u (mgmt need inRom n who act s) ↔ Keeps u s ∨ StillKeeps u (mgmt need inRom n who act s) := by
  refine Keeps.iff_or ?_ u
  unfold mgmt; (repeat' split) <;> simp [h]

@[simp] theorem keeps_orDenied (ok : Bool) (act : State → State) (h : ∀ t, Keeps t (act t)) :
    Keeps u (orDenied ok act s) ↔ Keeps u s ∨ StillKeeps u (orDenied ok act s) := by
  refine Keeps.iff_or ?_ u
  unfold orDenied; split <;> simp [h]

@[simp] theorem keeps_setBoardCap (cap : BitVec 12) : Keeps u (setBoardCap cap s) ↔ Keeps u s :=
  keeps_iff_of_only (by simp) u

@[simp] theorem keeps_ledgerCommit : Keeps u (ledgerCommit s) ↔ Keeps u s := keeps_iff_of_only (by simp) u
@[simp] theorem keeps_ledgerRevert : Keeps u (ledgerRevert s) ↔ Keeps u s := keeps_iff_of_only (by simp) u

@[simp] theorem keeps_fwStage (d : FwDomain) (off : Nat) (bs : List Byte) :
    Keeps u (fwStage d off bs s) ↔ Keeps u s := keeps_iff_of_only (by simp) u

@[simp] theorem keeps_fwVerify (d : FwDomain) : Keeps u (fwVerify d s) ↔ Keeps u s := keeps_iff_of_only (by simp) u

@[simp] theorem keeps_leaseRelease (g : Nat) : Keeps u (leaseRelease g s) ↔ Keeps u s := by
  unfold leaseRelease; simp

@[simp] theorem keeps_trngFail (die : Bool) : Keeps u (trngFail die s) ↔ Keeps u s := by
  unfold trngFail; simp

@[simp] theorem keeps_refusePartner (p : Nat) : Keeps u (refusePartner p s) ↔ Keeps u s := by
  unfold refusePartner; simp

@[simp] theorem keeps_keyHello (p : Nat) (m : KeyMsg) :
    Keeps u (keyHello p m s) ↔ Keeps u s ∨ StillKeeps u (keyHello p m s) :=
  Keeps.iff_or (by unfold keyHello; simp) u

@[simp] theorem keeps_keyCt (p : Nat) (m : KeyMsg) : Keeps u (keyCt p m s) ↔ Keeps u s := by
  unfold keyCt; simp

@[simp] theorem keeps_respond (req : Nat) (facts : List Byte) : Keeps u (respond req facts s) ↔ Keeps u s :=
  keeps_iff_of_only (by simp) u

@[simp] theorem keeps_keyExchange (doe : Bool) : Keeps u (keyExchange doe s) ↔ Keeps u s :=
  keeps_iff_of_only (by simp) u

@[simp] theorem keeps_authFailed (doe : Bool) : Keeps u (authFailed doe s) ↔ Keeps u s := by
  unfold authFailed; simp

@[simp] theorem keeps_finishSess (doe : Bool) (k : Nat) (cert : List Byte) :
    Keeps u (finishSess doe k cert s) ↔ Keeps u s := by
  unfold finishSess; simp

@[simp] theorem keeps_inSess (doe : Bool) (k : Nat) (act : State → State) (h : ∀ t, Keeps t (act t)) :
    Keeps u (inSess doe k act s) ↔ Keeps u s ∨ StillKeeps u (inSess doe k act s) := by
  refine Keeps.iff_or ?_ u
  unfold inSess; split <;> simp [h]

@[simp] theorem keeps_heartbeatLoss (doe : Bool) (k : Nat) : Keeps u (heartbeatLoss doe k s) ↔ Keeps u s := by
  unfold heartbeatLoss; simp

end Sys2Proof.Machine
end

section
/-! Register accesses, sealed pages and the rings of entries. -/

namespace Sys2Proof.Machine

open Sys2Proof.Safety

variable {u s : State}

@[simp] theorem keeps_coreRegWrite (c off : Nat) (v : Word) :
    Keeps u (coreRegWrite c off v s) ↔ Keeps u s ∨ StillKeeps u (coreRegWrite c off v s) :=
  Keeps.iff_or (by unfold coreRegWrite; (repeat' split) <;> simp) u

@[simp] theorem keeps_coreRegFx (camp : Bool) (c off : Nat) :
    Keeps u (coreRegFx camp c off s) ↔ Keeps u s ∨ StillKeeps u (coreRegFx camp c off s) :=
  Keeps.iff_or (by unfold coreRegFx; (repeat' split) <;> simp) u

@[simp] theorem keeps_telemetryInterval : Keeps u (telemetryInterval s) ↔ Keeps u s := keeps_iff_of_only (by simp) u

@[simp] theorem keeps_onDbgCore (f : Nat → State → State) (h : ∀ u c t, Keeps u (f c t) ↔ Keeps u t) :
    Keeps u (onDbgCore f s) ↔ Keeps u s := by
  unfold onDbgCore; split <;> simp [h]

@[simp] theorem keeps_dbgHalt (on : Bool) (c : Nat) : Keeps u (dbgHalt on c s) ↔ Keeps u s := by
  unfold dbgHalt; simp

@[simp] theorem keeps_dbgStep (c : Nat) : Keeps u (dbgStep c s) ↔ Keeps u s := by
  unfold dbgStep; simp

@[simp] theorem keeps_dbgTrace (on : Bool) (c : Nat) : Keeps u (dbgTrace on c s) ↔ Keeps u s :=
  keeps_iff_of_only (by simp) u

@[simp] theorem keeps_dbgTraceClr (c : Nat) : Keeps u (dbgTraceClr c s) ↔ Keeps u s := keeps_iff_of_only (by simp) u

@[simp] theorem keeps_dbgDataRead : Keeps u (dbgDataRead s) ↔ Keeps u s := by
  unfold dbgDataRead; simp

@[simp] theorem keeps_dbgRegWrite (off : Nat) (v : Word) : Keeps u (dbgRegWrite off v s) ↔ Keeps u s := by
  unfold dbgRegWrite; dsimp only; split <;> simp

@[simp] theorem keeps_wldComplete (c : Nat) :
    Keeps u (wldComplete c s) ↔ Keeps u s ∨ StillKeeps u (wldComplete c s) :=
  Keeps.iff_or (by unfold wldComplete; (repeat' split) <;> simp) u

@[simp] theorem keeps_bankDrained (c : Nat) :
    Keeps u (bankDrained c s) ↔ Keeps u s ∨ StillKeeps u (bankDrained c s) :=
  Keeps.iff_or (by unfold bankDrained; simp) u

@[simp] theorem keeps_strComplete (c : Nat) :
    Keeps u (strComplete c s) ↔ Keeps u s ∨ StillKeeps u (strComplete c s) :=
  Keeps.iff_or (by unfold strComplete; (repeat' split) <;> simp) u

@[simp] theorem keeps_arbRegWrite (pg : Nat) (b : Blk) (off : Nat) (v : Word) :
    Keeps u (arbRegWrite pg b off v s) ↔ Keeps u s := keeps_iff_of_only (by simp) u

@[simp] theorem keeps_arbRegFx (pg : Nat) (b : Blk) (off : Nat) : Keeps u (arbRegFx pg b off s) ↔ Keeps u s :=
  keeps_iff_of_only (by simp) u

@[simp] theorem keeps_ledgeRegWrite (off : Nat) (v : Word) : Keeps u (ledgeRegWrite off v s) ↔ Keeps u s := by
  unfold ledgeRegWrite
  (repeat' split) <;> simp

@[simp] theorem keeps_meshRegWrite (off : Nat) (v : Word) : Keeps u (meshRegWrite off v s) ↔ Keeps u s :=
  keeps_iff_of_only (by simp) u

@[simp] theorem keeps_meshRegFx (off : Nat) : Keeps u (meshRegFx off s) ↔ Keeps u s := keeps_iff_of_only (by simp) u

@[simp] theorem keeps_hbmRegWrite (k off : Nat) (v : Word) : Keeps u (hbmRegWrite k off v s) ↔ Keeps u s := by
  unfold hbmRegWrite
  (repeat' split) <;> simp

@[simp] theorem keeps_pendClear (bits events : Word) : Keeps u (pendClear bits events s) ↔ Keeps u s := by
  unfold pendClear; simp

@[simp] theorem keeps_writeRouteReg (src : Nat) (v : Word) : Keeps u (writeRouteReg src v s) ↔ Keeps u s := by
  unfold writeRouteReg; simp

@[simp] theorem keeps_globalRegWrite (off : Nat) (v : Word) : Keeps u (globalRegWrite off v s) ↔ Keeps u s := by
  unfold globalRegWrite; simp

@[simp] theorem keeps_globalRegFx (off : Nat) : Keeps u (globalRegFx off s) ↔ Keeps u s :=
  keeps_iff_of_only (by simp) u

@[simp] theorem keeps_sqRegWrite (f i o : Nat) (v : Word) : Keeps u (sqRegWrite f i o v s) ↔ Keeps u s := by
  unfold sqRegWrite
  (repeat' split) <;> simp

@[simp] theorem keeps_cqRegWrite (f i o : Nat) (v : Word) : Keeps u (cqRegWrite f i o v s) ↔ Keeps u s := by
  unfold cqRegWrite
  (repeat' split) <;> simp

@[simp] theorem keeps_hostUpperWrite (off : Nat) (v : Word) : Keeps u (hostUpperWrite off v s) ↔ Keeps u s := by
  unfold hostUpperWrite
  (repeat' split) <;> simp

@[simp] theorem keeps_hostLowerWrite (n off : Nat) (v : Word) : Keeps u (hostLowerWrite n off v s) ↔ Keeps u s := by
  unfold hostLowerWrite; simp

@[simp] theorem keeps_hostRegFx (n off : Nat) : Keeps u (hostRegFx n off s) ↔ Keeps u s := by
  unfold hostRegFx
  (repeat' split) <;> simp

@[simp] theorem keeps_vecRegWrite (f k o : Nat) (v : Word) : Keeps u (vecRegWrite f k o v s) ↔ Keeps u s := by
  unfold vecRegWrite
  (repeat' split) <;> simp

@[simp] theorem keeps_stage (c : Nat) (i : PitchInstr) :
    Keeps u (stage c i s) ↔ Keeps u s ∨ StillKeeps u (stage c i s) :=
  Keeps.iff_or (by unfold stage; simp) u

@[simp] theorem keeps_watBarEffect (c : Nat) (i : PitchInstr) :
    Keeps u (watBarEffect c i s) ↔ Keeps u s ∨ StillKeeps u (watBarEffect c i s) :=
  Keeps.iff_or (by unfold watBarEffect; (repeat' split) <;> simp) u

@[simp] theorem keeps_releaseBarrier (c : Nat) :
    Keeps u (releaseBarrier c s) ↔ Keeps u s ∨ StillKeeps u (releaseBarrier c s) :=
  Keeps.iff_or (by unfold releaseBarrier; dsimp only; (repeat' split) <;> simp) u

@[simp] theorem keeps_watLocalEffect (c : Nat) (i : PitchInstr) :
    Keeps u (watLocalEffect c i s) ↔ Keeps u s ∨ StillKeeps u (watLocalEffect c i s) :=
  Keeps.iff_or (by unfold watLocalEffect; (repeat' split) <;> simp) u

@[simp] theorem keeps_wipeEffect (c : Nat) (_i : PitchInstr) :
    Keeps u (wipeEffect c _i s) ↔ Keeps u s ∨ StillKeeps u (wipeEffect c _i s) :=
  Keeps.iff_or (by unfold wipeEffect; simp) u

@[simp] theorem keeps_endEffect (c : Nat) (_i : PitchInstr) :
    Keeps u (endEffect c _i s) ↔ Keeps u s ∨ StillKeeps u (endEffect c _i s) :=
  Keeps.iff_or (by unfold endEffect; simp) u

@[simp] theorem keeps_completeUnit (c : Nat) (w : Nat) :
    Keeps u (completeUnit c w s) ↔ Keeps u s ∨ StillKeeps u (completeUnit c w s) :=
  Keeps.iff_or (by unfold completeUnit; dsimp only; (repeat' split) <;> simp) u

@[simp] theorem keeps_loopRegWrite (off : Nat) (v : Word) : Keeps u (loopRegWrite off v s) ↔ Keeps u s := by
  unfold loopRegWrite
  (repeat' split) <;> simp

@[simp] theorem keeps_vlvRegWrite (off : Nat) (v : Word) : Keeps u (vlvRegWrite off v s) ↔ Keeps u s := by
  unfold vlvRegWrite
  (repeat' split) <;> simp

@[simp] theorem keeps_vlvRegFx (own : Bool) (off : Nat) : Keeps u (vlvRegFx own off s) ↔ Keeps u s :=
  keeps_iff_of_only (by simp) u

@[simp] theorem keeps_mtrRegWrite (off : Nat) (v : Word) : Keeps u (mtrRegWrite off v s) ↔ Keeps u s :=
  keeps_iff_of_only (by simp) u

@[simp] theorem keeps_sensRegWrite (off : Nat) (v : Word) : Keeps u (sensRegWrite off v s) ↔ Keeps u s :=
  keeps_iff_of_only (by simp) u

@[simp] theorem keeps_leaseChannels (g : Nat) (v : Word) : Keeps u (leaseChannels g v s) ↔ Keeps u s :=
  keeps_iff_of_only (by simp) u

@[simp] theorem keeps_canRegWrite (i off : Nat) (v : Word) : Keeps u (canRegWrite i off v s) ↔ Keeps u s := by
  unfold canRegWrite
  (repeat' split) <;> simp

@[simp] theorem keeps_cbusRegWrite (off : Nat) (v : Word) : Keeps u (cbusRegWrite off v s) ↔ Keeps u s := by
  unfold cbusRegWrite
  (repeat' split) <;> simp

@[simp] theorem keeps_cbusRegFx (own : Bool) (off : Nat) : Keeps u (cbusRegFx own off s) ↔ Keeps u s :=
  keeps_iff_of_only (by simp) u

@[simp] theorem keeps_logRegWrite (off : Nat) (v : Word) : Keeps u (logRegWrite off v s) ↔ Keeps u s :=
  keeps_iff_of_only (by simp) u

@[simp] theorem keeps_logRegFx (off : Nat) : Keeps u (logRegFx off s) ↔ Keeps u s := keeps_iff_of_only (by simp) u

@[simp] theorem keeps_mboxHostWrite (off : Nat) (v : Word) :
    Keeps u (mboxHostWrite off v s) ↔ Keeps u s ∨ StillKeeps u (mboxHostWrite off v s) :=
  Keeps.iff_or (by unfold mboxHostWrite; simp) u

@[simp] theorem keeps_mboxCampWrite (off : Nat) (v : Word) :
    Keeps u (mboxCampWrite off v s) ↔ Keeps u s ∨ StillKeeps u (mboxCampWrite off v s) :=
  Keeps.iff_or (by unfold mboxCampWrite; simp) u

@[simp] theorem keeps_mboxRegFx (own : Bool) (off : Nat) : Keeps u (mboxRegFx own off s) ↔ Keeps u s :=
  keeps_iff_of_only (by simp) u

@[simp] theorem keeps_cfglRegWrite (off : Nat) (v : Word) : Keeps u (cfglRegWrite off v s) ↔ Keeps u s :=
  keeps_iff_of_only (by simp) u

@[simp] theorem keeps_cfglRegFx (camp : Bool) (off : Nat) : Keeps u (cfglRegFx camp off s) ↔ Keeps u s :=
  keeps_iff_of_only (by simp) u

@[simp] theorem keeps_writeCredits (p v : Nat) (c : BitVec 10) : Keeps u (writeCredits p v c s) ↔ Keeps u s :=
  keeps_iff_of_only (by simp) u

@[simp] theorem keeps_fabRegWrite (p off : Nat) (v : Word) :
    Keeps u (fabRegWrite p off v s) ↔ Keeps u s ∨ StillKeeps u (fabRegWrite p off v s) :=
  Keeps.iff_or (by unfold fabRegWrite; (repeat' split) <;> simp) u

@[simp] theorem keeps_fabRegFx (p off : Nat) : Keeps u (fabRegFx p off s) ↔ Keeps u s := keeps_iff_of_only (by simp) u
@[simp] theorem keeps_writeNode (v : Word) : Keeps u (writeNode v s) ↔ Keeps u s := keeps_iff_of_only (by simp) u

@[simp] theorem keeps_writeJob (x : Nat) (v : Word) : Keeps u (writeJob x v s) ↔ Keeps u s :=
  keeps_iff_of_only (by simp) u

@[simp] theorem keeps_fabCommonWrite (off : Nat) (v : Word) : Keeps u (fabCommonWrite off v s) ↔ Keeps u s := by
  unfold fabCommonWrite
  (repeat' split) <;> simp

@[simp] theorem keeps_fabCommonFx (off : Nat) : Keeps u (fabCommonFx off s) ↔ Keeps u s :=
  keeps_iff_of_only (by simp) u

@[simp] theorem keeps_pwrRegWrite (off : Nat) (v : Word) : Keeps u (pwrRegWrite off v s) ↔ Keeps u s :=
  keeps_iff_of_only (by simp) u

@[simp] theorem keeps_pwrSpWrite (off : Nat) (v : Word) : Keeps u (pwrSpWrite off v s) ↔ Keeps u s := by
  unfold pwrSpWrite
  (repeat' split) <;> simp

@[simp] theorem keeps_pwrRegFx (camp host : Bool) (off : Nat) :
    Keeps u (pwrRegFx camp host off s) ↔ Keeps u s := keeps_iff_of_only (by simp) u

@[simp] theorem keeps_thmRegWrite (off : Nat) (v : Word) : Keeps u (thmRegWrite off v s) ↔ Keeps u s :=
  keeps_iff_of_only (by simp) u

@[simp] theorem keeps_thmSpWrite (off : Nat) (v : Word) : Keeps u (thmSpWrite off v s) ↔ Keeps u s :=
  keeps_iff_of_only (by simp) u

@[simp] theorem keeps_secRegWrite (off : Nat) (v : Word) : Keeps u (secRegWrite off v s) ↔ Keeps u s :=
  keeps_iff_of_only (by simp) u

@[simp] theorem keeps_secSpWrite (off : Nat) (v : Word) : Keeps u (secSpWrite off v s) ↔ Keeps u s :=
  keeps_iff_of_only (by simp) u

@[simp] theorem keeps_secRegFx (camp : Bool) (off : Nat) : Keeps u (secRegFx camp off s) ↔ Keeps u s :=
  keeps_iff_of_only (by simp) u

@[simp] theorem keeps_makeOffer (src : CmdSrc) (x epoch : Nat) (a : DWord) (base size : Nat)
    (take : SecCtx → SecCtx) :
    Keeps u (makeOffer src x epoch a base size take s) ↔ Keeps u s ∨
      StillKeeps u (makeOffer src x epoch a base size take s) :=
  Keeps.iff_or (by unfold makeOffer; simp) u

@[simp] theorem keeps_sealOpen (src : CmdSrc) (a : DWord) (base size : Nat) (x : CtxId) :
    Keeps u (sealOpen src a base size x s) ↔ Keeps u s ∨ StillKeeps u (sealOpen src a base size x s) :=
  Keeps.iff_or (by unfold sealOpen; simp) u

@[simp] theorem keeps_sealRotate (src : CmdSrc) (a : DWord) (x : CtxId) :
    Keeps u (sealRotate src a x s) ↔ Keeps u s ∨ StillKeeps u (sealRotate src a x s) :=
  Keeps.iff_or (by unfold sealRotate; dsimp only; (repeat' split) <;> simp) u

@[simp] theorem keeps_acceptKey (x : Nat) (epoch : Byte) (p : List Byte) :
    Keeps u (acceptKey x epoch p s) ↔ Keeps u s := by
  unfold acceptKey; simp

@[simp] theorem keeps_sealDone (x : Nat) : Keeps u (sealDone x s) ↔ Keeps u s := by
  unfold sealDone; simp

@[simp] theorem keeps_sealKey (src : CmdSrc) (a : DWord) (epoch : Byte) (x : CtxId) :
    Keeps u (sealKey src a epoch x s) ↔ Keeps u s ∨ StillKeeps u (sealKey src a epoch x s) :=
  Keeps.iff_or (by unfold sealKey; (repeat' split) <;> simp) u

@[simp] theorem keeps_clearPage (q : Option Phys) :
    Keeps u (clearPage q s) ↔ Keeps u s ∨ StillKeeps u (clearPage q s) :=
  Keeps.iff_or (by unfold clearPage; (repeat' split) <;> simp) u

@[simp] theorem keeps_pageTagFailed (x i : Nat) :
    Keeps u (pageTagFailed x i s) ↔ Keeps u s ∨ StillKeeps u (pageTagFailed x i s) :=
  Keeps.iff_or (by unfold pageTagFailed; simp) u

@[simp] theorem keeps_pageLoaded (x i : Nat) (epoch : Byte) (bs : List Byte) :
    Keeps u (pageLoaded x i epoch bs s) ↔ Keeps u s ∨ StillKeeps u (pageLoaded x i epoch bs s) :=
  Keeps.iff_or (by unfold pageLoaded; simp) u

@[simp] theorem keeps_takePage (src : CmdSrc) (i : Nat) (epoch : Byte) (a : DWord) (x : Nat) (key : List Byte)
    (got : Option (List Byte)) :
    Keeps u (takePage src i epoch a x key got s) ↔ Keeps u s ∨
      StillKeeps u (takePage src i epoch a x key got s) :=
  Keeps.iff_or (by unfold takePage; (repeat' split) <;> simp) u

@[simp] theorem keeps_sealPageWith (src : CmdSrc) (i : Nat) (epoch : Byte) (a : DWord) (x : Nat) (key : Option
    (List Byte)) :
    Keeps u (sealPageWith src i epoch a x key s) ↔ Keeps u s ∨
      StillKeeps u (sealPageWith src i epoch a x key s) :=
  Keeps.iff_or (by unfold sealPageWith; (repeat' split) <;> simp) u

@[simp] theorem keeps_sealPage (src : CmdSrc) (i : Nat) (epoch : Byte) (a : DWord) (x : CtxId) :
    Keeps u (sealPage src i epoch a x s) ↔ Keeps u s ∨ StillKeeps u (sealPage src i epoch a x s) :=
  Keeps.iff_or (by unfold sealPage; simp) u

@[simp] theorem keeps_refuseEntry (src : CmdSrc) (e : List Byte) : Keeps u (refuseEntry src e s) ↔ Keeps u s := by
  unfold refuseEntry; simp

@[simp] theorem keeps_runEntry (src : CmdSrc) (e : List Byte) :
    Keeps u (runEntry src e s) ↔ Keeps u s ∨ StillKeeps u (runEntry src e s) :=
  Keeps.iff_or (by unfold runEntry; simp) u

@[simp] theorem keeps_stopRing (f i err : Nat) : Keeps u (stopRing f i err s) ↔ Keeps u s := by
  unfold stopRing; simp

@[simp] theorem keeps_takeEntry (f i : Nat) (e : List Byte) :
    Keeps u (takeEntry f i e s) ↔ Keeps u s ∨ StillKeeps u (takeEntry f i e s) :=
  Keeps.iff_or (by unfold takeEntry; simp) u

@[simp] theorem keeps_consume (f : FnId) (i : RingId) (entry : Option (List Byte)) :
    Keeps u (consume f i entry s) ↔ Keeps u s ∨ StillKeeps u (consume f i entry s) :=
  Keeps.iff_or (by unfold consume; dsimp only; (repeat' split) <;> simp) u

@[simp] theorem keeps_readFx (who : Party) (b : Blk) (pg off : Nat) :
    Keeps u (readFx who b pg off s) ↔ Keeps u s ∨ StillKeeps u (readFx who b pg off s) :=
  Keeps.iff_or (by unfold readFx; (repeat' split) <;> simp) u

@[simp] theorem keeps_ownerWrite (b : Blk) (off : Nat) (v : Word) :
    Keeps u (ownerWrite b off v s) ↔ Keeps u s ∨ StillKeeps u (ownerWrite b off v s) :=
  Keeps.iff_or (by unfold ownerWrite; (repeat' split) <;> simp) u

@[simp] theorem keeps_headerWrite (m : Word) (pg off : Nat) (v : Word) :
    Keeps u (headerWrite m pg off v s) ↔ Keeps u s := by
  unfold headerWrite
  (repeat' split) <;> simp

@[simp] theorem keeps_regWrite (who : Party) (b : Blk) (pg off : Nat) (v : Word) :
    Keeps u (regWrite who b pg off v s) ↔ Keeps u s ∨ StillKeeps u (regWrite who b pg off v s) :=
  Keeps.iff_or (by unfold regWrite; (repeat' split) <;> simp) u

@[simp] theorem keeps_placeFx (who : Party) (p : Place) :
    Keeps u (placeFx who p s) ↔ Keeps u s ∨ StillKeeps u (placeFx who p s) :=
  Keeps.iff_or (by unfold placeFx; (repeat' split) <;> simp) u

@[simp] theorem keeps_placeWrite (who : Party) (v : Word) (p : Place) :
    Keeps u (placeWrite who v p s) ↔ Keeps u s ∨ StillKeeps u (placeWrite who v p s) :=
  Keeps.iff_or (by unfold placeWrite; (repeat' split) <;> simp) u

@[simp] theorem keeps_readAt (who : Party) (off size : Nat) :
    Keeps u (readAt who off size s) ↔ Keeps u s ∨ StillKeeps u (readAt who off size s) :=
  Keeps.iff_or (by unfold readAt; simp) u

@[simp] theorem keeps_registerRead (who : Party) (off size : Nat) :
    Keeps u (registerRead who off size s) ↔ Keeps u s ∨ StillKeeps u (registerRead who off size s) :=
  Keeps.iff_or (by unfold registerRead; simp) u

@[simp] theorem keeps_writeAt (who : Party) (off size : Nat) (v : DWord) :
    Keeps u (writeAt who off size v s) ↔ Keeps u s ∨ StillKeeps u (writeAt who off size v s) :=
  Keeps.iff_or (by unfold writeAt; simp) u

@[simp] theorem keeps_registerWrite (who : Party) (off size : Nat) (v : DWord) :
    Keeps u (registerWrite who off size v s) ↔ Keeps u s ∨ StillKeeps u (registerWrite who off size v s) :=
  Keeps.iff_or (by unfold registerWrite; simp) u

@[simp] theorem keeps_readWhat (w : ReadWhat) : Keeps u (readWhat w s) ↔ Keeps u s := keeps_iff_of_only (by simp) u

/-- Time counts in the cores and leaves their pitch memories (R23, log entry 3). -/
theorem keeps_tick (s : State) : Keeps s (tick s) := by
  rintro ⟨hledge, hhbm, hhost, hcores, hctx⟩
  refine ⟨hledge, hhbm, hhost, fun e he => ?_, hctx⟩
  obtain ⟨e', he', rfl⟩ := List.mem_map.mp he
  exact hcores e' he'

end Sys2Proof.Machine
end

section
/-! Every command keeps the memories in canonical form, and so does the passage of time. -/

namespace Sys2Proof.Machine

theorem keeps_of_next {o : Res} {s t t' : State} (ho : o = .next t') (hk : Keeps s t') (h : o = .next t) :
    Keeps s t := by
  obtain rfl := Host.Outcome.next.inj (ho.symm.trans h)
  exact hk

/-- Each command answers the state that its operation leaves, and each operation has its equation above. -/
theorem keeps_exec {i : Instr} {s t : State} (h : exec i s = .next t) : Keeps s t := by
  cases i <;> refine keeps_of_next rfl ?_ h
  case coreAbort => (repeat' split) <;> simp
  all_goals simp

end Sys2Proof.Machine

namespace Sys2Proof

open Machine Safety

/-- Settles O10: on an empty queue time passes, which leaves every memory; the command at the front of a queue runs an
operation that keeps the form. -/
theorem memoryKept : Obligations.MemoryKept := by
  intro s t hs h
  unfold step at h
  split at h
  · obtain rfl := Host.Outcome.next.inj h
    exact keeps_tick s hs
  · exact keeps_exec h hs

end Sys2Proof
end

section
/-! The encoding of pitch instructions (R115–R133): the fields of an encoding read back, and what a decoded word says. -/

namespace Sys2Proof.PitchInstr

open Sys2Proof.Machine Sys2Proof.Safety

theorem at64_one_bit {lo : Nat} (h : lo < 64) : (at64 1 1#1 lo).getLsbD lo = true := at64_bit true h

/-- Reading the fields of an encoding gives the instruction back: the fields of a class do not overlap. -/
theorem fields_encode (i : PitchInstr) : fields i.encode = some i := by
  cases i <;> simp (disch := omega) [fields, encode, or_ext, at64_same, at64_off, at64_bit, at64_nobit, code_back,
    at64_one_bit, -BitVec.getLsbD_eq_getElem]

/-- R116: a word decodes to an instruction exactly when it is the encoding of one within the limits of its class. -/
theorem decode_eq_some_iff {w : DWord} {i : PitchInstr} : decode w = some i ↔ i.encode = w ∧ i.ok = true := by
  constructor
  · intro h
    unfold decode at h
    split at h
    case h_1 j hj =>
      rw [Option.ite_none_right_eq_some, Option.some.injEq] at h
      obtain ⟨hw, rfl⟩ := h
      exact hw
    case h_2 => cases h
  · rintro ⟨rfl, hok⟩
    simp [decode, fields_encode, hok]

/-- R115: bits 63 to 58 of an encoding are the opcode of its class. -/
theorem opcode_encode (i : PitchInstr) : (i.encode.extractLsb' 58 6).toNat = (opcodeRow i).1 := by
  cases i <;> simp (disch := omega) [encode, opcodeRow, or_ext, at64_same, at64_off]

theorem unitNo_eq_opcodeRow (i : PitchInstr) : unitNo i = (opcodeRow i).2 := by
  cases i <;> rfl

/-- The opcodes of the table of R115. -/
theorem opcodeRow_mem (i : PitchInstr) : (opcodeRow i).1 ∈
    [0x01, 0x02, 0x03, 0x08, 0x09, 0x0A, 0x0B, 0x10, 0x18, 0x20, 0x21, 0x28, 0x29, 0x30, 0x3F] := by
  cases i <;> simp [opcodeRow]

theorem decode_eq_none_of_opcode {w : DWord} (h : (w.extractLsb' 58 6).toNat ∉
    [0x01, 0x02, 0x03, 0x08, 0x09, 0x0A, 0x0B, 0x10, 0x18, 0x20, 0x21, 0x28, 0x29, 0x30, 0x3F]) : decode w = none := by
  rw [Option.eq_none_iff_forall_ne_some]
  intro i hi
  obtain ⟨rfl, -⟩ := decode_eq_some_iff.mp hi
  exact h (opcode_encode i ▸ opcodeRow_mem i)

end Sys2Proof.PitchInstr

namespace Sys2Proof

/-- Settles O6: the encoder's fields lie apart, so they read back, and the decoder accepts a word only where the fields it
read spell the whole word within the limits. -/
theorem pitchEncodingRoundTrip : Obligations.PitchEncodingRoundTrip :=
  ⟨fun _ hok => PitchInstr.decode_eq_some_iff.mpr ⟨rfl, hok⟩, fun _ _ h => PitchInstr.decode_eq_some_iff.mp h⟩

/-- Settles O5: a decoded word is an encoding, whose opcode is that of the table; the word 0 has the reserved opcode 0. -/
theorem pitchOpcodes : Obligations.PitchOpcodes := by
  refine ⟨fun w i h => ?_, fun w h => PitchInstr.decode_eq_none_of_opcode h,
    PitchInstr.decode_eq_none_of_opcode (by decide)⟩
  obtain ⟨rfl, -⟩ := PitchInstr.decode_eq_some_iff.mp h
  exact ⟨PitchInstr.opcode_encode i, PitchInstr.unitNo_eq_opcodeRow i⟩

end Sys2Proof
end

section
/-! The issue of a pitch instruction (R100–R102, R116, R126–R133): which command issues which class, what holds it, and
what the classes that complete at issue leave. -/

namespace Sys2Proof.Machine

open Sys2Proof.Safety

/-! ### The command of an instruction -/

/-- The classes of instructions that the command of `j` issues. -/
def wants : PitchInstr → PitchInstr → Bool
  | .wld .. => isWld | .wsw => isWsw | .str .. => isStr
  | .ancClr .. => isAncClr | .ancRd .. => isAncRd | .ancExp .. => isAncExp | .ancMrg .. => isAncMrg
  | .vec op .. => isVec op
  | .movIn .. => isMovIn | .movOut .. => isMovOut | .movLocal .. => isMovLocal
  | .snd .. => isSnd | .rcv .. => isRcv | .sig .. => isSig
  | .watBar .. => isWatBar | .watLocal .. => isWatLocal | .wipe => isWipe | .fin => isFin

/-- What the command of `j` does beside the issue. -/
def effectOf : PitchInstr → Nat → PitchInstr → State → State
  | .movOut .. | .snd .. | .sig .. => stage
  | .watBar .. => watBarEffect
  | .watLocal .. => watLocalEffect
  | .wipe => wipeEffect
  | .fin => endEffect
  | .wld .. | .wsw | .str .. | .ancClr .. | .ancRd .. | .ancExp .. | .ancMrg .. | .vec .. | .movIn .. | .movLocal ..
  | .rcv .. => fun _ _ t => t

/-- Every command of a pitch instruction is one look of the sequencer at the word at PC. -/
theorem exec_commandOf (c : CoreId) (j : PitchInstr) (s : State) :
    exec (commandOf c j) s = .next (issueWith (wants j) (effectOf j) c s) := by
  cases j with
  | vec op => cases op <;> rfl
  | _ => rfl

theorem wants_self (i : PitchInstr) : wants i i = true := by
  cases i with
  | vec op => simp [wants, isVec]
  | _ => rfl

/-- The command of `j` issues no instruction that has another command. -/
theorem commandOf_eq_of_wants {i j : PitchInstr} (c : CoreId) (h : wants j i = true) : commandOf c j = commandOf c i := by
  cases j with
  | vec o =>
    cases i with
    | vec op =>
      obtain rfl : op = o := by simpa [wants, isVec] using h
      rfl
    | _ => cases h
  | _ => cases i <;> cases h <;> rfl

theorem effectOf_of_not_completesAtIssue {i : PitchInstr} (h : completesAtIssue i = false) :
    effectOf i = fun _ _ t => t := by
  cases i <;> cases h <;> rfl

/-! ### What holds a word, and what refuses it -/

section
variable {want : PitchInstr → Bool} {eff : Nat → PitchInstr → State → State} {c : Nat} {s : State} {r : Run} {w : DWord}
  {i : PitchInstr}

theorem issueWith_of_not_canIssue (h : canIssue s c = false) : issueWith want eff c s = s := by
  simp [issueWith, h]

theorem issueWith_refused (hc : canIssue s c = true) (hw : (s.core c).word = some w) (hr : (s.core c).run = some r)
    (h : PitchInstr.decode w = none ∨ ∃ i, PitchInstr.decode w = some i ∧ pitchAllows s r i = false) :
    issueWith want eff c s = endRun c .denied (s.core c).pc s := by
  rcases h with h | ⟨i, h, ha⟩ <;> simp [issueWith, refuseWord, *]

theorem issueWith_held (hw : (s.core c).word = some w) (hr : (s.core c).run = some r)
    (hd : PitchInstr.decode w = some i) (ha : pitchAllows s r i = true) (h : mustWait r i = true ∨ want i = false) :
    issueWith want eff c s = s := by
  rcases h with h | h <;> simp [issueWith, *]

end

/-! ### A word that issues -/

/-- What a command that sets one core leaves. -/
theorem exists_next_setCore {o : Res} {s : State} {c : Nat} {K : Core} (h : o = .next (s.setCore c K)) :
    ∃ t, o = .next t ∧ (∀ k, t.core k = if k = c then K else s.core k) ∧ only [.cores] s t :=
  ⟨_, h, fun k => core_setCore s c k K, by simp⟩

section
variable {c : CoreId} {s : State} {r : Run} {w : DWord} {i : PitchInstr}

theorem enqueue_issued (hp : poised s c r w i) (hu : unwatched s c) :
    enqueue c (flightOf (s.core c) i w) (issued c w s) =
      s.setCore c (steppedCore (s.core c) { r with flights := r.flights ++ [flightOf (s.core c) i w] }) := by
  rw [issued_unwatched w hu hp.2.1]
  simp [enqueue, Core.onRun, steppedCore]

/-- An instruction that does not complete at issue joins its unit's queue, and the units carry out what they can. -/
theorem exec_enqueued (hp : poised s c r w i) (hu : unwatched s c) (hq : completesAtIssue i = false) :
    exec (commandOf c i) s = .next (pumpUnits c (s.setCore c
      (steppedCore (s.core c) { r with flights := r.flights ++ [flightOf (s.core c) i w] }))) := by
  rw [exec_commandOf, issueWith_poised _ _ hp (wants_self i), hq, effectOf_of_not_completesAtIssue hq,
    if_neg Bool.false_ne_true, enqueue_issued hp hu]

/-- R332: where the core does not hold the reserve, an instruction that issues stays in its unit's queue. -/
theorem exec_queued (hp : poised s c r w i) (hu : unwatched s c) (hq : completesAtIssue i = false)
    (hres : holdsReserve s c = false) : exec (commandOf c i) s = .next (s.setCore c
      (steppedCore (s.core c) { r with flights := r.flights ++ [flightOf (s.core c) i w] })) :=
  (exec_enqueued hp hu hq).trans (congrArg _ (pumpUnits_held hres))

/-- R131: an instruction that completes at issue leaves what its effect makes of the stepped core, where that keeps the
queues, in which every instruction is carried out. -/
theorem exec_completesAtIssue {K : Core} {r' : Run} (hp : poised s c r w i) (hu : unwatched s c)
    (hdone : ∀ f ∈ r.flights, f.done = true) (hq : completesAtIssue i = true)
    (heff : effectOf i c i (s.setCore c (steppedCore (s.core c) r)) = s.setCore c K) (hK : K.run = some r')
    (hfl : r'.flights = r.flights) : exec (commandOf c i) s = .next (s.setCore c K) := by
  have hrun : ((s.setCore c K).core c).run = some r' := by simpa using hK
  have hall : r'.flights.all (fun f => f.done) = true := by simpa [hfl] using hdone
  rw [exec_commandOf, issueWith_poised _ _ hp (wants_self i), hq, if_pos rfl, issued_unwatched w hu hp.2.1, heff,
    pumpUnits_none hrun hall]

/-- R133: END marks the pitch as ended and moves its core to the commit. -/
theorem exec_pitchEnd (hp : poised s c r w .fin) (hu : unwatched s c) (hdone : ∀ f ∈ r.flights, f.done = true) :
    exec (.pitchEnd c) s =
      .next (s.setCore c { steppedCore (s.core c) { r with ended := true } with pstate := .commit }) :=
  exec_completesAtIssue (i := .fin) hp hu hdone rfl
    (by simp [effectOf, endEffect, Core.onRun, steppedCore]) rfl rfl

/-- R130: the effect of a barrier WAT on a core that has stepped over it. -/
theorem watBarEffect_stepped (ctr : BitVec 6) (target : Word) :
    watBarEffect c (.watBar ctr target) (s.setCore c (steppedCore (s.core c) r)) = s.setCore c
      (if barrierMet s r.job.ctx.val ctr target then steppedCore (s.core c) r
       else { steppedCore (s.core c) r with pstate := .waitBarrier }) := by
  have hmet : barrierMet (s.setCore c (steppedCore (s.core c) r)) r.job.ctx.val ctr target =
      barrierMet s r.job.ctx.val ctr target := rfl
  simp only [watBarEffect, core_setCore, if_true, steppedCore, onCore_setCore] at hmet ⊢
  simp only [hmet]
  split <;> rfl

/-- R131: the effect of a local WAT on a core that has stepped over it. -/
theorem watLocalEffect_stepped (us : BitVec 5) :
    watLocalEffect c (.watLocal us) (s.setCore c (steppedCore (s.core c) r)) = s.setCore c
      (if unitsBusy r us then steppedCore (s.core c) { r with waitUnits := some us } else steppedCore (s.core c) r) := by
  have hbusy : unitsBusy { r with started := true } us = unitsBusy r us := rfl
  simp only [watLocalEffect, onCore_setCore, Core.onRun, steppedCore, Option.map_some, hbusy]
  cases unitsBusy r us <;> rfl

end

end Sys2Proof.Machine

namespace Sys2Proof

open Machine Safety

/-- Settles O48: each command is a look of the sequencer at the word at PC, and each class has its effect on the stepped
core. -/
theorem issueCommands : Obligations.IssueCommands := by
  refine ⟨⟨?_, ?_, ?_, ?_⟩, ?_⟩
  · intro c j s h
    rw [exec_commandOf, issueWith_of_not_canIssue h]
  · intro c j w r s hc hw hr h
    rw [exec_commandOf, issueWith_refused hc hw hr h]
  · intro c i j w r s _ hw hr hd ha h
    have hheld : mustWait r i = true ∨ wants j i = false :=
      h.imp_right fun hne => Bool.eq_false_iff.mpr fun hw => hne (commandOf_eq_of_wants c hw)
    rw [exec_commandOf, issueWith_held hw hr hd ha hheld]
  · intro c i w r s hp hu hq hres
    exact exists_next_setCore (exec_queued hp hu hq hres)
  · intro c w r i s hp hu hdone
    refine ⟨?_, ?_, ?_, ?_, ?_, ?_, ?_⟩
    · rintro reg roff pml len rfl
      exact exists_next_setCore (exec_completesAtIssue hp hu hdone rfl
        (by simp [effectOf, stage, Core.onRun, steppedCore]) rfl rfl)
    · rintro node vl ch pml len rfl
      exact exists_next_setCore (exec_completesAtIssue hp hu hdone rfl
        (by simp [effectOf, stage, Core.onRun, steppedCore]) rfl rfl)
    · rintro ctr inc rfl
      exact exists_next_setCore (exec_completesAtIssue hp hu hdone rfl
        (by simp [effectOf, stage, Core.onRun, steppedCore]) rfl rfl)
    · rintro ctr target rfl
      refine exists_next_setCore (exec_completesAtIssue (r' := { r with started := true }) hp hu hdone rfl
        (watBarEffect_stepped ctr target) ?_ rfl)
      split <;> rfl
    · rintro us rfl
      refine exists_next_setCore (exec_completesAtIssue
        (r' := if unitsBusy r us then { r with started := true, waitUnits := some us } else { r with started := true })
        hp hu hdone rfl (watLocalEffect_stepped us) ?_ ?_)
      · split <;> rfl
      · split <;> rfl
    · rintro rfl
      exact exists_next_setCore (exec_completesAtIssue (r' := { r with started := true }) hp hu hdone rfl
        (by simp [effectOf, wipeEffect]) rfl rfl)
    · rintro rfl
      exact exists_next_setCore (exec_pitchEnd hp hu hdone)

/-- Settles O7: the encoding of END is the one word, and the END that issues marks its pitch as ended. -/
theorem endWordBeginsCommit : Obligations.EndWordBeginsCommit := by
  refine ⟨fun w => PitchInstr.decode_eq_some_iff.trans ⟨fun h => h.1.symm, fun h => ⟨h.symm, rfl⟩⟩, ?_⟩
  rintro c r s ⟨hp, hflights, -, hu⟩
  obtain ⟨t, ht, hcore, -⟩ := exists_next_setCore (exec_pitchEnd hp hu (by simp [hflights]))
  refine ⟨t, ht, { r with started := true, ended := true }, ?_, rfl, ?_⟩ <;> simp [hcore, steppedCore]

end Sys2Proof
end

section
/-! One instruction alone on its core (R100, R131), and the vector unit (R91–R96, R125). -/

namespace Sys2Proof.Machine

open Sys2Proof.Safety

/-! ### One instruction alone on its core -/

/-- A core whose one instruction its unit has carried out. -/
def Core.carried (K k : Core) (i : PitchInstr) (w : DWord) : Core :=
  K.onRun (fun q => { q with flights := [{ flightOf k i w with done := true }] })

section
variable {c : CoreId} {s t u : State} {r r' : Run} {w : DWord} {i : PitchInstr}

theorem exec_alone (h : alone s c r w i) (hq : completesAtIssue i = false)
    (hs : unitStep c (unitNo i).val (s.setCore c (queuedCore (s.core c) r i w)) = some t) (ht : pumpN 23 c t = t) :
    exec (commandOf c i) s = .next t := by
  rw [exec_commandOf, effectOf_of_not_completesAtIssue hq]
  exact congrArg _ (issueAs_alone (wants i) h (wants_self i) hq hs ht)

theorem unitStep_load (hi : unitNo i = 0) : unitStep c (unitNo i).val (s.setCore c (queuedCore (s.core c) r i w)) =
    loadStep c (flightOf (s.core c) i w) (queuedRun (s.core c) r i w) (s.setCore c (queuedCore (s.core c) r i w)) := by
  rw [unitStep_alone, hi]
  rfl

theorem unitStep_grid (hi : unitNo i = 1) : unitStep c (unitNo i).val (s.setCore c (queuedCore (s.core c) r i w)) =
    gridStep c (flightOf (s.core c) i w) (queuedRun (s.core c) r i w) (s.setCore c (queuedCore (s.core c) r i w)) := by
  rw [unitStep_alone, hi]
  rfl

theorem unitStep_anchor (hi : unitNo i = 2) : unitStep c (unitNo i).val (s.setCore c (queuedCore (s.core c) r i w)) =
    anchorStep c (flightOf (s.core c) i w) (queuedRun (s.core c) r i w) (s.setCore c (queuedCore (s.core c) r i w)) := by
  rw [unitStep_alone, hi]
  rfl

theorem unitStep_vec (hi : unitNo i = 3) : unitStep c (unitNo i).val (s.setCore c (queuedCore (s.core c) r i w)) =
    vecStep c (flightOf (s.core c) i w) (queuedRun (s.core c) r i w) (s.setCore c (queuedCore (s.core c) r i w)) := by
  rw [unitStep_alone, hi]
  rfl

theorem unitStep_move (hi : unitNo i = 4) : unitStep c (unitNo i).val (s.setCore c (queuedCore (s.core c) r i w)) =
    moveStep c (flightOf (s.core c) i w) (queuedRun (s.core c) r i w) (s.setCore c (queuedCore (s.core c) r i w)) := by
  rw [unitStep_alone, hi]
  rfl

/-- R131: the unit carries out the instruction, which then waits for its completion. -/
theorem exec_carried (h : alone s c r w i) (hq : completesAtIssue i = false)
    (hs : unitStep c (unitNo i).val (s.setCore c (queuedCore (s.core c) r i w)) =
      some (markDone c (flightOf (s.core c) i w).pc u))
    (hrun : (u.core c).run = some r') (hfl : r'.flights = [flightOf (s.core c) i w]) :
    exec (commandOf c i) s = .next (u.setCore c ((u.core c).carried (s.core c) i w)) := by
  have hmark : markDone c (flightOf (s.core c) i w).pc u = u.setCore c ((u.core c).carried (s.core c) i w) := by
    simp [markDone, State.onCore, Core.carried, Core.onRun, hrun, hfl]
  rw [hmark] at hs
  refine exec_alone h hq hs (pumpN_done (r := { r' with flights := [{ flightOf (s.core c) i w with done := true }] }) ?_ rfl)
  simp [Core.carried, Core.onRun, hrun]

/-- As `exec_carried`, where the unit changes the core alone. -/
theorem exec_carried_core {K : Core} (h : alone s c r w i) (hq : completesAtIssue i = false)
    (hs : unitStep c (unitNo i).val (s.setCore c (queuedCore (s.core c) r i w)) =
      some (markDone c (flightOf (s.core c) i w).pc (s.setCore c K)))
    (hrun : K.run = some r') (hfl : r'.flights = [flightOf (s.core c) i w]) :
    exec (commandOf c i) s = .next (s.setCore c (K.carried (s.core c) i w)) := by
  simpa using exec_carried h hq hs (by simpa using hrun) hfl

end

/-! ### The vector unit -/

/-- What an operation that writes a vector register alone writes to it. -/
def vecValue (k : Core) (op : VOp) (bf : Bool) (va vb vc : BitVec 5) (addr : BitVec 21) : Option (List Word) :=
  if op = .vld then some (bytesReg (k.readPm addr.toNat 512))
  else vecResult op bf (k.reg va.toNat) (k.reg vb.toNat) (k.reg vc.toNat)
    ((List.range (vc.toNat + 1)).map (fun j => k.reg (va.toNat + j)))

/-- R68: a conversion takes the next ordinal of its pitch. -/
def Core.nextOrd (k : Core) : Core := k.onRun (fun q => { q with ord := q.ord + 1 })

/-- R69: what a conversion without a residue check adds to its core and its pitch. -/
def Core.report (k : Core) (q : Report) : Core :=
  ({ k with ancStat := k.ancStat ||| BitVec.ofNat 4 (b2n q.inx + 2 * b2n q.sat + 4 * b2n q.nan),
            unchk := satAdd k.unchk q.unchk, nanres := satAdd k.nanres q.nanres }).onRun (fun z => { z with
    inx := z.inx || q.inx, sat := z.sat || q.sat, nan := z.nan || q.nan })

theorem applyReport_eq_report {c : Nat} {q : Report} {s : State} {K : Core} (h : q.resfail = false) :
    applyReport c q (s.setCore c K) = s.setCore c (K.report q) := applyReport_clean h

section
variable {c : Nat} {f : Flight} {r : Run} {s : State} {k : Core} {op : VOp} {bf : Bool} {vd va vb vc : BitVec 5}
  {rm : BitVec 3} {addr : BitVec 21}

theorem vecStep_value {ws : List Word} (hd : PitchInstr.decode f.word = some (.vec op bf vd va vb vc rm addr))
    (hv : vecValue k op bf va vb vc addr = some ws) :
    vecStep c f r (s.setCore c k) = some (markDone c f.pc (s.setCore c (k.setReg vd.toNat ws))) := by
  simp only [vecStep, hd, core_setCore, if_true, setCore_setCore]
  cases op
  case vst | cvth | cvt4 | cvt6 | cvt8 => cases hv
  all_goals
    obtain rfl := Option.some_injective _ hv
    rfl

theorem vecStep_vst (hd : PitchInstr.decode f.word = some (.vec .vst bf vd va vb vc rm addr)) :
    vecStep c f r (s.setCore c k) =
      some (markDone c f.pc (s.setCore c (k.writePm addr.toNat (regBytes (k.reg va.toNat))))) := by
  simp only [vecStep, hd, core_setCore, if_true, setCore_setCore]

theorem vecStep_cvth (hd : PitchInstr.decode f.word = some (.vec .cvth bf vd va vb vc rm addr)) {q : List Word × Report}
    (hq : q = cvth ((RMode.ofCode rm.toNat).getD .rne) r.job.desc.id r.ord.toNat (k.reg va.toNat)) :
    vecStep c f r (s.setCore c k) =
      some (markDone c f.pc (s.setCore c ((k.setReg vd.toNat q.1).nextOrd.report q.2))) := by
  have hclean : q.2.resfail = false := by rw [hq]; rfl
  rw [← applyReport_eq_report hclean, hq]
  simp only [vecStep, hd, Core.nextOrd, core_setCore, if_true, setCore_setCore]

theorem vecStep_cvtBlocks (hd : PitchInstr.decode f.word = some (.vec op bf vd va vb vc rm addr))
    (hop : op = .cvt4 ∨ op = .cvt6 ∨ op = .cvt8) {q : List Byte × Report}
    (hq : q = cvtBlocks (cvtWidth op) ((RMode.ofCode rm.toNat).getD .rne) r.job.desc.id r.ord.toNat (k.reg va.toNat)) :
    vecStep c f r (s.setCore c k) =
      some (markDone c f.pc (s.setCore c ((k.writePm addr.toNat q.1).nextOrd.report q.2))) := by
  have hclean : q.2.resfail = false := by rw [hq]; rfl
  rw [← applyReport_eq_report hclean, hq]
  rcases hop with rfl | rfl | rfl <;> simp only [vecStep, hd, Core.nextOrd, core_setCore, if_true, setCore_setCore]

end

/-- R68, R69: what a conversion leaves, from the core that it has written its result to. -/
theorem conversion_outcome {o : Res} {c : Nat} {s : State} {k K : Core} {r r0 : Run} {i : PitchInstr} {w : DWord}
    {q : Report} (ho : o = .next (s.setCore c ((K.nextOrd.report q).carried k i w))) (hnan : K.nanres = k.nanres)
    (hstat : K.ancStat = k.ancStat) (hrun : K.run = some r0)
    (hr0 : r0.ord = r.ord ∧ r0.inx = r.inx ∧ r0.sat = r.sat ∧ r0.nan = r.nan) :
    ∃ t, o = .next t ∧ (∀ n, n ≠ c → t.core n = s.core n) ∧ (t.core c).vec = K.vec ∧ (t.core c).pm = K.pm ∧
      (t.core c).nanres = satAdd k.nanres q.nanres ∧
      (t.core c).ancStat = k.ancStat ||| BitVec.ofNat 4 (b2n q.inx + 2 * b2n q.sat + 4 * b2n q.nan) ∧
      (∀ r', (t.core c).run = some r' → r'.ord = r.ord + 1 ∧ r'.inx = (r.inx || q.inx) ∧ r'.sat = (r.sat || q.sat) ∧
        r'.nan = (r.nan || q.nan)) ∧ only [.cores] s t := by
  obtain ⟨t, ht, hcore, honly⟩ := exists_next_setCore ho
  refine ⟨t, ht, fun n hn => by rw [hcore, if_neg hn], ?_⟩
  rw [hcore, if_pos rfl]
  refine ⟨rfl, rfl, by rw [← hnan]; rfl, by rw [← hstat]; rfl, fun r' hr' => ?_, honly⟩
  simp only [Core.carried, Core.report, Core.nextOrd, Core.onRun, hrun, Option.map_some, Option.some.injEq] at hr'
  subst hr'
  obtain ⟨hord, hinx, hsat, hnan⟩ := hr0
  rw [← hord, ← hinx, ← hsat, ← hnan]
  exact ⟨rfl, rfl, rfl, rfl⟩

end Sys2Proof.Machine

namespace Sys2Proof

open Machine Safety

/-- Settles O49: the vector unit takes the one instruction from its queue, and each operation changes the core alone. -/
theorem vectorCommands : Obligations.VectorCommands := by
  rintro c w r op bf vd va vb vc rm addr s k K halone rfl rfl
  have hd : PitchInstr.decode (flightOf (s.core c) (.vec op bf vd va vb vc rm addr) w).word =
    some (.vec op bf vd va vb vc rm addr) := halone.1.2.2.2.1
  refine ⟨fun p hp hop => ?_, ?_, ?_, ?_⟩
  · have hv : vecValue (queuedCore (s.core c) r (.vec op bf vd va vb vc rm addr) w) op bf va vb vc addr = some p.2 := by
      subst hop
      clear halone hd
      revert p
      simp only [List.forall_mem_cons]
      repeat' constructor
      simp
    have hnext := exec_carried_core halone rfl ((unitStep_vec rfl).trans (vecStep_value hd hv)) rfl rfl
    exact exists_next_setCore (hnext.trans rfl)
  · rintro rfl
    have hnext := exec_carried_core halone rfl ((unitStep_vec rfl).trans (vecStep_vst hd)) rfl rfl
    exact exists_next_setCore (hnext.trans rfl)
  · rintro q rfl hq
    have hnext := exec_carried_core halone rfl ((unitStep_vec rfl).trans
      (vecStep_cvth (s := s) (k := queuedCore (s.core c) r _ w) (r := queuedRun (s.core c) r _ w) hd hq)) rfl rfl
    have hout := conversion_outcome (r := r) hnext rfl rfl rfl ⟨rfl, rfl, rfl, rfl⟩
    exact hout
  · rintro q hop hq
    have hwidth : cvtWidth op = if op = .cvt4 then 4 else if op = .cvt6 then 6 else 8 := by
      rcases hop with rfl | rfl | rfl <;> rfl
    rw [← hwidth] at hq
    have hnext := exec_carried_core halone rfl ((unitStep_vec rfl).trans
      (vecStep_cvtBlocks (s := s) (k := queuedCore (s.core c) r _ w) (r := queuedRun (s.core c) r _ w) hd hop hq)) rfl rfl
    have hout := conversion_outcome (r := r) hnext rfl rfl rfl ⟨rfl, rfl, rfl, rfl⟩
    exact hout

end Sys2Proof
end

section
/-! What the end of a pitch leaves on its core (R114, R142, R216, R232). -/

namespace Sys2Proof.Machine

open Sys2Proof.Safety

/-! ### Reading a core through the shared operations -/

theorem core_congr {s t : State} (h : t.cores = s.cores) (c : Nat) : t.core c = s.core c := by
  rw [State.core, h, State.core]

theorem core_onCore_ite (s : State) (n m : Nat) (f : Core → Core) :
    (s.onCore n f).core m = if m = n then f (s.core n) else s.core m := core_setCore s n m _

theorem ctl_onCtl_ite (s : State) (n m : Nat) (f : CoreCtl → CoreCtl) :
    (s.onCtl n f).ctl m = if m = n then f (s.ctl n) else s.ctl m := ctl_setCtl s n m _

/-- A property that each item's change keeps holds after the changes for a list. -/
theorem forAll_preserves {α : Type} {P : State → Prop} {f : α → State → State} (hf : ∀ x t, P t → P (f x t))
    (xs : List α) {s : State} (hs : P s) : P (forAll xs f s) := by
  induction xs generalizing s with
  | nil => exact hs
  | cons x xs ih => exact ih (hf x s hs)

/-! ### A core without a pitch -/

/-- No pitch runs on a core. -/
def Vacant (c : Nat) (s : State) : Prop := (s.core c).run = none

/-- A core holds no instruction in flight: it has no pitch, or one that has just started. -/
def Unladen (c : Nat) (s : State) : Prop := ∀ r, (s.core c).run = some r → r.flights = []

theorem Vacant.unladen {c : Nat} {s : State} (h : Vacant c s) : Unladen c s := by
  intro r hr
  rw [Vacant, hr] at h
  cases h

theorem Vacant.of_only {T : List Part} {c : Nat} {s t : State} (h : Vacant c s) (ho : only T s t)
    (hT : Part.cores ∉ T := by simp) : Vacant c t := by
  rwa [Vacant, core_congr (kept .cores ho hT)]

theorem Unladen.pumpN {c : Nat} {s : State} (h : Unladen c s) (n : Nat) : pumpN n c s = s := by
  cases hr : (s.core c).run with
  | none => exact pumpN_idle hr
  | some r => exact pumpN_none hr (by simp [h r hr])

section
variable {c : Nat} {s : State}

theorem Vacant.onCore (h : Vacant c s) {n : Nat} {f : Core → Core} (hf : ∀ k, k.run = none → (f k).run = none) :
    Vacant c (s.onCore n f) := by
  rw [Vacant, core_onCore_ite]
  split
  case isTrue hn => exact hf _ (hn ▸ h)
  case isFalse => exact h

theorem Vacant.wipeOwned (h : Vacant c s) (x : Nat) : Vacant c (wipeOwned x s) := by
  refine forAll_preserves (fun e t ht => ?_) _ h
  split
  · exact (ht.onCore (n := e.1) (f := Core.wipe) fun _ _ => rfl).of_only (T := [.ctls]) (by simp)
  · exact ht

theorem Vacant.startScrub (h : Vacant c s) (x : Nat) : Vacant c (startScrub x s) := by
  have howned : Vacant c (Machine.wipeOwned x
      (s.onCx x fun q => { q with st := .scrubbing, scrubActive := true, progress := 0, saved := [] })) :=
    Vacant.wipeOwned (h.of_only (T := [.ctx]) (by simp)) x
  exact howned.of_only (T := [.reply, .hdrs, .host, .glob, .sec, .evts]) (by simp [Machine.startScrub])

theorem Vacant.checkDrain (h : Vacant c s) (x : Nat) : Vacant c (checkDrain x s) := by
  unfold Machine.checkDrain
  split
  · exact h.startScrub x
  · exact h

theorem Vacant.unpend (h : Vacant c s) (n : Nat) : Vacant c (unpend n s) := by
  unfold Machine.unpend
  split
  · have hleft : Vacant c (s.onCore n fun k => { k with next := none, nextFetched := false, nextBuf := [] }) :=
      h.onCore fun _ hk => hk
    exact hleft.of_only (T := [.ctx]) (by simp)
  · exact h

theorem Vacant.fenceCore (h : Vacant c s) (n : Nat) : Vacant c (fenceCore n s) := by
  have hu : Vacant c (Machine.unpend n (returnBalance n s)) := (h.of_only (T := [.ctls, .pwr]) (by simp)).unpend n
  unfold Machine.fenceCore
  dsimp only
  (repeat' split)
  · exact h
  all_goals exact hu.of_only (T := [.hdrs, .ctls, .fence, .host, .glob, .evts]) (by simp)

theorem Vacant.fenceIfDue (h : Vacant c s) (n : Nat) : Vacant c (fenceIfDue n s) := by
  unfold Machine.fenceIfDue
  split
  · exact h.fenceCore n
  · exact h

/-- A core whose pitch has just started (R112, R113). -/
def Core.started (k : Core) (j : PitchJob) (fetched : Bool) : Core :=
  { k with run := some { job := { j with runs := j.runs + 1, reissue := false }, fetched := fetched },
           pitchId := j.desc.id, pc := 0, cycles := 0, wdog := 0, pstate := .waitTokens, bankA := k.bankA.dropped,
           bankB := k.bankB.dropped, ibuf := if fetched then k.nextBuf else [], nextBuf := [], nextFetched := false }

theorem startRun_core (j : PitchJob) (fetched : Bool) (k : Nat) :
    (startRun c j fetched s).core k = if k = c then (s.core c).started j fetched else s.core k := by
  have htrace (K : Core) : (trace c 2 j.ctx.val 0 0 0 j.desc.id (((s.setCore c K).onCtl c fun q =>
      { q with firstReq := true }).onSx j.ctx.val fun x => { x with started := true })).core k =
      if k = c then K else s.core k :=
    (core_congr (kept .cores (s := s.setCore c K) (T := [.hdrs, .host, .glob, .ctls, .dbg, .sec]) (by simp)
      (by simp)) k).trans (core_setCore s c k K)
  exact htrace _

theorem Vacant.startNext (h : Vacant c s) : Unladen c (startNext c s) := by
  unfold Machine.startNext
  split
  · split
    · exact h.unladen
    · intro r hr
      rw [startRun_core, if_pos rfl] at hr
      cases hr
      rfl
  · exact h.unladen

theorem Vacant.finishPitch (h : Vacant c s) (j : PitchJob) (e : PitchEnd) : Vacant c (finishPitch j e s) :=
  h.of_only (T := [.reply, .hdrs, .host, .glob]) (by simp)

theorem Vacant.onFence (h : Vacant c s) (f : FenceBlk → FenceBlk) : Vacant c (s.onFence f) :=
  h.of_only (T := [.fence]) (by simp)

/-- The steps after a pitch's completion: the fence that is due, the pitch taken back, or the next one's start. -/
theorem Vacant.turnover (h : Vacant c s) (fence : Bool) (hold : Prop) [Decidable hold] : Unladen c
    (if fence then Machine.fenceIfDue c s else if hold then Machine.unpend c s else Machine.startNext c s) := by
  split
  · exact (h.fenceIfDue c).unladen
  · split
    · exact (h.unpend c).unladen
    · exact h.startNext

/-- R114, R142: when a pitch has ended, its core has none, or the one that waited for it has just started. -/
theorem endRun_unladen (st : Status) (faultPc : BitVec 16) : Unladen c (endRun c st faultPc s) := by
  cases hr : (s.core c).run with
  | none => simpa [endRun, hr] using Vacant.unladen hr
  | some r =>
    have hleft (t : State) : Vacant c (raise (pgCore c) 0 (t.onCore c (fun k => k.vacate st))) :=
      Vacant.of_only (s := t.onCore c (fun k => k.vacate st)) (T := [.hdrs, .host, .glob])
        (by rw [Vacant, core_onCore]; rfl) (by simp)
    simp only [endRun, hr]
    refine Vacant.turnover (Vacant.checkDrain ?_ _) _ _
    split
    · exact (hleft _).onFence _
    · exact (hleft _).finishPitch _ _

end

end Sys2Proof.Machine
end

section
/-! The weight load engine and the cell grid (R74–R87, R117–R121): a unit that waits or ends the pitch, and what WLD, WSW,
STR and their completions leave. -/

namespace Sys2Proof.Machine

open Sys2Proof.Safety

/-! ### A unit that waits, and a unit that ends the pitch -/

section
variable {c : CoreId} {s u : State} {r : Run} {w : DWord} {i : PitchInstr}

/-- The units stop at the one instruction in flight that its unit cannot carry out. -/
theorem pumpN_waiting {c : Nat} {f : Flight} (n : Nat) (hr : (s.core c).run = some r) (hfl : r.flights = [f])
    (hs : unitStep c f.unit.val s = none) : pumpN n c s = s := by
  cases n with
  | zero => rfl
  | succ n =>
    have hnone : (unitOrder s c).findSome? (fun v => unitStep c v s) = none := by
      rw [List.findSome?_eq_none_iff]
      intro v hv
      obtain rfl : v = f.unit.val := by
        simp only [unitOrder, hr, hfl, List.mem_map, List.mem_filter, List.mem_singleton] at hv
        obtain ⟨g, ⟨rfl, -⟩, rfl⟩ := hv
        rfl
      exact hs
    simp only [pumpN, hnone]

theorem flightOf_pc : BitVec.ofNat 16 (flightOf (s.core c) i w).pc = (s.core c).pc := by simp [flightOf]

/-- R114: an instruction whose unit ends the pitch. -/
theorem exec_ended {st : Status} (h : alone s c r w i) (hq : completesAtIssue i = false)
    (hs : unitStep c (unitNo i).val (s.setCore c (queuedCore (s.core c) r i w)) =
      some (endRun c st (BitVec.ofNat 16 (flightOf (s.core c) i w).pc) u)) :
    exec (commandOf c i) s = .next (endRun c st (s.core c).pc u) := by
  rw [flightOf_pc] at hs
  exact exec_alone h hq hs (endRun_unladen _ _ |>.pumpN 23)

end

/-! ### The banks of a queued core -/

section
variable {c : CoreId} {s : State} {r : Run} {w : DWord} {i : PitchInstr} {k : Core}

theorem pickBank_queued (h : r.flights = []) : pickBank (queuedCore k r i w) (queuedRun k r i w) = pickBank k r := by
  have hload (b : Bool) : (queuedRun k r i w).loading b = r.loading b := by
    simp [Run.loading, queuedRun, flightOf, h]
  simp only [pickBank, hload]
  rfl

theorem weightSource_queued (src : Bool) (p : BitVec 4) (reg : BitVec 3) (off : BitVec 26) :
    weightSource (s.setCore c (queuedCore (s.core c) r i w)) c (queuedRun (s.core c) r i w) src p reg off =
      weightSource s c r src p reg off := by
  simp only [weightSource, core_setCore, if_true]
  rfl

theorem setBank_run (k : Core) (b : Bool) (v : Bank) : (k.setBank b v).run = k.run := by
  cases b <;> rfl

/-- The core while a bank is being loaded. -/
def loadingCore (k : Core) (r : Run) (i : PitchInstr) (w : DWord) (b : Bool) : Core :=
  steppedCore k { r with flights := [{ flightOf k i w with bank := some b }] }

theorem loadStep_alone {src : Bool} {p : BitVec 4} {reg : BitVec 3} {off : BitVec 26} {b : Bool} {bytes : List Byte}
    (hd : PitchInstr.decode w = some (.wld src p reg off)) (hfl : r.flights = []) (hb : pickBank (s.core c) r = some b)
    (hbytes : weightSource s c r src p reg off = some bytes) :
    loadStep c (flightOf (s.core c) i w) (queuedRun (s.core c) r i w) (s.setCore c (queuedCore (s.core c) r i w)) =
      some (s.setCore c ((loadingCore (s.core c) r i w b).setBank b
        { (s.core c).bank b with valid := false, pair := p, set := bytes })) := by
  have hpick : pickBank ((s.setCore c (queuedCore (s.core c) r i w)).core c) (queuedRun (s.core c) r i w) = some b := by
    simpa [pickBank_queued hfl] using hb
  have hd' : PitchInstr.decode (flightOf (s.core c) i w).word = some (.wld src p reg off) := hd
  have hnb : (flightOf (s.core c) i w).bank = none := rfl
  simp only [loadStep, hd', hnb, hpick, weightSource_queued, hbytes, onCore_setCore]
  cases b <;> simp [queuedRun, queuedCore, flightOf, loadingCore, steppedCore, Core.setBank, Core.bank, Core.onRun]

/-- R118: no other load starts while the one WLD is loading. -/
theorem unitStep_loading {c : Nat} {f : Flight} {b : Bool} (hr : (s.core c).run = some r) (hfl : r.flights = [f])
    (hu : f.unit = 0) (hb : f.bank = some b) : unitStep c f.unit.val s = none := by
  have hload : ∀ g : Flight, g = f → loadStep c g r s = none := by
    rintro g rfl
    unfold loadStep
    rw [hb]
    split
    case h_1 heq _ => cases heq
    case h_2 => rfl
  simp only [unitStep, hr, hu]
  split
  case h_1 => rfl
  case h_2 g hg =>
    exact hload g (by simpa [hfl] using List.mem_of_find?_eq_some hg)

theorem exec_wld {src : Bool} {p : BitVec 4} {reg : BitVec 3} {off : BitVec 26} {b : Bool} {bytes : List Byte}
    (h : alone s c r w (.wld src p reg off)) (hb : pickBank (s.core c) r = some b)
    (hbytes : weightSource s c r src p reg off = some bytes) :
    exec (.wld c) s = .next (s.setCore c ((loadingCore (s.core c) r (.wld src p reg off) w b).setBank b
      { (s.core c).bank b with valid := false, pair := p, set := bytes })) := by
  have ⟨hp, hfl, _, _⟩ := h
  refine exec_alone h rfl ((unitStep_load rfl).trans (loadStep_alone hp.2.2.2.1 hfl hb hbytes)) ?_
  have hrun (v : Bank) : ((s.setCore c ((loadingCore (s.core c) r (.wld src p reg off) w b).setBank b v)).core c).run =
      (loadingCore (s.core c) r (.wld src p reg off) w b).run := by
    rw [core_setCore, if_pos rfl, setBank_run]
  exact pumpN_waiting 23 (hrun _) rfl (unitStep_loading (hrun _) rfl rfl rfl)

/-! ### The swap of the banks and the streams -/

theorem decode_of_alone (h : alone s c r w i) : PitchInstr.decode (flightOf (s.core c) i w).word = some i := h.1.2.2.2.1

theorem loadBefore_queued (h : unitNo i = 1) (pc : Nat) : loadBefore (queuedRun k r i w) pc = false := by
  simp [loadBefore, queuedRun, flightOf, h]

theorem anchorBefore_queued (h : unitNo i = 1) (pc : Nat) (rows : Option (Nat × Nat)) :
    anchorBefore (queuedRun k r i w) pc rows = false := by
  cases rows with
  | none => rfl
  | some rows => simp [anchorBefore, queuedRun, flightOf, h]

theorem retire_untraced {c pc : Nat} (h : s.dbg.tracing.contains c = false) (hr : (s.core c).run = some r) :
    retire c pc s = s.setCore c { s.core c with
      wdog := 0, run := some { r with flights := r.flights.filter (fun g => g.pc != pc) } } := by
  simp only [retire, hr]
  rw [trace_off _ _ _ _ _ _ (by simpa using h)]
  simp [State.onCore, Core.onRun, hr]

theorem swapBanks_run (k : Core) (b : Bool) : (swapBanks k b).run = k.run := setBank_run _ _ _

/-! What the grid does on a core `k`, with no other unit's instruction before its own. -/

section
variable {c : Nat} {f : Flight} {k : Core} {p : BitVec 4} {act : BitVec 15} {e0 : BitVec 8} {n : BitVec 9} {b : BitVec 2}
  {stride : BitVec 14}

theorem gridStep_wsw {b : Bool} (hd : PitchInstr.decode f.word = some .wsw) (hload : loadBefore r f.pc = false)
    (hb : pickSwap k = some b) :
    gridStep c f r (s.setCore c k) = some (retire c f.pc (s.setCore c (swapBanks k b))) := by
  simp only [gridStep, hd, hload, core_setCore, if_true, Bool.false_eq_true, if_false, hb, onCore_setCore]

theorem gridStep_wsw_denied (hd : PitchInstr.decode f.word = some .wsw) (hload : loadBefore r f.pc = false)
    (hb : pickSwap k = none) :
    gridStep c f r (s.setCore c k) = some (endRun c .denied (BitVec.ofNat 16 f.pc) (s.setCore c k)) := by
  simp only [gridStep, hd, hload, core_setCore, if_true, Bool.false_eq_true, if_false, hb]

theorem gridStep_str {bk : Bank} (hd : PitchInstr.decode f.word = some (.str p act e0 n b stride))
    (hanc : anchorBefore r f.pc (some (e0.toNat, n.toNat)) = false) (hb : k.activeBank = some bk) (hp : bk.pair = p) :
    gridStep c f r (s.setCore c k) = some (markDone c f.pc (s.setCore c
      (streamTokens k bk p act.toNat e0.toNat n.toNat (16 * b.toNat) stride.toNat))) := by
  simp only [gridStep, hd, hanc, core_setCore, if_true, Bool.false_eq_true, if_false, hb, hp, bne_self_eq_false,
    onCore_setCore]

theorem gridStep_str_denied (hd : PitchInstr.decode f.word = some (.str p act e0 n b stride))
    (hanc : anchorBefore r f.pc (some (e0.toNat, n.toNat)) = false) (hb : ∀ bk, k.activeBank = some bk → bk.pair ≠ p) :
    gridStep c f r (s.setCore c k) = some (endRun c .denied (BitVec.ofNat 16 f.pc) (s.setCore c k)) := by
  simp only [gridStep, hd, hanc, core_setCore, if_true, Bool.false_eq_true, if_false]
  cases hbk : k.activeBank with
  | none => rfl
  | some bk => simp [hb bk hbk]

end

/-- R83: the swap completes at once, and leaves the pitch without an instruction in flight. -/
theorem retire_swapped {b : Bool} (hfl : r.flights = []) (htr : s.dbg.tracing.contains c.val = false) :
    retire c (flightOf (s.core c) .wsw w).pc (s.setCore c (swapBanks (queuedCore (s.core c) r .wsw w) b)) =
      s.setCore c (swapBanks (steppedCore (s.core c) r) b) := by
  have hrun : ((s.setCore c (swapBanks (queuedCore (s.core c) r .wsw w) b)).core c).run =
      some (queuedRun (s.core c) r .wsw w) := by
    rw [core_setCore, if_pos rfl, swapBanks_run]
    rfl
  have hleft : (queuedRun (s.core c) r .wsw w).flights.filter (fun g => g.pc != (flightOf (s.core c) .wsw w).pc) =
      r.flights := by
    simp [queuedRun, hfl]
  rw [retire_untraced (s := s.setCore c (swapBanks (queuedCore (s.core c) r .wsw w) b)) htr hrun, hleft, core_setCore,
    if_pos rfl, setCore_setCore]
  cases b <;> rfl

theorem exec_swap {b : Bool} (h : alone s c r w .wsw) (hb : pickSwap (s.core c) = some b) :
    exec (.wsw c) s = .next (s.setCore c (swapBanks (steppedCore (s.core c) r) b)) := by
  have ⟨_, hfl, _, hu⟩ := h
  have hstep := gridStep_wsw (c := c) (s := s) (k := queuedCore (s.core c) r .wsw w) (decode_of_alone h)
    (loadBefore_queued (r := r) (w := w) (i := .wsw) (k := s.core c) rfl _) hb
  rw [retire_swapped hfl hu.1] at hstep
  refine exec_alone h rfl ((unitStep_grid rfl).trans hstep) (pumpN_none (r := { r with started := true }) ?_ (by simp [hfl]))
  rw [core_setCore, if_pos rfl, swapBanks_run]
  rfl

/-- R119: with no bank to activate, WSW ends the pitch DENIED. -/
theorem exec_wsw_denied (h : alone s c r w .wsw) (hb : pickSwap (s.core c) = none) :
    exec (.wsw c) s = .next (endRun c .denied (s.core c).pc (s.setCore c (queuedCore (s.core c) r .wsw w))) := by
  have hstep := gridStep_wsw_denied (c := c) (s := s) (k := queuedCore (s.core c) r .wsw w) (decode_of_alone h)
    (loadBefore_queued (r := r) (w := w) (i := .wsw) (k := s.core c) rfl _) hb
  exact exec_ended h rfl ((unitStep_grid rfl).trans hstep)

section
variable {p : BitVec 4} {act : BitVec 15} {e0 : BitVec 8} {n : BitVec 9} {b : BitVec 2} {stride : BitVec 14}

/-- R120: a stream of a pairing that is not the active bank's ends the pitch DENIED. -/
theorem exec_str_denied (h : alone s c r w (.str p act e0 n b stride))
    (hb : ∀ bk, (s.core c).activeBank = some bk → bk.pair ≠ p) :
    exec (.str c) s = .next (endRun c .denied (s.core c).pc
      (s.setCore c (queuedCore (s.core c) r (.str p act e0 n b stride) w))) := by
  have hstep := gridStep_str_denied (c := c) (s := s) (k := queuedCore (s.core c) r (.str p act e0 n b stride) w)
    (decode_of_alone h) (anchorBefore_queued (r := r) (w := w) (i := .str p act e0 n b stride) (k := s.core c) rfl _ _) hb
  exact exec_ended h rfl ((unitStep_grid rfl).trans hstep)

theorem exec_str {bk : Bank} (h : alone s c r w (.str p act e0 n b stride)) (hb : (s.core c).activeBank = some bk)
    (hp : bk.pair = p) : exec (.str c) s = .next (s.setCore c { carriedCore (s.core c) r (.str p act e0 n b stride) w with
      anc := (streamTokens (queuedCore (s.core c) r (.str p act e0 n b stride) w) bk p act.toNat e0.toNat n.toNat
        (16 * b.toNat) stride.toNat).anc }) := by
  have hstep := gridStep_str (c := c) (s := s) (k := queuedCore (s.core c) r (.str p act e0 n b stride) w)
    (decode_of_alone h) (anchorBefore_queued (r := r) (w := w) (i := .str p act e0 n b stride) (k := s.core c) rfl _ _) hb hp
  rw [streamTokens_eq] at hstep
  exact exec_carried_core h rfl ((unitStep_grid rfl).trans hstep) rfl rfl

end

/-! ### The completions -/

/-- R82, R118: a bank when the last entry of its load is written. -/
def Core.loaded (k : Core) (b : Bool) : Core :=
  { k.setBank b { k.bank b with valid := true, order := k.loads + 1 } with loads := k.loads + 1 }

theorem exec_wldComplete {f : Flight} (hr : (s.core c).run = some r) (htr : s.dbg.tracing.contains c.val = false)
    (hf : r.flights.find? (fun f => f.bank.isSome) = some f) (hres : holdsReserve s c = false) :
    exec (.wldComplete c) s = .next (s.setCore c { (s.core c).loaded (f.bank.getD false) with
      wdog := 0, run := some { r with flights := r.flights.filter (fun g => g.pc != f.pc) } }) := by
  have hload : wldComplete c s = pumpUnits c (retire c f.pc (s.setCore c ((s.core c).loaded (f.bank.getD false)))) := by
    simp only [wldComplete, hr, hf]
    rfl
  have hrun : ((s.setCore c ((s.core c).loaded (f.bank.getD false))).core c).run = some r := by
    rw [core_setCore, if_pos rfl, ← hr]
    exact setBank_run _ _ _
  have hret := retire_untraced (s := s.setCore c ((s.core c).loaded (f.bank.getD false))) (pc := f.pc) htr hrun
  simp only [core_setCore, if_true, setCore_setCore] at hret
  exact congrArg Host.Outcome.next (hload.trans ((congrArg _ hret).trans (pumpUnits_held hres)))

theorem exec_strComplete {f : Flight} (hr : (s.core c).run = some r) (htr : s.dbg.tracing.contains c.val = false)
    (hf : oldestDone r 1 = some f) : exec (.strComplete c) s = .next (s.setCore c { s.core c with
      wdog := 0, run := some { r with flights := r.flights.filter (fun g => g.pc != f.pc) } }) := by
  refine congrArg Host.Outcome.next ?_
  simp only [strComplete, hr, hf, retire_untraced htr hr]

theorem completions_idle (hr : (s.core c).run = none) :
    exec (.wldComplete c) s = .next s ∧ exec (.strComplete c) s = .next s := by
  constructor
  · exact congrArg Host.Outcome.next (by simp only [wldComplete, hr])
  · exact congrArg Host.Outcome.next (by simp only [strComplete, hr])

end

end Sys2Proof.Machine

namespace Sys2Proof

open Machine Safety

/-- Settles O50: the load engine and the grid take the one instruction of the core, each by its rule. -/
theorem gridCommands : Obligations.GridCommands := by
  refine ⟨?_, ?_, ?_, ?_, ?_, fun c s => completions_idle, ?_, ?_⟩
  · rintro c w r src p reg off b bytes s _ _ h rfl hb hbytes rfl
    exact exists_next_setCore (exec_wld h hb hbytes)
  · intro c w r b s h hb
    exact exists_next_setCore (exec_swap h hb)
  · intro c w r s h hb
    exact ⟨_, exec_wsw_denied h hb, by simp⟩
  · intro c w r p act e0 n b stride s h hb
    exact ⟨_, exec_str_denied h hb, by simp⟩
  · rintro c w r p act e0 n b stride bk fa fw g s _ h rfl hb hp hpair hcols
    obtain ⟨t, ht, hcore, honly⟩ := exists_next_setCore (exec_str h hb hp)
    refine ⟨t, ht, fun m hm => by rw [hcore, if_neg hm], by rw [hcore, if_pos rfl], fun e a ha => ?_, honly⟩
    rw [hcore, if_pos rfl]
    exact streamTokens_get _ bk p act.toNat e0.toNat (16 * b.toNat) stride.toNat hpair hcols e a ha n.toNat
  · intro c s r f hr htr
    exact ⟨fun hf hres => exists_next_setCore (exec_wldComplete hr htr hf hres),
      fun hf => exists_next_setCore (exec_strComplete hr htr hf)⟩
  · intro c s hres
    exact exists_next_setCore (congrArg Host.Outcome.next (pumpUnits_held hres))

end Sys2Proof
end

section
/-! The block move engine (R126–R128, R141): MOV IN, MOV LOCAL and RCV. -/

namespace Sys2Proof.Machine

open Sys2Proof.Safety

section
variable {c : CoreId} {s : State} {r : Run} {w : DWord} {i : PitchInstr}

/-- An instruction that its unit cannot carry out yet stays in its queue. -/
theorem exec_waiting (h : alone s c r w i) (hq : completesAtIssue i = false)
    (hs : unitStep c (unitNo i).val (s.setCore c (queuedCore (s.core c) r i w)) = none) :
    exec (commandOf c i) s = .next (s.setCore c (queuedCore (s.core c) r i w)) := by
  have ⟨hp, hfl, _, hu⟩ := h
  have hexec := exec_enqueued hp hu hq
  rw [hfl, List.nil_append] at hexec
  have hstay (n : Nat) : pumpN n c (s.setCore c (queuedCore (s.core c) r i w)) = s.setCore c (queuedCore (s.core c) r i w) :=
    pumpN_waiting (r := queuedRun (s.core c) r i w) (f := flightOf (s.core c) i w) n (by simp; rfl) rfl hs
  refine hexec.trans (congrArg Host.Outcome.next ?_)
  unfold pumpUnits
  split
  · exact hstay 24
  · rfl

end

/-! ### What the engine does for each class, on a core `k` -/

section
variable {c : Nat} {f : Flight} {r : Run} {s : State} {k : Core}

theorem moveStep_movIn {reg : BitVec 3} {roff : BitVec 26} {pml : BitVec 15} {len : BitVec 12} {bs : List Byte}
    (hd : PitchInstr.decode f.word = some (.movIn reg roff pml len))
    (hread : gread s r.job.ctx.val (gaSpace (r.region reg).base) (gaOff (r.region reg).base + roff.toNat * 64)
      (PitchInstr.lines len * 64) = some bs) :
    moveStep c f r (s.setCore c k) = some (markDone c f.pc (s.setCore c (k.writePm (pml.toNat * 64) bs))) := by
  have hread' : gread (s.setCore c k) r.job.ctx.val (gaSpace (r.region reg).base)
      (gaOff (r.region reg).base + roff.toNat * 64) (PitchInstr.lines len * 64) = some bs := hread
  simp only [moveStep, hd, hread', onCore_setCore]

theorem moveStep_movIn_failed {reg : BitVec 3} {roff : BitVec 26} {pml : BitVec 15} {len : BitVec 12}
    (hd : PitchInstr.decode f.word = some (.movIn reg roff pml len))
    (hread : gread s r.job.ctx.val (gaSpace (r.region reg).base) (gaOff (r.region reg).base + roff.toNat * 64)
      (PitchInstr.lines len * 64) = none) :
    moveStep c f r (s.setCore c k) = some (endRun c .crc (BitVec.ofNat 16 f.pc) (failedRead r.job.ctx.val
      (gaSpace (r.region reg).base) (gaOff (r.region reg).base + roff.toNat * 64) (PitchInstr.lines len * 64)
      (s.setCore c k))) := by
  have hread' : gread (s.setCore c k) r.job.ctx.val (gaSpace (r.region reg).base)
      (gaOff (r.region reg).base + roff.toNat * 64) (PitchInstr.lines len * 64) = none := hread
  simp only [moveStep, hd, hread']

theorem moveStep_movLocal {src dst : BitVec 15} {len : BitVec 12}
    (hd : PitchInstr.decode f.word = some (.movLocal src dst len)) :
    moveStep c f r (s.setCore c k) = some (markDone c f.pc (s.setCore c (k.writePm (dst.toNat * 64)
      (k.readPm (src.toNat * 64) (PitchInstr.lines len * 64))))) := by
  simp only [moveStep, hd, onCore_setCore]

section
variable {ch : BitVec 4} {pml : BitVec 15} {len : BitVec 12} {q : Chan}

theorem moveStep_rcv {bs : List Byte} (hd : PitchInstr.decode f.word = some (.rcv ch pml len))
    (hq : q = s.chan r.job.ctx.val ch.toNat) (hroom : r.takenOf ch.toNat + PitchInstr.lines len ≤ (q.wp - q.rp).toNat)
    (hread : chanLines s r.job.ctx.val ch.toNat (q.rp.toNat + r.takenOf ch.toNat) (PitchInstr.lines len) = some bs) :
    moveStep c f r (s.setCore c k) = some (markDone c f.pc (s.setCore c ((k.writePm (pml.toNat * 64) bs).onRun fun p =>
      { p with taken := fput 0 ch.toNat (r.takenOf ch.toNat + PitchInstr.lines len) p.taken }))) := by
  subst hq
  have hread' : chanLines (s.setCore c k) r.job.ctx.val ch.toNat
      ((s.chan r.job.ctx.val ch.toNat).rp.toNat + r.takenOf ch.toNat) (PitchInstr.lines len) = some bs := hread
  simp only [moveStep, hd, setCore_chan, hread', onCore_setCore, if_neg (Nat.not_lt.mpr hroom)]

/-- R128: an RCV stays in its queue until its lines have arrived. -/
theorem moveStep_rcv_waiting (hd : PitchInstr.decode f.word = some (.rcv ch pml len))
    (hq : q = s.chan r.job.ctx.val ch.toNat) (hfew : (q.wp - q.rp).toNat < r.takenOf ch.toNat + PitchInstr.lines len) :
    moveStep c f r (s.setCore c k) = none := by
  subst hq
  simp only [moveStep, hd, setCore_chan]
  exact if_pos hfew

end

end

end Sys2Proof.Machine

namespace Sys2Proof

open Machine Safety

/-- Settles O51: the move engine takes the one instruction of the core, and an RCV without its lines waits. -/
theorem moveCommands : Obligations.MoveCommands := by
  refine ⟨?_, ?_, ?_, ?_, ?_⟩
  · intro c w r reg roff pml len bs s h hread
    have hstep := moveStep_movIn (c := c) (r := queuedRun (s.core c) r (.movIn reg roff pml len) w)
      (k := queuedCore (s.core c) r (.movIn reg roff pml len) w) (decode_of_alone h) hread
    exact exists_next_setCore (exec_carried_core h rfl ((unitStep_move rfl).trans hstep) rfl rfl)
  · intro c w r reg roff pml len s h hread
    have hstep := moveStep_movIn_failed (c := c) (r := queuedRun (s.core c) r (.movIn reg roff pml len) w)
      (k := queuedCore (s.core c) r (.movIn reg roff pml len) w) (decode_of_alone h) hread
    exact ⟨_, exec_ended h rfl ((unitStep_move rfl).trans hstep), by simp⟩
  · intro c w r src dst len s h
    have hstep := moveStep_movLocal (c := c) (s := s) (r := queuedRun (s.core c) r (.movLocal src dst len) w)
      (k := queuedCore (s.core c) r (.movLocal src dst len) w) (decode_of_alone h)
    exact exists_next_setCore (exec_carried_core h rfl ((unitStep_move rfl).trans hstep) rfl rfl)
  · intro c w r ch pml len bs q s h hq hroom hread
    have hstep := moveStep_rcv (c := c) (r := queuedRun (s.core c) r (.rcv ch pml len) w)
      (k := queuedCore (s.core c) r (.rcv ch pml len) w) (decode_of_alone h) hq hroom hread
    exact exists_next_setCore (exec_carried_core h rfl ((unitStep_move rfl).trans hstep) rfl rfl)
  · intro c w r ch pml len q s h hq hfew
    have hstep := moveStep_rcv_waiting (c := c) (r := queuedRun (s.core c) r (.rcv ch pml len) w)
      (k := queuedCore (s.core c) r (.rcv ch pml len) w) (decode_of_alone h) hq hfew
    exact exists_next_setCore (exec_waiting h rfl ((unitStep_move rfl).trans hstep))

end Sys2Proof
end

section
/-! The anchor file (R50–R71, R86–R91, R122–R124): what CLR, EXP, RD and MRG leave. -/

namespace Sys2Proof.Machine

open Sys2Proof.Safety

/-! ### The report of an anchor instruction -/

/-- R59, R69: what a conversion or a check adds to its core and its pitch, with the core's error where a residue check
failed. -/
def Core.reported (k : Core) (q : Report) : Core :=
  ({ k with ancStat := k.ancStat ||| BitVec.ofNat 4 (b2n q.inx + 2 * b2n q.sat + 4 * b2n q.nan + 8 * b2n q.resfail),
            unchk := satAdd k.unchk q.unchk, nanres := satAdd k.nanres q.nanres,
            errCause := if q.resfail then k.errCause ||| 1 else k.errCause }).onRun (fun z => { z with
    inx := z.inx || q.inx, sat := z.sat || q.sat, nan := z.nan || q.nan, residue := z.residue || q.resfail })

theorem setCause_core (c bitNo m : Nat) (s : State) : (setCause c bitNo s).core m = if m = c then
    { s.core c with errCause := (s.core c).errCause ||| (1#8 <<< bitNo) } else s.core m := by
  have hcores : (setCause c bitNo s).core m =
      (s.onCore c fun k => { k with errCause := k.errCause ||| (1#8 <<< bitNo) }).core m :=
    core_congr (kept .cores (T := [.hdrs, .host, .glob]) (by simp [setCause]) (by simp)) m
  rw [hcores, core_onCore_ite]

theorem applyReport_core {c : Nat} {q : Report} {s : State} {K : Core} (m : Nat) :
    (applyReport c q (s.setCore c K)).core m = if m = c then K.reported q else s.core m := by
  by_cases hq : q.resfail = true
  · simp only [applyReport, hq, when, if_true, setCause_core, onCore_setCore, core_setCore, Core.reported]
    split
    · simp [Core.onRun]
    · rfl
  · simp only [Bool.not_eq_true] at hq
    simp [applyReport, hq, when, Core.reported, core_setCore]

theorem reported_run {k : Core} {q : Report} {r : Run} (h : k.run = some r) : (k.reported q).run = some { r with
    inx := r.inx || q.inx, sat := r.sat || q.sat, nan := r.nan || q.nan, residue := r.residue || q.resfail } := by
  simp [Core.reported, Core.onRun, h]

/-! ### The registers that a read-out writes -/

/-- Consecutive vector registers take their values. -/
def Core.setRegs (k : Core) (first n : Nat) (g : Nat → List Word) : Core :=
  (List.range n).foldl (fun k2 i => k2.setReg (first + i) (g i)) k

theorem setRegs_succ (k : Core) (first n : Nat) (g : Nat → List Word) :
    k.setRegs first (n + 1) g = (k.setRegs first n g).setReg (first + n) (g n) := by
  simp [Core.setRegs, List.range_succ]

theorem setRegs_eq (k : Core) (first n : Nat) (g : Nat → List Word) :
    k.setRegs first n g = { k with vec := (k.setRegs first n g).vec } := by
  induction n with
  | zero => rfl
  | succ n ih =>
    rw [setRegs_succ, ih]
    rfl

theorem setRegs_vec {k k' : Core} (h : k.vec = k'.vec) (first n : Nat) (g : Nat → List Word) :
    (k.setRegs first n g).vec = (k'.setRegs first n g).vec := by
  induction n with
  | zero => exact h
  | succ n ih => simp only [setRegs_succ, Core.setReg, ih]

/-! ### The records that a merge reads -/

/-- The place in the anchor file and the value of each record that a merge reads (R62, R124). -/
def mergeRecs (k : Core) (e0 n src : Nat) (cs cc : BitVec 2) : List ((Nat × Nat) × RawRec) :=
  (List.range n).flatMap fun i => (List.range (16 * (cc.toNat + 1))).map fun j =>
    ((e0 + i, 16 * cs.toNat + j), RawRec.ofBytes (k.readPm (src + 32 * (i * (16 * (cc.toNat + 1)) + j)) 32))

section
variable {k : Core} {e0 n src : Nat} {cs cc : BitVec 2}

theorem mem_mergeRecs {x : (Nat × Nat) × RawRec} : x ∈ mergeRecs k e0 n src cs cc ↔
    ∃ i j, i < n ∧ j < 16 * (cc.toNat + 1) ∧ ((e0 + i, 16 * cs.toNat + j),
      RawRec.ofBytes (k.readPm (src + 32 * (i * (16 * (cc.toNat + 1)) + j)) 32)) = x := by
  simp only [mergeRecs, List.mem_flatMap, List.mem_map, List.mem_range]
  exact ⟨fun ⟨i, hi, j, hj, hx⟩ => ⟨i, j, hi, hj, hx⟩, fun ⟨i, j, hi, hj, hx⟩ => ⟨i, hi, j, hj, hx⟩⟩

/-- No two records of a merge name one entry. -/
theorem mergeRecs_nodup : ((mergeRecs k e0 n src cs cc).map (·.1)).Nodup := by
  rw [mergeRecs, List.map_flatMap, List.nodup_flatMap]
  refine ⟨fun i _ => ?_, (List.nodup_range).imp fun {i i'} hne => ?_⟩
  · rw [List.map_map]
    refine List.nodup_range.map fun j j' hj => ?_
    simpa using hj
  · intro p hp hp'
    simp only [List.map_map, List.mem_map, Function.comp] at hp hp'
    obtain ⟨j, -, rfl⟩ := hp
    obtain ⟨j', -, hj'⟩ := hp'
    exact hne (by simpa using (congrArg Prod.fst hj').symm)

theorem mergeRecs_lt (h : cs.toNat + cc.toNat ≤ 3) : ∀ x ∈ mergeRecs k e0 n src cs cc, x.1.2 < 64 := by
  intro x hx
  obtain ⟨i, j, -, hj, rfl⟩ := mem_mergeRecs.mp hx
  show 16 * cs.toNat + j < 64
  omega

/-- The anchors after the merge of all records. -/
def mergeAll (k : Core) (l : List ((Nat × Nat) × RawRec)) : Core :=
  l.foldl (fun k2 x => k2.setAnchor x.1.1 x.1.2 ((k2.anchor x.1.1 x.1.2).merge x.2)) k

theorem mergeAll_eq (k : Core) (l : List ((Nat × Nat) × RawRec)) : mergeAll k l = { k with anc := (mergeAll k l).anc } :=
  foldl_anc _ (fun _ _ => rfl) _ k

end

/-! ### The instructions -/

section
variable {c : CoreId} {s : State} {r r' : Run} {w : DWord} {i : PitchInstr}

theorem anchorStep_alone (h : alone s c r w i) (hi : unitNo i = 2) (t : State) :
    anchorStep c (flightOf (s.core c) i w) (queuedRun (s.core c) r i w) t =
      some (markDone c (flightOf (s.core c) i w).pc (anchorWork c i t)) := by
  have hheld : rowHeld (queuedRun (s.core c) r i w) (flightOf (s.core c) i w).pc i = false := by
    simp only [rowHeld]
    split
    · rfl
    · simp [queuedRun, flightOf, hi]
  simp only [anchorStep, decode_of_alone h, hheld, Bool.false_eq_true, if_false]

/-- An anchor instruction that reports. -/
theorem exec_anchor {K : Core} {q : Report} (h : alone s c r w i) (hq : completesAtIssue i = false) (hi : unitNo i = 2)
    (hwork : anchorWork c i (s.setCore c (queuedCore (s.core c) r i w)) = applyReport c q (s.setCore c K))
    (hrun : K.run = some r') (hfl : r'.flights = [flightOf (s.core c) i w]) :
    ∃ t, exec (commandOf c i) s = .next t ∧ (∀ m, m ≠ c.val → t.core m = s.core m) ∧
      t.core c = (K.reported q).carried (s.core c) i w ∧ only [.hdrs, .cores, .host, .glob] s t := by
  have hcore := fun m => applyReport_core (c := c) (q := q) (s := s) (K := K) m
  have hself := hcore c
  rw [if_pos rfl] at hself
  have hstep := (unitStep_anchor hi).trans (anchorStep_alone h hi _)
  rw [hwork] at hstep
  have hexec := exec_carried h hq hstep ((congrArg Core.run hself).trans (reported_run hrun)) hfl
  refine ⟨_, hexec, fun m hm => ?_, ?_, by simp⟩
  · rw [core_setCore, if_neg hm, hcore, if_neg hm]
  · rw [core_setCore, if_pos rfl, hself]

theorem exec_ancClr {l : BitVec 10} {e0 : BitVec 8} {n : BitVec 9} (h : alone s c r w (.ancClr l e0 n)) :
    exec (.ancClr c) s = .next (s.setCore c { carriedCore (s.core c) r (.ancClr l e0 n) w with
      anc := (clearRows (queuedCore (s.core c) r (.ancClr l e0 n) w) l e0.toNat n.toNat).anc }) := by
  have hwork : anchorWork c (.ancClr l e0 n) (s.setCore c (queuedCore (s.core c) r (.ancClr l e0 n) w)) =
      s.setCore c (clearRows (queuedCore (s.core c) r (.ancClr l e0 n) w) l e0.toNat n.toNat) := by
    simp only [anchorWork, onCore_setCore]
  rw [clearRows_eq] at hwork
  have hstep := (unitStep_anchor rfl).trans ((anchorStep_alone h rfl _).trans (congrArg (fun t => some (markDone c _ t)) hwork))
  exact exec_carried_core h rfl hstep rfl rfl

/-- R61, R124: what EXP leaves. -/
theorem exec_ancExp {e0 : BitVec 8} {n : BitVec 9} {dst : BitVec 21} {cs cc : BitVec 2} {es : List Anchor}
    (h : alone s c r w (.ancExp e0 n dst cs cc))
    (hes : es = (List.range n.toNat).flatMap fun i => (quarterCols cs cc).map fun a => (s.core c).anchor (e0.toNat + i) a) :
    ∃ t, exec (.ancExp c) s = .next t ∧ (∀ m, m ≠ c.val → t.core m = s.core m) ∧
      t.core c = (({ (queuedCore (s.core c) r (.ancExp e0 n dst cs cc) w).writePm dst.toNat (es.flatMap Anchor.record) with
        ancStat := (s.core c).ancStat ||| BitVec.ofNat 4 (b2n (es.any (·.inx)) + 2 * b2n (es.any (·.sat))) } : Core).reported
          (joinReports (es.map checkEntry))).carried (s.core c) (.ancExp e0 n dst cs cc) w ∧
      only [.hdrs, .cores, .host, .glob] s t := by
  refine exec_anchor h rfl rfl ?_ rfl rfl
  subst hes
  simp only [anchorWork, exportRows, core_setCore, if_true, setCore_setCore]
  rfl

/-- R123: the entries that a read-out leaves, cleared where CLR is set. -/
def Core.clearIf (k : Core) (clr : Bool) (e0 n : Nat) (cols : List Nat) : Core := if clr then clearRead k e0 n cols else k

/-- The core after the rows of a read-out are written to registers or to memory (R91). -/
def Core.readTo (k : Core) (vr : Bool) (n dst : Nat) (bytes : List (List Byte)) : Core :=
  if vr then k.setRegs dst (n / 2) fun i => rowsToReg (bytes.getD (2 * i) []) (bytes.getD (2 * i + 1) [])
  else k.writePm dst bytes.flatten

section
variable {k : Core} {clr vr : Bool} {e0 n dst : Nat} {cols : List Nat} {bytes : List (List Byte)}

theorem clearIf_eq : k.clearIf clr e0 n cols = { k with anc := (k.clearIf clr e0 n cols).anc } := by
  cases clr with
  | true => exact clearRead_eq k e0 n cols
  | false => rfl

theorem clearIf_anchor (hcols : ∀ a ∈ cols, a < 64) (e a : Nat) (ha : a < 64) : (k.clearIf clr e0 n cols).anchor e a =
    if clr = true ∧ (e0 ≤ e ∧ e < e0 + n) ∧ a ∈ cols then Anchor.cleared (k.anchor e a).l else k.anchor e a := by
  cases clr with
  | true => simpa [Core.clearIf] using clearRead_get k e0 cols hcols e a ha n
  | false => simp [Core.clearIf]

theorem readTo_eq : ∃ pm vec, ∃ wrote : Run → List Nat, k.readTo vr n dst bytes =
    ({ k with pm := pm, vec := vec } : Core).onRun (fun z => { z with wrote := wrote z }) := by
  cases vr with
  | true =>
    refine ⟨k.pm, (k.readTo true n dst bytes).vec, fun z => z.wrote, ?_⟩
    have hid (K : Core) : K.onRun (fun z => { z with wrote := z.wrote }) = K := by simp [Core.onRun]
    exact (setRegs_eq k dst (n / 2) _).trans (hid _).symm
  | false => exact ⟨_, k.vec, _, rfl⟩

theorem readTo_regs_pm : (k.readTo true n dst bytes).pm = k.pm := by
  rw [Core.readTo, if_pos rfl, setRegs_eq]

end

/-- R69, R123: what a read-out leaves. -/
theorem exec_ancRd {fmt : BitVec 4} {rm : BitVec 3} {clr vr : Bool} {e0 : BitVec 8} {n : BitVec 9} {dst : BitVec 21}
    {cs cc : BitVec 2} {md : RMode} {recs : List (List Byte × Report)} {rep : Report}
    (h : alone s c r w (.ancRd fmt rm clr vr e0 n dst cs cc)) (hmd : RMode.ofCode rm.toNat = some md)
    (hrecs : recs = (List.range n.toNat).map fun i =>
      rowRecord (s.core c) fmt.toNat md r.job.desc.id r.ord.toNat (e0.toNat + i) cs cc)
    (hrep : rep = joinReports (recs.map (·.2) ++ (List.range n.toNat).flatMap fun i =>
      (quarterCols cs cc).map fun a => checkEntry ((s.core c).anchor (e0.toNat + i) a))) :
    ∃ t, exec (.ancRd c) s = .next t ∧ (∀ m, m ≠ c.val → t.core m = s.core m) ∧
      t.core c = (((((queuedCore (s.core c) r (.ancRd fmt rm clr vr e0 n dst cs cc) w).readTo vr n.toNat dst.toNat
        (recs.map (·.1))).clearIf clr e0.toNat n.toNat (quarterCols cs cc)).nextOrd.reported rep).carried (s.core c)
          (.ancRd fmt rm clr vr e0 n dst cs cc) w) ∧
      only [.hdrs, .cores, .host, .glob] s t := by
  obtain ⟨pm, vec, wrote, hk⟩ := readTo_eq (k := queuedCore (s.core c) r (.ancRd fmt rm clr vr e0 n dst cs cc) w)
    (vr := vr) (n := n.toNat) (dst := dst.toNat) (bytes := recs.map (·.1))
  have hrun : (((queuedCore (s.core c) r (.ancRd fmt rm clr vr e0 n dst cs cc) w).readTo vr n.toNat dst.toNat
      (recs.map (·.1))).clearIf clr e0.toNat n.toNat (quarterCols cs cc)).nextOrd.run =
      some { queuedRun (s.core c) r (.ancRd fmt rm clr vr e0 n dst cs cc) w with
        ord := r.ord + 1, wrote := wrote (queuedRun (s.core c) r (.ancRd fmt rm clr vr e0 n dst cs cc) w) } := by
    rw [clearIf_eq, hk]
    rfl
  refine exec_anchor h rfl rfl ?_ hrun rfl
  subst hrep hrecs
  have hqrun : (queuedCore (s.core c) r (.ancRd fmt rm clr vr e0 n dst cs cc) w).run =
      some (queuedRun (s.core c) r (.ancRd fmt rm clr vr e0 n dst cs cc) w) := rfl
  simp only [anchorWork, readOut, core_setCore, if_true, setCore_setCore, hqrun, hmd]
  rfl

theorem exec_ancMrg {e0 : BitVec 8} {n : BitVec 9} {src : BitVec 21} {cs cc : BitVec 2}
    {l : List ((Nat × Nat) × RawRec)} (h : alone s c r w (.ancMrg e0 n src cs cc))
    (hl : l = mergeRecs (s.core c) e0.toNat n.toNat src.toNat cs cc) :
    ∃ t, exec (.ancMrg c) s = .next t ∧ (∀ m, m ≠ c.val → t.core m = s.core m) ∧
      t.core c = (({ queuedCore (s.core c) r (.ancMrg e0 n src cs cc) w with
        anc := (mergeAll (queuedCore (s.core c) r (.ancMrg e0 n src cs cc) w) l).anc } : Core).reported
          { resfail := l.any fun x => x.2.residueFails }).carried (s.core c) (.ancMrg e0 n src cs cc) w ∧
      only [.hdrs, .cores, .host, .glob] s t := by
  refine exec_anchor h rfl rfl ?_ rfl rfl
  subst hl
  rw [← mergeAll_eq]
  simp only [anchorWork, mergeRows, core_setCore, if_true, setCore_setCore]
  rfl

end

end Sys2Proof.Machine

namespace Sys2Proof

open Machine Safety

/-- Settles O52: each anchor instruction does its work on the queued core and adds its report. -/
theorem anchorCommands : Obligations.AnchorCommands := by
  refine ⟨?_, ?_, ?_, ?_⟩
  · intro c w r l e0 n s h
    obtain ⟨t, ht, hcore, honly⟩ := exists_next_setCore (exec_ancClr h)
    refine ⟨t, ht, fun m hm => by rw [hcore, if_neg hm], by rw [hcore, if_pos rfl], fun e a ha => ?_, honly⟩
    rw [hcore, if_pos rfl]
    exact clearRows_get _ l e0.toNat e a ha n.toNat
  · rintro c w r e0 n dst cs cc s _ es h rfl hes
    obtain ⟨t, ht, hother, hcore, honly⟩ := exec_ancExp h hes
    refine ⟨t, ht, hother, ?_, ?_, ?_, ?_, ?_, ?_, honly⟩
    all_goals rw [hcore]
    case refine_6 =>
      intro r' hr'
      obtain rfl := Option.some_injective _ hr'
      exact ⟨rfl, rfl⟩
    all_goals rfl
  · rintro c w r fmt rm clr vr e0 n dst cs cc md s _ recs rep h hmd rfl hrecs hrep
    obtain ⟨t, ht, hother, hcore, honly⟩ := exec_ancRd h hmd hrecs hrep
    obtain ⟨pm, vec, wrote, hk⟩ := readTo_eq (k := queuedCore (s.core c) r (.ancRd fmt rm clr vr e0 n dst cs cc) w)
      (vr := vr) (n := n.toNat) (dst := dst.toNat) (bytes := recs.map (·.1))
    refine ⟨t, ht, hother, ?_, ?_, ?_, ?_, ?_, ?_, ?_, ?_, honly⟩
    all_goals rw [hcore, clearIf_eq]
    · rintro rfl
      exact ⟨rfl, rfl⟩
    · rintro rfl
      have hvec := setRegs_vec (k := queuedCore (s.core c) r (.ancRd fmt rm clr true e0 n dst cs cc) w) (k' := s.core c) rfl
        dst.toNat (n.toNat / 2) fun i => rowsToReg ((recs.map (·.1)).getD (2 * i) []) ((recs.map (·.1)).getD (2 * i + 1) [])
      exact ⟨readTo_regs_pm, hvec⟩
    · intro hq e a ha
      rw [← clearIf_eq]
      have hanc : ((queuedCore (s.core c) r (.ancRd fmt rm clr vr e0 n dst cs cc) w).readTo vr n.toNat dst.toNat
          (recs.map (·.1))).anc = (s.core c).anc := by
        rw [hk]
        rfl
      refine (clearIf_anchor (quarterCols_lt hq) e a ha).trans ?_
      simp only [Core.anchor, hanc]
    all_goals rw [hk]
    case refine_8 =>
      intro r' hr'
      obtain rfl := Option.some_injective _ hr'
      exact ⟨rfl, rfl, rfl, rfl, rfl⟩
    all_goals rfl
  · rintro c w r e0 n src cs cc s _ rd h rfl hq rfl
    obtain ⟨t, ht, hother, hcore, honly⟩ := exec_ancMrg h rfl
    have hmerge := fun e a ha => mergeAll_get e a ha (mergeRecs (s.core c) e0.toNat n.toNat src.toNat cs cc)
      (queuedCore (s.core c) r (.ancMrg e0 n src cs cc) w) mergeRecs_nodup (mergeRecs_lt hq)
    refine ⟨t, ht, hother, ?_, ?_, ?_, ?_, ?_, ?_, honly⟩
    all_goals rw [hcore]
    · rfl
    · rfl
    · intro i j hi hj
      exact (hmerge _ _ (by omega)).1 _ (mem_mergeRecs.mpr ⟨i, j, hi, hj, rfl⟩)
    · intro e a ha hnone
      refine (hmerge e a ha).2 fun hmem => ?_
      obtain ⟨x, hx, hxe⟩ := List.mem_map.mp hmem
      obtain ⟨i, j, hi, hj, rfl⟩ := mem_mergeRecs.mp hx
      exact hnone ⟨i, j, hi, hj, (congrArg Prod.fst hxe).symm, (congrArg Prod.snd hxe).symm⟩
    · rintro ⟨i, j, hi, hj, hfail⟩
      refine if_pos (List.any_eq_true.mpr ⟨_, mem_mergeRecs.mpr ⟨i, j, hi, hj, rfl⟩, hfail⟩)
    · intro hclean
      refine if_neg fun hany => ?_
      obtain ⟨x, hx, hfail⟩ := List.any_eq_true.mp hany
      obtain ⟨i, j, hi, hj, rfl⟩ := mem_mergeRecs.mp hx
      exact Bool.false_ne_true ((hclean i j hi hj).symm.trans hfail)

end Sys2Proof
end

section
/-! The end of a pitch (R102, R103, R114, R134–R142): the program fetch, the commit, the cut-off and the stops. -/

namespace Sys2Proof.Machine

open Sys2Proof.Safety

/-! ### The end of a pitch that nothing waits for -/

theorem stopRun_idle {c source : Nat} {counted : Bool} {s : State} (h : (s.core c).run = none) :
    stopRun c counted source s = s := by
  simp only [stopRun, h]

theorem startNext_of_none {c : Nat} {s : State} (h : (s.core c).next = none) : startNext c s = s := by
  unfold startNext
  rw [h]
  split
  case h_1 heq => cases heq
  case h_2 => rfl

section
variable {c : Nat} {s : State} {r : Run} {st : Status} {faultPc : BitVec 16}

/-! What the shared operations leave of the cores, their controls and the tokens. -/

theorem raise_core (p n k : Nat) : (raise p n s).core k = s.core k :=
  core_congr (by simp) k

theorem raise_ctl (p n k : Nat) : (raise p n s).ctl k = s.ctl k :=
  ctl_congr k (by simp)

theorem raise_pwr (p n : Nat) : (raise p n s).pwr = s.pwr := by simp

section
variable {kind x status idx op : Nat} {id : DWord}

theorem trace_core (k : Nat) : (trace c kind x status idx op id s).core k = s.core k :=
  core_congr (by simp) k

theorem trace_ctl (k : Nat) : (trace c kind x status idx op id s).ctl k = s.ctl k :=
  ctl_congr k (by simp)

theorem trace_pwr : (trace c kind x status idx op id s).pwr = s.pwr := by simp

end

theorem returnBalance_core (k : Nat) : (returnBalance c s).core k = s.core k :=
  rfl

theorem returnBalance_ctl : (returnBalance c s).ctl c = { s.ctl c with bal := 0, firstReq := false } := by
  have hctl := ctl_onCtl s c fun q => { q with bal := 0, firstReq := false }
  exact hctl

theorem returnBalance_free : (returnBalance c s).pwr.free = s.pwr.free + (s.ctl c).bal := rfl

/-- The core that the pitch has left, with PITCH_DONE raised and its tokens returned. -/
def leftBy (c : Nat) (r : Run) (st : Status) (s : State) : State :=
  raise (pgCore c) 0 ((returnBalance c (trace c 3 r.job.ctx.val st.code.toNat 0 0 r.job.desc.id s)).onCore c
    fun k => k.vacate st)

theorem leftBy_core (k : Nat) : (leftBy c r st s).core k = if k = c then (s.core c).vacate st else s.core k := by
  simp only [leftBy, raise_core, core_onCore_ite, returnBalance_core, trace_core]

theorem leftBy_ctl : (leftBy c r st s).ctl c = { s.ctl c with bal := 0, firstReq := false } := by
  rw [leftBy, raise_ctl]
  exact returnBalance_ctl.trans (by rw [trace_ctl])

theorem leftBy_free : (leftBy c r st s).pwr.free = s.pwr.free + (s.ctl c).bal := by
  rw [leftBy, raise_pwr]
  exact returnBalance_free.trans (by rw [trace_pwr, trace_ctl])

/-- R114, R142: where nothing waits for its end, a pitch that ends leaves its core and reports. -/
theorem endRun_lone (h : lone s c r) (hst : st ≠ .residue) :
    endRun c st faultPc s = finishPitch r.job (r.ending c (s.core c) st faultPc) (leftBy c r st s) := by
  obtain ⟨hr, hnext, hdiode, hctx⟩ := h
  have hend : only [.reply, .hdrs, .cores, .ctls, .host, .glob, .pwr, .dbg] s
      (finishPitch r.job (r.ending c (s.core c) st faultPc) (leftBy c r st s)) := by simp [leftBy]
  have hcores : only [.reply, .hdrs, .host, .glob] (leftBy c r st s)
      (finishPitch r.job (r.ending c (s.core c) st faultPc) (leftBy c r st s)) := by simp
  have hdrain : checkDrain r.job.ctx.val (finishPitch r.job (r.ending c (s.core c) st faultPc) (leftBy c r st s)) =
      finishPitch r.job (r.ending c (s.core c) st faultPc) (leftBy c r st s) := by
    refine if_neg fun hd => hctx ?_
    rw [← cx_congr (kept .ctx hend)]
    exact hd.1
  have hbroken : ((finishPitch r.job (r.ending c (s.core c) st faultPc) (leftBy c r st s)).ctl c).diodeFault = false := by
    rw [ctl_congr c (kept .ctls hcores), leftBy_ctl]
    exact hdiode
  have hnone : ((finishPitch r.job (r.ending c (s.core c) st faultPc) (leftBy c r st s)).core c).next = none := by
    rw [core_congr (kept .cores hcores), leftBy_core, if_pos rfl]
    exact hnext
  have hstart := startNext_of_none hnone
  have hheld : ¬ (st = .residue ∧ r.job.src.isSome = true) := fun h => hst h.1
  simp only [endRun, hr, if_neg hheld]
  change (if ((checkDrain _ (finishPitch r.job _ (leftBy c r st s))).ctl c).diodeFault then _ else
    startNext c (checkDrain _ (finishPitch r.job _ (leftBy c r st s)))) = _
  rw [hdrain, hbroken, if_neg Bool.false_ne_true, hstart]

theorem finishPitch_reply (j : PitchJob) (e : PitchEnd) (s : State) : (finishPitch j e s).reply.status = some e.status := by
  unfold finishPitch
  split <;> rfl

theorem finishPitch_hdr {q : Nat} (h : ∀ g : FnId, q ≠ fnPage g.val) (j : PitchJob) (e : PitchEnd) (s : State) :
    (finishPitch j e s).hdr q = s.hdr q := by
  have hreply (a : Reply) (t : State) : (State.setReply a t).hdr q = t.hdr q := rfl
  unfold finishPitch
  split
  · rw [hreply, finish_hdr _ _ _ _ _ h]
  · rfl

theorem pgCore_ne_fnPage (c : CoreId) (g : FnId) : pgCore c ≠ fnPage g.val := by
  have := c.isLt
  unfold pgCore fnPage pgPf pgHost
  split <;> omega

theorem raise_raised (p n : Nat) (s : State) : ((raise p n s).hdr p).stat &&& bitMask n = bitMask n := by
  rw [raise_hdr, if_pos rfl]
  ext i hi
  simp +contextual

theorem endRun_pitchEnded {c : CoreId} (h : lone s c r) (hst : st ≠ .residue) : pitchEnded s (endRun c st faultPc s) c st := by
  rw [endRun_lone h hst]
  have hkept : only [.reply, .hdrs, .host, .glob] (leftBy c r st s)
      (finishPitch r.job (r.ending c (s.core c) st faultPc) (leftBy c r st s)) := by simp
  have hcore := core_congr (kept .cores hkept) c.val
  have hctl := ctl_congr c.val (kept .ctls hkept)
  rw [leftBy_core, if_pos rfl] at hcore
  rw [leftBy_ctl] at hctl
  refine ⟨?_, ?_, ?_, ?_, ?_, ?_, finishPitch_reply _ _ _⟩
  · rw [hcore]; rfl
  · rw [hcore]; rfl
  · rw [hcore]; rfl
  · rw [hctl]
  · exact (congrArg PwrBlk.free (kept .pwr hkept)).trans leftBy_free
  · rw [finishPitch_hdr (pgCore_ne_fnPage c)]
    exact raise_raised _ _ _

theorem endRun_lone_only (h : lone s c r) (hst : st ≠ .residue) :
    only [.reply, .hdrs, .cores, .ctls, .host, .glob, .pwr, .dbg] s (endRun c st faultPc s) := by
  rw [endRun_lone h hst]
  simp [leftBy]

end

/-! ### The stops -/

section
variable {c source : Nat} {s : State} {r : Run} {counted : Bool}

theorem unpend_of_none (h : (s.core c).next = none) : unpend c s = s := by
  unfold unpend
  rw [h]

theorem onFence_core (f : FenceBlk → FenceBlk) (k : Nat) : (s.onFence f).core k = s.core k := rfl

/-- R103, R142: a pitch that stops on a core that holds no other leaves its core and a stop record. -/
theorem stopRun_run (hr : (s.core c).run = some r) (hnext : (s.core c).next = none) : stopRun c counted source s =
    ((returnBalance c s).onCore c (fun k => { k with run := none, pstate := .idle })).onFence
      (fun f => { f with stops := f.stops ++ [⟨c, r.job, false, counted, [], source⟩] }) := by
  simp only [stopRun, hr]
  exact unpend_of_none (by rw [onFence_core, core_onCore, returnBalance_core]; exact hnext)

theorem stopRun_core (hr : (s.core c).run = some r) (hnext : (s.core c).next = none) :
    (stopRun c counted source s).core c = { s.core c with run := none, pstate := .idle } := by
  rw [stopRun_run hr hnext, onFence_core, core_onCore, returnBalance_core]

theorem stopRun_fence (hr : (s.core c).run = some r) (hnext : (s.core c).next = none) :
    (stopRun c counted source s).fence.stops = s.fence.stops ++ [⟨c, r.job, false, counted, [], source⟩] := by
  rw [stopRun_run hr hnext]
  rfl

theorem stopRun_bal (hr : (s.core c).run = some r) (hnext : (s.core c).next = none) :
    ((stopRun c counted source s).ctl c).bal = 0 := by
  rw [stopRun_run hr hnext]
  exact congrArg CoreCtl.bal returnBalance_ctl

theorem stopRun_parts (hr : (s.core c).run = some r) (hnext : (s.core c).next = none) :
    only [.cores, .ctls, .fence, .pwr] s (stopRun c counted source s) := by
  rw [stopRun_run hr hnext]
  simp

/-- R107: the cause of an error raises CORE_ERR. -/
theorem setCause_raised (bitNo : Nat) : ((setCause c bitNo s).hdr (pgCore c)).stat &&& bitMask 1 = bitMask 1 :=
  raise_raised _ _ _

theorem setCause_self (bitNo : Nat) (f : Core → Core) : (setCause c bitNo (s.onCore c f)).core c =
    { f (s.core c) with errCause := (f (s.core c)).errCause ||| (1#8 <<< bitNo) } := by
  rw [setCause_core, if_pos rfl, core_onCore]

/-- R103, R107: a core error stops the pitch, with its cause and a stop record. -/
theorem stopRun_setCause {bitNo : Nat} {f : Core → Core} (hr : (f (s.core c)).run = some r)
    (hnext : (f (s.core c)).next = none) :
    let t := stopRun c counted source (setCause c bitNo (s.onCore c f))
    t.core c = { f (s.core c) with errCause := (f (s.core c)).errCause ||| (1#8 <<< bitNo), run := none, pstate := .idle } ∧
      t.fence.stops = s.fence.stops ++ [⟨c, r.job, false, counted, [], source⟩] ∧
      (t.hdr (pgCore c)).stat &&& bitMask 1 = bitMask 1 ∧ (t.ctl c).bal = 0 ∧
      only [.hdrs, .cores, .ctls, .fence, .host, .glob, .pwr] s t := by
  have hself := setCause_self (c := c) (s := s) bitNo f
  have hr' : ((setCause c bitNo (s.onCore c f)).core c).run = some r := by rw [hself]; exact hr
  have hnext' : ((setCause c bitNo (s.onCore c f)).core c).next = none := by rw [hself]; exact hnext
  have hcause : only [.hdrs, .cores, .host, .glob] s (setCause c bitNo (s.onCore c f)) := by simp
  have hstop := stopRun_parts (counted := counted) (source := source) hr' hnext'
  refine ⟨by rw [stopRun_core hr' hnext', hself], ?_, ?_, stopRun_bal hr' hnext', ?_⟩
  · rw [stopRun_fence hr' hnext', kept .fence hcause]
  · rw [hdr_congr (kept .hdrs hstop)]
    exact setCause_raised bitNo
  · exact only_trans (only_mono hcause (by simp)) (only_mono hstop (by simp))

end

/-! ### The commands -/

section
variable {c : CoreId} {s : State} {r : Run}

theorem stops_idle (hr : (s.core c).run = none) : exec (.coreAbort c) s = .next s ∧ exec (.commit c) s = .next s ∧
    exec (.cycleBudgetCutoff c) s = .next s ∧ exec (.sequencerWatchdog c) s = .next s ∧
    ∀ b, exec (.programFetch c b) s = .next s := by
  have habort : exec (.coreAbort c) s = .next s := congrArg Host.Outcome.next (by simp only [hr])
  have hcommit : commit c s = s := by simp only [commit, hr]
  have hcutoff : cutoff c s = s := by simp only [cutoff, hr]
  have hwatch : watchdog c s = s := by simp only [watchdog, hr]
  have hfetch (b : Bool) : programFetch c b s = s := by simp only [programFetch, hr]
  exact ⟨habort, congrArg _ hcommit, congrArg _ hcutoff, congrArg _ hwatch, fun b => congrArg _ (hfetch b)⟩

theorem exec_coreAbort (hr : (s.core c).run = some r) (hd : drained r = false) :
    exec (.coreAbort c) s = .next (endRun c .aborted 0xFFFF s) :=
  congrArg Host.Outcome.next (by simp only [hr, hd, Bool.false_eq_true, if_false])

/-- R137: a pitch whose commit is past its first phase is not stopped. -/
theorem stops_drained (hr : (s.core c).run = some r) (hd : drained r = true) : exec (.coreAbort c) s = .next s ∧
    exec (.cycleBudgetCutoff c) s = .next s ∧ exec (.sequencerWatchdog c) s = .next s := by
  have habort : exec (.coreAbort c) s = .next s := congrArg Host.Outcome.next (by simp only [hr, hd, if_true])
  have hcutoff : cutoff c s = s := by simp only [cutoff, hr, hd, Bool.true_or, if_true]
  have hwatch : watchdog c s = s := by simp only [watchdog, hr, hd, Bool.true_or, if_true]
  exact ⟨habort, congrArg _ hcutoff, congrArg _ hwatch⟩

/-- R140, R213: the state in which the cut-off ends the pitch. -/
def overBudget (c : Nat) (r : Run) (s : State) : State :=
  raise pgCtx 4 (raise (pgCore c) 2 ((s.onCore c fun k =>
    { k with cycles := BitVec.ofNat 32 (max k.cycles.toNat (2 * r.job.desc.budget.toNat)) }).onCx r.job.ctx.val fun q =>
      { q with ovr := true }))

theorem overBudget_core (c : Nat) : (overBudget c r s).core c = { s.core c with
    cycles := BitVec.ofNat 32 (max (s.core c).cycles.toNat (2 * r.job.desc.budget.toNat)) } := by
  have hset := core_onCore s c fun k =>
    { k with cycles := BitVec.ofNat 32 (max k.cycles.toNat (2 * r.job.desc.budget.toNat)) }
  rw [overBudget, raise_core, raise_core]
  exact hset

theorem overBudget_cx (c : Nat) : (overBudget c r s).cx r.job.ctx.val = { s.cx r.job.ctx.val with ovr := true } := by
  have hset (t : State) : (t.onCx r.job.ctx.val fun q => { q with ovr := true }).cx r.job.ctx.val =
      { t.cx r.job.ctx.val with ovr := true } := by
    rw [cx_onCx, if_pos rfl]
  have hraise (p n : Nat) (t : State) : (raise p n t).cx r.job.ctx.val = t.cx r.job.ctx.val := cx_congr (by simp)
  rw [overBudget, hraise, hraise, hset]
  rfl

theorem overBudget_ctl (c k : Nat) : (overBudget c r s).ctl k = s.ctl k := by
  rw [overBudget, raise_ctl, raise_ctl]
  rfl

theorem lone.overBudget (h : lone s c r) : lone (overBudget c r s) c r := by
  obtain ⟨hr, hnext, hdiode, hctx⟩ := h
  refine ⟨by rw [overBudget_core]; exact hr, by rw [overBudget_core]; exact hnext, by rw [overBudget_ctl]; exact hdiode, ?_⟩
  rw [overBudget_cx]
  exact hctx

theorem exec_cycleBudgetCutoff (hr : (s.core c).run = some r) (hd : drained r = false) (hst : r.started = true) :
    exec (.cycleBudgetCutoff c) s = .next (endRun c .overrun 0xFFFF (overBudget c r s)) := by
  refine congrArg Host.Outcome.next ?_
  simp only [cutoff, hr, hd, hst, Bool.not_true, Bool.or_false, Bool.false_eq_true, if_false]
  rfl

theorem cutoff_outcome (h : lone s c r) :
    let t := endRun c .overrun 0xFFFF (overBudget c r s)
    pitchEnded s t c .overrun ∧ (t.cx r.job.ctx.val).ovr = true ∧
      (2 * r.job.desc.budget.toNat ≤ 0xFFFFFFFF → 2 * r.job.desc.budget.toNat ≤ (t.core c).cycles.toNat) := by
  have hl := lone.overBudget h
  have honly := endRun_lone_only (st := .overrun) (faultPc := 0xFFFF) hl (by decide)
  refine ⟨?_, ?_, fun hbudget => ?_⟩
  · obtain ⟨hrun, hlast, hidle, hbal, hfree, hdone, hreply⟩ :=
      endRun_pitchEnded (st := .overrun) (faultPc := 0xFFFF) hl (by decide)
    have hpwr : (overBudget c r s).pwr = s.pwr := by simp [overBudget]
    rw [overBudget_ctl, hpwr] at hfree
    exact ⟨hrun, hlast, hidle, hbal, hfree, hdone, hreply⟩
  · rw [cx_congr (kept .ctx honly), overBudget_cx]
  · rw [endRun_lone hl (by decide), core_congr (kept .cores (T := [.reply, .hdrs, .host, .glob]) (s := leftBy c r .overrun
      (overBudget c r s)) (by simp) (by simp)), leftBy_core, if_pos rfl, overBudget_core]
    have hlt := (s.core c).cycles.isLt
    simp only [Core.vacate, BitVec.toNat_ofNat]
    omega

/-- R102, R103: the watchdog stops the pitch. -/
theorem exec_sequencerWatchdog (hr : (s.core c).run = some r) (hd : drained r = false) (hst : r.started = true) :
    exec (.sequencerWatchdog c) s =
      .next (stopRun c true 1 (setCause c 1 (s.onCore c fun k => { k with wdog := 65536 }))) := by
  refine congrArg Host.Outcome.next ?_
  simp only [watchdog, hr, hd, hst, Bool.not_true, Bool.or_false, Bool.false_eq_true, if_false]

/-- R134–R137: a commit that publishes no block and takes no line. -/
theorem exec_commit (hr : (s.core c).run = some r) (hend : r.ended = true) (hfl : r.flights = [])
    (hsw : (s.ctl c).switching = false) (hres : r.residue = false) (hpay : publishes r = true → holdsReserve s c = true)
    (hsnds : r.snds = []) (htaken : r.taken = []) (houts : r.outs.all (outOk s r) = true) :
    exec (.commit c) s = .next (endRun c (if r.sat then .saturated else if r.inx then .inexact else .ok) 0xFFFF
      (forAll r.sigs (fun e t => publishSig r.job.ctx.val e t) (forAll r.outs (fun m t => publishOut c r m t) s))) := by
  have hpaid : (publishes r && !holdsReserve s c) = false := by
    cases hp : publishes r with
    | true => simp [hpay hp]
    | false => rfl
  have hwait : r.snds.any (sndWaits s c r) = false := by simp [hsnds]
  refine congrArg Host.Outcome.next ?_
  have hcommit : commit c s = publish c r s := by
    simp only [commit, hr, hend, hfl, hsw, hres, hpaid, hwait, houts, List.isEmpty_nil, Bool.not_true, Bool.or_false,
      Bool.false_eq_true, if_false, if_true]
  have hreads (t : State) : publishReads r t = t := by
    unfold publishReads
    rw [htaken]
    rfl
  simp only [hcommit, publish, hreads, hsnds, List.foldl_nil]
  rfl

theorem commit_waits (hr : (s.core c).run = some r)
    (h : r.ended = false ∨ r.flights ≠ [] ∨ (s.ctl c).switching = true) : exec (.commit c) s = .next s := by
  have hheld : (!r.ended || !r.flights.isEmpty || (s.ctl c).switching) = true := by
    rcases h with h | h | h <;> simp [h]
  exact congrArg Host.Outcome.next (by simp only [commit, hr, hheld, if_true])

/-! ### The program fetch -/

section
variable {ws : List DWord}

theorem exec_programFetch (hr : (s.core c).run = some r) (hf : r.fetched = false) (hws : segment s r.job = some ws)
    (hend : endsInEnd ws = true) : exec (.programFetch c false) s = .next (s.setCore c { s.core c with
      ibuf := ws, run := some { r with fetched := true },
      pstate := if r.granted = true ∧ (s.core c).pstate = .waitTokens then .run else (s.core c).pstate }) := by
  refine congrArg Host.Outcome.next ?_
  simp only [programFetch, hr, hf, hws, hend, Bool.not_false, if_true, ready, onCore_onCore]
  simp only [State.onCore, Core.onRun, hr, Option.map_some, Bool.true_and]
  by_cases hg : r.granted = true ∧ (s.core c).pstate = .waitTokens
  · simp [hg]
  · simp [hg]

theorem programFetch_denied (hr : (s.core c).run = some r) (hf : r.fetched = false) (hws : segment s r.job = some ws)
    (hend : endsInEnd ws = false) :
    exec (.programFetch c false) s = .next (endRun c .denied (r.job.desc.progLen - 1) s) := by
  refine congrArg Host.Outcome.next ?_
  simp only [programFetch, hr, hf, hws, hend, Bool.not_false, if_true, Bool.false_eq_true, if_false]

/-- R114, R141: a segment that cannot be read ends the pitch with CRC. -/
theorem programFetch_failed {b : Bool} (hr : (s.core c).run = some r) (hf : r.fetched = false)
    (h : b = true ∨ segment s r.job = none) : exec (.programFetch c b) s =
      .next (endRun c .crc 0xFFFF (failedRead r.job.ctx.val (gaSpace r.job.desc.progBase) (gaOff r.job.desc.progBase)
        (8 * r.job.desc.progLen.toNat) s)) := by
  refine congrArg Host.Outcome.next ?_
  rcases h with rfl | h
  · simp only [programFetch, hr, hf, Bool.not_false, if_true]
  · simp only [programFetch, hr, hf, h, Bool.not_false, if_true]

theorem programFetch_pending {j : PitchJob} (hr : (s.core c).run = some r) (hf : r.fetched = true)
    (hj : (s.core c).next = some j) (hws : segment s j = some ws) (hend : endsInEnd ws = true) :
    exec (.programFetch c false) s = .next (s.setCore c { s.core c with nextBuf := ws, nextFetched := true }) := by
  refine congrArg Host.Outcome.next ?_
  simp only [programFetch, hr, hf, hj, hws, hend, Bool.not_true, Bool.false_eq_true, if_false, if_true]
  rw [State.onCore, hr, hj]

end

end

end Sys2Proof.Machine

namespace Sys2Proof

open Machine Safety

/-- Settles O53: each command in the cases of its rule. -/
theorem pitchRunCommands : Obligations.PitchRunCommands := by
  refine ⟨fun c s => stops_idle, fun c r s => stops_drained, ?_, ?_, ?_, fun c r s => commit_waits, ?_, ?_, ?_,
    fun c r ws s => programFetch_denied, ?_, ?_⟩
  · intro c r s h hd
    have hr : (s.core c).run = some r := h.1
    refine ⟨⟨_, exec_coreAbort hr hd, endRun_pitchEnded h (by decide), endRun_lone_only h (by decide)⟩, fun hst => ?_,
      fun hst => ?_⟩
    · exact ⟨_, exec_cycleBudgetCutoff hr hd hst, cutoff_outcome h⟩
    · obtain ⟨hcore, hstops, hraised, hbal, honly⟩ := stopRun_setCause (s := s) (c := c) (r := r) (counted := true)
        (source := 1) (bitNo := 1) (f := fun k => { k with wdog := 65536 }) hr h.2.1
      exact ⟨_, exec_sequencerWatchdog hr hd hst, by rw [hcore], by rw [hcore]; rfl, hstops, hraised, hbal, honly⟩
  · intro c unit ix s hr
    have hself := fun k => setCause_core c (parityCause unit) k (s.onCore c fun k =>
      { k with parAddr := BitVec.ofNat 24 (unit.val + 16 * ix.toNat), parV := true })
    refine ⟨_, congrArg Host.Outcome.next (stopRun_idle ?_), fun k => ?_, setCause_raised _, by simp⟩
    · rw [hself, if_pos rfl, core_onCore]
      exact hr
    · rw [hself, core_onCore, core_onCore_ite]
      split <;> rfl
  · intro c unit ix r s hr hnext
    obtain ⟨hcore, hstops, -, -, honly⟩ := stopRun_setCause (s := s) (c := c) (r := r) (counted := true)
      (source := parityCause unit) (bitNo := parityCause unit)
      (f := fun k => { k with parAddr := BitVec.ofNat 24 (unit.val + 16 * ix.toNat), parV := true }) hr hnext
    exact ⟨_, rfl, by rw [hcore], hstops, honly⟩
  · intro c r s h hend hfl hsw hres houts hsnds htaken hsigs
    have hpay : publishes r = true → holdsReserve s c = true := by simp [publishes, houts, hsnds, htaken, hsigs]
    have hexec := exec_commit h.1 hend hfl hsw hres hpay hsnds htaken (by simp [houts])
    rw [houts, hsigs] at hexec
    exact ⟨_, hexec, endRun_pitchEnded h (by split; decide; split <;> decide)⟩
  · intro c r s hr hend hfl hsw hres hpay hsnds htaken houts
    exact exec_commit hr hend hfl hsw hres (fun _ => hpay) hsnds htaken houts
  · intro c r ws s hr hf hws hend
    exact exists_next_setCore (exec_programFetch hr hf hws hend)
  · intro c r b s hr hf h
    exact ⟨_, programFetch_failed hr hf h, by simp⟩
  · intro c r j ws s hr hf hj hws hend
    exact exists_next_setCore (programFetch_pending hr hf hj hws hend)

end Sys2Proof
end

section
/-! Dispatch, HALT and the completions of a core (R107, R113, R114, R129–R131, R194, R491). -/

namespace Sys2Proof.Machine

open Sys2Proof.Safety

/-! ### Dispatch (R194) -/

section
variable {l c : CoreId} {x : CtxId} {j : PitchJob} {s : State}

/-- The oldest queued pitch of a logical core, where nothing keeps it in its queue. -/
theorem dispatch_first (hphys : physOf s l.val = some c.val) (howner : (s.ctl c.val).owner = some x)
    (hqueue : (s.cx x.val).queue.find? (fun j => j.lcore.toNat == l.val) = some j) (hopen : coreOpen s c.val = true)
    (hpage : heldByPage s j = false) (hshared : shared s x l.val = false) : dispatch l s =
      if (s.core c).run.isNone && (s.core c).next.isNone then
        startRun c j false (s.onCx x.val (fun q => { q with queue := q.queue.erase j }))
      else if (s.core c).next.isNone then
        (s.onCx x.val (fun q => { q with queue := q.queue.erase j })).onCore c (fun k => { k with next := some j })
      else s := by
  simp only [dispatch, hphys, howner, hqueue, hopen, hpage, hshared, Bool.not_true, Bool.false_and, Bool.or_self,
    Bool.false_eq_true, if_false]

theorem startRun_parts (t : State) : only [.hdrs, .cores, .ctls, .host, .glob, .sec, .dbg] t (startRun c j false t) := by
  simp [startRun]

theorem dispatch_starts (hd : dispatch l s = startRun c j false (s.onCx x.val fun q => { q with queue := q.queue.erase j })) :
    ∃ t, exec (.pitchDispatch l) s = .next t ∧
      (t.core c.val).run = some { job := { j with runs := j.runs + 1, reissue := false } } ∧ (t.core c.val).pc = 0 ∧
      (t.core c.val).pstate = .waitTokens ∧ (t.core c.val).pitchId = j.desc.id ∧
      (∀ y, t.cx y = if y = x.val then { s.cx x.val with queue := (s.cx x.val).queue.erase j } else s.cx y) ∧
      only [.hdrs, .cores, .ctls, .ctx, .host, .glob, .sec, .dbg] s t := by
  have hcore := startRun_core (s := s.onCx x.val fun q => { q with queue := q.queue.erase j }) (c := c) j false c
  rw [if_pos rfl] at hcore
  have hparts := startRun_parts (c := c) (j := j) (s.onCx x.val fun q => { q with queue := q.queue.erase j })
  refine ⟨_, congrArg Host.Outcome.next hd, by rw [hcore]; rfl, by rw [hcore]; rfl, by rw [hcore]; rfl, by rw [hcore]; rfl,
    fun y => ?_, only_trans (t := s.onCx x.val fun q => { q with queue := q.queue.erase j }) (by simp)
      (only_mono hparts (by simp))⟩
  rw [cx_congr (kept .ctx hparts), cx_onCx]

theorem dispatch_holds (hd : dispatch l s = (s.onCx x.val fun q => { q with queue := q.queue.erase j }).onCore c fun k =>
      { k with next := some j }) : ∃ t, exec (.pitchDispatch l) s = .next t ∧
    (∀ k, t.core k = if k = c.val then { s.core c.val with next := some j } else s.core k) ∧
    (∀ y, t.cx y = if y = x.val then { s.cx x.val with queue := (s.cx x.val).queue.erase j } else s.cx y) ∧
    only [.cores, .ctx] s t :=
  ⟨_, congrArg Host.Outcome.next hd,
    fun k => core_onCore_ite (s.onCx x.val fun q => { q with queue := q.queue.erase j }) c k _,
    fun y => cx_onCx s x.val y fun q => { q with queue := q.queue.erase j }, by simp⟩

theorem dispatch_unplaced (h : physOf s l.val = none) : dispatch l s = s := by
  simp only [dispatch, h]

theorem dispatch_closed {c : Nat} (h : physOf s l.val = some c) (hc : coreOpen s c = false) : dispatch l s = s := by
  simp only [dispatch, h, hc, Bool.not_false, Bool.true_or, if_true]
  split
  · rfl
  · split <;> rfl

theorem dispatch_unowned {c : Nat} (h : physOf s l.val = some c) (ho : (s.ctl c).owner = none) : dispatch l s = s := by
  simp only [dispatch, h, ho]

end

/-! ### HALT (R107) -/

section
variable {c : CoreId} {s : State}

theorem unhold_held (h : (s.ctl c).halt = true ∨ (s.ctl c).dbgHalt = true) : unhold c s = s := by
  unfold unhold
  exact if_pos (by simpa using h)

theorem unhold_free (h : (s.ctl c).halt = false) (h' : (s.ctl c).dbgHalt = false) :
    unhold c s = s.onCtl c fun q => { q with halted := false, stepping := false } := by
  unfold unhold
  exact if_neg (by simp [h, h'])

/-- What a command that sets the controls of one core leaves. -/
theorem exists_next_onCtl {o : Res} {f : CoreCtl → CoreCtl} (h : o = .next (s.onCtl c f)) :
    ∃ t, o = .next t ∧ (∀ k, t.ctl k = if k = c then f (s.ctl c) else s.ctl k) ∧ only [.ctls] s t :=
  ⟨_, h, fun k => ctl_onCtl_ite s c k f, by simp⟩

theorem coreHalt_on : exec (.coreHalt c true) s = .next (s.onCtl c fun q => { q with halt := true }) := by
  have hset := ctl_onCtl s c fun q => { q with halt := true }
  exact congrArg Host.Outcome.next (unhold_held (.inl (by rw [hset])))

theorem coreHalt_off_held (h : (s.ctl c).dbgHalt = true) :
    exec (.coreHalt c false) s = .next (s.onCtl c fun q => { q with halt := false }) := by
  have hset := ctl_onCtl s c fun q => { q with halt := false }
  exact congrArg Host.Outcome.next (unhold_held (.inr (by rw [hset]; exact h)))

theorem coreHalt_off (h : (s.ctl c).dbgHalt = false) : exec (.coreHalt c false) s =
    .next (s.onCtl c fun q => { q with halt := false, halted := false, stepping := false }) := by
  have hset := ctl_onCtl s c fun q => { q with halt := false }
  exact congrArg Host.Outcome.next ((unhold_free (by rw [hset]) (by rw [hset]; exact h)).trans (onCtl_onCtl s c _ _))

theorem haltAck_ctl (c k : Nat) : (haltAck c s).ctl k = s.ctl k := by
  unfold haltAck when
  split
  · rw [raise_ctl, raise_ctl]
  · rw [raise_ctl]

theorem pgCore_ne_pgDbg (c : CoreId) : pgCore c ≠ pgDbg := by
  have := c.isLt
  unfold pgCore pgDbg
  omega

/-- R107: the boundary raises HALT_ACK. -/
theorem haltAck_raised : ((haltAck c s).hdr (pgCore c)).stat &&& bitMask 3 = bitMask 3 := by
  unfold haltAck when
  split
  · rw [raise_hdr, if_neg (pgCore_ne_pgDbg c)]
    exact raise_raised _ _ _
  · exact raise_raised _ _ _

theorem exec_haltBoundaryReached (h : (s.ctl c).halt = true ∨ (s.ctl c).dbgHalt = true) (hh : (s.ctl c).halted = false)
    (hs : (s.ctl c).stepping = false) :
    exec (.haltBoundaryReached c) s = .next (haltAck c (s.onCtl c fun q => { q with halted := true })) := by
  have hbound : (((s.ctl c).halt || (s.ctl c).dbgHalt) && !(s.ctl c).halted && !(s.ctl c).stepping) = true := by
    simpa [hh, hs] using h
  exact congrArg Host.Outcome.next (if_pos hbound)

theorem haltBoundaryReached_past (h : ((s.ctl c).halt = false ∧ (s.ctl c).dbgHalt = false) ∨ (s.ctl c).halted = true ∨
    (s.ctl c).stepping = true) : exec (.haltBoundaryReached c) s = .next s := by
  have hbound : ¬ (((s.ctl c).halt || (s.ctl c).dbgHalt) && !(s.ctl c).halted && !(s.ctl c).stepping) = true := by
    rcases h with ⟨h, h'⟩ | h | h
    · simp [h, h']
    · simp [h]
    · simp [h]
  exact congrArg Host.Outcome.next (if_neg hbound)

end

/-! ### Completion and waits (R129–R131) -/

section
variable {c : CoreId} {s : State} {r : Run}

theorem exec_instructionComplete {u : Fin 6} {f : Flight} (hr : (s.core c).run = some r) (hres : holdsReserve s c = false)
    (htr : s.dbg.tracing.contains c.val = false) (hu : u.val = 2 ∨ u.val = 3 ∨ u.val = 4) (hf : oldestDone r u = some f) :
    exec (.instructionComplete c u) s = .next (s.setCore c { s.core c with
      wdog := 0, run := some { r with flights := r.flights.filter (fun g => g.pc != f.pc) } }) := by
  refine congrArg Host.Outcome.next ?_
  simp only [completeUnit, pumpUnits_held hres, hr, if_pos hu, hf, retire_untraced htr hr]
  exact pumpUnits_held hres

theorem instructionComplete_none {u : Fin 6} (hr : (s.core c).run = some r) (hres : holdsReserve s c = false)
    (h : u.val = 0 ∨ u.val = 1 ∨ u.val = 5 ∨ oldestDone r u = none) : exec (.instructionComplete c u) s = .next s := by
  refine congrArg Host.Outcome.next ?_
  simp only [completeUnit, pumpUnits_held hres, hr]
  split
  case isTrue hu =>
    have hnone : oldestDone r u = none := by
      rcases h with h | h | h | h
      · omega
      · omega
      · omega
      · exact h
    rw [hnone]
  case isFalse => rfl

section
variable {ctr : BitVec 6} {target : Word}

theorem watBarrierRelease_met (hr : (s.core c).run = some r)
    (hw : ((s.core c).ibuf[(s.core c).pc.toNat - 1]?).bind PitchInstr.decode = some (.watBar ctr target))
    (hp : (s.core c).pstate = .waitBarrier) (hm : (fget 0 (s.cx r.job.ctx.val).bars ctr.toNat - target).toNat < 2 ^ 31) :
    exec (.watBarrierRelease c) s = .next (s.setCore c { s.core c with pstate := .run }) := by
  have hmet : barrierMet s r.job.ctx.val ctr target = true := decide_eq_true hm
  refine congrArg Host.Outcome.next ?_
  simp only [releaseBarrier, hr, hw, hp, hmet, beq_self_eq_true, Bool.and_self, if_true]
  rw [State.onCore, hr]

theorem watBarrierRelease_unmet (hr : (s.core c).run = some r)
    (hw : ((s.core c).ibuf[(s.core c).pc.toNat - 1]?).bind PitchInstr.decode = some (.watBar ctr target))
    (h : (s.core c).pstate ≠ .waitBarrier ∨ 2 ^ 31 ≤ (fget 0 (s.cx r.job.ctx.val).bars ctr.toNat - target).toNat) :
    exec (.watBarrierRelease c) s = .next s := by
  have hunmet : ((s.core c).pstate == .waitBarrier && barrierMet s r.job.ctx.val ctr target) = false := by
    rcases h with h | h
    · simp [h]
    · rw [barrierMet, decide_eq_false (Nat.not_lt.mpr h), Bool.and_false]
  refine congrArg Host.Outcome.next ?_
  simp only [releaseBarrier, hr, hw, hunmet, Bool.false_eq_true, if_false]

end

theorem exec_watLocalRelease {us : BitVec 5} (hr : (s.core c).run = some r) (hw : r.waitUnits = some us) :
    exec (.watLocalRelease c) s = .next (s.setCore c { s.core c with
      run := some { r with waitUnits := if r.flights.any (fun f => us.getLsbD f.unit.val) then some us else none } }) := by
  have hrelease : (match r.waitUnits with
      | some us => if unitsBusy r us then r else { r with waitUnits := none }
      | none => r) = { r with waitUnits := if unitsBusy r us then some us else none } := by
    rw [hw]
    cases hb : unitsBusy r us with
    | true => simp only [hb, if_true, ← hw]
    | false => simp only [hb, Bool.false_eq_true, if_false]
  refine congrArg Host.Outcome.next (congrArg (s.setCore c) ?_)
  simp only [Core.onRun, hr, Option.map_some]
  exact congrArg (fun q : Run => { s.core c with run := some q }) hrelease

end

end Sys2Proof.Machine

namespace Sys2Proof

open Machine Safety

/-- Settles O54: each command in the cases of its rule. -/
theorem coreControlCommands : Obligations.CoreControlCommands := by
  refine ⟨?_, ?_, ?_, ?_, ?_, ?_⟩
  · intro l c x j s hphys howner hqueue hopen hpage hshared
    have hd := dispatch_first hphys howner hqueue hopen hpage hshared
    refine ⟨fun hrun hnext => ?_, fun hrun hnext => ?_, fun hnext => ?_⟩
    · rw [hrun, hnext] at hd
      exact dispatch_starts hd
    · obtain ⟨r, hr⟩ := Option.ne_none_iff_exists'.mp hrun
      rw [hr, hnext] at hd
      exact dispatch_holds hd
    · obtain ⟨j', hj'⟩ := Option.ne_none_iff_exists'.mp hnext
      rw [hj', Option.isNone_some, Bool.and_false] at hd
      exact congrArg Host.Outcome.next hd
  · intro l s h
    rcases h with h | ⟨c, h, hclosed | howner⟩
    · exact congrArg Host.Outcome.next (dispatch_unplaced h)
    · exact congrArg Host.Outcome.next (dispatch_closed h hclosed)
    · exact congrArg Host.Outcome.next (dispatch_unowned h howner)
  · intro c s
    refine ⟨exists_next_onCtl coreHalt_on, fun h => exists_next_onCtl (coreHalt_off h),
      fun h => exists_next_onCtl (coreHalt_off_held h), fun h hh hs => ?_, haltBoundaryReached_past⟩
    refine ⟨_, exec_haltBoundaryReached h hh hs, fun k => ?_, haltAck_raised, by simp⟩
    rw [haltAck_ctl, ctl_onCtl_ite]
  · intro c u r f s hr hres htr
    exact ⟨fun hu hf => exists_next_setCore (exec_instructionComplete hr hres htr hu hf), instructionComplete_none hr hres⟩
  · intro c r ctr target s hr hw
    exact ⟨fun hp hm => exists_next_setCore (watBarrierRelease_met hr hw hp hm), watBarrierRelease_unmet hr hw⟩
  · intro c r us s hr hw
    exact exists_next_setCore (exec_watLocalRelease hr hw)

end Sys2Proof
end

section
/-! The consumption of submission descriptors (R299–R309): which entries are taken and what each spells. -/

namespace Sys2Proof.Machine

open Sys2Proof.Safety

/-! ### The completion of a command -/

section
variable {src : CmdSrc} {s : State}

theorem closeCmd_fn (kind : Nat) (bytes : List Byte) : ∃ fn : FnHost, (closeCmd src kind bytes s).fn src.fn.val = fn ∧
    fn.hold = (s.fn src.fn.val).hold ++ [recordFor src kind bytes s] ∧ fn.nops = (s.fn src.fn.val).nops := by
  refine ⟨_, deliver_fn _ _ _ _, ?_⟩
  rw [if_pos rfl, fn_onFn, if_pos rfl, State.onSq, fn_onFn, if_pos rfl]
  exact ⟨rfl, rfl⟩

/-- R307: a command that completes with the generic record has completed. -/
theorem finishGeneric_completed (st : Status) (v : Nat) : completed s (finishGeneric src st v s) src st v := by
  refine ⟨rfl, fun hnops => ?_⟩
  obtain ⟨fn, hfn, hhold, hempty⟩ := closeCmd_fn (src := src) (s := s) 2 (genericRec st v s)
  have hreply (a : Reply) (t : State) (g : Nat) : (State.setReply a t).fn g = t.fn g := rfl
  have hfinish : finish src 2 (genericRec st v s) s = closeCmd src 2 (genericRec st v s) s := by
    rw [finish, hfn, hempty, hnops]
    rfl
  rw [finishGeneric, hreply, hfinish, hfn, hhold]

end

/-! ### A ring that stops -/

section
variable {f i g j : Nat} {s : State}

theorem sq_onSq (q : SqRing → SqRing) : (s.onSq f i q).sq g j = if g = f ∧ j = i then q (s.sq f i) else s.sq g j := by
  rw [sq_eq, State.onSq, fn_onFn]
  by_cases hg : g = f
  · subst hg
    simp only [if_true, fget_fput, true_and]
    rfl
  · simp only [hg, false_and, if_false]
    rfl

theorem sq_raise (p n : Nat) : (raise p n s).sq g j = s.sq g j := by
  rw [sq_eq, raise_fn]
  rfl

theorem ringError_sq (b : Nat) : (ringError f b s).sq g j = s.sq g j := by
  rw [ringError, sq_raise]
  split <;> rfl

theorem ringError_stat (b : Nat) : ((ringError f b s).hdr (fnPage f)).stat = (s.hdr (fnPage f)).stat ||| bitMask b := by
  rw [ringError, raise_hdr, if_pos rfl]
  split
  · rfl
  · rw [errTrans_hdr, if_pos rfl]

/-- R301: a ring that stops keeps its entries from HEAD on for the host. -/
theorem stopRing_outcome (err : Nat) :
    (∀ g j, (stopRing f i err s).sq g j = if g = f ∧ j = i then
      { s.sq f i with st := 2, err := BitVec.ofNat 4 err, tail := (s.sq f i).head } else s.sq g j) ∧
    ((stopRing f i err s).hdr (fnPage f)).stat = (s.hdr (fnPage f)).stat ||| bitMask 1 ∧
    only [.hdrs, .host, .glob] s (stopRing f i err s) := by
  refine ⟨fun g j => ?_, ?_, by simp⟩
  · rw [stopRing, ringError_sq, sq_onSq]
  · rw [stopRing, ringError_stat]
    rfl

end

/-! ### An entry that is taken -/

section
variable {f i : Nat} {e : List Byte} {s : State} {q : SqRing}

theorem takeEntry_sq (hq : q = s.sq f i) (g j : Nat) : (takeEntry f i e s).sq g j =
    if g = f ∧ j = i then { q with head := q.head + 1, inFlight := q.inFlight ++ [q.head] } else s.sq g j := by
  subst hq
  have hreserve (t : State) : (t.onFn f fun h => { h with reserved := h.reserved + 1 }).sq g j = t.sq g j := by
    rw [sq_eq, fn_onFn]
    split
    case isTrue hg => rw [hg]; rfl
    case isFalse => rfl
  rw [takeEntry, hreserve, sq_onSq]
  rfl

theorem takeEntry_mem (hq : q = s.sq f i) : (takeEntry f i e s).host.mem =
    memPut s.host.mem (q.base.toNat + 64 * (q.head.toNat % 2 ^ q.log2.toNat) + 63) [entByte e 63 &&& 0x7F] := by
  subst hq
  rfl

theorem takeEntry_reserved : ((takeEntry f i e s).fn f).reserved = (s.fn f).reserved + 1 := by
  rw [takeEntry, fn_onFn, if_pos rfl, State.onSq, fn_onFn, if_pos rfl]
  rfl

end

theorem leNat_lt (bs : List Byte) : leNat bs < 256 ^ bs.length := by
  induction bs with
  | nil => simp [leNat]
  | cons b bs ih =>
    have hb := b.isLt
    rw [leNat, List.length_cons, Nat.pow_succ]
    omega

/-- A field of an entry fits its bytes. -/
theorem leAt_lt (bs : List Byte) (k n : Nat) : leAt bs k n < 256 ^ n :=
  (leNat_lt _).trans_le (Nat.pow_le_pow_right (by decide) (List.length_take_le n _))

theorem leAt_mod (bs : List Byte) (k n : Nat) {m : Nat} (h : 256 ^ n ≤ m) : leAt bs k n % m = leAt bs k n :=
  Nat.mod_eq_of_lt ((leAt_lt bs k n).trans_le h)

/-! ### What an entry spells -/

/-- The command that each OPCODE spells (R304, R477). -/
noncomputable def spelled (src : CmdSrc) (e : List Byte) : List (Byte × Instr) :=
  [((0x01 : Byte), Instr.pitch src (entByte e 8) (BitVec.ofNat 64 (leAt e 16 8))),
   (0x02, .coll src ((e.drop 8).take 28)),
   (0x03, .wcopy src (BitVec.ofNat 8 (leAt e 8 1)) (BitVec.ofNat 16 (leAt e 10 2)) (BitVec.ofNat 64 (leAt e 16 8))
     (BitVec.ofNat 64 (leAt e 24 8)) (BitVec.ofNat 64 (leAt e 32 8))),
   (0x04, .bind src), (0x05, .unbind src (BitVec.ofNat 16 (leAt e 8 1))),
   (0x06, .admitCmd src (BitVec.ofNat 64 (leAt e 8 8)) (BitVec.ofNat 32 (leAt e 16 4))),
   (0x07, .wpage src (BitVec.ofNat 16 (leAt e 8 2)) (BitVec.ofNat 16 (leAt e 10 2)) (BitVec.ofNat 8 (leAt e 12 1))
     (BitVec.ofNat 32 (leAt e 16 4))),
   (0x08, .nop src),
   (0x10, .sealOpen src (BitVec.ofNat 64 (leAt e 8 8)) (BitVec.ofNat 32 (leAt e 16 4)) (BitVec.ofNat 32 (leAt e 20 4))),
   (0x11, .sealRotate src (BitVec.ofNat 64 (leAt e 8 8))), (0x12, .sealKey src (BitVec.ofNat 64 (leAt e 8 8)) (entByte e 16)),
   (0x13, .sealPage src (BitVec.ofNat 32 (leAt e 8 4)) (entByte e 12) (BitVec.ofNat 64 (leAt e 16 8))),
   (0x20, .ctxrd src (BitVec.ofNat 8 (leAt e 8 1)) (BitVec.ofNat 16 (leAt e 10 2))),
   (0x21, .ctxwr src (BitVec.ofNat 8 (leAt e 8 1)) (BitVec.ofNat 16 (leAt e 10 2)) (BitVec.ofNat 32 (leAt e 12 4)))]

section
variable {src : CmdSrc} {e : List Byte} {s : State}

/-- A clean entry runs as the command that its OPCODE spells. -/
theorem exec_spelled : ∀ p ∈ spelled src e, entByte e 0 = p.1 → exec p.2 s = .next (runEntry src e s) := by
  simp only [spelled, List.forall_mem_cons, List.not_mem_nil, false_implies, implies_true, and_true]
  refine ⟨?_, ?_, ?_, ?_, ?_, ?_, ?_, ?_, ?_, ?_, ?_, ?_, ?_, ?_⟩
  all_goals
    intro hop
    refine congrArg Host.Outcome.next ?_
    simp [runEntry, hop, leAt_mod]

theorem refuseEntry_reply : (refuseEntry src e s).reply.status = some .denied := by
  unfold refuseEntry
  split <;> rfl

theorem refuseEntry_parts : only [.reply, .hdrs, .host, .glob] s (refuseEntry src e s) := by
  unfold refuseEntry
  split <;> simp

end

/-! ### The consumption -/

section
variable {f : FnId} {i : RingId} {entry : Option (List Byte)} {e0 e : List Byte} {q : SqRing} {src : CmdSrc} {s : State}

theorem consume_halted (h : mayConsume s f.val i.val = false) : exec (.descriptorConsume f i entry) s = .next s :=
  congrArg Host.Outcome.next (by simp only [consume, h, Bool.not_false, if_true])

/-- R301: an entry that cannot be read, or that the host owns, stops the ring. -/
theorem consume_stops (h : mayConsume s f.val i.val = true)
    (hbad : entry = none ∨ ∃ e, entry = some e ∧ (entByte (padBytes 64 e) 63).getLsbD 7 = false) :
    exec (.descriptorConsume f i entry) s = .next (stopRing f.val i.val (if entry = none then 3 else 1) s) := by
  refine congrArg Host.Outcome.next ?_
  rcases hbad with rfl | ⟨e, rfl, hown⟩
  · simp only [consume, h, Bool.not_true, Bool.false_eq_true, if_false, if_true]
  · simp only [consume, h, hown, Bool.not_true, Bool.not_false, Bool.false_eq_true, if_false, if_true, reduceCtorEq]

/-- R303: a FENCE waits for the commands in flight. -/
theorem consume_fenced (h : mayConsume s f.val i.val = true) (he : e = padBytes 64 e0) (hown : (entByte e 63).getLsbD 7 = true)
    (hfence : (entByte e 1).getLsbD 0 = true) (hbusy : (s.sq f.val i.val).inFlight ≠ []) :
    exec (.descriptorConsume f i (some e0)) s = .next s := by
  subst he
  have hopen : (s.sq f.val i.val).inFlight.isEmpty = false := by simpa using hbusy
  refine congrArg Host.Outcome.next ?_
  simp only [consume, h, hown, hfence, hopen, Bool.not_true, Bool.not_false, Bool.and_self, Bool.false_eq_true, if_false,
    if_true]

theorem consume_taken (h : mayConsume s f.val i.val = true) (he : e = padBytes 64 e0) (hown : (entByte e 63).getLsbD 7 = true)
    (hfree : (entByte e 1).getLsbD 0 = false ∨ (s.sq f.val i.val).inFlight = []) (hq : q = s.sq f.val i.val)
    (hsrc : src = ⟨f, i, q.head, BitVec.ofNat 32 (leAt e 4 4)⟩) :
    exec (.descriptorConsume f i (some e0)) s = .next
      (match operandBytes (entByte e 0).toNat with
      | none => refuseEntry src e (takeEntry f.val i.val e s)
      | some used => if entryClean e used then runEntry src e (takeEntry f.val i.val e s)
        else refuseEntry src e (takeEntry f.val i.val e s)) := by
  subst he hq hsrc
  have hgo : ((entByte (padBytes 64 e0) 1).getLsbD 0 && !(s.sq f.val i.val).inFlight.isEmpty) = false := by
    rcases hfree with hfree | hfree
    · rw [hfree, Bool.false_and]
    · rw [hfree, List.isEmpty_nil, Bool.not_true, Bool.and_false]
  refine congrArg Host.Outcome.next ?_
  simp only [consume, h, hown, hgo, Bool.not_true, Bool.false_eq_true, if_false] <;> rfl

end

end Sys2Proof.Machine

namespace Sys2Proof

open Machine Safety

/-- Settles O44: the ring halts, stops, waits or takes its entry, and a taken entry runs as the command that it spells. -/
theorem descriptorConsumption : Obligations.DescriptorConsumption := by
  refine ⟨fun f i entry s => consume_halted, ?_, fun f i e0 e s => consume_fenced, ?_⟩
  · rintro f i entry _ s h rfl hbad
    obtain ⟨hsq, hstat, honly⟩ := stopRing_outcome (f := f.val) (i := i.val) (s := s) (if entry = none then 3 else 1)
    refine ⟨_, consume_stops h hbad, fun g j => ?_, hstat, honly⟩
    have herr : BitVec.ofNat 4 (if entry = none then 3 else 1) = if entry = none then 3 else 1 := by split <;> rfl
    rw [hsq, herr]
  · intro f i e0 e q src s h he hown hfree hq hsrc
    have htaken := consume_taken h he hown hfree hq hsrc
    refine ⟨takeEntry f.val i.val e s, takeEntry_sq hq, takeEntry_mem hq, takeEntry_reserved, by simp, fun hnone => ?_,
      fun used hused hdirty => ?_, fun used hused hclean p hp hop => ?_⟩
    · rw [hnone] at htaken
      have hpitch : entByte e 0 ≠ 1 := by
        intro h1
        rw [h1] at hnone
        cases hnone
      rw [htaken, refuseEntry, if_neg hpitch]
      exact ⟨_, rfl, finishGeneric_completed _ _, by simp⟩
    · rw [hused] at htaken
      simp only [hdirty, Bool.false_eq_true, if_false] at htaken
      exact ⟨_, htaken, refuseEntry_reply, only_trans (t := takeEntry f.val i.val e s) (by simp) refuseEntry_parts⟩
    · rw [hused] at htaken
      simp only [hclean, if_true] at htaken
      exact htaken.trans (exec_spelled p hp hop).symm

end Sys2Proof
end

section
/-! Slot boundaries, core switches, stop records and the end of a fence's WIPE (R191–R208, R229–R232). -/

namespace Sys2Proof.Machine

open Sys2Proof.Safety

/-! ### The slot tables (R197–R200) -/

/-- The context unit at the next entry of the live table (R199). -/
def CtxBlk.advanced (b : CtxBlk) : CtxBlk :=
  let i := if b.cur.toNat + 1 < (b.livePend.getD b.liveCnt).toNat then b.cur.toNat + 1 else 0
  { b with liveCnt := b.livePend.getD b.liveCnt, livePend := none, cur := BitVec.ofNat 6 i, curEnt := fget {} b.live i,
           left := (fget {} b.live i).len.setWidth 24 }

/-- The context unit after the swap of its tables, at entry 0 (R200). -/
def CtxBlk.swapped (b : CtxBlk) : CtxBlk :=
  { b with live := b.shadow, shadow := b.live, liveCnt := b.shadowCnt, shadowCnt := b.livePend.getD b.liveCnt,
           livePend := none, swap := false, cur := 0, curEnt := fget {} b.shadow 0,
           left := (fget {} b.shadow 0).len.setWidth 24 }

theorem tables_eq_iff {a b : CtxBlk} : a.tables = b.tables ↔ (a.live = b.live ∧ a.shadow = b.shadow) ∧
    (a.liveCnt = b.liveCnt ∧ a.shadowCnt = b.shadowCnt) ∧ a.livePend = b.livePend ∧ a.cur = b.cur ∧
    a.curEnt = b.curEnt ∧ a.left = b.left ∧ a.swap = b.swap := by
  simp [CtxBlk.tables]

theorem advanced_tables {a b : CtxBlk} (h : a.tables = b.tables) : a.advanced.tables = b.advanced.tables := by
  obtain ⟨⟨hlive, hshadow⟩, ⟨hcnt, hscnt⟩, hpend, hcur, -, -, hswap⟩ := tables_eq_iff.mp h
  simp only [CtxBlk.tables, CtxBlk.advanced, hlive, hshadow, hcnt, hscnt, hpend, hcur, hswap]

theorem swapped_tables {a b : CtxBlk} (h : a.tables = b.tables) : a.swapped.tables = b.swapped.tables := by
  obtain ⟨⟨hlive, hshadow⟩, ⟨hcnt, hscnt⟩, hpend, -, -, -, -⟩ := tables_eq_iff.mp h
  simp only [CtxBlk.tables, CtxBlk.swapped, hlive, hshadow, hcnt, hscnt, hpend]

section
variable {s : State}

theorem nextEntry_ctx : (nextEntry s).ctx = if s.ctx.swap then s.ctx.swapped else s.ctx.advanced := by
  have hraise (t : State) : (raise pgCtx 0 t).ctx = t.ctx := by simp
  unfold nextEntry
  dsimp only
  split
  · exact hraise _
  · rfl

/-- R186–R202: what the other steps of a slot boundary leave of the tables. -/
theorem slotBoundary_slots (h : s.ctx.left = 0) :
    (slotBoundary s).ctx.tables = (if s.ctx.swap then s.ctx.swapped else s.ctx.advanced).tables := by
  have hkeep : (shrink 208 (promote (freeSlots (forAll (List.range 16) applyWaiting s)))).ctx.tables = s.ctx.tables := by simp
  have hswap := (tables_eq_iff.mp hkeep).2.2.2.2.2.2
  have hnext : (slotBoundary s).ctx.tables =
      (nextEntry (shrink 208 (promote (freeSlots (forAll (List.range 16) applyWaiting s))))).ctx.tables := by
    simp [slotBoundary, h]
  rw [hnext, nextEntry_ctx, hswap]
  split
  · exact swapped_tables hkeep
  · exact advanced_tables hkeep

theorem slotBoundary_running (h : s.ctx.left ≠ 0) : exec .slotBoundary s = .next s :=
  congrArg Host.Outcome.next (if_pos h)

end

/-! ### The end of a switch (R201, R335) -/

section
variable {c : CoreId} {x : CtxId} {s : State}

theorem resume_idle (h : (s.ctl c).switching = false) : exec (.coreSwitchResume c) s = .next s :=
  congrArg Host.Outcome.next (by simp only [resume, h, Bool.not_false, if_true])

/-- R335: a switch to a context waits for its installment. -/
theorem resume_unpaid (ho : (s.ctl c).owner = some x)
    (h : s.pwr.trip = true ∨ s.pwr.throttlePin = true ∨ s.pwr.free < 256) : exec (.coreSwitchResume c) s = .next s := by
  have hpay : payFrom (some x) s = none := if_pos (by simpa [or_assoc] using h)
  refine congrArg Host.Outcome.next ?_
  simp only [resume, ho, hpay]
  split <;> rfl

theorem retryWaiting_of_none (h : s.fence.waiting = []) : retryWaiting s = s := by
  have hfence : s.onFence (fun f => { f with waiting := [] }) = s := by
    have hf : ({ s.fence with waiting := [] } : FenceBlk) = s.fence := by rw [← h]
    rw [State.onFence, hf]
  rw [retryWaiting, h, hfence]
  rfl

theorem fenceIfDue_of_working {c : Nat} (h : (s.ctl c).diodeFault = false) : fenceIfDue c s = s := by
  unfold fenceIfDue
  rw [h, Bool.false_and, if_neg Bool.false_ne_true]

/-- The core that a switch clears (R201, step 3). -/
def cleared (c : Nat) (s : State) : State := (s.onCore c Core.wipe).onCtl c fun q => { q with switching := false }

theorem cleared_parts : only [.cores, .ctls] s (cleared c s) := by
  simp [cleared]

theorem cleared_core (k : Nat) : (cleared c s).core k = if k = c.val then (s.core c).wipe else s.core k :=
  core_onCore_ite s c k _

theorem cleared_ctl (k : Nat) : (cleared c s).ctl k = if k = c.val then { s.ctl c with switching := false } else s.ctl k :=
  ctl_onCtl_ite (s.onCore c Core.wipe) c k _

theorem cleared_working (h : (s.ctl c).diodeFault = false) : ((cleared c s).ctl c).diodeFault = false := by
  rw [cleared_ctl, if_pos rfl]
  exact h

theorem resume_unowned (hs : (s.ctl c).switching = true) (hd : (s.ctl c).diodeFault = false) (hw : s.fence.waiting = [])
    (ho : (s.ctl c).owner = none) : exec (.coreSwitchResume c) s = .next (cleared c s) := by
  have hend : retryWaiting (fenceIfDue c (cleared c s)) = cleared c s := by
    rw [fenceIfDue_of_working (cleared_working hd), retryWaiting_of_none (s := cleared c s) hw]
  refine (congrArg Host.Outcome.next ?_).trans (congrArg Host.Outcome.next hend)
  simp only [resume, hs, ho, payFrom, Bool.not_true, Bool.false_eq_true, if_false] <;> rfl

/-- The state in which a context has paid for its switch (R335). -/
def paid (x : CtxId) (s : State) : State := s.onPwr fun p => { p with
  free := p.free - 256, granted := p.granted + 256, ctxE := fput 0 x.val (fget 0 p.ctxE x.val + 256) p.ctxE }

theorem paid_parts : only [.pwr] s (paid x s) := by
  simp [paid]

theorem paid_ctl (k : Nat) : (paid x s).ctl k = s.ctl k := ctl_congr k (kept .ctls paid_parts)

theorem paid_core (k : Nat) : (paid x s).core k = s.core k := core_congr (kept .cores paid_parts) k

theorem paid_cx (y : Nat) : (paid x s).cx y = s.cx y := cx_congr (kept .ctx paid_parts)

/-- The incoming context's save record of a logical core, taken back where there is one (R201, step 3). -/
def restored (c l : Nat) (x : CtxId) (s : State) : State :=
  match fget none (s.cx x.val).saved l with
  | none => s
  | some q => (s.onCore c (fun k => k.restore q)).onCx x.val (fun y => { y with saved := fput none l none y.saved })

section
variable {l : Nat}

theorem restored_parts : only [.cores, .ctx] s (restored c l x s) := by
  unfold restored
  split <;> simp

theorem restored_core (k : Nat) : (restored c l x s).core k = if k = c.val then
    (match fget none (s.cx x.val).saved l with | none => s.core c | some q => (s.core c).restore q) else s.core k := by
  unfold restored
  split
  case h_1 =>
    split
    case isTrue hk => rw [hk]
    case isFalse => rfl
  case h_2 q _ => exact core_onCore_ite s c k fun k => k.restore q

theorem restored_saved : fget none ((restored c l x s).cx x.val).saved l = none := by
  unfold restored
  split
  case h_1 h => exact h
  case h_2 q _ =>
    have hset := cx_onCx (s.onCore c fun k => k.restore q) x.val x.val fun y => { y with saved := fput none l none y.saved }
    rw [hset, if_pos rfl, fget_fput, if_pos rfl]

end

theorem resume_owned (hs : (s.ctl c).switching = true) (hd : (s.ctl c).diodeFault = false) (hw : s.fence.waiting = [])
    (ho : (s.ctl c).owner = some x) (htrip : s.pwr.trip = false) (hpin : s.pwr.throttlePin = false)
    (hfree : 256 ≤ s.pwr.free) :
    exec (.coreSwitchResume c) s = .next (restored c (s.ctl c).logical.toNat x (cleared c (paid x s))) := by
  have hpay : payFrom (some x) s = some (paid x s) := if_neg (by simp [htrip, hpin, hfree])
  have hparts := restored_parts (c := c) (x := x) (l := (s.ctl c).logical.toNat) (s := cleared c (paid x s))
  have hpaid : ((paid x s).ctl c).diodeFault = false := by rw [paid_ctl, hd]
  have hwait : (cleared c (paid x s)).fence.waiting = [] := by
    rw [kept .fence (cleared_parts (s := paid x s)), kept .fence paid_parts, hw]
  have hworks : ((restored c (s.ctl c).logical.toNat x (cleared c (paid x s))).ctl c).diodeFault = false := by
    rw [ctl_congr c.val (kept .ctls hparts)]
    exact cleared_working hpaid
  have hwaits : (restored c (s.ctl c).logical.toNat x (cleared c (paid x s))).fence.waiting = [] := by
    rw [kept .fence hparts, hwait]
  have hend := (congrArg retryWaiting (fenceIfDue_of_working hworks)).trans (retryWaiting_of_none hwaits)
  refine (congrArg Host.Outcome.next ?_).trans (congrArg Host.Outcome.next hend)
  simp only [resume, hs, ho, hpay, paid_ctl, Bool.not_true, Bool.false_eq_true, if_false]
  rfl

/-! ### A save record that cannot be read (R207) -/

theorem restoreFail_idle {u : MemUnit} (h : (s.ctl c).switching = false ∨ (s.ctl c).owner = none) :
    exec (.restoreBlockFail c u) s = .next s := by
  refine congrArg Host.Outcome.next ?_
  unfold restoreFail
  dsimp only
  split
  case h_1 x hs ho =>
    rcases h with h | h
    · rw [h] at hs
      cases hs
    · rw [h] at ho
      cases ho
  case h_2 => rfl

/-- R207: the pitches whose save record cannot be read stop, and the failed fetch is counted. -/
def lostRecord (c l : Nat) (u : MemUnit) (x : CtxId) (js : List PitchJob) (s : State) : State :=
  stopSaved c js (countUnitFail u (errTrans pgCtx (countFailed ((s.onCx x.val fun q => { q with
    saved := q.saved.filter (fun e => !(e.1 == l)) }).onMesh fun m => { m with refetch := satAdd m.refetch 3 }))))

section
variable {l : Nat} {u : MemUnit} {js : List PitchJob}

theorem countFailed_refetch : (countFailed s).mesh.refetch = s.mesh.refetch := by
  rw [countFailed, kept .mesh (T := [.hdrs, .host, .glob]) (s := s.onMesh fun m => { m with failed := satInc m.failed })
    (by simp) (by simp)]
  rfl

theorem lostRecord_refetch : (lostRecord c l u x js s).mesh.refetch = satAdd s.mesh.refetch 3 := by
  rw [lostRecord, kept .mesh (T := [.hdrs, .ledge, .hbm, .host, .glob, .evts, .fence]) (s := countFailed ((s.onCx x.val fun q =>
    { q with saved := q.saved.filter (fun e => !(e.1 == l)) }).onMesh fun m => { m with refetch := satAdd m.refetch 3 }))
    (by simp) (by simp), countFailed_refetch]
  rfl

theorem lostRecord_stops : (lostRecord c l u x js s).fence.stops =
    s.fence.stops ++ js.map (fun j => ⟨c, j, false, false, [], 0⟩) := by
  have hfence (t : State) : (stopSaved c js t).fence.stops =
      t.fence.stops ++ js.map (fun j => ⟨c, j, false, false, [], 0⟩) := rfl
  rw [lostRecord, hfence, kept .fence (T := [.hdrs, .ledge, .mesh, .hbm, .ctx, .host, .glob, .evts]) (s := s) (by simp)
    (by simp)]

theorem lostRecord_saved : ((lostRecord c l u x js s).cx x.val).saved = (s.cx x.val).saved.filter (fun e => !(e.1 == l)) := by
  have hset := cx_onCx s x.val x.val fun q => { q with saved := q.saved.filter (fun e => !(e.1 == l)) }
  rw [lostRecord, cx_congr (kept .ctx (T := [.hdrs, .ledge, .mesh, .hbm, .fence, .host, .glob, .evts])
    (s := s.onCx x.val fun q => { q with saved := q.saved.filter (fun e => !(e.1 == l)) }) (by simp) (by simp)),
    hset, if_pos rfl]

theorem lostRecord_parts : only [.hdrs, .ledge, .mesh, .hbm, .ctx, .fence, .host, .glob, .evts] s (lostRecord c l u x js s) := by
  simp [lostRecord]

theorem restoreFail_lost (hs : (s.ctl c).switching = true) (ho : (s.ctl c).owner = some x)
    (hjs : js = ((s.cx x.val).saved.filter (fun e => e.1 == (s.ctl c).logical.toNat)).filterMap
      (fun e => (e.2.bind (·.run)).map (·.job))) (hne : js ≠ []) :
    exec (.restoreBlockFail c u) s = .next (lostRecord c (s.ctl c).logical.toNat u x js s) := by
  subst hjs
  refine congrArg Host.Outcome.next ?_
  simp only [restoreFail, hs, ho, pullSaved]
  exact if_neg hne

end

end

/-! ### The stop records (R228–R232) -/

section
variable {c : Nat} {s : State} {r : StopRec}

theorem stops_of_only {T : List Part} {t : State} (h : only T s t) (hT : Part.fence ∉ T := by simp) :
    t.fence.stops = s.fence.stops := congrArg FenceBlk.stops (kept .fence h hT)

/-- R232: a fence leaves the stop records. -/
theorem fenceCore_stops : (fenceCore c s).fence.stops = s.fence.stops := by
  have hcore := stops_of_only (s := s) (t := campEvent 0x0103 c 0 ((unpend c (returnBalance c s)).onCtl c fun k =>
    { k with st := .wiping, wiping := true, wiped := false })) (T := [.hdrs, .cores, .ctls, .ctx, .host, .glob, .pwr, .evts])
    (by simp) (by simp)
  have hwipe (t : State) : (wipePlanned t).fence.stops = t.fence.stops := stops_of_only (T := [.ctls]) (by simp)
  unfold fenceCore
  dsimp only
  split
  · rfl
  · split
    · exact (hwipe _).trans hcore
    · exact (hwipe _).trans hcore

/-- R229, R231: a re-issue leaves the stop records. -/
theorem reissue_stops (j : PitchJob) : (reissue j s).fence.stops = s.fence.stops := by
  unfold reissue
  dsimp only
  split
  · exact stops_of_only (T := [.reply, .hdrs, .cores, .ctls, .ctx, .host, .glob, .sec, .evts]) (by simp)
  · split
    · exact stops_of_only (T := [.hdrs, .cores, .ctx, .host, .glob, .evts]) (by simp)
    · rfl

/-- R224, R225, R232: the event of a stop record counted against its core, and the fence that is due. -/
def stopCounted (c : Nat) (r : StopRec) (s : State) : State :=
  let t := if r.counted then countCore c r.source s else s
  if (r.counted && coreBad (t.ctl c).events) || (t.ctl c).diodeFault then fenceCore c t else t

/-- R228–R231: what becomes of the pitch of a stop record. -/
def stopDecided (c : Nat) (r : StopRec) (s : State) : State :=
  let st := (s.cx r.job.ctx.val).st
  if r.job.src.isNone then abortJob r.job s
  else if st = .draining ∨ st = .scrubbing ∨ st = .disabled then giveUp r s
  else if 3 ≤ r.job.runs then giveUp r (campEvent 0x0106 c 0 s)
  else reissue r.job s

theorem stopCounted_stops : (stopCounted c r s).fence.stops = s.fence.stops := by
  have hcount : (if r.counted then countCore c r.source s else s).fence.stops = s.fence.stops := by
    split
    · exact stops_of_only (T := [.hdrs, .ctls, .host, .glob, .evts]) (by simp)
    · rfl
  unfold stopCounted
  dsimp only
  generalize (if r.counted then countCore c r.source s else s) = t at hcount ⊢
  split
  · exact fenceCore_stops.trans hcount
  · exact hcount

theorem stopDecided_stops : (stopDecided c r s).fence.stops = s.fence.stops := by
  have hgive (t : State) : (giveUp r t).fence.stops = t.fence.stops :=
    stops_of_only (T := [.reply, .hdrs, .cores, .ctls, .ctx, .host, .glob, .sec, .evts]) (by simp)
  unfold stopDecided
  dsimp only
  split
  · exact stops_of_only (T := [.reply, .hdrs, .host, .glob]) (by simp)
  · split
    · exact hgive s
    · split
      · exact (hgive _).trans (stops_of_only (T := [.hdrs, .host, .glob, .evts]) (by simp))
      · exact reissue_stops _

theorem stopRecord_found (h : s.fence.stops.find? (fun r => r.core == c) = some r) : stopRecord c s =
    stopDecided c r (stopCounted c r (s.onFence fun f => { f with stops := f.stops.erase r })) := by
  simp only [stopRecord, h]
  rfl

theorem stopRecord_stops (h : s.fence.stops.find? (fun r => r.core == c) = some r) :
    (stopRecord c s).fence.stops = s.fence.stops.erase r := by
  rw [stopRecord_found h, stopDecided_stops, stopCounted_stops]
  rfl

end

/-! ### The end of a fence's WIPE (R232, R236) -/

section
variable {s : State}

theorem pendSource_capGen (n : Nat) : (pendSource n s).glob.capGen = s.glob.capGen := by
  unfold pendSource
  dsimp only
  split <;> rfl

theorem raise_capGen (p n : Nat) : (raise p n s).glob.capGen = s.glob.capGen := by
  have hpage (t : State) : (signalPage p t).glob.capGen = t.glob.capGen := by
    unfold signalPage
    split
    · exact pendSource_capGen _
    · split <;> rfl
  unfold raise raiseBits
  dsimp only
  split
  · exact hpage _
  · rfl

theorem capChange_capGen : (capChange s).glob.capGen = s.glob.capGen + 1 := by
  rw [capChange, raise_capGen]
  rfl

end

section
variable {c : CoreId} {s : State}

/-- The storage that a completed WIPE clears; an abandoned one leaves it. -/
def wipedIf (c : Nat) (done : Bool) (s : State) : State := when done (State.onCore c Core.wipe) s

theorem wipedIf_parts (done : Bool) : only [.cores] s (wipedIf c done s) := by
  unfold wipedIf when
  split <;> simp

theorem wipedIf_core (done : Bool) (k : Nat) :
    (wipedIf c done s).core k = if k = c.val ∧ done = true then (s.core c).wipe else s.core k := by
  cases done with
  | true => simpa [wipedIf, when] using core_onCore_ite s c k Core.wipe
  | false => simp [wipedIf, when]

/-- R232: a core whose fence's WIPE is over. -/
def fencedCore (c : Nat) (done : Bool) (s : State) : State :=
  capChange (errPerm (pgCore c) ((wipedIf c done s).onCtl c fun k =>
    { k with st := .fenced, logical := 0xFF, owner := none, wiping := false }))

theorem wipeOver_wiping (done : Bool) (h : (s.ctl c).st = .wiping) : wipeOver c done s = fencedCore c done s := if_pos h

theorem fencedCore_ctl (done : Bool) (k : Nat) : (fencedCore c done s).ctl k = if k = c.val then
    { s.ctl c with st := .fenced, logical := 0xFF, owner := none, wiping := false } else s.ctl k := by
  have hset := ctl_onCtl_ite (wipedIf c done s) c k fun q =>
    { q with st := .fenced, logical := 0xFF, owner := none, wiping := false }
  have hctl (j : Nat) : (wipedIf c done s).ctl j = s.ctl j := ctl_congr j (kept .ctls (wipedIf_parts done))
  rw [fencedCore, ctl_congr k (kept .ctls (T := [.hdrs, .host, .glob]) (s := (wipedIf c done s).onCtl c fun k =>
    { k with st := .fenced, logical := 0xFF, owner := none, wiping := false }) (by simp) (by simp)), hset, hctl, hctl]

theorem fencedCore_core (done : Bool) (k : Nat) :
    (fencedCore c done s).core k = if k = c.val ∧ done = true then (s.core c).wipe else s.core k := by
  rw [fencedCore, core_congr (kept .cores (T := [.hdrs, .ctls, .host, .glob]) (s := wipedIf c done s) (by simp) (by simp)),
    wipedIf_core]

theorem fencedCore_capGen (done : Bool) : (fencedCore c done s).glob.capGen = s.glob.capGen + 1 := by
  rw [fencedCore, capChange_capGen, kept .glob (T := [.hdrs, .ctls]) (s := wipedIf c done s) (by simp) (by simp),
    kept .glob (wipedIf_parts done)]

theorem fencedCore_parts (done : Bool) : only [.hdrs, .cores, .ctls, .host, .glob] s (fencedCore c done s) :=
  only_trans (t := wipedIf c done s) (only_mono (wipedIf_parts done) (by simp)) (by simp [fencedCore])

/-- R236: a reserve core whose WIPE is done. -/
theorem wipeOver_reserve (h : (s.ctl c).st = .reserve) (hw : (s.ctl c).wiping = true) :
    wipeOver c true s = (s.onCore c Core.wipe).onCtl c fun k => { k with wiping := false, wiped := true } := by
  simp [wipeOver, h, hw, when]

theorem wipeOver_none {done : Bool} (h : (s.ctl c).st ≠ .wiping)
    (h' : (s.ctl c).st ≠ .reserve ∨ (s.ctl c).wiping = false ∨ done = false) : wipeOver c done s = s := by
  have hno : (decide ((s.ctl c).st = .reserve) && (s.ctl c).wiping && done) = false := by
    rcases h' with h' | h' | h' <;> simp [h']
  unfold wipeOver
  dsimp only
  rw [if_neg h]
  exact if_neg (by rw [hno]; exact Bool.false_ne_true)

end

end Sys2Proof.Machine

namespace Sys2Proof

open Machine Safety

/-- Settles O47: the slot's tables by their next entry, the switch by its steps, and each record by its rule. -/
theorem slotSwitchAndFenceCommands : Obligations.SlotSwitchAndFenceCommands := by
  refine ⟨⟨fun s => slotBoundary_running, ?_, ?_, fun c s => resume_idle, fun c x s => resume_unpaid, ?_, ?_,
    fun c u s => restoreFail_idle, ?_⟩, ?_, ?_, ?_, ?_, ?_⟩
  · intro s hleft hswap
    have ht := slotBoundary_slots hleft
    rw [hswap, if_neg Bool.false_ne_true] at ht
    obtain ⟨⟨hlive, hshadow⟩, ⟨hcnt, -⟩, hpend, hcur, hent, hnext, hflag⟩ := tables_eq_iff.mp ht
    refine ⟨_, rfl, hlive, hshadow, hcnt, hpend, hflag.trans hswap, ?_, by simp⟩
    rintro i rfl
    exact ⟨hcur, hent, hnext⟩
  · intro s hleft hswap
    have ht := slotBoundary_slots hleft
    rw [hswap, if_pos rfl] at ht
    obtain ⟨⟨hlive, hshadow⟩, ⟨hcnt, hscnt⟩, -, hcur, hent, hnext, hflag⟩ := tables_eq_iff.mp ht
    exact ⟨_, rfl, hlive, hshadow, hcnt, hscnt, hflag, hcur, hent, hnext, by simp⟩
  · intro c s hs hd hw ho
    exact ⟨_, resume_unowned hs hd hw ho, cleared_core, cleared_ctl, cleared_parts⟩
  · intro c x s hs hd hw ho htrip hpin hfree
    have hparts := restored_parts (c := c) (x := x) (l := (s.ctl c).logical.toNat) (s := cleared c (paid x s))
    refine ⟨_, resume_owned hs hd hw ho htrip hpin hfree, ?_, fun k => ?_, fun k => ?_, restored_saved, ?_⟩
    · rw [kept .pwr hparts, kept .pwr (cleared_parts (s := paid x s))]
      rfl
    · have hcx : (cleared c (paid x s)).cx x.val = s.cx x.val :=
        (cx_congr (kept .ctx (cleared_parts (s := paid x s)))).trans (paid_cx _)
      by_cases hk : k = c.val
      · rw [if_pos hk, hk, restored_core, if_pos rfl, hcx, cleared_core, if_pos rfl, paid_core] <;> rfl
      · rw [if_neg hk, restored_core, if_neg hk, cleared_core, if_neg hk, paid_core]
    · rw [ctl_congr k (kept .ctls hparts), cleared_ctl, paid_ctl, paid_ctl]
    · exact only_trans (only_mono paid_parts (by simp))
        (only_trans (only_mono cleared_parts (by simp)) (only_mono hparts (by simp)))
  · intro c u x js s hs ho hjs hne
    exact ⟨_, restoreFail_lost hs ho hjs hne, lostRecord_refetch, lostRecord_stops, lostRecord_saved, lostRecord_parts⟩
  · intro c s h
    exact congrArg Host.Outcome.next (by simp only [stopRecord, h])
  · intro c r s h
    exact ⟨_, rfl, stopRecord_stops h, by simp⟩
  · intro c s i hi h
    obtain ⟨done, hexec, hdone⟩ : ∃ done, exec i s = .next (wipeOver c done s) ∧
        (i = .fenceWipeDone c ↔ done = true) := by
      rcases hi with rfl | rfl
      · exact ⟨true, rfl, by simp⟩
      · exact ⟨false, rfl, by simp⟩
    rw [wipeOver_wiping done h] at hexec
    refine ⟨_, hexec, fencedCore_ctl done, fun k => ?_, fencedCore_capGen done, raise_raised _ _ _, fencedCore_parts done⟩
    rw [fencedCore_core]
    exact if_congr (and_congr Iff.rfl hdone.symm) rfl rfl
  · intro c s h hw
    refine ⟨⟨_, congrArg Host.Outcome.next (wipeOver_reserve h hw), fun k => ctl_onCtl_ite (s.onCore c Core.wipe) c k _,
      fun k => core_onCore_ite s c k _, by simp⟩, congrArg Host.Outcome.next (wipeOver_none ?_ (.inr (.inr rfl)))⟩
    rw [h]
    exact fun hne => by cases hne
  · intro c s h h'
    have hnone (done : Bool) : wipeOver c done s = s := wipeOver_none h (h'.imp_right .inl)
    exact ⟨congrArg Host.Outcome.next (hnone true), congrArg Host.Outcome.next (hnone false)⟩

end Sys2Proof
end

section
/-! The blocks of the mesh, the ends of the copies and the corrected errors of a stack (R151, R155–R162, R166, R169). -/

namespace Sys2Proof.Machine

open Sys2Proof.Safety

/-! ### What a block sent leaves in the mesh (R156) -/

section
variable {s : State}

/-- R156: a channel depends on the retired links alone. -/
theorem channelFor_congr {t : State} (h : t.mesh.links = s.mesh.links) (resp src dst : Nat) :
    channelFor t resp src dst = channelFor s resp src dst := by
  have hopen : routeOpen t = routeOpen s := by
    funext xFirst a b
    simp only [routeOpen, h]
  simp only [channelFor, hopen]

/-- A block in the place of `MeshState.sent`, with the side by which it leaves the router of its source. -/
def sentOn (vc : Nat) (h : MHdr) (payload : List Byte) : Fin 5 × MeshBlk :=
  (Fin.ofNat 5 (exitSide (stopRouter h.src) h.dst vc), { h with vc := vc }.block payload)

/-- The class of a message: requests (types 0 and 2) and responses. -/
def respClass (h : MHdr) : Nat := if h.type = 0 ∨ h.type = 2 then 0 else 1

/-- R156: a message with a channel is the one block that its stop sends. -/
theorem meshSend_of_channel {h : MHdr} {vc : Nat} (payload : List Byte)
    (hvc : channelFor s (respClass h) h.src h.dst = some vc) :
    meshSend h payload s = s.onMesh fun m => { m with sent := [sentOn vc h payload] } := by
  unfold respClass at hvc
  rw [meshSend, hvc]
  rfl

theorem countFailed_mesh : (countFailed s).mesh = { s.mesh with failed := satInc s.mesh.failed } := by
  have hraise : (countFailed s).mesh = (s.onMesh fun m => { m with failed := satInc m.failed }).mesh :=
    kept .mesh (T := [.hdrs, .host, .glob]) (by simp [countFailed])
  exact hraise

theorem meshSend_refetch (h : MHdr) (payload : List Byte) : (meshSend h payload s).mesh.refetch = s.mesh.refetch := by
  unfold meshSend
  split
  · rfl
  · exact countFailed_refetch (s := s.onMesh fun m => { m with noRoute := true })

/-- R160, R161: a block counted as sent again. -/
def resent (s : State) : State := s.onMesh fun m => { m with refetch := satInc m.refetch }

/-- R160, R161: a repeated message is counted, and leaves where a channel is open. -/
theorem meshSend_resent (h : MHdr) (payload : List Byte) :
    (meshSend h payload (resent s)).mesh.refetch = satInc s.mesh.refetch ∧
    ∀ vc, channelFor s (respClass h) h.src h.dst = some vc → only [.mesh] s (meshSend h payload (resent s)) ∧
      (meshSend h payload (resent s)).mesh.sent = [sentOn vc h payload] := by
  refine ⟨meshSend_refetch h payload, fun vc hvc => ?_⟩
  have hopen : channelFor (resent s) (respClass h) h.src h.dst = some vc := (channelFor_congr rfl _ _ _).trans hvc
  rw [meshSend_of_channel payload hopen]
  exact ⟨by simp [resent], rfl⟩

end

/-! ### A router (R156, R159) -/

section
variable {hdr : BitVec 128} {payload : List Byte} {s : State}

/-- R159: a block whose CRC matches is not counted against its link. -/
theorem meshForward_whole {router dir : Nat} (h : crcOk hdr payload = true) : only [.mesh] s (meshForward router dir hdr payload s) := by
  simp [meshForward, h]

/-! ### Read data and negative acknowledgements (R160, R161) -/

theorem countRefetchOk_parts (u : MemUnit) : only [.hdrs, .host, .glob, .evts] s (countRefetchOk u s) := by
  unfold countRefetchOk
  split <;> simp

variable {hop : Option (CoreId × Fin 5)}

/-- What read data that is whole counts before it is answered: a re-fetch that went well (R166, R225). -/
def wholeCounted (h : MHdr) (s : State) : State :=
  match decide (0 < h.attempt), targetPhys h.src h.addr with
  | true, some p => countRefetchOk (unitOf s p) s
  | _, _ => s

theorem wholeCounted_parts (h : MHdr) : only [.hdrs, .host, .glob, .evts] s (wholeCounted h s) := by
  unfold wholeCounted
  split
  · exact countRefetchOk_parts _
  · exact only_refl _ s

theorem wholeCounted_first {h : MHdr} (ha : h.attempt = 0) : wholeCounted h s = s := by
  simp [wholeCounted, ha]

theorem readDataRx_whole (hcrc : crcOk hdr payload = true) (hp : (MHdr.ofBits hdr).poison = false) :
    readDataRx hdr payload hop s =
      (meshSent [] (wholeCounted (MHdr.ofBits hdr) s)).setReply { status := some .ok, bytes := payload } := by
  unfold readDataRx
  dsimp only
  rw [if_pos (by simp [hcrc, hp])]
  rfl

/-- The read request that fetches a block again. -/
def MHdr.refetch (h : MHdr) : MHdr :=
  { h with dst := h.src, src := h.dst, type := 0, len := 0, poison := false, attempt := h.attempt + 1 }

theorem damaged_eq_false (h : crcOk hdr payload = false ∨ (MHdr.ofBits hdr).poison = true) :
    ¬(crcOk hdr payload && !(MHdr.ofBits hdr).poison) = true := by
  rcases h with h | h <;> simp [h]

theorem readDataRx_again (h : crcOk hdr payload = false ∨ (MHdr.ofBits hdr).poison = true)
    (ha : (MHdr.ofBits hdr).attempt < 3) :
    readDataRx hdr payload hop s = meshSend (MHdr.ofBits hdr).refetch [] (resent s) := by
  unfold readDataRx
  dsimp only
  rw [if_neg (damaged_eq_false h), if_pos ha]
  rfl

theorem readDataRx_lost (h : crcOk hdr payload = false ∨ (MHdr.ofBits hdr).poison = true)
    (ha : 3 ≤ (MHdr.ofBits hdr).attempt) : (readDataRx hdr payload hop s).reply.status = some .crc := by
  unfold readDataRx
  dsimp only
  rw [if_neg (damaged_eq_false h), if_neg (Nat.not_lt.mpr ha)]
  rfl

theorem nakRx_again (ha : (MHdr.ofBits hdr).attempt < 3) : nakRx hdr hop s = meshSend
    { MHdr.ofBits hdr with dst := (MHdr.ofBits hdr).src, src := (MHdr.ofBits hdr).dst, type := 2,
                           attempt := (MHdr.ofBits hdr).attempt + 1 } [] (resent s) :=
  if_pos ha

theorem writeFailed_idle {c ctx : Nat} (h : (s.core c).run = none) : writeFailed c ctx s = s := by
  rw [writeFailed, h]

/-- R161: a write that failed after all attempts, at a stop where no pitch runs. -/
theorem nakRx_lost (ha : 3 ≤ (MHdr.ofBits hdr).attempt) (hr : (s.core (MHdr.ofBits hdr).dst).run = none) :
    nakRx hdr none s = meshSent [] (countFailed s) := by
  have hcore : (meshSent [] (countFailed s)).core (MHdr.ofBits hdr).dst = s.core (MHdr.ofBits hdr).dst :=
    core_congr (kept .cores (T := [.hdrs, .mesh, .host, .glob]) (by simp)) _
  unfold nakRx
  dsimp only
  rw [if_neg (Nat.not_lt.mpr ha), writeFailed_idle (by rw [hcore, hr])]

/-! ### Requests at a target (R157, R161) -/

/-- A message back to the sender of a block, from the stop that received it. -/
def MHdr.back (h : MHdr) : MHdr := { h with dst := h.src, src := h.dst }

theorem readRequestRx_whole {p : Phys} (hcrc : crcOk hdr [] = true)
    (hp : targetPhys (MHdr.ofBits hdr).dst (MHdr.ofBits hdr).addr = some p) :
    readRequestRx hdr s = meshSend { (MHdr.ofBits hdr).back with type := 1, poison := physBad s p }
      (memRead (if p.hbm then s.hbm.mem else s.ledge.mem) p.addr (64 * ((MHdr.ofBits hdr).len + 1))) s := by
  simp only [readRequestRx, hcrc, hp, Bool.not_true, Bool.false_eq_true, if_false]
  rfl

theorem readRequestRx_damaged (hcrc : crcOk hdr [] = false) :
    readRequestRx hdr s = meshSend { (MHdr.ofBits hdr).back with type := 4, len := 0 } [] s := by
  unfold readRequestRx
  dsimp only
  rw [if_pos (by simp [hcrc])]
  rfl

theorem writeRx_stored {p : Phys} (hp : targetPhys (MHdr.ofBits hdr).dst (MHdr.ofBits hdr).addr = some p)
    (hcrc : crcOk hdr payload = true) (hbank : p.hbm = true ∨ (fget {} s.ledge.banks (p.addr / 2 ^ 20)).st ≠ 3)
    (hpoison : (MHdr.ofBits hdr).poison = false) :
    writeRx hdr payload s = meshSend { (MHdr.ofBits hdr).back with len := 0, poison := false, type := 3 } []
      (physPut p (payload.take (64 * ((MHdr.ofBits hdr).len + 1))) s) := by
  have hserves : ¬(!crcOk hdr payload || (!p.hbm && (fget {} s.ledge.banks (p.addr / 2 ^ 20)).st == 3)) = true := by
    rcases hbank with h | h
    · simp [hcrc, h]
    · rw [beq_eq_false_iff_ne.mpr h]
      simp [hcrc]
  simp only [writeRx, hp]
  rw [if_neg hserves, if_neg (by simp [hpoison])]
  rfl

theorem writeRx_refused {p : Phys} (hp : targetPhys (MHdr.ofBits hdr).dst (MHdr.ofBits hdr).addr = some p)
    (h : crcOk hdr payload = false ∨ (p.hbm = false ∧ (fget {} s.ledge.banks (p.addr / 2 ^ 20)).st = 3)) :
    writeRx hdr payload s = meshSend { (MHdr.ofBits hdr).back with len := 0, poison := false, type := 4 } [] s := by
  have hrefuses : (!crcOk hdr payload || (!p.hbm && (fget {} s.ledge.banks (p.addr / 2 ^ 20)).st == 3)) = true := by
    rcases h with h | ⟨h, h'⟩
    · simp [h]
    · rw [h, h']
      simp
  simp only [writeRx, hp]
  rw [if_pos hrefuses]
  rfl

end

/-! ### The copies (R151, R169) and the corrected errors (R166) -/

section
variable {s : State}

theorem onBank_bank (g : Nat) (f : LBank → LBank) (k : Nat) : fget {} (onBank g f s).ledge.banks k =
    if k = g then f (fget {} s.ledge.banks g) else fget {} s.ledge.banks k := fget_fput _ _ _ _ _

theorem onPc_pc (q : Nat) (f : PChan → PChan) (k : Nat) : fget {} (onPc q f s).hbm.pcs k =
    if k = q then f (fget {} s.hbm.pcs q) else fget {} s.hbm.pcs k := fget_fput _ _ _ _ _

theorem raise_ledge (p n : Nat) : (raise p n s).ledge = s.ledge := by simp

theorem raise_hbm (p n : Nat) : (raise p n s).hbm = s.hbm := by simp

theorem pgHbm_ne_pgMbox (pc : BitVec 8) : pgHbm (pc.toNat / 32) ≠ pgMbox := by
  have := pc.isLt
  unfold pgHbm pgMbox
  omega

/-- R531: an event clears no bit of any page. -/
theorem raise_stays_raised {q : Nat} {b : Word} (p n : Nat) (h : (s.hdr q).stat &&& b = b) :
    ((raise p n s).hdr q).stat &&& b = b := by
  rw [raise_hdr]
  split
  case isTrue hq =>
    subst hq
    ext i hi
    have hbit : ((s.hdr q).stat[i] && b[i]) = b[i] := by rw [← BitVec.getElem_and, h]
    simp [Bool.and_or_distrib_right, hbit]
  case isFalse => exact h

theorem errPerm_stat (p q : Nat) : ((errPerm p s).hdr q).stat = (s.hdr q).stat := by
  rw [errPerm_hdr]
  split
  case isTrue hq => rw [hq]
  case isFalse => rfl

/-- R167, R170: a retirement leaves the interrupt bits that are set. -/
theorem retirePc_stays_raised {p : Nat} {b : Word} (q : Nat) (hp : p ≠ pgMbox) (h : (s.hdr p).stat &&& b = b) :
    ((retirePc q s).hdr p).stat &&& b = b := by
  have hmarked (t : State) (ht : t.hdrs = s.hdrs) :
      ((campEvent 0x1301 q 0 (raise (pgHbm (q / 32)) 1 (errPerm (pgHbm (q / 32)) t))).hdr p).stat &&& b = b := by
    rw [campEvent_hdr _ _ _ _ _ hp]
    exact raise_stays_raised _ _ (by rw [errPerm_stat, hdr_congr ht, h])
  unfold retirePc
  dsimp only
  split
  · exact h
  · split
    · exact hmarked _ rfl
    · exact hmarked _ rfl

/-- R167: a retirement moves no byte at once. -/
theorem retirePc_mem (q : Nat) : (retirePc q s).hbm.mem = s.hbm.mem := by
  have hmarked (p : Nat) (t : State) : (campEvent 0x1301 q 0 (raise p 1 (errPerm p t))).hbm = t.hbm :=
    kept .hbm (T := [.hdrs, .host, .glob, .evts]) (by simp)
  unfold retirePc
  dsimp only
  split
  · rfl
  · rw [hmarked]
    split <;> rfl

/-- R166: a corrected error that is counted, before it may retire its pseudo-channel. -/
def correctedCounted (q : Nat) (s : State) : State :=
  campEvent 0x1301 q 1 (raise (pgHbm (q / 32)) 0 (errTrans (pgHbm (q / 32))
    (onPc q (fun c => { c with ceTs := pushTs 31 s.env.ts c.ceTs }) s)))

theorem countPcCorrected_eq (q : Nat) : countPcCorrected q s = correctedCounted q s ∨
    countPcCorrected q s = retirePc q (correctedCounted q s) := by
  unfold countPcCorrected
  dsimp only
  split
  · exact .inr rfl
  · exact .inl rfl

theorem correctedCounted_mem (q : Nat) : (correctedCounted q s).hbm.mem = s.hbm.mem := by
  have hcounted : (correctedCounted q s).hbm = (onPc q (fun c => { c with ceTs := pushTs 31 s.env.ts c.ceTs }) s).hbm :=
    kept .hbm (T := [.hdrs, .host, .glob, .evts]) (by simp [correctedCounted])
  rw [hcounted]
  rfl

theorem countPcCorrected_mem (q : Nat) : (countPcCorrected q s).hbm.mem = s.hbm.mem := by
  rcases countPcCorrected_eq (s := s) q with h | h
  · rw [h, correctedCounted_mem]
  · rw [h, retirePc_mem, correctedCounted_mem]

theorem countPcCorrected_raised (pc : BitVec 8) :
    ((countPcCorrected pc.toNat s).hdr (pgHbm (pc.toNat / 32))).stat &&& bitMask 0 = bitMask 0 := by
  have hcounted : ((correctedCounted pc.toNat s).hdr (pgHbm (pc.toNat / 32))).stat &&& bitMask 0 = bitMask 0 := by
    rw [correctedCounted, campEvent_hdr _ _ _ _ _ (pgHbm_ne_pgMbox pc)]
    exact raise_raised _ _ _
  rcases countPcCorrected_eq (s := s) pc.toNat with h | h
  · rw [h]
    exact hcounted
  · rw [h]
    exact retirePc_stays_raised _ (pgHbm_ne_pgMbox pc) hcounted

end

end Sys2Proof.Machine

namespace Sys2Proof

open Machine Safety

/-- Settles O55: each command by the branch that its block or its unit takes, each message by its channel. -/
theorem meshCommands : Obligations.MeshCommands := by
  refine ⟨?_, ?_, ?_, ?_, ?_, ?_, ?_, ?_⟩
  · intro router dir hdr payload s
    exact ⟨_, rfl, rfl, meshForward_whole, by simp⟩
  · intro hdr payload hop s
    refine ⟨fun hcrc hp => ?_, fun h ha => ?_, fun h ha => ⟨_, rfl, readDataRx_lost h ha, by simp⟩⟩
    · have hcores : (wholeCounted (MHdr.ofBits hdr) s).cores = s.cores := kept .cores (wholeCounted_parts _)
      refine ⟨_, congrArg Host.Outcome.next (readDataRx_whole hcrc hp), rfl, rfl, hcores, ?_⟩
      intro ha
      rw [wholeCounted_first ha]
      simp
    · exact ⟨_, congrArg Host.Outcome.next (readDataRx_again h ha), meshSend_resent _ _⟩
  · intro hdr s
    refine ⟨fun p vc hcrc hp hvc => ?_, fun vc hcrc hvc => ?_⟩
    · refine ⟨_, congrArg Host.Outcome.next
        ((readRequestRx_whole hcrc hp).trans (meshSend_of_channel (vc := vc) _ hvc)), by simp, rfl⟩
    · refine ⟨_, congrArg Host.Outcome.next
        ((readRequestRx_damaged hcrc).trans (meshSend_of_channel (vc := vc) _ hvc)), by simp, rfl⟩
  · intro hdr payload p vc s hp hvc
    refine ⟨fun hcrc hbank hpoison => ?_, fun h => ?_⟩
    · have hmesh : (physPut p (payload.take (64 * ((MHdr.ofBits hdr).len + 1))) s).mesh = s.mesh :=
        kept .mesh (T := [.ledge, .hbm]) (by simp)
      exact ⟨_, congrArg Host.Outcome.next ((writeRx_stored hp hcrc hbank hpoison).trans
        (meshSend_of_channel (vc := vc) _ ((channelFor_congr (by rw [hmesh]) _ _ _).trans hvc))), by simp, rfl, rfl, rfl⟩
    · exact ⟨_, congrArg Host.Outcome.next
        ((writeRx_refused hp h).trans (meshSend_of_channel (vc := vc) _ hvc)), by simp, rfl⟩
  · intro hdr s
    cases hcrc : crcOk hdr [] with
    | true => exact ⟨_, congrArg Host.Outcome.next (if_pos hcrc), rfl, fun _ => rfl, by simp, by simp⟩
    | false => exact ⟨_, congrArg Host.Outcome.next (if_neg (by simp [hcrc])), rfl, by simp, fun _ => rfl, by simp⟩
  · intro hdr hop s
    refine ⟨fun ha => ⟨_, congrArg Host.Outcome.next (nakRx_again ha), meshSend_resent _ _⟩, ?_⟩
    rintro ha hr rfl
    refine ⟨_, congrArg Host.Outcome.next (nakRx_lost ha hr), ?_, raise_raised pgMesh 2 _, by simp⟩
    exact congrArg (fun m : MeshState => { m with sent := [] }) countFailed_mesh
  · intro g s
    refine ⟨fun h => ?_, fun h => congrArg Host.Outcome.next (if_neg h)⟩
    refine ⟨_, congrArg Host.Outcome.next (if_pos h), fun k => ?_, ?_, raise_raised _ _ _, by simp⟩
    · rw [raise_ledge, onBank_bank]
    · rw [raise_ledge]
      rfl
  · intro pc s
    refine ⟨fun h => ?_, fun h => congrArg Host.Outcome.next (if_neg h),
      fun h => congrArg Host.Outcome.next (if_neg (Nat.not_lt.mpr h)), fun h => ?_⟩
    · refine ⟨_, congrArg Host.Outcome.next (if_pos h), fun k hk => ?_, ?_, ?_, raise_raised _ _ _, by simp⟩
      · rw [raise_hbm, onPc_pc, if_neg hk]
      · rw [raise_hbm, onPc_pc, if_pos rfl]
      · rw [raise_hbm]
        rfl
    · exact ⟨_, congrArg Host.Outcome.next (if_pos h), countPcCorrected_mem _, countPcCorrected_raised pc, by simp⟩

end Sys2Proof
end

section
/-! The submission commands (R111, R181, R187, R210, R211, R304): how a context's state admits them, and what each
answers. -/

-- The declarations above are checked before this section's, which bounds how many threads one compile of the text holds.
set_option Elab.async false

namespace Sys2Proof.Machine

open Sys2Proof.Safety

/-! ### The context of a command (R187, R306) -/

section
variable {src : CmdSrc} {x : CtxId} {act : CtxId → State → State} {o : Res} {s : State}

/-- R184: the context of a virtual function. -/
theorem ctxOf_fn (hx : src.fn.val = x.val + 1) : (Fin.ofNat 16 (src.fn.val - 1) : CtxId) = x := by
  apply Fin.ext
  simp [hx]

/-- A command of the physical function, or of a context that takes none (R187). -/
def unadmitted (s : State) (src : CmdSrc) (x : CtxId) : Prop :=
  src.fn.val = 0 ∨ (src.fn.val = x.val + 1 ∧ ((s.cx x.val).st = .disabled ∨ (s.cx x.val).st = .draining))

theorem forContext_denied (h : unadmitted s src x) : forContext src act s = finishGeneric src .denied 0 s := by
  rcases h with hpf | ⟨hx, hst⟩
  · exact if_pos hpf
  · rw [forContext, if_neg (by omega), ctxOf_fn hx]
    rcases hst with hst | hst <;> simp only [hst]

theorem forContext_scrubbing (hx : src.fn.val = x.val + 1) (hst : (s.cx x.val).st = .scrubbing) :
    forContext src act s = finishGeneric src .scrubbing 0 s := by
  rw [forContext, if_neg (by omega), ctxOf_fn hx]
  simp only [hst]

theorem finishGeneric_ctx (st : Status) (v : Nat) : (finishGeneric src st v s).ctx = s.ctx := by simp

/-- R307: what a command that completes with the generic record leaves. -/
theorem exists_next_completed {st : Status} {v : Nat} (h : o = .next (finishGeneric src st v s)) :
    ∃ t, o = .next t ∧ completed s t src st v ∧ only [.reply, .hdrs, .host, .glob] s t :=
  ⟨_, h, finishGeneric_completed st v, by simp⟩

/-- R187: the answers to a command of a context that takes none. -/
theorem exists_next_unadmitted {c : Instr} (h : ∃ act, exec c s = .next (forContext src act s)) :
    (unadmitted s src x →
      ∃ t, exec c s = .next t ∧ completed s t src .denied 0 ∧ only [.reply, .hdrs, .host, .glob] s t) ∧
    (src.fn.val = x.val + 1 → (s.cx x.val).st = .scrubbing →
      ∃ t, exec c s = .next t ∧ completed s t src .scrubbing 0 ∧ only [.reply, .hdrs, .host, .glob] s t) := by
  obtain ⟨act, hact⟩ := h
  refine ⟨fun hno => exists_next_completed ?_, fun hx hst => exists_next_completed ?_⟩
  · rw [hact, forContext_denied hno]
  · rw [hact, forContext_scrubbing hx hst]

end

/-! ### PITCH (R111) -/

section
variable {src : CmdSrc} {x : CtxId} {lcore : Byte} {desc : DWord} {o : Res} {s : State}

theorem pitchCmd_denied (h : unadmitted s src x) : ∃ y, pitchCmd src lcore desc s = refusePitch src .denied lcore 0 y s := by
  rcases h with hpf | ⟨hx, hst⟩
  · exact ⟨0, if_pos hpf⟩
  · refine ⟨x.val, ?_⟩
    rw [pitchCmd, if_neg (by omega), ctxOf_fn hx]
    rcases hst with hst | hst <;> simp only [hst]

theorem pitchCmd_scrubbing (hx : src.fn.val = x.val + 1) (hst : (s.cx x.val).st = .scrubbing) :
    pitchCmd src lcore desc s = refusePitch src .scrubbing lcore 0 x.val s := by
  rw [pitchCmd, if_neg (by omega), ctxOf_fn hx]
  simp only [hst]

theorem pitchCmd_enabled (hx : src.fn.val = x.val + 1) (hst : (s.cx x.val).st = .enabled) :
    pitchCmd src lcore desc s = submitPitch src x lcore desc s := by
  rw [pitchCmd, if_neg (by omega), ctxOf_fn hx]
  simp only [hst]

/-- R194: a pitch for a logical core outside its context's rope team. -/
theorem submitPitch_offTeam (h : s.fence.logicalCount ≤ lcore.toNat ∨ (s.cx x.val).team.getLsbD lcore.toNat = false) :
    submitPitch src x lcore desc s = refusePitch src .denied lcore 0 x.val s :=
  if_pos (by simpa using h)

/-- R111: a pitch that passes every check joins its context's queue. -/
theorem submitPitch_queued {bs : List Byte} (hcore : lcore.toNat < s.fence.logicalCount)
    (hteam : (s.cx x.val).team.getLsbD lcore.toNat = true) (hseal : (s.sx x.val).sealedCtx = false)
    (hga : gaOk desc = true) (hin : inPartition (s.cx x.val) (gaSpace desc) (gaOff desc) 128 = true)
    (hread : gaRead s x.val desc 128 = some bs) (hdesc : descRefusal s x.val bs (PitchDesc.ofBytes bs) = none) :
    submitPitch src x lcore desc s = s.onCx x.val (fun c => { c with
      queue := c.queue ++ [{ desc := PitchDesc.ofBytes bs, ctx := x, lcore := lcore, src := some src }] }) := by
  unfold submitPitch
  dsimp only
  rw [if_neg (by simp [hteam, hcore]), if_neg (by simp [hseal]), if_neg (by simp [hga]), if_neg (by simp [hin])]
  simp only [hread, hdesc]

/-- R569: what a refused pitch leaves. -/
theorem exists_next_refusePitch {st : Status} {y : Nat} (h : o = .next (refusePitch src st lcore 0 y s)) :
    ∃ t, o = .next t ∧ t.reply.status = some st ∧ only [.reply, .hdrs, .host, .glob] s t :=
  ⟨_, h, rfl, by simp⟩

theorem exists_next_onCx {f : Ctx → Ctx} {n : Nat} (h : o = .next (s.onCx n f)) :
    ∃ t, o = .next t ∧ (∀ y, t.cx y = if y = n then f (s.cx n) else s.cx y) ∧ only [.ctx] s t :=
  ⟨_, h, fun y => cx_onCx s n y f, by simp⟩

end

/-! ### BIND and UNBIND (R210, R211) -/

section
variable {src : CmdSrc} {x : CtxId} {slot : Nat} {s : State}

theorem submitBind_bound {i : Nat} (hfree : (List.range 256).find? (fun i => (fget {} s.ctx.sqs i).ctx.isNone) = some i)
    (hquota : usedSlots s x < (s.cx x.val).quota.toNat) : submitBind src x s =
      finishGeneric src .ok i (s.onCtxBlk (fun b => { b with sqs := fput {} i ⟨some x, false⟩ b.sqs })) := by
  simp only [submitBind, hfree, if_neg (Nat.not_le.mpr hquota)]

theorem submitBind_denied (h : (List.range 256).find? (fun i => (fget {} s.ctx.sqs i).ctx.isNone) = none ∨
    (s.cx x.val).quota.toNat ≤ usedSlots s x) : submitBind src x s = finishGeneric src .denied 0 s := by
  unfold submitBind
  split
  · rfl
  case h_2 i hfree =>
    rcases h with hnone | hquota
    · rw [hfree] at hnone
      cases hnone
    · exact if_pos hquota

theorem submitUnbind_released (hslot : slot < 256) (hown : fget {} s.ctx.sqs slot = ⟨some x, false⟩) :
    submitUnbind src x slot s =
      finishGeneric src .ok 0 (s.onCtxBlk (fun b => { b with sqs := fput {} slot ⟨some x, true⟩ b.sqs })) := by
  refine if_neg ?_
  rw [not_or, not_not]
  exact ⟨by omega, hown⟩

theorem submitUnbind_denied (h : 256 ≤ slot ∨ fget {} s.ctx.sqs slot ≠ ⟨some x, false⟩) :
    submitUnbind src x slot s = finishGeneric src .denied 0 s :=
  if_pos h

theorem exec_bind (hx : src.fn.val = x.val + 1) (hst : (s.cx x.val).st = .enabled) :
    exec (.bind src) s = .next (submitBind src x s) :=
  congrArg Host.Outcome.next (fc_eq hx hst)

theorem exec_unbind {n : BitVec 16} (hx : src.fn.val = x.val + 1) (hst : (s.cx x.val).st = .enabled) :
    exec (.unbind src n) s = .next (submitUnbind src x n.toNat s) :=
  congrArg Host.Outcome.next (fc_eq hx hst)

/-- A command that changes the sequence slots and completes. -/
theorem exists_next_slots {o : Res} {st : Status} {v : Nat} {sqs : CtxBlk → FMap SeqSlot}
    (h : o = .next (finishGeneric src st v (s.onCtxBlk (fun b => { b with sqs := sqs b })))) :
    ∃ t, o = .next t ∧ completed s t src st v ∧ t.ctx = { s.ctx with sqs := sqs s.ctx } ∧
      only [.reply, .hdrs, .ctx, .host, .glob] s t :=
  ⟨_, h, finishGeneric_completed (s := s.onCtxBlk _) st v, finishGeneric_ctx _ _, by simp⟩

end

/-! ### NOP (R304) -/

section
variable {src : CmdSrc} {s : State}

/-- A NOP among the open commands and the waiting NOPs of its ring (R304). -/
def nopEntered (src : CmdSrc) (s : State) : State :=
  (s.onSq src.fn.val src.sq.val (fun q =>
    if q.inFlight.contains src.index then q else { q with inFlight := q.inFlight ++ [src.index] })).onFn src.fn.val
      (fun h => { h with nops := h.nops ++ [src] })

theorem nopWait_eq : nopWait src s =
    drainNops ((nopEntered src s).fn src.fn.val).nops.length src.fn.val src.sq.val (nopEntered src s) := rfl

theorem nopEntered_fn : (nopEntered src s).fn src.fn.val = { s.fn src.fn.val with
    sqs := ((nopEntered src s).fn src.fn.val).sqs, nops := (s.fn src.fn.val).nops ++ [src] } := by
  rw [nopEntered, fn_onFn, if_pos rfl, State.onSq, fn_onFn, if_pos rfl]

theorem nopEntered_nops (h : (s.fn src.fn.val).nops = []) : ((nopEntered src s).fn src.fn.val).nops = [src] := by
  rw [nopEntered_fn, h]
  rfl

theorem nopEntered_hold : ((nopEntered src s).fn src.fn.val).hold = (s.fn src.fn.val).hold := by
  rw [nopEntered_fn]

theorem nopEntered_inFlight : ((nopEntered src s).sq src.fn.val src.sq.val).inFlight =
    if (s.sq src.fn.val src.sq.val).inFlight.contains src.index then (s.sq src.fn.val src.sq.val).inFlight
    else (s.sq src.fn.val src.sq.val).inFlight ++ [src.index] := by
  have hsq : (nopEntered src s).sq src.fn.val src.sq.val = (s.onSq src.fn.val src.sq.val (fun q =>
      if q.inFlight.contains src.index then q else { q with inFlight := q.inFlight ++ [src.index] })).sq
        src.fn.val src.sq.val := by
    rw [sq_eq, nopEntered, fn_onFn, if_pos rfl]
    rfl
  rw [hsq, sq_onSq, if_pos ⟨rfl, rfl⟩]
  split <;> rfl

theorem exec_nop_pf (hpf : src.fn.val = 0) : exec (.nop src) s = .next (nopWait src s) :=
  congrArg Host.Outcome.next (if_pos hpf)

/-- R304: a NOP at the head of its ring completes at once. -/
theorem nopWait_first (hnops : (s.fn src.fn.val).nops = []) (hopen : (s.sq src.fn.val src.sq.val).inFlight = []) :
    nopWait src s = closeCmd src 2 (genericRec .ok 0 s)
      ((nopEntered src s).onFn src.fn.val (fun h => { h with nops := h.nops.filter (fun d => !(d == src)) })) := by
  have hhead : ((nopEntered src s).sq src.fn.val src.sq.val).inFlight = [src.index] := by
    rw [nopEntered_inFlight, hopen]
    rfl
  rw [nopWait_eq, nopEntered_nops hnops, List.length_singleton, drainNops]
  simp only [hhead, nopEntered_nops hnops, List.find?_cons, beq_self_eq_true, Bool.and_self]
  rfl

/-- R304: a NOP behind another open command waits. -/
theorem nopWait_behind {k : BitVec 16} {ks : List (BitVec 16)} (hnops : (s.fn src.fn.val).nops = [])
    (hopen : (s.sq src.fn.val src.sq.val).inFlight = k :: ks) (hk : k ≠ src.index) : nopWait src s = nopEntered src s := by
  obtain ⟨ks', hhead⟩ : ∃ ks', ((nopEntered src s).sq src.fn.val src.sq.val).inFlight = k :: ks' := by
    rw [nopEntered_inFlight, hopen]
    split
    · exact ⟨_, rfl⟩
    · exact ⟨_, rfl⟩
  rw [nopWait_eq, nopEntered_nops hnops, List.length_singleton, drainNops]
  simp [hhead, nopEntered_nops hnops, hk.symm]

/-- R307: the records of the physical function speak of no ring. -/
theorem recordFor_pf (h : src.fn.val = 0) (kind : Nat) (bytes : List Byte) (t : State) :
    recordFor src kind bytes t = recordFor src kind bytes s := by
  simp only [recordFor, h, if_true]

/-- R304, R307: the completion of a NOP of the physical function. -/
theorem nopWait_first_fn (hpf : src.fn.val = 0) (hnops : (s.fn src.fn.val).nops = [])
    (hopen : (s.sq src.fn.val src.sq.val).inFlight = []) :
    ((nopWait src s).fn src.fn.val).hold = (s.fn src.fn.val).hold ++ [recordFor src 2 (genericRec .ok 0 s) s] ∧
    ((nopWait src s).fn src.fn.val).nops = [] := by
  rw [nopWait_first hnops hopen]
  obtain ⟨fn, hfn, hhold, hnone⟩ := closeCmd_fn (src := src) (s := (nopEntered src s).onFn src.fn.val
    (fun h => { h with nops := h.nops.filter (fun d => !(d == src)) })) 2 (genericRec .ok 0 s)
  rw [fn_onFn, if_pos rfl] at hhold hnone
  rw [recordFor_pf hpf (s := s)] at hhold
  rw [hfn, hhold, hnone]
  simp [nopEntered_hold, nopEntered_nops hnops]

end

/-! ### CTXRD and CTXWR (R304, R306) -/

section
variable {src : CmdSrc} {ctx : Byte} {off : BitVec 16} {v : Word} {s : State}

theorem ctxOperandsOk_iff (c o : Nat) : ctxOperandsOk src c o = true ↔
    src.fn.val = 0 ∧ c < 16 ∧ o % 4 = 0 ∧ o < 0x1000 := by
  simp [ctxOperandsOk, and_assoc]

/-- R185, R222: a refusal is written to CTX_REFUSE, and to nothing else of the contexts. -/
theorem refuseWrite_ctx (x r : Nat) :
    (refuseWrite x r s).ctx = { s.ctx with refReason := BitVec.ofNat 4 r, refCtx := BitVec.ofNat 4 x } := by
  have hraise (t : State) : (raise pgCtx 5 t).ctx = t.ctx := by simp
  exact hraise _

theorem ctxwrCmd_refused {x o r : Nat} (h : ctxwrRefusal s x o v = some r) :
    ctxwrCmd src x o v s = finishGeneric src .denied 0 (refuseWrite x r s) := by
  rw [ctxwrCmd, h]

theorem ctxAccess_denied (h : src.fn.val ≠ 0 ∨ 16 ≤ ctx.toNat ∨ off.toNat % 4 ≠ 0 ∨ 0x1000 ≤ off.toNat) :
    ∀ c ∈ [Instr.ctxrd src ctx off, .ctxwr src ctx off v], exec c s = .next (finishGeneric src .denied 0 s) := by
  have hbad : ctxOperandsOk src ctx.toNat off.toNat = false := by
    rw [← Bool.not_eq_true, ctxOperandsOk_iff]
    omega
  simp only [List.forall_mem_cons, List.not_mem_nil, false_implies, implies_true, and_true]
  exact ⟨congrArg Host.Outcome.next (if_pos (by rw [hbad]; rfl)),
    congrArg Host.Outcome.next (if_pos (by rw [hbad]; rfl))⟩

theorem ctxrdCmd_register {c o : Nat} (h : ctxOperandsOk src c o = true) (ho : 0x040 ≤ o) :
    ctxrdCmd src c o s = finishGeneric src .ok (ctxRegs s c o) s := by
  rw [ctxrdCmd, h, Bool.not_true, if_neg (by decide), if_neg (by omega)]

theorem exec_ctxwr {c : Byte} (h : ctxOperandsOk src c.toNat off.toNat = true) :
    exec (.ctxwr src c off v) s = .next (ctxwrCmd src c.toNat off.toNat v s) :=
  congrArg Host.Outcome.next (if_neg (by rw [h]; decide))

end

end Sys2Proof.Machine

namespace Sys2Proof

open Machine Safety

/-- Settles O39: a context's state admits each command or answers it, and an admitted one answers by its own checks. -/
theorem submissionCommands : Obligations.SubmissionCommands := by
  refine ⟨⟨?_, ?_, ?_⟩, ?_, ?_, ?_, ?_, ?_, ?_, ?_, ?_⟩
  · intro src x bs op rank slot a b d w w2 tb s c hc
    refine exists_next_unadmitted ?_
    revert c
    simp only [List.forall_mem_cons, List.not_mem_nil, false_implies, implies_true, and_true]
    exact ⟨⟨_, rfl⟩, ⟨_, rfl⟩, ⟨_, rfl⟩, ⟨_, rfl⟩, ⟨_, rfl⟩, ⟨_, rfl⟩, ⟨_, rfl⟩, ⟨_, rfl⟩, ⟨_, rfl⟩⟩
  · intro src x first count st target s c hc hx
    have hvf : src.fn.val ≠ 0 := by omega
    have hact : ∃ act, exec c s = .next (forContext src act s) := by
      revert c
      simp only [List.forall_mem_cons, List.not_mem_nil, false_implies, implies_true, and_true]
      exact ⟨⟨_, congrArg Host.Outcome.next (if_neg hvf)⟩, ⟨_, congrArg Host.Outcome.next (if_neg hvf)⟩⟩
    obtain ⟨hdenied, hscrub⟩ := exists_next_unadmitted (x := x) hact
    exact ⟨fun hst => hdenied (.inr ⟨hx, hst⟩), hscrub hx⟩
  · intro src x lcore desc s
    refine ⟨fun hno => ?_, fun hx hst => ?_, fun hx hst hoff => ?_, fun bs hx hst hcore hteam hseal hga hin hread hdesc => ?_⟩
    · obtain ⟨y, hy⟩ := pitchCmd_denied (lcore := lcore) (desc := desc) hno
      exact exists_next_refusePitch (congrArg Host.Outcome.next hy)
    · exact exists_next_refusePitch (congrArg Host.Outcome.next (pitchCmd_scrubbing hx hst))
    · exact exists_next_refusePitch (congrArg Host.Outcome.next ((pitchCmd_enabled hx hst).trans (submitPitch_offTeam hoff)))
    · exact exists_next_onCx (congrArg Host.Outcome.next ((pitchCmd_enabled hx hst).trans
        (submitPitch_queued hcore hteam hseal hga hin hread hdesc)))
  · intro src x hbm ledge s hx hst
    exact exists_next_completed (congrArg Host.Outcome.next (fc_eq hx hst))
  · intro src x s hx hst
    refine ⟨fun i hfree hquota => ?_, fun hno => ?_⟩
    · exact exists_next_slots ((exec_bind hx hst).trans (congrArg _ (submitBind_bound hfree hquota)))
    · exact exists_next_completed ((exec_bind hx hst).trans (congrArg _ (submitBind_denied hno)))
  · intro src x slot s hx hst
    refine ⟨fun hslot hown => ?_, fun hno => ?_⟩
    · exact exists_next_slots ((exec_unbind hx hst).trans (congrArg _ (submitUnbind_released hslot hown)))
    · exact exists_next_completed ((exec_unbind hx hst).trans (congrArg _ (submitUnbind_denied hno)))
  · intro src s hpf hnops hopen
    rw [← hpf] at hnops hopen
    obtain ⟨hhold, hnone⟩ := nopWait_first_fn hpf hnops hopen
    rw [hpf] at hhold hnone
    exact ⟨_, exec_nop_pf hpf, hhold, hnone, by simp⟩
  · intro src k ks s hpf hnops hopen hk
    rw [← hpf] at hnops hopen ⊢
    exact ⟨_, (exec_nop_pf hpf).trans (congrArg Host.Outcome.next (nopWait_behind hnops hopen hk)), nopEntered_hold,
      nopEntered_nops hnops, by simp [nopEntered]⟩
  · intro src ctx off v s h c hc
    exact exists_next_completed (ctxAccess_denied h c hc)
  · intro src ctx off s hpf hctx hoff hlow hhigh
    exact exists_next_completed (congrArg Host.Outcome.next
      (ctxrdCmd_register ((ctxOperandsOk_iff _ _).mpr ⟨hpf, hctx, hoff, hhigh⟩) hlow))
  · intro src ctx off v r s hpf hctx hoff hhigh hr
    have href := (finishGeneric_ctx (src := src) .denied 0).trans (refuseWrite_ctx (s := s) ctx.toNat r)
    exact ⟨_, (exec_ctxwr ((ctxOperandsOk_iff _ _).mpr ⟨hpf, hctx, hoff, hhigh⟩)).trans
      (congrArg Host.Outcome.next (ctxwrCmd_refused hr)), rfl, by rw [href], by rw [href], by rw [href], by simp⟩

end Sys2Proof
end

section
/-! The configuration writes of the contexts (R185, R186, R191, R192, R195, R198–R200, R212): their refusals, and what a
write that nothing refuses takes. -/

namespace Sys2Proof.Machine

open Sys2Proof.Safety

section
variable {x : CtxId} {v : Word} {s : State}

/-! ### Refusals (R185, R222) -/

/-- R185, R222: what a refused write leaves. -/
theorem exists_next_refuseWrite {o : Res} {y r : Nat} (h : o = .next (refuseWrite y r s)) :
    ∃ t, o = .next t ∧ t.ctx = { s.ctx with refReason := BitVec.ofNat 4 r, refCtx := BitVec.ofNat 4 y } ∧
      (t.hdr pgCtx).stat = (s.hdr pgCtx).stat ||| bitMask 5 ∧ only [.hdrs, .ctx, .host, .glob] s t := by
  refine ⟨_, h, refuseWrite_ctx y r, ?_, by simp⟩
  rw [refuseWrite, raise_hdr, if_pos rfl]
  rfl

theorem writeChecked_refused {y r : Nat} {why : Option Nat} {take : State → State} (h : why = some r) :
    writeChecked y why take s = refuseWrite y r s := by
  rw [h, writeChecked]

theorem writeChecked_taken {y : Nat} {why : Option Nat} {take : State → State} (h : why = none) :
    writeChecked y why take s = take s := by
  rw [h, writeChecked]

/-! ### What refuses a write (R185, R191, R192, R199, R212) -/

/-- R185: the fields that are closed while their context is not DISABLED. -/
theorem partitionRefusal_busy (h : (s.cx x.val).st ≠ .disabled) : ∀ off ∈ [0x04C, 0x058, 0x05C, 0x064],
    partitionRefusal s x.val off v = some 4 := by
  simp [partitionRefusal, h]

theorem teamRefusal_clash {y : Nat} {t : BitVec 192}
    (h : ∃ m ∈ allMasks s, maskClash (fun z => if z = y then t else (s.cx z).teamNow) m = true) :
    teamRefusal s y t = some 1 :=
  if_pos (List.any_eq_true.mpr h)

theorem teamRefusal_none {y : Nat} {t : BitVec 192}
    (h : ∀ m ∈ allMasks s, maskClash (fun z => if z = y then t else (s.cx z).teamNow) m = false) :
    teamRefusal s y t = none :=
  if_neg (by rw [List.any_eq_true]; rintro ⟨m, hm, hclash⟩; rw [h m hm] at hclash; cases hclash)

/-- R191: the fields of a written slot-table entry. -/
theorem ofWord_eq : SlotEnt.ofWord v = { mask := v.setWidth 16, len := BitVec.ofNat 16 (v.toNat / 65536) } := by
  rw [SlotEnt.ofWord, BitVec.ofNat_toNat]

theorem ofWord_len : (SlotEnt.ofWord v).len.toNat = v.toNat / 65536 := by
  have hv := v.isLt
  rw [ofWord_eq, BitVec.toNat_ofNat]
  omega

theorem entryRefusal_eq : entryRefusal s v = if maskClash (fun z => (s.cx z).teamNow) (v.setWidth 16) = true then some 1
    else if v.toNat / 65536 < 5 then some 5 else none := by
  rw [entryRefusal, ofWord_len, ofWord_eq]

theorem entryRefusal_clash (h : maskClash (fun z => (s.cx z).teamNow) (v.setWidth 16) = true) :
    entryRefusal s v = some 1 := by
  rw [entryRefusal_eq, if_pos h]

theorem entryRefusal_short (h : maskClash (fun z => (s.cx z).teamNow) (v.setWidth 16) = false)
    (hlen : v.toNat / 65536 < 5) : entryRefusal s v = some 5 := by
  rw [entryRefusal_eq, if_neg (by simp [h]), if_pos hlen]

theorem entryRefusal_none (h : maskClash (fun z => (s.cx z).teamNow) (v.setWidth 16) = false)
    (hlen : 5 ≤ v.toNat / 65536) : entryRefusal s v = none := by
  rw [entryRefusal_eq, if_neg (by simp [h]), if_neg (Nat.not_lt.mpr hlen)]

/-- R199: the two counts lie within 1 to 64. -/
def countsOk (v : Word) : Prop :=
  1 ≤ v.toNat % 128 ∧ v.toNat % 128 ≤ 64 ∧ 1 ≤ v.toNat / 65536 % 128 ∧ v.toNat / 65536 % 128 ≤ 64

theorem fields_in_range_iff : (decide (1 ≤ fld v.toNat 0 7 ∧ fld v.toNat 0 7 ≤ 64) &&
    decide (1 ≤ fld v.toNat 16 7 ∧ fld v.toNat 16 7 ≤ 64)) = true ↔ countsOk v := by
  have hlive : fld v.toNat 0 7 = v.toNat % 128 := by simp [fld]
  have hshadow : fld v.toNat 16 7 = v.toNat / 65536 % 128 := rfl
  rw [Bool.and_eq_true, decide_eq_true_iff, decide_eq_true_iff, hlive, hshadow, countsOk, and_assoc]

theorem countRefusal_bad (h : ¬ countsOk v) : countRefusal v = some 9 :=
  if_neg (mt fields_in_range_iff.mp h)

theorem countRefusal_none (h : countsOk v) : countRefusal v = none :=
  if_pos (fields_in_range_iff.mpr h)

/-! ### The commands -/

/-- R192: an entry of either table is checked alike. -/
theorem exec_slotWrite {k : Fin 64} {c : Instr} (hc : c = .ctxSlotLiveWrite k v ∨ c = .ctxSlotShadowWrite k v) :
    ∃ take, exec c s = .next (writeChecked s.ctx.sel.toNat (entryRefusal s v) take s) := by
  rcases hc with rfl | rfl
  · exact ⟨_, rfl⟩
  · exact ⟨_, rfl⟩

theorem slotWrite_refused {k : Fin 64} {c : Instr} {r : Nat}
    (hc : c = .ctxSlotLiveWrite k v ∨ c = .ctxSlotShadowWrite k v) (h : entryRefusal s v = some r) :
    exec c s = .next (refuseWrite s.ctx.sel.toNat r s) := by
  obtain ⟨take, hexec⟩ := exec_slotWrite (s := s) hc
  rw [hexec, writeChecked_refused h]

/-- R185, R186: the field of a partition that a write takes. -/
theorem partitionTake_eq {y off : Nat} : partitionTake y off v s = s.onCx y (fun c =>
    if off = 0x04C then { c with hbmBase := v.setWidth 13, hbmSize := BitVec.ofNat 13 (v.toNat / 65536) }
    else if off = 0x050 then { c with lmapIdx := v.setWidth 11 }
    else if off = 0x054 then { c with lmapPend := fput none c.lmapIdx.toNat (some (lmapVal v)) c.lmapPend }
    else if off = 0x058 then { c with saveEntry := v.setWidth 11, savev := v.getLsbD 31 }
    else if off = 0x05C then { c with quota := v.setWidth 9 }
    else if off = 0x060 then { c with capPend := some (v.setWidth 16) }
    else if off = 0x064 then { c with ports := v.setWidth 16 }
    else if off = 0x068 then { c with prioPend := some (v.setWidth 3) }
    else c) := by
  simp only [partitionTake, BitVec.ofNat_toNat]

end

end Sys2Proof.Machine

namespace Sys2Proof

open Machine Safety

/-- Settles O45: each write by the check that may refuse it. -/
theorem contextConfiguration : Obligations.ContextConfiguration := by
  refine ⟨?_, ?_, ?_, ?_, ?_, ?_, ?_, ?_⟩
  · intro x off v i k s y r c h
    refine exists_next_refuseWrite ?_
    rcases h with ⟨rfl, rfl, hr⟩ | ⟨rfl, rfl, rfl, hclash⟩ | ⟨hc, rfl, rfl, hclash⟩ | ⟨hc, rfl, rfl, hclear, hlen⟩ |
      ⟨rfl, rfl, rfl, hcnt⟩ | ⟨rfl, rfl, rfl, hstarted⟩
    · exact congrArg Host.Outcome.next (writeChecked_refused hr)
    · exact congrArg Host.Outcome.next (writeChecked_refused (teamRefusal_clash hclash))
    · exact slotWrite_refused hc (entryRefusal_clash hclash)
    · exact slotWrite_refused hc (entryRefusal_short hclear hlen)
    · exact congrArg Host.Outcome.next (writeChecked_refused (countRefusal_bad hcnt))
    · exact congrArg Host.Outcome.next (writeChecked_refused (if_neg hstarted))
  · intro x v s h
    have hbusy := partitionRefusal_busy (v := v) h
    exact ⟨hbusy _ (by simp), hbusy _ (by simp), hbusy _ (by simp), hbusy _ (by simp)⟩
  · rintro x off v s _ rfl h
    exact exists_next_onCx (congrArg Host.Outcome.next ((writeChecked_taken h).trans partitionTake_eq))
  · intro x i v s h
    exact exists_next_onCx (congrArg Host.Outcome.next (writeChecked_taken (teamRefusal_none h)))
  · intro k v s h hlen
    rw [← ofWord_eq]
    have htaken := entryRefusal_none h hlen
    exact ⟨congrArg Host.Outcome.next (writeChecked_taken htaken), congrArg Host.Outcome.next (writeChecked_taken htaken)⟩
  · intro v s hlive hlive' hshadow hshadow'
    rw [← BitVec.ofNat_toNat]
    exact congrArg Host.Outcome.next (writeChecked_taken (countRefusal_none ⟨hlive, hlive', hshadow, hshadow'⟩))
  · exact fun s => rfl
  · intro x k v s h
    exact exists_next_onCx (congrArg Host.Outcome.next (writeChecked_taken (if_pos h)))

end Sys2Proof
end

section
/-! Attestation and sessions (R312, R468, R470, R471, R489): what one command does to the table of SPDM sessions, and to
the health of the TRNGs. -/

-- One theorem at a time, so that one compile of the text stays within the memory and the threads of a check.
set_option Elab.async false

namespace Sys2Proof.Machine

open Sys2Proof.Safety

section
variable {doe : Bool} {k : Nat} {cert : List Byte} {f : Session → Session} {act : State → State} {o : Res} {s t : State}

/-! ### The session table -/

theorem sess_congr (h : t.sec = s.sec) (d : Bool) (j : Nat) : t.sess d j = s.sess d j := by
  rw [State.sess, State.sess, h]

theorem sess_onSess (d : Bool) (j : Nat) :
    (s.onSess doe k f).sess d j = if d = doe ∧ j = k then f (s.sess doe k) else s.sess d j := by
  by_cases hd : d = doe
  · subst hd
    rw [if_congr (and_iff_right rfl) rfl rfl]
    cases d with
    | true => exact fget_fput {} k j _ s.sec.doe
    | false => exact fget_fput {} k j _ s.sec.i3c
  · rw [if_neg (hd ·.1)]
    match d, doe, hd with
    | true, false, _ => rfl
    | false, true, _ => rfl

theorem onSess_dieUp : (s.onSess doe k f).env.dieUp = s.env.dieUp := by
  cases doe <;> rfl

theorem exists_next_denied (h : o = .next (answer .denied s)) :
    ∃ t, o = .next t ∧ t.reply.status = some .denied ∧ only [.reply] s t :=
  ⟨_, h, rfl, by simp⟩

/-- A request that is answered after it changed one session. -/
theorem exists_next_respond_onSess {req : Nat} {facts : List Byte} (h : o = .next (respond req facts (s.onSess doe k f))) :
    ∃ t, o = .next t ∧ t.reply.status = some .ok ∧
      (∀ d j, t.sess d j = if d = doe ∧ j = k then f (s.sess doe k) else s.sess d j) ∧ only [.reply, .sec] s t :=
  ⟨_, h, rfl, sess_onSess, by simp⟩

/-! ### KEY_EXCHANGE and FINISH (R468, R470, R489) -/

theorem keyExchange_opened (hfree : (List.range 4).find? (fun k => !(s.sess doe k).isOpen) = some k)
    (htrng : (if doe then s.sec.trngFailX else s.sec.trngFailC) = false) :
    ∃ bytes, keyExchange doe s = drawTrng ((s.onSess doe k (fun _ => { isOpen := true })).setReply
      { status := some .ok, value := BitVec.ofNat 64 k, bytes := bytes }) :=
  ⟨_, by simp only [keyExchange, hfree, htrng]; rfl⟩

theorem keyExchange_denied (h : (List.range 4).find? (fun k => !(s.sess doe k).isOpen) = none ∨
    (if doe then s.sec.trngFailX else s.sec.trngFailC) = true) : keyExchange doe s = answer .denied s := by
  unfold keyExchange
  split
  case h_1 k hfree => exact if_pos (h.resolve_left (by simp [hfree]))
  case h_2 => rfl

theorem finishSess_verified (hopen : (s.sess doe k).isOpen = true) (hauth : (s.sess doe k).authed = false)
    (hok : requesterOk s doe cert = true) : finishSess doe k cert s =
      respond 0xE5 (dieFacts s doe) (s.onSess doe k (fun q => { q with authed := true })) := by
  rw [finishSess, if_pos (by simp [hopen, hauth]), if_pos hok]

theorem finishSess_failed (hopen : (s.sess doe k).isOpen = true) (hauth : (s.sess doe k).authed = false)
    (hok : requesterOk s doe cert = false) :
    finishSess doe k cert s = answer .denied (authFailed doe (s.onSess doe k (fun _ => {}))) := by
  rw [finishSess, if_pos (by simp [hopen, hauth]), if_neg (by simp [hok])]

theorem finishSess_denied (h : (s.sess doe k).isOpen = false ∨ (s.sess doe k).authed = true) :
    finishSess doe k cert s = answer .denied s :=
  if_neg (by rcases h with h | h <;> simp [h])

theorem authFailed_sec : (authFailed doe s).sec = s.sec :=
  kept .sec (T := [.hdrs, .host, .glob, .evts, .hut]) (by simp)

/-- R489: the compute die raises SPDM_AUTH_FAIL itself; for Cairn it is raised where the die is up. -/
theorem authFailed_raised (h : doe = true ∨ s.env.dieUp = true) :
    ((authFailed doe s).hdr pgSec).stat &&& bitMask 3 = bitMask 3 := by
  cases doe with
  | true => exact raise_raised pgSec 3 _
  | false =>
    have hup : s.env.dieUp = true := h.resolve_left (by simp)
    rw [authFailed, if_neg (by simp), when, if_pos hup]
    exact raise_raised pgSec 3 _

/-! ### Requests inside a session, and its loss (R470) -/

theorem inSess_authed (h : (s.sess doe k).authed = true) : inSess doe k act s = act s := if_pos h

theorem inSess_denied (h : (s.sess doe k).authed = false) : inSess doe k act s = answer .denied s :=
  if_neg (by simp [h])

theorem exec_keyUpdate_authed {k : Fin 4} (h : (s.sess doe k.val).authed = true) : exec (.keyUpdate doe k) s =
    .next (respond 0xE9 (dieFacts s doe) (s.onSess doe k.val (fun q => { q with keyGen := q.keyGen + 1 }))) :=
  congrArg Host.Outcome.next (inSess_authed h)

theorem exec_endSession_authed {k : Fin 4} (h : (s.sess doe k.val).authed = true) :
    exec (.endSession doe k) s = .next (respond 0xEC (dieFacts s doe) (s.onSess doe k.val (fun _ => {}))) :=
  congrArg Host.Outcome.next (inSess_authed h)

theorem heartbeatLoss_closed (h : (s.sess doe k).isOpen = false) : heartbeatLoss doe k s = s :=
  if_neg (by simp [h])

theorem campEvent_sec (code value arg : Nat) : (campEvent code value arg s).sec = s.sec :=
  kept .sec (T := [.hdrs, .host, .glob, .evts]) (by simp)

theorem heartbeatLoss_sec (h : (s.sess doe k).isOpen = true) :
    (heartbeatLoss doe k s).sec = (s.onSess doe k (fun _ => {})).sec := by
  rw [heartbeatLoss, if_pos h]
  cases doe with
  | true => exact campEvent_sec _ _ _
  | false => exact cairnEvent_sec' _ _ _ _

/-! ### TRNG health (R468) -/

theorem raise_sec (p n : Nat) : (raise p n s).sec = s.sec := kept .sec (T := [.hdrs, .host, .glob]) (by simp)

theorem trngFail_sec (die : Bool) : (trngFail die s).sec =
    if die then { s.sec with trngFailX := true } else { s.sec with trngFailC := true } := by
  cases die with
  | true => exact (raise_sec _ _).trans (campEvent_sec _ _ _)
  | false => exact cairnEvent_sec' _ _ _ _

theorem trngFail_raised : ((trngFail true s).hdr pgSec).stat &&& bitMask 0 = bitMask 0 := raise_raised pgSec 0 _

end

end Sys2Proof.Machine

namespace Sys2Proof

open Machine Safety

/-- Settles O41: each request by the session it names. -/
theorem attestationAndSessionCommands : Obligations.AttestationAndSessionCommands := by
  refine ⟨⟨?_, ?_⟩, ?_, ?_, ?_, ?_, ?_, ?_, ?_, ?_⟩
  · exact fun doe s => ⟨rfl, rfl, rfl, rfl, rfl, rfl, rfl⟩
  · exact fun x s => ⟨rfl, rfl, rfl, rfl⟩
  · intro doe k s hfree htrng
    obtain ⟨bytes, hopened⟩ := keyExchange_opened hfree htrng
    refine ⟨_, congrArg Host.Outcome.next hopened, rfl, rfl, fun d j => ?_, ?_⟩
    · exact (sess_congr (s := s.onSess doe k (fun _ => { isOpen := true })) rfl d j).trans (sess_onSess d j)
    · rw [← hopened]
      simp
  · exact fun doe s h => exists_next_denied (congrArg Host.Outcome.next (keyExchange_denied h))
  · intro doe k cert s hopen hauth
    constructor
    · exact fun hok => exists_next_respond_onSess (congrArg Host.Outcome.next (finishSess_verified hopen hauth hok))
    · intro hok
      refine ⟨_, congrArg Host.Outcome.next (finishSess_failed hopen hauth hok), rfl, fun d j => ?_, fun h => ?_, ?_⟩
      · exact (sess_congr authFailed_sec d j).trans (sess_onSess d j)
      · exact authFailed_raised (h.imp_right onSess_dieUp.trans)
      · rw [← finishSess_failed hopen hauth hok]
        simp
  · exact fun doe k cert s h => exists_next_denied (congrArg Host.Outcome.next (finishSess_denied h))
  · intro doe k s h c hc
    refine exists_next_denied ?_
    simp only [List.mem_cons, List.not_mem_nil, or_false] at hc
    rcases hc with rfl | rfl | rfl
    · exact congrArg Host.Outcome.next (inSess_denied h)
    · exact congrArg Host.Outcome.next (inSess_denied h)
    · exact congrArg Host.Outcome.next (inSess_denied h)
  · intro doe k s h
    refine ⟨?_, ?_, ?_⟩
    · exact exists_next_respond_onSess (exec_keyUpdate_authed h)
    · exact ⟨_, congrArg Host.Outcome.next (inSess_authed h), rfl, by simp⟩
    · exact exists_next_respond_onSess (exec_endSession_authed h)
  · intro doe k s
    constructor
    · exact fun hopen => ⟨_, rfl, fun d j => (sess_congr (heartbeatLoss_sec hopen) d j).trans (sess_onSess d j), by simp⟩
    · exact fun hclosed => congrArg Host.Outcome.next (heartbeatLoss_closed hclosed)
  · intro die s
    constructor
    · refine ⟨_, rfl, trngFail_sec die, ?_, by simp⟩
      rintro rfl
      exact trngFail_raised
    · cases die <;> rfl

end Sys2Proof
end

section
/-! The TDIs, the IDE streams and the PCIe link (R286, R287, R311–R316, R541): what one command does to a function's rings
and TDI, and to the link. -/

-- The definitions below serve proofs alone, so no code is compiled for them.
-- One theorem at a time, so that one compile of the text stays within the memory and the threads of a check.
set_option Elab.async false

namespace Sys2Proof.Machine

open Sys2Proof.Safety

/-! ### The tables of a reset ring (R315) -/

section
variable {β γ : Type}

theorem fget_map_values (g : β → γ) (d : β) (k : Nat) (m : FMap β) :
    fget (g d) (m.map (fun e => (e.1, g e.2))) k = g (fget d m k) := by
  induction m with
  | nil => rfl
  | cons e m ih => exact (if_congr Iff.rfl rfl ih).trans (apply_ite g _ _ _).symm

/-- Where no key stands twice, entries equal to the default can be dropped. -/
theorem fget_filter_ne_default [DecidableEq β] (d : β) (k : Nat) (m : FMap β) (hm : (m.map (·.1)).Nodup) :
    fget d (m.filter (fun e => e.2 != d)) k = fget d m k := by
  induction m with
  | nil => rfl
  | cons e m ih =>
    have ih := ih hm.of_cons
    by_cases hv : e.2 = d
    · have hrest (hk : e.1 = k) : fget d m k = d :=
        fget_none d k m (fun e' he heq => (List.nodup_cons.mp hm).1 (List.mem_map.mpr ⟨e', he, heq.trans hk.symm⟩))
      rw [List.filter_cons_of_neg (by rw [hv]; simp), ih, fget, hv]
      split
      case isTrue hk => exact hrest hk
      case isFalse => rfl
    · rw [List.filter_cons_of_pos (p := fun e : Nat × β => e.2 != d) (bne_iff_ne.mpr hv), fget, fget, ih]

end

theorem ringsReset_sq (h : FnHost) (i : Nat) (hkeys : (h.sqs.map (·.1)).Nodup) :
    fget {} h.ringsReset.sqs i = { inFlight := (fget {} h.sqs i).inFlight } := by
  have hkeys' : ((h.sqs.map (fun e => (e.1, ({ inFlight := e.2.inFlight } : SqRing)))).map (·.1)).Nodup := by
    rwa [List.map_map]
  exact (fget_filter_ne_default {} i _ hkeys').trans
    (fget_map_values (fun q : SqRing => ({ inFlight := q.inFlight } : SqRing)) {} i h.sqs)

/-! ### What an event leaves of a function and of the host block -/

/-- The host block but for its functions. -/
noncomputable def HostBlk.shared (b : HostBlk) : HostBlk := { b with fns := [] }

/-- What two host blocks share, they show in every field but the functions. -/
theorem HostBlk.field_eq {α : Type} {b c : HostBlk} (h : b.shared = c) (field : HostBlk → α)
    (hfield : ∀ b, field b.shared = field b) : field b = field c :=
  (hfield b).symm.trans (congrArg field h)

section
variable {x f n : Nat} {g g' : FnHost → FnHost} {o : Res} {s : State}

theorem raise_shared (p n : Nat) : (raise p n s).host.shared = s.host.shared := by
  rw [raise_host]
  rfl

theorem tdiError_tdi : ((tdiError x s).fn f).tdi = if f = fnOf x then .error else (s.fn f).tdi := by
  rw [tdiError, raise_fn, fn_onFn]
  split <;> rfl

/-- A TDI's error changes its state, and what is sent to its function's vectors. -/
theorem tdiError_view {α : Type} (view : FnHost → α) (h : ∀ k d vs, view { k with tdi := d, vecs := vs } = view k) :
    view ((tdiError x s).fn f) = view (s.fn f) := by
  rw [tdiError, raise_fn, fn_onFn]
  split
  case isTrue hf => rw [hf]; exact h (s.fn (fnOf x)) .error _
  case isFalse => exact h (s.fn f) _ _

section
variable {p : Nat → Tdi → Prop} [∀ x d, Decidable (p x d)]

/-- R311, R315: the TDIs that a test names, by their number and their state, enter ERROR. -/
noncomputable def failTdis (p : Nat → Tdi → Prop) [∀ x d, Decidable (p x d)] (s : State) : State :=
  forAll (List.range 16) (fun x t => if p x (t.fn (fnOf x)).tdi then tdiError x t else t) s

/-- What no TDI's error changes, the errors of several do not. -/
theorem failTdis_same {α : Type} (view : State → α) (h : ∀ x t, view (tdiError x t) = view t) :
    view (failTdis p s) = view s := by
  refine forAll_same view _ (fun x t => ?_) _ s
  rw [apply_ite view, h, ite_self]

theorem failTdis_shared : (failTdis p s).host.shared = s.host.shared :=
  failTdis_same (fun t => t.host.shared) (fun _ _ => raise_shared _ _)

theorem failTdis_view {α : Type} (view : FnHost → α) (h : ∀ k d vs, view { k with tdi := d, vecs := vs } = view k) :
    view ((failTdis p s).fn f) = view (s.fn f) :=
  failTdis_same (fun t => view (t.fn f)) (fun _ _ => tdiError_view view h)

theorem failTdis_vf_tdi : ((failTdis p s).fn (fnOf x)).tdi =
    if x < 16 then if p x (s.fn (fnOf x)).tdi then .error else (s.fn (fnOf x)).tdi else (s.fn (fnOf x)).tdi := by
  refine forAll_range_at (fun t y => (t.fn (fnOf y)).tdi) _ (fun y d => if p y d then .error else d) ?_ ?_ s 16 x
  · intro z t y hy
    rw [apply_ite (fun t : State => (t.fn (fnOf y)).tdi), tdiError_tdi, if_neg (show fnOf y ≠ fnOf z from fun h => hy (Nat.succ.inj h)), ite_self]
  · intro z t
    rw [apply_ite (fun t : State => (t.fn (fnOf z)).tdi), tdiError_tdi, if_pos rfl]

theorem failTdis_tdi : ((failTdis p s).fn f).tdi =
    if 0 < f ∧ f ≤ 16 ∧ p (f - 1) (s.fn f).tdi then .error else (s.fn f).tdi := by
  cases f with
  | zero => exact failTdis_same (fun t => (t.fn 0).tdi) (fun _ _ => tdiError_tdi)
  | succ x =>
    exact failTdis_vf_tdi.trans ((ite_and ..).symm.trans (if_congr (and_iff_right x.succ_pos).symm rfl rfl))

end

/-! ### TDI states and function-level resets (R313, R314, R316) -/

theorem exists_next_onFn_ok (h : o = .next ((s.onFn n g).setReply { status := some .ok })) :
    ∃ t, o = .next t ∧ t.reply = { status := some .ok } ∧ (∀ f, t.fn f = if f = n then g (s.fn n) else s.fn f) ∧
      only [.reply, .host] s t :=
  ⟨_, h, rfl, fun f => fn_onFn s n f g, by simp⟩

theorem stopTdi_disabled (h : (s.cx x).st = .disabled) :
    stopTdi x s = (s.onFn (fnOf x) (fun h => { h with tdi := .unlocked })).setReply { status := some .ok } :=
  congrArg (State.setReply { status := some .ok }) (if_pos h)

theorem stopTdi_live (h : (s.cx x).st ≠ .disabled) :
    stopTdi x s = (disableCtx x s).setReply { status := some .ok } :=
  congrArg (State.setReply { status := some .ok }) (if_neg h)

theorem fn_onFn_onFn : ((s.onFn n g).onFn n g').fn f = if f = n then g' (g (s.fn n)) else s.fn f := by
  rw [fn_onFn, fn_onFn, fn_onFn, if_pos rfl]
  split <;> rfl

theorem onFn_onFn_parts : only [.host] s ((s.onFn n g).onFn n g') := by simp

theorem vfFlr_disabled (h : (s.cx x).st = .disabled) :
    vfFlr x s = reachDisabled x (s.onFn (fnOf x) (fun h => { h.ringsReset with flr := true })) := if_pos h

theorem vfFlr_live (h : (s.cx x).st ≠ .disabled) :
    vfFlr x s = disableCtx x (s.onFn (fnOf x) (fun h => { h.ringsReset with flr := true })) := if_neg h

/-! ### IDE (R311) -/

theorem ideKm_denied {sess stream : Nat} (h : (fget {} s.sec.doe sess).isOpen = false) :
    ideKm sess stream s = s.setReply { status := some .denied } :=
  if_pos (Bool.not_eq_true' _ ▸ h)

theorem ideKm_keyed {sess stream : Nat} (h : (fget {} s.sec.doe sess).isOpen = true) :
    ideKm sess stream s = (s.onHost (fun h => { h with
      ideKeys := stream :: h.ideKeys.erase stream
      ideLink := h.ideLink || stream == 0
      ideSel := if stream = 0 then h.ideSel else h.ideSel ||| (1#4 <<< (stream - 1)) })).setReply { status := some .ok } :=
  if_neg (by simp [h])

/-- The stream that failed is off, and the error is reported (R311). -/
noncomputable def streamFailed (stream : Nat) (s : State) : State := s.onHost (fun h => { h with
  ideLink := h.ideLink && stream != 0
  ideSel := if stream = 0 then h.ideSel else h.ideSel &&& ~~~ (1#4 <<< (stream - 1))
  aerFatal := h.aerFatal + 1 })

theorem ideFailure_eq (stream : Nat) (bound : BitVec 16) : ideFailure stream bound s =
    failTdis (fun x d => bound.getLsbD x = true ∧ d ≠ .unlocked ∧ d ≠ .error) (streamFailed stream s) := rfl

/-- R311: to a TDI that already is in ERROR, the failure is none. -/
theorem ideFailure_tdi (stream : Nat) (bound : BitVec 16) : ((ideFailure stream bound s).fn f).tdi =
    if 0 < f ∧ f ≤ 16 ∧ bound.getLsbD (f - 1) = true ∧ (s.fn f).tdi ≠ .unlocked then .error else (s.fn f).tdi := by
  refine (congrArg (fun t : State => (t.fn f).tdi) (ideFailure_eq stream bound)).trans (failTdis_tdi.trans ?_)
  show (if 0 < f ∧ f ≤ 16 ∧ bound.getLsbD (f - 1) = true ∧ (s.fn f).tdi ≠ .unlocked ∧ (s.fn f).tdi ≠ .error then .error
    else (s.fn f).tdi) = _
  by_cases herr : (s.fn f).tdi = .error
  · rw [herr, ite_self, ite_self]
  · simp only [ne_eq, herr, not_false_eq_true, and_true]

theorem ideFailure_shared (stream : Nat) (bound : BitVec 16) :
    (ideFailure stream bound s).host.shared = (streamFailed stream s).host.shared :=
  (congrArg (fun t : State => t.host.shared) (ideFailure_eq stream bound)).trans failTdis_shared

/-! ### HOST_LINK_RESET (R315, R541) -/

/-- Every function's rings are reset (R315). -/
noncomputable def allRingsReset (s : State) : State := forAll (List.range 17) (fun f t => t.onFn f FnHost.ringsReset) s

theorem allRingsReset_fn (hf : f < 17) : (allRingsReset s).fn f = (s.fn f).ringsReset :=
  (forAll_range_at State.fn (fun f t => t.onFn f FnHost.ringsReset) (fun _ h => h.ringsReset)
    (fun y t z hz => (fn_onFn t y z _).trans (if_neg hz)) (fun y t => (fn_onFn t y y _).trans (if_pos rfl)) s 17 f).trans
    (if_pos hf)

theorem allRingsReset_shared : (allRingsReset s).host.shared = s.host.shared :=
  forAll_same (fun t : State => t.host.shared) (fun f t => t.onFn f FnHost.ringsReset) (fun _ _ => rfl) (List.range 17) s

/-- The functions as the link's reset leaves them: a TDI in use fails (R315). -/
noncomputable def functionsReset (s : State) : State := failTdis (fun _ d => d = .locked ∨ d = .run) (allRingsReset s)

/-- What the reset clears besides the functions (R315, R541). -/
noncomputable def linkLost (flr : Bool) (t : State) : State :=
  (((errPerm (pgHost 0) (t.onHost (fun h => { h with
    linkRst := satInc h.linkRst, ideLink := false, ideSel := 0, ideKeys := [], up := h.up && flr }))).onGlob
    (fun g => { g with pend := 0, routes := [] })).onHdr pgGlobal (fun h => { h with stat := 0, en := 0 })).onHdr pgPf
    (fun h => { h with stat := 0, en := 0 })

theorem hostLinkReset_eq (flr : Bool) : hostLinkReset flr s = linkLost flr (functionsReset s) := rfl

theorem linkLost_fn (flr : Bool) : (linkLost flr s).fn f = s.fn f := rfl

theorem hostLinkReset_fn (flr : Bool) : (hostLinkReset flr s).fn f = (functionsReset s).fn f := by
  rw [hostLinkReset_eq, linkLost_fn]

theorem hostLinkReset_cqs (flr : Bool) (hf : f < 17) : ((hostLinkReset flr s).fn f).cqs = [] := by
  rw [hostLinkReset_fn, functionsReset, failTdis_view FnHost.cqs (fun _ _ _ => rfl), allRingsReset_fn hf]
  rfl

theorem hostLinkReset_sq (flr : Bool) (hf : f < 17) (hkeys : ((s.fn f).sqs.map (·.1)).Nodup) (i : Nat) :
    (hostLinkReset flr s).sq f i = { inFlight := (s.sq f i).inFlight } := by
  rw [sq_eq, hostLinkReset_fn, functionsReset, failTdis_view FnHost.sqs (fun _ _ _ => rfl), allRingsReset_fn hf, ringsReset_sq _ _ hkeys]
  rfl

theorem hostLinkReset_tdi (flr : Bool) (hf : f < 17) : ((hostLinkReset flr s).fn f).tdi =
    if 0 < f ∧ ((s.fn f).tdi = .locked ∨ (s.fn f).tdi = .run) then .error else (s.fn f).tdi := by
  rw [hostLinkReset_fn, functionsReset, failTdis_tdi, allRingsReset_fn hf]
  exact if_congr (and_congr_right' (and_iff_right (Nat.le_of_lt_succ hf))) rfl rfl

theorem linkLost_shared {t : State} (flr : Bool) (ht : t.host.shared = s.host.shared) :
    (linkLost flr t).host.shared = { s.host.shared with
      linkRst := satInc s.host.linkRst, ideLink := false, ideSel := 0, ideKeys := [], up := s.host.up && flr } :=
  congrArg (fun b : HostBlk => { b with
    linkRst := satInc b.linkRst, ideLink := false, ideSel := 0, ideKeys := [], up := b.up && flr }) ht

theorem hostLinkReset_shared (flr : Bool) : (hostLinkReset flr s).host.shared = { s.host.shared with
    linkRst := satInc s.host.linkRst, ideLink := false, ideSel := 0, ideKeys := [], up := s.host.up && flr } := by
  rw [hostLinkReset_eq]
  exact linkLost_shared flr (failTdis_shared.trans allRingsReset_shared)

theorem linkLost_glob (flr : Bool) : (linkLost flr s).glob.pend = 0 ∧ (linkLost flr s).glob.routes = [] := ⟨rfl, rfl⟩

theorem hdr_onHdr_onHdr {p q : Nat} (h : p ≠ q) (act act' : Hdr → Hdr) :
    ((s.onHdr p act).onHdr q act').hdr p = act (s.hdr p) := by
  rw [hdr_onHdr_ne, if_neg h, hdr_onHdr]

theorem linkLost_hdr (flr : Bool) :
    (((linkLost flr s).hdr pgGlobal).stat = 0 ∧ ((linkLost flr s).hdr pgGlobal).en = 0) ∧
      ((linkLost flr s).hdr pgPf).stat = 0 ∧ ((linkLost flr s).hdr pgPf).en = 0 := by
  rw [linkLost, hdr_onHdr_onHdr (by decide), hdr_onHdr]
  exact ⟨⟨rfl, rfl⟩, rfl, rfl⟩

/-- R541: no source pends, no route stands, and no bit of the GLOBAL page or of HOST page 0 is set or enabled. -/
theorem hostLinkReset_cleared (flr : Bool) :
    ((hostLinkReset flr s).glob.pend = 0 ∧ (hostLinkReset flr s).glob.routes = []) ∧
      (((hostLinkReset flr s).hdr pgGlobal).stat = 0 ∧ ((hostLinkReset flr s).hdr pgGlobal).en = 0) ∧
      ((hostLinkReset flr s).hdr pgPf).stat = 0 ∧ ((hostLinkReset flr s).hdr pgPf).en = 0 := by
  rw [hostLinkReset_eq]
  exact ⟨linkLost_glob flr, linkLost_hdr flr⟩

/-! ### PCIE_LINK_UP (R286, R287) -/

section
variable {rate : Nat} {width : BitVec 5}

theorem link_same_iff : (s.host.up && s.host.rate.toNat == rate && s.host.width == width) = true ↔
    s.host.up = true ∧ s.host.rate.toNat = rate ∧ s.host.width = width := by
  rw [Bool.and_eq_true, Bool.and_eq_true, beq_iff_eq, beq_iff_eq, and_assoc]

theorem linkUp_same (hup : s.host.up = true) (hrate : s.host.rate.toNat = rate) (hwidth : s.host.width = width) :
    linkUp rate width s = s :=
  if_pos (link_same_iff.mpr ⟨hup, hrate, hwidth⟩)

/-- The link as it came up. -/
noncomputable def linkStored (rate : Nat) (width : BitVec 5) (s : State) : State := s.onHost (fun h => { h with
  up := true, rate := BitVec.ofNat 2 rate, width := width, flit := decide (0 < rate) })

theorem linkUp_changed (h : s.host.up = false ∨ s.host.rate.toNat ≠ rate ∨ s.host.width ≠ width) :
    linkUp rate width s = raise (pgHost 0) 5 (raise pgPf 4 (linkStored rate width s)) :=
  if_neg fun hsame => by
    obtain ⟨hup, hrate, hwidth⟩ := link_same_iff.mp hsame
    exact h.elim (fun hdown => Bool.noConfusion (hup.symm.trans hdown)) (·.elim (· hrate) (· hwidth))

theorem linkUp_shared (h : s.host.up = false ∨ s.host.rate.toNat ≠ rate ∨ s.host.width ≠ width) :
    (linkUp rate width s).host.shared = (linkStored rate width s).host.shared := by
  rw [linkUp_changed h, raise_shared, raise_shared]

theorem linkUp_raised (h : s.host.up = false ∨ s.host.rate.toNat ≠ rate ∨ s.host.width ≠ width) :
    ((linkUp rate width s).hdr pgPf).stat &&& bitMask 4 = bitMask 4 ∧
      ((linkUp rate width s).hdr (pgHost 0)).stat &&& bitMask 5 = bitMask 5 := by
  rw [linkUp_changed h]
  exact ⟨raise_stays_raised _ _ (raise_raised _ _ _), raise_raised _ _ _⟩

end

end

end Sys2Proof.Machine

namespace Sys2Proof

open Machine Safety

/-- Settles O43: the TDI commands by the state they find, and the resets by what they leave of each function. -/
theorem interfaceAndLinkCommands : Obligations.InterfaceAndLinkCommands := by
  refine ⟨⟨?_, ?_, ?_⟩, ?_, ?_⟩
  · intro x s
    refine ⟨?_, ?_, ?_, ?_, ?_, ?_, ?_, ?_⟩
    · exact fun h => exists_next_onFn_ok (congrArg Host.Outcome.next (if_pos h))
    · exact fun h => congrArg Host.Outcome.next (if_neg h)
    · exact fun h => exists_next_onFn_ok (congrArg Host.Outcome.next (if_pos h))
    · exact fun h => congrArg Host.Outcome.next (if_neg h)
    · exact fun h => exists_next_onFn_ok (congrArg Host.Outcome.next (stopTdi_disabled h))
    · exact fun h => congrArg Host.Outcome.next (stopTdi_live h)
    · exact fun h => ⟨_, congrArg Host.Outcome.next (vfFlr_disabled h), fun f => fn_onFn_onFn, onFn_onFn_parts⟩
    · exact fun h => ⟨_, congrArg Host.Outcome.next (vfFlr_live h), fun f => fn_onFn s _ f _, by simp⟩
  · intro k stream s
    constructor
    · exact fun h => congrArg Host.Outcome.next (ideKm_denied h)
    · intro h
      refine ⟨_, congrArg Host.Outcome.next (ideKm_keyed h), rfl, rfl, ?_⟩
      rw [← ideKm_keyed h]
      simp
  · intro stream bound s
    have hshared := ideFailure_shared (s := s) stream.val bound
    exact ⟨_, rfl, HostBlk.field_eq hshared HostBlk.ideLink (fun _ => rfl), HostBlk.field_eq hshared HostBlk.ideSel (fun _ => rfl),
      HostBlk.field_eq hshared HostBlk.aerFatal (fun _ => rfl), fun f => ideFailure_tdi stream.val bound, by simp⟩
  · intro flr s
    have hshared := hostLinkReset_shared (s := s) flr
    obtain ⟨⟨hpend, hroutes⟩, ⟨hstat, hen⟩, hstat', hen'⟩ := hostLinkReset_cleared (s := s) flr
    exact ⟨hostLinkReset flr s, rfl, fun f hf => ⟨hostLinkReset_cqs flr hf, hostLinkReset_sq flr hf, hostLinkReset_tdi flr hf⟩,
      HostBlk.field_eq hshared HostBlk.linkRst (fun _ => rfl), HostBlk.field_eq hshared HostBlk.ideLink (fun _ => rfl),
      HostBlk.field_eq hshared HostBlk.ideSel (fun _ => rfl), HostBlk.field_eq hshared HostBlk.ideKeys (fun _ => rfl),
      HostBlk.field_eq hshared HostBlk.up (fun _ => rfl), hpend, hroutes, hstat, hen, hstat', hen', by simp⟩
  · intro rate width s
    constructor
    · exact fun hup hrate hwidth => congrArg Host.Outcome.next (linkUp_same hup hrate hwidth)
    · intro h
      have hshared := linkUp_shared h
      exact ⟨_, rfl, HostBlk.field_eq hshared HostBlk.up (fun _ => rfl), HostBlk.field_eq hshared HostBlk.rate (fun _ => rfl),
        HostBlk.field_eq hshared HostBlk.width (fun _ => rfl), HostBlk.field_eq hshared HostBlk.flit (fun _ => rfl), (linkUp_raised h).1,
        (linkUp_raised h).2, by simp⟩

end Sys2Proof
end
